-- ==== Sys2Proof/Word.lean ====
section
/-!
DEFINITION. Word.lean: the machine word and the plain data shapes that every other file uses.
-/
namespace Sys2Proof

/-- A 64-bit lane register (R12). -/
abbrev Word := BitVec 64

/-- A byte, the smallest addressable unit (R9). -/
abbrev Byte := BitVec 8

/-- The 32 lanes of a group, bit `i` standing for lane `i` (R138). -/
abbrev LaneMask := BitVec 32

/-- A 20-bit byte offset within SEG3 (R21). -/
abbrev Offset := BitVec 20

/-- Data kept by number: entries in rising order of key, no key twice. -/
abbrev Sparse (α : Type) := List (Nat × α)

end Sys2Proof
end

