-- ==== Sys2Proof/Syntax.lean ====
section
/-!
DEFINITION. Syntax.lean: the instructions and events of spec/opcode_table.json, one constructor of `Instr` for each row,
with operands named as the spec names them.
-/
namespace Sys2Proof

/-- A register a word can write: w0 to w39, t0, t1 (R14, R70). -/
inductive Reg where
  | w (n : Fin 40)
  | t (n : Fin 2)
  deriving DecidableEq, Repr

/-- An operand a word can read (R14, R70). -/
inductive Src where
  | reg (r : Reg)
  | k (n : Fin 16)
  | z
  | lane
  | h
  deriving DecidableEq, Repr

/-- The integer types, codes 0 to 7 (R80). -/
inductive IntTy where
  | i8 | i16 | i32 | i64 | n8 | n16 | n32 | n64
  deriving DecidableEq, Repr

/-- The float types, codes 0 to 2 (R80). -/
inductive FltTy where
  | f16 | f32 | f64
  deriving DecidableEq, Repr

/-- A type that a conversion names (R81). -/
inductive NumTy where
  | int (t : IntTy)
  | flt (t : FltTy)
  deriving DecidableEq, Repr

/-- Rounding modes, codes 0 to 4 (R45): nearest even, toward zero, up, down, stochastic. -/
inductive Round where
  | rne | rz | ru | rd | rs
  deriving DecidableEq, Repr

/-- Overflow policies, codes 0 to 3 (R52). -/
inductive Policy where
  | sat | inf | nan | trap
  deriving DecidableEq, Repr

/-- Integer conditions, codes 0 to 5 (R80). -/
inductive ICond where
  | eq | ne | lt | le | gt | ge
  deriving DecidableEq, Repr

/-- Float conditions, codes 0 to 7 (R80). -/
inductive FCond where
  | eq | ne | lt | le | gt | ge | un | ord
  deriving DecidableEq, Repr

/-- How a compare combines with its predicate, codes 0 to 2 (R80). -/
inductive Comb where
  | set | and | or
  deriving DecidableEq, Repr

/-- Load sizes, codes 0 to 6 (R82). -/
inductive LdSize where
  | n8 | n16 | n32 | b64 | i8 | i16 | i32
  deriving DecidableEq, Repr

/-- Store sizes, codes 0 to 3 (R82). -/
inductive StSize where
  | b8 | b16 | b32 | b64
  deriving DecidableEq, Repr

/-- The drain types of MDRAIN, codes 0 to 3 (R294, R315). -/
inductive DrainTy where
  | raw | f32 | i8 | i16
  deriving DecidableEq, Repr

/-- The flag select of a long-latency word: flag A or flag B of its header (R25). -/
inductive FlagSel where
  | a | b
  deriving DecidableEq, Repr

/-- The special registers of R32, selectors 0x00 to 0x18. -/
inductive SReg where
  | group | core | lcore | string | die | part | phase | pwrstate | mtl | atl | xpend | arrive | time
  | taskid | world | seed | fstat | alogq | xq | noteq | seg (n : Fin 4) | trapvec
  deriving DecidableEq, Repr

/-- The management registers, in the order in which the spec gives them (log entry 8 numbers them), and last the words that
firmware and driver write outside that directory: management-core memory and EV_HEAD (R226, R231, R349, R459). -/
inductive MReg where
  | gtoCap | strimb | fillerLevel | flipSlew | railIlim | dvfsCtl | therm | stragLimit | phCtl
  | troot | accThresh | nqCtl | maintCtl | ttCtl | flogCtl | lanectl | evqCtl | xfctl
  | ctxBase | ctxCtl | ctxMap | ctxSeq | migctl | pkgDies | chkMode | ckptBase | auditWin | auditSpots | audStat
  | frecCtl | geodeCtl | strikeCtl | strikes | bootStat | meas | keystat | scrubProg | hostwin | wdog | mcwd
  | devnum | bport | route | timesync | peerCtl | peerrx | pwrLive
  | mcMem | evHead
  deriving DecidableEq, Repr

/-- What the firmware writes into a bind record (R209). -/
structure BindWrite where
  lrVa : Word
  strings : BitVec 32
  part : Fin 256
  state : Byte
  diemask : BitVec 16
  deriving DecidableEq, Repr

/-- A maintenance request (R231): the fields of the 32 bytes but OP, which the row names. -/
structure MaintReq where
  home : Byte
  rsv : BitVec 16
  len : BitVec 32
  dst : Word
  src : Word
  tag : Word
  deriving DecidableEq, Repr

/-- How an inbound write from another device acts (R242): a plain write, or an XRED with its minor, signedness and QW, its
sending core and its sequence tag (R274). -/
inductive LandOp where
  | write
  | xred (minor : Fin 16) (signed : Bool) (qw : Fin 64) (core : Fin 1024) (tag : BitVec 16)
  deriving DecidableEq, Repr

/-- A unit that retirement acts on (R419). -/
inductive RetUnit where
  | core (die : Fin 8) (core : Fin 128)
  | string (die : Fin 8) (str : Fin 32)
  | die (die : Fin 8)
  deriving DecidableEq, Repr

/-- An SPDM message as the responder of R435 sees it: the channel it came by (0 the mailbox, 1 + p Bilsol port p),
the session it belongs to, its parameter bytes and its payload. -/
structure SpdmMsg where
  channel : Fin 17
  session : BitVec 32
  param1 : Byte
  param2 : Byte
  payload : BitVec 256
  deriving DecidableEq, Repr

/-- A command slot of the mailbox without its OP (R460). -/
structure HostCmd where
  die : Byte
  tag : BitVec 16
  rsv : BitVec 32
  a0 : Word
  a1 : Word
  a2 : Word
  data : BitVec 256
  deriving DecidableEq, Repr

/-- One line of a peer checkpoint push: the plaintext that its sender's seal covers, and the key that sealed it (R471). -/
structure PushLine where
  key : Nat
  data : BitVec 512
  deriving DecidableEq, Repr

/-- Every row of spec/opcode_table.json. -/

inductive Instr where
  -- Clause headers and hint words (R72 to R77).
  | clause (len : Nat) (wait : BitVec 12) (fla flb : Option (Fin 12)) (yld : Bool)
  | himm (p : BitVec 24)
  | hsched (stay solo : Bool)
  | harith (mode : Option Round) (pol : Option Policy) (ix : Option Src)
  -- Integer words (R103 to R109).
  | add (d : Reg) (a b : Src) (t : IntTy)
  | sub (d : Reg) (a b : Src) (t : IntTy)
  | mul (d : Reg) (a b : Src) (t : IntTy)
  | mulh (d : Reg) (a b : Src) (t : IntTy)
  | min (d : Reg) (a b : Src) (t : IntTy)
  | max (d : Reg) (a b : Src) (t : IntTy)
  | abs (d : Reg) (a : Src) (t : IntTy)
  | neg (d : Reg) (a : Src) (t : IntTy)
  | and (d : Reg) (a b : Src) (t : IntTy)
  | or (d : Reg) (a b : Src) (t : IntTy)
  | xor (d : Reg) (a b : Src) (t : IntTy)
  | andn (d : Reg) (a b : Src) (t : IntTy)
  | shl (d : Reg) (a b : Src) (t : IntTy)
  | shr (d : Reg) (a b : Src) (t : IntTy)
  | sar (d : Reg) (a b : Src) (t : IntTy)
  | rol (d : Reg) (a b : Src) (t : IntTy)
  | clz (d : Reg) (a : Src) (t : IntTy)
  | popc (d : Reg) (a : Src) (t : IntTy)
  | adds (d : Reg) (a b : Src) (t : IntTy)
  | subs (d : Reg) (a b : Src) (t : IntTy)
  | avg (d : Reg) (a b : Src) (t : IntTy)
  | brev (d : Reg) (a : Src) (t : IntTy)
  | bswap (d : Reg) (a : Src) (t : IntTy)
  | addi (d : Reg) (a : Src) (i : BitVec 8) (t : IntTy)
  | andi (d : Reg) (a : Src) (i : BitVec 8) (t : IntTy)
  | ori (d : Reg) (a : Src) (i : BitVec 8) (t : IntTy)
  | xori (d : Reg) (a : Src) (i : BitVec 8) (t : IntTy)
  | shli (d : Reg) (a : Src) (i : BitVec 8) (t : IntTy)
  | shri (d : Reg) (a : Src) (i : BitVec 8) (t : IntTy)
  | sari (d : Reg) (a : Src) (i : BitVec 8) (t : IntTy)
  | movi (d : Reg) (i : BitVec 8) (t : IntTy)
  | icmp (p : Fin 8) (a b : Src) (t : IntTy) (c : Comb) (k : ICond)
  | icmpi (p : Fin 8) (a : Src) (i : BitVec 8) (t : IntTy) (k : ICond)
  | mov (d : Reg) (a : Src)
  | sel (d : Reg) (a b : Src) (p : Fin 8)
  | extw (d : Reg) (a : Src) (t : IntTy)
  | trunc (d : Reg) (a b : Src) (t : IntTy)
  | pack (d : Reg) (a b : Src) (t : IntTy)
  | unpk (d : Reg) (a : Src) (t : IntTy)
  | bfx (d : Reg) (a b : Src) (t : IntTy)
  | bfi (d : Reg) (a b : Src) (t : IntTy)
  | div (d : Reg) (a b : Src) (t : IntTy) (f : FlagSel)
  | rem (d : Reg) (a b : Src) (t : IntTy) (f : FlagSel)
  -- Predicates (R110).
  | pand (d a b : Fin 8)
  | por (d a b : Fin 8)
  | pxor (d a b : Fin 8)
  | pnot (d a : Fin 8)
  | ptow (d : Reg)
  | wtop (a : Src)
  -- Floating point, conversion and special functions (R128 to R136).
  | fadd (d : Reg) (a b : Src) (t : FltTy)
  | fsub (d : Reg) (a b : Src) (t : FltTy)
  | fmul (d : Reg) (a b : Src) (t : FltTy)
  | fmin (d : Reg) (a b : Src) (t : FltTy)
  | fmax (d : Reg) (a b : Src) (t : FltTy)
  | fabs (d : Reg) (a : Src) (t : FltTy)
  | fneg (d : Reg) (a : Src) (t : FltTy)
  | fcpys (d : Reg) (a b : Src) (t : FltTy)
  | fma (d : Reg) (a b : Src) (t : FltTy)
  | fms (d : Reg) (a b : Src) (t : FltTy)
  | fnma (d : Reg) (a b : Src) (t : FltTy)
  | fnms (d : Reg) (a b : Src) (t : FltTy)
  | fcmp (p : Fin 8) (a b : Src) (t : FltTy) (c : Comb) (k : FCond)
  | cvt (d : Reg) (a : Src) (dst src : NumTy)
  | cvs (d : Reg) (a b : Src) (dst : NumTy) (src : FltTy)
  | srq (d : Reg) (a b : Src) (dst : NumTy) (src : FltTy)
  | rcp (d : Reg) (a : Src) (t : FltTy) (f : FlagSel)
  | rsq (d : Reg) (a : Src) (t : FltTy) (f : FlagSel)
  | sqrt (d : Reg) (a : Src) (t : FltTy) (f : FlagSel)
  | fdiv (d : Reg) (a b : Src) (t : FltTy) (f : FlagSel)
  | exp2 (d : Reg) (a : Src) (t : FltTy) (f : FlagSel)
  | log2 (d : Reg) (a : Src) (t : FltTy) (f : FlagSel)
  | sinpi (d : Reg) (a : Src) (t : FltTy) (f : FlagSel)
  | cospi (d : Reg) (a : Src) (t : FltTy) (f : FlagSel)
  -- Dot products (R163 to R165).
  | dotI8 (d : Reg) (a b : Src)
  | dotN8 (d : Reg) (a b : Src)
  | dotIn8 (d : Reg) (a b : Src)
  | dotI4 (d : Reg) (a b : Src)
  | dotN4 (d : Reg) (a b : Src)
  | dotI16 (d : Reg) (a b : Src)
  | fdotF16 (d : Reg) (a b : Src)
  -- Scratchpad access and atomics (R111 to R113, R166 to R168).
  | ld (d : Reg) (base : Src) (i : BitVec 8) (seg : Fin 4) (f : FlagSel) (z : LdSize)
  | st (v base : Src) (i : BitVec 8) (seg : Fin 4) (z : StSize)
  | ldx (d : Reg) (base x : Src) (seg : Fin 4) (f : FlagSel) (z : LdSize)
  | stx (v base x : Src) (seg : Fin 4) (z : StSize)
  | aadd (d : Reg) (a b : Src) (t : IntTy) (seg : Fin 3)
  | amin (d : Reg) (a b : Src) (t : IntTy) (seg : Fin 3)
  | amax (d : Reg) (a b : Src) (t : IntTy) (seg : Fin 3)
  | aand (d : Reg) (a b : Src) (t : IntTy) (seg : Fin 3)
  | aor (d : Reg) (a b : Src) (t : IntTy) (seg : Fin 3)
  | axor (d : Reg) (a b : Src) (t : IntTy) (seg : Fin 3)
  | axchg (d : Reg) (a b : Src) (t : IntTy) (seg : Fin 3)
  | acas (d : Reg) (a b : Src) (t : IntTy) (seg : Fin 3)
  -- Cross-lane words (R155 to R162).
  | lshf (d : Reg) (a b : Src) (t : IntTy)
  | lrot (d : Reg) (a b : Src) (t : IntTy)
  | lbcst (d : Reg) (a b : Src) (t : IntTy)
  | lscanAdd (d : Reg) (a : Src) (t : IntTy)
  | lscanMin (d : Reg) (a : Src) (t : IntTy)
  | lscanMax (d : Reg) (a : Src) (t : IntTy)
  | lscanAnd (d : Reg) (a : Src) (t : IntTy)
  | lscanOr (d : Reg) (a : Src) (t : IntTy)
  | lscanXor (d : Reg) (a : Src) (t : IntTy)
  | lscanFadd (d : Reg) (a : Src) (t : FltTy)
  | lscanFmin (d : Reg) (a : Src) (t : FltTy)
  | lscanFmax (d : Reg) (a : Src) (t : FltTy)
  | lredAdd (d : Reg) (a : Src) (t : IntTy)
  | lredMin (d : Reg) (a : Src) (t : IntTy)
  | lredMax (d : Reg) (a : Src) (t : IntTy)
  | lredAnd (d : Reg) (a : Src) (t : IntTy)
  | lredOr (d : Reg) (a : Src) (t : IntTy)
  | lredXor (d : Reg) (a : Src) (t : IntTy)
  | lredFadd (d : Reg) (a : Src) (t : FltTy)
  | lredFmin (d : Reg) (a : Src) (t : FltTy)
  | lredFmax (d : Reg) (a : Src) (t : FltTy)
  | voteAny (d a : Fin 8)
  | voteAll (d a : Fin 8)
  | ballot (d : Reg) (a : Fin 8)
  | lpopc (d : Reg) (a : Fin 8)
  -- Convergence and barriers (R169 to R173).
  | ljoin (a : Src)
  | bar (n : Fin 16) (a : Src)
  | barv (n : Fin 16) (a : Src)
  -- Control transfer (R114 to R116).
  | brDiv (p : Fin 8) (disp : BitVec 20)
  | brAny (p : Fin 8) (disp : BitVec 20)
  | brAll (p : Fin 8) (disp : BitVec 20)
  | brNone (p : Fin 8) (disp : BitVec 20)
  | jmp (disp : BitVec 20)
  | call (disp : BitVec 20)
  | jr (a : Src)
  | callr (d : Reg) (a : Src)
  | ret
  -- System words (R117 to R120).
  | nop
  | trap (code : BitVec 8)
  | brk (code : BitVec 8)
  | halt
  | sync
  | syncI
  | resw (a : Src)
  | srd (d : Reg) (sel : SReg)
  | swr (a : Src) (sel : SReg)
  | kset (k : Fin 16) (a : Src)
  | segld (a : Src) (n : Fin 4)
  | pwrp (a : Src)
  -- Exchange words (R264 to R282).
  | xld (d a b : Src)
  | xst (d a b : Src)
  | xcpy (d a b : Src)
  | xredAdd (d a b : Src) (signed : Bool)
  | xredMin (d a b : Src) (signed : Bool)
  | xredMax (d a b : Src) (signed : Bool)
  | xredAnd (d a b : Src) (signed : Bool)
  | xredOr (d a b : Src) (signed : Bool)
  | xredXor (d a b : Src) (signed : Bool)
  | xredMadd (d a b : Src)
  | xfence (a : Src)
  | xprom (a : Src)
  | topen (a : Src)
  | tseal (a : Src)
  | xcnt (a : Src)
  | xqset (a : Src)
  -- Matrix words (R311 to R320).
  | mldb (d : Reg) (a : Src)
  | mmaI4 (d : Reg) (a : Src)
  | mmaN4 (d : Reg) (a : Src)
  | mmaI8 (d : Reg) (a : Src)
  | mmaN8 (d : Reg) (a : Src)
  | mmaI16 (d : Reg) (a : Src)
  | mmaN16 (d : Reg) (a : Src)
  | mconvI4 (d : Reg) (a : Src)
  | mconvN4 (d : Reg) (a : Src)
  | mconvI8 (d : Reg) (a : Src)
  | mconvN8 (d : Reg) (a : Src)
  | mconvI16 (d : Reg) (a : Src)
  | mconvN16 (d : Reg) (a : Src)
  | mdrain (d : Reg) (a : Src) (t : DrainTy)
  | mzero (d : Reg) (a : Src)
  | mwait (p : Fin 8) (a : Src)
  | mstat (d : Reg) (a : Src)
  -- Witness words (R322 to R326).
  | awit (d : Reg) (a : Src)
  | aemit (c : Fin 8) (a b : Src)
  | aclose (d : Reg) (c : Fin 8)
  | await (a : Src)
  -- Events that the machine itself brings about: issue, completion, power, phases, engines, Granite, contexts.
  | clauseEnd (die : Fin 8) (core : Fin 128) (grp : Fin 8)
  | groupSelect (die : Fin 8) (core : Fin 128)
  | stayHoldExpire (die : Fin 8) (core : Fin 128) (grp : Fin 8)
  | loadCompletion (die : Fin 8) (core : Fin 128) (grp : Fin 8) (op : Nat)
  | idivCompletion (die : Fin 8) (core : Fin 128) (grp : Fin 8) (op : Nat)
  | sfuCompletion (die : Fin 8) (core : Fin 128) (grp : Fin 8) (op : Nat)
  | handlerEntry (die : Fin 8) (core : Fin 128) (grp : Fin 8)
  | powerStateChange (die : Fin 8) (str : Fin 32)
  | dvfsApply (die : Fin 8)
  | clockStable (die : Fin 8)
  | throttleRepeat (die : Fin 8)
  | admissionInterval (die : Fin 8)
  | dispatch (part : Fin 256)
  | timedStart (part : Fin 256) (die : Fin 8)
  | flipX (part : Fin 256)
  | flipC (part : Fin 256)
  | finalStart (part : Fin 256)
  | taskComplete (part : Fin 256)
  | heldEntry (part : Fin 256)
  | stragglerTimeout (part : Fin 256)
  | maintComplete (die : Fin 8)
  | carryForwardComplete (idx : Nat)
  | exchangeEntryStart (die : Fin 8) (core : Fin 128) (pos : Nat)
  | exchangeTransferDone (die : Fin 8) (core : Fin 128) (pos : Nat)
  | exchangeFaultPark (die : Fin 8) (core : Fin 128) (pos : Nat)
  | xredRequestApply (die : Fin 8) (core : Fin 128) (pos : Nat)
  | xpromComplete (die : Fin 8) (core : Fin 128) (pos : Nat)
  | matrixOpComplete (die : Fin 8) (core : Fin 128)
  | mwaitReturn (die : Fin 8) (core : Fin 128) (grp : Fin 8) (second : Bool)
  | mstatClearComplete (die : Fin 8) (core : Fin 128) (grp : Fin 8)
  | awaitReturn (die : Fin 8) (core : Fin 128) (grp : Fin 8) (second : Bool)
  | auditValuesArrive (die : Fin 8) (core : Fin 128)
  | assayFoldComplete (die : Fin 8) (core : Fin 128)
  | witnessRecordAccept (die : Fin 8) (core : Fin 128)
  | witnessRecordTest (num : Nat)
  | horizonMark (die : Fin 8) (core : Fin 128) (k : Nat)
  | generationRelease (idx : Nat)
  | outboundRelease (die : Fin 8)
  | rollback (part : Fin 256)
  | rerunCompare (slot : Nat)
  | retirementEffect (unit : RetUnit)
  | ctxOpComplete (part : Fin 256)
  | deviceReset
  | keyEraseConfirm (slot : Fin 64) (die : Fin 16)
  | scrubUnitDone (part : Fin 256)
  | wdogExpire (part : Fin 256)
  | mcwdExpire (die : Fin 8)
  -- Events that come from firmware, the host, other devices and the physical world, and the illegal word (R86).
  | strimbUpdate (die : Fin 8) (str : Fin 32) (i0 i1 i2 i3 : BitVec 16)
  | regulatorPhaseLost (die : Fin 8)
  | railIlimWrite (die : Fin 8) (v : Word)
  | dvfsFreqWrite (die : Fin 8) (v : Word)
  | dvfsForce (die : Fin 8) (v : Word)
  | droopDetect (die : Fin 8) (str : Fin 32)
  | droopClear (die : Fin 8) (str : Fin 32)
  | thermMigreq (die : Fin 8) (core : Fin 128) (temp : BitVec 16)
  | thermalThrottle (die : Fin 8) (core : Fin 128) (temp : BitVec 16)
  | thermalTrip (die : Fin 8) (core : Fin 128) (temp : BitVec 16)
  | bindRecordWrite (die : Fin 8) (slot : Fin 32) (r : BindWrite)
  | stragLimitWrite (part : Fin 256) (v : Word)
  | phCtlHold (part : Fin 256) (hold : Bool)
  | phCtlDiscard (part : Fin 256)
  | phCtlAbort (part : Fin 256)
  | phCtlStragClear (part : Fin 256)
  | maintCommit8 (die : Fin 8) (r : MaintReq)
  | maintCommitLine (die : Fin 8) (r : MaintReq) (line : BitVec 512)
  | pumiceCopy (die : Fin 8) (r : MaintReq)
  | pumiceZero (die : Fin 8) (r : MaintReq)
  | trootWrite (part : Fin 256) (v : Word)
  | landingWrite (src : BitVec 18) (tid : BitVec 48) (off : BitVec 46) (op : LandOp) (data : List Byte)
  | remoteReadRequest (src : BitVec 18) (tid : BitVec 48) (off : BitVec 46) (len : Nat)
  | responseTimeout (die : Fin 8) (core : Fin 128) (pos : Nat)
  | appliedResponseLost (die : Fin 8) (core : Fin 128) (pos : Nat)
  | xfctlReplay (part : Fin 256) (pcore : BitVec 10) (index : BitVec 16)
  | xfctlAbandon (part : Fin 256)
  | ctxSave (part : Fin 256)
  | ctxEvict (part : Fin 256)
  | ctxRestore (part : Fin 256)
  | migctlGo (part : Fin 256) (v : Word)
  | lanectlResume (die : Fin 8) (core : Fin 128) (grp : Fin 8) (pc : Offset) (mask : LaneMask)
  | lanectlKill (die : Fin 8) (core : Fin 128) (grp : Fin 8) (mask : LaneMask)
  | getVersion (m : SpdmMsg)
  | getCapabilities (m : SpdmMsg)
  | negotiateAlgorithms (m : SpdmMsg)
  | getDigests (m : SpdmMsg)
  | getCertificate (m : SpdmMsg)
  | spdmChallenge (m : SpdmMsg)
  | getMeasurements (m : SpdmMsg)
  | keyExchange (m : SpdmMsg)
  | spdmFinish (m : SpdmMsg)
  | spdmHeartbeat (m : SpdmMsg)
  | keyUpdate (m : SpdmMsg)
  | endSession (m : SpdmMsg)
  | vendorDefinedRequest (m : SpdmMsg) (slot : Fin 64) (exp : Bool)
  | spdmUnsupportedRequest (m : SpdmMsg)
  | collectiveRegister (id : Nat) (tid : BitVec 48) (members : List (BitVec 18)) (sessions : List (Nat × Nat × Nat))
  | collectiveMemberChanged (id : Nat) (member : BitVec 18)
  | hostIdent (c : HostCmd)
  | hostStatus (c : HostCmd)
  | hostRead (c : HostCmd)
  | hostWrite (c : HostCmd)
  | hostSubmit (c : HostCmd)
  | hostResult (c : HostCmd)
  | hostResetPartition (c : HostCmd)
  | hostResetPackage (c : HostCmd)
  | hostSpdm (c : HostCmd)
  | hostPush (c : HostCmd)
  | hostTimeset (c : HostCmd)
  | pcieFunctionLevelReset
  | wdogWrite (part : Fin 256) (v : Word)
  | mcwdKick (die : Fin 8) (v : Word)
  | devnumWrite (v : Word)
  | bilsolPortStateChange (port : Fin 16) (st : Fin 4) (peer : BitVec 18)
  | ptpSync (port : Fin 16) (offset : BitVec 32)
  | peerPushReceive (src : BitVec 18) (dst : BitVec 46) (seq : Word) (lcore : BitVec 10) (lines : List PushLine)
  | peerrxWrite (entry : Fin 16) (field : Fin 3) (v : Word)
  | registerWrite (r : MReg) (inst : Nat) (v : Word)
  | illegalInstruction (w : BitVec 32)
  | hostUnknownOp (op : Byte) (c : HostCmd)
  | recoveryVerificationResult
  | frameTagFailure (port : Fin 16)
  deriving DecidableEq, Repr

end Sys2Proof
end

