-- ==== Sys2Proof/WellFormed.lean ====
section
/-!
DEFINITION. WellFormed.lean: what the encoding requires of an instruction word's operands beyond their types.
-/
namespace Sys2Proof

/-- The 64-bit integer types, which have no form twice as wide (R107). -/
def IntTy.wide : IntTy → Bool
  | .i64 | .n64 => true
  | .i8 | .i16 | .i32 | .n8 | .n16 | .n32 => false

/-- The 8-bit integer types, which BSWAP does not take (R80). -/
def IntTy.byte : IntTy → Bool
  | .i8 | .n8 => true
  | .i16 | .i32 | .i64 | .n16 | .n32 | .n64 => false

/-- The operands that IXSRC may name: not lane and not h (R77). -/
def Src.index : Src → Bool
  | .reg _ | .k _ | .z => true
  | .lane | .h => false

/-- The pairs of types that CVT converts between (R81): not integer to integer, not a float type to itself. -/
def cvtPair : NumTy → NumTy → Bool
  | .int _, .int _ => false
  | .flt d, .flt s => decide (d ≠ s)
  | .int _, .flt _ | .flt _, .int _ => true

/-- The instruction can be encoded (R72, R77, R80, R81, R107). Events have no encoding and no requirement. -/
def Instr.wellFormed : Instr → Bool
  | .clause len _ _ _ _ => decide (1 ≤ len) && decide (len ≤ 24)
  | .harith _ _ ix => ix.all Src.index
  | .bswap _ _ t => !t.byte
  | .extw _ _ t | .trunc _ _ _ t | .pack _ _ _ t | .unpk _ _ t => !t.wide
  | .cvt _ _ dst src => cvtPair dst src
  | .rsq _ _ t _ | .exp2 _ _ t _ | .log2 _ _ t _ | .sinpi _ _ t _ | .cospi _ _ t _ => decide (t ≠ .f64)
  | .himm .. | .hsched .. | .add .. | .sub .. | .mul .. | .mulh .. | .min .. | .max .. | .abs .. | .neg .. | .and ..
  | .or .. | .xor .. | .andn .. | .shl .. | .shr .. | .sar .. | .rol .. | .clz .. | .popc .. | .adds .. | .subs ..
  | .avg .. | .brev .. | .addi .. | .andi .. | .ori .. | .xori .. | .shli .. | .shri .. | .sari .. | .movi ..
  | .icmp .. | .icmpi .. | .mov .. | .sel .. | .bfx .. | .bfi .. | .div .. | .rem .. | .pand .. | .por .. | .pxor ..
  | .pnot .. | .ptow .. | .wtop .. | .fadd .. | .fsub .. | .fmul .. | .fmin .. | .fmax .. | .fabs .. | .fneg ..
  | .fcpys .. | .fma .. | .fms .. | .fnma .. | .fnms .. | .fcmp .. | .cvs .. | .srq .. | .rcp .. | .sqrt ..
  | .fdiv .. | .dotI8 .. | .dotN8 .. | .dotIn8 .. | .dotI4 .. | .dotN4 .. | .dotI16 .. | .fdotF16 .. | .ld ..
  | .st .. | .ldx .. | .stx .. | .aadd .. | .amin .. | .amax .. | .aand .. | .aor .. | .axor .. | .axchg ..
  | .acas .. | .lshf .. | .lrot .. | .lbcst .. | .lscanAdd .. | .lscanMin .. | .lscanMax .. | .lscanAnd ..
  | .lscanOr .. | .lscanXor .. | .lscanFadd .. | .lscanFmin .. | .lscanFmax .. | .lredAdd .. | .lredMin ..
  | .lredMax .. | .lredAnd .. | .lredOr .. | .lredXor .. | .lredFadd .. | .lredFmin .. | .lredFmax .. | .voteAny ..
  | .voteAll .. | .ballot .. | .lpopc .. | .ljoin .. | .bar .. | .barv .. | .brDiv .. | .brAny .. | .brAll ..
  | .brNone .. | .jmp .. | .call .. | .jr .. | .callr .. | .ret | .nop | .trap .. | .brk .. | .halt | .sync | .syncI
  | .resw .. | .srd .. | .swr .. | .kset .. | .segld .. | .pwrp .. | .xld .. | .xst .. | .xcpy .. | .xredAdd ..
  | .xredMin .. | .xredMax .. | .xredAnd .. | .xredOr .. | .xredXor .. | .xredMadd .. | .xfence .. | .xprom ..
  | .topen .. | .tseal .. | .xcnt .. | .xqset .. | .mldb .. | .mmaI4 .. | .mmaN4 .. | .mmaI8 .. | .mmaN8 ..
  | .mmaI16 .. | .mmaN16 .. | .mconvI4 .. | .mconvN4 .. | .mconvI8 .. | .mconvN8 .. | .mconvI16 .. | .mconvN16 ..
  | .mdrain .. | .mzero .. | .mwait .. | .mstat .. | .awit .. | .aemit .. | .aclose .. | .await .. => true
  | .clauseEnd .. | .groupSelect .. | .stayHoldExpire .. | .loadCompletion .. | .idivCompletion ..
  | .sfuCompletion .. | .handlerEntry .. | .strimbUpdate .. | .powerStateChange .. | .regulatorPhaseLost ..
  | .railIlimWrite .. | .dvfsFreqWrite .. | .dvfsForce .. | .dvfsApply .. | .clockStable .. | .droopDetect ..
  | .droopClear .. | .thermMigreq .. | .thermalThrottle .. | .throttleRepeat .. | .thermalTrip ..
  | .bindRecordWrite .. | .admissionInterval .. | .dispatch .. | .timedStart .. | .flipX .. | .flipC ..
  | .finalStart .. | .taskComplete .. | .heldEntry .. | .stragglerTimeout .. | .stragLimitWrite .. | .phCtlHold ..
  | .phCtlDiscard .. | .phCtlAbort .. | .phCtlStragClear .. | .maintCommit8 .. | .maintCommitLine ..
  | .pumiceCopy .. | .pumiceZero .. | .maintComplete .. | .trootWrite .. | .carryForwardComplete ..
  | .landingWrite .. | .remoteReadRequest .. | .exchangeEntryStart .. | .exchangeTransferDone ..
  | .exchangeFaultPark .. | .xredRequestApply .. | .responseTimeout .. | .appliedResponseLost .. | .xpromComplete ..
  | .xfctlReplay .. | .xfctlAbandon .. | .matrixOpComplete .. | .mwaitReturn .. | .mstatClearComplete ..
  | .awaitReturn .. | .auditValuesArrive .. | .assayFoldComplete .. | .witnessRecordAccept ..
  | .witnessRecordTest .. | .horizonMark .. | .generationRelease .. | .outboundRelease .. | .rollback ..
  | .rerunCompare .. | .retirementEffect .. | .ctxSave .. | .ctxEvict .. | .ctxRestore .. | .ctxOpComplete ..
  | .migctlGo .. | .lanectlResume .. | .lanectlKill .. | .deviceReset | .getVersion .. | .getCapabilities ..
  | .negotiateAlgorithms .. | .getDigests .. | .getCertificate .. | .spdmChallenge .. | .getMeasurements ..
  | .keyExchange .. | .spdmFinish .. | .spdmHeartbeat .. | .keyUpdate .. | .endSession .. | .vendorDefinedRequest ..
  | .spdmUnsupportedRequest .. | .keyEraseConfirm .. | .scrubUnitDone .. | .collectiveRegister ..
  | .collectiveMemberChanged .. | .hostIdent .. | .hostStatus .. | .hostRead .. | .hostWrite .. | .hostSubmit ..
  | .hostResult .. | .hostResetPartition .. | .hostResetPackage .. | .hostSpdm .. | .hostPush .. | .hostTimeset ..
  | .pcieFunctionLevelReset | .wdogWrite .. | .wdogExpire .. | .mcwdKick .. | .mcwdExpire .. | .devnumWrite ..
  | .bilsolPortStateChange .. | .ptpSync .. | .peerPushReceive .. | .peerrxWrite .. | .registerWrite ..
  | .illegalInstruction .. | .hostUnknownOp .. | .recoveryVerificationResult | .frameTagFailure .. => true

end Sys2Proof
end

