-- ==== Sys2Proof/Decode.lean ====
section
/-!
DEFINITION. Decode.lean: the decoder of 32-bit instruction words, total and rejecting by name (R68 to R86), and the encoder,
both written from the tables of R69 to R84; the byte order of a word in memory (R9, R68).
-/
namespace Sys2Proof

/-- Why a word is no instruction (R86 step 2, and the header checks of R22). -/
inductive DecErr where
  | badHeader
  | badHint
  | reservedMajor
  | badMinor
  | badType
  | badOperand
  | readOnlyDest
  | reservedField
  | badPredicate
  | badSize
  | badSegment
  | badKind
  | badSelector
  | badNumber
  deriving DecidableEq, Repr

/-- What a part of the decoder answers. -/
abbrev Dec := Except DecErr Instr

/-- Bits `hi` to `lo` of a word. -/
def bitsOf (w : BitVec 32) (hi lo : Nat) : Nat := w.toNat / 2 ^ lo % 2 ^ (hi + 1 - lo)

/-! ## Field codes -/

/-- The operand code of a register (R70). -/
def Reg.code : Reg → Nat
  | .w n => n
  | .t n => 40 + n

/-- The operand code of a source (R70). -/
def Src.code : Src → Nat
  | .reg r => r.code
  | .k n => 42 + n
  | .z => 58
  | .lane => 59
  | .h => 63

/-- The source that an operand code names (R70). -/
def srcOf (n : Nat) : Except DecErr Src :=
  if h : n < 40 then .ok (.reg (.w ⟨n, h⟩))
  else if h : n - 40 < 2 then .ok (.reg (.t ⟨n - 40, h⟩))
  else if h : n - 42 < 16 then .ok (.k ⟨n - 42, h⟩)
  else if n = 58 then .ok .z
  else if n = 59 then .ok .lane
  else if n = 63 then .ok .h
  else .error .badOperand

/-- The register that an operand code names as a destination (R70). -/
def dstOf (n : Nat) : Except DecErr Reg :=
  if h : n < 40 then .ok (.w ⟨n, h⟩)
  else if h : n - 40 < 2 then .ok (.t ⟨n - 40, h⟩)
  else if 60 ≤ n ∧ n ≤ 62 then .error .badOperand
  else .error .readOnlyDest

/-- A field that holds a predicate or context number (R110, R318, R322). -/
def predOfCode (n : Nat) : Except DecErr (Fin 8) := if h : n < 8 then .ok ⟨n, h⟩ else .error .badPredicate

/-- The code of an integer type (R80). -/
def IntTy.code : IntTy → Nat
  | .i8 => 0 | .i16 => 1 | .i32 => 2 | .i64 => 3 | .n8 => 4 | .n16 => 5 | .n32 => 6 | .n64 => 7

/-- The integer type of a three-bit code (R80). -/
def intTyOf (n : Nat) : IntTy :=
  match n with
  | 0 => .i8 | 1 => .i16 | 2 => .i32 | 3 => .i64 | 4 => .n8 | 5 => .n16 | 6 => .n32 | _ => .n64

/-- The code of a float type (R80). -/
def FltTy.code : FltTy → Nat
  | .f16 => 0 | .f32 => 1 | .f64 => 2

/-- The float type of a code; 3 to 7 are illegal (R80). -/
def fltTyOf (n : Nat) : Except DecErr FltTy :=
  match n with
  | 0 => .ok .f16 | 1 => .ok .f32 | 2 => .ok .f64 | _ => .error .badType

/-- The type-field code of a type that a conversion names (R81). -/
def NumTy.code : NumTy → Nat
  | .int t => t.code
  | .flt t => t.code

/-- An integer type. -/
def NumTy.isInt : NumTy → Bool
  | .int _ => true
  | .flt _ => false

/-- The minor of CVT (R81). -/
def cvtMinor (dst src : NumTy) : Nat :=
  match src with
  | .flt s => if dst.isInt then 3 + s.code else s.code
  | .int s => 6 + s.code

/-- The code of a rounding mode (R45). -/
def Round.code : Round → Nat
  | .rne => 0 | .rz => 1 | .ru => 2 | .rd => 3 | .rs => 4

/-- The rounding mode of a code; 5 to 7 are illegal (R77). -/
def roundOf (n : Nat) : Except DecErr Round :=
  match n with
  | 0 => .ok .rne | 1 => .ok .rz | 2 => .ok .ru | 3 => .ok .rd | 4 => .ok .rs | _ => .error .badHint

/-- The code of an overflow policy (R52). -/
def Policy.code : Policy → Nat
  | .sat => 0 | .inf => 1 | .nan => 2 | .trap => 3

/-- The overflow policy of a two-bit code (R52). -/
def policyOf (n : Nat) : Policy :=
  match n with
  | 0 => .sat | 1 => .inf | 2 => .nan | _ => .trap

/-- The code of an integer condition (R80). -/
def ICond.code : ICond → Nat
  | .eq => 0 | .ne => 1 | .lt => 2 | .le => 3 | .gt => 4 | .ge => 5

/-- The integer condition of a code (R80). -/
def icondOf (n : Nat) : Except DecErr ICond :=
  match n with
  | 0 => .ok .eq | 1 => .ok .ne | 2 => .ok .lt | 3 => .ok .le | 4 => .ok .gt | 5 => .ok .ge | _ => .error .badMinor

/-- The code of a float condition (R80). -/
def FCond.code : FCond → Nat
  | .eq => 0 | .ne => 1 | .lt => 2 | .le => 3 | .gt => 4 | .ge => 5 | .un => 6 | .ord => 7

/-- The float condition of a three-bit code (R80). -/
def fcondOf (n : Nat) : FCond :=
  match n with
  | 0 => .eq | 1 => .ne | 2 => .lt | 3 => .le | 4 => .gt | 5 => .ge | 6 => .un | _ => .ord

/-- The code of a combination (R80). -/
def Comb.code : Comb → Nat
  | .set => 0 | .and => 1 | .or => 2

/-- The combination of a code (R80). -/
def combOf (n : Nat) : Except DecErr Comb :=
  match n with
  | 0 => .ok .set | 1 => .ok .and | 2 => .ok .or | _ => .error .badMinor

/-- The code of a load size (R82). -/
def LdSize.code : LdSize → Nat
  | .n8 => 0 | .n16 => 1 | .n32 => 2 | .b64 => 3 | .i8 => 4 | .i16 => 5 | .i32 => 6

/-- The load size of a code (R82). -/
def ldSizeOf (n : Nat) : Except DecErr LdSize :=
  match n with
  | 0 => .ok .n8 | 1 => .ok .n16 | 2 => .ok .n32 | 3 => .ok .b64 | 4 => .ok .i8 | 5 => .ok .i16 | 6 => .ok .i32
  | _ => .error .badSize

/-- The code of a store size (R82). -/
def StSize.code : StSize → Nat
  | .b8 => 0 | .b16 => 1 | .b32 => 2 | .b64 => 3

/-- The store size of a code (R82). -/
def stSizeOf (n : Nat) : Except DecErr StSize :=
  match n with
  | 0 => .ok .b8 | 1 => .ok .b16 | 2 => .ok .b32 | 3 => .ok .b64 | _ => .error .badSize

/-- The code of an MDRAIN type (R80). -/
def DrainTy.code : DrainTy → Nat
  | .raw => 0 | .f32 => 1 | .i8 => 2 | .i16 => 3

/-- The MDRAIN type of a code (R80). -/
def drainOf (n : Nat) : Except DecErr DrainTy :=
  match n with
  | 0 => .ok .raw | 1 => .ok .f32 | 2 => .ok .i8 | 3 => .ok .i16 | _ => .error .badType

/-- The code of a flag select (R69). -/
def FlagSel.code : FlagSel → Nat
  | .a => 0 | .b => 1

/-- The flag select of one bit (R69). -/
def selOf (n : Nat) : FlagSel := if n = 0 then .a else .b

/-- The selector of a special register (R32, R84). -/
def SReg.code : SReg → Nat
  | .group => 0x00 | .core => 0x01 | .lcore => 0x02 | .string => 0x03 | .die => 0x04 | .part => 0x05 | .phase => 0x06
  | .pwrstate => 0x07 | .mtl => 0x08 | .atl => 0x09 | .xpend => 0x0A | .arrive => 0x0B | .time => 0x0C
  | .taskid => 0x0D | .world => 0x0E | .seed => 0x0F | .fstat => 0x10 | .alogq => 0x11 | .xq => 0x12 | .noteq => 0x13
  | .seg n => 0x14 + n | .trapvec => 0x18

/-- The special register of a selector; 0x19 to 0xFF are illegal (R84). -/
def sregOf (n : Nat) : Except DecErr SReg :=
  match n with
  | 0x00 => .ok .group | 0x01 => .ok .core | 0x02 => .ok .lcore | 0x03 => .ok .string | 0x04 => .ok .die
  | 0x05 => .ok .part | 0x06 => .ok .phase | 0x07 => .ok .pwrstate | 0x08 => .ok .mtl | 0x09 => .ok .atl
  | 0x0A => .ok .xpend | 0x0B => .ok .arrive | 0x0C => .ok .time | 0x0D => .ok .taskid | 0x0E => .ok .world
  | 0x0F => .ok .seed | 0x10 => .ok .fstat | 0x11 => .ok .alogq | 0x12 => .ok .xq | 0x13 => .ok .noteq
  | 0x14 => .ok (.seg 0) | 0x15 => .ok (.seg 1) | 0x16 => .ok (.seg 2) | 0x17 => .ok (.seg 3) | 0x18 => .ok .trapvec
  | _ => .error .badSelector

/-- The code of a header's flag: 15 is none (R72). -/
def flagCode : Option (Fin 12) → Nat
  | some n => n
  | none => 15

/-- The flag of a header field; 12 to 14 are illegal (R72). -/
def flagOf (n : Nat) : Except DecErr (Option (Fin 12)) :=
  if h : n < 12 then .ok (some ⟨n, h⟩) else if n = 15 then .ok none else .error .badHeader

/-- A valid bit above a code of `k` bits; 0 where the field is absent (R77). -/
def optCode {α : Type} (f : α → Nat) (x : Option α) (k : Nat) : Nat :=
  match x with
  | some y => 2 ^ k + f y
  | none => 0

/-- IXV and IXSRC (R77). -/
def ixCode : Option Src → Nat
  | some x => 2 ^ 6 + x.code
  | none => 0

/-! ## Fields of a word -/

/-- A field that must be zero (R71). -/
def zero (w : BitVec 32) (hi lo : Nat) : Except DecErr Unit := if bitsOf w hi lo = 0 then .ok () else .error .reservedField

/-- Field d as a destination, and d, a and b as sources (R69). -/
def fieldD (w : BitVec 32) : Except DecErr Reg := dstOf (bitsOf w 25 20)
def fieldV (w : BitVec 32) : Except DecErr Src := srcOf (bitsOf w 25 20)
def fieldA (w : BitVec 32) : Except DecErr Src := srcOf (bitsOf w 19 14)
def fieldB (w : BitVec 32) : Except DecErr Src := srcOf (bitsOf w 13 8)

/-- imm8 (R69). -/
def fieldI (w : BitVec 32) : BitVec 8 := BitVec.ofNat 8 (bitsOf w 13 6)

/-- The type field as an integer or a float type. -/
def fieldT (w : BitVec 32) : IntTy := intTyOf (bitsOf w 7 5)
def fieldF (w : BitVec 32) : Except DecErr FltTy := fltTyOf (bitsOf w 7 5)

/-! ## Shapes of R-format words -/

/-- d, a, b and an integer type. -/
def shInt3 (f : Reg → Src → Src → IntTy → Instr) (w : BitVec 32) : Dec := do
  let d ← fieldD w
  let a ← fieldA w
  let b ← fieldB w
  .ok (f d a b (fieldT w))

/-- d, a and an integer type; b is reserved. -/
def shInt2 (f : Reg → Src → IntTy → Instr) (w : BitVec 32) : Dec := do
  let d ← fieldD w
  let a ← fieldA w
  zero w 13 8
  .ok (f d a (fieldT w))

/-- As `shInt2` with a type of 16 bits or more (R80). -/
def shBswap (f : Reg → Src → IntTy → Instr) (w : BitVec 32) : Dec :=
  if (fieldT w).byte then .error .badType else shInt2 f w

/-- As `shInt3` and `shInt2` with a type below 64 bits (R107). -/
def shNarrow3 (f : Reg → Src → Src → IntTy → Instr) (w : BitVec 32) : Dec :=
  if (fieldT w).wide then .error .badType else shInt3 f w
def shNarrow2 (f : Reg → Src → IntTy → Instr) (w : BitVec 32) : Dec :=
  if (fieldT w).wide then .error .badType else shInt2 f w

/-- d, a, b and a float type. -/
def shFlt3 (f : Reg → Src → Src → FltTy → Instr) (w : BitVec 32) : Dec := do
  let t ← fieldF w
  let d ← fieldD w
  let a ← fieldA w
  let b ← fieldB w
  .ok (f d a b t)

/-- d, a and a float type; b is reserved. -/
def shFlt2 (f : Reg → Src → FltTy → Instr) (w : BitVec 32) : Dec := do
  let t ← fieldF w
  let d ← fieldD w
  let a ← fieldA w
  zero w 13 8
  .ok (f d a t)

/-- d, a, b; the type field is zero. -/
def shReg3 (f : Reg → Src → Src → Instr) (w : BitVec 32) : Dec := do
  let d ← fieldD w
  let a ← fieldA w
  let b ← fieldB w
  zero w 7 5
  .ok (f d a b)

/-- d, a; b and the type field are zero. -/
def shReg2 (f : Reg → Src → Instr) (w : BitVec 32) : Dec := do
  let d ← fieldD w
  let a ← fieldA w
  zero w 13 5
  .ok (f d a)

/-- MOV (R107). -/
def shMov (f : Reg → Src → Instr) (w : BitVec 32) : Dec := shReg2 f w

/-- d, a, b as sources; the type field is zero (R264). -/
def shSrc3 (f : Src → Src → Src → Instr) (w : BitVec 32) : Dec := do
  let d ← fieldV w
  let a ← fieldA w
  let b ← fieldB w
  zero w 7 5
  .ok (f d a b)

/-- An XRED of type I64 or N64 (R80). -/
def shXred (f : Src → Src → Src → Bool → Instr) (w : BitVec 32) : Dec := do
  let d ← fieldV w
  let a ← fieldA w
  let b ← fieldB w
  if bitsOf w 7 5 = 3 then .ok (f d a b true)
  else if bitsOf w 7 5 = 7 then .ok (f d a b false)
  else .error .badType

/-- XRED.MADD, of type N64 (R80). -/
def shMadd (f : Src → Src → Src → Instr) (w : BitVec 32) : Dec := do
  let d ← fieldV w
  let a ← fieldA w
  let b ← fieldB w
  if bitsOf w 7 5 = 7 then .ok (f d a b) else .error .badType

/-- Source a alone. -/
def shAOnly (f : Src → Instr) (w : BitVec 32) : Dec := do
  let a ← fieldA w
  zero w 25 20
  zero w 13 5
  .ok (f a)

/-- Destination d alone. -/
def shDOnly (f : Reg → Instr) (w : BitVec 32) : Dec := do
  let d ← fieldD w
  zero w 19 5
  .ok (f d)

/-- No operand. -/
def shNone (i : Instr) (w : BitVec 32) : Dec := do
  zero w 25 5
  .ok i

/-- Three predicates (R110). -/
def shPred3 (f : Fin 8 → Fin 8 → Fin 8 → Instr) (w : BitVec 32) : Dec := do
  let d ← predOfCode (bitsOf w 25 20)
  let a ← predOfCode (bitsOf w 19 14)
  let b ← predOfCode (bitsOf w 13 8)
  zero w 7 5
  .ok (f d a b)

/-- Two predicates. -/
def shPred2 (f : Fin 8 → Fin 8 → Instr) (w : BitVec 32) : Dec := do
  let d ← predOfCode (bitsOf w 25 20)
  let a ← predOfCode (bitsOf w 19 14)
  zero w 13 5
  .ok (f d a)

/-- SEL: the type field is the predicate number (R107). -/
def shSel (f : Reg → Src → Src → Fin 8 → Instr) (w : BitVec 32) : Dec := do
  let d ← fieldD w
  let a ← fieldA w
  let b ← fieldB w
  let p ← predOfCode (bitsOf w 7 5)
  .ok (f d a b p)

/-- A register and a predicate in field a (R161). -/
def shBallot (f : Reg → Fin 8 → Instr) (w : BitVec 32) : Dec := do
  let d ← fieldD w
  let a ← predOfCode (bitsOf w 19 14)
  zero w 13 5
  .ok (f d a)

/-- A barrier number in field d (R171). -/
def shBar (f : Fin 16 → Src → Instr) (w : BitVec 32) : Dec := do
  let a ← fieldA w
  zero w 13 5
  if h : bitsOf w 25 20 < 16 then .ok (f ⟨bitsOf w 25 20, h⟩ a) else .error .badNumber

/-- MDRAIN (R315). -/
def shDrain (f : Reg → Src → DrainTy → Instr) (w : BitVec 32) : Dec := do
  let t ← drainOf (bitsOf w 7 5)
  let d ← fieldD w
  let a ← fieldA w
  zero w 13 8
  .ok (f d a t)

/-- MWAIT: a predicate in field d (R318). -/
def shMwait (f : Fin 8 → Src → Instr) (w : BitVec 32) : Dec := do
  let p ← predOfCode (bitsOf w 25 20)
  let a ← fieldA w
  zero w 13 5
  .ok (f p a)

/-- AEMIT: a context number in field d (R324). -/
def shEmit (f : Fin 8 → Src → Src → Instr) (w : BitVec 32) : Dec := do
  let c ← predOfCode (bitsOf w 25 20)
  let a ← fieldA w
  let b ← fieldB w
  zero w 7 5
  .ok (f c a b)

/-- ACLOSE: a context number in field a (R325). -/
def shAclose (f : Reg → Fin 8 → Instr) (w : BitVec 32) : Dec := do
  let d ← fieldD w
  let c ← predOfCode (bitsOf w 19 14)
  zero w 13 5
  .ok (f d c)

/-! ## Majors -/

/-- Major 0x02 (R80, R103). -/
def decIalu (w : BitVec 32) : Dec :=
  match bitsOf w 4 0 with
  | 0 => shInt3 .add w
  | 1 => shInt3 .sub w
  | 2 => shInt3 .mul w
  | 3 => shInt3 .mulh w
  | 4 => shInt3 .min w
  | 5 => shInt3 .max w
  | 6 => shInt2 .abs w
  | 7 => shInt2 .neg w
  | 8 => shInt3 .and w
  | 9 => shInt3 .or w
  | 10 => shInt3 .xor w
  | 11 => shInt3 .andn w
  | 12 => shInt3 .shl w
  | 13 => shInt3 .shr w
  | 14 => shInt3 .sar w
  | 15 => shInt3 .rol w
  | 16 => shInt2 .clz w
  | 17 => shInt2 .popc w
  | 18 => shInt3 .adds w
  | 19 => shInt3 .subs w
  | 20 => shInt3 .avg w
  | 21 => shInt2 .brev w
  | 22 => shBswap .bswap w
  | _ => .error .badMinor

/-- Major 0x06 (R80, R107). -/
def decMove (w : BitVec 32) : Dec :=
  match bitsOf w 4 0 with
  | 0 => shMov .mov w
  | 1 => shSel .sel w
  | 2 => shNarrow2 .extw w
  | 3 => shNarrow3 .trunc w
  | 4 => shNarrow3 .pack w
  | 5 => shNarrow2 .unpk w
  | 6 => shInt3 .bfx w
  | 7 => shInt3 .bfi w
  | _ => .error .badMinor

/-- Major 0x08 (R80, R110). -/
def decPred (w : BitVec 32) : Dec :=
  match bitsOf w 4 0 with
  | 0 => shPred3 .pand w
  | 1 => shPred3 .por w
  | 2 => shPred3 .pxor w
  | 3 => shPred2 .pnot w
  | 4 => shDOnly .ptow w
  | 5 => shAOnly .wtop w
  | _ => .error .badMinor

/-- Major 0x09 (R80, R128). -/
def decFalu (w : BitVec 32) : Dec :=
  match bitsOf w 4 0 with
  | 0 => shFlt3 .fadd w
  | 1 => shFlt3 .fsub w
  | 2 => shFlt3 .fmul w
  | 3 => shFlt3 .fmin w
  | 4 => shFlt3 .fmax w
  | 5 => shFlt2 .fabs w
  | 6 => shFlt2 .fneg w
  | 7 => shFlt3 .fcpys w
  | _ => .error .badMinor

/-- Major 0x0A (R80, R129). -/
def decFfma (w : BitVec 32) : Dec :=
  match bitsOf w 4 0 with
  | 0 => shFlt3 .fma w
  | 1 => shFlt3 .fms w
  | 2 => shFlt3 .fnma w
  | 3 => shFlt3 .fnms w
  | _ => .error .badMinor

/-- Major 0x0E (R80, R163). -/
def decDot (w : BitVec 32) : Dec :=
  match bitsOf w 4 0 with
  | 0 => shReg3 .dotI8 w
  | 1 => shReg3 .dotN8 w
  | 2 => shReg3 .dotIn8 w
  | 3 => shReg3 .dotI4 w
  | 4 => shReg3 .dotN4 w
  | 5 => shReg3 .dotI16 w
  | 6 => shReg3 .fdotF16 w
  | _ => .error .badMinor

/-- Major 0x15 (R80, R155). -/
def decLane (w : BitVec 32) : Dec :=
  match bitsOf w 4 0 with
  | 0 => shInt3 .lshf w
  | 1 => shInt3 .lrot w
  | 2 => shInt3 .lbcst w
  | 4 => shInt2 .lscanAdd w
  | 5 => shInt2 .lscanMin w
  | 6 => shInt2 .lscanMax w
  | 7 => shInt2 .lscanAnd w
  | 8 => shInt2 .lscanOr w
  | 9 => shInt2 .lscanXor w
  | 10 => shFlt2 .lscanFadd w
  | 11 => shFlt2 .lscanFmin w
  | 12 => shFlt2 .lscanFmax w
  | 16 => shInt2 .lredAdd w
  | 17 => shInt2 .lredMin w
  | 18 => shInt2 .lredMax w
  | 19 => shInt2 .lredAnd w
  | 20 => shInt2 .lredOr w
  | 21 => shInt2 .lredXor w
  | 22 => shFlt2 .lredFadd w
  | 23 => shFlt2 .lredFmin w
  | 24 => shFlt2 .lredFmax w
  | 25 => shPred2 .voteAny w
  | 26 => shPred2 .voteAll w
  | 27 => shBallot .ballot w
  | 28 => shBallot .lpopc w
  | _ => .error .badMinor

/-- Major 0x16 (R80, R169). -/
def decConv (w : BitVec 32) : Dec :=
  match bitsOf w 4 0 with
  | 0 => shAOnly .ljoin w
  | 1 => shBar .bar w
  | 2 => shBar .barv w
  | _ => .error .badMinor

/-- Major 0x18 (R80, R116). -/
def decJr (w : BitVec 32) : Dec :=
  match bitsOf w 4 0 with
  | 0 => shAOnly .jr w
  | 1 => shReg2 .callr w
  | 2 => shNone .ret w
  | _ => .error .badMinor

/-- Major 0x1A (R80, R264). -/
def decXch (w : BitVec 32) : Dec :=
  match bitsOf w 4 0 with
  | 0 => shSrc3 .xld w
  | 1 => shSrc3 .xst w
  | 2 => shSrc3 .xcpy w
  | 3 => shXred .xredAdd w
  | 4 => shXred .xredMin w
  | 5 => shXred .xredMax w
  | 6 => shXred .xredAnd w
  | 7 => shXred .xredOr w
  | 8 => shXred .xredXor w
  | 9 => shMadd .xredMadd w
  | 10 => shAOnly .xfence w
  | 11 => shAOnly .xprom w
  | 12 => shAOnly .topen w
  | 13 => shAOnly .tseal w
  | 14 => shAOnly .xcnt w
  | 15 => shAOnly .xqset w
  | _ => .error .badMinor

/-- Major 0x1B (R80, R311). -/
def decMat (w : BitVec 32) : Dec :=
  match bitsOf w 4 0 with
  | 0 => shReg2 .mldb w
  | 1 => shReg2 .mmaI4 w
  | 2 => shReg2 .mmaN4 w
  | 3 => shReg2 .mmaI8 w
  | 4 => shReg2 .mmaN8 w
  | 5 => shReg2 .mmaI16 w
  | 6 => shReg2 .mmaN16 w
  | 7 => shReg2 .mconvI4 w
  | 8 => shReg2 .mconvN4 w
  | 9 => shReg2 .mconvI8 w
  | 10 => shReg2 .mconvN8 w
  | 11 => shReg2 .mconvI16 w
  | 12 => shReg2 .mconvN16 w
  | 13 => shDrain .mdrain w
  | 14 => shReg2 .mzero w
  | 15 => shMwait .mwait w
  | 16 => shReg2 .mstat w
  | _ => .error .badMinor

/-- Major 0x1C (R80, R322). -/
def decWit (w : BitVec 32) : Dec :=
  match bitsOf w 4 0 with
  | 0 => shReg2 .awit w
  | 1 => shEmit .aemit w
  | 2 => shAclose .aclose w
  | 3 => shAOnly .await w
  | _ => .error .badMinor

/-- Major 0x00: a clause header that passes the header checks (R22, R72). -/
def decClause (w : BitVec 32) : Dec := do
  let fla ← flagOf (bitsOf w 8 5)
  let flb ← flagOf (bitsOf w 4 1)
  if 1 ≤ bitsOf w 25 21 ∧ bitsOf w 25 21 ≤ 24 then
    .ok (.clause (bitsOf w 25 21) (BitVec.ofNat 12 (bitsOf w 20 9)) fla flb (bitsOf w 0 0 == 1))
  else .error .badHeader

/-- IXSRC of a kind-2 hint: lane and h are illegal (R77). -/
def ixOf (n : Nat) : Except DecErr Src :=
  match srcOf n with
  | .ok x => if x.index then .ok x else .error .badHint
  | .error e => .error e

/-- A field that stands behind a valid bit, and must be zero without it (R77). -/
def optOf {α : Type} (valid n : Nat) (f : Nat → Except DecErr α) : Except DecErr (Option α) :=
  if valid = 0 then (if n = 0 then .ok none else .error .badHint)
  else
    match f n with
    | .ok x => .ok (some x)
    | .error e => .error e

/-- Major 0x01: hint words (R74 to R77). -/
def decHint (w : BitVec 32) : Dec :=
  match bitsOf w 25 24 with
  | 0 => .ok (.himm (BitVec.ofNat 24 (bitsOf w 23 0)))
  | 1 =>
    if bitsOf w 23 2 = 0 then .ok (.hsched (bitsOf w 1 1 == 1) (bitsOf w 0 0 == 1)) else .error .badHint
  | 2 => do
    let m ← optOf (bitsOf w 23 23) (bitsOf w 22 20) roundOf
    let p ← optOf (bitsOf w 19 19) (bitsOf w 18 17) fun n => .ok (policyOf n)
    let x ← optOf (bitsOf w 16 16) (bitsOf w 15 10) ixOf
    if bitsOf w 9 0 = 0 then .ok (.harith m p x) else .error .badHint
  | _ => .error .badHint

/-- Major 0x03: IALUI, the type in bits 5:3 (R80, R85). -/
def decIalui (w : BitVec 32) : Dec := do
  let d ← fieldD w
  let t := intTyOf (bitsOf w 5 3)
  if bitsOf w 2 0 = 7 then
    zero w 19 14
    .ok (.movi d (fieldI w) t)
  else
    let a ← fieldA w
    match bitsOf w 2 0 with
    | 0 => .ok (.addi d a (fieldI w) t)
    | 1 => .ok (.andi d a (fieldI w) t)
    | 2 => .ok (.ori d a (fieldI w) t)
    | 3 => .ok (.xori d a (fieldI w) t)
    | 4 => .ok (.shli d a (fieldI w) t)
    | 5 => .ok (.shri d a (fieldI w) t)
    | _ => .ok (.sari d a (fieldI w) t)

/-- Major 0x04: ICMP (R80, R105). -/
def decIcmp (w : BitVec 32) : Dec := do
  let p ← predOfCode (bitsOf w 25 20)
  let a ← fieldA w
  let b ← fieldB w
  let c ← combOf (bitsOf w 4 3)
  let k ← icondOf (bitsOf w 2 0)
  .ok (.icmp p a b (fieldT w) c k)

/-- Major 0x05: ICMPI (R80, R85). -/
def decIcmpi (w : BitVec 32) : Dec := do
  let p ← predOfCode (bitsOf w 25 20)
  let a ← fieldA w
  let k ← icondOf (bitsOf w 2 0)
  .ok (.icmpi p a (fieldI w) (intTyOf (bitsOf w 5 3)) k)

/-- Major 0x07: IDIV, minor bit 4 the flag select (R80, R109). -/
def decIdiv (w : BitVec 32) : Dec :=
  match bitsOf w 3 0 with
  | 0 => shInt3 (fun d a b t => .div d a b t (selOf (bitsOf w 4 4))) w
  | 1 => shInt3 (fun d a b t => .rem d a b t (selOf (bitsOf w 4 4))) w
  | _ => .error .badMinor

/-- Major 0x0B: FCMP (R80, R131). -/
def decFcmp (w : BitVec 32) : Dec := do
  let t ← fieldF w
  let p ← predOfCode (bitsOf w 25 20)
  let a ← fieldA w
  let b ← fieldB w
  let c ← combOf (bitsOf w 4 3)
  .ok (.fcmp p a b t c (fcondOf (bitsOf w 2 0)))

/-- CVT (R81). -/
def decCvt (dst src : NumTy) (w : BitVec 32) : Dec := do
  let d ← fieldD w
  let a ← fieldA w
  zero w 13 8
  if cvtPair dst src then .ok (.cvt d a dst src) else .error .badType

/-- Major 0x0C: FCVT (R81). -/
def decFcvt (w : BitVec 32) : Dec :=
  let m := bitsOf w 4 0
  if m < 3 then do
    let s ← fltTyOf m
    let t ← fieldF w
    decCvt (.flt t) (.flt s) w
  else if m < 6 then do
    let s ← fltTyOf (m - 3)
    decCvt (.int (fieldT w)) (.flt s) w
  else if m < 14 then do
    let t ← fieldF w
    decCvt (.flt t) (.int (intTyOf (m - 6))) w
  else if m < 17 then do
    let s ← fltTyOf (m - 14)
    shInt3 (fun d a b t => .cvs d a b (.int t) s) w
  else if m < 20 then do
    let s ← fltTyOf (m - 17)
    shFlt3 (fun d a b t => .cvs d a b (.flt t) s) w
  else if m < 23 then do
    let s ← fltTyOf (m - 20)
    shFlt3 (fun d a b t => .srq d a b (.flt t) s) w
  else if m < 26 then do
    let s ← fltTyOf (m - 23)
    shInt3 (fun d a b t => .srq d a b (.int t) s) w
  else .error .badMinor

/-- An SFU member without an F64 form (R80). -/
def shFlt2Narrow (f : Reg → Src → FltTy → Instr) (w : BitVec 32) : Dec :=
  if bitsOf w 7 5 = 2 then .error .badType else shFlt2 f w

/-- Major 0x0D: SFU, minor bit 4 the flag select (R80, R136). -/
def decSfu (w : BitVec 32) : Dec :=
  let f := selOf (bitsOf w 4 4)
  match bitsOf w 3 0 with
  | 0 => shFlt2 (fun d a t => .rcp d a t f) w
  | 1 => shFlt2Narrow (fun d a t => .rsq d a t f) w
  | 2 => shFlt2 (fun d a t => .sqrt d a t f) w
  | 3 => shFlt3 (fun d a b t => .fdiv d a b t f) w
  | 4 => shFlt2Narrow (fun d a t => .exp2 d a t f) w
  | 5 => shFlt2Narrow (fun d a t => .log2 d a t f) w
  | 6 => shFlt2Narrow (fun d a t => .sinpi d a t f) w
  | 7 => shFlt2Narrow (fun d a t => .cospi d a t f) w
  | _ => .error .badMinor

/-- The segment of an M-format word (R82). -/
def fieldS (w : BitVec 32) : Fin 4 := Fin.ofNat 4 (bitsOf w 5 4)

/-- Majors 0x10 to 0x13 (R82). -/
def decLd (w : BitVec 32) : Dec := do
  let d ← fieldD w
  let b ← fieldA w
  let z ← ldSizeOf (bitsOf w 2 0)
  .ok (.ld d b (fieldI w) (fieldS w) (selOf (bitsOf w 3 3)) z)
def decSt (w : BitVec 32) : Dec := do
  let v ← fieldV w
  let b ← fieldA w
  zero w 3 3
  let z ← stSizeOf (bitsOf w 2 0)
  .ok (.st v b (fieldI w) (fieldS w) z)
def decLdx (w : BitVec 32) : Dec := do
  let d ← fieldD w
  let b ← fieldA w
  let x ← fieldB w
  zero w 7 6
  let z ← ldSizeOf (bitsOf w 2 0)
  .ok (.ldx d b x (fieldS w) (selOf (bitsOf w 3 3)) z)
def decStx (w : BitVec 32) : Dec := do
  let v ← fieldV w
  let b ← fieldA w
  let x ← fieldB w
  zero w 7 6
  zero w 3 3
  let z ← stSizeOf (bitsOf w 2 0)
  .ok (.stx v b x (fieldS w) z)

/-- Major 0x14: ATOM, segment 3 illegal (R80, R166). -/
def decAtom (w : BitVec 32) : Dec :=
  if h : bitsOf w 4 3 < 3 then
    let g : Fin 3 := ⟨bitsOf w 4 3, h⟩
    match bitsOf w 2 0 with
    | 0 => shInt3 (fun d a b t => .aadd d a b t g) w
    | 1 => shInt3 (fun d a b t => .amin d a b t g) w
    | 2 => shInt3 (fun d a b t => .amax d a b t g) w
    | 3 => shInt3 (fun d a b t => .aand d a b t g) w
    | 4 => shInt3 (fun d a b t => .aor d a b t g) w
    | 5 => shInt3 (fun d a b t => .axor d a b t g) w
    | 6 => shInt3 (fun d a b t => .axchg d a b t g) w
    | _ => shInt3 (fun d a b t => .acas d a b t g) w
  else .error .badSegment

/-- Major 0x17: branches and jumps (R83). -/
def decBr (w : BitVec 32) : Dec :=
  let p : Fin 8 := Fin.ofNat 8 (bitsOf w 22 20)
  let disp := BitVec.ofNat 20 (bitsOf w 19 0)
  match bitsOf w 25 23 with
  | 0 => .ok (.brDiv p disp)
  | 1 => .ok (.brAny p disp)
  | 2 => .ok (.brAll p disp)
  | 3 => .ok (.brNone p disp)
  | 4 => if bitsOf w 22 20 = 0 then .ok (.jmp disp) else .error .reservedField
  | 5 => if bitsOf w 22 20 = 0 then .ok (.call disp) else .error .reservedField
  | _ => .error .badKind

/-- A SYS word that names nothing but a source, a code, or nothing (R84). -/
def shSysA (f : Src → Instr) (w : BitVec 32) : Dec := do
  let a ← fieldA w
  zero w 25 20
  zero w 13 6
  .ok (f a)
def shSysCode (f : BitVec 8 → Instr) (w : BitVec 32) : Dec := do
  zero w 25 14
  .ok (f (fieldI w))
def shSysNone (i : Instr) (w : BitVec 32) : Dec := do
  zero w 25 6
  .ok i

/-- SRD, SWR, KSET and SEGLD (R84). -/
def decSrd (w : BitVec 32) : Dec := do
  let d ← fieldD w
  zero w 19 14
  let x ← sregOf (bitsOf w 13 6)
  .ok (.srd d x)
def decSwr (w : BitVec 32) : Dec := do
  let a ← fieldA w
  zero w 25 20
  let x ← sregOf (bitsOf w 13 6)
  .ok (.swr a x)
def decKset (w : BitVec 32) : Dec := do
  let a ← fieldA w
  zero w 13 6
  if h : 42 ≤ bitsOf w 25 20 ∧ bitsOf w 25 20 - 42 < 16 then .ok (.kset ⟨bitsOf w 25 20 - 42, h.2⟩ a)
  else .error .badOperand
def decSegld (w : BitVec 32) : Dec := do
  let a ← fieldA w
  zero w 25 20
  if h : bitsOf w 13 6 < 4 then .ok (.segld a ⟨bitsOf w 13 6, h⟩) else .error .badNumber

/-- Major 0x19: SYS (R80, R84). -/
def decSys (w : BitVec 32) : Dec :=
  match bitsOf w 5 0 with
  | 0 => shSysNone .nop w
  | 1 => shSysCode .trap w
  | 2 => shSysCode .brk w
  | 3 => shSysNone .halt w
  | 4 => shSysNone .sync w
  | 5 => shSysNone .syncI w
  | 6 => shSysA .resw w
  | 7 => decSrd w
  | 8 => decSwr w
  | 9 => decKset w
  | 10 => decSegld w
  | 11 => shSysA .pwrp w
  | _ => .error .badMinor

/-- The instruction that a word holds, or why it holds none (R79, R86). -/
def decode (w : BitVec 32) : Dec :=
  match bitsOf w 31 26 with
  | 0x00 => decClause w
  | 0x01 => decHint w
  | 0x02 => decIalu w
  | 0x03 => decIalui w
  | 0x04 => decIcmp w
  | 0x05 => decIcmpi w
  | 0x06 => decMove w
  | 0x07 => decIdiv w
  | 0x08 => decPred w
  | 0x09 => decFalu w
  | 0x0A => decFfma w
  | 0x0B => decFcmp w
  | 0x0C => decFcvt w
  | 0x0D => decSfu w
  | 0x0E => decDot w
  | 0x10 => decLd w
  | 0x11 => decSt w
  | 0x12 => decLdx w
  | 0x13 => decStx w
  | 0x14 => decAtom w
  | 0x15 => decLane w
  | 0x16 => decConv w
  | 0x17 => decBr w
  | 0x18 => decJr w
  | 0x19 => decSys w
  | 0x1A => decXch w
  | 0x1B => decMat w
  | 0x1C => decWit w
  | _ => .error .reservedMajor

/-! ## The encoder -/

/-- An R-format word (R69). -/
def encR (major d a b t minor : Nat) : BitVec 32 :=
  BitVec.ofNat 32 (major * 2 ^ 26 + d * 2 ^ 20 + a * 2 ^ 14 + b * 2 ^ 8 + t * 2 ^ 5 + minor)

/-- An I-format word, and the M-format words with a displacement (R69). -/
def encI (major d a : Nat) (i : BitVec 8) (minor : Nat) : BitVec 32 :=
  BitVec.ofNat 32 (major * 2 ^ 26 + d * 2 ^ 20 + a * 2 ^ 14 + i.toNat * 2 ^ 6 + minor)

/-- A B-format word (R69, R83). -/
def encB (kind : Nat) (p : Fin 8) (disp : BitVec 20) : BitVec 32 :=
  BitVec.ofNat 32 (0x17 * 2 ^ 26 + kind * 2 ^ 23 + p * 2 ^ 20 + disp.toNat)

/-- The word of an instruction, none for an event (R69 to R84). -/
def encode : Instr → Option (BitVec 32)
  | .clause len wait fla flb yld =>
    some (BitVec.ofNat 32 (len * 2 ^ 21 + wait.toNat * 2 ^ 9 + flagCode fla * 2 ^ 5 + flagCode flb * 2 + yld.toNat))
  | .himm p => some (BitVec.ofNat 32 (0x04000000 + p.toNat))
  | .hsched stay solo => some (BitVec.ofNat 32 (0x05000000 + stay.toNat * 2 + solo.toNat))
  | .harith mode pol ix =>
    some (BitVec.ofNat 32 (0x06000000 + optCode Round.code mode 3 * 2 ^ 20 + optCode Policy.code pol 2 * 2 ^ 17 +
      ixCode ix * 2 ^ 10))
  | .add d a b t => some (encR 0x02 d.code a.code b.code t.code 0)
  | .sub d a b t => some (encR 0x02 d.code a.code b.code t.code 1)
  | .mul d a b t => some (encR 0x02 d.code a.code b.code t.code 2)
  | .mulh d a b t => some (encR 0x02 d.code a.code b.code t.code 3)
  | .min d a b t => some (encR 0x02 d.code a.code b.code t.code 4)
  | .max d a b t => some (encR 0x02 d.code a.code b.code t.code 5)
  | .abs d a t => some (encR 0x02 d.code a.code 0 t.code 6)
  | .neg d a t => some (encR 0x02 d.code a.code 0 t.code 7)
  | .and d a b t => some (encR 0x02 d.code a.code b.code t.code 8)
  | .or d a b t => some (encR 0x02 d.code a.code b.code t.code 9)
  | .xor d a b t => some (encR 0x02 d.code a.code b.code t.code 10)
  | .andn d a b t => some (encR 0x02 d.code a.code b.code t.code 11)
  | .shl d a b t => some (encR 0x02 d.code a.code b.code t.code 12)
  | .shr d a b t => some (encR 0x02 d.code a.code b.code t.code 13)
  | .sar d a b t => some (encR 0x02 d.code a.code b.code t.code 14)
  | .rol d a b t => some (encR 0x02 d.code a.code b.code t.code 15)
  | .clz d a t => some (encR 0x02 d.code a.code 0 t.code 16)
  | .popc d a t => some (encR 0x02 d.code a.code 0 t.code 17)
  | .adds d a b t => some (encR 0x02 d.code a.code b.code t.code 18)
  | .subs d a b t => some (encR 0x02 d.code a.code b.code t.code 19)
  | .avg d a b t => some (encR 0x02 d.code a.code b.code t.code 20)
  | .brev d a t => some (encR 0x02 d.code a.code 0 t.code 21)
  | .bswap d a t => some (encR 0x02 d.code a.code 0 t.code 22)
  | .addi d a i t => some (encI 0x03 d.code a.code i (0 + 8 * t.code))
  | .andi d a i t => some (encI 0x03 d.code a.code i (1 + 8 * t.code))
  | .ori d a i t => some (encI 0x03 d.code a.code i (2 + 8 * t.code))
  | .xori d a i t => some (encI 0x03 d.code a.code i (3 + 8 * t.code))
  | .shli d a i t => some (encI 0x03 d.code a.code i (4 + 8 * t.code))
  | .shri d a i t => some (encI 0x03 d.code a.code i (5 + 8 * t.code))
  | .sari d a i t => some (encI 0x03 d.code a.code i (6 + 8 * t.code))
  | .movi d i t => some (encI 0x03 d.code 0 i (7 + 8 * t.code))
  | .icmp p a b t c k => some (encR 0x04 p a.code b.code t.code (k.code + 8 * c.code))
  | .icmpi p a i t k => some (encI 0x05 p a.code i (k.code + 8 * t.code))
  | .mov d a => some (encR 0x06 d.code a.code 0 0 0)
  | .sel d a b p => some (encR 0x06 d.code a.code b.code p 1)
  | .extw d a t => some (encR 0x06 d.code a.code 0 t.code 2)
  | .trunc d a b t => some (encR 0x06 d.code a.code b.code t.code 3)
  | .pack d a b t => some (encR 0x06 d.code a.code b.code t.code 4)
  | .unpk d a t => some (encR 0x06 d.code a.code 0 t.code 5)
  | .bfx d a b t => some (encR 0x06 d.code a.code b.code t.code 6)
  | .bfi d a b t => some (encR 0x06 d.code a.code b.code t.code 7)
  | .div d a b t f => some (encR 0x07 d.code a.code b.code t.code (0 + 16 * f.code))
  | .rem d a b t f => some (encR 0x07 d.code a.code b.code t.code (1 + 16 * f.code))
  | .pand d a b => some (encR 0x08 d a b 0 0)
  | .por d a b => some (encR 0x08 d a b 0 1)
  | .pxor d a b => some (encR 0x08 d a b 0 2)
  | .pnot d a => some (encR 0x08 d a 0 0 3)
  | .ptow d => some (encR 0x08 d.code 0 0 0 4)
  | .wtop a => some (encR 0x08 0 a.code 0 0 5)
  | .fadd d a b t => some (encR 0x09 d.code a.code b.code t.code 0)
  | .fsub d a b t => some (encR 0x09 d.code a.code b.code t.code 1)
  | .fmul d a b t => some (encR 0x09 d.code a.code b.code t.code 2)
  | .fmin d a b t => some (encR 0x09 d.code a.code b.code t.code 3)
  | .fmax d a b t => some (encR 0x09 d.code a.code b.code t.code 4)
  | .fabs d a t => some (encR 0x09 d.code a.code 0 t.code 5)
  | .fneg d a t => some (encR 0x09 d.code a.code 0 t.code 6)
  | .fcpys d a b t => some (encR 0x09 d.code a.code b.code t.code 7)
  | .fma d a b t => some (encR 0x0A d.code a.code b.code t.code 0)
  | .fms d a b t => some (encR 0x0A d.code a.code b.code t.code 1)
  | .fnma d a b t => some (encR 0x0A d.code a.code b.code t.code 2)
  | .fnms d a b t => some (encR 0x0A d.code a.code b.code t.code 3)
  | .fcmp p a b t c k => some (encR 0x0B p a.code b.code t.code (k.code + 8 * c.code))
  | .cvt d a dst src => some (encR 0x0C d.code a.code 0 dst.code (cvtMinor dst src))
  | .cvs d a b dst src => some (encR 0x0C d.code a.code b.code dst.code (if dst.isInt then 14 + src.code else 17 + src.code))
  | .srq d a b dst src => some (encR 0x0C d.code a.code b.code dst.code (if dst.isInt then 23 + src.code else 20 + src.code))
  | .rcp d a t f => some (encR 0x0D d.code a.code 0 t.code (0 + 16 * f.code))
  | .rsq d a t f => some (encR 0x0D d.code a.code 0 t.code (1 + 16 * f.code))
  | .sqrt d a t f => some (encR 0x0D d.code a.code 0 t.code (2 + 16 * f.code))
  | .fdiv d a b t f => some (encR 0x0D d.code a.code b.code t.code (3 + 16 * f.code))
  | .exp2 d a t f => some (encR 0x0D d.code a.code 0 t.code (4 + 16 * f.code))
  | .log2 d a t f => some (encR 0x0D d.code a.code 0 t.code (5 + 16 * f.code))
  | .sinpi d a t f => some (encR 0x0D d.code a.code 0 t.code (6 + 16 * f.code))
  | .cospi d a t f => some (encR 0x0D d.code a.code 0 t.code (7 + 16 * f.code))
  | .dotI8 d a b => some (encR 0x0E d.code a.code b.code 0 0)
  | .dotN8 d a b => some (encR 0x0E d.code a.code b.code 0 1)
  | .dotIn8 d a b => some (encR 0x0E d.code a.code b.code 0 2)
  | .dotI4 d a b => some (encR 0x0E d.code a.code b.code 0 3)
  | .dotN4 d a b => some (encR 0x0E d.code a.code b.code 0 4)
  | .dotI16 d a b => some (encR 0x0E d.code a.code b.code 0 5)
  | .fdotF16 d a b => some (encR 0x0E d.code a.code b.code 0 6)
  | .ld d b i seg f z => some (encI 0x10 d.code b.code i (z.code + 8 * f.code + 16 * seg))
  | .st v b i seg z => some (encI 0x11 v.code b.code i (z.code + 16 * seg))
  | .ldx d b x seg f z => some (encR 0x12 d.code b.code x.code 0 (z.code + 8 * f.code + 16 * seg))
  | .stx v b x seg z => some (encR 0x13 v.code b.code x.code 0 (z.code + 16 * seg))
  | .aadd d a b t seg => some (encR 0x14 d.code a.code b.code t.code (0 + 8 * seg))
  | .amin d a b t seg => some (encR 0x14 d.code a.code b.code t.code (1 + 8 * seg))
  | .amax d a b t seg => some (encR 0x14 d.code a.code b.code t.code (2 + 8 * seg))
  | .aand d a b t seg => some (encR 0x14 d.code a.code b.code t.code (3 + 8 * seg))
  | .aor d a b t seg => some (encR 0x14 d.code a.code b.code t.code (4 + 8 * seg))
  | .axor d a b t seg => some (encR 0x14 d.code a.code b.code t.code (5 + 8 * seg))
  | .axchg d a b t seg => some (encR 0x14 d.code a.code b.code t.code (6 + 8 * seg))
  | .acas d a b t seg => some (encR 0x14 d.code a.code b.code t.code (7 + 8 * seg))
  | .lshf d a b t => some (encR 0x15 d.code a.code b.code t.code 0)
  | .lrot d a b t => some (encR 0x15 d.code a.code b.code t.code 1)
  | .lbcst d a b t => some (encR 0x15 d.code a.code b.code t.code 2)
  | .lscanAdd d a t => some (encR 0x15 d.code a.code 0 t.code 4)
  | .lscanMin d a t => some (encR 0x15 d.code a.code 0 t.code 5)
  | .lscanMax d a t => some (encR 0x15 d.code a.code 0 t.code 6)
  | .lscanAnd d a t => some (encR 0x15 d.code a.code 0 t.code 7)
  | .lscanOr d a t => some (encR 0x15 d.code a.code 0 t.code 8)
  | .lscanXor d a t => some (encR 0x15 d.code a.code 0 t.code 9)
  | .lscanFadd d a t => some (encR 0x15 d.code a.code 0 t.code 10)
  | .lscanFmin d a t => some (encR 0x15 d.code a.code 0 t.code 11)
  | .lscanFmax d a t => some (encR 0x15 d.code a.code 0 t.code 12)
  | .lredAdd d a t => some (encR 0x15 d.code a.code 0 t.code 16)
  | .lredMin d a t => some (encR 0x15 d.code a.code 0 t.code 17)
  | .lredMax d a t => some (encR 0x15 d.code a.code 0 t.code 18)
  | .lredAnd d a t => some (encR 0x15 d.code a.code 0 t.code 19)
  | .lredOr d a t => some (encR 0x15 d.code a.code 0 t.code 20)
  | .lredXor d a t => some (encR 0x15 d.code a.code 0 t.code 21)
  | .lredFadd d a t => some (encR 0x15 d.code a.code 0 t.code 22)
  | .lredFmin d a t => some (encR 0x15 d.code a.code 0 t.code 23)
  | .lredFmax d a t => some (encR 0x15 d.code a.code 0 t.code 24)
  | .voteAny d a => some (encR 0x15 d a 0 0 25)
  | .voteAll d a => some (encR 0x15 d a 0 0 26)
  | .ballot d a => some (encR 0x15 d.code a 0 0 27)
  | .lpopc d a => some (encR 0x15 d.code a 0 0 28)
  | .ljoin a => some (encR 0x16 0 a.code 0 0 0)
  | .bar n a => some (encR 0x16 n a.code 0 0 1)
  | .barv n a => some (encR 0x16 n a.code 0 0 2)
  | .brDiv p disp => some (encB 0 p disp)
  | .brAny p disp => some (encB 1 p disp)
  | .brAll p disp => some (encB 2 p disp)
  | .brNone p disp => some (encB 3 p disp)
  | .jmp disp => some (encB 4 0 disp)
  | .call disp => some (encB 5 0 disp)
  | .jr a => some (encR 0x18 0 a.code 0 0 0)
  | .callr d a => some (encR 0x18 d.code a.code 0 0 1)
  | .ret => some (encR 0x18 0 0 0 0 2)
  | .nop => some (encI 0x19 0 0 0 0)
  | .trap c => some (encI 0x19 0 0 c 1)
  | .brk c => some (encI 0x19 0 0 c 2)
  | .halt => some (encI 0x19 0 0 0 3)
  | .sync => some (encI 0x19 0 0 0 4)
  | .syncI => some (encI 0x19 0 0 0 5)
  | .resw a => some (encI 0x19 0 a.code 0 6)
  | .srd d sel => some (encI 0x19 d.code 0 (BitVec.ofNat 8 sel.code) 7)
  | .swr a sel => some (encI 0x19 0 a.code (BitVec.ofNat 8 sel.code) 8)
  | .kset k a => some (encI 0x19 (42 + k) a.code 0 9)
  | .segld a n => some (encI 0x19 0 a.code (BitVec.ofNat 8 n) 10)
  | .pwrp a => some (encI 0x19 0 a.code 0 11)
  | .xld d a b => some (encR 0x1A d.code a.code b.code 0 0)
  | .xst d a b => some (encR 0x1A d.code a.code b.code 0 1)
  | .xcpy d a b => some (encR 0x1A d.code a.code b.code 0 2)
  | .xredAdd d a b sg => some (encR 0x1A d.code a.code b.code (if sg then 3 else 7) 3)
  | .xredMin d a b sg => some (encR 0x1A d.code a.code b.code (if sg then 3 else 7) 4)
  | .xredMax d a b sg => some (encR 0x1A d.code a.code b.code (if sg then 3 else 7) 5)
  | .xredAnd d a b sg => some (encR 0x1A d.code a.code b.code (if sg then 3 else 7) 6)
  | .xredOr d a b sg => some (encR 0x1A d.code a.code b.code (if sg then 3 else 7) 7)
  | .xredXor d a b sg => some (encR 0x1A d.code a.code b.code (if sg then 3 else 7) 8)
  | .xredMadd d a b => some (encR 0x1A d.code a.code b.code 7 9)
  | .xfence a => some (encR 0x1A 0 a.code 0 0 10)
  | .xprom a => some (encR 0x1A 0 a.code 0 0 11)
  | .topen a => some (encR 0x1A 0 a.code 0 0 12)
  | .tseal a => some (encR 0x1A 0 a.code 0 0 13)
  | .xcnt a => some (encR 0x1A 0 a.code 0 0 14)
  | .xqset a => some (encR 0x1A 0 a.code 0 0 15)
  | .mldb d a => some (encR 0x1B d.code a.code 0 0 0)
  | .mmaI4 d a => some (encR 0x1B d.code a.code 0 0 1)
  | .mmaN4 d a => some (encR 0x1B d.code a.code 0 0 2)
  | .mmaI8 d a => some (encR 0x1B d.code a.code 0 0 3)
  | .mmaN8 d a => some (encR 0x1B d.code a.code 0 0 4)
  | .mmaI16 d a => some (encR 0x1B d.code a.code 0 0 5)
  | .mmaN16 d a => some (encR 0x1B d.code a.code 0 0 6)
  | .mconvI4 d a => some (encR 0x1B d.code a.code 0 0 7)
  | .mconvN4 d a => some (encR 0x1B d.code a.code 0 0 8)
  | .mconvI8 d a => some (encR 0x1B d.code a.code 0 0 9)
  | .mconvN8 d a => some (encR 0x1B d.code a.code 0 0 10)
  | .mconvI16 d a => some (encR 0x1B d.code a.code 0 0 11)
  | .mconvN16 d a => some (encR 0x1B d.code a.code 0 0 12)
  | .mdrain d a t => some (encR 0x1B d.code a.code 0 t.code 13)
  | .mzero d a => some (encR 0x1B d.code a.code 0 0 14)
  | .mwait p a => some (encR 0x1B p a.code 0 0 15)
  | .mstat d a => some (encR 0x1B d.code a.code 0 0 16)
  | .awit d a => some (encR 0x1C d.code a.code 0 0 0)
  | .aemit c a b => some (encR 0x1C c a.code b.code 0 1)
  | .aclose d c => some (encR 0x1C d.code c 0 0 2)
  | .await a => some (encR 0x1C 0 a.code 0 0 3)
  | .clauseEnd .. | .groupSelect .. | .stayHoldExpire .. | .loadCompletion .. | .idivCompletion ..
  | .sfuCompletion .. | .handlerEntry .. | .strimbUpdate .. | .powerStateChange .. | .regulatorPhaseLost ..
  | .railIlimWrite .. | .dvfsFreqWrite .. | .dvfsForce .. | .dvfsApply .. | .clockStable .. | .droopDetect ..
  | .droopClear .. | .thermMigreq .. | .thermalThrottle .. | .throttleRepeat .. | .thermalTrip ..
  | .bindRecordWrite .. | .admissionInterval .. | .dispatch .. | .timedStart .. | .flipX .. | .flipC ..
  | .finalStart .. | .taskComplete .. | .heldEntry .. | .stragglerTimeout .. | .stragLimitWrite .. | .phCtlHold ..
  | .phCtlDiscard .. | .phCtlAbort .. | .phCtlStragClear .. | .maintCommit8 .. | .maintCommitLine ..
  | .pumiceCopy .. | .pumiceZero .. | .maintComplete .. | .trootWrite .. | .carryForwardComplete ..
  | .landingWrite .. | .remoteReadRequest .. | .exchangeEntryStart .. | .exchangeTransferDone ..
  | .exchangeFaultPark .. | .xredRequestApply .. | .responseTimeout .. | .appliedResponseLost .. | .xpromComplete ..
  | .xfctlReplay .. | .xfctlAbandon .. | .matrixOpComplete .. | .mwaitReturn .. | .mstatClearComplete ..
  | .awaitReturn .. | .auditValuesArrive .. | .assayFoldComplete .. | .witnessRecordAccept ..
  | .witnessRecordTest .. | .horizonMark .. | .generationRelease .. | .outboundRelease .. | .rollback ..
  | .rerunCompare .. | .retirementEffect .. | .ctxSave .. | .ctxEvict .. | .ctxRestore .. | .ctxOpComplete ..
  | .migctlGo .. | .lanectlResume .. | .lanectlKill .. | .deviceReset | .getVersion .. | .getCapabilities ..
  | .negotiateAlgorithms .. | .getDigests .. | .getCertificate .. | .spdmChallenge .. | .getMeasurements ..
  | .keyExchange .. | .spdmFinish .. | .spdmHeartbeat .. | .keyUpdate .. | .endSession .. | .vendorDefinedRequest ..
  | .spdmUnsupportedRequest .. | .keyEraseConfirm .. | .scrubUnitDone .. | .collectiveRegister ..
  | .collectiveMemberChanged .. | .hostIdent .. | .hostStatus .. | .hostRead .. | .hostWrite .. | .hostSubmit ..
  | .hostResult .. | .hostResetPartition .. | .hostResetPackage .. | .hostSpdm .. | .hostPush .. | .hostTimeset ..
  | .pcieFunctionLevelReset | .wdogWrite .. | .wdogExpire .. | .mcwdKick .. | .mcwdExpire .. | .devnumWrite ..
  | .bilsolPortStateChange .. | .ptpSync .. | .peerPushReceive .. | .peerrxWrite .. | .registerWrite ..
  | .illegalInstruction .. | .hostUnknownOp .. | .recoveryVerificationResult | .frameTagFailure .. => none

/-! ## Bytes of a word -/

/-- A word from its bytes, the lowest address first (R68). -/
def wordOfBytes (b0 b1 b2 b3 : Byte) : BitVec 32 :=
  BitVec.ofNat 32 (b0.toNat + 2 ^ 8 * b1.toNat + 2 ^ 16 * b2.toNat + 2 ^ 24 * b3.toNat)

/-- The four bytes of a word, the lowest address first (R68). -/
def bytesOfWord (w : BitVec 32) : List Byte :=
  [BitVec.ofNat 8 w.toNat, BitVec.ofNat 8 (w.toNat / 2 ^ 8), BitVec.ofNat 8 (w.toNat / 2 ^ 16),
    BitVec.ofNat 8 (w.toNat / 2 ^ 24)]

/-- Decode the first four bytes of a list. -/
def decodeBytes : List Byte → Dec
  | b0 :: b1 :: b2 :: b3 :: _ => decode (wordOfBytes b0 b1 b2 b3)
  | _ => .error .reservedField

/-- The instruction that the decoder reads from a word of the opcode table: its low `nbits` bits, the bits above them zero,
laid out as four little-endian bytes. -/
def decodeTableWord (nbits w : Nat) : Option Instr :=
  match decodeBytes (bytesOfWord (BitVec.ofNat 32 (w % 2 ^ nbits))) with
  | .ok i => some i
  | .error _ => none

end Sys2Proof
end

