-- ==== Sys2Proof/Config.lean ====
section
/-!
DEFINITION. Config.lean: the free values of the model. Each is a constant with no body: nothing in Lean can evaluate it or
prove a value of it, so a statement that holds of the model holds whatever the hardware delivers (log entry 6).
-/
namespace Sys2Proof.Config

/-- Nanoseconds of package time, beyond one, that a step takes, by the tick counter (log entry 2). -/
opaque stepNs : Nat → Nat

/-- The audit value alpha that the Granite die draws for task, PHASE, OPID and execution (R305, R400). -/
opaque alphaDraw : Nat → Nat → Nat → Nat → Nat

/-- The audit value beta of the same draw (R305, R400). -/
opaque betaDraw : Nat → Nat → Nat → Nat → Nat

/-- The spot positions the Granite die chooses, by record number and spot number (R404, R405). -/
opaque spotDraw : Nat → Nat → Nat

/-- The package key that the Granite die draws at a reset, by the tick counter (R436). -/
opaque packageKey : Nat → BitVec 256

/-- The 8-byte error-correcting code over a line's ciphertext and integrity code (R241, R438). -/
opaque eccCode : Nat → BitVec 64

/-- The pair key that two devices derive from an SPDM session between them, by session and registration (R446, R447). -/
opaque pairKey : Nat → Nat → BitVec 256

/-- Whether the measurement store works at a boot, by tick counter (R433, cause 2). -/
opaque measures : Nat → Bool

/-- The bytes of component `n` of a flash image, which the spec does not lay out (R431): 0 the ROM, 1 Granite,
2 configuration record, 3 Shale, 4 Flint. -/
opaque component : Nat → List Byte → List Byte

/-- Whether the SLH-DSA signature of component `n` of an image verifies (R430, R432). -/
opaque verifies : Nat → List Byte → Bool

/-- Whether the image format of component `n` can be read (R433, cause 5). -/
opaque readable : Nat → List Byte → Bool

/-- Whether a die passes repair and self-test at a boot, by die number and tick counter (R430). -/
opaque selfTest : Nat → Nat → Bool

/-- The SHAKE256-512 digest of the device identity public key (R434, R459). -/
opaque identity : BitVec 512

/-- The bytes of an SPDM reply that the spec does not lay out: request code, request payload, offset (R435). -/
opaque spdmBytes : Nat → Nat → Nat → Byte

/-- The SPDM request that the fragments of a host make up, by their bytes: nothing until they hold a whole message; then the
request's place in the table of R435, the message, and the slot and EXPORT choice of a key to seal (R435, R437, R461). -/
opaque spdmMessage : List Byte → Option (Nat × SpdmMsg × Fin 64 × Bool)

/-- Whether an SPDM message proves what its request must prove (a KEM ciphertext, a transcript MAC), by code and
payload (R435). -/
opaque spdmAccepts : Nat → Nat → Bool

/-- A byte of another device's released tensor: device, tensor id, offset, tick counter (R242). -/
opaque remoteByte : Nat → Nat → Nat → Nat → Byte

/-- Whether another device serves a read of its released tensor: device, tensor id, offset, length, tick counter (R242,
R283). -/
opaque remoteServed : Nat → Nat → Nat → Nat → Nat → Bool

/-- Whether a peer's firmware has opened the range that a push goes to: device, physical address, tick counter (R471). -/
opaque peerAccepts : Nat → Nat → Nat → Bool

/-- Whether the other device has acknowledged a request that left the package: device, tensor id, offset, tick counter (R353,
R469). -/
opaque acknowledged : Nat → Nat → Nat → Nat → Bool

/-- Whether the other device has refused a write that left the package, by the same operands (R242, R283). -/
opaque writeRefused : Nat → Nat → Nat → Nat → Bool

/-- Whether a re-sent request found its tag in the other device's window, by the same operands (R354). -/
opaque tagFound : Nat → Nat → Nat → Nat → Bool

/-- For how many ticks a drained byte may still show what it held before: tick counter, scratchpad address (R249, R252). -/
opaque showsFor : Nat → Nat → Nat

/-- Whether an access that races with a write sees the old value of a byte: tick counter, scratchpad address (R250, R252). -/
opaque raceOld : Nat → Nat → Bool

/-- A byte that cannot be read under any key, read at its physical address (R438). -/
opaque brokenByte : Nat → Nat → Byte

/-- Free words for results that a rule leaves open, by log entry and operands. -/
opaque freeWord : Nat → Nat → Nat → Word

end Sys2Proof.Config
end

