-- ==== Sys2Proof/Machine/State.lean ====
section
/-!
DEFINITION. Machine/State.lean: everything the spec gives the J9 package, as plain data, and the machine right after
device reset. Memories list only the bytes that differ from what an unlisted byte reads as (0, log entry 3).
-/
namespace Sys2Proof.Machine

/-- Bytes by address, in rising order, none listed with the value 0 (log entry 3). -/
abbrev Mem := List Host.Cell

/-! ## One lane -/

/-- The four conditions of R140. -/
inductive LaneCond where
  | runnable | held | parked | halted
  deriving DecidableEq, Repr

/-- The fault state latched for a lane (R338), with what a handler entry needs (R343). -/
structure LaneFault where
  cause : Byte
  access : Nat
  word : Offset
  addr : Word
  clause : Offset
  fall : Offset
  handler : Bool
  deriving DecidableEq, Repr

/-- The state of one lane (R12, R140, R193, R343). -/
structure Lane where
  w : Sparse Word
  t0 : Word
  t1 : Word
  p : BitVec 8
  pc : Offset
  fstat : Word
  cond : LaneCond
  hflt : Bool
  mark : Bool
  fault : Option LaneFault
  npc : Option Offset
  deriving DecidableEq, Repr

/-! ## One group -/

/-- An arithmetic-log record (R347). -/
structure ArithRec where
  cause : Byte
  group : Nat
  engine : Bool
  mask : LaneMask
  clause : Offset
  pc : Offset
  phase : Word
  time : Nat
  deriving DecidableEq, Repr

/-- The kinds of long-latency instruction (R25). -/
inductive LongKind where
  | load | idiv | sfu
  deriving DecidableEq, Repr

/-- A long-latency instruction that has issued and not completed (R25): its flag, its destination, the lanes that issued
it, and what its completion delivers. Lanes in `drop` have accepted a later header, so a temporary is not written (R15). -/
structure LongOp where
  kind : LongKind
  flag : Fin 12
  dst : Reg
  mask : LaneMask
  drop : LaneMask
  vals : Sparse Word
  fst : Sparse Word
  recs : List ArithRec
  deriving DecidableEq, Repr

/-- What the entry of a clause waits for after its current word: a round, a timeline or an empty queue (R172, R318, R320,
R326). -/
inductive Wait where
  | go
  | bar (n : Fin 16)
  | mwait (v : Word) (p : Fin 8)
  | mstat (first : Bool) (d : Reg)
  | await (v : Word)
  deriving DecidableEq, Repr

/-- A clause in flight (R144): header fields, the number of the next word (1 to `len`), its lanes, the hint words of the
run being read (R74), SEG3 as it stood at the header (R119), and whether a STAY target stands in it (R152). -/
structure Clause where
  hdr : Offset
  len : Nat
  fla : Option (Fin 12)
  flb : Option (Fin 12)
  yld : Bool
  nxt : Nat
  mask : LaneMask
  run : List Instr
  seg3 : Word
  stay : Bool
  wait : Wait
  deriving DecidableEq, Repr

/-- An LJOIN held set (R170), with the header of its clause, the SEG3 through which that clause is fetched (R119), and
whether a STAY target stood in it (R152). -/
structure Join where
  pos : Offset
  held : LaneMask
  union : LaneMask
  hdr : Offset
  seg3 : Word
  stay : Bool
  deriving DecidableEq, Repr

/-- A LANECTL write that waits for the clause end (R345). -/
structure LaneCtl where
  kill : Bool
  pc : Offset
  mask : LaneMask
  deriving DecidableEq, Repr

/-- One group of 32 lanes (R12, R138). -/
structure Group where
  k : Sparse Word
  flags : Sparse Nat
  seg : Sparse Word
  trapvec : Word
  lanes : Sparse Lane
  out : List LongOp
  c0 : Option Clause
  c1 : Option Clause
  released : List Clause
  joins : List Join
  synced : Bool
  vote : Bool
  lastIssue : Nat
  unreported : LaneMask
  stayLeft : Option Nat
  lanectl : List LaneCtl
  deriving DecidableEq, Repr

/-! ## The engines of one core -/

/-- A named barrier whose round is open (R171): the count, and the groups that have arrived. -/
structure Barrier where
  count : Nat
  arrived : BitVec 8
  deriving DecidableEq, Repr

/-- A B slot (R286, R307). -/
structure BSlot where
  valid : Bool
  ty : Nat
  col0 : Nat
  colmask : BitVec 256
  data : Mem
  br : Sparse Nat
  brCtx : Option Nat
  deriving DecidableEq, Repr

/-- A queued matrix operation (R312, R316, R317): its number, its word, its issue, the controls fixed at issue, and the
MPROJ context open in each number at issue. -/
structure MatOp where
  num : Nat
  minor : Nat
  drain : DrainTy
  block : Nat
  grp : Nat
  lane : Nat
  pc : Offset
  clause : Offset
  phase : Word
  time : Nat
  mode : Round
  pol : Policy
  ebase : Word
  ctxs : Sparse Nat
  opened : Sparse Nat
  deriving DecidableEq, Repr

/-- A scratchpad byte that a lane has stored over while operations of the engine were under way: what it held, and the number of
the last operation then issued, which may still read that (R250, R252). -/
structure Raced where
  addr : Nat
  old : Byte
  upto : Nat
  deriving DecidableEq, Repr

/-- What a drained byte held before, which loads may still see until a tick has come (R249, R252). -/
structure Unseen where
  old : Byte
  until_ : Nat
  deriving DecidableEq, Repr

/-- The matrix engine (R286, R287, R297, R319). `raced` holds the bytes whose old values its operations may still read, `unseen`
what drained bytes held before, while no MWAIT has acquired them and no load has seen them new (R252). -/
structure Engine where
  slot0 : BSlot
  slot1 : BSlot
  acc : Sparse Word
  bad : BitVec 256
  queue : List MatOp
  issued : Nat
  mtl : Nat
  estat : Word
  firsterr : Nat
  raced : List Raced
  unseen : Sparse Unseen
  deriving DecidableEq, Repr

/-- One item of an AEMIT (R324). -/
structure Item where
  cls : Nat
  index : Nat
  value : Word
  deriving DecidableEq, Repr

/-- A witness context (R305, R308, R325). `uid` tells contexts of one number apart. -/
structure AssayCtx where
  uid : Nat
  num : Nat
  kind : Nat
  func : Nat
  opid : BitVec 32
  refs : BitVec 288
  phase : Word
  alpha : Nat
  beta : Nat
  fixedr : Bool
  ready : Bool
  closing : Bool
  incomplete : Bool
  engerr : Bool
  nops : Nat
  x : Nat
  y : Nat
  items : List Item
  deriving DecidableEq, Repr

/-- An assay command (R321). -/
inductive AssayCmd where
  | awit (uid : Nat)
  | aemit (uid : Nat) (items : List Item)
  | aclose (uid : Nat)
  | auto (uid : Nat)
  deriving DecidableEq, Repr

/-- The assay unit (R303, R306, R321). -/
structure Assay where
  ctxs : List AssayCtx
  queue : List AssayCmd
  issued : Nat
  atl : Nat
  nextUid : Nat
  deriving DecidableEq, Repr

/-! ## Records -/

/-- A lane fault record (R339). -/
structure LaneRec where
  cause : Byte
  group : Nat
  double : Bool
  access : Nat
  mask : LaneMask
  pc : Offset
  clause : Offset
  addr : Word
  word : BitVec 32
  handler : Bool
  phase : Word
  time : Nat
  fall : Offset
  snap : List (BitVec 32 × LaneMask)
  deriving DecidableEq, Repr

/-- An engine error record (R348). -/
structure EngRec where
  group : Nat
  code : Nat
  lane : Nat
  minor : Nat
  ty : Nat
  num : Nat
  block : Nat
  pc : Offset
  phase : Word
  time : Nat
  deriving DecidableEq, Repr

/-- A slot of a core's fault log (R341). -/
inductive FlogRec where
  | lane (r : LaneRec)
  | engine (r : EngRec)
  deriving DecidableEq, Repr

/-- A core's fault log (R341). -/
structure Flog where
  slots : Sparse FlogRec
  head : BitVec 8
  tail : BitVec 8
  lost : BitVec 8
  deriving DecidableEq, Repr

/-- A die event or host event entry (R350, R466). -/
structure EventRec where
  kind : Nat
  cause : Byte
  die : Nat
  part : Nat
  core : Nat
  lcore : Nat
  phase : Word
  time : Nat
  arg : Word
  deriving DecidableEq, Repr

/-- What a clock transition holds back (R356). -/
inductive Delayed where
  | flog (core : Nat) (r : FlogRec)
  | alog (core : Nat) (r : ArithRec)
  | event (die : Nat) (e : EventRec)
  deriving DecidableEq, Repr

/-! ## One core -/

/-- The phase states of R191. -/
inductive CorePhase where
  | compute | draining | synced | exchange | xdone
  deriving DecidableEq, Repr

/-- The signature that XRED words of one line or byte share (R238, R256): operation, signedness, QW. -/
structure XSig where
  op : Nat
  signed : Bool
  qw : Nat
  deriving DecidableEq, Repr

/-- A scratchpad mark of R256: the bytes, whether written, the transfer (core, queue position) that made it, its signature where
it is an XRED, and what a write brought: the bytes written, or the operand of a reduction (R255). `past` marks are those of
reductions that stand applied since before an abandonment, which conflict with nothing any more (R284). -/
structure Mark where
  lo : Nat
  len : Nat
  write : Bool
  core : Nat
  pos : Nat
  xred : Option XSig
  data : List Byte
  past : Bool
  deriving DecidableEq, Repr

/-- A page that a transfer has translated: an address in it, the intent, and the leaf: where it stands, its value, the page's
size (R222, R229, R243). -/
structure XPage where
  va : Nat
  write : Bool
  at_ : Nat
  pte : Word
  size : Nat
  deriving DecidableEq, Repr

/-- What a started transfer has translated, and the 64 KiB frames, by number, of the pages in which it is counted (R224, R229,
R393). -/
structure Xlat where
  pages : List XPage
  counted : List Nat
  deriving DecidableEq, Repr

/-- The exchange engine of a core (R269, R274, R277); `start` is the scratchpad as the exchange phase found it (R255). `xlat` holds, by
queue position, what a started entry has translated; `sentAt` and `resent` hold the time of the last request of a started entry and its
re-sends (R353). -/
structure Exch where
  xpend : Nat
  xtag : BitVec 16
  gate : Option Word
  marks : List Mark
  start : Mem
  dedup : Sparse (List (BitVec 16))
  applied : List Nat
  resent : Sparse Nat
  sentAt : Sparse Nat
  xlat : Sparse Xlat
  deriving DecidableEq, Repr

/-- One core: issue state, scratchpad, queues, engines, fault log and management registers. -/
structure Core where
  part : Option Nat
  lcore : Nat
  ngroups : Nat
  groups : Sparse Group
  spad : Mem
  sel : Nat
  cnt : Nat
  gtoCap : Nat
  alogq : Word
  xq : Word
  noteq : Word
  bars : Sparse Barrier
  pst : CorePhase
  exch : Exch
  eng : Engine
  asy : Assay
  flog : Flog
  ctxBase : Word
  ckptBase : Word
  therm : Word
  pwrLatch : Nat
  ballast : Bool
  energy : Nat
  peak : Nat
  energyNext : Option Nat
  peakNext : Option Nat
  current : Nat
  named : Bool
  deriving DecidableEq, Repr

/-! ## Strings and dies -/

/-- One string of four cores (R176 to R185). -/
structure StringSt where
  strimb : Word
  filler : Word
  pwr : Nat
  hard : Bool
  droop : Bool
  entered : Nat
  before : Option Nat
  clearSince : Option Nat
  part : Option Nat
  excluded : Bool
  deriving DecidableEq, Repr

/-- The states of a bind record (R210). -/
inductive BindState where
  | free | bound | armed | running | done | refused | scrub
  deriving DecidableEq, Repr

/-- A bind record (R209); `launched` says that an ARMED record's task is dispatched and waits for its START (R212). -/
structure Bind where
  launched : Bool
  lrVa : Word
  strings : BitVec 32
  part : Nat
  state : BindState
  diemask : BitVec 16
  status : BitVec 32
  host : Bool
  result : Word
  deriving DecidableEq, Repr

/-- An open-write map allocation (R236): the slots of one page of a generation. -/
structure MapSlot where
  idx : Nat
  page : Nat
  slots : Nat
  deriving DecidableEq, Repr

/-- An entry of a reduction store (R239). -/
structure RedEntry where
  idx : Nat
  line : Nat
  part : Nat
  landing : Bool
  sig : XSig
  data : BitVec 512
  deriving DecidableEq, Repr

/-- A maintenance request whose completion is due (R231). -/
structure MaintDone where
  tag : Word
  status : Nat
  deriving DecidableEq, Repr

/-- One Flint die (R181 to R188, R209, R226, R231, R236, R239, R349, R356). `target` is the frequency that a clock transition leads to. -/
structure Die where
  flipSlew : Word
  railIlim : Word
  phases : Nat
  freq : Nat
  pending : Bool
  mhz : Nat
  target : Nat
  transition : Bool
  hop : Bool
  hopDroop : Bool
  delayed : List Delayed
  tripped : Bool
  throttled : Bool
  dropAt : Nat
  accThresh : Word
  nqCtl : Word
  maintCtl : Word
  evqCtl : Word
  hostwin : Word
  mcwdLimit : Nat
  mcwdAt : Nat
  binds : Sparse Bind
  mcMem : Mem
  maintDue : List MaintDone
  map : List MapSlot
  red : List RedEntry
  deriving DecidableEq, Repr

/-! ## Partitions -/

/-- The fields of a launch record that the hardware keeps while the task runs (R202). -/
structure Launch where
  groups : Nat
  handle : Bool
  dztrap : Bool
  system : Bool
  timed : Bool
  seed : Word
  keyh : Word
  start : Word
  strmask : BitVec 256
  imgVa : Word
  imgLen : Nat
  segw : List Word
  alogq : Word
  xq : Word
  noteq : Word
  entry : Offset
  handler : Offset
  k : List Word
  energy : Nat
  peak : Nat
  audit : Word
  strag : Word
  lrVa : Word
  deriving DecidableEq, Repr

/-- The phase machine's states (R192, R398): the codes 0 to 8 of PH_CTL.STATE. -/
inductive PhState where
  | idle | compute | flipX | exchange | flipC | held | final | aborting | rollback
  deriving DecidableEq, Repr

/-- A checkpoint that the partition can return to (R410, R414), with the result word and the RESW words not yet settled
(R207). -/
structure Ckpt where
  ss : Nat
  num : Nat
  seq : Nat
  result : Word
  resw : Sparse Word
  bases : List Nat
  deriving DecidableEq, Repr

/-- The restart snapshot of an idempotent superstep (R371), with the RESW words not yet settled (R207). -/
structure Snap where
  seq : Nat
  resw : Sparse Word
  bases : List Nat
  deriving DecidableEq, Repr

/-- A unit of a scrub list (R443): part `u` of a core's state, or bytes of a vault. -/
inductive ScrubUnit where
  | core (c : Nat) (u : Nat)
  | bytes (pa : Nat) (len : Nat)
  deriving DecidableEq, Repr

/-- What the end of a scrub list frees (R442, R474). -/
inductive ScrubUse where
  | teardown (slots : List Nat)
  | evict
  | migrate (core : Nat)
  deriving DecidableEq, Repr

/-- A scrub list and its progress (R443 to R445, R474). -/
structure Scrub where
  units : List ScrubUnit
  done : Nat
  busy : Bool
  strings : List Nat
  uses : List ScrubUse
  deriving DecidableEq, Repr

/-- An entry of the package fault record (R417). -/
structure FrecEnt where
  kind : Nat
  verdict : Nat
  die : Nat
  part : Nat
  lcore : Nat
  pcore : Nat
  str : Nat
  ctx : Nat
  wkind : Nat
  slot : Nat
  opid : BitVec 32
  phase : Word
  time : Nat
  v0 : Word
  v1 : Word
  v2 : Word
  alpha : Nat
  beta : Nat
  ref0 : BitVec 96
  spot : Word
  expect : Word
  found : Word
  arg : Word
  deriving DecidableEq, Repr

/-- A failed audit waiting for its rollback (R413, R423). -/
structure Failed where
  ss : Nat
  ent : FrecEnt
  idx : Option Nat
  deriving DecidableEq, Repr

/-- The context operations of CTX_CTL (R367). -/
inductive CtxOp where
  | save | evict | restore
  deriving DecidableEq, Repr

/-- One partition (R190 to R212, R359 to R375, R401 to R416, R442, R467, R471). `resw` holds the RESW words issued since the
last settlement, by 8 x logical core + group (R207); `wlines` and `rlines` hold the lines of OPEN generations that its transfers have
written and read in this phase (R256); `migNow` says that the order waits in the FLIP_X under way,
and `migLate` that it was given when every core was SYNCED, so that it waits for the next one (R375, R389); `saved` says that a save is not out of date, `savedSeq` and `savedImg` hold its number and its images (R368); `failedSs` lists the supersteps of this execution that have
a failed record (R401). -/
structure Part where
  phase : Word
  st : PhState
  resume : PhState
  finalDone : Bool
  hold : Bool
  idem : Bool
  strag : Bool
  stragLimit : Word
  stragAt : Nat
  stragPosted : Bool
  strings : List Nat
  lmap : List Nat
  launch : Option Launch
  taskid : Word
  arrive : Word
  result : Word
  resw : Sparse Word
  status : Nat
  late : Bool
  waitStart : Bool
  troot : Word
  savecnt : BitVec 32
  ndrop : BitVec 16
  ctxStatus : Nat
  busy : Option CtxOp
  saved : Bool
  savedSeq : Word
  savedImg : List Mem
  evicted : Bool
  ctxMap : Word
  ctxSeq : Word
  mig : Option (Nat × Nat)
  migNow : Bool
  migLate : Bool
  migStatus : Nat
  passSs : Nat
  ckptSs : Nat
  rolling : Bool
  audWait : Bool
  ckpts : List Ckpt
  nckpt : Nat
  snap : Option Snap
  latches : Sparse (Sparse Nat)
  rerunTo : Word
  execs : Nat
  sent : Sparse (List Nat)
  failed : Option Failed
  failedSs : List Nat
  failKeys : List (BitVec 32 × Nat)
  left : Bool
  holding : Option PhState
  quiesce : Bool
  wlines : List (Nat × Nat)
  rlines : List (Nat × Nat)
  wdog : Word
  wdogAt : Nat
  wdogDone : Bool
  peerCtl : Word
  scrub : Scrub
  tearing : Nat
  erasing : List (Nat × BitVec 16)
  deriving DecidableEq, Repr

/-! ## The package -/

/-- How a run of vault lines is sealed (R241, R438): the key, the tensor id, the version and the line number of the first
line. A key of 0 with no tensor stands for the zero lines of Pumice under slot 0 (R231, R443) when `zero` is set. -/
structure Seal where
  lo : Nat
  count : Nat
  key : BitVec 256
  tid : BitVec 48
  ver : BitVec 32
  line0 : Nat
  zero : Bool
  deriving DecidableEq, Repr

/-- The states of a key slot (R436). -/
inductive KeyState where
  | empty | loaded | zeroising
  deriving DecidableEq, Repr

/-- A key slot (R436). -/
structure KeySlot where
  state : KeyState
  key : BitVec 256
  sealcnt : BitVec 16
  session : BitVec 32
  exp : Bool
  bound : Bool
  deriving DecidableEq, Repr

/-- A witness record on its way to its test (R309, R400), with the execution and the values it was drawn for; `onGen` is the
table index and VERSION of the generation that its REF0 named when it arrived (R404). -/
structure WitRec where
  num : Nat
  kind : Nat
  incomplete : Bool
  engerr : Bool
  fixedr : Bool
  die : Nat
  core : Nat
  ctx : Nat
  lcore : Nat
  part : Nat
  opid : BitVec 32
  nitems : BitVec 32
  phase : Word
  v0 : Word
  v1 : Word
  v2 : Word
  v3 : Word
  refs : BitVec 288
  onGen : Option (Nat × Nat)
  alpha : Nat
  beta : Nat
  task : Word
  exec : Nat
  deriving DecidableEq, Repr

/-- An operator of an audit set: its task, OPID and superstep, and whether it has passed, or failed (R406, R407, R413). -/
structure AudOp where
  task : Word
  opid : BitVec 32
  ss : Nat
  passed : Bool
  failed : Bool
  deriving DecidableEq, Repr

/-- The Geode directory's entry of a generation (R406, R407): who opened it and when, the task that sealed it, its audit set. -/
structure GenAud where
  idx : Nat
  part : Nat
  task : Word
  ver : Nat
  openSs : Nat
  sealer : Option Word
  ops : List AudOp
  fixedr : Bool
  deriving DecidableEq, Repr

/-- The comparison of a copy with the rerun's generation, made when that became STAGED (R418): its version, whether a copy was
kept, the number of lines that differ, and the first of them. -/
structure Rerun where
  ver : Nat
  kept : Bool
  differ : Nat
  first : Nat
  deriving DecidableEq, Repr

/-- A diagnostic slot in use (R418). -/
structure Diag where
  slot : Nat
  idx : Nat
  part : Nat
  task : Word
  rerun : Option Rerun
  frec : Nat
  tid : BitVec 48
  ver : Nat
  keyslot : Nat
  ss : Nat
  lines : Nat
  image : List Byte
  ent : FrecEnt
  compared : Bool
  refailed : Bool
  deriving DecidableEq, Repr

/-- A write or push that waits in an outbound hold, or has left (R408, R471): `seq` is its place in the posting order of its
core's superstep; `image` and `side` the vault bytes and seals of a pushed image; `parked` the cause for which it cannot be
sent. Of one that has left and is not acknowledged, `sent` is what was sent, `port` the Bilsol port that carried it, none once that
has gone down, `sentAt` and `tries` the moment of its last sending and its re-sends (R353, R469). -/
structure Outbound where
  die : Nat
  core : Nat
  part : Nat
  task : Word
  ss : Nat
  dev : BitVec 18
  tid : BitVec 48
  off : Nat
  op : LandOp
  data : List Byte
  sent : List Byte
  push : Option (Nat × Nat)
  seq : Nat
  parked : Option Byte
  port : Option Nat
  sentAt : Nat
  tries : Nat
  image : Mem
  side : List Seal
  deriving DecidableEq, Repr

/-- An inbound write that a leaf with WBLK set, or a line of PREV not yet carried, holds back (R229, R240, R242). -/
structure Landing where
  src : BitVec 18
  tid : BitVec 48
  off : Nat
  op : LandOp
  data : List Byte
  deriving DecidableEq, Repr

/-- A registered collective (R446, R447): `uses` lists the task and superstep of each use, in order, `epoch` tells registrations apart,
`changed` lists the members that came back with other measurements, each with a session that it held before. -/
structure Coll where
  id : Nat
  tid : BitVec 48
  members : List (BitVec 18)
  sessions : List (Nat × Nat × Nat)
  uses : List (Word × Nat)
  valid : Bool
  epoch : Nat
  changed : List (BitVec 18 × Nat)
  deriving DecidableEq, Repr

/-- A task that has completed while records, generations or held writes of it may remain (R407, R408): whether every record
passed so far, and the audit policy its records are tested under. -/
structure TaskEnd where
  task : Word
  part : Nat
  audit : Word
  fine : Bool
  deriving DecidableEq, Repr

/-- The Granite die: audit, release, fault record, strikes, keys and trust (R398 to R447). -/
structure Granite where
  present : BitVec 16
  excluded : BitVec 16
  derated : BitVec 16
  chkMode : Word
  auditWin : Nat
  auditSpots : Nat
  geodeCtl : Word
  strikeCtl : Word
  frecHead : BitVec 9
  frecTail : BitVec 9
  frecLost : BitVec 8
  frec : Sparse FrecEnt
  recs : List WitRec
  nextRec : Nat
  gens : List GenAud
  ended : List TaskEnd
  hold : List Outbound
  wire : List Outbound
  diags : List Diag
  strikes : Sparse Nat
  orders : List RetUnit
  taskCtr : Word
  imgSeq : Nat
  bootStat : Word
  meas : Sparse (BitVec 512)
  keys : Sparse KeySlot
  flash : Mem
  pushed : Mem
  pushEnd : Bool
  colls : List Coll
  deriving DecidableEq, Repr

/-- An SPDM session (R435). -/
structure Session where
  id : BitVec 32
  channel : Nat
  established : Bool
  updates : Nat
  deriving DecidableEq, Repr

/-- The SPDM responder and its last reply (R435): a response code, two parameters and the payload bytes. -/
structure Spdm where
  version : Bool
  caps : Bool
  algs : Bool
  sessions : List Session
  nextSession : Nat
  code : Byte
  param1 : Byte
  param2 : Byte
  payload : List Byte
  frag : List Byte
  out : List Byte
  deriving DecidableEq, Repr

/-- The host function: its window and event ring (R459, R460, R466). -/
structure HostFn where
  mbTail : BitVec 16
  mbHead : BitVec 16
  rsTail : BitVec 16
  evTail : BitVec 16
  evHead : BitVec 16
  cmds : Mem
  resps : Mem
  evs : Mem
  msix0 : Nat
  msix1 : Nat
  deriving DecidableEq, Repr

/-- The Bilsol half of the Shale dies (R468 to R471): `route` holds die 9's table, then die 10's; `pairs` the port that each
pair of sending core and destination device keeps, by 2^18 x core + device (R469). -/
structure Bilsol where
  devnum : Word
  port : Sparse Word
  route : Sparse (BitVec 16)
  pairs : Sparse Nat
  tsync : Word
  tsCount : Nat
  peerrx : Sparse (Word × Word × Word)
  replies : List Byte
  refused : Bool
  deriving DecidableEq, Repr

/-- Which core, group, port and frontier entry the word being issued belongs to (log entry 1). -/
structure Cursor where
  core : Nat
  grp : Nat
  second : Bool
  entry : Option (Offset × LaneMask)
  deriving DecidableEq, Repr

/-- Group and core items as they stood before the primary port's word of the same cycle (R148). -/
structure Scope where
  k : Sparse Word
  seg : Sparse Word
  trapvec : Word
  alogq : Word
  xq : Word
  noteq : Word
  deriving DecidableEq, Repr

/-- The whole package. `dieScope` holds, by physical address, the bytes that management cores have stored on their own dies and that
other dies may not see yet: what stood there, and what was stored (R261). -/
structure State where
  cores : Sparse Core
  strings : Sparse StringSt
  dies : Sparse Die
  parts : Sparse Part
  vault : Mem
  dieScope : Sparse (Byte × Byte)
  side : List Seal
  ttCtl : Word
  written : Sparse (List Nat)
  vdedup : Sparse (Sparse (List (BitVec 16)))
  lands : List Landing
  gran : Granite
  spdm : Spdm
  host : HostFn
  bilsol : Bilsol
  time : Nat
  agenda : List Instr
  cur : Cursor
  scope : Option Scope
  turn : Nat
  ticks : Nat
  deriving DecidableEq, Repr

/-- Why a step stops with a fault. -/
inductive Fault where
  /-- Raised by `step` when the agenda names an instruction word: words come from a core's scratchpad and no outside
  party can issue one (log entry 1). Safe: nothing the spec allows is lost. -/
  | wordNotFetched
  deriving DecidableEq, Repr

/-- Why a step has no meaning. -/
inductive Refusal where
  /-- Raised by an arm of `exec` whose instruction has no meaning yet. Safe: the machine stops. -/
  | notModelled (mnemonic : String)
  deriving DecidableEq, Repr

/-! ## The machine right after device reset -/

/-- A lane before any task: every register reads zero (R31). -/
def Lane.zero : Lane :=
  { w := [], t0 := 0, t1 := 0, p := 0, pc := 0, fstat := 0, cond := .runnable, hflt := false, mark := false,
    fault := none, npc := none }

/-- A group before any task (R31). -/
def Group.zero : Group :=
  { k := [], flags := [], seg := [], trapvec := 0, lanes := [], out := [], c0 := none, c1 := none, released := [],
    joins := [], synced := false, vote := false, lastIssue := 0, unreported := 0, stayLeft := none,
    lanectl := [] }

/-- An empty B slot (R286). -/
def BSlot.empty : BSlot :=
  { valid := false, ty := 0, col0 := 0, colmask := 0, data := [], br := [], brCtx := none }

/-- The matrix engine at dispatch (R286, R319). -/
def Engine.zero : Engine :=
  { slot0 := BSlot.empty, slot1 := BSlot.empty, acc := [], bad := 0, queue := [], issued := 0, mtl := 0, estat := 0,
    firsterr := 0, raced := [], unseen := [] }

/-- The assay unit at dispatch (R306). -/
def Assay.zero : Assay := { ctxs := [], queue := [], issued := 0, atl := 0, nextUid := 1 }

/-- The exchange engine at dispatch (R269, R276). -/
def Exch.zero : Exch :=
  { xpend := 0, xtag := 0, gate := none, marks := [], start := [], dedup := [], applied := [], resent := [], sentAt := [], xlat := [] }

/-- A core after device reset (R31, R151, R341, R366). -/
def Core.zero : Core :=
  { part := none, lcore := 0, ngroups := 0, groups := [], spad := [], sel := 0, cnt := 0, gtoCap := 64, alogq := 0,
    xq := 0, noteq := 0, bars := [], pst := .compute, exch := Exch.zero, eng := Engine.zero, asy := Assay.zero,
    flog := { slots := [], head := 0, tail := 0, lost := 0 }, ctxBase := 0, ckptBase := 0, therm := 0, pwrLatch := 0,
    ballast := false, energy := 0, peak := 0, energyNext := none, peakNext := none, current := 0, named := false }

/-- A string after device reset (R176, R178): FILLER_LEVEL holds TRACK and 2,700 mA. -/
def StringSt.zero : StringSt :=
  { strimb := 0, filler := 0x1A8C, pwr := 0, hard := false, droop := false, entered := 0, before := none,
    clearSince := none, part := none, excluded := false }

/-- A bind record that is FREE (R210). -/
def Bind.zero : Bind :=
  { launched := false, lrVa := 0, strings := 0, part := 0, state := .free, diemask := 0, status := 0, host := false, result := 0 }

/-- A Flint die after device reset (R181, R186, R188, R225, R467): RAIL_ILIM holds 2,437,500 nJ, 90 % and 96,000 mA. -/
def Die.zero : Die :=
  { flipSlew := 1000, railIlim := 0x0025317C00B57700, phases := 8, freq := 1900, pending := false, mhz := 1900, target := 1900,
    transition := false, hop := false, hopDroop := false, delayed := [], tripped := false, throttled := false, dropAt := 0,
    accThresh := 256, nqCtl := 0, maintCtl := 0, evqCtl := 0, hostwin := 0, mcwdLimit := 100, mcwdAt := 0, binds := [],
    mcMem := [], maintDue := [], map := [], red := [] }

/-- A partition number with no task (R192, R220, R444, R467). -/
def Part.zero : Part :=
  { phase := 0, st := .idle, resume := .idle, finalDone := false, hold := false, idem := false, strag := false,
    stragLimit := 0, stragAt := 0, stragPosted := false, strings := [], lmap := [], launch := none, taskid := 0,
    arrive := 0, result := 0, resw := [], status := 0, late := false, waitStart := false, troot := 0, savecnt := 0, ndrop := 0,
    ctxStatus := 0, busy := none, saved := false, savedSeq := 0, savedImg := [], evicted := false, ctxMap := 0, ctxSeq := 0,
    mig := none, migNow := false, migLate := false, migStatus := 0, passSs := 0, ckptSs := 0, rolling := false, audWait := false, ckpts := [], nckpt := 0, snap := none,
    latches := [], rerunTo := 0, execs := 0, sent := [], failed := none, failedSs := [], failKeys := [], left := false, holding := none,
    quiesce := false, wlines := [], rlines := [], wdog := 0x0400000000000000, wdogAt := 0, wdogDone := false, peerCtl := 0,
    scrub := { units := [], done := 0, busy := false, strings := [], uses := [] }, tearing := 0, erasing := [] }

/-- An EMPTY key slot (R436). -/
def KeySlot.zero : KeySlot :=
  { state := .empty, key := 0, sealcnt := 0, session := 0, exp := false, bound := false }

/-- The Granite die right after device reset, before the boot ROM has run (R411, R418, R419, R430, R433). -/
def Granite.zero : Granite :=
  { present := 0, excluded := 0, derated := 0, chkMode := 0, auditWin := 16, auditSpots := 4,
    geodeCtl := 0x4000, strikeCtl := 0x060302, frecHead := 0, frecTail := 0, frecLost := 0, frec := [], recs := [],
    nextRec := 0, gens := [], ended := [], hold := [], wire := [], diags := [], strikes := [], orders := [], taskCtr := 1,
    imgSeq := 0, bootStat := 0xFF0000, meas := [], keys := [], flash := [], pushed := [], pushEnd := false,
    colls := [] }

/-- The machine right after device reset: only the Granite die runs, no task exists, every register holds the value the
spec states, and where it states none the value that log entries 3 and 4 name. -/
def State.reset : State :=
  { cores := [], strings := [], dies := [], parts := [], vault := [], dieScope := [], side := [], ttCtl := 0, written := [],
    vdedup := [], lands := [], gran := Granite.zero,
    spdm := { version := false, caps := false, algs := false, sessions := [], nextSession := 1, code := 0, param1 := 0,
              param2 := 0, payload := [], frag := [], out := [] },
    host := { mbTail := 0, mbHead := 0, rsTail := 0, evTail := 0, evHead := 0, cmds := [], resps := [], evs := [],
              msix0 := 0, msix1 := 0 },
    bilsol := { devnum := 0, port := [], route := [], pairs := [], tsync := 0x000000FF00000000, tsCount := 0, peerrx := [],
                replies := [], refused := false },
    time := 0, agenda := [], cur := { core := 0, grp := 0, second := false, entry := none }, scope := none, turn := 0,
    ticks := 0 }

end Sys2Proof.Machine
end

