-- ==== Sys2Proof/Machine/Bits.lean ====
section
/-!
DEFINITION. Machine/Bits.lean: data kept by number, bytes in little-endian order (R9), bit fields and lane masks.
-/
namespace Sys2Proof.Machine

/-! ## Data kept by number -/

/-- The entry of number `n`, or `d` where none is listed. -/
def spGet {α : Type} (d : α) : Sparse α → Nat → α
  | [], _ => d
  | (k, v) :: r, n => if k = n then v else spGet d r n

/-- The entry of number `n`, if one is listed. -/
def spFind {α : Type} : Sparse α → Nat → Option α
  | [], _ => none
  | (k, v) :: r, n => if k = n then some v else spFind r n

/-- List `v` under number `n`, in rising order, in place of any earlier entry. -/
def spSet {α : Type} : Sparse α → Nat → α → Sparse α
  | [], n, v => [(n, v)]
  | (k, x) :: r, n, v =>
    if n < k then (n, v) :: (k, x) :: r else if n = k then (n, v) :: r else (k, x) :: spSet r n v

/-- List nothing under number `n`. -/
def spErase {α : Type} : Sparse α → Nat → Sparse α
  | [], _ => []
  | (k, x) :: r, n => if k = n then spErase r n else (k, x) :: spErase r n

/-- Write `v` under number `n` where an unlisted number reads as `d`: the entry is removed when it would read the same. -/
def spPut {α : Type} [DecidableEq α] (d : α) (m : Sparse α) (n : Nat) (v : α) : Sparse α :=
  if v = d then spErase m n else spSet m n v

/-- Every number listed is at least `lo`, the numbers rise, and no entry equals what an unlisted number reads as. -/
def spWf {α : Type} [DecidableEq α] (d : α) : Nat → Sparse α → Bool
  | _, [] => true
  | lo, (k, v) :: r => decide (lo ≤ k) && decide (v ≠ d) && spWf d (k + 1) r

/-- A memory is in canonical form: addresses strictly rising, no byte equal to 0 listed. -/
abbrev Memory.wf (m : Mem) : Bool := spWf (0 : Byte) 0 m

/-! ## Bytes -/

/-- The byte at an address. -/
def memGet (m : Mem) (a : Nat) : Byte := spGet 0 m a

/-- Write one byte. -/
def memPut (m : Mem) (a : Nat) (b : Byte) : Mem := spPut 0 m a b

/-- `n` bytes from address `a`, lowest address first. -/
def memBytes (m : Mem) (a : Nat) : Nat → List Byte
  | 0 => []
  | n + 1 => memGet m a :: memBytes m (a + 1) n

/-- The little-endian value of a list of bytes (R9). -/
def leNat : List Byte → Nat
  | [] => 0
  | b :: r => b.toNat + 256 * leNat r

/-- The `n` little-endian bytes of a value. -/
def leBytes : Nat → Nat → List Byte
  | 0, _ => []
  | n + 1, v => BitVec.ofNat 8 v :: leBytes n (v / 256)

/-- The little-endian value of `n` bytes at `a` (R9). -/
def memRead (m : Mem) (a n : Nat) : Nat := leNat (memBytes m a n)

/-- Write a list of bytes from address `a` upwards. -/
def memWrite (m : Mem) (a : Nat) : List Byte → Mem
  | [] => m
  | b :: r => memWrite (memPut m a b) (a + 1) r

/-- Write the low `n` bytes of `v` at `a`. -/
def memStore (m : Mem) (a n v : Nat) : Mem := memWrite m a (leBytes n v)

/-- The listed bytes of `[lo, lo + n)`, by offset from `lo`. -/
def memSlice (m : Mem) (lo n : Nat) : Mem :=
  (m.filter fun c => decide (lo ≤ c.1) && decide (c.1 < lo + n)).map fun c => (c.1 - lo, c.2)

/-- Replace the bytes of `[lo, lo + n)` by those of `src`, which holds offsets below `n`. -/
def memBlit (m : Mem) (lo n : Nat) (src : Mem) : Mem :=
  (m.filter fun c => decide (c.1 < lo)) ++ ((src.filter fun c => decide (c.1 < n)).map fun c => (lo + c.1, c.2)) ++
    (m.filter fun c => decide (lo + n ≤ c.1))

/-- Write zero to every byte of `[lo, lo + n)`. -/
def memClear (m : Mem) (lo n : Nat) : Mem := memBlit m lo n []

/-- Write to `[lo, lo + n)` the bytes that a list gives by their offsets, in its order, and zero where it gives none. -/
def memLoad (m : Mem) (lo n : Nat) (src : Mem) : Mem :=
  src.foldl (fun m c => if c.1 < n then memPut m (lo + c.1) c.2 else m) (memClear m lo n)

/-- A memory from a list of bytes, the first at address `a`. -/
def memOf (a : Nat) : List Byte → Mem
  | [] => []
  | b :: r => if b = 0 then memOf (a + 1) r else (a, b) :: memOf (a + 1) r

/-! ## Bit fields -/

/-- Bits `hi` to `lo` of a value, as a number. -/
def fld {w : Nat} (x : BitVec w) (hi lo : Nat) : Nat := (x.toNat >>> lo) % 2 ^ (hi + 1 - lo)

/-- Bit `n` of a value. -/
def bit {w : Nat} (x : BitVec w) (n : Nat) : Bool := x.getLsbD n

/-- The word with bits `hi` to `lo` replaced by `v`. -/
def setFld {w : Nat} (x : BitVec w) (hi lo v : Nat) : BitVec w :=
  let m := BitVec.ofNat w ((2 ^ (hi + 1 - lo) - 1) <<< lo)
  (x &&& ~~~m) ||| (BitVec.ofNat w ((v % 2 ^ (hi + 1 - lo)) <<< lo))

/-- 1 for true, 0 for false. -/
def b2n (b : Bool) : Nat := if b then 1 else 0

/-- A word from a number, modulo 2^64. -/
def wd (n : Nat) : Word := BitVec.ofNat 64 n

/-- `n` bits from `lo` upwards set. -/
def bitsFrom (w lo n : Nat) : BitVec w := BitVec.ofNat w ((2 ^ n - 1) <<< lo)

/-- The numbers of the bits set in a mask, rising. -/
def bitList {w : Nat} (m : BitVec w) : List Nat := (List.range w).filter fun i => m.getLsbD i

/-- The mask of a list of bit numbers. -/
def maskOf (w : Nat) (l : List Nat) : BitVec w := l.foldl (fun m i => m ||| BitVec.ofNat w (2 ^ i)) 0

/-- The lowest lane of a mask, or 0. -/
def lowLane (m : LaneMask) : Nat := (bitList m).headD 0

/-- The highest lane of a mask, or 0. -/
def highLane (m : LaneMask) : Nat := (bitList m).getLastD 0

/-- The signed value of the low `w` bits of a number. -/
def sgn (w v : Nat) : Int :=
  let x := v % 2 ^ w
  if 2 ^ w ≤ 2 * x then (x : Int) - 2 ^ w else x

/-- An integer reduced modulo `2 ^ w`. -/
def wrapNat (w : Nat) (v : Int) : Nat := (v % (2 ^ w : Int)).toNat

/-- The first member of a list that passes a test, with its place. -/
def findIdxOpt {α : Type} (p : α → Bool) : List α → Nat → Option (Nat × α)
  | [], _ => none
  | x :: r, i => if p x then some (i, x) else findIdxOpt p r (i + 1)

/-- Replace member `i` of a list. -/
def setAt {α : Type} : List α → Nat → α → List α
  | [], _, _ => []
  | _ :: r, 0, y => y :: r
  | x :: r, i + 1, y => x :: setAt r i y

/-- Drop member `i` of a list. -/
def dropAt {α : Type} : List α → Nat → List α
  | [], _ => []
  | _ :: r, 0 => r
  | x :: r, i + 1 => x :: dropAt r i

/-- The largest of a list of numbers, 0 for none. -/
def maxOf (l : List Nat) : Nat := l.foldl max 0

/-- The sum of a list of numbers. -/
def sumOf (l : List Nat) : Nat := l.foldl (· + ·) 0

end Sys2Proof.Machine
end

