-- ==== Sys2Proof/Machine/Ops.lean ====
section
/-!
DEFINITION. Machine/Ops.lean: the named reads and writes of the state, the hardware queues (R214), the records and events
(R339 to R350, R417, R466), and taking a precise lane fault (R337 to R344) with the return from it.
-/
namespace Sys2Proof.Machine

/-! ## Reading and writing parts of the state -/

/-- Physical core `c`, numbered 128 x die + core. -/
def getCore (s : State) (c : Nat) : Core := spGet Core.zero s.cores c

/-- Replace physical core `c`. -/
def setCore (s : State) (c : Nat) (x : Core) : State := { s with cores := spSet s.cores c x }

/-- Change physical core `c`. -/
def modCore (s : State) (c : Nat) (f : Core → Core) : State := setCore s c (f (getCore s c))

/-- Group `g` of a core. -/
def Core.group (c : Core) (g : Nat) : Group := spGet Group.zero c.groups g

/-- Replace group `g` of a core. -/
def Core.setGroup (c : Core) (g : Nat) (x : Group) : Core := { c with groups := spSet c.groups g x }

/-- Group `g` of physical core `c`. -/
def getGroup (s : State) (c g : Nat) : Group := (getCore s c).group g

/-- Replace group `g` of physical core `c`. -/
def setGroup (s : State) (c g : Nat) (x : Group) : State := modCore s c fun co => co.setGroup g x

/-- Change group `g` of physical core `c`. -/
def modGroup (s : State) (c g : Nat) (f : Group → Group) : State := setGroup s c g (f (getGroup s c g))

/-- Lane `l` of a group. -/
def Group.lane (g : Group) (l : Nat) : Lane := spGet Lane.zero g.lanes l

/-- Replace lane `l` of a group. -/
def Group.setLane (g : Group) (l : Nat) (x : Lane) : Group := { g with lanes := spSet g.lanes l x }

/-- Change lane `l` of a group. -/
def Group.modLane (g : Group) (l : Nat) (f : Lane → Lane) : Group := g.setLane l (f (g.lane l))

/-- Change every lane of a mask. -/
def Group.modLanes (g : Group) (m : LaneMask) (f : Lane → Lane) : Group :=
  (bitList m).foldl (fun g l => g.modLane l f) g

/-- Change every lane of a mask of a group of a core. -/
def modLanes (s : State) (c g : Nat) (m : LaneMask) (f : Lane → Lane) : State :=
  modGroup s c g fun gr => gr.modLanes m f

/-- The lanes that exist, in ascending order. -/
def Group.laneNums (g : Group) : List Nat := g.lanes.map (·.1)

/-- The lanes of a group that pass a test. -/
def Group.lanesWhere (g : Group) (p : Lane → Bool) : LaneMask :=
  maskOf 32 ((g.lanes.filter fun e => p e.2).map (·.1))

/-- Die number of a physical core. -/
def dieOf (c : Nat) : Nat := c / 128

/-- String number, 32 x die + string, of a physical core (R175). -/
def strOf (c : Nat) : Nat := c / 4

/-- Flint die `d`. -/
def getDie (s : State) (d : Nat) : Die := spGet Die.zero s.dies d

/-- Change Flint die `d`. -/
def modDie (s : State) (d : Nat) (f : Die → Die) : State := { s with dies := spSet s.dies d (f (getDie s d)) }

/-- String `n`, numbered 32 x die + string. -/
def getStr (s : State) (n : Nat) : StringSt := spGet StringSt.zero s.strings n

/-- Change string `n`. -/
def modStr (s : State) (n : Nat) (f : StringSt → StringSt) : State :=
  { s with strings := spSet s.strings n (f (getStr s n)) }

/-- Partition `p`. -/
def getPart (s : State) (p : Nat) : Part := spGet Part.zero s.parts p

/-- Change partition `p`. -/
def modPart (s : State) (p : Nat) (f : Part → Part) : State := { s with parts := spSet s.parts p (f (getPart s p)) }

/-- Change the Granite die. -/
def modGran (s : State) (f : Granite → Granite) : State := { s with gran := f s.gran }

/-- Change the exchange engine of a core. -/
def modExch (s : State) (c : Nat) (f : Exch → Exch) : State := modCore s c fun x => { x with exch := f x.exch }

/-- Change the matrix engine of a core. -/
def modEng (s : State) (c : Nat) (f : Engine → Engine) : State := modCore s c fun x => { x with eng := f x.eng }

/-- Change the assay unit of a core. -/
def modAsy (s : State) (c : Nat) (f : Assay → Assay) : State := modCore s c fun x => { x with asy := f x.asy }

/-- Read the core's scratchpad, little-endian. -/
def spadRead (s : State) (c a n : Nat) : Nat := memRead (getCore s c).spad a n

/-- Write bytes into the core's scratchpad. -/
def spadWrite (s : State) (c a : Nat) (bs : List Byte) : State :=
  modCore s c fun x => { x with spad := memWrite x.spad a bs }

/-- The address lies in a run of `n` bytes at `a`. -/
def inRun (a n x : Nat) : Bool := decide (a ≤ x) && decide (x < a + n)

/-- Lanes overwrite bytes that hold `m`: engine operations under way may still read the old bytes, and what a drain replaced there
is gone (R250, R252). -/
def Engine.overwritten (e : Engine) (m : Mem) (a n : Nat) : Engine :=
  { e with
    raced := if e.queue.isEmpty then e.raced
             else (List.range n).map (fun i => { addr := a + i, old := memGet m (a + i), upto := e.issued }) ++ e.raced
    unseen := e.unseen.filter fun x => !inRun a n x.1 }

/-- A lane writes bytes of its core's scratchpad (R112, R167, R252). -/
def laneWrite (s : State) (c a : Nat) (bs : List Byte) : State :=
  modCore s c fun x => { x with spad := memWrite x.spad a bs, eng := x.eng.overwritten x.spad a bs.length }

/-- A byte that may still show what it held does so at this tick: its time is not over (R249), and the choice falls so (R252). -/
def Unseen.shows (t a : Nat) (x : Unseen) : Bool := decide (t < x.until_) && Config.raceOld t a

/-- A byte as a lane's load reads it: a byte that an engine operation has drained and that no MWAIT has acquired may still show
what it held before, for a finite time (R249, R252). -/
def laneByte (s : State) (c a : Nat) : Byte :=
  match spFind (getCore s c).eng.unseen a with
  | some x => if x.shows s.ticks a then x.old else memGet (getCore s c).spad a
  | none => memGet (getCore s c).spad a

/-- A lane's load of `n` bytes, little-endian. -/
def laneRead (s : State) (c a n : Nat) : Nat := leNat ((List.range n).map fun i => laneByte s c (a + i))

/-- Bytes that loads have seen new stay new (R248). -/
def Engine.seen (t : Nat) (l : List (Nat × Nat)) (e : Engine) : Engine :=
  { e with unseen := e.unseen.filter fun x => x.2.shows t x.1 || !(l.any fun y => inRun y.1 y.2 x.1) }

/-- Every drained byte is acquired (R247, R252, R254). -/
def Engine.acquired (e : Engine) : Engine := { e with unseen := [] }

/-- The partition that a core works for. -/
def partOf (s : State) (c : Nat) : Part := getPart s ((getCore s c).part.getD 256)

/-- The running task's launch record, all zero where no task is bound. -/
def Launch.zero : Launch :=
  { groups := 0, handle := false, dztrap := false, system := false, timed := false, seed := 0, keyh := 0, start := 0,
    strmask := 0, imgVa := 0, imgLen := 0, segw := [], alogq := 0, xq := 0, noteq := 0, entry := 0, handler := 0, k := [],
    energy := 0, peak := 0, audit := 0, strag := 0, lrVa := 0 }

/-- The launch record of the partition that a core works for. -/
def launchOf (s : State) (c : Nat) : Launch := (partOf s c).launch.getD Launch.zero

/-- The lowest-numbered string of a partition names its home die (R175). -/
def homeDie (p : Part) : Nat := (p.strings.foldl min 255) / 32

/-- Strings put in ascending order of number, each once. -/
def insertSorted (n : Nat) : List Nat → List Nat
  | [] => [n]
  | x :: r => if n < x then n :: x :: r else if n = x then x :: r else x :: insertSorted n r

/-- The four cores of a string. -/
def strCores (n : Nat) : List Nat := [4 * n, 4 * n + 1, 4 * n + 2, 4 * n + 3]

/-! ## Hardware queues (R214) -/

/-- The count at which HEAD and TAIL wrap: the largest multiple of DEPTH not above 2^32. -/
def qWrap (depth : Nat) : Nat := (2 ^ 32 / depth) * depth

/-- HEAD of the queue whose header stands at `b`. -/
def qHead (m : Mem) (b : Nat) : Nat := memRead m b 4

/-- TAIL of the queue whose header stands at `b`. -/
def qTail (m : Mem) (b : Nat) : Nat := memRead m (b + 4) 4

/-- Entries held. -/
def qCount (m : Mem) (b depth : Nat) : Nat :=
  (qTail m b + qWrap depth - qHead m b % qWrap depth) % qWrap depth

/-- Where entry `n` of the stream stands. -/
def qSlot (b depth esz n : Nat) : Nat := b + 16 + (n % depth) * esz

/-- Count a dropped entry in LOST, which saturates. -/
def qLost (m : Mem) (b : Nat) : Mem := memStore m (b + 8) 4 (min (memRead m (b + 8) 4 + 1) (2 ^ 32 - 1))

/-- Append an entry of `esz` bytes; a full queue drops it and counts it in LOST. -/
def qAppend (m : Mem) (b depth esz : Nat) (e : List Byte) : Mem :=
  if depth = 0 then m
  else if qCount m b depth = depth then qLost m b
  else memStore (memWrite m (qSlot b depth esz (qTail m b)) e) (b + 4) 4 ((qTail m b + 1) % qWrap depth)

/-- Entry size named by the ESZ field of a queue control word (R214). -/
def qwEsz (q : Word) : Nat := 16 <<< fld q 49 48

/-- DEPTH of a queue control word. -/
def qwDepth (q : Word) : Nat := fld q 47 32

/-- The byte address of a queue's header. -/
def qwBase (q : Word) : Nat := fld q 15 0 * 16

/-- One byte past a queue's area. -/
def qwEnd (q : Word) : Nat := qwBase q + 16 + qwDepth q * qwEsz q

/-! ## Events and records -/

/-- The 32 bytes of an event entry (R350, R466). -/
def eventBytes (e : EventRec) : List Byte :=
  leBytes 1 e.kind ++ [e.cause] ++ leBytes 1 e.die ++ leBytes 1 e.part ++ leBytes 2 e.core ++ leBytes 2 e.lcore ++
    leBytes 8 e.phase.toNat ++ leBytes 8 e.time ++ leBytes 8 e.arg.toNat

/-- An entry in a queue of management-core memory whose control word has BASE in bits 31:0 and DEPTH in 47:32 (R226, R349);
a full or a disabled queue drops the entry and counts it in LOST. -/
def mcAppend (s : State) (d : Nat) (ctl : Word) (esz : Nat) (e : List Byte) : State :=
  modDie s d fun x =>
    { x with mcMem := if qwDepth ctl = 0 then qLost x.mcMem (fld ctl 31 0)
                      else qAppend x.mcMem (fld ctl 31 0) (qwDepth ctl) esz e }

/-- Post an event to the queue of die `d` (R349). -/
def postEvent (s : State) (d : Nat) (e : EventRec) : State := mcAppend s d (getDie s d).evqCtl 32 (eventBytes e)

/-- Post to die `d` an event that a precise fault of core `c` raised: a clock transition of the core's die delays it
(R356). -/
def postFaultEvent (s : State) (c d : Nat) (e : EventRec) : State :=
  if (getDie s (dieOf c)).transition then
    modDie s (dieOf c) fun x => { x with delayed := x.delayed ++ [.event d e] }
  else postEvent s d e

/-- An event of die `d` with no partition and no core. -/
def dieEvent (s : State) (d kind : Nat) (arg : Word) : EventRec :=
  { kind := kind, cause := 0, die := d, part := 0xFF, core := 0xFFFF, lcore := 0xFFFF, phase := 0, time := s.time,
    arg := arg }

/-- An event of core `c`, posted by its die. -/
def coreEvent (s : State) (c kind : Nat) (cause : Byte) (arg : Word) : EventRec :=
  { kind := kind, cause := cause, die := dieOf c, part := (getCore s c).part.getD 0xFF, core := c % 128,
    lcore := if (getCore s c).part.isSome then (getCore s c).lcore else 0xFFFF, phase := (partOf s c).phase,
    time := s.time, arg := arg }

/-- Post an event to the host ring and raise MSI-X vector 1; a full ring drops it (R466). -/
def postHost (s : State) (e : EventRec) : State :=
  let h := s.host
  if h.evTail - h.evHead = 128 then s
  else
    { s with host := { h with evs := memWrite h.evs (32 * (h.evTail.toNat % 128)) (eventBytes e)
                              evTail := h.evTail + 1, msix1 := h.msix1 + 1 } }

/-- A host event that the Granite die posts of its own (R1, R350, R466). -/
def hostEvent (s : State) (kind part : Nat) (arg : Word) : EventRec :=
  { kind := kind, cause := 0, die := 8, part := part, core := 0xFFFF, lcore := 0xFFFF, phase := 0, time := s.time,
    arg := arg }

/-- Post an entry to the die notification queue (R226). -/
def postNote (s : State) (d kind part acc : Nat) (va : Word) : State :=
  mcAppend s d (getDie s d).nqCtl 16
    (leBytes 1 kind ++ leBytes 1 d ++ leBytes 1 part ++ [0] ++ leBytes 2 acc ++ [0, 0] ++ leBytes 8 va.toNat)

/-- Append an entry to the package fault record and report it to the host; a full ring drops it and counts it (R417). -/
def addFrec (s : State) (e : FrecEnt) : State :=
  let g := s.gran
  if (g.frecTail - g.frecHead).toNat = 256 then
    modGran s fun g => { g with frecLost := if g.frecLost = 0xFF then 0xFF else g.frecLost + 1 }
  else
    postHost (modGran s fun g =>
        { g with frec := spSet g.frec (g.frecTail.toNat % 256) e, frecTail := g.frecTail + 1 })
      (hostEvent s 3 e.part (wd g.frecTail.toNat))

/-- A fault-record entry with every field zero but its time (R417). -/
def FrecEnt.blank (s : State) (kind verdict die part : Nat) : FrecEnt :=
  { kind := kind, verdict := verdict, die := die, part := part, lcore := 0, pcore := 0, str := 0, ctx := 0, wkind := 0,
    slot := 0xFF, opid := 0, phase := 0, time := s.time, v0 := 0, v1 := 0, v2 := 0, alpha := 0, beta := 0, ref0 := 0,
    spot := 0, expect := 0, found := 0, arg := 0 }

/-- Write a record to a core's fault log; a full log drops it, LOST rises and saturates, and leaving 0 posts a kind-10
event (R341). -/
def flogAppend (s : State) (c : Nat) (r : FlogRec) : State :=
  let f := (getCore s c).flog
  if (f.tail - f.head).toNat = 16 then
    let s' := modCore s c fun x => { x with flog := { f with lost := if f.lost = 0xFF then 0xFF else f.lost + 1 } }
    if f.lost = 0 then postEvent s' (dieOf c) (coreEvent s c 10 0 1) else s'
  else
    modCore s c fun x => { x with flog := { f with slots := spSet f.slots (f.tail.toNat % 16) r, tail := f.tail + 1 } }

/-- A fault-log record, delayed while the die's clock is in transition (R356). -/
def flogPost (s : State) (c : Nat) (r : FlogRec) : State :=
  if (getDie s (dieOf c)).transition then
    modDie s (dieOf c) fun x => { x with delayed := x.delayed ++ [.flog c r] }
  else flogAppend s c r

/-- The bytes of an arithmetic-log record in an entry of `esz` bytes (R347). -/
def arithBytes (r : ArithRec) (esz : Nat) : List Byte :=
  let short := [r.cause] ++ leBytes 1 (r.group + 128 * b2n r.engine) ++ [0, 0] ++ leBytes 4 r.mask.toNat ++
    leBytes 4 r.clause.toNat ++ leBytes 4 r.pc.toNat
  let long := short ++ leBytes 8 r.phase.toNat ++ leBytes 8 r.time
  if esz = 16 then short else if esz = 32 then long else long ++ leBytes 32 0

/-- Append an arithmetic-log record to the queue that control word `q` describes (R347). -/
def alogAppend (s : State) (c : Nat) (q : Word) (r : ArithRec) : State :=
  modCore s c fun x =>
    { x with spad := qAppend x.spad (qwBase q) (qwDepth q) (qwEsz q) (arithBytes r (qwEsz q)), eng := x.eng.acquired }

/-- An arithmetic-log record for the queue of control word `q`, delayed while the die's clock is in transition (R356). -/
def alogPostTo (s : State) (c : Nat) (q : Word) (r : ArithRec) : State :=
  if (getDie s (dieOf c)).transition then
    modDie s (dieOf c) fun x => { x with delayed := x.delayed ++ [.alog c r] }
  else alogAppend s c q r

/-- An arithmetic-log record for the queue that ALOGQ describes now. -/
def alogPost (s : State) (c : Nat) (r : ArithRec) : State := alogPostTo s c (getCore s c).alogq r

/-- Append a notification to every core of a partition whose NOTEQ is enabled (R281); while a context operation runs or the
cores are evicted it is counted in NDROP instead (R369). One that changes a byte of some core's scratchpad makes a save out of
date (R368). -/
def notify (s : State) (p kind idx : Nat) (tid : BitVec 48) (ver len : Nat) (value : Word) : State :=
  let pt := getPart s p
  if pt.busy.isSome ∨ pt.evicted then
    modPart s p fun x => { x with ndrop := if x.ndrop = 0xFFFF then 0xFFFF else x.ndrop + 1 }
  else
    let e := leBytes 1 kind ++ [0, 0, 0] ++ leBytes 4 idx ++ leBytes 6 tid.toNat ++ [0, 0] ++ leBytes 4 ver ++
      leBytes 4 len ++ leBytes 8 value.toNat
    let s' := pt.lmap.foldl (fun s c => modCore s c fun x =>
      { x with spad := qAppend x.spad (qwBase x.noteq) (qwDepth x.noteq) 32 e, eng := x.eng.acquired }) s
    modPart s' p fun x => { x with saved := x.saved && pt.lmap.all fun c => decide ((getCore s' c).spad = (getCore s c).spad) }

/-! ## Clauses in flight -/

/-- The clause that a cursor's port runs. -/
def Group.port (g : Group) (second : Bool) : Option Clause := if second then g.c1 else g.c0

/-- Replace the clause of a port. -/
def Group.setPort (g : Group) (second : Bool) (c : Option Clause) : Group :=
  if second then { g with c1 := c } else { g with c0 := c }

/-- A clause of the group is in flight (R142). -/
def Group.inFlight (g : Group) : Bool := g.c0.isSome || g.c1.isSome

/-- The offset of the word of number `i` of a clause. -/
def Clause.wordAt (c : Clause) (i : Nat) : Offset := c.hdr + BitVec.ofNat 20 (4 * i)

/-- The fall-through header H + 4 x (LEN + 1) (R22). -/
def Clause.fall (c : Clause) : Offset := c.wordAt (c.len + 1)

/-- lanes_active(): the lanes of the clause that have neither parked nor halted nor left (R141). -/
def Group.active (g : Group) (c : Clause) : LaneMask :=
  c.mask &&& g.lanesWhere fun l => decide (l.cond = .runnable)

/-- Where a lane stands for the snapshot of R340. -/
def Group.snapPc (g : Group) (l : Nat) (x : Lane) : Offset :=
  match x.cond with
  | .runnable =>
    match (([g.c0, g.c1].filterMap id) ++ g.released).find? fun c => bit c.mask l with
    | some c => if c.nxt ≤ c.len then c.wordAt c.nxt else x.npc.getD c.fall
    | none => x.pc
  | _ => x.pc

/-- The condition code of R340. -/
def condCode : LaneCond → Nat
  | .runnable => 0 | .held => 1 | .parked => 2 | .halted => 3

/-- Put a lane into a list of snapshot entries kept in ascending order of PC and condition. -/
def snapInsert (pc cond : Nat) (l : Nat) : List (Nat × Nat × LaneMask) → List (Nat × Nat × LaneMask)
  | [] => [(pc, cond, maskOf 32 [l])]
  | (p, c, m) :: r =>
    if p = pc ∧ c = cond then (p, c, m ||| maskOf 32 [l]) :: r
    else if pc < p ∨ (pc = p ∧ cond < c) then (pc, cond, maskOf 32 [l]) :: (p, c, m) :: r
    else (p, c, m) :: snapInsert pc cond l r

/-- SNAP of a group (R340). -/
def Group.snap (g : Group) : List (BitVec 32 × LaneMask) :=
  let es := (g.lanes.filter fun e => decide (e.2.cond ≠ .halted)).foldl
    (fun acc e => snapInsert (g.snapPc e.1 e.2).toNat (condCode e.2.cond) e.1 acc) []
  es.map fun e => (BitVec.ofNat 32 (e.2.1 * 2 ^ 30 + e.1), e.2.2)

/-! ## LJOIN release (R170) -/

/-- Whether a held set is complete: every lane of the union that the group still has is held here, halted or parked. -/
def Group.joinReady (g : Group) (j : Join) : Bool :=
  decide (j.union &&& ~~~j.held &&& ~~~(g.lanesWhere fun l => decide (l.cond = .halted) || decide (l.cond = .parked)) = 0)

/-! ## Taking a precise lane fault (R337 to R344) -/

/-- One lane's fault at a word: its cause, the direction of the access that failed and the address checked (R338). -/
structure Trap where
  lane : Nat
  cause : Byte
  access : Nat
  addr : Word
  deriving DecidableEq, Repr

/-- Where a fault is raised: core, group, the word's offset and bits, its clause header and fall-through (R339). -/
structure Site where
  core : Nat
  grp : Nat
  pc : Offset
  clause : Offset
  fall : Offset
  word : BitVec 32
  deriving DecidableEq, Repr

/-- Whether a lane that faults enters the handler: policy HANDLE, not a breakpoint, HFLT clear (R342, R343). -/
def entersHandler (handle : Bool) (l : Lane) (cause : Byte) : Bool := handle && decide (cause ≠ 0x09) && !l.hflt

/-- Park one lane at a word and latch its fault state (R337, R338). -/
def parkLane (handle : Bool) (at_ : Site) (t : Trap) (l : Lane) : Lane :=
  { l with cond := .parked, pc := at_.pc, npc := none
           fault := some { cause := t.cause, access := t.access, word := at_.pc, addr := t.addr, clause := at_.clause,
                           fall := at_.fall, handler := entersHandler handle l t.cause } }

/-- The record of one cause and one action (R339). -/
def faultRecord (s : State) (at_ : Site) (cause : Byte) (handler double : Bool) (ts : List Trap) : LaneRec :=
  { cause := cause, group := at_.grp, double := double, access := (ts.head?.map fun (t : Trap) => t.access).getD 0,
    mask := maskOf 32 (ts.map (·.lane)), pc := at_.pc, clause := at_.clause, addr := (ts.head?.map fun (t : Trap) => t.addr).getD 0,
    word := at_.word, handler := handler, phase := (partOf s at_.core).phase, time := s.time, fall := at_.fall,
    snap := (getGroup s at_.core at_.grp).snap }

/-- Write the records of one cause: the handler's first, then the parked lanes'; a breakpoint under HANDLE also posts a
kind-3 event (R339, R342). `hflt` names the lanes whose HFLT was set at the fault. -/
def faultCause (handle : Bool) (hflt : LaneMask) (at_ : Site) (ts : List Trap) (cause : Byte) (s : State) : State :=
  let mine := ts.filter fun t => decide (t.cause = cause)
  let enter := mine.filter fun t => handle && decide (cause ≠ 0x09) && !bit hflt t.lane
  let dbl := mine.filter fun t => bit hflt t.lane
  let stay := mine.filter fun t => !bit hflt t.lane && !(handle && decide (cause ≠ 0x09))
  let rec1 := fun (s : State) (h d : Bool) (l : List Trap) =>
    if l.isEmpty then s else flogPost s at_.core (.lane (faultRecord s at_ cause h d l))
  let s := rec1 (rec1 (rec1 s true false enter) false false stay) false true dbl
  if handle ∧ cause = 0x09 ∧ ¬ mine.isEmpty then
    let m := maskOf 32 (mine.map (·.lane))
    postFaultEvent s at_.core (dieOf at_.core) (coreEvent s at_.core 3 0x09
      (wd (((mine.head?.map fun (t : Trap) => t.addr).getD 0).toNat % 256 * 2 ^ 40 + at_.grp * 2 ^ 32 + m.toNat)))
  else s

/-- The kind-2 event that names parked lanes (R344), posted to the home die. -/
def postParked (s : State) (c g : Nat) (m : LaneMask) : State :=
  let s' := modGroup s c g fun x => { x with unreported := 0 }
  postFaultEvent s' c (homeDie (partOf s c)) (coreEvent s c 2 0 (wd (g * 2 ^ 32 + m.toNat)))

/-- The parked lanes of a group. -/
def Group.parked (g : Group) : LaneMask := g.lanesWhere fun l => decide (l.cond = .parked)

/-- The lane waits to enter the handler (R343). -/
def Lane.entering (l : Lane) : Bool := decide (l.cond = .parked) && ((l.fault.map (·.handler)).getD false)

/-- Every lane of the group is halted or parked, at least one is parked, and none is about to enter the handler (R344). -/
def Group.stuck (g : Group) : Bool :=
  g.lanes.all (fun e => (decide (e.2.cond = .halted) || decide (e.2.cond = .parked)) && !e.2.entering) &&
    g.lanes.any fun e => decide (e.2.cond = .parked)

/-- A kind-2 event is posted at the moment at which a group that was not stuck is (R344): `was` says that it was before. -/
def reportIfStuck (s : State) (c g : Nat) (was : Bool) : State :=
  if (getGroup s c g).stuck ∧ ¬ was then postParked s c g (getGroup s c g).parked else s

/-- The clause that a header word opens for the lanes of a mask, at the word of number `nxt`. -/
def clauseAt (h : BitVec 32) (pc : Offset) (m : LaneMask) (seg3 : Word) (nxt : Nat) (stay : Bool) : Clause :=
  let fl := fun (n : Nat) => if hn : n < 12 then some (⟨n, hn⟩ : Fin 12) else none
  { hdr := pc, len := fld h 25 21, fla := fl (fld h 8 5), flb := fl (fld h 4 1), yld := bit h 0, nxt := nxt, mask := m,
    run := [], seg3 := seg3, stay := stay, wait := .go }

/-- Release every LJOIN held set that is now complete: its lanes become a released entry that goes on with the clause at the
word after the LJOIN, or at the fall-through header where the LJOIN was the last word (R144, R170). The clause's length and
bindings come from its header word, and its words are fetched through the SEG3 of that clause (R119). -/
def releaseJoins (s : State) (c g : Nat) : State :=
  let gr := getGroup s c g
  let ready := gr.joins.filter gr.joinReady
  let go := fun (x : Group) (j : Join) =>
    let h := BitVec.ofNat 32 (spadRead s c (fld j.seg3 15 0 * 16 + j.hdr.toNat) 4)
    let k := clauseAt h j.hdr j.held j.seg3 ((j.pos - j.hdr).toNat / 4 + 1) j.stay
    if k.nxt ≤ k.len then
      { x.modLanes j.held (fun l => { l with cond := .runnable }) with released := x.released ++ [k] }
    else x.modLanes j.held fun l => { l with cond := .runnable, pc := k.fall }
  setGroup s c g { ready.foldl go gr with joins := gr.joins.filter fun j => !gr.joinReady j }

/-- Take the precise faults of one issued word: every lane is parked and its state latched, then one record is written for
each cause in ascending order and each action, the parked lanes are noted for the report of R344, and the LJOIN releases
are tested again (R336 to R344). -/
def takeFaults (s : State) (at_ : Site) (ts : List Trap) : State :=
  if ts.isEmpty then s
  else
    let handle := (launchOf s at_.core).handle
    let g0 := getGroup s at_.core at_.grp
    let hflt := g0.lanesWhere fun l => l.hflt
    let g1 := ts.foldl (fun g t => g.modLane t.lane (parkLane handle at_ t)) g0
    let parked := maskOf 32 ((ts.filter fun t => !entersHandler handle (g0.lane t.lane) t.cause).map (·.lane))
    let s := setGroup s at_.core at_.grp { g1 with unreported := g1.unreported ||| parked }
    let causes := (ts.map fun t => t.cause.toNat).foldl (fun l n => insertSorted n l) []
    let s := causes.foldl (fun s n => faultCause handle hflt at_ ts (BitVec.ofNat 8 n) s) s
    reportIfStuck (releaseJoins s at_.core at_.grp) at_.core at_.grp g0.stuck

/-- Handler entry (R343): every lane sent to the handler becomes runnable at TRAPVEC with w36, w37, w38 and HFLT
written, also over an earlier long-latency instruction to one of them that is still pending, which overwrites it when it completes
(R28; log entry 79). -/
def handlerLane (trapvec : Word) (l : Lane) : Lane :=
  match l.fault with
  | some f =>
    if l.cond = .parked ∧ f.handler then
      { l with cond := .runnable, pc := trapvec.setWidth 20, hflt := true, fault := some { f with handler := false },
               w := spPut 0 (spPut 0 (spPut 0 l.w 36 f.addr) 37
                 (wd (f.access * 2 ^ 48 + f.cause.toNat * 2 ^ 40 + f.word.toNat * 2 ^ 20 + f.clause.toNat)))
                 38 (wd f.fall.toNat) }
    else l
  | none => l

/-- Enter the handler with every lane that waits for it, once no clause of the group is in flight and the die's clock is
stable (R343, R356). -/
def enterHandlers (s : State) (c g : Nat) : State :=
  let gr := getGroup s c g
  if gr.inFlight ∨ (getDie s (dieOf c)).transition then s
  else setGroup s c g { gr with lanes := gr.lanes.map fun e => (e.1, handlerLane gr.trapvec e.2) }

/-- The return from the handler is JR, which clears HFLT in each lane that issues it without fault (R343). -/
def handlerReturn (l : Lane) (target : Offset) : Lane := { l with hflt := false, npc := some target }

/-- Outcome of a step that always goes on. -/
abbrev Out := Host.Outcome State Fault Refusal

end Sys2Proof.Machine
end

