-- ==== Sys2Proof/Machine/Vault.lean ====
section
/-!
DEFINITION. Machine/Vault.lean: vault memory and its sideband (R217, R241, R438), page tables (R219 to R224), the tensor
table (R232 to R235), and one-line reads, writes and reductions of global memory (R235 to R239).
-/
namespace Sys2Proof.Machine

/-! ## Physical memory -/

/-- A physical address that names memory (R217). -/
def paOk (pa : Nat) : Bool := decide (pa < 2 ^ 39) && decide (pa % 2 ^ 29 < 0x18000000)

/-- A run of bytes lies in one vault (R217, R366). -/
def inOneVault (pa n : Nat) : Bool := decide (pa < 2 ^ 39) && decide (pa % 2 ^ 29 + n ≤ 0x18000000)

/-- The Flint dies that hold replicas: those not excluded (R227), nor left unreleased at boot, which counts as excluded
(R430). -/
def liveDies (s : State) : List Nat := (List.range 8).filter fun d => !bit s.gran.excluded d && bit s.gran.present d

/-- The lowest die that is not excluded; page-table nodes have it as HOME (R227). -/
def lowDie (s : State) : Nat := (liveDies s).headD 0

/-- Bytes of vault memory. -/
def vaultBytes (s : State) (pa n : Nat) : List Byte := memBytes s.vault pa n

/-- A byte of vault memory as die `d` reads it (8 for the Granite die and the management path): what a management core has stored on
another die, and no XPROM has promoted since, may still read as it was before (R261). -/
def seenByte (s : State) (d pa : Nat) : Byte :=
  let b := memGet s.vault pa
  match spFind s.dieScope pa with
  | some (old, new) => if pa / 2 ^ 36 ≠ d ∧ b = new ∧ Config.raceOld s.ticks pa then old else b
  | none => b

/-- Bytes of vault memory as die `d` reads them. -/
def seenBytes (s : State) (d pa n : Nat) : List Byte := (List.range n).map fun i => seenByte s d (pa + i)

/-- A management core's store to its own die's vaults, which does not go through Mica (R261). -/
def scopedWrite (s : State) (pa : Nat) (bs : List Byte) : State :=
  { s with vault := memWrite s.vault pa bs
           dieScope := (List.range bs.length).foldl (fun m i => spSet m (pa + i) (seenByte s 8 (pa + i), bs.getD i 0)) s.dieScope }

/-- The die-scope writes of die `d` are promoted: every observer sees them (R261). -/
def promote (s : State) (d : Nat) : State :=
  { s with dieScope := s.dieScope.filter fun e => decide (e.1 / 2 ^ 36 ≠ d) }

/-- Write bytes of vault memory. -/
def vaultWrite (s : State) (pa : Nat) (bs : List Byte) : State := { s with vault := memWrite s.vault pa bs }

/-- Write bytes at a die-local address in every replica (R227). -/
def replWrite (s : State) (loc : Nat) (bs : List Byte) : State :=
  (liveDies s).foldl (fun s d => vaultWrite s (d * 2 ^ 36 + loc % 2 ^ 36) bs) s

/-! ## Sideband -/

/-- Take the lines `[lo, lo + n)` out of a list of sealed runs. -/
def sealCut (lo n : Nat) : List Seal → List Seal
  | [] => []
  | x :: r =>
    let left : List Seal :=
      if x.lo < lo ∧ 0 < x.count then [{ x with count := min x.count (lo - x.lo) }] else []
    let right : List Seal :=
      if lo + n < x.lo + x.count then
        [{ x with lo := max x.lo (lo + n), count := x.lo + x.count - max x.lo (lo + n)
                  line0 := x.line0 + (max x.lo (lo + n) - x.lo) }]
      else []
    left ++ right ++ sealCut lo n r

/-- Seal a run of vault lines (R241). -/
def sealLines (s : State) (x : Seal) : State := { s with side := x :: sealCut x.lo x.count s.side }

/-- Leave a run of vault lines without a seal. -/
def unsealLines (s : State) (lo n : Nat) : State := { s with side := sealCut lo n s.side }

/-- The seal of a vault line, if it has one. -/
def findSeal (l : List Seal) (line : Nat) : Option Seal :=
  l.find? fun x => decide (x.lo ≤ line) && decide (line < x.lo + x.count)

/-- A key slot of the Granite die (R436). -/
def getKey (s : State) (n : Nat) : KeySlot := spGet KeySlot.zero s.gran.keys n

/-- Change a key slot. -/
def modKey (s : State) (n : Nat) (f : KeySlot → KeySlot) : State :=
  modGran s fun g => { g with keys := spSet g.keys n (f (spGet KeySlot.zero g.keys n)) }

/-- Whether a vault line can be read under a key slot for a tensor line: the slot is LOADED and the line's seal was made
under its key for this counter block, or it is a zero line of Pumice under the current slot-0 key (R438, R443). -/
def lineReadable (s : State) (slot : Nat) (tid : BitVec 48) (ver : BitVec 32) (ln : Nat) (paLine : Nat) : Bool :=
  let k := getKey s slot
  match findSeal s.side paLine with
  | none => false
  | some x =>
    if x.zero then decide ((getKey s 0).state = .loaded) && decide (x.key = (getKey s 0).key)
    else decide (k.state = .loaded) && decide (x.key = k.key) && decide (x.tid = tid) && decide (x.ver = ver) &&
      decide (x.line0 + (paLine - x.lo) = ln)

/-! ## Page tables -/

/-- A leaf found by a walk: where its entry stands (die-local), its value, the page's size and its level (R219, R221). -/
structure Leaf where
  at_ : Nat
  pte : Word
  size : Nat
  deriving DecidableEq, Repr

/-- A page-table entry in one die's replica. -/
def readPte (s : State) (d loc : Nat) : Word := wd (memRead s.vault (d * 2 ^ 36 + loc % 2 ^ 36) 8)

/-- A pointer entry that R222 accepts: present, no leaf, no reserved bit set. -/
def pointerOk (e : Word) (level : Nat) : Bool :=
  bit e 0 && !bit e 3 && decide (fld e 63 36 = 0) && decide (fld e 7 6 = 0) && decide (fld e 2 1 = 0) &&
    (decide (level = 2) || decide (fld e 11 8 = 0))

/-- A leaf entry that R222 accepts: present, no reserved bit set, its ADDR aligned, naming memory. -/
def leafOk (e : Word) (size : Nat) : Bool :=
  bit e 0 && bit e 3 && decide (fld e 51 39 = 0) && decide (fld e 7 6 = 0) &&
    decide (fld e 35 8 * 256 % size = 0) && paOk (fld e 38 36 * 2 ^ 36 + fld e 35 8 * 256)

/-- The walk of R219 from a translation root in one die's replica, whatever its VALID bit says. -/
def walkRoot (s : State) (d : Nat) (r : Word) (va : Nat) : Option Leaf :=
  if 2 ^ 48 ≤ va then none
  else
    let e0 := readPte s d (fld r 35 12 * 4096 + va / 2 ^ 39 % 512 * 8)
    if ¬ pointerOk e0 0 then none
    else
      let e1 := readPte s d (fld e0 35 8 * 256 + va / 2 ^ 30 % 512 * 8)
      if ¬ pointerOk e1 1 then none
      else
        let a2 := fld e1 35 8 * 256 + va / 2 ^ 21 % 512 * 8
        let e2 := readPte s d a2
        if bit e2 3 then
          if leafOk e2 (2 ^ 21) then some { at_ := a2, pte := e2, size := 2 ^ 21 } else none
        else if ¬ pointerOk e2 2 then none
        else
          let a3 := fld e2 35 8 * 256 + va / 2 ^ 16 % 32 * 8
          let e3 := readPte s d a3
          if leafOk e3 (2 ^ 16) then some { at_ := a3, pte := e3, size := 2 ^ 16 } else none

/-- The walk of R219 in one die's replica: the leaf, or none where R222 gives a translation fault. -/
def walk (s : State) (d p : Nat) (va : Nat) : Option Leaf :=
  if bit (getPart s p).troot 0 then walkRoot s d (getPart s p).troot va else none

/-- The page of a generation that holds an address, as its owner's tables name it. The hardware's own work on a generation
(carry-forward, write-back, scrub, release) goes on when a teardown has cleared VALID (R442, log entry 56). -/
def ownerWalk (s : State) (d p : Nat) (va : Nat) : Option Leaf := walkRoot s d (getPart s p).troot va

/-- A translation with its intent: the leaf, or the cause of R222. -/
def translateVa (s : State) (d p va : Nat) (write : Bool) : Except Byte Leaf :=
  match walk s d p va with
  | none => .error 0x40
  | some l => if bit l.pte (if write then 2 else 1) then .ok l else .error 0x41

/-- The page is replicated (R227). -/
def Leaf.repl (l : Leaf) : Bool := bit l.pte 4

/-- HOME of a leaf. -/
def Leaf.home (l : Leaf) : Nat := fld l.pte 38 36

/-- The die-local address of a byte of the page. -/
def Leaf.loc (l : Leaf) (va : Nat) : Nat := fld l.pte 35 8 * 256 + va % l.size

/-- The physical address that a read by die `d` uses (R222, R227). -/
def Leaf.readPa (l : Leaf) (d va : Nat) : Nat := (if l.repl then d else l.home) * 2 ^ 36 + l.loc va

/-- The physical addresses that a write reaches (R227). -/
def Leaf.writePas (s : State) (l : Leaf) (va : Nat) : List Nat :=
  if l.repl then (liveDies s).map fun d => d * 2 ^ 36 + l.loc va else [l.home * 2 ^ 36 + l.loc va]

/-- One access counted in ACC of the local replica, with the threshold notification of R224. -/
def countAcc (s : State) (d p va : Nat) (l : Leaf) : State :=
  let acc := fld (readPte s d l.at_) 63 52
  if acc = 4095 then s
  else
    let s' := vaultWrite s (d * 2 ^ 36 + l.at_ % 2 ^ 36)
      (leBytes 8 (setFld (readPte s d l.at_) 63 52 (acc + 1)).toNat)
    if acc + 1 = fld (getDie s d).accThresh 11 0 then postNote s' d 1 p (acc + 1) (wd (va / l.size * l.size)) else s'

/-- An address in each 64 KiB of a range. -/
def frameVas (lo len : Nat) : List Nat :=
  if len = 0 then []
  else (List.range ((lo + len - 1) / 65536 + 1 - lo / 65536)).map fun i => max lo ((lo / 65536 + i) * 65536)

/-- The leaf through which a transfer has translated an address, if it has (R243). -/
def pageOf (t : List XPage) (va : Nat) (write : Bool) : Option Leaf :=
  (t.find? fun x => decide (x.va / 65536 = va / 65536) && decide (x.write = write)).map fun x =>
    { at_ := x.at_, pte := x.pte, size := x.size }

/-- The numbers of the 64 KiB frames of a page. -/
def pageFrames (va size : Nat) : List Nat := (List.range (size / 65536)).map fun i => va / size * (size / 65536) + i

/-- A transfer walks one page, unless that is translated already. The first walk that reaches a leaf counts the page in ACC, once
for each page, wherever its leaf stands at a later walk (R224, R393); a write through a leaf with WBLK set is not translated yet
(R229). -/
def walkPage (d p : Nat) (acc : State × Xlat) (x : Nat × Bool) : State × Xlat :=
  if (pageOf acc.2.pages x.1 x.2).isSome then acc
  else
    match translateVa acc.1 d p x.1 x.2 with
    | .error _ => acc
    | .ok l =>
      let seen := acc.2.counted.contains (x.1 / 65536)
      (if seen then acc.1 else countAcc acc.1 d p x.1 l,
       { pages := if x.2 ∧ bit l.pte 5 then acc.2.pages
                  else acc.2.pages ++ [{ va := x.1, write := x.2, at_ := l.at_, pte := l.pte, size := l.size }]
         counted := if seen then acc.2.counted else acc.2.counted ++ pageFrames x.1 l.size })

/-! ## The tensor table -/

/-- A tensor table entry (R233). -/
structure Gen where
  idx : Nat
  vbase : Nat
  size : Nat
  tid : BitVec 48
  ver : Nat
  state : Nat
  keyslot : Nat
  owner : Nat
  flags : BitVec 8
  prev : Nat
  audn : Nat
  audset : Nat
  sealph : Word
  deriving DecidableEq, Repr

/-- TT_CTL.COUNT. -/
def ttCount (s : State) : Nat := fld s.ttCtl 56 36

/-- The die-local address of entry `i` (R232). -/
def ttAddr (s : State) (i : Nat) : Nat := fld s.ttCtl 35 6 * 64 + 64 * i

/-- A tensor table entry from its 64 bytes. -/
def genOf (i : Nat) (b : List Byte) : Gen :=
  let f := fun (o n : Nat) => leNat ((b.drop o).take n)
  { idx := i, vbase := f 0 8, size := f 8 8, tid := BitVec.ofNat 48 (f 0x10 6), ver := f 0x18 4, state := f 0x1C 1,
    keyslot := f 0x1D 1, owner := f 0x1E 1, flags := BitVec.ofNat 8 (f 0x1F 1), prev := f 0x20 4, audn := f 0x24 4,
    audset := f 0x28 8, sealph := wd (f 0x30 8) }

/-- The 64 bytes of a tensor table entry. -/
def genBytes (g : Gen) : List Byte :=
  leBytes 8 g.vbase ++ leBytes 8 g.size ++ leBytes 6 g.tid.toNat ++ [0, 0] ++ leBytes 4 g.ver ++ leBytes 1 g.state ++
    leBytes 1 g.keyslot ++ leBytes 1 g.owner ++ leBytes 1 g.flags.toNat ++ leBytes 4 g.prev ++ leBytes 4 g.audn ++
    leBytes 8 g.audset ++ leBytes 8 g.sealph.toNat ++ leBytes 8 0

/-- Entry `i` of the tensor table. -/
def getGen (s : State) (i : Nat) : Gen := genOf i (vaultBytes s (lowDie s * 2 ^ 36 + ttAddr s i % 2 ^ 36) 64)

/-- Commit an entry to every replica of the tensor table. -/
def setGen (s : State) (g : Gen) : State := replWrite s (ttAddr s g.idx) (genBytes g)

/-- Every entry of the tensor table. -/
def allGens (s : State) : List Gen := (List.range (ttCount s)).map (getGen s)

/-- The entry is in one of the states 1 to 5. -/
def Gen.live (g : Gen) : Bool := decide (1 ≤ g.state) && decide (g.state ≤ 5)

/-- An address lies in the generation's range. -/
def Gen.covers (g : Gen) (va : Nat) : Bool := decide (g.vbase ≤ va) && decide (va < g.vbase + g.size)

/-- The generation that an access of partition `p` falls in: one it owns, or a RELEASED one (R232). -/
def findGen (s : State) (p va : Nat) : Option Gen :=
  (allGens s).find? fun g => g.live && g.covers va && (decide (g.owner = p) || decide (g.state = 5))

/-- The generation that a reference names (R309). -/
def genNamed (s : State) (tid : BitVec 48) (ver : Nat) : Option Gen :=
  (allGens s).find? fun g => g.live && decide (g.tid = tid) && decide (g.ver = ver)

/-- LANDING, HELD, ROLLED and CARRYFAIL of an entry's FLAGS. -/
def Gen.landing (g : Gen) : Bool := bit g.flags 0
def Gen.rolled (g : Gen) : Bool := bit g.flags 2
def Gen.carryFail (g : Gen) : Bool := bit g.flags 3

/-- The latest generation of a TID that passes a test: the one of highest VERSION over states 1 to 5, READY entries among
them (R242; log entry 78). -/
def latestGen (s : State) (tid : BitVec 48) (ok : Gen → Bool) : Option Gen :=
  ((allGens s).filter fun g => g.live && decide (g.tid = tid) && ok g).foldl
    (fun acc g => match acc with
      | none => some g
      | some x => if x.ver < g.ver then some g else some x) none

/-- The lines of generation `i` that are written, or carried (R236, R240). -/
def writtenOf (s : State) (i : Nat) : List Nat := spGet [] s.written i

/-- Mark a line of a generation written. -/
def markWritten (s : State) (i ln : Nat) : State :=
  { s with written := spSet s.written i (insertSorted ln (writtenOf s i)) }

/-- The key slot of the world that a partition runs, 0 for a task that is not a world (R437, R439). -/
def worldSlot (s : State) (p : Nat) : Nat := ((getPart s p).launch.map fun l => fld l.keyh 5 0).getD 0

/-- Whether a partition may read a generation under its key slot (R440). -/
def mayRead (s : State) (p : Nat) (g : Gen) : Bool :=
  let w := worldSlot s p
  let k := getKey s g.keyslot
  if w = 0 then decide (g.keyslot = 0) || (k.exp && decide (g.state = 5))
  else decide (g.keyslot = w) || decide (g.keyslot = 0) || (k.exp && decide (k.session = (getKey s w).session))

/-- Whether a partition may open a generation with this key slot (R440). -/
def mayOpen (s : State) (p : Nat) (slot : Nat) : Bool :=
  let w := worldSlot s p
  let k := getKey s slot
  if w = 0 then decide (slot = 0) else decide (slot = w) || (k.exp && decide (k.session = (getKey s w).session))

/-- A byte at a global virtual address as the hardware reads it at dispatch or restore: a line with no seal as it stands,
a sealed line only as a line of a generation that the partition may read (R6, R232, R440); no other key opens it. -/
def byteAt (s : State) (d p va : Nat) (l : Leaf) : Byte :=
  let pa := l.readPa d va
  let opens :=
    match findSeal s.side (pa / 64), findGen s p va with
    | none, _ => true
    | some x, none => x.zero && lineReadable s 0 0 0 0 (pa / 64)
    | some _, some g =>
      mayRead s p g && lineReadable s g.keyslot g.tid (BitVec.ofNat 32 g.ver) ((va - g.vbase) / 64) (pa / 64)
  if opens then seenByte s d pa else Config.brokenByte pa s.ticks

/-- Bytes at a global virtual address read by the hardware at dispatch or restore, with read intent (R202, R204). -/
def readVa (s : State) (d p : Nat) : Nat → Nat → Option (List Byte)
  | _, 0 => some []
  | va, n + 1 =>
    match translateVa s d p va false, readVa s d p (va + 1) n with
    | .ok l, some r => some (byteAt s d p va l :: r)
    | _, _ => none

/-! ## One line of global memory -/

/-- What an access to a line comes to: done, a fault with its cause and address, or a wait. -/
inductive XR (α : Type) where
  | ok (a : α)
  | fault (cause : Byte) (addr : Word)
  | wait
  deriving Repr

/-- The stored bytes of line `ln` of a generation, read through its owner's tables by die `d`; none where they cannot be
read (R237, R240, R241). -/
def genLine (s : State) (d : Nat) (g : Gen) (ln : Nat) : Option (List Byte) :=
  let va := g.vbase + 64 * ln
  match ownerWalk s d g.owner va with
  | none => none
  | some l =>
    let pa := l.readPa d va
    if lineReadable s g.keyslot g.tid (BitVec.ofNat 32 g.ver) ln (pa / 64) then some (vaultBytes s pa 64) else none

/-- A line of a SEALED generation that carry-forward has still to reach (R240). -/
def uncarried (s : State) (g : Gen) (ln : Nat) : Bool :=
  decide (g.state = 3) && !g.carryFail && !(writtenOf s g.idx).contains ln

/-- The value that fills a line before its first write: the line of PREV, or zeros (R237). A line of PREV not yet carried
makes the fill wait (R240); one that cannot be read is an open-write map fault (R283). What is read is whatever generation the entry
of PREV names now, of any OWNER and STATE: R234 tests them at the open only (R6; log entry 78). -/
def fillLine (s : State) (d : Nat) (g : Gen) (ln : Nat) : XR (List Byte) :=
  if g.prev = 0xFFFFFFFF then .ok (leBytes 64 0)
  else if uncarried s (getGen s g.prev) ln then .wait
  else
    match genLine s d (getGen s g.prev) ln with
    | some bs => .ok bs
    | none => .fault 0x43 (wd (g.vbase + 64 * ln))

/-- Store a whole line of a generation, sealed under its key (R241). -/
def storeLine (s : State) (g : Gen) (l : Leaf) (va : Nat) (bs : List Byte) : State :=
  (l.writePas s (va / 64 * 64)).foldl (fun s pa =>
    sealLines (vaultWrite s pa bs)
      { lo := pa / 64, count := 1, key := (getKey s g.keyslot).key, tid := g.tid, ver := BitVec.ofNat 32 g.ver,
        line0 := (va - g.vbase) / 64, zero := false }) s

/-- The reduction-store entry of a line, with the die that holds it: the HOME die of the line's page when the entry was
made (R239). -/
def findRed (s : State) (idx ln : Nat) : Option (Nat × RedEntry) :=
  (List.range 8).findSome? fun d =>
    ((getDie s d).red.find? fun e => decide (e.idx = idx) && decide (e.line = ln)).map fun e => (d, e)

/-- Replace the value of a reduction-store entry. -/
def setRed (s : State) (d idx ln : Nat) (v : List Byte) : State :=
  modDie s d fun x => { x with red := x.red.map fun e =>
    if e.idx = idx ∧ e.line = ln then { e with data := BitVec.ofNat 512 (leNat v) } else e }

/-- The page that an access of a transfer uses: the one it has translated, else the one that a walk gives now. A write whose
leaf has WBLK set waits as soon as it is translated (R222, R229, R243). -/
def xlatPage (t : List XPage) (s : State) (d p va : Nat) (write : Bool) : XR Leaf :=
  match pageOf t va write with
  | some l => .ok l
  | none =>
    match translateVa s d p va write with
    | .error c => .fault c (wd va)
    | .ok l => if write ∧ bit l.pte 5 then .wait else .ok l

/-- The checks of R216, R222, R232 common to every access by a transfer of partition `p` on die `d` that has translated the
pages `t`. -/
def lineChecks (t : List XPage) (s : State) (d p va : Nat) (write : Bool) : XR (Leaf × Gen) :=
  if 2 ^ 48 ≤ va then .fault 0x40 (wd va)
  else
    match xlatPage t s d p va write with
    | .fault c a => .fault c a
    | .wait => .wait
    | .ok l =>
      match findGen s p va with
      | none => .fault 0x40 (wd va)
      | some g => .ok (l, g)

/-- Read `n` bytes of one line at `va` for a transfer (R235, R239, R240, R256, R440). -/
def gRead (t : List XPage) (s : State) (d p va n : Nat) : XR (List Byte) :=
  match lineChecks t s d p va false with
  | .fault c a => .fault c a
  | .wait => .wait
  | .ok (l, g) =>
    let ln := (va - g.vbase) / 64
    let wr := (writtenOf s g.idx).contains ln
    if g.state = 1 then .fault 0x40 (wd va)
    else if g.state = 2 ∧ (getPart s p).wlines.contains (g.idx, ln) then .fault 0x44 (wd va)
    else if g.state = 2 ∧ ¬ wr then .fault 0x43 (wd va)
    else if ¬ mayRead s p g then .fault 0x41 (wd va)
    else if g.state = 3 ∧ ¬ wr then (if g.carryFail then .fault 0x45 (wd va) else .wait)
    else
      match findRed s g.idx ln with
      | some (_, e) => .ok (((leBytes 64 e.data.toNat).drop (va % 64)).take n)
      | none =>
        let pa := l.readPa d va
        if lineReadable s g.keyslot g.tid (BitVec.ofNat 32 g.ver) ln (pa / 64) then .ok (seenBytes s d pa n)
        else .fault 0x45 (wd va)

/-- The state rules of R235 for a write, up to the open-write map: the leaf and generation, or the cause. -/
def writeChecks (t : List XPage) (s : State) (d p va : Nat) : XR (Leaf × Gen) :=
  match lineChecks t s d p va true with
  | .fault c a => .fault c a
  | .wait => .wait
  | .ok (l, g) =>
    if g.state = 1 then .fault 0x40 (wd va)
    else if g.owner ≠ p then .fault 0x41 (wd va)
    else if g.state ≠ 2 then .fault 0x42 (wd va)
    else if (getKey s g.keyslot).state ≠ .loaded then .fault 0x45 (wd va)
    else .ok (l, g)

/-- Replace bytes of a line. -/
def patch (line : List Byte) (off : Nat) (bs : List Byte) : List Byte :=
  line.take off ++ bs ++ line.drop (off + bs.length)

/-- A line that a transfer of the partition has written in this phase (R256). -/
def noteWritten (s : State) (p idx ln : Nat) (landing : Bool) : State :=
  if landing then s
  else modPart s p fun x => if (idx, ln) ∈ x.wlines then x else { x with wlines := (idx, ln) :: x.wlines }

/-- A transfer of the partition has read bytes of the line at `va`; of an OPEN generation, that is noted for the phase (R256). -/
def noteRead (s : State) (p va : Nat) : State :=
  match findGen s p va with
  | none => s
  | some g =>
    let x := (g.idx, (va - g.vbase) / 64)
    if g.state ≠ 2 ∨ (getPart s p).rlines.contains x then s
    else modPart s p fun y => { y with rlines := x :: y.rlines }

/-- Write bytes of one line at `va` for a transfer (R229, R235 to R237); a REPLAY write that finds the line already holding
its bytes writes nothing (R284). -/
def gWrite (t : List XPage) (s : State) (d p va : Nat) (bs : List Byte) (replay landing : Bool) : XR State :=
  match writeChecks t s d p va with
  | .fault c a => .fault c a
  | .wait => .wait
  | .ok (l, g) =>
    let ln := (va - g.vbase) / 64
    if (writtenOf s g.idx).contains ln then
      if replay ∧ genLine s d g ln = (genLine s d g ln).map (fun x => patch x (va % 64) bs) ∧ (genLine s d g ln).isSome
      then .ok s else .fault 0x43 (wd va)
    else
      match (if bs.length = 64 then .ok (leBytes 64 0) else fillLine s d g ln) with
      | .fault c _ => .fault c (wd va)
      | .wait => .wait
      | .ok base =>
        .ok (noteWritten (markWritten (storeLine s g l va (patch base (va % 64) bs)) g.idx ln) p g.idx ln landing)

/-- The new value of an element under an XRED member (R273): 3 ADD, 4 MIN, 5 MAX, 6 AND, 7 OR, 8 XOR, 9 MADD. -/
def xredElem (sig : XSig) (x y : Word) : Word :=
  match sig.op with
  | 3 => x + y
  | 4 => if (if sig.signed then x.toInt ≤ y.toInt else x.toNat ≤ y.toNat) then x else y
  | 5 => if (if sig.signed then y.toInt ≤ x.toInt else y.toNat ≤ x.toNat) then x else y
  | 6 => x &&& y
  | 7 => x ||| y
  | 8 => x ^^^ y
  | _ => wd ((x.toNat % 2 ^ (sig.qw + 1) + y.toNat % 2 ^ (sig.qw + 1)) % 2 ^ (sig.qw + 1))

/-- Reduce a list of bytes, 8 at a time, into another (R273). -/
def xredBytes (sig : XSig) : Nat → List Byte → List Byte → List Byte
  | 0, x, _ => x
  | n + 1, x, y =>
    leBytes 8 (xredElem sig (wd (leNat (x.take 8))) (wd (leNat (y.take 8)))).toNat ++
      xredBytes sig n (x.drop 8) (y.drop 8)

/-- Bytes reduced into a line at an offset (R273). -/
def redLine (sig : XSig) (line : List Byte) (off : Nat) (bs : List Byte) : List Byte :=
  patch line off (xredBytes sig (bs.length / 8) ((line.drop off).take bs.length) bs)

/-- Reduce bytes into one line: into its entry of the reduction store, where one of the same operation, type and modulus
stands, else into a new entry of its HOME die, filled first, if the line is unwritten and the store has room (R238, R239). A
line that it may reduce into, but that a transfer of the partition has read in this phase, is a hazard for its own reduction
(R256). A landing XRED reduces into the line's entry also in a later exchange phase (R238, R239; log entry 78). -/
def gRed (t : List XPage) (s : State) (d p va : Nat) (bs : List Byte) (sig : XSig) (landing : Bool) : XR State :=
  match writeChecks t s d p va with
  | .fault c a => .fault c a
  | .wait => .wait
  | .ok (l, g) =>
    let ln := (va - g.vbase) / 64
    let hazard := !landing && (getPart s p).rlines.contains (g.idx, ln)
    match findRed s g.idx ln with
    | some (h, e) =>
      if e.sig ≠ sig then .fault 0x43 (wd va)
      else if hazard then .fault 0x44 (wd va)
      else .ok (noteWritten (setRed s h g.idx ln (redLine sig (leBytes 64 e.data.toNat) (va % 64) bs)) p g.idx ln landing)
    | none =>
      if (writtenOf s g.idx).contains ln ∨ 32768 ≤ (getDie s l.home).red.length then .fault 0x43 (wd va)
      else if hazard then .fault 0x44 (wd va)
      else
        match fillLine s d g ln with
        | .fault c _ => .fault c (wd va)
        | .wait => .wait
        | .ok base =>
          let e : RedEntry :=
            { idx := g.idx, line := ln, part := g.owner, landing := landing, sig := sig,
              data := BitVec.ofNat 512 (leNat (redLine sig base (va % 64) bs)) }
          .ok (noteWritten (markWritten (modDie s l.home fun x => { x with red := x.red ++ [e] }) g.idx ln) p g.idx ln
            landing)

/-- An entry of a partition's reduction-store lines stands in a page with WBLK set: its write-back waits, as every write does
(R229, R239). -/
def redBlocked (s : State) (p : Nat) : Bool :=
  (List.range 8).any fun d => (getDie s d).red.any fun e =>
    decide (e.part = p) && ((ownerWalk s d p ((getGen s e.idx).vbase + 64 * e.line)).any fun l => bit l.pte 5)

/-- Write back the reduction-store entries of a partition, each once (R239). One whose page has no valid leaf any more is dropped
without a write (log entry 62). -/
def redWriteback (s : State) (p : Nat) : State :=
  (List.range 8).foldl (fun s d =>
    let mine := (getDie s d).red.filter fun e => decide (e.part = p)
    let s := mine.foldl (fun s e =>
      let g := getGen s e.idx
      let va := g.vbase + 64 * e.line
      match ownerWalk s d p va with
      | some l => storeLine s g l va (leBytes 64 e.data.toNat)
      | none => s) s
    modDie s d fun x => { x with red := x.red.filter fun e => decide (e.part ≠ p) }) s

/-- The pieces of a range that lie in one line each: address and length. -/
def pieces : Nat → Nat → Nat → List (Nat × Nat)
  | 0, _, _ => []
  | fuel + 1, va, len =>
    if len = 0 then []
    else
      let n := min len (64 - va % 64)
      (va, n) :: pieces fuel (va + n) (len - n)

/-- The line pieces of a range. -/
def linesOf (va len : Nat) : List (Nat × Nat) := pieces (len / 64 + 2) va len

end Sys2Proof.Machine
end

