-- ==== Sys2Proof/Machine/Maint.lean ====
section
/-!
DEFINITION. Machine/Maint.lean: Mica commits and Pumice work asked for through the maintenance queue (R227 to R231, R394),
translation roots (R220), carry-forward (R240), landing tensors and remote reads (R242).
-/
namespace Sys2Proof.Machine

/-! ## Which replicated pages exist -/

/-- A page-table node: where it stands die-locally, its level, and the partition and first address it translates. -/
structure Node where
  loc : Nat
  level : Nat
  part : Nat
  va : Nat
  deriving DecidableEq, Repr

/-- The entry numbers of a node that hold a listed byte. -/
def listedEntries (s : State) (d loc bytes : Nat) : List Nat :=
  (memSlice s.vault (d * 2 ^ 36 + loc) bytes).foldl (fun acc c => insertSorted (c.1 / 8) acc) []

/-- The nodes one level below a node: those its present pointers name. -/
def childNodes (s : State) (n : Node) : List Node :=
  let shift := if n.level = 0 then 39 else if n.level = 1 then 30 else 21
  (listedEntries s (lowDie s) n.loc 4096).filterMap fun i =>
    let e := readPte s (lowDie s) (n.loc + 8 * i)
    if bit e 0 ∧ ¬ bit e 3 then
      some { loc := fld e 35 8 * 256, level := n.level + 1, part := n.part, va := n.va + i * 2 ^ shift }
    else none

/-- Every page-table node that some partition's TROOT reaches, whether VALID is set in it or not (R231; log entry 78). -/
def allNodes (s : State) : List Node :=
  let roots := s.parts.map fun e => ({ loc := fld e.2.troot 35 12 * 4096, level := 0, part := e.1, va := 0 } : Node)
  let l1 := roots.flatMap (childNodes s)
  let l2 := l1.flatMap (childNodes s)
  roots ++ l1 ++ l2 ++ l2.flatMap (childNodes s)

/-- The bytes of a node: 4 KiB, or 256 at level 3 (R219). -/
def Node.bytes (n : Node) : Nat := if n.level = 3 then 256 else 4096

/-- The node that holds a die-local address. -/
def nodeAt (s : State) (loc : Nat) : Option Node :=
  (allNodes s).find? fun n => decide (n.loc ≤ loc) && decide (loc < n.loc + n.bytes)

/-- The virtual address that entry `loc` of a node translates. -/
def Node.vaOf (n : Node) (loc : Nat) : Nat :=
  n.va + (loc - n.loc) / 8 *
    (if n.level = 0 then 2 ^ 39 else if n.level = 1 then 2 ^ 30 else if n.level = 2 then 2 ^ 21 else 2 ^ 16)

/-- A die-local address lies in the tensor table (R232). -/
def inTable (s : State) (loc : Nat) : Bool :=
  decide (ttAddr s 0 ≤ loc) && decide (loc < ttAddr s (ttCount s))

/-- A die-local address lies in a data page that some leaf marks REPL (R227). -/
def inReplData (s : State) (loc : Nat) : Bool :=
  (allNodes s).any fun n =>
    decide (2 ≤ n.level) && (listedEntries s (lowDie s) n.loc n.bytes).any fun i =>
      let e := readPte s (lowDie s) (n.loc + 8 * i)
      let sz := if n.level = 2 then 2 ^ 21 else 2 ^ 16
      bit e 0 && bit e 3 && bit e 4 && decide (fld e 35 8 * 256 ≤ loc) && decide (loc < fld e 35 8 * 256 + sz)

/-- A commit target lies in some replicated page (R231). -/
def inReplicated (s : State) (loc : Nat) : Bool := (nodeAt s loc).isSome || inTable s loc || inReplData s loc

/-! ## Refusals of a commit (R231, R232, R233, R444) -/

/-- Physical bytes `[pa, pa + n)` meet an incomplete scrub list (R444). -/
def onScrubList (s : State) (pa n : Nat) : Bool :=
  s.parts.any fun e => decide (e.2.scrub.done < e.2.scrub.units.length) && e.2.scrub.units.any fun u =>
    match u with
    | .core _ _ => false
    | .bytes a len => decide (a < pa + n) && decide (pa < a + len)

/-- A generation is RELEASED whose lines were not so before: only the Granite die may do that (R4, R234, log entry 56). -/
def releasesNew (s s' : State) (i : Nat) : Bool :=
  let g := getGen s i
  let h := getGen s' i
  decide (h.state = 5) && !(decide (g.state = 5) && decide (g.tid = h.tid) && decide (g.ver = h.ver) &&
    decide (g.keyslot = h.keyslot))

/-- A tensor table with an entry whose range overlaps another live one, or whose TID is reserved (R232, R233). -/
def tableRefused (s : State) (i : Nat) : Bool :=
  let g := getGen s i
  g.live && (decide (0xFF0000000000 ≤ g.tid.toNat) || (allGens s).any fun h =>
    decide (h.idx ≠ i) && h.live && decide (h.vbase < g.vbase + g.size) && decide (g.vbase < h.vbase + h.size))

/-- The pages of a generation through its owner's tables, from an address on: the first address in each, and its leaf where
it has one. -/
def genLeaves (s : State) (g : Gen) : Nat → Nat → List (Nat × Option Leaf)
  | 0, _ => []
  | fuel + 1, va =>
    if g.vbase + g.size ≤ va then []
    else
      match ownerWalk s (lowDie s) g.owner va with
      | none => (va, none) :: genLeaves s g fuel (va / 65536 * 65536 + 65536)
      | some l => (va, some l) :: genLeaves s g fuel (va / l.size * l.size + l.size)

/-- Every page of a generation. -/
def leavesOf (s : State) (g : Gen) : List (Nat × Option Leaf) := genLeaves s g (g.size / 65536) g.vbase

/-- The number of a generation's page that starts at, or holds, an address (R236). -/
def Gen.page (g : Gen) (va : Nat) : Nat := (va - g.vbase) / 65536

/-- The pages of OPEN generations that the leaf at a die-local address maps: table index and page (R230). -/
def openPagesAt (s : State) (loc : Nat) : List (Nat × Nat) :=
  ((allGens s).filter fun g => decide (g.state = 2)).flatMap fun g =>
    ((leavesOf s g).filter fun x => x.2.any fun l => decide (l.at_ % 2 ^ 36 = loc)).map fun x => (g.idx, g.page x.1)

/-- The frames that a leaf entry names: that of HOME, or one on every die that holds a replica (R222, R227). -/
def leafFrames (s : State) (e : Word) : List Nat :=
  (if bit e 4 then liveDies s else [fld e 38 36]).map fun d => d * 2 ^ 36 + fld e 35 8 * 256

/-- Map slots in use on a die (R236). -/
def mapUsed (s : State) (d : Nat) : Nat := sumOf ((getDie s d).map.map (·.slots))

/-- Slots that a page of a generation takes: one for 64 KiB, 32 for 2 MiB (R236). -/
def slotsOf (size : Nat) : Nat := size / 65536

/-- The frame that a leaf entry names through HOME. -/
def leafFrame (e : Word) : Nat := fld e 38 36 * 2 ^ 36 + fld e 35 8 * 256

/-- A change of a leaf that completes only after every write already translated through the old entry (R229): it sets WBLK,
clears WR, or changes HOME or ADDR. -/
def leafDrains (old new : Word) : Bool :=
  bit old 0 && bit old 3 &&
    ((bit new 5 && !bit old 5) || (bit old 2 && !bit new 2) || decide (leafFrame old ≠ leafFrame new))

/-- What a commit of a leaf at `va` of a node changes: refused, or the move of map slots and the kind-2 notification. -/
def leafCommit (s : State) (n : Node) (loc : Nat) (old new : Word) : Option (State → State) :=
  let size := if n.level = 2 then 2 ^ 21 else 2 ^ 16
  let va := n.vaOf loc
  let listed := fun (e : Word) => (leafFrames s e).any fun f => onScrubList s f size
  let oldLeaf := bit old 0 && bit old 3
  let newLeaf := bit new 0 && bit new 3
  if newLeaf ∧ (listed new ∨ (oldLeaf ∧ listed old)) then none
  else
    let moved := oldLeaf && newLeaf && decide (fld old 38 36 ≠ fld new 38 36)
    let pages := if moved then openPagesAt s loc else []
    let mine := (getDie s (fld old 38 36)).map.filter fun m => pages.contains (m.idx, m.page)
    if 32768 < mapUsed s (fld new 38 36) + sumOf (mine.map (·.slots)) ∧ mine ≠ [] then none
    else
      some fun s =>
        let s :=
          if mine = [] then s
          else
            modDie (modDie s (fld old 38 36) fun x => { x with map := x.map.filter fun m => !pages.contains (m.idx, m.page) })
              (fld new 38 36) fun x => { x with map := x.map ++ mine }
        if leafDrains old new then postNote s (fld old 38 36) 2 n.part 0 (wd va) else s

/-- The value that a commit writes into one replica of a page-table entry: a commit that carries ACC = 0 clears the count,
any other leaves the replica's own (R394). -/
def pteInReplica (s : State) (d loc : Nat) (new : Word) : Word :=
  if fld new 63 52 = 0 then new else setFld new 63 52 (fld (readPte s d loc) 63 52)

/-- Write a page-table entry into every replica (R227, R394). -/
def commitPte (s : State) (loc : Nat) (new : Word) : State :=
  (liveDies s).foldl (fun s d =>
    vaultWrite s (d * 2 ^ 36 + loc % 2 ^ 36) (leBytes 8 (pteInReplica s d loc new).toNat)) s

/-- One 8-byte commit: the state after it, or none where it is refused. -/
def commit8 (s : State) (loc : Nat) (v : Word) : Option State :=
  match nodeAt s loc with
  | some n =>
    if n.level < 2 then some (commitPte s loc v)
    else
      match leafCommit s n loc (readPte s (lowDie s) loc) v with
      | none => none
      | some f => some (f (commitPte s loc v))
  | none => some (replWrite s loc (leBytes 8 v.toNat))

/-- A list of 8-byte commits, all or none. -/
def commitAll : List (Nat × Word) → State → Option State
  | [], s => some s
  | (loc, v) :: r, s =>
    match commit8 s loc v with
    | none => none
    | some s' => commitAll r s'

/-- A commit as the HOME die's Mica carries it out: refused where it would break the tensor table (R232, R233). Entries that
become FREE or READY keep no written lines. -/
def micaCommit (s : State) (ws : List (Nat × Word)) : Option State :=
  match commitAll ws s with
  | none => none
  | some s' =>
    let touched := (ws.filter fun w => inTable s w.1).map fun w => (w.1 - ttAddr s 0) / 64
    if touched.any fun i => tableRefused s' i || releasesNew s s' i then none
    else some (touched.foldl (fun s i =>
      if (getGen s i).state ≤ 1 then { s with written := spErase s.written i } else s) s')

/-! ## The maintenance queue -/

/-- Requests take `n` slots of the queue; a queue too small or disabled takes none (R231). -/
def maintTake (s : State) (d n : Nat) (slots : List (List Byte)) : Option State :=
  let ctl := (getDie s d).maintCtl
  let b := fld ctl 31 0
  let depth := qwDepth ctl
  if depth < n then none
  else
    some (modDie s d fun x =>
      let m := slots.foldl (fun m e => qAppend m b depth 32 e) x.mcMem
      { x with mcMem := memStore m b 4 (qTail m b) })

/-- The 32 bytes of a request (R231). -/
def maintBytes (op : Nat) (r : MaintReq) : List Byte :=
  leBytes 1 op ++ [r.home] ++ leBytes 2 r.rsv.toNat ++ leBytes 4 r.len.toNat ++ leBytes 8 r.dst.toNat ++
    leBytes 8 r.src.toNat ++ leBytes 8 r.tag.toNat

/-- A request ends with a status, reported by MAINT_COMPLETE. -/
def maintDone (s : State) (d : Nat) (r : MaintReq) (status : Nat) : State :=
  modDie s d fun x => { x with maintDue := x.maintDue ++ [{ tag := r.tag, status := status }] }

/-- The status-2 checks of a commit request (R231), a DIE above 7 among them (log entry 60). -/
def commitBad (s : State) (r : MaintReq) (align : Nat) : Bool :=
  decide (r.rsv ≠ 0) || decide (r.len ≠ 0) || decide (8 ≤ r.home.toNat) || decide (r.dst.toNat % align ≠ 0) ||
    decide (2 ^ 36 ≤ r.dst.toNat) || !paOk r.dst.toNat || !inReplicated s r.dst.toNat

/-- The status-2 checks of a Pumice request (R231): the address and each 64 KiB of the range must name memory. A LEN that is no
multiple of 64 KiB fails them too (log entry 60). -/
def pumiceBad (r : MaintReq) (a : Nat) : Bool :=
  decide (r.rsv ≠ 0) || decide (r.home ≠ 0) || decide (r.len.toNat % 65536 ≠ 0) || decide (a % 65536 ≠ 0) ||
    !paOk a || (List.range (r.len.toNat / 65536)).any fun i => !paOk (a + 65536 * i)

/-- Copy a run of lines with their sideband unchanged (R230, R231). -/
def copyLines (s : State) (dst src len : Nat) : State :=
  let moved := (sealCut 0 (src / 64) (sealCut (src / 64 + len / 64) (2 ^ 40) s.side)).map fun x =>
    { x with lo := x.lo - src / 64 + dst / 64 }
  { s with vault := memBlit s.vault dst len (memSlice s.vault src len)
           side := moved ++ sealCut (dst / 64) (len / 64) s.side }

/-- Write zero lines with sideband valid under key slot 0 (R231, R443). -/
def zeroLines (s : State) (pa len : Nat) : State :=
  sealLines { s with vault := memClear s.vault pa len }
    { lo := pa / 64, count := len / 64, key := (getKey s 0).key, tid := 0, ver := 0, line0 := 0, zero := true }

/-- PUMICE_COPY (R231). -/
def execPumiceCopy (die : Fin 8) (r : MaintReq) (s : State) : Out :=
  match maintTake s die 1 [maintBytes 3 r] with
  | none => .next s
  | some s =>
    if pumiceBad r r.dst.toNat ∨ pumiceBad r r.src.toNat then .next (maintDone s die r 2)
    else .next (maintDone (copyLines s r.dst.toNat r.src.toNat r.len.toNat) die r 0)

/-- PUMICE_ZERO (R231). -/
def execPumiceZero (die : Fin 8) (r : MaintReq) (s : State) : Out :=
  match maintTake s die 1 [maintBytes 4 r] with
  | none => .next s
  | some s =>
    if pumiceBad r r.dst.toNat ∨ r.src ≠ 0 then .next (maintDone s die r 2)
    else .next (maintDone (zeroLines s r.dst.toNat r.len.toNat) die r 0)

/-- MAINT_COMPLETE (R231): the oldest request's kind-4 notification. -/
def execMaintComplete (die : Fin 8) (s : State) : Out :=
  match (getDie s die).maintDue with
  | [] => .next s
  | m :: r => .next (postNote (modDie s die fun x => { x with maintDue := r }) die 4 0xFF m.status m.tag)

/-- A write to TROOT (R220): its reserved bits stay zero. -/
def writeTroot (s : State) (p : Nat) (v : Word) : State :=
  modPart s p fun x => { x with troot := v &&& 0x0000000FFFFFF001 }

/-- TROOT_WRITE (R220). -/
def execTrootWrite (part : Fin 256) (v : Word) (s : State) : Out := .next (writeTroot s part v)

/-! ## Carry-forward -/

/-- The lines of a generation, by number. -/
def Gen.lines (g : Gen) : Nat := g.size / 64

/-- HOME of the page that holds line `ln` of a generation. -/
def lineHome (s : State) (g : Gen) (ln : Nat) : Nat :=
  ((ownerWalk s (lowDie s) g.owner (g.vbase + 64 * ln)).map Leaf.home).getD (lowDie s)

/-- A write of the hardware's own to line `ln` of a generation waits: its page has WBLK set (R229). -/
def lineBlocked (s : State) (g : Gen) (ln : Nat) : Bool :=
  (ownerWalk s (lowDie s) g.owner (g.vbase + 64 * ln)).any fun l => bit l.pte 5

/-- Carry one line: its value from PREV or zeros, sealed for this version; a line that cannot be read is not carried and
sets CARRYFAIL and posts a kind-5 notification (R240), and so does a line whose page, or whose page of PREV, has no valid leaf
(log entry 71). -/
def carryLine (i : Nat) (s : State) (ln : Nat) : State :=
  let g := getGen s i
  if (writtenOf s i).contains ln ∨ lineBlocked s g ln then s
  else
    match fillLine s (lowDie s) g ln, ownerWalk s (lowDie s) g.owner (g.vbase + 64 * ln) with
    | .ok bs, some l => markWritten (storeLine s g l (g.vbase + 64 * ln) bs) i ln
    | .wait, _ => s
    | _, _ => postNote (setGen s { g with flags := g.flags ||| 8 }) (lineHome s g ln) 5 g.owner 0x45 (wd i)

/-- Free the map slots of a generation (R236, R240). -/
def freeMap (s : State) (i : Nat) : State :=
  (List.range 8).foldl (fun s d => modDie s d fun x => { x with map := x.map.filter fun m => decide (m.idx ≠ i) }) s

/-- A teardown that is not complete zeroises, or has zeroised, a key slot: entries under it keep their state (R442, R453). -/
def slotTorn (s : State) (n : Nat) : Bool :=
  s.parts.any fun e => decide (e.2.tearing ≠ 0) && e.2.scrub.uses.any fun u => match u with
    | .teardown l => l.contains n
    | .evict | .migrate _ => false

/-- No line that remains waits: for the carry-forward of PREV, or for WBLK to clear (R229, R240). -/
def carryReady (s : State) (g : Gen) : Bool :=
  (List.range g.lines).all fun ln =>
    (writtenOf s g.idx).contains ln ||
      (!lineBlocked s g ln && (decide (g.prev = 0xFFFFFFFF) || !uncarried s (getGen s g.prev) ln))

/-! ## Landing writes and remote reads (R242) -/

/-- The tags of the last 32 non-idempotent XREDs applied, for one source (R274). -/
def tagsOf (w : Sparse (List (BitVec 16))) (src : Nat) : List (BitVec 16) := spGet [] w src

/-- Enter a tag into a dedup window of 32 (R274). The oldest tag leaves a full window, but never one that `keep` names: the
tag of an entry that is not DONE, which could still be sent again. -/
def enterTag (keep : BitVec 16 → Bool) (w : Sparse (List (BitVec 16))) (src : Nat) (tag : BitVec 16) :
    Sparse (List (BitVec 16)) :=
  let l := tag :: tagsOf w src
  spSet w src (if l.length ≤ 32 then l else (l.reverse.eraseP fun t => !keep t).reverse)

/-- ADD, XOR and MADD are non-idempotent (R274). -/
def nonIdem (op : Nat) : Bool := decide (op = 3) || decide (op = 8) || decide (op = 9)

/-- Write the line pieces of a range, stopping at the first that fails or waits. -/
def writePieces (t : List XPage) (d p : Nat) (replay landing : Bool) : List (Nat × Nat) → List Byte → State → State × XR Unit
  | [], _, s => (s, .ok ())
  | (va, n) :: r, bs, s =>
    match gWrite t s d p va (bs.take n) replay landing with
    | .ok s' => writePieces t d p replay landing r (bs.drop n) s'
    | .fault c a => (s, .fault c a)
    | .wait => (s, .wait)

/-- Reduce the line pieces of a range, stopping at the first that fails or waits. -/
def redLines (t : List XPage) (d p : Nat) (sig : XSig) (landing : Bool) : List (Nat × Nat) → List Byte → State → State × XR Unit
  | [], _, s => (s, .ok ())
  | (va, n) :: r, bs, s =>
    match gRed t s d p va (bs.take n) sig landing with
    | .ok s' => redLines t d p sig landing r (bs.drop n) s'
    | .fault c a => (s, .fault c a)
    | .wait => (s, .wait)

/-- Reduce a range: line by line (R283); a non-idempotent request that faults anywhere is not applied at all (R274). -/
def redPieces (t : List XPage) (d p : Nat) (sig : XSig) (landing : Bool) (ps : List (Nat × Nat)) (bs : List Byte) (s : State) :
    State × XR Unit :=
  match redLines t d p sig landing ps bs s with
  | (s', .ok _) => (s', .ok ())
  | (s', r) => (if nonIdem sig.op then s else s', r)

/-- An arrival counted in ARRIVE, with its notification (R242, R281). -/
def arrival (s : State) (g : Gen) (n : Nat) : State :=
  let s := modPart s g.owner fun x => { x with arrive := x.arrive + wd n }
  notify s g.owner 4 g.idx g.tid g.ver n (getPart s g.owner).arrive

/-- What the device answers to another device: bytes, or a refusal (R242). -/
def replyTo (s : State) (refused : Bool) (bs : List Byte) : State :=
  { s with bilsol := { s.bilsol with replies := bs, refused := refused } }

/-- The collective whose landing tensor a TID is (R446). -/
def collOf (s : State) (tid : BitVec 48) : Option Coll := s.gran.colls.find? fun k => decide (k.tid = tid)

/-- Try an inbound write: accepted into the latest generation of its TID when that is an OPEN landing tensor, else refused (R242);
refused as well while the tensor's collective is invalid, so that ARRIVE does not advance (R447; log entry 13). A line that cannot
take its bytes ends it, and nothing is counted (log entry 12). A leaf with WBLK set makes it wait (R229). -/
def landTry (s : State) (src : BitVec 18) (tid : BitVec 48) (off : Nat) (op : LandOp) (data : List Byte) : State × XR Unit :=
  let refused : XR Unit := .fault 0x41 (wd off)
  match latestGen s tid (fun _ => true) with
  | none => (s, refused)
  | some g =>
    if g.state ≠ 2 ∨ ¬ g.landing ∨ g.size < off + data.length ∨ (collOf s tid).any (fun k => !k.valid) then (s, refused)
    else
      let d := lowDie s
      let ps := linesOf (g.vbase + off) data.length
      match op with
      | .write =>
        match writePieces [] d g.owner false true ps data s with
        | (s', .ok _) => (arrival s' g data.length, .ok ())
        | (s', .fault c a) => (s', .fault c a)
        | (_, .wait) => (s, .wait)
      | .xred minor signed qw core tag =>
        let sig : XSig := { op := minor, signed := signed, qw := qw }
        let v := ((ownerWalk s d g.owner (g.vbase + off)).map fun l => l.readPa d (g.vbase + off) / 2 ^ 29).getD 0
        let who := 1024 * (src.toNat + 1) + core
        let win := spGet [] s.vdedup v
        if nonIdem minor ∧ (tagsOf win who).contains tag then (s, .ok ())
        else
          match redPieces [] d g.owner sig true ps data s with
          | (s', .ok _) =>
            let s' :=
              if nonIdem minor then { s' with vdedup := spSet s'.vdedup v (enterTag (fun _ => false) win who tag) } else s'
            (arrival s' g data.length, .ok ())
          | (s', .fault c a) => (s', .fault c a)
          | (_, .wait) => (s, .wait)

/-- An inbound write, answered to its sender or held back (R229, R242). It counts in no ACC (R224; log entry 78). -/
def landWrite (s : State) (src : BitVec 18) (tid : BitVec 48) (off : Nat) (op : LandOp) (data : List Byte) : State :=
  match landTry s src tid off op data with
  | (s', .ok _) => replyTo s' false []
  | (s', .fault _ _) => replyTo s' true []
  | (_, .wait) => { s with lands := s.lands ++ [{ src := src, tid := tid, off := off, op := op, data := data }] }

/-- LANDING_WRITE (R242). -/
def execLandingWrite (src : BitVec 18) (tid : BitVec 48) (off : BitVec 46) (op : LandOp) (data : List Byte) (s : State) :
    Out := .next (landWrite s src tid off.toNat op data)

/-- The bytes of a RELEASED generation that an outside reader may have: slot 0 or an export slot (R440), every line
readable. -/
def releasedBytes (s : State) (g : Gen) (off n : Nat) : Option (List Byte) :=
  if g.size < off + n ∨ ¬ (g.keyslot = 0 ∨ (getKey s g.keyslot).exp) then none
  else
    (linesOf (g.vbase + off) n).foldl (fun acc x =>
      match acc, genLine s (lowDie s) g ((x.1 - g.vbase) / 64) with
      | some bs, some l => some (bs ++ (l.drop (x.1 % 64)).take x.2)
      | _, _ => none) (some [])

/-- A read by another device of the latest RELEASED generation of a TID (R242). -/
def remoteRead (s : State) (tid : BitVec 48) (off n : Nat) : Option (List Byte) :=
  match latestGen s tid (fun g => decide (g.state = 5)) with
  | none => none
  | some g => releasedBytes s g off n

/-- REMOTE_READ_REQUEST (R242). -/
def execRemoteReadRequest (_src : BitVec 18) (tid : BitVec 48) (off : BitVec 46) (len : Nat) (s : State) : Out :=
  match remoteRead s tid off.toNat len with
  | none => .next (replyTo s true [])
  | some bs => .next (replyTo s false bs)

/-! ## Management-path reads of vault bytes (R441, R463, log entry 5) -/

/-- A line's seal is that of a RELEASED generation under an export slot (R440). -/
def releasedLine (s : State) (slot : Nat) (x : Seal) : Bool :=
  (getKey s slot).exp && (allGens s).any fun g =>
    decide (g.state = 5) && decide (g.keyslot = slot) && decide (g.tid = x.tid) && decide (BitVec.ofNat 32 g.ver = x.ver)

/-- A byte read at its physical address by the management path: what the line holds; zero for a world's line, and for a line
on the scrub list of one (R441); a free value for a line that no key opens. The second result says that the zeros stand for a
world's data. -/
def mgmtByte (s : State) (pa : Nat) : Byte × Bool :=
  if onScrubList s pa 1 then (0, true)
  else
    match findSeal s.side (pa / 64) with
    | none => (seenByte s 8 pa, false)
    | some x =>
      if x.key = (getKey s 0).key ∧ (getKey s 0).state = .loaded then (memGet s.vault pa, false)
      else
        match s.gran.keys.find? fun e => decide (e.2.state = .loaded) && decide (e.2.key = x.key) with
        | some e => if releasedLine s e.1 x then (memGet s.vault pa, false) else (0, true)
        | none => (Config.brokenByte pa s.ticks, false)

end Sys2Proof.Machine
end

