-- ==== Sys2Proof/Machine/Exchange.lean ====
section
/-!
DEFINITION. Machine/Exchange.lean: the exchange engine: queue entries (R270), starting, transferring, parking, replay and
rerun (R255 to R258, R272 to R284, R351 to R354), and the opens and seals that take effect at the flips (R234, R280, R416).
-/
namespace Sys2Proof.Machine

/-! ## Entries of the exchange queue -/

/-- An exchange queue entry (R270). -/
structure XEnt where
  op : Nat
  ty : Nat
  ctl : BitVec 8
  qw : Nat
  origin : BitVec 8
  state : BitVec 8
  tag : BitVec 16
  len : Nat
  spad : Nat
  fara : Word
  farb : Word
  deriving DecidableEq, Repr

/-- The entry in its 32 bytes (R270). -/
def xentBytes (e : XEnt) : List Byte :=
  leBytes 1 e.op ++ leBytes 1 e.ty ++ [e.ctl] ++ leBytes 1 e.qw ++ [e.origin, e.state] ++ leBytes 2 e.tag.toNat ++
    leBytes 4 e.len ++ leBytes 4 e.spad ++ leBytes 8 e.fara.toNat ++ leBytes 8 e.farb.toNat

/-- An entry from its 32 bytes. -/
def xentOf (b : List Byte) : XEnt :=
  let f := fun (o n : Nat) => leNat ((b.drop o).take n)
  { op := f 0 1, ty := f 1 1, ctl := BitVec.ofNat 8 (f 2 1), qw := f 3 1, origin := BitVec.ofNat 8 (f 4 1),
    state := BitVec.ofNat 8 (f 5 1), tag := BitVec.ofNat 16 (f 6 2), len := f 8 4, spad := f 0xC 4, fara := wd (f 0x10 8),
    farb := wd (f 0x18 8) }

/-- Bits of STATE and CTL. -/
def XEnt.started (e : XEnt) : Bool := bit e.state 0
def XEnt.done (e : XEnt) : Bool := bit e.state 1
def XEnt.parked (e : XEnt) : Bool := bit e.state 2
def XEnt.replay (e : XEnt) : Bool := bit e.state 3
def XEnt.far (e : XEnt) : Nat := fld e.ctl 1 0
def XEnt.gated (e : XEnt) : Bool := bit e.ctl 2
def XEnt.isXred (e : XEnt) : Bool := decide (3 ≤ e.op) && decide (e.op ≤ 9)
def XEnt.isTransfer (e : XEnt) : Bool := decide (e.op ≤ 9)
def XEnt.sig (e : XEnt) : XSig := { op := e.op, signed := decide (e.ty = 3), qw := e.qw }

/-- Where entry `pos` of a core's exchange queue stands (R214). -/
def xqAddr (co : Core) (pos : Nat) : Nat := qSlot (qwBase co.xq) (qwDepth co.xq) 32 pos

/-- Entry `pos` of a core's exchange queue. -/
def getEnt (s : State) (c pos : Nat) : XEnt := xentOf (memBytes (getCore s c).spad (xqAddr (getCore s c) pos) 32)

/-- Set STATE of an entry. -/
def setEntState (s : State) (c pos : Nat) (st : BitVec 8) : State :=
  spadWrite s c (xqAddr (getCore s c) pos + 5) [st]

/-- The positions HEAD to TAIL - 1, in order. -/
def xqAll (co : Core) : List Nat :=
  if qwDepth co.xq = 0 then []
  else
    let h := qHead co.spad (qwBase co.xq)
    (List.range (qCount co.spad (qwBase co.xq) (qwDepth co.xq))).map fun i => (h + i) % qWrap (qwDepth co.xq)

/-- The positions that stand before `pos` in the queue. -/
def xqBefore (co : Core) (pos : Nat) : List Nat := (xqAll co).takeWhile fun q => decide (q ≠ pos)

/-- An entry stands in the queue. -/
def inXq (s : State) (c pos : Nat) : Bool := (xqAll (getCore s c)).contains pos

/-- The gate value recorded for an entry: that of the last XCNT posted before it (R277). -/
def gateOf (s : State) (c pos : Nat) : Option Word :=
  (((xqBefore (getCore s c) pos).map (getEnt s c)).filter fun e => decide (e.op = 14)).getLast?.map (·.fara)

/-- A gated entry may start only once ARRIVE has reached its gate value (R277). -/
def gateOpen (s : State) (c pos : Nat) : Bool :=
  match gateOf s c pos with
  | some v => decide (v.toNat ≤ (partOf s c).arrive.toNat)
  | none => true

/-- The partition runs its exchange phase: EXCHANGE, or FINAL before its exchange has ended (R192). -/
def exchanging (p : Part) : Bool :=
  p.holding.isNone && (decide (p.st = .exchange) || (decide (p.st = .final) && !p.finalDone))

/-! ## Fences (R257, R278, R279) -/

/-- The pages that a transfer touches in global memory, by an address in each 64 KiB, with write intent (R224). -/
def XEnt.frames (e : XEnt) : List (Nat × Bool) :=
  let run := fun (va : Nat) (write : Bool) => (frameVas va e.len).map fun a => (a, write)
  if e.op = 2 then run e.farb.toNat false ++ run e.fara.toNat true
  else if e.isTransfer ∧ e.far = 0 then run e.fara.toNat (decide (e.op ≠ 0))
  else []

/-- What an entry has translated (R224, R243). -/
def xlatOf (s : State) (c pos : Nat) : Xlat := spGet { pages := [], counted := [] } (getCore s c).exch.xlat pos

/-- A started transfer walks the pages that it has not translated yet (R222 to R224, R229). -/
def translateEnt (s : State) (c pos : Nat) : State :=
  let t := xlatOf s c pos
  let r := (getEnt s c pos).frames.foldl (walkPage (dieOf c) ((getCore s c).part.getD 256)) (s, t)
  if r.2 = t then s else modExch r.1 c fun x => { x with xlat := spSet x.xlat pos r.2 }

/-- The dies that the accesses of a transfer fall on; none while some page is not translated (R257). -/
def xferDies (s : State) (c pos : Nat) : Option (List Nat) :=
  let e := getEnt s c pos
  let d := dieOf c
  let glob := e.frames.foldl (fun acc x =>
    match acc, pageOf (xlatOf s c pos).pages x.1 x.2 with
    | some l, some lf => some (l ++ (if lf.repl then (if x.2 then liveDies s else [d]) else [lf.home]))
    | _, _ => none) (some ([] : List Nat))
  if e.op = 2 then glob
  else if e.far = 0 then glob.map fun a => d :: a
  else if e.far = 1 then ((partOf s c).lmap[e.fara.toNat]?).map fun t => [d, dieOf t]
  else some [d]

/-- An earlier entry no longer holds an XFENCE with mask `m` and off-package bit `o`. A parked one holds it whatever the mask
(R278, R352). Any other no longer does once it is DONE, or where it is no transfer or the XFENCE names nothing; or it is no
off-package access that O names, and either M names no die or all its pages are translated and on dies that M does not name
(R257, R408). -/
def fenceClear (s : State) (c : Nat) (m : Nat) (o : Bool) (q : Nat) : Bool :=
  let e := getEnt s c q
  e.done || (!e.parked && (!e.isTransfer || (!(o && decide (e.far = 2)) && (decide (m = 0) || (e.started &&
    match xferDies s c q with
    | none => false
    | some l => l.all fun d => decide ((m >>> d) % 2 = 0))))))

/-- The conditions of an XFENCE hold for every earlier entry (R278). -/
def fenceDone (s : State) (c pos : Nat) : Bool :=
  let e := getEnt s c pos
  (xqBefore (getCore s c) pos).all (fenceClear s c e.spad (bit e.ctl 3))

/-- Every earlier transfer, XFENCE and XPROM is DONE: an XPROM may start (R279). -/
def promReady (s : State) (c pos : Nat) : Bool :=
  ((xqBefore (getCore s c) pos).map (getEnt s c)).all fun e => e.done || decide (12 ≤ e.op)

/-- No earlier XFENCE or XPROM holds an entry (R272). -/
def notHeld (s : State) (c pos : Nat) : Bool :=
  ((xqBefore (getCore s c) pos).map (getEnt s c)).all fun e => e.done || !(decide (e.op = 10) || decide (e.op = 11))

/-! ## Scratchpad marks (R256, R275) -/

/-- Two byte ranges meet. -/
def meets (a n b m : Nat) : Bool := decide (a < b + m) && decide (b < a + n)

/-- An XFENCE that names die `d` stands between two positions of one core's queue (R256). -/
def fencedApart (s : State) (c p q d : Nat) : Bool :=
  let l := xqAll (getCore s c)
  let after := fun (x : Nat) => (l.dropWhile fun y => decide (y ≠ x)).drop 1
  (after p).contains q &&
    ((after p).takeWhile fun y => decide (y ≠ q)).any fun y =>
      let e := getEnt s c y
      decide (e.op = 10) && decide ((e.spad >>> d) % 2 = 1)

/-- A scratchpad access by transfer `pos` of core `c`, an XRED where it has a signature, conflicts with a mark of another
transfer; two XREDs of one signature never do (R256). -/
def conflicts (s : State) (c pos t lo len : Nat) (write : Bool) (sig : Option XSig) : Bool :=
  (getCore s t).exch.marks.any fun m => !m.past &&
    meets lo len m.lo m.len && (write || m.write) && !(decide (m.core = c) && decide (m.pos = pos)) &&
      !(sig.isSome && decide (sig = m.xred)) &&
      !(decide (m.core = c) && fencedApart s c m.pos pos (dieOf t))

/-- Leave a mark of `len` bytes; a write brings `data` (R255, R256). -/
def addMark (s : State) (c pos t lo len : Nat) (write : Bool) (sig : Option XSig) (data : List Byte) : State :=
  if len = 0 then s
  else modExch s t fun x =>
    { x with marks := { lo := lo, len := len, write := write, core := c, pos := pos, xred := sig, data := data
                        past := false } :: x.marks }

/-- What a marked write does to a scratchpad (R273). -/
def Mark.apply (m : Mem) (k : Mark) : Mem :=
  match k.xred with
  | none => memWrite m k.lo k.data
  | some sig => memWrite m k.lo (xredBytes sig (k.len / 8) (memBytes m k.lo k.len) k.data)

/-- The scratchpad of core `t` as transfer `pos` of core `c` reads it: as the exchange phase found it, with the writes of the core's own
earlier transfers that an XFENCE orders before this one, and no other write of the phase (R255, R257). -/
def sourceView (s : State) (c pos t : Nat) : Mem :=
  let x := (getCore s t).exch
  (x.marks.reverse.filter fun m => m.write && decide (m.core = c) && decide (m.pos ≠ pos) &&
    fencedApart s c m.pos pos (dieOf t)).foldl Mark.apply x.start

/-- The scratchpad bytes that a transfer takes from its own core (R255). -/
def sourceBytes (s : State) (c pos a n : Nat) : List Byte := memBytes (sourceView s c pos c) a n

/-- A range meets an enabled queue area of a core (R275). -/
def inQueueArea (co : Core) (lo len : Nat) : Bool :=
  [co.alogq, co.xq, co.noteq].any fun q =>
    decide (0 < qwDepth q) && meets lo len (qwBase q) (qwEnd q - qwBase q)

/-! ## Carrying out a transfer (R272, R273) -/

/-- The end of an attempt at a transfer. -/
inductive XEnd where
  | ok
  | fault (cause : Byte) (addr : Word)
  | wait
  deriving DecidableEq, Repr

/-- What a transfer that stops leaves: the lines before the one that faulted (R283), but nothing on a hazard, whose transfer
writes nothing (R256). -/
def stopped (s0 s : State) (cause : Byte) (addr : Word) : State × XEnd :=
  (if cause = 0x44 then s0 else s, .fault cause addr)

/-- Load pieces of global memory into scratchpad, line by line (R272, R283). -/
def loadPieces (t : List XPage) (c p pos : Nat) : List (Nat × Nat) → Nat → State → State × XEnd
  | [], _, s => (s, .ok)
  | (va, n) :: r, a, s =>
    match gRead t s (dieOf c) p va n with
    | .ok bs => loadPieces t c p pos r (a + n) (spadWrite (addMark (noteRead s p va) c pos c a n true none bs) c a bs)
    | .fault k x => (s, .fault k x)
    | .wait => (s, .wait)

/-- Read a range of global memory. -/
def readRange (t : List XPage) (s : State) (d p : Nat) : List (Nat × Nat) → XR (List Byte)
  | [] => .ok []
  | (va, n) :: r =>
    match gRead t s d p va n with
    | .ok bs =>
      match readRange t s d p r with
      | .ok l => .ok (bs ++ l)
      | x => x
    | x => x

/-- Copy global to global, one destination line at a time. -/
def copyPieces (t : List XPage) (d p : Nat) (replay : Bool) : List (Nat × Nat) → Nat → State → State × XEnd
  | [], _, s => (s, .ok)
  | (va, n) :: r, src, s =>
    match readRange t s d p (linesOf src n) with
    | .fault k x => (s, .fault k x)
    | .wait => (s, .wait)
    | .ok bs =>
      match gWrite t ((linesOf src n).foldl (fun s x => noteRead s p x.1) s) d p va bs replay false with
      | .ok s' => copyPieces t d p replay r (src + n) s'
      | .fault k x => (s, .fault k x)
      | .wait => (s, .wait)

/-- A global range must lie wholly inside one generation; its first address is translated before that is tested, and a
write through a leaf with WBLK set waits there (R216, R222, R229, R232, R235). -/
def rangeCheck (t : List XPage) (s : State) (d p va len : Nat) (write : Bool) : XEnd :=
  match lineChecks t s d p va write with
  | .fault c a => .fault c a
  | .wait => .wait
  | .ok (_, g) => if va + len ≤ g.vbase + g.size then .ok else .fault 0x40 (wd va)

/-- A device number is this device's own. -/
def ownDevice (s : State) (dev : Nat) : Bool := bit s.bilsol.devnum 63 && decide (fld s.bilsol.devnum 17 0 = dev)

/-- The ports that are up among those that the route tables name for a device, each port by the table of its own Shale die
(R468, R469). -/
def portsTo (s : State) (dev : Nat) : List Nat :=
  (List.range 16).filter fun p =>
    bit (spGet 0 s.bilsol.route (262144 * (p / 8) + dev)) p && decide (fld (spGet 0 s.bilsol.port p) 1 0 = 3)

/-- Some port leads to a device (R469); the device's own number needs none. -/
def linkUp (s : State) (dev : Nat) : Bool := ownDevice s dev || !(portsTo s dev).isEmpty

/-- The port of a pair of sending core and destination device: the one it keeps while that stays up, else another of the entry
(R469). -/
def pairPort (s : State) (c dev : Nat) : Option Nat :=
  match spFind s.bilsol.pairs (2 ^ 18 * c + dev) with
  | some p => if p ∈ portsTo s dev then some p else (portsTo s dev).head?
  | none => (portsTo s dev).head?

/-- A pair takes its port (R469). -/
def takePort (s : State) (c dev : Nat) : State :=
  match pairPort s c dev with
  | some p => { s with bilsol := { s.bilsol with pairs := spSet s.bilsol.pairs (2 ^ 18 * c + dev) p } }
  | none => s

/-- The refusals of an off-package transfer (R446, R447, R469). A device that is no member of a collective has no mask for it,
so its contributions are refused (log entry 13). -/
def offCheck (s : State) (e : XEnt) : Option Byte :=
  let coll := collOf s (e.fara.setWidth 48)
  if coll.any (fun k => !k.valid) then some 0x48
  else if coll.isSome ∧ e.op ≠ 3 ∧ e.op ≠ 9 then some 0x41
  else if coll.any (fun k => !k.members.any fun d => ownDevice s d.toNat) then some 0x41
  else if ¬ linkUp s (fld e.farb 63 46) then some 0x46
  else none

/-- Bytes held on a die for other devices (R408). -/
def heldBytes (s : State) (d : Nat) : Nat :=
  sumOf ((s.gran.hold.filter fun o => decide (o.die = d) && decide (o.push = none)).map (·.data.length))

/-- A collective counts a use for the superstep of a task whose contributions are copied into the hold (R446; log entry 13). -/
def Coll.noteUse (tid : BitVec 48) (use : Word × Nat) (k : Coll) : Coll :=
  if k.tid = tid ∧ ¬ k.uses.contains use then { k with uses := k.uses ++ [use] } else k

/-- Copy an off-package write into its die's outbound hold, once; a full hold makes it wait (R408). -/
def holdWrite (s : State) (c pos : Nat) (e : XEnt) (bs : List Byte) : State × XEnd :=
  let p := (getCore s c).part.getD 256
  let item : Outbound :=
    { die := dieOf c, core := c, part := p, task := (getPart s p).taskid,
      ss := (getPart s p).phase.toNat / 2, dev := BitVec.ofNat 18 (fld e.farb 63 46),
      tid := e.fara.setWidth 48, off := fld e.farb 45 0,
      op := if e.op = 1 then .write
            else .xred (Fin.ofNat 16 e.op) (decide (e.ty = 3)) (Fin.ofNat 64 e.qw) (Fin.ofNat 1024 c) e.tag,
      data := bs, sent := [], push := none, seq := (xqBefore (getCore s c) pos).length, parked := none, port := none
      sentAt := 0, tries := 0, image := [], side := [] }
  if s.gran.hold.contains item then (s, .ok)
  else if fld s.gran.geodeCtl 15 8 * 2 ^ 20 < heldBytes s (dieOf c) + bs.length then (s, .wait)
  else (modGran s fun g => { g with hold := g.hold ++ [item], colls := g.colls.map (Coll.noteUse item.tid (item.task, item.ss)) }, .ok)

/-- The bytes a FAR 2 read returns: this device's own released data, or what another device serves; none where it is
refused (R242, R283, log entry 6). -/
def remoteBytes (s : State) (e : XEnt) : Option (List Byte) :=
  let dev := fld e.farb 63 46
  if ownDevice s dev then
    remoteRead s (e.fara.setWidth 48) (fld e.farb 45 0) e.len
  else if Config.remoteServed dev (fld e.fara 47 0) (fld e.farb 45 0) e.len s.ticks then
    some ((List.range e.len).map fun i => Config.remoteByte dev (fld e.fara 47 0) (fld e.farb 45 0 + i) s.ticks)
  else none

/-- Try a transfer that is no reduction within the package (R272, R275, R283). The test for a queue area is made on the whole
range before the first byte (log entry 73). -/
def runXfer (s : State) (c pos : Nat) (e : XEnt) : State × XEnd :=
  let p := (getCore s c).part.getD 256
  let tr := (xlatOf s c pos).pages
  let co := getCore s c
  match e.op with
  | 0 =>
    if inQueueArea co e.spad e.len then (s, .fault 0x41 (wd e.spad))
    else if conflicts s c pos c e.spad e.len true none then (s, .fault 0x44 (wd e.spad))
    else if e.far = 2 then
      match offCheck s e with
      | some k => (s, .fault k e.fara)
      | none =>
        match remoteBytes s e with
        | none => (s, .fault 0x41 e.fara)
        | some bs =>
          (spadWrite (addMark (takePort s c (fld e.farb 63 46)) c pos c e.spad e.len true none bs) c e.spad bs, .ok)
    else
      match rangeCheck tr s (dieOf c) p e.fara.toNat e.len false with
      | .ok =>
        match loadPieces tr c p pos (linesOf e.fara.toNat e.len) e.spad s with
        | (s', .fault k x) => stopped s s' k x
        | x => x
      | x => (s, x)
  | 1 =>
    if conflicts s c pos c e.spad e.len false none then (s, .fault 0x44 (wd e.spad))
    else
      let bs := sourceBytes s c pos e.spad e.len
      let s1 := addMark s c pos c e.spad e.len false none []
      if e.far = 0 then
        match rangeCheck tr s (dieOf c) p e.fara.toNat e.len true with
        | .ok =>
          match writePieces tr (dieOf c) p e.replay false (linesOf e.fara.toNat e.len) bs s1 with
          | (s', .ok _) => (s', .ok)
          | (s', .fault k x) => (s', .fault k x)
          | (s', .wait) => (s', .wait)
        | x => (s, x)
      else if e.far = 1 then
        match (getPart s p).lmap[e.fara.toNat]? with
        | none => (s, .fault 0x40 e.fara)
        | some t =>
          if inQueueArea (getCore s t) e.farb.toNat e.len then (s, .fault 0x41 e.farb)
          else if conflicts s c pos t e.farb.toNat e.len true none then (s, .fault 0x44 e.farb)
          else (spadWrite (addMark s1 c pos t e.farb.toNat e.len true none bs) t e.farb.toNat bs, .ok)
      else
        match offCheck s e with
        | some k => (s, .fault k e.fara)
        | none => holdWrite s1 c pos e bs
  | 2 =>
    match rangeCheck tr s (dieOf c) p e.farb.toNat e.len false, rangeCheck tr s (dieOf c) p e.fara.toNat e.len true with
    | .ok, .ok =>
      match copyPieces tr (dieOf c) p e.replay (linesOf e.fara.toNat e.len) e.farb.toNat s with
      | (s', .fault k x) => stopped s s' k x
      | x => x
    | .ok, x => (s, x)
    | x, _ => (s, x)
  | _ =>
    if conflicts s c pos c e.spad e.len false (some e.sig) then (s, .fault 0x44 (wd e.spad))
    else
      match offCheck s e with
      | some k => (s, .fault k e.fara)
      | none => holdWrite (addMark s c pos c e.spad e.len false (some e.sig) []) c pos e (sourceBytes s c pos e.spad e.len)

/-- The number that a core's tags are kept under: partition and logical core (R274). -/
def tagKey (s : State) (c : Nat) : Nat := 2 ^ 32 + 1024 * (getCore s c).part.getD 256 + (getCore s c).lcore

/-- The vault whose window keeps the tags of a reduction to global memory (R274). -/
def tagVault (s : State) (c : Nat) (e : XEnt) : Nat :=
  ((ownerWalk s (dieOf c) ((getCore s c).part.getD 256) e.fara.toNat).map fun l =>
    l.readPa (dieOf c) e.fara.toNat / 2 ^ 29).getD 0

/-- The tags that the destination of a reduction has applied for its source core (R274). -/
def appliedTags (s : State) (c : Nat) (e : XEnt) : List (BitVec 16) :=
  if e.far = 1 then
    match (partOf s c).lmap[e.fara.toNat]? with
    | none => []
    | some t => tagsOf (getCore s t).exch.dedup (tagKey s c)
  else tagsOf (spGet [] s.vdedup (tagVault s c e)) (tagKey s c)

/-- The tag belongs to a non-idempotent reduction of the core that is not DONE (R274). -/
def tagLive (s : State) (c : Nat) (tag : BitVec 16) : Bool :=
  ((xqAll (getCore s c)).map (getEnt s c)).any fun e => nonIdem e.op && !e.done && decide (e.tag = tag)

/-- Try to apply a reduction at its destination; a request that faults is not applied and enters no tag (R273, R274). -/
def runXred (s : State) (c pos : Nat) (e : XEnt) : State × XEnd :=
  let p := (getCore s c).part.getD 256
  let tr := (xlatOf s c pos).pages
  let bs := sourceBytes s c pos e.spad e.len
  if conflicts s c pos c e.spad e.len false (some e.sig) then (s, .fault 0x44 (wd e.spad))
  else
    let s1 := addMark s c pos c e.spad e.len false (some e.sig) []
    if e.far = 1 then
      match (getPart s p).lmap[e.fara.toNat]? with
      | none => (s, .fault 0x40 e.fara)
      | some t =>
        if inQueueArea (getCore s t) e.farb.toNat e.len then (s, .fault 0x41 e.farb)
        else if conflicts s c pos t e.farb.toNat e.len true (some e.sig) then (s, .fault 0x44 e.farb)
        else
          let old := memBytes (getCore s1 t).spad e.farb.toNat e.len
          let s2 := spadWrite (addMark s1 c pos t e.farb.toNat e.len true (some e.sig) bs) t e.farb.toNat
            (xredBytes e.sig (e.len / 8) old bs)
          (if nonIdem e.op then
            modExch s2 t fun x => { x with dedup := enterTag (tagLive s c) x.dedup (tagKey s c) e.tag } else s2, .ok)
    else
      match rangeCheck tr s (dieOf c) p e.fara.toNat e.len true with
      | .ok =>
        match redPieces tr (dieOf c) p e.sig false (linesOf e.fara.toNat e.len) bs s1 with
        | (s2, .fault k x) => stopped s s2 k x
        | (s2, .wait) => (s2, .wait)
        | (s2, .ok _) =>
          let v := tagVault s c e
          (if nonIdem e.op then
            { s2 with vdedup := spSet s2.vdedup v (enterTag (tagLive s c) (spGet [] s2.vdedup v) (tagKey s c) e.tag) }
           else s2, .ok)
      | x => (s, x)

/-- A reduction that its destination inside the package applies. -/
def XEnt.inside (e : XEnt) : Bool := e.isXred && decide (e.far ≠ 2)

/-! ## Core phase states (R191) -/

/-- A finished group: its lanes have all halted (R140). -/
def Group.finished (g : Group) : Bool := g.lanes.all fun e => decide (e.2.cond = .halted)

/-- A group holds a named barrier from its arrival until the round completes (R171). -/
def holdsBarrier (co : Core) (g : Nat) : Bool := co.bars.any fun e => bit e.2.arrived g

/-- Group `g` of a core counts as finished (R140, R191); while it holds a barrier it stays live (R171, R173), also when
LANECTL has killed its lanes (log entry 53). -/
def Core.groupDone (co : Core) (g : Nat) : Bool := (co.group g).finished && !holdsBarrier co g

/-- The core's gated transfers have all opened, nothing is parked, and XPEND is 0 (R191, R198, R280, R359). -/
def coreDone (s : State) (c : Nat) : Bool :=
  decide ((getCore s c).exch.xpend = 0) &&
    ((xqAll (getCore s c)).map (getEnt s c)).all fun e => !e.parked && (!e.gated || e.done)

/-- Test the phase state of a core again (R191, R193). -/
def retest (s : State) (c : Nat) : State :=
  let co := getCore s c
  let allSynced := (List.range co.ngroups).all fun g => (co.group g).synced || co.groupDone g
  match co.pst with
  | .compute =>
    if allSynced then
      setCore s c { co with pst := if co.eng.queue.isEmpty then .synced else .draining }
    else s
  | .draining => if co.eng.queue.isEmpty then setCore s c { co with pst := .synced } else s
  | .exchange => if coreDone s c then setCore s c { co with pst := .xdone } else s
  | _ => s

/-- An entry becomes DONE and its LEN leaves XPEND (R272). -/
def finishEnt (s : State) (c pos : Nat) (e : XEnt) : State :=
  let s := setEntState s c pos (e.state ||| 3)
  let s := modExch s c fun x =>
    { x with xpend := x.xpend - e.len, applied := x.applied.filter (fun q => decide (q ≠ pos))
             resent := spErase x.resent pos, sentAt := spErase x.sentAt pos, xlat := spErase x.xlat pos }
  retest s c

/-- Park an entry with a cause and post its kind-1 event (R283, R351). A replay begins afresh: nothing of it counts as applied or
translated (R354). -/
def parkEnt (s : State) (c pos : Nat) (cause : Byte) (addr : Word) : State :=
  let e := getEnt s c pos
  let co := getCore s c
  let idx := ((xqBefore co pos).length) % (max 1 (qwDepth co.xq))
  let s := modExch (setEntState s c pos (e.state ||| 4)) c fun x =>
    { x with applied := x.applied.filter (fun q => decide (q ≠ pos)), resent := spErase x.resent pos, xlat := spErase x.xlat pos }
  let s := if co.pst = .xdone then modCore s c fun x => { x with pst := .exchange } else s
  postEvent s (dieOf c) (coreEvent s c 1 cause (wd (idx * 2 ^ 48 + addr.toNat % 2 ^ 48)))

/-! ## Opening and sealing (R234, R280, R416) -/

/-- The pages of a generation: first address, size and HOME of each; none where one is not mapped. -/
def genPages (s : State) (g : Gen) : Option (List (Nat × Nat × Nat)) :=
  if (leavesOf s g).all fun x => x.2.isSome then
    some ((leavesOf s g).filterMap fun x => x.2.map fun l => (x.1, l.size, l.home))
  else none

/-- The map slots that an open needs on each die are free (R236). -/
def mapRoom (s : State) (ps : List (Nat × Nat × Nat)) : Bool :=
  (List.range 8).all fun d =>
    decide (mapUsed s d + sumOf ((ps.filter fun x => decide (x.2.2 = d)).map fun x => slotsOf x.2.1) ≤ 32768)

/-- An open of entry `i` by a partition at a flip: the state after it, or none where a check fails (R234, R280, R416,
R440), an unmapped page, a PREV outside the table and another partition's PREV that is not RELEASED among them (R4, R6, log
entry 61). The key slot of PREV is not tested: R440 names only the KEYSLOT opened (R4, log entry 78). A landing tensor that a re-execution opens again
is left as it is (R414). -/
def openGen (s : State) (p i : Nat) : Option State :=
  let g := getGen s i
  let pt := getPart s p
  if g.owner = p ∧ g.landing ∧ 2 ≤ g.state ∧ g.state ≤ 5 ∧ pt.phase.toNat < pt.rerunTo.toNat then some s
  else if g.owner ≠ p ∨ g.state ≠ 1 ∨ ¬ mayOpen s p g.keyslot then none
  else
    let prev := getGen s g.prev
    let none? := decide (g.prev = 0xFFFFFFFF)
    if ¬ none? ∧ (ttCount s ≤ g.prev ∨ ¬ (3 ≤ prev.state ∧ prev.state ≤ 5) ∨ (prev.owner ≠ p ∧ prev.state ≠ 5) ∨ prev.tid ≠ g.tid ∨ prev.size ≠ g.size ∨
        prev.ver = 2 ^ 32 - 1) then none
    else
      match genPages s g with
      | none => none
      | some ps =>
        if ¬ mapRoom s ps then none
        else
          let base := if none? then 0 else prev.ver
          let ver := (if g.rolled then max g.ver base else base) + 1
          let s := ps.foldl (fun s x => modDie s x.2.2 fun d =>
            { d with map := d.map ++ [{ idx := i, page := g.page x.1, slots := slotsOf x.2.1 }] }) s
          let s := { setGen s { g with state := 2, ver := ver, flags := g.flags &&& 0xFB, audn := 0 } with
                     written := spSet s.written i [] }
          some (modGran s fun gr =>
            { gr with gens := gr.gens.filter (fun a => decide (a.idx ≠ i)) ++
                [{ idx := i, part := p, task := pt.taskid, ver := ver, openSs := pt.phase.toNat / 2, sealer := none, ops := [], fixedr := false }] })

/-- A seal of entry `i` at the end of an exchange phase, or none where a check fails (R280). -/
def sealGen (s : State) (p i : Nat) : Option State :=
  let g := getGen s i
  let pt := getPart s p
  if g.owner = p ∧ g.landing ∧ 3 ≤ g.state ∧ g.state ≤ 5 ∧ pt.phase.toNat < pt.rerunTo.toNat then some s
  else if g.owner ≠ p ∨ g.state ≠ 2 then none
  else
    let s := modGran s fun gr =>
      { gr with gens := gr.gens.map fun a => if a.idx = i then { a with sealer := some pt.taskid } else a }
    some (notify (setGen s { g with state := 3, sealph := pt.phase }) p 1 i g.tid g.ver 0 pt.phase)

/-- The table indices that entries of one kind (12 TOPEN, 13 TSEAL) name in a partition, with where each entry stands. -/
def tensorPosts (s : State) (p op : Nat) : List (Nat × Nat × Nat) :=
  (getPart s p).lmap.flatMap fun c =>
    ((xqAll (getCore s c)).filter fun q => decide ((getEnt s c q).op = op) && !(getEnt s c q).done).map fun q =>
      ((getEnt s c q).fara.toNat, c, q)

/-- Carry out one index's opens or seals: every entry that names it becomes DONE, or every one parks (R280). -/
def tensorEffect (f : State → Nat → Nat → Option State) (p : Nat) (posts : List (Nat × Nat × Nat)) (s : State) (i : Nat) :
    State :=
  let mine := posts.filter fun x => decide (x.1 = i)
  match f s p i with
  | some s' => mine.foldl (fun s x => setEntState s x.2.1 x.2.2 ((getEnt s x.2.1 x.2.2).state ||| 3)) s'
  | none => mine.foldl (fun s x => parkEnt s x.2.1 x.2.2 0x41 0) s

/-- Every posted TOPEN, or every posted TSEAL, of a partition takes effect, each index once (R280). -/
def tensorPhase (s : State) (p op : Nat) : State :=
  let posts := (tensorPosts s p op).filter fun x => !(getEnt s x.2.1 x.2.2).parked
  let idxs := posts.foldl (fun l x => insertSorted x.1 l) []
  idxs.foldl (tensorEffect (if op = 12 then openGen else sealGen) p posts) s

/-- The posted TSEALs whose check fails, as table indices. -/
def badSeals (s : State) (p : Nat) : List Nat :=
  ((tensorPosts s p 13).map (·.1)).eraseDups.filter fun i => (sealGen s p i).isNone

/-- The TSEALs whose check fails park; no seal of the phase takes effect before every posted one can (R280, R284; log entry 76). -/
def parkSeals (s : State) (p : Nat) : State := (badSeals s p).foldl (tensorEffect sealGen p (tensorPosts s p 13)) s

/-! ## Events of the exchange engine -/

/-- Physical core number of an event's operands. -/
def coreNum (die : Fin 8) (core : Fin 128) : Nat := 128 * die + core

/-- At most 32 non-idempotent reductions are started and not DONE; one that stands applied in its window counts with them, so
that its tag stays there (R274). -/
def tagRoom (s : State) (c pos : Nat) : Bool :=
  decide ((((xqAll (getCore s c)).filter fun q => decide (q ≠ pos)).map (getEnt s c)).countP (fun e =>
    nonIdem e.op && !e.done && (e.started || (e.inside && (appliedTags s c e).contains e.tag))) < 32)

/-- Start an entry: STARTED, its first request sent, its pages translated and counted in ACC (R224, R272, R353). -/
def startEnt (s : State) (c pos : Nat) (e : XEnt) : State :=
  translateEnt (modExch (setEntState s c pos ((e.state ||| 1) &&& 0xFB)) c fun x =>
    { x with sentAt := spSet x.sentAt pos s.time, xlat := spErase x.xlat pos }) c pos

/-- Nothing but the queue order keeps an entry from starting (R272, R274, R277 to R279). -/
def startable (s : State) (c pos : Nat) : Bool :=
  let e := getEnt s c pos
  exchanging (partOf s c) && inXq s c pos && !e.started && !e.done && !e.parked && notHeld s c pos &&
    (!e.gated || gateOpen s c pos) && (!nonIdem e.op || tagRoom s c pos) && (decide (e.op ≠ 11) || promReady s c pos) &&
    decide (e.op ≠ 13)

/-- An entry may start now: entries start in queue order, so none before it can start (R272). -/
def mayStart (s : State) (c pos : Nat) : Bool :=
  startable s c pos && (xqBefore (getCore s c) pos).all fun q => !startable s c q

/-- The partition opened a generation in this superstep: an abandonment lets that open stand (R284). -/
def openedNow (s : State) (p i : Nat) : Bool :=
  let g := getGen s i
  decide (g.state = 2) && decide (g.owner = p) && s.gran.gens.any fun a =>
    decide (a.idx = i) && decide (a.part = p) && decide (a.task = (getPart s p).taskid) &&
      decide (a.openSs = (getPart s p).phase.toNat / 2)

/-- EXCHANGE_ENTRY_START (R272). An XCNT is DONE at once, and so is a TOPEN whose open has taken effect; one that an abandoned
phase left without effect is tried again (R284). -/
def execExchangeEntryStart (die : Fin 8) (core : Fin 128) (pos : Nat) (s : State) : Out :=
  let c := coreNum die core
  if mayStart s c pos then
    let e := getEnt s c pos
    if e.op = 14 then .next (setEntState s c pos (e.state ||| 3))
    else if e.op = 12 ∧ openedNow s ((getCore s c).part.getD 256) e.fara.toNat then .next (finishEnt s c pos e)
    else if e.op = 12 then
      match openGen s ((getCore s c).part.getD 256) e.fara.toNat with
      | some s' => .next (finishEnt s' c pos e)
      | none => .next (parkEnt s c pos 0x41 0)
    else .next (startEnt s c pos e)
  else .next s

/-- An entry is being carried out. -/
def running (s : State) (c pos : Nat) : Bool :=
  let e := getEnt s c pos
  exchanging (partOf s c) && inXq s c pos && e.started && !e.done && !e.parked

/-- Carry out a transfer that is no reduction within the package, whose pages are translated as far as they can be: where it
cannot be carried out now, its translations stay (R229, R272). -/
def carryOut (s : State) (c pos : Nat) : State :=
  let s := translateEnt s c pos
  let e := getEnt s c pos
  match runXfer s c pos e with
  | (s', .ok) => finishEnt s' c pos e
  | _ => s

/-- EXCHANGE_TRANSFER_DONE (R272, R278). A reduction inside the package is done once its request has been applied. -/
def execExchangeTransferDone (die : Fin 8) (core : Fin 128) (pos : Nat) (s : State) : Out :=
  let c := coreNum die core
  let e := getEnt s c pos
  if ¬ running s c pos then .next s
  else if e.op = 10 then (if fenceDone s c pos then .next (finishEnt s c pos e) else .next s)
  else if ¬ e.isTransfer then .next s
  else if e.inside then
    (if (getCore s c).exch.applied.contains pos then .next (finishEnt s c pos e) else .next s)
  else .next (carryOut s c pos)

/-- A transfer that faults parks with what it did before (R283); another goes on. -/
def parkFaulted (s : State) (c pos : Nat) : State :=
  let s := translateEnt s c pos
  let e := getEnt s c pos
  match (if e.inside then runXred s c pos e else runXfer s c pos e) with
  | (s', .fault k a) => parkEnt s' c pos k a
  | _ => s

/-- EXCHANGE_FAULT_PARK (R283): lines already completed stay written. -/
def execExchangeFaultPark (die : Fin 8) (core : Fin 128) (pos : Nat) (s : State) : Out :=
  let c := coreNum die core
  let e := getEnt s c pos
  if ¬ running s c pos ∨ ¬ e.isTransfer ∨ (getCore s c).exch.applied.contains pos then .next s
  else .next (parkFaulted s c pos)

/-- Apply a reduction inside the package (R273); where that cannot be done now, its translations stay. -/
def applyXred (s : State) (c pos : Nat) : State :=
  let s := translateEnt s c pos
  match runXred s c pos (getEnt s c pos) with
  | (s', .ok) => modExch s' c fun x => { x with applied := pos :: x.applied }
  | _ => s

/-- XRED_REQUEST_APPLY (R273, R274): a request whose tag is in the window is not applied again. -/
def execXredRequestApply (die : Fin 8) (core : Fin 128) (pos : Nat) (s : State) : Out :=
  let c := coreNum die core
  let e := getEnt s c pos
  if ¬ running s c pos ∨ ¬ e.inside ∨ (getCore s c).exch.applied.contains pos then .next s
  else if nonIdem e.op ∧ (appliedTags s c e).contains e.tag then .next s
  else .next (applyXred s c pos)

/-- Nanoseconds within which a request must be answered: 100 us on the package, and 5 ms for a read across Bilsol; a write to
another device is answered by the hold on its own die (R353, R408). -/
def XEnt.answerIn (s : State) (e : XEnt) : Nat :=
  if e.far = 2 ∧ e.op = 0 ∧ ¬ ownDevice s (fld e.farb 63 46) then 5000000 else 100000

/-- The transfer has sent no request yet, or may not: it waits for WBLK to clear, a carried line or room in a hold (R229,
R240, R408). -/
def waiting (s : State) (c pos : Nat) : Bool :=
  let s := translateEnt s c pos
  let e := getEnt s c pos
  !(getCore s c).exch.applied.contains pos &&
    decide ((if e.inside then runXred s c pos e else runXfer s c pos e).2 = .wait)

/-- RESPONSE_TIMEOUT (R353, R354): package time reaches the end of the time-out, and the request is sent again, up to three
times; then the entry parks with LINK. -/
def execResponseTimeout (die : Fin 8) (core : Fin 128) (pos : Nat) (s : State) : Out :=
  let c := coreNum die core
  let e := getEnt s c pos
  if ¬ running s c pos ∨ ¬ e.isTransfer ∨ waiting s c pos then .next s
  else
    let s := { s with time := max s.time (spGet 0 (getCore s c).exch.sentAt pos + e.answerIn s) }
    let n := spGet 0 (getCore s c).exch.resent pos
    if n < 3 then
      .next (modExch s c fun x =>
        { x with resent := spSet x.resent pos (n + 1), sentAt := spSet x.sentAt pos s.time, applied := x.applied.filter fun q => decide (q ≠ pos) })
    else .next (parkEnt s c pos 0x46 e.fara)

/-- The entries of every core that send their first request now, having waited before: their time-outs start (R229, R353). -/
def wake (old s : State) : State :=
  s.cores.foldl (fun t e =>
    (xqAll e.2).foldl (fun t pos =>
      if running s e.1 pos && waiting old e.1 pos && !waiting s e.1 pos then
        modExch t e.1 fun x => { x with sentAt := spSet x.sentAt pos s.time }
      else t) t) s

/-- APPLIED_RESPONSE_LOST (R354): the tag is found, the entry is DONE, a kind-5 event is posted. -/
def execAppliedResponseLost (die : Fin 8) (core : Fin 128) (pos : Nat) (s : State) : Out :=
  let c := coreNum die core
  let e := getEnt s c pos
  if running s c pos ∧ e.inside ∧ nonIdem e.op ∧ (appliedTags s c e).contains e.tag ∧
      ¬ (getCore s c).exch.applied.contains pos then
    let idx := ((xqBefore (getCore s c) pos).length) % (max 1 (qwDepth (getCore s c).xq))
    .next (postEvent (finishEnt s c pos e) die (coreEvent s c 5 0x47 (wd (idx * 2 ^ 48 + e.tag.toNat))))
  else .next s

/-- XPROM_COMPLETE (R261, R279): what the named die's management core has stored is observed by every die. -/
def execXpromComplete (die : Fin 8) (core : Fin 128) (pos : Nat) (s : State) : Out :=
  let c := coreNum die core
  let e := getEnt s c pos
  if running s c pos ∧ e.op = 11 ∧ promReady s c pos then .next (finishEnt (promote s (e.fara.toNat % 8)) c pos e) else .next s

/-- XFCTL OP 1 (R351): a parked entry restarts from its first byte with REPLAY set; a parked TOPEN is tried again, being one with
another of its index that has opened it by now (R280), a parked TSEAL takes its turn at the end of the phase. Its pages count in ACC again (log entry 59). -/
def replayEnt (s : State) (p c idx : Nat) : State :=
  match (xqAll (getCore s c))[idx]? with
  | none => s
  | some pos =>
    let e := getEnt s c pos
    if (getCore s c).part ≠ some p ∨ ¬ e.parked then s
    else
      let s := setEntState s c pos ((e.state ||| 8) &&& 0xFA)
      let e := getEnt s c pos
      if e.op = 12 then
        if openedNow s p e.fara.toNat then finishEnt s c pos e
        else
          match openGen s p e.fara.toNat with
          | some s' => finishEnt s' c pos e
          | none => parkEnt s c pos 0x41 0
      else if e.op = 13 then retest s c
      else startEnt s c pos e

/-- XFCTL_REPLAY (R351). -/
def execXfctlReplay (part : Fin 256) (pcore : BitVec 10) (index : BitVec 16) (s : State) : Out :=
  .next (replayEnt s part pcore.toNat index.toNat)

/-- One entry at an abandonment: REPLAY set, STARTED and PARKED cleared, DONE kept only by a DONE non-idempotent reduction
(R284). -/
def abandonState (e : XEnt) : BitVec 8 :=
  if e.done ∧ nonIdem e.op then (e.state &&& 0xFA) ||| 8 else (e.state &&& 0xF8) ||| 8

/-- The marks that an abandonment leaves on a core: those of reductions that stay DONE, which later sources of their cores still take
(R255, R284). -/
def keptMarks (s : State) (l : List Mark) : List Mark :=
  (l.filter fun m => m.write && (m.past || ((getEnt s m.core m.pos).done && nonIdem (getEnt s m.core m.pos).op))).map fun m =>
    { m with past := true }

/-- Abandon and rerun the exchange phase of a partition (R284). -/
def abandon (s : State) (p : Nat) : State :=
  (getPart s p).lmap.foldl (fun s c =>
    let s := (xqAll (getCore s c)).foldl (fun s q => setEntState s c q (abandonState (getEnt s c q))) s
    let pend := sumOf ((((xqAll (getCore s c)).map (getEnt s c)).filter fun e => !e.done).map (·.len))
    retest (modCore s c fun x =>
      { x with pst := .exchange, exch := { x.exch with marks := keptMarks s x.exch.marks, applied := [], resent := [], sentAt := [], xlat := [], xpend := pend } }) c) s

/-- XFCTL_ABANDON (R284, R351). -/
def execXfctlAbandon (part : Fin 256) (s : State) : Out :=
  if exchanging (getPart s part) then .next (abandon s part) else .next s

end Sys2Proof.Machine
end

