-- ==== Sys2Proof/Machine/Commit.lean ====
section
/-!
DEFINITION. Machine/Commit.lean: Mica commits as the maintenance queue asks for them (R226 to R231, R394), with what they do to
the transfers under way: writes already translated through an old leaf complete first, other translations are made again (R223,
R229, R243), and the tags of reductions follow their page (R274, R354).
-/
namespace Sys2Proof.Machine

/-! ## Transfers that a commit meets -/

/-- The core and queue position of every transfer that runs. -/
def runningEnts (s : State) : List (Nat × Nat) :=
  s.cores.flatMap fun e => ((xqAll e.2).filter fun pos => running s e.1 pos && (getEnt s e.1 pos).isTransfer).map fun pos => (e.1, pos)

/-- The transfer has translated a page for writing through the leaf at a die-local address. -/
def writesThrough (s : State) (loc : Nat) (x : Nat × Nat) : Bool :=
  (xlatOf s x.1 x.2).pages.any fun y => y.write && decide (y.at_ % 2 ^ 36 = loc % 2 ^ 36)

/-- A write already translated reaches its destination before the commit completes, where nothing keeps it from doing so; one that
faults parks (R229). -/
def drainEnt (s : State) (x : Nat × Nat) : State :=
  let e := getEnt s x.1 x.2
  if (getCore s x.1).exch.applied.contains x.2 then s
  else
    let t :=
      if ¬ e.inside then carryOut s x.1 x.2
      else if nonIdem e.op ∧ (appliedTags s x.1 e).contains e.tag then s
      else applyXred s x.1 x.2
    if running t x.1 x.2 ∧ ¬ (getCore t x.1).exch.applied.contains x.2 then parkFaulted t x.1 x.2 else t

/-- The leaves whose change by some commits lets the writes through them complete first (R229). -/
def drainLeaves (s : State) (ws : List (Nat × Word)) : List Nat :=
  (ws.filter fun w => match nodeAt s w.1 with
    | some n => decide (2 ≤ n.level) && leafDrains (readPte s (lowDie s) w.1) w.2
    | none => false).map (·.1)

/-- Every write translated through one of the leaves completes. -/
def drainWrites (s : State) (locs : List Nat) : State :=
  locs.foldl (fun s loc => ((runningEnts s).filter (writesThrough s loc)).foldl drainEnt s) s

/-- An inbound write has translated the page of the leaf at a die-local address, and waits for a line of PREV. -/
def landsThrough (s : State) (loc : Nat) (x : Landing) : Bool :=
  match latestGen s x.tid (fun _ => true) with
  | none => false
  | some g => (frameVas (g.vbase + x.off) x.data.length).any fun va =>
      (ownerWalk s (lowDie s) g.owner va).any fun l => decide (l.at_ % 2 ^ 36 = loc % 2 ^ 36) && !bit l.pte 5

/-- A write translated through one of the leaves has still to reach its destination, since a line of PREV is not carried yet: the
commit waits for it (R229, R243). -/
def writesDue (s : State) (locs : List Nat) : Bool :=
  locs.any fun loc => s.lands.any (landsThrough s loc) ||
    ((runningEnts s).filter (writesThrough s loc)).any fun x => !(getCore s x.1).exch.applied.contains x.2

/-- A translation that a commit has left as it was, its ACC apart. -/
def sameWalk (old s : State) (d p va : Nat) : Bool :=
  decide ((ownerWalk old d p va).map (fun l => (l.at_, setFld l.pte 63 52 0, l.size)) =
    (ownerWalk s d p va).map fun l => (l.at_, setFld l.pte 63 52 0, l.size))

/-- The translations that a commit invalidates are made again; the pages stay counted (R223, R393). -/
def dropStale (old s : State) : State :=
  (runningEnts s).foldl (fun t x =>
    let p := (getCore s x.1).part.getD 256
    let l := xlatOf s x.1 x.2
    let keep := l.pages.filter fun y => sameWalk old s (dieOf x.1) p y.va
    if keep = l.pages then t
    else modExch t x.1 fun y => { y with xlat := spSet y.xlat x.2 { l with pages := keep } }) s

/-- A reduction that its old home vault has applied, and whose entry is not DONE, has its tag in the new home vault's window too,
so that no re-send is applied again (R274, R354, log entry 72). -/
def moveTag (old : State) (s : State) (x : Nat × Nat) : State :=
  let e := getEnt old x.1 x.2
  let v := tagVault s x.1 e
  if e.far = 0 ∧ nonIdem e.op ∧ ¬ e.done ∧ (appliedTags old x.1 e).contains e.tag ∧
      ¬ (appliedTags s x.1 e).contains e.tag then
    { s with vdedup := spSet s.vdedup v (enterTag (tagLive s x.1) (spGet [] s.vdedup v) (tagKey s x.1) e.tag) }
  else s

/-- The windows that a vault keeps for other devices go with a page that leaves it (R274, log entry 72). -/
def joinWindows (s : State) (v w : Nat) : State :=
  if v = w then s
  else
    let far := (spGet [] s.vdedup v).filter fun e => decide (e.1 < 2 ^ 32)
    { s with vdedup := spSet s.vdedup w (far.foldl (fun win e =>
        let here := tagsOf win e.1
        spSet win e.1 ((here ++ e.2.filter fun t => !here.contains t).take 32)) (spGet [] s.vdedup w)) }

/-- What a carried-out list of commits leaves to the transfers (R223, R229, R242, R354). -/
def afterCommit (old : State) (ws : List (Nat × Word)) (s : State) : State :=
  let moved := ws.filter fun w => match nodeAt old w.1 with
    | some n => decide (2 ≤ n.level) && bit w.2 0 && bit w.2 3 && leafDrains (readPte old (lowDie old) w.1) w.2
    | none => false
  let s := moved.foldl (fun s w => joinWindows s (leafFrame (readPte old (lowDie old) w.1) / 2 ^ 29) (leafFrame w.2 / 2 ^ 29)) s
  let ents := old.cores.flatMap fun e => (xqAll e.2).map fun pos => (e.1, pos)
  dropStale old (ents.foldl (moveTag old) s)

/-- The inbound writes that waited translate again, oldest first, and go on or wait again (R229, R242). -/
def retryLands (s : State) : State :=
  s.lands.foldl (fun s x => landWrite s x.src x.tid x.off x.op x.data) { s with lands := [] }

/-- Some 8-byte commits asked for by a request of die `d`, all or none: the request ends with status 0, or 1 where they are refused
(R228 to R231); it is not taken yet, and nothing changes, while a write translated through a leaf that they change has still to
reach its destination (R229). -/
def commitReq (s : State) (d : Nat) (r : MaintReq) (ws : List (Nat × Word)) : Option State :=
  let locs := drainLeaves s ws
  let old := drainWrites s locs
  match micaCommit old ws with
  | none => some (maintDone s d r 1)
  | some t => if writesDue old locs then none else some (wake s (retryLands (afterCommit old ws (maintDone t d r 0))))

/-- MAINT_COMMIT8 (R231). -/
def execMaintCommit8 (die : Fin 8) (r : MaintReq) (s : State) : Out :=
  match maintTake s die 1 [maintBytes 1 r] with
  | none => .next s
  | some t =>
    .next (if commitBad t r 8 then maintDone t die r 2 else (commitReq t die r [(r.dst.toNat, r.src)]).getD s)

/-- MAINT_COMMIT_LINE (R228, R231): the 64 bytes of the line, committed as a whole. -/
def execMaintCommitLine (die : Fin 8) (r : MaintReq) (line : BitVec 512) (s : State) : Out :=
  let bs := leBytes 64 line.toNat
  match maintTake s die 3 [maintBytes 2 r, bs.take 32, bs.drop 32] with
  | none => .next s
  | some t =>
    .next (if commitBad t r 64 ∨ r.src ≠ 0 then maintDone t die r 2
      else (commitReq t die r ((List.range 8).map fun i =>
        (r.dst.toNat + 8 * i, wd (leNat ((bs.drop (8 * i)).take 8))))).getD s)

end Sys2Proof.Machine
end

