-- ==== Sys2Proof/Machine/Crypto.lean ====
section
/-!
DEFINITION. Machine/Crypto.lean: the functions that the spec names by their public standards: SHAKE256 and KMAC256 for
measurements, masks and integrity codes (R431, R438, R446), AES-256 in counter mode for lines (R241, R438). The spec gives
their use and not their text, so the algorithms are taken from those standards (log entry 58).
-/
namespace Sys2Proof.Machine

/-! ## The Keccak permutation -/

/-- Lane `x + 5 y` of a permutation state. -/
def kLane (a : List Word) (x y : Nat) : Word := a.getD (x % 5 + 5 * (y % 5)) 0

/-- A permutation state, lane by lane. -/
def kBuild (f : Nat → Nat → Word) : List Word := (List.range 25).map fun i => f (i % 5) (i / 5)

/-- The rotation of each lane. -/
def kRot : List Nat := [0, 1, 62, 28, 27] ++ [36, 44, 6, 55, 20] ++ [3, 10, 43, 25, 39] ++ [41, 45, 15, 21, 8] ++
  [18, 2, 61, 56, 14]

/-- The round constants. -/
def kConst : List Word :=
  [0x0000000000000001, 0x0000000000008082, 0x800000000000808A, 0x8000000080008000, 0x000000000000808B,
   0x0000000080000001, 0x8000000080008081, 0x8000000000008009] ++
  [0x000000000000008A, 0x0000000000000088, 0x0000000080008009, 0x000000008000000A, 0x000000008000808B,
   0x800000000000008B, 0x8000000000008089, 0x8000000000008003] ++
  [0x8000000000008002, 0x8000000000000080, 0x000000000000800A, 0x800000008000000A, 0x8000000080008081,
   0x8000000000008080, 0x0000000080000001, 0x8000000080008008]

/-- One round. -/
def kRound (a : List Word) (rc : Word) : List Word :=
  let c := (List.range 5).map fun x => (List.range 5).foldl (fun v y => v ^^^ kLane a x y) 0
  let d := (List.range 5).map fun x => c.getD ((x + 4) % 5) 0 ^^^ (c.getD ((x + 1) % 5) 0).rotateLeft 1
  let t := kBuild fun x y => kLane a x y ^^^ d.getD x 0
  let b := kBuild fun x y => (kLane t (x + 3 * y) x).rotateLeft (kRot.getD ((x + 3 * y) % 5 + 5 * x) 0)
  let e := kBuild fun x y => kLane b x y ^^^ (~~~(kLane b (x + 1) y) &&& kLane b (x + 2) y)
  e.set 0 (e.getD 0 0 ^^^ rc)

/-- The permutation of 1,600 bits. -/
def keccakF (a : List Word) : List Word := kConst.foldl kRound a

/-- A block of 136 bytes taken into the state. -/
def kAbsorb (a : List Word) (b : List Byte) : List Word :=
  keccakF ((List.range 25).map fun i =>
    a.getD i 0 ^^^ (if i < 17 then wd (leNat ((b.drop (8 * i)).take 8)) else 0))

/-- Blocks of a padded message taken in, one after another. -/
def kAbsorbAll : Nat → List Word → List Byte → List Word
  | 0, a, _ => a
  | n + 1, a, m => kAbsorbAll n (kAbsorb a (m.take 136)) (m.drop 136)

/-- Blocks of output. -/
def kSqueeze : Nat → List Word → List Byte
  | 0, _ => []
  | n + 1, a => (a.take 17).flatMap (fun w => leBytes 8 w.toNat) ++ kSqueeze n (keccakF a)

/-- The sponge with a rate of 136 bytes: message, domain byte, `n` bytes of output. -/
def sponge (dom : Byte) (m : List Byte) (n : Nat) : List Byte :=
  let k := m.length / 136 + 1
  let pad := m ++ [dom] ++ List.replicate (136 * k - m.length - 1) 0
  let last := pad.getD (136 * k - 1) 0 ||| 0x80
  let a := kAbsorbAll k (List.replicate 25 0) (pad.take (136 * k - 1) ++ [last])
  (kSqueeze (n / 136 + 1) a).take n

/-- SHAKE256 with `n` bytes of output. -/
def shake256 (m : List Byte) (n : Nat) : List Byte := sponge 0x1F m n

/-- SHAKE256 with 512-bit output (R431). -/
def shake512 (m : List Byte) : BitVec 512 := BitVec.ofNat 512 (leNat (shake256 m 64))

/-- The bytes of a number, most significant first, at least one. -/
def beMin (n : Nat) : List Byte := (leBytes (max 1 ((n.log2 + 8) / 8)) n).reverse

/-- A length before a string, and after a message, as KMAC writes them. -/
def leftEnc (n : Nat) : List Byte := leBytes 1 (beMin n).length ++ beMin n
def rightEnc (n : Nat) : List Byte := beMin n ++ leBytes 1 (beMin n).length

/-- A string with its length in bits. -/
def encStr (b : List Byte) : List Byte := leftEnc (8 * b.length) ++ b

/-- Bytes filled up to whole blocks. -/
def bytePad (b : List Byte) : List Byte :=
  let x := leftEnc 136 ++ b
  x ++ List.replicate ((136 - x.length % 136) % 136) 0

/-- KMAC256 of a message under a key and a customisation string, `n` bytes. -/
def kmac256 (key m : List Byte) (n : Nat) (custom : List Byte) : List Byte :=
  sponge 0x04 (bytePad (encStr [0x4B, 0x4D, 0x41, 0x43] ++ encStr custom) ++ bytePad (encStr key) ++ m ++ rightEnc (8 * n)) n

/-! ## AES-256 -/

/-- Doubling in the field of AES. -/
def xtime (x : Byte) : Byte := (x <<< 1) ^^^ (if x.getLsbD 7 then 0x1B else 0)

/-- Products in the field of AES, over the bits of the second factor. -/
def gfMul : Nat → Byte → Byte → Byte
  | 0, _, _ => 0
  | n + 1, x, y => (if y.getLsbD 0 then x else 0) ^^^ gfMul n (xtime x) (y >>> 1)

/-- The inverse in the field, 0 for 0: the power 254. -/
def gfInv (x : Byte) : Byte :=
  let m := gfMul 8
  let x2 := m x x
  let x4 := m x2 x2
  let x8 := m x4 x4
  let x16 := m x8 x8
  let x32 := m x16 x16
  let x64 := m x32 x32
  m (m (m (m (m (m x2 x4) x8) x16) x32) x64) (m x64 x64)

/-- The substitution of one byte. -/
def subByte (x : Byte) : Byte :=
  let y := gfInv x
  y ^^^ y.rotateLeft 1 ^^^ y.rotateLeft 2 ^^^ y.rotateLeft 3 ^^^ y.rotateLeft 4 ^^^ 0x63

/-- Bytes added in the field. -/
def xorBytes (a b : List Byte) : List Byte := List.zipWith (fun x y => x ^^^ y) a b

/-- Word `i` of the key schedule, from the words before it, latest first. -/
def keyWord (i : Nat) (rc : Byte) (prev : List (List Byte)) : List Byte :=
  let t := prev.getD 0 []
  let u :=
    if i % 8 = 0 then xorBytes ((t.drop 1 ++ t.take 1).map subByte) [rc, 0, 0, 0]
    else if i % 8 = 4 then t.map subByte else t
  xorBytes (prev.getD 7 []) u

/-- The key schedule, `n` words from number `i` on, latest first. -/
def keySched : Nat → Nat → Byte → List (List Byte) → List (List Byte)
  | 0, _, _, l => l
  | n + 1, i, rc, l => keySched n (i + 1) (if i % 8 = 0 then xtime rc else rc) (keyWord i rc l :: l)

/-- The 15 round keys of a 32-byte key. -/
def roundKeys (key : List Byte) : List (List Byte) :=
  let first := ((List.range 8).map fun i => (key.drop (4 * i)).take 4).reverse
  let all := (keySched 52 8 1 first).reverse
  (List.range 15).map fun r => ((all.drop (4 * r)).take 4).flatten

/-- Rows shifted. -/
def shiftRows (b : List Byte) : List Byte := (List.range 16).map fun i => b.getD ((i + 4 * (i % 4)) % 16) 0

/-- Columns mixed. -/
def mixCols (b : List Byte) : List Byte :=
  (List.range 16).map fun i =>
    let c := fun (k : Nat) => b.getD (i / 4 * 4 + (i + k) % 4) 0
    xtime (c 0) ^^^ xtime (c 1) ^^^ c 1 ^^^ c 2 ^^^ c 3

/-- One block under the round keys. -/
def aesBlock (ks : List (List Byte)) (b : List Byte) : List Byte :=
  let mid := (List.range 13).foldl (fun x r => xorBytes (mixCols (shiftRows (x.map subByte))) (ks.getD (r + 1) []))
    (xorBytes b (ks.getD 0 []))
  xorBytes (shiftRows (mid.map subByte)) (ks.getD 14 [])

/-! ## A line as it stands in a vault (R241, R438) -/

/-- The counter block of 16-byte block `b` of a line, as a number (R241). -/
def ctrBlock (tid : BitVec 48) (ver : BitVec 32) (line b : Nat) : Nat :=
  tid.toNat * 2 ^ 80 + ver.toNat * 2 ^ 48 + line % 2 ^ 42 * 64 + b % 4 * 16

/-- The ciphertext of a line under a key. -/
def lineCipher (key : BitVec 256) (tid : BitVec 48) (ver : BitVec 32) (line : Nat) (bs : List Byte) : List Byte :=
  let ks := roundKeys (leBytes 32 key.toNat)
  (List.range 4).flatMap fun b => xorBytes ((bs.drop (16 * b)).take 16) (aesBlock ks (leBytes 16 (ctrBlock tid ver line b)))

/-- Kint of a key: SHAKE256 of the key and "J9-LINE-INT" (R438). -/
def kint (key : BitVec 256) : List Byte :=
  shake256 (leBytes 32 key.toNat ++ [0x4A, 0x39, 0x2D, 0x4C, 0x49, 0x4E, 0x45, 0x2D, 0x49, 0x4E, 0x54]) 32

/-- The integrity code of a line: KMAC256 over its counter block and its ciphertext, customised "J9" (R438). -/
def lineIc (key : BitVec 256) (tid : BitVec 48) (ver : BitVec 32) (line : Nat) (ct : List Byte) : List Byte :=
  kmac256 (kint key) (leBytes 16 (ctrBlock tid ver line 0) ++ ct) 8 [0x4A, 0x39]

/-- A line as a vault holds it: ciphertext, integrity code, and the error-correcting code over both, which the spec does not
lay out (R241, R438). -/
def storedForm (key : BitVec 256) (tid : BitVec 48) (ver : BitVec 32) (line : Nat) (bs : List Byte) : List Byte :=
  let ct := lineCipher key tid ver line bs
  let ic := lineIc key tid ver line ct
  ct ++ leBytes 8 (Config.eccCode (leNat (ct ++ ic))).toNat ++ ic

end Sys2Proof.Machine
end

