-- ==== Sys2Proof/Machine/Float.lean ====
section
/-!
DEFINITION. Machine/Float.lean: number formats, exact values, the one rounding of R45 with its policies (R35 to R56), and the
special functions (R57 to R60). Every result is computed from an exact value, or from bounds that fix its rounding.
-/
namespace Sys2Proof

/-! ## Formats -/

/-- Width of an integer type (R35). -/
def IntTy.width : IntTy → Nat
  | .i8 | .n8 => 8
  | .i16 | .n16 => 16
  | .i32 | .n32 => 32
  | .i64 | .n64 => 64

/-- An I type (R35). -/
def IntTy.signed : IntTy → Bool
  | .i8 | .i16 | .i32 | .i64 => true
  | .n8 | .n16 | .n32 | .n64 => false

/-- Width of a float type (R40). -/
def FltTy.width : FltTy → Nat
  | .f16 => 16 | .f32 => 32 | .f64 => 64

/-- Fraction bits (R40). -/
def FltTy.frac : FltTy → Nat
  | .f16 => 10 | .f32 => 23 | .f64 => 52

/-- Exponent bias (R40). -/
def FltTy.bias : FltTy → Nat
  | .f16 => 15 | .f32 => 127 | .f64 => 1023

/-- The exponent of the last place of the subnormals. -/
def FltTy.emin (t : FltTy) : Int := 1 - (t.bias : Int) - t.frac

/-- The exponent field of all ones. -/
def FltTy.top (t : FltTy) : Nat := 2 * t.bias + 1

/-- The pattern of +infinity (R42). -/
def FltTy.inf (t : FltTy) : Nat := t.top * 2 ^ t.frac

/-- The canonical NaN (R43). -/
def FltTy.nan (t : FltTy) : Nat := t.top * 2 ^ t.frac + 2 ^ (t.frac - 1)

/-- The sign bit. -/
def FltTy.sign (t : FltTy) (neg : Bool) : Nat := if neg then 2 ^ (t.width - 1) else 0

end Sys2Proof

namespace Sys2Proof.Machine

/-- The value of a float pattern (R40 to R44): a NaN, an infinity, or a signed magnitude m x 2^e. -/
inductive FVal where
  | nan
  | inf (neg : Bool)
  | num (neg : Bool) (m : Nat) (e : Int)
  deriving DecidableEq, Repr

/-- fval: the value of a pattern (R122). -/
def fval (t : FltTy) (x : Nat) : FVal :=
  let neg := decide (x / 2 ^ (t.width - 1) % 2 = 1)
  let ex := x / 2 ^ t.frac % (t.top + 1)
  let fr := x % 2 ^ t.frac
  if ex = t.top then (if fr = 0 then .inf neg else .nan)
  else if ex = 0 then .num neg fr t.emin
  else .num neg (fr + 2 ^ t.frac) (t.emin + ((ex : Int) - 1))

/-- An integer as a value. -/
def intVal (v : Int) : FVal := .num (decide (v < 0)) v.natAbs 0

/-- The value is a NaN, a zero, an infinity. -/
def FVal.isNan : FVal → Bool
  | .nan => true
  | _ => false
def FVal.isZero : FVal → Bool
  | .num _ m _ => decide (m = 0)
  | _ => false
def FVal.isInf : FVal → Bool
  | .inf _ => true
  | _ => false

/-- The sign of a value. -/
def FVal.neg : FVal → Bool
  | .nan => false
  | .inf n => n
  | .num n _ _ => n

/-- The value with its sign inverted. -/
def FVal.negate : FVal → FVal
  | .nan => .nan
  | .inf n => .inf (!n)
  | .num n m e => .num (!n) m e

/-! ## Rounding (R45 to R51) -/

/-- The number of bits of a magnitude. -/
def bitLen (m : Nat) : Nat := if m = 0 then 0 else Nat.log2 m + 1

/-- mix (R48). -/
def mix (x : Word) : Word :=
  let x := x ^^^ (x >>> 32)
  let x := x * 0xA3B195C4E72D1F0B
  let x := x ^^^ (x >>> 29)
  let x := x * 0x8E5C2B7FD14936A5
  x ^^^ (x >>> 32)

/-- rand16(idx) (R48). -/
def rand16 (seed idx : Word) : Nat := fld (mix (seed + idx * 0x9E3779B97F4A7C15)) 63 48

/-- The controls of one rounding (R124): mode, policy, and the random word of its element. -/
structure Ctl where
  mode : Round
  pol : Policy
  rand : Nat
  deriving DecidableEq, Repr

/-- Round the magnitude m x 2^e, to which less than one unit of its last place is added where `more` is set, to a multiple of
2^q: the multiple, and whether nothing was discarded (R45, R49). -/
def roundAt (c : Ctl) (neg : Bool) (m : Nat) (e q : Int) (more : Bool) : Nat × Bool :=
  if q ≤ e then (m * 2 ^ (e - q).toNat, !more)
  else
    let sh := (q - e).toNat
    let lo := m >>> sh
    let rem := m % 2 ^ sh
    if rem = 0 ∧ ¬ more then (lo, true)
    else
      let away :=
        match c.mode with
        | .rne => decide (2 ^ sh < 2 * rem) || (decide (2 * rem = 2 ^ sh) && (more || decide (lo % 2 = 1)))
        | .rz => false
        | .ru => !neg
        | .rd => neg
        | .rs => decide (65536 ≤ (rem * 65536) >>> sh + c.rand)
      (lo + b2n away, false)

/-- A rounded element: its pattern, the FSTAT bits it raises and the log causes it raises under TRAP (R125, R126). -/
structure FRes where
  bits : Nat
  nv : Bool
  dz : Bool
  of_ : Bool
  uf : Bool
  nx : Bool
  causes : List Byte
  deriving DecidableEq, Repr

/-- A result that raises nothing. -/
def FRes.exact (b : Nat) : FRes := { bits := b, nv := false, dz := false, of_ := false, uf := false, nx := false, causes := [] }

/-- An invalid operation: the pattern, NV, cause INVALID (R126). -/
def FRes.invalid (b : Nat) : FRes := { FRes.exact b with nv := true, causes := [0x21] }

/-- A float division of a finite non-zero value by zero raises DZ and cause FLTDZ besides (R125, R126). -/
def FRes.divZero (r : FRes) : FRes := { r with dz := true, causes := 0x22 :: r.causes }

/-- FSTAT bits 4 to 0 of a result (R33). -/
def FRes.fstat (r : FRes) : Nat := 16 * b2n r.nv + 8 * b2n r.dz + 4 * b2n r.of_ + 2 * b2n r.uf + b2n r.nx

/-- A float result that overflows, under each policy (R52). -/
def overflowFlt (t : FltTy) (c : Ctl) (neg : Bool) : FRes :=
  let big := t.sign neg + t.inf - 1
  let inf := t.sign neg + t.inf
  let ieee :=
    match c.mode with
    | .rne | .rs => inf
    | .rz => big
    | .ru => if neg then big else inf
    | .rd => if neg then inf else big
  { FRes.exact (match c.pol with
      | .sat | .trap => big
      | .inf => ieee
      | .nan => t.nan) with
    of_ := true, nx := true, causes := [0x23] }

/-- round() to a float type, with the policy (R45, R47, R52, R54). -/
def roundFlt (t : FltTy) (c : Ctl) (neg : Bool) (m : Nat) (e : Int) (more : Bool) : FRes :=
  if m = 0 ∧ ¬ more then FRes.exact (t.sign neg)
  else
    let free := (bitLen m : Int) + e - 1 - t.frac
    let q := max free t.emin
    let r := roundAt c neg m e q more
    let u := roundAt c neg m e free more
    let tiny := decide ((bitLen u.1 : Int) + free ≤ 1 - (t.bias : Int))
    let bits := (q - t.emin).toNat * 2 ^ t.frac + r.1
    if t.inf ≤ bits then overflowFlt t c neg
    else { FRes.exact (t.sign neg + bits) with uf := tiny && !r.2, nx := !r.2 }

/-- The indefinite value of a `w`-bit integer (R52). -/
def indefinite (w : Nat) : Nat := 2 ^ (w - 1)

/-- The least and greatest value of an integer type (R35). -/
def intMin (w : Nat) (signed : Bool) : Int := if signed then -(2 ^ (w - 1) : Int) else 0
def intMax (w : Nat) (signed : Bool) : Int := if signed then 2 ^ (w - 1) - 1 else 2 ^ w - 1

/-- sat(x, T) (R39). -/
def satInt (w : Nat) (signed : Bool) (x : Int) : Int := max (intMin w signed) (min x (intMax w signed))

/-- An integer result that overflows toward a sign, under each policy (R52). -/
def overflowInt (w : Nat) (signed : Bool) (c : Ctl) (neg : Bool) : FRes :=
  { FRes.exact (match c.pol with
      | .nan => indefinite w
      | _ => wrapNat w (if neg then intMin w signed else intMax w signed)) with
    nv := true, causes := [0x23] }

/-- round() to an integer type, with the policy (R45, R52). -/
def roundInt (w : Nat) (signed : Bool) (c : Ctl) (neg : Bool) (m : Nat) (e : Int) (more : Bool) : FRes :=
  let r := roundAt c neg m e 0 more
  let v : Int := if neg then -(r.1 : Int) else r.1
  if v < intMin w signed ∨ intMax w signed < v then overflowInt w signed c neg
  else { FRes.exact (wrapNat w v) with nx := !r.2 }

/-- rnd() of an exact value into a type, with R53 for infinities and NaNs. -/
def rndFlt (t : FltTy) (c : Ctl) : FVal → FRes
  | .nan => FRes.exact t.nan
  | .inf n => FRes.exact (t.sign n + t.inf)
  | .num n m e => roundFlt t c n m e false

/-- The same into an integer type (R53, R135). -/
def rndInt (w : Nat) (signed : Bool) (c : Ctl) : FVal → FRes
  | .nan => FRes.invalid (indefinite w)
  | .inf n => overflowInt w signed c n
  | .num n m e => roundInt w signed c n m e false

/-! ## Sums and products -/

/-- A finite value as an integer multiple of 2^q, for q no more than its exponent. -/
def scaledInt (n : Bool) (m : Nat) (e q : Int) : Int :=
  let v : Int := m * 2 ^ (e - q).toNat
  if n then -v else v

/-- The exact sum of two finite values, with the sign of a zero sum (R44). -/
def sumNum (mode : Round) (na : Bool) (ma : Nat) (ea : Int) (nb : Bool) (mb : Nat) (eb : Int) : FVal :=
  let q := min ea eb
  let v := scaledInt na ma ea q + scaledInt nb mb eb q
  if v = 0 then
    .num (if ma = 0 ∧ mb = 0 ∧ na = nb then na else decide (mode = .rd)) 0 q
  else .num (decide (v < 0)) v.natAbs q

/-- An operation's exact value: invalid, or a value (R128, R130). -/
abbrev Exact := Option FVal

/-- x + y (R128): none where it is invalid. -/
def addVal (mode : Round) : FVal → FVal → Exact
  | .nan, _ => some .nan
  | _, .nan => some .nan
  | .inf a, .inf b => if a = b then some (.inf a) else none
  | .inf a, _ => some (.inf a)
  | _, .inf b => some (.inf b)
  | .num na ma ea, .num nb mb eb => some (sumNum mode na ma ea nb mb eb)

/-- x x y (R128): none where a zero meets an infinity. -/
def mulVal : FVal → FVal → Exact
  | .nan, _ => some .nan
  | _, .nan => some .nan
  | .inf a, .inf b => some (.inf (a != b))
  | .inf a, .num n m _ => if m = 0 then none else some (.inf (a != n))
  | .num n m _, .inf b => if m = 0 then none else some (.inf (b != n))
  | .num na ma ea, .num nb mb eb => some (.num (na != nb) (ma * mb) (ea + eb))

/-- A fused sum x x y + c (R130): invalid also when c is a NaN and a zero meets an infinity. -/
def fmaVal (mode : Round) (x y c : FVal) : Exact :=
  match mulVal x y with
  | none => none
  | some p => addVal mode p c

/-- Round an exact value to a float type; none is an invalid operation. -/
def rndExact (t : FltTy) (c : Ctl) : Exact → FRes
  | none => FRes.invalid t.nan
  | some v => rndFlt t c v

/-- The order of two values that are not NaN: the sign of x - y, with -0 = +0. -/
def cmpVal : FVal → FVal → Ordering
  | .inf a, .inf b => if a = b then .eq else if a then .lt else .gt
  | .inf a, _ => if a then .lt else .gt
  | _, .inf b => if b then .gt else .lt
  | .num na ma ea, .num nb mb eb =>
    let q := min ea eb
    compare (scaledInt na ma ea q) (scaledInt nb mb eb q)
  | _, _ => .eq

/-- The order of R129: -0 below +0. -/
def ltMin (x y : FVal) : Bool :=
  match cmpVal x y with
  | .lt => true
  | .gt => false
  | .eq => x.neg && !y.neg

/-- FMIN and FMAX on patterns (R129). -/
def fminBits (t : FltTy) (a b : Nat) : Nat :=
  let x := fval t a
  let y := fval t b
  if x.isNan || y.isNan then t.nan else if ltMin x y then a else b
def fmaxBits (t : FltTy) (a b : Nat) : Nat :=
  let x := fval t a
  let y := fval t b
  if x.isNan || y.isNan then t.nan else if ltMin x y then b else a

/-! ## Quotients and roots -/

/-- The quotient of two non-zero magnitudes, to more bits than any rounding looks at: m, its exponent, and whether more
follows. -/
def quot (ma : Nat) (ea : Int) (mb : Nat) (eb : Int) : Nat × Int × Bool :=
  let k := 96 + bitLen mb
  let n := ma * 2 ^ k
  (n / mb, ea - eb - k, decide (n % mb ≠ 0))

/-- The largest number whose square is at most `n`, found bit by bit from bit `i` down. -/
def isqrtFrom (n : Nat) : Nat → Nat → Nat
  | 0, r => if (r + 1) * (r + 1) ≤ n then r + 1 else r
  | i + 1, r => isqrtFrom n i (if (r + 2 ^ (i + 1)) * (r + 2 ^ (i + 1)) ≤ n then r + 2 ^ (i + 1) else r)

/-- The integer square root. -/
def isqrt (n : Nat) : Nat := isqrtFrom n (bitLen n / 2 + 1) 0

/-- The square root of a non-zero magnitude. -/
def rootOf (m : Nat) (e : Int) : Nat × Int × Bool :=
  let m := if e % 2 = 0 then m else 2 * m
  let e := if e % 2 = 0 then e else e - 1
  let n := m * 2 ^ 192
  let r := isqrt n
  (r, e / 2 - 96, decide (r * r ≠ n))

/-- The reciprocal square root of a non-zero magnitude. -/
def recipRootOf (m : Nat) (e : Int) : Nat × Int × Bool :=
  let m := if e % 2 = 0 then m else 2 * m
  let e := if e % 2 = 0 then e else e - 1
  let k := 96 + bitLen m
  let r := isqrt (2 ^ (2 * k) / m)
  (r, -(e / 2) - k, decide (r * r * m ≠ 2 ^ (2 * k)))

/-! ## Transcendental functions by bounds (R57, R58)

A function's magnitude is computed in fixed point with `p` fraction bits and an error below 2^13 units. The sixty leading
bits are taken once the bounds above and below agree on them; otherwise the precision doubles. -/

/-- The sixty leading bits of a fixed-point magnitude with `p` fraction bits, where the error bounds agree on them. -/
def leading (p v : Nat) : Option (Nat × Int) :=
  let g := bitLen v - 60
  let lo := (v - 8192) >>> g
  if 8192 ≤ v ∧ lo = (v + 8192) >>> g then some (lo, (g : Int) - p) else none

/-- Try a function at rising precision. -/
def enclose (f : Nat → Nat) : Nat → Nat → Nat × Int
  | 0, p => (f p, -(p : Int))
  | fuel + 1, p =>
    match leading p (f p) with
    | some r => r
    | none => enclose f fuel (2 * p)

/-- ln 2 with `p` fraction bits: the sum of 1/(k 2^k). -/
def lnTwo (p : Nat) : Nat := (List.range (p + 8)).foldl (fun acc k => acc + 2 ^ p / ((k + 1) * 2 ^ (k + 1))) 0

/-- The arc tangent of 1/n, with `p` fraction bits. -/
def atanInv (p n : Nat) : Nat :=
  let r := (List.range (p / 2 + 4)).foldl (fun (acc : Int × Nat) k =>
    (if k % 2 = 0 then acc.1 + (acc.2 / (2 * k + 1) : Nat) else acc.1 - (acc.2 / (2 * k + 1) : Nat), acc.2 / (n * n)))
    (0, 2 ^ p / n)
  r.1.toNat

/-- pi with `p` fraction bits (Machin). -/
def piFix (p : Nat) : Nat := 16 * atanInv (p + 16) 5 / 2 ^ 16 - 4 * atanInv (p + 16) 239 / 2 ^ 16

/-- e^y for a fixed-point y below 1. -/
def expFix (p y : Nat) : Nat :=
  ((List.range (p / 2 + 20)).foldl (fun (acc : Nat × Nat) k =>
    (acc.1 + acc.2, acc.2 * y / 2 ^ p / (k + 1))) (0, 2 ^ p)).1

/-- sin y for a fixed-point y below 2. -/
def sinFix (p y : Nat) : Nat :=
  ((List.range (p / 4 + 20)).foldl (fun (acc : Int × Nat) k =>
    (if k % 2 = 0 then acc.1 + acc.2 else acc.1 - acc.2, acc.2 * y / 2 ^ p * y / 2 ^ p / ((2 * k + 2) * (2 * k + 3))))
    (0, y)).1.toNat

/-- cos y for a fixed-point y below 2. -/
def cosFix (p y : Nat) : Nat :=
  ((List.range (p / 4 + 20)).foldl (fun (acc : Int × Nat) k =>
    (if k % 2 = 0 then acc.1 + acc.2 else acc.1 - acc.2, acc.2 * y / 2 ^ p * y / 2 ^ p / ((2 * k + 1) * (2 * k + 2))))
    (0, 2 ^ p)).1.toNat

/-- 2 atanh z for a fixed-point z below 1/4. -/
def atanhTwice (p z : Nat) : Nat :=
  2 * ((List.range (p / 2 + 4)).foldl (fun (acc : Nat × Nat) k =>
    (acc.1 + acc.2 / (2 * k + 1), acc.2 * z / 2 ^ p * z / 2 ^ p)) (0, z)).1

/-- 2^x of a value that is no integer, as bits, exponent and `more` (R57). -/
def exp2Of (n : Bool) (m : Nat) (e : Int) : Nat × Int × Bool :=
  if 12 < (bitLen m : Int) + e then (if n then (1, -8192, true) else (1, 8192, true))
  else
    let k := (-e).toNat
    let fr0 := m % 2 ^ k
    let whole : Int := if n then -((m >>> k : Nat) : Int) - 1 else (m >>> k : Nat)
    let fr := if n then 2 ^ k - fr0 else fr0
    let r := enclose (fun p => expFix p (fr * lnTwo p / 2 ^ k)) 4 (192 + k)
    (r.1, r.2 + whole, true)

/-- log2 of a magnitude that is no power of two: sign, bits, exponent (R57). -/
def log2Of (m : Nat) (e : Int) : Bool × Nat × Int :=
  let l := bitLen m
  -- m / 2^l lies in (1/2, 1); the mantissa y is taken in (2/3, 4/3)
  let big := decide (3 * m ≤ 2 * 2 ^ l)
  let ex : Int := (l : Int) + e - b2n big
  let num := if big then 2 * m else m
  let den := 2 ^ l
  let below := decide (num < den)
  let d := if below then den - num else num - den
  let frac := fun (p : Nat) => atanhTwice p (d * 2 ^ p / (num + den)) * 2 ^ p / lnTwo p
  let neg := if ex = 0 then below else decide (ex < 0)
  let f := fun (p : Nat) =>
    if ex = 0 then frac p
    else if neg = below then ex.natAbs * 2 ^ p + frac p else ex.natAbs * 2 ^ p - frac p
  let r := enclose f 4 224
  (neg, r.1, r.2)

/-- sin or cos of a quarter turn times f / 2^k, for 0 < f < 2^k (R57, R60). -/
def quarter (sine : Bool) (f k : Nat) : Nat × Int :=
  enclose (fun p =>
    let y := f * piFix p / 2 ^ (k + 1)
    if sine then sinFix p y else cosFix p y) 4 (192 + 2 * k)

/-- sin(pi x) or cos(pi x) of a finite value (R59, R60): sign, bits, exponent, `more`. -/
def circle (sine n : Bool) (m : Nat) (e : Int) : Bool × Nat × Int × Bool :=
  let k := (-e).toNat
  let x := if 0 ≤ e then m * 2 ^ e.toNat else m
  -- |x| modulo 2, in units of 2^-k; the quarter turns and what is left of the next
  let t := x % 2 ^ (k + 1)
  let q := 2 * t / 2 ^ k
  let f := 2 * t % 2 ^ k
  if f = 0 then
    match sine, q with
    | true, 0 => (n, 0, 0, false)
    | true, 1 => (n, 1, 0, false)
    | true, 2 => (n, 0, 0, false)
    | true, _ => (!n, 1, 0, false)
    | false, 0 => (false, 1, 0, false)
    | false, 1 => (false, 0, 0, false)
    | false, 2 => (true, 1, 0, false)
    | false, _ => (false, 0, 0, false)
  else
    let r := quarter (if q % 2 = 0 then sine else !sine) f k
    let neg := if sine then (decide (2 ≤ q)) != n else decide (q = 1) || decide (q = 2)
    (neg, r.1, r.2, true)

/-! ## The special functions (R57 to R59, R136) -/

/-- The members of SFU. -/
inductive SfuOp where
  | rcp | rsq | sqrt | fdiv | exp2 | log2 | sinpi | cospi
  deriving DecidableEq, Repr

/-- Round bits found for an exact value. -/
def roundOf (t : FltTy) (c : Ctl) (neg : Bool) (r : Nat × Int × Bool) : FRes := roundFlt t c neg r.1 r.2.1 r.2.2

/-- An exact power of two: its exponent. -/
def powerOf (m : Nat) (e : Int) : Option Int := if m = 2 ^ (bitLen m - 1) then some ((bitLen m : Int) - 1 + e) else none

/-- FDIV of two values (R59). -/
def divFlt (t : FltTy) (c : Ctl) : FVal → FVal → FRes
  | .nan, _ => FRes.exact t.nan
  | _, .nan => FRes.exact t.nan
  | .inf _, .inf _ => FRes.invalid t.nan
  | .inf a, y => FRes.exact (t.sign (a != y.neg) + t.inf)
  | x, .inf b => FRes.exact (t.sign (x.neg != b))
  | .num na ma ea, .num nb mb eb =>
    if mb = 0 then
      if ma = 0 then FRes.invalid t.nan else (FRes.exact (t.sign (na != nb) + t.inf)).divZero
    else if ma = 0 then FRes.exact (t.sign (na != nb))
    else roundOf t c (na != nb) (quot ma ea mb eb)

/-- A unary special function (R59). -/
def sfuOne (op : SfuOp) (t : FltTy) (c : Ctl) : FVal → FRes
  | .nan => FRes.exact t.nan
  | .inf n =>
    match op with
    | .rcp | .fdiv => FRes.exact (t.sign n)
    | .rsq => if n then FRes.invalid t.nan else FRes.exact 0
    | .sqrt | .log2 => if n then FRes.invalid t.nan else FRes.exact t.inf
    | .exp2 => FRes.exact (if n then 0 else t.inf)
    | .sinpi | .cospi => FRes.invalid t.nan
  | .num n m e =>
    match op with
    | .rcp | .fdiv =>
      if m = 0 then (FRes.exact (t.sign n + t.inf)).divZero else roundOf t c n (quot 1 0 m e)
    | .rsq =>
      if m = 0 then (FRes.exact (t.sign n + t.inf)).divZero
      else if n then FRes.invalid t.nan else roundOf t c false (recipRootOf m e)
    | .sqrt =>
      if m = 0 then FRes.exact (t.sign n)
      else if n then FRes.invalid t.nan else roundOf t c false (rootOf m e)
    | .exp2 =>
      let k := (-e).toNat
      if m = 0 ∨ m % 2 ^ k = 0 then
        let v : Int := if m = 0 then 0 else if 0 ≤ e then m * 2 ^ (min e.toNat 20) else (m >>> k : Nat)
        roundFlt t c false 1 (if n then -(min v 8192) else min v 8192) false
      else roundOf t c false (exp2Of n m e)
    | .log2 =>
      if m = 0 then (FRes.exact (t.sign true + t.inf)).divZero
      else if n then FRes.invalid t.nan
      else
        match powerOf m e with
        | some v => roundFlt t c (decide (v < 0)) v.natAbs 0 false
        | none => let r := log2Of m e; roundFlt t c r.1 r.2.1 r.2.2 true
    | .sinpi => let r := circle true n m e; roundFlt t c r.1 r.2.1 r.2.2.1 r.2.2.2
    | .cospi => let r := circle false n m e; roundFlt t c r.1 r.2.1 r.2.2.1 r.2.2.2

/-! ## Scale and narrow (R56), drains (R294, R295) -/

/-- A value divided by a scale, rounded to a type given by its rounding functions: `nan`, `over` and `inf` deliver the
special results, `fin` the quotient (R56, R135). -/
def scaleBy (x s : FVal) (nanR : FRes) (invR : FRes) (ovr inf : Bool → FRes) (zero : Bool → FRes)
    (fin : Bool → Nat × Int × Bool → FRes) : FRes :=
  match x, s with
  | .nan, _ => nanR
  | _, .nan => nanR
  | .inf _, .inf _ => invR
  | .inf a, y => inf (a != y.neg)
  | y, .inf b => zero (y.neg != b)
  | .num na ma ea, .num nb mb eb =>
    if mb = 0 then
      if ma = 0 then invR else (ovr (na != nb)).divZero
    else if ma = 0 then zero (na != nb)
    else fin (na != nb) (quot ma ea mb eb)

/-- CVS to a float type. -/
def cvsFlt (t : FltTy) (c : Ctl) (x s : FVal) : FRes :=
  scaleBy x s (FRes.exact t.nan) (FRes.invalid t.nan) (overflowFlt t c) (fun n => FRes.exact (t.sign n + t.inf))
    (fun n => FRes.exact (t.sign n)) (roundOf t c)

/-- CVS to an integer type: a NaN, and a quotient that counts as a NaN, give the indefinite value with NV and cause
INVALID. -/
def cvsInt (w : Nat) (signed : Bool) (c : Ctl) (x s : FVal) : FRes :=
  scaleBy x s (FRes.invalid (indefinite w)) (FRes.invalid (indefinite w)) (overflowInt w signed c) (overflowInt w signed c)
    (fun _ => FRes.exact 0) (fun n r => roundInt w signed c n r.1 r.2.1 r.2.2)

/-- The exact product c x rs x cs of a drain: none where an infinity meets a zero; the three factors are looked at
together (R295). -/
def drainVal (c : Int) (rs cs : FVal) : Exact :=
  let k := intVal c
  if rs.isNan ∨ cs.isNan then some .nan
  else if rs.isInf ∨ cs.isInf then
    if k.isZero ∨ rs.isZero ∨ cs.isZero then none else some (.inf ((k.neg != rs.neg) != cs.neg))
  else
    match mulVal k rs with
    | some p => mulVal p cs
    | none => none

/-- One drained element of type F32, I8 or I16 (R294, R295). -/
def drainElem (dt : DrainTy) (mode : Round) (pol : Policy) (c : Int) (rs cs : Nat) (seed idx : Nat) : FRes :=
  let ctl : Ctl := { mode := mode, pol := pol, rand := rand16 (wd seed) (wd idx) }
  let v := drainVal c (fval .f32 rs) (fval .f32 cs)
  match dt with
  | .raw => FRes.exact (wrapNat 64 c)
  | .f32 => rndExact .f32 ctl v
  | .i8 =>
    match v with
    | none => FRes.invalid (indefinite 8)
    | some x => rndInt 8 true ctl x
  | .i16 =>
    match v with
    | none => FRes.invalid (indefinite 16)
    | some x => rndInt 16 true ctl x

end Sys2Proof.Machine
end

