-- ==== Sys2Proof/Machine/Operands.lean ====
section
/-!
DEFINITION. Machine/Operands.lean: what a word reads and writes: every operand form of R14 and R70, the hint operands of
R75 and R77, predicates, and the pending registers of R25 to R27.
-/
namespace Sys2Proof.Machine

/-- Where a word issues and what its hint run gives it: core, group, port, clause, its place in the clause, its offset, the
lanes that issue it, and the kind-0 and kind-2 payloads of its run (R74 to R77, R141). -/
structure WEnv where
  core : Nat
  grp : Nat
  second : Bool
  cl : Clause
  idx : Nat
  pc : Offset
  act : LaneMask
  himm : Option (BitVec 24)
  mode : Option Round
  pol : Option Policy
  ix : Option Src
  deriving DecidableEq, Repr

/-- What a word does: the state after it for the lanes that complete it, and the traps of the lanes that fault. -/
abbrev WRes := State × List Trap

/-- Read a register of a lane (R14). -/
def readReg (l : Lane) : Reg → Word
  | .w n => spGet 0 l.w n
  | .t n => if n = 0 then l.t0 else l.t1

/-- Write a register of a lane: all 64 bits (R13). -/
def writeReg (l : Lane) (r : Reg) (v : Word) : Lane :=
  match r with
  | .w n => { l with w := spPut 0 l.w n v }
  | .t n => if n = 0 then { l with t0 := v } else { l with t1 := v }

/-- The lanes that issue, in ascending number. -/
def WEnv.lanes (e : WEnv) : List Nat := bitList e.act

/-- The elected lane: the lowest-numbered lane that issues (R101, R311). -/
def WEnv.low (e : WEnv) : Nat := lowLane e.act

/-- The lane's state as a word finds it. -/
def WEnv.lane (e : WEnv) (s : State) (l : Nat) : Lane := (getGroup s e.core e.grp).lane l

/-- k registers as this port's word reads them: the second port reads them as they stood before the primary port's word of
the same cycle (R148). -/
def WEnv.kVal (e : WEnv) (s : State) (n : Nat) : Word :=
  match e.second, s.scope with
  | true, some sc => spGet 0 sc.k n
  | _, _ => spGet 0 (getGroup s e.core e.grp).k n

/-- The segment register as this port's word reads it (R148); SEG3 is the clause's own (R119). -/
def WEnv.segVal (e : WEnv) (s : State) (n : Nat) : Word :=
  match e.second, s.scope with
  | true, some sc => spGet 0 sc.seg n
  | _, _ => spGet 0 (getGroup s e.core e.grp).seg n

/-- The group-scope and core-scope items as they stand (R148). -/
def scopeOf (s : State) (c g : Nat) : Scope :=
  let co := getCore s c
  let gr := co.group g
  { k := gr.k, seg := gr.seg, trapvec := gr.trapvec, alogq := co.alogq, xq := co.xq, noteq := co.noteq }

/-- The group-scope and core-scope items as this port's word reads them (R148). -/
def WEnv.scoped (e : WEnv) (s : State) : Scope :=
  match e.second, s.scope with
  | true, some sc => sc
  | _, _ => scopeOf s e.core e.grp

/-- Append a record of this port's word to the arithmetic log, whose control word it reads under R148. -/
def WEnv.post (e : WEnv) (s : State) (r : ArithRec) : State := alogPostTo s e.core (e.scoped s).alogq r

/-- The value of a source operand in a lane (R14): h is the sign-extended payload of the run's kind-0 hint (R75). -/
def WEnv.src (e : WEnv) (s : State) (l : Nat) : Src → Word
  | .reg r => readReg (e.lane s l) r
  | .k n => e.kVal s n
  | .z => 0
  | .lane => wd l
  | .h => (e.himm.getD 0).signExtend 64

/-- A predicate of a lane. -/
def predOf (l : Lane) (p : Fin 8) : Bool := bit l.p p

/-- Write a predicate of a lane. -/
def setPred (l : Lane) (p : Fin 8) (v : Bool) : Lane := { l with p := setFld l.p p p (b2n v) }

/-- Change every issuing lane, each from its own state. -/
def WEnv.mapLanes (e : WEnv) (s : State) (f : Nat → Lane → Lane) : State :=
  modGroup s e.core e.grp fun g => e.lanes.foldl (fun g l => g.modLane l (f l)) g

/-- Write one register in every issuing lane, from the state before the word. -/
def WEnv.writeAll (e : WEnv) (s : State) (d : Reg) (v : Nat → Word) : WRes :=
  (e.mapLanes s fun l x => writeReg x d (v l), [])

/-- Every issuing lane faults with one cause. -/
def WEnv.trapAll (e : WEnv) (cause : Byte) (access : Nat) (addr : Word) : List Trap :=
  e.lanes.map fun l => { lane := l, cause := cause, access := access, addr := addr }

/-- The site at which the word's faults are recorded. -/
def WEnv.site (e : WEnv) (word : BitVec 32) : Site :=
  { core := e.core, grp := e.grp, pc := e.pc, clause := e.cl.hdr, fall := e.cl.fall, word := word }

/-! ## Pending registers (R25 to R27) -/

/-- Whether a long-latency instruction leaves a register of some lane of a mask pending. -/
def LongOp.pends (o : LongOp) (r : Reg) (m : LaneMask) : Bool :=
  decide (o.dst = r) &&
    (match r with
     | .w _ => decide (o.mask &&& m ≠ 0)
     | .t _ => decide (o.mask &&& m &&& ~~~o.drop ≠ 0))

/-- Complete one long-latency instruction: destinations and FSTAT bits written, its flag lowered, its records appended
(R15, R25, R126). -/
def completeOp (s : State) (c g i : Nat) : State :=
  let gr := getGroup s c g
  match gr.out[i]? with
  | none => s
  | some o =>
    let write := fun (gr : Group) (l : Nat) => gr.modLane l fun x =>
      let x := { x with fstat := x.fstat ||| spGet 0 o.fst l }
      match o.dst, spFind o.vals l with
      | .t n, some v => if bit o.drop l then x else writeReg x (.t n) v
      | r, some v => writeReg x r v
      | _, none => x
    let gr := (bitList o.mask).foldl write gr
    let s := setGroup s c g
      { gr with out := dropAt gr.out i, flags := spPut 0 gr.flags o.flag (spGet 0 gr.flags o.flag - 1) }
    o.recs.foldl (fun s r => alogPost s c r) s

/-- Complete every outstanding instruction of a group, oldest first. -/
def completeAll (s : State) (c g : Nat) : State :=
  (getGroup s c g).out.foldl (fun s _ => completeOp s c g 0) s

/-- The registers among a word's source operands. -/
def srcRegs (l : List Src) : List Reg := l.filterMap fun x => match x with
  | .reg r => some r
  | _ => none

/-- Some of the registers is pending in a lane of a mask: a word that reads or writes it stalls (R27). -/
def Group.pending (g : Group) (rs : List Reg) (m : LaneMask) : Bool := g.out.any fun o => rs.any fun r => o.pends r m

/-- No further instruction can be outstanding under the flag (R25). -/
def Group.flagFull (g : Group) (f : Fin 12) : Bool := decide (63 ≤ spGet 0 g.flags f)

/-- Lanes of a mask have outstanding instructions: SFU and IDIV ones, and loads too where `loads` says so (R30, R109,
R127). -/
def Group.busyLanes (g : Group) (loads : Bool) (m : LaneMask) : Bool :=
  g.out.any fun o => (loads || decide (o.kind ≠ .load)) && decide (o.mask &&& m ≠ 0)

/-- Issue a long-latency instruction: the flag rises and its destination is pending (R25). -/
def issueLong (s : State) (c g : Nat) (o : LongOp) : State :=
  modGroup s c g fun gr =>
    { gr with out := gr.out ++ [o], flags := spPut 0 gr.flags o.flag (spGet 0 gr.flags o.flag + 1) }

/-- The flag that a select names in the clause's header (R25, R26). -/
def WEnv.flag (e : WEnv) (f : FlagSel) : Option (Fin 12) :=
  match f with
  | .a => e.cl.fla
  | .b => e.cl.flb

/-! ## Sub-elements (R36, R99) -/

/-- bits(x, w, j). -/
def subBits (x : Word) (w j : Nat) : Nat := x.toNat >>> (w * j) % 2 ^ w

/-- val(x, T, j). -/
def subVal (x : Word) (t : IntTy) (j : Nat) : Int := if t.signed then sgn t.width (subBits x t.width j) else subBits x t.width j

/-- The value of `n` sub-elements of width `w`, from number `j` upwards. -/
def packFrom (w : Nat) (f : Nat → Nat) : Nat → Nat → Nat
  | 0, _ => 0
  | n + 1, j => f j % 2 ^ w + 2 ^ w * packFrom w f n (j + 1)

/-- The register whose sub-elements of width `w` are given; each is reduced modulo 2^w (R38). -/
def packSubs (w : Nat) (f : Nat → Nat) : Word := wd (packFrom w f (64 / w) 0)

/-- The register whose first `n` sub-elements are given, the others zero (R133). -/
def packLow (w n : Nat) (f : Nat → Nat) : Word := wd (packFrom w f n 0)

/-- The register whose sub-elements are integers of a type (R13, R38). -/
def packInts (t : IntTy) (f : Nat → Int) : Word := packSubs t.width fun j => wrapNat t.width (f j)

/-! ## Segments (R17 to R19) -/

/-- KIND, LIMIT in bytes and BASE in bytes of a segment word (R17). -/
def segKind (x : Word) : Nat := fld x 33 32
def segLimit (x : Word) : Nat := fld x 31 16 * 16
def segBase (x : Word) : Nat := fld x 15 0 * 16

/-- The check of R19 for an access of `n` bytes at an offset: the scratchpad address, or the cause. -/
def segCheck (x : Word) (off : Word) (n : Nat) (write : Bool) : Except Byte Nat :=
  if segKind x = 0 ∨ segKind x = 3 ∨ (segKind x = 1 ∧ write) then .error 0x03
  else if segLimit x < off.toNat + n then .error 0x03
  else if off.toNat % n ≠ 0 then .error 0x04
  else .ok (segBase x + off.toNat)

/-- Fetch of the word at an offset within SEG3 (R21). -/
def fetchAt (s : State) (c : Nat) (seg3 : Word) (pc : Offset) : Option (BitVec 32) :=
  if segKind seg3 = 0 ∨ segLimit seg3 < pc.toNat + 4 then none
  else some (BitVec.ofNat 32 (spadRead s c (segBase seg3 + pc.toNat) 4))

end Sys2Proof.Machine
end

