-- ==== Sys2Proof/Machine/Engine.lean ====
section
/-!
DEFINITION. Machine/Engine.lean: the matrix engine's operations, checks and errors (R286 to R302), the assay unit's
arithmetic, contexts and records (R303 to R309, R321 to R326), and the events in which their work completes.
-/
namespace Sys2Proof.Machine

/-! ## Witness arithmetic (R304) -/

/-- The prime of the assay unit. -/
def witP : Nat := 2 ^ 61 - 1

/-- The residue of an integer (R304). -/
def residue (v : Int) : Nat := (v % (witP : Int)).toNat

/-- A power modulo the prime, by squaring. -/
def powMod : Nat → Nat → Nat → Nat
  | 0, _, _ => 1
  | fuel + 1, b, e =>
    if e = 0 then 1
    else
      let h := powMod fuel (b * b % witP) (e / 2)
      if e % 2 = 1 then b * h % witP else h

/-- A power of an audit value. -/
def witPow (b e : Nat) : Nat := powMod 70 b e

/-! ## Parameter blocks and shape records (R291, R296) -/

/-- A parameter block (R291). -/
structure PBlock where
  format : Nat
  flags : Nat
  wctx : Nat
  slot : Nat
  btype : Nat
  accn : Nat
  accrows : Nat
  accbase : Nat
  addr : Nat
  stride : Nat
  rscale : Nat
  cscale : Nat
  row0 : Nat
  col0 : Nat
  rowmask : BitVec 64
  colmask : BitVec 256
  rsv : Nat
  deriving DecidableEq, Repr

/-- A parameter block read from scratchpad. -/
def readBlock (m : Mem) (a : Nat) : PBlock :=
  let f := fun (o n : Nat) => memRead m (a + o) n
  { format := f 0 1, flags := f 1 1, wctx := f 2 1, slot := f 3 1, btype := f 4 1, accn := f 5 1, accrows := f 6 1,
    accbase := f 8 2, addr := f 0xC 4, stride := f 0x10 4, rscale := f 0x14 4, cscale := f 0x18 4, row0 := f 0x1C 4,
    col0 := f 0x20 4, rowmask := BitVec.ofNat 64 (f 0x28 8), colmask := BitVec.ofNat 256 (f 0x30 32),
    rsv := f 7 1 + f 0xA 2 + f 0x24 4 }

/-- Width of element type code `t` (R288): I4, N4, I8, N8, I16, N16. -/
def tyWidth (t : Nat) : Nat := if t < 2 then 4 else if t < 4 then 8 else 16

/-- Whether a type code is signed. -/
def tySigned (t : Nat) : Bool := decide (t % 2 = 0)

/-- Columns of a type: 1,024 div w. -/
def tyCols (t : Nat) : Nat := 1024 / tyWidth t

/-- Bytes of an A row: 256 x w div 8. -/
def aBytes (t : Nat) : Nat := 32 * tyWidth t

/-- Element `j` of a row of `w`-bit elements at byte `a` (R36, R288). -/
def elemBits (m : Mem) (a w j : Nat) : Nat :=
  if w = 4 then (memGet m (a + j / 2)).toNat / 16 ^ (j % 2) % 16 else memRead m (a + j * (w / 8)) (w / 8)

/-- The value of an element under its type (R99). -/
def elemVal (t v : Nat) : Int := if tySigned t then sgn (tyWidth t) v else (v : Int)

/-- N of a tile: 64, 128 or 256 for ACCN 0, 1, 2. -/
def PBlock.cols (b : PBlock) : Nat := 64 <<< b.accn

/-- FLAGS.WIT. -/
def PBlock.wit (b : PBlock) : Bool := decide (b.flags % 2 = 1)

/-- The element type code that an operation's word names: MMA minors 1 to 6, MCONV minors 7 to 12. -/
def opType (minor : Nat) : Nat := if minor ≤ 6 then minor - 1 else minor - 7

/-- The operation is an MMA or an MCONV. -/
def isMul (minor : Nat) : Bool := decide (1 ≤ minor) && decide (minor ≤ 12)

/-- Bytes of a drained element (R294). -/
def drainBytes : DrainTy → Nat
  | .raw => 8 | .f32 => 4 | .i8 => 1 | .i16 => 2

/-- A shape record (R296). -/
structure Shape where
  ibase : Nat
  pixstr : Nat
  ih : Nat
  rowstr : Nat
  iw : Nat
  ow : Nat
  oy0 : Nat
  ox0 : Nat
  sy : Nat
  sx : Nat
  dy : Nat
  dx : Nat
  ky : Nat
  kx : Nat
  padt : Nat
  padl : Nat
  rsv : Nat
  padv : Nat
  deriving DecidableEq, Repr

/-- A shape record read from scratchpad. -/
def readShape (m : Mem) (a : Nat) : Shape :=
  let f := fun (o n : Nat) => memRead m (a + o) n
  { ibase := f 0 4, pixstr := f 4 2, ih := f 6 2, rowstr := f 8 4, iw := f 0xC 2, ow := f 0xE 2, oy0 := f 0x10 2,
    ox0 := f 0x12 2, sy := f 0x14 1, sx := f 0x15 1, dy := f 0x16 1, dx := f 0x17 1, ky := f 0x18 1, kx := f 0x19 1,
    padt := f 0x1A 1, padl := f 0x1B 1, rsv := f 0x1C 2, padv := f 0x1E 2 }

/-- Where MCONV reads tile row `i`, or none for a padded row (R296). -/
def Shape.rowAddr (h : Shape) (i : Nat) : Option Nat :=
  let l := h.oy0 * h.ow + h.ox0 + i
  let iy : Int := (l / h.ow * h.sy + h.ky * h.dy : Nat) - (h.padt : Int)
  let ix : Int := (l % h.ow * h.sx + h.kx * h.dx : Nat) - (h.padl : Int)
  if 0 ≤ iy ∧ iy < h.ih ∧ 0 ≤ ix ∧ ix < h.iw then some (h.ibase + iy.toNat * h.rowstr + ix.toNat * h.pixstr) else none

/-- Tile rows that take part. -/
def PBlock.rows (b : PBlock) : List Nat := bitList b.rowmask

/-- Scratchpad ends here. -/
def spadEnd : Nat := 0xC0000

/-! ## The checks of R300 -/

/-- Code 1: a format, a reserved or an unused field (R291, R292). -/
def bad1 (o : MatOp) (b : PBlock) : Bool :=
  let unused :=
    match o.minor with
    | 0 => [b.accn, b.accrows, b.accbase, b.rscale, b.cscale, b.row0, b.rowmask.toNat]
    | 13 => [b.slot, b.btype] ++ (if o.drain = DrainTy.raw then [b.rscale, b.cscale] else [])
    | 14 => [b.flags, b.slot, b.btype, b.addr, b.stride, b.rscale, b.cscale, b.row0, b.col0, b.rowmask.toNat,
             b.colmask.toNat]
    | n => [b.btype, b.rscale, b.cscale, b.col0, b.colmask.toNat] ++ (if 7 ≤ n then [b.stride] else [])
  decide (b.format ≠ 1) || decide (1 < b.flags) || decide (b.rsv ≠ 0) || (!b.wit && decide (b.wctx ≠ 0)) ||
    unused.any (fun x => decide (x ≠ 0)) || decide (1 < b.slot)

/-- Code 2: the tile (R290). -/
def bad2 (o : MatOp) (b : PBlock) : Bool :=
  decide (o.minor ≠ 0) &&
    (decide (2 < b.accn) || decide (b.accrows = 0) || decide (64 < b.accrows) || decide (b.accbase % 64 ≠ 0) ||
      decide (16384 < b.accbase + b.accrows * b.cols) || (isMul o.minor && decide (b.cols ≠ tyCols (opType o.minor))))

/-- The B slot that a block names. -/
def Engine.slotOf (e : Engine) (n : Nat) : BSlot := if n = 0 then e.slot0 else e.slot1

/-- Code 3: the B tile's type (R289). -/
def bad3 (e : Engine) (o : MatOp) (b : PBlock) : Bool :=
  if o.minor = 0 then decide (5 < b.btype)
  else isMul o.minor &&
    (!(e.slotOf b.slot).valid || decide (tyWidth (e.slotOf b.slot).ty ≠ tyWidth (opType o.minor)))

/-- Code 4: the masks and the context number. -/
def bad4 (o : MatOp) (b : PBlock) : Bool :=
  let n := if o.minor = 0 then tyCols b.btype else b.cols
  (decide (o.minor ≠ 0) && b.rows.any fun i => decide (b.accrows ≤ i)) ||
    (bitList b.colmask).any (fun j => decide (n ≤ j)) || decide (7 < b.wctx)

/-- Code 5: addresses and strides. A drain whose destination lies in SEG3 passes (R18, R300; log entry 79). -/
def bad5 (o : MatOp) (b : PBlock) : Bool :=
  let top := fun (base stride size : Nat) (l : List Nat) =>
    match l.getLast? with
    | none => false
    | some i => decide (spadEnd < base + i * stride + size)
  [b.addr, b.stride, b.rscale, b.cscale].any (fun x => decide (x % 16 ≠ 0)) ||
    (match o.minor with
     | 0 => decide (b.stride < 128) || decide (spadEnd < b.addr + 255 * b.stride + 128)
     | 13 =>
       let n := drainBytes o.drain
       let cols := bitList b.colmask
       decide (b.stride < b.cols * n) ||
         (!cols.isEmpty && top b.addr b.stride ((cols.getLastD 0 + 1) * n) b.rows) ||
         (decide (o.drain ≠ DrainTy.raw) && !cols.isEmpty && !b.rows.isEmpty &&
           (top b.rscale 4 4 b.rows || top b.cscale 4 4 cols))
     | 14 => false
     | m =>
       if m ≤ 6 then decide (b.stride < aBytes (opType m)) || top b.addr b.stride (aBytes (opType m)) b.rows
       else decide (spadEnd < b.addr + 32))

/-- Code 6: the shape record (R296). -/
def bad6 (m : Mem) (o : MatOp) (b : PBlock) : Bool :=
  decide (7 ≤ o.minor) && decide (o.minor ≤ 12) &&
    (let h := readShape m b.addr
     let small := fun (x : Nat) => decide (1 ≤ x) && decide (x ≤ 15)
     [h.ibase, h.pixstr, h.rowstr].any (fun x => decide (x % 16 ≠ 0)) || decide (h.ih = 0) || decide (h.iw = 0) ||
       decide (h.ow = 0) || decide (h.ow ≤ h.ox0) || !([h.sy, h.sx, h.dy, h.dx].all small) || decide (h.rsv ≠ 0) ||
       decide (2 ^ tyWidth (opType o.minor) ≤ h.padv) || b.rows.any fun i =>
         match h.rowAddr i with
         | some a => decide (spadEnd < a + aBytes (opType o.minor))
         | none => false)

/-- The 64-entry blocks of a tile. -/
def tileBlocks (b : PBlock) : BitVec 256 := bitsFrom 256 (b.accbase / 64) (b.accrows * b.cols / 64)

/-- Code 7: a block of the tile is marked invalid. -/
def bad7 (e : Engine) (o : MatOp) (b : PBlock) : Bool :=
  (isMul o.minor || decide (o.minor = 13)) && decide (e.bad &&& tileBlocks b ≠ 0)

/-- Code 8: the witness context as it stood when the operation issued (R316). -/
def bad8 (o : MatOp) (b : PBlock) : Bool := b.wit && (spFind o.ctxs b.wctx).isNone

/-- The first failing check of R300, or 0. -/
def opCheck (m : Mem) (e : Engine) (o : MatOp) (b : PBlock) : Nat :=
  if bad1 o b then 1 else if bad2 o b then 2 else if bad3 e o b then 3 else if bad4 o b then 4
  else if bad5 o b then 5 else if bad6 m o b then 6 else if bad7 e o b then 7 else if bad8 o b then 8 else 0

/-! ## What the operations do (R293 to R296, R307) -/

/-- A context of the assay unit. -/
def Assay.ctx (a : Assay) (uid : Nat) : Option AssayCtx := a.ctxs.find? fun x => decide (x.uid = uid)

/-- Change a context. -/
def Assay.modCtx (a : Assay) (uid : Nat) (f : AssayCtx → AssayCtx) : Assay :=
  { a with ctxs := a.ctxs.map fun x => if x.uid = uid then f x else x }

/-- The witness cache of a slot for a context: sums over the unmasked columns of each row (R307). -/
def slotBr (sl : BSlot) (alpha : Nat) : Sparse Nat :=
  let w := tyWidth sl.ty
  let cols := (bitList sl.colmask).map fun j => (j, witPow alpha (sl.col0 + j + 1))
  (List.range 256).map fun k =>
    (k, cols.foldl (fun acc x => (acc + residue (elemVal sl.ty (elemBits sl.data (128 * k) w x.1)) * x.2) % witP) 0)

/-- The 256 values of an A row (R293, R296). -/
def aRow (m : Mem) (o : MatOp) (b : PBlock) (i : Nat) : List Int :=
  let t := opType o.minor
  let from_ := fun (a : Nat) => (List.range 256).map fun k => elemVal t (elemBits m a (tyWidth t) k)
  if o.minor ≤ 6 then from_ (b.addr + i * b.stride)
  else
    let h := readShape m b.addr
    match h.rowAddr i with
    | some a => from_ a
    | none => List.replicate 256 (elemVal t h.padv)

/-- The sum over k of a row of A and a column of a B tile. -/
def dotCol (sl : BSlot) (j : Nat) (a : List Int) : Int :=
  (a.foldl (fun (acc : Int × Nat) x =>
    (acc.1 + x * elemVal sl.ty (elemBits sl.data (128 * acc.2) (tyWidth sl.ty) j), acc.2 + 1)) (0, 0)).1

/-- One row of an MMA or MCONV: every unmasked entry takes its sum modulo 2^64 (R293). -/
def mulRow (m : Mem) (o : MatOp) (b : PBlock) (e : Engine) (i : Nat) : Engine :=
  let sl := e.slotOf b.slot
  let a := aRow m o b i
  (bitList sl.colmask).foldl (fun e j =>
    let n := b.accbase + i * b.cols + j
    { e with acc := spPut 0 e.acc n (spGet 0 e.acc n + BitVec.ofInt 64 (dotCol sl j a)) }) e

/-- The Y of the rows of a witnessed MMA or MCONV (R307). -/
def foldY (m : Mem) (o : MatOp) (b : PBlock) (br : Sparse Nat) (beta y : Nat) : Nat :=
  b.rows.foldl (fun y i =>
    let t := ((aRow m o b i).foldl (fun (acc : Nat × Nat) x =>
      ((acc.1 + residue x * spGet 0 br acc.2) % witP, acc.2 + 1)) (0, 0)).1
    (y + witPow beta (b.row0 + i + 1) * t) % witP) y

/-- Replace a B slot. -/
def Engine.setSlot (e : Engine) (n : Nat) (x : BSlot) : Engine :=
  if n = 0 then { e with slot0 := x } else { e with slot1 := x }

/-- MLDB (R293). -/
def doLoad (m : Mem) (b : PBlock) (alpha : Option (Nat × Nat)) (e : Engine) : Engine :=
  let data := (List.range 256).foldl (fun d k => memBlit d (128 * k) 128 (memSlice m (b.addr + k * b.stride) 128)) []
  let sl : BSlot := { valid := true, ty := b.btype, col0 := b.col0, colmask := b.colmask, data := data, br := [],
                      brCtx := none }
  e.setSlot b.slot
    (match alpha with
     | some (a, uid) => { sl with br := slotBr sl a, brCtx := some uid }
     | none => sl)

/-- One drained element: the bytes, the ESTAT bits and the log causes (R294, R295). -/
def drainOne (m : Mem) (o : MatOp) (b : PBlock) (seed : Nat) (i j : Nat) (c : Word) : FRes :=
  if o.drain = DrainTy.raw then { bits := c.toNat, nv := false, dz := false, of_ := false, uf := false, nx := false, causes := [] }
  else drainElem o.drain o.mode o.pol c.toInt (memRead m (b.rscale + 4 * i) 4) (memRead m (b.cscale + 4 * j) 4) seed
    ((o.ebase.toNat + 256 * i + j) % 2 ^ 64)

/-- What a drain comes to: the bytes written with their addresses, ESTAT bits, log causes, X. -/
structure DrainAcc where
  writes : List (Nat × List Byte)
  est : Nat
  causes : List Byte
  x : Nat
  deriving DecidableEq, Repr

/-- MDRAIN over its unmasked elements (R294, R307). Scales are read before any byte is written by the same operation. -/
def doDrain (m : Mem) (o : MatOp) (b : PBlock) (seed alpha beta x0 : Nat) (e : Engine) : DrainAcc :=
  b.rows.foldl (fun acc i =>
    (bitList b.colmask).foldl (fun acc j =>
      let c := spGet 0 e.acc (b.accbase + i * b.cols + j)
      let r := drainOne m o b seed i j c
      let n := drainBytes o.drain
      let s := witPow beta (b.row0 + i + 1) * witPow alpha (b.col0 + j + 1) % witP
      { writes := acc.writes ++ [(b.addr + i * b.stride + j * n, leBytes n r.bits)]
        est := acc.est ||| (16 * b2n r.nv + 4 * b2n r.of_ + 2 * b2n r.uf + b2n r.nx)
        causes := acc.causes ++ r.causes.filter fun k => !acc.causes.contains k
        x := (acc.x + s * residue c.toInt) % witP }) acc) { writes := [], est := 0, causes := [], x := x0 }

/-- MZERO (R293). -/
def doZero (b : PBlock) (e : Engine) : Engine :=
  { e with acc := e.acc.filter fun x => decide (x.1 < b.accbase) || decide (b.accbase + b.accrows * b.cols ≤ x.1)
           bad := e.bad &&& ~~~(tileBlocks b) }

/-! ## Completion (R297, R301, R302, R319) -/

/-- An operation ends with error status: FIRSTERR is set, and a witnessed one marks its context (R302, R319). -/
def failOp (s : State) (c : Nat) (o : MatOp) : State :=
  modEng s c fun e => if e.firsterr = 0 then { e with firsterr := o.num } else e

/-- The target that a failed operation leaves invalid (R301). -/
def markTarget (o : MatOp) (b : PBlock) (code : Nat) (e : Engine) : Engine :=
  if o.minor = 0 then
    if 2 ≤ code then e.setSlot b.slot { e.slotOf b.slot with valid := false } else e
  else if (isMul o.minor ∨ o.minor = 14) ∧ 3 ≤ code then { e with bad := e.bad ||| tileBlocks b }
  else e

/-- Operation `o` fails check `code`: ERR and ERRCODE, the record, the target, the error status (R301). -/
def engineError (s : State) (c : Nat) (o : MatOp) (b : PBlock) (code : Nat) : State :=
  let s := modEng s c fun e =>
    { e with estat := if bit e.estat 7 then e.estat else setFld (setFld e.estat 7 7 1) 39 32 code }
  let s := flogAppend s c (.engine
    { group := o.grp, code := code, lane := o.lane, minor := o.minor,
      ty := if o.minor = 13 then (match o.drain with | .raw => 0 | .f32 => 1 | .i8 => 2 | .i16 => 3) else 0,
      num := o.num, block := o.block, pc := o.pc, phase := o.phase, time := s.time })
  failOp (modEng s c (markTarget o b code)) c o

/-- A log record of a drain (R295, R347). -/
def drainRec (o : MatOp) (cause : Byte) : ArithRec :=
  { cause := cause, group := o.grp, engine := true, mask := maskOf 32 [o.lane], clause := o.clause, pc := o.pc,
    phase := o.phase, time := o.time }

/-- The values a context folds with. -/
def AssayCtx.ab (x : AssayCtx) : Nat × Nat := (x.alpha, x.beta)

/-- The stores of a list, latest first, that the operation at tick `t` has not seen: for each byte, of the values it has held since
the last operation read it, one is chosen, and every store from the next on stays unseen (R248, R252). -/
def stillOld (t : Nat) : List Raced → List Raced
  | [] => []
  | x :: r =>
    let l := stillOld t r
    if l.any (fun y => decide (y.addr = x.addr)) || Config.raceOld t (x.addr + 2 ^ 20 * r.length) then x :: l else l

/-- The scratchpad as an operation reads it: a byte that lanes have stored over since its issue shows its old value or the new
one (R252). -/
def engineView (s : State) (c : Nat) : Mem :=
  (stillOld s.ticks (getCore s c).eng.raced).foldl (fun m x => memWrite m x.addr [x.old]) (getCore s c).spad

/-- One write of a drain at tick `t`: until it is acquired, or its time is over, what the bytes held before may still be read (R249,
R252); later operations read the drained bytes (R251). A destination in SEG3 is written like any other, although R18 names no drain among
the writers of code bytes (log entry 79). -/
def drainWrite (t : Nat) (co : Core) (w : Nat × List Byte) : Core :=
  let n := w.2.length
  { co with
    spad := memWrite co.spad w.1 w.2
    eng := { co.eng with
      raced := co.eng.raced.filter fun x => !inRun w.1 n x.addr
      unseen := (List.range n).foldl (fun l i =>
        spSet l (w.1 + i) { old := memGet co.spad (w.1 + i), until_ := t + Config.showsFor t (w.1 + i) }) co.eng.unseen } }

/-- Carry out an operation that passed every check, on the scratchpad as it reads it (R293 to R296, R307). -/
def performOp (s : State) (c : Nat) (o : MatOp) (b : PBlock) (m : Mem) : State :=
  let co := getCore s c
  let e := co.eng
  let uid := if b.wit then spFind o.ctxs b.wctx else none
  let ctx := uid.bind co.asy.ctx
  if o.minor = 0 then modEng s c (doLoad m b (ctx.map fun x => (x.alpha, x.uid)))
  else if o.minor = 13 then
    let ab := (ctx.map AssayCtx.ab).getD (1, 1)
    let r := doDrain m o b (launchOf s c).seed.toNat ab.1 ab.2 ((ctx.map AssayCtx.x).getD 0) e
    let s := modCore s c fun x =>
      let y := r.writes.foldl (drainWrite s.ticks) x
      { y with eng := { y.eng with estat := y.eng.estat ||| wd r.est } }
    let s := match ctx with
      | some k => modAsy s c fun a => a.modCtx k.uid fun k => { k with x := r.x }
      | none => s
    if o.pol = .trap then
      ([0x21, 0x22, 0x23] : List Byte).foldl (fun s k =>
        if r.causes.contains k then alogPost s c (drainRec o k) else s) s
    else s
  else if o.minor = 14 then modEng s c (doZero b)
  else
    let e := match ctx with
      | some k =>
        let sl := e.slotOf b.slot
        if sl.brCtx = some k.uid then e else e.setSlot b.slot { sl with br := slotBr sl k.alpha, brCtx := some k.uid }
      | none => e
    let e' := b.rows.foldl (mulRow m o b) e
    let s := modCore s c fun x => { x with eng := e' }
    match ctx with
    | some k => modAsy s c fun a => a.modCtx k.uid fun k =>
        { k with y := foldY m o b (e.slotOf b.slot).br k.beta k.y }
    | none => s

/-- A witnessed operation counts in the context that was open when it issued, of whatever kind, and marks it when it failed
(R302, R316, R325). -/
def bindOp (s : State) (c : Nat) (o : MatOp) (b : PBlock) (err : Bool) : State :=
  match if b.wit then spFind o.opened b.wctx else none with
  | some uid => modAsy s c fun a => a.modCtx uid fun k => { k with nops := k.nops + 1, engerr := k.engerr || err }
  | none => s

/-- Complete the oldest operation of a core's engine: the timeline becomes its number (R297, R301). -/
def completeMat (s : State) (c : Nat) : State :=
  match (getCore s c).eng.queue with
  | [] => s
  | o :: r =>
    let co := getCore s c
    let m := engineView s c
    let s := modEng s c fun e => { e with raced := stillOld s.ticks e.raced }
    let b := readBlock m o.block
    let code := opCheck m co.eng o b
    let s :=
      if bit co.eng.estat 7 then bindOp (failOp s c o) c o b true
      else if code ≠ 0 then bindOp (engineError s c o b code) c o b true
      else bindOp (performOp s c o b m) c o b false
    retest (modEng s c fun e => { e with queue := r, mtl := o.num, raced := e.raced.filter fun x => decide (o.num < x.upto) }) c

/-- MATRIX_OP_COMPLETE (R297). -/
def execMatrixOpComplete (die : Fin 8) (core : Fin 128) (s : State) : Out := .next (completeMat s (coreNum die core))

/-! ## Waits on the timelines -/

/-- Let a waiting entry go on. -/
def resumePort (s : State) (c g : Nat) (second : Bool) : State :=
  modGroup s c g fun gr => gr.setPort second ((gr.port second).map fun k => { k with wait := .go })

/-- MWAIT returns: its predicate says whether any operation up to `v` failed, and the engine's writes are acquired (R246, R252,
R318, R319). -/
def mwaitReturn (s : State) (c g : Nat) (second : Bool) : State :=
  let gr := getGroup s c g
  match gr.port second with
  | some k =>
    match k.wait with
    | .mwait v p =>
      let e := (getCore s c).eng
      if v.toNat ≤ e.mtl then
        let ok := decide (e.firsterr = 0) || decide (v.toNat < e.firsterr)
        resumePort (modLanes (modEng s c Engine.acquired) c g (gr.active k) fun l => setPred l p ok) c g second
      else s
    | _ => s
  | none => s

/-- A clearing MSTAT finishes once the queue is empty: the register is read, then ESTAT, FIRSTERR and the halt are cleared
(R320). -/
def mstatFinish (s : State) (c g : Nat) (second : Bool) : State :=
  let gr := getGroup s c g
  match gr.port second with
  | some k =>
    match k.wait with
    | .mstat first d =>
      let e := (getCore s c).eng
      if e.queue.isEmpty then
        let v := if first then wd e.firsterr else e.estat
        let s := modLanes s c g (gr.active k) fun l => writeReg l d v
        resumePort (modEng s c fun e => { e with estat := 0, firsterr := 0 }) c g second
      else s
    | _ => s
  | none => s

/-- A waiting AWAIT returns (R326). -/
def awaitReturn (s : State) (c g : Nat) (second : Bool) : State :=
  match (getGroup s c g).port second with
  | some k =>
    match k.wait with
    | .await v => if v.toNat ≤ (getCore s c).asy.atl then resumePort s c g second else s
    | _ => s
  | none => s

/-! ## The assay unit -/

/-- The audit pair of a context (R305, R400): 1, 1 under FIXEDR, else what the Granite die draws for the task, PHASE, OPID
and execution, from 2 to p - 1. -/
def auditPair (fixedr : Bool) (task phase opid exec : Nat) : Nat × Nat :=
  if fixedr then (1, 1)
  else (2 + Config.alphaDraw task phase opid exec % (witP - 2), 2 + Config.betaDraw task phase opid exec % (witP - 2))

/-- ORDER's digest of the keys of one class (R308). -/
def orderDigest (alpha cls : Nat) (l : List Item) : Nat :=
  (l.filter fun x => decide (x.cls = cls)).foldl
    (fun acc x => acc * ((alpha + witP - residue x.value.toInt) % witP) % witP) 1

/-- A sum of powers of beta times the items of one class, by block number plus `off` (R308). -/
def scanSum (beta cls off : Nat) (l : List Item) : Nat :=
  (l.filter fun x => decide (x.cls = cls)).foldl
    (fun acc x => (acc + witPow beta (x.index + off) * residue x.value.toInt) % witP) 0

/-- An F64 pattern is a NaN. -/
def isNan64 (v : Word) : Bool := decide (0x7FF0000000000000 < v.toNat % 2 ^ 63)

/-- RESID's largest magnitude (R308). -/
def residMax (l : List Item) : Word :=
  if l.any fun x => isNan64 x.value then 0x7FF8000000000000
  else l.foldl (fun acc x =>
    let a := acc.toNat % 2 ^ 63
    let b := x.value.toNat % 2 ^ 63
    if a < b ∨ (a = b ∧ acc.toNat ≠ a ∧ x.value.toNat = b) then x.value else acc)
    ((l.head?.map (·.value)).getD 0)

/-- V0, V1, V2 of a context (R307, R308); V3 is 0 for every kind. -/
def AssayCtx.values (k : AssayCtx) : Word × Word × Word :=
  let l := k.items
  match k.kind with
  | 1 => (wd k.x, wd k.y, 0)
  | 2 => (wd ((l.filter fun x => decide (x.cls = 2)).foldl (fun acc x => (acc + residue x.value.toInt) % witP) 0),
          wd (orderDigest k.alpha 0 l), wd (orderDigest k.alpha 1 l))
  | 3 =>
    let top := maxOf (l.map (·.index))
    let shifted := scanSum k.beta 1 2 (l.filter fun x => decide (x.index < top))
    (wd ((scanSum k.beta 1 1 l + witP - shifted) % witP), wd (scanSum k.beta 0 1 l), 0)
  | 4 => (residMax l, wd l.length, 0)
  | _ => (wd k.func, wd l.length,
          wd (l.foldl (fun acc x => (acc + witPow k.alpha (x.index + 1) * residue x.value.toInt) % witP) 0))

/-- The TID and VERSION of reference `n` of a record (R309). -/
def WitRec.tid (r : WitRec) (n : Nat) : BitVec 48 := (r.refs >>> (96 * n)).setWidth 48
def WitRec.ver (r : WitRec) (n : Nat) : Nat := fld r.refs (96 * n + 95) (96 * n + 64)

/-- The witness record of a context (R309, R325). -/
def witnessRec (s : State) (c : Nat) (k : AssayCtx) : WitRec :=
  let v := k.values
  let pt := partOf s c
  { num := s.gran.nextRec, kind := k.kind, incomplete := k.incomplete, engerr := k.engerr, fixedr := k.fixedr,
    die := dieOf c, core := c, ctx := k.num, lcore := (getCore s c).lcore, part := (getCore s c).part.getD 0,
    opid := k.opid, nitems := BitVec.ofNat 32 (if k.kind = 1 then k.nops else k.items.length), phase := k.phase,
    v0 := v.1, v1 := v.2.1, v2 := v.2.2, v3 := 0, refs := k.refs, alpha := k.alpha, beta := k.beta, task := pt.taskid, exec := pt.execs, onGen := none }

/-- The 96 bytes of a witness record (R309). -/
def WitRec.bytes (r : WitRec) : List Byte :=
  leBytes 1 r.kind ++ leBytes 1 (b2n r.incomplete + 2 * b2n r.engerr + 4 * b2n r.fixedr) ++ leBytes 1 r.die ++
    leBytes 1 r.ctx ++ leBytes 2 r.lcore ++ leBytes 2 r.part ++ leBytes 4 r.opid.toNat ++ leBytes 4 r.nitems.toNat ++
    [r.phase, r.v0, r.v1, r.v2, r.v3].flatMap (fun v => leBytes 8 v.toNat) ++ leBytes 40 r.refs.toNat

/-- A closing context still waits for an operation that issued while it was open: whether that is witnessed and names the context
is known only once it reads its block, which an earlier drain or a racing store may still write (R251, R252, R302, R306, R316,
R321; log entry 77). -/
def boundTo (co : Core) (uid : Nat) : Bool := co.eng.queue.any fun o => o.opened.any fun x => decide (x.2 = uid)

/-- The oldest command of the assay queue completes, ATL becomes its number. -/
def popAsy (a : Assay) : Assay := { a with queue := a.queue.drop 1, atl := a.atl + 1 }

/-- AUDIT_VALUES_ARRIVE (R305, R321). -/
def execAuditValuesArrive (die : Fin 8) (core : Fin 128) (s : State) : Out :=
  let c := coreNum die core
  match (getCore s c).asy.queue with
  | .awit uid :: _ => .next (modAsy s c fun a => popAsy (a.modCtx uid fun k => { k with ready := true }))
  | _ => .next s

/-- ASSAY_FOLD_COMPLETE (R321, R324). -/
def execAssayFoldComplete (die : Fin 8) (core : Fin 128) (s : State) : Out :=
  let c := coreNum die core
  match (getCore s c).asy.queue with
  | .aemit uid items :: _ =>
    .next (modAsy s c fun a => popAsy (a.modCtx uid fun k => { k with items := k.items ++ items }))
  | _ => .next s

/-- Send the record of a context and free it (R306, R309, R321). -/
def sendRecord (s : State) (c uid : Nat) : State :=
  match (getCore s c).asy.ctx uid with
  | none => s
  | some k =>
    let r := witnessRec s c k
    let r := { r with onGen := (genNamed s (r.tid 0) (r.ver 0)).map fun g => (g.idx, g.ver) }
    let s := modAsy s c fun a => { a with ctxs := a.ctxs.filter fun x => decide (x.uid ≠ uid) }
    modGran s fun g => { g with recs := g.recs ++ [r], nextRec := g.nextRec + 1 }

/-- WITNESS_RECORD_ACCEPT (R321): the oldest command closes its context once its folds are done; a context closed at the
flip takes no number (R305). -/
def execWitnessRecordAccept (die : Fin 8) (core : Fin 128) (s : State) : Out :=
  let c := coreNum die core
  let co := getCore s c
  match co.asy.queue with
  | .aclose uid :: _ => if boundTo co uid then .next s else .next (modAsy (sendRecord s c uid) c popAsy)
  | .auto uid :: _ =>
    if boundTo co uid then .next s
    else .next (modAsy (sendRecord s c uid) c fun a => { a with queue := a.queue.drop 1 })
  | _ => .next s

/-- A context still open at the flip to exchange is closed by the hardware with INCOMPLETE (R305). -/
def autoClose (s : State) (c : Nat) : State :=
  modAsy s c fun a =>
    let open_ := a.ctxs.filter fun k => !k.closing
    { a with queue := a.queue ++ open_.map fun k => .auto k.uid
             ctxs := a.ctxs.map fun k => if k.closing then k else { k with closing := true, incomplete := true } }

end Sys2Proof.Machine
end

