-- ==== Sys2Proof/Machine/Meta.lean ====
section
/-!
DEFINITION. Machine/Meta.lean: what the checks of R74 and R86 and the stalls of R25, R27, R30, R109, R127 and R313 look at, for
every word, and with it when a clause can issue its next word (R150).
-/
namespace Sys2Proof.Machine

/-! ## Places in the engines' queues (R313) -/

/-- A clearing MSTAT waits on the core (R320). -/
def Core.clearing (co : Core) : Bool :=
  co.groups.any fun g => [g.2.c0, g.2.c1].any fun k => match k.map Clause.wait with
    | some (.mstat _ _) => true
    | _ => false

/-- An operation may issue: one of the four queue places is free, and no clearing MSTAT waits (R313, R320). -/
def Core.matFree (co : Core) : Bool := decide (co.eng.queue.length < 4) && !co.clearing

/-- An assay command that took a number; the close that the hardware makes at the flip takes none (R305). -/
def AssayCmd.numbered : AssayCmd → Bool
  | .awit _ | .aemit _ _ | .aclose _ => true
  | .auto _ => false

/-- An assay command may issue: one of the eight queue places is free (R313). -/
def Core.asyFree (co : Core) : Bool := decide ((co.asy.queue.filter AssayCmd.numbered).length < 8)

/-- An operation that passes its checks (`ok`) finds no place in the matrix queue (R313, R320). -/
def matNeed (ok : WEnv → State → Bool) (e : WEnv) (s : State) : Bool := ok e s && !(getCore s e.core).matFree

/-- An assay command that passes its checks (`ok`) finds no place in the assay queue (R313). -/
def asyNeed (ok : WEnv → State → Bool) (e : WEnv) (s : State) : Bool := ok e s && !(getCore s e.core).asyFree

/-! ## Parameter and open blocks, descriptors (R314, R323, R324), pairs (R265) -/

/-- The check of R314 on a block address of `n` bytes. -/
def blockFault (v : Word) (n : Nat) : Option Byte :=
  if spadEnd ≤ v.toNat ∨ spadEnd < v.toNat + n then some 0x03 else if v.toNat % 16 ≠ 0 then some 0x04 else none

/-- The block address of a word is good: `n` bytes of scratchpad at a multiple of 16 (R314). -/
def blockOk (a : Src) (n : Nat) (e : WEnv) (s : State) : Bool := (blockFault (e.src s e.low a) n).isNone

/-- A context that is open and not closing, by number. -/
def Assay.openCtx (a : Assay) (n : Nat) : Option AssayCtx := a.ctxs.find? fun k => decide (k.num = n) && !k.closing

/-- The faults of R323 in an open block. -/
def openBad (co : Core) (m : Mem) (a : Nat) : Bool :=
  let f := fun (o n : Nat) => memRead m (a + o) n
  let kind := f 1 1
  decide (7 < f 0 1) || decide (kind = 0) || decide (5 < kind) || (decide (kind = 5) != decide (f 2 1 ≠ 0)) ||
    decide (f 3 1 ≠ 0) || decide (f 0xE 2 ≠ 0) || decide (f 0x1A 2 ≠ 0) || decide (f 0x26 2 ≠ 0) ||
    decide (f 0x2C 4 ≠ 0) || (co.asy.openCtx (f 0 1)).isSome

/-- An AWIT's open block passes the checks of R323. -/
def awitOk (a : Src) (e : WEnv) (s : State) : Bool :=
  blockOk a 48 e s && !openBad (getCore s e.core) (getCore s e.core).spad (e.src s e.low a).toNat

/-- A descriptor that R324 refuses for a kind. -/
def itemBad (kind : Nat) (v : Word) : Bool :=
  let cls := fld v 1 0
  decide (fld v 31 2 ≠ 0) || decide ((if kind = 2 then 2 else if kind = 3 then 1 else 0) < cls) ||
    ((decide (kind = 2) || decide (kind = 4)) && decide (fld v 63 32 ≠ 0))

/-- An AEMIT posts at least one item (R324). -/
def aemitOk (c : Fin 8) (b : Src) (e : WEnv) (s : State) : Bool :=
  match (getCore s e.core).asy.openCtx c with
  | none => false
  | some k => decide (k.kind ≠ 1) && e.lanes.any fun l => !itemBad k.kind (e.src s l b)

/-- The second register of a pair form: the next operand code, after w0 to w38 (R265). -/
def pairOf : Src → Option Src
  | .reg (.w n) => if h : n.val + 1 < 40 then some (.reg (.w ⟨n.val + 1, h⟩)) else none
  | .reg (.t _) | .k _ | .z | .lane | .h => none

/-! ## Waits for a lane's own instructions -/

/-- The word's lanes have issued something that it must wait for: anything, or an SFU or IDIV instruction (R30, R109, R127). -/
def drainNeed (loads : Bool) (e : WEnv) (s : State) : Bool := (getGroup s e.core e.grp).busyLanes loads e.act

/-- A read of FSTAT waits for the lane's SFU and IDIV instructions (R109, R127). -/
def fstatNeed (sel : SReg) (e : WEnv) (s : State) : Bool :=
  match sel with
  | .fstat => drainNeed false e s
  | _ => false

/-! ## Checks and stalls -/

/-- A clause with words left. -/
def Clause.hasWord (k : Clause) : Bool := decide (k.nxt ≤ k.len)

/-- How a word meets the phase rules of R194 and R196. -/
inductive WordPhase where
  | any | restricted | sync | halt
  deriving DecidableEq, Repr

/-- What the checks of R86 look at: the operands read, the registers written, whether the word is a control word, its flag
select, which kind-2 fields it accepts (R78), whether it is privileged, and its phase rule; and whether something
of the word's own keeps it from issuing (R30, R109, R127, R313). -/
structure WMeta where
  ops : List Src := []
  dst : List Reg := []
  ctl : Bool := false
  flag : Option FlagSel := none
  accMode : Bool := false
  accPol : Bool := false
  priv : Bool := false
  phase : WordPhase := .any
  need : WEnv → State → Bool := fun _ _ => false

/-- The kind-0 payload, and the kind-2 fields, of a hint run (R74). -/
def runImm (l : List Instr) : Option (BitVec 24) := l.findSome? fun i => match i with
  | .himm p => some p
  | _ => none
def runArith (l : List Instr) : Option (Option Round × Option Policy × Option Src) := l.findSome? fun i => match i with
  | .harith m p x => some (m, p, x)
  | _ => none

/-- The checks of R74 (last two rows) and R86 steps 2 to 4, in their order: the cause of the first that fails. -/
def wordCause (m : WMeta) (e : WEnv) (s : State) : Option Byte :=
  let co := getCore s e.core
  if (e.mode.isSome ∧ ¬ m.accMode) ∨ (e.ix.isSome ∧ ¬ m.accMode) ∨ (e.pol.isSome ∧ ¬ m.accPol) then some 0x01
  else if m.ops.contains .h ∧ e.himm = none then some 0x01
  else if m.ctl ∧ e.idx < e.cl.len then some 0x01
  else if (m.flag.map fun f => (e.flag f).isNone) = some true then some 0x01
  else if m.priv ∧ ¬ (launchOf s e.core).system then some 0x02
  else
    let out := decide ((partOf s e.core).st ≠ .compute) || (co.group e.grp).synced
    match m.phase with
    | .any => none
    | .restricted => if out then some 0x05 else none
    | .sync => if out || holdsBarrier co e.grp then some 0x05 else none
    | .halt => if holdsBarrier co e.grp then some 0x05 else none

/-- The environment of the next word of a clause of a core's group. -/
def envAt (s : State) (c g : Nat) (second : Bool) (k : Clause) : WEnv :=
  let ar := runArith k.run
  { core := c, grp := g, second := second, cl := k, idx := k.nxt, pc := k.wordAt k.nxt, act := (getGroup s c g).active k,
    himm := runImm k.run, mode := ar.bind (·.1), pol := ar.bind (·.2.1), ix := ar.bind (·.2.2) }

/-- The environment of the next word of a clause at the cursor. -/
def envOf (s : State) (k : Clause) : WEnv := envAt s s.cur.core s.cur.grp s.cur.second k

/-- A word that passes its checks stalls: a register that it reads or writes is pending (R27), its flag's count is full (R25),
or something of its own keeps it from issuing. -/
def stallOf (m : WMeta) (e : WEnv) (s : State) : Bool :=
  let gr := getGroup s e.core e.grp
  gr.pending (srcRegs (m.ops ++ e.ix.toList) ++ m.dst) e.act || ((m.flag.bind e.flag).map gr.flagFull).getD false || m.need e s

/-! ## The requirements of every word -/

/-- A word that writes `d` from the operands `l`. -/
def regMeta (d : Reg) (l : List Src) : WMeta := { ops := l, dst := [d] }

/-- A float word, which takes a rounding mode and a policy (R78). -/
def fltMeta (d : Reg) (l : List Src) (f : Option FlagSel) : WMeta :=
  { ops := l, dst := [d], flag := f, accMode := true, accPol := true }

/-- A word restricted to the compute phase (R194). -/
def restMeta (d : List Reg) (l : List Src) : WMeta := { ops := l, dst := d, phase := .restricted }

/-- An operation of the matrix engine; a drain that converts takes a rounding mode and a policy (R78, R312, R314). -/
def opMeta (d : Reg) (a : Src) (dt : DrainTy) : WMeta :=
  { restMeta [d] [a] with accMode := decide (dt ≠ .raw), accPol := decide (dt ≠ .raw), need := matNeed (blockOk a 80) }

/-- A control word (R22, R86). -/
def ctlMeta (d : List Reg) (l : List Src) : WMeta := { ops := l, dst := d, ctl := true }

/-- SWR (R118): FSTAT waits, the queue words are privileged, a read-only register reads nothing. -/
def swrMeta (a : Src) : SReg → WMeta
  | .fstat => { ops := [a], need := drainNeed false }
  | .trapvec => { ops := [a] }
  | .alogq | .xq | .noteq => { restMeta [] [a] with priv := true }
  | .group | .core | .lcore | .string | .die | .part | .phase | .pwrstate | .mtl | .atl | .xpend | .arrive | .time
  | .taskid | .world | .seed | .seg _ => {}

/-- What the checks of R86 and the stalls look at, for every word that has operands of its own to check: a clause header, a
hint, a word that decodes to nothing and an event have none. -/
def metaOf : Instr → Option WMeta
  | .add d a b _ | .sub d a b _ | .mul d a b _ | .mulh d a b _ | .min d a b _ | .max d a b _ | .and d a b _ | .or d a b _
  | .xor d a b _ | .andn d a b _ | .shl d a b _ | .shr d a b _ | .sar d a b _ | .rol d a b _ | .adds d a b _ | .subs d a b _
  | .avg d a b _ | .sel d a b _ | .trunc d a b _ | .pack d a b _ | .bfx d a b _ | .fmin d a b _ | .fmax d a b _
  | .fcpys d a b _ | .lshf d a b _ | .lrot d a b _ | .lbcst d a b _ => some (regMeta d [a, b])
  | .abs d a _ | .neg d a _ | .clz d a _ | .popc d a _ | .brev d a _ | .bswap d a _ | .addi d a _ _ | .andi d a _ _
  | .ori d a _ _ | .xori d a _ _ | .shli d a _ _ | .shri d a _ _ | .sari d a _ _ | .mov d a | .extw d a _ | .unpk d a _
  | .fabs d a _ | .fneg d a _ | .lscanAdd d a _ | .lscanMin d a _ | .lscanMax d a _ | .lscanAnd d a _ | .lscanOr d a _
  | .lscanXor d a _ | .lscanFmin d a _ | .lscanFmax d a _ | .lredAdd d a _ | .lredMin d a _ | .lredMax d a _
  | .lredAnd d a _ | .lredOr d a _ | .lredXor d a _ | .lredFmin d a _ | .lredFmax d a _ => some (regMeta d [a])
  | .movi d _ _ | .ptow d | .ballot d _ | .lpopc d _ => some (regMeta d [])
  | .icmp _ a b _ _ _ | .fcmp _ a b _ _ _ => some { ops := [a, b] }
  | .icmpi _ a _ _ _ | .wtop a | .ljoin a | .resw a | .kset _ a | .pwrp a => some { ops := [a] }
  | .pand _ _ _ | .por _ _ _ | .pxor _ _ _ | .pnot _ _ | .voteAny _ _ | .voteAll _ _ | .nop => some {}
  | .bfi d a b _ | .dotI8 d a b | .dotN8 d a b | .dotIn8 d a b | .dotI4 d a b | .dotN4 d a b | .dotI16 d a b =>
    some (regMeta d [.reg d, a, b])
  | .div d a b _ f | .rem d a b _ f => some { regMeta d [a, b] with flag := some f }
  | .fadd d a b _ | .fsub d a b _ | .fmul d a b _ | .cvs d a b _ _ => some (fltMeta d [a, b] none)
  | .fma d a b _ | .fms d a b _ | .fnma d a b _ | .fnms d a b _ | .fdotF16 d a b => some (fltMeta d [.reg d, a, b] none)
  | .cvt d a _ _ | .lscanFadd d a _ | .lredFadd d a _ => some (fltMeta d [a] none)
  | .srq d a b _ _ => some { regMeta d [a, b] with accPol := true }
  | .rcp d a _ f | .rsq d a _ f | .sqrt d a _ f | .exp2 d a _ f | .log2 d a _ f | .sinpi d a _ f | .cospi d a _ f =>
    some (fltMeta d [a] (some f))
  | .fdiv d a b _ f => some (fltMeta d [a, b] (some f))
  | .ld d base _ _ f _ => some { restMeta [d] [base] with flag := some f }
  | .ldx d base x _ f _ => some { restMeta [d] [base, x] with flag := some f }
  | .st v base _ _ _ => some (restMeta [] [v, base])
  | .stx v base x _ _ => some (restMeta [] [v, base, x])
  | .aadd d a b _ _ | .amin d a b _ _ | .amax d a b _ _ | .aand d a b _ _ | .aor d a b _ _ | .axor d a b _ _
  | .axchg d a b _ _ => some (restMeta [d] [a, b])
  | .acas d a b _ _ => some (restMeta [d] [a, b, .reg d])
  | .bar _ a | .barv _ a | .xfence a | .topen a | .tseal a | .xcnt a | .mwait _ a | .await a => some (restMeta [] [a])
  | .brDiv _ _ | .brAny _ _ | .brAll _ _ | .brNone _ _ | .jmp _ | .trap _ | .brk _ => some (ctlMeta [] [])
  | .call _ => some (ctlMeta [.w 39] [])
  | .jr a => some (ctlMeta [] [a])
  | .callr d a => some (ctlMeta [d] [a])
  | .ret => some (ctlMeta [] [.reg (.w 39)])
  | .halt => some { ctl := true, phase := .halt, need := drainNeed true }
  | .sync | .syncI => some { phase := .sync }
  | .srd d sel => some { dst := [d], need := fstatNeed sel }
  | .swr a sel => some (swrMeta a sel)
  | .segld a _ | .xprom a | .xqset a => some { restMeta [] [a] with priv := true }
  | .xld near far b => some (restMeta [] ([near, far, b] ++ (pairOf far).toList))
  | .xst far near b | .xcpy far near b | .xredAdd far near b _ | .xredMin far near b _ | .xredMax far near b _
  | .xredAnd far near b _ | .xredOr far near b _ | .xredXor far near b _ | .xredMadd far near b =>
    some (restMeta [] ([near, far, b] ++ (pairOf far).toList))
  | .mldb d a | .mmaI4 d a | .mmaN4 d a | .mmaI8 d a | .mmaN8 d a | .mmaI16 d a | .mmaN16 d a | .mconvI4 d a | .mconvN4 d a
  | .mconvI8 d a | .mconvN8 d a | .mconvI16 d a | .mconvN16 d a | .mzero d a => some (opMeta d a .raw)
  | .mdrain d a t => some (opMeta d a t)
  | .mstat d a => some (restMeta [d] [a])
  | .awit d a => some { restMeta [d] [a] with need := asyNeed (awitOk a) }
  | .aemit c a b => some { restMeta [] [a, b] with need := asyNeed (aemitOk c b) }
  | .aclose d c => some { restMeta [d] [] with need := asyNeed fun e s => ((getCore s e.core).asy.openCtx c).isSome }
  | _ => none

/-! ## Readiness (R25, R27, R150) -/

/-- The next word of a clause would stall. -/
def stalls (s : State) (c g : Nat) (second : Bool) (k : Clause) : Bool :=
  match (fetchAt s c k.seg3 (k.wordAt k.nxt)).bind fun w => (decode w).toOption.bind metaOf with
  | some m => let e := envAt s c g second k; (wordCause m e s).isNone && stallOf m e s
  | none => false

/-- A clause that can issue its next word in this cycle: it has one, waits for nothing, and the word does not stall. -/
def issuable (s : State) (c g : Nat) (second : Bool) (k : Clause) : Bool :=
  decide (k.wait = .go) && k.hasWord && !stalls s c g second k

end Sys2Proof.Machine
end

