-- ==== Sys2Proof/Machine/Issue.lean ====
section
/-!
DEFINITION. Machine/Issue.lean: the frontier, clause headers, dual issue and group selection (R22, R138 to R154, R195), the
issue of a word (R74, R86, R194, R196), hint words (R74 to R78), and completion and handler-entry events.
-/
namespace Sys2Proof.Machine

/-! ## When a core issues -/

/-- The partition lets its cores issue: not IDLE, HELD, ABORTING or in a rollback (R192, R398), nor evicted (R369). -/
def Part.issuing (p : Part) : Bool :=
  !p.evicted &&
    match p.st with
    | .compute | .flipX | .exchange | .flipC | .final => true
    | .idle | .held | .aborting | .rollback => false

/-- Physical core `c` may issue words. -/
def issues (s : State) (c : Nat) : Bool := (getCore s c).part.isSome && (partOf s c).issuing

/-! ## The frontier (R141, R142, R145) -/

/-- The lanes that belong to a clause in flight or to a released entry. -/
def Group.flying (g : Group) : LaneMask :=
  (([g.c0, g.c1].filterMap id) ++ g.released).foldl (fun m c => m ||| c.mask) 0

/-- frontier(): the runnable lanes outside every clause in flight, by PC, in ascending order (R141). -/
def Group.frontier (g : Group) : List (Offset × LaneMask) :=
  let free := g.lanes.filter fun e => decide (e.2.cond = .runnable) && !bit g.flying e.1
  let pcs := free.foldl (fun l e => insertSorted e.2.pc.toNat l) []
  pcs.map fun pc => (BitVec.ofNat 20 pc, maskOf 32 ((free.filter fun e => decide (e.2.pc.toNat = pc)).map (·.1)))

/-- A header that passes the header checks of R22. -/
def headerOk (w : BitVec 32) : Bool :=
  let fl := fun (x : Nat) => decide (x ≤ 11) || decide (x = 15)
  decide (fld w 31 26 = 0) && decide (1 ≤ fld w 25 21) && decide (fld w 25 21 ≤ 24) && fl (fld w 8 5) && fl (fld w 4 1)

/-- Every flag of a wait mask has count 0 (R22). -/
def Group.waitOk (g : Group) (wait : BitVec 12) : Bool := (bitList wait).all fun n => decide (spGet 0 g.flags n = 0)

/-- A word of the refusing list of R146. -/
def refusingWord (w : BitVec 32) : Bool :=
  let m := fld w 31 26
  decide (m = 0x15) || decide (m = 0x16) || (decide (0x1A ≤ m) && decide (m ≤ 0x1C)) ||
    (decide (m = 0x19) && (decide (fld w 5 0 = 4) || decide (fld w 5 0 = 5)))

/-- A kind-1 hint with payload bit `n` set (0 SOLO, 1 STAY) has a target among the words of a clause: a word that is no hint
follows its run (R74, R76). -/
def hintTarget (n : Nat) : List (BitVec 32) → Bool
  | [] => false
  | w :: r => (decide (fld w 31 24 = 5) && bit w n && r.any fun x => decide (fld x 31 26 ≠ 1)) || hintTarget n r

/-- A restricted word (R194). -/
def restrictedWord (w : BitVec 32) : Bool :=
  let m := fld w 31 26
  let minor := fld w 5 0
  (decide (0x10 ≤ m) && decide (m ≤ 0x14)) || (decide (m = 0x16) && (decide (fld w 4 0 = 1) || decide (fld w 4 0 = 2))) ||
    (decide (0x1A ≤ m) && decide (m ≤ 0x1C)) ||
    (decide (m = 0x19) && (decide (minor = 4) || decide (minor = 5) || decide (minor = 10) ||
      (decide (minor = 8) && decide (0x11 ≤ fld w 13 6) && decide (fld w 13 6 ≤ 0x13))))

/-- The words of the clause at a header that can be fetched. -/
def clauseWords (s : State) (c : Nat) (seg3 : Word) (pc : Offset) : List (BitVec 32) :=
  match fetchAt s c seg3 pc with
  | none => []
  | some h => (List.range (fld h 25 21)).filterMap fun i => fetchAt s c seg3 (pc + BitVec.ofNat 20 (4 * (i + 1)))

/-- A frontier entry is ready (R145, R195): its header cannot be fetched or fails its checks, or its wait mask is clear and
its clause is not a restricted one whose lanes are all marked synced. -/
def entryReady (s : State) (c g : Nat) (e : Offset × LaneMask) : Bool :=
  let gr := getGroup s c g
  let seg3 := spGet 0 gr.seg 3
  match fetchAt s c seg3 e.1 with
  | none => true
  | some h =>
    !headerOk h ||
      (gr.waitOk (BitVec.ofNat 12 (fld h 20 9)) &&
        !((clauseWords s c seg3 e.1).any restrictedWord && decide (e.2 &&& ~~~(gr.lanesWhere fun l => l.mark) = 0)))

/-- No core of the partition starts a clause: it is about to be held, or its images are about to be written (R359, R371,
R410). -/
def Part.quiet (p : Part) : Bool := p.holding.isSome || p.quiesce

/-- The ready entries of a group, in ascending order of address. -/
def readyEntries (s : State) (c g : Nat) : List (Offset × LaneMask) :=
  if (partOf s c).quiet then [] else (getGroup s c g).frontier.filter (entryReady s c g)

/-- A released entry that can go on: its next word does not stall (R144, log entry 26). -/
def releasedReady (s : State) (c g : Nat) : List Clause := (getGroup s c g).released.filter (issuable s c g false)

/-- A clause that has issued its last word and waits for nothing after it. -/
def Clause.over (k : Clause) : Bool := decide (k.wait = .go) && !k.hasWord

/-- Every clause in flight of the group has issued its last word: the pair ends before anything else of the group happens. -/
def Group.ended (g : Group) : Bool := g.inFlight && ([g.c0, g.c1].filterMap id).all Clause.over

/-- A group is ready when it can issue a word (R150): it has a clause in flight that is not stalled, or a released entry that
goes on, or it can start a clause. -/
def groupReady (s : State) (c g : Nat) : Bool :=
  let gr := getGroup s c g
  match gr.c0, gr.c1 with
  | none, none => !(releasedReady s c g).isEmpty || !(readyEntries s c g).isEmpty
  | some k, none => issuable s c g false k
  | none, some l => issuable s c g true l
  | some k, some l => issuable s c g false k || issuable s c g true l

/-- The group cannot start a clause because a header that passes its checks fails the wait test of R22 (R152). -/
def waitFails (s : State) (c g : Nat) : Bool :=
  let gr := getGroup s c g
  gr.frontier.any fun e =>
    match fetchAt s c (spGet 0 gr.seg 3) e.1 with
    | some h => headerOk h && !gr.waitOk (BitVec.ofNat 12 (fld h 20 9))
    | none => false

/-! ## Starting and ending clauses -/

/-- The core, group and lanes of the entry at the cursor where no clause is in flight on its port. -/
def atHeader (s : State) : Option (Offset × LaneMask) :=
  if (getGroup s s.cur.core s.cur.grp).port s.cur.second = none then s.cur.entry else none

/-- A fetch or header fault (R21, R22, R339): CLAUSE and PC are the fetched offset, FALL is 0. Such an entry ends no clause
and takes no second one, and its header is the group's last issued word (log entry 54). -/
def headerFault (s : State) (cause : Byte) (word : BitVec 32) (addr : Word) : State :=
  match atHeader s with
  | none => s
  | some (pc, m) =>
    let c := s.cur.core
    let g := s.cur.grp
    let lanes := bitList (m &&& (getGroup s c g).lanesWhere fun l => decide (l.cond = .runnable))
    let s := modGroup s c g fun x => { x with lastIssue := s.time, stayLeft := none }
    let s := takeFaults s { core := c, grp := g, pc := pc, clause := pc, fall := 0, word := word }
      (lanes.map fun l => { lane := l, cause := cause, access := 3, addr := addr })
    enterHandlers { s with cur := { s.cur with entry := none } } c g

/-- Accept a header for the lanes of an entry (R22, R15): temporaries cleared, late results of temporaries dropped. -/
def Group.accept (g : Group) (second : Bool) (k : Clause) : Group :=
  let g := g.modLanes k.mask fun l => { l with t0 := 0, t1 := 0, npc := none }
  { g.setPort second (some k) with stayLeft := none, out := g.out.map fun o => { o with drop := o.drop ||| (o.mask &&& k.mask) } }

/-- The clause that a header word opens on a core; its words say whether a STAY target stands in it (R152). -/
def clauseOf (s : State) (c : Nat) (h : BitVec 32) (pc : Offset) (m : LaneMask) (seg3 : Word) : Clause :=
  clauseAt h pc m seg3 1 (hintTarget 1 (clauseWords s c seg3 pc))

/-- The offset at which a clause goes on. -/
def Clause.at_ (k : Clause) : Offset := k.wordAt k.nxt

/-- A clause that may run in a pair (R146). -/
def pairable (s : State) (c : Nat) (seg3 : Word) (pc : Offset) : Bool :=
  let l := clauseWords s c seg3 pc
  !l.any refusingWord && !hintTarget 0 l

/-- Start the second clause of a pair where R146 allows it: the candidate is the next-lowest ready entry above the primary
one. A released entry that stands there is the candidate, and its clause holds an LJOIN, which refuses (R170; log entry 26). -/
def startSecond (s : State) (c g : Nat) (pc : Offset) : State :=
  let gr := getGroup s c g
  let seg3 := spGet 0 gr.seg 3
  match (readyEntries s c g).filter fun e => decide (pc.toNat < e.1.toNat) with
  | [] => s
  | e :: _ =>
    if (releasedReady s c g).any fun k => decide (pc.toNat < k.at_.toNat) && decide (k.at_.toNat < e.1.toNat) then s
    else match fetchAt s c seg3 e.1 with
    | none => s
    | some h =>
      if headerOk h ∧ gr.c1 = none ∧ pairable s c seg3 pc ∧ pairable s c seg3 e.1 then
        setGroup s c g (gr.accept true (clauseOf s c h e.1 e.2 seg3))
      else s

/-- CLAUSE (R22, R145, R146): at a header position the clause starts once its flags are clear, with a second clause where one
may run beside it; at a body position it is an illegal instruction. An accepted header is the group's last issued word (log
entry 54). -/
def startClause (s : State) (h : Clause) (wait : BitVec 12) : State :=
  match atHeader s with
  | none => s
  | some (pc, m) =>
    let c := s.cur.core
    let g := s.cur.grp
    let gr := getGroup s c g
    if ¬ gr.waitOk wait ∨ (partOf s c).quiet then s
    else
      let seg3 := spGet 0 gr.seg 3
      let k := { h with hdr := pc, mask := m, seg3 := seg3, stay := hintTarget 1 (clauseWords s c seg3 pc) }
      let s1 := setGroup s c g { gr.accept s.cur.second k with lastIssue := s.time }
      let s2 := { s1 with cur := { s1.cur with entry := none } }
      if s.cur.second then s2 else startSecond s2 c g pc

/-- The oldest ready group other than `g`, ties to the lower number (R150). -/
def oldestReady (s : State) (c : Nat) (other : Nat → Bool) : Option Nat :=
  ((List.range (getCore s c).ngroups).filter fun g => other g && groupReady s c g).foldl (fun acc g =>
    match acc with
    | none => some g
    | some b => if (getGroup s c g).lastIssue < (getGroup s c b).lastIssue then some g else some b) none

/-- One LANECTL write takes effect on the parked lanes that it names (R345), also in a group that holds a barrier (log entry
53). -/
def Group.laneCtl (g : Group) (w : LaneCtl) : Group :=
  let m := w.mask &&& g.lanesWhere fun l => decide (l.cond = .parked)
  if w.kill then g.modLanes m fun l => { l with cond := .halted, fault := none }
  else g.modLanes m fun l =>
    { l with cond := .runnable, pc := w.pc, hflt := false, fault := none, mark := l.mark || g.synced }

/-- The waiting LANECTL writes of a group take effect (R345): killed lanes may release joins, leave only halted and parked
lanes (R344), finish the group, or let the core leave COMPUTE. -/
def applyLaneCtl (s : State) (c g : Nat) : State :=
  let gr := getGroup s c g
  if gr.lanectl.isEmpty ∨ gr.inFlight then s
  else
    let s := setGroup s c g { gr.lanectl.foldl Group.laneCtl gr with lanectl := [] }
    retest (reportIfStuck (releaseJoins s c g) c g gr.stuck) c

/-- What the end of a pair does to the issue state (R150, R152). A C that stands at or above a CAP lowered meanwhile switches
as well, so that a selection never passes CAP clauses (R153). The STAY hold follows an end that leaves the group selected: one
at which nothing switches, or at which no other group is ready to switch to. -/
def afterClause (s : State) (c g : Nat) (yld stay : Bool) : State :=
  let co := getCore s c
  if co.sel ≠ g then s
  else
    let switch := yld || decide (co.gtoCap ≤ co.cnt + 1)
    let next := if switch then (oldestReady s c fun x => decide (x ≠ g)).getD g else g
    let s := setCore s c { co with cnt := if switch then 0 else co.cnt + 1, sel := next }
    if next = g ∧ stay ∧ ¬ groupReady s c g ∧ waitFails s c g then modGroup s c g fun x => { x with stayLeft := some 8 } else s

/-- When every clause in flight of a group has issued its last word, each lane that is still runnable takes its next PC, and
what waits for the clause end happens (R142, R343, R345). A pair switches at its end where either of its headers has YLD = 1, and
is followed by the STAY hold where a STAY target stands in either of its clauses (log entry 75). -/
def endClauses (s : State) (c g : Nat) : State :=
  let gr := getGroup s c g
  let fl := [gr.c0, gr.c1].filterMap id
  if ¬ gr.ended then s
  else
    let gr1 := fl.foldl (fun g k => g.modLanes k.mask fun l =>
      if l.cond = .runnable then { l with pc := l.npc.getD k.fall, npc := none } else l) gr
    let s := setGroup s c g { gr1 with c0 := none, c1 := none }
    let s := enterHandlers (applyLaneCtl s c g) c g
    afterClause s c g (fl.any fun k => k.yld) (fl.any fun k => k.stay)

/-- CLAUSE_END (R142). -/
def execClauseEnd (die : Fin 8) (core : Fin 128) (grp : Fin 8) (s : State) : Out := .next (endClauses s (coreNum die core) grp)

/-- The clauses of groups that no longer wait have ended, where the word that made them wait was their last (R142). -/
def endWoken (s : State) (c : Nat) (gs : List Nat) : State := gs.foldl (fun s g => endClauses s c g) s

/-- GROUP_SELECT (R150): the selected group is not ready, no clause end of it is due, and it holds no STAY: the oldest ready
group is selected. -/
def execGroupSelect (die : Fin 8) (core : Fin 128) (s : State) : Out :=
  let c := coreNum die core
  let co := getCore s c
  if groupReady s c co.sel ∨ (co.group co.sel).ended ∨ (co.group co.sel).stayLeft.isSome then .next s
  else
    match oldestReady s c fun _ => true with
    | some g => .next (setCore s c { co with sel := g, cnt := 0 })
    | none => .next s

/-- STAY_HOLD_EXPIRE (R152): the eight cycles are over. -/
def execStayHoldExpire (die : Fin 8) (core : Fin 128) (grp : Fin 8) (s : State) : Out :=
  .next (modGroup s (coreNum die core) grp fun g => { g with stayLeft := none })

/-- A long-latency instruction of one kind, at one place in its group's list, completes (R25, R28). -/
def completeKind (k : LongKind) (s : State) (c g i : Nat) : State :=
  match (getGroup s c g).out[i]? with
  | some o => if o.kind = k then completeOp s c g i else s
  | none => s

/-- LOAD_COMPLETION (R25, R112). -/
def execLoadCompletion (die : Fin 8) (core : Fin 128) (grp : Fin 8) (op : Nat) (s : State) : Out :=
  .next (completeKind .load s (coreNum die core) grp op)

/-- IDIV_COMPLETION (R25, R109). -/
def execIdivCompletion (die : Fin 8) (core : Fin 128) (grp : Fin 8) (op : Nat) (s : State) : Out :=
  .next (completeKind .idiv s (coreNum die core) grp op)

/-- SFU_COMPLETION (R25, R136). -/
def execSfuCompletion (die : Fin 8) (core : Fin 128) (grp : Fin 8) (op : Nat) (s : State) : Out :=
  .next (completeKind .sfu s (coreNum die core) grp op)

/-- HANDLER_ENTRY (R343). -/
def execHandlerEntry (die : Fin 8) (core : Fin 128) (grp : Fin 8) (s : State) : Out :=
  .next (enterHandlers s (coreNum die core) grp)

/-! ## One word (R86) -/

/-- The scope that the second port's word of this cycle reads, once the primary port has issued its word: there is such a
word where the second port can issue one now. The second port's own word ends the cycle (R147, R148). -/
def nextScope (s : State) (c g : Nat) (second : Bool) : Option Scope :=
  match second, (getGroup s c g).c1 with
  | false, some k => if issuable s c g true k then some (scopeOf s c g) else none
  | _, _ => none

/-- The clause moves past its word, the hint run ends, and the package notes the issue (R148, R150). -/
def passWord (s : State) (e : WEnv) : State :=
  let gr := getGroup s e.core e.grp
  let s := if e.second then s else { s with scope := nextScope s e.core e.grp false }
  setGroup s e.core e.grp
    { gr.setPort e.second (some { e.cl with nxt := e.idx + 1, run := [], wait := .go }) with lastIssue := s.time }

/-- A clause with no lane left to issue its words has ended (R22). -/
def closeEmpty (s : State) (e : WEnv) : State :=
  let gr := getGroup s e.core e.grp
  match gr.port e.second with
  | some k => if gr.active k = 0 then setGroup s e.core e.grp (gr.setPort e.second (some { k with nxt := k.len + 1, run := [] })) else s
  | none => s

/-- The end of a word: the faults of its lanes are taken, and the second port's view of the group ends (R148). -/
def endAt (e : WEnv) (site : Site) (r : WRes) : State :=
  let s := closeEmpty (takeFaults r.1 site r.2) e
  if e.second then { s with scope := none } else s

/-- The end of a word whose bits are `word`. -/
def endWord (e : WEnv) (word : BitVec 32) (r : WRes) : State := endAt e (e.site word) r

/-- The bits of the word at an environment's place. -/
def WEnv.bits (e : WEnv) (s : State) : BitVec 32 := (fetchAt s e.core e.cl.seg3 e.pc).getD 0

/-- The clause at the cursor that can issue a word. -/
def atWord (s : State) : Option Clause :=
  let co := getCore s s.cur.core
  let gr := co.group s.cur.grp
  match gr.port s.cur.second with
  | some k => if issues s s.cur.core ∧ k.wait = .go ∧ k.hasWord then some k else none
  | none => none

/-- Issue a word (R86): its checks, its stalls (R25, R27, R313), its effect, its faults. A word that stalls does not issue, and
nothing changes. At a header position it fails the header checks (R22, R23). -/
def runWord (m : WMeta) (body : WEnv → State → WRes) (s : State) : Out :=
  match atWord s with
  | some k =>
    let e := envOf s k
    let s1 := passWord s e
    match wordCause m e s with
    | some cause => .next (endWord e (e.bits s) (s1, e.trapAll cause 0 0))
    | none =>
      if stallOf m e s then .next s else .next (endWord e (e.bits s) (body e s1))
  | none => if issues s s.cur.core then .next (headerFault s 0x01 (((atHeader s).bind fun h =>
      fetchAt s s.cur.core (spGet 0 (getGroup s s.cur.core s.cur.grp).seg 3) h.1).getD 0) 0) else .next s

/-- Every issuing lane faults with one cause, whatever the word is. -/
def faultWord (s : State) (cause : Byte) (word : BitVec 32) (access : Nat) (addr : Word) : State :=
  match atWord s with
  | some k =>
    let e := envOf s k
    endWord e word (passWord s e, e.trapAll cause access addr)
  | none => if issues s s.cur.core then headerFault s cause word addr else s

/-- CLAUSE (R22, R72). -/
def execClause (len : Nat) (wait : BitVec 12) (fla flb : Option (Fin 12)) (yld : Bool) (s : State) : Out :=
  match atWord s with
  | some k => .next (faultWord s 0x01 ((envOf s k).bits s) 0 0)
  | none =>
    if issues s s.cur.core then
      .next (startClause s { hdr := 0, len := len, fla := fla, flb := flb, yld := yld, nxt := 1, mask := 0, run := [],
                             seg3 := 0, stay := false, wait := .go } wait)
    else .next s

/-- The word cannot be fetched (R21): a segment-limit fault with access kind fetch, at the offset; CLAUSE is the offset too,
and FALL is 0 (R339). -/
def fetchFault (s : State) : State :=
  match atWord s with
  | some k =>
    let e := envOf s k
    endAt e { e.site 0 with clause := e.pc, fall := 0 } (passWord s e, e.trapAll 0x03 3 (wd e.pc.toNat))
  | none =>
    match atHeader s with
    | some (pc, _) => if issues s s.cur.core then headerFault s 0x03 0 (wd pc.toNat) else s
    | none => s

/-- ILLEGAL_INSTRUCTION (R86): a word that decodes to no instruction. -/
def execIllegalInstruction (w : BitVec 32) (s : State) : Out := .next (faultWord s 0x01 w 0 0)

/-! ## Going on with a released entry (R144, R170) -/

/-- The released entry of lowest address that can go on; of two at the same word, the one released first (log entry 26). -/
def lowReleased (s : State) (c g : Nat) : Option Clause :=
  (releasedReady s c g).foldl (fun acc k =>
    match acc with
    | none => some k
    | some b => if k.at_.toNat < b.at_.toNat then some k else some b) none

/-- A released entry that stands below every ready frontier entry goes on, on the primary port (R144); of two that stand at
the same word, the frontier entry starts first (log entry 26). -/
def resumesReleased (s : State) (c g : Nat) : Option Clause :=
  if (getGroup s c g).inFlight then none
  else
    match lowReleased s c g, readyEntries s c g with
    | some k, e :: _ => if k.at_.toNat < e.1.toNat then some k else none
    | some k, [] => some k
    | none, _ => none

/-- Put a released entry on the primary port. -/
def resumeReleased (s : State) (c g : Nat) (k : Clause) : State :=
  modGroup s c g fun x => { x with c0 := some k, stayLeft := none, released := x.released.filter fun y => decide (y ≠ k) }

/-! ## Hint words (R74 to R77) -/

/-- Two hints of one kind. -/
def sameKind : Instr → Instr → Bool
  | .himm _, .himm _ => true
  | .hsched _ _, .hsched _ _ => true
  | .harith _ _ _, .harith _ _ _ => true
  | _, _ => false

/-- A hint word: it joins the run, or fails the run's own cases, which are tested before anything of its target (R74). -/
def runHint (i : Instr) (s : State) : Out :=
  match atWord s with
  | some k =>
    let e := envOf s k
    if k.run.any (sameKind i) ∨ k.nxt = k.len then .next (faultWord s 0x01 (e.bits s) 0 0)
    else
      .next (modGroup { s with scope := nextScope s e.core e.grp e.second } e.core e.grp fun g =>
        { g.setPort e.second (some { k with nxt := k.nxt + 1, run := k.run ++ [i] }) with lastIssue := s.time })
  | none => runWord {} (fun _ s => (s, [])) s

/-- HIMM (R75). -/
def execHimm (p : BitVec 24) (s : State) : Out := runHint (.himm p) s

/-- HSCHED (R76). -/
def execHsched (stay solo : Bool) (s : State) : Out := runHint (.hsched stay solo) s

/-- HARITH (R77). -/
def execHarith (mode : Option Round) (pol : Option Policy) (ix : Option Src) (s : State) : Out :=
  runHint (.harith mode pol ix) s

end Sys2Proof.Machine
end

