-- ==== Sys2Proof/Machine/Flags.lean ====
section
/-!
DEFINITION. Machine/Flags.lean: conditions and their combination into predicates (R80, R105, R131), FSTAT (R33, R34, R125),
the arithmetic-log records of a word (R126), and the rounding controls of a lane (R124).
-/
namespace Sys2Proof.Machine

/-- An integer condition (R105). -/
def icond (k : ICond) (x y : Int) : Bool :=
  match k with
  | .eq => decide (x = y)
  | .ne => decide (x ≠ y)
  | .lt => decide (x < y)
  | .le => decide (x ≤ y)
  | .gt => decide (y < x)
  | .ge => decide (y ≤ x)

/-- A float condition (R131). -/
def fcond (k : FCond) (x y : FVal) : Bool :=
  let un := x.isNan || y.isNan
  let o := cmpVal x y
  match k with
  | .eq => !un && decide (o = .eq)
  | .ne => un || decide (o ≠ .eq)
  | .lt => !un && decide (o = .lt)
  | .le => !un && decide (o ≠ .gt)
  | .gt => !un && decide (o = .gt)
  | .ge => !un && decide (o ≠ .lt)
  | .un => un
  | .ord => !un

/-- How a compare combines with the predicate it writes (R105). -/
def combine (c : Comb) (old new : Bool) : Bool :=
  match c with
  | .set => new
  | .and => old && new
  | .or => old || new

/-- Write a predicate in every issuing lane, from the state before the word. -/
def WEnv.setPreds (e : WEnv) (s : State) (p : Fin 8) (v : Nat → Bool) : WRes :=
  (e.mapLanes s fun l x => setPred x p (v l), [])

/-- DZTRAP of a lane (R33). -/
def dzTrap (l : Lane) : Bool := bit l.fstat 16

/-- A write of FSTAT (R34, R118): DZTRAP from bit 16, each of bits 5 to 0 written as 1 cleared. -/
def writeFstat (old v : Word) : Word := setFld (old &&& ~~~(v &&& 0x3F)) 16 16 (fld v 16 16)

/-- A value that R34 refuses for FSTAT. -/
def fstatBad (v : Word) : Bool := decide (v &&& 0xFFFFFFFFFFFEFFC0 ≠ 0)

/-- Write one register and set FSTAT bits in every issuing lane. -/
def WEnv.writeWith (e : WEnv) (s : State) (d : Reg) (v : Nat → Word) (fst : Nat → Nat) : State :=
  e.mapLanes s fun l x => { writeReg x d (v l) with fstat := x.fstat ||| wd (fst l) }

/-- The element-index base E of a lane (R50, R124). -/
def WEnv.ebase (e : WEnv) (s : State) (l : Nat) : Word :=
  match e.ix with
  | some x => e.src s l x
  | none => wd (8 * l)

/-- The effective controls of an element with index `idx` (R124). -/
def WEnv.ctlAt (e : WEnv) (s : State) (idx : Word) : Ctl :=
  { mode := e.mode.getD .rne, pol := e.pol.getD .inf, rand := rand16 (launchOf s e.core).seed idx }

/-- The effective controls of sub-element `j` of lane `l` (R50). -/
def WEnv.ctl (e : WEnv) (s : State) (l j : Nat) : Ctl := e.ctlAt s (e.ebase s l + wd j)

/-- A log record of the word (R347). -/
def WEnv.logRec (e : WEnv) (s : State) (cause : Byte) (m : LaneMask) : ArithRec :=
  { cause := cause, group := e.grp, engine := false, mask := m, clause := e.cl.hdr, pc := e.pc,
    phase := (partOf s e.core).phase, time := s.time }

/-- The results of one lane's elements. -/
abbrev LaneRes := List FRes

/-- FSTAT bits that a lane's elements raise (R125). -/
def resFstat (r : LaneRes) : Nat := r.foldl (fun m x => m ||| x.fstat) 0

/-- The lanes, among those given, whose elements raise a cause. -/
def lanesWith (l : List (Nat × LaneRes)) (cause : Byte) : LaneMask :=
  maskOf 32 ((l.filter fun x => x.2.any fun r => r.causes.contains cause).map (·.1))

/-- The records of a word under TRAP, in the order of R126: invalid, float divide by zero, narrowing overflow. -/
def WEnv.trapRecs (e : WEnv) (s : State) (l : List (Nat × LaneRes)) : List ArithRec :=
  if e.pol = some .trap then
    ([0x21, 0x22, 0x23] : List Byte).filterMap fun k =>
      let m := lanesWith l k
      if m = 0 then none else some (e.logRec s k m)
  else []

/-- The register that a lane's elements make. -/
def resWord (w : Nat) (r : LaneRes) : Word := packLow w r.length fun j => ((r[j]?).map FRes.bits).getD 0

/-- Write a lane's rounded elements, its FSTAT bits, and the word's records (R125 to R127). -/
def WEnv.writeRounded (e : WEnv) (s : State) (d : Reg) (w n : Nat) (f : Nat → Nat → FRes) : WRes :=
  let res := e.lanes.map fun l => (l, (List.range n).map (f l))
  let of := fun (l : Nat) => spGet [] res l
  let s1 := e.writeWith s d (fun l => resWord w (of l)) fun l => resFstat (of l)
  ((e.trapRecs s res).foldl e.post s1, [])

/-- The same as a long-latency instruction: everything is delivered at completion (R127, R136). -/
def WEnv.issueRounded (e : WEnv) (s : State) (d : Reg) (f : FlagSel) (w n : Nat) (g : Nat → Nat → FRes) : WRes :=
  let res := e.lanes.map fun l => (l, (List.range n).map (g l))
  (issueLong s e.core e.grp
    { kind := .sfu, flag := (e.flag f).getD 0, dst := d, mask := e.act, drop := 0
      vals := res.map fun x => (x.1, resWord w x.2)
      fst := res.map fun x => (x.1, wd (resFstat x.2)), recs := e.trapRecs s res }, [])

/-! ## Shapes of words -/

/-- A word that writes a register from two operands. -/
def binWord (d : Reg) (a b : Src) (v : Word → Word → Word) : State → Out :=
  runWord { ops := [a, b], dst := [d] } fun e s => e.writeAll s d fun l => v (e.src s l a) (e.src s l b)

/-- A word that writes a register from one operand. -/
def unWord (d : Reg) (a : Src) (v : Word → Word) : State → Out :=
  runWord { ops := [a], dst := [d] } fun e s => e.writeAll s d fun l => v (e.src s l a)

/-- Two operands and the prior value of the destination. -/
def accWord (d : Reg) (a b : Src) (v : Word → Word → Word → Word) : State → Out :=
  runWord { ops := [.reg d, a, b], dst := [d] } fun e s =>
    e.writeAll s d fun l => v (e.src s l (.reg d)) (e.src s l a) (e.src s l b)

end Sys2Proof.Machine
end

