-- ==== Sys2Proof/Machine/Sys.lean ====
section
/-!
DEFINITION. Machine/Sys.lean: the SYS family (R117 to R120, R193): traps, the end of a lane, synchronisation, special
registers, uniform constants, segments, power profiles.
-/
namespace Sys2Proof.Machine

/-- NOP (R117). -/
def execNop (s : State) : Out := runWord {} (fun _ s => (s, [])) s

/-- TRAP (R117): a software-trap fault that carries the code. -/
def execTrap (code : BitVec 8) (s : State) : Out :=
  runWord { ctl := true } (fun e s => (s, e.trapAll 0x08 0 (code.setWidth 64))) s

/-- BRK (R117, R342): a breakpoint fault that carries the code. -/
def execBrk (code : BitVec 8) (s : State) : Out :=
  runWord { ctl := true } (fun e s => (s, e.trapAll 0x09 0 (code.setWidth 64))) s

/-- HALT (R30, R196): the lanes end once what they have issued has completed; their registers and PCs stay. -/
def execHalt (s : State) : Out :=
  runWord { ctl := true, phase := .halt, need := drainNeed true } (fun e s =>
    let was := (getGroup s e.core e.grp).stuck
    let s := modLanes s e.core e.grp e.act fun l => { l with cond := .halted }
    (retest (reportIfStuck (releaseJoins s e.core e.grp) e.core e.grp was) e.core, [])) s

/-- SYNC and SYNC.I (R193): the lanes are marked, the group syncs with its vote, parked lanes not yet reported are named to
the home die (R344), and the core tests its phase state again. -/
def syncWord (vote : Bool) : State → Out :=
  runWord { phase := .sync } fun e s =>
    let s := modLanes s e.core e.grp e.act fun l => { l with mark := true }
    let s := modGroup s e.core e.grp fun g => { g with synced := true, vote := vote }
    let gr := getGroup s e.core e.grp
    let m := gr.unreported &&& gr.lanesWhere fun l => decide (l.cond = .parked)
    let s := if m ≠ 0 then postParked s e.core e.grp m else s
    (retest s e.core, [])

/-- SYNC (R193). -/
def execSync (s : State) : Out := syncWord false s

/-- SYNC.I (R193, R197). -/
def execSyncI (s : State) : Out := syncWord true s

/-- RESW (R117, R207): the last result word of the group's logical core and group since the last settlement. -/
def execResw (a : Src) (s : State) : Out :=
  runWord { ops := [a] } (fun e s =>
    (modPart s ((getCore s e.core).part.getD 256) fun x =>
      { x with resw := spSet x.resw (8 * (getCore s e.core).lcore + e.grp) (e.src s e.low a) }, [])) s

/-! ## Special registers (R32, R118) -/

/-- A queue control word as SRD delivers it: its reserved bits 63:50 and 31:16 read zero (R9, R214). -/
def queueShown (q : Word) : Word := setFld (setFld q 63 50 0) 31 16 0

/-- A special register read by a lane (R32). -/
def sregVal (e : WEnv) (s : State) (l : Nat) : SReg → Word
  | .group => wd e.grp
  | .core => wd (e.core % 128)
  | .lcore => wd (getCore s e.core).lcore
  | .string => wd (e.core % 128 / 4)
  | .die => wd (dieOf e.core)
  | .part => wd ((getCore s e.core).part.getD 0)
  | .phase => (partOf s e.core).phase
  | .pwrstate => wd (getCore s e.core).pwrLatch
  | .mtl => wd (getCore s e.core).eng.mtl
  | .atl => wd (getCore s e.core).asy.atl
  | .xpend => wd ((getCore s e.core).exch.xpend % 2 ^ 32)
  | .arrive => (partOf s e.core).arrive
  | .time => wd s.time
  | .taskid => (partOf s e.core).taskid
  | .world => (launchOf s e.core).keyh
  | .seed => (launchOf s e.core).seed
  | .fstat => (e.lane s l).fstat
  | .alogq => queueShown (e.scoped s).alogq
  | .xq => queueShown (e.scoped s).xq
  | .noteq => queueShown (e.scoped s).noteq
  | .seg n => e.segVal s n
  | .trapvec => (e.scoped s).trapvec

/-- SRD (R117). -/
def execSrd (d : Reg) (sel : SReg) (s : State) : Out :=
  runWord { dst := [d], need := fstatNeed sel } (fun e s => e.writeAll s d fun l => sregVal e s l sel) s

/-- R215 for a queue control word `v` on a core: `others` are the other queues' words, `esz1` says that ESZ must be 1. -/
def queueOk (segs others : List Word) (esz1 : Bool) (v : Word) : Bool :=
  decide (qwDepth v = 0) ||
    (decide (fld v 63 50 = 0) && decide (fld v 31 16 = 0) && decide (fld v 49 48 ≠ 3) &&
      (!esz1 || decide (fld v 49 48 = 1)) && decide (qwEnd v ≤ spadEnd) &&
      segs.all (fun g => !(decide (0 < segLimit g) && meets (segBase g) (segLimit g) (qwBase v) (qwEnd v - qwBase v))) &&
      others.all fun q => decide (qwDepth q = 0) ||
        !meets (qwBase q) (qwEnd q - qwBase q) (qwBase v) (qwEnd v - qwBase v))

/-- SEG3 of every group of a core, that of the word's own group as its port reads it (R148). -/
def WEnv.codeSegs (e : WEnv) (s : State) : List Word :=
  let co := getCore s e.core
  (List.range co.ngroups).map fun g => if g = e.grp then e.segVal s 3 else spGet 0 (co.group g).seg 3

/-- A queue holds entries. -/
def queueBusy (co : Core) (q : Word) : Bool := decide (0 < qwDepth q) && decide (qCount co.spad (qwBase q) (qwDepth q) ≠ 0)

/-- SWR to a queue control word (R118, R215): the lowest lane's value is checked, with the other words as the port reads
them (R148), and written (R101). -/
def swrQueue (a : Src) (esz1 : Bool) (others : Scope → List Word) (bad : Scope → Core → Bool) (put : Core → Word → Core) :
    State → Out :=
  runWord { ops := [a], priv := true, phase := .restricted } fun e s =>
    let sc := e.scoped s
    let v := e.src s e.low a
    if bad sc (getCore s e.core) ∨ ¬ queueOk (e.codeSegs s) (others sc) esz1 v then (s, e.trapAll 0x01 0 0)
    else (modCore s e.core fun x => put x v, [])

/-- SWR (R34, R101, R118). A read-only register makes the word illegal (R32). -/
def execSwr (a : Src) (sel : SReg) (s : State) : Out :=
  match sel with
  | .fstat =>
    runWord { ops := [a], need := drainNeed false } (fun e s =>
      let bad := fun (l : Nat) => fstatBad (e.src s l a)
      (e.mapLanes s fun l x => if bad l then x else { x with fstat := writeFstat x.fstat (e.src s l a) },
       (e.lanes.filter bad).map fun l => { lane := l, cause := 0x01, access := 0, addr := 0 })) s
  | .trapvec =>
    runWord { ops := [a] } (fun e s =>
      let v := e.src s e.low a
      if fld v 63 20 ≠ 0 ∨ fld v 1 0 ≠ 0 then (s, e.trapAll 0x01 0 0)
      else (modGroup s e.core e.grp fun g => { g with trapvec := v }, [])) s
  | .alogq => swrQueue a false (fun q => [q.xq, q.noteq]) (fun _ _ => false) (fun x v => { x with alogq := v }) s
  | .xq => swrQueue a true (fun q => [q.alogq, q.noteq]) (fun q co => queueBusy co q.xq) (fun x v => { x with xq := v }) s
  | .noteq => swrQueue a true (fun q => [q.alogq, q.xq]) (fun _ _ => false) (fun x v => { x with noteq := v }) s
  | .group | .core | .lcore | .string | .die | .part | .phase | .pwrstate | .mtl | .atl | .xpend | .arrive | .time
  | .taskid | .world | .seed | .seg _ => runWord {} (fun e s => (s, e.trapAll 0x01 0 0)) s

/-- KSET (R101, R117). -/
def execKset (k : Fin 16) (a : Src) (s : State) : Out :=
  runWord { ops := [a] } (fun e s =>
    (modGroup s e.core e.grp fun g => { g with k := spPut 0 g.k k (e.src s e.low a) }, [])) s

/-- A segment configuration is valid (R17, R18). -/
def segsOk (seg : Nat → Word) : Bool :=
  (List.range 4).all (fun n =>
    decide (fld (seg n) 63 34 = 0) && decide (fld (seg n) 15 0 ≤ 49151) &&
      decide (segBase (seg n) + segLimit (seg n) ≤ spadEnd) &&
      (if n = 3 then decide (segKind (seg n) = 0) || decide (segKind (seg n) = 3) else decide (segKind (seg n) ≠ 3))) &&
    (List.range 3).all fun n =>
      !(decide (0 < segLimit (seg n)) && decide (0 < segLimit (seg 3)) &&
        meets (segBase (seg n)) (segLimit (seg n)) (segBase (seg 3)) (segLimit (seg 3)))

/-- SEGLD (R119): the lowest lane's value, checked with the other three segments as the port reads them (R148). -/
def execSegld (a : Src) (n : Fin 4) (s : State) : Out :=
  runWord { ops := [a], priv := true, phase := .restricted } (fun e s =>
    let v := e.src s e.low a
    if segsOk fun m => if m = n.val then v else e.segVal s m then
      (modGroup s e.core e.grp fun g => { g with seg := spPut 0 g.seg n v }, [])
    else (s, e.trapAll 0x03 0 0)) s

/-- A declaration may lower the launch record's value, never raise it; 0 keeps it (R120). -/
def declared (launch v : Nat) : Nat := if v = 0 then launch else min launch v

/-- PWRP (R120): the declaration takes effect at the core's next superstep. -/
def execPwrp (a : Src) (s : State) : Out :=
  runWord { ops := [a] } (fun e s =>
    let v := e.src s e.low a
    let l := launchOf s e.core
    if fld v 63 48 ≠ 0 then (s, e.trapAll 0x01 0 0)
    else (modCore s e.core fun x =>
      { x with energyNext := some (declared l.energy (fld v 47 16)), peakNext := some (declared l.peak (fld v 15 0)) }, [])) s

end Sys2Proof.Machine
end

