-- ==== Sys2Proof/Machine/Mat.lean ====
section
/-!
DEFINITION. Machine/Mat.lean: the words that feed the matrix engine and the assay unit (R311 to R326).
-/
namespace Sys2Proof.Machine

/-! ## Operations (R312, R314 to R317) -/

/-- The contexts open at issue, by number (R316). -/
def openCtxs (a : Assay) (p : AssayCtx → Bool) : Sparse Nat :=
  (a.ctxs.filter fun k => !k.closing && p k).foldl (fun m k => spSet m k.num k.uid) []

/-- An operation (R312): its number to d, its controls fixed, a place in the queue. -/
def opWord (d : Reg) (a : Src) (minor : Nat) (dt : DrainTy) : State → Out :=
  runWord { ops := [a], dst := [d], accMode := decide (dt ≠ .raw), accPol := decide (dt ≠ .raw), phase := .restricted
            need := matNeed (blockOk a 80) }
    fun e s =>
      let v := e.src s e.low a
      match blockFault v 80 with
      | some k => (s, e.trapAll k 1 v)
      | none =>
        let co := getCore s e.core
        let n := co.eng.issued + 1
        let o : MatOp :=
          { num := n, minor := minor, drain := dt, block := v.toNat, grp := e.grp, lane := e.low, pc := e.pc,
            clause := e.cl.hdr, phase := (partOf s e.core).phase, time := s.time, mode := e.mode.getD .rne,
            pol := e.pol.getD .inf, ebase := e.ebase s e.low, ctxs := openCtxs co.asy fun k => decide (k.kind = 1),
            opened := openCtxs co.asy fun _ => true }
        let s := modEng s e.core fun x => { x with queue := x.queue ++ [o], issued := n }
        e.writeAll s d fun _ => wd n

/-- MLDB (R315). -/
def execMldb (d : Reg) (a : Src) (s : State) : Out := opWord d a 0 .raw s
/-- MMA.I4. -/
def execMmaI4 (d : Reg) (a : Src) (s : State) : Out := opWord d a 1 .raw s
/-- MMA.N4. -/
def execMmaN4 (d : Reg) (a : Src) (s : State) : Out := opWord d a 2 .raw s
/-- MMA.I8. -/
def execMmaI8 (d : Reg) (a : Src) (s : State) : Out := opWord d a 3 .raw s
/-- MMA.N8. -/
def execMmaN8 (d : Reg) (a : Src) (s : State) : Out := opWord d a 4 .raw s
/-- MMA.I16. -/
def execMmaI16 (d : Reg) (a : Src) (s : State) : Out := opWord d a 5 .raw s
/-- MMA.N16. -/
def execMmaN16 (d : Reg) (a : Src) (s : State) : Out := opWord d a 6 .raw s
/-- MCONV.I4. -/
def execMconvI4 (d : Reg) (a : Src) (s : State) : Out := opWord d a 7 .raw s
/-- MCONV.N4. -/
def execMconvN4 (d : Reg) (a : Src) (s : State) : Out := opWord d a 8 .raw s
/-- MCONV.I8. -/
def execMconvI8 (d : Reg) (a : Src) (s : State) : Out := opWord d a 9 .raw s
/-- MCONV.N8. -/
def execMconvN8 (d : Reg) (a : Src) (s : State) : Out := opWord d a 10 .raw s
/-- MCONV.I16. -/
def execMconvI16 (d : Reg) (a : Src) (s : State) : Out := opWord d a 11 .raw s
/-- MCONV.N16. -/
def execMconvN16 (d : Reg) (a : Src) (s : State) : Out := opWord d a 12 .raw s
/-- MDRAIN. -/
def execMdrain (d : Reg) (a : Src) (t : DrainTy) (s : State) : Out := opWord d a 13 t s
/-- MZERO. -/
def execMzero (d : Reg) (a : Src) (s : State) : Out := opWord d a 14 .raw s

/-! ## Waits (R318, R320, R326) -/

/-- The clause of an environment starts to wait. -/
def WEnv.waitFor (e : WEnv) (s : State) (w : Wait) : State :=
  modGroup s e.core e.grp fun g => g.setPort e.second ((g.port e.second).map fun k => { k with wait := w })

/-- MWAIT (R318): a value beyond the last number issued is illegal; one already reached returns at once. -/
def execMwait (p : Fin 8) (a : Src) (s : State) : Out :=
  runWord { ops := [a], phase := .restricted } (fun e s =>
    let v := e.src s e.low a
    if (getCore s e.core).eng.issued < v.toNat then (s, e.trapAll 0x01 0 0)
    else (mwaitReturn (e.waitFor s (.mwait v p)) e.core e.grp e.second, [])) s

/-- MSTAT (R320). -/
def execMstat (d : Reg) (a : Src) (s : State) : Out :=
  runWord { ops := [a], dst := [d], phase := .restricted } (fun e s =>
    let v := e.src s e.low a
    if fld v 63 2 ≠ 0 then (s, e.trapAll 0x01 0 0)
    else if bit v 0 then (mstatFinish (e.waitFor s (.mstat (bit v 1) d)) e.core e.grp e.second, [])
    else
      let eng := (getCore s e.core).eng
      e.writeAll s d fun _ => if bit v 1 then wd eng.firsterr else eng.estat) s

/-- AWAIT (R326). -/
def execAwait (a : Src) (s : State) : Out :=
  runWord { ops := [a], phase := .restricted } (fun e s =>
    let v := e.src s e.low a
    if (getCore s e.core).asy.issued < v.toNat then (s, e.trapAll 0x01 0 0)
    else (awaitReturn (e.waitFor s (.await v)) e.core e.grp e.second, [])) s

/-- MWAIT_RETURN (R318): a clause whose last word was the MWAIT ends here. -/
def execMwaitReturn (die : Fin 8) (core : Fin 128) (grp : Fin 8) (second : Bool) (s : State) : Out :=
  let c := coreNum die core
  .next (endWoken (mwaitReturn s c grp second) c [grp])

/-- MSTAT_CLEAR_COMPLETE (R320): as MWAIT_RETURN. -/
def execMstatClearComplete (die : Fin 8) (core : Fin 128) (grp : Fin 8) (s : State) : Out :=
  let c := coreNum die core
  .next (endWoken (mstatFinish (mstatFinish s c grp false) c grp true) c [grp])

/-- AWAIT_RETURN (R326): as MWAIT_RETURN. -/
def execAwaitReturn (die : Fin 8) (core : Fin 128) (grp : Fin 8) (second : Bool) (s : State) : Out :=
  let c := coreNum die core
  .next (endWoken (awaitReturn s c grp second) c [grp])

/-! ## Witness commands (R321 to R325) -/

/-- AWIT (R323): the open block is read at issue, the context opens, and the audit pair is asked for. -/
def execAwit (d : Reg) (a : Src) (s : State) : Out :=
  runWord { ops := [a], dst := [d], phase := .restricted, need := asyNeed (awitOk a) } (fun e s =>
    let v := e.src s e.low a
    match blockFault v 48 with
    | some k => (s, e.trapAll k 1 v)
    | none =>
      let co := getCore s e.core
      let f := fun (o n : Nat) => memRead co.spad (v.toNat + o) n
      if openBad co co.spad v.toNat then (s, e.trapAll 0x01 0 0)
      else
        let pt := partOf s e.core
        let fixedr := bit s.gran.chkMode 0
        let pair := auditPair fixedr pt.taskid.toNat pt.phase.toNat (f 4 4) pt.execs
        let s := modAsy s e.core fun x =>
          { x with
              ctxs := x.ctxs ++ [{ uid := x.nextUid, num := f 0 1, kind := f 1 1, func := f 2 1,
                                   opid := BitVec.ofNat 32 (f 4 4), refs := BitVec.ofNat 288 (f 8 36), phase := pt.phase,
                                   alpha := pair.1, beta := pair.2, fixedr := fixedr, ready := false, closing := false,
                                   incomplete := false, engerr := false, nops := 0, x := 0, y := 0, items := [] }]
              queue := x.queue ++ [.awit x.nextUid], issued := x.issued + 1, nextUid := x.nextUid + 1 }
        e.writeAll s d fun _ => wd (getCore s e.core).asy.issued) s

/-- AEMIT (R324): one item for each lane whose descriptor passes, in ascending lane number. -/
def execAemit (c : Fin 8) (a b : Src) (s : State) : Out :=
  runWord { ops := [a, b], phase := .restricted, need := asyNeed (aemitOk c b) } (fun e s =>
    match (getCore s e.core).asy.openCtx c with
    | none => (s, e.trapAll 0x01 0 0)
    | some k =>
      if k.kind = 1 then (s, e.trapAll 0x01 0 0)
      else
        let bad := e.lanes.filter fun l => itemBad k.kind (e.src s l b)
        let items := (e.lanes.filter fun l => !itemBad k.kind (e.src s l b)).map fun l =>
          ({ cls := fld (e.src s l b) 1 0, index := fld (e.src s l b) 63 32, value := e.src s l a } : Item)
        let s := if items.isEmpty then s
          else modAsy s e.core fun x =>
            { x with queue := x.queue ++ [.aemit k.uid items], issued := x.issued + 1 }
        (s, bad.map fun l => { lane := l, cause := 0x01, access := 0, addr := 0 })) s

/-- ACLOSE (R325). -/
def execAclose (d : Reg) (c : Fin 8) (s : State) : Out :=
  runWord { dst := [d], phase := .restricted, need := asyNeed fun e s => ((getCore s e.core).asy.openCtx c).isSome } (fun e s =>
    match (getCore s e.core).asy.openCtx c with
    | none => (s, e.trapAll 0x01 0 0)
    | some k =>
      let s := modAsy s e.core fun x =>
        { x.modCtx k.uid (fun k => { k with closing := true }) with
            queue := x.queue ++ [.aclose k.uid], issued := x.issued + 1 }
      e.writeAll s d fun _ => wd (getCore s e.core).asy.issued) s

end Sys2Proof.Machine
end

