-- ==== Sys2Proof/Machine/Rail.lean ====
section
/-!
DEFINITION. Machine/Rail.lean: the current of a string and of a die's rail, the hottest core of a die, and what a change of any
of them does to the power states of the die's strings (R184, R186, R189). Currents and temperatures are inputs (log entry 9).
-/
namespace Sys2Proof.Machine

/-! ## Currents (R176, R184) -/

/-- The current of a string: the mean of its four cores, in quarters of a mA. -/
def strCurrent4 (s : State) (n : Nat) : Nat := sumOf ((strCores n).map fun c => (getCore s c).current)

/-- The rail current of a die, in quarters of a mA. -/
def railCurrent4 (s : State) (d : Nat) : Nat := sumOf ((List.range 32).map fun i => strCurrent4 s (32 * d + i))

/-- LIMIT_MA and SOFT_PCT of a die (R186). -/
def limitMa (x : Die) : Nat := fld x.railIlim 16 0
def softPct (x : Die) : Nat := fld x.railIlim 23 17

/-- The rail current exceeds the soft level; it exceeds the limit (R184, R186). -/
def softOver (s : State) (d : Nat) : Bool := decide (4 * limitMa (getDie s d) * softPct (getDie s d) < 100 * railCurrent4 s d)
def limitOver (s : State) (d : Nat) : Bool := decide (4 * limitMa (getDie s d) < railCurrent4 s d)

/-- THERM.TEMP of a core, and of the hottest core of a die (R189). -/
def tempOf (co : Core) : Nat := fld co.therm 31 16
def hottest (s : State) (d : Nat) : Nat := maxOf ((List.range 128).map fun i => tempOf (getCore s (128 * d + i)))

/-- The thresholds of R189 in units of 1/16 degree. -/
def warm : Nat := 95 * 16
def hot : Nat := 105 * 16
def tripTemp : Nat := 115 * 16

/-! ## The power state of a string (R184) -/

/-- A cause of the row of R184 that takes any state to 2: a hard response, a hot core, an emergency drop in progress, or a
rail above its limit. -/
def cause2 (s : State) (n : Nat) : Bool :=
  let d := n / 32
  (getStr s n).hard || decide (hot ≤ hottest s d) || ((getDie s d).transition && !(getDie s d).hop) || limitOver s d

/-- The rail still exceeds the soft level and the string draws no less than before it entered state 1. -/
def notLower (s : State) (n : Nat) : Bool :=
  softOver s (n / 32) && (match (getStr s n).before with
    | some b => decide (b ≤ strCurrent4 s n)
    | none => false)

/-- What a state's way down needs holds now. -/
def powerQuiet (s : State) (n : Nat) : Bool :=
  if (getStr s n).pwr = 1 then !softOver s (n / 32) else if (getStr s n).pwr = 2 then !cause2 s n && !notLower s n else false

/-- A cause of state 2 takes every string of a die that has one there at once (R184); and note since when the way down of every
string has been open. -/
def refreshPower (s : State) (d : Nat) : State :=
  (List.range 32).foldl (fun s i =>
    let n := 32 * d + i
    let s := if (getStr s n).pwr ≠ 2 ∧ cause2 s n then modStr s n fun x => { x with pwr := 2, clearSince := none } else s
    let since := if powerQuiet s n then some ((getStr s n).clearSince.getD s.time) else none
    if since = (getStr s n).clearSince then s else modStr s n fun x => { x with clearSince := since }) s

end Sys2Proof.Machine
end

