-- ==== Sys2Proof/Machine/Xch.lean ====
section
/-!
DEFINITION. Machine/Xch.lean: posting exchange words (R264 to R270, R277 to R282).
-/
namespace Sys2Proof.Machine

/-- The far kinds that a member accepts (R266). -/
def farOk (op far : Nat) : Bool := if op = 2 then decide (far = 0) else if op = 0 then decide (far = 0) || decide (far = 2) else decide (far ≤ 2)

/-- One lane's posting: the fields of R270 that its operands give, with what the checks of R267 look at. -/
structure Posting where
  op : Nat
  ty : Nat
  ctl : Word
  spad : Word
  far : Word
  far2 : Option Word
  deriving DecidableEq, Repr

/-- LEN, FAR, GATE and QW of a control word (R266). -/
def Posting.len (p : Posting) : Nat := fld p.ctl 31 0
def Posting.farKind (p : Posting) : Nat := fld p.ctl 63 62
def Posting.gate (p : Posting) : Bool := bit p.ctl 61
def Posting.qw (p : Posting) : Nat := fld p.ctl 53 48

/-- Check 1 of R267. -/
def Posting.illegal (p : Posting) (gated : Bool) : Bool :=
  decide (fld p.ctl 60 54 ≠ 0) || decide (fld p.ctl 47 32 ≠ 0) || !farOk p.op p.farKind ||
    (decide (p.op ≠ 9) && decide (p.qw ≠ 0)) || (p.gate && !gated) ||
    (decide (1 ≤ p.farKind) && p.far2.isNone) || (decide (p.farKind = 2) && decide (fld p.far 63 48 ≠ 0))

/-- The values that checks 2 and 3 of R267 look at, in their order after LEN: each with its access kind (R339), whether
check 2 bounds it, and the value that must be a multiple of 16. XCPY has two global addresses, its destination first. -/
def Posting.sides (p : Posting) : List (Nat × Bool × Word) :=
  let near := if p.op = 0 then 2 else 1
  let farDir := if p.op = 0 then 1 else 2
  if p.op = 2 then [(2, false, p.far), (1, false, p.spad)]
  else
    let f : Nat × Bool × Word :=
      match p.farKind with
      | 0 => (farDir, false, p.far)
      | 1 => (farDir, true, p.far2.getD 0)
      | _ => (farDir, false, wd (fld (p.far2.getD 0) 45 0))
    [(near, true, p.spad), f]

/-- The first failure of checks 1 to 4 of R267 for a lane: cause, access kind, address. -/
def Posting.check (p : Posting) (co : Core) : Option (Byte × Nat × Word) :=
  if p.illegal co.exch.gate.isSome then some (0x01, 0, 0)
  else
    match p.sides.find? fun x => x.2.1 && decide (spadEnd < x.2.2.toNat + p.len) with
    | some x => some (0x03, x.1, x.2.2)
    | none =>
      if p.len % 16 ≠ 0 then some (0x04, 0, wd p.len)
      else
        match p.sides.find? fun x => decide (x.2.2.toNat % 16 ≠ 0) with
        | some x => some (0x04, x.1, x.2.2)
        | none =>
          if qwDepth co.xq ≤ qCount co.spad (qwBase co.xq) (qwDepth co.xq) ∨ 2 ^ 32 - 1 < co.exch.xpend + p.len then
            some (0x06, 0, 0)
          else none

/-- Append an entry to the exchange queue: TAIL, XPEND and, for a non-idempotent reduction, XTAG move on (R269). -/
def postEntry (s : State) (c : Nat) (e : XEnt) : State :=
  modCore s c fun x =>
    let tag := nonIdem e.op
    let e := { e with tag := if tag then x.exch.xtag else 0 }
    { x with spad := qAppend x.spad (qwBase x.xq) (qwDepth x.xq) 32 (xentBytes e), eng := x.eng.acquired
             exch := { x.exch with xpend := x.exch.xpend + e.len, xtag := if tag then x.exch.xtag + 1 else x.exch.xtag } }

/-- ORIGIN of an entry (R270). -/
def originOf (grp lane : Nat) : BitVec 8 := BitVec.ofNat 8 (32 * grp + lane)

/-- The entry of a lane's posting (R270). -/
def Posting.entry (p : Posting) (grp lane : Nat) : XEnt :=
  let copy := decide (p.op = 2)
  { op := p.op, ty := p.ty, ctl := BitVec.ofNat 8 (p.farKind + 4 * b2n p.gate), qw := p.qw, origin := originOf grp lane,
    state := 0, tag := 0, len := p.len, spad := if copy then 0 else p.spad.toNat, fara := p.far
    farb := if copy then p.spad else if p.farKind = 0 then 0 else p.far2.getD 0 }

/-- A per-lane member (R267): lanes post in ascending number; a lane whose LEN is 0 posts nothing. `near` is the scratchpad
operand (the source address of XCPY), `far` the far operand. -/
def postWord (op ty : Nat) (near far b : Src) : State → Out :=
  runWord { ops := [near, far, b] ++ (pairOf far).toList, phase := .restricted } fun e s =>
    e.lanes.foldl (fun (acc : WRes) l =>
      let p : Posting := { op := op, ty := ty, ctl := e.src s l b, spad := e.src s l near, far := e.src s l far,
                           far2 := (pairOf far).map (e.src s l) }
      if p.len = 0 then acc
      else
        match p.check (getCore acc.1 e.core) with
        | some k => (acc.1, acc.2 ++ [{ lane := l, cause := k.1, access := k.2.1, addr := k.2.2 }])
        | none => (postEntry acc.1 e.core (p.entry e.grp l), acc.2)) (s, [])

/-- XLD (R264). -/
def execXld (d a b : Src) (s : State) : Out := postWord 0 0 d a b s
/-- XST. -/
def execXst (d a b : Src) (s : State) : Out := postWord 1 0 a d b s
/-- XCPY. -/
def execXcpy (d a b : Src) (s : State) : Out := postWord 2 0 a d b s
/-- The type code of a reduction (R264). -/
def redTy (signed : Bool) : Nat := if signed then 3 else 7
/-- XRED.ADD. -/
def execXredAdd (d a b : Src) (signed : Bool) (s : State) : Out := postWord 3 (redTy signed) a d b s
/-- XRED.MIN. -/
def execXredMin (d a b : Src) (signed : Bool) (s : State) : Out := postWord 4 (redTy signed) a d b s
/-- XRED.MAX. -/
def execXredMax (d a b : Src) (signed : Bool) (s : State) : Out := postWord 5 (redTy signed) a d b s
/-- XRED.AND. -/
def execXredAnd (d a b : Src) (signed : Bool) (s : State) : Out := postWord 6 (redTy signed) a d b s
/-- XRED.OR. -/
def execXredOr (d a b : Src) (signed : Bool) (s : State) : Out := postWord 7 (redTy signed) a d b s
/-- XRED.XOR. -/
def execXredXor (d a b : Src) (signed : Bool) (s : State) : Out := postWord 8 (redTy signed) a d b s
/-- XRED.MADD. -/
def execXredMadd (d a b : Src) (s : State) : Out := postWord 9 7 a d b s

/-! ## Lowest-lane members (R268) -/

/-- The queue has no free entry. -/
def xqFull (co : Core) : Bool := decide (qwDepth co.xq ≤ qCount co.spad (qwBase co.xq) (qwDepth co.xq))

/-- A lowest-lane member: its value's check, the queue-full test, one entry; `after` follows the posting. -/
def postLow (a : Src) (priv : Bool) (ok : State → Word → Bool) (ent : Word → XEnt) (after : Word → Exch → Exch) :
    State → Out :=
  runWord { ops := [a], priv := priv, phase := .restricted } fun e s =>
    let v := e.src s e.low a
    if ¬ ok s v then (s, e.trapAll 0x01 0 0)
    else if xqFull (getCore s e.core) then (s, e.trapAll 0x06 0 0)
    else (modExch (postEntry s e.core { ent v with origin := originOf e.grp e.low }) e.core (after v), [])

/-- An entry with every field zero but its operation and its value. -/
def lowEnt (op : Nat) (fara : Word) : XEnt :=
  { op := op, ty := 0, ctl := 0, qw := 0, origin := 0, state := 0, tag := 0, len := 0, spad := 0, fara := fara, farb := 0 }

/-- XFENCE (R278). -/
def execXfence (a : Src) (s : State) : Out :=
  postLow a false (fun _ v => decide (fld v 63 17 = 0) && decide (fld v 15 8 = 0))
    (fun v => { lowEnt 10 0 with ctl := if bit v 16 then 8 else 0, spad := fld v 15 0 }) (fun _ x => x) s

/-- XPROM (R279). -/
def execXprom (a : Src) (s : State) : Out :=
  postLow a true (fun _ v => decide (fld v 63 3 = 0)) (lowEnt 11) (fun _ x => x) s

/-- A tensor table index (R280). -/
def indexOk (s : State) (v : Word) : Bool := decide (fld v 63 20 = 0) && decide (v.toNat < ttCount s)

/-- TOPEN (R280). -/
def execTopen (a : Src) (s : State) : Out := postLow a false indexOk (lowEnt 12) (fun _ x => x) s

/-- TSEAL (R280). -/
def execTseal (a : Src) (s : State) : Out := postLow a false indexOk (lowEnt 13) (fun _ x => x) s

/-- XCNT (R277): it sets the core's gate value. -/
def execXcnt (a : Src) (s : State) : Out :=
  postLow a false (fun _ _ => true) (lowEnt 14) (fun v x => { x with gate := some v }) s

/-- XQSET (R282): the queue's entries are dropped, its header zeroed, the gate cleared and the control word replaced. -/
def execXqset (a : Src) (s : State) : Out :=
  runWord { ops := [a], priv := true, phase := .restricted } (fun e s =>
    let co := getCore s e.core
    let v := e.src s e.low a
    if ¬ queueOk (e.codeSegs s) [(e.scoped s).alogq, (e.scoped s).noteq] true v then (s, e.trapAll 0x01 0 0)
    else
      let dropped := sumOf ((xqAll co).map fun q => (getEnt s e.core q).len)
      (modCore s e.core fun x =>
        { x with xq := v
                 exch := { x.exch with xpend := x.exch.xpend - dropped, gate := none }, eng := x.eng.acquired
                 spad := if qwDepth v = 0 then x.spad else memWrite x.spad (qwBase v) (leBytes 12 0) }, [])) s

end Sys2Proof.Machine
end

