-- ==== Sys2Proof/Machine/Launch.lean ====
section
/-!
DEFINITION. Machine/Launch.lean: the launch record (R202), dispatch and its refusals (R203 to R205), bind records, admission
and starts (R209 to R212), and what every phase flip and abort shares (R185, R190 to R192, R201).
-/
namespace Sys2Proof.Machine

/-! ## Shared operations on a partition -/

/-- The physical cores of a partition, in logical order; an evicted one has none (R368). -/
def partCores (s : State) (p : Nat) : List Nat := if (getPart s p).evicted then [] else (getPart s p).lmap

/-- The strings bound to a partition. -/
def boundStrings (s : State) (p : Nat) : List Nat :=
  (getPart s p).strings.filter fun n => decide ((getStr s n).part = some p)

/-- Change every core of a partition. -/
def modCores (s : State) (p : Nat) (f : Core → Core) : State := (partCores s p).foldl (fun s c => modCore s c f) s

/-- Test the phase state of every core of a partition again: a core whose groups have all finished reports at once (R191). -/
def testCores (s : State) (p : Nat) : State := (partCores s p).foldl retest s

/-- The partition's timers restart (R201, R467). -/
def restartTimers (s : State) (p : Nat) : State :=
  modPart s p fun x => { x with stragAt := s.time, stragPosted := false, wdogAt := s.time, wdogDone := false }

/-- The phase counter advances by one, and the timers restart (R190, R201, R467). -/
def advancePhase (s : State) (p : Nat) : State := restartTimers (modPart s p fun x => { x with phase := x.phase + 1 }) p

/-- Latch PWRSTATE on every core for superstep `k`, the value kept for a re-execution where there is one (R185, R412). -/
def latchPower (s : State) (p k : Nat) : State :=
  (List.range (partCores s p).length).foldl (fun s n =>
    let c := ((partCores s p)[n]?).getD 0
    let kept := spGet [] (getPart s p).latches k
    let v := (spFind kept n).getD (getStr s (strOf c)).pwr
    let s := modCore s c fun x => { x with pwrLatch := v }
    modPart s p fun x => { x with latches := spSet x.latches k (spSet (spGet [] x.latches k) n v) }) s

/-- The mean current of the mates of a core that hold a logical core, never above LEVEL_MA: what a vacant core's filler, or a
ballast core's, is trimmed to (R178, R183, R373). -/
def trackedCurrent (s : State) (c : Nat) : Option Nat :=
  let n := strOf c
  let mates := (strCores n).filter fun k => decide (k ≠ c) && (getCore s k).part.isSome && !(getCore s k).ballast
  if mates.isEmpty then none
  else some (min (sumOf (mates.map fun k => (getCore s k).current) / mates.length) (fld (getStr s n).filler 11 0))

/-- A core of a bound string that holds no logical core, or a ballast core, follows its string-mates (R183, R373). -/
def trackStr (s : State) (n : Nat) : State :=
  (strCores n).foldl (fun s c =>
    match trackedCurrent s c with
    | some i =>
      if ((getCore s c).part.isNone ∧ (getStr s n).part.isSome) ∨ (getCore s c).ballast then
        modCore s c fun x => { x with current := i }
      else s
    | none => s) s

/-- Filler ramps each core of a partition up to the launch record's declared peak current at SLOPE_MA, its vacant string-mates
with it; the ramp takes its time, and the power states answer the new currents (R182, R184, R372, R373). FILLER_LEVEL.LEVEL_MA of R178 does
not bound it (log entry 79). -/
def rampUp (s : State) (p : Nat) : State :=
  let peak := ((getPart s p).launch.getD Launch.zero).peak
  let ns := (partCores s p).map fun c =>
    let co := getCore s c
    let slope := fld (getDie s (dieOf c)).flipSlew 15 0
    if slope = 0 then 0 else ((peak - co.current) * 1000 + slope - 1) / slope
  let s := (partCores s p).foldl (fun s c => modCore s c fun co => { co with current := max co.current peak }) s
  let strs := boundStrings s p
  (strs.map (· / 32)).eraseDups.foldl refreshPower { strs.foldl trackStr s with time := s.time + maxOf ns }

/-- A group begins a compute phase: marks, synced state and vote clear (R193). -/
def Group.beginCompute (g : Group) : Group :=
  { g with synced := false, vote := false, lanes := g.lanes.map fun l => (l.1, { l.2 with mark := false }) }

/-- A core begins a compute phase: marks, synced state and votes clear, scratchpad marks of the exchange phase go, the
consumed queue entries leave the queue, a PWRP declaration takes effect (R120, R193, R256, R272). -/
def Core.beginCompute (co : Core) : Core :=
  let gs := co.groups.map fun e => (e.1, e.2.beginCompute)
  let b := qwBase co.xq
  { co with
    groups := gs, pst := .compute, eng := co.eng.acquired
    spad := if qwDepth co.xq = 0 then co.spad else memStore co.spad b 4 (qTail co.spad b)
    exch := { co.exch with marks := [], start := [], applied := [], resent := [], xlat := [], gate := none }
    energy := co.energyNext.getD co.energy, peak := co.peakNext.getD co.peak, energyNext := none, peakNext := none
    named := false }

/-- The queued work of a core is dropped: matrix operations, assay commands and contexts, and clauses in flight. -/
def Core.stop (co : Core) : Core :=
  let gs := co.groups.map fun e => (e.1, { e.2 with c0 := none, c1 := none, released := [], out := [], flags := [] })
  { co with groups := gs, eng := { co.eng with queue := [], raced := [], unseen := [] }, asy := { co.asy with queue := [], ctxs := [] } }

/-- The task goes to ABORTING: issue and transfers stop, and it is no longer about to be held (R192). -/
def abortPart (s : State) (p : Nat) : State :=
  let x := getPart s p
  if x.launch.isNone ∨ x.st = .aborting then s
  else modPart s p fun x => { x with st := .aborting, waitStart := false, holding := none }

/-- The die of a string holds tasks: released at boot, not excluded, its rail not cut (R357, R419, R430). -/
def dieUsable (s : State) (d : Nat) : Bool :=
  bit s.gran.present d && !bit s.gran.excluded d && !(getDie s d).tripped

/-- A string is not excluded, and its die can hold a task (R419, R430). -/
def stringUsable (s : State) (n : Nat) : Bool := !(getStr s n).excluded && dieUsable s (n / 32)

/-! ## The launch record (R202) -/

/-- The fields of a launch record that lie within its 512 bytes, raw. -/
structure LrRaw where
  format : Nat
  groups : Nat
  trappol : BitVec 8
  flags : BitVec 8
  seed : Word
  keyh : Word
  start : Word
  strmask : BitVec 256
  imgVa : Word
  imgLen : Nat
  segw : List Word
  alogq : Word
  xq : Word
  noteq : Word
  entry : BitVec 32
  handler : BitVec 32
  k : List Word
  energy : Nat
  peak : Nat
  audit : Word
  strag : Word
  mapVa : Word
  succ : List Word
  rsv : Nat
  deriving DecidableEq, Repr

/-- The launch record in its 512 bytes. -/
def lrOf (b : List Byte) : LrRaw :=
  let f := fun (o n : Nat) => leNat ((b.drop o).take n)
  let ws := fun (o n : Nat) => (List.range n).map fun i => wd (f (o + 8 * i) 8)
  { format := f 0 2, groups := f 2 1, trappol := BitVec.ofNat 8 (f 3 1), flags := BitVec.ofNat 8 (f 4 1), seed := wd (f 8 8),
    keyh := wd (f 0x10 8), start := wd (f 0x18 8), strmask := BitVec.ofNat 256 (f 0x20 32), imgVa := wd (f 0x40 8),
    imgLen := f 0x48 4, segw := ws 0x50 4, alogq := wd (f 0x70 8), xq := wd (f 0x78 8), noteq := wd (f 0x80 8),
    entry := BitVec.ofNat 32 (f 0x88 4), handler := BitVec.ofNat 32 (f 0x8C 4), k := ws 0x90 16, energy := f 0x110 4,
    peak := f 0x114 2, audit := wd (f 0x118 8), strag := wd (f 0x120 8), mapVa := wd (f 0x128 8), succ := ws 0x140 4,
    rsv := f 5 3 + f 0x4C 4 + f 0x116 2 + f 0x130 16 + f 0x160 160 }

/-- What the hardware keeps of a launch record while its task runs. -/
def LrRaw.keep (r : LrRaw) (va : Word) : Launch :=
  { groups := r.groups, handle := bit r.trappol 0, dztrap := bit r.trappol 1, system := bit r.flags 0, timed := bit r.flags 1,
    seed := r.seed, keyh := r.keyh, start := r.start, strmask := r.strmask, imgVa := r.imgVa, imgLen := r.imgLen,
    segw := r.segw, alogq := r.alogq, xq := r.xq, noteq := r.noteq, entry := (r.entry &&& 0xFFFFC).setWidth 20,
    handler := (r.handler &&& 0xFFFFC).setWidth 20, k := r.k, energy := r.energy, peak := r.peak, audit := r.audit,
    strag := r.strag, lrVa := va }

/-- The launch record at a bind record's LR_VA, read through the partition's tables by the die that dispatches it, at
whatever alignment (log entry 57). -/
def readLr (s : State) (d p : Nat) (va : Word) : Option LrRaw := (readVa s d p va.toNat 512).map lrOf

/-- The strings of a launch record. -/
def LrRaw.strings (r : LrRaw) : List Nat := bitList r.strmask

/-! ## The logical core map (R204) -/

/-- The cores of some strings that are not ballast, ascending. -/
def coresOf (s : State) (strs : List Nat) : List Nat := (strs.flatMap strCores).filter fun c => !(getCore s c).ballast

/-- The map of R204 over some strings: the default one, or the table at `va`; none where the table is refused, which a table
at an odd address is too (log entry 57). -/
def mapOf (s : State) (d p : Nat) (va : Word) (strs : List Nat) : Option (List Nat) :=
  let pool := coresOf s strs
  if va = 0 then some pool
  else if va.toNat % 2 ≠ 0 then none
  else
    match readVa s d p va.toNat (2 * pool.length) with
    | none => none
    | some b =>
      let m := (List.range pool.length).map fun i => leNat ((b.drop (2 * i)).take 2)
      if (m.all fun c => pool.contains c) ∧ m.eraseDups.length = m.length then some m else none

/-! ## Refusals (R203) -/

/-- A reserved bit of the launch record is set (cause 0x02). -/
def LrRaw.reserved (r : LrRaw) : Bool :=
  decide (r.rsv ≠ 0) || decide (fld r.trappol 7 2 ≠ 0) || decide (fld r.flags 7 2 ≠ 0) ||
    decide (r.entry &&& 0xFFF00003 ≠ 0) || decide (r.handler &&& 0x7FF00003 ≠ 0) || decide (fld r.audit 63 48 ≠ 0) ||
    decide (fld r.audit 23 22 ≠ 0) || decide (fld r.strag 63 40 ≠ 0) || r.succ.any fun x => decide (fld x 63 48 ≠ 0)

/-- A string that a task of partition `p` may not take: excluded, or bound to another partition (cause 0x08). -/
def stringTaken (s : State) (p n : Nat) : Bool :=
  !stringUsable s n || (match (getStr s n).part with
    | some q => decide (q ≠ p)
    | none => false)

/-- The handle names a sealed key (R437). -/
def keySealed (s : State) (h : Word) : Bool :=
  let k := getKey s (fld h 5 0)
  decide (fld h 63 48 = 0) && decide (fld h 31 6 = 0) && decide (fld h 5 0 ≠ 0) && decide (k.state = .loaded) && !k.exp &&
    !k.bound && decide (fld h 47 32 = k.sealcnt.toNat)

/-- An incomplete scrub list keeps a string back: no new owner takes it, whatever bound it before a reset (R444, R465). -/
def strListed (s : State) (n : Nat) : Bool :=
  s.parts.any fun e => decide (e.2.scrub.done < e.2.scrub.units.length) && e.2.scrub.strings.contains n

/-- A string that no task holds and that a task may take: not excluded, unbound, on no incomplete scrub list (R368, R374,
R415, R444). -/
def stringFree (s : State) (n : Nat) : Bool := stringUsable s n && (getStr s n).part.isNone && !strListed s n

/-- An incomplete scrub list names the string or the partition (R444). -/
def scrubPending (s : State) (p : Nat) (strs : List Nat) : Bool :=
  decide ((getPart s p).scrub.done < (getPart s p).scrub.units.length) || strs.any (strListed s)

/-- AUDITPOL fails a case of R409. -/
def auditBad (s : State) (a : Word) (cores : List Nat) : Bool :=
  (bit a 20 && (decide (ttCount s ≤ fld a 19 0) || decide ((getGen s (fld a 19 0)).state ≠ 5))) ||
    (decide (fld a 31 24 ≠ 0) && cores.any fun c => !bit (getCore s c).ckptBase 0)

/-- The three queue control words of a launch record pass R215 together. -/
def queuesOk (r : LrRaw) : Bool :=
  let seg3 := [r.segw.getD 3 0]
  queueOk seg3 [] false r.alogq && queueOk seg3 [r.alogq] true r.xq && queueOk seg3 [r.alogq, r.xq] true r.noteq

/-- The first case of R203 that applies, or none. -/
def refusal (s : State) (d p : Nat) (host : Bool) (diemask : BitVec 16) (r : LrRaw) : Option Nat :=
  let seg := fun (n : Nat) => r.segw.getD n 0
  let lim := segLimit (seg 3)
  let map := mapOf s d p r.mapVa r.strings
  if r.format ≠ 1 then some 0x01
  else if r.reserved then some 0x02
  else if r.groups < 1 ∨ 8 < r.groups ∨ r.energy < 1 ∨ r.peak < 1 ∨ 2700 < r.peak then some 0x03
  else if bit r.flags 0 ∧ host then some 0x04
  else if ¬ segsOk seg then some 0x05
  else if lim ≤ r.entry.toNat ∨ (bit r.handler 31 ∧ lim ≤ r.handler.toNat % 2 ^ 20) then some 0x06
  else if 786432 < r.imgLen ∨ r.imgLen % 16 ≠ 0 then some 0x07
  else if r.strings.isEmpty ∨ r.strings.any (stringTaken s p) then some 0x08
  else if r.keyh ≠ 0 ∧ ¬ keySealed s r.keyh then some 0x09
  else if map.isNone then some 0x0A
  else if ¬ queuesOk r then some 0x0B
  else if scrubPending s p r.strings then some 0x0C
  else if ¬ bit (getPart s p).troot 0 then some 0x0D
  else if bit r.trappol 0 ∧ ¬ bit r.handler 31 then some 0x0E
  else if auditBad s r.audit (map.getD []) then some 0x0F
  else if diemask.toNat ≥ 256 then some 0x10
  else none

/-! ## Setting up the cores (R205) -/

/-- No line of a run of physical bytes is sealed. -/
def unsealed (s : State) (pa n : Nat) : Bool :=
  s.side.all fun x => decide (x.lo + x.count ≤ pa / 64) || decide ((pa + n + 63) / 64 ≤ x.lo)

/-- Bytes at a global virtual address, by offset, as `readVa` reads them; a page that cannot be read gives free values (log
entry 6), and a base at any alignment is taken as it stands (log entry 57). -/
def readImage (s : State) (d p : Nat) : Nat → Nat → Nat → Nat → Mem
  | 0, _, _, _ => []
  | fuel + 1, va, at_, len =>
    if len = 0 then []
    else
      let n := min len (65536 - va % 65536)
      let here :=
        match translateVa s d p va false with
        | .ok l =>
          if unsealed s (l.readPa d va) n then (memSlice s.vault (l.readPa d va) n).map fun c => (at_ + c.1, c.2)
          else memOf at_ ((List.range n).map fun i => byteAt s d p (va + i) l)
        | .error _ => memOf at_ ((List.range n).map fun i => Config.brokenByte (va + i) s.ticks)
      here ++ readImage s d p fuel (va + n) (at_ + n) (len - n)

/-- The image of a launch record, in scratchpad addresses. -/
def imageOf (s : State) (d p : Nat) (l : Launch) : Mem := readImage s d p (l.imgLen / 65536 + 2) l.imgVa.toNat 0 l.imgLen

/-- A lane at the start of a task (R29). -/
def startLane (l : Launch) : Lane := { Lane.zero with pc := l.entry, fstat := if l.dztrap then 0x10000 else 0 }

/-- A group at the start of a task (R29, R139). -/
def startGroup (l : Launch) : Group :=
  { Group.zero with
    k := (List.range 16).foldl (fun m i => spPut 0 m i (l.k.getD i 0)) []
    seg := (List.range 4).foldl (fun m i => spPut 0 m i (l.segw.getD i 0)) []
    trapvec := l.handler.setWidth 64
    lanes := (List.range 32).map fun i => (i, startLane l) }

/-- A core set up for logical core `n` of partition `p` (R31, R205, R269, R286, R306, R319). Issue starts as after a restore
(R361): group 0 selected, C = 0, no word issued yet (log entry 54). -/
def startCore (p n : Nat) (l : Launch) (img : Mem) (co : Core) : Core :=
  { co with
    part := some p, lcore := n, ngroups := l.groups, groups := (List.range l.groups).map fun g => (g, startGroup l)
    spad := img, sel := 0, cnt := 0, alogq := l.alogq, xq := l.xq, noteq := l.noteq, bars := [], pst := .compute
    exch := Exch.zero, eng := Engine.zero, asy := Assay.zero, energy := l.energy, peak := l.peak, energyNext := none
    peakNext := none }

/-- A core cleared under R31: it holds no logical core and every register and byte reads zero. -/
def clearCore (co : Core) : Core :=
  { co with
    part := none, lcore := 0, ngroups := 0, groups := [], spad := [], sel := 0, cnt := 0, alogq := 0, xq := 0, noteq := 0
    bars := [], pst := .compute, exch := Exch.zero, eng := Engine.zero, asy := Assay.zero, energyNext := none
    peakNext := none }

/-- Every tag that reductions of partition `p` left in a window (R274). -/
def clearTags (s : State) (p : Nat) : State :=
  let keep := fun (w : Sparse (List (BitVec 16))) =>
    w.filter fun e => !(decide (2 ^ 32 + 1024 * p ≤ e.1) && decide (e.1 < 2 ^ 32 + 1024 * p + 1024))
  { s with vdedup := s.vdedup.map fun e => (e.1, keep e.2) }

/-- Dispatch's work on every core of a partition whose map and record stand (R205). -/
def setupCores (s : State) (p : Nat) : State :=
  let x := getPart s p
  let l := x.launch.getD Launch.zero
  let img := imageOf s (homeDie x) p l
  (List.range x.lmap.length).foldl (fun s n => modCore s (x.lmap.getD n 0) (startCore p n l img)) (clearTags s p)

/-- The compute phase of dispatch or of a rollback to superstep 0 begins, once every core is set up (R190, R205). -/
def beginTask (s : State) (p : Nat) : State :=
  let s := latchPower s p 0
  modPart s p fun x => { x with st := .compute, waitStart := false, stragAt := s.time, stragPosted := false }

/-! ## Bind records (R209, R210) -/

/-- A bind record. -/
def getBind (s : State) (d i : Nat) : Bind := spGet Bind.zero (getDie s d).binds i

/-- Change a bind record. -/
def modBind (s : State) (d i : Nat) (f : Bind → Bind) : State :=
  modDie s d fun x => { x with binds := spPut Bind.zero x.binds i (f (spGet Bind.zero x.binds i)) }

/-- The bind records of a partition in some states: die and slot. -/
def bindsOf (s : State) (p : Nat) (ok : BindState → Bool) : List (Nat × Nat) :=
  (List.range 8).flatMap fun d =>
    ((getDie s d).binds.filter fun e => decide (e.2.part = p) && ok e.2.state).map fun e => (d, e.1)

/-- Change every bind record of a partition in some states. -/
def modBinds (s : State) (p : Nat) (ok : BindState → Bool) (f : Bind → Bind) : State :=
  (bindsOf s p ok).foldl (fun s x => modBind s x.1 x.2 f) s

/-- A record becomes REFUSED, and the host hears of it (R209, R466). -/
def refuseBind (s : State) (d i cause : Nat) : State :=
  let st := BitVec.ofNat 32 (cause * 256 + 2)
  postHost (modBind s d i fun b => { b with state := .refused, status := st })
    (hostEvent s 1 (getBind s d i).part (st.setWidth 64))

/-- A reset stopped Pumice, which has not yet taken its list up again at DONE: no Flint die accepts a bind record (R445). -/
def bindsBlocked (s : State) : Bool := s.parts.any fun e => decide (e.2.tearing = 5)

/-- Write a bind record for firmware or for the host's SUBMIT: ignored in ARMED, RUNNING and SCRUB, and on a die that accepts
none (R210, R430, R445). A write of FREE leaves what the hardware writes: ORIGIN, STATUS and RESULT (R209). -/
def writeBind (s : State) (d i : Nat) (r : BindWrite) (host : Bool) : State :=
  let b := getBind s d i
  if b.state = .armed ∨ b.state = .running ∨ b.state = .scrub ∨ ¬ bit s.gran.present d ∨ bindsBlocked s then s
  else if r.state = 1 ∧ (b.state = .free ∨ b.state = .bound) then
    modBind s d i fun b =>
      { b with lrVa := r.lrVa, strings := r.strings, part := r.part, diemask := r.diemask, state := .bound, host := host }
  else if r.state = 0 then
    modBind s d i fun b =>
      { b with lrVa := r.lrVa, strings := r.strings, part := r.part, diemask := r.diemask, state := .free }
  else s

/-- BIND_RECORD_WRITE (R209, R210). -/
def execBindRecordWrite (die : Fin 8) (slot : Fin 32) (r : BindWrite) (s : State) : Out :=
  .next (writeBind s die slot r false)

/-! ## Admission (R211) -/

/-- What a core is charged for a record: peak in mA and energy in nJ, by its own declaration where it runs a core of the
record's task, else by the record's declaration. -/
def coreCharge (s : State) (b : Bind) (c peak energy : Nat) : Nat × Nat :=
  let co := getCore s c
  if b.state = .running ∧ co.part = some b.part ∧ ¬ co.ballast then (co.peak, co.energy) else (peak, energy)

/-- The charge of a set of strings for a record with a declaration: four times their PEAKMA, and their energy. -/
def stringCharge (s : State) (b : Bind) (decl : Nat × Nat) (strs : List Nat) : Nat × Nat :=
  (strs.flatMap strCores).foldl (fun acc c =>
    let x := coreCharge s b c decl.1 decl.2
    (acc.1 + x.1, acc.2 + min x.2 (7 * x.1))) (0, 0)

/-- The declaration of a bind record: that of its task where it runs, else of the launch record it names; one that cannot be
read is charged nothing (log entry 55) and dispatch refuses it. -/
def bindDecl (s : State) (d : Nat) (b : Bind) : Nat × Nat :=
  match if b.state = .running then (getPart s b.part).launch else none with
  | some l => (l.peak, l.energy)
  | none => ((readLr s d b.part b.lrVa).map fun r => (r.peak, r.energy)).getD (0, 0)

/-- The strings of a die that a bind record names; those bound to its partition once it runs, which an evict gives up. -/
def bindStrs (s : State) (d : Nat) (b : Bind) : List Nat :=
  if b.state = .running then (boundStrings s b.part).filter fun n => decide (n / 32 = d)
  else (bitList b.strings).map fun n => 32 * d + n

/-- The charges of the ARMED and RUNNING records of a die. -/
def dieCharge (s : State) (d : Nat) : Nat × Nat :=
  ((getDie s d).binds.filter fun e => decide (e.2.state = .armed) || decide (e.2.state = .running)).foldl (fun acc e =>
    let y := stringCharge s e.2 (bindDecl s d e.2) (bindStrs s d e.2)
    (acc.1 + y.1, acc.2 + y.2)) (0, 0)

/-- A charge fits on a die beside what is already charged (R211). -/
def fitsDie (s : State) (d : Nat) (charge : Nat × Nat) : Bool :=
  let used := dieCharge s d
  let r := (getDie s d).railIlim
  decide (used.1 + charge.1 ≤ 4 * fld r 16 0) && decide (used.2 + charge.2 ≤ fld r 63 32)

/-- The BOUND records of one PART fit together on the dies that hold them: those on one die are charged with one another. -/
def bindsFit (s : State) (recs : List (Nat × Nat)) : Bool :=
  (recs.map (·.1)).eraseDups.all fun d =>
    fitsDie s d ((recs.filter fun x => decide (x.1 = d)).foldl (fun acc x =>
      let b := getBind s d x.2
      let y := stringCharge s b (bindDecl s d b) (bindStrs s d b)
      (acc.1 + y.1, acc.2 + y.2)) (0, 0))

/-- The dies that a partition's records name. -/
def diesOf (s : State) (recs : List (Nat × Nat)) : BitVec 16 :=
  recs.foldl (fun m x => m ||| (getBind s x.1 x.2).diemask) 0

/-- The interval at which the die tests a BOUND record refuses it for a reserved DIEMASK bit (R210), and where it names a
string, or the partition number, of a scrub list not yet complete (R444, R453, R455). It reads the bind record alone: a
launch record that fails an earlier case of R203 is found at dispatch (log entry 30). -/
def admitCause (s : State) (d : Nat) (b : Bind) : Option Nat :=
  if 256 ≤ b.diemask.toNat then some 0x10
  else if scrubPending s b.part ((bitList b.strings).map fun n => 32 * d + n) then some 0x0C
  else none

/-- Admit a BOUND record: it and the records of its partition on the other dies of DIEMASK become ARMED once admission passes
on every one of those dies. -/
def admitBind (d : Nat) (s : State) (i : Nat) : State :=
  let b := getBind s d i
  if b.state ≠ .bound then s
  else match admitCause s d b with
  | some cause => refuseBind s d i cause
  | none =>
    let recs := bindsOf s b.part fun x => decide (x = .bound)
    let want := bitList (diesOf s recs ||| BitVec.ofNat 16 (2 ^ d))
    if (want.all fun e => recs.any fun x => decide (x.1 = e)) ∧ bindsFit s recs then
      recs.foldl (fun s x => modBind s x.1 x.2 fun y => { y with state := .armed }) s
    else s

/-- ADMISSION_INTERVAL (R210, R211): the die tests its BOUND records in ascending slot order. -/
def execAdmissionInterval (die : Fin 8) (s : State) : Out :=
  .next (((getDie s die).binds.map (·.1)).foldl (admitBind die) s)

/-! ## Dispatch and the start (R203 to R205, R212, R431, R439) -/

/-- Extend a measurement register with the digest of some bytes (R431). -/
def extendMeas (s : State) (n : Nat) (digest : BitVec 512) : State :=
  modGran s fun g =>
    { g with meas := spSet g.meas n (shake512 (leBytes 64 (spGet 0 g.meas n).toNat ++ leBytes 64 digest.toNat)) }

/-- The parts of a partition that a task's dispatch sets; what firmware set for the partition number stays. The watchdog's
timer restarts (R467). -/
def freshPart (x : Part) (task : Word) (strs lmap : List Nat) (l : Launch) (late : Bool) (now : Nat) : Part :=
  { Part.zero with
    hold := x.hold, stragLimit := l.strag, strings := strs, lmap := lmap, launch := some l, taskid := task, late := late
    waitStart := l.timed, troot := x.troot, savecnt := x.savecnt, savedSeq := x.savedSeq, ndrop := x.ndrop, ctxStatus := x.ctxStatus
    ctxMap := x.ctxMap, ctxSeq := x.ctxSeq, migStatus := x.migStatus, wdog := x.wdog, wdogAt := now
    peerCtl := x.peerCtl, scrub := x.scrub
    ckpts := [{ ss := 0, num := 0, seq := 0, result := 0, resw := [], bases := [] }], nckpt := 1 }

/-- The partition's dispatched records become RUNNING and its cores start together (R205, R210, R212). -/
def startBinds (s : State) (p : Nat) : State :=
  beginTask (modBinds s p (fun x => decide (x = .armed)) fun b =>
    if b.launched then { b with state := .running, launched := false } else b) p

/-- Dispatch a record that R203 accepts. -/
def launchTask (s : State) (d p : Nat) (va : Word) (r : LrRaw) : State :=
  let map := (mapOf s d p r.mapVa r.strings).getD []
  let l := r.keep va
  let late := l.timed && decide (l.start.toNat < s.time)
  let s := modPart s p fun x => freshPart x s.gran.taskCtr r.strings map l late s.time
  let s := modGran s fun g => { g with taskCtr := g.taskCtr + 1 }
  let s := r.strings.foldl (fun s n => modStr s n fun x => { x with part := some p }) s
  let s :=
    if r.keyh = 0 then s
    else extendMeas (modKey s (fld r.keyh 5 0) fun k => { k with bound := true }) 6
      (shake512 ((readVa s d p va.toNat 256).getD []))
  let s := modBinds (setupCores s p) p (fun x => decide (x = .armed)) fun b => { b with launched := true }
  if l.timed then s else startBinds s p

/-- The partition number is free for a task: none runs, and none is held or torn down (R192, R444). -/
def partFree (x : Part) : Bool := decide (x.st = .idle) && x.launch.isNone

/-- DISPATCH (R203, R205, R210, R212): the partition's records are ARMED on every die of DIEMASK. -/
def execDispatch (part : Fin 256) (s : State) : Out :=
  let recs := bindsOf s part fun x => decide (x = .armed)
  match recs with
  | [] => .next s
  | (d, i) :: _ =>
    if ¬ partFree (getPart s part) then .next s
    else
      let b := getBind s d i
      let refuse := fun (cause : Nat) => recs.foldl (fun s x => refuseBind s x.1 x.2 cause) s
      match readLr s d part b.lrVa with
      | none => .next (refuse 0x0D)
      | some r =>
        match refusal s d part b.host (diesOf s recs) r with
        | some cause => .next (refuse cause)
        | none => .next (launchTask s d part b.lrVa r)

/-- TIMED_START (R212): package time reaches START, or has passed it; the partition's cores start together (R205). -/
def execTimedStart (part : Fin 256) (die : Fin 8) (s : State) : Out :=
  let x := getPart s part
  if x.waitStart ∧ x.st = .idle ∧ x.strings.any (fun n => decide (n / 32 = die.val)) then
    let s := { s with time := max s.time (x.launch.getD Launch.zero).start.toNat }
    .next (startBinds s part)
  else .next s

end Sys2Proof.Machine
end

