-- ==== Sys2Proof/Machine/Context.lean ====
section
/-!
DEFINITION. Machine/Context.lean: context images (R361 to R366), save, evict and restore (R367 to R369), restart snapshots
and the discard of an idempotent superstep (R371, R372), migration (R373 to R375), lane control (R345), scrub lists (R443,
R474).
-/
namespace Sys2Proof.Machine

/-! ## The context image (R361 to R364) -/

/-- The bytes of an image. -/
def imgBytes : Nat := 0x10B000

/-- The bytes of a restart snapshot (R371). -/
def snapBytes : Nat := 0x1B000

/-- A lane's LSTATE condition code (R364). -/
def condOf (n : Nat) : LaneCond :=
  match n with
  | 0 => .runnable | 1 => .held | 2 => .parked | _ => .halted

/-- A lane record at offset `a` (R364). -/
def laneImage (a : Nat) (l : Lane) : Mem :=
  (l.w.flatMap fun e => memOf (a + 8 * e.1) (leBytes 8 e.2.toNat)) ++
    memOf (a + 0x140) (leBytes 8 l.t0.toNat ++ leBytes 8 l.t1.toNat ++ leBytes 8 l.fstat.toNat ++ leBytes 4 l.pc.toNat ++
      leBytes 1 l.p.toNat ++ leBytes 1 (condCode l.cond + 4 * b2n l.hflt + 8 * b2n l.mark) ++ [0, 0] ++
      (match l.fault with
       | some f =>
         if l.cond = .parked then
           [f.cause] ++ leBytes 1 f.access ++ [0, 0] ++ leBytes 4 f.word.toNat ++ leBytes 8 f.addr.toNat
         else []
       | none => []))

/-- A lane from its record. -/
def laneOfImage (m : Mem) (a : Nat) : Lane :=
  let f := fun (o n : Nat) => memRead m (a + o) n
  let st := f 0x15D 1
  { w := (List.range 40).foldl (fun w i => spPut 0 w i (wd (f (8 * i) 8))) [], t0 := wd (f 0x140 8), t1 := wd (f 0x148 8),
    fstat := wd (f 0x150 8), pc := BitVec.ofNat 20 (f 0x158 4), p := BitVec.ofNat 8 (f 0x15C 1), cond := condOf (st % 4),
    hflt := decide (st / 4 % 2 = 1), mark := decide (st / 8 % 2 = 1), npc := none
    fault := if st % 4 = 2 then
        some { cause := BitVec.ofNat 8 (f 0x160 1), access := f 0x161 1, word := BitVec.ofNat 20 (f 0x164 4),
               addr := wd (f 0x168 8), clause := 0, fall := 0, handler := false }
      else none }

/-- A group record at offset `a` (R363). -/
def groupImage (a : Nat) (g : Group) : Mem :=
  (g.k.flatMap fun e => memOf (a + 8 * e.1) (leBytes 8 e.2.toNat)) ++
    (g.seg.flatMap fun e => memOf (a + 0x80 + 8 * e.1) (leBytes 8 e.2.toNat)) ++
    memOf (a + 0xA0) (leBytes 8 g.trapvec.toNat ++ leBytes 1 (b2n g.synced + 2 * b2n g.vote + 4 * b2n g.finished) ++
      [0, 0, 0] ++ leBytes 4 g.joins.length) ++
    memOf (a + 0xB0) (g.joins.flatMap fun j => leBytes 4 j.pos.toNat ++ leBytes 4 j.held.toNat ++ leBytes 4 j.union.toNat) ++
    memOf (a + 0x230) (g.joins.flatMap fun j => leBytes 4 j.hdr.toNat)

/-- Group `g` from the image. It has no field for the segment that an LJOIN's clause is fetched through: the group's own SEG3 (log
entry 33). Whether a STAY target stands in the clause its words say (`withStays`). -/
def groupOfImage (m : Mem) (g : Nat) : Group :=
  let a := 0x1000 + 0x400 * g
  let f := fun (o n : Nat) => memRead m (a + o) n
  { Group.zero with
    k := (List.range 16).foldl (fun x i => spPut 0 x i (wd (f (8 * i) 8))) []
    seg := (List.range 4).foldl (fun x i => spPut 0 x i (wd (f (0x80 + 8 * i) 8))) []
    trapvec := wd (f 0xA0 8), synced := decide (f 0xA8 1 % 2 = 1), vote := decide (f 0xA8 1 / 2 % 2 = 1)
    lanes := (List.range 32).map fun i => (i, laneOfImage m (0x3000 + 0x3000 * g + 384 * i))
    joins := (List.range (f 0xAC 4)).map fun i =>
      { pos := BitVec.ofNat 20 (f (0xB0 + 12 * i) 4), held := BitVec.ofNat 32 (f (0xB4 + 12 * i) 4),
        union := BitVec.ofNat 32 (f (0xB8 + 12 * i) 4), hdr := BitVec.ofNat 20 (f (0x230 + 4 * i) 4),
        seg3 := wd (f 0x98 8), stay := false } }

/-- A slot's 48 bytes in the core record (R362). -/
def slotImage (x : BSlot) : List Byte :=
  leBytes 1 (b2n x.valid + 2 * x.ty) ++ [0, 0, 0] ++ leBytes 4 x.col0 ++ leBytes 8 0 ++ leBytes 32 x.colmask.toNat

/-- A slot from its 48 bytes at offset `a`, with the data given; its cache is computed again when next used (R307). -/
def slotOfImage (m : Mem) (a : Nat) (data : Mem) : BSlot :=
  { valid := decide (memRead m a 1 % 2 = 1), ty := memRead m a 1 / 2 % 8, col0 := memRead m (a + 4) 4,
    colmask := BitVec.ofNat 256 (memRead m (a + 16) 32), data := data, br := [], brCtx := none }

/-- The core record (R362). -/
def coreRecord (s : State) (c savecnt seq : Nat) : Mem :=
  let co := getCore s c
  memOf 0 (leBytes 2 1 ++ leBytes 2 co.lcore ++ leBytes 1 (co.part.getD 0) ++ leBytes 1 co.ngroups ++
    leBytes 1 co.pwrLatch ++ leBytes 1 (b2n co.exch.gate.isSome) ++ leBytes 4 savecnt ++ leBytes 4 0 ++
    leBytes 8 (partOf s c).phase.toNat ++ leBytes 8 co.alogq.toNat ++ leBytes 8 co.xq.toNat ++ leBytes 8 co.noteq.toNat ++
    leBytes 4 co.exch.xpend ++ leBytes 2 co.exch.xtag.toNat ++ [0, 0] ++ leBytes 8 (co.exch.gate.getD 0).toNat ++
    leBytes 8 co.eng.issued ++ leBytes 8 co.asy.issued ++ leBytes 8 co.eng.estat.toNat ++ leBytes 8 co.eng.firsterr ++
    leBytes 32 co.eng.bad.toNat ++ slotImage co.eng.slot0 ++ slotImage co.eng.slot1 ++ leBytes 8 seq)

/-- The core, group and lane records: bytes 0 to 0x1_AFFF of the image. -/
def recordsImage (s : State) (c savecnt seq : Nat) : Mem :=
  let co := getCore s c
  let gs := List.range co.ngroups
  coreRecord s c savecnt seq ++ (gs.flatMap fun g => groupImage (0x1000 + 0x400 * g) (co.group g)) ++
    gs.flatMap fun g => (co.group g).lanes.flatMap fun e => laneImage (0x3000 + 0x3000 * g + 384 * e.1) e.2

/-- Bytes moved up by an offset. -/
def shiftMem (a : Nat) (m : Mem) : Mem := m.map fun c => (a + c.1, c.2)

/-- A core's context image (R361). -/
def contextImage (s : State) (c savecnt seq : Nat) : Mem :=
  let co := getCore s c
  recordsImage s c savecnt seq ++ shiftMem 0x1B000 co.spad ++ shiftMem 0xDB000 co.eng.slot0.data ++
    shiftMem 0xE3000 co.eng.slot1.data ++ co.eng.acc.flatMap fun e => memOf (0xEB000 + 8 * e.1) (leBytes 8 e.2.toNat)

/-- The records of an image put back into a core: registers, groups, lanes, engine controls. -/
def recordsRestore (m : Mem) (co : Core) : Core :=
  let f := fun (o n : Nat) => memRead m o n
  { co with
    lcore := f 2 2, ngroups := f 5 1, pwrLatch := f 6 1, alogq := wd (f 0x18 8), xq := wd (f 0x20 8), noteq := wd (f 0x28 8)
    groups := (List.range (f 5 1)).map fun g => (g, groupOfImage m g), bars := [], sel := 0, cnt := 0
    exch := { co.exch with
      xpend := f 0x30 4, xtag := BitVec.ofNat 16 (f 0x34 2)
      gate := if f 7 1 % 2 = 1 then some (wd (f 0x38 8)) else none }
    eng := { co.eng with
      queue := [], raced := [], unseen := [], issued := f 0x40 8, mtl := f 0x40 8, estat := wd (f 0x50 8), firsterr := f 0x58 8
      bad := BitVec.ofNat 256 (f 0x60 32), slot0 := slotOfImage m 0x80 co.eng.slot0.data
      slot1 := slotOfImage m 0xB0 co.eng.slot1.data }
    asy := { co.asy with issued := f 0x48 8, atl := f 0x48 8 } }

/-- A whole image put into a core for partition `p` (R368). The image has no field for a PWRP declaration in force: the core
goes back to the launch record's (log entry 33). -/
def imageRestore (p : Nat) (l : Launch) (m : Mem) (co : Core) : Core :=
  let co := recordsRestore m { co with exch := Exch.zero, eng := Engine.zero, asy := Assay.zero }
  { co with
    part := some p, spad := memSlice m 0x1B000 0xC0000, energy := l.energy, peak := l.peak, energyNext := none
    peakNext := none, pst := .compute
    eng := { co.eng with
      slot0 := { co.eng.slot0 with data := memSlice m 0xDB000 0x8000 }
      slot1 := { co.eng.slot1 with data := memSlice m 0xE3000 0x8000 }
      acc := (List.range 16384).foldl (fun a i =>
        let v := wd (memRead m (0xEB000 + 8 * i) 8)
        if v = 0 then a else a ++ [(i, v)]) [] } }

/-- The held sets of a core put back from an image: a STAY target stands in the clause at JCLAUSE where its words say so (R76, R152,
R363). -/
def withStays (s : State) (c : Nat) : State :=
  modCore s c fun co =>
    { co with groups := co.groups.map fun e =>
        (e.1, { e.2 with joins := e.2.joins.map fun j => { j with stay := hintTarget 1 (clauseWords s c j.seg3 j.hdr) } }) }

/-! ## Images in vault memory (R365) -/

/-- A fresh image sequence number (R365). -/
def takeSeq (s : State) : Nat × State := (s.gran.imgSeq + 1, modGran s fun g => { g with imgSeq := g.imgSeq + 1 })

/-- The tensor id and version of the counter blocks of image number `seq` (R365). -/
def seqTid (seq : Nat) : BitVec 48 := BitVec.ofNat 48 (0xFF0000000000 + seq % 2 ^ 40)
def seqVer (seq : Nat) : BitVec 32 := BitVec.ofNat 32 (seq / 2 ^ 40)

/-- Write an image of `n` bytes at physical address `pa`, encrypted under the task's slot (R365, R439). -/
def writeImage (s : State) (p lcore pa n seq : Nat) (m : Mem) : State :=
  sealLines { s with vault := memLoad s.vault pa n m }
    { lo := pa / 64, count := n / 64, key := (getKey s (worldSlot s p)).key, tid := seqTid seq, ver := seqVer seq,
      line0 := 2 ^ 20 * lcore, zero := false }

/-- Read an image back under its number, or none where a line fails its integrity check (R365, R368). -/
def loadImage (s : State) (p lcore pa n seq : Nat) : Option Mem :=
  if (List.range (n / 64)).all fun i =>
      lineReadable s (worldSlot s p) (seqTid seq) (seqVer seq) (2 ^ 20 * lcore + i) (pa / 64 + i) then
    some (memSlice s.vault pa n)
  else none

/-- An area register's physical address, where it is VALID and lies in one vault (R366, R410). -/
def areaOf (reg : Word) (len : Nat) : Option Nat :=
  let pa := fld reg 45 16 * 65536
  if bit reg 0 ∧ inOneVault pa len then some pa else none

/-- A core's context area (R366). -/
def ctxArea (s : State) (c : Nat) : Option Nat := areaOf (getCore s c).ctxBase 0x130000

/-- The bases of a list of areas, none where one may not be used. -/
def allAreas (f : Nat → Option Nat) : List Nat → Option (List Nat)
  | [] => some []
  | c :: r =>
    match f c, allAreas f r with
    | some a, some l => some (a :: l)
    | _, _ => none

/-- Write one image of every core of a partition at bases plus an offset, all under one number. -/
def writeImages (s : State) (p : Nat) (bases : List Nat) (off n seq : Nat) (img : State → Nat → Mem) : State :=
  (List.range (partCores s p).length).foldl (fun s i =>
    writeImage s p i (bases.getD i 0 + off) n seq (img s ((partCores s p).getD i 0))) s

/-! ## Scrub lists (R443, R444, R474) -/

/-- The 17 units of each core, ascending. -/
def coreUnits (cores : List Nat) : List ScrubUnit :=
  (cores.foldl (fun l c => insertSorted c l) []).flatMap fun c => (List.range 17).map fun u => .core c u

/-- A scrub list whose units are all done: SCRUB_PROG.COMPLETE (R444). -/
def Scrub.complete (x : Scrub) : Bool := decide (x.units.length ≤ x.done)

/-- Append units to the list of a partition number that is not complete, or start a new list (R474). -/
def addScrub (s : State) (p : Nat) (units : List ScrubUnit) (strs : List Nat) (use : ScrubUse) : State :=
  modPart s p fun x =>
    let old := if x.scrub.complete then { x.scrub with units := [], done := 0, strings := [], uses := [] } else x.scrub
    { x with scrub := { units := old.units ++ units, done := old.done, busy := false
                        strings := strs.foldl (fun l n => insertSorted n l) old.strings, uses := old.uses ++ [use] } }

/-- A world's task. -/
def isWorld (s : State) (p : Nat) : Bool := decide (worldSlot s p ≠ 0)

/-! ## Save, evict, restore (R367 to R369) -/

/-- A context operation ends with a status (R367). -/
def ctxEnd (s : State) (p status : Nat) : State := modPart s p fun x => { x with ctxStatus := status, busy := none }

/-- The partition is about to be held, to resume later at a state (R359); one that aborts goes to no HELD (R192). -/
def toHold (s : State) (p : Nat) (r : PhState) : State :=
  modPart s p fun x => if x.st = .aborting then x else { x with holding := some r }

/-- Clearing HOLD resumes the partition at the state that HELD interrupted (R192), once it has its cores and no operation runs. -/
def resumeHeld (s : State) (p : Nat) : State :=
  let x := getPart s p
  if x.st = .held ∧ ¬ x.hold ∧ x.busy.isNone ∧ ¬ x.evicted then
    modPart s p fun x => { x with st := x.resume, holding := none, stragAt := s.time - x.stragAt }
  else s

/-- Start a context operation: a write while BUSY is ignored; outside HELD it completes with STATUS 1 (R367, R368). -/
def ctxStart (s : State) (p : Nat) (op : CtxOp) : State :=
  let x := getPart s p
  if x.busy.isSome then s
  else if x.st ≠ .held then ctxEnd s p 1
  else modPart s p fun x => { x with busy := some op }

/-- CTX_SAVE, CTX_EVICT, CTX_RESTORE (R368). -/
def execCtxSave (part : Fin 256) (s : State) : Out := .next (ctxStart s part .save)
def execCtxEvict (part : Fin 256) (s : State) : Out := .next (ctxStart s part .evict)
def execCtxRestore (part : Fin 256) (s : State) : Out := .next (ctxStart s part .restore)

/-- The image of every core, under one SAVECNT and one number. -/
def partImages (s : State) (p savecnt seq : Nat) : List Mem := (partCores s p).map fun c => contextImage s c savecnt seq

/-- A save that is not out of date when the partition is held again: no byte of its images has changed meanwhile (R368). -/
def Part.savedStill (x : Part) (s : State) (p : Nat) : Bool :=
  x.saved && decide (partImages s p x.savecnt.toNat x.savedSeq.toNat = x.savedImg)

/-- A save: one image for each core, all under one number (R365, R368). -/
def ctxSave (s : State) (p : Nat) : State :=
  let cores := partCores s p
  match allAreas (ctxArea s) cores with
  | none => ctxEnd s p 2
  | some bases =>
    let s := modPart s p fun x => { x with savecnt := x.savecnt + 1 }
    if cores.isEmpty then ctxEnd s p 0
    else
      let sq := takeSeq s
      let s := writeImages sq.2 p bases 0 imgBytes sq.1 fun s c => contextImage s c (getPart s p).savecnt.toNat sq.1
      ctxEnd (modPart s p fun x =>
        { x with ctxSeq := wd sq.1, saved := true, savedSeq := wd sq.1
                 savedImg := partImages s p x.savecnt.toNat sq.1 }) p 0

/-- A change to a core's state puts the last save of its partition out of date (R368). -/
def staleSave (s : State) (c : Nat) : State :=
  match (getCore s c).part with
  | some p => modPart s p fun x => { x with saved := false }
  | none => s

/-- The strings of a partition become unbound (R368). -/
def unbindStrings (s : State) (strs : List Nat) : State := strs.foldl (fun s n => modStr s n fun x => { x with part := none }) s

/-- An evict: the cores hold no logical core and the strings become unbound; a world's strings once its cores are scrubbed
(R368, R474). -/
def ctxEvict (s : State) (p : Nat) : State :=
  let x := getPart s p
  if x.evicted then ctxEnd s p 0
  else if ¬ x.saved then ctxEnd s p 6
  else
    let strs := boundStrings s p
    let cores := x.lmap
    let s := cores.foldl (fun s c => modCore s c fun co => { co with part := none }) s
    let s := modPart s p fun x => { x with evicted := true }
    let s := if isWorld s p then addScrub s p (coreUnits (strs.flatMap strCores)) strs .evict else unbindStrings s strs
    ctxEnd s p 0

/-- The map that a restore uses: the cores last bound, or a table of R204; every target a core of a usable, unbound string and
no ballast (R367, R368). -/
def restoreMap (s : State) (p : Nat) : Option (List Nat) :=
  let x := getPart s p
  let va := fld x.ctxMap 47 0
  let n := x.lmap.length
  let m :=
    if va = 0 then some x.lmap
    else if va % 2 ≠ 0 then none
    else (readVa s (homeDie x) p va (2 * n)).map fun b => (List.range n).map fun i => leNat ((b.drop (2 * i)).take 2)
  match m with
  | none => none
  | some l =>
    if l.eraseDups.length = n ∧ l.all fun c =>
        decide (c < 1024) && !(getCore s c).ballast && stringFree s (strOf c) then
      some l
    else none

/-- A running record of a partition, as admission charges strings that the task is about to take (R211, R368, R374). -/
def runningBind (p : Nat) : Bind := { Bind.zero with part := p, state := .running }

/-- The target strings pass R211 at this interval. -/
def restoreFits (s : State) (p : Nat) (strs : List Nat) : Bool :=
  let l := (getPart s p).launch.getD Launch.zero
  (List.range 8).all fun d =>
    let mine := strs.filter fun n => decide (n / 32 = d)
    mine.isEmpty || fitsDie s d (stringCharge s (runningBind p) (l.peak, l.energy) mine)

/-- A restored core counts the notifications that were dropped (R369). -/
def lostNotes (n : Nat) (co : Core) : Core :=
  if qwDepth co.noteq = 0 then co
  else
    let a := qwBase co.noteq + 8
    { co with spad := memStore co.spad a 4 (min (memRead co.spad a 4 + n) (2 ^ 32 - 1)) }

/-- The image counter stands above every number restored, so that no later image shares a counter block with it (R472). -/
def raiseSeq (s : State) (seq : Nat) : State := modGran s fun g => { g with imgSeq := max g.imgSeq seq }

/-- A restore (R368, R369, R472). -/
def ctxRestore (s : State) (p : Nat) : State :=
  let x := getPart s p
  match restoreMap s p with
  | none => ctxEnd s p 3
  | some cores =>
    let strs := cores.foldl (fun l c => insertSorted (strOf c) l) []
    match allAreas (ctxArea s) cores with
    | none => ctxEnd s p 2
    | some bases =>
      if ¬ restoreFits s p strs then ctxEnd s p 5
      else
        match allAreas (fun i => (loadImage s p i (bases.getD i 0) imgBytes x.ctxSeq.toNat).map fun _ => 0)
            (List.range cores.length) with
        | none => ctxEnd (cores.foldl (fun s c => modCore s c clearCore) s) p 4
        | some _ =>
          let l := x.launch.getD Launch.zero
          let s := (List.range cores.length).foldl (fun s i =>
            withStays (modCore s (cores.getD i 0) fun co =>
              imageRestore p l (memSlice s.vault (bases.getD i 0) imgBytes) co) (cores.getD i 0)) s
          let same := cores.all fun c => decide (lostNotes x.ndrop.toNat (getCore s c) = getCore s c)
          let s := cores.foldl (fun s c => modCore s c (lostNotes x.ndrop.toNat)) s
          let pst : CorePhase :=
            if x.resume = .compute then .compute
            else if x.resume = .exchange ∨ (x.resume = .final ∧ ¬ x.finalDone) then .exchange
            else .xdone
          let s := cores.foldl (fun s c => modCore s c fun co => { co with pst := pst, exch := { co.exch with start := co.spad } }) s
          let s := strs.foldl (fun s n => modStr s n fun y => { y with part := some p }) s
          ctxEnd (testCores (modPart (raiseSeq s x.ctxSeq.toNat) p fun x =>
            { x with lmap := cores, strings := strs, evicted := false, ndrop := 0
                     saved := x.saved && same && decide (x.ctxSeq = x.savedSeq) }) p) p 0

/-- CTX_OP_COMPLETE (R367, R368). -/
def execCtxOpComplete (part : Fin 256) (s : State) : Out :=
  match (getPart s part).busy with
  | none => .next s
  | some .save => .next (resumeHeld (ctxSave s part) part)
  | some .evict => .next (resumeHeld (ctxEvict s part) part)
  | some .restore => .next (resumeHeld (ctxRestore s part) part)

/-! ## Restart snapshots and discards (R371, R372) -/

/-- Write the restart snapshot of every core, or of none (R371). The partition's IDEM is given up where none is written. -/
def takeSnapshot (s : State) (p : Nat) : State :=
  match allAreas (ctxArea s) (partCores s p) with
  | none => modPart s p fun x => { x with idem := false, snap := none }
  | some bases =>
    let sq := takeSeq s
    let s := writeImages sq.2 p bases imgBytes snapBytes sq.1 fun s c =>
      recordsImage s c (getPart s p).savecnt.toNat sq.1
    modPart s p fun x => { x with snap := some { seq := sq.1, resw := x.resw, bases := bases } }

/-- The commands of contexts opened before superstep `ph` stay; those of contexts opened in it are voided (R372). -/
def Assay.voidPhase (a : Assay) (ph : Word) : Assay :=
  let old := a.ctxs.filter fun k => decide (k.phase ≠ ph)
  let keep := fun (u : Nat) => old.any fun k => decide (k.uid = u)
  { a with
    ctxs := old
    queue := a.queue.filter fun q => match q with
      | .awit u | .aemit u _ | .aclose u | .auto u => keep u }

/-- The commands of a queue that take a number (R305). -/
def Assay.numbered (a : Assay) : Nat :=
  (a.queue.filter AssayCmd.numbered).length

/-- One core at a discard (R372): long-latency instructions and the running matrix operation complete, the rest of the queues and the
phase's contexts go, the exchange queue's tail returns to its head, the records come from the snapshot. A PWRP declaration that waits is
dropped with its superstep (R120; log entry 33). -/
def discardCore (p : Nat) (sn : Snap) (s : State) (i : Nat) : State :=
  let c := (partCores s p).getD i 0
  let s := match execMatrixOpComplete (Fin.ofNat 8 (c / 128)) (Fin.ofNat 128 c) s with
    | .next t => t
    | .fault _ => s
    | .refused _ => s
  let s := (List.range (getCore s c).ngroups).foldl (fun s g => completeAll s c g) s
  let m := memSlice s.vault (sn.bases.getD i 0 + imgBytes) snapBytes
  let ph := (getPart s p).phase
  withStays (modCore s c fun co =>
    let asy := co.asy.voidPhase ph
    let r := recordsRestore m co
    let spad := if qwDepth r.xq = 0 then r.spad else memStore r.spad (qwBase r.xq + 4) 4 (qHead r.spad (qwBase r.xq))
    { r with
      groups := r.groups.map fun e => (e.1, e.2.beginCompute), spad := spad, pst := .compute
      exch := { r.exch with marks := [], start := [], applied := [], resent := [], xlat := [] }
      asy := { asy with issued := r.asy.issued, atl := r.asy.issued - asy.numbered }, energyNext := none, peakNext := none }) c

/-- Every core's restart snapshot reads back under the key and the number that wrote it (R365). -/
def snapReadable (s : State) (p : Nat) (sn : Snap) : Bool :=
  (List.range (partCores s p).length).all fun i => (loadImage s p i (sn.bases.getD i 0 + imgBytes) snapBytes sn.seq).isSome

/-- PH_CTL_DISCARD (R372). A snapshot that no longer reads back under its number leaves the write without effect (log entry
33). With HOLD set the partition goes towards HELD, which its assay units' commands still hold off (R359). -/
def execPhCtlDiscard (part : Fin 256) (s : State) : Out :=
  let x := getPart s part
  match x.snap with
  | none => .next s
  | some sn =>
    if x.st ≠ .compute ∨ ¬ x.idem ∨ ¬ snapReadable s part sn then .next s
    else
      let s := (List.range (partCores s part).length).foldl (discardCore part sn) s
      let s := rampUp s part
      let s := testCores (modPart s part fun x => { x with resw := sn.resw, migLate := false, stragAt := s.time, stragPosted := false }) part
      .next (if (getPart s part).hold then toHold s part .compute else s)

/-! ## Migration (R373 to R375) -/

/-- Every core of a partition that has cores passes a test. -/
def allCores (s : State) (p : Nat) (f : Core → Bool) : Bool :=
  !(partCores s p).isEmpty && (partCores s p).all fun c => f (getCore s c)

/-- The compute phase is over on every core, and its FLIP_X is still to come (R191, R192). -/
def allSynced (s : State) (p : Nat) : Bool :=
  decide ((getPart s p).st = .compute) && allCores s p fun co => decide (co.pst = .synced)

/-- MIGCTL_GO (R374): a write with GO set orders a migration unless one is pending. One given once the last core is SYNCED waits
for the next FLIP_X (R389). -/
def execMigctlGo (part : Fin 256) (v : Word) (s : State) : Out :=
  if bit v 63 ∧ (getPart s part).mig.isNone then
    .next (modPart s part fun x => { x with mig := some (fld v 15 0, fld v 25 16), migLate := allSynced s part })
  else .next s

/-- The dies that a partition's running records name. -/
def partDies (s : State) (p : Nat) : BitVec 16 := diesOf s (bindsOf s p fun x => decide (x = .running))

/-- A target is eligible (R374): no ballast, on a die of DIEMASK, and a vacant core of the partition or a core of an unbound
string that is not excluded, which no scrub list holds back (R444, R474). -/
def migEligible (s : State) (p c : Nat) : Bool :=
  let co := getCore s c
  let str := getStr s (strOf c)
  !co.ballast && bit (partDies s p) (dieOf c) &&
    ((decide (str.part = some p) && co.part.isNone) || stringFree s (strOf c))

/-- A core's task state moved into another core; what belongs to the place stays (R375). -/
def moveCore (src dst : Core) : Core :=
  { src with
    therm := dst.therm, ctxBase := dst.ctxBase, ckptBase := dst.ckptBase, flog := dst.flog, gtoCap := dst.gtoCap
    current := dst.current, ballast := dst.ballast, named := false, sel := 0, cnt := 0 }

/-- The order ends with a status (R374). -/
def migEnd (s : State) (p status : Nat) : State :=
  modPart s p fun x => { x with mig := none, migNow := false, migLate := false, migStatus := status }

/-- The bind record of a partition on a die gains a string (R374). -/
def addBindString (s : State) (p n : Nat) : State :=
  (bindsOf s p fun x => decide (x = .running)).foldl (fun s x =>
    if x.1 = n / 32 then modBind s x.1 x.2 fun b => { b with strings := b.strings ||| BitVec.ofNat 32 (2 ^ (n % 32)) } else s) s

/-- Carry out a pending order in FLIP_X (R375). The source's assay unit is idle. A world's source core is scrubbed first: it
becomes vacant, and the order ends, only with its units (R474). -/
def migrate (s : State) (p fr dst : Nat) : State :=
  match (partCores s p)[fr]? with
  | none => migEnd s p 4
  | some src =>
    if ¬ migEligible s p dst then migEnd s p 2
    else
      let newStr := (getStr s (strOf dst)).part.isNone
      let l := (getPart s p).launch.getD Launch.zero
      if newStr ∧ ¬ fitsDie s (dieOf dst) (stringCharge s (runningBind p) (l.peak, l.energy) [strOf dst]) then migEnd s p 3
      else
        let s := modCore s dst (moveCore (getCore s src))
        let s := modPart s p fun x => { x with lmap := setAt x.lmap fr dst }
        let s :=
          if newStr then
            addBindString (modPart (modStr s (strOf dst) fun x => { x with part := some p }) p fun x =>
              { x with strings := insertSorted (strOf dst) x.strings }) p (strOf dst)
          else s
        if isWorld s p then
          addScrub (modCore s src fun co => { co.stop with ngroups := 0 }) p (coreUnits [src]) [strOf src] (.migrate src)
        else migEnd (modCore s src clearCore) p 0

/-- A string whose four cores are all vacant leaves the partition at the next flip (R373). -/
def dropVacant (s : State) (p : Nat) : State :=
  let gone := (boundStrings s p).filter fun n =>
    (strCores n).all fun c => decide ((getCore s c).part ≠ some p) && !(getPart s p).scrub.units.any fun u => match u with
      | .core k _ => decide (k = c) && !(getPart s p).scrub.complete
      | .bytes _ _ => false
  let s := unbindStrings s gone
  modPart s p fun x => { x with strings := x.strings.filter fun n => !gone.contains n }

/-! ## Lane control (R345) -/

/-- A LANECTL write: at the group's next clause end, or at once if no clause is in flight; a change of core state makes a
save out of date (R368). -/
def laneControl (s : State) (c g : Nat) (w : LaneCtl) : State :=
  let s := modGroup s c g fun x => { x with lanectl := x.lanectl ++ [w] }
  applyLaneCtl (staleSave s c) c g

/-- LANECTL_RESUME (R345): a PC with bits 33:32 of the register set is ignored. -/
def execLanectlResume (die : Fin 8) (core : Fin 128) (grp : Fin 8) (pc : Offset) (mask : LaneMask) (s : State) : Out :=
  if pc.toNat % 4 = 0 then .next (laneControl s (coreNum die core) grp { kill := false, pc := pc, mask := mask })
  else .next s

/-- LANECTL_KILL (R345). -/
def execLanectlKill (die : Fin 8) (core : Fin 128) (grp : Fin 8) (mask : LaneMask) (s : State) : Out :=
  .next (laneControl s (coreNum die core) grp { kill := true, pc := 0, mask := mask })

end Sys2Proof.Machine
end

