-- ==== Sys2Proof/Machine/Granite.lean ====
section
/-!
DEFINITION. Machine/Granite.lean: the package checker: the tests of witness records (R402 to R405), audit sets and release
(R401, R406 to R408, R446), rollback and remapping (R413 to R416, R423), reruns, strikes and retirement (R417 to R419).
-/
namespace Sys2Proof.Machine

/-! ## What a record and its task name -/

/-- The superstep of a record (R401). -/
def WitRec.ss (r : WitRec) : Nat := r.phase.toNat / 2

/-- The task still runs on its partition. -/
def taskRuns (s : State) (p : Nat) (task : Word) : Bool :=
  (getPart s p).launch.isSome && decide ((getPart s p).taskid = task)

/-- The audit policy of a record's task (R409): of the running task, or kept since its completion. -/
def auditOf (s : State) (p : Nat) (task : Word) : Word :=
  if taskRuns s p task then ((getPart s p).launch.map Launch.audit).getD 0
  else ((s.gran.ended.find? fun e => decide (e.task = task)).map TaskEnd.audit).getD 0

/-- The fields of AUDITPOL, and what stands for a field of 0 (R409). -/
def ckEvery (a : Word) : Nat := fld a 31 24
def onFail (a : Word) : Bool := bit a 21
def spotCount (s : State) (a : Word) : Nat := if fld a 47 40 = 0 then s.gran.auditSpots else fld a 47 40
def winOf (s : State) (a : Word) : Nat := if fld a 39 32 = 0 then s.gran.auditWin else fld a 39 32

/-- CHK_MODE.FIXEDR (R400). -/
def fixedMode (s : State) : Bool := bit s.gran.chkMode 0

/-! ## Audit sets (R406) -/

/-- The audit set of a directory entry holds an operator of a task's superstep. -/
def GenAud.holds (a : GenAud) (task : Word) (opid : BitVec 32) (ss : Nat) : Bool :=
  a.ops.any fun o => decide (o.task = task) && decide (o.opid = opid) && decide (o.ss = ss)

/-- An operator of the set has failed (R413). -/
def GenAud.failed (a : GenAud) : Bool := a.ops.any fun o => o.failed

/-- Change the state of one operator of a set. -/
def GenAud.modOp (a : GenAud) (task : Word) (opid : BitVec 32) (ss : Nat) (f : AudOp → AudOp) : GenAud :=
  { a with ops := a.ops.map fun o => if o.task = task ∧ o.opid = opid ∧ o.ss = ss then f o else o }

/-- The entry's generation was OPEN at the record's PHASE, or became OPEN at the flip that ended that phase, and has the TID
of its REF0 (R406). A generation that an earlier task of the partition left OPEN counts as well. -/
def audMatches (s : State) (r : WitRec) (a : GenAud) : Bool :=
  let g := getGen s a.idx
  let opened := if a.task = r.task then decide (2 * a.openSs ≤ r.phase.toNat) else decide (a.task.toNat < r.task.toNat)
  let notYet := match a.sealer with
    | none => true
    | some t => if t = r.task then decide (r.phase.toNat < g.sealph.toNat) else decide (r.task.toNat < t.toNat)
  decide (a.part = r.part) && decide (g.tid = r.tid 0) && decide (g.ver = a.ver) && opened && decide (2 ≤ g.state) &&
    decide (g.state ≤ 4) && notYet

/-- The directory entry of a record: of those with the TID of its REF0, the one that already holds its operator, or the one it
matches (R406). -/
def audOf (s : State) (r : WitRec) : Option GenAud :=
  match s.gran.gens.find? fun a => a.holds r.task r.opid r.ss && decide ((getGen s a.idx).tid = r.tid 0) with
  | some a => some a
  | none => s.gran.gens.find? (audMatches s r)

/-- Change the directory entry of table index `i`. -/
def modAud (s : State) (i : Nat) (f : GenAud → GenAud) : State :=
  modGran s fun g => { g with gens := g.gens.map fun a => if a.idx = i then f a else a }

/-- A record with the version that the Granite die finds for its REF0 (R406). -/
def foundAs (s : State) (r : WitRec) : WitRec :=
  match audOf s r with
  | some a => { r with onGen := some (a.idx, a.ver) }
  | none => r

/-- A record adds its operator to the audit set it matches, with AUDN and AUDSET of the entry; the version found stays with the
record (R233, R406). -/
def joinAudit (s : State) (r : WitRec) : State :=
  match audOf s r with
  | none => s
  | some a =>
    let s := modGran s fun g => { g with recs := g.recs.map fun x => if x.num = r.num then foundAs s r else x }
    let a' := { a with ops := if a.holds r.task r.opid r.ss then a.ops
                              else a.ops ++ [{ task := r.task, opid := r.opid, ss := r.ss, passed := false, failed := false }]
                       fixedr := a.fixedr || r.fixedr }
    if a' = a then s
    else setGen (modAud s a.idx fun _ => a') { getGen s a.idx with audn := a'.ops.length, audset := a.idx + 1 }

/-! ## Reading generations for a test (R404, R405) -/

/-- A line of a generation, its fill where a SEALED one has not been carried (R237, R240). -/
def auditLine (s : State) (g : Gen) (ln : Nat) : Option (List Byte) :=
  if g.state = 3 ∧ ¬ (writtenOf s g.idx).contains ln then
    match fillLine s (lowDie s) g ln with
    | .ok bs => some bs
    | .fault _ _ | .wait => none
  else genLine s (lowDie s) g ln

/-- Bytes of a generation, none outside it or where a line cannot be read. -/
def tensorBytes (s : State) (g : Gen) (off n : Nat) : Option (List Byte) :=
  if g.size < off + n then none
  else
    (linesOf (g.vbase + off) n).foldl (fun acc x =>
      match acc, auditLine s g ((x.1 - g.vbase) / 64) with
      | some bs, some l => some (bs ++ (l.drop (x.1 % 64)).take x.2)
      | _, _ => none) (some [])

/-- The little-endian value of `n` bytes of a generation. -/
def tensorVal (s : State) (g : Gen) (off n : Nat) : Option Nat := (tensorBytes s g off n).map leNat

/-- Element `j` of a row at byte `base`, of an element type of R288 (R36). -/
def tensorElem (s : State) (g : Gen) (base t j : Nat) : Option Int :=
  let w := tyWidth t
  (tensorVal s g (base + j * w / 8) ((w + 7) / 8)).map fun v =>
    elemVal t (if w = 4 then v / 16 ^ (j % 2) % 16 else v)

/-! ## Operator descriptors (R403) -/

/-- An operator descriptor. -/
structure Descr where
  opid : BitVec 32
  atype : Nat
  btype : Nat
  dtype : Nat
  ctrl : Nat
  m : Nat
  n : Nat
  k : Nat
  astr : Nat
  bstr : Nat
  cstr : Nat
  rsidx : Nat
  csidx : Nat
  tol : Word
  rsv : Nat
  deriving DecidableEq, Repr

/-- A descriptor from its 64 bytes. -/
def descrOf (b : List Byte) : Descr :=
  let f := fun (o n : Nat) => leNat ((b.drop o).take n)
  { opid := BitVec.ofNat 32 (f 0 4), atype := f 4 1, btype := f 5 1, dtype := f 6 1, ctrl := f 7 1, m := f 8 4, n := f 0xC 4,
    k := f 0x10 4, astr := f 0x18 4, bstr := f 0x1C 4, cstr := f 0x20 4, rsidx := f 0x28 4, csidx := f 0x2C 4,
    tol := wd (f 0x30 8), rsv := f 0x14 4 + f 0x24 4 + f 0x38 8 }

/-- The first descriptor of an operator in the RELEASED generation that OPTAB names. -/
def descrFor (s : State) (audit : Word) (opid : BitVec 32) : Option Descr :=
  let g := getGen s (fld audit 19 0)
  if ¬ bit audit 20 ∨ ttCount s ≤ fld audit 19 0 ∨ g.state ≠ 5 then none
  else (List.range (g.size / 64)).findSome? fun i =>
    match (tensorBytes s g (64 * i) 64).map descrOf with
    | some d => if d.opid = opid then some d else none
    | none => none

/-- A descriptor that breaks R403. -/
def Descr.bad (d : Descr) : Bool :=
  decide (5 < d.atype) || decide (5 < d.btype) || decide (3 < d.dtype) || decide (4 < d.ctrl % 8) || decide (31 < d.ctrl) ||
    decide (d.rsv ≠ 0)

/-- The drain type of a code. -/
def drainOf (n : Nat) : DrainTy := match n with
  | 0 => .raw | 1 => .f32 | 2 => .i8 | _ => .i16

/-- The rounding modes under which a stored element may pass: the mode itself, or both brackets for stochastic. -/
def spotModes (n : Nat) : List Round := match n with
  | 0 => [.rne] | 1 => [.rz] | 2 => [.ru] | 3 => [.rd] | _ => [.ru, .rd]

/-- The bits of an element rounded in one of those modes; a bracket of stochastic rounding that overflows is what the policy
gives under stochastic mode (R52, R404). -/
def spotElem (n : Nat) (dt : DrainTy) (m : Round) (pol : Policy) (c : Int) (rs cs : Nat) : Nat :=
  let x := drainElem dt m pol c rs cs 0 0
  if 4 ≤ n ∧ dt = .f32 ∧ x.of_ then (overflowFlt .f32 { mode := .rs, pol := pol, rand := 0 } (decide (2 ^ 31 ≤ x.bits))).bits
  else x.bits

/-- The overflow policy of a code (R52). -/
def policyOf (n : Nat) : Policy := match n with
  | 0 => .sat | 1 => .inf | 2 => .nan | _ => .trap

/-! ## The tests (R402, R404, R405) -/

/-- What a test comes to: pass, wait for STAGED, or fail with a verdict of R417 and the spot. -/
inductive Verdict where
  | pass
  | hold
  | fail (code spot expect found : Nat)
  deriving DecidableEq, Repr

/-- The exact sum of a spot, none where a read falls outside (R404). -/
def spotSum (s : State) (d : Descr) (a b : Gen) (i j : Nat) : Option Int :=
  (List.range d.k).foldl (fun acc k =>
    match acc, tensorElem s a (i * d.astr) d.atype k, tensorElem s b (k * d.bstr) d.btype j with
    | some t, some x, some y => some (t + x * y)
    | _, _, _ => none) (some 0)

/-- The bits that C[i][j] may hold (R404). -/
def spotBits (s : State) (d : Descr) (i j : Nat) (c : Word) : Option (List Nat) :=
  if d.dtype = 0 then some [c.toNat]
  else
    match tensorVal s (getGen s d.rsidx) (4 * i) 4, tensorVal s (getGen s d.csidx) (4 * j) 4 with
    | some rs, some cs =>
      if ttCount s ≤ d.rsidx ∨ ttCount s ≤ d.csidx then none
      else some ((spotModes (d.ctrl % 8)).map fun m =>
        spotElem (d.ctrl % 8) (drainOf d.dtype) m (policyOf (d.ctrl / 8 % 4)) c.toInt rs cs)
    | _, _ => none

/-- One spot assay of an MPROJ record (R404). -/
def spotTest (s : State) (d : Descr) (c a b : Gen) (i j : Nat) : Verdict :=
  let at_ := 2 ^ 32 * j + i
  let n := drainBytes (drainOf d.dtype)
  if d.bad then .fail 4 at_ 0 0
  else
    match tensorVal s c (i * d.cstr + j * n) n, spotSum s d a b i j with
    | some found, some v =>
      match spotBits s d i j (BitVec.ofInt 64 v) with
      | some l => if l.contains found then .pass else .fail 4 at_ (l.headD 0) found
      | none => .fail 4 at_ 0 found
    | _, _ => .fail 4 at_ 0 0

/-- The spot positions of a record over `total` positions: the first ones under FIXEDR, else chosen by the Granite die. -/
def spotList (s : State) (r : WitRec) (count total : Nat) : List Nat :=
  if total = 0 then []
  else if fixedMode s then List.range (min count total)
  else (List.range count).map fun k => Config.spotDraw r.num k % total

/-- The first failing verdict of a list of tests. -/
def firstFail (l : List Verdict) : Verdict := (l.find? fun v => decide (v ≠ .pass)).getD .pass

/-- What a record's REF0 generation allows (R404): run the spots, wait, or fail them. -/
def refState (g : Gen) : Verdict :=
  if g.carryFail then .fail 4 0 0 0
  else if g.state = 2 ∨ g.state = 3 then .hold
  else if g.state = 4 ∨ g.state = 5 then .pass
  else .fail 4 0 0 0

/-- The generation of a record's REF0: the one whose audit set it joined, else the one that it named when it arrived; an entry that
holds another one since counts as FREE (R404, R406). -/
def refGen (s : State) (r : WitRec) : Option Gen :=
  (foundAs s r).onGen.map fun (x : Nat × Nat) =>
    let g := getGen s x.1
    if g.tid = r.tid 0 ∧ g.ver = x.2 then g else { g with state := 0 }

/-- The test of an MPROJ record whose residues agree: its spot assays (R404). -/
def projSpots (s : State) (audit : Word) (r : WitRec) : Verdict :=
  match descrFor s audit r.opid, refGen s r, genNamed s (r.tid 1) (r.ver 1), genNamed s (r.tid 2) (r.ver 2) with
  | some d, some c, some a, some b =>
    match refState c with
    | .pass =>
      if d.bad ∨ d.m * d.n = 0 then (if spotCount s audit = 0 then .pass else .fail 4 0 0 0)
      else firstFail ((spotList s r (spotCount s audit) (d.m * d.n)).map fun p => spotTest s d c a b (p / d.n) (p % d.n))
    | v => v
  | _, _, _, _ => .pass

/-- The type of an ELEM function's input and output, and the function (R405); none for a reserved code. -/
def elemFn (code : Nat) : Option (FltTy × FltTy × (Nat → Nat)) :=
  let c : Ctl := { mode := .rne, pol := .inf, rand := 0 }
  let ops : List SfuOp := [.exp2, .log2, .rcp, .rsq, .sqrt, .sinpi, .cospi]
  let sfu := fun (t : FltTy) (n : Nat) =>
    (ops[n]?).map fun o => (t, t, fun x => (sfuOne o t c (fval t x)).bits)
  if 1 ≤ code ∧ code ≤ 7 then sfu .f32 (code - 1)
  else if 9 ≤ code ∧ code ≤ 15 then sfu .f16 (code - 9)
  else if code = 16 then some (.f32, .f32, fun x => fmaxBits .f32 x 0)
  else if code = 17 then some (.f16, .f16, fun x => fmaxBits .f16 x 0)
  else if code = 18 then some (.f32, .f16, fun x => (rndFlt .f16 c (fval .f32 x)).bits)
  else if code = 19 then some (.f16, .f32, fun x => (rndFlt .f32 c (fval .f16 x)).bits)
  else none

/-- The digest of the stored output over indices 0 to n - 1 (R402, R405). -/
def elemDigest (s : State) (g : Gen) (alpha size n : Nat) : Option Nat :=
  (List.range n).foldl (fun acc i =>
    match acc, tensorVal s g (i * size) size with
    | some e, some v => some ((e + witPow alpha (i + 1) * residue v) % witP)
    | _, _ => none) (some 0)

/-- One element spot (R405): any NaN counts as the canonical one; a failure tells the stored bits as they are (R417). -/
def elemSpot (s : State) (f : FltTy × FltTy × (Nat → Nat)) (c a : Gen) (i : Nat) : Verdict :=
  let canon := fun (v : Nat) => if (fval f.2.1 v).isNan then f.2.1.nan else v
  let isz := f.1.width / 8
  let osz := f.2.1.width / 8
  match tensorVal s a (i * isz) isz, tensorVal s c (i * osz) osz with
  | some x, some y => if canon (f.2.2 x) = canon y then .pass else .fail 10 i (canon (f.2.2 x)) y
  | _, _ => .fail 10 i 0 0

/-- The test of an ELEM record (R402, R405). -/
def elemTest (s : State) (audit : Word) (r : WitRec) : Verdict :=
  match elemFn r.v0.toNat, refGen s r, genNamed s (r.tid 1) (r.ver 1) with
  | some f, some c, some a =>
    match refState c with
    | .hold => .hold
    | .fail _ _ _ _ => .fail 10 0 0 0
    | .pass =>
      if elemDigest s c r.alpha (f.2.1.width / 8) r.v1.toNat ≠ some r.v2.toNat then .fail 9 0 0 0
      else firstFail ((spotList s r (spotCount s audit) r.v1.toNat).map (elemSpot s f c a))
  | _, _, _ => .fail 11 0 0 0

/-- The test of a RESID record (R402): the magnitude against TOL, or against zero where no descriptor stands. -/
def residTest (s : State) (audit : Word) (r : WitRec) : Verdict :=
  let tol := match descrFor s audit r.opid with
    | some d => fval .f64 d.tol.toNat
    | none => .num false 0 0
  let v := fval .f64 (r.v0.toNat % 2 ^ 63)
  if decide (r.v1 = 0) || v.isNan || tol.isNan || cmpVal v tol == .gt then .fail 8 0 0 0 else .pass

/-- The test of a record (R402). -/
def testRecord (s : State) (r : WitRec) : Verdict :=
  let audit := auditOf s r.part r.task
  if r.incomplete then .fail 2 0 0 0
  else if r.engerr then .fail 3 0 0 0
  else match r.kind with
    | 1 => if r.v0 = r.v1 then projSpots s audit r else .fail 1 0 0 0
    | 2 => if r.v0 ≠ 0 then .fail 5 0 0 0 else if r.v1 = r.v2 then .pass else .fail 6 0 0 0
    | 3 => if r.v0 = r.v1 then .pass else .fail 7 0 0 0
    | 4 => residTest s audit r
    | _ => elemTest s audit r

/-! ## Fault-record entries of failed audits (R417) -/

/-- The kind-1 entry of a failed record, at the time of its test, with the version found for its REF0 (R406, R417). -/
def failEntry (s : State) (r : WitRec) (code spot expect found : Nat) : FrecEnt :=
  let ver := ((foundAs s r).onGen.map (·.2)).getD 0
  { FrecEnt.blank s 1 code r.die r.part with
    lcore := r.lcore, pcore := r.core, str := r.core % 128 / 4, ctx := r.ctx, wkind := r.kind, opid := r.opid,
    phase := r.phase, v0 := r.v0, v1 := r.v1, v2 := r.v2, alpha := r.alpha, beta := r.beta,
    ref0 := BitVec.ofNat 96 ((r.tid 0).toNat + 2 ^ 64 * ver), spot := wd spot, expect := wd expect, found := wd found }

/-- DISCARDED set in an entry's ARG. -/
def FrecEnt.discarded (e : FrecEnt) : FrecEnt := { e with arg := e.arg ||| 0x8000000000000000 }

/-- The ring slot that the next entry takes, if the ring has room. -/
def frecNext (s : State) : Option Nat :=
  if (s.gran.frecTail - s.gran.frecHead).toNat = 256 then none else some s.gran.frecTail.toNat

/-- An entry number still stands in the ring (R417). -/
def inFrec (s : State) (n : Nat) : Bool :=
  decide ((BitVec.ofNat 9 n - s.gran.frecHead).toNat < (s.gran.frecTail - s.gran.frecHead).toNat)

/-! ## Failures (R413, R418, R423) -/

/-- The exchange phase of superstep `f`, or its compute phase, has not ended (R423). -/
def auditDefers (x : Part) (f : Nat) : Bool :=
  let ending := decide (x.st = .flipC) || decide (x.holding = some .flipC) || (decide (x.st = .held) && decide (x.resume = .flipC)) ||
    (decide (x.st = .held) && decide (x.resume = .final) && x.finalDone) || (decide (x.st = .final) && x.finalDone)
  decide (x.phase.toNat = 2 * f) || (decide (x.phase.toNat = 2 * f + 1) && !ending)

/-- A failed audit aborts the task: ONFAIL, a write already out under CKEVERY 0, or the rerun of an operator that failed
before (R408, R413, R418). -/
def failAborts (s : State) (p : Nat) (f : Failed) : Bool :=
  let x := getPart s p
  let a := ((getPart s p).launch.map Launch.audit).getD 0
  onFail a || (decide (ckEvery a = 0) && x.left) || x.failKeys.contains (f.ent.opid, f.ss)

/-- Every generation of a task with a failed audit is HELD: those whose set holds the operator that failed, and any that failed
beside it (R413). -/
def holdGens (s : State) (task : Word) (opid : BitVec 32) (ss : Nat) : State :=
  (s.gran.gens.filter fun a => a.holds task opid ss || (a.failed && a.ops.any fun o => decide (o.task = task))).foldl
    (fun s a =>
    let g := getGen s a.idx
    modAud (setGen s { g with flags := g.flags ||| 2 }) a.idx fun a => a.modOp task opid ss fun o => { o with failed := true }) s

/-- The Granite die answers a failure: the rollback starts, or the task goes to ABORTING (R413, R414 step 1, R418). -/
def answerFailure (s : State) (p : Nat) (f : Failed) : State :=
  let s' := addFrec s f.ent
  if failAborts s p f then
    let s' := holdGens s' (getPart s p).taskid f.ent.opid f.ss
    modPart (abortPart s' p) p fun x => { x with failed := none, status := 1 }
  else modPart s' p fun x =>
    { x with st := .rollback, rolling := true, audWait := false, waitStart := false, holding := none, quiesce := false
             failed := some { f with idx := frecNext s } }

/-- A pending failure is answered now: no deferral, and the partition has its cores and runs no context operation. -/
def failDue (s : State) (p : Nat) : Option Failed :=
  let x := getPart s p
  match x.failed with
  | none => none
  | some f =>
    if x.launch.isNone ∨ x.st = .rollback ∨ x.st = .aborting ∨ x.evicted ∨ x.busy.isSome ∨ auditDefers x f.ss then none
    else some f

/-- Answer a pending failure if its time has come. -/
def settleFailure (s : State) (p : Nat) : State :=
  match failDue s p with
  | some f => answerFailure s p f
  | none => s

/-- A record has failed (R401, R408, R413, R414, R418, R423). A completed task's held writes are discarded; a failure met while the
task aborts for its audits is entered, and its generations are HELD. Beside a pending failure, one that aborts the task, or one of an
earlier superstep, takes its place; the other of the two is entered, with DISCARDED where the task rolls back. -/
def recordFailed (s : State) (r : WitRec) (e : FrecEnt) : State :=
  let x := getPart s r.part
  let s := modAud' s r
  if ¬ taskRuns s r.part r.task then
    modGran (addFrec s e) fun g =>
      { g with hold := g.hold.filter fun o => decide (o.task ≠ r.task)
               ended := g.ended.map fun t => if t.task = r.task then { t with fine := false } else t }
  else
    let s := modPart s r.part fun x => { x with failedSs := insertSorted r.ss x.failedSs }
    let new : Failed := { ss := r.ss, ent := e, idx := none }
    let answer := fun (s : State) => settleFailure (modPart s r.part fun x => { x with failed := some new }) r.part
    if x.st = .aborting then
      let s := addFrec s e
      if x.status = 1 ∨ failAborts s r.part new then holdGens s r.task r.opid r.ss else s
    else
      match x.failed with
      | none => answer s
      | some f =>
        if x.st = .rollback then addFrec s e.discarded
        else
          let old := failAborts s r.part f
          let now := failAborts s r.part new
          let beside := fun (e : FrecEnt) => if old || now then e else e.discarded
          if (now && !old) || (now == old && decide (r.ss < f.ss)) then addFrec (answer s) (beside f.ent)
          else addFrec s (beside e)
where
  /-- The diagnostic slots of the same operator learn that its rerun failed again (R418). -/
  modAud' (s : State) (r : WitRec) : State :=
    modGran s fun g => { g with diags := g.diags.map fun d =>
      if d.ent.opid = r.opid ∧ d.ss = r.ss ∧ d.part = r.part ∧ d.task = r.task ∧ ¬ d.compared then { d with refailed := true } else d }

/-! ## PASS_SS (R401) -/

/-- Superstep `k` of a partition is wholly audited: every core's mark for it has come, and every record of it has passed. -/
def whollyAudited (s : State) (p k : Nat) : Bool :=
  let x := getPart s p
  ((List.range x.lmap.length).all fun n => (spGet [] x.sent n).contains k) &&
    !(s.gran.recs.any fun r => decide (r.part = p) && decide (r.task = x.taskid) && decide (r.ss = k)) &&
    !x.failedSs.contains k

/-- Move PASS_SS to the lowest superstep not wholly audited. -/
def advancePass : Nat → Nat → State → State
  | 0, _, s => s
  | fuel + 1, p, s =>
    let k := (getPart s p).passSs
    if whollyAudited s p k then advancePass fuel p (modPart s p fun x => { x with passSs := k + 1 }) else s

/-- PASS_SS after a record or a mark. -/
def updatePass (s : State) (p : Nat) : State :=
  if (getPart s p).launch.isNone then s else advancePass ((getPart s p).phase.toNat / 2 + 1) p s

/-- The record cannot be matched yet: its REF0 generation may open at the flip that ends its phase (R406). -/
def awaitsOpen (s : State) (r : WitRec) : Bool :=
  taskRuns s r.part r.task && decide ((getPart s r.part).phase = r.phase) && (audOf s r).isNone

/-- WITNESS_RECORD_TEST (R402 to R406): a record that waits for its generation to be STAGED stays. -/
def execWitnessRecordTest (num : Nat) (s : State) : Out :=
  match s.gran.recs.find? fun r => decide (r.num = num) with
  | none => .next s
  | some r =>
    if awaitsOpen s r then .next s
    else
      let found := foundAs s r
      let s := joinAudit s r
      let r := found
      let out := fun (s : State) => modGran s fun g => { g with recs := g.recs.filter fun x => decide (x.num ≠ num) }
      match testRecord s r with
      | .hold => .next s
      | .pass =>
        let s := match audOf s r with
          | some a => modAud s a.idx fun a => a.modOp r.task r.opid r.ss fun o => { o with passed := true }
          | none => s
        .next (updatePass (out s) r.part)
      | .fail code spot expect found =>
        let s := match audOf s r with
          | some a => modAud s a.idx fun a => a.modOp r.task r.opid r.ss fun o => { o with failed := true }
          | none => s
        .next (recordFailed (out s) r (failEntry s r code spot expect found))

/-- HORIZON_MARK (R401): the core's assay unit has sent every record of superstep `k`, after the flip that ended its compute
phase. -/
def execHorizonMark (die : Fin 8) (core : Fin 128) (k : Nat) (s : State) : Out :=
  let c := coreNum die core
  let co := getCore s c
  match co.part with
  | none => .next s
  | some p =>
    let x := getPart s p
    if x.launch.isNone ∨ x.st = .rollback ∨ x.phase.toNat < 2 * k + 1 ∨ x.lmap[co.lcore]? ≠ some c ∨
        (spGet [] x.sent co.lcore).contains k ∨ (co.asy.ctxs.any fun z => decide (z.phase.toNat / 2 = k)) then .next s
    else
      .next (updatePass (modPart s p fun x =>
        { x with sent := spSet x.sent co.lcore ((spGet [] x.sent co.lcore).filter (fun j => decide (x.passSs ≤ j)) ++ [k]) })
        p)

/-! ## Release (R407, R408) -/

/-- A task completed with every record passed. -/
def endedFine (s : State) (task : Word) : Bool :=
  (s.gran.ended.any fun e => decide (e.task = task) && e.fine) && !(s.gran.recs.any fun r => decide (r.task = task))

/-- PASS_SS of the running task is at or above the first checkpoint superstep after `ss` (R407, R408). -/
def passedNext (s : State) (p : Nat) (task : Word) (ss : Nat) : Bool :=
  let x := getPart s p
  taskRuns s p task && x.ckpts.any fun c => decide (ss < c.ss) && decide (c.ss ≤ x.passSs)

/-- A generation of the directory that may still be released: the task that sealed it runs, or has completed with every record
passed so far (R407); a teardown that erases its key keeps its entry as it is (R442, R453). -/
def mayRelease (s : State) (a : GenAud) : Bool :=
  let g := getGen s a.idx
  !a.fixedr && !a.failed && !g.carryFail && !slotTorn s g.keyslot && (decide (g.state = 3) || decide (g.state = 4)) && decide (g.ver = a.ver) &&
    (match a.sealer with
     | none => false
     | some t => taskRuns s a.part t || s.gran.ended.any fun e => decide (e.task = t) && e.fine)

/-- One generation stands before another in the order of release within a partition: its sealing task came first, or the same
task sealed it at a lower PHASE (R407). -/
def releasedFirst (s : State) (b a : GenAud) : Bool :=
  let t := fun (x : GenAud) => (x.sealer.getD 0).toNat
  let ph := fun (x : GenAud) => (getGen s x.idx).sealph.toNat
  decide (b.part = a.part) && (decide (t b < t a) || (decide (t b = t a) && decide (ph b < ph a)))

/-- GENERATION_RELEASE (R407): in ascending order of SEALPH within a partition, by the supersteps of the task that sealed it. A
record of that task, or of an earlier one, that may still join the set is waited for. -/
def execGenerationRelease (idx : Nat) (s : State) : Out :=
  match s.gran.gens.find? fun a => decide (a.idx = idx) with
  | none => .next s
  | some a =>
    let g := getGen s idx
    let ss := (g.sealph.toNat - 1) / 2
    let task := a.sealer.getD 0
    let first := s.gran.gens.all fun b => !mayRelease s b || !releasedFirst s b a
    let waits := s.gran.recs.any fun r =>
      decide (r.part = a.part) && decide (r.tid 0 = g.tid) &&
        (decide (r.task.toNat < task.toNat) || (decide (r.task = task) && decide (r.ss ≤ ss)))
    if g.state = 4 ∧ mayRelease s a ∧ first ∧ ¬ waits ∧ (a.ops.all fun o => o.passed) ∧
        (passedNext s a.part task ss ∨ endedFine s task) then
      let s := setGen s { g with state := 5 }
      let s := modGran s fun gr => { gr with gens := gr.gens.filter fun b => decide (b.idx ≠ idx) }
      .next (notify s a.part 3 idx g.tid g.ver 0 (getPart s a.part).phase)
    else .next s

/-- A held write, or a push of a checkpoint, may leave (R408, R471); never one of a task that aborts. -/
def mayLeave (s : State) (o : Outbound) : Bool :=
  endedFine s o.task || (taskRuns s o.part o.task && decide ((getPart s o.part).st ≠ .aborting) &&
    (let pass := (getPart s o.part).passSs
     if o.push.isSome then decide (o.ss ≤ pass)
     else passedNext s o.part o.task o.ss ||
       (decide (ckEvery (auditOf s o.part o.task) = 0) && decide (o.ss < pass))))

/-- The mask word of two ranks for one element of use `u`, from the key of the pair's session (R446). -/
def pairMask (k : Coll) (u a b e : Nat) : Word :=
  let ses := ((k.sessions.find? fun x => decide (x.1 = a) && decide (x.2.1 = b)).map fun x => x.2.2).getD 0
  wd (leNat (shake256 (leBytes 32 (Config.pairKey ses k.epoch).toNat ++ leBytes 8 k.id ++ leBytes 8 u ++ leBytes 8 e) 8))

/-- The sum of the masks that rank `a` adds to element `e` of use `u` of a collective (R446). -/
def maskSum (k : Coll) (u a e : Nat) : Word :=
  (List.range k.members.length).foldl (fun acc b =>
    if b = a then acc else if a < b then acc + pairMask k u a b e else acc - pairMask k u b a e) 0

/-- The number of the use in which an item contributes to a collective: the uses before it (R446). -/
def Coll.useOf (k : Coll) (o : Outbound) : Nat := (k.uses.findIdx? fun x => decide (x = (o.task, o.ss))).getD k.uses.length

/-- The lines of a pushed checkpoint image as they stood in vault memory, encrypted and with their sideband (R365, R471). -/
def imageForm (o : Outbound) : List Byte :=
  (List.range (imgBytes / 64)).flatMap fun i =>
    let bs := memBytes o.image (64 * i) 64
    match findSeal o.side (o.off / 64 + i) with
    | some x => storedForm x.key x.tid x.ver (x.line0 + (o.off / 64 + i - x.lo)) bs
    | none => bs

/-- The data of an item as it leaves: a push carries its image as it is stored (R471), a write to a collective is masked
(R446). -/
def outgoing (s : State) (o : Outbound) : List Byte :=
  if o.push.isSome then imageForm o
  else
  match collOf s o.tid, o.op with
  | some k, .xred minor _ qw _ _ =>
    match k.members.findIdx? fun d => decide (d.toNat = fld s.bilsol.devnum 17 0) with
    | none => o.data
    | some a =>
      (List.range (o.data.length / 8)).flatMap fun i =>
        let v := wd (leNat ((o.data.drop (8 * i)).take 8)) + maskSum k (k.useOf o) a (o.off / 8 + i)
        leBytes 8 (if minor.val = 9 then v.toNat % 2 ^ (qw.val + 1) else v.toNat)
  | _, _ => o.data

/-- An item that cannot be sent parks with a cause, and its core's die hears of it (R351, R447). -/
def parkItem (s : State) (cause : Byte) (o : Outbound) : State :=
  postEvent s o.die (coreEvent s o.core 1 cause (wd (o.seq % 2 ^ 16 * 2 ^ 48 + o.tid.toNat)))

/-- An item leaves the package, or lands in the device's own tensor; what that refuses parks with a permission fault (R242, R266,
R283, R408). -/
def sendOut (s : State) (o : Outbound) : State :=
  let s := if o.push.isSome then s else modPart s o.part fun x => { x with left := x.left || decide (x.taskid = o.task) }
  let o := { o with sent := outgoing s o, port := pairPort s o.core o.dev.toNat, sentAt := s.time }
  if o.push.isNone ∧ ownDevice s o.dev.toNat then
    match landTry s o.dev o.tid o.off o.op o.sent with
    | (s', .fault _ _) => parkItem (modGran s' fun g => { g with wire := g.wire ++ [{ o with parked := some 0x41 }] }) 0x41 o
    | (s', _) => s'
  else modGran (takePort s o.core o.dev.toNat) fun g => { g with wire := g.wire ++ [o] }

/-- A push that the peer refuses parks in its hold with cause permission, and its core's die hears of it (R283, R471). -/
def parkPush (s : State) (i : Nat) (o : Outbound) : State :=
  let s := modGran s fun g => { g with hold := setAt g.hold i { o with parked := some 0x41 } }
  postEvent s o.die (coreEvent s o.core 1 0x41 (wd ((o.push.map (·.1)).getD 0)))

/-- Item `q` was posted before item `o`, by the same core to the same device: for an earlier task, or in an earlier superstep, or
earlier in the queue (R408). -/
def postedBefore (q o : Outbound) : Bool :=
  decide (q.core = o.core) && decide (q.dev = o.dev) && q.push.isNone && o.push.isNone &&
    (decide (q.task.toNat < o.task.toNat) || (decide (q.task = o.task) &&
      (decide (q.ss < o.ss) || (decide (q.ss = o.ss) && decide (q.seq < o.seq)))))

/-- A write of the same core to the same device stands before a held one in the queue and is not yet in the hold (R408). -/
def copyMissing (s : State) (o : Outbound) : Bool :=
  let co := getCore s o.core
  o.push.isNone && decide (co.part = some o.part) && decide (o.task = (getPart s o.part).taskid) && decide (o.ss = (getPart s o.part).phase.toNat / 2) &&
    (((xqAll co).take o.seq).map (getEnt s o.core)).any fun e =>
      decide (e.far = 2) && (decide (e.op = 1) || e.isXred) && decide (fld e.farb 63 46 = o.dev.toNat) && !e.done

/-- A collective takes contributions of this device: it is valid, and the device is a member, for which there are masks (R446 to
R448). -/
def Coll.takes (s : State) (k : Coll) : Bool := k.valid && k.members.any fun d => ownDevice s d.toNat

/-- A write to the device's own tensor waits: for WBLK to clear, or for a line of PREV (R229, R240, R242). -/
def landWaits (s : State) (o : Outbound) : Bool :=
  o.push.isNone && ownDevice s o.dev.toNat &&
    match landTry s o.dev o.tid o.off o.op (outgoing s o) with
    | (_, .wait) => true
    | _ => false

/-- A held item can be sent: it is not parked, a port leads to its device, its collective takes it, the writes posted before it have
gone, none of them waiting to be sent again, and no earlier one is still to be copied; where it lands in this device, it need not
wait (R408, R446, R447, R469, R471). -/
def canSend (s : State) (l : List Outbound) (o : Outbound) : Bool :=
  o.parked.isNone && !landWaits s o && linkUp s o.dev.toNat && (o.push.isSome || (collOf s o.tid).all (Coll.takes s)) &&
    !(l.any fun q => postedBefore q o) && !(s.gran.wire.any fun q => q.port.isNone && q.parked.isNone && postedBefore q o) &&
    !copyMissing s o

/-- A request that has left is to be looked at again: its port has gone down and another leads to its device, or its 5 ms have
passed (R353, R469). -/
def resendDue (s : State) (d : Nat) (o : Outbound) : Bool :=
  decide (o.die = d) && o.parked.isNone &&
    ((o.port.isNone && linkUp s o.dev.toNat) || decide (o.sentAt + 5000000 ≤ s.time))

/-- A re-sent request is a non-idempotent XRED that the other device had applied already (R354): free. -/
def foundAgain (s : State) (o : Outbound) : Bool :=
  decide (1 ≤ o.tries) && (match o.op with
    | .write => false
    | .xred minor _ _ _ _ => nonIdem minor && Config.tagFound o.dev.toNat o.tid.toNat o.off s.ticks)

/-- The argument of an event about a request: the queue index of its entry and its tag or TID (R350). -/
def Outbound.arg (s : State) (o : Outbound) : Word :=
  let tag := match o.op with
    | .write => 0
    | .xred _ _ _ _ tag => tag.toNat
  wd (o.seq % max 1 (qwDepth (getCore s o.core).xq) * 2 ^ 48 + tag)

/-- What becomes of a request that is looked at again. Acknowledged, it is over; where a re-sent one had been applied already, its core
posts a kind-5 event (R354). Refused, it parks with a permission fault (R242, R283). Else it is sent again with the same tag, up to
three times, on its pair's port; then it parks with LINK (R353, R354, R469). -/
def resend (s : State) (i : Nat) (o : Outbound) : State :=
  let park := fun (cause : Byte) =>
    parkItem (modGran s fun g => { g with wire := setAt g.wire i { o with parked := some cause } }) cause o
  if Config.acknowledged o.dev.toNat o.tid.toNat o.off s.ticks then
    let t := modGran s fun g => { g with wire := dropAt g.wire i }
    if foundAgain s o then postEvent t o.die (coreEvent t o.core 5 0x47 (o.arg s)) else t
  else if Config.writeRefused o.dev.toNat o.tid.toNat o.off s.ticks then park 0x41
  else if o.tries < 3 then
    modGran (takePort s o.core o.dev.toNat) fun g =>
      { g with wire := setAt g.wire i { o with port := pairPort s o.core o.dev.toNat, sentAt := s.time, tries := o.tries + 1 } }
  else park 0x46

/-- OUTBOUND_RELEASE (R353, R408, R469): the first request of a die that is to be sent again, or else the first held item that may
leave and can be sent; transfers that waited for the room it held go on. -/
def execOutboundRelease (die : Fin 8) (s : State) : Out :=
  match findIdxOpt (resendDue s die) s.gran.wire 0 with
  | some (i, o) => .next (resend s i o)
  | none =>
  let l := s.gran.hold
  let first := (List.range l.length).findSome? fun i =>
    match l[i]? with
    | some o =>
      if o.die = die.val ∧ mayLeave s o ∧ canSend s l o then some (i, o) else none
    | none => none
  match first with
  | none => .next s
  | some (i, o) =>
    if o.push.isSome ∧ ¬ Config.peerAccepts o.dev.toNat ((o.push.map (·.1)).getD 0) s.ticks then .next (parkPush s i o)
    else .next (wake s (sendOut (modGran s fun g => { g with hold := dropAt g.hold i }) o))

/-! ## Diagnostic copies (R414 step 4, R418) -/

/-- Diagnostic slots whose entry the ring has passed are free: a copy still to be compared is no longer kept (R418). -/
def freeDiags (s : State) : State :=
  let keep := s.gran.diags.filter fun d => !(d.compared && !inFrec s d.frec)
  let l := keep.map fun d => if inFrec s d.frec then d else { d with slot := 255 }
  modGran s fun g => { g with diags := l }

/-- The lowest free diagnostic slot. -/
def freeSlot (s : State) : Option Nat :=
  (List.range (fld s.gran.geodeCtl 7 0)).find? fun n => !(s.gran.diags.any fun d => decide (d.slot = n))

/-- Physical base of a diagnostic slot. -/
def slotBase (s : State) (n : Nat) : Nat := fld s.gran.geodeCtl 45 26 * 2 ^ 26 + n * 2 ^ 29

/-- Copy the first lines of a generation, as ciphertext with sideband, to a physical address. -/
def copyGen (s : State) (g : Gen) (base bytes : Nat) : State :=
  (leavesOf s g).foldl (fun s x =>
    let off := x.1 - g.vbase
    match x.2 with
    | some l =>
      if bytes ≤ off then s
      else copyLines s (base + off) (l.readPa (lowDie s) x.1) (min (l.size - x.1 % l.size) (bytes - off))
    | none => s) s

/-- The lines of a kept copy that differ from the rerun's generation. -/
def diffLines (s : State) (d : Diag) (g : Gen) : List Nat :=
  (List.range (min d.lines g.lines)).filter fun ln =>
    let pa := slotBase s d.slot + 64 * ln
    let old := if lineReadable s d.keyslot d.tid (BitVec.ofNat 32 d.ver) ln (pa / 64) then some (vaultBytes s pa 64) else none
    decide (old ≠ genLine s (lowDie s) g ln)

/-- The comparison of a kept copy with a generation that has just become STAGED at its index, if that is the rerun's (R418). -/
def stageDiag (s : State) (g : Gen) (d : Diag) : Diag :=
  if d.idx = g.idx ∧ d.tid = g.tid ∧ d.ver ≠ g.ver ∧ ¬ d.compared ∧
      s.gran.gens.any (fun a => decide (a.idx = g.idx) && decide (a.task = d.task)) then
    let kept := decide (d.slot ≠ 255)
    let l := if kept then diffLines s d g else []
    { d with rerun := some { ver := g.ver, kept := kept, differ := l.length, first := l.headD 0 } }
  else d

/-- Carry every remaining line of a SEALED generation; it becomes STAGED unless a line failed (R240), copies of the failed run's
generation at the index are compared with it (R418), and what waited for its lines goes on (R242). -/
def carryForward (s : State) (i : Nat) : State :=
  let g := getGen s i
  let t := freeMap ((List.range g.lines).foldl (carryLine i) s) i
  let g := getGen t i
  if g.carryFail then retryLands t
  else
    let g := { g with state := 4 }
    let t := setGen { t with written := spErase t.written i } g
    let t := modGran t fun gr => { gr with diags := gr.diags.map (stageDiag t g) }
    let t := notify (postNote t (lineHome t g 0) 3 g.owner 0 (wd i)) g.owner 2 i g.tid g.ver 0 (getPart t g.owner).phase
    wake s (retryLands t)

/-- CARRY_FORWARD_COMPLETE (R240): a teardown that erases the generation's key stops it (R442, R453). -/
def execCarryForwardComplete (idx : Nat) (s : State) : Out :=
  let g := getGen s idx
  if idx < ttCount s ∧ g.state = 3 ∧ ¬ g.carryFail ∧ ¬ slotTorn s g.keyslot ∧ carryReady s g then .next (carryForward s idx)
  else .next s

/-- Keep a failing generation for the comparison (R418, R423): lines not yet carried are carried first. -/
def keepDiag (p : Nat) (f : Failed) (frec : Option Nat) (s : State) (a : GenAud) : State :=
  let g := getGen s a.idx
  let s := if g.state = 3 ∧ ¬ slotTorn s g.keyslot then (List.range g.lines).foldl (carryLine a.idx) s else s
  let g := getGen s a.idx
  let bytes := min g.size (2 ^ 26)
  let slot := if frec.isSome then freeSlot s else none
  let s := match slot with
    | some n => copyGen s g (slotBase s n) bytes
    | none => s
  let s := match slot, frec with
    | some n, some e => modGran s fun gr =>
        { gr with frec := spSet gr.frec (e % 256) { spGet f.ent gr.frec (e % 256) with slot := n } }
    | _, _ => s
  modGran s fun gr =>
    { gr with diags := gr.diags ++
        [{ slot := slot.getD 255, idx := a.idx, part := p, task := (getPart s p).taskid, rerun := none, frec := frec.getD 0, tid := g.tid, ver := g.ver
           keyslot := g.keyslot, ss := f.ss, lines := bytes / 64, image := genBytes { g with flags := g.flags ||| 2 }
           ent := { f.ent with slot := slot.getD 255 }, compared := false, refailed := false }] }

/-! ## Remapping (R415) -/

/-- The strings of a partition on a die. -/
def stringsOn (s : State) (p d : Nat) : List Nat := (boundStrings s p).filter fun n => decide (n / 32 = d)

/-- A die's slot table has a FREE record. -/
def freeRecord (s : State) (d : Nat) : Option Nat :=
  (List.range 32).find? fun i => decide ((getBind s d i).state = .free)

/-- The strings of a die that could take moved ones: unbound, not excluded, on no scrub list (R211, R444). -/
def openStrings (s : State) (d : Nat) : List Nat :=
  ((List.range 32).map fun i => 32 * d + i).filter fun n => stringFree s n

/-- A string can take the logical cores of another, each at its position: none falls on a ballast core (R183, R415). -/
def takesPlace (s : State) (p old new : Nat) : Bool :=
  (getPart s p).lmap.all fun c => decide (strOf c ≠ old) || !(getCore s (4 * new + c % 4)).ballast

/-- Match strings with places in ascending order, each with the first place left that can take it (R415, log entry 39). -/
def matchStrings (s : State) (p : Nat) : List Nat → List Nat → List (Nat × Nat)
  | [], _ => []
  | n :: r, places =>
    match places.find? (takesPlace s p n) with
    | some m => (n, m) :: matchStrings s p r (places.filter fun x => decide (m < x))
    | none => []

/-- Case 1 of R415: unbound strings of the first die after `d` that has as many. -/
def moveAway (s : State) (p d : Nat) (old : List Nat) : Option (List (Nat × Nat)) :=
  let l := (getPart s p).launch.getD Launch.zero
  (List.range 7).findSome? fun i =>
    let e := (d + 1 + i) % 8
    let m := matchStrings s p old (openStrings s e)
    if (stringsOn s p e = [] ∧ (freeRecord s e).isNone) ∨ m.length < old.length ∨
        ¬ fitsDie s e (stringCharge s (runningBind p) (l.peak, l.energy) (m.map (·.2))) then none
    else some m

/-- Case 2 of R415: an exchange with the partition's strings on the next die of its DIEMASK, but for pairs that would put a
logical core on a ballast core (R183). -/
def swapDies (s : State) (p d : Nat) (old : List Nat) : Option (List (Nat × Nat)) :=
  (List.range 7).findSome? fun i =>
    let e := (d + 1 + i) % 8
    let other := stringsOn s p e
    if bit (partDies s p) e ∧ other ≠ [] then
      let ps := (old.zip other).filter fun x => takesPlace s p x.1 x.2 && takesPlace s p x.2 x.1
      some (ps ++ ps.map fun x => (x.2, x.1))
    else none

/-- Where the strings of a partition go, by old string number. -/
def remapOf (s : State) (p d : Nat) : List (Nat × Nat) :=
  let old := stringsOn s p d
  match moveAway s p d old with
  | some m => m
  | none => (swapDies s p d old).getD []

/-- A string's place after the move. -/
def moved (m : List (Nat × Nat)) (n : Nat) : Nat := (spFind m n).getD n

/-- The partition's bind records after a move (R374, R415): STRINGS and DIEMASK follow; a die left without strings gives up
its record, a new die takes its lowest FREE one. -/
def rebind (s : State) (p : Nat) (strs : List Nat) : State :=
  let recs := bindsOf s p fun x => decide (x = .running)
  let old := (recs.head?.map fun x => getBind s x.1 x.2).getD Bind.zero
  let mask := BitVec.ofNat 16 (maskOf 16 (strs.map (· / 32))).toNat
  let bitsOn := fun (d : Nat) => maskOf 32 ((strs.filter fun n => decide (n / 32 = d)).map (· % 32))
  let s := recs.foldl (fun s x => modBind s x.1 x.2 fun b =>
    if bitsOn x.1 = 0 then Bind.zero else { b with strings := bitsOn x.1, diemask := mask }) s
  (List.range 8).foldl (fun s d =>
    if bitsOn d = 0 ∨ recs.any fun x => decide (x.1 = d) then s
    else
      match freeRecord s d with
      | none => s
      | some i => modBind s d i fun _ => { old with strings := bitsOn d, diemask := mask, status := 0, result := 0 }) s

/-- Move a partition's strings, and clear the cores it leaves and takes (R415). -/
def moveStrings (s : State) (p : Nat) (m : List (Nat × Nat)) : State :=
  let x := getPart s p
  let olds := boundStrings s p
  let strs := (olds.map (moved m)).foldl (fun l n => insertSorted n l) []
  let s := x.lmap.foldl (fun s c => modCore s c clearCore) s
  let s := unbindStrings s olds
  let s := strs.foldl (fun s n => modStr s n fun y => { y with part := some p }) s
  let s := modPart s p fun x =>
    { x with strings := strs, lmap := x.lmap.map fun c => 4 * moved m (strOf c) + c % 4 }
  rebind s p strs

/-! ## Rollback (R414) -/

/-- The checkpoint that a failure of superstep `f` returns to (R413). -/
def backTo (x : Part) (f : Nat) : Ckpt :=
  let l := x.ckpts.filter fun c => decide (c.ss ≤ min f x.passSs)
  l.foldl (fun b c => if b.ss < c.ss then c else b) (l.headD { ss := 0, num := 0, seq := 0, result := 0, resw := [], bases := [] })

/-- The test of a record reads the generation of its REF0. -/
def WitRec.readsGen (r : WitRec) : Bool :=
  !r.incomplete && !r.engerr &&
    ((decide (r.kind = 1) && decide (r.v0 = r.v1)) || (decide (r.kind = 5) && (elemFn r.v0.toNat).isSome))

/-- Step 2: engines and contexts are voided, records of superstep `c` or later are discarded, failed ones entered; one whose
generation is still to open has no test to fail. -/
def rollVoid (s : State) (p c : Nat) : State :=
  let x := getPart s p
  let s := x.lmap.foldl (fun s k => modCore s k Core.stop) s
  let mine := fun (r : WitRec) => decide (r.part = p) && decide (r.task = x.taskid) && decide (c ≤ r.ss)
  let s := (s.gran.recs.filter fun r => mine r && !(awaitsOpen s r && r.readsGen)).foldl (fun s r =>
    match testRecord s r with
    | .fail k a b d => addFrec s (failEntry s r k a b d).discarded
    | _ => s) s
  modGran s fun g => { g with recs := g.recs.filter fun r => !mine r }

/-- Step 3: held writes of superstep `c` or later are discarded. -/
def rollHold (s : State) (p c : Nat) : State :=
  modGran s fun g => { g with hold := g.hold.filter fun o =>
    !(decide (o.part = p) && decide (o.task = (getPart s p).taskid) && decide (if o.push.isSome then c < o.ss else c ≤ o.ss)) }

/-- Step 5: generations opened in superstep `c` or later become READY with ROLLED, landing tensors apart. In the sets of those that
stay, the operators of superstep `c` or later are tested anew (R407). -/
def rollGens (s : State) (p c : Nat) : State :=
  let task := (getPart s p).taskid
  let mine := fun (a : GenAud) => decide (a.part = p) && decide (a.task = (getPart s p).taskid) && decide (c ≤ a.openSs) &&
    !(getGen s a.idx).landing && decide (2 ≤ (getGen s a.idx).state) && decide ((getGen s a.idx).state ≤ 4)
  let l := s.gran.gens.filter mine
  let s := l.foldl (fun s a =>
    let g := getGen s a.idx
    let s := freeMap (setGen s { g with state := 1, flags := g.flags ||| 4, audn := 0, audset := 0 }) a.idx
    { s with written := spErase s.written a.idx }) s
  let s := (List.range 8).foldl (fun s d => modDie s d fun x =>
    { x with red := x.red.filter fun e => decide (e.part ≠ p) || e.landing }) s
  modPart (modGran s fun g =>
    { g with gens := (g.gens.filter fun a => !(l.any fun b => decide (b.idx = a.idx))).map fun a =>
               { a with ops := a.ops.map fun o =>
                   if o.task = task ∧ c ≤ o.ss then { o with passed := false, failed := false } else o }
             diags := g.diags.map fun d => if l.any fun b => decide (b.idx = d.idx) then { d with rerun := none } else d }) p
    fun x => { x with wlines := [], rlines := [], holding := none, quiesce := false }

/-- Step 7 for a checkpoint's images: none where one cannot be read. -/
def rollRestore (s : State) (p : Nat) (k : Ckpt) : Option State :=
  let x := getPart s p
  let off := imgBytes * (k.num % 2)
  match allAreas (fun i => (loadImage s p i (k.bases.getD i 0 + off) imgBytes k.seq).map fun _ => 0)
      (List.range x.lmap.length) with
  | none => none
  | some _ =>
    some ((List.range x.lmap.length).foldl (fun s i =>
      withStays (modCore s (x.lmap.getD i 0) fun co =>
        imageRestore p (x.launch.getD Launch.zero) (memSlice s.vault (k.bases.getD i 0 + off) imgBytes) co) (x.lmap.getD i 0))
      (clearTags s p))

/-- Step 8: the phase counter returns to 2c and the partition computes, or is held; the straggler timer restarts, the watchdog
does not (R414, R467). Dispatch, repeated for c = 0, loads STRAG_LIMIT again (R205). -/
def rollResume (s : State) (p : Nat) (f : Failed) (k : Ckpt) : State :=
  let s := modPart s p fun x =>
    { x with
      rerunTo := if x.phase.toNat < x.rerunTo.toNat then x.rerunTo else x.phase + 1
      phase := wd (2 * k.ss), result := k.result, resw := k.resw, passSs := k.ss, ckptSs := k.ss, rolling := false, failed := none
      execs := x.execs + 1, ckpts := x.ckpts.filter fun c => decide (c.ss ≤ k.ss), nckpt := k.num + 1
      failedSs := x.failedSs.filter (fun j => decide (j < k.ss))
      sent := x.sent.map fun e => (e.1, e.2.filter fun j => decide (j < k.ss))
      snap := none, idem := false, finalDone := false, saved := false, migLate := false
      stragLimit := if k.ss = 0 then (x.launch.getD Launch.zero).strag else x.stragLimit
      failKeys := (f.ent.opid, f.ss) :: x.failKeys }
  let s := latchPower s p k.ss
  testCores (modPart (modPart s p fun x => { x with stragAt := s.time, stragPosted := false }) p fun x =>
    if x.hold then { x with st := .held, resume := .compute, stragAt := 0 } else { x with st := .compute }) p

/-- Steps 2 to 6 of R414. -/
def rollMove (s : State) (p : Nat) (f : Failed) : State :=
  let k := backTo (getPart s p) f.ss
  let frec := (f.idx.filter (inFrec s)).map (· % 512)
  let s := rollHold (rollVoid (freeDiags s) p k.ss) p k.ss
  let s := (s.gran.gens.filter fun a => a.holds (getPart s p).taskid f.ent.opid f.ss).foldl
    (keepDiag p f frec) s
  let s := rollGens s p k.ss
  let d := f.ent.die
  let m := remapOf s p d
  let old := stringsOn s p d
  let same := old.any fun n => decide (moved m n / 32 = d)
  let arg := wd (256 * ((old.head?.map fun n => moved m n / 32).getD d) + b2n same)
  let setArg := fun (e : FrecEnt) => { e with arg := e.arg ||| arg }
  let s := match frec with
    | some e => modGran s fun g => { g with frec := spSet g.frec (e % 256) (setArg (spGet f.ent g.frec (e % 256))) }
    | none => s
  let s := modGran s fun g => { g with diags := g.diags.map fun x => if x.ent.time = f.ent.time ∧ x.part = p ∧ ¬ x.compared
    then { x with ent := setArg x.ent } else x }
  moveStrings s p m

/-- Steps 2 to 8 of R414. Images that can no longer be read send the task to ABORTING with STATUS 1 (log entry 13). -/
def rollBack (s : State) (p : Nat) (f : Failed) : State :=
  let k := backTo (getPart s p) f.ss
  let s := rollMove s p f
  if k.ss = 0 then rollResume (setupCores s p) p f k
  else
    match rollRestore s p k with
    | some s => rollResume s p f k
    | none => modPart (abortPart s p) p fun x => { x with rolling := false, failed := none, status := 1 }

/-- The lines that step 4 copies are carried, or will not be: a rollback waits for Pumice to carry the lines that they are filled from
(R240, R423). -/
def copiesReady (s : State) (p : Nat) (f : Failed) : Bool :=
  (s.gran.gens.filter fun a => a.holds (getPart s p).taskid f.ent.opid f.ss).all fun a =>
    let g := getGen s a.idx
    decide (g.state ≠ 3) || g.carryFail || slotTorn s g.keyslot || carryReady s g

/-- ROLLBACK (R414): a failure whose answer is due is answered; a rollback that has started is carried out. -/
def execRollback (part : Fin 256) (s : State) : Out :=
  let x := getPart s part
  match x.failed with
  | none => .next s
  | some f => if x.st = .rollback then .next (if copiesReady s part f then rollBack s part f else s) else .next (settleFailure s part)

/-! ## Comparison, strikes and retirement (R418, R419) -/

/-- The number that a unit's strikes stand under: cores from 0, strings from 1,024, dies from 2,048. -/
def strikeKey : RetUnit → Nat
  | .core d c => 128 * d + c
  | .string d t => 1024 + 32 * d + t
  | .die d => 2048 + d

/-- One strike on a unit; the one that reaches the limit orders the action, recorded as a kind-3 entry (R419). -/
def strike (e : FrecEnt) (lim act : Nat) (s : State) (u : RetUnit) : State :=
  let was := spGet 0 s.gran.strikes (strikeKey u)
  let now := min 255 (was + 1)
  let s := modGran s fun g => { g with strikes := spSet g.strikes (strikeKey u) now }
  if was < lim ∧ now = lim then
    modGran (addFrec s { FrecEnt.blank s 3 0 e.die e.part with
      lcore := e.lcore, pcore := e.pcore, str := e.str, arg := wd act }) fun g => { g with orders := g.orders ++ [u] }
  else s

/-- The strikes of a kind-2 verdict (R419). -/
def strikeAll (s : State) (e : FrecEnt) : State :=
  let c := s.gran.strikeCtl
  let d : Fin 8 := Fin.ofNat 8 e.die
  strike e (fld c 23 16) 3 (strike e (fld c 15 8) 2 (strike e (fld c 7 0) 1 s (.core d (Fin.ofNat 128 e.pcore)))
    (.string d (Fin.ofNat 32 e.str))) (.die d)

/-- The verdict of a comparison (R417). -/
def rerunVerdict (kept refailed differs : Bool) : Nat :=
  if kept then (if refailed then (if differs then 4 else 3) else if differs then 0 else 1) else if refailed then 5 else 2

/-- The rerun's audit is known: its records failed again, its superstep is wholly audited, or its task has completed and no
record of it is left (R401, R418). -/
def rerunJudged (s : State) (d : Diag) : Bool :=
  d.refailed || (taskRuns s d.part d.task && decide (d.ss < (getPart s d.part).passSs)) ||
    (!taskRuns s d.part d.task && !(s.gran.recs.any fun r => decide (r.task = d.task) && decide (r.ss = d.ss)))

/-- The kind-2 entry is due: the comparison was made when the rerun's generation became STAGED, and its audit is known (R418). -/
def compareDue (s : State) (d : Diag) : Bool := !d.compared && d.rerun.isSome && rerunJudged s d

/-- RERUN_COMPARE (R418): the first comparison of a diagnostic slot that is due; 255 names the copies that were not kept. -/
def execRerunCompare (slot : Nat) (s : State) : Out :=
  match findIdxOpt (fun d => decide (d.slot = slot) && compareDue s d) s.gran.diags 0 with
  | none => .next s
  | some (i, d) =>
    let r := d.rerun.getD { ver := 0, kept := false, differ := 0, first := 0 }
    let v := rerunVerdict r.kept d.refailed (decide (r.differ ≠ 0))
    let s := addFrec s { d.ent with
      kind := 2, verdict := v, time := s.time, ref0 := BitVec.ofNat 96 (d.tid.toNat + 2 ^ 64 * r.ver),
      expect := wd r.differ, found := wd r.first }
    let rest := if d.slot = 255 then dropAt s.gran.diags i else setAt s.gran.diags i { d with compared := true }
    let s := modGran s fun gr => { gr with diags := rest }
    .next (if v ≤ 2 then strikeAll s d.ent else s)

/-- A unit holds no bound string (R419). -/
def unitFree (s : State) : RetUnit → Bool
  | .core d c => (getStr s (strOf (128 * d + c))).part.isNone
  | .string d t => (getStr s (32 * d + t)).part.isNone
  | .die d => (List.range 32).all fun i => (getStr s (32 * d + i)).part.isNone

/-- RETIREMENT_EFFECT (R419): an ordered action takes effect once its unit holds no bound string. -/
def execRetirementEffect (unit : RetUnit) (s : State) : Out :=
  if ¬ s.gran.orders.contains unit ∨ ¬ unitFree s unit then .next s
  else
    let s := modGran s fun g => { g with orders := g.orders.filter fun u => decide (u ≠ unit) }
    match unit with
    | .core d c => .next (modCore s (128 * d + c) fun co => { co with ballast := true })
    | .string d t => .next (modStr s (32 * d + t) fun x => { x with excluded := true })
    | .die d => .next (modGran s fun g => { g with excluded := g.excluded ||| BitVec.ofNat 16 (2 ^ d.val) })

end Sys2Proof.Machine
end

