-- ==== Sys2Proof/Machine/Phase.lean ====
section
/-!
DEFINITION. Machine/Phase.lean: the flips, HELD and FINAL (R190 to R201, R359, R371, R410, R411, R451), completion of a task
(R206, R207, R210), the teardown of a world (R442 to R445, R453) and the scrub lists.
-/
namespace Sys2Proof.Machine

/-! ## What a flip asks of the cores -/

/-- Every group of a core has finished (R191). -/
def Core.finished (co : Core) : Bool := (List.range co.ngroups).all co.groupDone

/-- A core has no clause in flight, no released entry and no long-latency instruction (R359). -/
def Core.settled (co : Core) : Bool :=
  (List.range co.ngroups).all fun g =>
    let gr := co.group g
    !gr.inFlight && gr.released.isEmpty && gr.out.isEmpty

/-- Some entry of a kind is parked on a core of the partition. -/
def entryParked (s : State) (p op : Nat) : Bool :=
  (partCores s p).any fun c => (xqAll (getCore s c)).any fun q => decide ((getEnt s c q).op = op) && (getEnt s c q).parked

/-- The result word is settled: the last RESW of the lowest group of the lowest logical core that issued one (R207). -/
def settleResult (s : State) (p : Nat) : State :=
  modPart s p fun x => { x with result := ((x.resw.head?).map (·.2)).getD x.result, resw := [] }

/-- The cores begin an exchange phase, whose transfers read scratchpad as it stands now (R255), and test whether it has already ended
for them (R191). -/
def beginExchange (s : State) (p : Nat) : State :=
  (partCores s p).foldl (fun s c => retest (modCore s c fun co =>
    { co with pst := .exchange, named := false, exch := { co.exch with start := co.spad } }) c) s

/-! ## Flip to exchange (R192, R280, R375) -/

/-- A migration of a world's core whose scrub is not done holds FLIP_X (R474). -/
def migScrubbing (x : Part) : Bool :=
  !x.scrub.complete && x.scrub.uses.any fun u => match u with
    | .migrate _ => true
    | .teardown _ | .evict => false

/-- The opens of the boundary take effect, the counter advances, and the partition goes to EXCHANGE, or towards HELD where no
open has parked (R192, R280). -/
def openAndAdvance (s : State) (p : Nat) : State :=
  let s := settleResult (tensorPhase (dropVacant s p) p 12) p
  let s := beginExchange (advancePhase s p) p
  if (getPart s p).hold ∧ ¬ entryParked s p 12 then toHold s p .exchange
  else modPart s p fun x => { x with st := .exchange }

/-- FLIP_X (R192): from COMPUTE once every core is SYNCED, unless every group has finished; then the migration ordered before
(R389), the opens and the advance. -/
def execFlipX (part : Fin 256) (s : State) : Out :=
  let x := getPart s part
  let p := part.val
  if x.holding.isSome ∨ x.launch.isNone then .next s
  else if x.st = .compute then
    if allCores s p (fun co => decide (co.pst = .synced)) ∧ ¬ allCores s p Core.finished then
      .next (modPart ((partCores s p).foldl autoClose s) p fun x => { x with st := .flipX, migNow := x.mig.isSome && !x.migLate, migLate := false })
    else .next s
  else if x.st ≠ .flipX then .next s
  else
    match if x.migNow then x.mig else none with
    | some (fr, dst) =>
      let busy := match (partCores s p)[fr]? with
        | some c => !(getCore s c).asy.queue.isEmpty
        | none => false
      if busy || migScrubbing x then .next s else .next (migrate s p fr dst)
    | none => .next (openAndAdvance s p)

/-! ## The end of an exchange phase and the flip to compute -/

/-- Once every core is XDONE, a TSEAL whose check fails parks, and the phase goes on with nothing else done (R280, R284; log entry
76); else the reduction store is written back, before any seal (R239), and the posted seals take effect. -/
def endExchange (s : State) (p : Nat) : State × Bool :=
  if badSeals s p = [] then (tensorPhase (redWriteback s p) p 13, true) else (parkSeals s p, false)

/-- Superstep `k` of a partition is a checkpoint (R410), every core having an area that may be used. -/
def isCkpt (s : State) (p k : Nat) : Bool :=
  let e := ckEvery (((getPart s p).launch.map Launch.audit).getD 0)
  decide (0 < k) && decide (e ≠ 0) && decide (k % e = 0) &&
    !((allGens s).any fun g => decide (g.owner = p) && decide (g.state = 2) && !g.landing) &&
    (allAreas (fun c => areaOf (getCore s c).ckptBase 0x216000) (partCores s p)).isSome

/-- The flip into superstep `k` waits for the audits (R411). -/
def auditWaits (s : State) (p k : Nat) : Bool :=
  let x := getPart s p
  let w := winOf s ((x.launch.map Launch.audit).getD 0)
  (isCkpt s p k && decide (x.passSs < x.ckptSs)) || (decide (w < k) && decide (x.passSs < k - w))

/-- Every group that synced in the compute phase voted idempotent, and one synced (R197). A group that issued SYNC or SYNC.I and
finished in the same phase counts with the vote it gave (log entry 33). -/
def votedIdem (s : State) (p : Nat) : Bool :=
  let gs := (partCores s p).flatMap fun c => (getCore s c).groups.filter fun e => e.2.synced
  !gs.isEmpty && gs.all fun e => e.2.vote

/-- The seals of the lines of a run of vault bytes. -/
def sealsIn (s : State) (pa n : Nat) : List Seal :=
  s.side.filter fun x => decide (x.lo < (pa + n) / 64) && decide (pa / 64 < x.lo + x.count)

/-- The pushes of checkpoint images to the peer, held until they are audited; each takes its image as it stands now (R471, log entry
43). -/
def pushCkpt (s : State) (p k seq num : Nat) (bases : List Nat) : State :=
  let x := getPart s p
  if ¬ bit x.peerCtl 63 then s
  else
    modGran s fun g => { g with hold := g.hold ++ (List.range x.lmap.length).map fun n =>
      let pa := bases.getD n 0 + imgBytes * (num % 2)
      ({ die := dieOf (x.lmap.getD n 0), core := x.lmap.getD n 0, part := p, task := x.taskid, ss := k,
         dev := BitVec.ofNat 18 (fld x.peerCtl 47 30), tid := seqTid seq, off := pa,
         op := .write, data := [], sent := [], push := some (fld x.peerCtl 29 0 * 65536 + imgBytes * n, seq), seq := n, parked := none
         port := none, sentAt := 0, tries := 0, image := memSlice s.vault pa imgBytes, side := sealsIn s pa imgBytes } : Outbound) }

/-- Take checkpoint `k`: one image of every core, under a number of its own, in slot `n mod 2`; the two latest checkpoints and
the latches from the older one onwards are kept (R410, R412). -/
def takeCkpt (s : State) (p k : Nat) : State :=
  match allAreas (fun c => areaOf (getCore s c).ckptBase 0x216000) (partCores s p) with
  | none => s
  | some bases =>
    let n := (getPart s p).nckpt
    let sq := takeSeq s
    let s := writeImages sq.2 p bases (imgBytes * (n % 2)) imgBytes sq.1 fun s c =>
      contextImage s c (getPart s p).savecnt.toNat sq.1
    let s := modPart s p fun x =>
      let l := x.ckpts ++ [{ ss := k, num := n, seq := sq.1, result := x.result, resw := x.resw, bases := bases }]
      let l := l.drop (l.length - 2)
      { x with ckpts := l, nckpt := n + 1, ckptSs := k
               latches := x.latches.filter fun e => decide (((l.head?).map Ckpt.ss).getD 0 ≤ e.1) }
    pushCkpt s p k sq.1 n bases

/-- What a compute phase begins with on every core: marks, gates and consumed entries gone, filler at the declared peak, PWRSTATE
latched (R182, R185, R193). The images of the flip hold this state, which their supersteps start from. -/
def readyCompute (s : State) (p k : Nat) : State := latchPower (rampUp (modCores s p Core.beginCompute) p) p k

/-- The counter advances to an even value and a compute phase begins (R190, R193). -/
def beginCompute (s : State) (p : Nat) : State :=
  testCores (modPart (advancePhase s p) p fun x =>
    { x with st := .compute, wlines := [], rlines := [], quiesce := false, audWait := false }) p

/-- FLIP_C's work for superstep `k` (R182, R192, R371, R410, R411): it waits for the audits, then for the clauses in flight
where images are written, then ramps, writes them and advances. -/
def flipToCompute (s : State) (p k : Nat) : State :=
  if auditWaits s p k then modPart s p fun x => { x with audWait := true }
  else
    let idem := votedIdem s p && (allAreas (ctxArea s) (partCores s p)).isSome
    let ck := isCkpt s p k
    if (idem ∨ ck) ∧ ¬ allCores s p Core.settled then modPart s p fun x => { x with quiesce := true, audWait := false }
    else
      let s := readyCompute (modPart s p fun x => { x with idem := idem, snap := none }) p k
      let s := if idem then takeSnapshot s p else s
      let s := if ck then takeCkpt s p k else s
      beginCompute s p

/-- FLIP_C (R192): from EXCHANGE once every core is XDONE, no write-back waits for WBLK (R229, R239), and the seals have taken
effect, by way of HELD where HOLD is 1; a failed audit takes its place by a rollback (R423). -/
def execFlipC (part : Fin 256) (s : State) : Out :=
  let x := getPart s part
  let p := part.val
  if x.holding.isSome ∨ x.launch.isNone then .next s
  else if x.st = .exchange then
    if ¬ allCores s p (fun co => decide (co.pst = .xdone)) ∨ redBlocked s p then .next s
    else
      match endExchange s p with
      | (s', false) => .next s'
      | (s', true) =>
        if x.hold ∧ x.failed.isNone then .next (toHold s' p .flipC)
        else .next (settleFailure (modPart s' p fun x => { x with st := .flipC }) p)
  else if x.st = .flipC then
    if x.failed.isSome then .next (settleFailure s p) else .next (flipToCompute s p ((x.phase.toNat + 1) / 2))
  else .next s

/-! ## HELD (R359, R360) -/

/-- HELD_ENTRY (R359): every clause in flight has ended, every long-latency instruction and every assay command is complete;
the straggler timer stops. A save stays good where no byte of its images has changed since (R368). -/
def execHeldEntry (part : Fin 256) (s : State) : Out :=
  match (getPart s part).holding with
  | none => .next s
  | some r =>
    if (partCores s part).all fun c => (getCore s c).settled && (getCore s c).asy.queue.isEmpty then
      .next (settleFailure (modPart s part fun x =>
        { x with st := .held, resume := r, holding := none, stragAt := s.time - x.stragAt, saved := x.savedStill s part }) part)
    else .next s

/-- PH_CTL_HOLD (R192, R200): clearing HOLD before HELD is reached lets the partition go on, and in HELD resumes it. -/
def execPhCtlHold (part : Fin 256) (hold : Bool) (s : State) : Out :=
  let s := modPart s part fun x => { x with hold := hold }
  if hold then .next s
  else
    match (getPart s part).holding with
    | some r => .next (modPart s part fun x => { x with st := r, holding := none })
    | none => .next (resumeHeld s part)

/-! ## Aborts and the straggler timer (R199 to R201) -/

/-- PH_CTL_ABORT (R192, R200). -/
def execPhCtlAbort (part : Fin 256) (s : State) : Out := .next (abortPart s part)

/-- PH_CTL_STRAG_CLEAR (R200). -/
def execPhCtlStragClear (part : Fin 256) (s : State) : Out := .next (modPart s part fun x => { x with strag := false })

/-- STRAG_LIMIT_WRITE (R199, R201): the write restarts the timer. -/
def writeStrag (s : State) (p : Nat) (v : Word) : State :=
  modPart s p fun x =>
    { x with stragLimit := v &&& 0xFFFFFFFFFF, stragAt := if x.st = .held then 0 else s.time, stragPosted := false }

/-- STRAG_LIMIT_WRITE (R199). -/
def execStragLimitWrite (part : Fin 256) (v : Word) (s : State) : Out := .next (writeStrag s part v)

/-- The straggler timer runs in this state (R201). -/
def stragRuns (x : Part) : Bool :=
  x.launch.isSome && decide (x.stragLimit ≠ 0) && !x.stragPosted &&
    (decide (x.st = .compute) || decide (x.st = .flipX) || decide (x.st = .exchange) || decide (x.st = .flipC) ||
      decide (x.st = .final))

/-- The code of PH_CTL.STATE (R192, R414). -/
def stateCode : PhState → Nat
  | .idle => 0 | .compute => 1 | .flipX => 2 | .exchange => 3 | .flipC => 4 | .held => 5 | .final => 6 | .aborting => 7
  | .rollback => 8

/-- The kind-4 event of a partition (R350). -/
def stragEvent (s : State) (p : Nat) : EventRec :=
  let x := getPart s p
  let late := (partCores s p).filter fun c => decide ((getCore s c).pst ≠ .synced) && decide ((getCore s c).pst ≠ .xdone)
  let c := late.foldl min (late.headD 0)
  { kind := 4, cause := 0, die := homeDie x, part := p, core := if late.isEmpty then 0xFFFF else c % 128,
    lcore := if late.isEmpty then 0xFFFF else (getCore s c).lcore, phase := x.phase, time := s.time,
    arg := wd (late.length * 65536 + stateCode x.st) }

/-- STRAGGLER_TIMEOUT (R201): the timer reaches LIMIT_NS. -/
def execStragglerTimeout (part : Fin 256) (s : State) : Out :=
  let x := getPart s part
  if stragRuns x then
    let s := { s with time := max s.time (x.stragAt + x.stragLimit.toNat) }
    .next (postEvent (modPart s part fun x => { x with strag := true, stragPosted := true }) (homeDie x) (stragEvent s part))
  else .next s

/-! ## Teardown of a world (R442, R443, R453) -/

/-- The key slots that a world's teardown zeroises: its own, and the other non-export slots of its session that no running
world holds. -/
def zeroSlots (s : State) (w : Nat) : List Nat :=
  let ses := (getKey s w).session
  (s.gran.keys.filter fun e => decide (e.1 = w) ||
    (decide (e.1 ≠ 0) && decide (e.2.state = .loaded) && !e.2.exp && !e.2.bound && decide (e.2.session = ses))).map (·.1)

/-- The units of one run of bytes, the last one as long as what remains (R443). -/
def unitsOf : Nat → Nat → Nat → List ScrubUnit
  | 0, _, _ => []
  | fuel + 1, pa, len => if len = 0 then [] else .bytes pa (min len 65536) :: unitsOf fuel (pa + 65536) (len - min len 65536)

/-- The frames of a generation, replicas included: physical address and size (R227, R443). -/
def framesOf (s : State) (g : Gen) : List (Nat × Nat) :=
  (leavesOf s g).flatMap fun x => match x.2 with
    | some l => (leafFrames s l.pte).map fun f => (f, l.size)
    | none => []

/-- Insert a frame in ascending order of address. -/
def insertFrame (f : Nat × Nat) : List (Nat × Nat) → List (Nat × Nat)
  | [] => [f]
  | x :: r => if f.1 < x.1 then f :: x :: r else if f.1 = x.1 then x :: r else x :: insertFrame f r

/-- The scrub list of a world (R443, R453): its areas are those of its strings' cores, and of the cores last bound to it. -/
def worldUnits (s : State) (p : Nat) (slots strs : List Nat) : List ScrubUnit :=
  let cores := strs.flatMap strCores
  let areas := (getPart s p).lmap.foldl (fun l c => insertSorted c l) (cores.foldl (fun l c => insertSorted c l) [])
  let frames := (((allGens s).filter fun g => g.live && slots.contains g.keyslot).flatMap (framesOf s)).foldl
    (fun l f => insertFrame f l) []
  coreUnits cores ++ (frames.flatMap fun f => unitsOf 33 f.1 f.2) ++
    (areas.flatMap fun c =>
      (match ctxArea s c with
       | some a => unitsOf 20 a 0x130000
       | none => []) ++
      (match areaOf (getCore s c).ckptBase 0x216000 with
       | some a => unitsOf 35 a 0x216000
       | none => []))

/-- The dies whose engines hold keys: the Flint and Shale dies that run (R437). -/
def keyDies (s : State) : BitVec 16 := s.gran.present &&& 0x06FF

/-- A slot whose key is erased: EMPTY, with its seal count kept (R436, R455). -/
def KeySlot.erased (k : KeySlot) : KeySlot := { KeySlot.zero with sealcnt := k.sealcnt }

/-- A slot goes to ZEROISING with BOUND clear, and to EMPTY at once where no die holds its key (R436, R442, R455). -/
def zeroise (s : State) (n : Nat) : State :=
  modKey s n fun k => if keyDies s = 0 then k.erased else { k with state := .zeroising, bound := false }

/-- Step 4 begins: Pumice takes the list up (R442, R444). -/
def beginScrub (x : Part) : Part := { x with tearing := 4, erasing := [], scrub := { x.scrub with busy := true } }

/-- The reduction-store lines of a generation go (R442). -/
def dropReds (s : State) (i : Nat) : State :=
  (List.range 8).foldl (fun s d => modDie s d fun x => { x with red := x.red.filter fun e => decide (e.idx ≠ i) }) s

/-- Steps 1 to 3 of R442: the engines have stopped; TROOT.VALID clears; the slots go to ZEROISING. A second request for a world
in teardown has no further effect (R445). The generations under the slots lose their map slots and their reduction-store lines,
which no one may read any more (R442). The list's units are those of the strings bound to the world; it keeps back these and the
strings that the world's bind records name, which a restore on other strings leaves as they were (R7, R443, R444, log entry
45). -/
def teardown (s : State) (p : Nat) (strs named : List Nat) : State :=
  let w := worldSlot s p
  if (getPart s p).tearing ≠ 0 then s
  else
    let slots := zeroSlots s w
    let units := worldUnits s p slots strs
    let mine := (allGens s).filter fun g => g.live && slots.contains g.keyslot
    let s := addScrub s p units (named ++ strs.filter fun n => !named.contains n) (.teardown slots)
    let s := mine.foldl (fun s g => dropReds (freeMap s g.idx) g.idx) s
    let s := writeTroot s p ((getPart s p).troot &&& 0xFFFFFFFFFFFFFFFE)
    let s := slots.foldl zeroise s
    modPart s p fun x =>
      if keyDies s = 0 then beginScrub x else { x with tearing := 3, erasing := slots.map fun n => (n, keyDies s) }

/-- KEY_ERASE_CONFIRM (R442 step 3): one die's engine has erased a key; when every die has, the slot is EMPTY, and once every
slot of a teardown is, its scrub begins. -/
def execKeyEraseConfirm (slot : Fin 64) (die : Fin 16) (s : State) : Out :=
  let clear := fun (m : BitVec 16) => m &&& ~~~(BitVec.ofNat 16 (2 ^ die.val))
  match s.parts.find? fun e => e.2.erasing.any fun x => decide (x.1 = slot.val) with
  | none => .next s
  | some (p, x) =>
    let l := x.erasing.map fun y => if y.1 = slot.val then (y.1, clear y.2) else y
    let ovr := l.any fun y => decide (y.1 = slot.val) && decide (y.2 = 0)
    let rest := l.filter fun y => decide (y.2 ≠ 0)
    let s := modPart s p fun x => if rest.isEmpty then beginScrub x else { x with erasing := rest }
    .next (if ovr then modKey s slot KeySlot.erased else s)

/-- Zeros over 64 KiB number `u` of a core's state, in the layout of its image (R361, R443). -/
def scrubCore (u : Nat) (co : Core) : Core :=
  let lo := 65536 * u
  let cut := fun (base len : Nat) (m : Mem) => memClear m (lo - base) (min (lo + 65536 - base) len - (lo - base))
  let co := if u < 2 then { clearCore co with part := co.part, pwrLatch := 0, spad := co.spad, eng := { Engine.zero with
      slot0 := { BSlot.empty with data := co.eng.slot0.data }, slot1 := { BSlot.empty with data := co.eng.slot1.data }
      acc := co.eng.acc } } else co
  { co with
    spad := if lo + 65536 ≤ 0x1B000 then co.spad else cut 0x1B000 0xC0000 co.spad
    eng := { co.eng with
      slot0 := if lo + 65536 ≤ 0xDB000 then co.eng.slot0 else { co.eng.slot0 with valid := false, br := [], data := cut 0xDB000 0x8000 co.eng.slot0.data }
      slot1 := if lo + 65536 ≤ 0xE3000 then co.eng.slot1 else { co.eng.slot1 with valid := false, br := [], data := cut 0xE3000 0x8000 co.eng.slot1.data }
      acc := co.eng.acc.filter fun e => !(decide (lo ≤ 0xEB000 + 8 * e.1) && decide (0xEB000 + 8 * e.1 < lo + 65536)) } }

/-- One unit written with zeros (R443). -/
def scrubUnit (s : State) : ScrubUnit → State
  | .core c u => modCore s c (scrubCore u)
  | .bytes pa len => zeroLines s pa len

/-- The host event of a bind record that is DONE (R466). -/
def doneEvent (s : State) (d i : Nat) : State :=
  let b := getBind s d i
  postHost s (hostEvent s 1 b.part (b.status.setWidth 64))

/-- What the end of a scrub list frees (R210, R453, R474). -/
def endUse (p : Nat) (strs : List Nat) (s : State) : ScrubUse → State
  | .teardown slots =>
    let s := (allGens s).foldl (fun s g =>
      if g.live && slots.contains g.keyslot then
        freeMap { setGen s { g with state := 0 } with written := spErase s.written g.idx } g.idx
      else s) s
    let recs := bindsOf s p fun x => decide (x = .scrub)
    recs.foldl (fun s x => doneEvent (modBind s x.1 x.2 fun b => { b with state := .done }) x.1 x.2) s
  | .evict => unbindStrings s (strs.filter fun n => decide ((getStr s n).part = some p))
  | .migrate c =>
    let s := if (getCore s c).part = some p ∧ ¬ (getPart s p).lmap.contains c then modCore s c clearCore else s
    if (getPart s p).migNow then migEnd s p 0 else s

/-- The strings of a scrub list that its end unbinds: those on which no core of the partition remains. -/
def scrubFreed (s : State) (p : Nat) : List Nat :=
  (getPart s p).scrub.strings.filter fun n => (strCores n).all fun c => decide ((getCore s c).part ≠ some p)

/-- The list of a partition number is done: what it blocked is freed (R444, R453, R474). -/
def endScrub (s : State) (p : Nat) : State :=
  let s := (getPart s p).scrub.uses.foldl (endUse p (scrubFreed s p)) s
  modPart s p fun x => { x with tearing := 0, scrub := { x.scrub with busy := false, uses := [], strings := [] } }

/-- SCRUB_UNIT_DONE (R443 to R445, R474): the next unit of a list is wholly written; the last one ends the list. After a reset
Pumice first takes the list up again at DONE (R445, R455). -/
def execScrubUnitDone (part : Fin 256) (s : State) : Out :=
  let x := getPart s part
  if x.tearing = 3 then .next s
  else if x.tearing = 5 then
    .next (modPart s part fun x =>
      { x with tearing := if x.scrub.uses.any (fun u => decide (u ≠ .evict)) then 4 else 0, scrub := { x.scrub with busy := true } })
  else
    match x.scrub.units[x.scrub.done]? with
    | none => if x.scrub.uses.isEmpty then .next s else .next (endScrub s part)
    | some u =>
      let s := modPart (scrubUnit s u) part fun x =>
        { x with scrub := { x.scrub with done := x.scrub.done + 1, busy := true } }
      .next (if (getPart s part).scrub.complete then endScrub s part else s)

/-! ## Completion (R206, R207, R210) -/

/-- The bind records of a partition's task: those that run, and those that wait for its START (R210, R212). R210 gives an ARMED
record no way to DONE; one whose dispatched task is aborted before its START takes it like a RUNNING one (log entry 30). -/
def taskBinds (s : State) (p : Nat) : List (Nat × Nat) :=
  (bindsOf s p fun b => decide (b = .running) || decide (b = .armed)).filter fun y =>
    decide ((getBind s y.1 y.2).state = .running) || (getBind s y.1 y.2).launched

/-- The strings that some bind records name (R444). -/
def namedStrings (s : State) (recs : List (Nat × Nat)) : List Nat :=
  recs.flatMap fun y => (bitList (getBind s y.1 y.2).strings).map fun n => 32 * y.1 + n

/-- A task is over: its cores hold no logical core and its strings no partition, RESULT and STATUS are written, its records
become DONE, or SCRUB for a world, whose scrub list keeps the strings back until it is complete. Reduction-store entries that an
abort of a task that is no world leaves stay (log entry 62). -/
def finishTask (s : State) (p status : Nat) : State :=
  let s := settleResult s p
  let x := getPart s p
  let strs := boundStrings s p
  let world := isWorld s p
  let fine := decide (status ≠ 1) && x.failed.isNone
  let s := (partCores s p).foldl (fun s c => modCore s c fun co => { co.stop with part := none }) s
  let s := modGran s fun g =>
    { g with ended := g.ended ++ [{ task := x.taskid, part := p, audit := (x.launch.getD Launch.zero).audit, fine := fine }]
             hold := if fine then g.hold else g.hold.filter fun o => decide (o.task ≠ x.taskid) }
  let recs := taskBinds s p
  let s := recs.foldl (fun s y => modBind s y.1 y.2 fun b =>
    { b with state := if world then .scrub else .done, launched := false, status := BitVec.ofNat 32 status
             result := x.result }) s
  let s := unbindStrings (if world then teardown s p strs (namedStrings s recs) else s) strs
  let s := modPart s p fun x =>
    { x with st := .idle, launch := none, lmap := [], strings := [], status := status, holding := none, quiesce := false
             waitStart := false, failed := none, rolling := false, audWait := false, idem := false, snap := none, mig := none, migNow := false, migLate := false
             busy := none, saved := false, evicted := false, finalDone := false, wlines := [], rlines := [] }
  if world then s else recs.foldl (fun s y => doneEvent s y.1 y.2) s

/-- FINAL_START (R192, R451): every core SYNCED and every group finished; the counter advances once, to odd, and the opens of
the boundary take effect before the first transfer. -/
def execFinalStart (part : Fin 256) (s : State) : Out :=
  let x := getPart s part
  let p := part.val
  if x.st = .compute ∧ x.holding.isNone ∧ x.launch.isSome ∧ allCores s p (fun co => decide (co.pst = .synced)) ∧
      allCores s p Core.finished then
    let s := settleResult (tensorPhase ((partCores s p).foldl autoClose s) p 12) p
    let s := beginExchange (advancePhase s p) p
    let s := modPart s p fun x => { x with st := .final, finalDone := false }
    .next (if (getPart s p).hold ∧ ¬ entryParked s p 12 then toHold s p .final else s)
  else .next s

/-- TASK_COMPLETE (R206, R451): FINAL's exchange has ended and its seals have taken effect, or ABORTING has stopped every
core. A failed audit takes the place of completion (R423); HOLD holds the task before it. -/
def execTaskComplete (part : Fin 256) (s : State) : Out :=
  let x := getPart s part
  let p := part.val
  if x.launch.isNone ∨ x.holding.isSome then
    (if x.launch.isSome ∧ x.st = .aborting then .next (finishTask s p 1) else .next s)
  else if x.st = .aborting then .next (finishTask s p 1)
  else if x.st ≠ .final then .next s
  else if ¬ x.finalDone then
    if ¬ allCores s p (fun co => decide (co.pst = .xdone)) ∨ redBlocked s p then .next s
    else
      match endExchange s p with
      | (s', false) => .next s'
      | (s', true) =>
        let s' := settleFailure (modPart s' p fun x => { x with finalDone := true }) p
        .next (if x.hold ∧ x.failed.isNone then toHold s' p .final else s')
  else if x.failed.isSome then .next (settleFailure s p)
  else if allCores s p (fun co => co.asy.queue.isEmpty) then .next (finishTask s p (if x.late then 3 else 0))
  else .next s

end Sys2Proof.Machine
end

