-- ==== Sys2Proof/Machine/Power.lean ====
section
/-!
DEFINITION. Machine/Power.lean: string balance, power states, the rail limit, frequency, temperature and what each of their
emergencies does (R176 to R189, R356, R357). Currents and temperatures are inputs (log entry 9).
-/
namespace Sys2Proof.Machine

/-! ## The power state of a string (R184) -/

/-- The 10 µs control interval. -/
def interval : Nat := 10000

/-- The state that a string's power state takes next, and the moment from which it is due. The test for 1 to 2 may be met at any
moment from 10 µs after entry on (log entry 19). -/
def powerDue (s : State) (n : Nat) : Option (Nat × Nat) :=
  let x := getStr s n
  let d := n / 32
  if x.pwr ≠ 2 ∧ cause2 s n then some (2, s.time)
  else if x.pwr = 0 then (if softOver s d then some (1, s.time) else none)
  else if x.pwr = 1 then
    (if notLower s n then some (2, x.entered + interval) else x.clearSince.map fun t => (0, t + interval))
  else x.clearSince.map fun t => (if softOver s d then 1 else 0, t + interval)

/-- POWER_STATE_CHANGE (R184). -/
def execPowerStateChange (die : Fin 8) (str : Fin 32) (s : State) : Out :=
  let n := 32 * die.val + str.val
  match powerDue s n with
  | none => .next s
  | some (v, t) =>
    let s := { s with time := max s.time t }
    let s := modStr s n fun x =>
      { x with pwr := v, clearSince := none
               entered := if v = 1 then s.time else x.entered
               before := if v = 1 then some (strCurrent4 s n) else if v = 0 then none else x.before }
    .next (refreshPower s die)

/-! ## String balance (R176, R177) -/

/-- The lighter cores at the nodes whose field exceeds 250 mA. -/
def lighterCores (n : Nat) (mids : List Int) : List Nat :=
  (List.range mids.length).filterMap fun k =>
    let m := mids.getD k 0
    if 250 < m then some (4 * n + k + 1) else if m < -250 then some (4 * n + k) else none

/-- STRIMB_UPDATE (R176, R177): the 1 µs means of the four cores. A vacant core of a bound string, and a ballast core, draw what
their filler is trimmed to (R183, R373). -/
def execStrimbUpdate (die : Fin 8) (str : Fin 32) (i0 i1 i2 i3 : BitVec 16) (s : State) : Out :=
  let n := 32 * die.val + str.val
  let read := [i0.toNat, i1.toNat, i2.toNat, i3.toNat]
  let s := trackStr ((List.range 4).foldl (fun s k => modCore s (4 * n + k) fun co => { co with current := read.getD k 0 }) s) n
  let cur := fun (k : Nat) => (getCore s (4 * n + k)).current
  let mids : List Int := [cur 0 - cur 1, cur 1 - cur 2, cur 2 - cur 3]
  let imb := maxOf (mids.map Int.natAbs)
  let s := (lighterCores n mids).foldl (fun s c => modCore s c fun co => { co with named := true }) s
  let f := fun (k : Nat) => (BitVec.ofInt 16 (mids.getD k 0)).toNat * 2 ^ (16 * k)
  let s := modStr s n fun x =>
    { x with strimb := wd (f 0 + f 1 + f 2), hard := decide (400 < imb) || (x.hard && decide (250 < imb))
             pwr := if 400 < imb then 2 else x.pwr }
  .next (refreshPower s die)

/-! ## The rail limit (R186, R187) -/

/-- The host hears of a die event of kind 6, 7 or 8 (R466). -/
def tellHost (s : State) (e : EventRec) : State := postHost s { e with kind := 2 }

/-- Post a die event and forward it to the host. -/
def dieAlarm (s : State) (d : Nat) (e : EventRec) : State := tellHost (postEvent s d e) e

/-- The kind-4 entry of the package fault record (R417). -/
def alarmFrec (s : State) (verdict d : Nat) (arg : Word) : State :=
  addFrec s { FrecEnt.blank s 4 verdict d 0xFF with arg := arg }

/-- REGULATOR_PHASE_LOST (R187, R357). -/
def execRegulatorPhaseLost (die : Fin 8) (s : State) : Out :=
  let x := getDie s die
  if x.phases = 0 then .next s
  else
    let n := x.phases - 1
    let lim := min (limitMa x) (12000 * n)
    let arg := wd (lim * 65536 + n)
    let s := modDie s die fun x =>
      { x with phases := n, railIlim := setFld (setFld x.railIlim 16 0 lim) 31 31 1 }
    let s := modGran s fun g => { g with derated := g.derated ||| BitVec.ofNat 16 (2 ^ die.val) }
    .next (refreshPower (alarmFrec (dieAlarm s die (dieEvent s die 6 arg)) 2 die arg) die)

/-- A write to RAIL_ILIM: SOFT_PCT outside 50 to 100 is ignored, LIMIT_MA is bounded by the remaining phases (R186, R187). -/
def writeRail (s : State) (d : Nat) (v : Word) : State :=
  let x := getDie s d
  let soft := if 50 ≤ fld v 23 17 ∧ fld v 23 17 ≤ 100 then fld v 23 17 else softPct x
  let r := setFld (setFld (setFld x.railIlim 63 32 (fld v 63 32)) 23 17 soft) 16 0 (min (fld v 16 0) (12000 * x.phases))
  refreshPower (modDie s d fun x => { x with railIlim := r }) d

/-- RAIL_ILIM_WRITE (R186, R187). -/
def execRailIlimWrite (die : Fin 8) (v : Word) (s : State) : Out := .next (writeRail s die v)

/-! ## Frequency (R188, R356) -/

/-- A frequency that DVFS_CTL takes. -/
def freqOk (f : Nat) : Bool := decide (475 ≤ f) && decide (f ≤ 1900) && decide (f % 25 = 0)

/-- The written frequency is kept until it is applied; a value outside the steps is ignored. -/
def writeFreq (s : State) (d : Nat) (v : Word) : State :=
  if freqOk (fld v 11 0) then modDie s d fun x => { x with freq := fld v 11 0, pending := true } else s

/-- DVFS_FREQ_WRITE (R188). -/
def execDvfsFreqWrite (die : Fin 8) (v : Word) (s : State) : Out := .next (writeFreq s die v)

/-- The clock of a die changes to FREQ_MHZ as it now stands: a hop of the clock source, or an emergency drop (R188, R356). -/
def beginChange (s : State) (d : Nat) (hop : Bool) : State :=
  modDie s d fun x => { x with transition := true, hop := hop, hopDroop := false, target := x.freq, pending := hop }

/-- DVFS_FORCE (R188): FREQ_MHZ is applied at once, as an emergency drop, which takes every string of the die to state 2
(R184). -/
def execDvfsForce (die : Fin 8) (v : Word) (s : State) : Out :=
  .next (refreshPower (beginChange (writeFreq s die v) die false) die)

/-- Every core of the die is in an exchange phase, its partition's PHASE being odd, or runs no task: a task that waits for its
START has not begun (R188, R190, R212). -/
def dieQuiet (s : State) (d : Nat) : Bool :=
  (List.range 128).all fun i =>
    let c := 128 * d + i
    (getCore s c).part.isNone || (partOf s c).waitStart || bit (partOf s c).phase 0

/-- DVFS_APPLY (R188): a pending frequency is applied at the first quiet moment, with no droop in the way (R357). -/
def execDvfsApply (die : Fin 8) (s : State) : Out :=
  let x := getDie s die
  if x.pending ∧ ¬ x.transition ∧ ¬ x.hopDroop ∧ dieQuiet s die then .next (beginChange s die true) else .next s

/-- Deliver an arithmetic-log record that a transition held back; one that changes the scratchpad puts a save out of date (R356,
R368). -/
def lateArith (s : State) (c : Nat) (r : ArithRec) : State :=
  let t := alogAppend s c (getCore s c).alogq r
  if (getCore t c).spad = (getCore s c).spad then t else staleSave t c

/-- Deliver what a transition held back, in the order in which it was raised (R356). -/
def deliverOne (s : State) : Delayed → State
  | .flog c r => flogAppend s c r
  | .alog c r => lateArith s c r
  | .event d e => postEvent s d e

/-- Handlers entered by a group whose faults a transition held back; an entry puts a save out of date (R343, R356, R368). -/
def lateHandlers (c : Nat) (s : State) (g : Nat) : State :=
  let t := enterHandlers s c g
  if getGroup t c g = getGroup s c g then t else staleSave t c

/-- The clock of a die is stable: records and events are delivered, then handlers are entered (R343, R356). -/
def stable (s : State) (d : Nat) : State :=
  let l := (getDie s d).delayed
  let s := modDie s d fun x => { x with transition := false, hop := false, delayed := [] }
  let s := l.foldl deliverOne s
  let cores := (s.cores.map (·.1)).filter fun c => decide (dieOf c = d)
  cores.foldl (fun s c => (List.range (getCore s c).ngroups).foldl (lateHandlers c) s) s

/-- CLOCK_STABLE (R356): the change is complete. A frequency written since it began is still to be applied (R188). -/
def execClockStable (die : Fin 8) (s : State) : Out :=
  let x := getDie s die
  if x.transition then
    .next (refreshPower (stable (modDie s die fun x =>
      { x with mhz := x.target, pending := x.pending && decide (x.freq ≠ x.target) }) die) die)
  else .next s

/-- DROOP_DETECT (R357): a hop under way is abandoned and the old source kept; else the string skips clocks. -/
def execDroopDetect (die : Fin 8) (str : Fin 32) (s : State) : Out :=
  let s := modStr s (32 * die.val + str.val) fun x => { x with droop := true }
  if (getDie s die).transition ∧ (getDie s die).hop then
    .next (modDie (stable s die) die fun x => { x with hopDroop := true, pending := true })
  else .next s

/-- DROOP_CLEAR (R357): the detector has been clear for 1 µs. -/
def execDroopClear (die : Fin 8) (str : Fin 32) (s : State) : Out :=
  let s := modStr s (32 * die.val + str.val) fun x => { x with droop := false }
  if (List.range 32).any fun i => (getStr s (32 * die.val + i)).droop then .next s
  else .next (modDie s die fun x => { x with hopDroop := false })

/-! ## Temperature (R189, R357) -/

/-- The event of a core's temperature. -/
def heatEvent (s : State) (c kind : Nat) : EventRec := coreEvent s c kind 0 (wd (tempOf (getCore s c)))

/-- A core's sensor reading. Where it crosses 95 degrees upwards, MIGREQ is set and the die's management core hears of it, once
for each crossing (R189, R389). THROT clears once every core of the die is below 105 degrees. -/
def setTemp (s : State) (d c : Nat) (temp : BitVec 16) : State :=
  let n := 128 * d + c
  let was := tempOf (getCore s n)
  let s := modCore s n fun co => { co with therm := setFld co.therm 31 16 temp.toNat }
  let s :=
    if was < warm ∧ warm ≤ temp.toNat then
      let s := modCore s n fun co => { co with therm := setFld co.therm 1 1 1 }
      postEvent s d (heatEvent s n 9)
    else s
  let s := if hottest s d < hot then modDie s d fun x => { x with throttled := false } else s
  refreshPower s d

/-- THERM_MIGREQ (R189): a core's temperature, with what crossing 95 degrees brings. -/
def execThermMigreq (die : Fin 8) (core : Fin 128) (temp : BitVec 16) (s : State) : Out := .next (setTemp s die core temp)

/-- A quarter less, rounded down to a 25 MHz step, and never below 475 MHz (R189). -/
def lowerFreq (f : Nat) : Nat := max 475 (f * 3 / 4 / 25 * 25)

/-- The die's clock stands at 475 MHz, or an emergency drop is taking it there: no further drop is made (R189). -/
def Die.slowest (x : Die) : Bool := if x.transition then !x.hop && decide (x.target ≤ 475) else decide (x.mhz ≤ 475)

/-- One emergency drop of a die's frequency. It takes a quarter off FREQ_MHZ, or off the clock where a written FREQ_MHZ not yet
applied stands above it (log entry 19). -/
def dropFreq (s : State) (d : Nat) : State :=
  if (getDie s d).slowest then modDie s d fun x => { x with dropAt := s.time }
  else beginChange (modDie s d fun x => { x with freq := lowerFreq (min x.freq x.mhz), dropAt := s.time }) d false

/-- Every string of a die goes to power state 2. -/
def allHard (s : State) (d : Nat) : State :=
  refreshPower ((List.range 32).foldl (fun s i => modStr s (32 * d + i) fun x => { x with pwr := 2, clearSince := none }) s) d

/-- THERMAL_THROTTLE (R189, R357). -/
def execThermalThrottle (die : Fin 8) (core : Fin 128) (temp : BitVec 16) (s : State) : Out :=
  let s := setTemp s die core temp
  if temp.toNat < hot ∨ (getDie s die).throttled then .next s
  else
    let s := allHard (dropFreq (modDie s die fun x => { x with throttled := true }) die) die
    .next (dieAlarm s die (dieEvent s die 7 (wd (hottest s die))))

/-- THROTTLE_REPEAT (R189): 10 µs after the last drop, while a core stays at or above 105 degrees. -/
def execThrottleRepeat (die : Fin 8) (s : State) : Out :=
  let x := getDie s die
  if x.throttled ∧ hot ≤ hottest s die ∧ ¬ x.slowest then
    let s := { s with time := max s.time (x.dropAt + interval) }
    .next (refreshPower (dropFreq s die) die)
  else .next s

/-- A core whose rail is cut: it holds no state, but its place and its sensor remain (R357). -/
def unpowered (co : Core) : Core :=
  { clearCore co with
    part := co.part, lcore := co.lcore, flog := { slots := [], head := 0, tail := 0, lost := 0 }
    named := false, current := 0 }

/-- THERMAL_TRIP (R189, R357): the rail is cut and every partition with a string on the die is aborted. -/
def execThermalTrip (die : Fin 8) (core : Fin 128) (temp : BitVec 16) (s : State) : Out :=
  let c := coreNum die core
  let s := setTemp s die core temp
  if temp.toNat < tripTemp ∨ (getDie s die).tripped then .next s
  else
    let parts := (s.parts.filter fun e => !(stringsOn s e.1 die).isEmpty).map (·.1)
    let e := heatEvent s c 8
    let s := alarmFrec (dieAlarm s die e) 1 die e.arg
    let s := modDie s die fun x => { x with tripped := true, delayed := [] }
    let s := parts.foldl abortPart s
    .next (refreshPower ((List.range 128).foldl (fun s i => modCore s (128 * die.val + i) unpowered) s) die)

end Sys2Proof.Machine
end

