-- ==== Sys2Proof/Machine/Trust.lean ====
section
/-!
DEFINITION. Machine/Trust.lean: device reset and measured boot (R430 to R433), the SPDM responder (R435), the sealing of keys
(R437), masked collectives (R446, R447), and what function-level resets do inside the package (R445, R465).
-/
namespace Sys2Proof.Machine

/-! ## Measured boot (R430 to R433) -/

/-- The bytes of a firmware image, up to the last one that is not zero. -/
def imageBytes (m : Mem) : List Byte := memBytes m 0 (maxOf (m.map fun c => c.1 + 1))

/-- A cause code in BOOT_STAT, the first one kept, with the die whose step failed. -/
def bootFail (s : State) (cause die : Nat) : State :=
  if fld s.gran.bootStat 15 8 ≠ 0 then s
  else modGran s fun g => { g with bootStat := setFld (setFld g.bootStat 15 8 cause) 23 16 die }

/-- Recovery mode (R433). -/
def recovery (s : State) : Bool := bit s.gran.bootStat 1

/-- BOOT_STAT.DONE. -/
def booted (s : State) : Bool := bit s.gran.bootStat 0

/-- The package goes to recovery mode with a cause. -/
def toRecovery (s : State) (cause : Nat) : State :=
  modGran s fun g => { g with bootStat := setFld (setFld g.bootStat 15 8 cause) 1 1 1 }

/-- The cause for which steps 1 to 3 of the boot refuse an image, or none (R430, R432, R433). -/
def imageCause (img : List Byte) : Option Nat :=
  if ¬ Config.readable 1 img then some 5
  else if ¬ Config.verifies 1 img then some 1
  else if ¬ Config.verifies 2 img then some 3
  else none

/-- The cause for which a pushed image is not written to flash, or none: every component must verify (R433). -/
def pushCause (img : List Byte) : Option Nat :=
  match imageCause img with
  | some c => some c
  | none => if Config.verifies 3 img ∧ Config.verifies 4 img then none else some 1

/-- The digest of component `n` of an image: SHAKE256 with 512 bits of output (R431). -/
def componentDigest (n : Nat) (img : List Byte) : BitVec 512 := shake512 (Config.component n img)

/-- Release a die that passes its repair and self-test; a Flint die's management core starts (R430, R467). -/
def releaseDie (digest : Option (BitVec 512)) (s : State) (d : Nat) : State :=
  if Config.selfTest d s.ticks then
    let s := modGran s fun g => { g with present := g.present ||| BitVec.ofNat 16 (2 ^ d) }
    let s := if d < 8 then modDie s d fun x => { x with mcwdAt := s.time } else s
    match digest with
    | some x => extendMeas s 4 x
    | none => s
  else bootFail s 4 d

/-- Step 4: the Shale component, then dies 9 and 10. -/
def bootShale (s : State) (img : List Byte) : State :=
  if ¬ Config.verifies 3 img then bootFail s 1 9
  else [9, 10].foldl (releaseDie none) (extendMeas s 3 (componentDigest 3 img))

/-- Step 5: the Flint component, then the Flint dies in ascending order; DONE is set. -/
def bootFlint (s : State) (img : List Byte) : State :=
  let s :=
    if ¬ Config.verifies 4 img then bootFail s 1 0
    else (List.range 8).foldl (releaseDie (some (componentDigest 4 img))) s
  modGran s fun g => { g with bootStat := g.bootStat ||| 1 }

/-- The boot ROM's work (R430, R431): steps 1 to 3 end in recovery mode at a failure, a measurement store that does not work
among them (R433, cause 2), steps 4 and 5 leave the failed die out. The Granite die's own bit of PRESENT is set once its
component runs. `pushed` is the byte that MEAS5 is extended with. -/
def boot (s : State) (pushed : Byte) : State :=
  let img := imageBytes s.gran.flash
  let s := extendMeas s 0 (componentDigest 0 [])
  if ¬ Config.readable 1 img then toRecovery s 5
  else if ¬ Config.verifies 1 img then toRecovery s 1
  else if ¬ Config.measures s.ticks then toRecovery s 2
  else
    let s := modGran s fun g => { g with present := g.present ||| 0x100 }
    let s := extendMeas (extendMeas s 1 (componentDigest 1 img)) 5 (shake512 [pushed])
    if ¬ Config.verifies 2 img then toRecovery s 3
    else bootFlint (bootShale (extendMeas s 2 (componentDigest 2 img)) img) img

/-! ## Device reset -/

/-- What a reset leaves of a partition number: the scrub list and DONE, from which Pumice resumes (R445). A device reset also
takes what a completed list left in SCRUB_PROG, a function-level reset does not (R444, R453). -/
def scrubOnly (keep : Bool) (x : Part) : Part :=
  if x.scrub.complete then (if keep then { Part.zero with scrub := { x.scrub with busy := false } } else Part.zero)
  else { Part.zero with scrub := { x.scrub with busy := false }, tearing := 5 }

/-- What a reset of a Flint die leaves of a core: that it is ballast. -/
def resetCore (co : Core) : Core := { Core.zero with ballast := co.ballast }

/-- What it leaves of a string: that it is excluded. -/
def resetString (x : StringSt) : StringSt := { StringSt.zero with excluded := x.excluded }

/-- Every entry of the tensor table is FREE, in every replica (R227, R234). -/
def freeTable (s : State) : State :=
  (List.range (ttCount s)).foldl (fun s i => (List.range 8).foldl (fun s d =>
    vaultWrite s (d * 2 ^ 36 + (ttAddr s i + 0x1C) % 2 ^ 36) [0]) s) s

/-- The state right after a device reset, with what outlives it: vault memory and its sideband, flash, and the Granite die's
non-volatile store of strikes, orders, image numbers and scrub lists (R365, R419, R436, R443, R445). -/
def afterReset (s : State) : State :=
  { State.reset with
    cores := s.cores.map fun e => (e.1, resetCore e.2), strings := s.strings.map fun e => (e.1, resetString e.2)
    parts := s.parts.map fun e => (e.1, scrubOnly false e.2), vault := s.vault, side := s.side
    gran := { Granite.zero with
      strikes := s.gran.strikes, orders := s.gran.orders, imgSeq := s.gran.imgSeq
      flash := s.gran.flash }
    time := s.time, agenda := s.agenda, ticks := s.ticks }

/-- A device reset and the boot that follows: the tensor table is FREE, slot 0 takes a fresh package key (R234, R430, R436). -/
def resetAndBoot (s : State) (pushed : Byte) : State :=
  let s := afterReset (freeTable s)
  boot (modKey s 0 fun _ => { KeySlot.zero with state := .loaded, key := Config.packageKey s.ticks }) pushed

/-- DEVICE_RESET (R430). -/
def execDeviceReset (s : State) : Out := .next (resetAndBoot s 0)

/-- RECOVERY_VERIFICATION_RESULT (R433, R461, R466): a pushed image that verifies is written to flash and a reset follows; the
result is host event 6 with BOOT_STAT. -/
def execRecoveryVerificationResult (s : State) : Out :=
  if recovery s ∧ s.gran.pushEnd then
    let tell := fun (s : State) => postHost s (hostEvent s 6 0xFF s.gran.bootStat)
    match pushCause (imageBytes s.gran.pushed) with
    | none => .next (tell (resetAndBoot (modGran s fun g => { g with flash := g.pushed }) 1))
    | some cause => .next (tell (toRecovery (modGran s fun g => { g with pushed := [], pushEnd := false }) cause))
  else .next s

/-! ## The SPDM responder (R435) -/

/-- A reply: response code, parameters and payload. -/
def spdmReply (s : State) (code p1 p2 : Byte) (payload : List Byte) : State :=
  { s with spdm := { s.spdm with code := code, param1 := p1, param2 := p2, payload := payload } }

/-- ERROR with an error code. -/
def spdmError (s : State) (e : Byte) : State := spdmReply s 0x7F e 0 []

/-- Reply bytes that the spec does not lay out. -/
def spdmFree (req n : Nat) (m : SpdmMsg) : List Byte := (List.range n).map fun i => Config.spdmBytes req m.payload.toNat i

/-- The session of a number. -/
def findSession (s : State) (id : BitVec 32) : Option Session := s.spdm.sessions.find? fun x => decide (x.id = id)

/-- An established session of the channel that a message came by. -/
def inSession (s : State) (m : SpdmMsg) : Bool :=
  (findSession s m.session).any fun x => x.established && decide (x.channel = m.channel.val)

/-- Change a session. -/
def modSession (s : State) (id : BitVec 32) (f : Session → Session) : State :=
  { s with spdm := { s.spdm with sessions := s.spdm.sessions.map fun x => if x.id = id then f x else x } }

/-- Answer a request that needs the negotiation to be complete. -/
def negotiated (s : State) (t : State) : Out := if s.spdm.algs then .next t else .next (spdmError s 4)

/-- GET_VERSION: the reply names version 1.4, and the negotiation starts again (R435). -/
def execGetVersion (_m : SpdmMsg) (s : State) : Out :=
  .next (spdmReply { s with spdm := { s.spdm with version := true, caps := false, algs := false } } 0x04 0 0 [0, 1, 0, 0x14])

/-- GET_CAPABILITIES (R435). -/
def execGetCapabilities (m : SpdmMsg) (s : State) : Out :=
  if s.spdm.version then
    .next (spdmReply { s with spdm := { s.spdm with caps := true } } 0x61 0 0 (spdmFree 0xE1 16 m))
  else .next (spdmError s 4)

/-- NEGOTIATE_ALGORITHMS (R435). -/
def execNegotiateAlgorithms (m : SpdmMsg) (s : State) : Out :=
  if s.spdm.caps then
    .next (spdmReply { s with spdm := { s.spdm with algs := true } } 0x63 0 0 (spdmFree 0xE3 32 m))
  else .next (spdmError s 4)

/-- GET_DIGESTS: slot 0 only (R435). -/
def execGetDigests (m : SpdmMsg) (s : State) : Out := negotiated s (spdmReply s 0x01 0 1 (spdmFree 0x81 64 m))

/-- GET_CERTIFICATE: slot 0 only (R435). -/
def execGetCertificate (m : SpdmMsg) (s : State) : Out :=
  negotiated s (if m.param1 &&& 0x0F = 0 then spdmReply s 0x02 m.param1 0 (spdmFree 0x82 64 m) else spdmError s 1)

/-- CHALLENGE: answered with a signature of the identity key, by slot 0 only (R434, R435). -/
def execSpdmChallenge (m : SpdmMsg) (s : State) : Out :=
  negotiated s (if m.param1 = 0 then spdmReply s 0x03 0 1 (spdmFree 0x83 64 m) else spdmError s 1)

/-- Measurement block `n`, 1 to 8: MEAS0 to MEAS7 in raw form (R431, R435). -/
def measBlock (s : State) (n : Nat) : List Byte := leBytes 64 (spGet 0 s.gran.meas (n - 1)).toNat

/-- The signature of a report, where bit 0 of PARAM1 asks for one: free bytes (R435, log entry 17). -/
def reportSignature (m : SpdmMsg) : List Byte := if bit m.param1 0 then spdmFree 0xE0 64 m else []

/-- GET_MEASUREMENTS: PARAM2 0 asks for the number of blocks, 1 to 8 for one, 0xFF for all, and PARAM1 for a signature over the
report (R435). -/
def execGetMeasurements (m : SpdmMsg) (s : State) : Out :=
  let sig := reportSignature m
  negotiated s
    (if m.param2 = 0 then spdmReply s 0x60 8 0 sig
     else if m.param2 = 0xFF then spdmReply s 0x60 0 0 (((List.range 8).flatMap fun n => measBlock s (n + 1)) ++ sig)
     else if m.param2.toNat ≤ 8 then spdmReply s 0x60 0 0 (measBlock s m.param2.toNat ++ sig)
     else spdmError s 1)

/-- A channel can hold one more session: 64 in all, one for each Bilsol peer (R435). -/
def sessionRoom (s : State) (ch : Nat) : Bool :=
  decide (s.spdm.sessions.length < 64) && (decide (ch = 0) || !(s.spdm.sessions.any fun x => decide (x.channel = ch)))

/-- KEY_EXCHANGE with ML-KEM-1024, by certificate slot 0 only, which PARAM2 names, opens a session that FINISH completes (R435). -/
def execKeyExchange (m : SpdmMsg) (s : State) : Out :=
  negotiated s
    (if ¬ sessionRoom s m.channel then spdmError s 0x0A
     else if m.param2 ≠ 0 ∨ ¬ Config.spdmAccepts 0xE4 m.payload.toNat then spdmError s 1
     else
       let id := BitVec.ofNat 32 s.spdm.nextSession
       let ses : Session := { id := id, channel := m.channel, established := false, updates := 0 }
       spdmReply { s with spdm := { s.spdm with
         sessions := s.spdm.sessions ++ [ses], nextSession := s.spdm.nextSession + 1 } } 0x64 0 0
         (leBytes 4 id.toNat ++ spdmFree 0xE4 64 m))

/-- FINISH completes the establishment of a session (R435). -/
def execSpdmFinish (m : SpdmMsg) (s : State) : Out :=
  match findSession s m.session with
  | none => .next (spdmError s 2)
  | some x =>
    if x.established ∨ x.channel ≠ m.channel.val then .next (spdmError s 4)
    else if ¬ Config.spdmAccepts 0xE5 m.payload.toNat then .next (spdmError s 6)
    else .next (spdmReply (modSession s m.session fun x => { x with established := true }) 0x65 0 0 (spdmFree 0xE5 64 m))

/-- Answer a request that only an established session may send. -/
def withinSession (s : State) (m : SpdmMsg) (t : State) : Out := if inSession s m then .next t else .next (spdmError s 2)

/-- HEARTBEAT (R435). -/
def execSpdmHeartbeat (m : SpdmMsg) (s : State) : Out := withinSession s m (spdmReply s 0x68 0 0 [])

/-- KEY_UPDATE renews the session's keys (R435). -/
def execKeyUpdate (m : SpdmMsg) (s : State) : Out :=
  withinSession s m
    (spdmReply (modSession s m.session fun x => { x with updates := x.updates + 1 }) 0x69 m.param1 m.param2 [])

/-- END_SESSION closes the session (R435). -/
def execEndSession (m : SpdmMsg) (s : State) : Out :=
  withinSession s m
    (spdmReply { s with spdm := { s.spdm with
      sessions := s.spdm.sessions.filter fun x => decide (x.id ≠ m.session) } } 0x6C 0 0 [])

/-- Any other request is answered with ERROR, UnsupportedRequest (R435). -/
def execSpdmUnsupportedRequest (_m : SpdmMsg) (s : State) : Out := .next (spdmError s 7)

/-! ## Sealing a key (R436, R437) -/

/-- The seal count after one more seal, never 0. -/
def nextSeal (n : BitVec 16) : BitVec 16 := if n = 0xFFFF then 1 else n + 1

/-- The key handle of a slot (R437). -/
def keyHandle (slot : Nat) (k : KeySlot) : Word := wd (k.sealcnt.toNat * 2 ^ 32 + slot)

/-- A teardown that zeroised the slot has not finished: the slot is not reused (R439). -/
def slotTearing (s : State) (n : Nat) : Bool :=
  s.parts.any fun e => e.2.scrub.uses.any fun u => match u with
    | .teardown l => l.contains n
    | .evict | .migrate _ => false

/-- VENDOR_DEFINED_REQUEST (R437): a tenant seals a key into an EMPTY slot from 1 to 63. -/
def execVendorDefinedRequest (m : SpdmMsg) (slot : Fin 64) (exp : Bool) (s : State) : Out :=
  withinSession s m
    (let k := getKey s slot
     if slot.val = 0 ∨ k.state ≠ .empty ∨ slotTearing s slot then spdmError s 1
     else
       let k' : KeySlot := { state := .loaded, key := m.payload, sealcnt := nextSeal k.sealcnt, session := m.session
                             exp := exp, bound := false }
       spdmReply (modKey s slot fun _ => k') 0x7E 0 0 (leBytes 8 (keyHandle slot k').toNat))

/-- The requests of R435 in the order of their table; any other is answered as unsupported. -/
def respond (k : Nat) (m : SpdmMsg) (slot : Fin 64) (exp : Bool) (s : State) : Out :=
  match k with
  | 0 => execGetVersion m s
  | 1 => execGetCapabilities m s
  | 2 => execNegotiateAlgorithms m s
  | 3 => execGetDigests m s
  | 4 => execGetCertificate m s
  | 5 => execSpdmChallenge m s
  | 6 => execGetMeasurements m s
  | 7 => execKeyExchange m s
  | 8 => execSpdmFinish m s
  | 9 => execSpdmHeartbeat m s
  | 10 => execKeyUpdate m s
  | 11 => execEndSession m s
  | 12 => execVendorDefinedRequest m slot exp s
  | _ => execSpdmUnsupportedRequest m s

/-- The bytes of the responder's last reply: version 1.4, the response code, the parameters and the payload. -/
def replyBytes (x : Spdm) : List Byte := [0x14, x.code, x.param1, x.param2] ++ x.payload

/-! ## Masked collectives (R446, R447, R469) -/

/-- The session that a registration names between two ranks. -/
def pairSession (l : List (Nat × Nat × Nat)) (a b : Nat) : Option Nat :=
  (l.find? fun x => decide (x.1 = a) && decide (x.2.1 = b)).map fun x => x.2.2

/-- The registrations that one of an id and a TID replaces. -/
def replaced (s : State) (id : Nat) (tid : BitVec 48) : List Coll :=
  s.gran.colls.filter fun k => decide (k.id = id) || decide (k.tid = tid)

/-- What a registration must not take up again: each member that came back with other measurements, with a session it held before
(R447). -/
def bannedOf (s : State) (id : Nat) (tid : BitVec 48) : List (BitVec 18 × Nat) := (replaced s id tid).flatMap (·.changed)

/-- A registration names a session for every pair of ranks, and for a member that came back with other measurements none that it
held before: it is attested again and its pair keys are new (R446, R447). -/
def sessionsOk (banned : List (BitVec 18 × Nat)) (members : List (BitVec 18)) (l : List (Nat × Nat × Nat)) : Bool :=
  (List.range members.length).all fun b => (List.range b).all fun a =>
    match pairSession l a b with
    | none => false
    | some n => !banned.contains (members.getD a 0, n) && !banned.contains (members.getD b 0, n)

/-- The writes to a TID that have left, and that no device has acknowledged, come back into the hold, to be masked anew (R447). -/
def callBack (s : State) (tid : BitVec 48) : State :=
  let mine := fun (o : Outbound) => decide (o.tid = tid) && o.push.isNone && o.parked.isNone
  let back := s.gran.wire.filter fun o => mine o && !Config.acknowledged o.dev.toNat o.tid.toNat o.off s.ticks
  modGran s fun g =>
    { g with wire := g.wire.filter fun o => !mine o
             hold := back.map (fun o => { o with sent := [], port := none, sentAt := 0, tries := 0 }) ++ g.hold }

/-- The writes to a TID, pushes apart, park with a cause or are freed of it; the dies of those that park hear of it (R447). -/
def parkHeld (s : State) (tid : BitVec 48) (cause : Option Byte) : State :=
  let s := callBack s tid
  let mine := fun (o : Outbound) => decide (o.tid = tid) && o.push.isNone && decide (o.parked ≠ cause)
  let l := s.gran.hold.filter mine
  let s := modGran s fun g => { g with hold := g.hold.map fun o => if mine o then { o with parked := cause } else o }
  match cause with
  | some k => l.foldl (fun s o => parkItem s k o) s
  | none => s

/-- The uses of a collective that starts again: those of the writes to it that wait in the hold (R446, R447). -/
def restartUses (s : State) (k : Coll) : Coll :=
  (s.gran.hold.filter fun o => o.push.isNone).foldl (fun k o => k.noteUse o.tid (o.task, o.ss)) { k with uses := [] }

/-- COLLECTIVE_REGISTER (R446, R447, R469): at most 48 members; a registration replaces an earlier one of the same id or TID
and starts again at use 0 under new pair keys, but what the earlier one may not take up again, it may not either. Held writes that
had parked go on where this device is a member, and park with a permission fault where it is not, as do those to a TID that has lost
its collective (log entry 13). -/
def execCollectiveRegister (id : Nat) (tid : BitVec 48) (members : List (BitVec 18)) (sessions : List (Nat × Nat × Nat))
    (s : State) : Out :=
  let banned := bannedOf s id tid
  if 48 < members.length ∨ ¬ sessionsOk banned members sessions then .next s
  else
    let k : Coll := { id := id, tid := tid, members := members, sessions := sessions, uses := [], valid := true
                      epoch := s.ticks, changed := banned }
    let lost := ((replaced s id tid).map (·.tid)).filter fun x => decide (x ≠ tid)
    let s := modGran s fun g =>
      { g with colls := (g.colls.filter fun k => decide (k.id ≠ id) && decide (k.tid ≠ tid)) ++ [k] }
    let s := lost.foldl (fun s x => parkHeld s x (some 0x41)) (parkHeld s tid (if k.takes s then none else some 0x41))
    .next (modGran s fun g => { g with colls := g.colls.map fun x => if x.tid = tid then restartUses s x else x })

/-- The sessions of a member of a collective. -/
def Coll.sessionsOf (k : Coll) (member : BitVec 18) : List Nat :=
  (k.sessions.filter fun x => decide (k.members.getD x.1 0 = member) || decide (k.members.getD x.2.1 0 = member)).map (·.2.2)

/-- COLLECTIVE_MEMBER_CHANGED (R447): the collective is invalid until it is registered again with new sessions for the member; the
held writes to it park. -/
def execCollectiveMemberChanged (id : Nat) (member : BitVec 18) (s : State) : Out :=
  let hit := fun (k : Coll) => decide (k.id = id) && k.members.contains member
  let t := modGran s fun g =>
    { g with colls := g.colls.map fun k =>
        if hit k then { k with valid := false, changed := (k.sessionsOf member).map (fun n => (member, n)) ++ k.changed } else k }
  .next ((s.gran.colls.filter hit).foldl (fun s k => parkHeld s k.tid (some 0x48)) t)

/-! ## Function-level resets (R445, R465) -/

/-- The partition goes to ABORTING and completes (R465). -/
def resetPartition (s : State) (p : Nat) : State := abortPart s p

/-- Steps 1 to 3 of a teardown are completed before a reset goes on (R445). -/
def finishErase (s : State) (p : Nat) : State :=
  (getPart s p).erasing.foldl (fun s x => modKey s x.1 KeySlot.erased) s

/-- A partition number after a package reset: its watchdog register is the Granite die's and stays (R465, R467). -/
def resetPart (x : Part) : Part := { scrubOnly true x with wdog := x.wdog, wdogAt := x.wdogAt, wdogDone := x.wdogDone }

/-- The Bilsol half of the Shale dies after a package reset: DEVNUM stays until a device reset (R465, R468). -/
def resetBilsol (b : Bilsol) : Bilsol := { State.reset.bilsol with devnum := b.devnum }

/-- The Flint dies that run, reset, with their management cores' timers started again (R465, R467). -/
def resetDies (s : State) : Sparse Die :=
  ((List.range 8).filter fun d => bit s.gran.present d).map fun d => (d, { Die.zero with mcwdAt := s.time })

/-- A package function-level reset (R465). -/
def resetPackage (s : State) : State :=
  let nums := s.parts.map (·.1)
  let s := nums.foldl (fun s p => if (getPart s p).launch.isSome then finishTask s p 1 else s) s
  let s := nums.foldl finishErase s
  { s with
    cores := s.cores.map fun e => (e.1, resetCore e.2), strings := s.strings.map fun e => (e.1, resetString e.2)
    dies := resetDies s, parts := s.parts.map fun e => (e.1, resetPart e.2), vdedup := []
    lands := [], gran := { s.gran with derated := 0 }, bilsol := resetBilsol s.bilsol, scope := none }

/-- PCIE_FUNCTION_LEVEL_RESET (R458): a package function-level reset. -/
def execPcieFunctionLevelReset (s : State) : Out := .next (resetPackage s)

end Sys2Proof.Machine
end

