-- ==== Sys2Proof/Machine/Regs.lean ====
section
/-!
DEFINITION. Machine/Regs.lean: the management registers: what a read of each returns and what a write to each does, under the
access codes of R9 (R151, R176, R178, R181, R186, R188, R189, R199, R200, R220, R225, R226, R231, R232, R341, R345, R349, R351,
R366, R367, R374, R398 to R419, R433, R436, R444, R464, R467 to R471). Their class-3 numbers follow the order of `MReg` (R463,
log entry 8).
-/
namespace Sys2Proof.Machine

/-! ## The host window (R459) -/

/-- The identity block (R459). -/
def identBlock : List Byte := leBytes 2 0x4C4E ++ leBytes 2 0x0009 ++ leBytes 4 0 ++ leBytes 56 Config.identity.toNat

/-- The four registers of the mailbox and of the event ring, from offset 0x0100. -/
def mailboxRegs (h : HostFn) : List Byte :=
  leBytes 4 h.mbTail.toNat ++ leBytes 4 h.mbHead.toNat ++ leBytes 4 h.rsTail.toNat ++ leBytes 2 h.evTail.toNat ++
    leBytes 2 h.evHead.toNat

/-- A read of byte `o` of the window. -/
def windowByte (s : State) (o : Nat) : Byte :=
  if o < 0x40 then (identBlock[o]?).getD 0
  else if o < 0x100 then ((leBytes 8 s.gran.bootStat.toNat)[o - 0x40]?).getD 0
  else if o < 0x1000 then ((mailboxRegs s.host)[o - 0x100]?).getD 0
  else if o < 0x2000 then memGet s.host.cmds (o - 0x1000)
  else if o < 0x3000 then memGet s.host.resps (o - 0x2000)
  else if o < 0x4000 then memGet s.host.evs (o - 0x3000)
  else 0

/-- A 16-bit register with byte 0 or 1 replaced. -/
def putByte16 (v : BitVec 16) (i : Nat) (b : Byte) : BitVec 16 :=
  BitVec.ofNat 16 (if i = 0 then v.toNat / 256 * 256 + b.toNat else b.toNat * 256 + v.toNat % 256)

/-- A write of byte `o` of the window: MB_TAIL, EV_HEAD and the command slots take it, and every other byte ignores it. -/
def windowPut (h : HostFn) (o : Nat) (b : Byte) : HostFn :=
  if 0x100 ≤ o ∧ o < 0x102 then { h with mbTail := putByte16 h.mbTail (o - 0x100) b }
  else if 0x10E ≤ o ∧ o < 0x110 then { h with evHead := putByte16 h.evHead (o - 0x10E) b }
  else if 0x1000 ≤ o ∧ o < 0x2000 then { h with cmds := memWrite h.cmds (o - 0x1000) [b] }
  else h

/-- A write of bytes from offset `o` of the window. -/
def windowWrite (h : HostFn) : Nat → List Byte → HostFn
  | _, [] => h
  | o, b :: r => windowWrite (windowPut h o b) (o + 1) r

/-! ## The directory (R463) -/

/-- The registers of the directory, in order of number, with name, width in bytes and how many stand on one die or, for a
package register, in the package. -/
def regTable : List (MReg × String × Nat × Nat × Bool) :=
  [(.gtoCap, "GTO_CAP", 4, 128, true), (.strimb, "STRIMB", 8, 32, true), (.fillerLevel, "FILLER_LEVEL", 8, 32, true),
   (.flipSlew, "FLIP_SLEW", 8, 1, true), (.railIlim, "RAIL_ILIM", 8, 1, true), (.dvfsCtl, "DVFS_CTL", 8, 1, true),
   (.therm, "THERM", 8, 128, true), (.stragLimit, "STRAG_LIMIT", 8, 256, false), (.phCtl, "PH_CTL", 8, 256, false),
   (.troot, "TROOT", 8, 256, false), (.accThresh, "ACC_THRESH", 8, 1, true), (.nqCtl, "NQ_CTL", 8, 1, true),
   (.maintCtl, "MAINT_CTL", 8, 1, true), (.ttCtl, "TT_CTL", 8, 1, false), (.flogCtl, "FLOG_CTL", 8, 128, true),
   (.lanectl, "LANECTL", 8, 1024, true), (.evqCtl, "EVQ_CTL", 8, 1, true), (.xfctl, "XFCTL", 8, 256, false),
   (.ctxBase, "CTX_BASE", 8, 128, true), (.ctxCtl, "CTX_CTL", 8, 256, false), (.ctxMap, "CTX_MAP", 8, 256, false),
   (.ctxSeq, "CTX_SEQ", 8, 256, false), (.migctl, "MIGCTL", 8, 256, false), (.pkgDies, "PKG_DIES", 8, 1, false),
   (.chkMode, "CHK_MODE", 8, 1, false)] ++
  [(.ckptBase, "CKPT_BASE", 8, 128, true), (.auditWin, "AUDIT_WIN", 8, 1, false),
   (.auditSpots, "AUDIT_SPOTS", 8, 1, false), (.audStat, "AUD_STAT", 8, 256, false), (.frecCtl, "FREC_CTL", 8, 1, false),
   (.geodeCtl, "GEODE_CTL", 8, 1, false), (.strikeCtl, "STRIKE_CTL", 8, 1, false), (.strikes, "STRIKES", 1, 2056, false),
   (.bootStat, "BOOT_STAT", 8, 1, false), (.meas, "MEAS", 64, 8, false), (.keystat, "KEYSTAT", 8, 64, false),
   (.scrubProg, "SCRUB_PROG", 8, 256, false), (.hostwin, "HOSTWIN", 8, 1, true), (.wdog, "WDOG", 8, 256, false),
   (.mcwd, "MCWD", 8, 1, true), (.devnum, "DEVNUM", 8, 1, false), (.bport, "BPORT", 8, 16, false),
   (.route, "ROUTE", 2, 524288, false), (.timesync, "TIMESYNC", 8, 1, false), (.peerCtl, "PEER_CTL", 8, 256, false),
   (.peerrx, "PEERRX", 32, 16, false), (.pwrLive, "PWR_LIVE", 1, 32, true)]

/-- The 32 bytes of directory entry `n`, none past the last register. -/
def dirEntry (n : Nat) : Option (List Byte) :=
  match regTable[n]? with
  | none => none
  | some (_, name, width, _, _) =>
    let cs := (name.toList.map fun c => BitVec.ofNat 8 c.toNat) ++ List.replicate 24 0
    some (cs.take 24 ++ leBytes 2 n ++ leBytes 6 width)

/-! ## Reading -/

/-- PH_CTL (R200). -/
def phCtlVal (x : Part) : Nat :=
  stateCode x.st * 256 + b2n x.idem * 128 + b2n x.strag * 64 + b2n x.hold

/-- KEYSTAT (R436). -/
def keystatVal (k : KeySlot) : Nat :=
  let st := match k.state with
    | .empty => 0 | .loaded => 1 | .zeroising => 2
  k.session.toNat * 2 ^ 32 + k.sealcnt.toNat * 2 ^ 16 + b2n k.exp * 512 + b2n k.bound * 256 + st

/-- SCRUB_PROG (R444). -/
def scrubProgVal (x : Scrub) : Nat :=
  b2n x.complete * 2 ^ 63 + b2n x.busy * 2 ^ 62 + x.units.length * 2 ^ 24 + x.done

/-- AUD_STAT (R411). -/
def audStatVal (x : Part) : Nat :=
  x.passSs % 2 ^ 24 * 2 ^ 40 + x.ckptSs % 2 ^ 24 * 2 ^ 16 + b2n x.rolling * 2 + b2n x.audWait

/-- CTX_CTL (R367). -/
def ctxCtlVal (x : Part) : Nat :=
  x.savecnt.toNat * 2 ^ 32 + x.ndrop.toNat * 2 ^ 16 + x.ctxStatus * 256 + b2n x.busy.isSome * 4

/-- An entry of PEERRX (R471). -/
def peerrxVal (x : Word × Word × Word) : Nat := x.1.toNat + x.2.1.toNat * 2 ^ 64 + x.2.2.toNat * 2 ^ 128

/-- What a read of a register returns. Die registers stand under die number, core registers under 128 x die + core, string
registers under 32 x die + string, group registers under 8 x core + group. -/
def readMReg (s : State) (r : MReg) (i : Nat) : Nat :=
  let p := getPart s i
  let g := s.gran
  match r with
  | .gtoCap => (getCore s i).gtoCap
  | .strimb => (getStr s i).strimb.toNat
  | .fillerLevel => (getStr s i).filler.toNat
  | .flipSlew => (getDie s i).flipSlew.toNat
  | .railIlim => (getDie s i).railIlim.toNat
  | .dvfsCtl => b2n (getDie s i).pending * 2 ^ 15 + (getDie s i).freq
  | .therm => (setFld (getCore s i).therm 2 2 (b2n (getDie s (dieOf i)).throttled)).toNat
  | .stragLimit => p.stragLimit.toNat
  | .phCtl => phCtlVal p
  | .troot => p.troot.toNat
  | .accThresh => (getDie s i).accThresh.toNat
  | .nqCtl => (getDie s i).nqCtl.toNat
  | .maintCtl => (getDie s i).maintCtl.toNat
  | .ttCtl => s.ttCtl.toNat
  | .flogCtl =>
    let f := (getCore s i).flog
    f.lost.toNat * 2 ^ 32 + f.tail.toNat * 256 + f.head.toNat
  | .lanectl => 0
  | .evqCtl => (getDie s i).evqCtl.toNat
  | .xfctl => 0
  | .ctxBase => (getCore s i).ctxBase.toNat
  | .ctxCtl => ctxCtlVal p
  | .ctxMap => p.ctxMap.toNat
  | .ctxSeq => p.ctxSeq.toNat
  | .migctl => b2n p.mig.isSome * 2 ^ 62 + p.migStatus * 2 ^ 48
  | .pkgDies => g.derated.toNat * 2 ^ 32 + g.excluded.toNat * 2 ^ 16 + g.present.toNat
  | .chkMode => g.chkMode.toNat
  | .ckptBase => (getCore s i).ckptBase.toNat
  | .auditWin => g.auditWin
  | .auditSpots => g.auditSpots
  | .audStat => audStatVal p
  | .frecCtl => g.frecLost.toNat * 2 ^ 32 + g.frecTail.toNat * 2 ^ 16 + g.frecHead.toNat
  | .geodeCtl => g.geodeCtl.toNat
  | .strikeCtl => g.strikeCtl.toNat
  | .strikes => spGet 0 g.strikes i
  | .bootStat => g.bootStat.toNat
  | .meas => (spGet 0 g.meas i).toNat
  | .keystat => keystatVal (getKey s i)
  | .scrubProg => scrubProgVal p.scrub
  | .hostwin => (getDie s i).hostwin.toNat
  | .wdog => p.wdog.toNat
  | .mcwd => (getDie s i).mcwdLimit
  | .devnum => s.bilsol.devnum.toNat
  | .bport => (spGet 0 s.bilsol.port i).toNat
  | .route => (spGet 0 s.bilsol.route i).toNat
  | .timesync => s.bilsol.tsync.toNat
  | .peerCtl => p.peerCtl.toNat
  | .peerrx => peerrxVal (spGet (0, 0, 0) s.bilsol.peerrx i)
  | .pwrLive => (getStr s i).pwr
  | .mcMem => memRead (getDie s (i / 2 ^ 32)).mcMem (i % 2 ^ 32) 8
  | .evHead => s.host.evHead.toNat

/-! ## Writing -/

/-- The state after an event that always goes on. -/
def after (s : State) : Out → State
  | .next t => t
  | .fault _ => s
  | .refused _ => s

/-- FILLER_LEVEL (R178): a level above 2,700 mA stores 2,700. -/
def fillerOf (v : Word) : Word := wd (fld v 12 12 * 4096 + min 2700 (fld v 11 0))

/-- PH_CTL (R200): STRAG clears, HOLD takes its value, then DISCARD and ABORT act. -/
def writePhCtl (s : State) (p : Fin 256) (v : Word) : State :=
  let s := if bit v 6 then after s (execPhCtlStragClear p s) else s
  let s := after s (execPhCtlHold p (bit v 0) s)
  let s := if bit v 2 then after s (execPhCtlDiscard p s) else s
  if bit v 1 then after s (execPhCtlAbort p s) else s

/-- DVFS_CTL (R188). -/
def writeDvfs (s : State) (d : Fin 8) (v : Word) : State :=
  after s (if bit v 14 then execDvfsForce d v s else execDvfsFreqWrite d v s)

/-- FLOG_CTL (R341): HEAD, and LOST cleared by bit 32. -/
def writeFlogCtl (s : State) (c : Nat) (v : Word) : State :=
  modCore s c fun co => { co with flog :=
    { co.flog with head := BitVec.ofNat 8 (fld v 7 0), lost := if bit v 32 then 0 else co.flog.lost } }

/-- LANECTL (R345) of group `8 x core + group`: OP 1 resumes, OP 2 kills, others are ignored. -/
def writeLanectl (s : State) (i : Nat) (v : Word) : State :=
  let m := BitVec.ofNat 32 (fld v 31 0)
  if fld v 57 56 = 1 ∧ fld v 33 32 = 0 then
    laneControl s (i / 8) (i % 8) { kill := false, pc := BitVec.ofNat 20 (fld v 51 32), mask := m }
  else if fld v 57 56 = 2 ∧ fld v 33 32 = 0 then laneControl s (i / 8) (i % 8) { kill := true, pc := 0, mask := m }
  else s

/-- XFCTL (R351). -/
def writeXfctl (s : State) (p : Fin 256) (v : Word) : State :=
  if fld v 43 42 = 1 then replayEnt s p (fld v 41 32) (fld v 15 0)
  else if fld v 43 42 = 2 then after s (execXfctlAbandon p s)
  else s

/-- CTX_CTL (R367). -/
def writeCtxCtl (s : State) (p : Nat) (v : Word) : State :=
  match fld v 1 0 with
  | 1 => ctxStart s p .save
  | 2 => ctxStart s p .evict
  | 3 => ctxStart s p .restore
  | _ => s

/-- FREC_CTL (R417): HEAD, and LOST cleared by bit 32; diagnostic slots that HEAD has passed are freed (R418). -/
def writeFrecCtl (s : State) (v : Word) : State :=
  freeDiags (modGran s fun g =>
    { g with frecHead := BitVec.ofNat 9 (fld v 8 0), frecLost := if bit v 32 then 0 else g.frecLost })

/-- GEODE_CTL (R418): an OUTQ of 0 is ignored. -/
def geodeOf (old v : Word) : Word :=
  setFld (v &&& 0x00003FFFFC0000FF) 15 8 (if fld v 15 8 = 0 then fld old 15 8 else fld v 15 8)

/-- WDOG (R467): EXPIRED clears by writing 1, ACTION and LIMIT_MS are set, the timer restarts. -/
def writeWdog (s : State) (p : Nat) (v : Word) : State :=
  modPart s p fun x =>
    { x with wdog := wd (b2n (bit x.wdog 63 && !bit v 63) * 2 ^ 63 + fld v 59 58 * 2 ^ 58 + fld v 31 0), wdogAt := s.time
             wdogDone := false }

/-- A kick of the management core's watchdog (R467). -/
def kickMcwd (s : State) (d : Nat) (v : Word) : State :=
  if bit v 63 then modDie s d fun x => { x with mcwdAt := s.time } else s

/-- MCWD (R467): LIMIT_MS is set, and KICK restarts the timer. -/
def writeMcwd (s : State) (d : Nat) (v : Word) : State :=
  kickMcwd (modDie s d fun x => { x with mcwdLimit := fld v 31 0 }) d v

/-- DEVNUM (R468): written once between device resets; a write with a reserved bit set is ignored. -/
def writeDevnum (s : State) (v : Word) : State :=
  if bit s.bilsol.devnum 63 ∨ fld v 62 18 ≠ 0 then s
  else { s with bilsol := { s.bilsol with devnum := wd (2 ^ 63 + fld v 17 0) } }

/-- A PEERRX range may stand (R471): it lies in one vault and outside every generation. -/
def peerRangeOk (s : State) (base len : Nat) : Bool :=
  decide (1 ≤ len) && decide (len < 2 ^ 30) && inOneVault (base * 65536) (len * 65536) &&
    !((allGens s).any fun g => g.live && (framesOf s g).any fun f =>
      decide (f.1 < base * 65536 + len * 65536) && decide (base * 65536 < f.1 + f.2))

/-- The words of a PEERRX entry that hold BASE, and LEN with SRC, without their reserved bits (R471). -/
def peerBase (v : Word) : Word := v &&& 0x800000003FFFFFFF
def peerLenSrc (v : Word) : Word := v &&& 0x0003FFFFFFFFFFFF

/-- PEERRX entry `e` takes the word `b` of BASE and `l` of LEN and SRC. The write is ignored where a VALID entry would break the
placement rules (R471). -/
def setPeerrx (s : State) (e : Nat) (b l : Word) : State :=
  if bit b 63 ∧ ¬ peerRangeOk s (fld b 29 0) (fld l 31 0) then s
  else { s with bilsol := { s.bilsol with peerrx := spSet s.bilsol.peerrx e (b, l, (spGet (0, 0, 0) s.bilsol.peerrx e).2.2) } }

/-- A write to field BASE (0), LEN (1) or SRC (2) of a PEERRX entry (R471). -/
def writePeerrx (s : State) (e field : Nat) (v : Word) : State :=
  let old := spGet (0, 0, 0) s.bilsol.peerrx e
  match field with
  | 0 => setPeerrx s e (peerBase v) old.2.1
  | 1 => setPeerrx s e old.1 (setFld old.2.1 31 0 (fld v 31 0))
  | _ => setPeerrx s e old.1 (setFld old.2.1 63 32 (fld v 17 0))

/-- A write to a management register, under its access codes (R9). Reserved bits are dropped. A PEERRX instance is 4 x entry,
and then 0 for BASE, 1 for LEN and SRC. -/
def writeMReg (s : State) (r : MReg) (i : Nat) (v : Word) : State :=
  let die := fun (f : Die → Die) => modDie s i f
  let part := fun (f : Part → Part) => modPart s i f
  match r with
  | .gtoCap => if fld v 7 0 = 0 then s else modCore s i fun co => { co with gtoCap := fld v 7 0 }
  | .strimb | .pkgDies | .audStat | .strikes | .bootStat | .meas | .keystat | .scrubProg | .bport | .timesync | .pwrLive => s
  | .fillerLevel => modStr s i fun x => { x with filler := fillerOf v }
  | .flipSlew => die fun x => { x with flipSlew := v &&& 0xFFFF }
  | .railIlim => writeRail s i v
  | .dvfsCtl => writeDvfs s (Fin.ofNat 8 i) v
  | .therm => if bit v 1 then modCore s i fun co => { co with therm := setFld co.therm 1 1 0 } else s
  | .stragLimit => writeStrag s i v
  | .phCtl => writePhCtl s (Fin.ofNat 256 i) v
  | .troot => writeTroot s i v
  | .accThresh => die fun x => { x with accThresh := v &&& 0xFFF }
  | .nqCtl => die fun x => { x with nqCtl := v &&& 0x0000FFFFFFFFFFFF }
  | .maintCtl => die fun x => { x with maintCtl := v &&& 0x0000FFFFFFFFFFFF }
  | .ttCtl => { s with ttCtl := v &&& 0x01FFFFFFFFFFFFC0 }
  | .flogCtl => writeFlogCtl s i v
  | .lanectl => writeLanectl s i v
  | .evqCtl => die fun x => { x with evqCtl := v &&& 0x0000FFFFFFFFFFFF }
  | .xfctl => writeXfctl s (Fin.ofNat 256 i) v
  | .ctxBase => modCore s i fun co => { co with ctxBase := v &&& 0x00003FFFFFFF0001 }
  | .ctxCtl => writeCtxCtl s i v
  | .ctxMap => part fun x => { x with ctxMap := v &&& 0x0000FFFFFFFFFFFF }
  | .ctxSeq => part fun x => { x with ctxSeq := v }
  | .migctl => after s (execMigctlGo (Fin.ofNat 256 i) v s)
  | .chkMode => modGran s fun g => { g with chkMode := v &&& 1 }
  | .ckptBase => modCore s i fun co => { co with ckptBase := v &&& 0x00003FFFFFFF0001 }
  | .auditWin => if fld v 7 0 = 0 then s else modGran s fun g => { g with auditWin := fld v 7 0 }
  | .auditSpots => modGran s fun g => { g with auditSpots := min 64 (fld v 6 0) }
  | .frecCtl => writeFrecCtl s v
  | .geodeCtl => modGran s fun g => { g with geodeCtl := geodeOf g.geodeCtl v }
  | .strikeCtl => modGran s fun g => { g with strikeCtl := v &&& 0xFFFFFF }
  | .hostwin => die fun x => { x with hostwin := v &&& 0x00003FFFFFFFFFFF }
  | .wdog => writeWdog s i v
  | .mcwd => writeMcwd s i v
  | .devnum => writeDevnum s v
  | .route => { s with bilsol := { s.bilsol with route := spPut 0 s.bilsol.route i (v.setWidth 16) } }
  | .peerCtl => part fun x => { x with peerCtl := v &&& 0x8000FFFFFFFFFFFF }
  | .peerrx =>
    if i % 4 = 0 then writePeerrx s (i / 4) 0 v
    else if i % 4 = 1 then setPeerrx s (i / 4) (spGet (0, 0, 0) s.bilsol.peerrx (i / 4)).1 (peerLenSrc v)
    else s
  | .mcMem => modDie s (i / 2 ^ 32) fun x => { x with mcMem := memStore x.mcMem (i % 2 ^ 32) 8 v.toNat }
  | .evHead => { s with host := windowWrite s.host 0x10E (leBytes 2 v.toNat) }

/-- How many instances of a register the package has, and how many each die has where it stands on the dies. -/
def regCount (r : MReg) : Nat :=
  match r with
  | .mcMem => 2 ^ 35
  | .evHead => 1
  | .peerrx => 64
  | r =>
    match regTable.find? fun x => decide (x.1 = r) with
    | some (_, _, _, n, onDie) => if onDie then 8 * n else n
    | none => 0

/-- The die on which an instance of a register stands, where it stands on one: ports 0 to 7 and the first route table are on
Shale die 9, the others on die 10 (R468, R469). -/
def regDie (r : MReg) (i : Nat) : Option Nat :=
  match r with
  | .bport => some (9 + i / 8)
  | .route => some (9 + i / 262144)
  | .mcMem => some (i / 2 ^ 32)
  | .evHead => none
  | r =>
    match regTable.find? fun x => decide (x.1 = r) with
    | some (_, _, _, n, onDie) => if onDie then some (i / n) else none
    | none => none

/-- The instance exists, and the die it stands on is not held in reset (R430). -/
def regThere (s : State) (r : MReg) (i : Nat) : Bool :=
  decide (i < regCount r) && (match regDie r i with
    | some d => bit s.gran.present d
    | none => true)

/-- REGISTER_WRITE (R9): a register that is not there takes no write. -/
def execRegisterWrite (r : MReg) (inst : Nat) (v : Word) (s : State) : Out :=
  if regThere s r inst then .next (writeMReg s r inst v) else .next s

end Sys2Proof.Machine
end

