-- ==== Sys2Proof/Machine/Host.lean ====
section
/-!
DEFINITION. Machine/Host.lean: the control mailbox and its commands (R459 to R462), readback and writes by state address
(R441, R463, R464), resets by the host (R465) and the watchdogs (R467).
-/
namespace Sys2Proof.Machine

/-! ## The mailbox (R460) -/

/-- What a command comes to: STATUS, LEN, VALUE where the command gives one, and DATA, whose length is LEN. -/
structure Reply where
  status : Nat
  value : Option Word
  data : List Byte
  deriving DecidableEq, Repr

/-- A status with no value and no data. -/
def Reply.only (n : Nat) : Reply := { status := n, value := none, data := [] }

/-- The 64 bytes of a command (R460). -/
def cmdBytes (op : Byte) (c : HostCmd) : List Byte :=
  [op, c.die] ++ leBytes 2 c.tag.toNat ++ leBytes 4 c.rsv.toNat ++ leBytes 8 c.a0.toNat ++ leBytes 8 c.a1.toNat ++
    leBytes 8 c.a2.toNat ++ leBytes 32 c.data.toNat

/-- The 64 bytes of a response (R460). What the command's row leaves unstated, VALUE or DATA beyond LEN, is a free value. -/
def respBytes (s : State) (op : Byte) (c : HostCmd) (r : Reply) : List Byte :=
  let free := (List.range 32).map fun i => (Config.freeWord 16 s.ticks i).setWidth 8
  [op] ++ leBytes 1 r.status ++ leBytes 2 c.tag.toNat ++ leBytes 4 r.data.length ++
    leBytes 8 (r.value.getD (Config.freeWord 16 s.ticks 32)).toNat ++ leBytes 16 0 ++ (r.data ++ free.drop r.data.length).take 32

/-- The driver posts a command in the next slot, and the device takes it (R460). -/
def takeCmd (s : State) (op : Byte) (c : HostCmd) : State :=
  let h := windowWrite s.host (0x1000 + 64 * (s.host.mbTail.toNat % 64)) (cmdBytes op c)
  let h := windowWrite h 0x100 (leBytes 2 (h.mbTail + 1).toNat)
  { s with host := { h with mbHead := h.mbTail } }

/-- The response goes to its slot, RS_TAIL passes it and MSI-X vector 0 is raised (R460). -/
def answerCmd (op : Byte) (c : HostCmd) (x : State × Reply) : State :=
  let s := x.1
  let h := s.host
  { s with host := { h with
      resps := memWrite h.resps (64 * (h.rsTail.toNat % 64)) (respBytes s op c x.2), rsTail := h.rsTail + 1
      msix0 := h.msix0 + 1 } }

/-- A command from posting to response: NOT_READY by R462, BAD for a reserved field that is set, else what it does. -/
def runCmd (op : Byte) (c : HostCmd) (ready : State → Bool) (f : State → State × Reply) (s : State) : Out :=
  let s := takeCmd s op c
  .next (answerCmd op c
    (if ¬ ready s then (s, .only 1) else if c.rsv ≠ 0 then (s, .only 2) else f s))

/-- IDENT, STATUS and SPDM are executed at any time (R462). -/
def always (_ : State) : Bool := true

/-- IDENT (R461). -/
def execHostIdent (c : HostCmd) (s : State) : Out :=
  runCmd 0x01 c always (fun s => (s, { status := 0, value := some s.bilsol.devnum, data := identBlock.take 32 })) s

/-- STATUS (R461). -/
def execHostStatus (c : HostCmd) (s : State) : Out :=
  runCmd 0x02 c always
    (fun s => (s, { status := 0, value := some s.gran.bootStat, data := leBytes 8 (readMReg s .pkgDies 0) })) s

/-! ## State addresses (R463) -/

/-- What a read of one byte of state gives: nothing there, no power, a byte, or a world's byte, which reads as zero. -/
inductive Peek where
  | bad
  | unpowered
  | byte (b : Byte)
  | world
  deriving DecidableEq, Repr

/-- The fields of a state address. -/
def saClass (a : Word) : Nat := fld a 63 56
def saDie (a : Word) : Nat := fld a 55 48
def saUnit (a : Word) : Nat := fld a 47 32

/-- A die whose core state can be read: released, and not tripped (R357, R460). -/
def powered (s : State) (d : Nat) : Bool := bit s.gran.present d && !(getDie s d).tripped

/-- A byte of a Flint die's state, if the die has power. -/
def peekOn (s : State) (d : Nat) (x : Peek) : Peek := if powered s d then x else .unpowered

/-- The core's contents are a world's: it runs one, or stands on the scrub list of one (R441, R474). -/
def coreOfWorld (s : State) (c : Nat) : Bool :=
  (match (getCore s c).part with
   | some p => isWorld s p
   | none => false) ||
  s.parts.any fun e => !e.2.scrub.complete && e.2.scrub.units.any fun u => match u with
    | .core k _ => decide (k = c)
    | .bytes _ _ => false

/-- A scratchpad byte of the HEAD and TAIL of a queue of the core, which stay readable (R441). -/
def queueCount (co : Core) (a : Nat) : Bool :=
  [co.alogq, co.xq, co.noteq].any fun q => decide (qwDepth q ≠ 0) && decide (qwBase q ≤ a) && decide (a < qwBase q + 8)

/-- A byte of the context image that R441 hides in a world: registers, predicates, temporaries, uniforms, scratchpad, B store
and accumulators. -/
def hiddenByte (co : Core) (o : Nat) : Bool :=
  if 0x1B000 ≤ o then !(decide (o < 0xDB000) && queueCount co (o - 0x1B000))
  else if 0x3000 ≤ o then decide ((o - 0x3000) % 384 < 0x150) || decide ((o - 0x3000) % 384 = 0x15C)
  else decide (0x1000 ≤ o) && decide ((o - 0x1000) % 0x400 < 0x80)

/-- A core's live state in the layout of its image, with the timelines as they stand (R362, R463). -/
def liveImage (s : State) (c : Nat) : Mem :=
  let s := modCore s c fun co =>
    { co with eng := { co.eng with issued := co.eng.mtl }, asy := { co.asy with issued := co.asy.atl } }
  contextImage s c (partOf s c).savecnt.toNat (partOf s c).ctxSeq.toNat

/-- Class 1: live core state. -/
def peekCore (s : State) (d c o : Nat) : Peek :=
  if 8 ≤ d ∨ 128 ≤ c ∨ imgBytes ≤ o then .bad
  else
    let n := 128 * d + c
    peekOn s d (if coreOfWorld s n ∧ hiddenByte (getCore s n) o then .world else .byte (memGet (liveImage s n) o))

/-- Class 2: flag counts and frontier entries of a group. The frontier holds every runnable lane (R141), one in flight at the word
it would issue next (R340). -/
def peekGroup (s : State) (d u o : Nat) : Peek :=
  if 8 ≤ d ∨ 1024 ≤ u ∨ 512 ≤ o then .bad
  else
    let g := getGroup s (128 * d + u / 8) (u % 8)
    peekOn s d (.byte
      (if o < 12 then BitVec.ofNat 8 (spGet 0 g.flags o)
       else if o < 64 then 0
       else (((g.snap.filter fun e => decide (fld e.1 31 30 = 0)).flatMap fun e => leBytes 4 e.1.toNat ++ leBytes 4 e.2.toNat)[o - 64]?).getD 0))

/-- The die that an instance of a register stands on has power. -/
def regPowered (s : State) (r : MReg) (i : Nat) : Bool :=
  match regDie r i with
  | some d => if d < 8 then powered s d else bit s.gran.present d
  | none => true

/-- Class 3: byte `o` of the instances of a register, a die's own or the package's. -/
def peekReg (s : State) (d u o : Nat) : Peek :=
  match regTable[u]? with
  | none => .bad
  | some (r, _, width, n, onDie) =>
    if n * width ≤ o ∨ (onDie ∧ 8 ≤ d) ∨ (¬ onDie ∧ d ≠ 0) then .bad
    else
      let i := (if onDie then d * n else 0) + o / width
      if regPowered s r i then .byte (BitVec.ofNat 8 (readMReg s r i / 256 ^ (o % width))) else .unpowered

/-- The bytes of a lane fault record (R339). -/
def laneRecBytes (r : LaneRec) : List Byte :=
  [1, r.cause] ++ leBytes 1 (r.group + 128 * b2n r.double) ++ leBytes 1 r.access ++ leBytes 4 r.mask.toNat ++
    leBytes 4 r.pc.toNat ++ leBytes 4 r.clause.toNat ++ leBytes 8 r.addr.toNat ++ leBytes 4 r.word.toNat ++
    leBytes 1 r.snap.length ++ leBytes 1 (b2n r.handler) ++ [0, 0] ++ leBytes 8 r.phase.toNat ++ leBytes 8 r.time ++
    leBytes 4 r.fall.toNat ++ leBytes 12 0 ++ r.snap.flatMap fun e => leBytes 4 e.1.toNat ++ leBytes 4 e.2.toNat

/-- The bytes of an engine error record (R348). -/
def engRecBytes (r : EngRec) : List Byte :=
  [2, 0x60] ++ leBytes 1 r.group ++ leBytes 1 r.code ++ leBytes 1 r.lane ++ leBytes 1 r.minor ++ leBytes 1 r.ty ++ [0] ++
    leBytes 8 r.num ++ leBytes 4 r.block ++ leBytes 4 r.pc.toNat ++ leBytes 8 r.phase.toNat ++ leBytes 8 r.time

/-- Class 4: the fault log of a core, slot s at 320 x s. -/
def peekFlog (s : State) (d c o : Nat) : Peek :=
  if 8 ≤ d ∨ 128 ≤ c ∨ 5120 ≤ o then .bad
  else
    let bs := match spFind (getCore s (128 * d + c)).flog.slots (o / 320) with
      | some (.lane r) => laneRecBytes r
      | some (.engine r) => engRecBytes r
      | none => []
    peekOn s d (.byte ((bs[o % 320]?).getD 0))

/-- Class 5: the tensor table. -/
def peekTable (s : State) (o : Nat) : Peek :=
  if ttCount s ≤ o / 64 then .bad else .byte (((genBytes (getGen s (o / 64)))[o % 64]?).getD 0)

/-- The 128 bytes of an entry of the package fault record (R417). -/
def frecBytes (e : FrecEnt) : List Byte :=
  leBytes 1 e.kind ++ leBytes 1 e.verdict ++ leBytes 1 e.die ++ leBytes 1 e.part ++ leBytes 2 e.lcore ++ leBytes 2 e.pcore ++
    leBytes 1 e.str ++ leBytes 1 e.ctx ++ leBytes 1 e.wkind ++ leBytes 1 e.slot ++ leBytes 4 e.opid.toNat ++
    leBytes 8 e.phase.toNat ++ leBytes 8 e.time ++ leBytes 8 e.v0.toNat ++ leBytes 8 e.v1.toNat ++ leBytes 8 e.v2.toNat ++
    leBytes 8 0 ++ leBytes 8 e.alpha ++ leBytes 8 e.beta ++ leBytes 12 e.ref0.toNat ++ leBytes 8 e.spot.toNat ++
    leBytes 4 0 ++ leBytes 8 e.expect.toNat ++ leBytes 8 e.found.toNat ++ leBytes 8 e.arg.toNat

/-- Class 6: the package fault record, entry e in ring slot e mod 256 (R417). -/
def peekFrec (s : State) (o : Nat) : Peek :=
  if 512 ≤ o / 128 then .bad
  else .byte (match spFind s.gran.frec (o / 128 % 256) with
    | some e => ((frecBytes e)[o % 128]?).getD 0
    | none => 0)

/-- Class 7: the register directory. -/
def peekDir (o : Nat) : Peek :=
  match dirEntry (o / 32) with
  | some bs => .byte ((bs[o % 32]?).getD 0)
  | none => .bad

/-- Class 9: a byte of vault memory at its physical address (R441, log entry 5). A tripped die still serves its vaults
(R399). -/
def peekVault (s : State) (pa : Nat) : Peek :=
  if ¬ paOk pa then .bad
  else if ¬ bit s.gran.present (pa / 2 ^ 36) then .unpowered
  else if (mgmtByte s pa).2 then .world
  else .byte (mgmtByte s pa).1

/-- One byte of state, `k` bytes after a state address. -/
def peek (s : State) (a : Word) (k : Nat) : Peek :=
  let d := saDie a
  let u := saUnit a
  let o := fld a 31 0 + k
  match saClass a with
  | 1 => peekCore s d u o
  | 2 => peekGroup s d u o
  | 3 => peekReg s d u o
  | 4 => peekFlog s d u o
  | 5 => if d = 0 ∧ u = 0 then peekTable s o else .bad
  | 6 => if d = 0 ∧ u = 0 then peekFrec s o else .bad
  | 7 => if d = 0 ∧ u = 0 then peekDir o else .bad
  | 9 => if fld a 55 46 = 0 then peekVault s (fld a 45 0 + k) else .bad
  | _ => .bad

/-- The reply to a READ: BAD or UNPOWERED where a byte is, WORLD where a byte of a world reads as zero (R441, R460). -/
def readReply (l : List Peek) : Reply :=
  if l.any fun x => decide (x = .bad) then .only 2
  else if l.any fun x => decide (x = .unpowered) then .only 5
  else
    { status := if l.any fun x => decide (x = .world) then 4 else 0, value := none
      data := l.map fun x => match x with
        | .byte b => b
        | .bad | .unpowered | .world => 0 }

/-- A length argument of 1 to 32. -/
def lenOk (v : Word) : Bool := decide (1 ≤ v.toNat) && decide (v.toNat ≤ 32)

/-- READ (R461, R463). -/
def execHostRead (c : HostCmd) (s : State) : Out :=
  runCmd 0x03 c booted
    (fun s => (s, if ¬ lenOk c.a1 then .only 2 else readReply ((List.range c.a1.toNat).map (peek s c.a0)))) s

/-! ## Writes (R464) -/

/-- A physical range lies inside the host window of its die. -/
def inHostWin (s : State) (pa n : Nat) : Bool :=
  let w := (getDie s (pa / 2 ^ 36)).hostwin
  let base := fld w 45 16 * 65536
  decide (base ≤ pa) && decide (pa + n ≤ base + fld w 15 0 * 65536) && inOneVault pa n

/-- A physical range meets a frame that a generation covers. -/
def inSomeGen (s : State) (pa n : Nat) : Bool :=
  (allGens s).any fun g => g.live && (framesOf s g).any fun f => decide (f.1 < pa + n) && decide (pa < f.1 + f.2)

/-- WRITE of class 9 (R464): the lines written hold plain bytes of the host, which the management core of their die stores (R261,
R460; log entry 66). -/
def writeClass9 (s : State) (pa : Nat) (bs : List Byte) : State × Reply :=
  if ¬ paOk pa then (s, .only 2)
  else if ¬ bit s.gran.present (pa / 2 ^ 36) then (s, .only 5)
  else if ¬ inHostWin s pa bs.length ∨ inSomeGen s pa bs.length then (s, .only 3)
  else (unsealLines (scopedWrite s pa bs) (pa / 64) ((pa + bs.length - 1) / 64 + 1 - pa / 64), .only 0)

/-- WRITE of class 3 (R464): one whole register; of PEERRX one entry, or one of its fields. -/
def writeClass3 (s : State) (a : Word) (bs : List Byte) : State × Reply :=
  let v := wd (leNat bs)
  let o := fld a 31 0
  match regTable[saUnit a]? with
  | none => (s, .only 2)
  | some (r, _, width, n, onDie) =>
    if n * width ≤ o ∨ (onDie ∧ 8 ≤ saDie a) ∨ (¬ onDie ∧ saDie a ≠ 0) then (s, .only 2)
    else if ¬ regPowered s r ((if onDie then saDie a * n else 0) + o / width) then (s, .only 5)
    else if r = .peerrx then
      (if bs.length = 32 ∧ o % 32 = 0 then (setPeerrx s (o / 32) (peerBase v) (peerLenSrc (wd (leNat (bs.drop 8)))), .only 0)
       else if bs.length = 8 ∧ o % 8 = 0 then (writeMReg s .peerrx (4 * (o / 32) + o % 32 / 8) v, .only 0)
       else if bs.length = 4 ∧ o % 32 = 8 then (writePeerrx s (o / 32) 1 v, .only 0)
       else if bs.length = 4 ∧ o % 32 = 12 then (writePeerrx s (o / 32) 2 v, .only 0)
       else (s, .only 2))
    else if bs.length ≠ width ∨ o % width ≠ 0 then (s, .only 2)
    else (writeMReg s r ((if onDie then saDie a * n else 0) + o / width) v, .only 0)

/-- WRITE (R461, R464). -/
def execHostWrite (c : HostCmd) (s : State) : Out :=
  runCmd 0x04 c booted (fun s =>
    let bs := (leBytes 32 c.data.toNat).take c.a1.toNat
    if ¬ lenOk c.a1 then (s, .only 2)
    else if saClass c.a0 = 3 then writeClass3 s c.a0 bs
    else if saClass c.a0 = 9 ∧ fld c.a0 55 46 = 0 then writeClass9 s (fld c.a0 45 0) bs
    else (s, .only 2)) s

/-! ## SUBMIT and RESULT (R461) -/

/-- A partition number that no task, record or scrub list holds. -/
def partUnused (s : State) (p : Nat) : Bool :=
  let x := getPart s p
  partFree x && x.scrub.complete && (bindsOf s p fun b => decide (b ≠ .free)).isEmpty

/-- The partition number that the firmware takes for a launch record: the lowest unused one whose tables reach the record, or
else the lowest unused one (log entry 15). -/
def submitPart (s : State) (d : Nat) (va : Word) : Option Nat :=
  match (List.range 256).find? fun p => partUnused s p && (readLr s d p va).isSome with
  | some p => some p
  | none => (List.range 256).find? (partUnused s)

/-- Bind a launch record on the dies of a mask, in the lowest FREE slot of each (R209, R461). -/
def submit (s : State) (va mask : Word) : State × Reply :=
  let dies := bitList (mask.setWidth 8)
  if mask.toNat = 0 ∨ 256 ≤ mask.toNat then (s, .only 2)
  else if dies.any fun d => !powered s d then (s, .only 5)
  else
    match submitPart s (dies.headD 0) va with
    | none => (s, .only 3)
    | some p =>
      if bindsBlocked s ∨ dies.any fun d => (freeRecord s d).isNone then (s, .only 3)
      else
        let strs := ((readLr s (dies.headD 0) p va).map LrRaw.strings).getD []
        let one := fun (s : State) (d : Nat) => writeBind s d ((freeRecord s d).getD 0)
          { lrVa := va, strings := maskOf 32 ((strs.filter fun n => decide (n / 32 = d)).map (· % 32)),
            part := Fin.ofNat 256 p, state := 1, diemask := mask.setWidth 16 } true
        (dies.foldl one s, { status := 0, value := some (wd p), data := [] })

/-- SUBMIT (R461). -/
def execHostSubmit (c : HostCmd) (s : State) : Out := runCmd 0x05 c booted (fun s => submit s c.a0 c.a1) s

/-- RESULT's reply: REFUSED where no generation of the TID is RELEASED or its slot is a world's, BAD past its end (R460,
R461). -/
def resultReply (s : State) (tid : BitVec 48) (off n : Nat) : Reply :=
  match latestGen s tid (fun g => decide (g.state = 5)) with
  | none => .only 3
  | some g =>
    if ¬ (g.keyslot = 0 ∨ (getKey s g.keyslot).exp) then .only 3
    else if g.size < off + n then .only 2
    else
      match releasedBytes s g off n with
      | some bs => { status := 0, value := none, data := bs }
      | none => .only 3

/-- RESULT (R461). -/
def execHostResult (c : HostCmd) (s : State) : Out :=
  runCmd 0x06 c booted (fun s =>
    (s, if ¬ lenOk c.a2 ∨ 2 ^ 48 ≤ c.a0.toNat then .only 2
        else resultReply s (c.a0.setWidth 48) c.a1.toNat c.a2.toNat)) s

/-! ## RESET, SPDM, PUSH, TIMESET (R433, R461, R465, R470) -/

/-- RESET: of the package, or of a partition. -/
def hostReset (c : HostCmd) (s : State) : State × Reply :=
  if c.a0.toNat = 256 then (resetPackage s, .only 0)
  else if c.a0.toNat < 256 then (resetPartition s c.a0.toNat, .only 0)
  else (s, .only 2)

/-- RESET_PARTITION (R465). -/
def execHostResetPartition (c : HostCmd) (s : State) : Out := runCmd 0x07 c booted (hostReset c) s

/-- RESET_PACKAGE (R465). -/
def execHostResetPackage (c : HostCmd) (s : State) : Out := runCmd 0x07 c booted (hostReset c) s

/-- The fragments so far with one more: once they hold a whole message the responder answers it, by the mailbox (R435, R461). -/
def joinFragment (s : State) (bs : List Byte) : State :=
  let f := s.spdm.frag ++ bs
  match Config.spdmMessage f with
  | none => { s with spdm := { s.spdm with frag := f } }
  | some (k, m, slot, exp) =>
    let s := after s (respond k { m with channel := 0 } slot exp { s with spdm := { s.spdm with frag := [] } })
    { s with spdm := { s.spdm with out := replyBytes s.spdm } }

/-- An SPDM command carries a fragment to the responder, and its response carries the next 32 bytes of the responder's reply
back (R435, R461, log entry 47). -/
def carrySpdm (s : State) (bs : List Byte) : State × Reply :=
  let s := joinFragment s bs
  ({ s with spdm := { s.spdm with out := s.spdm.out.drop 32 } }, { status := 0, value := none, data := s.spdm.out.take 32 })

/-- SPDM: a message fragment for the responder (R435, R461). -/
def execHostSpdm (c : HostCmd) (s : State) : Out := runCmd 0x08 c always (fun s => carrySpdm s (leBytes 32 c.data.toNat)) s

/-- PUSH (R433, R461): in recovery mode only; the last chunk starts verification, and no further chunk is taken until its
result. -/
def execHostPush (c : HostCmd) (s : State) : Out :=
  runCmd 0x09 c (fun s => booted s || recovery s) (fun s =>
    if ¬ recovery s ∨ s.gran.pushEnd then (s, .only 3)
    else if ¬ lenOk c.a1 ∨ 2 ≤ c.a2.toNat then (s, .only 2)
    else
      (modGran s fun g =>
        { g with pushed := memWrite g.pushed c.a0.toNat ((leBytes 32 c.data.toNat).take c.a1.toNat), pushEnd := bit c.a2 0 },
       .only 0)) s

/-- TIMESET (R461, R470): only while TIMESYNC.LOCKED is 0, and only forward. -/
def execHostTimeset (c : HostCmd) (s : State) : Out :=
  runCmd 0x0A c booted (fun s =>
    if bit s.bilsol.tsync 63 then (s, .only 3)
    else if s.time < c.a0.toNat then ({ s with time := c.a0.toNat }, .only 0)
    else (s, .only 3)) s

/-- UNKNOWN_OP (R461, R462): an OP outside the table answers BAD, and NOT_READY before the package is ready. -/
def execHostUnknownOp (op : Byte) (c : HostCmd) (s : State) : Out :=
  if 1 ≤ op.toNat ∧ op.toNat ≤ 10 then .next s else runCmd op c booted (fun s => (s, .only 2)) s

/-! ## Watchdogs (R467) -/

/-- WDOG_WRITE (R467). -/
def execWdogWrite (part : Fin 256) (v : Word) (s : State) : Out := .next (writeWdog s part v)

/-- The nanoseconds of a limit in ms. -/
def msNs (n : Nat) : Nat := n * 1000000

/-- The watchdog of a partition runs: it has a limit, and has not reached it since its timer last restarted. -/
def wdogRuns (x : Part) : Bool := x.launch.isSome && decide (fld x.wdog 31 0 ≠ 0) && !x.wdogDone

/-- WDOG_EXPIRE (R467): the timer reaches LIMIT_MS. -/
def execWdogExpire (part : Fin 256) (s : State) : Out :=
  let x := getPart s part
  if wdogRuns x then
    let s := { s with time := max s.time (x.wdogAt + msNs (fld x.wdog 31 0)) }
    let s := modPart s part fun x => { x with wdog := setFld x.wdog 63 63 1, wdogDone := true }
    let act := fld x.wdog 59 58
    let s := postHost s (hostEvent s 4 part (wd act))
    .next (match act with
      | 0 => s
      | 1 => abortPart s part
      | 2 => resetPartition s part
      | _ => resetPackage s)
  else .next s

/-- MCWD_KICK (R467). -/
def execMcwdKick (die : Fin 8) (v : Word) (s : State) : Out := .next (kickMcwd s die v)

/-- MCWD_EXPIRE (R467): the management core alone is reset, and the partitions whose home die it is are aborted. -/
def execMcwdExpire (die : Fin 8) (s : State) : Out :=
  let x := getDie s die
  if bit s.gran.present die then
    let s := { s with time := max s.time (x.mcwdAt + msNs x.mcwdLimit) }
    let s := modDie s die fun x => { x with mcwdAt := s.time }
    let mine := (s.parts.filter fun e => e.2.launch.isSome && decide (homeDie e.2 = die.val)).map (·.1)
    .next (postHost (mine.foldl abortPart s) (hostEvent s 4 0xFF 1))
  else .next s

end Sys2Proof.Machine
end

