-- ==== Sys2Proof/Machine/Bilsol.lean ====
section
/-!
DEFINITION. Machine/Bilsol.lean: the Bilsol ports and the device number (R438, R468, R469), package time (R470), and peer
checkpoints as the peer receives them (R471).
-/
namespace Sys2Proof.Machine

/-- DEVNUM_WRITE (R468). -/
def execDevnumWrite (v : Word) (s : State) : Out := .next (writeDevnum s v)

/-- A Bilsol port's register. -/
def getPort (s : State) (n : Nat) : Word := spGet 0 s.bilsol.port n

/-- Replace a port's register. -/
def setPortReg (s : State) (n : Nat) (v : Word) : State := { s with bilsol := { s.bilsol with port := spSet s.bilsol.port n v } }

/-- A port may take a state: down until its Shale die is released and the device has its number; up once a session with its peer is established (R435,
R468). -/
def portMay (s : State) (port st : Nat) : Bool :=
  decide (st = 0) || (bit s.bilsol.devnum 63 && bit s.gran.present (9 + port / 8) &&
    (decide (st ≠ 3) || s.spdm.sessions.any fun x => decide (x.channel = port + 1) && x.established))

/-- The requests that a port which goes down has carried and that are not acknowledged wait to be sent again by another port of their
entry (R353, R469). -/
def portDown (s : State) (port : Nat) : State :=
  modGran s fun g =>
    { g with wire := g.wire.map fun o =>
        if o.port = some port ∧ ¬ Config.acknowledged o.dev.toNat o.tid.toNat o.off s.ticks then { o with port := none } else o }

/-- BILSOL_PORT_STATE_CHANGE (R466, R468, R469): the pairs of a port that goes down use another port of their entry from then
on. -/
def execBilsolPortStateChange (port : Fin 16) (st : Fin 4) (peer : BitVec 18) (s : State) : Out :=
  if fld (getPort s port) 1 0 = st.val ∨ ¬ portMay s port st then .next s
  else
    let v := setFld (setFld (getPort s port) 63 46 peer.toNat) 1 0 st
    let s := if fld (getPort s port) 1 0 = 3 then portDown s port else s
    .next (postHost (setPortReg s port v) (hostEvent s 5 0xFF (wd (st * 256 + port))))

/-- FRAME_TAG_FAILURE (R438, R468): the flit is dropped and ERRCNT rises, saturating. -/
def execFrameTagFailure (port : Fin 16) (s : State) : Out :=
  let v := getPort s port
  .next (setPortReg s port (setFld v 31 16 (min 0xFFFF (fld v 31 16 + 1))))

/-! ## Package time (R470) -/

/-- A record with TIMED = 1 is ARMED on the package. -/
def timedArmed (s : State) : Bool :=
  (s.parts.any fun e => e.2.waitStart) || s.dies.any fun e => e.2.binds.any fun b =>
    decide (b.2.state = .armed) && ((readLr s e.1 b.2.part b.2.lrVa).any fun r => bit r.flags 1)

/-- TIMESYNC after one sync interval: LOCKED after 16 intervals within 200 ns. -/
def syncReg (port offset count : Nat) : Word := wd (b2n (decide (16 ≤ count)) * 2 ^ 63 + port * 2 ^ 32 + offset)

/-- PTP_SYNC (R470): the measured offset; time steps forward only by more than 1 ms with no TIMED record ARMED, and is slewed
otherwise, which the time of each step covers (log entry 2). -/
def execPtpSync (port : Fin 16) (offset : BitVec 32) (s : State) : Out :=
  let n := if offset.toInt.natAbs ≤ 200 then min 16 (s.bilsol.tsCount + 1) else 0
  let s := { s with bilsol := { s.bilsol with tsync := syncReg port offset.toNat n, tsCount := n } }
  if 1000000 < offset.toInt ∧ ¬ timedArmed s then .next { s with time := s.time + offset.toNat } else .next s

/-! ## Peer checkpoints (R471) -/

/-- The PEERRX entry that opens a range to a source device. -/
def peerEntry (s : State) (src dst len : Nat) : Option Nat :=
  (List.range 16).find? fun i =>
    let e := spGet (0, 0, 0) s.bilsol.peerrx i
    let base := fld e.1 29 0 * 65536
    bit e.1 63 && decide (fld e.2.1 49 32 = src) && decide (base ≤ dst) &&
      decide (dst + len ≤ base + fld e.2.1 31 0 * 65536)

/-- Store the lines of a push with the sideband they came with, line `i` being line `i` of the image. -/
def storePush (dst lcore : Nat) (seq : Word) : Nat → List PushLine → State → State
  | _, [], s => s
  | i, x :: r, s =>
    let s := sealLines (vaultWrite s (dst + 64 * i) (leBytes 64 x.data.toNat))
      { lo := dst / 64 + i, count := 1, key := BitVec.ofNat 256 x.key, tid := seqTid seq.toNat, ver := seqVer seq.toNat,
        line0 := 2 ^ 20 * lcore + i, zero := false }
    storePush dst lcore seq (i + 1) r s

/-- PEER_PUSH_RECEIVE (R471): accepted wholly inside a VALID range of its source, else refused. -/
def execPeerPushReceive (src : BitVec 18) (dst : BitVec 46) (seq : Word) (lcore : BitVec 10) (lines : List PushLine)
    (s : State) : Out :=
  match (if dst.toNat % 64 = 0 then peerEntry s src.toNat dst.toNat (64 * lines.length) else none) with
  | none => .next (replyTo s true [])
  | some i =>
    let s := storePush dst.toNat lcore.toNat seq 0 lines s
    let e := spGet (0, 0, 0) s.bilsol.peerrx i
    .next (replyTo { s with bilsol := { s.bilsol with peerrx := spSet s.bilsol.peerrx i (e.1, e.2.1, seq) } } false [])

/-- PEERRX_WRITE (R471). -/
def execPeerrxWrite (entry : Fin 16) (field : Fin 3) (v : Word) (s : State) : Out := .next (writePeerrx s entry field v)

end Sys2Proof.Machine
end

