-- ==== Sys2Proof/Machine/Branch.lean ====
section
/-!
DEFINITION. Machine/Branch.lean: the control transfers BR and JR (R114 to R116).
-/
namespace Sys2Proof.Machine

/-- The target of a B-format word (R83). -/
def WEnv.target (e : WEnv) (disp : BitVec 20) : Offset := e.pc + 4 * disp

/-- Every issuing lane takes a next PC; none stands for the fall-through header (R22). -/
def WEnv.go (e : WEnv) (s : State) (f : Nat → Option Offset) : WRes := (e.mapLanes s fun l x => { x with npc := f l }, [])

/-- A branch on one decision for every issuing lane (R114). -/
def voteBranch (p : Fin 8) (disp : BitVec 20) (f : List Bool → Bool) : State → Out :=
  runWord { ctl := true } fun e s =>
    let c := f (e.lanes.map fun l => predOf (e.lane s l) p)
    e.go s fun _ => if c then some (e.target disp) else none

/-- BR.DIV (R114): each lane by its own predicate. -/
def execBrDiv (p : Fin 8) (disp : BitVec 20) (s : State) : Out :=
  runWord { ctl := true } (fun e s => e.go s fun l => if predOf (e.lane s l) p then some (e.target disp) else none) s
/-- BR.ANY (R114). -/
def execBrAny (p : Fin 8) (disp : BitVec 20) (s : State) : Out := voteBranch p disp (fun l => l.any id) s
/-- BR.ALL (R114). -/
def execBrAll (p : Fin 8) (disp : BitVec 20) (s : State) : Out := voteBranch p disp (fun l => l.all id) s
/-- BR.NONE (R114). -/
def execBrNone (p : Fin 8) (disp : BitVec 20) (s : State) : Out := voteBranch p disp (fun l => !l.any id) s
/-- JMP (R114). -/
def execJmp (disp : BitVec 20) (s : State) : Out := runWord { ctl := true } (fun e s => e.go s fun _ => some (e.target disp)) s

/-- CALL (R114, R115): w39 receives the fall-through header. -/
def execCall (disp : BitVec 20) (s : State) : Out :=
  runWord { ctl := true, dst := [.w 39] } (fun e s =>
    (e.mapLanes s fun _ x => { writeReg x (.w 39) (wd e.cl.fall.toNat) with npc := some (e.target disp) }, [])) s

/-- A register jump (R116): a misaligned target, or one at or above 2^20, faults the lane at the word; `f` is what the others
do besides taking their next PC. -/
def jumpWord (a : Src) (dst : List Reg) (f : WEnv → Lane → Offset → Lane) : State → Out :=
  runWord { ops := [a], dst := dst, ctl := true } fun e s =>
    let cause := fun (l : Nat) =>
      let t := e.src s l a
      if fld t 1 0 ≠ 0 then some (0x04 : Byte) else if 2 ^ 20 ≤ t.toNat then some 0x03 else none
    (e.mapLanes s fun l x => if (cause l).isSome then x else f e x ((e.src s l a).setWidth 20),
     e.lanes.filterMap fun l => (cause l).map fun k => { lane := l, cause := k, access := 3, addr := e.src s l a })

/-- JR (R116): it also clears HFLT (R343). -/
def execJr (a : Src) (s : State) : Out := jumpWord a [] (fun _ x t => handlerReturn x t) s
/-- CALLR (R116): the target is read before the link is written. -/
def execCallr (d : Reg) (a : Src) (s : State) : Out :=
  jumpWord a [d] (fun e x t => { writeReg x d (wd e.cl.fall.toNat) with npc := some t }) s
/-- RET (R116): to w39. -/
def execRet (s : State) : Out := jumpWord (.reg (.w 39)) [] (fun _ x t => { x with npc := some t }) s

end Sys2Proof.Machine
end

