-- ==== Sys2Proof/Machine/Falu.lean ====
section
/-!
DEFINITION. Machine/Falu.lean: FALU, FFMA, FCMP, FCVT and SFU (R128 to R136).
-/
namespace Sys2Proof.Machine

/-- Sub-element `j` of a register as a float value (R122). -/
def subFlt (t : FltTy) (x : Word) (j : Nat) : FVal := fval t (subBits x t.width j)

/-- A rounding word of two operands (R128). -/
def fltBin (d : Reg) (a b : Src) (t : FltTy) (f : Round → FVal → FVal → Exact) : State → Out :=
  runWord { ops := [a, b], dst := [d], accMode := true, accPol := true } fun e s =>
    e.writeRounded s d t.width (64 / t.width) fun l j =>
      rndExact t (e.ctl s l j) (f (e.mode.getD .rne) (subFlt t (e.src s l a) j) (subFlt t (e.src s l b) j))

/-- FADD (R128). -/
def execFadd (d : Reg) (a b : Src) (t : FltTy) (s : State) : Out := fltBin d a b t addVal s
/-- FSUB (R128): x + (-y). -/
def execFsub (d : Reg) (a b : Src) (t : FltTy) (s : State) : Out := fltBin d a b t (fun m x y => addVal m x y.negate) s
/-- FMUL (R128). -/
def execFmul (d : Reg) (a b : Src) (t : FltTy) (s : State) : Out := fltBin d a b t (fun _ x y => mulVal x y) s

/-- An exact word on float patterns (R129). -/
def fltExact (d : Reg) (a b : Src) (t : FltTy) (f : Nat → Nat → Nat) : State → Out :=
  binWord d a b fun x y => packSubs t.width fun j => f (subBits x t.width j) (subBits y t.width j)

/-- FMIN (R129). -/
def execFmin (d : Reg) (a b : Src) (t : FltTy) (s : State) : Out := fltExact d a b t (fminBits t) s
/-- FMAX (R129). -/
def execFmax (d : Reg) (a b : Src) (t : FltTy) (s : State) : Out := fltExact d a b t (fmaxBits t) s
/-- FABS (R129): the sign bit cleared. -/
def execFabs (d : Reg) (a : Src) (t : FltTy) (s : State) : Out :=
  unWord d a (fun x => packSubs t.width fun j => subBits x t.width j % 2 ^ (t.width - 1)) s
/-- FNEG (R129): the sign bit inverted. -/
def execFneg (d : Reg) (a : Src) (t : FltTy) (s : State) : Out :=
  unWord d a (fun x => packSubs t.width fun j => subBits x t.width j + 2 ^ (t.width - 1)) s
/-- FCPYS (R129): the sign bit of b. -/
def execFcpys (d : Reg) (a b : Src) (t : FltTy) (s : State) : Out :=
  fltExact d a b t (fun x y => x % 2 ^ (t.width - 1) + y / 2 ^ (t.width - 1) * 2 ^ (t.width - 1)) s

/-- A fused word (R130): `np` negates the product, `nc` the addend. -/
def fusedWord (d : Reg) (a b : Src) (t : FltTy) (np nc : Bool) : State → Out :=
  runWord { ops := [.reg d, a, b], dst := [d], accMode := true, accPol := true } fun e s =>
    e.writeRounded s d t.width (64 / t.width) fun l j =>
      let x := subFlt t (e.src s l a) j
      let c := subFlt t (e.src s l (.reg d)) j
      rndExact t (e.ctl s l j) (fmaVal (e.mode.getD .rne) (if np then x.negate else x) (subFlt t (e.src s l b) j)
        (if nc then c.negate else c))

/-- FMA. -/
def execFma (d : Reg) (a b : Src) (t : FltTy) (s : State) : Out := fusedWord d a b t false false s
/-- FMS. -/
def execFms (d : Reg) (a b : Src) (t : FltTy) (s : State) : Out := fusedWord d a b t false true s
/-- FNMA. -/
def execFnma (d : Reg) (a b : Src) (t : FltTy) (s : State) : Out := fusedWord d a b t true false s
/-- FNMS. -/
def execFnms (d : Reg) (a b : Src) (t : FltTy) (s : State) : Out := fusedWord d a b t true true s

/-- FCMP (R131). -/
def execFcmp (p : Fin 8) (a b : Src) (t : FltTy) (c : Comb) (k : FCond) (s : State) : Out :=
  runWord { ops := [a, b] } (fun e s => e.setPreds s p fun l =>
    combine c (predOf (e.lane s l) p) ((List.range (64 / t.width)).all fun j =>
      fcond k (subFlt t (e.src s l a) j) (subFlt t (e.src s l b) j))) s

/-! ## FCVT (R132 to R135) -/

/-- Width of a conversion's type. -/
def numWidth : NumTy → Nat
  | .int t => t.width
  | .flt t => t.width

/-- A source sub-element as a value (R133). -/
def subNum (t : NumTy) (x : Word) (j : Nat) : FVal :=
  match t with
  | .int t => intVal (subVal x t j)
  | .flt t => subFlt t x j

/-- rnd() into a conversion's destination (R52, R53). -/
def rndNum (t : NumTy) (c : Ctl) (v : FVal) : FRes :=
  match t with
  | .int t => rndInt t.width t.signed c v
  | .flt t => rndFlt t c v

/-- The sub-elements that a conversion converts (R133). -/
def convCount (dst src : NumTy) : Nat := min (64 / numWidth src) (64 / numWidth dst)

/-- CVT (R134). -/
def execCvt (d : Reg) (a : Src) (dst src : NumTy) (s : State) : Out :=
  runWord { ops := [a], dst := [d], accMode := true, accPol := true } (fun e s =>
    e.writeRounded s d (numWidth dst) (convCount dst src) fun l j =>
      rndNum dst (e.ctl s l j) (subNum src (e.src s l a) j)) s

/-- CVS (R56, R134). -/
def execCvs (d : Reg) (a b : Src) (dst : NumTy) (src : FltTy) (s : State) : Out :=
  runWord { ops := [a, b], dst := [d], accMode := true, accPol := true } (fun e s =>
    e.writeRounded s d (numWidth dst) (convCount dst (.flt src)) fun l j =>
      let x := subFlt src (e.src s l a) j
      let y := subFlt src (e.src s l b) j
      match dst with
      | .int t => cvsInt t.width t.signed (e.ctl s l j) x y
      | .flt t => cvsFlt t (e.ctl s l j) x y) s

/-- SRQ (R134): always stochastic, its index base operand b. -/
def execSrq (d : Reg) (a b : Src) (dst : NumTy) (src : FltTy) (s : State) : Out :=
  runWord { ops := [a, b], dst := [d], accPol := true } (fun e s =>
    e.writeRounded s d (numWidth dst) (convCount dst (.flt src)) fun l j =>
      rndNum dst { e.ctlAt s (e.src s l b + wd j) with mode := .rs } (subFlt src (e.src s l a) j)) s

/-! ## SFU (R136) -/

/-- A unary special function, delivered at completion. -/
def sfuWord (op : SfuOp) (d : Reg) (a : Src) (t : FltTy) (f : FlagSel) : State → Out :=
  runWord { ops := [a], dst := [d], flag := some f, accMode := true, accPol := true } fun e s =>
    e.issueRounded s d f t.width (64 / t.width) fun l j => sfuOne op t (e.ctl s l j) (subFlt t (e.src s l a) j)

/-- RCP. -/
def execRcp (d : Reg) (a : Src) (t : FltTy) (f : FlagSel) (s : State) : Out := sfuWord .rcp d a t f s
/-- RSQ. -/
def execRsq (d : Reg) (a : Src) (t : FltTy) (f : FlagSel) (s : State) : Out := sfuWord .rsq d a t f s
/-- SQRT. -/
def execSqrt (d : Reg) (a : Src) (t : FltTy) (f : FlagSel) (s : State) : Out := sfuWord .sqrt d a t f s
/-- FDIV. -/
def execFdiv (d : Reg) (a b : Src) (t : FltTy) (f : FlagSel) (s : State) : Out :=
  runWord { ops := [a, b], dst := [d], flag := some f, accMode := true, accPol := true } (fun e s =>
    e.issueRounded s d f t.width (64 / t.width) fun l j =>
      divFlt t (e.ctl s l j) (subFlt t (e.src s l a) j) (subFlt t (e.src s l b) j)) s
/-- EXP2. -/
def execExp2 (d : Reg) (a : Src) (t : FltTy) (f : FlagSel) (s : State) : Out := sfuWord .exp2 d a t f s
/-- LOG2. -/
def execLog2 (d : Reg) (a : Src) (t : FltTy) (f : FlagSel) (s : State) : Out := sfuWord .log2 d a t f s
/-- SINPI. -/
def execSinpi (d : Reg) (a : Src) (t : FltTy) (f : FlagSel) (s : State) : Out := sfuWord .sinpi d a t f s
/-- COSPI. -/
def execCospi (d : Reg) (a : Src) (t : FltTy) (f : FlagSel) (s : State) : Out := sfuWord .cospi d a t f s

end Sys2Proof.Machine
end

