-- ==== Sys2Proof/Machine/Cross.lean ====
section
/-!
DEFINITION. Machine/Cross.lean: the LANE family (R155 to R162) and the CONV family (R169 to R173).
-/
namespace Sys2Proof.Machine

/-! ## Shuffles (R159) -/

/-- Sub-element `j` of lane `l`'s operand, zero for a lane that takes no part (R155). -/
def laneSub (e : WEnv) (s : State) (a : Src) (w l j : Nat) : Nat := if bit e.act l then subBits (e.src s l a) w j else 0

/-- A LANE word that writes each lane a register of sub-elements. -/
def laneWord (d : Reg) (ops : List Src) (w : Nat) (f : WEnv → State → Nat → Nat → Nat) : State → Out :=
  runWord { ops := ops, dst := [d] } fun e s => e.writeAll s d fun l => packSubs w (f e s l)

/-- LSHF (R159). -/
def execLshf (d : Reg) (a b : Src) (t : IntTy) (s : State) : Out :=
  laneWord d [a, b] t.width (fun e s i j =>
    let sel := subBits (e.src s i b) t.width j
    laneSub e s a t.width (sel % 32) (sel / 32 % (64 / t.width))) s

/-- LROT (R159). -/
def execLrot (d : Reg) (a b : Src) (t : IntTy) (s : State) : Out :=
  laneWord d [a, b] t.width (fun e s i j =>
    let m := 64 / t.width
    let p := (i * m + j + (e.src s i b).toNat % (32 * m)) % (32 * m)
    laneSub e s a t.width (p / m) (p % m)) s

/-- LBCST (R159). -/
def execLbcst (d : Reg) (a b : Src) (t : IntTy) (s : State) : Out :=
  laneWord d [a, b] t.width (fun e s _ _ =>
    let q := (e.src s e.low b).toNat
    laneSub e s a t.width (q % 32) (q / 32 % (64 / t.width))) s

/-! ## Scans and reductions (R62, R160, R161) -/

/-- One element of a scan in progress, with what its steps have raised. -/
structure Step1 where
  v : Nat
  fst : Nat
  causes : List Byte
  deriving DecidableEq, Repr

/-- The steps of an inclusive scan (R160). `op` combines, given the lane that is written. -/
def scanFrom (op : Nat → Step1 → Step1 → Step1) : List Nat → List Step1 → List Step1
  | [], v => v
  | d :: r, v =>
    scanFrom op r ((List.range 32).map fun i =>
      let x := (v[i]?).getD ⟨0, 0, []⟩
      if d ≤ i then op i ((v[i - d]?).getD ⟨0, 0, []⟩) x else x)

/-- The steps of a reduction (R62). -/
def reduceFrom (op : Nat → Step1 → Step1 → Step1) : List Nat → List Step1 → List Step1
  | [], v => v
  | d :: r, v =>
    reduceFrom op r ((List.range d).map fun i => op i ((v[i]?).getD ⟨0, 0, []⟩) ((v[i + d]?).getD ⟨0, 0, []⟩))

/-- The 32 results of one sub-element: a prefix for each lane, or one value for all. -/
def fold32 (scan : Bool) (op : Nat → Step1 → Step1 → Step1) (v : List Step1) : List Step1 :=
  if scan then scanFrom op [1, 2, 4, 8, 16] v
  else List.replicate 32 ((reduceFrom op [16, 8, 4, 2, 1] v).headD ⟨0, 0, []⟩)

/-- The lanes' values of one sub-element, the identity for a lane that takes no part. -/
def lanes32 (e : WEnv) (s : State) (a : Src) (w j ident : Nat) : List Step1 :=
  (List.range 32).map fun i => ⟨if bit e.act i then subBits (e.src s i a) w j else ident, 0, []⟩

/-- An integer scan or reduction. -/
def intFold (scan : Bool) (d : Reg) (a : Src) (t : IntTy) (ident : Nat) (op : Nat → Nat → Nat) : State → Out :=
  runWord { ops := [a], dst := [d] } fun e s =>
    let rows := (List.range (64 / t.width)).map fun j =>
      fold32 scan (fun _ x y => ⟨op x.v y.v, 0, []⟩) (lanes32 e s a t.width j ident)
    e.writeAll s d fun l => packSubs t.width fun j => ((((rows[j]?).getD [])[l]?).getD ⟨0, 0, []⟩).v

/-- A pattern's value under a type. -/
def patVal (t : IntTy) (v : Nat) : Int := if t.signed then sgn t.width v else v

/-- The operations ADD, MIN, MAX, AND, OR, XOR on patterns, with their identities (R62, R160). -/
def addPat (t : IntTy) (x y : Nat) : Nat := (x + y) % 2 ^ t.width
def minPat (t : IntTy) (x y : Nat) : Nat := if patVal t x ≤ patVal t y then x else y
def maxPat (t : IntTy) (x y : Nat) : Nat := if patVal t x ≤ patVal t y then y else x
def minIdent (t : IntTy) : Nat := wrapNat t.width (intMax t.width t.signed)
def maxIdent (t : IntTy) : Nat := wrapNat t.width (intMin t.width t.signed)
def onesIdent (t : IntTy) : Nat := 2 ^ t.width - 1

/-- LSCAN.ADD. -/
def execLscanAdd (d : Reg) (a : Src) (t : IntTy) (s : State) : Out := intFold true d a t 0 (addPat t) s
/-- LSCAN.MIN. -/
def execLscanMin (d : Reg) (a : Src) (t : IntTy) (s : State) : Out := intFold true d a t (minIdent t) (minPat t) s
/-- LSCAN.MAX. -/
def execLscanMax (d : Reg) (a : Src) (t : IntTy) (s : State) : Out := intFold true d a t (maxIdent t) (maxPat t) s
/-- LSCAN.AND. -/
def execLscanAnd (d : Reg) (a : Src) (t : IntTy) (s : State) : Out := intFold true d a t (onesIdent t) (fun x y => x &&& y) s
/-- LSCAN.OR. -/
def execLscanOr (d : Reg) (a : Src) (t : IntTy) (s : State) : Out := intFold true d a t 0 (fun x y => x ||| y) s
/-- LSCAN.XOR. -/
def execLscanXor (d : Reg) (a : Src) (t : IntTy) (s : State) : Out := intFold true d a t 0 (fun x y => x ^^^ y) s
/-- LRED.ADD. -/
def execLredAdd (d : Reg) (a : Src) (t : IntTy) (s : State) : Out := intFold false d a t 0 (addPat t) s
/-- LRED.MIN. -/
def execLredMin (d : Reg) (a : Src) (t : IntTy) (s : State) : Out := intFold false d a t (minIdent t) (minPat t) s
/-- LRED.MAX. -/
def execLredMax (d : Reg) (a : Src) (t : IntTy) (s : State) : Out := intFold false d a t (maxIdent t) (maxPat t) s
/-- LRED.AND. -/
def execLredAnd (d : Reg) (a : Src) (t : IntTy) (s : State) : Out := intFold false d a t (onesIdent t) (fun x y => x &&& y) s
/-- LRED.OR. -/
def execLredOr (d : Reg) (a : Src) (t : IntTy) (s : State) : Out := intFold false d a t 0 (fun x y => x ||| y) s
/-- LRED.XOR. -/
def execLredXor (d : Reg) (a : Src) (t : IntTy) (s : State) : Out := intFold false d a t 0 (fun x y => x ^^^ y) s

/-- A float pattern as an instruction delivers it: a NaN is the canonical one (R43, R122), also in a lane that no step
writes. -/
def FltTy.deliver (t : FltTy) (v : Nat) : Nat := if (fval t v).isNan then t.nan else v

/-- One rounded step of FADD that writes lane `i`, sub-element `j` (R160): the base of a lane that takes no part is 8 x i. -/
def faddStep (e : WEnv) (s : State) (t : FltTy) (j i : Nat) (x y : Step1) : Step1 :=
  let base := if bit e.act i then e.ebase s i else wd (8 * i)
  let r := rndExact t (e.ctlAt s (base + wd j)) (addVal (e.mode.getD .rne) (fval t x.v) (fval t y.v))
  ⟨r.bits, x.fst ||| y.fst ||| r.fstat, x.causes ++ y.causes ++ r.causes⟩

/-- What every step of a scan or reduction raises, its results apart: the steps are run once more, each keeping what it
raised, and the union is taken over all of them (R161). -/
def raisedScan (op : Nat → Step1 → Step1 → Step1) : List Nat → List Step1 → Nat × List Byte → Nat × List Byte
  | [], _, acc => acc
  | d :: r, v, acc =>
    let w := (List.range 32).map fun i =>
      let x := (v[i]?).getD ⟨0, 0, []⟩
      if d ≤ i then op i ((v[i - d]?).getD ⟨0, 0, []⟩) x else x
    raisedScan op r w (w.foldl (fun a x => (a.1 ||| x.fst, a.2 ++ x.causes)) acc)

/-- The same over a reduction. -/
def raisedRed (op : Nat → Step1 → Step1 → Step1) : List Nat → List Step1 → Nat × List Byte → Nat × List Byte
  | [], _, acc => acc
  | d :: r, v, acc =>
    let w := (List.range d).map fun i => op i ((v[i]?).getD ⟨0, 0, []⟩) ((v[i + d]?).getD ⟨0, 0, []⟩)
    raisedRed op r w (w.foldl (fun a x => (a.1 ||| x.fst, a.2 ++ x.causes)) acc)

/-- FADD with the step's own raised bits only. -/
def faddOnly (e : WEnv) (s : State) (t : FltTy) (j i : Nat) (x y : Step1) : Step1 :=
  faddStep e s t j i ⟨x.v, 0, []⟩ ⟨y.v, 0, []⟩

/-- A float sum over the lanes (R160, R161): the union of the bits of every step in every participating lane, and the records
of R126 once, each naming every participating lane. -/
def faddFold (scan : Bool) (d : Reg) (a : Src) (t : FltTy) : State → Out :=
  runWord { ops := [a], dst := [d], accMode := true, accPol := true } fun e s =>
    let js := List.range (64 / t.width)
    let ident := 2 ^ (t.width - 1)
    let rows := js.map fun j => fold32 scan (faddOnly e s t j) (lanes32 e s a t.width j ident)
    let raised := js.foldl (fun acc j =>
      let v := lanes32 e s a t.width j ident
      if scan then raisedScan (faddOnly e s t j) [1, 2, 4, 8, 16] v acc
      else raisedRed (faddOnly e s t j) [16, 8, 4, 2, 1] v acc) (0, ([] : List Byte))
    let s1 := e.writeWith s d
      (fun l => packSubs t.width fun j => FltTy.deliver t ((((rows[j]?).getD [])[l]?).getD ⟨0, 0, []⟩).v) fun _ => raised.1
    let recs := if e.pol = some .trap then
      (([0x21, 0x22, 0x23] : List Byte).filter fun k => raised.2.contains k).map fun k => e.logRec s k e.act else []
    (recs.foldl e.post s1, [])

/-- A float minimum or maximum over the lanes (R160): exact. -/
def fmmFold (scan : Bool) (d : Reg) (a : Src) (t : FltTy) (ident : Nat) (op : Nat → Nat → Nat) : State → Out :=
  runWord { ops := [a], dst := [d] } fun e s =>
    let rows := (List.range (64 / t.width)).map fun j =>
      fold32 scan (fun _ x y => ⟨op x.v y.v, 0, []⟩) (lanes32 e s a t.width j ident)
    e.writeAll s d fun l => packSubs t.width fun j => FltTy.deliver t ((((rows[j]?).getD [])[l]?).getD ⟨0, 0, []⟩).v

/-- LSCAN.FADD. -/
def execLscanFadd (d : Reg) (a : Src) (t : FltTy) (s : State) : Out := faddFold true d a t s
/-- LSCAN.FMIN. -/
def execLscanFmin (d : Reg) (a : Src) (t : FltTy) (s : State) : Out := fmmFold true d a t t.inf (fminBits t) s
/-- LSCAN.FMAX. -/
def execLscanFmax (d : Reg) (a : Src) (t : FltTy) (s : State) : Out :=
  fmmFold true d a t (t.sign true + t.inf) (fmaxBits t) s
/-- LRED.FADD. -/
def execLredFadd (d : Reg) (a : Src) (t : FltTy) (s : State) : Out := faddFold false d a t s
/-- LRED.FMIN. -/
def execLredFmin (d : Reg) (a : Src) (t : FltTy) (s : State) : Out := fmmFold false d a t t.inf (fminBits t) s
/-- LRED.FMAX. -/
def execLredFmax (d : Reg) (a : Src) (t : FltTy) (s : State) : Out :=
  fmmFold false d a t (t.sign true + t.inf) (fmaxBits t) s

/-! ## Votes (R162) -/

/-- The lanes of the entry in which a predicate is 1. -/
def ballotMask (e : WEnv) (s : State) (p : Fin 8) : LaneMask := maskOf 32 (e.lanes.filter fun l => predOf (e.lane s l) p)

/-- VOTE.ANY. -/
def execVoteAny (d a : Fin 8) (s : State) : Out :=
  runWord {} (fun e s => e.setPreds s d fun _ => decide (ballotMask e s a ≠ 0)) s
/-- VOTE.ALL. -/
def execVoteAll (d a : Fin 8) (s : State) : Out :=
  runWord {} (fun e s => e.setPreds s d fun _ => decide (ballotMask e s a = e.act)) s
/-- BALLOT. -/
def execBallot (d : Reg) (a : Fin 8) (s : State) : Out :=
  runWord { dst := [d] } (fun e s => e.writeAll s d fun _ => (ballotMask e s a).setWidth 64) s
/-- LPOPC. -/
def execLpopc (d : Reg) (a : Fin 8) (s : State) : Out :=
  runWord { dst := [d] } (fun e s => e.writeAll s d fun _ => wd (bitList (ballotMask e s a)).length) s

/-! ## LJOIN (R170) -/

/-- Add a set of lanes to the held set at its LJOIN word; the clause that the last entry brought goes on at the release. -/
def joinAdd (n : Join) : List Join → List Join
  | [] => [n]
  | j :: r =>
    if j.pos = n.pos then { n with held := j.held ||| n.held, union := j.union ||| n.union } :: r else j :: joinAdd n r

/-- LJOIN (R170): the entry's lanes are held, the clause gives up its port, and the release test is made. The slot is given up
also where the mask is complete at once; a clause whose last word is the LJOIN has then ended (log entry 53). -/
def execLjoin (a : Src) (s : State) : Out :=
  runWord { ops := [a] } (fun e s =>
    let m := (e.src s e.low a).setWidth 32
    let stay := e.cl.stay
    let last := decide (e.cl.len ≤ e.idx)
    let s1 := modGroup s e.core e.grp fun g =>
      let g := g.modLanes e.act fun l => { l with cond := .held, pc := e.pc }
      { g.setPort e.second none with
          joins := joinAdd { pos := e.pc, held := e.act, union := m, hdr := e.cl.hdr, seg3 := e.cl.seg3, stay := stay } g.joins }
    let s2 := releaseJoins s1 e.core e.grp
    let s3 := if last ∨ (e.lane s2 e.low).cond = .held then enterHandlers (applyLaneCtl s2 e.core e.grp) e.core e.grp else s2
    (if last then afterClause s3 e.core e.grp e.cl.yld stay else s3, [])) s

/-! ## Named barriers (R171 to R173) -/

/-- What an arrival at a barrier comes to. -/
inductive Arrival where
  | misuse
  | wait (b : Barrier)
  | done
  deriving DecidableEq, Repr

/-- An arrival of group `g` with count `c` at a barrier, on a core of `n` groups (R171). -/
def arrive (b : Option Barrier) (g c n : Nat) : Arrival :=
  if c = 0 ∨ n < c then .misuse
  else
    match b with
    | none => if c = 1 then .done else .wait { count := c, arrived := BitVec.ofNat 8 (2 ^ g) }
    | some b =>
      if b.count ≠ c then .misuse
      else
        let arrived := b.arrived ||| BitVec.ofNat 8 (2 ^ g)
        if (bitList arrived).length = b.count then .done else .wait { b with arrived := arrived }

/-- Every entry of the core that waits at a barrier continues; a clause of another group than `g`, the last to arrive, whose last
word was the barrier's ends here. -/
def wakeBarrier (s : State) (c g : Nat) (n : Fin 16) : State :=
  let s := modCore s c fun x =>
    let wake := fun (k : Clause) => if k.wait = .bar n then { k with wait := .go } else k
    { x with groups := x.groups.map fun g => (g.1, { g.2 with c0 := g.2.c0.map wake, c1 := g.2.c1.map wake }) }
  endWoken s c (((getCore s c).groups.map (·.1)).filter fun x => decide (x ≠ g))

/-- A barrier word (R171): `block` says whether the entry waits for the round. -/
def barWord (block : Bool) (n : Fin 16) (a : Src) : State → Out :=
  runWord { ops := [a], phase := .restricted } fun e s =>
    let co := getCore s e.core
    match arrive (spFind co.bars n) e.grp (fld (e.src s e.low a) 3 0) co.ngroups with
    | .misuse => (s, e.trapAll 0x0A 0 0)
    | .done => (retest (wakeBarrier (modCore s e.core fun x => { x with bars := spErase x.bars n }) e.core e.grp n) e.core, [])
    | .wait b =>
      let s := modCore s e.core fun x => { x with bars := spSet x.bars n b }
      (if block then modGroup s e.core e.grp fun g =>
         g.setPort e.second ((g.port e.second).map fun k => { k with wait := .bar n })
       else s, [])

/-- BAR (R171). -/
def execBar (n : Fin 16) (a : Src) (s : State) : Out := barWord true n a s

/-- BARV (R171). -/
def execBarv (n : Fin 16) (a : Src) (s : State) : Out := barWord false n a s

end Sys2Proof.Machine
end

