-- ==== Sys2Proof/Machine/Dot.lean ====
section
/-!
DEFINITION. Machine/Dot.lean: the DOT family (R163 to R165).
-/
namespace Sys2Proof.Machine

/-- Element `j` of `w` bits as an integer. -/
def packedVal (w : Nat) (signed : Bool) (x : Word) (j : Nat) : Int :=
  if signed then sgn w (subBits x w j) else subBits x w j

/-- The exact sum of `n` products from element `lo` upwards. -/
def dotSum (w : Nat) (sa sb : Bool) (a b : Word) (lo n : Nat) : Int :=
  (List.range n).foldl (fun acc i => acc + packedVal w sa a (lo + i) * packedVal w sb b (lo + i)) 0

/-- An integer DOT member with two 32-bit halves (R164). -/
def dotHalves (w : Nat) (sa sb : Bool) (old a b : Word) : Word :=
  let n := 32 / w
  packSubs 32 fun k => wrapNat 32 (subBits old 32 k + dotSum w sa sb a b (k * n) n)

/-- DOT.I8. -/
def execDotI8 (d : Reg) (a b : Src) (s : State) : Out := accWord d a b (dotHalves 8 true true) s
/-- DOT.N8. -/
def execDotN8 (d : Reg) (a b : Src) (s : State) : Out := accWord d a b (dotHalves 8 false false) s
/-- DOT.IN8. -/
def execDotIn8 (d : Reg) (a b : Src) (s : State) : Out := accWord d a b (dotHalves 8 true false) s
/-- DOT.I4. -/
def execDotI4 (d : Reg) (a b : Src) (s : State) : Out := accWord d a b (dotHalves 4 true true) s
/-- DOT.N4. -/
def execDotN4 (d : Reg) (a b : Src) (s : State) : Out := accWord d a b (dotHalves 4 false false) s
/-- DOT.I16: one 64-bit sum. -/
def execDotI16 (d : Reg) (a b : Src) (s : State) : Out :=
  accWord d a b (fun old x y => BitVec.ofInt 64 ((old.toNat : Int) + dotSum 16 true true x y 0 4)) s

/-- The sum of three terms with the zero rule of R165: an exact zero sum of three zeros of one sign keeps it. -/
def sumThree (mode : Round) (p q c : FVal) : FVal :=
  if p.isZero && q.isZero && c.isZero && decide (p.neg = q.neg) && decide (q.neg = c.neg) then .num p.neg 0 0
  else
    match p, q, c with
    | .num np mp ep, .num nq mq eq, .num nc mc ec =>
      let z := min ep (min eq ec)
      let v := scaledInt np mp ep z + scaledInt nq mq eq z + scaledInt nc mc ec z
      if v = 0 then .num (decide (mode = .rd)) 0 z else .num (decide (v < 0)) v.natAbs z
    | _, _, _ => .nan

/-- The exact value of one half of FDOT.F16 (R165): none where it is invalid. -/
def fdotVal (mode : Round) (x0 y0 x1 y1 c : FVal) : Exact :=
  match mulVal x0 y0, mulVal x1 y1 with
  | none, _ => none
  | _, none => none
  | some p, some q =>
    if p.isNan || q.isNan || c.isNan then some .nan
    else
      let infs := [p, q, c].filter FVal.isInf
      match infs with
      | [] => some (sumThree mode p q c)
      | i :: r => if r.all fun x => decide (x.neg = i.neg) then some i else none

/-- FDOT.F16 (R165). -/
def execFdotF16 (d : Reg) (a b : Src) (s : State) : Out :=
  runWord { ops := [.reg d, a, b], dst := [d], accMode := true, accPol := true } (fun e s =>
    e.writeRounded s d 32 2 fun l k =>
      let x := e.src s l a
      let y := e.src s l b
      rndExact .f32 (e.ctl s l k)
        (fdotVal (e.mode.getD .rne) (subFlt .f16 x (2 * k)) (subFlt .f16 y (2 * k)) (subFlt .f16 x (2 * k + 1))
          (subFlt .f16 y (2 * k + 1)) (subFlt .f32 (e.src s l (.reg d)) k))) s

end Sys2Proof.Machine
end

