-- ==== Sys2Proof/Machine/Ialu.lean ====
section
/-!
DEFINITION. Machine/Ialu.lean: IALU, IALUI, ICMP and ICMPI (R103 to R106).
-/
namespace Sys2Proof.Machine

/-! ## Results of R103, by sub-element -/

/-- A result computed from the values of two sub-elements. -/
def onVals (t : IntTy) (f : Int → Int → Int) (a b : Word) : Word := packInts t fun j => f (subVal a t j) (subVal b t j)

/-- A result computed from the patterns of two sub-elements. -/
def onBits (t : IntTy) (f : Nat → Nat → Nat) (a b : Word) : Word :=
  packSubs t.width fun j => f (subBits a t.width j) (subBits b t.width j)

/-- SHL: 0 for a count of w or more (R103). -/
def shlBits (w ua c : Nat) : Nat := if w ≤ c then 0 else ua * 2 ^ c

/-- SHR: 0 for a count of w or more (R103). -/
def shrBits (w ua c : Nat) : Nat := if w ≤ c then 0 else ua / 2 ^ c

/-- SAR: fills with copies of the top bit, by min(c, w - 1) places (R103). -/
def sarBits (w ua c : Nat) : Nat := wrapNat w (sgn w ua / 2 ^ (min c (w - 1)))

/-- ROL: by c mod w places (R103). -/
def rolBits (w ua c : Nat) : Nat := ua * 2 ^ (c % w) % 2 ^ w + ua / 2 ^ (w - c % w)

/-- The number of one bits of a `w`-bit pattern. -/
def popBits (w ua : Nat) : Nat := ((List.range w).filter fun i => decide (ua / 2 ^ i % 2 = 1)).length

/-- The pattern whose bit `w - 1 - k` is bit k. -/
def revBits : Nat → Nat → Nat
  | 0, _ => 0
  | w + 1, ua => (ua % 2) * 2 ^ w + revBits w (ua / 2)

/-- The pattern of `n` bytes in the other order. -/
def swapBytes (n ua : Nat) : Nat := leNat (leBytes n ua).reverse

/-- imm8 in every sub-element (R85). -/
def immSigned (t : IntTy) (i : BitVec 8) : Word := packInts t fun _ => i.toInt
def immUnsigned (t : IntTy) (i : BitVec 8) : Word := packInts t fun _ => (i.toNat : Int)

/-! ## IALU (R103) -/

/-- ADD. -/
def execAdd (d : Reg) (a b : Src) (t : IntTy) (s : State) : Out := binWord d a b (onVals t fun x y => x + y) s
/-- SUB. -/
def execSub (d : Reg) (a b : Src) (t : IntTy) (s : State) : Out := binWord d a b (onVals t fun x y => x - y) s
/-- MUL. -/
def execMul (d : Reg) (a b : Src) (t : IntTy) (s : State) : Out := binWord d a b (onVals t fun x y => x * y) s
/-- MULH: the high half of the exact product. -/
def execMulh (d : Reg) (a b : Src) (t : IntTy) (s : State) : Out := binWord d a b (onVals t fun x y => x * y / 2 ^ t.width) s
/-- MIN. -/
def execMin (d : Reg) (a b : Src) (t : IntTy) (s : State) : Out := binWord d a b (onVals t fun x y => if x ≤ y then x else y) s
/-- MAX. -/
def execMax (d : Reg) (a b : Src) (t : IntTy) (s : State) : Out := binWord d a b (onVals t fun x y => if x ≤ y then y else x) s
/-- ABS. -/
def execAbs (d : Reg) (a : Src) (t : IntTy) (s : State) : Out := unWord d a (fun x => onVals t (fun v _ => v.natAbs) x 0) s
/-- NEG. -/
def execNeg (d : Reg) (a : Src) (t : IntTy) (s : State) : Out := unWord d a (fun x => onVals t (fun v _ => -v) x 0) s
/-- AND. -/
def execAnd (d : Reg) (a b : Src) (_t : IntTy) (s : State) : Out := binWord d a b (fun x y => x &&& y) s
/-- OR. -/
def execOr (d : Reg) (a b : Src) (_t : IntTy) (s : State) : Out := binWord d a b (fun x y => x ||| y) s
/-- XOR. -/
def execXor (d : Reg) (a b : Src) (_t : IntTy) (s : State) : Out := binWord d a b (fun x y => x ^^^ y) s
/-- ANDN. -/
def execAndn (d : Reg) (a b : Src) (_t : IntTy) (s : State) : Out := binWord d a b (fun x y => x &&& ~~~y) s
/-- SHL. -/
def execShl (d : Reg) (a b : Src) (t : IntTy) (s : State) : Out := binWord d a b (onBits t (shlBits t.width)) s
/-- SHR. -/
def execShr (d : Reg) (a b : Src) (t : IntTy) (s : State) : Out := binWord d a b (onBits t (shrBits t.width)) s
/-- SAR. -/
def execSar (d : Reg) (a b : Src) (t : IntTy) (s : State) : Out := binWord d a b (onBits t (sarBits t.width)) s
/-- ROL. -/
def execRol (d : Reg) (a b : Src) (t : IntTy) (s : State) : Out := binWord d a b (onBits t (rolBits t.width)) s
/-- CLZ. -/
def execClz (d : Reg) (a : Src) (t : IntTy) (s : State) : Out := unWord d a (fun x => onBits t (fun ua _ => t.width - bitLen ua) x 0) s
/-- POPC. -/
def execPopc (d : Reg) (a : Src) (t : IntTy) (s : State) : Out := unWord d a (fun x => onBits t (fun ua _ => popBits t.width ua) x 0) s
/-- ADDS: the sum clamped (R39). -/
def execAdds (d : Reg) (a b : Src) (t : IntTy) (s : State) : Out :=
  binWord d a b (onVals t fun x y => satInt t.width t.signed (x + y)) s
/-- SUBS: the difference clamped (R39). -/
def execSubs (d : Reg) (a b : Src) (t : IntTy) (s : State) : Out :=
  binWord d a b (onVals t fun x y => satInt t.width t.signed (x - y)) s
/-- AVG. -/
def execAvg (d : Reg) (a b : Src) (t : IntTy) (s : State) : Out := binWord d a b (onVals t fun x y => (x + y + 1) / 2) s
/-- BREV. -/
def execBrev (d : Reg) (a : Src) (t : IntTy) (s : State) : Out := unWord d a (fun x => onBits t (fun ua _ => revBits t.width ua) x 0) s
/-- BSWAP. -/
def execBswap (d : Reg) (a : Src) (t : IntTy) (s : State) : Out :=
  unWord d a (fun x => onBits t (fun ua _ => swapBytes (t.width / 8) ua) x 0) s

/-! ## IALUI (R104) -/

/-- ADDI. -/
def execAddi (d : Reg) (a : Src) (i : BitVec 8) (t : IntTy) (s : State) : Out :=
  unWord d a (fun x => onVals t (fun u v => u + v) x (immSigned t i)) s
/-- ANDI. -/
def execAndi (d : Reg) (a : Src) (i : BitVec 8) (t : IntTy) (s : State) : Out := unWord d a (fun x => x &&& immUnsigned t i) s
/-- ORI. -/
def execOri (d : Reg) (a : Src) (i : BitVec 8) (t : IntTy) (s : State) : Out := unWord d a (fun x => x ||| immUnsigned t i) s
/-- XORI. -/
def execXori (d : Reg) (a : Src) (i : BitVec 8) (t : IntTy) (s : State) : Out := unWord d a (fun x => x ^^^ immUnsigned t i) s
/-- SHLI. -/
def execShli (d : Reg) (a : Src) (i : BitVec 8) (t : IntTy) (s : State) : Out :=
  unWord d a (fun x => onBits t (shlBits t.width) x (immUnsigned t i)) s
/-- SHRI. -/
def execShri (d : Reg) (a : Src) (i : BitVec 8) (t : IntTy) (s : State) : Out :=
  unWord d a (fun x => onBits t (shrBits t.width) x (immUnsigned t i)) s
/-- SARI. -/
def execSari (d : Reg) (a : Src) (i : BitVec 8) (t : IntTy) (s : State) : Out :=
  unWord d a (fun x => onBits t (sarBits t.width) x (immUnsigned t i)) s
/-- MOVI. -/
def execMovi (d : Reg) (i : BitVec 8) (t : IntTy) (s : State) : Out :=
  runWord { dst := [d] } (fun e s => e.writeAll s d fun _ => immSigned t i) s

/-! ## Compares (R105, R106) -/

/-- The condition holds in every sub-element (R105). -/
def allCond (t : IntTy) (k : ICond) (a b : Word) : Bool :=
  (List.range (64 / t.width)).all fun j => icond k (subVal a t j) (subVal b t j)

/-- ICMP. -/
def execIcmp (p : Fin 8) (a b : Src) (t : IntTy) (c : Comb) (k : ICond) (s : State) : Out :=
  runWord { ops := [a, b] } (fun e s => e.setPreds s p fun l =>
    combine c (predOf (e.lane s l) p) (allCond t k (e.src s l a) (e.src s l b))) s

/-- ICMPI. -/
def execIcmpi (p : Fin 8) (a : Src) (i : BitVec 8) (t : IntTy) (k : ICond) (s : State) : Out :=
  runWord { ops := [a] } (fun e s => e.setPreds s p fun l => allCond t k (e.src s l a) (immSigned t i)) s

end Sys2Proof.Machine
end

