-- ==== Sys2Proof/Machine/LdSt.lean ====
section
/-!
DEFINITION. Machine/LdSt.lean: LD, ST, LDX, STX (R111 to R113) and the scratchpad atomics (R166 to R168).
-/
namespace Sys2Proof.Machine

/-- Bytes of a load size (R82). -/
def LdSize.bytes : LdSize → Nat
  | .n8 | .i8 => 1
  | .n16 | .i16 => 2
  | .n32 | .i32 => 4
  | .b64 => 8

/-- The loaded value, zero- or sign-extended (R112). -/
def LdSize.extend (z : LdSize) (v : Nat) : Word :=
  match z with
  | .i8 => BitVec.ofInt 64 (sgn 8 v)
  | .i16 => BitVec.ofInt 64 (sgn 16 v)
  | .i32 => BitVec.ofInt 64 (sgn 32 v)
  | .n8 | .n16 | .n32 | .b64 => wd v

/-- Bytes of a store size (R82). -/
def StSize.bytes : StSize → Nat
  | .b8 => 1 | .b16 => 2 | .b32 => 4 | .b64 => 8

/-- The fault of a lane whose access fails (R339). -/
def accessTrap (l : Nat) (cause : Byte) (write : Bool) (off : Word) : Trap :=
  { lane := l, cause := cause, access := if write then 2 else 1, addr := off }

/-- A load (R112): every lane's access is checked and read at issue; the values are delivered at completion. Stores and loads of
lanes take effect in the order of their issue, so that case 1 of R250, which the spec allows, does not occur (log entry 65). -/
def loadBody (d : Reg) (seg : Fin 4) (f : FlagSel) (z : LdSize) (off : WEnv → State → Nat → Word) (e : WEnv) (s : State) :
    WRes :=
  let chk := e.lanes.map fun l => (l, segCheck (e.segVal s seg) (off e s l) (LdSize.bytes z) false)
  let good := chk.filterMap fun x => match x.2 with
    | .ok a => some (x.1, LdSize.extend z (laneRead s e.core a (LdSize.bytes z)))
    | .error _ => none
  let bad := chk.filterMap fun x => match x.2 with
    | .ok _ => none
    | .error k => some (accessTrap x.1 k false (off e s x.1))
  let at_ := chk.filterMap fun x => x.2.toOption.map fun a => (a, LdSize.bytes z)
  let m := maskOf 32 (good.map (·.1))
  (if m = 0 then s
   else issueLong (modEng s e.core (Engine.seen s.ticks at_)) e.core e.grp
     { kind := .load, flag := (e.flag f).getD 0, dst := d, mask := m, drop := 0, vals := good, fst := [], recs := [] }, bad)

/-- A store (R112, R245): lanes act in ascending number; a lane that fails stores nothing. -/
def storeBody (v : Src) (seg : Fin 4) (z : StSize) (off : WEnv → State → Nat → Word) (e : WEnv) (s : State) : WRes :=
  e.lanes.foldl (fun (acc : WRes) l =>
    match segCheck (e.segVal s seg) (off e s l) (StSize.bytes z) true with
    | .ok a => (laneWrite acc.1 e.core a (leBytes (StSize.bytes z) (e.src s l v).toNat), acc.2)
    | .error k => (acc.1, acc.2 ++ [accessTrap l k true (off e s l)])) (s, [])

/-- The offset of the immediate form: imm8 times the access size (R82, R112). -/
def immOff (base : Src) (i : BitVec 8) (n : Nat) (e : WEnv) (s : State) (l : Nat) : Word := e.src s l base + wd (i.toNat * n)

/-- The offset of the indexed form: the index unscaled (R82, R112). -/
def idxOff (base x : Src) (e : WEnv) (s : State) (l : Nat) : Word := e.src s l base + e.src s l x

/-- LD (R111). -/
def execLd (d : Reg) (base : Src) (i : BitVec 8) (seg : Fin 4) (f : FlagSel) (z : LdSize) (s : State) : Out :=
  runWord { ops := [base], dst := [d], flag := some f, phase := .restricted }
    (loadBody d seg f z (immOff base i (LdSize.bytes z))) s

/-- LDX (R111). -/
def execLdx (d : Reg) (base x : Src) (seg : Fin 4) (f : FlagSel) (z : LdSize) (s : State) : Out :=
  runWord { ops := [base, x], dst := [d], flag := some f, phase := .restricted } (loadBody d seg f z (idxOff base x)) s

/-- ST (R111). -/
def execSt (v base : Src) (i : BitVec 8) (seg : Fin 4) (z : StSize) (s : State) : Out :=
  runWord { ops := [v, base], phase := .restricted } (storeBody v seg z (immOff base i (StSize.bytes z))) s

/-- STX (R111). -/
def execStx (v base x : Src) (seg : Fin 4) (z : StSize) (s : State) : Out :=
  runWord { ops := [v, base, x], phase := .restricted } (storeBody v seg z (idxOff base x)) s

/-! ## Atomics (R166, R167) -/

/-- The aligned word of an atomic: read, replaced, its old value returned, lane by lane in ascending number (R167). `f` gives
the new value from the old word, operand b and the prior d. -/
def atomBody (d : Reg) (a b : Src) (seg : Fin 3) (f : Word → Word → Word → Word) (e : WEnv) (s : State) : WRes :=
  e.lanes.foldl (fun (acc : WRes) l =>
    let off := e.src s l a
    match segCheck (e.segVal s seg) off 8 true with
    | .ok p =>
      let old := wd (spadRead acc.1 e.core p 8)
      let s1 := laneWrite acc.1 e.core p (leBytes 8 (f old (e.src s l b) (e.src s l (.reg d))).toNat)
      (modGroup s1 e.core e.grp fun g => g.modLane l fun x => writeReg x d old, acc.2)
    | .error k => (acc.1, acc.2 ++ [accessTrap l k true off])) (s, [])

/-- An ATOM word. -/
def atomWord (d : Reg) (a b : Src) (seg : Fin 3) (reads : List Src) (f : Word → Word → Word → Word) : State → Out :=
  runWord { ops := [a, b] ++ reads, dst := [d], phase := .restricted } (atomBody d a b seg f)

/-- A new value by the values of sub-elements. -/
def atomVals (t : IntTy) (f : Int → Int → Int) (x y _d : Word) : Word := packInts t fun j => f (subVal x t j) (subVal y t j)

/-- AADD. -/
def execAadd (d : Reg) (a b : Src) (t : IntTy) (seg : Fin 3) (s : State) : Out :=
  atomWord d a b seg [] (atomVals t fun x y => x + y) s
/-- AMIN. -/
def execAmin (d : Reg) (a b : Src) (t : IntTy) (seg : Fin 3) (s : State) : Out :=
  atomWord d a b seg [] (atomVals t fun x y => if x ≤ y then x else y) s
/-- AMAX. -/
def execAmax (d : Reg) (a b : Src) (t : IntTy) (seg : Fin 3) (s : State) : Out :=
  atomWord d a b seg [] (atomVals t fun x y => if x ≤ y then y else x) s
/-- AAND. -/
def execAand (d : Reg) (a b : Src) (_t : IntTy) (seg : Fin 3) (s : State) : Out := atomWord d a b seg [] (fun x y _ => x &&& y) s
/-- AOR. -/
def execAor (d : Reg) (a b : Src) (_t : IntTy) (seg : Fin 3) (s : State) : Out := atomWord d a b seg [] (fun x y _ => x ||| y) s
/-- AXOR. -/
def execAxor (d : Reg) (a b : Src) (_t : IntTy) (seg : Fin 3) (s : State) : Out := atomWord d a b seg [] (fun x y _ => x ^^^ y) s
/-- AXCHG. -/
def execAxchg (d : Reg) (a b : Src) (_t : IntTy) (seg : Fin 3) (s : State) : Out := atomWord d a b seg [] (fun _ y _ => y) s
/-- ACAS: each sub-element compared and replaced on its own. -/
def execAcas (d : Reg) (a b : Src) (t : IntTy) (seg : Fin 3) (s : State) : Out :=
  atomWord d a b seg [.reg d] (fun x y p => packSubs t.width fun j =>
    if subBits x t.width j = subBits p t.width j then subBits y t.width j else subBits x t.width j) s

end Sys2Proof.Machine
end

