-- ==== Sys2Proof/Machine/Move.lean ====
section
/-!
DEFINITION. Machine/Move.lean: MOVE, IDIV and PRED (R107 to R110).
-/
namespace Sys2Proof.Machine

/-- MOV (R107). -/
def execMov (d : Reg) (a : Src) (s : State) : Out := unWord d a (fun x => x) s

/-- SEL (R107). -/
def execSel (d : Reg) (a b : Src) (p : Fin 8) (s : State) : Out :=
  runWord { ops := [a, b], dst := [d] }
    (fun e s => e.writeAll s d fun l => if predOf (e.lane s l) p then e.src s l a else e.src s l b) s

/-- Sub-elements `from` upwards, widened to twice their width (EXTW, UNPK). -/
def widen (t : IntTy) (start : Nat) (x : Word) : Word :=
  packSubs (2 * t.width) fun j => wrapNat (2 * t.width) (subVal x t (start + j))

/-- EXTW (R107). -/
def execExtw (d : Reg) (a : Src) (t : IntTy) (s : State) : Out := unWord d a (widen t 0) s

/-- UNPK (R107). -/
def execUnpk (d : Reg) (a : Src) (t : IntTy) (s : State) : Out := unWord d a (widen t (32 / t.width)) s

/-- Narrow the double-width sub-elements of two registers: those of `a` to the low half, those of `b` to the high half. -/
def narrow (t : IntTy) (f : Nat → Nat) (a b : Word) : Word :=
  let m := 32 / t.width
  packSubs t.width fun j => f (if j < m then subBits a (2 * t.width) j else subBits b (2 * t.width) (j - m))

/-- TRUNC (R107): the low half of each sub-element. -/
def execTrunc (d : Reg) (a b : Src) (t : IntTy) (s : State) : Out := binWord d a b (narrow t fun v => v) s

/-- A double-width source of PACK, with T's signedness. -/
def packVal (t : IntTy) (v : Nat) : Int := if t.signed then sgn (2 * t.width) v else v

/-- PACK clamps some sub-element. -/
def packClamps (t : IntTy) (a b : Word) : Bool :=
  (List.range (32 / t.width)).any fun j => [a, b].any fun x =>
    let v := packVal t (subBits x (2 * t.width) j)
    decide (satInt t.width t.signed v ≠ v)

/-- PACK (R107): each value clamped; a clamp sets FSTAT.NV. -/
def execPack (d : Reg) (a b : Src) (t : IntTy) (s : State) : Out :=
  runWord { ops := [a, b], dst := [d] }
    (fun e s => (e.writeWith s d
      (fun l => narrow t (fun v => wrapNat t.width (satInt t.width t.signed (packVal t v))) (e.src s l a) (e.src s l b))
      (fun l => 16 * b2n (packClamps t (e.src s l a) (e.src s l b))), [])) s

/-- The bit-field length of a control (R108). -/
def fieldLen (w : Nat) (b : Word) : Nat :=
  if w ≤ fld b 5 0 ∨ fld b 13 8 = 0 then 0 else min (fld b 13 8) (w - fld b 5 0)

/-- BFX of one sub-element (R108). -/
def bfxBits (t : IntTy) (b : Word) (ua : Nat) : Nat :=
  let n := fieldLen t.width b
  let f := ua / 2 ^ (fld b 5 0) % 2 ^ n
  if t.signed ∧ 0 < n then wrapNat t.width (sgn n f) else f

/-- BFX (R108). -/
def execBfx (d : Reg) (a b : Src) (t : IntTy) (s : State) : Out :=
  binWord d a b (fun x y => packSubs t.width fun j => bfxBits t y (subBits x t.width j)) s

/-- BFI of one sub-element (R108): bits pos + L - 1 to pos of the old value replaced. -/
def bfiBits (w : Nat) (b : Word) (old ua : Nat) : Nat :=
  let n := fieldLen w b
  let p := fld b 5 0
  old % 2 ^ p + ua % 2 ^ n * 2 ^ p + old / 2 ^ (p + n) * 2 ^ (p + n)

/-- BFI (R108): with an empty field d is unchanged. -/
def execBfi (d : Reg) (a b : Src) (t : IntTy) (s : State) : Out :=
  accWord d a b (fun old x y =>
    if fieldLen t.width y = 0 then old
    else packSubs t.width fun j => bfiBits t.width y (subBits old t.width j) (subBits x t.width j)) s

/-! ## IDIV (R109) -/

/-- A quotient, all ones for a zero divisor (R109). -/
def divVal (x y : Int) : Int := if y = 0 then -1 else Int.tdiv x y

/-- A remainder with the sign of the dividend, the dividend for a zero divisor (R109). -/
def remVal (x y : Int) : Int := if y = 0 then x else x - Int.tdiv x y * y

/-- Some divisor of a register is zero. -/
def zeroDivisor (t : IntTy) (y : Word) : Bool := (List.range (64 / t.width)).any fun j => decide (subBits y t.width j = 0)

/-- A division word (R109): lanes with a zero divisor fault under DZTRAP, else the word completes later, sets IDZ in those
lanes and appends one record that names them. -/
def divWord (d : Reg) (a b : Src) (t : IntTy) (f : FlagSel) (v : Int → Int → Int) : State → Out :=
  runWord { ops := [a, b], dst := [d], flag := some f } fun e s =>
    let zero := maskOf 32 (e.lanes.filter fun l => zeroDivisor t (e.src s l b))
    let bad := maskOf 32 (e.lanes.filter fun l => bit zero l && dzTrap (e.lane s l))
    let go := e.act &&& ~~~bad
    let logged := zero &&& go
    let op : LongOp :=
      { kind := .idiv, flag := (e.flag f).getD 0, dst := d, mask := go, drop := 0
        vals := (bitList go).map fun l =>
          (l, packInts t fun j => v (subVal (e.src s l a) t j) (subVal (e.src s l b) t j))
        fst := (bitList logged).map fun l => (l, 0x20)
        recs := if logged = 0 then [] else [e.logRec s 0x20 logged] }
    (if go = 0 then s else issueLong s e.core e.grp op,
     (bitList bad).map fun l => { lane := l, cause := 0x07, access := 0, addr := 0 })

/-- DIV (R109). -/
def execDiv (d : Reg) (a b : Src) (t : IntTy) (f : FlagSel) (s : State) : Out := divWord d a b t f divVal s

/-- REM (R109). -/
def execRem (d : Reg) (a b : Src) (t : IntTy) (f : FlagSel) (s : State) : Out := divWord d a b t f remVal s

/-! ## PRED (R110) -/

/-- A word that writes a predicate from two predicates of the lane. -/
def predWord (d a b : Fin 8) (v : Bool → Bool → Bool) : State → Out :=
  runWord {} fun e s => e.setPreds s d fun l => v (predOf (e.lane s l) a) (predOf (e.lane s l) b)

/-- PAND. -/
def execPand (d a b : Fin 8) (s : State) : Out := predWord d a b (fun x y => x && y) s
/-- POR. -/
def execPor (d a b : Fin 8) (s : State) : Out := predWord d a b (fun x y => x || y) s
/-- PXOR. -/
def execPxor (d a b : Fin 8) (s : State) : Out := predWord d a b (fun x y => x != y) s
/-- PNOT. -/
def execPnot (d a : Fin 8) (s : State) : Out := predWord d a a (fun x _ => !x) s
/-- PTOW. -/
def execPtow (d : Reg) (s : State) : Out :=
  runWord { dst := [d] } (fun e s => e.writeAll s d fun l => (e.lane s l).p.setWidth 64) s
/-- WTOP. -/
def execWtop (a : Src) (s : State) : Out :=
  runWord { ops := [a] } (fun e s => (e.mapLanes s fun l x => { x with p := (e.src s l a).setWidth 8 }, [])) s

end Sys2Proof.Machine
end

