-- ==== Sys2Proof/Machine/Dispatch.lean ====
section
/-!
DEFINITION. Machine/Dispatch.lean: one arm for each constructor of `Instr`, each one call of the instruction's meaning.
-/
namespace Sys2Proof.Machine

open Sys2Proof

/-- The meaning of every instruction and event. -/
def exec (i : Instr) (s : State) : Host.Outcome State Fault Refusal :=
  match i with
  | .clause len wait fla flb yld => Sys2Proof.Machine.execClause len wait fla flb yld s
  | .himm p => Sys2Proof.Machine.execHimm p s
  | .hsched stay solo => Sys2Proof.Machine.execHsched stay solo s
  | .harith mode pol ix => Sys2Proof.Machine.execHarith mode pol ix s
  | .add d a b t => Sys2Proof.Machine.execAdd d a b t s
  | .sub d a b t => Sys2Proof.Machine.execSub d a b t s
  | .mul d a b t => Sys2Proof.Machine.execMul d a b t s
  | .mulh d a b t => Sys2Proof.Machine.execMulh d a b t s
  | .min d a b t => Sys2Proof.Machine.execMin d a b t s
  | .max d a b t => Sys2Proof.Machine.execMax d a b t s
  | .abs d a t => Sys2Proof.Machine.execAbs d a t s
  | .neg d a t => Sys2Proof.Machine.execNeg d a t s
  | .and d a b t => Sys2Proof.Machine.execAnd d a b t s
  | .or d a b t => Sys2Proof.Machine.execOr d a b t s
  | .xor d a b t => Sys2Proof.Machine.execXor d a b t s
  | .andn d a b t => Sys2Proof.Machine.execAndn d a b t s
  | .shl d a b t => Sys2Proof.Machine.execShl d a b t s
  | .shr d a b t => Sys2Proof.Machine.execShr d a b t s
  | .sar d a b t => Sys2Proof.Machine.execSar d a b t s
  | .rol d a b t => Sys2Proof.Machine.execRol d a b t s
  | .clz d a t => Sys2Proof.Machine.execClz d a t s
  | .popc d a t => Sys2Proof.Machine.execPopc d a t s
  | .adds d a b t => Sys2Proof.Machine.execAdds d a b t s
  | .subs d a b t => Sys2Proof.Machine.execSubs d a b t s
  | .avg d a b t => Sys2Proof.Machine.execAvg d a b t s
  | .brev d a t => Sys2Proof.Machine.execBrev d a t s
  | .bswap d a t => Sys2Proof.Machine.execBswap d a t s
  | .addi d a im t => Sys2Proof.Machine.execAddi d a im t s
  | .andi d a im t => Sys2Proof.Machine.execAndi d a im t s
  | .ori d a im t => Sys2Proof.Machine.execOri d a im t s
  | .xori d a im t => Sys2Proof.Machine.execXori d a im t s
  | .shli d a im t => Sys2Proof.Machine.execShli d a im t s
  | .shri d a im t => Sys2Proof.Machine.execShri d a im t s
  | .sari d a im t => Sys2Proof.Machine.execSari d a im t s
  | .movi d im t => Sys2Proof.Machine.execMovi d im t s
  | .icmp p a b t c k => Sys2Proof.Machine.execIcmp p a b t c k s
  | .icmpi p a im t k => Sys2Proof.Machine.execIcmpi p a im t k s
  | .mov d a => Sys2Proof.Machine.execMov d a s
  | .sel d a b p => Sys2Proof.Machine.execSel d a b p s
  | .extw d a t => Sys2Proof.Machine.execExtw d a t s
  | .trunc d a b t => Sys2Proof.Machine.execTrunc d a b t s
  | .pack d a b t => Sys2Proof.Machine.execPack d a b t s
  | .unpk d a t => Sys2Proof.Machine.execUnpk d a t s
  | .bfx d a b t => Sys2Proof.Machine.execBfx d a b t s
  | .bfi d a b t => Sys2Proof.Machine.execBfi d a b t s
  | .div d a b t f => Sys2Proof.Machine.execDiv d a b t f s
  | .rem d a b t f => Sys2Proof.Machine.execRem d a b t f s
  | .pand d a b => Sys2Proof.Machine.execPand d a b s
  | .por d a b => Sys2Proof.Machine.execPor d a b s
  | .pxor d a b => Sys2Proof.Machine.execPxor d a b s
  | .pnot d a => Sys2Proof.Machine.execPnot d a s
  | .ptow d => Sys2Proof.Machine.execPtow d s
  | .wtop a => Sys2Proof.Machine.execWtop a s
  | .fadd d a b t => Sys2Proof.Machine.execFadd d a b t s
  | .fsub d a b t => Sys2Proof.Machine.execFsub d a b t s
  | .fmul d a b t => Sys2Proof.Machine.execFmul d a b t s
  | .fmin d a b t => Sys2Proof.Machine.execFmin d a b t s
  | .fmax d a b t => Sys2Proof.Machine.execFmax d a b t s
  | .fabs d a t => Sys2Proof.Machine.execFabs d a t s
  | .fneg d a t => Sys2Proof.Machine.execFneg d a t s
  | .fcpys d a b t => Sys2Proof.Machine.execFcpys d a b t s
  | .fma d a b t => Sys2Proof.Machine.execFma d a b t s
  | .fms d a b t => Sys2Proof.Machine.execFms d a b t s
  | .fnma d a b t => Sys2Proof.Machine.execFnma d a b t s
  | .fnms d a b t => Sys2Proof.Machine.execFnms d a b t s
  | .fcmp p a b t c k => Sys2Proof.Machine.execFcmp p a b t c k s
  | .cvt d a dst src => Sys2Proof.Machine.execCvt d a dst src s
  | .cvs d a b dst src => Sys2Proof.Machine.execCvs d a b dst src s
  | .srq d a b dst src => Sys2Proof.Machine.execSrq d a b dst src s
  | .rcp d a t f => Sys2Proof.Machine.execRcp d a t f s
  | .rsq d a t f => Sys2Proof.Machine.execRsq d a t f s
  | .sqrt d a t f => Sys2Proof.Machine.execSqrt d a t f s
  | .fdiv d a b t f => Sys2Proof.Machine.execFdiv d a b t f s
  | .exp2 d a t f => Sys2Proof.Machine.execExp2 d a t f s
  | .log2 d a t f => Sys2Proof.Machine.execLog2 d a t f s
  | .sinpi d a t f => Sys2Proof.Machine.execSinpi d a t f s
  | .cospi d a t f => Sys2Proof.Machine.execCospi d a t f s
  | .dotI8 d a b => Sys2Proof.Machine.execDotI8 d a b s
  | .dotN8 d a b => Sys2Proof.Machine.execDotN8 d a b s
  | .dotIn8 d a b => Sys2Proof.Machine.execDotIn8 d a b s
  | .dotI4 d a b => Sys2Proof.Machine.execDotI4 d a b s
  | .dotN4 d a b => Sys2Proof.Machine.execDotN4 d a b s
  | .dotI16 d a b => Sys2Proof.Machine.execDotI16 d a b s
  | .fdotF16 d a b => Sys2Proof.Machine.execFdotF16 d a b s
  | .ld d base im seg f z => Sys2Proof.Machine.execLd d base im seg f z s
  | .st v base im seg z => Sys2Proof.Machine.execSt v base im seg z s
  | .ldx d base x seg f z => Sys2Proof.Machine.execLdx d base x seg f z s
  | .stx v base x seg z => Sys2Proof.Machine.execStx v base x seg z s
  | .aadd d a b t seg => Sys2Proof.Machine.execAadd d a b t seg s
  | .amin d a b t seg => Sys2Proof.Machine.execAmin d a b t seg s
  | .amax d a b t seg => Sys2Proof.Machine.execAmax d a b t seg s
  | .aand d a b t seg => Sys2Proof.Machine.execAand d a b t seg s
  | .aor d a b t seg => Sys2Proof.Machine.execAor d a b t seg s
  | .axor d a b t seg => Sys2Proof.Machine.execAxor d a b t seg s
  | .axchg d a b t seg => Sys2Proof.Machine.execAxchg d a b t seg s
  | .acas d a b t seg => Sys2Proof.Machine.execAcas d a b t seg s
  | .lshf d a b t => Sys2Proof.Machine.execLshf d a b t s
  | .lrot d a b t => Sys2Proof.Machine.execLrot d a b t s
  | .lbcst d a b t => Sys2Proof.Machine.execLbcst d a b t s
  | .lscanAdd d a t => Sys2Proof.Machine.execLscanAdd d a t s
  | .lscanMin d a t => Sys2Proof.Machine.execLscanMin d a t s
  | .lscanMax d a t => Sys2Proof.Machine.execLscanMax d a t s
  | .lscanAnd d a t => Sys2Proof.Machine.execLscanAnd d a t s
  | .lscanOr d a t => Sys2Proof.Machine.execLscanOr d a t s
  | .lscanXor d a t => Sys2Proof.Machine.execLscanXor d a t s
  | .lscanFadd d a t => Sys2Proof.Machine.execLscanFadd d a t s
  | .lscanFmin d a t => Sys2Proof.Machine.execLscanFmin d a t s
  | .lscanFmax d a t => Sys2Proof.Machine.execLscanFmax d a t s
  | .lredAdd d a t => Sys2Proof.Machine.execLredAdd d a t s
  | .lredMin d a t => Sys2Proof.Machine.execLredMin d a t s
  | .lredMax d a t => Sys2Proof.Machine.execLredMax d a t s
  | .lredAnd d a t => Sys2Proof.Machine.execLredAnd d a t s
  | .lredOr d a t => Sys2Proof.Machine.execLredOr d a t s
  | .lredXor d a t => Sys2Proof.Machine.execLredXor d a t s
  | .lredFadd d a t => Sys2Proof.Machine.execLredFadd d a t s
  | .lredFmin d a t => Sys2Proof.Machine.execLredFmin d a t s
  | .lredFmax d a t => Sys2Proof.Machine.execLredFmax d a t s
  | .voteAny d a => Sys2Proof.Machine.execVoteAny d a s
  | .voteAll d a => Sys2Proof.Machine.execVoteAll d a s
  | .ballot d a => Sys2Proof.Machine.execBallot d a s
  | .lpopc d a => Sys2Proof.Machine.execLpopc d a s
  | .ljoin a => Sys2Proof.Machine.execLjoin a s
  | .bar n a => Sys2Proof.Machine.execBar n a s
  | .barv n a => Sys2Proof.Machine.execBarv n a s
  | .brDiv p disp => Sys2Proof.Machine.execBrDiv p disp s
  | .brAny p disp => Sys2Proof.Machine.execBrAny p disp s
  | .brAll p disp => Sys2Proof.Machine.execBrAll p disp s
  | .brNone p disp => Sys2Proof.Machine.execBrNone p disp s
  | .jmp disp => Sys2Proof.Machine.execJmp disp s
  | .call disp => Sys2Proof.Machine.execCall disp s
  | .jr a => Sys2Proof.Machine.execJr a s
  | .callr d a => Sys2Proof.Machine.execCallr d a s
  | .ret => Sys2Proof.Machine.execRet s
  | .nop => Sys2Proof.Machine.execNop s
  | .trap code => Sys2Proof.Machine.execTrap code s
  | .brk code => Sys2Proof.Machine.execBrk code s
  | .halt => Sys2Proof.Machine.execHalt s
  | .sync => Sys2Proof.Machine.execSync s
  | .syncI => Sys2Proof.Machine.execSyncI s
  | .resw a => Sys2Proof.Machine.execResw a s
  | .srd d sel => Sys2Proof.Machine.execSrd d sel s
  | .swr a sel => Sys2Proof.Machine.execSwr a sel s
  | .kset k a => Sys2Proof.Machine.execKset k a s
  | .segld a n => Sys2Proof.Machine.execSegld a n s
  | .pwrp a => Sys2Proof.Machine.execPwrp a s
  | .xld d a b => Sys2Proof.Machine.execXld d a b s
  | .xst d a b => Sys2Proof.Machine.execXst d a b s
  | .xcpy d a b => Sys2Proof.Machine.execXcpy d a b s
  | .xredAdd d a b signed => Sys2Proof.Machine.execXredAdd d a b signed s
  | .xredMin d a b signed => Sys2Proof.Machine.execXredMin d a b signed s
  | .xredMax d a b signed => Sys2Proof.Machine.execXredMax d a b signed s
  | .xredAnd d a b signed => Sys2Proof.Machine.execXredAnd d a b signed s
  | .xredOr d a b signed => Sys2Proof.Machine.execXredOr d a b signed s
  | .xredXor d a b signed => Sys2Proof.Machine.execXredXor d a b signed s
  | .xredMadd d a b => Sys2Proof.Machine.execXredMadd d a b s
  | .xfence a => Sys2Proof.Machine.execXfence a s
  | .xprom a => Sys2Proof.Machine.execXprom a s
  | .topen a => Sys2Proof.Machine.execTopen a s
  | .tseal a => Sys2Proof.Machine.execTseal a s
  | .xcnt a => Sys2Proof.Machine.execXcnt a s
  | .xqset a => Sys2Proof.Machine.execXqset a s
  | .mldb d a => Sys2Proof.Machine.execMldb d a s
  | .mmaI4 d a => Sys2Proof.Machine.execMmaI4 d a s
  | .mmaN4 d a => Sys2Proof.Machine.execMmaN4 d a s
  | .mmaI8 d a => Sys2Proof.Machine.execMmaI8 d a s
  | .mmaN8 d a => Sys2Proof.Machine.execMmaN8 d a s
  | .mmaI16 d a => Sys2Proof.Machine.execMmaI16 d a s
  | .mmaN16 d a => Sys2Proof.Machine.execMmaN16 d a s
  | .mconvI4 d a => Sys2Proof.Machine.execMconvI4 d a s
  | .mconvN4 d a => Sys2Proof.Machine.execMconvN4 d a s
  | .mconvI8 d a => Sys2Proof.Machine.execMconvI8 d a s
  | .mconvN8 d a => Sys2Proof.Machine.execMconvN8 d a s
  | .mconvI16 d a => Sys2Proof.Machine.execMconvI16 d a s
  | .mconvN16 d a => Sys2Proof.Machine.execMconvN16 d a s
  | .mdrain d a t => Sys2Proof.Machine.execMdrain d a t s
  | .mzero d a => Sys2Proof.Machine.execMzero d a s
  | .mwait p a => Sys2Proof.Machine.execMwait p a s
  | .mstat d a => Sys2Proof.Machine.execMstat d a s
  | .awit d a => Sys2Proof.Machine.execAwit d a s
  | .aemit c a b => Sys2Proof.Machine.execAemit c a b s
  | .aclose d c => Sys2Proof.Machine.execAclose d c s
  | .await a => Sys2Proof.Machine.execAwait a s
  | .clauseEnd die core grp => Sys2Proof.Machine.execClauseEnd die core grp s
  | .groupSelect die core => Sys2Proof.Machine.execGroupSelect die core s
  | .stayHoldExpire die core grp => Sys2Proof.Machine.execStayHoldExpire die core grp s
  | .loadCompletion die core grp op => Sys2Proof.Machine.execLoadCompletion die core grp op s
  | .idivCompletion die core grp op => Sys2Proof.Machine.execIdivCompletion die core grp op s
  | .sfuCompletion die core grp op => Sys2Proof.Machine.execSfuCompletion die core grp op s
  | .handlerEntry die core grp => Sys2Proof.Machine.execHandlerEntry die core grp s
  | .strimbUpdate die str i0 i1 i2 i3 => Sys2Proof.Machine.execStrimbUpdate die str i0 i1 i2 i3 s
  | .powerStateChange die str => Sys2Proof.Machine.execPowerStateChange die str s
  | .regulatorPhaseLost die => Sys2Proof.Machine.execRegulatorPhaseLost die s
  | .railIlimWrite die v => Sys2Proof.Machine.execRailIlimWrite die v s
  | .dvfsFreqWrite die v => Sys2Proof.Machine.execDvfsFreqWrite die v s
  | .dvfsForce die v => Sys2Proof.Machine.execDvfsForce die v s
  | .dvfsApply die => Sys2Proof.Machine.execDvfsApply die s
  | .clockStable die => Sys2Proof.Machine.execClockStable die s
  | .droopDetect die str => Sys2Proof.Machine.execDroopDetect die str s
  | .droopClear die str => Sys2Proof.Machine.execDroopClear die str s
  | .thermMigreq die core temp => Sys2Proof.Machine.execThermMigreq die core temp s
  | .thermalThrottle die core temp => Sys2Proof.Machine.execThermalThrottle die core temp s
  | .throttleRepeat die => Sys2Proof.Machine.execThrottleRepeat die s
  | .thermalTrip die core temp => Sys2Proof.Machine.execThermalTrip die core temp s
  | .bindRecordWrite die slot r => Sys2Proof.Machine.execBindRecordWrite die slot r s
  | .admissionInterval die => Sys2Proof.Machine.execAdmissionInterval die s
  | .dispatch part => Sys2Proof.Machine.execDispatch part s
  | .timedStart part die => Sys2Proof.Machine.execTimedStart part die s
  | .flipX part => Sys2Proof.Machine.execFlipX part s
  | .flipC part => Sys2Proof.Machine.execFlipC part s
  | .finalStart part => Sys2Proof.Machine.execFinalStart part s
  | .taskComplete part => Sys2Proof.Machine.execTaskComplete part s
  | .heldEntry part => Sys2Proof.Machine.execHeldEntry part s
  | .stragglerTimeout part => Sys2Proof.Machine.execStragglerTimeout part s
  | .stragLimitWrite part v => Sys2Proof.Machine.execStragLimitWrite part v s
  | .phCtlHold part hold => Sys2Proof.Machine.execPhCtlHold part hold s
  | .phCtlDiscard part => Sys2Proof.Machine.execPhCtlDiscard part s
  | .phCtlAbort part => Sys2Proof.Machine.execPhCtlAbort part s
  | .phCtlStragClear part => Sys2Proof.Machine.execPhCtlStragClear part s
  | .maintCommit8 die r => Sys2Proof.Machine.execMaintCommit8 die r s
  | .maintCommitLine die r line => Sys2Proof.Machine.execMaintCommitLine die r line s
  | .pumiceCopy die r => Sys2Proof.Machine.execPumiceCopy die r s
  | .pumiceZero die r => Sys2Proof.Machine.execPumiceZero die r s
  | .maintComplete die => Sys2Proof.Machine.execMaintComplete die s
  | .trootWrite part v => Sys2Proof.Machine.execTrootWrite part v s
  | .carryForwardComplete idx => Sys2Proof.Machine.execCarryForwardComplete idx s
  | .landingWrite src tid off op data => Sys2Proof.Machine.execLandingWrite src tid off op data s
  | .remoteReadRequest src tid off len => Sys2Proof.Machine.execRemoteReadRequest src tid off len s
  | .exchangeEntryStart die core pos => Sys2Proof.Machine.execExchangeEntryStart die core pos s
  | .exchangeTransferDone die core pos => Sys2Proof.Machine.execExchangeTransferDone die core pos s
  | .exchangeFaultPark die core pos => Sys2Proof.Machine.execExchangeFaultPark die core pos s
  | .xredRequestApply die core pos => Sys2Proof.Machine.execXredRequestApply die core pos s
  | .responseTimeout die core pos => Sys2Proof.Machine.execResponseTimeout die core pos s
  | .appliedResponseLost die core pos => Sys2Proof.Machine.execAppliedResponseLost die core pos s
  | .xpromComplete die core pos => Sys2Proof.Machine.execXpromComplete die core pos s
  | .xfctlReplay part pcore index => Sys2Proof.Machine.execXfctlReplay part pcore index s
  | .xfctlAbandon part => Sys2Proof.Machine.execXfctlAbandon part s
  | .matrixOpComplete die core => Sys2Proof.Machine.execMatrixOpComplete die core s
  | .mwaitReturn die core grp second => Sys2Proof.Machine.execMwaitReturn die core grp second s
  | .mstatClearComplete die core grp => Sys2Proof.Machine.execMstatClearComplete die core grp s
  | .awaitReturn die core grp second => Sys2Proof.Machine.execAwaitReturn die core grp second s
  | .auditValuesArrive die core => Sys2Proof.Machine.execAuditValuesArrive die core s
  | .assayFoldComplete die core => Sys2Proof.Machine.execAssayFoldComplete die core s
  | .witnessRecordAccept die core => Sys2Proof.Machine.execWitnessRecordAccept die core s
  | .witnessRecordTest num => Sys2Proof.Machine.execWitnessRecordTest num s
  | .horizonMark die core k => Sys2Proof.Machine.execHorizonMark die core k s
  | .generationRelease idx => Sys2Proof.Machine.execGenerationRelease idx s
  | .outboundRelease die => Sys2Proof.Machine.execOutboundRelease die s
  | .rollback part => Sys2Proof.Machine.execRollback part s
  | .rerunCompare slot => Sys2Proof.Machine.execRerunCompare slot s
  | .retirementEffect unit => Sys2Proof.Machine.execRetirementEffect unit s
  | .ctxSave part => Sys2Proof.Machine.execCtxSave part s
  | .ctxEvict part => Sys2Proof.Machine.execCtxEvict part s
  | .ctxRestore part => Sys2Proof.Machine.execCtxRestore part s
  | .ctxOpComplete part => Sys2Proof.Machine.execCtxOpComplete part s
  | .migctlGo part v => Sys2Proof.Machine.execMigctlGo part v s
  | .lanectlResume die core grp pc mask => Sys2Proof.Machine.execLanectlResume die core grp pc mask s
  | .lanectlKill die core grp mask => Sys2Proof.Machine.execLanectlKill die core grp mask s
  | .deviceReset => Sys2Proof.Machine.execDeviceReset s
  | .getVersion m => Sys2Proof.Machine.execGetVersion m s
  | .getCapabilities m => Sys2Proof.Machine.execGetCapabilities m s
  | .negotiateAlgorithms m => Sys2Proof.Machine.execNegotiateAlgorithms m s
  | .getDigests m => Sys2Proof.Machine.execGetDigests m s
  | .getCertificate m => Sys2Proof.Machine.execGetCertificate m s
  | .spdmChallenge m => Sys2Proof.Machine.execSpdmChallenge m s
  | .getMeasurements m => Sys2Proof.Machine.execGetMeasurements m s
  | .keyExchange m => Sys2Proof.Machine.execKeyExchange m s
  | .spdmFinish m => Sys2Proof.Machine.execSpdmFinish m s
  | .spdmHeartbeat m => Sys2Proof.Machine.execSpdmHeartbeat m s
  | .keyUpdate m => Sys2Proof.Machine.execKeyUpdate m s
  | .endSession m => Sys2Proof.Machine.execEndSession m s
  | .vendorDefinedRequest m slot exp => Sys2Proof.Machine.execVendorDefinedRequest m slot exp s
  | .spdmUnsupportedRequest m => Sys2Proof.Machine.execSpdmUnsupportedRequest m s
  | .keyEraseConfirm slot die => Sys2Proof.Machine.execKeyEraseConfirm slot die s
  | .scrubUnitDone part => Sys2Proof.Machine.execScrubUnitDone part s
  | .collectiveRegister id tid members sessions => Sys2Proof.Machine.execCollectiveRegister id tid members sessions s
  | .collectiveMemberChanged id member => Sys2Proof.Machine.execCollectiveMemberChanged id member s
  | .hostIdent c => Sys2Proof.Machine.execHostIdent c s
  | .hostStatus c => Sys2Proof.Machine.execHostStatus c s
  | .hostRead c => Sys2Proof.Machine.execHostRead c s
  | .hostWrite c => Sys2Proof.Machine.execHostWrite c s
  | .hostSubmit c => Sys2Proof.Machine.execHostSubmit c s
  | .hostResult c => Sys2Proof.Machine.execHostResult c s
  | .hostResetPartition c => Sys2Proof.Machine.execHostResetPartition c s
  | .hostResetPackage c => Sys2Proof.Machine.execHostResetPackage c s
  | .hostSpdm c => Sys2Proof.Machine.execHostSpdm c s
  | .hostPush c => Sys2Proof.Machine.execHostPush c s
  | .hostTimeset c => Sys2Proof.Machine.execHostTimeset c s
  | .pcieFunctionLevelReset => Sys2Proof.Machine.execPcieFunctionLevelReset s
  | .wdogWrite part v => Sys2Proof.Machine.execWdogWrite part v s
  | .wdogExpire part => Sys2Proof.Machine.execWdogExpire part s
  | .mcwdKick die v => Sys2Proof.Machine.execMcwdKick die v s
  | .mcwdExpire die => Sys2Proof.Machine.execMcwdExpire die s
  | .devnumWrite v => Sys2Proof.Machine.execDevnumWrite v s
  | .bilsolPortStateChange port st peer => Sys2Proof.Machine.execBilsolPortStateChange port st peer s
  | .ptpSync port offset => Sys2Proof.Machine.execPtpSync port offset s
  | .peerPushReceive src dst seq lcore lines => Sys2Proof.Machine.execPeerPushReceive src dst seq lcore lines s
  | .peerrxWrite entry field v => Sys2Proof.Machine.execPeerrxWrite entry field v s
  | .registerWrite r inst v => Sys2Proof.Machine.execRegisterWrite r inst v s
  | .illegalInstruction w => Sys2Proof.Machine.execIllegalInstruction w s
  | .hostUnknownOp op c => Sys2Proof.Machine.execHostUnknownOp op c s
  | .recoveryVerificationResult => Sys2Proof.Machine.execRecoveryVerificationResult s
  | .frameTagFailure port => Sys2Proof.Machine.execFrameTagFailure port s

end Sys2Proof.Machine
end

