-- ==== Sys2Proof/Machine/Schedule.lean ====
section
/-!
DEFINITION. Machine/Schedule.lean: which action comes next when the agenda names none (log entry 1): the word a core issues,
or the first event, in a fixed order, that has an effect.
-/
namespace Sys2Proof.Machine

/-- What a step does: the word at a cursor, an event, or nothing. -/
inductive Pick where
  | word (cur : Cursor)
  | event (i : Instr)
  | idle
  deriving DecidableEq, Repr

/-- Time passes: at least one nanosecond with every step (log entry 2); it never wraps (log entry 63). -/
def tick (s : State) : State := { s with time := s.time + 1 + Config.stepNs s.ticks, ticks := s.ticks + 1 }

/-- The die and core operands of a physical core's events. -/
def dieArg (c : Nat) : Fin 8 := Fin.ofNat 8 (c / 128)
def coreArg (c : Nat) : Fin 128 := Fin.ofNat 128 c

/-- The second port's word follows the primary port's of the same cycle: the group is still selected, and the port can issue
(R147, R148, R150). -/
def pairPick (s : State) : Option Pick :=
  let c := s.cur.core
  let g := s.cur.grp
  if s.scope.isSome ∧ issues s c ∧ (getCore s c).sel = g then
    match (getGroup s c g).c1 with
    | some k => if issuable s c g true k then some (.word { core := c, grp := g, second := true, entry := none }) else none
    | none => none
  else none

/-- What a ready group does: a released entry or the lowest ready entry starts, a clause in flight issues a word, or the
clauses in flight end (R144 to R148). -/
def groupPick (s : State) (c g : Nat) : Pick :=
  let gr := getGroup s c g
  let at_ := fun (second : Bool) (e : Option (Offset × LaneMask)) =>
    Pick.word { core := c, grp := g, second := second, entry := e }
  let can := fun (second : Bool) => match gr.port second with
    | some k => issuable s c g second k
    | none => false
  if ¬ gr.inFlight then at_ false (if (resumesReleased s c g).isSome then none else (readyEntries s c g).head?)
  else if can false then at_ false none
  else if can true then at_ true none
  else .event (.clauseEnd (dieArg c) (coreArg c) (Fin.ofNat 8 g))

/-- What a core's issue does: its selected group goes on, a STAY hold ends, or another group is selected (R150, R152). -/
def issuePick (s : State) (c : Nat) : Option Pick :=
  if ¬ issues s c then none
  else
    let co := getCore s c
    if groupReady s c co.sel ∨ (co.group co.sel).ended then some (groupPick s c co.sel)
    else if (co.group co.sel).stayLeft.isSome then
      some (.event (.stayHoldExpire (dieArg c) (coreArg c) (Fin.ofNat 8 co.sel)))
    else
      match oldestReady s c fun _ => true with
      | some _ => some (.event (.groupSelect (dieArg c) (coreArg c)))
      | none => none

/-- An event has an effect now. -/
def fires (s : State) (i : Instr) : Bool :=
  match exec i s with
  | .next t => decide (t ≠ s)
  | .fault _ => false
  | .refused _ => false

/-- The events of a core's units, in the order in which they are tried. -/
def unitEvents (s : State) (c : Nat) : List Instr :=
  let d := dieArg c
  let k := coreArg c
  let groups := (getCore s c).groups.flatMap fun e =>
    let g : Fin 8 := Fin.ofNat 8 e.1
    [.handlerEntry d k g, .mwaitReturn d k g false, .mwaitReturn d k g true, .mstatClearComplete d k g,
     .awaitReturn d k g false, .awaitReturn d k g true, .loadCompletion d k g 0, .idivCompletion d k g 0,
     .sfuCompletion d k g 0]
  groups ++ [.matrixOpComplete d k, .auditValuesArrive d k, .assayFoldComplete d k, .witnessRecordAccept d k] ++
    (xqAll (getCore s c)).flatMap fun pos =>
      [.exchangeEntryStart d k pos, .xredRequestApply d k pos, .exchangeTransferDone d k pos,
       .exchangeFaultPark d k pos, .xpromComplete d k pos]

/-- The events of a partition; those that wait for a moment of package time are tried once it has come. -/
def partEvents (s : State) (p : Nat) (x : Part) : List Instr :=
  let n : Fin 256 := Fin.ofNat 256 p
  let erase := x.erasing.flatMap fun e => (bitList e.2).map fun d => Instr.keyEraseConfirm (Fin.ofNat 64 e.1) (Fin.ofNat 16 d)
  let start :=
    if x.waitStart ∧ (x.launch.getD Launch.zero).start.toNat ≤ s.time then
      x.strings.map fun t => Instr.timedStart n (Fin.ofNat 8 (t / 32))
    else []
  let strag := if stragRuns x ∧ x.stragAt + x.stragLimit.toNat ≤ s.time then [Instr.stragglerTimeout n] else []
  let dog := if wdogRuns x ∧ x.wdogAt + msNs (fld x.wdog 31 0) ≤ s.time then [Instr.wdogExpire n] else []
  let marks := (partCores s p).map fun c => Instr.horizonMark (dieArg c) (coreArg c) x.passSs
  erase ++ start ++ strag ++ dog ++
    [.rollback n, .dispatch n, .heldEntry n, .ctxOpComplete n, .finalStart n, .flipX n, .flipC n] ++ marks ++
    [.taskComplete n]

/-- The events of a die. -/
def dieEvents (s : State) (d : Nat) (x : Die) : List Instr :=
  let n : Fin 8 := Fin.ofNat 8 d
  let power := (List.range 32).filterMap fun i =>
    match powerDue s (32 * d + i) with
    | some (_, t) => if t ≤ s.time then some (Instr.powerStateChange n (Fin.ofNat 32 i)) else none
    | none => none
  let heat := if x.throttled ∧ x.dropAt + interval ≤ s.time then [Instr.throttleRepeat n] else []
  let dog := if x.mcwdAt + msNs x.mcwdLimit ≤ s.time then [Instr.mcwdExpire n] else []
  [.maintComplete n, .clockStable n] ++ power ++ heat ++ dog ++ [.dvfsApply n, .admissionInterval n]

/-- The carry-forward of each generation of the tensor table. -/
def carryEvents (s : State) : List Instr := (List.range (ttCount s)).map fun i => .carryForwardComplete i

/-- The events of the Granite die. -/
def graniteEvents (s : State) : List Instr :=
  s.gran.gens.map (fun a => .generationRelease a.idx) ++
    (s.gran.hold ++ s.gran.wire).map (fun o => .outboundRelease (Fin.ofNat 8 o.die)) ++ s.gran.diags.map (fun d => .rerunCompare d.slot) ++
    s.gran.orders.map fun u => .retirementEffect u

/-- The events of partitions, dies and the package, in the order in which they are tried: the boot first, where none has
run since reset, then the tests of witness records and carry-forward; scrubbing comes last. -/
def packageEvents (s : State) : List Instr :=
  if s.gran.bootStat = 0xFF0000 then [.deviceReset]
  else
    s.gran.recs.map (fun r => .witnessRecordTest r.num) ++ carryEvents s ++
      (s.parts.flatMap fun e => partEvents s e.1 e.2) ++ bindParts s ++
      (s.dies.flatMap fun e => dieEvents s e.1 e.2) ++ graniteEvents s ++
      s.parts.map fun e => .scrubUnitDone (Fin.ofNat 256 e.1)
where
  /-- The dispatch of a partition number that no state names yet. -/
  bindParts (s : State) : List Instr :=
    s.dies.flatMap fun e => e.2.binds.filterMap fun b =>
      if b.2.state = .armed then some (.dispatch (Fin.ofNat 256 b.2.part)) else none

/-- The first event of a list that has an effect. -/
def firstEvent (s : State) (l : List Instr) : Option Pick := (l.find? (fires s)).map Pick.event

/-- The turns: core `c` issues at 2c and its units act at 2c + 1, everything else acts at 2048. -/
def turns (s : State) : List Nat := (s.cores.flatMap fun e => [2 * e.1, 2 * e.1 + 1]) ++ [2048]

/-- What happens at a turn, if anything. -/
def atTurn (s : State) (n : Nat) : Option Pick :=
  if n = 2048 then firstEvent s (packageEvents s)
  else if n % 2 = 0 then issuePick s (n / 2)
  else firstEvent s (unitEvents s (n / 2))

/-- The first turn of a list at which something happens, with what happens. -/
def firstTurn (s : State) : List Nat → Option (Nat × Pick)
  | [] => none
  | n :: r =>
    match atTurn s n with
    | some p => some (n, p)
    | none => firstTurn s r

/-- The model's own choice, with the turn that comes after it (log entry 1). -/
def choose (s : State) : Nat × Pick :=
  match pairPick s with
  | some p => (s.turn, p)
  | none =>
    let l := turns s
    match firstTurn s ((l.filter fun n => decide (s.turn ≤ n)) ++ l.filter fun n => decide (n < s.turn)) with
    | some (n, p) => (n + 1, p)
    | none => (s.turn, .idle)

/-- A step that issues no word of the cycle under way ends it: no later word reads the group as that cycle found it (R148). -/
def endCycle (s : State) : State := { s with scope := none }

/-- The machine as it stands when the word at a cursor is fetched: a released entry is put on its port, and only the second
port's word of the cycle under way sees the group as that cycle found it (R148). -/
def atCursor (s : State) (turn : Nat) (cur : Cursor) : State :=
  let s := { s with cur := cur, turn := turn, scope := if pairPick s = some (.word cur) then s.scope else none }
  if cur.entry = none ∧ ¬ cur.second then
    match resumesReleased s cur.core cur.grp with
    | some k => resumeReleased s cur.core cur.grp k
    | none => s
  else s

/-- The bits of the word at the cursor: the clause's next word, or the header of the entry. -/
def fetchCursor (s : State) : Option (BitVec 32) :=
  match atWord s with
  | some k => fetchAt s s.cur.core k.seg3 (k.wordAt k.nxt)
  | none =>
    match atHeader s with
    | some e => fetchAt s s.cur.core (spGet 0 (getGroup s s.cur.core s.cur.grp).seg 3) e.1
    | none => none

/-- Run the word at the cursor: a fetch fault, an illegal instruction, or the instruction it decodes to. -/
def runCursor (s : State) : Out :=
  match fetchCursor s with
  | none => .next (fetchFault s)
  | some w =>
    match decode w with
    | .ok i => exec i s
    | .error _ => execIllegalInstruction w s

/-- An instruction word, which a core fetches and no outside party can issue. -/
def isWord (i : Instr) : Bool :=
  match i with
  | .illegalInstruction _ => true
  | _ => (encode i).isSome || !i.wellFormed

end Sys2Proof.Machine
end

