-- ==== Sys2Proof/Machine/Step.lean ====
section
/-!
DEFINITION. Machine/Step.lean: one step of the package: the oldest action of the agenda, or the model's own choice (log
entry 1); and the placing of a word where the next step fetches it (log entry 11).
-/
namespace Sys2Proof.Machine

/-- One step. An agenda action happens as its event; the agenda cannot name an instruction word. With an empty agenda the
schedule names the word that a core fetches, or an event, or lets time pass. -/
def step (s : State) : Host.Outcome State Fault Refusal :=
  match s.agenda with
  | i :: r => if isWord i then .fault .wordNotFetched else exec i (endCycle (tick { s with agenda := r }))
  | [] =>
    match choose s with
    | (t, .word cur) => runCursor (atCursor (tick s) t cur)
    | (t, .event i) => exec i (endCycle { tick s with turn := t })
    | (t, .idle) => .next (endCycle { tick s with turn := t })

/-! ## Placing a word (log entry 11) -/

/-- The lanes of the placed group: all 32 runnable at offset 0. -/
def placedLanes (gr : Group) : Sparse Lane :=
  (List.range 32).map fun l => (l, { gr.lane l with cond := .runnable, pc := 0, npc := none })

/-- A clause of `len` words at offset 0, with flags f0 and f1, before its first word. -/
def placedClause (seg3 : Word) (len : Nat) : Clause :=
  { hdr := 0, len := len, fla := some 0, flb := some 1, yld := false, nxt := 1, mask := 0xFFFFFFFF, run := [], seg3 := seg3,
    stay := false, wait := .go }

/-- SEG3 of the placed group: code, base 0, LIMIT 49,152 units of 16 bytes, all of the scratchpad (R18). -/
def placedSeg : Word := 0x00000003C0000000

/-- The placed group: a header goes to offset 0, any other word follows a header there. -/
def placedGroup (gr : Group) (w : BitVec 32) : Group :=
  { gr with
    seg := spPut 0 gr.seg 3 placedSeg, lanes := placedLanes gr, out := [], flags := [], c1 := none, released := []
    joins := [], synced := false, lanectl := [], stayLeft := none
    c0 := if fld w 31 26 = 0 then none else some (placedClause placedSeg (if fld w 31 26 = 1 then 2 else 1)) }

/-- Core 0 with the word placed in its scratchpad. -/
def placedCore (co : Core) (w : BitVec 32) : Core :=
  { co with
    part := some 0, ngroups := max 1 co.ngroups, sel := 0, groups := spSet co.groups 0 (placedGroup (co.group 0) w)
    spad := memStore co.spad (if fld w 31 26 = 0 then 0 else 4) 4 w.toNat }

/-- The state with the word of a table row placed where the next step fetches it: group 0 of physical core 0, working for
partition 0 in a compute phase, has the word next. It stands for the dispatch of a task whose image begins with it. -/
def State.withFetchWord (s : State) (nbits w : Nat) : State :=
  let word := BitVec.ofNat 32 (w % 2 ^ nbits)
  let s := modCore s 0 fun co => placedCore co word
  let s := modPart s 0 fun x =>
    { x with st := .compute, evicted := false, holding := none, quiesce := false, launch := some (x.launch.getD Launch.zero)
             lmap := if x.lmap.isEmpty then [0] else x.lmap }
  { s with agenda := [], scope := none, turn := 0 }

end Sys2Proof.Machine
end

