-- ==== Sys2Proof/Safety.lean ====
section
/-!
DEFINITION. Safety.lean: what counts as a proper run, in the terms that the statements use: when a word issues, the state in
which it takes effect, and what it may leave changed.
-/
namespace Sys2Proof.Machine

/-- The word of requirements `m` is the next one of clause `k` at the cursor, its core issues, the clause does not wait,
every check of R74 and R86 passes, and the word does not stall: the registers that it reads or writes are not pending (R27),
its flag's count has room (R25), and what the word itself needs is there. -/
structure Issues (m : WMeta) (s : State) (k : Clause) : Prop where
  here : atWord s = some k
  sound : wordCause m (envOf s k) s = none
  free : stallOf m (envOf s k) s = false

/-- The word passes its checks and stalls. -/
structure Stalls (m : WMeta) (s : State) (k : Clause) : Prop where
  here : atWord s = some k
  sound : wordCause m (envOf s k) s = none
  held : stallOf m (envOf s k) s = true

/-- The state in which the word takes effect: the clause has moved past it. -/
def atEffect (s : State) (k : Clause) : State := passWord s (envOf s k)

/-! ## What a word leaves unchanged -/

/-- From `b` to `t`, nothing outside the word's group differs but the group-scope view of R148: no other group, no other
core, nothing of the core's own queues, engines, logs and management registers, no byte of a scratchpad or a vault, and no
other part of the package. -/
structure OnlyGroup (e : WEnv) (b t : State) : Prop where
  rest : { t with cores := b.cores, scope := b.scope } = b
  cores : ∀ c, c ≠ e.core → getCore t c = getCore b c
  core : { getCore t e.core with groups := (getCore b e.core).groups } = getCore b e.core
  groups : ∀ g, g ≠ e.grp → getGroup t e.core g = getGroup b e.core g
  spads : ∀ c a, memGet (getCore t c).spad a = memGet (getCore b c).spad a
  vaults : ∀ a, memGet t.vault a = memGet b.vault a

/-- Moreover only lanes that issue the word differ. The other port's clause stays, and the word's own clause too, unless no
lane is left to issue it. -/
structure OnlyLanes (e : WEnv) (b t : State) : Prop extends OnlyGroup e b t where
  group : { getGroup t e.core e.grp with
            lanes := (getGroup b e.core e.grp).lanes, c0 := (getGroup b e.core e.grp).c0
            c1 := (getGroup b e.core e.grp).c1 } = getGroup b e.core e.grp
  other : (getGroup t e.core e.grp).port (!e.second) = (getGroup b e.core e.grp).port (!e.second)
  own : (getGroup t e.core e.grp).port e.second = (getGroup b e.core e.grp).port e.second ∨
    ∃ k, (getGroup b e.core e.grp).port e.second = some k ∧ (getGroup t e.core e.grp).active k = 0
  lanes : ∀ l, bit e.act l = false → e.lane t l = e.lane b l

/-- Moreover, in a lane that issues the word, only register `d` differs, and FSTAT where `fst` says so. -/
structure OnlyReg (fst : Bool) (d : Reg) (e : WEnv) (b t : State) : Prop extends OnlyLanes e b t where
  fixed : ∀ l, { e.lane t l with
    w := (e.lane b l).w, t0 := (e.lane b l).t0, t1 := (e.lane b l).t1
    fstat := if fst then (e.lane b l).fstat else (e.lane t l).fstat } = e.lane b l
  regs : ∀ l r, r ≠ d → readReg (e.lane t l) r = readReg (e.lane b l) r

/-- Moreover only predicate `p` differs. -/
structure OnlyPred (p : Fin 8) (e : WEnv) (b t : State) : Prop extends OnlyLanes e b t where
  fixed : ∀ l, { e.lane t l with p := (e.lane b l).p } = e.lane b l
  preds : ∀ l q, q ≠ p → predOf (e.lane t l) q = predOf (e.lane b l) q

/-! ## What a word does where it issues -/

/-- Wherever `i` issues with the requirements `m`, it answers a next state, related by `p` to the state in which it takes
effect. -/
def Effect (i : Instr) (m : WMeta) (p : WEnv → State → State → Prop) : Prop :=
  ∀ s k, Issues m s k → ∃ t, exec i s = .next t ∧ p (envOf s k) (atEffect s k) t

/-- `i` writes register `d`, and nothing else, in every lane that issues it: `r` relates each sub-element of `w` bits. -/
def SubsAre (i : Instr) (m : WMeta) (d : Reg) (w : Nat) (r : WEnv → State → Nat → Nat → Nat → Prop) : Prop :=
  Effect i m fun e b t => OnlyReg false d e b t ∧
    ∀ l, bit e.act l = true → ∀ j, j < 64 / w → r e b l j (subBits (readReg (e.lane t l) d) w j)

/-- The same with integers, each reduced modulo 2^w (R38). -/
def IntsAre (i : Instr) (m : WMeta) (d : Reg) (w : Nat) (v : WEnv → State → Nat → Nat → Int) : Prop :=
  SubsAre i m d w fun e b l j n => (n : Int) = v e b l j % 2 ^ w

/-- `i` writes register `d`, and nothing else, in every lane that issues it: `v` gives all 64 bits. -/
def WordIs (i : Instr) (m : WMeta) (d : Reg) (v : WEnv → State → Nat → Word) : Prop :=
  Effect i m fun e b t => OnlyReg false d e b t ∧ ∀ l, bit e.act l = true → readReg (e.lane t l) d = v e b l

/-- `i` writes predicate `p`, and nothing else, in every lane that issues it. -/
def PredIs (i : Instr) (m : WMeta) (p : Fin 8) (v : WEnv → State → Nat → Bool) : Prop :=
  Effect i m fun e b t => OnlyPred p e b t ∧ ∀ l, bit e.act l = true → predOf (e.lane t l) p = v e b l

/-- `i` rounds `n` elements of `w` bits into register `d` of every lane that issues it: patterns, FSTAT bits, and under TRAP
the records of R126, one for each of the causes 0x21, 0x22, 0x23 that some lane raises, in this order. -/
def RoundedIs (i : Instr) (m : WMeta) (d : Reg) (w n : Nat) (f : WEnv → State → Nat → Nat → FRes) : Prop :=
  Effect i m fun e b t =>
    OnlyReg true d e (((if e.pol = some .trap then ([0x21, 0x22, 0x23] : List Byte) else []).filterMap fun k =>
      let names := maskOf 32 (e.lanes.filter fun l => (List.range n).any fun j => (f e b l j).causes.contains k)
      if names = 0 then none else some (e.logRec b k names)).foldl e.post b) t ∧
    ∀ l, bit e.act l = true →
      (∀ j, j < 64 / w → subBits (readReg (e.lane t l) d) w j = if j < n then (f e b l j).bits % 2 ^ w else 0) ∧
      (e.lane t l).fstat = (e.lane b l).fstat ||| wd ((List.range n).foldl (fun x j => x ||| (f e b l j).fstat) 0)

/-- Instruction `o` is now outstanding, last of its group's list, its flag's count one higher; nothing else changed (R25). -/
def Outstanding (e : WEnv) (b t : State) (o : LongOp) : Prop :=
  let before := getGroup b e.core e.grp
  let after := getGroup t e.core e.grp
  OnlyGroup e b t ∧ (∀ l, e.lane t l = e.lane b l) ∧ after.out = before.out ++ [o] ∧
    spGet 0 after.flags o.flag = spGet 0 before.flags o.flag + 1 ∧
    (∀ f : Fin 12, f ≠ o.flag → spGet 0 after.flags f = spGet 0 before.flags f) ∧
    { after with out := before.out, flags := before.flags, c0 := before.c0, c1 := before.c1 } = before

/-- Wherever `i` issues with the requirements `m` on operands that satisfy `h`, it answers a next state, related by `p` to the
state in which it takes effect. -/
def EffectIf (i : Instr) (m : WMeta) (h : WEnv → State → Prop) (p : WEnv → State → State → Prop) : Prop :=
  ∀ s k, Issues m s k → h (envOf s k) (atEffect s k) → ∃ t, exec i s = .next t ∧ p (envOf s k) (atEffect s k) t

/-- The marks of races between lanes and the engine, as a later core has them (R252). -/
def raceMarks (x y : Core) : Core := { x with eng := { x.eng with raced := y.eng.raced, unseen := y.eng.unseen } }

/-- Only the core's scratchpad and the marks of races on it differ, besides what `r` allows: `r` relates the state that already has
them to `t`. -/
def WithSpad (r : WEnv → State → State → Prop) (e : WEnv) (b t : State) : Prop :=
  r e (modCore b e.core fun x => { raceMarks x (getCore t e.core) with spad := (getCore t e.core).spad }) t

/-- Nothing differs but the end of the word's own clause. -/
def Quiet (e : WEnv) (b t : State) : Prop := OnlyLanes e b t ∧ ∀ l, e.lane t l = e.lane b l

/-- Besides what `r` allows, the core's state differs only where `f` copies from the later core: `r` relates the state that
already has those parts to `t`. -/
def Allowing (f : Core → Core → Core) (r : WEnv → State → State → Prop) (e : WEnv) (b t : State) : Prop :=
  r e (modCore b e.core fun x => f x (getCore t e.core)) t

/-- The same for the word's group. -/
def AllowingGroup (f : Group → Group → Group) (r : WEnv → State → State → Prop) (e : WEnv) (b t : State) : Prop :=
  r e (modGroup b e.core e.grp fun x => f x (getGroup t e.core e.grp)) t

/-- The same for the partition that the word's core works for. -/
def AllowingPart (f : Part → Part → Part) (r : WEnv → State → State → Prop) (e : WEnv) (b t : State) : Prop :=
  r e (modPart b ((getCore b e.core).part.getD 256) fun x => f x (partOf t e.core)) t

/-- The lowest-numbered lane that issues the word (R101). -/
def Lowest (e : WEnv) (q : Nat) : Prop := bit e.act q = true ∧ ∀ k < q, bit e.act k = false

/-- A lane parked at the word with a cause (R337, R338): the fault state latched, every register as it was. -/
def parkedAt (e : WEnv) (handle : Bool) (cause : Byte) (access : Nat) (addr : Word) (x : Lane) : Lane :=
  { x with
    cond := .parked, pc := e.pc, npc := none
    fault := some { cause := cause, access := access, word := e.pc, addr := addr, clause := e.cl.hdr, fall := e.cl.fall
                    handler := handle && decide (cause ≠ 0x09) && !x.hflt } }

/-- Every lane of the group is as it was, but a lane that issues the word and for which `f` gives a cause, an access kind and
an address is parked with them. -/
def Parks (f : Nat → Option (Byte × Nat × Word)) (e : WEnv) (b t : State) : Prop :=
  ∀ l, e.lane t l =
    match if bit e.act l then f l else none with
    | some (c, a, v) => parkedAt e (launchOf b e.core).handle c a v (e.lane b l)
    | none => e.lane b l

/-- Every lane that issues the word and for which `f` gives a cause, an access kind and an address is parked with them, the word
without effect on it; every other lane keeps its condition and its fault state. -/
def Faults (f : Nat → Option (Byte × Nat × Word)) (e : WEnv) (b t : State) : Prop :=
  ∀ l, match if bit e.act l then f l else none with
    | some (c, a, v) => e.lane t l = parkedAt e (launchOf b e.core).handle c a v (e.lane b l)
    | none => (e.lane t l).cond = (e.lane b l).cond ∧ (e.lane t l).fault = (e.lane b l).fault

/-- From `b` to `t`, nothing differs but group `g` of core `c`. -/
structure OnlyIn (c g : Nat) (b t : State) : Prop where
  rest : { t with cores := b.cores } = b
  cores : ∀ k, k ≠ c → getCore t k = getCore b k
  core : { getCore t c with groups := (getCore b c).groups } = getCore b c
  groups : ∀ k, k ≠ g → getGroup t c k = getGroup b c k

/-- The states agree, but that a string of die `d` with a cause of power state 2 has gone there, and but for the moments from
which strings have been free of the causes of their power states (R184). -/
structure SamePower (d : Nat) (b t : State) : Prop where
  rest : { t with strings := b.strings } = b
  strings : ∀ n, { getStr t n with clearSince := (getStr b n).clearSince } =
    { getStr b n with pwr := if n / 32 = d ∧ cause2 b n = true then 2 else (getStr b n).pwr }

/-! ## Values and their rounding, over the reals -/

/-- A finite value is the real `x`. -/
def FVal.Is (v : FVal) (x : ℝ) : Prop := ∃ n m e, v = .num n m e ∧ x = (if n then -1 else 1) * (m * 2 ^ e)

/-- The magnitude of pattern `k` of a float type, as if its exponent range had no upper limit: with `k` it rises through every
magnitude of the type (R40, R41, R45). -/
def magnitude (t : FltTy) (k : Nat) : ℚ :=
  if k < 2 ^ t.frac then k * 2 ^ t.emin else (2 ^ t.frac + k % 2 ^ t.frac : Nat) * 2 ^ (t.emin - 1 + (k / 2 ^ t.frac : Nat))

/-- Of a magnitude that lies the part `D` of the way from number `lo` to the next one, rounding selects number `k` (R45, R49). -/
def Selects (c : Ctl) (neg : Bool) (lo : Nat) (D : ℝ) (k : Nat) : Prop :=
  let away : Prop := D ≠ 0 ∧ match c.mode with
    | .rne => 1 < 2 * D ∨ (2 * D = 1 ∧ lo % 2 = 1)
    | .rz => False
    | .ru => neg = false
    | .rd => neg = true
    | .rs => 65536 ≤ ⌊D * 65536⌋ + c.rand
  (away → k = lo + 1) ∧ (¬ away → k = lo)

/-- The value rounded as if the exponent range had no lower limit lies below the smallest normal (R47). -/
def Tiny (t : FltTy) (c : Ctl) (neg : Bool) (x : ℝ) : Prop :=
  ∃ (z : ℤ) (lo k : Nat), 2 ^ t.frac * (2 : ℝ) ^ z ≤ x ∧ x < 2 ^ (t.frac + 1) * (2 : ℝ) ^ z ∧ lo ≤ x / 2 ^ z ∧ x / 2 ^ z < lo + 1 ∧
    Selects c neg lo (x / 2 ^ z - lo) k ∧ k * (2 : ℝ) ^ z < 2 ^ (1 - (t.bias : ℤ))

/-- A float result overflows (R52): its pattern under each policy, OF and NX, and the cause under TRAP. -/
def Overflows (t : FltTy) (c : Ctl) (neg : Bool) (r : FRes) : Prop :=
  let big := t.sign neg + t.inf - 1
  r.nv = false ∧ r.of_ = true ∧ r.uf = false ∧ r.nx = true ∧
  r.bits = match c.pol, c.mode with
    | .nan, _ => t.nan
    | .sat, _ | .trap, _ | .inf, .rz => big
    | .inf, .ru => if neg then big else t.inf
    | .inf, .rd => if neg then t.sign true + t.inf else big
    | .inf, .rne | .inf, .rs => t.sign neg + t.inf

/-- An integer result overflows (R52). -/
def OverflowsInt (t : IntTy) (c : Ctl) (neg : Bool) (r : FRes) : Prop :=
  r.nv = true ∧ r.of_ = false ∧ r.uf = false ∧ r.nx = false ∧
  (r.bits : ℤ) = if c.pol = .nan then 2 ^ (t.width - 1)
    else (if neg then intMin t.width t.signed else intMax t.width t.signed) % 2 ^ t.width

/-- `r` is the magnitude `x`, above 0, with its sign, rounded to a float type (R45, R47, R49, R52, R54). -/
def RoundsTo (t : FltTy) (c : Ctl) (neg : Bool) (x : ℝ) (r : FRes) : Prop :=
  ∃ lo k : Nat, magnitude t lo ≤ x ∧ x < magnitude t (lo + 1) ∧
    Selects c neg lo ((x - magnitude t lo) / (magnitude t (lo + 1) - magnitude t lo)) k ∧ r.dz = false ∧
    if t.inf ≤ k then Overflows t c neg r ∧ r.causes = [0x23]
    else r.bits = t.sign neg + k ∧ r.nv = false ∧ r.of_ = false ∧ r.causes = [] ∧ (r.nx = true ↔ x ≠ magnitude t lo) ∧
      (r.uf = true ↔ x ≠ magnitude t lo ∧ Tiny t c neg x)

/-- `r` is the magnitude `x` with its sign rounded to an integer type (R45, R49, R52, R55). -/
def RoundsToInt (t : IntTy) (c : Ctl) (neg : Bool) (x : ℝ) (r : FRes) : Prop :=
  ∃ lo k : Nat, lo ≤ x ∧ x < lo + 1 ∧ Selects c neg lo (x - lo) k ∧ r.dz = false ∧
    let v : ℤ := if neg then -k else k
    if v < intMin t.width t.signed ∨ intMax t.width t.signed < v then OverflowsInt t c neg r ∧ r.causes = [0x23]
    else (r.bits : ℤ) = v % 2 ^ t.width ∧ r.nv = false ∧ r.of_ = false ∧ r.uf = false ∧ r.causes = [] ∧ (r.nx = true ↔ x ≠ lo)

/-- The patterns of a float type that are NaN. -/
def nanPattern (t : FltTy) (b : Nat) : Bool := decide (t.inf < b % 2 ^ (t.width - 1))

/-- The order of the patterns that are not NaN, with -0 below +0 (R129). -/
def patternOrder (t : FltTy) (b : Nat) : ℤ :=
  if b / 2 ^ (t.width - 1) % 2 = 1 then -(b % 2 ^ (t.width - 1) : Nat) - 1 else (b % 2 ^ (t.width - 1) : Nat)

/-- No set of lanes is held at an LJOIN of the word's group. -/
def NoJoins (e : WEnv) (b : State) : Prop := (getGroup b e.core e.grp).joins = []

end Sys2Proof.Machine
end

