-- ==== Sys2Proof/Certificates/Slice0/Obligations.lean ====
section
/-!
DEFINITION. Certificates/Slice0/Obligations.lean: the statements for the provers, each from the numbered rules of the spec or
from the sections it names.
-/
section Statements
open Sys2Proof Sys2Proof.Machine

/-- IALU (R103): the result of every member in every sub-element, modulo 2^w; no other register, predicate, flag, log, queue
or byte of memory changes. IALUI (R104, R85): the IALU result with imm8 in every sub-element, signed for ADDI and MOVI,
unsigned for the others. -/
def Obligations.IaluResults : Prop :=
  (∀ (d : Reg) (a b : Src) (t : IntTy),
     let m2 : WMeta := { ops := [a, b], dst := [d] }
     let m1 : WMeta := { ops := [a], dst := [d] }
     let w := t.width
     let x := fun (e : WEnv) (s : State) (l j : Nat) => subVal (e.src s l a) t j
     let y := fun (e : WEnv) (s : State) (l j : Nat) => subVal (e.src s l b) t j
     let ua := fun (e : WEnv) (s : State) (l j : Nat) => subBits (e.src s l a) w j
     let c := fun (e : WEnv) (s : State) (l j : Nat) => subBits (e.src s l b) w j
     IntsAre (.add d a b t) m2 d w (fun e s l j => x e s l j + y e s l j) ∧
     IntsAre (.sub d a b t) m2 d w (fun e s l j => x e s l j - y e s l j) ∧
     IntsAre (.mul d a b t) m2 d w (fun e s l j => x e s l j * y e s l j) ∧
     IntsAre (.mulh d a b t) m2 d w (fun e s l j => x e s l j * y e s l j / 2 ^ w) ∧
     IntsAre (.min d a b t) m2 d w (fun e s l j => min (x e s l j) (y e s l j)) ∧
     IntsAre (.max d a b t) m2 d w (fun e s l j => max (x e s l j) (y e s l j)) ∧
     IntsAre (.abs d a t) m1 d w (fun e s l j => |x e s l j|) ∧
     IntsAre (.neg d a t) m1 d w (fun e s l j => -x e s l j) ∧
     WordIs (.and d a b t) m2 d (fun e s l => e.src s l a &&& e.src s l b) ∧
     WordIs (.or d a b t) m2 d (fun e s l => e.src s l a ||| e.src s l b) ∧
     WordIs (.xor d a b t) m2 d (fun e s l => e.src s l a ^^^ e.src s l b) ∧
     WordIs (.andn d a b t) m2 d (fun e s l => e.src s l a &&& ~~~e.src s l b) ∧
     IntsAre (.shl d a b t) m2 d w (fun e s l j => if w ≤ c e s l j then 0 else ua e s l j * 2 ^ c e s l j) ∧
     IntsAre (.shr d a b t) m2 d w (fun e s l j => if w ≤ c e s l j then 0 else ua e s l j / 2 ^ c e s l j) ∧
     IntsAre (.sar d a b t) m2 d w (fun e s l j => sgn w (ua e s l j) / 2 ^ min (c e s l j) (w - 1)) ∧
     SubsAre (.rol d a b t) m2 d w (fun e s l j n =>
       ∀ i < w, n.testBit ((i + c e s l j) % w) = (ua e s l j).testBit i) ∧
     SubsAre (.clz d a t) m1 d w (fun e s l j n => n ≤ w ∧ ua e s l j < 2 ^ (w - n) ∧ (n < w → 2 ^ (w - n - 1) ≤ ua e s l j)) ∧
     SubsAre (.popc d a t) m1 d w (fun e s l j n => n = ((List.range w).filter fun i => (ua e s l j).testBit i).length) ∧
     IntsAre (.adds d a b t) m2 d w (fun e s l j => max (intMin w t.signed) (min (x e s l j + y e s l j) (intMax w t.signed))) ∧
     IntsAre (.subs d a b t) m2 d w (fun e s l j => max (intMin w t.signed) (min (x e s l j - y e s l j) (intMax w t.signed))) ∧
     IntsAre (.avg d a b t) m2 d w (fun e s l j => (x e s l j + y e s l j + 1) / 2) ∧
     SubsAre (.brev d a t) m1 d w (fun e s l j n => ∀ i < w, n.testBit (w - 1 - i) = (ua e s l j).testBit i) ∧
     SubsAre (.bswap d a t) m1 d w (fun e s l j n =>
       ∀ i < w / 8, n / 2 ^ (8 * (w / 8 - 1 - i)) % 256 = ua e s l j / 2 ^ (8 * i) % 256)) ∧
  (∀ (d : Reg) (a : Src) (v : BitVec 8) (t : IntTy),
     let m1 : WMeta := { ops := [a], dst := [d] }
     let w := t.width
     let x := fun (e : WEnv) (s : State) (l j : Nat) => subVal (e.src s l a) t j
     let ua := fun (e : WEnv) (s : State) (l j : Nat) => subBits (e.src s l a) w j
     IntsAre (.addi d a v t) m1 d w (fun e s l j => x e s l j + v.toInt) ∧
     SubsAre (.andi d a v t) m1 d w (fun e s l j n => n = ua e s l j &&& v.toNat) ∧
     SubsAre (.ori d a v t) m1 d w (fun e s l j n => n = ua e s l j ||| v.toNat) ∧
     SubsAre (.xori d a v t) m1 d w (fun e s l j n => n = ua e s l j ^^^ v.toNat) ∧
     IntsAre (.shli d a v t) m1 d w (fun e s l j => if w ≤ v.toNat then 0 else ua e s l j * 2 ^ v.toNat) ∧
     IntsAre (.shri d a v t) m1 d w (fun e s l j => if w ≤ v.toNat then 0 else ua e s l j / 2 ^ v.toNat) ∧
     IntsAre (.sari d a v t) m1 d w (fun e s l j => sgn w (ua e s l j) / 2 ^ min v.toNat (w - 1)) ∧
     IntsAre (.movi d v t) { dst := [d] } d w (fun _ _ _ _ => v.toInt))

/-- Compares (R105, R106, R131): the condition must hold in every sub-element, and the combine joins it with the predicate's
old value; only the predicate changes. Predicate words (R110, R162): the predicate written, and that nothing else changes;
WTOP writes all eight. -/
def Obligations.ComparesAndPredicates : Prop :=
  (∀ (p : Fin 8) (a b : Src) (t : IntTy) (u : FltTy) (v : BitVec 8) (c : Comb) (k : ICond) (f : FCond),
     let old := fun (e : WEnv) (s : State) (l : Nat) => predOf (e.lane s l) p
     let join := fun (new old : Bool) => match c with
       | .set => new
       | .and => new && old
       | .or => new || old
     let holds := fun (x y : Int) => match k with
       | .eq => decide (x = y)
       | .ne => decide (x ≠ y)
       | .lt => decide (x < y)
       | .le => decide (x ≤ y)
       | .gt => decide (x > y)
       | .ge => decide (x ≥ y)
     let imm : Int := if t.signed then v.toInt else v.toInt % 2 ^ t.width
     PredIs (.icmp p a b t c k) { ops := [a, b] } p (fun e s l => join
       ((List.range (64 / t.width)).all fun j => holds (subVal (e.src s l a) t j) (subVal (e.src s l b) t j)) (old e s l)) ∧
     PredIs (.icmpi p a v t k) { ops := [a] } p (fun e s l =>
       (List.range (64 / t.width)).all fun j => holds (subVal (e.src s l a) t j) imm) ∧
     PredIs (.fcmp p a b u c f) { ops := [a, b] } p (fun e s l => join
       ((List.range (64 / u.width)).all fun j => fcond f (subFlt u (e.src s l a) j) (subFlt u (e.src s l b) j)) (old e s l))) ∧
  (∀ (d p q : Fin 8) (a : Src),
     let v := fun (e : WEnv) (s : State) (l : Nat) (x : Fin 8) => predOf (e.lane s l) x
     PredIs (.pand d p q) {} d (fun e s l => v e s l p && v e s l q) ∧
     PredIs (.por d p q) {} d (fun e s l => v e s l p || v e s l q) ∧
     PredIs (.pxor d p q) {} d (fun e s l => v e s l p ^^ v e s l q) ∧
     PredIs (.pnot d p) {} d (fun e s l => !v e s l p) ∧
     PredIs (.voteAny d p) {} d (fun e s _ => (List.range 32).any fun i => bit e.act i && v e s i p) ∧
     PredIs (.voteAll d p) {} d (fun e s _ => (List.range 32).all fun i => !bit e.act i || v e s i p) ∧
     Effect (.wtop a) { ops := [a] } (fun e b t => OnlyLanes e b t ∧
       (∀ l, { e.lane t l with p := (e.lane b l).p } = e.lane b l) ∧
       ∀ l, bit e.act l = true → ∀ x : Fin 8, predOf (e.lane t l) x = bit (e.src b l a) x)) ∧
  (∀ (t : FltTy) (x y : Nat) (f : FCond), x < 2 ^ t.width → y < 2 ^ t.width →
     let un := nanPattern t x || nanPattern t y
     let val := fun (b : Nat) => if patternOrder t b < 0 then patternOrder t b + 1 else patternOrder t b
     fcond f (fval t x) (fval t y) = match f with
       | .eq => !un && decide (val x = val y)
       | .ne => un || decide (val x ≠ val y)
       | .lt => !un && decide (val x < val y)
       | .le => !un && decide (val x ≤ val y)
       | .gt => !un && decide (val x > val y)
       | .ge => !un && decide (val x ≥ val y)
       | .un => un
       | .ord => !un)

/-- MOVE and PTOW (R107, R108, R110): the register written, and that nothing else changes, but FSTAT.NV where PACK clamps.
-/
def Obligations.MoveResults : Prop :=
  ∀ (d : Reg) (a b : Src) (p : Fin 8) (t : IntTy),
    let m2 : WMeta := { ops := [a, b], dst := [d] }
    let m1 : WMeta := { ops := [a], dst := [d] }
    let w := t.width
    let half := 32 / w
    let pair := fun (e : WEnv) (s : State) (l j : Nat) =>
      if j < half then subBits (e.src s l a) (2 * w) j else subBits (e.src s l b) (2 * w) (j - half)
    let val := fun (n : Nat) => if t.signed then sgn (2 * w) n else (n : Int)
    let clamp := fun (x : Int) => max (intMin w t.signed) (min x (intMax w t.signed))
    let pos := fun (e : WEnv) (s : State) (l : Nat) => (e.src s l b).toNat % 64
    let len := fun (e : WEnv) (s : State) (l : Nat) =>
      if w ≤ pos e s l ∨ (e.src s l b).toNat / 256 % 64 = 0 then 0
      else min ((e.src s l b).toNat / 256 % 64) (w - pos e s l)
    let field := fun (e : WEnv) (s : State) (l j : Nat) => subBits (e.src s l a) w j / 2 ^ pos e s l % 2 ^ len e s l
    WordIs (.mov d a) m1 d (fun e s l => e.src s l a) ∧
    WordIs (.sel d a b p) m2 d (fun e s l => if predOf (e.lane s l) p then e.src s l a else e.src s l b) ∧
    WordIs (.ptow d) { dst := [d] } d (fun e s l => (e.lane s l).p.zeroExtend 64) ∧
    (t.wide = false →
      IntsAre (.extw d a t) m1 d (2 * w) (fun e s l j => subVal (e.src s l a) t j) ∧
      IntsAre (.unpk d a t) m1 d (2 * w) (fun e s l j => subVal (e.src s l a) t (j + half)) ∧
      IntsAre (.trunc d a b t) m2 d w (fun e s l j => pair e s l j) ∧
      Effect (.pack d a b t) m2 (fun e b' t' => OnlyReg true d e b' t' ∧ ∀ l, bit e.act l = true →
        (∀ j < 64 / w, (subBits (readReg (e.lane t' l) d) w j : Int) = clamp (val (pair e b' l j)) % 2 ^ w) ∧
        (e.lane t' l).fstat = (e.lane b' l).fstat |||
          if ∃ j < 64 / w, clamp (val (pair e b' l j)) ≠ val (pair e b' l j) then 0x10 else 0)) ∧
    IntsAre (.bfx d a b t) m2 d w (fun e s l j =>
      if t.signed ∧ 0 < len e s l then sgn (len e s l) (field e s l j) else field e s l j) ∧
    SubsAre (.bfi d a b t) { ops := [.reg d, a, b], dst := [d] } d w (fun e s l j n => ∀ i < w,
      n.testBit i = if pos e s l ≤ i ∧ i < pos e s l + len e s l then (subBits (e.src s l a) w j).testBit (i - pos e s l)
        else (subBits (readReg (e.lane s l) d) w j).testBit i)

/-- Rounding float words (R50, R128, R130, R132 to R134, R165): each element is the exact result rounded with the element's
own controls; FSTAT, and under TRAP the arithmetic log, take what the elements raise (R125, R126). What these exact results and
their rounding are, over the reals: a pattern stands for its value (R40 to R43); sums, products, fused sums and FDOT are
exact, with the signs of zero results (R44, R61, R128, R130, R165); a value that lies between two neighbours is rounded to the one that the mode
selects, with NX, UF, the stochastic rule and the overflow policies (R45, R47, R49, R52 to R55), and a quotient by a scale is rounded
once (R56, R135); the random word is that of R48. -/
def Obligations.FloatResults : Prop :=
  (∀ (d : Reg) (a b : Src) (t : FltTy) (dst src : NumTy) (u : FltTy),
    let m1 : WMeta := { ops := [a], dst := [d], accMode := true, accPol := true }
    let m2 : WMeta := { ops := [a, b], dst := [d], accMode := true, accPol := true }
    let m3 : WMeta := { ops := [.reg d, a, b], dst := [d], accMode := true, accPol := true }
    let n := 64 / t.width
    let x := fun (e : WEnv) (s : State) (l j : Nat) => subFlt t (e.src s l a) j
    let y := fun (e : WEnv) (s : State) (l j : Nat) => subFlt t (e.src s l b) j
    let z := fun (e : WEnv) (s : State) (l j : Nat) => subFlt t (readReg (e.lane s l) d) j
    let rnd := fun (e : WEnv) (s : State) (l j : Nat) (v : Exact) => rndExact t (e.ctl s l j) v
    let rm := fun (e : WEnv) => e.mode.getD .rne
    let half := fun (e : WEnv) (s : State) (l k : Nat) (o : Src) => subFlt .f16 (e.src s l o) k
    RoundedIs (.fadd d a b t) m2 d t.width n (fun e s l j => rnd e s l j (addVal (rm e) (x e s l j) (y e s l j))) ∧
    RoundedIs (.fsub d a b t) m2 d t.width n (fun e s l j => rnd e s l j (addVal (rm e) (x e s l j) (y e s l j).negate)) ∧
    RoundedIs (.fmul d a b t) m2 d t.width n (fun e s l j => rnd e s l j (mulVal (x e s l j) (y e s l j))) ∧
    RoundedIs (.fma d a b t) m3 d t.width n
      (fun e s l j => rnd e s l j (fmaVal (rm e) (x e s l j) (y e s l j) (z e s l j))) ∧
    RoundedIs (.fms d a b t) m3 d t.width n
      (fun e s l j => rnd e s l j (fmaVal (rm e) (x e s l j) (y e s l j) (z e s l j).negate)) ∧
    RoundedIs (.fnma d a b t) m3 d t.width n
      (fun e s l j => rnd e s l j (fmaVal (rm e) (x e s l j).negate (y e s l j) (z e s l j))) ∧
    RoundedIs (.fnms d a b t) m3 d t.width n
      (fun e s l j => rnd e s l j (fmaVal (rm e) (x e s l j).negate (y e s l j) (z e s l j).negate)) ∧
    RoundedIs (.cvt d a dst src) m1 d (numWidth dst) (min (64 / numWidth src) (64 / numWidth dst))
      (fun e s l j => rndNum dst (e.ctl s l j) (subNum src (e.src s l a) j)) ∧
    RoundedIs (.cvs d a b dst u) m2 d (numWidth dst) (min (64 / u.width) (64 / numWidth dst)) (fun e s l j =>
      match dst with
      | .int v => cvsInt v.width v.signed (e.ctl s l j) (subFlt u (e.src s l a) j) (subFlt u (e.src s l b) j)
      | .flt v => cvsFlt v (e.ctl s l j) (subFlt u (e.src s l a) j) (subFlt u (e.src s l b) j)) ∧
    RoundedIs (.srq d a b dst u) { ops := [a, b], dst := [d], accPol := true } d (numWidth dst)
      (min (64 / u.width) (64 / numWidth dst)) (fun e s l j => rndNum dst
        { mode := .rs, pol := e.pol.getD .inf, rand := rand16 (launchOf s e.core).seed (e.src s l b + wd j) }
        (subFlt u (e.src s l a) j)) ∧
    RoundedIs (.fdotF16 d a b) m3 d 32 2 (fun e s l k => rndExact .f32 (e.ctl s l k) (fdotVal (rm e)
      (half e s l (2 * k) a) (half e s l (2 * k) b) (half e s l (2 * k + 1) a) (half e s l (2 * k + 1) b)
      (subFlt .f32 (readReg (e.lane s l) d) k)))) ∧
  (∀ (t : FltTy) (n : Bool) (k : Nat), k < 2 ^ (t.width - 1) →
     let v := fval t (t.sign n + k)
     (k < t.inf → v.Is ((if n then -1 else 1) * magnitude t k) ∧ v.neg = n) ∧ (k = t.inf → v = .inf n) ∧ (t.inf < k → v = .nan)) ∧
  (∀ (r : Round) (v w u y z : FVal) (a b c d e : ℝ), v.Is a → w.Is b → u.Is c → y.Is d → z.Is e →
     (∃ x, addVal r v w = some x ∧ x.Is (a + b) ∧
       (a + b = 0 → x.neg = if a = 0 ∧ b = 0 ∧ v.neg = w.neg then v.neg else decide (r = .rd))) ∧
     (∃ x, mulVal v w = some x ∧ x.Is (a * b) ∧ x.neg = (v.neg != w.neg)) ∧
     (∃ x, fmaVal r v w u = some x ∧ x.Is (a * b + c) ∧ (a * b + c = 0 → x.neg =
       if a * b = 0 ∧ c = 0 ∧ (v.neg != w.neg) = u.neg then u.neg else decide (r = .rd))) ∧
     (∃ x, fdotVal r v w u y z = some x ∧ x.Is (a * b + c * d + e) ∧ (a * b + c * d + e = 0 → x.neg =
       if a * b = 0 ∧ c * d = 0 ∧ e = 0 ∧ (v.neg != w.neg) = z.neg ∧ (u.neg != y.neg) = z.neg then z.neg else decide (r = .rd)))) ∧
  (∀ (r : Round) (v : FVal) (i j : Bool) (a : ℝ), v.Is a →
     addVal r .nan v = some .nan ∧ addVal r v .nan = some .nan ∧ addVal r .nan (.inf i) = some .nan ∧ addVal r (.inf i) .nan = some .nan ∧
     addVal r (.inf i) v = some (.inf i) ∧ addVal r v (.inf i) = some (.inf i) ∧
     addVal r (.inf i) (.inf j) = (if i = j then some (.inf i) else none) ∧
     mulVal .nan v = some .nan ∧ mulVal v .nan = some .nan ∧ mulVal .nan (.inf i) = some .nan ∧ mulVal (.inf i) .nan = some .nan ∧
     mulVal (.inf i) v = (if a = 0 then none else some (.inf (i != v.neg))) ∧
     mulVal v (.inf i) = (if a = 0 then none else some (.inf (i != v.neg))) ∧ mulVal (.inf i) (.inf j) = some (.inf (i != j)) ∧
     ∀ x y z, fmaVal r x y z = (mulVal x y).bind fun p => addVal r p z) ∧
  (∀ (t : FltTy) (v : IntTy) (c : Ctl) (n : Bool) (m : Nat) (e : ℤ),
     (0 < m → RoundsTo t c n (m * 2 ^ e) (rndExact t c (some (.num n m e))) ∧ rndNum (.flt t) c (.num n m e) = rndExact t c (some (.num n m e))) ∧
     RoundsToInt v c n (m * 2 ^ e) (rndNum (.int v) c (.num n m e)) ∧
     (∀ r ∈ [rndExact t c (some (.num n 0 e)), rndNum (.flt t) c (.num n 0 e)], r = FRes.exact (t.sign n)) ∧
     (∀ r ∈ [rndExact t c (some (.inf n)), rndNum (.flt t) c (.inf n)], r = FRes.exact (t.sign n + t.inf)) ∧
     (∀ r ∈ [rndExact t c (some .nan), rndNum (.flt t) c .nan], r = FRes.exact t.nan) ∧
     rndExact t c none = { FRes.exact t.nan with nv := true, causes := [0x21] } ∧
     rndNum (.int v) c .nan = { FRes.exact (2 ^ (v.width - 1)) with nv := true, causes := [0x21] } ∧
     OverflowsInt v c n (rndNum (.int v) c (.inf n)) ∧ (rndNum (.int v) c (.inf n)).dz = false ∧
     (rndNum (.int v) c (.inf n)).causes = [0x23]) ∧
  (∀ (t : FltTy) (v : IntTy) (c : Ctl) (x y : FVal) (i j : Bool) (a b : ℝ), x.Is a → y.Is b →
     let toInt := cvsInt v.width v.signed c
     let nanInt : FRes := { FRes.exact (2 ^ (v.width - 1)) with nv := true, causes := [0x21] }
     let nanFlt : FRes := { FRes.exact t.nan with nv := true, causes := [0x21] }
     let s := x.neg != y.neg
     (a ≠ 0 → b ≠ 0 → RoundsTo t c s (|a| / |b|) (cvsFlt t c x y) ∧ RoundsToInt v c s (|a| / |b|) (toInt x y)) ∧
     (a = 0 → b ≠ 0 → cvsFlt t c x y = FRes.exact (t.sign s) ∧ toInt x y = FRes.exact 0) ∧
     (a ≠ 0 → b = 0 → Overflows t c s (cvsFlt t c x y) ∧ (cvsFlt t c x y).dz = true ∧ (cvsFlt t c x y).causes = [0x22, 0x23] ∧
       OverflowsInt v c s (toInt x y) ∧ (toInt x y).dz = true ∧ (toInt x y).causes = [0x22, 0x23]) ∧
     (a = 0 → b = 0 → cvsFlt t c x y = nanFlt ∧ toInt x y = nanInt) ∧
     cvsFlt t c (.inf i) (.inf j) = nanFlt ∧ toInt (.inf i) (.inf j) = nanInt ∧
     cvsFlt t c (.inf i) y = FRes.exact (t.sign (i != y.neg) + t.inf) ∧ OverflowsInt v c (i != y.neg) (toInt (.inf i) y) ∧
     (toInt (.inf i) y).dz = false ∧ (toInt (.inf i) y).causes = [0x23] ∧
     cvsFlt t c x (.inf i) = FRes.exact (t.sign (x.neg != i)) ∧ toInt x (.inf i) = FRes.exact 0 ∧
     ∀ z, cvsFlt t c .nan z = FRes.exact t.nan ∧ cvsFlt t c z .nan = FRes.exact t.nan ∧ toInt .nan z = nanInt ∧ toInt z .nan = nanInt) ∧
  (∀ (seed idx : Word),
     let mul := fun (x k : Nat) => x * k % 2 ^ 64
     let fold := fun (x n : Nat) => x ^^^ (x / 2 ^ n)
     rand16 seed idx = fold (mul (fold (mul (fold ((seed.toNat + mul idx.toNat 0x9E3779B97F4A7C15) % 2 ^ 64) 32) 0xA3B195C4E72D1F0B) 29)
       0x8E5C2B7FD14936A5) 32 / 2 ^ 48)

/-- Exact float words (R129): minimum, maximum and the sign-bit words; no FSTAT bit, no record; the minimum and the maximum of two
patterns, NaN where either is one, are the lower and the higher in the order that puts -0 below +0. Integer DOT words (R164): the
prior value of each half, or of the register, plus the exact sum of products, modulo the width. -/
def Obligations.ExactFloatsAndDots : Prop :=
  (∀ (d : Reg) (a b : Src) (t : FltTy),
     let m2 : WMeta := { ops := [a, b], dst := [d] }
     let m1 : WMeta := { ops := [a], dst := [d] }
     let w := t.width
     let x := fun (e : WEnv) (s : State) (l j : Nat) => subBits (e.src s l a) w j
     let y := fun (e : WEnv) (s : State) (l j : Nat) => subBits (e.src s l b) w j
     SubsAre (.fmin d a b t) m2 d w (fun e s l j n => n = fminBits t (x e s l j) (y e s l j) % 2 ^ w) ∧
     SubsAre (.fmax d a b t) m2 d w (fun e s l j n => n = fmaxBits t (x e s l j) (y e s l j) % 2 ^ w) ∧
     SubsAre (.fabs d a t) m1 d w (fun e s l j n => ∀ i < w,
       n.testBit i = if i = w - 1 then false else (x e s l j).testBit i) ∧
     SubsAre (.fneg d a t) m1 d w (fun e s l j n => ∀ i < w,
       n.testBit i = if i = w - 1 then !(x e s l j).testBit i else (x e s l j).testBit i) ∧
     SubsAre (.fcpys d a b t) m2 d w (fun e s l j n => ∀ i < w,
       n.testBit i = if i = w - 1 then (y e s l j).testBit i else (x e s l j).testBit i)) ∧
  (∀ (d : Reg) (a b : Src),
     let m3 : WMeta := { ops := [.reg d, a, b], dst := [d] }
     let u := fun (w : Nat) (x : Word) (j : Nat) => (subBits x w j : Int)
     let i := fun (w : Nat) (x : Word) (j : Nat) => sgn w (subBits x w j)
     let sum := fun (w n : Nat) (f g : Nat → Word → Nat → Int) (e : WEnv) (s : State) (l k : Nat) =>
       (subBits (readReg (e.lane s l) d) (w * n) k : Int) +
         ∑ j ∈ Finset.range n, f w (e.src s l a) (n * k + j) * g w (e.src s l b) (n * k + j)
     IntsAre (.dotI8 d a b) m3 d 32 (sum 8 4 i i) ∧
     IntsAre (.dotN8 d a b) m3 d 32 (sum 8 4 u u) ∧
     IntsAre (.dotIn8 d a b) m3 d 32 (sum 8 4 i u) ∧
     IntsAre (.dotI4 d a b) m3 d 32 (sum 4 8 i i) ∧
     IntsAre (.dotN4 d a b) m3 d 32 (sum 4 8 u u) ∧
     IntsAre (.dotI16 d a b) m3 d 64 (sum 16 4 i i)) ∧
  (∀ (t : FltTy) (x y : Nat), x < 2 ^ t.width → y < 2 ^ t.width →
     fminBits t x y = (if nanPattern t x || nanPattern t y then t.nan else if patternOrder t x ≤ patternOrder t y then x else y) ∧
     fmaxBits t x y = (if nanPattern t x || nanPattern t y then t.nan else if patternOrder t x ≤ patternOrder t y then y else x))

/-- SFU words (R25, R136, R127): the word becomes outstanding under its flag with the values, FSTAT bits and records that its
completion will deliver; no lane changes at issue. DIV and REM (R109, R25) where no lane has a zero divisor with DZTRAP set:
the quotient truncated toward zero, the remainder with the sign of the dividend; a zero divisor gives all ones, or the
dividend, sets IDZ in its lanes and logs them once. -/
def Obligations.LongLatencyIssue : Prop :=
  (∀ (d : Reg) (a b : Src) (t : FltTy) (f : FlagSel),
     let w := t.width
     let n := 64 / w
     let x := fun (e : WEnv) (s : State) (l j : Nat) => subFlt t (e.src s l a) j
     let y := fun (e : WEnv) (s : State) (l j : Nat) => subFlt t (e.src s l b) j
     let issues := fun (i : Instr) (ops : List Src) (g : WEnv → State → Nat → Nat → FRes) =>
       Effect i { ops := ops, dst := [d], flag := some f, accMode := true, accPol := true } fun e s t' =>
         ∃ o, Outstanding e s t' o ∧ o.kind = .sfu ∧ e.flag f = some o.flag ∧ o.dst = d ∧ o.mask = e.act ∧ o.drop = 0 ∧
           (∀ l, bit e.act l = true → ∃ v, spFind o.vals l = some v ∧
             (∀ j, j < n → subBits v w j = (g e s l j).bits % 2 ^ w) ∧
             spGet 0 o.fst l = wd ((List.range n).foldl (fun x j => x ||| (g e s l j).fstat) 0)) ∧
           o.recs = (if e.pol = some .trap then ([0x21, 0x22, 0x23] : List Byte) else []).filterMap fun k =>
             let names := maskOf 32 (e.lanes.filter fun l => (List.range n).any fun j => (g e s l j).causes.contains k)
             if names = 0 then none else some (e.logRec s k names)
     issues (.rcp d a t f) [a] (fun e s l j => sfuOne .rcp t (e.ctl s l j) (x e s l j)) ∧
     issues (.rsq d a t f) [a] (fun e s l j => sfuOne .rsq t (e.ctl s l j) (x e s l j)) ∧
     issues (.sqrt d a t f) [a] (fun e s l j => sfuOne .sqrt t (e.ctl s l j) (x e s l j)) ∧
     issues (.exp2 d a t f) [a] (fun e s l j => sfuOne .exp2 t (e.ctl s l j) (x e s l j)) ∧
     issues (.log2 d a t f) [a] (fun e s l j => sfuOne .log2 t (e.ctl s l j) (x e s l j)) ∧
     issues (.sinpi d a t f) [a] (fun e s l j => sfuOne .sinpi t (e.ctl s l j) (x e s l j)) ∧
     issues (.cospi d a t f) [a] (fun e s l j => sfuOne .cospi t (e.ctl s l j) (x e s l j)) ∧
     issues (.fdiv d a b t f) [a, b] (fun e s l j => divFlt t (e.ctl s l j) (x e s l j) (y e s l j))) ∧
  (∀ (t : FltTy) (c : Ctl) (x y : FVal) (i : Bool) (a b : ℝ), x.Is a → y.Is b →
     let one := FRes.exact (t.bias * 2 ^ t.frac)
     let invalid : FRes := { FRes.exact t.nan with nv := true, causes := [0x21] }
     let divZero := fun (n : Bool) => { FRes.exact (t.sign n + t.inf) with dz := true, causes := [0x22] }
     let f := fun (op : SfuOp) => sfuOne op t c
     (a ≠ 0 → RoundsTo t c x.neg (1 / |a|) (f .rcp x)) ∧ (0 < a → RoundsTo t c false (√a) (f .sqrt x)) ∧
     (0 < a → RoundsTo t c false (1 / √a) (f .rsq x)) ∧
     (a ≠ 0 → b ≠ 0 → RoundsTo t c (x.neg != y.neg) (|a| / |b|) (divFlt t c x y)) ∧
     (a = 0 → f .rcp x = divZero x.neg ∧ f .rsq x = divZero x.neg ∧ f .log2 x = divZero true ∧ f .sqrt x = FRes.exact (t.sign x.neg) ∧
       f .exp2 x = one ∧ f .sinpi x = FRes.exact (t.sign x.neg) ∧ f .cospi x = one) ∧
     (a < 0 → f .sqrt x = invalid ∧ f .rsq x = invalid ∧ f .log2 x = invalid) ∧ (a = 1 → f .log2 x = FRes.exact 0) ∧
     (∀ k : ℤ, (a = k → k ≠ 0 → f .sinpi x = FRes.exact (t.sign x.neg) ∧
         (f .cospi x = if k % 2 = 0 then one else FRes.exact (t.sign true + t.bias * 2 ^ t.frac))) ∧
       (a = k + 1 / 2 → f .cospi x = FRes.exact 0 ∧
         (f .sinpi x = if k % 2 = 0 then one else FRes.exact (t.sign true + t.bias * 2 ^ t.frac)))) ∧
     f .rcp (.inf i) = FRes.exact (t.sign i) ∧ f .sqrt (.inf i) = (if i then invalid else FRes.exact t.inf) ∧
     f .rsq (.inf i) = (if i then invalid else FRes.exact 0) ∧ f .exp2 (.inf i) = FRes.exact (if i then 0 else t.inf) ∧
     f .log2 (.inf i) = (if i then invalid else FRes.exact t.inf) ∧ f .sinpi (.inf i) = invalid ∧ f .cospi (.inf i) = invalid ∧
     (∀ op, f op .nan = FRes.exact t.nan) ∧ divFlt t c .nan x = FRes.exact t.nan ∧ divFlt t c x .nan = FRes.exact t.nan ∧
     (a ≠ 0 → b = 0 → divFlt t c x y = divZero (x.neg != y.neg)) ∧ (a = 0 → b = 0 → divFlt t c x y = invalid) ∧
     (a = 0 → b ≠ 0 → divFlt t c x y = FRes.exact (t.sign (x.neg != y.neg))) ∧
     (∀ j, divFlt t c (.inf i) (.inf j) = invalid) ∧ divFlt t c x (.inf i) = FRes.exact (t.sign (x.neg != i)) ∧
     divFlt t c (.inf i) y = FRes.exact (t.sign (i != y.neg) + t.inf)) ∧
  (∀ (d : Reg) (a b : Src) (t : IntTy) (f : FlagSel),
     let w := t.width
     let x := fun (e : WEnv) (s : State) (l j : Nat) => subVal (e.src s l a) t j
     let y := fun (e : WEnv) (s : State) (l j : Nat) => subVal (e.src s l b) t j
     let zero := fun (e : WEnv) (s : State) (l : Nat) => (List.range (64 / w)).any fun j => decide (y e s l j = 0)
     let issues := fun (i : Instr) (v : WEnv → State → Nat → Nat → Int) =>
       EffectIf i { ops := [a, b], dst := [d], flag := some f }
         (fun e s => e.act ≠ 0 ∧ ∀ l, bit e.act l = true → zero e s l = true → bit (e.lane s l).fstat 16 = false)
         fun e s t' => ∃ o, Outstanding e s t' o ∧ o.kind = .idiv ∧ e.flag f = some o.flag ∧ o.dst = d ∧ o.mask = e.act ∧
           o.drop = 0 ∧
           (∀ l, bit e.act l = true → ∃ r, spFind o.vals l = some r ∧
             (∀ j, j < 64 / w → (subBits r w j : Int) = v e s l j % 2 ^ w) ∧
             spGet 0 o.fst l = if zero e s l then 0x20 else 0) ∧
           o.recs = if e.lanes.any (zero e s) then [e.logRec s 0x20 (maskOf 32 (e.lanes.filter (zero e s)))] else []
     issues (.div d a b t f) (fun e s l j => if y e s l j = 0 then -1 else (x e s l j).tdiv (y e s l j)) ∧
     issues (.rem d a b t f) (fun e s l j =>
       if y e s l j = 0 then x e s l j else x e s l j - (x e s l j).tdiv (y e s l j) * y e s l j))

/-- LD and LDX (R19, R25, R82, R111, R112) where every lane's access passes: read-only or read-write segment, within the
limit, naturally aligned. The word becomes outstanding with the little-endian value read at issue, zero- or sign-extended: each
byte is the scratchpad's, or, where an engine operation has drained it and no MWAIT has acquired it, that or, for a finite time
(R249), the byte it replaced (R252; a byte seen new stays new, R248). That a load otherwise reads the scratchpad as it stands at
its issue, in step order, is the model's choice (log entry 65): case 1 of R250, which the spec allows, is left out. ST and STX (R9, R82, R112, R245) where every lane's access passes: each byte
of the scratchpad holds what the highest lane that stores to it wrote there, and every other byte of memory and every register
stays; the marks of races follow the bytes stored (R252; how they are kept is the model's choice, log entry 65). -/
def Obligations.LoadsAndStores : Prop :=
  (∀ (d : Reg) (base x : Src) (v : BitVec 8) (seg : Fin 4) (f : FlagSel) (z : LdSize),
     let n := match z with
       | .n8 | .i8 => 1
       | .n16 | .i16 => 2
       | .n32 | .i32 => 4
       | .b64 => 8
     let ext := fun (u : Nat) => match z with
       | .i8 | .i16 | .i32 => BitVec.ofInt 64 (sgn (8 * n) u)
       | .n8 | .n16 | .n32 | .b64 => BitVec.ofNat 64 u
     let issues := fun (i : Instr) (ops : List Src) (off : WEnv → State → Nat → Word) =>
       EffectIf i { ops := ops, dst := [d], flag := some f, phase := .restricted }
         (fun e s => e.act ≠ 0 ∧ (segKind (e.segVal s seg) = 1 ∨ segKind (e.segVal s seg) = 2) ∧
           ∀ l, bit e.act l = true → (off e s l).toNat + n ≤ segLimit (e.segVal s seg) ∧ n ∣ (off e s l).toNat)
         fun e s t =>
           let x := getCore s e.core
           let addr := fun l => segBase (e.segVal s seg) + (off e s l).toNat
           let read := fun p => ∃ l, bit e.act l = true ∧ addr l ≤ p ∧ p < addr l + n
           ∃ o, Outstanding e (modCore s e.core fun x => raceMarks x (getCore t e.core)) t o ∧ o.kind = .load ∧
             e.flag f = some o.flag ∧ o.dst = d ∧ o.mask = e.act ∧ o.drop = 0 ∧ o.fst = [] ∧ o.recs = [] ∧
             (getCore t e.core).eng.raced = x.eng.raced ∧
             ∃ byte : Nat → Byte,
               (∀ p, byte p = memGet x.spad p ∨ ∃ u, spFind x.eng.unseen p = some u ∧ s.ticks < u.until_ ∧ byte p = u.old) ∧
               (∀ l, bit e.act l = true → spFind o.vals l = some (ext (∑ i ∈ Finset.range n, (byte (addr l + i)).toNat * 256 ^ i))) ∧
               ∀ p, spFind (getCore t e.core).eng.unseen p = spFind x.eng.unseen p ∨
                 spFind (getCore t e.core).eng.unseen p = none ∧ read p ∧ byte p = memGet x.spad p
     issues (.ld d base v seg f z) [base] (fun e s l => e.src s l base + wd (v.toNat * n)) ∧
     issues (.ldx d base x seg f z) [base, x] (fun e s l => e.src s l base + e.src s l x)) ∧
  (∀ (v base x : Src) (imm : BitVec 8) (seg : Fin 4) (z : StSize),
     let n := match z with
       | .b8 => 1
       | .b16 => 2
       | .b32 => 4
       | .b64 => 8
     let stores := fun (i : Instr) (ops : List Src) (off : WEnv → State → Nat → Word) =>
       EffectIf i { ops := ops, phase := .restricted }
         (fun e s => segKind (e.segVal s seg) = 2 ∧
           ∀ l, bit e.act l = true → (off e s l).toNat + n ≤ segLimit (e.segVal s seg) ∧ n ∣ (off e s l).toNat)
         fun e s t =>
           let addr := fun l => segBase (e.segVal s seg) + (off e s l).toNat
           let x := getCore s e.core
           WithSpad Quiet e s t ∧
           (∀ p, memGet (getCore t e.core).spad p =
             match (e.lanes.filter fun l => decide (addr l ≤ p ∧ p < addr l + n)).getLast? with
             | some l => BitVec.ofNat 8 ((e.src s l v).toNat / 256 ^ (p - addr l))
             | none => memGet x.spad p) ∧
           (∀ p, spFind (getCore t e.core).eng.unseen p =
             if e.lanes.any fun l => decide (addr l ≤ p ∧ p < addr l + n) then none else spFind x.eng.unseen p) ∧
           ∃ marks, (getCore t e.core).eng.raced = marks ++ x.eng.raced ∧
             (∀ r ∈ marks, x.eng.queue ≠ [] ∧ r.upto = x.eng.issued ∧
               ∃ l, bit e.act l = true ∧ addr l ≤ r.addr ∧ r.addr < addr l + n) ∧
             (x.eng.queue ≠ [] → ∀ l p, bit e.act l = true → addr l ≤ p → p < addr l + n →
               ∃ r ∈ marks, r.addr = p ∧ r.old = memGet x.spad p)
     stores (.st v base imm seg z) [v, base] (fun e s l => e.src s l base + wd (imm.toNat * n)) ∧
     stores (.stx v base x seg z) [v, base, x] (fun e s l => e.src s l base + e.src s l x))

/-- Atomics (R166 to R168) where every lane's access passes: lanes act in ascending number, each reads the aligned word,
writes the new value and receives the old one; nothing else changes besides the marks of races (R252). That an atomic acts on the
scratchpad as it stands at its issue, over a drained byte that no MWAIT has acquired too, so that it never sees what the drain
replaced, and how the marks are kept, is the model's choice (log entry 65). -/
def Obligations.AtomicResults : Prop :=
  ∀ (d : Reg) (a b : Src) (t : IntTy) (seg : Fin 3),
    let w := t.width
    let acts := fun (i : Instr) (reads : List Src) (r : Word → Word → Word → Word → Prop) =>
      EffectIf i { ops := [a, b] ++ reads, dst := [d], phase := .restricted }
        (fun e s => segKind (e.segVal s seg) = 2 ∧
          ∀ l, bit e.act l = true → (e.src s l a).toNat + 8 ≤ segLimit (e.segVal s seg) ∧ 8 ∣ (e.src s l a).toNat)
        fun e s t =>
          let addr := fun l => segBase (e.segVal s seg) + (e.src s l a).toNat
          WithSpad (OnlyReg false d) e s t ∧
          ∃ new : Nat → Word,
            let before := fun l => (e.lanes.filter fun k => decide (k < l)).foldl
              (fun m k => memStore m (addr k) 8 (new k).toNat) (getCore s e.core).spad
            (∀ l, bit e.act l = true → (readReg (e.lane t l) d).toNat = memRead (before l) (addr l) 8 ∧
              r (readReg (e.lane t l) d) (e.src s l b) (readReg (e.lane s l) d) (new l)) ∧
            (getCore t e.core).spad =
              e.lanes.foldl (fun m k => memStore m (addr k) 8 (new k).toNat) (getCore s e.core).spad
    let ints := fun (g : Int → Int → Int) (old y _p new : Word) =>
      ∀ j, j < 64 / w → (subBits new w j : Int) = g (subVal old t j) (subVal y t j) % 2 ^ w
    acts (.aadd d a b t seg) [] (ints fun x y => x + y) ∧
    acts (.amin d a b t seg) [] (ints fun x y => min x y) ∧
    acts (.amax d a b t seg) [] (ints fun x y => max x y) ∧
    acts (.aand d a b t seg) [] (fun old y _ new => new = old &&& y) ∧
    acts (.aor d a b t seg) [] (fun old y _ new => new = old ||| y) ∧
    acts (.axor d a b t seg) [] (fun old y _ new => new = old ^^^ y) ∧
    acts (.axchg d a b t seg) [] (fun _ y _ new => new = y) ∧
    acts (.acas d a b t seg) [.reg d] (fun old y p new => ∀ j, j < 64 / w → subBits new w j =
      if subBits old w j = subBits p w j then subBits y w j else subBits old w j)

/-- LANE shuffles and ballots (R155, R159, R162): every source is read before any lane is written; a source lane that does not
issue the word gives zero. Integer and exact float scans and reductions (R43, R62, R160): the five steps of R160 over the 32
lanes, or those of R62, a lane that does not issue the word holding the identity; a float result that is a NaN is the
canonical NaN. -/
def Obligations.ShufflesAndScans : Prop :=
  (∀ (d : Reg) (a b : Src) (t : IntTy) (p : Fin 8),
     let m2 : WMeta := { ops := [a, b], dst := [d] }
     let w := t.width
     let m := 64 / w
     let from' := fun (e : WEnv) (s : State) (l j : Nat) => if bit e.act l then subBits (e.src s l a) w j else 0
     SubsAre (.lshf d a b t) m2 d w (fun e s i j n =>
       let sel := subBits (e.src s i b) w j
       n = from' e s (sel % 32) (sel / 32 % m)) ∧
     SubsAre (.lrot d a b t) m2 d w (fun e s i j n =>
       let at' := (i * m + j + (e.src s i b).toNat % (32 * m)) % (32 * m)
       n = from' e s (at' / m) (at' % m)) ∧
     SubsAre (.lbcst d a b t) m2 d w (fun e s _ _ n =>
       ∃ q, bit e.act q = true ∧ (∀ k < q, bit e.act k = false) ∧
         n = from' e s ((e.src s q b).toNat % 32) ((e.src s q b).toNat / 32 % m)) ∧
     WordIs (.ballot d p) { dst := [d] } d (fun e s _ =>
       BitVec.ofNat 64 ((e.lanes.filter fun k => predOf (e.lane s k) p).map (2 ^ ·)).sum) ∧
     WordIs (.lpopc d p) { dst := [d] } d (fun e s _ =>
       BitVec.ofNat 64 (e.lanes.filter fun k => predOf (e.lane s k) p).length)) ∧
  (∀ (d : Reg) (a : Src) (t : IntTy) (u : FltTy),
     let m1 : WMeta := { ops := [a], dst := [d] }
     let scan := fun (op : Nat → Nat → Nat) (v : Nat → Nat) (i : Nat) =>
       let step := fun (dist : Nat) (v : Nat → Nat) (i : Nat) => if dist ≤ i then op (v (i - dist)) (v i) else v i
       step 16 (step 8 (step 4 (step 2 (step 1 v)))) i
     let red := fun (op : Nat → Nat → Nat) (v : Nat → Nat) =>
       let step := fun (dist : Nat) (v : Nat → Nat) (i : Nat) => op (v i) (v (i + dist))
       step 1 (step 2 (step 4 (step 8 (step 16 v)))) 0
     let canon := fun (n : Nat) => if (fval u n).isNan then u.nan else n
     let all := fun (sc rd : Instr) (w ident : Nat) (op : Nat → Nat → Nat) (out : Nat → Nat) =>
       let v := fun (e : WEnv) (s : State) (j i : Nat) => if bit e.act i then subBits (e.src s i a) w j else ident
       SubsAre sc m1 d w (fun e s i j n => n = out (scan op (v e s j) i)) ∧
         SubsAre rd m1 d w (fun e s _ j n => n = out (red op (v e s j)))
     let w := t.width
     let val := fun (x : Nat) => if t.signed then sgn w x else (x : Int)
     all (.lscanAdd d a t) (.lredAdd d a t) w 0 (fun x y => (x + y) % 2 ^ w) id ∧
     all (.lscanMin d a t) (.lredMin d a t) w (if t.signed then 2 ^ (w - 1) - 1 else 2 ^ w - 1)
       (fun x y => if val x ≤ val y then x else y) id ∧
     all (.lscanMax d a t) (.lredMax d a t) w (if t.signed then 2 ^ (w - 1) else 0)
       (fun x y => if val x ≤ val y then y else x) id ∧
     all (.lscanAnd d a t) (.lredAnd d a t) w (2 ^ w - 1) (fun x y => x &&& y) id ∧
     all (.lscanOr d a t) (.lredOr d a t) w 0 (fun x y => x ||| y) id ∧
     all (.lscanXor d a t) (.lredXor d a t) w 0 (fun x y => x ^^^ y) id ∧
     all (.lscanFmin d a u) (.lredFmin d a u) u.width u.inf (fun x y => fminBits u x y % 2 ^ u.width) canon ∧
     all (.lscanFmax d a u) (.lredFmax d a u) u.width (2 ^ (u.width - 1) + u.inf) (fun x y => fmaxBits u x y % 2 ^ u.width) canon)

/-- Float sums over the lanes (R43, R62, R126, R160, R161): each step rounded with the index of the lane it writes; a NaN is
delivered as the canonical one; the bits that any step raises reach FSTAT of every lane, and under TRAP each cause is logged
once with every lane named. -/
def Obligations.FloatScanResults : Prop :=
  ∀ (d : Reg) (a : Src) (t : FltTy),
    let w := t.width
    let canon := fun (n : Nat) => if (fval t n).isNan then t.nan else n
    let rnd := fun (e : WEnv) (s : State) (j i x y : Nat) =>
      let base := match e.ix with
        | some r => if bit e.act i then e.src s i r else wd (8 * i)
        | none => wd (8 * i)
      rndExact t { mode := e.mode.getD .rne, pol := e.pol.getD .inf, rand := rand16 (launchOf s e.core).seed (base + wd j) }
        (addVal (e.mode.getD .rne) (fval t x) (fval t y))
    let v0 := fun (e : WEnv) (s : State) (j i : Nat) => if bit e.act i then subBits (e.src s i a) w j else 2 ^ (w - 1)
    let scan := fun (e : WEnv) (s : State) (j dist : Nat) (v : Nat → Nat) (i : Nat) =>
      if dist ≤ i then (rnd e s j i (v (i - dist)) (v i)).bits else v i
    let s1 := fun (e : WEnv) (s : State) (j : Nat) => scan e s j 1 (v0 e s j)
    let s2 := fun (e : WEnv) (s : State) (j : Nat) => scan e s j 2 (s1 e s j)
    let s4 := fun (e : WEnv) (s : State) (j : Nat) => scan e s j 4 (s2 e s j)
    let s8 := fun (e : WEnv) (s : State) (j : Nat) => scan e s j 8 (s4 e s j)
    let red := fun (e : WEnv) (s : State) (j dist : Nat) (v : Nat → Nat) (i : Nat) => (rnd e s j i (v i) (v (i + dist))).bits
    let r16 := fun (e : WEnv) (s : State) (j : Nat) => red e s j 16 (v0 e s j)
    let r8 := fun (e : WEnv) (s : State) (j : Nat) => red e s j 8 (r16 e s j)
    let r4 := fun (e : WEnv) (s : State) (j : Nat) => red e s j 4 (r8 e s j)
    let r2 := fun (e : WEnv) (s : State) (j : Nat) => red e s j 2 (r4 e s j)
    let scanned := fun (e : WEnv) (s : State) (j : Nat) =>
      [(1, v0 e s j), (2, s1 e s j), (4, s2 e s j), (8, s4 e s j), (16, s8 e s j)].flatMap fun r =>
        ((List.range 32).filter fun i => decide (r.1 ≤ i)).map fun i => rnd e s j i (r.2 (i - r.1)) (r.2 i)
    let reduced := fun (e : WEnv) (s : State) (j : Nat) =>
      [(16, v0 e s j), (8, r16 e s j), (4, r8 e s j), (2, r4 e s j), (1, r2 e s j)].flatMap fun r =>
        (List.range r.1).map fun i => rnd e s j i (r.2 i) (r.2 (i + r.1))
    let all := fun (i : Instr) (steps : WEnv → State → Nat → List FRes) (v : WEnv → State → Nat → Nat → Nat) =>
      Effect i { ops := [a], dst := [d], accMode := true, accPol := true } fun e s t' =>
        let rs := (List.range (64 / w)).flatMap (steps e s)
        let logged := if e.pol = some .trap then
          ([0x21, 0x22, 0x23] : List Byte).filter fun k => rs.any fun r => r.causes.contains k else []
        OnlyReg true d e (logged.foldl (fun s' k => e.post s' (e.logRec s k e.act)) s) t' ∧
        ∀ l, bit e.act l = true →
          (∀ j, j < 64 / w → subBits (readReg (e.lane t' l) d) w j = canon (v e s l j) % 2 ^ w) ∧
          (e.lane t' l).fstat = (e.lane s l).fstat ||| wd (rs.foldl (fun x r => x ||| r.fstat) 0)
    all (.lscanFadd d a t) scanned (fun e s l j => scan e s j 16 (s8 e s j) l) ∧
    all (.lredFadd d a t) reduced (fun e s _ j => red e s j 1 (r2 e s j) 0)

/-- Branches (R83, R114, R115): each lane that issues the word takes its next PC, the target or, with none, the fall-through
header; CALL also writes w39; nothing else changes. Register jumps (R116, R343): a lane whose target is not a multiple of 4,
or is 2^20 or more, faults at the word with access kind fetch; the others take the target as their next PC, JR clearing HFLT
and CALLR writing the fall-through header. -/
def Obligations.BranchesAndJumps : Prop :=
  (∀ (p : Fin 8) (disp : BitVec 20),
     let target := fun (e : WEnv) => e.pc + 4 * disp
     let goes := fun (i : Instr) (f : WEnv → State → Nat → Option Offset) => Effect i { ctl := true } fun e b t =>
       OnlyLanes e b t ∧ ∀ l, bit e.act l = true → e.lane t l = { e.lane b l with npc := f e b l }
     let vote := fun (e : WEnv) (c : Prop) [Decidable c] => if c then some (target e) else none
     goes (.brDiv p disp) (fun e b l => vote e (predOf (e.lane b l) p = true)) ∧
     goes (.brAny p disp) (fun e b _ => vote e ((e.lanes.any fun k => predOf (e.lane b k) p) = true)) ∧
     goes (.brAll p disp) (fun e b _ => vote e ((e.lanes.all fun k => predOf (e.lane b k) p) = true)) ∧
     goes (.brNone p disp) (fun e b _ => vote e ((e.lanes.any fun k => predOf (e.lane b k) p) = false)) ∧
     goes (.jmp disp) (fun e _ _ => some (target e)) ∧
     Effect (.call disp) { ctl := true, dst := [.w 39] } fun e b t => OnlyLanes e b t ∧ ∀ l, bit e.act l = true →
       e.lane t l = { writeReg (e.lane b l) (.w 39) (wd e.cl.fall.toNat) with npc := some (target e) }) ∧
  (∀ (d : Reg) (a : Src),
     let cause := fun (v : Word) => if v.toNat % 4 ≠ 0 then some (0x04 : Byte) else if 2 ^ 20 ≤ v.toNat then some 0x03 else none
     let jumps := fun (i : Instr) (src : Src) (dst : List Reg) (f : WEnv → Lane → Lane) =>
       EffectIf i { ops := [src], dst := dst, ctl := true } NoJoins fun e b t => ∀ l, e.lane t l =
         if bit e.act l then
           match cause (e.src b l src) with
           | some c => parkedAt e (launchOf b e.core).handle c 3 (e.src b l src) (e.lane b l)
           | none => { f e (e.lane b l) with npc := some (BitVec.ofNat 20 (e.src b l src).toNat) }
         else e.lane b l
     let frame := fun (i : Instr) (src : Src) (dst : List Reg) =>
       EffectIf i { ops := [src], dst := dst, ctl := true }
         (fun e b => ∀ l, bit e.act l = true → cause (e.src b l src) = none) OnlyLanes
     jumps (.jr a) a [] (fun _ x => { x with hflt := false }) ∧ frame (.jr a) a [] ∧
     jumps (.callr d a) a [d] (fun e x => writeReg x d (wd e.cl.fall.toNat)) ∧ frame (.callr d a) a [d] ∧
     jumps .ret (.reg (.w 39)) [] (fun _ x => x) ∧ frame .ret (.reg (.w 39)) [])

/-- TRAP and BRK (R117, R337 to R343): every lane that issues the word is parked at it with the code as its address, BRK never
sent to a handler. With room in the log and a stable clock, the records name the lanes: those whose HFLT is clear, sent to the
handler by TRAP under policy HANDLE and else parked, and those that HFLT parks, whose record has DOUBLE; under HANDLE a BRK also
posts a kind-3 event. Words whose operands fail their checks park the lanes concerned, with cause, access kind and address, and
have no effect on them: LD, ST and ATOM (R19), DIV and REM under DZTRAP (R109), SEGLD and PWRP (R119, R120), SWR and XQSET (R34,
R118, R215, R282), exchange words (R267, R268), barriers (R171), matrix operations, AWIT, AEMIT and ACLOSE (R314, R323 to R325), the
timeline words (R318, R320, R326). That XCPY's destination is checked before its source (log entry 22), that the fault of a refused
SEGLD has ADDR 0 (log entry 21), and the bound on BASE by which a SEGLD is refused (log entry 23) are the model's reading. -/
def Obligations.SoftwareTraps : Prop :=
  (∀ (code : BitVec 8) (s : State) (k : Clause) (i : Instr) (cause : Byte),
     (i = .trap code ∧ cause = 0x08) ∨ (i = .brk code ∧ cause = 0x09) →
     Issues { ctl := true } s k → NoJoins (envOf s k) (atEffect s k) →
     let e := envOf s k
     let b := atEffect s k
     let f := (getCore b e.core).flog
     let used := (f.tail - f.head).toNat
     let handle := (launchOf b e.core).handle
     let clear := maskOf 32 (e.lanes.filter fun l => !(e.lane b l).hflt)
     let doubled := maskOf 32 (e.lanes.filter fun l => (e.lane b l).hflt)
     let die := getDie b (dieOf e.core)
     let base := fld die.evqCtl 31 0
     let depth := qwDepth die.evqCtl
     ∃ t, exec i s = .next t ∧ Parks (fun _ => some (cause, 0, BitVec.ofNat 64 code.toNat)) e b t ∧
       let log := (getCore t e.core).flog
       let holds := fun (n : BitVec 8) (mask : LaneMask) (double : Bool) =>
         ∃ r, spFind log.slots (n.toNat % 16) = some (.lane r) ∧ r.cause = cause ∧ r.group = e.grp ∧ r.double = double ∧
           r.handler = (handle && decide (cause = 0x08) && !double) ∧ r.access = 0 ∧ r.mask = mask ∧ r.pc = e.pc ∧
           r.clause = e.cl.hdr ∧ r.fall = e.cl.fall ∧ r.addr = BitVec.ofNat 64 code.toNat ∧ r.word = e.bits s ∧
           r.phase = (partOf b e.core).phase ∧ r.time = b.time
       (die.transition = false → ((getGroup b e.core e.grp).lanes.map (·.1)).Nodup →
         (clear ≠ 0 → doubled = 0 → used < 16 → log.tail = f.tail + 1 ∧ holds f.tail clear false) ∧
         (clear = 0 → doubled ≠ 0 → used < 16 → log.tail = f.tail + 1 ∧ holds f.tail doubled true) ∧
         (clear ≠ 0 → doubled ≠ 0 → used < 15 →
           log.tail = f.tail + 2 ∧ holds f.tail clear false ∧ holds (f.tail + 1) doubled true) ∧
         (cause = 0x09 → handle = true → e.act ≠ 0 → used < 15 → qCount die.mcMem base depth < depth →
           ∃ ev, ev.kind = 3 ∧ ev.cause = 0x09 ∧ ev.die = dieOf e.core ∧ ev.core = e.core % 128 ∧
             ev.phase = (partOf b e.core).phase ∧ ev.time = b.time ∧
             ev.arg = wd (code.toNat * 2 ^ 40 + e.grp * 2 ^ 32 + e.act.toNat) ∧
             memBytes (getDie t (dieOf e.core)).mcMem (qSlot base depth 32 (qTail die.mcMem base)) 32 = eventBytes ev))) ∧
  (∀ (d : Reg) (base x : Src) (off : BitVec 8) (seg : Fin 4) (seg' : Fin 3) (f : FlagSel) (lz : LdSize) (sz : StSize) (t : IntTy)
     (a b : Src) (n : Fin 16) (c : Fin 8) (q : SReg) (dt : DrainTy) (p : Fin 8),
     let F := Option (Byte × Nat × Word)
     let faults := fun (i : Instr) (g : WEnv → State → Nat → F) =>
       ∀ m, metaOf i = some m → EffectIf i m NoJoins fun e s u => Faults (g e s) e s u
     let all := fun (i : Instr) (bad : WEnv → State → Word → Bool) (k : Byte) =>
       faults i fun e s _ => if bad e s (e.src s e.low a) then some (k, 0, 0) else none
     let access := fun (x : Word) (n kind : Nat) (v : Word) =>
       if segKind x = 0 ∨ segKind x = 3 ∨ segKind x = 1 ∧ kind = 2 ∨ segLimit x < v.toNat + n then some ((0x03 : Byte), kind, v)
       else if v.toNat % n ≠ 0 then some (0x04, kind, v) else none
     let mem := fun (i : Instr) (seg n kind : Nat) (v : WEnv → State → Nat → Word) =>
       faults i fun e s l => access (e.segVal s seg) n kind (v e s l)
     let at_ := fun (n : Nat) (e : WEnv) (s : State) (l : Nat) => e.src s l base + wd (off.toNat * n)
     let ix := fun (e : WEnv) (s : State) (l : Nat) => e.src s l base + e.src s l x
     let ld := LdSize.bytes lz
     let st := StSize.bytes sz
     let atom := fun (i : Instr) => mem i seg' 8 2 fun e s l => e.src s l a
     let zero := fun (i : Instr) => faults i fun e s l =>
       if (List.range (64 / t.width)).any (fun j => decide (subVal (e.src s l b) t j = 0)) && bit (e.lane s l).fstat 16
       then some (0x07, 0, 0) else none
     let sc := fun (e : WEnv) (s : State) => e.scoped s
     let queue := fun (e : WEnv) (s : State) (others : List Word) (esz1 : Bool) (v : Word) => !queueOk (e.codeSegs s) others esz1 v
     let low := fun (i : Instr) (ok : State → Nat → Bool) => faults i fun e s _ =>
       let co := getCore s e.core
       if ok s (e.src s e.low a).toNat = false then some (0x01, 0, 0)
       else if qwDepth co.xq ≤ qCount co.spad (qwBase co.xq) (qwDepth co.xq) then some (0x06, 0, 0) else none
     let index := fun (s : State) (v : Nat) => decide (v < 2 ^ 20) && decide (v < ttCount s)
     let misused := fun (e : WEnv) (s : State) (v : Word) =>
       let co := getCore s e.core
       let count := v.toNat % 16
       decide (count = 0) || decide (co.ngroups < count) || (spFind co.bars n).any fun z => decide (z.count ≠ count)
     let block := fun (len : Nat) (v : Word) =>
       if 0xC0000 < v.toNat + len then some ((0x03 : Byte), 1, v) else if v.toNat % 16 ≠ 0 then some (0x04, 1, v) else none
     let op := fun (i : Instr) => faults i fun e s _ => block 80 (e.src s e.low a)
     mem (.ld d base off seg f lz) seg ld 1 (at_ ld) ∧ mem (.ldx d base x seg f lz) seg ld 1 ix ∧
     mem (.st a base off seg sz) seg st 2 (at_ st) ∧ mem (.stx a base x seg sz) seg st 2 ix ∧
     atom (.aadd d a b t seg') ∧ atom (.amin d a b t seg') ∧ atom (.amax d a b t seg') ∧ atom (.aand d a b t seg') ∧
     atom (.aor d a b t seg') ∧ atom (.axor d a b t seg') ∧ atom (.axchg d a b t seg') ∧ atom (.acas d a b t seg') ∧
     zero (.div d a b t f) ∧ zero (.rem d a b t f) ∧
     all (.segld a seg) (fun e s v => !segsOk fun j => if j = seg.val then v else e.segVal s j) 0x03 ∧
     all (.pwrp a) (fun _ _ v => decide (2 ^ 48 ≤ v.toNat)) 0x01 ∧
     faults (.swr a .fstat) (fun e s l => if e.src s l a &&& 0xFFFFFFFFFFFEFFC0 ≠ 0 then some (0x01, 0, 0) else none) ∧
     all (.swr a .trapvec) (fun _ _ v => decide (2 ^ 20 ≤ v.toNat) || decide (v.toNat % 4 ≠ 0)) 0x01 ∧
     all (.swr a .alogq) (fun e s v => queue e s [(sc e s).xq, (sc e s).noteq] false v) 0x01 ∧
     all (.swr a .xq) (fun e s v =>
       queueBusy (getCore s e.core) (sc e s).xq || queue e s [(sc e s).alogq, (sc e s).noteq] true v) 0x01 ∧
     all (.swr a .noteq) (fun e s v => queue e s [(sc e s).alogq, (sc e s).xq] true v) 0x01 ∧
     (q ∉ [SReg.fstat, .trapvec, .alogq, .xq, .noteq] → all (.swr a q) (fun _ _ _ => true) 0x01) ∧
     all (.xqset a) (fun e s v => queue e s [(sc e s).alogq, (sc e s).noteq] true v) 0x01 ∧
     low (.xfence a) (fun _ v => decide (v < 2 ^ 17) && decide (v / 2 ^ 8 % 2 ^ 8 = 0)) ∧
     low (.xprom a) (fun _ v => decide (v < 8)) ∧ low (.topen a) index ∧ low (.tseal a) index ∧ low (.xcnt a) (fun _ _ => true) ∧
     all (.bar n a) misused 0x0A ∧ all (.barv n a) misused 0x0A ∧
     op (.mldb d a) ∧ op (.mmaI4 d a) ∧ op (.mmaN4 d a) ∧ op (.mmaI8 d a) ∧ op (.mmaN8 d a) ∧ op (.mmaI16 d a) ∧
     op (.mmaN16 d a) ∧ op (.mconvI4 d a) ∧ op (.mconvN4 d a) ∧ op (.mconvI8 d a) ∧ op (.mconvN8 d a) ∧ op (.mconvI16 d a) ∧
     op (.mconvN16 d a) ∧ op (.mdrain d a dt) ∧ op (.mzero d a) ∧
     faults (.awit d a) (fun e s _ =>
       let co := getCore s e.core
       let v := e.src s e.low a
       let f := fun (o n : Nat) => memRead co.spad (v.toNat + o) n
       match block 48 v with
       | some z => some z
       | none =>
         if f 0 1 < 8 ∧ 1 ≤ f 1 1 ∧ f 1 1 ≤ 5 ∧ (f 1 1 = 5 ↔ f 2 1 ≠ 0) ∧ f 3 1 = 0 ∧ f 0xE 2 = 0 ∧ f 0x1A 2 = 0 ∧
           f 0x26 2 = 0 ∧ f 0x2C 4 = 0 ∧ ∀ k ∈ co.asy.ctxs, k.num = f 0 1 → k.closing = true then none
         else some (0x01, 0, 0)) ∧
     faults (.aemit c a b) (fun e s l => match (getCore s e.core).asy.openCtx c with
       | none => some (0x01, 0, 0)
       | some k =>
         let v := (e.src s l b).toNat
         if k.kind = 1 ∨ v / 4 % 2 ^ 30 ≠ 0 ∨ (if k.kind = 2 then 2 else if k.kind = 3 then 1 else 0) < v % 4 ∨
           ((k.kind = 2 ∨ k.kind = 4) ∧ v / 2 ^ 32 ≠ 0) then some (0x01, 0, 0) else none) ∧
     faults (.aclose d c) (fun e s _ => if (getCore s e.core).asy.openCtx c = none then some (0x01, 0, 0) else none) ∧
     all (.mwait p a) (fun e s v => decide ((getCore s e.core).eng.issued < v.toNat)) 0x01 ∧
     all (.mstat d a) (fun _ _ v => decide (4 ≤ v.toNat)) 0x01 ∧
     all (.await a) (fun e s v => decide ((getCore s e.core).asy.issued < v.toNat)) 0x01) ∧
  (∀ (d a b : Src) (signed : Bool),
     let posts := fun (i : Instr) (op : Nat) (near far : Src) =>
       let second : Option Src := match far with
         | .reg (.w n) => if n.val < 39 then some (.reg (.w (n + 1))) else none
         | _ => none
       let check := fun (e : WEnv) (s : State) (l : Nat) =>
         let ctl := (e.src s l b).toNat
         let len := ctl % 2 ^ 32
         let kind := ctl / 2 ^ 62
         let x := e.src s l near
         let y := e.src s l far
         let y2 := (second.map (e.src s l)).getD 0
         let nearWay := if op = 0 then 2 else 1
         let farWay := if op = 0 then 1 else 2
         let away := if kind = 0 then y else if kind = 1 then y2 else wd (y2.toNat % 2 ^ 46)
         let kinds := if op = 2 then kind = 0 else if op = 0 then kind = 0 ∨ kind = 2 else kind ≤ 2
         let odd := fun (v : Word) => v.toNat % 16 ≠ 0
         if ctl / 2 ^ 54 % 2 ^ 7 ≠ 0 ∨ ctl / 2 ^ 32 % 2 ^ 16 ≠ 0 ∨ ¬ kinds ∨ (op ≠ 9 ∧ ctl / 2 ^ 48 % 64 ≠ 0) ∨
           (ctl / 2 ^ 61 % 2 = 1 ∧ (getCore s e.core).exch.gate = none) ∨ (kind ≠ 0 ∧ second = none) ∨
           (kind = 2 ∧ 2 ^ 48 ≤ y.toNat) then some ((0x01 : Byte), 0, (0 : Word))
         else if op ≠ 2 ∧ 0xC0000 < x.toNat + len then some (0x03, nearWay, x)
         else if kind = 1 ∧ 0xC0000 < y2.toNat + len then some (0x03, farWay, y2)
         else if len % 16 ≠ 0 then some (0x04, 0, wd len)
         else if op = 2 ∧ odd y then some (0x04, 2, y)
         else if odd x then some (0x04, nearWay, x)
         else if op ≠ 2 ∧ odd away then some (0x04, farWay, away)
         else none
       let len := fun (e : WEnv) (s : State) (l : Nat) => (e.src s l b).toNat % 2 ^ 32
       let lanes := fun (e : WEnv) (s : State) => e.lanes.filter fun l => decide (len e s l ≠ 0)
       ∀ m, metaOf i = some m →
         EffectIf i m (fun e s => NoJoins e s ∧
             let co := getCore s e.core
             qCount co.spad (qwBase co.xq) (qwDepth co.xq) + (lanes e s).length ≤ qwDepth co.xq ∧
             co.exch.xpend + sumOf ((lanes e s).map (len e s)) < 2 ^ 32)
           (fun e s u => Faults (fun l => if len e s l = 0 then none else check e s l) e s u) ∧
         EffectIf i m (fun e s => NoJoins e s ∧
             let co := getCore s e.core
             qwDepth co.xq ≤ qCount co.spad (qwBase co.xq) (qwDepth co.xq))
           (fun e s u => Faults (fun l => if len e s l = 0 then none
             else some ((check e s l).getD (0x06, 0, 0))) e s u)
     posts (.xld d a b) 0 d a ∧ posts (.xst d a b) 1 a d ∧ posts (.xcpy d a b) 2 a d ∧ posts (.xredAdd d a b signed) 3 a d ∧
     posts (.xredMin d a b signed) 4 a d ∧ posts (.xredMax d a b signed) 5 a d ∧ posts (.xredAnd d a b signed) 6 a d ∧
     posts (.xredOr d a b signed) 7 a d ∧ posts (.xredXor d a b signed) 8 a d ∧ posts (.xredMadd d a b) 9 a d)

/-- SYS words that complete on every operand they accept (R101, R117, R119, R120, R207): NOP, RESW, KSET, SEGLD, PWRP, each
with the lowest issuing lane's value. HALT, SYNC and SYNC.I (R30, R193, R196, R197): HALT ends its lanes, which have nothing
outstanding; SYNC marks its lanes and syncs the group with its vote; either may be what lets the core leave COMPUTE. -/
def Obligations.SystemWords : Prop :=
  (∀ (a : Src) (k : Fin 16) (n : Fin 4),
     let m : WMeta := { ops := [a] }
     Effect .nop {} Quiet ∧
     Effect (.resw a) m (fun e b t => AllowingPart (fun x y => { x with resw := y.resw }) Quiet e b t ∧
       let key := 8 * (getCore b e.core).lcore + e.grp
       (∀ q, Lowest e q → spFind (partOf t e.core).resw key = some (e.src b q a)) ∧
       ∀ j, j ≠ key → spFind (partOf t e.core).resw j = spFind (partOf b e.core).resw j) ∧
     Effect (.kset k a) m (fun e b t => AllowingGroup (fun x y => { x with k := y.k }) Quiet e b t ∧
       (∀ q, Lowest e q → spGet 0 (getGroup t e.core e.grp).k k = e.src b q a) ∧
       ∀ j, j ≠ k.val → spGet 0 (getGroup t e.core e.grp).k j = spGet 0 (getGroup b e.core e.grp).k j) ∧
     EffectIf (.segld a n) { ops := [a], priv := true, phase := .restricted }
       (fun e b => ∃ q, Lowest e q ∧
         segsOk (fun j => if j = n.val then e.src b q a else e.segVal b j) = true)
       (fun e b t => AllowingGroup (fun x y => { x with seg := y.seg }) Quiet e b t ∧
         (∀ q, Lowest e q → spGet 0 (getGroup t e.core e.grp).seg n = e.src b q a) ∧
         ∀ j, j ≠ n.val → spGet 0 (getGroup t e.core e.grp).seg j = spGet 0 (getGroup b e.core e.grp).seg j) ∧
     EffectIf (.pwrp a) m (fun e b => ∃ q, Lowest e q ∧ (e.src b q a).toNat < 2 ^ 48)
       (fun e b t =>
         Allowing (fun x y => { x with energyNext := y.energyNext, peakNext := y.peakNext }) Quiet e b t ∧
         ∀ q, Lowest e q →
           let lower := fun (launch v : Nat) => if v = 0 then launch else min launch v
           (getCore t e.core).energyNext =
             some (lower (launchOf b e.core).energy ((e.src b q a).toNat / 2 ^ 16 % 2 ^ 32)) ∧
           (getCore t e.core).peakNext = some (lower (launchOf b e.core).peak ((e.src b q a).toNat % 2 ^ 16)))) ∧
  (let leaves := fun (e : WEnv) (b t : State) =>
     (getCore t e.core).pst =
       if (getCore b e.core).pst = .compute then
         (if ((List.range (getCore t e.core).ngroups).all fun g =>
             ((getCore t e.core).group g).synced || (getCore t e.core).groupDone g) then
           (if (getCore b e.core).eng.queue = [] then .synced else .draining)
         else .compute)
       else (getCore t e.core).pst
   let syncs := fun (i : Instr) (v : Bool) =>
     EffectIf i { phase := .sync } (fun e b => (getGroup b e.core e.grp).unreported = 0) fun e b t =>
       Allowing (fun x y => { x with pst := y.pst })
         (AllowingGroup (fun x y => { x with synced := y.synced, vote := y.vote }) OnlyLanes) e b t ∧
       (∀ l, bit e.act l = true → e.lane t l = { e.lane b l with mark := true }) ∧
       (getGroup t e.core e.grp).synced = true ∧ (getGroup t e.core e.grp).vote = v ∧ leaves e b t
   syncs .sync false ∧ syncs .syncI true ∧
   EffectIf .halt { ctl := true, phase := .halt, need := drainNeed true } NoJoins fun e b t =>
     (∀ l, e.lane t l = if bit e.act l then { e.lane b l with cond := .halted } else e.lane b l) ∧
     (∀ o ∈ (getGroup b e.core e.grp).out, o.mask &&& e.act = 0) ∧ leaves e b t)

/-- SRD and SWR (R32, R34, R118, R148, R215): the special register read; the writable ones written. -/
def Obligations.SpecialRegisters : Prop :=
  ∀ (d : Reg) (a : Src) (sel : SReg),
    let shown := fun (q : Word) => q &&& 0x0003FFFF0000FFFF
    Effect (.srd d sel) { dst := [d], need := fstatNeed sel } (fun e b t =>
      let co := getCore b e.core
      let queues : Word × Word × Word := match e.second, b.scope with
        | true, some sc => (sc.alogq, sc.xq, sc.noteq)
        | _, _ => (co.alogq, co.xq, co.noteq)
      (sel = .fstat → ∀ o ∈ (getGroup b e.core e.grp).out, o.kind = .load ∨ o.mask &&& e.act = 0) ∧
      OnlyReg false d e b t ∧ ∀ l, bit e.act l = true → readReg (e.lane t l) d =
        match sel with
        | .group => wd e.grp
        | .core => wd (e.core % 128)
        | .lcore => wd co.lcore
        | .string => wd (e.core % 128 / 4)
        | .die => wd (e.core / 128)
        | .part => wd (co.part.getD 0)
        | .phase => (partOf b e.core).phase
        | .pwrstate => wd co.pwrLatch
        | .mtl => wd co.eng.mtl
        | .atl => wd co.asy.atl
        | .xpend => wd (co.exch.xpend % 2 ^ 32)
        | .arrive => (partOf b e.core).arrive
        | .time => wd b.time
        | .taskid => (partOf b e.core).taskid
        | .world => (launchOf b e.core).keyh
        | .seed => (launchOf b e.core).seed
        | .fstat => (e.lane b l).fstat
        | .alogq => shown queues.1
        | .xq => shown queues.2.1
        | .noteq => shown queues.2.2
        | .seg n => e.segVal b n
        | .trapvec => match e.second, b.scope with
          | true, some sc => sc.trapvec
          | _, _ => (getGroup b e.core e.grp).trapvec) ∧
    EffectIf (.swr a .fstat) { ops := [a], need := drainNeed false }
      (fun e b => ∀ l, bit e.act l = true → e.src b l a &&& 0xFFFFFFFFFFFEFFC0 = 0)
      (fun e b t =>
        OnlyLanes e b t ∧ ∀ l, bit e.act l = true → ∃ v : Word, e.lane t l = { e.lane b l with fstat := v } ∧
          (∀ n < 64, v.getLsbD n = if n < 6 then (e.lane b l).fstat.getLsbD n && !(e.src b l a).getLsbD n
            else if n = 16 then (e.src b l a).getLsbD 16 else (e.lane b l).fstat.getLsbD n)) ∧
    EffectIf (.swr a .trapvec) { ops := [a] }
      (fun e b => ∃ q, Lowest e q ∧ (e.src b q a).toNat < 2 ^ 20 ∧ (e.src b q a).toNat % 4 = 0)
      (fun e b t => AllowingGroup (fun x y => { x with trapvec := y.trapvec }) Quiet e b t ∧
        ∀ q, Lowest e q → (getGroup t e.core e.grp).trapvec = e.src b q a) ∧
    EffectIf (.swr a .alogq) { ops := [a], priv := true, phase := .restricted }
      (fun e b => ∃ q, Lowest e q ∧ queueOk (e.codeSegs b)
        [(e.scoped b).xq, (e.scoped b).noteq] false (e.src b q a) = true)
      (fun e b t => Allowing (fun x y => { x with alogq := y.alogq }) Quiet e b t ∧
        ∀ q, Lowest e q → (getCore t e.core).alogq = e.src b q a) ∧
    EffectIf (.swr a .xq) { ops := [a], priv := true, phase := .restricted }
      (fun e b => ∃ q, Lowest e q ∧ queueBusy (getCore b e.core) (e.scoped b).xq = false ∧
        queueOk (e.codeSegs b) [(e.scoped b).alogq, (e.scoped b).noteq] true (e.src b q a) = true)
      (fun e b t => Allowing (fun x y => { x with xq := y.xq }) Quiet e b t ∧
        ∀ q, Lowest e q → (getCore t e.core).xq = e.src b q a) ∧
    EffectIf (.swr a .noteq) { ops := [a], priv := true, phase := .restricted }
      (fun e b => ∃ q, Lowest e q ∧ queueOk (e.codeSegs b)
        [(e.scoped b).alogq, (e.scoped b).xq] true (e.src b q a) = true)
      (fun e b t => Allowing (fun x y => { x with noteq := y.noteq }) Quiet e b t ∧
        ∀ q, Lowest e q → (getCore t e.core).noteq = e.src b q a)

/-- XLD, XST, XCPY and XRED (R264 to R270) where every lane that posts passes the checks of R267: the lanes post their entries
in ascending number, TAIL, XPEND and, for ADD, XOR and MADD, XTAG move on; nothing else changes, but that every byte drained
so far now shows (R252; that any append acquires them is the model's choice, log entry 65). -/
def Obligations.ExchangePosting : Prop :=
  ∀ (d a b : Src) (signed : Bool),
    let posts := fun (i : Instr) (op ty : Nat) (near far : Src) =>
      let second : Option Src := match far with
        | .reg (.w n) => if n.val < 39 then some (.reg (.w (n + 1))) else none
        | _ => none
      let ctl := fun (e : WEnv) (s : State) (l : Nat) => (e.src s l b).toNat
      let len := fun (e : WEnv) (s : State) (l : Nat) => ctl e s l % 2 ^ 32
      let kind := fun (e : WEnv) (s : State) (l : Nat) => ctl e s l / 2 ^ 62
      let qw := fun (e : WEnv) (s : State) (l : Nat) => ctl e s l / 2 ^ 48 % 64
      let gate := fun (e : WEnv) (s : State) (l : Nat) => bit (e.src s l b) 61
      let x := fun (e : WEnv) (s : State) (l : Nat) => (e.src s l near).toNat
      let y := fun (e : WEnv) (s : State) (l : Nat) => (e.src s l far).toNat
      let y2 := fun (e : WEnv) (s : State) (l : Nat) => ((second.map (e.src s l)).getD 0).toNat
      let lanes := fun (e : WEnv) (s : State) => e.lanes.filter fun l => decide (len e s l ≠ 0)
      let tagged := op = 3 ∨ op = 8 ∨ op = 9
      EffectIf i { ops := [near, far, b] ++ second.toList, phase := .restricted }
        (fun e s =>
          let co := getCore s e.core
          qCount co.spad (qwBase co.xq) (qwDepth co.xq) + (lanes e s).length ≤ qwDepth co.xq ∧
          co.exch.xpend + sumOf ((lanes e s).map (len e s)) < 2 ^ 32 ∧
          ∀ l ∈ lanes e s,
            ctl e s l / 2 ^ 54 % 2 ^ 7 = 0 ∧ ctl e s l / 2 ^ 32 % 2 ^ 16 = 0 ∧ (op ≠ 9 → qw e s l = 0) ∧
            (gate e s l = true → co.exch.gate ≠ none) ∧ (kind e s l ≠ 0 → second ≠ none) ∧
            16 ∣ len e s l ∧ 16 ∣ x e s l ∧ (op ≠ 2 → x e s l + len e s l ≤ 0xC0000) ∧
            (kind e s l = 0 ∧ 16 ∣ y e s l ∨
             kind e s l = 1 ∧ op ≠ 0 ∧ op ≠ 2 ∧ 16 ∣ y2 e s l ∧ y2 e s l + len e s l ≤ 0xC0000 ∨
             kind e s l = 2 ∧ op ≠ 2 ∧ y e s l < 2 ^ 48 ∧ 16 ∣ y2 e s l % 2 ^ 46))
        fun e s t =>
          let co := getCore s e.core
          let entry := fun (n l : Nat) =>
            leBytes 1 op ++ leBytes 1 ty ++ leBytes 1 (kind e s l + if gate e s l then 4 else 0) ++ leBytes 1 (qw e s l) ++
              leBytes 1 (32 * e.grp + l) ++ [0] ++ leBytes 2 (if tagged then co.exch.xtag.toNat + n else 0) ++
              leBytes 4 (len e s l) ++ leBytes 4 (if op = 2 then 0 else x e s l) ++ leBytes 8 (y e s l) ++
              leBytes 8 (if op = 2 then x e s l else if kind e s l = 0 then 0 else y2 e s l)
          let after := (getCore t e.core).exch
          Allowing (fun u v =>
            { u with spad := v.spad, exch := v.exch, eng := { u.eng with unseen := v.eng.unseen } }) Quiet e s t ∧
          (getCore t e.core).eng.unseen = (if lanes e s = [] then co.eng.unseen else []) ∧
          after = { co.exch with xpend := after.xpend, xtag := after.xtag } ∧
          after.xpend = co.exch.xpend + sumOf ((lanes e s).map (len e s)) ∧
          after.xtag = co.exch.xtag + (if tagged then BitVec.ofNat 16 (lanes e s).length else 0) ∧
          (getCore t e.core).spad = (lanes e s).zipIdx.foldl
            (fun m p => qAppend m (qwBase co.xq) (qwDepth co.xq) 32 (entry p.2 p.1)) co.spad
    let ty := if signed then 3 else 7
    posts (.xld d a b) 0 0 d a ∧ posts (.xst d a b) 1 0 a d ∧ posts (.xcpy d a b) 2 0 a d ∧
    posts (.xredAdd d a b signed) 3 ty a d ∧ posts (.xredMin d a b signed) 4 ty a d ∧
    posts (.xredMax d a b signed) 5 ty a d ∧ posts (.xredAnd d a b signed) 6 ty a d ∧
    posts (.xredOr d a b signed) 7 ty a d ∧ posts (.xredXor d a b signed) 8 ty a d ∧ posts (.xredMadd d a b) 9 7 a d

/-- XFENCE, XPROM, TOPEN, TSEAL and XCNT (R268, R270, R277 to R280) where the lowest lane's value passes its check and the
queue has room: one entry; XCNT also sets the core's gate. XQSET (R282) drops every entry and takes the new control word; that
it zeroes only the 12 bytes of the new header, and leaves the slots, is the model's choice (log entry 24). Each lets every byte
drained so far show (R252; the model's choice, log entry 65). -/
def Obligations.ExchangeCommands : Prop :=
  ∀ (a : Src),
    let posts := fun (i : Instr) (priv : Bool) (ok : State → Nat → Prop) (op : Nat) (ctl spad fara : Nat → Nat)
        (gate : Word → Option Word → Option Word) =>
      EffectIf i { ops := [a], priv := priv, phase := .restricted }
        (fun e s =>
          let co := getCore s e.core
          qCount co.spad (qwBase co.xq) (qwDepth co.xq) < qwDepth co.xq ∧ ∃ q, Lowest e q ∧ ok s (e.src s q a).toNat)
        fun e s t =>
          let co := getCore s e.core
          Allowing (fun u v => { u with spad := v.spad, exch := v.exch, eng := u.eng.acquired }) Quiet e s t ∧ ∀ q, Lowest e q →
            let v := (e.src s q a).toNat
            (getCore t e.core).exch = { co.exch with gate := gate (e.src s q a) co.exch.gate } ∧
            (getCore t e.core).spad = qAppend co.spad (qwBase co.xq) (qwDepth co.xq) 32
              (leBytes 1 op ++ [0] ++ leBytes 1 (ctl v) ++ [0] ++ leBytes 1 (32 * e.grp + q) ++ [0, 0, 0] ++
                leBytes 4 0 ++ leBytes 4 (spad v) ++ leBytes 8 (fara v) ++ leBytes 8 0)
    let index := fun (s : State) (v : Nat) => v < 2 ^ 20 ∧ v < ttCount s
    posts (.xfence a) false (fun _ v => v < 2 ^ 17 ∧ v / 2 ^ 8 % 2 ^ 8 = 0) 10 (fun v => 8 * (v / 2 ^ 16)) (fun v => v % 2 ^ 16)
      (fun _ => 0) (fun _ g => g) ∧
    posts (.xprom a) true (fun _ v => v < 8) 11 (fun _ => 0) (fun _ => 0) id (fun _ g => g) ∧
    posts (.topen a) false index 12 (fun _ => 0) (fun _ => 0) id (fun _ g => g) ∧
    posts (.tseal a) false index 13 (fun _ => 0) (fun _ => 0) id (fun _ g => g) ∧
    posts (.xcnt a) false (fun _ _ => True) 14 (fun _ => 0) (fun _ => 0) id (fun v _ => some v) ∧
    EffectIf (.xqset a) { ops := [a], priv := true, phase := .restricted }
      (fun e s => ∃ q, Lowest e q ∧
        queueOk (e.codeSegs s) [(e.scoped s).alogq, (e.scoped s).noteq] true (e.src s q a) = true)
      fun e s t =>
        let co := getCore s e.core
        Allowing (fun u v => { u with spad := v.spad, exch := v.exch, xq := v.xq, eng := u.eng.acquired }) Quiet e s t ∧
        ∀ q, Lowest e q →
          let v := e.src s q a
          let after := getCore t e.core
          after.xq = v ∧
          after.exch = { co.exch with
            gate := none, xpend := co.exch.xpend - sumOf ((xqAll co).map fun p => (getEnt s e.core p).len) } ∧
          ∀ p, memGet after.spad p =
            if qwDepth v ≠ 0 ∧ qwBase v ≤ p ∧ p < qwBase v + 12 then 0 else memGet co.spad p

/-- LJOIN (R119, R170) where no other lanes are held in the group and none waits for the handler: the lanes that the mask
names but that neither issue the word nor are halted or parked decide; with none of them the entry goes on at the next word,
its words fetched through the same SEG3, otherwise it is held. Where lanes are held at that word already, the masks and the
lanes unite, and a later arrival releases them all where the united mask is complete. Either way the clause gives up its port; only where the LJOIN
is the clause's last word does the issue state of the core move on. That an LJOIN always gives up its port is the model's
choice (log entry 53), and so are the second read of the header and the SEG3 and the STAY that go with the entry (log entry
27). BAR and BARV (R171): with a count that the round accepts,
the group has arrived; the last arrival ends the round, lets every entry of the core that waits at the barrier go on, ends the
clauses of other groups whose last word that was (R142), and has the core test its phase state again (R193); an earlier one opens
or joins it and only BAR waits. -/
def Obligations.JoinsAndBarriers : Prop :=
  (∀ (a : Src),
     EffectIf (.ljoin a) { ops := [a] }
       (fun e s =>
         let g := getGroup s e.core e.grp
         NoJoins e s ∧ e.act ≠ 0 ∧ e.cl.len ≤ 24 ∧ g.lanectl = [] ∧
         spadRead s e.core (fld e.cl.seg3 15 0 * 16 + e.cl.hdr.toNat) 4 / 2 ^ 21 % 32 = e.cl.len ∧
         ∀ p ∈ g.lanes, ∀ f, p.2.fault = some f → f.handler = false)
       fun e s t => ∀ q, Lowest e q →
         let m : LaneMask := (e.src s q a).setWidth 32
         let out := (getGroup s e.core e.grp).lanesWhere fun x => decide (x.cond = .halted) || decide (x.cond = .parked)
         let g := getGroup t e.core e.grp
         let stay := e.cl.stay
         Allowing (fun u v => { u with sel := v.sel, cnt := v.cnt })
           (AllowingGroup (fun x y =>
             { x with joins := y.joins, released := y.released, c0 := y.c0, c1 := y.c1, stayLeft := y.stayLeft }) OnlyLanes) e s t ∧
         (e.idx < e.cl.len → (getCore t e.core).sel = (getCore s e.core).sel ∧ (getCore t e.core).cnt = (getCore s e.core).cnt ∧
           g.stayLeft = (getGroup s e.core e.grp).stayLeft) ∧
         g.port (!e.second) = (getGroup s e.core e.grp).port (!e.second) ∧ g.port e.second = none ∧
         if m &&& ~~~e.act &&& ~~~out = 0 then
           g.joins = [] ∧
           if e.idx < e.cl.len then
             (∀ l, bit e.act l = true → e.lane t l = { e.lane s l with cond := .runnable, pc := e.pc }) ∧
             ∃ k, g.released = (getGroup s e.core e.grp).released ++ [k] ∧
               k.hdr = e.cl.hdr ∧ k.len = e.cl.len ∧ k.nxt = e.idx + 1 ∧ k.mask = e.act ∧ k.run = [] ∧ k.wait = .go ∧
               k.seg3 = e.cl.seg3 ∧ k.stay = stay
           else
             g.released = (getGroup s e.core e.grp).released ∧
             ∀ l, bit e.act l = true → e.lane t l = { e.lane s l with cond := .runnable, pc := e.cl.fall }
         else
           g.joins = [{ pos := e.pc, held := e.act, union := m, hdr := e.cl.hdr, seg3 := e.cl.seg3, stay := stay }] ∧
           g.released = (getGroup s e.core e.grp).released ∧
           ∀ l, bit e.act l = true → e.lane t l = { e.lane s l with cond := .held, pc := e.pc }) ∧
  (∀ (a : Src),
     EffectIf (.ljoin a) { ops := [a] }
       (fun e s =>
         let g := getGroup s e.core e.grp
         e.act ≠ 0 ∧ e.idx < e.cl.len ∧ e.cl.len ≤ 24 ∧ g.lanectl = [] ∧
         spadRead s e.core (fld e.cl.seg3 15 0 * 16 + e.cl.hdr.toNat) 4 / 2 ^ 21 % 32 = e.cl.len ∧
         (∀ p ∈ g.lanes, ∀ f, p.2.fault = some f → f.handler = false) ∧
         ∃ j, g.joins = [j] ∧ j.pos = e.pc ∧ ∀ l, bit j.held l = true → (e.lane s l).cond = .held)
       fun e s t => ∀ q j, Lowest e q → (getGroup s e.core e.grp).joins = [j] →
         let before := getGroup s e.core e.grp
         let g := getGroup t e.core e.grp
         let held := j.held ||| e.act
         let m := j.union ||| (e.src s q a).setWidth 32
         let out := before.lanesWhere fun x => decide (x.cond = .halted) || decide (x.cond = .parked)
         OnlyGroup e s t ∧ g.port (!e.second) = before.port (!e.second) ∧ g.port e.second = none ∧
         { g with lanes := before.lanes, joins := before.joins, released := before.released, c0 := before.c0, c1 := before.c1 } =
           before ∧
         if m &&& ~~~held &&& ~~~out = 0 then
           g.joins = [] ∧
           (∀ l, e.lane t l = if bit e.act l then { e.lane s l with cond := .runnable, pc := e.pc }
             else if bit j.held l then { e.lane s l with cond := .runnable } else e.lane s l) ∧
           ∃ k, g.released = before.released ++ [k] ∧ k.hdr = e.cl.hdr ∧ k.len = e.cl.len ∧ k.nxt = e.idx + 1 ∧
             k.mask = held ∧ k.run = [] ∧ k.wait = .go ∧ k.seg3 = e.cl.seg3
         else
           (∃ x, g.joins = [x] ∧ x.pos = e.pc ∧ x.held = held ∧ x.union = m) ∧ g.released = before.released ∧
           ∀ l, e.lane t l = if bit e.act l then { e.lane s l with cond := .held, pc := e.pc } else e.lane s l) ∧
  (∀ (n : Fin 16) (a : Src),
     let count := fun (e : WEnv) (s : State) (q : Nat) => (e.src s q a).toNat % 16
     let before := fun (e : WEnv) (s : State) => match spFind (getCore s e.core).bars n with
       | some b => b.arrived
       | none => 0
     let with_ := fun (e : WEnv) (s : State) => before e s ||| BitVec.ofNat 8 (2 ^ e.grp)
     let arrives := fun (i : Instr) (block : Bool) =>
       EffectIf i { ops := [a], phase := .restricted }
         (fun e s => e.grp < 8 ∧ ∃ q, Lowest e q ∧ 1 ≤ count e s q ∧ count e s q ≤ (getCore s e.core).ngroups ∧
           ∀ b, spFind (getCore s e.core).bars n = some b → b.count = count e s q)
         fun e s t => ∀ q, Lowest e q →
           if ((List.range 8).filter fun g => bit (with_ e s) g).length = count e s q then
             let wake := fun (k : Clause) => if k.wait = .bar n then { k with wait := .go } else k
             let woken := modCore s e.core fun x =>
               { x with bars := spErase x.bars n
                        groups := x.groups.map fun g => (g.1, { g.2 with c0 := g.2.c0.map wake, c1 := g.2.c1.map wake }) }
             ∃ u, { u with scope := s.scope } = { woken with scope := s.scope } ∧
               { t with scope := s.scope } = { retest ((((getCore u e.core).groups.map (·.1)).filter fun g =>
                 decide (g ≠ e.grp)).foldl (fun u g => endClauses u e.core g) u) e.core with scope := s.scope }
           else
             let s' := modCore s e.core fun x =>
               { x with bars := spSet x.bars n { count := count e s q, arrived := with_ e s } }
             { t with scope := s.scope } = if block then modGroup s' e.core e.grp fun g =>
                 g.setPort e.second ((g.port e.second).map fun k => { k with wait := .bar n })
               else s'
     arrives (.bar n a) true ∧ arrives (.barv n a) false)

/-- Matrix operations (R312, R313, R314, R316, R317) on a parameter block that lies in the scratchpad, once they do not stall
on a full queue or a clearing MSTAT: the next number to d, and the operation at the end of the queue with its controls as at
issue. -/
def Obligations.MatrixIssue : Prop :=
  ∀ (d : Reg) (a : Src) (ty : DrainTy),
    let issues := fun (i : Instr) (minor : Nat) (dt : DrainTy) =>
      EffectIf i
        { ops := [a], dst := [d], accMode := decide (dt ≠ .raw), accPol := decide (dt ≠ .raw), phase := .restricted
          need := matNeed (blockOk a 80) }
        (fun e s => ∃ q, Lowest e q ∧ (e.src s q a).toNat + 80 ≤ 0xC0000 ∧ 16 ∣ (e.src s q a).toNat)
        fun e s t =>
          let eng := (getCore s e.core).eng
          let number := eng.issued + 1
          let ctxs := fun (f : AssayCtx → Bool) =>
            ((getCore s e.core).asy.ctxs.filter fun k => !k.closing && f k).foldl (fun m k => spSet m k.num k.uid) []
          Allowing (fun x y => { x with eng := y.eng }) (OnlyReg false d) e s t ∧
          (∀ l, bit e.act l = true → readReg (e.lane t l) d = wd number) ∧
          ∀ q, Lowest e q → (getCore t e.core).eng = { eng with
            issued := number
            queue := eng.queue ++ [{ num := number, minor := minor, drain := dt, block := (e.src s q a).toNat
                                     grp := e.grp, lane := q, pc := e.pc, clause := e.cl.hdr
                                     phase := (partOf s e.core).phase, time := s.time, mode := e.mode.getD .rne
                                     pol := e.pol.getD .inf
                                     ebase := (match e.ix with
                                       | some r => e.src s q r
                                       | none => wd (8 * q))
                                     ctxs := ctxs fun k => decide (k.kind = 1), opened := ctxs fun _ => true }] }
    issues (.mldb d a) 0 .raw ∧ issues (.mmaI4 d a) 1 .raw ∧ issues (.mmaN4 d a) 2 .raw ∧ issues (.mmaI8 d a) 3 .raw ∧
    issues (.mmaN8 d a) 4 .raw ∧ issues (.mmaI16 d a) 5 .raw ∧ issues (.mmaN16 d a) 6 .raw ∧ issues (.mconvI4 d a) 7 .raw ∧
    issues (.mconvN4 d a) 8 .raw ∧ issues (.mconvI8 d a) 9 .raw ∧ issues (.mconvN8 d a) 10 .raw ∧
    issues (.mconvI16 d a) 11 .raw ∧ issues (.mconvN16 d a) 12 .raw ∧ issues (.mdrain d a ty) 13 ty ∧
    issues (.mzero d a) 14 .raw

/-- MWAIT, MSTAT and AWAIT (R318, R320, R326): what the timelines already allow returns at once; otherwise the entry waits.
Entries that wait on a timeline (R318 to R320, R326): MWAIT and AWAIT go on once MTL or ATL has reached the value, MWAIT's
predicate telling whether an operation up to it failed, and the engine's writes now show (R252; that they all do is the model's
choice, log entry 65); a clearing MSTAT, once the queue is empty, reads its register and then
clears ESTAT and FIRSTERR; until then nothing changes. A clause whose last word has so returned has ended (R142). -/
def Obligations.TimelineWords : Prop :=
  (∀ (p : Fin 8) (d : Reg) (a : Src),
     let waits := fun (w : Wait) (e : WEnv) (s t : State) =>
       { t with scope := s.scope } = modGroup s e.core e.grp fun g =>
         g.setPort e.second ((g.port e.second).map fun k => { k with wait := w })
     EffectIf (.mwait p a) { ops := [a], phase := .restricted }
       (fun e s => ∃ q, Lowest e q ∧ (e.src s q a).toNat ≤ (getCore s e.core).eng.issued)
       (fun e s t => ∀ q, Lowest e q →
         let v := e.src s q a
         let eng := (getCore s e.core).eng
         if v.toNat ≤ eng.mtl then
           Allowing (fun x _ => { x with eng := x.eng.acquired }) (OnlyPred p) e s t ∧
           ∀ l, bit e.act l = true → predOf (e.lane t l) p = (decide (eng.firsterr = 0) || decide (v.toNat < eng.firsterr))
         else waits (.mwait v p) e s t) ∧
     EffectIf (.mstat d a) { ops := [a], dst := [d], phase := .restricted }
       (fun e s => ∃ q, Lowest e q ∧ (e.src s q a).toNat < 4)
       (fun e s t => ∀ q, Lowest e q →
         let v := e.src s q a
         let eng := (getCore s e.core).eng
         let read := if bit v 1 then wd eng.firsterr else eng.estat
         if bit v 0 = false then OnlyReg false d e s t ∧ ∀ l, bit e.act l = true → readReg (e.lane t l) d = read
         else if eng.queue = [] then
           Allowing (fun x y => { x with eng := y.eng }) (OnlyReg false d) e s t ∧
           (getCore t e.core).eng = { eng with estat := 0, firsterr := 0 } ∧
           ∀ l, bit e.act l = true → readReg (e.lane t l) d = read
         else waits (.mstat (bit v 1) d) e s t) ∧
     EffectIf (.await a) { ops := [a], phase := .restricted }
       (fun e s => ∃ q, Lowest e q ∧ (e.src s q a).toNat ≤ (getCore s e.core).asy.issued)
       (fun e s t => ∀ q, Lowest e q →
         let v := e.src s q a
         if v.toNat ≤ (getCore s e.core).asy.atl then Quiet e s t else waits (.await v) e s t)) ∧
  (∀ (die : Fin 8) (core : Fin 128) (grp : Fin 8) (second : Bool) (s : State) (k : Clause),
     let c := 128 * die.val + core.val
     let gr := getGroup s c grp
     let en := (getCore s c).eng
     let goes := fun (i : Instr) (b : State) (lane : Nat → Lane → Lane) => ∃ t,
       exec i s = .next (if k.nxt ≤ k.len then t else endClauses t c grp) ∧ OnlyIn c grp b t ∧
       let h := getGroup t c grp
       h.port second = some { k with wait := .go } ∧ h.port (!second) = gr.port (!second) ∧
       { h with lanes := gr.lanes, c0 := gr.c0, c1 := gr.c1 } = gr ∧ ∀ l, h.lane l = lane l (gr.lane l)
     let active := fun (l : Nat) => bit (gr.active k) l
     let keep := fun (_ : Nat) (x : Lane) => x
     gr.port second = some k →
     (∀ v p, k.wait = .mwait v p → v.toNat ≤ en.mtl → goes (.mwaitReturn die core grp second)
       (modCore s c fun x => { x with eng := en.acquired }) fun l x => if active l then setPred x p (decide (en.firsterr = 0) || decide (v.toNat < en.firsterr)) else x) ∧
     (∀ v p, k.wait = .mwait v p → en.mtl < v.toNat → exec (.mwaitReturn die core grp second) s = .next s) ∧
     (∀ v, k.wait = .await v → v.toNat ≤ (getCore s c).asy.atl → goes (.awaitReturn die core grp second) s keep) ∧
     (∀ v, k.wait = .await v → (getCore s c).asy.atl < v.toNat → exec (.awaitReturn die core grp second) s = .next s) ∧
     (∀ first d, k.wait = .mstat first d → (∀ z, gr.port (!second) = some z → ∀ f r, z.wait ≠ .mstat f r) →
       (en.queue = [] → goes (.mstatClearComplete die core grp)
         (modCore s c fun x => { x with eng := { en with estat := 0, firsterr := 0 } }) fun l x =>
           if active l then writeReg x d (if first then wd en.firsterr else en.estat) else x) ∧
       (en.queue ≠ [] → exec (.mstatClearComplete die core grp) s = .next s)))

/-- AWIT, AEMIT and ACLOSE (R313, R321, R323 to R325) once they do not stall on a full assay queue: the context opens,
receives one item for each lane whose descriptor passes, or closes; the command takes the next number. -/
def Obligations.WitnessCommands : Prop :=
  ∀ (d : Reg) (a b : Src) (c : Fin 8),
    let asyOnly := fun (x y : Core) => { x with asy := y.asy }
    EffectIf (.awit d a) { ops := [a], dst := [d], phase := .restricted, need := asyNeed (awitOk a) }
      (fun e s => ∃ q, Lowest e q ∧
        let co := getCore s e.core
        let v := (e.src s q a).toNat
        let f := fun (o n : Nat) => memRead co.spad (v + o) n
        v + 48 ≤ 0xC0000 ∧ 16 ∣ v ∧ f 0 1 < 8 ∧ 1 ≤ f 1 1 ∧ f 1 1 ≤ 5 ∧ (f 1 1 = 5 ↔ f 2 1 ≠ 0) ∧ f 3 1 = 0 ∧
        f 0xE 2 = 0 ∧ f 0x1A 2 = 0 ∧ f 0x26 2 = 0 ∧ f 0x2C 4 = 0 ∧ ∀ k ∈ co.asy.ctxs, k.num = f 0 1 → k.closing = true)
      (fun e s t => Allowing asyOnly (OnlyReg false d) e s t ∧
        (∀ l, bit e.act l = true → readReg (e.lane t l) d = wd ((getCore s e.core).asy.issued + 1)) ∧
        ∀ q, Lowest e q →
          let asy := (getCore s e.core).asy
          let f := fun (o n : Nat) => memRead (getCore s e.core).spad ((e.src s q a).toNat + o) n
          ∃ k, (getCore t e.core).asy = { asy with
              ctxs := asy.ctxs ++ [k], queue := asy.queue ++ [.awit k.uid], issued := asy.issued + 1
              nextUid := asy.nextUid + 1 } ∧
            k.uid = asy.nextUid ∧ k.num = f 0 1 ∧ k.kind = f 1 1 ∧ k.func = f 2 1 ∧ k.opid.toNat = f 4 4 ∧
            k.refs.toNat = f 8 36 ∧ k.phase = (partOf s e.core).phase ∧ k.fixedr = bit s.gran.chkMode 0 ∧
            k.ready = false ∧ k.closing = false ∧ k.incomplete = false ∧ k.engerr = false ∧ k.nops = 0 ∧ k.items = []) ∧
    EffectIf (.aemit c a b) { ops := [a, b], phase := .restricted, need := asyNeed (aemitOk c b) }
      (fun e s => NoJoins e s ∧ ∃ k, (getCore s e.core).asy.openCtx c = some k ∧ k.kind ≠ 1)
      (fun e s t => ∀ k, (getCore s e.core).asy.openCtx c = some k →
        let v := fun (l : Nat) => (e.src s l b).toNat
        let ok := fun (l : Nat) => v l / 4 % 2 ^ 30 = 0 ∧ v l % 4 ≤ (if k.kind = 2 then 2 else if k.kind = 3 then 1 else 0) ∧
          (k.kind = 2 ∨ k.kind = 4 → v l / 2 ^ 32 = 0)
        let items := (e.lanes.filter fun l => decide (ok l)).map fun l =>
          ({ cls := v l % 4, index := v l / 2 ^ 32, value := e.src s l a } : Item)
        let asy := (getCore s e.core).asy
        (getCore t e.core).asy = (if items = [] then asy
          else { asy with queue := asy.queue ++ [.aemit k.uid items], issued := asy.issued + 1 }) ∧
        Parks (fun l => if ok l then none else some (0x01, 0, 0)) e s t ∧
        ((∀ l, bit e.act l = true → ok l) → Allowing asyOnly Quiet e s t)) ∧
    EffectIf (.aclose d c)
      { dst := [d], phase := .restricted, need := asyNeed fun e s => ((getCore s e.core).asy.openCtx c).isSome }
      (fun e s => ∃ k, (getCore s e.core).asy.openCtx c = some k)
      (fun e s t => Allowing asyOnly (OnlyReg false d) e s t ∧
        (∀ l, bit e.act l = true → readReg (e.lane t l) d = wd ((getCore s e.core).asy.issued + 1)) ∧
        ∀ k, (getCore s e.core).asy.openCtx c = some k →
          let asy := (getCore s e.core).asy
          (getCore t e.core).asy = { asy with
            ctxs := asy.ctxs.map fun x => if x.uid = k.uid then { x with closing := true } else x
            queue := asy.queue ++ [.aclose k.uid], issued := asy.issued + 1 })

/-- CLAUSE at a header position (R15, R22, R145, R146) whose flags are clear: the clause opens for the entry's lanes, whose
temporaries read zero and receive no earlier long-latency result, and a STAY hold ends; beside a primary clause the
next-lowest ready entry above starts a second one, where neither holds a refusing word or a word with SOLO and no ready released
LJOIN entry, whose clause holds an LJOIN, stands between them (where a released entry stands among the others is the model's
choice, log entry 26). That the accepted header is the group's last issued word, from which R150 takes its age, is the model's
choice too (log entry 54). Hint words (R22, R74, R147, R148): a hint that its run accepts joins it and has no effect of its own; like any
word of the primary port it lets the second port issue in its cycle. The second of a kind, or one that ends its clause, is an
illegal instruction at the hint. -/
def Obligations.ClausesAndHints : Prop :=
  (∀ (len : Nat) (wait : BitVec 12) (fla flb : Option (Fin 12)) (yld : Bool) (s : State) (pc : Offset) (m : LaneMask),
     let c := s.cur.core
     let g := s.cur.grp
     let gr := getGroup s c g
     issues s c = true → gr.port s.cur.second = none → s.cur.entry = some (pc, m) →
     (∀ n, bit wait n = true → spGet 0 gr.flags n = 0) → (partOf s c).quiet = false →
     let opens := fun (k : Clause) (b t : State) =>
       let x := getGroup b c g
       let y := getGroup t c g
       OnlyIn c g b t ∧ y.port s.cur.second = (if k.hdr = pc then some k else x.port s.cur.second) ∧
       { y with c0 := x.c0, c1 := x.c1, lanes := x.lanes, out := x.out, lastIssue := x.lastIssue, stayLeft := x.stayLeft } = x ∧
       y.stayLeft = none ∧
       y.out = (x.out.map fun o => { o with drop := o.drop ||| (o.mask &&& k.mask) }) ∧
       ∀ l < 32, y.lane l = if bit k.mask l then { x.lane l with t0 := 0, t1 := 0, npc := none } else x.lane l
     let k : Clause := { hdr := pc, len := len, fla := fla, flb := flb, yld := yld, nxt := 1, mask := m, run := [],
                         seg3 := spGet 0 gr.seg 3, stay := hintTarget 1 (clauseWords s c (spGet 0 gr.seg 3) pc), wait := .go }
     ∃ t1, opens k { s with cur := { s.cur with entry := none } } t1 ∧ (getGroup t1 c g).lastIssue = s.time ∧
       (getGroup t1 c g).port (!s.cur.second) = gr.port (!s.cur.second) ∧
       let above := (readyEntries t1 c g).filter fun e => decide (pc.toNat < e.1.toNat)
       let plain := fun (p : Offset) =>
         let ws := clauseWords t1 c (spGet 0 gr.seg 3) p
         (∀ w ∈ ws, refusingWord w = false) ∧ hintTarget 0 ws = false
       (s.cur.second = true ∨ above = [] → exec (.clause len wait fla flb yld) s = .next t1) ∧
       ∀ e r h, s.cur.second = false → gr.c1 = none → above = e :: r →
         fetchAt t1 c (spGet 0 gr.seg 3) e.1 = some h → headerOk h = true →
         let between := fun (p : Offset) => pc.toNat < p.toNat ∧ p.toNat < e.1.toNat
         if plain pc ∧ plain e.1 ∧ ¬ (∃ k ∈ releasedReady t1 c g, between (k.wordAt k.nxt)) then
           ∃ t, exec (.clause len wait fla flb yld) s = .next t ∧ (getGroup t c g).lastIssue = s.time ∧
             opens (clauseOf t1 c h e.1 e.2 (spGet 0 gr.seg 3)) t1 t ∧
             (getGroup t c g).c1 = some (clauseOf t1 c h e.1 e.2 (spGet 0 gr.seg 3))
         else exec (.clause len wait fla flb yld) s = .next t1) ∧
  (∀ (p : BitVec 24) (stay solo : Bool) (mode : Option Round) (pol : Option Policy) (ix : Option Src) (s : State) (k : Clause),
     atWord s = some k →
     let joins := fun (i : Instr) (same : Instr → Prop) =>
       ((∀ j ∈ k.run, ¬ same j) → k.nxt ≠ k.len →
         let view := if s.cur.second then none
           else match (getGroup s s.cur.core s.cur.grp).c1 with
             | some l => if issuable s s.cur.core s.cur.grp true l then some (scopeOf s s.cur.core s.cur.grp) else none
             | none => none
         exec i s = .next (modGroup { s with scope := view } s.cur.core s.cur.grp fun g =>
           { g.setPort s.cur.second (some { k with nxt := k.nxt + 1, run := k.run ++ [i] }) with lastIssue := s.time })) ∧
       (NoJoins (envOf s k) s → (∃ j ∈ k.run, same j) ∨ k.nxt = k.len → ∃ t, exec i s = .next t ∧
         Parks (fun _ => some (0x01, 0, 0)) (envOf s k) (passWord s (envOf s k)) t)
     joins (.himm p) (fun j => ∃ v, j = .himm v) ∧
     joins (.hsched stay solo) (fun j => ∃ a b, j = .hsched a b) ∧
     joins (.harith mode pol ix) (fun j => ∃ a b c, j = .harith a b c))

/-- Every word with requirements `m` that fails a check of R74 or R86 (also R22, R194, R196) parks every lane that issues it with
the check's cause, the encoding checks before privilege before phase; a word that decodes to nothing is an illegal instruction
(R86). Stalls (R25, R27, R30, R109, R127, R147, R313, R320): such a word that passes its checks does not issue while a register
that it reads or writes is pending, its flag has 63 instructions outstanding, or what it needs is not there: HALT's lanes have
instructions outstanding, or the queue it posts to has no place. That a word which stalls is a step of the machine that changes
nothing, and that its fault checks come before the stall, is the model's choice (log entry 10). -/
def Obligations.RefusedWords : Prop :=
  (∀ (i : Instr) (m : WMeta) (s : State) (k : Clause),
     metaOf i = some m → atWord s = some k →
     let e := envOf s k
     let co := getCore s e.core
     let parks := fun (cause : Byte) => NoJoins e s →
       ∃ t, exec i s = .next t ∧ Parks (fun _ => some (cause, 0, 0)) e (passWord s e) t
     let encoded := (e.mode = none ∧ e.ix = none ∨ m.accMode = true) ∧ (e.pol = none ∨ m.accPol = true) ∧
       (Src.h ∉ m.ops ∨ e.himm.isSome = true) ∧ (m.ctl = true → e.cl.len ≤ e.idx) ∧
       (∀ f, m.flag = some f → (e.flag f).isSome = true)
     let system := (launchOf s e.core).system = true
     let out := (partOf s e.core).st ≠ .compute ∨ (getGroup s e.core e.grp).synced = true
     let barrier := holdsBarrier co e.grp = true
     let phase := match m.phase with
       | .any => False
       | .restricted => out
       | .sync => out ∨ barrier
       | .halt => barrier
     let sources := (m.ops ++ e.ix.toList).filterMap fun x => match x with
       | .reg r => some r
       | .k _ | .z | .lane | .h => none
     let pending := ∃ o ∈ (getGroup s e.core e.grp).out, ∃ r ∈ sources ++ m.dst, o.pends r e.act = true
     let full := ∃ f n, m.flag = some f ∧ e.flag f = some n ∧ 63 ≤ spGet 0 (getGroup s e.core e.grp).flags n
     (∀ c, wordCause m e s = some c → parks c) ∧
     (¬ encoded → parks 0x01) ∧
     (encoded → m.priv = true → ¬ system → parks 0x02) ∧
     (encoded → (m.priv = true → system) → phase → parks 0x05) ∧
     (encoded → (m.priv = true → system) → ¬ phase → pending ∨ full ∨ m.need e s = true → exec i s = .next s)) ∧
  (∀ (i : Instr) (m : WMeta), metaOf i = some m →
     (m.priv = true ↔ match i with
       | .segld _ _ | .xqset _ | .xprom _ | .swr _ .alogq | .swr _ .xq | .swr _ .noteq => True
       | _ => False) ∧
     (m.ctl = true ↔ match i with
       | .brDiv _ _ | .brAny _ _ | .brAll _ _ | .brNone _ _ | .jmp _ | .trap _ | .brk _ | .call _ | .jr _ | .callr _ _ | .ret
       | .halt => True
       | _ => False)) ∧
  (∀ (w : BitVec 32) (s : State) (k : Clause), atWord s = some k → NoJoins (envOf s k) s →
     ∃ t, exec (.illegalInstruction w) s = .next t ∧ Parks (fun _ => some (0x01, 0, 0)) (envOf s k) (passWord s (envOf s k)) t) ∧
  (∀ (d : Reg) (a : Src) (c : Fin 8) (s : State) (k : Clause) (m : WMeta),
     let e := envOf s k
     let co := getCore s e.core
     (metaOf .halt = some m → (m.need e s = true ↔ ∃ o ∈ (getGroup s e.core e.grp).out, o.mask &&& e.act ≠ 0)) ∧
     (metaOf (.srd d .fstat) = some m →
       (m.need e s = true ↔ ∃ o ∈ (getGroup s e.core e.grp).out, o.kind ≠ .load ∧ o.mask &&& e.act ≠ 0)) ∧
     (metaOf (.mmaI4 d a) = some m → ∀ q, Lowest e q →
       (m.need e s = true ↔ (e.src s q a).toNat + 80 ≤ 0xC0000 ∧ 16 ∣ (e.src s q a).toNat ∧
         (4 ≤ co.eng.queue.length ∨ ∃ g ∈ co.groups, ∃ x r w, (g.2.c0 = some x ∨ g.2.c1 = some x) ∧ x.wait = .mstat w r))) ∧
     (metaOf (.aclose d c) = some m →
       (m.need e s = true ↔ (co.asy.openCtx c).isSome = true ∧ 8 ≤ (co.asy.queue.filter fun x => match x with
         | .awit _ | .aemit _ _ | .aclose _ => true
         | .auto _ => false).length)))

/-- The end of a pair (R22, R142, R150, R152, R153): once every clause of the group has issued its last word, each lane still
runnable takes its next PC, the ports are free, and the core counts the pair and may select another group; that a pair after which
C + 1 is at least CAP switches, where CAP was lowered meanwhile, is the model's choice (log entry 70), and so is that YLD or a STAY
target in one clause of a pair is enough (log entry 75). Selection, the STAY hold, which follows an end that leaves the group
selected, and handler entry (R150, R152, R343). -/
def Obligations.ClauseEndsAndSelection : Prop :=
  (∀ (die : Fin 8) (core : Fin 128) (grp : Fin 8) (s : State),
     let c := 128 * die.val + core.val
     let gr := getGroup s c grp
     let co := getCore s c
     let flying := [gr.c0, gr.c1].filterMap id
     flying ≠ [] → (∀ k ∈ flying, k.len < k.nxt ∧ k.wait = .go) → (∀ a b, gr.c0 = some a → gr.c1 = some b → a.mask &&& b.mask = 0) →
     gr.lanectl = [] → (∀ p ∈ gr.lanes, ∀ f, p.2.fault = some f → f.handler = false) →
     ∃ t, exec (.clauseEnd die core grp) s = .next t ∧
       { t with cores := s.cores } = s ∧ (∀ k, k ≠ c → getCore t k = getCore s k) ∧
       (∀ k, k ≠ grp.val → getGroup t c k = getGroup s c k) ∧
       { getCore t c with groups := co.groups, sel := co.sel, cnt := co.cnt } = co ∧
       let after := getGroup t c grp
       { after with lanes := gr.lanes, c0 := gr.c0, c1 := gr.c1, stayLeft := gr.stayLeft } = gr ∧
       after.c0 = none ∧ after.c1 = none ∧
       (∀ l < 32, after.lane l =
         match flying.find? fun k => bit k.mask l with
         | some k => if (gr.lane l).cond = .runnable then
             { gr.lane l with pc := (gr.lane l).npc.getD k.fall, npc := none } else gr.lane l
         | none => gr.lane l) ∧
       let switch := (∃ k ∈ flying, k.yld = true) ∨ co.gtoCap ≤ co.cnt + 1
       (co.sel ≠ grp → (getCore t c).sel = co.sel ∧ (getCore t c).cnt = co.cnt ∧ after.stayLeft = gr.stayLeft) ∧
       (co.sel = grp → after.stayLeft =
           if (getCore t c).sel = grp ∧ (∃ k ∈ flying, k.stay = true) ∧ groupReady t c grp = false ∧ waitFails t c grp = true
           then some 8 else gr.stayLeft) ∧
       (co.sel = grp → ¬ switch → (getCore t c).sel = grp ∧ (getCore t c).cnt = co.cnt + 1) ∧
       (co.sel = grp → switch → (getCore t c).cnt = 0 ∧
         ((∀ g < co.ngroups, g ≠ grp.val → groupReady t c g = false) → (getCore t c).sel = grp) ∧
         ∀ g < co.ngroups, g ≠ grp.val → groupReady t c g = true →
           let sel := (getCore t c).sel
           sel ≠ grp ∧ groupReady t c sel = true ∧
           ((getGroup t c sel).lastIssue < (getGroup t c g).lastIssue ∨
             (getGroup t c sel).lastIssue = (getGroup t c g).lastIssue ∧ sel ≤ g))) ∧
  (∀ (die : Fin 8) (core : Fin 128) (grp : Fin 8) (s : State),
     let c := 128 * die.val + core.val
     let co := getCore s c
     let gr := getGroup s c grp
     (groupReady s c co.sel = false → (getGroup s c co.sel).ended = false → (getGroup s c co.sel).stayLeft = none →
       grp.val < co.ngroups →
       groupReady s c grp = true →
       (∀ g < co.ngroups, groupReady s c g = true → gr.lastIssue < (getGroup s c g).lastIssue ∨
         gr.lastIssue = (getGroup s c g).lastIssue ∧ grp.val ≤ g) →
       exec (.groupSelect die core) s = .next (setCore s c { co with sel := grp, cnt := 0 })) ∧
     exec (.stayHoldExpire die core grp) s = .next (modGroup s c grp fun x => { x with stayLeft := none }) ∧
     (gr.c0 = none → gr.c1 = none → (getDie s die).transition = false →
       ∃ t, exec (.handlerEntry die core grp) s = .next t ∧ OnlyIn c grp s t ∧
         { getGroup t c grp with lanes := gr.lanes } = gr ∧
         ∀ l, let x := gr.lane l
           let y := (getGroup t c grp).lane l
           match x.fault with
           | some f =>
             if x.cond = .parked ∧ f.handler = true then
               { y with w := x.w } =
                 { x with cond := .runnable, pc := gr.trapvec.setWidth 20, hflt := true, fault := some { f with handler := false } } ∧
               readReg y (.w 36) = f.addr ∧
               readReg y (.w 37) =
                 wd (f.access * 2 ^ 48 + f.cause.toNat * 2 ^ 40 + f.word.toNat * 2 ^ 20 + f.clause.toNat) ∧
               readReg y (.w 38) = wd f.fall.toNat ∧
               ∀ n : Fin 40, n.val < 36 ∨ n.val = 39 → readReg y (.w n) = readReg x (.w n)
             else y = x
           | none => y = x))

/-- A long-latency instruction completes (R15, R25, R126): destinations and FSTAT bits are written, a temporary only in lanes
that have accepted no later header, its flag's count falls by one, and its records are appended. -/
def Obligations.Completions : Prop :=
  ∀ (die : Fin 8) (core : Fin 128) (grp : Fin 8) (n : Nat) (s : State) (o : LongOp),
    let c := 128 * die.val + core.val
    let gr := getGroup s c grp
    gr.out[n]? = some o →
    let completes := fun (i : Instr) =>
      ∃ t, exec i s = .next (o.recs.foldl (fun s r => alogPost s c r) t) ∧ OnlyIn c grp s t ∧
        { getGroup t c grp with lanes := gr.lanes, out := gr.out, flags := gr.flags } = gr ∧
        (getGroup t c grp).out = gr.out.take n ++ gr.out.drop (n + 1) ∧
        (∀ f : Fin 12, spGet 0 (getGroup t c grp).flags f = spGet 0 gr.flags f - if f = o.flag then 1 else 0) ∧
        ∀ l < 32, (getGroup t c grp).lane l =
          if bit o.mask l then
            let x := { gr.lane l with fstat := (gr.lane l).fstat ||| spGet 0 o.fst l }
            let temporary := match o.dst with
              | .t _ => true
              | .w _ => false
            match spFind o.vals l with
            | some v => if temporary && bit o.drop l then x else writeReg x o.dst v
            | none => x
          else gr.lane l
    (o.kind = .load → completes (.loadCompletion die core grp n)) ∧
    (o.kind = .idiv → completes (.idivCompletion die core grp n)) ∧
    (o.kind = .sfu → completes (.sfuCompletion die core grp n))

/-- String balance (R176, R177, R183, R184, R373): one update sets the three MID fields and the cores' currents, those of a
vacant or a ballast core being the mean of the string-mates that run, at most LEVEL_MA; it names the lighter core at every
node above 250 mA, and starts or ends the hard response. Power states (R184): the five rows of the table, each at the moment
from which it is due. Currents are inputs (log entry 9); that an emergency drop counts as in progress until CLOCK_STABLE, and
that the test from 1 to 2 is met at any moment from 10 µs after entry on, are the model's choices (log entry 19). -/
def Obligations.StringPower : Prop :=
  (∀ (die : Fin 8) (str : Fin 32) (i0 i1 i2 i3 : BitVec 16) (s : State),
     let n := 32 * die.val + str.val
     let read := fun (k : Nat) => ([i0, i1, i2, i3].map fun x : BitVec 16 => x.toNat).getD k 0
     let core := fun (k : Nat) => getCore s (4 * n + k)
     let mates := fun (k : Nat) => (List.range 4).filter fun j => decide (j ≠ k) && (core j).part.isSome && !(core j).ballast
     let follows := fun (k : Nat) => mates k ≠ [] ∧
       ((core k).part = none ∧ (getStr s n).part.isSome = true ∨ (core k).ballast = true)
     let i : Nat → Int := fun k =>
       if follows k then (min (sumOf ((mates k).map read) / (mates k).length) (fld (getStr s n).filler 11 0) : Nat) else read k
     let mid := fun (k : Nat) => i k - i (k + 1)
     let imbalance := max (mid 0).natAbs (max (mid 1).natAbs (mid 2).natAbs)
     let lighter := fun (k : Nat) => k < 3 ∧ 250 < (mid k).natAbs ∧ i (k + 1) < i k
     let heavier := fun (k : Nat) => k < 3 ∧ 250 < (mid k).natAbs ∧ i k < i (k + 1)
     ∃ t, exec (.strimbUpdate die str i0 i1 i2 i3) s = .next t ∧
       { t with cores := s.cores, strings := s.strings } = s ∧
       (∀ c, getCore t c = if c / 4 = n then
           { getCore s c with current := (i (c % 4)).toNat
                              named := (getCore s c).named || decide (heavier (c % 4)) || decide (1 ≤ c % 4 ∧ lighter (c % 4 - 1)) }
         else getCore s c) ∧
       ∀ m, { getStr t m with clearSince := (getStr s m).clearSince } =
         if m = n then
           { getStr s n with
             strimb := BitVec.ofInt 16 0 ++ BitVec.ofInt 16 (mid 2) ++ BitVec.ofInt 16 (mid 1) ++ BitVec.ofInt 16 (mid 0)
             hard := decide (400 < imbalance) || ((getStr s n).hard && decide (250 < imbalance))
             pwr := if 400 < imbalance ∨ cause2 t n = true then 2 else (getStr s n).pwr }
         else { getStr s m with pwr := if m / 32 = die.val ∧ cause2 t m = true then 2 else (getStr s m).pwr }) ∧
  (∀ (die : Fin 8) (str : Fin 32) (s : State),
     let n := 32 * die.val + str.val
     let x := getStr s n
     let current := sumOf ([4 * n, 4 * n + 1, 4 * n + 2, 4 * n + 3].map fun c => (getCore s c).current)
     let rail := sumOf ((List.range 32).map fun k =>
       sumOf ((List.range 4).map fun j => (getCore s (4 * (32 * die.val + k) + j)).current))
     let limit := fld (getDie s die).railIlim 16 0
     let soft := 4 * limit * fld (getDie s die).railIlim 23 17 < 100 * rail
     let hot := ∃ j < 128, 105 * 16 ≤ fld (getCore s (128 * die.val + j)).therm 31 16
     let drop := (getDie s die).transition = true ∧ (getDie s die).hop = false
     let two := x.hard = true ∨ hot ∨ drop ∨ 4 * limit < rail
     let stuck := soft ∧ ∃ b, x.before = some b ∧ b ≤ current
     let becomes := fun (v time : Nat) => ∃ t, exec (.powerStateChange die str) s = .next t ∧
       SamePower die (modStr { s with time := max s.time time } n fun y =>
         { y with pwr := v, entered := if v = 1 then max s.time time else y.entered
                  before := if v = 1 then some current else if v = 0 then none else y.before }) t
     (x.pwr ≠ 2 → two → becomes 2 s.time) ∧
     (x.pwr = 0 → ¬ two → soft → becomes 1 s.time) ∧
     (x.pwr = 1 → ¬ two → ¬ soft → ∀ t0, x.clearSince = some t0 → becomes 0 (t0 + 10000)) ∧
     (x.pwr = 1 → ¬ two → stuck → becomes 2 (x.entered + 10000)) ∧
     (x.pwr = 2 → ¬ two → ¬ stuck → soft → ∀ t0, x.clearSince = some t0 → becomes 1 (t0 + 10000)) ∧
     (x.pwr = 2 → ¬ two → ¬ soft → ∀ t0, x.clearSince = some t0 → becomes 0 (t0 + 10000)))

/-- The rail limit (R186, R187, R357): a lost phase bounds LIMIT_MA, sets DERATED, is recorded and reported; a write keeps
SOFT_PCT within its range and LIMIT_MA within the remaining phases. Frequency (R188, R356, R357, R368): a valid written
frequency waits; FORCE applies it as an emergency drop; a hop starts once every core of the die is in an exchange phase or
runs no task, without droop; a stable clock brings the frequency that the change was for into force, delivers what the
transition held back, in order, and then enters handlers; a droop abandons a hop. That FORCE with a value outside the steps
applies the old frequency, that a drop clears PENDING, and that the new frequency is in force from CLOCK_STABLE on are the model's
choices (log entry 19). -/
def Obligations.RailAndFrequency : Prop :=
  (∀ (die : Fin 8) (v : Word) (s : State),
     let x := getDie s die
     let field := fun (hi lo : Nat) (r : Word) => fld r hi lo
     (0 < x.phases → ∃ t, exec (.regulatorPhaseLost die) s = .next t ∧
       let lim := min (field 16 0 x.railIlim) (12000 * (x.phases - 1))
       let arg := wd (lim * 65536 + (x.phases - 1))
       let b := modGran (modDie s die fun y =>
         { y with phases := y.phases - 1, railIlim := setFld (setFld y.railIlim 16 0 lim) 31 31 1 }) fun g =>
           { g with derated := g.derated ||| BitVec.ofNat 16 (2 ^ die.val) }
       let e : EventRec := { kind := 6, cause := 0, die := die, part := 0xFF, core := 0xFFFF, lcore := 0xFFFF, phase := 0
                             time := s.time, arg := arg }
       let b := postHost (postEvent b die e) { e with kind := 2 }
       SamePower die (addFrec b { FrecEnt.blank b 4 2 die 0xFF with arg := arg }) t) ∧
     ∃ t, exec (.railIlimWrite die v) s = .next t ∧
       ∃ r : Word, SamePower die (modDie s die fun y => { y with railIlim := r }) t ∧
         field 63 32 r = field 63 32 v ∧ field 31 24 r = field 31 24 x.railIlim ∧
         field 23 17 r = (if 50 ≤ field 23 17 v ∧ field 23 17 v ≤ 100 then field 23 17 v else field 23 17 x.railIlim) ∧
         field 16 0 r = min (field 16 0 v) (12000 * x.phases)) ∧
  (∀ (die : Fin 8) (str : Fin 32) (v : Word) (s : State),
     let x := getDie s die
     let f := v.toNat % 4096
     let valid := 475 ≤ f ∧ f ≤ 1900 ∧ f % 25 = 0
     let deliver := fun (l : List Delayed) (s : State) => l.foldl (fun s d => match d with
       | .flog c r => flogAppend s c r
       | .alog c r =>
         let t := alogAppend s c (getCore s c).alogq r
         if (getCore t c).spad = (getCore s c).spad then t else staleSave t c
       | .event d e => postEvent s d e) s
     let handlers := fun (s : State) => ((s.cores.map (·.1)).filter fun c => decide (c / 128 = die.val)).foldl (fun s c =>
       (List.range (getCore s c).ngroups).foldl (fun s g =>
         let t := enterHandlers s c g
         if getGroup t c g = getGroup s c g then t else staleSave t c) s) s
     let droopy := modStr s (32 * die.val + str.val) fun y => { y with droop := true }
     let clear := modStr s (32 * die.val + str.val) fun y => { y with droop := false }
     (valid → exec (.dvfsFreqWrite die v) s = .next (modDie s die fun y => { y with freq := f, pending := true })) ∧
     (¬ valid → exec (.dvfsFreqWrite die v) s = .next s) ∧
     (∃ t, exec (.dvfsForce die v) s = .next t ∧ SamePower die (modDie s die fun y =>
       let g := if valid then f else y.freq
       { y with freq := g, target := g, pending := false, transition := true, hop := false, hopDroop := false }) t) ∧
     (x.pending = true → x.transition = false → x.hopDroop = false →
       (∀ j < 128, let c := 128 * die.val + j
         (getCore s c).part = none ∨ (partOf s c).waitStart = true ∨ bit (partOf s c).phase 0 = true) →
       exec (.dvfsApply die) s = .next (modDie s die fun y =>
         { y with target := y.freq, transition := true, hop := true, pending := true })) ∧
     (x.transition = true → ∃ t, exec (.clockStable die) s = .next t ∧
       SamePower die (handlers (deliver x.delayed (modDie s die fun y =>
         { y with mhz := y.target, pending := y.pending && decide (y.freq ≠ y.target), transition := false, hop := false
                  delayed := [] }))) t) ∧
     ((x.transition = true ∧ x.hop = true → ∃ t, exec (.droopDetect die str) s = .next
         (modDie t die fun y => { y with hopDroop := true, pending := true }) ∧
       t = handlers (deliver x.delayed (modDie droopy die fun y => { y with transition := false, hop := false, delayed := [] }))) ∧
      (¬ (x.transition = true ∧ x.hop = true) → exec (.droopDetect die str) s = .next droopy)) ∧
     ((∃ k < 32, (getStr clear (32 * die.val + k)).droop = true) → exec (.droopClear die str) s = .next clear) ∧
     ((∀ k < 32, (getStr clear (32 * die.val + k)).droop = false) →
       exec (.droopClear die str) s = .next (modDie clear die fun y => { y with hopDroop := false })))

/-- Temperature (R184, R189, R357, R389): a reading that crosses 95 degrees upwards sets MIGREQ and posts event 9; at 105
degrees one drop by a quarter of the frequency, rounded down to a 25 MHz step and never below 475 MHz, every string in state 2
and event 7; the drop again after 10 µs; at 115 degrees the rail is cut, every partition with a string on the die aborts, and
event 8 is posted, recorded and reported. Temperatures are inputs (log entry 9). That a drop clears PENDING and starts from the
clock where FREQ_MHZ stands above it, that a reading below the threshold only updates TEMP, and what a tripped die loses are the
model's choices (log entry 19). -/
def Obligations.TemperatureEvents : Prop :=
  ∀ (die : Fin 8) (core : Fin 128) (temp : BitVec 16) (s : State),
    let c := 128 * die.val + core.val
    let read := modCore s c fun y => { y with therm := setFld y.therm 31 16 temp.toNat }
    let crossed := if fld (getCore s c).therm 31 16 < 95 * 16 ∧ 95 * 16 ≤ temp.toNat then
      postEvent (modCore read c fun y => { y with therm := setFld y.therm 1 1 1 }) die (coreEvent read c 9 0 (wd temp.toNat))
      else read
    let cool := fun (s : State) => ∀ j < 128, fld (getCore s (128 * die.val + j)).therm 31 16 < 105 * 16
    let slower := fun (f : Nat) => max 475 (f * 3 / 4 - f * 3 / 4 % 25)
    let slowest := fun (y : Die) => if y.transition = true then y.hop = false ∧ y.target ≤ 475 else y.mhz ≤ 475
    let drop := fun (s : State) => if slowest (getDie s die) then modDie s die fun y => { y with dropAt := s.time }
      else modDie s die fun y =>
        let f := slower (min y.freq y.mhz)
        { y with freq := f, target := f, dropAt := s.time, transition := true, hop := false, hopDroop := false, pending := false }
    let alarm := fun (s : State) (e : EventRec) => postHost (postEvent s die e) { e with kind := 2 }
    (∃ t, exec (.thermMigreq die core temp) s = .next t ∧
      (cool read → SamePower die (modDie crossed die fun y => { y with throttled := false }) t) ∧
      (¬ cool read → SamePower die crossed t)) ∧
    (105 * 16 ≤ temp.toNat → (getDie s die).throttled = false → ∃ t, exec (.thermalThrottle die core temp) s = .next t ∧
      ∃ peak, (∃ j < 128, fld (getCore read (128 * die.val + j)).therm 31 16 = peak) ∧
        (∀ j < 128, fld (getCore read (128 * die.val + j)).therm 31 16 ≤ peak) ∧
        SamePower die (alarm ((List.range 32).foldl (fun s k => modStr s (32 * die.val + k) fun y => { y with pwr := 2 })
            (drop (modDie crossed die fun y => { y with throttled := true })))
          { kind := 7, cause := 0, die := die, part := 0xFF, core := 0xFFFF, lcore := 0xFFFF, phase := 0, time := s.time
            arg := wd peak }) t) ∧
    ((getDie s die).throttled = true → ¬ cool s → ¬ slowest (getDie s die) →
      ∃ t, exec (.throttleRepeat die) s = .next t ∧
        SamePower die (drop { s with time := max s.time ((getDie s die).dropAt + 10000) }) t) ∧
    (115 * 16 ≤ temp.toNat → (getDie s die).tripped = false → ∃ t, exec (.thermalTrip die core temp) s = .next t ∧
      let e := coreEvent read c 8 0 (wd temp.toNat)
      let b := alarm crossed e
      let b := addFrec b { FrecEnt.blank b 4 1 die 0xFF with arg := e.arg }
      let b := modDie b die fun y => { y with tripped := true, delayed := [] }
      let b := ((s.parts.filter fun q => (getPart s q.1).strings.any fun n =>
        decide (n / 32 = die.val ∧ (getStr s n).part = some q.1)).map (·.1)).foldl abortPart b
      { t with cores := b.cores, strings := b.strings } = b ∧
      (∀ n, { getStr t n with clearSince := (getStr s n).clearSince } =
        { getStr s n with pwr := if n / 32 = die.val then 2 else (getStr s n).pwr }) ∧
      (∀ k, k / 128 ≠ die.val → getCore t k = getCore b k) ∧
      ∀ k, k / 128 = die.val → (getCore t k).groups = [] ∧ (getCore t k).spad = [] ∧ (getCore t k).eng = Engine.zero ∧
        (getCore t k).asy = Assay.zero ∧ (getCore t k).flog.slots = [])

/-- Bind records (R209, R210): firmware's writes to a record are kept over FREE and BOUND, free any record that no task holds,
and change nothing in ARMED, RUNNING or SCRUB; what only hardware writes, STATUS, RESULT and ORIGIN of a freed record, stays.
Admission (R210, R211) of a die whose one BOUND record names the die alone: ARMED when the charge of its strings, by the
declaration of the launch record it names, is within the rail's current and energy, else it stays; on a die with other records,
the ARMED and RUNNING ones count, each core of a running task at its own declaration; of two BOUND records the first is tested
first, and counts for the second where it was admitted; a record whose DIEMASK names two dies is admitted on both or on
neither. REFUSED with cause 0x10
when DIEMASK names no Flint die, and with 0x0C when a scrub list still holds its partition number or a string of it. Over
which states firmware may write STATE 0 and 1 is the model's reading (log entry 18); that the control interval refuses with
0x10 or 0x0C from the bind record alone, ahead of earlier cases of R203, is the model's choice (log entry 30). -/
def Obligations.BindAndAdmission : Prop :=
  (∀ (die : Fin 8) (slot : Fin 32) (r : BindWrite) (s : State),
     let b := getBind s die slot
     let stored := fun (state : BindState) (host : Bool) => modBind s die slot fun b =>
       { b with lrVa := r.lrVa, strings := r.strings, part := r.part, state := state, diemask := r.diemask, host := host }
     bit s.gran.present die = true → bindsBlocked s = false →
     (b.state = .armed ∨ b.state = .running ∨ b.state = .scrub → exec (.bindRecordWrite die slot r) s = .next s) ∧
     (b.state = .free ∨ b.state = .bound → r.state = 1 →
       exec (.bindRecordWrite die slot r) s = .next (stored .bound false)) ∧
     (b.state = .free ∨ b.state = .bound ∨ b.state = .done ∨ b.state = .refused → r.state = 0 →
       exec (.bindRecordWrite die slot r) s = .next (stored .free b.host)) ∧
     (r.state ≠ 0 → r.state ≠ 1 → exec (.bindRecordWrite die slot r) s = .next s)) ∧
  (∀ (die : Fin 8) (i : Nat) (b : Bind) (r : LrRaw) (s : State),
     let d := getDie s die
     d.binds = [(i, b)] → b.state = .bound → (∀ k < 8, k ≠ die.val → (getDie s k).binds = []) →
     readLr s die b.part b.lrVa = some r →
     let strs := (bitList b.strings).map fun n => 32 * die.val + n
     let fits := 4 * strs.length * r.peak ≤ 4 * fld d.railIlim 16 0 ∧
       4 * strs.length * min r.energy (7 * r.peak) ≤ fld d.railIlim 63 32
     let becomes := fun (x : Bind) => modDie s die fun y => { y with binds := [(i, x)] }
     let refused := fun (w : Nat) => postHost (becomes { b with state := .refused, status := BitVec.ofNat 32 w })
       (hostEvent s 1 b.part (wd w))
     (256 ≤ b.diemask.toNat → exec (.admissionInterval die) s = .next (refused 0x1002)) ∧
     (b.diemask.toNat < 256 → scrubPending s b.part strs = true →
       exec (.admissionInterval die) s = .next (refused 0x0C02)) ∧
     (b.diemask.toNat = 2 ^ die.val → scrubPending s b.part strs = false →
       (fits → exec (.admissionInterval die) s = .next (becomes { b with state := .armed })) ∧
       (¬ fits → exec (.admissionInterval die) s = .next s))) ∧
  (∀ (die other : Fin 8) (i j : Nat) (b c : Bind) (decl : Nat → Bind → Nat × Nat) (s : State),
     let listed := fun (d : Nat) => (getDie s d).binds
     let strsOn := fun (d : Nat) (x : Bind) =>
       if x.state = .running then
         (getPart s x.part).strings.filter fun n => decide ((getStr s n).part = some x.part) && decide (n / 32 = d)
       else (bitList x.strings).map fun n => 32 * d + n
     let charge := fun (d : Nat) (x : Bind) =>
       let cs := (strsOn d x).flatMap strCores
       let own := fun (k : Nat) => x.state = .running ∧ (getCore s k).part = some x.part ∧ (getCore s k).ballast = false
       let peak := fun (k : Nat) => if own k then (getCore s k).peak else (decl d x).1
       ((cs.map peak).sum, (cs.map fun k => min (if own k then (getCore s k).energy else (decl d x).2) (7 * peak k)).sum)
     let used := fun (d : Nat) => ((listed d).filter fun x => x.2.state = .armed ∨ x.2.state = .running).map fun x => charge d x.2
     let fits := fun (d : Nat) (new : List (Nat × Nat)) =>
       ((used d ++ new).map (·.1)).sum ≤ 4 * fld (getDie s d).railIlim 16 0 ∧
       ((used d ++ new).map (·.2)).sum ≤ fld (getDie s d).railIlim 63 32
     let bound := fun (d : Nat) => (listed d).filter fun x => x.2.state = .bound
     let arm := fun (d i : Nat) (t : State) => modBind t d i fun x => { x with state := .armed }
     let ready := fun (d : Nat) (x : Bind) => scrubPending s x.part ((bitList x.strings).map fun n => 32 * d + n) = false
     (∀ d < 8, spWf Bind.zero 0 (listed d) = true ∧ ∀ x ∈ listed d,
       if x.2.state = .running then ∃ l, (getPart s x.2.part).launch = some l ∧ decl d x.2 = (l.peak, l.energy)
       else x.2.state = .armed ∨ x.2.state = .bound →
         ∃ r, readLr s d x.2.part x.2.lrVa = some r ∧ decl d x.2 = (r.peak, r.energy)) →
     (bound die = [(i, b)] → b.diemask.toNat = 2 ^ die.val → ready die b →
       (∀ d < 8, d ≠ die.val → ∀ x ∈ bound d, x.2.part ≠ b.part) →
       exec (.admissionInterval die) s = .next (if fits die [charge die b] then arm die i s else s)) ∧
     (bound die = [(i, b), (j, c)] → b.diemask.toNat = 2 ^ die.val → c.diemask.toNat = 2 ^ die.val → ready die b → ready die c →
       b.part ≠ c.part → (∀ d < 8, d ≠ die.val → ∀ x ∈ bound d, x.2.part ≠ b.part ∧ x.2.part ≠ c.part) →
       exec (.admissionInterval die) s = .next
         (if fits die [charge die b] then
            if fits die [charge die b, charge die c] then arm die j (arm die i s) else arm die i s
          else if fits die [charge die c] then arm die j s else s)) ∧
     (other ≠ die → bound die = [(i, b)] → bound other = [(j, c)] → c.part = b.part →
       b.diemask.toNat = 2 ^ die.val + 2 ^ other.val → c.diemask = b.diemask → ready die b →
       (∀ d < 8, d ≠ die.val → d ≠ other.val → ∀ x ∈ bound d, x.2.part ≠ b.part) →
       ∃ t, exec (.admissionInterval die) s = .next t ∧
         (¬ (fits die [charge die b] ∧ fits other [charge other c]) → t = s) ∧
         (fits die [charge die b] ∧ fits other [charge other c] →
           (∀ d, d ≠ die.val → d ≠ other.val → getDie t d = getDie s d) ∧ { t with dies := s.dies } = s ∧
           getDie t die = getDie (arm die i s) die ∧ getDie t other = getDie (arm other j s) other)))

/-- Dispatch (R18, R29, R31, R139, R190, R203 to R205, R210, R215, R409, R437, R467): the first case of R203 that applies gives the cause,
which a refused record and the host learn; a segment's BASE below 49,152 (log entry 23) and a map table at an even address (log entry 57)
are the model's readings; an accepted
task binds its strings, sets up every core of its map, restarts the watchdog and, unless it is timed, runs its first compute
phase with PHASE 0, its records RUNNING. Timed starts (R212): the cores start together, at START or as soon as they can after
it; the records of the dispatched task are RUNNING, and no other ARMED record is. That a timed task starts on all its dies in
one action, and that it is decided at dispatch whether it starts late, are the model's choices (log entry 34). -/
def Obligations.DispatchAndTimedStart : Prop :=
  (∀ (part : Fin 256) (s : State) (d i : Nat) (rest : List (Nat × Nat)) (r : LrRaw),
     let b := getBind s d i
     let x := getPart s part
     (bindsOf s part fun y => decide (y = .armed)) = (d, i) :: rest → x.st = .idle → x.launch = none →
     readLr s d part b.lrVa = some r →
     let why := refusal s d part b.host (diesOf s ((d, i) :: rest)) r
     let seg := fun (n : Nat) => r.segw.getD n 0
     let share := fun (a m e n : Nat) => ∃ x, a ≤ x ∧ x < a + m ∧ e ≤ x ∧ x < e + n
     let area := fun (q : Word) => (16 * fld q 15 0, 16 + fld q 47 32 * (16 * 2 ^ fld q 49 48))
     let queue := fun (q : Word) (others : List Word) => fld q 47 32 ≠ 0 →
       fld q 63 50 = 0 ∧ fld q 31 16 = 0 ∧ fld q 49 48 ≠ 3 ∧ (others ≠ [] → fld q 49 48 = 1) ∧
       (area q).1 + (area q).2 ≤ 0xC0000 ∧
       ¬ share (16 * fld (seg 3) 15 0) (16 * fld (seg 3) 31 16) (area q).1 (area q).2 ∧
       ∀ o ∈ others, fld o 47 32 ≠ 0 → ¬ share (area o).1 (area o).2 (area q).1 (area q).2
     let pool := (r.strings.flatMap fun n => [4 * n, 4 * n + 1, 4 * n + 2, 4 * n + 3]).filter fun c => (getCore s c).ballast = false
     let map := if r.mapVa = 0 then some pool
       else if r.mapVa.toNat % 2 = 1 then none
       else (readVa s d part r.mapVa.toNat (2 * pool.length)).bind fun bs =>
         let m := (List.range pool.length).map fun k => leNat ((bs.drop (2 * k)).take 2)
         if (∀ c ∈ m, c ∈ pool) ∧ m.Nodup then some m else none
     let key := getKey s (fld r.keyh 5 0)
     let ok : Nat → Prop
       | 1 => r.format = 1
       | 2 => r.rsv = 0 ∧ r.trappol.toNat < 4 ∧ r.flags.toNat < 4 ∧ r.entry.toNat < 2 ^ 20 ∧ r.entry.toNat % 4 = 0 ∧
         r.handler.toNat % 2 ^ 31 < 2 ^ 20 ∧ r.handler.toNat % 4 = 0 ∧ r.audit.toNat < 2 ^ 48 ∧ fld r.audit 23 22 = 0 ∧
         r.strag.toNat < 2 ^ 40 ∧ ∀ x ∈ r.succ, x.toNat < 2 ^ 48
       | 3 => 1 ≤ r.groups ∧ r.groups ≤ 8 ∧ 1 ≤ r.energy ∧ 1 ≤ r.peak ∧ r.peak ≤ 2700
       | 4 => ¬ (bit r.flags 0 = true ∧ b.host = true)
       | 5 => (∀ n < 4, fld (seg n) 63 34 = 0 ∧ fld (seg n) 15 0 < 49152 ∧ fld (seg n) 15 0 + fld (seg n) 31 16 ≤ 49152 ∧
           if n = 3 then fld (seg n) 33 32 = 0 ∨ fld (seg n) 33 32 = 3 else fld (seg n) 33 32 < 3) ∧
         ∀ n < 3, ¬ share (fld (seg n) 15 0) (fld (seg n) 31 16) (fld (seg 3) 15 0) (fld (seg 3) 31 16)
       | 6 => r.entry.toNat < 16 * fld (seg 3) 31 16 ∧ (bit r.handler 31 = true → r.handler.toNat % 2 ^ 20 < 16 * fld (seg 3) 31 16)
       | 7 => r.imgLen ≤ 786432 ∧ r.imgLen % 16 = 0
       | 8 => r.strmask ≠ 0 ∧ ∀ n ∈ r.strings, stringUsable s n = true ∧
         ((getStr s n).part = none ∨ (getStr s n).part = some part.val)
       | 9 => r.keyh ≠ 0 → fld r.keyh 63 48 = 0 ∧ fld r.keyh 31 6 = 0 ∧ fld r.keyh 5 0 ≠ 0 ∧ key.state = .loaded ∧ key.exp = false ∧
         key.bound = false ∧ fld r.keyh 47 32 = key.sealcnt.toNat
       | 10 => map ≠ none
       | 11 => queue r.alogq [] ∧ queue r.xq [r.alogq] ∧ queue r.noteq [r.alogq, r.xq]
       | 12 => scrubPending s part r.strings = false
       | 13 => bit (getPart s part).troot 0 = true
       | 14 => bit r.trappol 0 = true → bit r.handler 31 = true
       | 15 => (bit r.audit 20 = true → fld r.audit 19 0 < ttCount s ∧ (getGen s (fld r.audit 19 0)).state = 5) ∧
         (fld r.audit 31 24 ≠ 0 → ∀ m, map = some m → ∀ c ∈ m, bit (getCore s c).ckptBase 0 = true)
       | 16 => (diesOf s ((d, i) :: rest)).toNat < 256
       | _ => True
     (∀ k, (∀ j < k, ok j) → ¬ ok k → why = some k) ∧ ((∀ k, ok k) → why = none) ∧
     (∀ cause, why = some cause → exec (.dispatch part) s = .next (((d, i) :: rest).foldl (fun s y =>
       postHost (modBind s y.1 y.2 fun z => { z with state := .refused, status := BitVec.ofNat 32 (cause * 256 + 2) })
         (hostEvent s 1 (getBind s y.1 y.2).part ((BitVec.ofNat 32 (cause * 256 + 2)).setWidth 64))) s)) ∧
     (why = none → ∀ map, mapOf s d part r.mapVa r.strings = some map → map.Nodup →
       ∃ t, exec (.dispatch part) s = .next t ∧
         let y := getPart t part
         let l := r.keep b.lrVa
         y.launch = some l ∧ y.lmap = map ∧ y.strings = r.strings ∧ y.phase = 0 ∧ y.taskid = s.gran.taskCtr ∧
         t.gran.taskCtr = s.gran.taskCtr + 1 ∧ y.stragLimit = l.strag ∧ y.wdogAt = s.time ∧ y.wdogDone = false ∧
         (∀ n ∈ r.strings, (getStr t n).part = some part.val) ∧
         (l.timed = false → y.st = .compute ∧ y.stragAt = s.time) ∧
         (l.timed = true → y.st = .idle ∧ y.waitStart = true ∧ y.late = decide (l.start.toNat < s.time)) ∧
         ((∀ e < 8, ((getDie s e).binds.map (·.1)).Nodup) → ∀ e ∈ (d, i) :: rest,
           (getBind t e.1 e.2).state = (if l.timed then .armed else .running) ∧ (getBind t e.1 e.2).launched = l.timed) ∧
         (∀ c, c ∉ map → getCore t c = getCore s c) ∧
         ∀ n c, map[n]? = some c →
           let z := getCore t c
           z.part = some part.val ∧ z.lcore = n ∧ z.ngroups = l.groups ∧ z.pst = .compute ∧ z.exch = Exch.zero ∧
           z.eng = Engine.zero ∧ z.asy = Assay.zero ∧ z.alogq = l.alogq ∧ z.xq = l.xq ∧ z.noteq = l.noteq ∧ z.bars = [] ∧
           z.flog = (getCore s c).flog ∧ z.energy = l.energy ∧ z.peak = l.peak ∧
           (l.timed = false → z.pwrLatch = (getStr s (c / 4)).pwr) ∧
           ∀ g < l.groups,
             (∀ n : Fin 16, spGet 0 (z.group g).k n = l.k.getD n 0) ∧ (∀ n : Fin 4, spGet 0 (z.group g).seg n = l.segw.getD n 0) ∧
             (z.group g).trapvec = l.handler.setWidth 64 ∧ (z.group g).flags = [] ∧ (z.group g).c0 = none ∧
             (z.group g).c1 = none ∧
             ∀ j < 32, (z.group g).lane j = { Lane.zero with pc := l.entry, fstat := if l.dztrap then 0x10000 else 0 })) ∧
  (∀ (part : Fin 256) (die : Fin 8) (s : State) (l : Launch),
     let x := getPart s part
     x.waitStart = true → x.st = .idle → x.launch = some l → (∃ n ∈ x.strings, n / 32 = die.val) → x.lmap.Nodup →
     x.evicted = false → x.latches = [] →
     ∃ t, exec (.timedStart part die) s = .next t ∧ t.time = max s.time l.start.toNat ∧
       (getPart t part).st = .compute ∧ (getPart t part).waitStart = false ∧ (getPart t part).phase = x.phase ∧
       (getPart t part).stragAt = t.time ∧ (getPart t part).wdogAt = x.wdogAt ∧ t.dies =
         (modBinds s part (fun y => decide (y = .armed)) fun b =>
           if b.launched then { b with state := .running, launched := false } else b).dies ∧
       t.vault = s.vault ∧ t.strings = s.strings ∧
       (∀ c, getCore t c = if c ∈ x.lmap then { getCore s c with pwrLatch := (getStr s (c / 4)).pwr } else getCore s c))

/-- The flip to exchange (R190 to R192, R201, R207, R305, R389): once every core is SYNCED, contexts still open are closed and
the partition stands in FLIP_X, which carries out an order given before it; then the result word is settled, the counter
advances by one, the timers restart, and every core is in its exchange phase. An order given once every core is SYNCED waits for the
next; one that is due moves its core (R374, R375; the state that belongs to the place stays, log entry 18), or ends with STATUS 2, 3
or 4. The end of an exchange phase and the flip to compute (R182, R190 to R193, R239, R280, R371, R410, R411): with every core XDONE
and no failed audit, the reduction stores are written back, a generation whose TSEALs pass their checks is SEALED with the phase
in SEALPH, and the partition stands in FLIP_C, or is held; where the check of one fails it parks, and no seal takes effect (log entry
76). The flip waits with AUDWAIT for the audits, and, where an image is to be written, for the clauses in flight; a checkpoint writes
one image of each core, a superstep voted idempotent a snapshot where every context area may be used, under a number and the key of
the task. Filler ramps every core to the launch record's declared peak, the counter advances by one and every group
computes again; a core whose groups have all finished is SYNCED at once (the model's choice, log entry 49). That contexts still
open are closed on entry to FLIP_X (log entry 35), that the ramp's currents stand at once, its time having passed (log entry
19), and that FILLER_LEVEL does not bound them (log entry 79), are the model's choices. -/
def Obligations.PhaseFlips : Prop :=
  (∀ (part : Fin 256) (s : State),
     let x := getPart s part
     let cores := x.lmap
     x.launch ≠ none → x.holding = none → x.evicted = false → cores ≠ [] →
     (x.st = .compute → (∀ c ∈ cores, (getCore s c).pst = .synced) →
       (∃ c ∈ cores, ∃ g < (getCore s c).ngroups, (getCore s c).groupDone g = false) →
       ∃ t, exec (.flipX part) s = .next t ∧ getPart t part =
           { x with st := .flipX, migNow := x.mig.isSome && !x.migLate, migLate := false } ∧
         { t with cores := s.cores, parts := s.parts } = s ∧
         ∀ c ∈ cores, { getCore t c with asy := (getCore s c).asy } = getCore s c ∧
           ∀ k ∈ (getCore t c).asy.ctxs, k.closing = true) ∧
     (x.st = .flipX → x.migNow = false ∨ x.mig = none →
       ∃ t, exec (.flipX part) s = .next t ∧
         let y := getPart t part
         y.phase = x.phase + 1 ∧ y.stragAt = s.time ∧ y.wdogAt = s.time ∧ y.wdogDone = false ∧ y.stragPosted = false ∧ y.resw = [] ∧
         y.result = ((x.resw.head?).map (·.2)).getD x.result ∧ y.mig = x.mig ∧
         (x.hold = false → y.st = .exchange ∧ y.holding = none) ∧
         (x.hold = true → entryParked t part 12 = false → y.st = .flipX ∧ y.holding = some .exchange) ∧
         ∀ c ∈ cores, ((getCore t c).pst = .exchange ∨ (getCore t c).pst = .xdone) ∧ (getCore t c).named = false ∧
           (cores.Nodup → (getCore t c).exch.start = (getCore t c).spad)) ∧
     (∀ from_ target, x.st = .flipX → x.migNow = true → x.mig = some (from_, target) →
       let ends := fun (b : State) (status : Nat) => exec (.flipX part) s = .next (modPart b part fun y =>
         { y with mig := none, migNow := false, migLate := false, migStatus := status })
       (migScrubbing x = true ∨ (∃ c, cores[from_]? = some c ∧ (getCore s c).asy.queue ≠ []) → exec (.flipX part) s = .next s) ∧
       (migScrubbing x = false → cores[from_]? = none → ends s 4) ∧
       ∀ c, migScrubbing x = false → cores[from_]? = some c → (getCore s c).asy.queue = [] →
         let b := getCore s target
         let str := getStr s (target / 4)
         let eligible := b.ballast = false ∧ bit (partDies s part) (dieOf target) = true ∧
           ((str.part = some part.val ∧ b.part = none) ∨ stringFree s (target / 4) = true)
         let l := x.launch.getD Launch.zero
         let fits := fitsDie s (dieOf target) (stringCharge s (runningBind part) (l.peak, l.energy) [target / 4])
         (¬ eligible → ends s 2) ∧ (eligible → str.part = none → fits = false → ends s 3) ∧
         (eligible → (str.part = none → fits = true) → worldSlot s part = 0 → c ≠ target →
           ∃ t, exec (.flipX part) s = .next t ∧
             let y := getPart t part
             (y.st = .flipX ∧ y.phase = x.phase ∧ y.mig = none ∧ y.migStatus = 0 ∧ y.lmap = setAt cores from_ target) ∧
             (str.part = none → (getStr t (target / 4)).part = some part.val ∧ target / 4 ∈ y.strings) ∧ t.vault = s.vault ∧
             (let a := getCore s c
              getCore t target = { a with therm := b.therm, ctxBase := b.ctxBase, ckptBase := b.ckptBase, flog := b.flog
                                          gtoCap := b.gtoCap, current := b.current, ballast := b.ballast, named := false
                                          sel := 0, cnt := 0 }) ∧
             (getCore t c).part = none ∧ (getCore t c).groups = [] ∧ (getCore t c).spad = [] ∧
             ∀ k, k ≠ c → k ≠ target → getCore t k = getCore s k))) ∧
  (∀ (part : Fin 256) (s : State),
     let x := getPart s part
     let cores := x.lmap
     x.launch ≠ none → x.holding = none → x.evicted = false → cores ≠ [] → x.failed = none →
     (x.st = .exchange → (∀ c ∈ cores, (getCore s c).pst = .xdone) → redBlocked s part = false →
       let r := redWriteback s part
       (badSeals s part ≠ [] → exec (.flipC part) s = .next (parkSeals s part)) ∧
       (badSeals s part = [] → tensorPosts r part 13 = [] → exec (.flipC part) s = .next (modPart r part fun y =>
         if x.hold then { y with holding := some .flipC } else { y with st := .flipC })) ∧
       (∀ i, badSeals s part = [] → tensorPosts r part 13 ≠ [] → (∀ q ∈ tensorPosts r part 13, q.1 = i) → i < ttCount s →
         (∀ q ∈ tensorPosts r part 13, (getEnt r q.2.1 q.2.2).parked = false) →
         (getGen r i).owner = part → (getGen r i).state = 2 → liveDies s ≠ [] →
         ∃ t, exec (.flipC part) s = .next t ∧ (getGen t i).state = 3 ∧ (getGen t i).sealph = x.phase ∧
           (∀ q ∈ tensorPosts r part 13, (getEnt t q.2.1 q.2.2).done = true) ∧ (getPart t part).phase = x.phase ∧
           (x.hold = false → (getPart t part).st = .flipC) ∧ (x.hold = true → (getPart t part).holding = some .flipC))) ∧
     (x.st = .flipC → let k := (x.phase.toNat + 1) / 2
       let w := winOf s ((x.launch.map Launch.audit).getD 0)
       let waits := (isCkpt s part k = true ∧ x.passSs < x.ckptSs) ∨ (w < k ∧ x.passSs < k - w)
       let snaps := votedIdem s part = true ∧ allAreas (ctxArea s) cores ≠ none
       let settled := ∀ c ∈ cores, ∀ g < (getCore s c).ngroups,
         let gr := getGroup s c g
         gr.c0 = none ∧ gr.c1 = none ∧ gr.released = [] ∧ gr.out = []
       let begins := fun (idem : Bool) => readyCompute (modPart s part fun y => { y with idem := idem, snap := none }) part k
       let seq := s.gran.imgSeq + 1
       let holds := fun (t : State) (bases : List Nat) (off n : Nat) (image : Nat → Mem) => ∀ i < cores.length, ∀ o < n,
         let pa := bases.getD i 0 + off
         memGet t.vault (pa + o) = memGet (memLoad [] pa n (image (cores.getD i 0))) (pa + o) ∧
         ∃ z, findSeal t.side ((pa + o) / 64) = some z ∧ z.key = (getKey s (worldSlot s part)).key ∧ z.tid = seqTid seq ∧
           z.ver = seqVer seq
       let apart := fun (bases : List Nat) (n : Nat) => ∀ i < bases.length, ∀ j < bases.length, i ≠ j →
         bases.getD i 0 + n ≤ bases.getD j 0 ∨ bases.getD j 0 + n ≤ bases.getD i 0
       (waits → exec (.flipC part) s = .next (modPart s part fun y => { y with audWait := true })) ∧
       (¬ waits → snaps ∨ isCkpt s part k = true → ¬ settled →
         exec (.flipC part) s = .next (modPart s part fun y => { y with quiesce := true, audWait := false })) ∧
       (∀ bases, ¬ waits → ¬ snaps → isCkpt s part k = true → settled → apart bases 0x216000 →
         allAreas (fun c => areaOf (getCore s c).ckptBase 0x216000) cores = some bases →
         ∃ t, exec (.flipC part) s = .next t ∧
           let y := getPart t part
           y.st = .compute ∧ y.phase = x.phase + 1 ∧ y.idem = false ∧ y.ckptSs = k ∧ y.nckpt = x.nckpt + 1 ∧ t.gran.imgSeq = seq ∧
           (let l := x.ckpts ++ [{ ss := k, num := x.nckpt, seq := seq, result := x.result, resw := x.resw, bases := bases }]
            y.ckpts = l.drop (l.length - 2)) ∧
           holds t bases (0x10B000 * (x.nckpt % 2)) 0x10B000 fun c => contextImage (begins false) c x.savecnt.toNat seq) ∧
       (∀ bases, ¬ waits → votedIdem s part = true → isCkpt s part k = false → settled → apart bases 0x130000 →
         allAreas (ctxArea s) cores = some bases →
         ∃ t, exec (.flipC part) s = .next t ∧
           let y := getPart t part
           y.st = .compute ∧ y.phase = x.phase + 1 ∧ y.idem = true ∧ t.gran.imgSeq = seq ∧
           y.snap = some { seq := seq, resw := x.resw, bases := bases } ∧ y.ckpts = x.ckpts ∧
           holds t bases 0x10B000 0x1B000 fun c => recordsImage (begins true) c x.savecnt.toNat seq) ∧
       (¬ waits → ¬ snaps → isCkpt s part k = false → cores.Nodup →
       ∃ t, exec (.flipC part) s = .next t ∧
         let y := getPart t part
         y.st = .compute ∧ y.phase = x.phase + 1 ∧ y.stragAt = t.time ∧ y.stragPosted = false ∧ y.idem = false ∧ y.snap = none ∧
         t.vault = s.vault ∧ s.time ≤ t.time ∧
         (∀ n, { getStr t n with clearSince := (getStr s n).clearSince } = { getStr s n with
           pwr := if cause2 t n = true ∧ (∃ m ∈ boundStrings s part, m / 32 = n / 32) then 2 else (getStr s n).pwr }) ∧
         (∀ c, c ∉ cores → { getCore t c with current := (getCore s c).current } = getCore s c) ∧
         ∀ c ∈ cores,
           let b := getCore s c
           let z := getCore t c
           ((∃ g < z.ngroups, z.groupDone g = false) → z.pst = .compute) ∧
           ((∀ g < z.ngroups, z.groupDone g = true) → z.eng.queue = [] → z.pst = .synced) ∧
           z.named = false ∧ z.exch.gate = none ∧ z.exch.marks = [] ∧ z.exch.start = [] ∧
           z.peak = b.peakNext.getD b.peak ∧ z.energy = b.energyNext.getD b.energy ∧
           (b.ballast = false → b.part ≠ none → ∀ l, x.launch = some l → z.current = max b.current l.peak) ∧
           (x.latches = [] → z.pwrLatch = (getStr t (c / 4)).pwr) ∧
           ∀ g l, (z.group g).synced = false ∧ ((z.group g).lane l).mark = false ∧
             { (z.group g).lane l with mark := ((getGroup s c g).lane l).mark } = (getGroup s c g).lane l)))

/-- FINAL and completion (R192, R206, R207, R210, R442, R453): with every group finished the counter advances once, to odd, and the
result word is settled, towards HELD where HOLD is set; once every core is XDONE the reduction stores are written back and the seals
take effect, or a failing one parks (log entry 76), and HOLD holds the task again; a task whose last exchange has ended completes with
STATUS 0, or 3 when it started late, and an aborted one with STATUS 1, its records DONE with the result word. The records of a world go
to SCRUB: TROOT.VALID clears, its key slot and the other slots of its session that no one else uses go to ZEROISING until every die
has erased their keys, and its scrub list keeps its strings back. -/
def Obligations.TaskEnds : Prop :=
  ∀ (part : Fin 256) (s : State),
    let x := getPart s part
    let cores := x.lmap
    let word := ((x.resw.head?).map (·.2)).getD x.result
    let ends := fun (status : Nat) => ∃ t, exec (.taskComplete part) s = .next t ∧
      let y := getPart t part
      y.st = .idle ∧ y.launch = none ∧ y.lmap = [] ∧ y.strings = [] ∧ y.status = status ∧ y.result = word ∧
      t.vault = s.vault ∧
      (∀ c ∈ cores, (getCore t c).part = none ∧ (getCore t c).spad = (getCore s c).spad ∧
        (getCore t c).flog = (getCore s c).flog) ∧
      (∀ n ∈ x.strings, (getStr s n).part = some part.val → (getStr t n).part = none) ∧
      ∀ d < 8, ∀ i b, spFind (getDie s d).binds i = some b → b.part = part.val → b.state = .running →
        ∃ b', spFind (getDie t d).binds i = some b' ∧ b'.state = .done ∧ b'.status = BitVec.ofNat 32 status ∧ b'.result = word
    let world := worldSlot s part
    let session := (getKey s world).session
    let zeroised := fun (n : Nat) (k : KeySlot) =>
      n = world ∨ (n ≠ 0 ∧ k.state = .loaded ∧ k.exp = false ∧ k.bound = false ∧ k.session = session)
    let tears := fun (status : Nat) => ∃ t, exec (.taskComplete part) s = .next t ∧
      let y := getPart t part
      y.st = .idle ∧ y.launch = none ∧ y.lmap = [] ∧ y.strings = [] ∧ y.status = status ∧ y.result = word ∧
      t.vault = s.vault ∧ (∀ c ∈ cores, (getCore t c).part = none ∧ (getCore t c).spad = (getCore s c).spad) ∧
      (∀ d < 8, ∀ i b, spFind (getDie s d).binds i = some b → b.part = part.val → b.state = .running →
        ∃ b', spFind (getDie t d).binds i = some b' ∧ b'.state = .scrub ∧ b'.status = BitVec.ofNat 32 status ∧ b'.result = word) ∧
      (x.tearing = 0 → bit y.troot 0 = false ∧ (∀ n ∈ x.strings, (getStr s n).part = some part.val → n ∈ y.scrub.strings) ∧
        ((s.gran.keys.map (·.1)).Nodup → s.gran.present &&& 0x06FF ≠ 0 → y.tearing = 3 ∧
          ∀ n k, spFind s.gran.keys n = some k →
            (zeroised n k → getKey t n = { k with state := .zeroising, bound := false } ∧
              (n, s.gran.present &&& 0x06FF) ∈ y.erasing) ∧
            (¬ zeroised n k → getKey t n = k)))
    x.launch ≠ none → x.evicted = false →
    (∀ d < 8, ((getDie s d).binds.map (·.1)).Nodup) →
    (x.st = .compute → x.holding = none → cores ≠ [] →
      (∀ c ∈ cores, (getCore s c).pst = .synced ∧ ∀ g < (getCore s c).ngroups, (getCore s c).groupDone g = true) →
      ∃ t, exec (.finalStart part) s = .next t ∧
        let y := getPart t part
        y.st = .final ∧ y.phase = x.phase + 1 ∧ y.finalDone = false ∧ y.stragAt = s.time ∧ y.result = word ∧ y.resw = [] ∧
        (x.hold = false → y.holding = none) ∧ (x.hold = true → entryParked t part 12 = false → y.holding = some .final) ∧
        ∀ c ∈ cores, (getCore t c).pst = .exchange ∨ (getCore t c).pst = .xdone) ∧
    (x.st = .final → x.holding = none → x.finalDone = false → x.failed = none → cores ≠ [] →
      (∀ c ∈ cores, (getCore s c).pst = .xdone) → redBlocked s part = false →
      let r := redWriteback s part
      (badSeals s part ≠ [] → exec (.taskComplete part) s = .next (parkSeals s part)) ∧
      (badSeals s part = [] → tensorPosts r part 13 = [] → exec (.taskComplete part) s = .next (modPart r part fun y =>
        { y with finalDone := true, holding := if x.hold then some .final else none }))) ∧
    (x.st = .final → x.holding = none → x.finalDone = true → x.failed = none → cores ≠ [] →
      (∀ c ∈ cores, (getCore s c).asy.queue = []) →
      (world = 0 → ends (if x.late then 3 else 0)) ∧ (world ≠ 0 → tears (if x.late then 3 else 0))) ∧
    (x.st = .aborting → (world = 0 → ends 1) ∧ (world ≠ 0 → tears 1))

/-- HELD (R192, R200, R359): it is entered once clauses, long-latency instructions and assay commands are over; clearing HOLD
resumes at the state it interrupted, and the straggler timer goes on from where it stood; a save stays good where HELD comes
again with no byte of its images changed (R368). A task in ABORTING stays there.
Stragglers, aborts and discards (R199 to R201, R207, R350, R372): one event 4 when the timer reaches LIMIT_NS in a running
state; a write to STRAG_LIMIT keeps 40 bits and restarts the timer; ABORT stops the task, also one about to be held; DISCARD
is ignored unless the superstep is idempotent and computing and its snapshot reads back (that it has no effect where the snapshot
does not read back is the model's choice, log entry 33); else the phase starts again, or the partition goes towards HELD. -/
def Obligations.PhaseControl : Prop :=
  (∀ (part : Fin 256) (s : State),
     let x := getPart s part
     (∀ r, x.holding = some r → x.st ≠ .aborting → x.failed = none → x.evicted = false →
       (∀ c ∈ x.lmap, (getCore s c).asy.queue = [] ∧ ∀ g < (getCore s c).ngroups,
         let gr := getGroup s c g
         gr.c0 = none ∧ gr.c1 = none ∧ gr.released = [] ∧ gr.out = []) →
       exec (.heldEntry part) s = .next (modPart s part fun y =>
         { y with st := .held, resume := r, holding := none, stragAt := s.time - y.stragAt
                  saved := y.saved && decide (partImages s part y.savecnt.toNat y.savedSeq.toNat = y.savedImg) })) ∧
     exec (.phCtlHold part true) s = .next (modPart s part fun y => { y with hold := true }) ∧
     (∀ r, x.holding = some r → x.st ≠ .aborting → exec (.phCtlHold part false) s =
       .next (modPart s part fun y => { y with hold := false, st := r, holding := none })) ∧
     (x.holding = none → x.st = .held → x.busy = none → x.evicted = false → exec (.phCtlHold part false) s =
       .next (modPart s part fun y => { y with hold := false, st := x.resume, stragAt := s.time - y.stragAt })) ∧
     (x.holding = none → x.st ≠ .held → exec (.phCtlHold part false) s = .next (modPart s part fun y => { y with hold := false }))) ∧
  (∀ (part : Fin 256) (v : Word) (s : State),
     let x := getPart s part
     (x.launch ≠ none → x.stragLimit ≠ 0 → x.stragPosted = false →
       x.st = .compute ∨ x.st = .flipX ∨ x.st = .exchange ∨ x.st = .flipC ∨ x.st = .final →
       ∃ t e, exec (.stragglerTimeout part) s = .next (postEvent t (homeDie x) e) ∧
         t = modPart { s with time := max s.time (x.stragAt + x.stragLimit.toNat) } part
           (fun y => { y with strag := true, stragPosted := true }) ∧
         e.kind = 4 ∧ e.part = part.val ∧ e.phase = x.phase ∧ e.time = t.time) ∧
     (∃ t, exec (.stragLimitWrite part v) s = .next t ∧ { t with parts := s.parts } = s ∧
       (∀ p, p ≠ part.val → getPart t p = getPart s p) ∧
       getPart t part = { x with stragLimit := BitVec.ofNat 64 (v.toNat % 2 ^ 40), stragPosted := false
                                 stragAt := if x.st = .held then 0 else s.time }) ∧
     exec (.phCtlStragClear part) s = .next (modPart s part fun y => { y with strag := false }) ∧
     (x.launch ≠ none → x.st ≠ .aborting → exec (.phCtlAbort part) s =
       .next (modPart s part fun y => { y with st := .aborting, waitStart := false, holding := none })) ∧
     (x.launch = none → exec (.phCtlAbort part) s = .next s) ∧
     (x.idem = false ∨ x.st ≠ .compute ∨ x.snap = none → exec (.phCtlDiscard part) s = .next s) ∧
     ∀ sn, x.idem = true → x.st = .compute → x.snap = some sn → x.evicted = false →
       (snapReadable s part sn = false → exec (.phCtlDiscard part) s = .next s) ∧
       (snapReadable s part sn = true → ∃ t, exec (.phCtlDiscard part) s = .next t ∧
         let y := getPart t part
         y.phase = x.phase ∧ y.stragAt = t.time ∧ y.stragPosted = false ∧ y.resw = sn.resw ∧ y.st = .compute ∧
         y.holding = (if x.hold then some .compute else x.holding) ∧
         ∀ c ∈ x.lmap, (getCore t c).exch.marks = [] ∧ (getCore t c).energyNext = none ∧ (getCore t c).peakNext = none))

/-- A task that aborts is not about to be held (R192): every step keeps it so. -/
def Obligations.AbortHoldsNothing : Prop :=
  ∀ s t : State, step s = .next t → (∀ p < 256, (getPart s p).st = .aborting → (getPart s p).holding = none) →
    ∀ p < 256, (getPart t p).st = .aborting → (getPart t p).holding = none

/-- Maintenance requests (R220, R226, R227, R231, R443): with an enabled queue, Pumice copies and zeroes runs of vault bytes,
a bad request has status 2 and changes no memory, a commit writes every replica (no write of another device waiting, no entry in
an exchange queue), and each completion is notified with its tag. That a LEN which is not a multiple of 65,536, or a DIE above
7, has status 2 is the model's choice (log entry 60). -/
def Obligations.MaintenanceRequests : Prop :=
  ∀ (die : Fin 8) (part : Fin 256) (r : MaintReq) (line : BitVec 512) (v : Word) (s : State),
    let runs := fun (i : Instr) (status : Nat) (f : Nat → Byte) => ∃ t, exec i s = .next t ∧
      { t with vault := s.vault, side := s.side, dies := s.dies, written := s.written } = s ∧
      (∀ d, d ≠ die.val → (getDie t d).maintDue = (getDie s d).maintDue) ∧
      (getDie t die).maintDue = (getDie s die).maintDue ++ [{ tag := r.tag, status := status }] ∧
      ∀ p, memGet t.vault p = f p
    let keeps := memGet s.vault
    let memory := fun (a : Nat) => a % 65536 = 0 ∧ ∀ i < r.len.toNat / 65536, paOk (a + 65536 * i) = true
    let pumice := r.rsv = 0 ∧ r.home = 0 ∧ r.len.toNat % 65536 = 0 ∧ memory r.dst.toNat
    let ctl := (getDie s die).maintCtl
    let dst := r.dst.toNat
    let live := (List.range 8).filter fun d => !bit s.gran.excluded d && bit s.gran.present d
    let replicas := fun (bytes : Nat) (w : Nat) (p : Nat) =>
      if live.any fun d => decide (d * 2 ^ 36 + dst ≤ p) && decide (p < d * 2 ^ 36 + dst + bytes) then
        BitVec.ofNat 8 (w / 256 ^ (p % 2 ^ 36 - dst)) else keeps p
    let target := fun (align : Nat) => s.lands = [] ∧ (∀ e ∈ s.cores, xqAll e.2 = []) ∧ r.rsv = 0 ∧ r.len = 0 ∧ r.home.toNat < 8 ∧ dst % align = 0 ∧ dst < 2 ^ 36 ∧
      paOk dst = true ∧ inReplData s dst = true ∧ (∀ k < 64, inTable s (dst + k) = false) ∧
      ∀ n ∈ allNodes s, n.loc + 4096 ≤ 2 ^ 36 ∧ (dst + 64 ≤ n.loc ∨ n.loc + 4096 ≤ dst)
    (pumice → memory r.src.toNat → 1 ≤ qwDepth ctl → runs (.pumiceCopy die r) 0 fun p =>
      if dst ≤ p ∧ p < dst + r.len.toNat then keeps (r.src.toNat + (p - dst)) else keeps p) ∧
    (¬ (pumice ∧ memory r.src.toNat) → 1 ≤ qwDepth ctl → runs (.pumiceCopy die r) 2 keeps) ∧
    (pumice → r.src = 0 → 1 ≤ qwDepth ctl → runs (.pumiceZero die r) 0 fun p =>
      if dst ≤ p ∧ p < dst + r.len.toNat then 0 else keeps p) ∧
    (¬ (pumice ∧ r.src = 0) → 1 ≤ qwDepth ctl → runs (.pumiceZero die r) 2 keeps) ∧
    (target 8 → 1 ≤ qwDepth ctl → runs (.maintCommit8 die r) 0 (replicas 8 r.src.toNat)) ∧
    (¬ (r.rsv = 0 ∧ r.len = 0 ∧ r.home.toNat < 8 ∧ dst % 8 = 0 ∧ dst < 2 ^ 36 ∧ paOk dst = true) → 1 ≤ qwDepth ctl →
      runs (.maintCommit8 die r) 2 keeps) ∧
    (qwDepth ctl = 0 → exec (.maintCommit8 die r) s = .next s) ∧
    (target 64 → r.src = 0 → 3 ≤ qwDepth ctl → runs (.maintCommitLine die r line) 0 (replicas 64 line.toNat)) ∧
    (∀ m rest, (getDie s die).maintDue = m :: rest → exec (.maintComplete die) s = .next
      (postNote (modDie s die fun x => { x with maintDue := rest }) die 4 0xFF m.status m.tag)) ∧
    ∃ t, exec (.trootWrite part v) s = .next t ∧ { t with parts := s.parts } = s ∧
      (∀ p, p ≠ part.val → getPart t p = getPart s p) ∧
      ∃ w, getPart t part = { getPart s part with troot := w } ∧
        ∀ k < 64, w.getLsbD k = (v.getLsbD k && (decide (k = 0) || decide (12 ≤ k ∧ k < 36)))

/-- Starting an entry (R224, R272, R277, R280): entries start in queue order, none before one that may still start; an entry
that may start is STARTED, and its first request goes out now; an XCNT is DONE at once; a transfer translates the pages that it
touches. A walk that reaches a leaf counts the page in ACC, once for each page and to at most 4,095, with a notification to the
die's firmware as the count meets ACC_THRESH; a write through a leaf with
WBLK set is not translated yet (R229). A TOPEN whose open has taken effect is DONE; one tried again that a check refuses parks.
Entries complete (R191, R258, R272, R278, R279): a fence and an XPROM once their conditions hold, an XPROM making what the named die's management
core has stored visible to every die (R261; log entry 66), a reduction once it is
applied, a scratchpad store with its bytes in the target core, a load, store or copy line by line with each line's bytes, a read
from another device with the bytes it serves, a write or reduction to one once it is copied into the hold of its die, where a full
hold makes it wait (R408; the uses that a collective counts then are log entry 13); the entry is
DONE and its LEN leaves XPEND. A TSEAL does not start: its effect falls at the end of the phase (R280). A store takes its source as the phase found it, with its core's own fenced writes (R255).
That a transfer translates its pages at its start, and what it could not translate once more at each attempt, is the model's reading
(log entry 72). -/
def Obligations.ExchangeProgress : Prop :=
  (∀ (die : Fin 8) (core : Fin 128) (pos : Nat) (s : State),
     let c := 128 * die.val + core.val
     let e := getEnt s c pos
     let p := (getCore s c).part.getD 256
     let marked := fun (st : BitVec 8) => spadWrite s c (xqAddr (getCore s c) pos + 5) [st]
     let sent := modExch (marked ((e.state ||| 1) &&& 0xFB)) c fun x =>
       { x with sentAt := spSet x.sentAt pos s.time, xlat := spErase x.xlat pos }
     let goes := fun (t : State) => exec (.exchangeEntryStart die core pos) s = .next t
     exchanging (partOf s c) = true → inXq s c pos = true → e.started = false → e.done = false → e.parked = false →
     notHeld s c pos = true → (e.gated = true → gateOpen s c pos = true) →
     (e.op = 3 ∨ e.op = 8 ∨ e.op = 9 → tagRoom s c pos = true) → (e.op = 11 → promReady s c pos = true) →
     ((∃ q ∈ xqBefore (getCore s c) pos, startable s c q = true) ∨ e.op = 13 → goes s) ∧
     ((∀ q ∈ xqBefore (getCore s c) pos, startable s c q = false) →
       (e.op = 14 → goes (marked (e.state ||| 3))) ∧
       (e.op = 10 ∨ e.op = 11 ∨ (e.op ≤ 9 ∧ e.far ≠ 0 ∧ e.op ≠ 2) → goes sent) ∧
       (e.op ≤ 9 → goes (translateEnt sent c pos)) ∧
       (e.op = 12 → openedNow s p e.fara.toNat = true → goes (finishEnt s c pos e)) ∧
       (e.op = 12 → openedNow s p e.fara.toNat = false → openGen s p e.fara.toNat = none → goes (parkEnt s c pos 0x41 0)))) ∧
  (∀ (d p va : Nat) (write : Bool) (s : State) (t : Xlat) (l : Leaf),
     pageOf t.pages va write = none → translateVa s d p va write = .ok l →
     let acc := fld (readPte s d l.at_) 63 52
     let r := walkPage d p (s, t) (va, write)
     let frame := va / 65536
     (frame ∈ t.counted ∨ acc = 4095 → r.1 = s) ∧ (frame ∈ t.counted → r.2.counted = t.counted) ∧
     (frame ∉ t.counted → 0 < l.size → 65536 ∣ l.size →
       ∀ n, n ∈ r.2.counted ↔ n ∈ t.counted ∨ n * 65536 / l.size = va / l.size) ∧
     (frame ∉ t.counted → acc < 4095 → acc + 1 ≠ fld (getDie s d).accThresh 11 0 →
       { r.1 with vault := s.vault, side := s.side } = s ∧ fld (readPte r.1 d l.at_) 63 52 = acc + 1) ∧
     (frame ∉ t.counted → acc < 4095 → acc + 1 = fld (getDie s d).accThresh 11 0 → ∃ b,
       { b with vault := s.vault, side := s.side } = s ∧ fld (readPte b d l.at_) 63 52 = acc + 1 ∧
       r.1 = mcAppend b d (getDie s d).nqCtl 16 (leBytes 1 1 ++ leBytes 1 d ++ leBytes 1 p ++ [0] ++ leBytes 2 (acc + 1) ++
         leBytes 2 0 ++ leBytes 8 (wd (va - va % l.size)).toNat)) ∧
     r.2.pages = if write = true ∧ bit l.pte 5 = true then t.pages
       else t.pages ++ [{ va := va, write := write, at_ := l.at_, pte := l.pte, size := l.size }]) ∧
  (∀ (die : Fin 8) (core : Fin 128) (pos : Nat) (s : State),
     let c := 128 * die.val + core.val
     let e := getEnt s c pos
     let p := (getCore s c).part.getD 256
     let done := fun (b : State) =>
       retest (modExch (spadWrite b c (xqAddr (getCore b c) pos + 5) [e.state ||| 3]) c fun x =>
         { x with xpend := x.xpend - e.len, applied := x.applied.filter fun q => decide (q ≠ pos)
                  resent := spErase x.resent pos, sentAt := spErase x.sentAt pos, xlat := spErase x.xlat pos }) c
     let mark := fun (b : State) (t lo : Nat) (w : Bool) (bs : List Byte) => modExch b t fun x =>
       { x with marks := { lo := lo, len := e.len, write := w, core := c, pos := pos, xred := none, data := bs
                           past := false } :: x.marks }
     let source := sourceBytes s c pos e.spad e.len
     let walked := translateEnt s c pos
     let pages := (xlatOf walked c pos).pages
     let goes := fun (i : Instr) (b : State) => exec i s = .next (done b)
     let line := 0 < e.len ∧ e.fara.toNat % 64 + e.len ≤ 64
     exchanging (partOf s c) = true → inXq s c pos = true → e.started = true → e.done = false → e.parked = false →
     (e.op = 10 → fenceDone s c pos = true → goes (.exchangeTransferDone die core pos) s) ∧
     (e.op = 11 → promReady s c pos = true → goes (.xpromComplete die core pos) (promote s (e.fara.toNat % 8))) ∧
     (∀ d a, spFind (promote s d).dieScope a = if a / 2 ^ 36 = d then none else spFind s.dieScope a) ∧
     (3 ≤ e.op → e.op ≤ 9 → e.far ≠ 2 → (getCore s c).exch.applied.contains pos = true →
       goes (.exchangeTransferDone die core pos) s) ∧
     (∀ t, e.op = 1 → e.far = 1 → 0 < e.len → (getPart s p).lmap[e.fara.toNat]? = some t →
       inQueueArea (getCore s t) e.farb.toNat e.len = false → conflicts s c pos c e.spad e.len false none = false →
       conflicts s c pos t e.farb.toNat e.len true none = false →
       goes (.exchangeTransferDone die core pos)
         (spadWrite (mark (mark s c e.spad false []) t e.farb.toNat true source) t e.farb.toNat source)) ∧
     (∀ bs, e.op = 0 → e.far = 0 → line → inQueueArea (getCore s c) e.spad e.len = false →
       conflicts s c pos c e.spad e.len true none = false → rangeCheck pages walked die p e.fara.toNat e.len false = .ok →
       gRead pages walked die p e.fara.toNat e.len = .ok bs →
       goes (.exchangeTransferDone die core pos)
         (spadWrite (mark (noteRead walked p e.fara.toNat) c e.spad true bs) c e.spad bs)) ∧
     (∀ s', e.op = 1 → e.far = 0 → line → conflicts s c pos c e.spad e.len false none = false →
       rangeCheck pages walked die p e.fara.toNat e.len true = .ok →
       gWrite pages (mark walked c e.spad false []) die p e.fara.toNat source e.replay false = .ok s' →
       goes (.exchangeTransferDone die core pos) s') ∧
     let va := e.fara.toNat
     let lines := (va + e.len - 1) / 64 + 1 - va / 64
     let at_ := fun (i : Nat) => if i = 0 then va else (va / 64 + i) * 64
     let n := fun (i : Nat) => min (va + e.len) ((va / 64 + i + 1) * 64) - at_ i
     (∀ (b : Nat → State) (bs : Nat → List Byte), e.op = 0 → e.far = 0 → 0 < e.len → inQueueArea (getCore s c) e.spad e.len = false →
       conflicts s c pos c e.spad e.len true none = false → rangeCheck pages walked die p va e.len false = .ok → b 0 = walked →
       (∀ i < lines, (bs i).length = n i ∧ gRead pages (b i) die p (at_ i) (n i) = .ok (bs i) ∧
         b (i + 1) = spadWrite (modExch (noteRead (b i) p (at_ i)) c fun x =>
           { x with marks := { lo := e.spad + (at_ i - va), len := n i, write := true, core := c, pos := pos, xred := none
                               data := bs i, past := false } :: x.marks }) c (e.spad + (at_ i - va)) (bs i)) →
       goes (.exchangeTransferDone die core pos) (b lines)) ∧
     (∀ b : Nat → State, e.op = 1 → e.far = 0 → 0 < e.len → conflicts s c pos c e.spad e.len false none = false →
       rangeCheck pages walked die p va e.len true = .ok → b 0 = mark walked c e.spad false [] →
       (∀ i < lines, gWrite pages (b i) die p (at_ i) ((source.drop (at_ i - va)).take (n i)) e.replay false = .ok (b (i + 1))) →
       goes (.exchangeTransferDone die core pos) (b lines)) ∧
     (∀ (b : Nat → State) (bs : Nat → List Byte), e.op = 2 → 0 < e.len →
       rangeCheck pages walked die p e.farb.toNat e.len false = .ok → rangeCheck pages walked die p va e.len true = .ok →
       b 0 = walked →
       (∀ i < lines,
         let from_ := linesOf (e.farb.toNat + (at_ i - va)) (n i)
         readRange pages (b i) die p from_ = .ok (bs i) ∧
         gWrite pages (from_.foldl (fun b x => noteRead b p x.1) (b i)) die p (at_ i) (bs i) e.replay false = .ok (b (i + 1))) →
       goes (.exchangeTransferDone die core pos) (b lines)) ∧
     let dev := fld e.farb 63 46
     (∀ bs, e.op = 0 → e.far = 2 → 0 < e.len → inQueueArea (getCore s c) e.spad e.len = false →
       conflicts s c pos c e.spad e.len true none = false → offCheck walked e = none → remoteBytes walked e = some bs →
       goes (.exchangeTransferDone die core pos) (spadWrite (mark (takePort walked c dev) c e.spad true bs) c e.spad bs)) ∧
     ((e.op = 1 ∨ 3 ≤ e.op ∧ e.op ≤ 9) → e.far = 2 → 0 < e.len → offCheck walked e = none →
       let sig := if e.op = 1 then none else some e.sig
       let item : Outbound :=
         { die := die, core := c, part := p, task := (getPart s p).taskid, ss := (getPart s p).phase.toNat / 2
           dev := BitVec.ofNat 18 dev, tid := e.fara.setWidth 48, off := fld e.farb 45 0
           op := if e.op = 1 then .write
             else .xred (Fin.ofNat 16 e.op) (decide (e.ty = 3)) (Fin.ofNat 64 e.qw) (Fin.ofNat 1024 c) e.tag
           data := source, sent := [], push := none, seq := (xqBefore (getCore s c) pos).length, parked := none, port := none
           sentAt := 0, tries := 0, image := [], side := [] }
       let held := sumOf ((s.gran.hold.filter fun o => decide (o.die = die.val) && decide (o.push = none)).map (·.data.length))
       let room := fld s.gran.geodeCtl 15 8 * 2 ^ 20
       let b := modExch walked c fun x => { x with marks := { lo := e.spad, len := e.len, write := false, core := c, pos := pos
                                                              xred := sig, data := [], past := false } :: x.marks }
       conflicts s c pos c e.spad e.len false sig = false → s.gran.hold.contains item = false →
       (held + source.length ≤ room → goes (.exchangeTransferDone die core pos) (modGran b fun g =>
         { g with hold := g.hold ++ [item]
                  colls := g.colls.map fun k => if k.tid = item.tid ∧ (item.task, item.ss) ∉ k.uses then
                    { k with uses := k.uses ++ [(item.task, item.ss)] } else k })) ∧
       (room < held + source.length → exec (.exchangeTransferDone die core pos) s = .next walked)))

/-- Parked entries and reruns (R256, R275, R283, R284, R351, R353, R354): a fault parks the entry, its core stays in EXCHANGE
and event 1 names the cause; a request that no answer meets within 100 us, 5 ms for a read across Bilsol, is sent again, three
times, then the entry parks with LINK, as does a write to a device that no port leads to; one to an invalid collective parks with
0x48, and one that is neither ADD nor MADD with 0x41 (R446, R447, R469); a reduction whose tag was applied is DONE without a second effect; XFCTL replays one entry or
reruns the phase. That the test for a queue area is made on the whole range before any byte moves (log entry 73), and that a write
across Bilsol, which its own die's hold answers, has the 100 us of the package (log entry 74), are the model's choices. -/
def Obligations.ExchangeFaults : Prop :=
  ∀ (die : Fin 8) (core : Fin 128) (pos : Nat) (s : State) (part : Fin 256),
    let c := 128 * die.val + core.val
    let e := getEnt s c pos
    let p := (getCore s c).part.getD 256
    let state := fun (b : State) (st : BitVec 8) => spadWrite b c (xqAddr (getCore b c) pos + 5) [st]
    let index := (xqBefore (getCore s c) pos).length % max 1 (qwDepth (getCore s c).xq)
    let parks := fun (i : Instr) (b : State) (cause : Byte) (addr : Nat) =>
      let b' := modExch (state b (e.state ||| 4)) c fun x =>
        { x with applied := x.applied.filter (fun q => decide (q ≠ pos)), resent := spErase x.resent pos
                 xlat := spErase x.xlat pos }
      let b' := if (getCore b c).pst = .xdone then modCore b' c fun x => { x with pst := .exchange } else b'
      exec i s = .next (postEvent b' die (coreEvent b' c 1 cause (wd (index * 2 ^ 48 + addr % 2 ^ 48))))
    let running := exchanging (partOf s c) = true ∧ inXq s c pos = true ∧ e.started = true ∧ e.done = false ∧ e.parked = false
    let applied := (getCore s c).exch.applied.contains pos
    let late := { s with time := max s.time (spGet 0 (getCore s c).exch.sentAt pos +
      (if e.far = 2 ∧ e.op = 0 ∧ ownDevice s (fld e.farb 63 46) = false then 5000000 else 100000)) }
    let walked := translateEnt s c pos
    (running → applied = false → e.op = 0 → inQueueArea (getCore s c) e.spad e.len = true →
      parks (.exchangeFaultPark die core pos) walked 0x41 e.spad) ∧
    (running → applied = false → e.op = 1 → conflicts s c pos c e.spad e.len false none = true →
      parks (.exchangeFaultPark die core pos) walked 0x44 e.spad) ∧
    (∀ k : Coll, running → applied = false → e.op = 1 ∨ (3 ≤ e.op ∧ e.op ≤ 9) → e.far = 2 →
      conflicts s c pos c e.spad e.len false (if e.op = 1 then none else some e.sig) = false →
      (collOf s (e.fara.setWidth 48) = some k → k.valid = false → parks (.exchangeFaultPark die core pos) walked 0x48 e.fara.toNat) ∧
      (collOf s (e.fara.setWidth 48) = some k → k.valid = true → e.op ≠ 3 → e.op ≠ 9 →
        parks (.exchangeFaultPark die core pos) walked 0x41 e.fara.toNat) ∧
      (collOf s (e.fara.setWidth 48) = none → linkUp s (fld e.farb 63 46) = false →
        parks (.exchangeFaultPark die core pos) walked 0x46 e.fara.toNat)) ∧
    (∀ k a, running → applied = false → e.op = 2 →
      rangeCheck (xlatOf walked c pos).pages walked die p e.farb.toNat e.len false = .fault k a →
      parks (.exchangeFaultPark die core pos) walked k a.toNat) ∧
    (running → e.op ≤ 9 → waiting s c pos = false → spGet 0 (getCore s c).exch.resent pos < 3 →
      exec (.responseTimeout die core pos) s = .next (modExch late c fun x =>
        { x with resent := spSet x.resent pos (spGet 0 x.resent pos + 1), sentAt := spSet x.sentAt pos late.time
                 applied := x.applied.filter fun q => decide (q ≠ pos) })) ∧
    (running → e.op ≤ 9 → waiting s c pos = false → 3 ≤ spGet 0 (getCore s c).exch.resent pos →
      parks (.responseTimeout die core pos) late 0x46 e.fara.toNat) ∧
    (running → applied = false → (e.op = 3 ∨ e.op = 8 ∨ e.op = 9) → e.far ≠ 2 → (appliedTags s c e).contains e.tag = true →
      let b := finishEnt s c pos e
      exec (.appliedResponseLost die core pos) s =
        .next (postEvent b die (coreEvent s c 5 0x47 (wd (index * 2 ^ 48 + e.tag.toNat)))) ∧
      exec (.xredRequestApply die core pos) s = .next s) ∧
    (∀ k : BitVec 16, (getCore s c).part = some part.val → (xqAll (getCore s c))[k.toNat]? = some pos → e.parked = true →
      e.op ≤ 9 → e.far ≠ 0 → e.op ≠ 2 → ∃ t, exec (.xfctlReplay part (BitVec.ofNat 10 c) k) s = .next t ∧
        { t with cores := s.cores } = s ∧ (∀ k, k ≠ c → getCore t k = getCore s k) ∧
        { getCore t c with spad := (getCore s c).spad, exch := (getCore s c).exch } = getCore s c ∧
        (let x := (getCore s c).exch
         (getCore t c).exch = { x with sentAt := spSet x.sentAt pos s.time, xlat := spErase x.xlat pos }) ∧
        ∀ a, memGet (getCore t c).spad a =
          if a = xqAddr (getCore s c) pos + 5 then (e.state ||| 9) &&& 0xFB else memGet (getCore s c).spad a) ∧
    (exchanging (getPart s part) = false → exec (.xfctlAbandon part) s = .next s) ∧
    (exchanging (getPart s part) = true → (getPart s part).lmap.Nodup → ∃ t, exec (.xfctlAbandon part) s = .next t ∧
      { t with cores := s.cores } = s ∧ (∀ k, k ∉ (getPart s part).lmap → getCore t k = getCore s k) ∧
      ∀ k ∈ (getPart s part).lmap,
        let x := getCore s k
        let y := getCore t k
        (y.pst = .exchange ∨ y.pst = .xdone) ∧ y.exch.start = x.exch.start ∧ (∀ m ∈ y.exch.marks, m.past = true ∧ m.write = true) ∧
        y.exch.applied = [] ∧ y.exch.resent = [] ∧ y.exch.sentAt = [] ∧
        y.exch.xlat = [] ∧ y.exch.xtag = x.exch.xtag ∧ y.exch.gate = x.exch.gate ∧ y.xq = x.xq ∧
        (qCount x.spad (qwBase x.xq) (qwDepth x.xq) ≤ qwDepth x.xq →
          ∀ q ∈ xqAll x, let f := getEnt s k q
            (getEnt t k q).state = ((f.state &&& 0xF8) ||| 8) |||
              if f.done = true ∧ (f.op = 3 ∨ f.op = 8 ∨ f.op = 9) then f.state &&& 2 else 0))

/-- A reduction inside the package (R238, R239, R273, R274). Each 8-byte element takes its old value and the source's, under the
member, its signedness and its modulus, the source's bytes as the phase found them, with the writes of the core's own earlier
transfers that an XFENCE orders before this one (R255, R256, R257). Into a scratchpad, another core's or the core's own, it takes the
elements there. Into a line of an OPEN generation, of which the lines of one request are one here, it takes those of the line's entry
in the reduction store where that is of the same operation, type and modulus, else of a new entry of the HOME die, filled first, with
the line's bit set; where the line has another first write, an entry of another kind, or the store no room, nothing is applied.
The request counts as applied and its tag enters the window of 32, which a tag of a reduction that is not DONE does not leave: that a
full window drops its oldest tag that is not live is the model's choice (log entry 67); so is what a fill reads of an entry of PREV
that names another generation by now (log entry 78). -/
def Obligations.ReductionApplies : Prop :=
  ∀ (die : Fin 8) (core : Fin 128) (pos : Nat) (s : State),
    let c := 128 * die.val + core.val
    let e := getEnt s c pos
    let p := (getCore s c).part.getD 256
    let tagged := e.op = 3 ∨ e.op = 8 ∨ e.op = 9
    let q := 2 ^ (e.qw + 1)
    let signed := e.ty = 3
    let val := fun (w : Word) => if signed then w.toInt else (w.toNat : Int)
    let new := fun (x y : Word) =>
      if e.op = 3 then x + y
      else if e.op = 4 then (if val x ≤ val y then x else y)
      else if e.op = 5 then (if val y ≤ val x then x else y)
      else if e.op = 6 then x &&& y
      else if e.op = 7 then x ||| y
      else if e.op = 8 then x ^^^ y
      else wd ((x.toNat + y.toNat) % q)
    let source := fun (j : Nat) => wd (leNat (sourceBytes s c pos (e.spad + 8 * j) 8))
    let key := 2 ^ 32 + 1024 * p + (getCore s c).lcore
    let enters := fun (l : List (BitVec 16)) =>
      if (e.tag :: l).length ≤ 32 then e.tag :: l else ((e.tag :: l).reverse.eraseP fun u => !tagLive s c u).reverse
    exchanging (partOf s c) = true → inXq s c pos = true → e.started = true → e.done = false → e.parked = false →
    (getCore s c).exch.applied.contains pos = false → 3 ≤ e.op → e.op ≤ 9 → e.len % 16 = 0 →
    conflicts s c pos c e.spad e.len false (some e.sig) = false →
    (tagged → (appliedTags s c e).contains e.tag = false) →
    (∀ a, (∀ m ∈ (getCore s c).exch.marks, m.write = true → m.core = c → fencedApart s c m.pos pos (dieOf c) = true →
        ¬ (m.lo ≤ a ∧ a < m.lo + max m.len m.data.length)) →
      memGet (sourceView s c pos c) a = memGet (getCore s c).exch.start a) ∧
    (∀ target, e.far = 1 → (getPart s p).lmap[e.fara.toNat]? = some target →
      inQueueArea (getCore s target) e.farb.toNat e.len = false →
      conflicts s c pos target e.farb.toNat e.len true (some e.sig) = false →
      ∃ t, exec (.xredRequestApply die core pos) s = .next t ∧ { t with cores := s.cores } = s ∧
        (∀ k, k ≠ c → k ≠ target → getCore t k = getCore s k) ∧ (target ≠ c → (getCore t c).spad = (getCore s c).spad) ∧
        (getCore t c).exch.applied = pos :: (getCore s c).exch.applied ∧ (getCore t c).exch.xpend = (getCore s c).exch.xpend ∧
        (target ≠ c → (getCore t c).exch.dedup = (getCore s c).exch.dedup) ∧
        { getCore t target with spad := (getCore s target).spad, exch := (getCore s target).exch } = getCore s target ∧
        (∀ j < e.len / 8, wd (memRead (getCore t target).spad (e.farb.toNat + 8 * j) 8) =
          new (wd (memRead (getCore s target).spad (e.farb.toNat + 8 * j) 8)) (source j)) ∧
        (∀ a, a < e.farb.toNat ∨ e.farb.toNat + e.len ≤ a →
          memGet (getCore t target).spad a = memGet (getCore s target).spad a) ∧
        let window := fun (b : State) => spGet [] (getCore b target).exch.dedup key
        window t = if tagged then enters (window s) else window s) ∧
    (let walked := translateEnt s c pos
     let pages := (xlatOf walked c pos).pages
     let va := e.fara.toNat
     let off := va % 64
     let m := modExch walked c fun x => { x with marks := { lo := e.spad, len := e.len, write := false, core := c, pos := pos
                                                            xred := some e.sig, data := [], past := false } :: x.marks }
     ∀ (l : Leaf) (g : Gen), e.far = 0 → 0 < e.len → va % 8 = 0 → off + e.len ≤ 64 →
       rangeCheck pages walked die p va e.len true = .ok → writeChecks pages m die p va = .ok (l, g) →
       let ln := (va - g.vbase) / 64
       let reduced := fun (base v : BitVec 512) =>
         (∀ k < 512, k < 8 * off ∨ 8 * (off + e.len) ≤ k → v.getLsbD k = base.getLsbD k) ∧
         ∀ j < e.len / 8, v.extractLsb' (8 * off + 64 * j) 64 = new (base.extractLsb' (8 * off + 64 * j) 64) (source j)
       let ends := fun (b : State) =>
         let b := modPart b p fun x => if (g.idx, ln) ∈ x.wlines then x else { x with wlines := (g.idx, ln) :: x.wlines }
         let w := spGet [] b.vdedup (tagVault walked c e)
         let b := if tagged then
           { b with vdedup := spSet b.vdedup (tagVault walked c e) (spSet w key (enters (spGet [] w key))) } else b
         exec (.xredRequestApply die core pos) s = .next (modExch b c fun x => { x with applied := pos :: x.applied })
       (((∃ h r, findRed m g.idx ln = some (h, r) ∧ r.sig ≠ e.sig) ∨
         (findRed m g.idx ln = none ∧ ((writtenOf s g.idx).contains ln = true ∨ 32768 ≤ (getDie s l.home).red.length))) →
         exec (.xredRequestApply die core pos) s = .next walked) ∧
       ((getPart s p).rlines.contains (g.idx, ln) = false →
         (∀ h r, findRed m g.idx ln = some (h, r) → r.sig = e.sig → ∃ v, reduced r.data v ∧
           ends (modDie m h fun x => { x with red := x.red.map fun r =>
             if r.idx = g.idx ∧ r.line = ln then { r with data := v } else r })) ∧
         (∀ base, findRed m g.idx ln = none → (writtenOf s g.idx).contains ln = false → (getDie s l.home).red.length < 32768 →
           fillLine m die g ln = .ok base → ∃ v, reduced (BitVec.ofNat 512 (leNat base)) v ∧
           ends (markWritten (modDie m l.home fun x => { x with red := x.red ++
             [{ idx := g.idx, line := ln, part := g.owner, landing := false, sig := e.sig, data := v }] }) g.idx ln))))

/-- The oldest operation of an engine queue completes (R289 to R297, R300 to R302, R307): MTL becomes its number. MLDB copies its
rows into a slot, MZERO zeroes a tile, an MMA or MCONV adds the products to the unmasked entries, the A rows of an MCONV
generated from its shape record (R296), an MDRAIN stores them, exactly or scaled and rounded once (R294, R295; its arithmetic-log
records under TRAP are not stated here). The first check of R300 that fails gives ERRCODE, one fault-log record and the mark on the
target (R301); after an error an operation has no effect, FIRSTERR keeps the first failed number, and a
witnessed one marks its context. A witnessed operation that passes is folded into its context, MMA and MCONV into Y, MDRAIN into X,
modulo 2^61 - 1 (R304, R307), through the sums that MLDB caches in the slot. `m` is the scratchpad as the operation reads it: a byte that lanes have stored over since its
issue shows the old value or the new one, a byte seen new staying new (R248), and what a drained byte held stays readable for a
finite time, until it is acquired (R249, R251, R252; how the model keeps both is log entry 65). A core that is DRAINING becomes
SYNCED with the last operation of its queue (R191). -/
def Obligations.EngineCompletions : Prop :=
  ∀ (die : Fin 8) (core : Fin 128) (s : State) (o : MatOp) (rest : List MatOp),
    let c := 128 * die.val + core.val
    let co := getCore s c
    let en := co.eng
    let m := engineView s c
    let b := readBlock m o.block
    let raced := (stillOld s.ticks en.raced).filter fun x => decide (o.num < x.upto)
    let ends := fun (p : Core → Engine → Prop) => ∃ t, exec (.matrixOpComplete die core) s = .next t ∧
      { t with cores := s.cores } = s ∧ (∀ k, k ≠ c → getCore t k = getCore s k) ∧
      (getCore t c).pst = (if co.pst = .draining ∧ rest = [] then .synced else co.pst) ∧
      p { getCore t c with pst := co.pst } (getCore t c).eng
    let done := fun (e : Engine) => e.queue = rest ∧ e.mtl = o.num ∧ e.raced = raced ∧ e.unseen = en.unseen
    let clean := b.format = 1 ∧ b.flags = 0 ∧ b.wctx = 0 ∧ b.rsv = 0 ∧ bit en.estat 7 = false
    let tile := b.accn ≤ 2 ∧ 1 ≤ b.accrows ∧ b.accrows ≤ 64 ∧ b.accbase % 64 = 0 ∧
      b.accbase + b.accrows * 64 * 2 ^ b.accn ≤ 16384
    let n := 64 * 2 ^ b.accn
    let valid := ∀ k < 256, b.accbase / 64 ≤ k → k < (b.accbase + b.accrows * n) / 64 → bit en.bad k = false
    let rows := ∀ i, bit b.rowmask i = true → i < b.accrows
    let sl := if b.slot = 0 then en.slot0 else en.slot1
    let slots := fun (e : Engine) => if b.slot = 0 then (e.slot0, e.slot1) else (e.slot1, e.slot0)
    en.queue = o :: rest →
    co.pst = .draining ∨ (co.pst = .compute ∧ ∃ g < co.ngroups, (co.group g).synced = false ∧ (co.group g).finished = false) →
    (bit en.estat 7 = true → b.flags % 2 = 0 → ends fun z e => { z with eng := en } = co ∧
      e = { en with queue := rest, mtl := o.num, raced := raced, firsterr := if en.firsterr = 0 then o.num else en.firsterr }) ∧
    (∀ uid, bit en.estat 7 = true → b.flags % 2 = 1 → spFind o.opened b.wctx = some uid → ends fun z e =>
      { z with eng := en, asy := co.asy } = co ∧ done e ∧ ∀ k ∈ z.asy.ctxs, k.uid = uid → k.engerr = true) ∧
    (bit en.estat 7 = false → b.format ≠ 1 → b.flags % 2 = 0 → (co.flog.tail - co.flog.head).toNat ≠ 16 → ends fun z e =>
      { z with eng := en, flog := co.flog } = co ∧ z.flog.tail = co.flog.tail + 1 ∧
      e = { en with queue := rest, mtl := o.num, raced := raced, firsterr := if en.firsterr = 0 then o.num else en.firsterr
                    estat := setFld (setFld en.estat 7 7 1) 39 32 1 }) ∧
    (clean → o.minor = 0 → b.accn = 0 → b.accrows = 0 → b.accbase = 0 → b.rscale = 0 → b.cscale = 0 → b.row0 = 0 →
      b.rowmask = 0 → b.slot ≤ 1 → b.btype ≤ 5 → (∀ j, bit b.colmask j = true → j < 1024 / tyWidth b.btype) →
      b.addr % 16 = 0 → b.stride % 16 = 0 → 128 ≤ b.stride → b.addr + 255 * b.stride + 128 ≤ 0xC0000 →
      ends fun z e => { z with eng := en } = co ∧ done e ∧ (slots e).2 = (slots en).2 ∧ e.acc = en.acc ∧ e.bad = en.bad ∧
        e.estat = en.estat ∧ e.firsterr = en.firsterr ∧
        let x := (slots e).1
        x.valid = true ∧ x.ty = b.btype ∧ x.col0 = b.col0 ∧ x.colmask = b.colmask ∧ x.brCtx = none ∧
        ∀ k < 256, ∀ a < 128, memGet x.data (128 * k + a) = memGet m (b.addr + k * b.stride + a)) ∧
    (clean → tile → o.minor = 14 → b.slot = 0 → b.btype = 0 → b.addr = 0 → b.stride = 0 → b.rscale = 0 → b.cscale = 0 →
      b.row0 = 0 → b.col0 = 0 → b.rowmask = 0 → b.colmask = 0 →
      ends fun z e => { z with eng := en } = co ∧ done e ∧ (slots e) = (slots en) ∧ e.estat = en.estat ∧
        e.firsterr = en.firsterr ∧
        (∀ k, spGet 0 e.acc k = if b.accbase ≤ k ∧ k < b.accbase + b.accrows * n then 0 else spGet 0 en.acc k) ∧
        ∀ k < 256, bit e.bad k = (bit en.bad k &&
          !(decide (b.accbase / 64 ≤ k) && decide (k < (b.accbase + b.accrows * n) / 64)))) ∧
    (clean → tile → valid → rows → 1 ≤ o.minor → o.minor ≤ 12 → b.slot ≤ 1 → b.btype = 0 → b.rscale = 0 → b.cscale = 0 →
      b.col0 = 0 → b.colmask = 0 →
      let ty := if o.minor ≤ 6 then o.minor - 1 else o.minor - 7
      let w := tyWidth ty
      let f := fun (at_ n : Nat) => memRead m (b.addr + at_) n
      let l := fun (i : Nat) => f 0x10 2 * f 0xE 2 + f 0x12 2 + i
      let iy := fun (i : Nat) => ((l i / f 0xE 2 * f 0x14 1 + f 0x18 1 * f 0x16 1 : Nat) : Int) - f 0x1A 1
      let ix := fun (i : Nat) => ((l i % f 0xE 2 * f 0x15 1 + f 0x19 1 * f 0x17 1 : Nat) : Int) - f 0x1B 1
      let inside := fun (i : Nat) => 0 ≤ iy i ∧ iy i < f 6 2 ∧ 0 ≤ ix i ∧ ix i < f 0xC 2
      let at_ := fun (i : Nat) => if o.minor ≤ 6 then b.addr + i * b.stride
        else f 0 4 + (iy i).toNat * f 8 4 + (ix i).toNat * f 4 2
      let small := fun (x : Nat) => 1 ≤ x ∧ x ≤ 15
      let shape := f 0 4 % 16 = 0 ∧ f 4 2 % 16 = 0 ∧ f 8 4 % 16 = 0 ∧ f 6 2 ≠ 0 ∧ f 0xC 2 ≠ 0 ∧ f 0xE 2 ≠ 0 ∧
        f 0x12 2 < f 0xE 2 ∧ small (f 0x14 1) ∧ small (f 0x15 1) ∧ small (f 0x16 1) ∧ small (f 0x17 1) ∧ f 0x1C 2 = 0 ∧
        f 0x1E 2 < 2 ^ w
      n = 1024 / w → sl.valid = true → tyWidth sl.ty = w → (∀ j, bit sl.colmask j = true → j < n) → b.addr % 16 = 0 →
      (o.minor ≤ 6 → b.stride % 16 = 0 ∧ 32 * w ≤ b.stride ∧ ∀ i, bit b.rowmask i = true → at_ i + 32 * w ≤ 0xC0000) →
      (7 ≤ o.minor → b.stride = 0 ∧ b.addr + 32 ≤ 0xC0000 ∧ shape ∧
        ∀ i, bit b.rowmask i = true → inside i → at_ i + 32 * w ≤ 0xC0000) →
      ends fun z e => { z with eng := en } = co ∧ done e ∧ (slots e) = (slots en) ∧ e.bad = en.bad ∧ e.estat = en.estat ∧
        e.firsterr = en.firsterr ∧
        (∀ i j, bit b.rowmask i = true → bit sl.colmask j = true →
          spGet 0 e.acc (b.accbase + i * n + j) = spGet 0 en.acc (b.accbase + i * n + j) + BitVec.ofInt 64
            (((List.range 256).map fun k =>
              elemVal ty (if o.minor ≤ 6 ∨ inside i then elemBits m (at_ i) w k else f 0x1E 2) *
                elemVal sl.ty (elemBits sl.data (128 * k) w j)).sum)) ∧
        ∀ k, (∀ i j, bit b.rowmask i = true → bit sl.colmask j = true → k ≠ b.accbase + i * n + j) →
          spGet 0 e.acc k = spGet 0 en.acc k) ∧
    (clean → tile → valid → rows → o.minor = 13 → b.slot = 0 → b.btype = 0 → o.drain = .raw ∨ o.pol ≠ .trap →
      (∀ j, bit b.colmask j = true → j < n) → b.addr % 16 = 0 → b.stride % 16 = 0 →
      let z := match o.drain with
        | .raw => 8
        | .f32 => 4
        | .i8 => 1
        | .i16 => 2
      let live := fun (i j : Nat) => bit b.rowmask i = true ∧ bit b.colmask j = true
      let at_ := fun (i j : Nat) => b.addr + i * b.stride + z * j
      let drained := fun (a : Nat) => ∃ i j, live i j ∧ at_ i j ≤ a ∧ a < at_ i j + z
      let acc := fun (i j : Nat) => spGet 0 en.acc (b.accbase + i * n + j)
      let ctl := fun (i j : Nat) =>
        ({ mode := o.mode, pol := o.pol, rand := rand16 (launchOf s c).seed (o.ebase + BitVec.ofNat 64 (256 * i + j)) } : Ctl)
      let v := fun (i j : Nat) => drainVal (acc i j).toInt (fval .f32 (memRead m (b.rscale + 4 * i) 4))
        (fval .f32 (memRead m (b.cscale + 4 * j) 4))
      let int := fun (w i j : Nat) => match v i j with
        | none => FRes.invalid (indefinite w)
        | some x => rndInt w true (ctl i j) x
      let res := fun (i j : Nat) => match o.drain with
        | .raw => FRes.exact (acc i j).toNat
        | .f32 => rndExact .f32 (ctl i j) (v i j)
        | .i8 => int 8 i j
        | .i16 => int 16 i j
      n * z ≤ b.stride → (∀ i j, live i j → at_ i j + z ≤ 0xC0000) →
      (o.drain = .raw → b.rscale = 0 ∧ b.cscale = 0) → b.rscale % 16 = 0 → b.cscale % 16 = 0 →
      (∀ i j, live i j → b.rscale + 4 * i + 4 ≤ 0xC0000 ∧ b.cscale + 4 * j + 4 ≤ 0xC0000) →
      ends fun x e => { x with eng := en, spad := co.spad } = co ∧
        { e with estat := en.estat, raced := en.raced, unseen := en.unseen } = { en with queue := rest, mtl := o.num } ∧
        (∀ k, e.estat.getLsbD k = true ↔ en.estat.getLsbD k = true ∨ ∃ i j, live i j ∧
          (k = 4 ∧ (res i j).nv = true ∨ k = 2 ∧ (res i j).of_ = true ∨ k = 1 ∧ (res i j).uf = true ∨
            k = 0 ∧ (res i j).nx = true)) ∧
        (∀ i j, live i j → memRead x.spad (at_ i j) z = (res i j).bits % 256 ^ z) ∧
        (∀ a, ¬ drained a → memGet x.spad a = memGet co.spad a ∧ spFind e.unseen a = spFind en.unseen a) ∧
        (∀ a, drained a → ∃ u, spFind e.unseen a = some u ∧ u.old = memGet co.spad a ∧ s.ticks ≤ u.until_) ∧
        ∀ r, r ∈ e.raced ↔ r ∈ raced ∧ ¬ drained r.addr) ∧
    (let mul := 1 ≤ o.minor ∧ o.minor ≤ 12
     let w := tyWidth (if o.minor ≤ 6 then o.minor - 1 else o.minor - 7)
     let z := match o.drain with
       | .raw => 8
       | .f32 => 4
       | .i8 => 1
       | .i16 => 2
     let f := fun (at_ n : Nat) => memRead m (b.addr + at_) n
     let l := fun (i : Nat) => f 0x10 2 * f 0xE 2 + f 0x12 2 + i
     let iy := fun (i : Nat) => ((l i / f 0xE 2 * f 0x14 1 + f 0x18 1 * f 0x16 1 : Nat) : Int) - f 0x1A 1
     let ix := fun (i : Nat) => ((l i % f 0xE 2 * f 0x15 1 + f 0x19 1 * f 0x17 1 : Nat) : Int) - f 0x1B 1
     let inside := fun (i : Nat) => 0 ≤ iy i ∧ iy i < f 6 2 ∧ 0 ≤ ix i ∧ ix i < f 0xC 2
     let at_ := fun (i : Nat) => if o.minor ≤ 6 then b.addr + i * b.stride
       else f 0 4 + (iy i).toNat * f 8 4 + (ix i).toNat * f 4 2
     let row := fun (i : Nat) => bit b.rowmask i = true
     let col := fun (j : Nat) => bit b.colmask j = true
     let unused := match o.minor with
       | 0 => [b.accn, b.accrows, b.accbase, b.rscale, b.cscale, b.row0, b.rowmask.toNat]
       | 13 => [b.slot, b.btype] ++ if o.drain = DrainTy.raw then [b.rscale, b.cscale] else []
       | 14 => [b.flags, b.slot, b.btype, b.addr, b.stride, b.rscale, b.cscale, b.row0, b.col0, b.rowmask.toNat, b.colmask.toNat]
       | k => [b.btype, b.rscale, b.cscale, b.col0, b.colmask.toNat] ++ if 7 ≤ k then [b.stride] else []
     let ok : Nat → Prop
       | 1 => b.format = 1 ∧ b.flags ≤ 1 ∧ b.rsv = 0 ∧ (b.flags = 0 → b.wctx = 0) ∧ b.slot ≤ 1 ∧ ∀ x ∈ unused, x = 0
       | 2 => o.minor ≠ 0 → tile ∧ (mul → n = 1024 / w)
       | 3 => (o.minor = 0 → b.btype ≤ 5) ∧ (mul → sl.valid = true ∧ tyWidth sl.ty = w)
       | 4 => (o.minor ≠ 0 → ∀ i, row i → i < b.accrows) ∧ b.wctx ≤ 7 ∧
         ∀ j, col j → j < if o.minor = 0 then 1024 / tyWidth b.btype else n
       | 5 => b.addr % 16 = 0 ∧ b.stride % 16 = 0 ∧ b.rscale % 16 = 0 ∧ b.cscale % 16 = 0 ∧
         (o.minor = 0 → 128 ≤ b.stride ∧ b.addr + 255 * b.stride + 128 ≤ 0xC0000) ∧
         (1 ≤ o.minor → o.minor ≤ 6 → 32 * w ≤ b.stride ∧ ∀ i, row i → at_ i + 32 * w ≤ 0xC0000) ∧
         (7 ≤ o.minor → o.minor ≤ 12 → b.addr + 32 ≤ 0xC0000) ∧
         (o.minor = 13 → n * z ≤ b.stride ∧ ∀ i j, row i → col j → b.addr + i * b.stride + (j + 1) * z ≤ 0xC0000 ∧
           (o.drain ≠ .raw → b.rscale + 4 * i + 4 ≤ 0xC0000 ∧ b.cscale + 4 * j + 4 ≤ 0xC0000))
       | 6 => 7 ≤ o.minor → o.minor ≤ 12 → f 0 4 % 16 = 0 ∧ f 4 2 % 16 = 0 ∧ f 8 4 % 16 = 0 ∧ f 6 2 ≠ 0 ∧ f 0xC 2 ≠ 0 ∧
         f 0xE 2 ≠ 0 ∧ f 0x12 2 < f 0xE 2 ∧ (∀ x ∈ [f 0x14 1, f 0x15 1, f 0x16 1, f 0x17 1], 1 ≤ x ∧ x ≤ 15) ∧ f 0x1C 2 = 0 ∧
         f 0x1E 2 < 2 ^ w ∧ ∀ i, row i → inside i → at_ i + 32 * w ≤ 0xC0000
       | 7 => mul ∨ o.minor = 13 → valid
       | 8 => b.flags = 1 → spFind o.ctxs b.wctx ≠ none
       | _ => True
     let names := if b.flags % 2 = 1 then spFind o.opened b.wctx else none
     let ctxs := fun (f : AssayCtx → AssayCtx) => { co.asy with ctxs := co.asy.ctxs.map f }
     (∀ code, o.minor ≤ 14 → bit en.estat 7 = false → (co.flog.tail - co.flog.head).toNat ≠ 16 → (∀ k < code, ok k) → ¬ ok code →
       ends fun z e =>
         { z with eng := en, flog := co.flog, asy := co.asy } = co ∧ z.flog.tail = co.flog.tail + 1 ∧
         { e with slot0 := en.slot0, slot1 := en.slot1, bad := en.bad } =
           { en with queue := rest, mtl := o.num, raced := raced, firsterr := if en.firsterr = 0 then o.num else en.firsterr
                     estat := setFld (setFld en.estat 7 7 1) 39 32 code } ∧
         slots e = (if o.minor = 0 ∧ 2 ≤ code then { sl with valid := false } else (slots en).1, (slots en).2) ∧
         (∀ k < 256, bit e.bad k = true ↔ bit en.bad k = true ∨
           ((mul ∨ o.minor = 14) ∧ 3 ≤ code ∧ b.accbase / 64 ≤ k ∧ k < (b.accbase + b.accrows * n) / 64)) ∧
         z.asy = ctxs fun k => if names = some k.uid then { k with nops := k.nops + 1, engerr := true } else k) ∧
     (∀ k, o.minor ≤ 14 → bit en.estat 7 = false → b.flags = 1 → (∀ j, ok j) → k ∈ co.asy.ctxs → (co.asy.ctxs.map (·.uid)).Nodup →
       spFind o.ctxs b.wctx = some k.uid → spFind o.opened b.wctx = some k.uid → k.x < 2 ^ 61 - 1 → k.y < 2 ^ 61 - 1 →
       let p : ℤ := 2 ^ 61 - 1
       let r := fun (x : BSlot) (j : Nat) => (k.alpha : ℤ) ^ (x.col0 + j + 1)
       let s_ := fun (i : Nat) => (k.beta : ℤ) ^ (b.row0 + i + 1)
       let cached := fun (x : BSlot) (d : Mem) (v : Nat) => (∑ j ∈ (Finset.range 256).filter fun j => bit x.colmask j = true,
         elemVal x.ty (elemBits d (128 * v) (tyWidth x.ty) j) * r x j) % p
       let a := fun (i v : Nat) => let ty := if o.minor ≤ 6 then o.minor - 1 else o.minor - 7
         elemVal ty (if o.minor ≤ 6 ∨ inside i then elemBits m (at_ i) w v else f 0x1E 2)
       let acc := fun (i j : Nat) => (spGet 0 en.acc (b.accbase + i * n + j)).toInt
       let folds := fun (x y : Nat → Prop) => ends fun z e => e.queue = rest ∧ e.mtl = o.num ∧ e.firsterr = en.firsterr ∧
         ∃ k', z.asy = (ctxs fun q => if q.uid = k.uid then k' else q) ∧
           { k' with x := k.x, y := k.y } = { k with nops := k.nops + 1 } ∧ x k'.x ∧ y k'.y
       (o.minor = 0 → folds (· = k.x) (· = k.y) ∧
         ends fun _ e => (slots e).1.brCtx = some k.uid ∧ (slots e).1.colmask = b.colmask ∧ (slots e).1.col0 = b.col0 ∧
           ∀ v < 256, ((spGet 0 (slots e).1.br v : Nat) : ℤ) = cached (slots e).1 (slots e).1.data v) ∧
       (mul → (sl.brCtx = some k.uid → ∀ v < 256, ((spGet 0 sl.br v : Nat) : ℤ) = cached sl sl.data v) →
         folds (· = k.x) fun y => (y : ℤ) = (k.y + ∑ i ∈ (Finset.range 64).filter fun i => bit b.rowmask i = true,
           s_ i * ∑ v ∈ Finset.range 256, a i v * cached sl sl.data v) % p) ∧
       (o.minor = 13 → o.drain = .raw ∨ o.pol ≠ .trap →
         folds (fun x => (x : ℤ) = (k.x + ∑ i ∈ (Finset.range 64).filter fun i => bit b.rowmask i = true,
           ∑ j ∈ (Finset.range 256).filter fun j => bit b.colmask j = true,
             s_ i * (k.alpha : ℤ) ^ (b.col0 + j + 1) * acc i j) % p) (· = k.y)))) ∧
    (∀ (v : ℤ) (x y : FVal) (i : Bool) (a e : ℝ), x.Is a → y.Is e →
      let neg := (decide (v < 0) != x.neg) != y.neg
      (∃ q, drainVal v x y = some q ∧ q.Is (v * a * e) ∧ (v * a * e = 0 → q.neg = neg)) ∧
      (∀ q, drainVal v .nan q = some .nan ∧ drainVal v q .nan = some .nan) ∧
      drainVal v (.inf i) y = (if v = 0 ∨ e = 0 then none else some (.inf ((decide (v < 0) != i) != y.neg))) ∧
      drainVal v x (.inf i) = (if v = 0 ∨ a = 0 then none else some (.inf ((decide (v < 0) != x.neg) != i))) ∧
      ∀ j, drainVal v (.inf i) (.inf j) = if v = 0 then none else some (.inf ((decide (v < 0) != i) != j)))

/-- The assay queue (R304 to R306, R308, R309, R321, R324, R325): ATL counts each command; audit values make their context ready, an
AEMIT adds its items, and a close sends the record of its context, with the values of its kind folded modulo 2^61 - 1, to the Granite die and frees the number, once no operation
that was issued while the context was open is still queued. An automatic close takes no number and ATL does not count it: the
model's choice (log entry 37). That every such operation is waited for, whatever its block says (log entry 77), and that the
generation of REF0 is noted as the record arrives (log entry 42), are the model's too. -/
def Obligations.AssayCompletions : Prop :=
  ∀ (die : Fin 8) (core : Fin 128) (s : State) (rest : List AssayCmd) (uid : Nat),
    let c := 128 * die.val + core.val
    let a := (getCore s c).asy
    let becomes := fun (b : State) (x : Assay) => modCore b c fun y => { y with asy := x }
    let pops := { a with queue := rest, atl := a.atl + 1 }
    let each := fun (f : AssayCtx → AssayCtx) => a.ctxs.map fun k => if k.uid = uid then f k else k
    let ops := (getCore s c).eng.queue
    let idle := ∀ o ∈ ops, ∀ x ∈ o.opened, x.2 ≠ uid
    (a.queue = .awit uid :: rest → exec (.auditValuesArrive die core) s =
      .next (becomes s { pops with ctxs := each fun k => { k with ready := true } })) ∧
    (∀ items, a.queue = .aemit uid items :: rest → exec (.assayFoldComplete die core) s =
      .next (becomes s { pops with ctxs := each fun k => { k with items := k.items ++ items } })) ∧
    (∀ k, a.ctxs.find? (fun k => decide (k.uid = uid)) = some k →
      let freed := a.ctxs.filter fun x => decide (x.uid ≠ uid)
      let sent := fun (x : Assay) => ∃ t r, exec (.witnessRecordAccept die core) s = .next t ∧
        t = becomes { s with gran := { s.gran with recs := s.gran.recs ++ [r], nextRec := s.gran.nextRec + 1 } } x ∧
        r.num = s.gran.nextRec ∧ r.kind = k.kind ∧ r.incomplete = k.incomplete ∧ r.engerr = k.engerr ∧ r.fixedr = k.fixedr ∧
        r.die = die.val ∧ r.core = c ∧ r.ctx = k.num ∧ r.lcore = (getCore s c).lcore ∧
        r.part = (getCore s c).part.getD 0 ∧ r.opid = k.opid ∧ r.phase = k.phase ∧ r.refs = k.refs ∧
        r.nitems = BitVec.ofNat 32 (if k.kind = 1 then k.nops else k.items.length) ∧ r.v3 = 0 ∧
        r.alpha = k.alpha ∧ r.beta = k.beta ∧
        r.onGen = (genNamed s (k.refs.setWidth 48) (k.refs.toNat / 2 ^ 64 % 2 ^ 32)).map (fun g => (g.idx, g.ver)) ∧
        (k.kind = 1 → k.x < 2 ^ 64 → k.y < 2 ^ 64 → r.v0.toNat = k.x ∧ r.v1.toNat = k.y ∧ r.v2 = 0) ∧
        let p : ℤ := 2 ^ 61 - 1
        let items := fun (cls : Nat) => k.items.filter fun x => x.cls = cls
        let at_ := fun (cls b : Nat) => (((items cls).filter fun x => x.index = b).map fun x => x.value.toInt).sum
        let top := (k.items.map fun x => x.index).foldr max 0
        let size := fun (v : Word) => v.toNat % 2 ^ 63
        let nan := ∃ x ∈ k.items, 0x7FF0000000000000 < size x.value
        (k.kind = 2 → (r.v0.toNat : ℤ) = ((items 2).map fun x => x.value.toInt).sum % p ∧
          (r.v1.toNat : ℤ) = ((items 0).map fun x => (k.alpha : ℤ) - x.value.toInt).prod % p ∧
          (r.v2.toNat : ℤ) = ((items 1).map fun x => (k.alpha : ℤ) - x.value.toInt).prod % p) ∧
        (k.kind = 3 → r.v2 = 0 ∧
          (r.v0.toNat : ℤ) = (∑ b ∈ Finset.range (top + 1), (k.beta : ℤ) ^ (b + 1) * (at_ 1 b - if b = 0 then 0 else at_ 1 (b - 1))) % p ∧
          (r.v1.toNat : ℤ) = (∑ b ∈ Finset.range (top + 1), (k.beta : ℤ) ^ (b + 1) * at_ 0 b) % p) ∧
        (k.kind = 4 → r.v1 = BitVec.ofNat 64 k.items.length ∧ r.v2 = 0 ∧ (nan → r.v0 = 0x7FF8000000000000) ∧
          (k.items = [] → r.v0 = 0) ∧ (¬ nan → k.items ≠ [] → (∃ x ∈ k.items, r.v0 = x.value) ∧
            ∀ x ∈ k.items, size x.value ≤ size r.v0 ∧ (size x.value = size r.v0 → x.value.msb = false → r.v0.msb = false))) ∧
        (k.kind = 5 → r.v0 = BitVec.ofNat 64 k.func ∧ r.v1 = BitVec.ofNat 64 k.items.length ∧
          (r.v2.toNat : ℤ) = (k.items.map fun x => (k.alpha : ℤ) ^ (x.index + 1) * x.value.toInt).sum % p)
      (a.queue = .aclose uid :: rest → idle → sent { pops with ctxs := freed }) ∧
      (a.queue = .auto uid :: rest → idle → sent { a with queue := rest, ctxs := freed })) ∧
    (a.queue = .aclose uid :: rest ∨ a.queue = .auto uid :: rest → ¬ idle →
      exec (.witnessRecordAccept die core) s = .next s)

/-- The tests of records (R402 to R405, R413, R414, R417, R423), with no generation in the directory of staged ones: MPROJ residues and its
spots under a descriptor, those of stochastic drains apart, ORDER, SCAN, RESID against TOL, ELEM with its digest and spots; a record whose
REF0 generation is not yet STAGED is held; a passed record leaves; a failed one is entered
with its verdict and, at ONFAIL 0, the partition goes to ROLLBACK, at ONFAIL 1 to ABORTING with STATUS 1; a failure met before
its superstep has ended waits. When the kind-1 entry is written, and that an abort under ONFAIL waits for the superstep's end as a
rollback does, are the model's choices (log entry 39). -/
def Obligations.RecordTests : Prop :=
  ∀ (r : WitRec) (s : State),
    let x := getPart s r.part
    let ss := r.phase.toNat / 2
    let audit := (x.launch.map Launch.audit).getD 0
    let named := fun (k : Nat) => genNamed s (r.tid k) (r.ver k)
    let stored := r.onGen.map fun z =>
      let g := getGen s z.1
      if g.tid = r.tid 0 ∧ g.ver = z.2 then g else { g with state := 0 }
    let waits := fun (c : Gen) => bit c.flags 3 = false ∧ (c.state = 2 ∨ c.state = 3)
    let usable := fun (c : Gen) => bit c.flags 3 = false ∧ (c.state = 4 ∨ c.state = 5)
    let count := if fld audit 47 40 = 0 then s.gran.auditSpots else fld audit 47 40
    let spots := fun (total : Nat) => if total = 0 then []
      else if bit s.gran.chkMode 0 then List.range (min count total)
      else (List.range count).map fun k => Config.spotDraw r.num k % total
    let product := fun (d : Descr) (c a b : Gen) (i j : Nat) =>
      let x := fun (k : Nat) => tensorElem s a (i * d.astr) d.atype k
      let y := fun (k : Nat) => tensorElem s b (k * d.bstr) d.btype j
      let v : Word := BitVec.ofInt 64 ((List.range d.k).map fun k => (x k).getD 0 * (y k).getD 0).sum
      let ctl : Ctl := { mode := [.rne, .rz, .ru, .rd].getD (d.ctrl % 8) .rs, rand := rand16 0 0
                         pol := [.sat, .inf, .nan].getD (d.ctrl / 8 % 4) .trap }
      let size := [8, 4, 1].getD d.dtype 2
      let found := tensorVal s c (i * d.cstr + j * size) size
      ((List.range d.k).all fun k => (x k).isSome && (y k).isSome) &&
        if d.dtype = 0 then decide (found = some v.toNat)
        else match tensorVal s (getGen s d.rsidx) (4 * i) 4, tensorVal s (getGen s d.csidx) (4 * j) 4 with
          | some rs, some cs =>
            let q := drainVal v.toInt (fval .f32 rs) (fval .f32 cs)
            let int := fun (w : Nat) => match q with
              | none => FRes.invalid (indefinite w)
              | some e => rndInt w true ctl e
            decide (d.rsidx < ttCount s) && decide (d.csidx < ttCount s) && decide (found = some
              (match d.dtype with
                | 1 => rndExact .f32 ctl q
                | 2 => int 8
                | _ => int 16).bits)
          | _, _ => false
    let broken := fun (d : Descr) => 5 < d.atype ∨ 5 < d.btype ∨ 3 < d.dtype ∨ 4 < d.ctrl % 8 ∨ 31 < d.ctrl ∨ d.rsv ≠ 0
    let projSpots : Option (Nat × Nat) := match descrFor s audit r.opid, stored, named 1, named 2 with
      | some d, some c, some a, some b =>
        if waits c then none
        else if ¬ usable c then some (4, 0)
        else if broken d ∨ d.m * d.n = 0 then (if count = 0 then none else some (4, 0))
        else ((spots (d.m * d.n)).find? fun q => !product d c a b (q / d.n) (q % d.n)).map fun q => (4, 2 ^ 32 * (q % d.n) + q / d.n)
      | _, _, _, _ => none
    let canon := fun (t : FltTy) (b : Nat) => if nanPattern t b then t.nan else b
    let elems : Option (Nat × Nat) := match elemFn r.v0.toNat, stored, named 1 with
      | some f, some c, some a =>
        let out := fun (k : Nat) => tensorVal s c (k * (f.2.1.width / 8)) (f.2.1.width / 8)
        let same := fun (k : Nat) => match tensorVal s a (k * (f.1.width / 8)) (f.1.width / 8), out k with
          | some x, some y => decide (canon f.2.1 (f.2.2 x) = canon f.2.1 y)
          | _, _ => false
        let n := r.v1.toNat
        if waits c then none
        else if ¬ usable c then some (10, 0)
        else if ((List.range n).all fun k => (out k).isSome) = true ∧
            ((List.range n).map fun k => r.alpha ^ (k + 1) * (out k).getD 0).sum % (2 ^ 61 - 1) = r.v2.toNat then
          ((spots n).find? fun k => !same k).map fun k => (10, k)
        else some (9, 0)
      | _, _, _ => some (11, 0)
    let val := fun (b : Nat) => if patternOrder .f64 b < 0 then patternOrder .f64 b + 1 else patternOrder .f64 b
    let tol := ((descrFor s audit r.opid).map fun d => d.tol.toNat).getD 0
    let fails : Option (Nat × Nat) :=
      if r.incomplete then some (2, 0)
      else if r.engerr then some (3, 0)
      else if r.kind = 1 then (if r.v0 = r.v1 then projSpots else some (1, 0))
      else if r.kind = 2 then (if r.v0 ≠ 0 then some (5, 0) else if r.v1 ≠ r.v2 then some (6, 0) else none)
      else if r.kind = 3 then (if r.v0 = r.v1 then none else some (7, 0))
      else if r.kind = 4 then
        (if r.v1 = 0 ∨ nanPattern .f64 r.v0.toNat = true ∨ nanPattern .f64 tol = true ∨ val tol < (r.v0.toNat % 2 ^ 63 : Nat) then
          some (8, 0) else none)
      else elems
    let held := r.incomplete = false ∧ r.engerr = false ∧ ∃ c, stored = some c ∧ waits c ∧
      (r.kind = 1 ∧ r.v0 = r.v1 ∧ descrFor s audit r.opid ≠ none ∧ named 1 ≠ none ∧ named 2 ≠ none ∨
        r.kind = 5 ∧ (elemFn r.v0.toNat).isSome = true ∧ named 1 ≠ none)
    let gone := { s with gran := { s.gran with recs := s.gran.recs.filter fun z => decide (z.num ≠ r.num) } }
    let entry := fun (e : FrecEnt) (v : Nat × Nat) =>
      e.kind = 1 ∧ e.verdict = v.1 ∧ e.die = r.die ∧ e.part = r.part ∧ e.lcore = r.lcore ∧ e.pcore = r.core ∧
      e.str = r.core % 128 / 4 ∧ e.ctx = r.ctx ∧ e.wkind = r.kind ∧ e.opid = r.opid ∧ e.phase = r.phase ∧ e.time = s.time ∧
      e.v0 = r.v0 ∧ e.v1 = r.v1 ∧ e.v2 = r.v2 ∧ e.alpha = r.alpha ∧ e.beta = r.beta ∧ e.spot = BitVec.ofNat 64 v.2 ∧ e.arg = 0
    (s.gran.recs.find? fun z => decide (z.num = r.num)) = some r → s.gran.gens = [] → s.gran.diags = [] →
    x.launch ≠ none → x.taskid = r.task → x.phase ≠ r.phase →
    1 ≤ r.kind → r.kind ≤ 5 → (∀ d, descrFor s audit r.opid = some d → d.dtype ≠ 0 → d.ctrl % 8 ≠ 4) →
    (held → exec (.witnessRecordTest r.num) s = .next s) ∧
    (∀ code, elemFn code = none ↔ code = 0 ∨ code = 8 ∨ 20 ≤ code) ∧
    (fails = none → ¬ held → ∃ t, exec (.witnessRecordTest r.num) s = .next t ∧
      { t with parts := s.parts } = gone ∧ (∀ p, p ≠ r.part → getPart t p = getPart s p) ∧
      { getPart t r.part with passSs := x.passSs } = x ∧ x.passSs ≤ (getPart t r.part).passSs) ∧
    (∀ v, fails = some v → x.failed = none → x.st ≠ .aborting → x.st ≠ .rollback →
      (x.phase.toNat = 2 * ss + 1 → x.st = .exchange → x.holding = none → ∃ e, entry e v ∧
        exec (.witnessRecordTest r.num) s = .next (modPart gone r.part fun y =>
          { y with failedSs := insertSorted ss y.failedSs, failed := some { ss := ss, ent := e, idx := none } })) ∧
      (2 * ss + 2 ≤ x.phase.toNat → x.evicted = false → x.busy = none →
        (bit audit 21 = false → fld audit 31 24 ≠ 0 → x.failKeys.contains (r.opid, ss) = false →
          ∃ t e, entry e v ∧ exec (.witnessRecordTest r.num) s = .next t ∧
            (∀ p, p ≠ r.part → getPart t p = getPart s p) ∧
            getPart t r.part = { x with
              st := .rollback, rolling := true, audWait := false, waitStart := false, holding := none, quiesce := false
              failedSs := insertSorted ss x.failedSs
              failed := some { ss := ss, ent := e, idx := if (s.gran.frecTail - s.gran.frecHead).toNat = 256 then none
                                                           else some s.gran.frecTail.toNat } } ∧
            { t with parts := s.parts, gran := s.gran, host := s.host } = s ∧ t.gran.recs = gone.gran.recs ∧
            ((s.gran.frecTail - s.gran.frecHead).toNat ≠ 256 → t.gran.frecTail = s.gran.frecTail + 1 ∧
              spFind t.gran.frec (s.gran.frecTail.toNat % 256) = some e) ∧
            ((s.gran.frecTail - s.gran.frecHead).toNat = 256 → s.gran.frecLost ≠ 255 →
              t.gran.frec = s.gran.frec ∧ t.gran.frecLost = s.gran.frecLost + 1)) ∧
        (bit audit 21 = true → ∃ t, exec (.witnessRecordTest r.num) s = .next t ∧
          (∀ p, p ≠ r.part → getPart t p = getPart s p) ∧
          getPart t r.part = { x with st := .aborting, waitStart := false, holding := none, failed := none, status := 1
                                      failedSs := insertSorted ss x.failedSs })))

/-- Horizon marks and PASS_SS (R401): a mark is kept once its compute phase has ended and every record of it has been sent;
when every core has sent the mark of the lowest superstep not wholly audited, and no record of it is left or failed, PASS_SS
passes it. Release (R407, R408, R469): a STAGED generation whose operators have all passed becomes RELEASED, with its
notification, once PASS_SS of the task that sealed it is at or above the first checkpoint after its seal; not under FIXEDR,
nor before an earlier seal. A held write leaves by the port of its core and device once PASS_SS reaches the first checkpoint
after its superstep and the writes posted before it have gone; none leaves while its task aborts. A write that left and is due to
be looked at again (R353), its 5 ms over or its port down, is over once it is acknowledged, with event 5 where a re-sent reduction
had been applied already (R354); it parks with cause permission where it is refused (R283), else is sent again up to three times,
and then parks with LINK. That a generation is judged by the task that sealed it, with the order of releases over tasks (log entry 40),
the order in which held writes leave (log entries 43, 69) and the rules of the re-send (log entry 74) are the model's choices. -/
def Obligations.HorizonAndRelease : Prop :=
  (∀ (die : Fin 8) (core : Fin 128) (k p : Nat) (s : State),
     let c := 128 * die.val + core.val
     let co := getCore s c
     let x := getPart s p
     co.part = some p →
     (x.phase.toNat < 2 * k + 1 → exec (.horizonMark die core k) s = .next s) ∧
     (x.launch ≠ none → x.st ≠ .rollback → 2 * k + 1 ≤ x.phase.toNat → x.lmap[co.lcore]? = some c →
       (spGet [] x.sent co.lcore).contains k = false → (∀ z ∈ co.asy.ctxs, z.phase.toNat / 2 ≠ k) →
       ∃ t, exec (.horizonMark die core k) s = .next t ∧ { t with parts := s.parts } = s ∧
         (∀ q, q ≠ p → getPart t q = getPart s q) ∧ (spGet [] (getPart t p).sent co.lcore).contains k = true ∧
         (∀ n, n ≠ co.lcore → spGet [] (getPart t p).sent n = spGet [] x.sent n) ∧
         { getPart t p with sent := x.sent, passSs := x.passSs } = x ∧
         (k = x.passSs → (∀ n < x.lmap.length, n ≠ co.lcore → (spGet [] x.sent n).contains k = true) →
           (∀ r ∈ s.gran.recs, r.part = p → r.task = x.taskid → r.phase.toNat / 2 ≠ k) → x.failedSs.contains k = false →
           k + 1 ≤ (getPart t p).passSs) ∧
         ((∃ n < x.lmap.length, n ≠ co.lcore ∧ (spGet [] x.sent n).contains x.passSs = false) →
           (getPart t p).passSs = x.passSs))) ∧
  (∀ (die : Fin 8) (idx : Nat) (a : GenAud) (task : Word) (o : Outbound) (rest : List Outbound) (s : State),
     let g := getGen s idx
     let ss := (g.sealph.toNat - 1) / 2
     let runs := fun (p : Nat) (task : Word) => (getPart s p).launch ≠ none ∧ (getPart s p).taskid = task
     let passed := fun (p k : Nat) => ∃ c ∈ (getPart s p).ckpts, k < c.ss ∧ c.ss ≤ (getPart s p).passSs
     let dev := o.dev.toNat
     let due := fun (w : Outbound) => w.die = die.val ∧ w.parked = none ∧
       (w.port = none ∧ linkUp s w.dev.toNat = true ∨ w.sentAt + 5000000 ≤ s.time)
     let settled := ∀ w ∈ s.gran.wire, ¬ due w
     ((s.gran.gens.find? fun b => decide (b.idx = idx)) = some a → a.idx = idx →
       (g.state = 4 → g.ver = a.ver → a.fixedr = false → a.failed = false → bit g.flags 3 = false → slotTorn s g.keyslot = false →
         a.sealer = some task → (∀ b ∈ s.gran.gens, releasedFirst s b a = false) →
         (∀ r ∈ s.gran.recs, r.part = a.part → r.refs.setWidth 48 = g.tid →
           task.toNat < r.task.toNat ∨ r.task = task ∧ ss < r.phase.toNat / 2) →
         (∀ q ∈ a.ops, q.passed = true) → runs a.part task → passed a.part ss →
         exec (.generationRelease idx) s = .next (notify
           (modGran (setGen s { g with state := 5 }) fun x => { x with gens := x.gens.filter fun b => decide (b.idx ≠ idx) })
           a.part 3 idx g.tid g.ver 0 (getPart s a.part).phase)) ∧
       (g.state ≠ 4 ∨ a.fixedr = true ∨ a.failed = true ∨ bit g.flags 3 = true ∨ slotTorn s g.keyslot = true ∨ a.sealer = none ∨
           (∃ q ∈ a.ops, q.passed = false) ∨
           (a.sealer = some task ∧ runs a.part task ∧ ¬ passed a.part ss ∧ s.gran.ended = []) →
         exec (.generationRelease idx) s = .next s)) ∧
     (s.gran.hold = o :: rest → o.die = die.val → o.push = none → o.parked = none → (∀ k ∈ s.gran.colls, k.tid ≠ o.tid) →
       ownDevice s dev = false → portsTo s dev ≠ [] → runs o.part o.task → (getPart s o.part).st ≠ .aborting →
       passed o.part o.ss → (∀ q ∈ o :: rest, postedBefore q o = false) → copyMissing s o = false → settled →
       (∀ q ∈ s.gran.wire, q.port = none → q.parked = none → postedBefore q o = false) →
       ∃ t p, exec (.outboundRelease die) s = .next (wake s t) ∧ p ∈ portsTo s dev ∧
         (∀ q ∈ portsTo s dev, spFind s.bilsol.pairs (2 ^ 18 * o.core + dev) = some q → p = q) ∧
         t.gran = { s.gran with hold := rest, wire := s.gran.wire ++ [{ o with sent := o.data, port := some p, sentAt := s.time }] } ∧
         t.bilsol = { s.bilsol with pairs := spSet s.bilsol.pairs (2 ^ 18 * o.core + dev) p } ∧
         t.parts = (modPart s o.part fun x => { x with left := true }).parts ∧
         { t with gran := s.gran, bilsol := s.bilsol, parts := s.parts } = s) ∧
     (s.gran.hold = [] → settled → exec (.outboundRelease die) s = .next s) ∧
     ((∀ w ∈ s.gran.hold, runs w.part w.task ∧ ((getPart s w.part).st = .aborting ∨ (¬ passed w.part w.ss ∧ w.push = none ∧
         ((getPart s w.part).launch.map fun l => fld l.audit 31 24) ≠ some 0))) → s.gran.ended = [] →
       settled → exec (.outboundRelease die) s = .next s) ∧
     (s.gran.wire = [o] → due o → let wire := fun (l : List Outbound) => modGran s fun x => { x with wire := l }
       let known := Config.acknowledged dev o.tid.toNat o.off s.ticks
       let refused := Config.writeRefused dev o.tid.toNat o.off s.ticks
       let tagged : Option (BitVec 16) := match o.op with
         | .xred minor _ _ _ tag => if minor = 3 ∨ minor = 8 ∨ minor = 9 then some tag else none
         | .write => none
       let found := 1 ≤ o.tries ∧ tagged.isSome = true ∧ Config.tagFound dev o.tid.toNat o.off s.ticks = true
       let parks := fun (cause : Byte) => exec (.outboundRelease die) s = .next (postEvent (wire [{ o with parked := some cause }]) o.die
         (coreEvent s o.core 1 cause (wd (o.seq % 2 ^ 16 * 2 ^ 48 + o.tid.toNat))))
       (known = true → ¬ found → exec (.outboundRelease die) s = .next (wire [])) ∧
       (known = true → found → exec (.outboundRelease die) s = .next (postEvent (wire []) o.die (coreEvent s o.core 5 0x47
         (wd (o.seq % max 1 (qwDepth (getCore s o.core).xq) * 2 ^ 48 + (tagged.getD 0).toNat))))) ∧
       (known = false → refused = true → parks 0x41) ∧
       (known = false → refused = false → 3 ≤ o.tries → parks 0x46) ∧
       (known = false → refused = false → o.tries < 3 → ∃ t, exec (.outboundRelease die) s = .next t ∧
         { t with bilsol := s.bilsol } =
           wire [{ o with port := pairPort s o.core dev, sentAt := s.time, tries := o.tries + 1 }])))

/-- Rollback, comparison and retirement (R413, R414, R417 to R419): a rollback, once the lines it copies are carried, returns the
partition to its checkpoint, the latest at or below both the failed superstep and PASS_SS, and discards the later records and held
writes; the partition computes again from the checkpoint where every core's image reads back, or where the checkpoint is superstep
0, and the task aborts with STATUS 1 where one does not. A rerun's verdict, on the comparison made when its generation was STAGED,
is entered and adds its strikes; an ordered retirement takes effect once the unit holds no bound string. The numbering of
checkpoints after a rollback and the abort where an image cannot be read (log entry 13), how the failing task's strings are moved
(log entry 39) and the moment of the comparison (log entry 68) are the model's choices. -/
def Obligations.RollbackAndRetirement : Prop :=
  ∀ (part : Fin 256) (f : Failed) (k : Ckpt) (d : Diag) (r : Rerun) (u : RetUnit) (s : State),
    let x := getPart s part
    let count := fun (b : State) (n : Nat) => spGet 0 b.gran.strikes n
    let without := { s with gran := { s.gran with orders := s.gran.orders.filter fun v => decide (v ≠ u) } }
    let before := rollMove s part f
    let readsBack := ∀ i < x.lmap.length,
      loadImage before part i (k.bases.getD i 0 + imgBytes * (k.num % 2)) imgBytes k.seq ≠ none
    (x.st = .rollback → x.failed = some f → x.launch ≠ none → copiesReady s part f = true → k ∈ x.ckpts →
      k.ss ≤ min f.ss x.passSs → (∀ j ∈ x.ckpts, j ≠ k → j.ss ≤ min f.ss x.passSs → j.ss < k.ss) →
      ∃ t, exec (.rollback part) s = .next t ∧ (∀ q, q ≠ part.val → getPart t q = getPart s q) ∧
        let y := getPart t part
        y.failed = none ∧ y.rolling = false ∧ y.arrive = x.arrive ∧ y.taskid = x.taskid ∧ y.launch = x.launch ∧
        (∀ z ∈ t.gran.recs, z ∈ s.gran.recs ∧ (z.part = part.val → z.task = x.taskid → z.phase.toNat / 2 < k.ss)) ∧
        (∀ o ∈ t.gran.hold, o ∈ s.gran.hold ∧ (o.part = part.val → o.task = x.taskid → o.push = none → o.ss < k.ss)) ∧
        (k.ss ≠ 0 → ¬ readsBack → y.st = .aborting ∧ y.status = 1 ∧ y.phase = x.phase) ∧
        (k.ss = 0 ∨ readsBack →
          y.phase = wd (2 * k.ss) ∧ y.result = k.result ∧ y.passSs = k.ss ∧ y.resw = k.resw ∧
          y.stragAt = (if x.hold then 0 else s.time) ∧
          (if x.hold then y.st = .held ∧ y.resume = .compute else y.st = .compute) ∧ y.execs = x.execs + 1)) ∧
    (x.failed = none → exec (.rollback part) s = .next s) ∧
    (x.st = .rollback → x.failed = some f → copiesReady s part f = false → exec (.rollback part) s = .next s) ∧
    (s.gran.diags = [d] → d.compared = false → d.rerun = some r → rerunJudged s d = true →
      (s.gran.frecTail - s.gran.frecHead).toNat ≠ 256 → d.ent.die < 8 → d.ent.pcore / 128 = d.ent.die → d.ent.str < 32 →
      ∃ t e, exec (.rerunCompare d.slot) s = .next t ∧ spFind t.gran.frec (s.gran.frecTail.toNat % 256) = some e ∧
        e.kind = 2 ∧ e.opid = d.ent.opid ∧ e.phase = d.ent.phase ∧ e.time = s.time ∧
        e.verdict = (if r.kept then (if d.refailed then (if r.differ = 0 then 3 else 4) else if r.differ = 0 then 1 else 0)
          else if d.refailed then 5 else 2) ∧
        e.expect = wd r.differ ∧ e.found = wd r.first ∧
        (d.slot = 255 → t.gran.diags = []) ∧ (d.slot ≠ 255 → t.gran.diags = [{ d with compared := true }]) ∧
        ∀ n ∈ [d.ent.pcore, 1024 + 32 * d.ent.die + d.ent.str, 2048 + d.ent.die],
          count t n = if d.refailed then count s n else min 255 (count s n + 1)) ∧
    (¬ s.gran.orders.contains u → exec (.retirementEffect u) s = .next s) ∧
    (s.gran.orders.contains u → match u with
      | .core d c =>
        ((getStr s (32 * d + c / 4)).part = none → exec (.retirementEffect u) s =
          .next (modCore without (128 * d + c) fun z => { z with ballast := true })) ∧
        ((getStr s (32 * d + c / 4)).part ≠ none → exec (.retirementEffect u) s = .next s)
      | .string d t =>
        ((getStr s (32 * d + t)).part = none → exec (.retirementEffect u) s =
          .next (modStr without (32 * d + t) fun z => { z with excluded := true })) ∧
        ((getStr s (32 * d + t)).part ≠ none → exec (.retirementEffect u) s = .next s)
      | .die d =>
        ((∀ i < 32, (getStr s (32 * d + i)).part = none) → exec (.retirementEffect u) s =
          .next (modGran without fun x => { x with excluded := x.excluded ||| BitVec.ofNat 16 (2 ^ d.val) })) ∧
        ((∃ i < 32, (getStr s (32 * d + i)).part ≠ none) → exec (.retirementEffect u) s = .next s))

/-- Context operations (R367 to R369, R374): a request outside HELD ends with STATUS 1 and one while BUSY is ignored; save
writes one image per core under the next number, evict frees the cores and strings of a saved task, restore binds the cores of
its map; each refusal has its status and changes nothing else; MIGCTL takes one order at a time, and one given once every core is
SYNCED waits for the next FLIP_X (R389). LANECTL (R345): with no
clause in flight, the parked lanes of MASK become runnable at PC, or halted, and no other lane changes; then what follows from
their new conditions does: joins that are now complete release (R170), a group with only halted and parked lanes left is
reported (R344), a core whose groups have all finished leaves its phase (R191); where none of these can be, nothing follows.
While a clause is in flight the write waits; a PC that is no word address makes it void. A save of the task before the write is
out of date (R368). STATUS 3 for a restore onto strings that are still bound (log entry 18), and that a dropped notification
makes a restored save out of date where it changes a count of lost entries (R368, R369), are the model's reading. -/
def Obligations.ContextAndLaneControl : Prop :=
  (∀ (part : Fin 256) (v : Word) (s : State),
     let x := getPart s part
     let ended := fun (status : Nat) => modPart s part fun y => { y with ctxStatus := status, busy := none }
     let starts := fun (i : Instr) (op : CtxOp) =>
       (x.busy ≠ none → exec i s = .next s) ∧
       (x.busy = none → x.st ≠ .held → exec i s = .next (ended 1)) ∧
       (x.busy = none → x.st = .held → exec i s = .next (modPart s part fun y => { y with busy := some op }))
     let areas := fun (l : List Nat) => ∀ c ∈ l, let r := (getCore s c).ctxBase
       bit r 0 = true ∧ inOneVault (fld r 45 16 * 65536) 0x130000 = true
     let base := fun (c : Nat) => fld (getCore s c).ctxBase 45 16 * 65536
     starts (.ctxSave part) .save ∧ starts (.ctxEvict part) .evict ∧ starts (.ctxRestore part) .restore ∧
     (x.busy = none → exec (.ctxOpComplete part) s = .next s) ∧
     (x.busy = some .save → x.hold = true → x.evicted = false → ¬ areas x.lmap →
       exec (.ctxOpComplete part) s = .next (ended 2)) ∧
     (x.busy = some .save → x.hold = true → x.evicted = false → x.lmap ≠ [] → areas x.lmap →
       ∃ t, exec (.ctxOpComplete part) s = .next t ∧
         { t with parts := s.parts, vault := s.vault, side := s.side, gran := s.gran } = s ∧
         t.gran = { s.gran with imgSeq := s.gran.imgSeq + 1 } ∧ (∀ p, p ≠ part.val → getPart t p = getPart s p) ∧
         getPart t part = { x with busy := none, ctxStatus := 0, savecnt := x.savecnt + 1, saved := true
                                   ctxSeq := wd (s.gran.imgSeq + 1), savedSeq := wd (s.gran.imgSeq + 1)
                                   savedImg := partImages t part (x.savecnt + 1).toNat (s.gran.imgSeq + 1) } ∧
         ∀ a, (∀ c ∈ x.lmap, a < base c ∨ base c + 0x10B000 ≤ a) → memGet t.vault a = memGet s.vault a) ∧
     (x.busy = some .evict → x.hold = true → x.evicted = false → x.saved = false →
       exec (.ctxOpComplete part) s = .next (ended 6)) ∧
     (x.busy = some .evict → x.hold = true → x.evicted = false → x.saved = true → worldSlot s part = 0 →
       ∃ t, exec (.ctxOpComplete part) s = .next t ∧ { t with cores := s.cores, parts := s.parts, strings := s.strings } = s ∧
         getPart t part = { x with busy := none, ctxStatus := 0, evicted := true } ∧
         (∀ p, p ≠ part.val → getPart t p = getPart s p) ∧
         (∀ c, getCore t c = if c ∈ x.lmap then { getCore s c with part := none } else getCore s c) ∧
         ∀ n, getStr t n = if n ∈ x.strings ∧ (getStr s n).part = some part.val then { getStr s n with part := none }
           else getStr s n) ∧
     (x.busy = some .restore → x.hold = true → fld x.ctxMap 47 0 = 0 → (∃ c ∈ x.lmap, (getStr s (c / 4)).part ≠ none) →
       exec (.ctxOpComplete part) s = .next (ended 3)) ∧
     (∀ l, x.busy = some .restore → x.hold = true → restoreMap s part = some l → ¬ areas l →
       exec (.ctxOpComplete part) s = .next (ended 2)) ∧
     (∀ l, x.busy = some .restore → x.hold = true → restoreMap s part = some l → areas l →
       let strs := l.foldl (fun k c => insertSorted (c / 4) k) []
       (restoreFits s part strs = false → exec (.ctxOpComplete part) s = .next (ended 5)) ∧
       (restoreFits s part strs = true → (∀ i c, l[i]? = some c → loadImage s part i (base c) imgBytes x.ctxSeq.toNat ≠ none) →
         ∃ t, exec (.ctxOpComplete part) s = .next t ∧
           (∃ same : Bool,
             getPart t part = { x with busy := none, ctxStatus := 0, evicted := false, lmap := l, strings := strs, ndrop := 0
                                       saved := x.saved && same && decide (x.ctxSeq = x.savedSeq) } ∧
             ((∀ c ∈ l, qwDepth (getCore t c).noteq = 0) → same = true) ∧
             (∀ c ∈ l, x.ndrop ≠ 0 → qwDepth (getCore t c).noteq ≠ 0 →
               memRead (getCore t c).spad (qwBase (getCore t c).noteq + 8) 4 < 2 ^ 32 - 1 → same = false)) ∧
           (∀ c ∈ l, (getCore t c).exch.start = (getCore t c).spad) ∧
           t.gran = { s.gran with imgSeq := max s.gran.imgSeq x.ctxSeq.toNat } ∧
           (∀ c, c ∉ l → getCore t c = getCore s c) ∧ (∀ c ∈ l, (getCore t c).part = some part.val) ∧
           (∀ n ∈ strs, (getStr t n).part = some part.val) ∧ t.vault = s.vault)) ∧
     (bit v 63 = true → x.mig = none → exec (.migctlGo part v) s = .next (modPart s part fun y =>
       { y with mig := some (fld v 15 0, fld v 25 16)
                migLate := decide (x.st = .compute) && !x.evicted && !x.lmap.isEmpty && x.lmap.all fun c => decide ((getCore s c).pst = .synced) })) ∧
     (bit v 63 = false ∨ x.mig ≠ none → exec (.migctlGo part v) s = .next s)) ∧
  (∀ (die : Fin 8) (core : Fin 128) (grp : Fin 8) (pc : Offset) (mask : LaneMask) (s : State),
     let c := 128 * die.val + core.val
     let gr := getGroup s c grp
     let b := match (getCore s c).part with
       | some p => modPart s p fun x => { x with saved := false }
       | none => s
     let waits := fun (w : LaneCtl) => modGroup b c grp fun x => { x with lanectl := x.lanectl ++ [w] }
     let shows := fun (f : Lane → Lane) (t : State) => OnlyIn c grp b t ∧
       let h := getGroup t c grp
       { h with lanes := gr.lanes } = gr ∧ ∀ l < 32, h.lane l =
         if bit mask l = true ∧ (gr.lane l).cond = .parked then f (gr.lane l) else gr.lane l
     let runs := fun (x : Lane) =>
       { x with cond := .runnable, pc := pc, hflt := false, fault := none, mark := x.mark || gr.synced }
     let halts := fun (x : Lane) => { x with cond := LaneCond.halted, fault := none }
     let settles := fun (i : Instr) (f : Lane → Lane) => ∃ u, shows f u ∧
       exec i s = .next (retest (reportIfStuck (releaseJoins u c grp) c grp gr.stuck) c)
     let acts := fun (i : Instr) (f : Lane → Lane) => ∃ t, shows f t ∧ exec i s = .next t
     (pc.toNat % 4 ≠ 0 → exec (.lanectlResume die core grp pc mask) s = .next s) ∧
     (gr.inFlight = true →
       (pc.toNat % 4 = 0 → exec (.lanectlResume die core grp pc mask) s =
         .next (waits { kill := false, pc := pc, mask := mask })) ∧
       exec (.lanectlKill die core grp mask) s = .next (waits { kill := true, pc := 0, mask := mask })) ∧
     (gr.inFlight = false → gr.lanectl = [] → (gr.lanes.map (·.1)).Nodup →
       (pc.toNat % 4 = 0 → settles (.lanectlResume die core grp pc mask) runs) ∧
       settles (.lanectlKill die core grp mask) halts) ∧
     (gr.inFlight = false → gr.lanectl = [] → gr.joins = [] → (getCore s c).pst = .xdone → (gr.lanes.map (·.1)).Nodup →
       (∃ l < 32, ∃ x, spFind gr.lanes l = some x ∧ x.cond = .runnable) →
       (pc.toNat % 4 = 0 → acts (.lanectlResume die core grp pc mask) runs) ∧
       acts (.lanectlKill die core grp mask) halts))

/-- Device reset and measured boot (R430 to R433, R436): what outlives a reset is vault memory, but for the states of the tensor
table's entries, which are FREE (R234), flash and the strikes; slot 0 is LOADED and every other EMPTY; a failure at step 1, 2 or 3, the measurement store's among them, leaves only the Granite die
running, in recovery mode, with its cause; a pushed image is written only where every component of it verifies; else the Shale
and Flint dies that pass their self-test are released, and DONE is set. By which digests MEAS5 is extended, when a measurement
that fails is met, cause 1 for the Shale or Flint component of a pushed image, that FAILDIE and CAUSE keep the first failure,
and host event 6 after the reset are the model's (log entry 14); so are the states of PRESENT and slot 0 before the boot sets
them (log entry 7) and what a reset keeps beside what R430 names (log entry 46). The bytes of a component are free; its digest
is computed from them (R431). -/
def Obligations.MeasuredBoot : Prop :=
  ∀ (s : State),
    let img := imageBytes s.gran.flash
    let stat := fun (t : State) (fail cause low : Nat) => t.gran.bootStat = wd (fail * 65536 + cause * 256 + low)
    let meas := fun (t : State) (n : Nat) (l : List (BitVec 512)) => spGet 0 t.gran.meas n = l.foldl
      (fun m d => shake512 (leBytes 64 m.toNat ++ leBytes 64 d.toNat)) 0
    let pushed := s.gran.pushed
    let new := imageBytes pushed
    let freed := fun (t : State) => ∀ a, let entry := ∃ i < ttCount s, ∃ d < 8, a = d * 2 ^ 36 + (ttAddr s i + 0x1C) % 2 ^ 36
      (entry → memGet t.vault a = 0) ∧ (¬ entry → memGet t.vault a = memGet s.vault a)
    let whole := Config.readable 1 new = true ∧ ∀ n, 1 ≤ n → n ≤ 4 → Config.verifies n new = true
    ∃ t, exec .deviceReset s = .next t ∧
      freed t ∧ t.gran.flash = s.gran.flash ∧ t.gran.strikes = s.gran.strikes ∧ t.time = s.time ∧
      (∀ c, (getCore t c).part = none) ∧ (∀ p, (getPart t p).launch = none ∧ (getPart t p).st = .idle) ∧
      (∀ d i, getBind t d i = Bind.zero) ∧ t.host = State.reset.host ∧ t.bilsol = State.reset.bilsol ∧
      (getKey t 0).state = .loaded ∧ (∀ n, n ≠ 0 → getKey t n = KeySlot.zero) ∧
      meas t 0 [componentDigest 0 []] ∧ spGet 0 t.gran.meas 7 = 0 ∧
      (Config.readable 1 img = false → stat t 255 5 2 ∧ t.gran.present = 0 ∧ meas t 1 []) ∧
      (Config.readable 1 img = true → Config.verifies 1 img = false → stat t 255 1 2 ∧ t.gran.present = 0 ∧ meas t 1 []) ∧
      (Config.readable 1 img = true → Config.verifies 1 img = true → Config.measures s.ticks = false →
        stat t 255 2 2 ∧ t.gran.present = 0 ∧ meas t 1 []) ∧
      (Config.readable 1 img = true → Config.verifies 1 img = true → Config.measures s.ticks = true →
        meas t 1 [componentDigest 1 img] ∧ meas t 5 [shake512 [0]] ∧
        (Config.verifies 2 img = false → stat t 255 3 2 ∧ t.gran.present = 0x100 ∧ meas t 2 []) ∧
        (Config.verifies 2 img = true → Config.verifies 3 img = true → Config.verifies 4 img = true →
          let passes := fun (d : Nat) => Config.selfTest d s.ticks
          meas t 2 [componentDigest 2 img] ∧ meas t 3 [componentDigest 3 img] ∧
          meas t 4 (((List.range 8).filter passes).map fun _ => componentDigest 4 img) ∧
          (∀ d < 11, bit t.gran.present d = (decide (d = 8) || passes d)) ∧
          (passes 9 = true → passes 10 = true → (∀ d < 8, passes d = true) → stat t 255 0 1) ∧
          (∀ k < 8, passes 9 = true → passes 10 = true → (∀ d < k, passes d = true) → passes k = false → stat t k 4 1))) ∧
      (bit s.gran.bootStat 1 = false ∨ s.gran.pushEnd = false → exec .recoveryVerificationResult s = .next s) ∧
      (bit s.gran.bootStat 1 = true → s.gran.pushEnd = true → ¬ whole →
        ∃ u e, exec .recoveryVerificationResult s = .next (postHost u e) ∧ e.kind = 6 ∧ e.arg = u.gran.bootStat ∧
          u = { s with gran := { s.gran with pushed := [], pushEnd := false, bootStat := u.gran.bootStat } } ∧
          fld u.gran.bootStat 15 8 = (if Config.readable 1 new = false then 5 else if Config.verifies 1 new = false then 1
            else if Config.verifies 2 new = false then 3 else 1) ∧ bit u.gran.bootStat 1 = true) ∧
      (bit s.gran.bootStat 1 = true → s.gran.pushEnd = true → whole → Config.measures s.ticks = true →
        ∃ u e, exec .recoveryVerificationResult s = .next (postHost u e) ∧ e.kind = 6 ∧ e.arg = u.gran.bootStat ∧
          u.gran.flash = s.gran.pushed ∧ freed u ∧ meas u 1 [componentDigest 1 new] ∧
          meas u 5 [shake512 [1]] ∧ bit u.gran.bootStat 1 = false ∧ bit u.gran.bootStat 0 = true)

/-- The SPDM responder (R435; the codes, the order of negotiation and the place of the signature that PARAM1 asks for are the
family's, log entry 17): each request of the table is answered, in its place, and every other one with ERROR,
UnsupportedRequest. -/
def Obligations.SpdmResponder : Prop :=
  ∀ (m : SpdmMsg) (s : State),
    let z := s.spdm
    let tells := fun (i : Instr) (z' : Spdm) (code p1 p2 : Byte) (bytes : List Byte) =>
      exec i s = .next { s with spdm := { z' with code := code, param1 := p1, param2 := p2, payload := bytes } }
    let error := fun (i : Instr) (e : Byte) => tells i z 0x7F e 0 []
    let free := fun (req n : Nat) => (List.range n).map fun k => Config.spdmBytes req m.payload.toNat k
    let meas := fun (n : Nat) => leBytes 64 (spGet 0 s.gran.meas n).toNat
    let signed := if bit m.param1 0 = true then free 0xE0 64 else []
    let mine := z.sessions.find? fun x => decide (x.id = m.session)
    let within := mine.any fun x => x.established && decide (x.channel = m.channel.val)
    let each := fun (f : Session → Session) => { z with sessions := z.sessions.map fun x => if x.id = m.session then f x else x }
    let room := z.sessions.length < 64 ∧ (m.channel.val = 0 ∨ ∀ x ∈ z.sessions, x.channel ≠ m.channel.val)
    tells (.getVersion m) { z with version := true, caps := false, algs := false } 0x04 0 0 [0, 1, 0, 0x14] ∧
    (z.version = true → tells (.getCapabilities m) { z with caps := true } 0x61 0 0 (free 0xE1 16)) ∧
    (z.version = false → error (.getCapabilities m) 4) ∧
    (z.caps = true → tells (.negotiateAlgorithms m) { z with algs := true } 0x63 0 0 (free 0xE3 32)) ∧
    (z.caps = false → error (.negotiateAlgorithms m) 4) ∧
    (z.algs = false → error (.getDigests m) 4 ∧ error (.getCertificate m) 4 ∧ error (.spdmChallenge m) 4 ∧
      error (.getMeasurements m) 4 ∧ error (.keyExchange m) 4) ∧
    (z.algs = true →
      tells (.getDigests m) z 0x01 0 1 (free 0x81 64) ∧
      (m.param1 &&& 15 = 0 → tells (.getCertificate m) z 0x02 m.param1 0 (free 0x82 64)) ∧
      (m.param1 &&& 15 ≠ 0 → error (.getCertificate m) 1) ∧
      (m.param1 = 0 → tells (.spdmChallenge m) z 0x03 0 1 (free 0x83 64)) ∧
      (m.param1 ≠ 0 → error (.spdmChallenge m) 1) ∧
      (m.param2 = 0 → tells (.getMeasurements m) z 0x60 8 0 signed) ∧
      (1 ≤ m.param2.toNat → m.param2.toNat ≤ 8 →
        tells (.getMeasurements m) z 0x60 0 0 (meas (m.param2.toNat - 1) ++ signed)) ∧
      (m.param2 = 0xFF → tells (.getMeasurements m) z 0x60 0 0 ((List.range 8).flatMap meas ++ signed)) ∧
      (8 < m.param2.toNat → m.param2 ≠ 0xFF → error (.getMeasurements m) 1) ∧
      (¬ room → error (.keyExchange m) 10) ∧
      (room → m.param2 ≠ 0 ∨ Config.spdmAccepts 0xE4 m.payload.toNat = false → error (.keyExchange m) 1) ∧
      (room → m.param2 = 0 → Config.spdmAccepts 0xE4 m.payload.toNat = true →
        let id := BitVec.ofNat 32 z.nextSession
        tells (.keyExchange m)
          { z with nextSession := z.nextSession + 1
                   sessions := z.sessions ++ [{ id := id, channel := m.channel, established := false, updates := 0 }] }
          0x64 0 0 (leBytes 4 id.toNat ++ free 0xE4 64))) ∧
    (mine = none → error (.spdmFinish m) 2) ∧
    (∀ x, mine = some x →
      (x.established = true ∨ x.channel ≠ m.channel.val → error (.spdmFinish m) 4) ∧
      (x.established = false → x.channel = m.channel.val →
        (Config.spdmAccepts 0xE5 m.payload.toNat = false → error (.spdmFinish m) 6) ∧
        (Config.spdmAccepts 0xE5 m.payload.toNat = true →
          tells (.spdmFinish m) (each fun x => { x with established := true }) 0x65 0 0 (free 0xE5 64)))) ∧
    (within = false → error (.spdmHeartbeat m) 2 ∧ error (.keyUpdate m) 2 ∧ error (.endSession m) 2 ∧
      ∀ n e, error (.vendorDefinedRequest m n e) 2) ∧
    (within = true → tells (.spdmHeartbeat m) z 0x68 0 0 [] ∧
      tells (.keyUpdate m) (each fun x => { x with updates := x.updates + 1 }) 0x69 m.param1 m.param2 [] ∧
      tells (.endSession m) { z with sessions := z.sessions.filter fun x => decide (x.id ≠ m.session) } 0x6C 0 0 [] ∧
      ∀ (n : Fin 64) (e : Bool),
        let k := getKey s n
        (n = 0 ∨ k.state ≠ .empty ∨ slotTearing s n = true → error (.vendorDefinedRequest m n e) 1) ∧
        (n ≠ 0 → k.state = .empty → slotTearing s n = false → ∃ t, exec (.vendorDefinedRequest m n e) s = .next t ∧
          { t with gran := s.gran, spdm := z } = s ∧ { t.gran with keys := s.gran.keys } = s.gran ∧
          (∀ j, j ≠ n.val → getKey t j = getKey s j) ∧
          let k' := getKey t n
          k'.state = .loaded ∧ k'.key = m.payload ∧ k'.session = m.session ∧ k'.exp = e ∧ k'.bound = false ∧
          k'.sealcnt = (if k.sealcnt = 0xFFFF then 1 else k.sealcnt + 1) ∧
          t.spdm = { z with code := 0x7E, param1 := 0, param2 := 0
                            payload := leBytes 8 (k'.sealcnt.toNat * 2 ^ 32 + n) })) ∧
    error (.spdmUnsupportedRequest m) 7

/-- Teardown's keys, scrub lists and collectives (R442 to R447, R474): a slot is EMPTY once every die has confirmed its key
erased, and the scrub begins with the last slot; each unit done is zeroes; a registration that names a session for every pair
of members, a new one for a member that changed, replaces and restarts; a changed member makes its collective invalid. Held
writes to it, and those that have left without an acknowledgement, park with cause 0x48 until it is registered again, and with
0x41 where this device is no member of it or its TID has lost its collective. Which sessions a registration may name, that one
which may not stand is ignored, that a held write parks so, and that a use is a superstep of a task are the model's (log entry
13). -/
def Obligations.KeysScrubsCollectives : Prop :=
  ∀ (part : Fin 256) (slot : Fin 64) (die : Fin 16) (mask : BitVec 16) (id : Nat) (tid : BitVec 48) (dev : BitVec 18)
      (members : List (BitVec 18)) (sessions : List (Nat × Nat × Nat)) (pa len : Nat) (s : State),
    let x := getPart s part
    let left := mask &&& ~~~(BitVec.ofNat 16 (2 ^ die.val))
    let next := x.scrub.units[x.scrub.done]?
    let banned := bannedOf s id tid
    let attested := members.length ≤ 48 ∧ ∀ b < members.length, ∀ a < b, ∃ n, pairSession sessions a b = some n ∧
      (members.getD a 0, n) ∉ banned ∧ (members.getD b 0, n) ∉ banned
    let hit := fun (y : Coll) => decide (y.id = id) && decide (dev ∈ y.members)
    let sessionsOf := fun (y : Coll) =>
      (y.sessions.filter fun z => decide (y.members.getD z.1 0 = dev) || decide (y.members.getD z.2.1 0 = dev)).map (·.2.2)
    ((∀ e ∈ s.parts, ∀ y ∈ e.2.erasing, y.1 ≠ slot.val) → exec (.keyEraseConfirm slot die) s = .next s) ∧
    (spFind s.parts part = some x → x.erasing = [(slot.val, mask)] →
      (∀ e ∈ s.parts, e.1 ≠ part.val → ∀ y ∈ e.2.erasing, y.1 ≠ slot.val) → (s.parts.map (·.1)).Nodup →
      (left ≠ 0 → exec (.keyEraseConfirm slot die) s = .next (modPart s part fun y => { y with erasing := [(slot.val, left)] })) ∧
      (left = 0 → exec (.keyEraseConfirm slot die) s = .next (modKey
        (modPart s part fun y => { y with tearing := 4, erasing := [], scrub := { y.scrub with busy := true } }) slot
        fun k => { KeySlot.zero with sealcnt := k.sealcnt }))) ∧
    (x.tearing = 3 → exec (.scrubUnitDone part) s = .next s) ∧
    (next = some (.bytes pa len) → x.tearing = 4 → x.scrub.done + 1 < x.scrub.units.length →
      ∃ t, exec (.scrubUnitDone part) s = .next t ∧ { t with parts := s.parts, vault := s.vault, side := s.side } = s ∧
        (∀ p, p ≠ part.val → getPart t p = getPart s p) ∧
        getPart t part = { x with scrub := { x.scrub with done := x.scrub.done + 1, busy := true } } ∧
        (∀ a, memGet t.vault a = if pa ≤ a ∧ a < pa + len then 0 else memGet s.vault a)) ∧
    (attested → ∃ k : Coll, k.id = id ∧ k.tid = tid ∧ k.members = members ∧ k.sessions = sessions ∧ k.uses = [] ∧
      k.valid = true ∧ k.changed = banned ∧
      let others := s.gran.colls.filter fun y => decide (y.id ≠ id) && decide (y.tid ≠ tid)
      let lost := ((s.gran.colls.filter fun y => decide (y.id = id)).map (·.tid)).filter fun y => decide (y ≠ tid)
      let parked := lost.foldl (fun b y => parkHeld b y (some 0x41)) (parkHeld (modGran s fun g => { g with colls := others ++ [k] })
        tid (if ∃ d ∈ members, ownDevice s d.toNat = true then none else some 0x41))
      ∃ t us, exec (.collectiveRegister id tid members sessions) s = .next t ∧
        { t with gran := { t.gran with colls := others ++ [k] } } = parked ∧ t.gran.colls = others ++ [{ k with uses := us }] ∧
        us.Nodup ∧ ∀ u, u ∈ us ↔ ∃ o ∈ parked.gran.hold, o.push = none ∧ o.tid = tid ∧ u = (o.task, o.ss)) ∧
    (¬ attested → exec (.collectiveRegister id tid members sessions) s = .next s) ∧
    exec (.collectiveMemberChanged id dev) s = .next ((s.gran.colls.filter hit).foldl (fun b y => parkHeld b y.tid (some 0x48))
      (modGran s fun g =>
        { g with
          colls := g.colls.map fun y =>
            if hit y then { y with valid := false, changed := (sessionsOf y).map (fun n => (dev, n)) ++ y.changed } else y })) ∧
    (∀ o cause, s.gran.wire = [o] → s.gran.hold = [] → o.tid = tid → o.push = none → o.parked = none →
      let back := if Config.acknowledged o.dev.toNat o.tid.toNat o.off s.ticks then [] else
        [{ o with sent := [], port := none, sentAt := 0, tries := 0 }]
      parkHeld s tid cause = parkHeld (modGran s fun g => { g with wire := [], hold := back }) tid cause) ∧
    (∀ o cause, s.gran.hold = [o] → s.gran.wire = [] → o.tid = tid → o.push = none →
      (o.parked = some cause → parkHeld s tid (some cause) = s) ∧
      parkHeld s tid none = modGran s (fun g => { g with hold := [{ o with parked := none }] }) ∧
      (o.parked ≠ some cause → ∃ e, parkHeld s tid (some cause) =
        postEvent (modGran s fun g => { g with hold := [{ o with parked := some cause }] }) o.die e ∧ e.kind = 1 ∧ e.cause = cause)) ∧
    ∀ o cause, s.gran.hold = [o] → s.gran.wire = [] → o.tid ≠ tid ∨ o.push ≠ none → parkHeld s tid cause = s

/-- The control mailbox (R441, R460 to R464, R470): a command and its response each pass their pointers; IDENT, STATUS, READ of each
class, WRITE of registers, WRITE of a host window, SPDM, PUSH and TIMESET do their work; what R441 hides of a world reads as zero
with status WORLD; what is not ready, reserved, out of range,
refused or without power is answered so and does nothing. The class-3 numbering is the model's (log entry 8), and so are
NOT_READY for a command that is both early and malformed, BAD for a wrong length, what a
class-1 read hides, the timelines of a live image, UNPOWERED of an absent or tripped die, REFUSED for TIMESET and PUSH out of place, the
bytes of the identity block and the framing of SPDM fragments (log entry 47); what else a response holds is free (log entry
16). -/
def Obligations.HostCommands : Prop :=
  ∀ (op : Byte) (c : HostCmd) (s : State),
    let answers := fun (i : Instr) (op : Byte) (eff : State → State) (status : Nat) (val : Option Word) (data : List Byte) =>
      ∃ t, exec i s = .next t ∧
        let u := eff (takeCmd s op c)
        let h := t.host
        let a := 64 * (s.host.rsTail.toNat % 64)
        { t with host := u.host } = u ∧ h.mbTail = s.host.mbTail + 1 ∧ h.mbHead = s.host.mbTail + 1 ∧
        h.rsTail = s.host.rsTail + 1 ∧ h.msix0 = s.host.msix0 + 1 ∧ h.evTail = u.host.evTail ∧ h.evs = u.host.evs ∧
        memGet h.resps a = op ∧ memGet h.resps (a + 1) = BitVec.ofNat 8 status ∧
        memRead h.resps (a + 2) 2 = c.tag.toNat ∧ memRead h.resps (a + 4) 4 = data.length ∧
        (∀ v, val = some v → memRead h.resps (a + 8) 8 = v.toNat) ∧
        ∀ k < data.length, memGet h.resps (a + 32 + k) = data.getD k 0
    let only := fun (i : Instr) (op : Byte) (status : Nat) => answers i op id status none []
    let ready := bit s.gran.bootStat 0
    let recovering := bit s.gran.bootStat 1
    let d := fld c.a0 55 48
    let length := 1 ≤ c.a1.toNat ∧ c.a1.toNat ≤ 32
    let bytes := (leBytes 32 c.data.toNat).take c.a1.toNat
    let pa := fld c.a0 45 0
    let window := (getDie s (pa / 2 ^ 36)).hostwin
    let inside := fld window 45 16 * 65536 ≤ pa ∧ pa + c.a1.toNat ≤ fld window 45 16 * 65536 + fld window 15 0 * 65536 ∧
      inOneVault pa c.a1.toNat = true
    let frag := s.spdm.frag ++ leBytes 32 c.data.toNat
    let covered := inSomeGen (takeCmd s 4 c) pa c.a1.toNat
    (ready = false → only (.hostRead c) 3 1 ∧ only (.hostWrite c) 4 1 ∧ only (.hostSubmit c) 5 1 ∧ only (.hostResult c) 6 1 ∧
      only (.hostResetPartition c) 7 1 ∧ only (.hostResetPackage c) 7 1 ∧ only (.hostTimeset c) 10 1 ∧
      (10 < op.toNat → only (.hostUnknownOp op c) op 1) ∧ (recovering = false → only (.hostPush c) 9 1)) ∧
    (c.rsv ≠ 0 → only (.hostIdent c) 1 2 ∧ only (.hostStatus c) 2 2 ∧ only (.hostSpdm c) 8 2 ∧
      (ready = true → only (.hostRead c) 3 2 ∧ only (.hostWrite c) 4 2 ∧ only (.hostTimeset c) 10 2 ∧ only (.hostPush c) 9 2)) ∧
    (c.rsv = 0 →
      answers (.hostIdent c) 1 id 0 (some s.bilsol.devnum)
        (leBytes 2 0x4C4E ++ leBytes 2 9 ++ leBytes 4 0 ++ leBytes 24 Config.identity.toNat) ∧
      answers (.hostStatus c) 2 id 0 (some s.gran.bootStat)
        (leBytes 8 (s.gran.derated.toNat * 2 ^ 32 + s.gran.excluded.toNat * 2 ^ 16 + s.gran.present.toNat)) ∧
      (Config.spdmMessage frag = none → answers (.hostSpdm c) 8
        (fun b => { b with spdm := { b.spdm with frag := frag, out := b.spdm.out.drop 32 } }) 0 none (s.spdm.out.take 32)) ∧
      (∀ k m slot e u, Config.spdmMessage frag = some (k, m, slot, e) →
        respond k { m with channel := 0 } slot e (let b := takeCmd s 8 c; { b with spdm := { b.spdm with frag := [] } }) =
          .next u →
        answers (.hostSpdm c) 8 (fun _ => { u with spdm := { u.spdm with out := (replyBytes u.spdm).drop 32 } }) 0 none
          ((replyBytes u.spdm).take 32))) ∧
    (c.rsv = 0 → ready = true →
      (10 < op.toNat ∨ op = 0 → only (.hostUnknownOp op c) op 2) ∧
      (¬ length → only (.hostRead c) 3 2 ∧ only (.hostWrite c) 4 2) ∧
      (fld c.a0 63 56 = 0 ∨ fld c.a0 63 56 = 8 ∨ 10 ≤ fld c.a0 63 56 → length →
        only (.hostRead c) 3 2 ∧ only (.hostWrite c) 4 2) ∧
      (∀ r name n (onDie : Bool) i, regTable[fld c.a0 47 32]? = some (r, name, c.a1.toNat, n, onDie) → length →
        fld c.a0 63 56 = 3 → fld c.a0 31 0 = c.a1.toNat * i → i < n → (if onDie then d < 8 else d = 0) →
        let inst := (if onDie then d * n else 0) + i
        (regPowered s r inst = true →
          answers (.hostRead c) 3 id 0 none (leBytes c.a1.toNat (readMReg (takeCmd s 3 c) r inst)) ∧
          (r ≠ .peerrx →
            answers (.hostWrite c) 4 (fun b => writeMReg b r inst (wd (c.data.toNat % 2 ^ (8 * c.a1.toNat)))) 0 none []) ∧
          (r = .peerrx → answers (.hostWrite c) 4 (fun b => setPeerrx b i (wd c.data.toNat &&& 0x800000003FFFFFFF)
            (wd (c.data.toNat / 2 ^ 64) &&& 0x0003FFFFFFFFFFFF)) 0 none [])) ∧
        (regPowered s r inst = false → only (.hostRead c) 3 5 ∧ only (.hostWrite c) 4 5)) ∧
      (length →
        let unit := fld c.a0 47 32
        let off := fld c.a0 31 0
        let last := off + c.a1.toNat
        let reads := fun (status : Nat) (f : Nat → Byte) =>
          answers (.hostRead c) 3 id status none ((List.range c.a1.toNat).map fun k => f (off + k))
        let on := bit s.gran.present d && !(getDie s d).tripped
        let core := getCore s (128 * d + unit)
        let hides := fun (o : Nat) => (0x1000 ≤ o ∧ o < 0x3000 ∧ (o - 0x1000) % 0x400 < 0x80) ∨
          (0x3000 ≤ o ∧ o < 0x1B000 ∧ ((o - 0x3000) % 384 < 0x150 ∨ (o - 0x3000) % 384 = 0x15C)) ∨
          (0x1B000 ≤ o ∧ o < 0xDB000 ∧ ∀ q ∈ [core.alogq, core.xq, core.noteq],
            qwDepth q = 0 ∨ o - 0x1B000 < qwBase q ∨ qwBase q + 8 ≤ o - 0x1B000) ∨ 0xDB000 ≤ o
        (fld c.a0 63 56 = 1 → d < 8 ∧ unit < 128 → last ≤ 0x10B000 →
          let image := memGet (liveImage s (128 * d + unit))
          (on = false → only (.hostRead c) 3 5) ∧
          (on = true → coreOfWorld s (128 * d + unit) = false → reads 0 image) ∧
          ∀ hid : Nat → Bool, on = true → coreOfWorld s (128 * d + unit) = true →
            (∀ o, off ≤ o → o < last → (hid o = true ↔ hides o)) →
            reads (if (List.range c.a1.toNat).any fun k => hid (off + k) then 4 else 0) fun o => if hid o then 0 else image o) ∧
        (fld c.a0 63 56 = 2 → d < 8 ∧ unit < 1024 → last ≤ 512 →
          let g := getGroup s (128 * d + unit / 8) (unit % 8)
          let runs := g.snap.filter fun e => decide (e.1.toNat < 2 ^ 30)
          (on = false → only (.hostRead c) 3 5) ∧
          (on = true → reads 0 fun o =>
            if o < 12 then BitVec.ofNat 8 (spGet 0 g.flags o) else if o < 64 then 0
            else (runs.flatMap fun e => leBytes 4 e.1.toNat ++ leBytes 4 e.2.toNat).getD (o - 64) 0)) ∧
        (fld c.a0 63 56 = 4 → d < 8 ∧ unit < 128 → last ≤ 16 * 320 →
          (on = false → only (.hostRead c) 3 5) ∧
          (on = true → reads 0 fun o => (match spFind core.flog.slots (o / 320) with
            | some (.lane r) => laneRecBytes r
            | some (.engine r) => engRecBytes r
            | none => []).getD (o % 320) 0)) ∧
        (fld c.a0 63 56 = 5 → d = 0 ∧ unit = 0 → last ≤ 64 * ttCount s →
          reads 0 fun o => (genBytes (getGen s (o / 64))).getD (o % 64) 0) ∧
        (fld c.a0 63 56 = 6 → d = 0 ∧ unit = 0 → last ≤ 128 * 256 → reads 0 fun o =>
          (((spFind s.gran.frec (o / 128)).map frecBytes).getD []).getD (o % 128) 0) ∧
        (fld c.a0 63 56 = 7 → d = 0 ∧ unit = 0 → last ≤ 32 * regTable.length → reads 0 fun o =>
          let r := regTable.getD (o / 32) (.pkgDies, "", 0, 0, false)
          let name := r.2.1.toList.map fun x => BitVec.ofNat 8 x.toNat
          ((List.range 24).map (fun i => name.getD i 0) ++ leBytes 2 (o / 32) ++ leBytes 6 r.2.2.1).getD (o % 32) 0) ∧
        ((fld c.a0 63 56 = 1 ∨ fld c.a0 63 56 = 4) ∧ (8 ≤ d ∨ 128 ≤ unit) ∨ (fld c.a0 63 56 = 2 ∧ (8 ≤ d ∨ 1024 ≤ unit)) ∨
          5 ≤ fld c.a0 63 56 ∧ fld c.a0 63 56 ≤ 7 ∧ (d ≠ 0 ∨ unit ≠ 0) ∨ (fld c.a0 63 56 = 1 ∧ 0x10B000 < last) ∨
          (fld c.a0 63 56 = 2 ∧ 512 < last) ∨ (fld c.a0 63 56 = 4 ∧ 16 * 320 < last) ∨
          (fld c.a0 63 56 = 5 ∧ 64 * ttCount s < last) ∨ (fld c.a0 63 56 = 7 ∧ 32 * regTable.length < last) ∨
          (fld c.a0 63 56 = 9 ∧ (fld c.a0 55 46 ≠ 0 ∨ ∃ k < c.a1.toNat, paOk (pa + k) = false)) → only (.hostRead c) 3 2) ∧
        (fld c.a0 63 56 = 9 → fld c.a0 55 46 = 0 → (∀ k < c.a1.toNat, paOk (pa + k) = true) →
          ((∃ k < c.a1.toNat, bit s.gran.present ((pa + k) / 2 ^ 36) = false) → only (.hostRead c) 3 5) ∧
          ∀ hid : Nat → Bool, (∀ k < c.a1.toNat, bit s.gran.present ((pa + k) / 2 ^ 36) = true) →
            (∀ k < c.a1.toNat,
              (hid k = true → onScrubList s (pa + k) 1 = true ∨ ∃ x e, findSeal s.side ((pa + k) / 64) = some x ∧
                ¬ (x.key = (getKey s 0).key ∧ (getKey s 0).state = .loaded) ∧ releasedLine s e.1 x = false ∧
                (s.gran.keys.find? fun e => decide (e.2.state = .loaded) && decide (e.2.key = x.key)) = some e) ∧
              (hid k = false → onScrubList s (pa + k) 1 = false ∧
                ((findSeal s.side ((pa + k) / 64) = none ∧ spFind s.dieScope (pa + k) = none) ∨
                ∃ x, findSeal s.side ((pa + k) / 64) = some x ∧ x.key = (getKey s 0).key ∧ (getKey s 0).state = .loaded))) →
            answers (.hostRead c) 3 id (if (List.range c.a1.toNat).any hid then 4 else 0) none
              ((List.range c.a1.toNat).map fun k => if hid k then 0 else memGet s.vault (pa + k)))) ∧
      (length → fld c.a0 63 56 = 9 → fld c.a0 55 46 = 0 → paOk pa = false → only (.hostWrite c) 4 2) ∧
      (length → fld c.a0 63 56 = 9 → fld c.a0 55 46 = 0 → paOk pa = true → bit s.gran.present (pa / 2 ^ 36) = false →
        only (.hostWrite c) 4 5) ∧
      (length → fld c.a0 63 56 = 9 → fld c.a0 55 46 = 0 → paOk pa = true → bit s.gran.present (pa / 2 ^ 36) = true →
        (inside → covered = false → answers (.hostWrite c) 4
          (fun b => { b with vault := memWrite b.vault pa bytes, dieScope := (scopedWrite b pa bytes).dieScope
                             side := sealCut (pa / 64) ((pa + c.a1.toNat - 1) / 64 + 1 - pa / 64) b.side }) 0 none []) ∧
        (¬ inside ∨ covered = true → only (.hostWrite c) 4 3)) ∧
      (bit s.bilsol.tsync 63 = false → s.time < c.a0.toNat →
        answers (.hostTimeset c) 10 (fun b => { b with time := c.a0.toNat }) 0 none []) ∧
      (bit s.bilsol.tsync 63 = true ∨ c.a0.toNat ≤ s.time → only (.hostTimeset c) 10 3)) ∧
    (c.rsv = 0 → recovering = true → s.gran.pushEnd = false → length → c.a2.toNat < 2 →
      answers (.hostPush c) 9 (fun b => modGran b fun g =>
        { g with pushed := memWrite g.pushed c.a0.toNat bytes, pushEnd := decide (c.a2 = 1) }) 0 none []) ∧
    (c.rsv = 0 → ready = true → recovering = false → only (.hostPush c) 9 3) ∧
    (1 ≤ op.toNat → op.toNat ≤ 10 → exec (.hostUnknownOp op c) s = .next s)

/-- SUBMIT, RESULT and RESET (R209, R461, R465): SUBMIT binds the record on every named die in its lowest FREE slot, marked
HOST, and returns the partition number; RESULT returns the bytes of a RELEASED generation, and is BAD past its end; RESET
aborts a partition, or resets the package as a function-level reset of PCI Express does. The partition number and the strings
that SUBMIT takes, and what a function-level reset keeps, are the model's (log entries 15 and 20); so is BAD for a RESULT past the
end or of a length outside 1 to 32, and for a RESET above 0x100 (log entry 47). -/
def Obligations.HostTasks : Prop :=
  ∀ (c : HostCmd) (s : State),
    let at_ := 64 * (s.host.rsTail.toNat % 64)
    let status := fun (t : State) => (memGet t.host.resps (at_ + 1)).toNat
    let same := fun (b t : State) => { t with host := b.host } = b
    let five := takeCmd s 5 c
    let six := takeCmd s 6 c
    let latest := latestGen six (c.a0.setWidth 48) fun g => decide (g.state = 5)
    let named := fun (d : Nat) => bit c.a1 d = true
    let refuses := fun (i : Instr) (n : Nat) => ∃ t, exec i s = .next t ∧ same s t ∧ status t = n
    let x := getPart s c.a0.toNat
    c.rsv = 0 → bit s.gran.bootStat 0 = true →
    (c.a1 = 0 ∨ 256 ≤ c.a1.toNat → refuses (.hostSubmit c) 2) ∧
    (c.a1 ≠ 0 → c.a1.toNat < 256 →
      ((∃ d < 8, named d ∧ powered s d = false) → refuses (.hostSubmit c) 5) ∧
      ((∀ d < 8, named d → powered s d = true ∧ (freeRecord s d).isSome) → bindsBlocked s = false →
        ∀ p, submitPart five ((bitList (c.a1.setWidth 8)).headD 0) c.a0 = some p → p < 256 →
          ∃ t, exec (.hostSubmit c) s = .next t ∧ status t = 0 ∧ memRead t.host.resps (at_ + 8) 8 = p ∧
            { t with dies := s.dies, host := s.host } = s ∧ (∀ d < 8, ¬ named d → getDie t d = getDie s d) ∧
            ∀ d < 8, named d → ∀ i, freeRecord s d = some i → (∀ k, k ≠ i → getBind t d k = getBind s d k) ∧
              let b := getBind t d i
              b.state = .bound ∧ b.host = true ∧ b.lrVa = c.a0 ∧ b.part = p ∧ b.diemask = c.a1.setWidth 16)) ∧
    (c.a2.toNat = 0 ∨ 32 < c.a2.toNat ∨ 2 ^ 48 ≤ c.a0.toNat → refuses (.hostResult c) 2) ∧
    (1 ≤ c.a2.toNat → c.a2.toNat ≤ 32 → c.a0.toNat < 2 ^ 48 →
      (latest = none → refuses (.hostResult c) 3) ∧
      (∀ g, latest = some g → g.keyslot ≠ 0 ∧ (getKey s g.keyslot).exp = false → refuses (.hostResult c) 3) ∧
      (∀ g, latest = some g → g.keyslot = 0 ∨ (getKey s g.keyslot).exp = true → g.size < c.a1.toNat + c.a2.toNat →
        refuses (.hostResult c) 2) ∧
      (∀ g bs, latest = some g → releasedBytes six g c.a1.toNat c.a2.toNat = some bs →
        ∃ t, exec (.hostResult c) s = .next t ∧ same s t ∧ status t = 0 ∧
          memRead t.host.resps (at_ + 4) 4 = c.a2.toNat ∧ memBytes t.host.resps (at_ + 32) c.a2.toNat = bs)) ∧
    (∀ i, i = .hostResetPartition c ∨ i = .hostResetPackage c →
      (256 < c.a0.toNat → refuses i 2) ∧
      (c.a0.toNat < 256 → x.launch = none ∨ x.st = .aborting → refuses i 0) ∧
      (c.a0.toNat < 256 → x.launch ≠ none → x.st ≠ .aborting → ∃ t, exec i s = .next t ∧ status t = 0 ∧
        same (modPart s c.a0.toNat fun y => { y with st := .aborting, waitStart := false, holding := none }) t) ∧
      (c.a0 = 256 → ∃ t, exec i s = .next t ∧ status t = 0 ∧ same (resetPackage (takeCmd s 7 c)) t)) ∧
    exec .pcieFunctionLevelReset s = .next (resetPackage s) ∧
    ∀ b, b = s ∨ b = takeCmd s 7 c → (∀ p, worldSlot s p = 0) → (∀ p, (getPart s p).erasing = []) →
      let t := resetPackage b
      (∀ k, (getCore t k).part = none ∧ (getCore t k).spad = [] ∧ (getCore t k).ballast = (getCore s k).ballast) ∧
      (∀ p, (getPart t p).launch = none ∧ (getPart t p).st = .idle ∧ (getPart t p).phase = 0 ∧
        (getPart t p).wdog = (getPart s p).wdog) ∧
      (∀ d i, getBind t d i = Bind.zero) ∧ t.vault = s.vault ∧ t.gran.keys = s.gran.keys ∧ t.gran.meas = s.gran.meas ∧
      t.gran.strikes = s.gran.strikes ∧ t.gran.frec = s.gran.frec ∧ t.gran.frecTail = s.gran.frecTail ∧
      t.bilsol.devnum = s.bilsol.devnum ∧ t.host.rsTail = b.host.rsTail ∧ t.spdm = s.spdm

/-- Watchdogs (R467): a write keeps its fields and restarts the timer; at LIMIT_MS of package time EXPIRED is set, host event
4 names the ACTION and the action is taken, once for each restart, whether EXPIRED was set or not; a management core's timer restarts at a kick, and its expiry aborts the partitions
whose home die it is. The Granite die posts both events. PART 0xFF and ARG 1 of a management core's event, that WDOG runs only
while a task runs, and that a LIMIT_MS of 0 of MCWD is always due, are the model's (log entry 20); so is DIE 8
in them (log entry 36). -/
def Obligations.Watchdogs : Prop :=
  ∀ (part : Fin 256) (die : Fin 8) (v : Word) (s : State),
    let x := getPart s part
    let act := fld x.wdog 59 58
    let running := x.launch ≠ none ∧ fld x.wdog 31 0 ≠ 0 ∧ x.wdogDone = false
    let due := max s.time (x.wdogAt + fld x.wdog 31 0 * 1000000)
    let expired := { modPart s part (fun y => { y with wdog := y.wdog ||| 0x8000000000000000, wdogDone := true }) with time := due }
    let event := fun (e : EventRec) (b : State) (p arg : Nat) => e = hostEvent b 4 p (wd arg) ∧ e.die = 8
    let y := getDie s die
    (∃ t, exec (.wdogWrite part v) s = .next t ∧ { t with parts := s.parts } = s ∧
      (∀ p, p ≠ part.val → getPart t p = getPart s p) ∧ ∃ w, getPart t part = { x with wdog := w, wdogAt := s.time, wdogDone := false } ∧
        ∀ k < 64, w.getLsbD k = if k = 63 then x.wdog.getLsbD 63 && !v.getLsbD 63
          else v.getLsbD k && (decide (k < 32) || decide (k = 58) || decide (k = 59))) ∧
    (¬ running → exec (.wdogExpire part) s = .next s) ∧
    (running → ∃ e, event e expired part act ∧
      (act = 0 → exec (.wdogExpire part) s = .next (postHost expired e)) ∧
      (act = 1 ∨ act = 2 → x.st ≠ .aborting → exec (.wdogExpire part) s = .next (modPart (postHost expired e) part fun z =>
        { z with st := .aborting, waitStart := false, holding := none })) ∧
      (act = 3 → exec (.wdogExpire part) s = .next (resetPackage (postHost expired e)))) ∧
    (bit v 63 = true → exec (.mcwdKick die v) s = .next (modDie s die fun z => { z with mcwdAt := s.time })) ∧
    (bit v 63 = false → exec (.mcwdKick die v) s = .next s) ∧
    (bit s.gran.present die = false → exec (.mcwdExpire die) s = .next s) ∧
    (bit s.gran.present die = true → (s.parts.map (·.1)).Nodup →
      let now := max s.time (y.mcwdAt + y.mcwdLimit * 1000000)
      ∃ b e, exec (.mcwdExpire die) s = .next (postHost b e) ∧ event e b 0xFF 1 ∧ b.time = now ∧
        { b with parts := s.parts, dies := s.dies, time := s.time } = s ∧ getDie b die = { y with mcwdAt := now } ∧
        (∀ d, d ≠ die.val → getDie b d = getDie s d) ∧
        ∀ p, getPart b p = (let z := getPart s p
          if z.launch ≠ none ∧ homeDie z = die.val ∧ z.st ≠ .aborting then { z with st := .aborting, waitStart := false, holding := none }
          else z))

/-- The Bilsol half (R353, R438, R468 to R471): DEVNUM is written once; ports change state, with host event 5, where they may, and
what a port that goes down has carried without an acknowledgement is to be sent again; a failed tag counts; each sync interval sets TIMESYNC and steps time forward by more than 1 ms only; a peer's push lands in a
range that is open to its source, with LASTSEQ, and elsewhere is refused. That state 3 needs a session on the port's channel,
when the placement rules of PEERRX are checked, and that a push to an address that is no multiple of 64 is refused, is the model's
reading (log entry 20). -/
def Obligations.BilsolPorts : Prop :=
  ∀ (v : Word) (port : Fin 16) (st : Fin 4) (peer src : BitVec 18) (off : BitVec 32) (entry : Fin 16) (field : Fin 3)
      (dst : BitVec 46) (seq : Word) (lcore : BitVec 10) (lines : List PushLine) (s : State),
    let z := s.bilsol
    let reg := spGet 0 z.port port
    let becomes := fun (b : Bilsol) => { s with bilsol := b }
    let ready := bit z.devnum 63 = true ∧ bit s.gran.present (9 + port.val / 8) = true
    let sessionUp := ∃ x ∈ s.spdm.sessions, x.channel = port.val + 1 ∧ x.established = true
    let within := if off.toInt.natAbs ≤ 200 then min 16 (z.tsCount + 1) else 0
    let synced := becomes { z with tsync := wd ((if 16 ≤ within then 2 ^ 63 else 0) + port.val * 2 ^ 32 + off.toNat), tsCount := within }
    let e := spGet (0, 0, 0) z.peerrx entry
    let put := fun (x : Word × Word × Word) => becomes { z with peerrx := spSet z.peerrx entry x }
    let opens := fun (i : Nat) => let f := spGet (0, 0, 0) z.peerrx i
      bit f.1 63 = true ∧ fld f.2.1 49 32 = src.toNat ∧ fld f.1 29 0 * 65536 ≤ dst.toNat ∧
        dst.toNat + 64 * lines.length ≤ fld f.1 29 0 * 65536 + fld f.2.1 31 0 * 65536
    (bit z.devnum 63 = false → fld v 62 18 = 0 →
      exec (.devnumWrite v) s = .next (becomes { z with devnum := wd (2 ^ 63 + fld v 17 0) })) ∧
    (bit z.devnum 63 = true ∨ fld v 62 18 ≠ 0 → exec (.devnumWrite v) s = .next s) ∧
    (fld reg 1 0 = st.val ∨ (st ≠ 0 ∧ ¬ ready) ∨ (st = 3 ∧ ¬ sessionUp) →
      exec (.bilsolPortStateChange port st peer) s = .next s) ∧
    (fld reg 1 0 ≠ st.val → st = 0 ∨ (ready ∧ (st = 3 → sessionUp)) →
      ∃ b w ev, exec (.bilsolPortStateChange port st peer) s = .next (postHost b ev) ∧
        b = (let lost := fun (o : Outbound) => decide (fld reg 1 0 = 3) && decide (o.port = some port.val) &&
               !Config.acknowledged o.dev.toNat o.tid.toNat o.off s.ticks
             let g := { s.gran with wire := s.gran.wire.map fun o => if lost o then { o with port := none } else o }
             { becomes { z with port := spSet z.port port w } with gran := g }) ∧ ev = hostEvent b 5 0xFF (wd (st.val * 256 + port.val)) ∧
        fld w 1 0 = st.val ∧ fld w 63 46 = peer.toNat ∧ fld w 31 16 = fld reg 31 16) ∧
    (∃ w, exec (.frameTagFailure port) s = .next (becomes { z with port := spSet z.port port w }) ∧
      fld w 31 16 = min 65535 (fld reg 31 16 + 1) ∧ ∀ k < 64, k < 16 ∨ 32 ≤ k → w.getLsbD k = reg.getLsbD k) ∧
    (1000000 < off.toInt → (∀ q ∈ s.parts, q.2.waitStart = false) → (∀ d ∈ s.dies, ∀ b ∈ d.2.binds, b.2.state ≠ .armed) →
      exec (.ptpSync port off) s = .next { synced with time := s.time + off.toNat }) ∧
    (off.toInt ≤ 1000000 ∨ (∃ q ∈ s.parts, q.2.waitStart = true) → exec (.ptpSync port off) s = .next synced) ∧
    (field = 0 → bit v 63 = false → exec (.peerrxWrite entry field v) s = .next (put (v &&& 0x000000003FFFFFFF, e.2))) ∧
    (field = 0 → bit v 63 = true → peerRangeOk s (fld v 29 0) (fld e.2.1 31 0) = false →
      exec (.peerrxWrite entry field v) s = .next s) ∧
    (field = 0 → bit v 63 = true → peerRangeOk s (fld v 29 0) (fld e.2.1 31 0) = true →
      exec (.peerrxWrite entry field v) s = .next (put (v &&& 0x800000003FFFFFFF, e.2))) ∧
    (field ≠ 0 → bit e.1 63 = true → peerRangeOk s (fld e.1 29 0) (if field = 1 then fld v 31 0 else fld e.2.1 31 0) = false →
      exec (.peerrxWrite entry field v) s = .next s) ∧
    (field ≠ 0 → bit e.1 63 = false ∨
        peerRangeOk s (fld e.1 29 0) (if field = 1 then fld v 31 0 else fld e.2.1 31 0) = true → ∃ w, exec (.peerrxWrite entry field v) s = .next (put (e.1, w, e.2.2)) ∧
      fld w 31 0 = (if field = 1 then fld v 31 0 else fld e.2.1 31 0) ∧
      fld w 49 32 = (if field = 2 then fld v 17 0 else fld e.2.1 49 32)) ∧
    (dst.toNat % 64 ≠ 0 ∨ (∀ i < 16, ¬ opens i) → exec (.peerPushReceive src dst seq lcore lines) s =
      .next (becomes { z with replies := [], refused := true })) ∧
    (dst.toNat % 64 = 0 → opens entry → (∀ i < entry.val, ¬ opens i) →
      ∃ t, exec (.peerPushReceive src dst seq lcore lines) s = .next t ∧
        { t with vault := s.vault, side := s.side, bilsol := z } = s ∧
        t.bilsol = { z with peerrx := spSet z.peerrx entry (e.1, e.2.1, seq), replies := [], refused := false } ∧
        (∀ a, a < dst.toNat ∨ dst.toNat + 64 * lines.length ≤ a → memGet t.vault a = memGet s.vault a) ∧
        ∀ k x, lines[k]? = some x → memRead t.vault (dst.toNat + 64 * k) 64 = x.data.toNat)

/-- Register writes (R9 and each register's rule): read-only registers and absent instances take none; reserved bits stay 0;
the values that a rule clamps, ignores or clears do as it says. A write to a register whose write is an event of its own does
what that event does; of CTX_CTL, LANECTL, XFCTL and MIGCTL only an OP or a GO that the register's table names. That the register
of a die that is not released takes no write, and in which order the bits of one PH_CTL write act, are the model's (log entry 20). -/
def Obligations.RegisterWrites : Prop :=
  ∀ (n : Nat) (v : Word) (s : State),
    let there := fun (r : MReg) => regThere s r n = true
    let w := fun (r : MReg) => Instr.registerWrite r n v
    let same := fun (r : MReg) (i : Instr) => there r → exec (w r) s = exec i s
    let ofPart := fun (f : Fin 256 → Instr) => f (Fin.ofNat 256 n)
    let does := fun (on : Bool) (i : Instr) (t u : State) => if on = true then exec i t = .next u else u = t
    let rx := spGet (0, 0, 0) s.bilsol.peerrx (n / 4)
    let putRx := spSet s.bilsol.peerrx (n / 4)
    let core := fun (f : Core → Core) => modCore s n f
    let die := fun (f : Die → Die) => modDie s n f
    let gran := fun (f : Granite → Granite) => modGran s f
    let part := fun (f : Part → Part) => modPart s n f
    let low := fun (k : Nat) => v &&& wd (2 ^ k - 1)
    (∀ r, regThere s r n = false → exec (w r) s = .next s) ∧
    (∀ r ∈ [MReg.strimb, .pkgDies, .audStat, .strikes, .bootStat, .meas, .keystat, .scrubProg, .bport, .timesync, .pwrLive],
      exec (w r) s = .next s) ∧
    (there .gtoCap → exec (w .gtoCap) s = .next (if fld v 7 0 = 0 then s else core fun x => { x with gtoCap := fld v 7 0 })) ∧
    (there .fillerLevel → exec (w .fillerLevel) s = .next (modStr s n fun x =>
      { x with filler := wd ((if bit v 12 then 4096 else 0) + min 2700 (v.toNat % 4096)) })) ∧
    (there .flipSlew → exec (w .flipSlew) s = .next (die fun x => { x with flipSlew := low 16 })) ∧
    (there .therm → exec (w .therm) s = .next (if bit v 1 then core fun x => { x with therm := setFld x.therm 1 1 0 } else s)) ∧
    (there .accThresh → exec (w .accThresh) s = .next (die fun x => { x with accThresh := low 12 })) ∧
    (there .nqCtl → exec (w .nqCtl) s = .next (die fun x => { x with nqCtl := low 48 })) ∧
    (there .maintCtl → exec (w .maintCtl) s = .next (die fun x => { x with maintCtl := low 48 })) ∧
    (there .evqCtl → exec (w .evqCtl) s = .next (die fun x => { x with evqCtl := low 48 })) ∧
    (there .flogCtl → exec (w .flogCtl) s = .next (core fun x => { x with flog :=
      { x.flog with head := v.setWidth 8, lost := if bit v 32 then 0 else x.flog.lost } })) ∧
    (there .ctxBase → exec (w .ctxBase) s = .next (core fun x => { x with ctxBase := v &&& 0x3FFFFFFF0001 })) ∧
    (there .ckptBase → exec (w .ckptBase) s = .next (core fun x => { x with ckptBase := v &&& 0x3FFFFFFF0001 })) ∧
    (there .ctxMap → exec (w .ctxMap) s = .next (part fun x => { x with ctxMap := low 48 })) ∧
    (there .ctxSeq → exec (w .ctxSeq) s = .next (part fun x => { x with ctxSeq := v })) ∧
    (there .peerCtl → exec (w .peerCtl) s = .next (part fun x => { x with peerCtl := v &&& 0x8000FFFFFFFFFFFF })) ∧
    (there .chkMode → exec (w .chkMode) s = .next (gran fun g => { g with chkMode := low 1 })) ∧
    (there .auditWin → exec (w .auditWin) s = .next (if fld v 7 0 = 0 then s else gran fun g => { g with auditWin := fld v 7 0 })) ∧
    (there .auditSpots → exec (w .auditSpots) s = .next (gran fun g => { g with auditSpots := min 64 (fld v 6 0) })) ∧
    (there .frecCtl → s.gran.diags = [] → exec (w .frecCtl) s = .next (gran fun g =>
      { g with frecHead := v.setWidth 9, frecLost := if bit v 32 then 0 else g.frecLost })) ∧
    (there .geodeCtl → ∃ x, exec (w .geodeCtl) s = .next (gran fun g => { g with geodeCtl := x }) ∧ fld x 63 46 = 0 ∧
      fld x 45 26 = fld v 45 26 ∧ fld x 25 16 = 0 ∧ fld x 7 0 = fld v 7 0 ∧
      fld x 15 8 = (if fld v 15 8 = 0 then fld s.gran.geodeCtl 15 8 else fld v 15 8)) ∧
    (there .strikeCtl → exec (w .strikeCtl) s = .next (gran fun g => { g with strikeCtl := low 24 })) ∧
    (there .hostwin → exec (w .hostwin) s = .next (die fun x => { x with hostwin := low 46 })) ∧
    (there .mcwd → exec (w .mcwd) s = .next (die fun x =>
      { x with mcwdLimit := v.toNat % 2 ^ 32, mcwdAt := if bit v 63 then s.time else x.mcwdAt })) ∧
    (there .ttCtl → exec (w .ttCtl) s = .next { s with ttCtl := v &&& 0x01FFFFFFFFFFFFC0 }) ∧
    (there .route → ∃ t, exec (w .route) s = .next t ∧ { t with bilsol := s.bilsol } = s ∧
      { t.bilsol with route := s.bilsol.route } = s.bilsol ∧
      ∀ k, spGet 0 t.bilsol.route k = if k = n then v.setWidth 16 else spGet 0 s.bilsol.route k) ∧
    same .railIlim (.railIlimWrite (Fin.ofNat 8 n) v) ∧
    same .dvfsCtl (if bit v 14 then .dvfsForce (Fin.ofNat 8 n) v else .dvfsFreqWrite (Fin.ofNat 8 n) v) ∧
    same .stragLimit (ofPart (.stragLimitWrite · v)) ∧ same .troot (ofPart (.trootWrite · v)) ∧
    same .migctl (ofPart (.migctlGo · v)) ∧ same .wdog (ofPart (.wdogWrite · v)) ∧ same .devnum (.devnumWrite v) ∧
    (∀ a b c, there .phCtl → does (bit v 6) (ofPart .phCtlStragClear) s a → exec (ofPart (.phCtlHold · (bit v 0))) a = .next b →
      does (bit v 2) (ofPart .phCtlDiscard) b c →
      exec (w .phCtl) s = if bit v 1 then exec (ofPart .phCtlAbort) c else .next c) ∧
    (fld v 1 0 = 0 → exec (w .ctxCtl) s = .next s) ∧ (fld v 1 0 = 1 → same .ctxCtl (ofPart .ctxSave)) ∧
    (fld v 1 0 = 2 → same .ctxCtl (ofPart .ctxEvict)) ∧ (fld v 1 0 = 3 → same .ctxCtl (ofPart .ctxRestore)) ∧
    (fld v 43 42 = 1 → same .xfctl (ofPart (.xfctlReplay · (v.extractLsb' 32 10) (v.setWidth 16)))) ∧
    (fld v 43 42 = 2 → same .xfctl (ofPart .xfctlAbandon)) ∧
    (fld v 43 42 = 0 ∨ fld v 43 42 = 3 → exec (w .xfctl) s = .next s) ∧
    (∀ (d : Fin 8) (c : Fin 128) (g : Fin 8), n = 8 * (128 * d.val + c.val) + g.val →
      (fld v 57 56 = 1 → fld v 33 32 = 0 → same .lanectl (.lanectlResume d c g (v.extractLsb' 32 20) (v.setWidth 32))) ∧
      (fld v 57 56 = 2 → fld v 33 32 = 0 → same .lanectl (.lanectlKill d c g (v.setWidth 32)))) ∧
    (fld v 57 56 = 0 ∨ fld v 57 56 = 3 ∨ fld v 33 32 ≠ 0 → exec (w .lanectl) s = .next s) ∧
    (n % 4 = 0 → same .peerrx (.peerrxWrite (Fin.ofNat 16 (n / 4)) 0 v)) ∧
    (there .peerrx → n % 4 = 1 → exec (w .peerrx) s =
      if bit rx.1 63 = true ∧ peerRangeOk s (fld rx.1 29 0) (fld v 31 0) = false then .next s
      else .next { s with bilsol := { s.bilsol with peerrx := putRx (rx.1, v &&& 0x0003FFFFFFFFFFFF, rx.2.2) } }) ∧
    (2 ≤ n % 4 → exec (w .peerrx) s = .next s) ∧
    (there .mcMem → ∃ m, exec (w .mcMem) s = .next (modDie s (n / 2 ^ 32) fun x => { x with mcMem := m }) ∧
      memRead m (n % 2 ^ 32) 8 = v.toNat ∧
      ∀ a, a < n % 2 ^ 32 ∨ n % 2 ^ 32 + 8 ≤ a → memGet m a = memGet (getDie s (n / 2 ^ 32)).mcMem a) ∧
    (there .evHead → exec (w .evHead) s = .next { s with host := { s.host with evHead := v.setWidth 16 } })

/-- Carry-forward (R240): a SEALED generation whose lines are all written becomes STAGED, its map slots are free, and its
notification and its notice go out, copies of a failed run's generation are compared with it (R418), and what waited for its
lines goes on (R242); a last unwritten line is filled first, from PREV or with zeros, and one that cannot be
read sets CARRYFAIL with a kind-5 notification of cause 0x45 and leaves the generation SEALED. While a line of PREV that it
needs has still to be carried, or a page has WBLK set (R229), it waits; under a slot that a teardown erases it stays (R453).
That a line without a valid leaf of its own counts as one that cannot be read is the model's choice (log entry 71). -/
def Obligations.CarryForward : Prop :=
  ∀ (i ln : Nat) (s : State),
    let g := getGen s i
    let goes := fun (t : State) => exec (.carryForwardComplete i) s = .next t
    let staged := fun (b : State) =>
      let g' := { g with state := 4 }
      let t := setGen { freeMap b i with written := spErase b.written i } g'
      let t := modGran t fun z => { z with diags := z.diags.map (stageDiag t g') }
      wake s (retryLands (notify (postNote t (lineHome t g' 0) 3 g.owner 0 (wd i)) g.owner 2 i g.tid g.ver 0 (getPart t g.owner).phase))
    let open_ := i < ttCount s ∧ g.state = 3 ∧ bit g.flags 3 = false ∧ slotTorn s g.keyslot = false
    let fails := freeMap (postNote (setGen s { g with flags := g.flags ||| 8 }) (lineHome s g ln) 5 g.owner 0x45 (wd i)) i
    let only := ln < g.size / 64 ∧ ∀ k < g.size / 64, (writtenOf s i).contains k = decide (k ≠ ln)
    let va := g.vbase + 64 * ln
    (open_ → carryReady s g = false → goes s) ∧
    (open_ → (∀ k < g.size / 64, (writtenOf s i).contains k = true) → goes (staged s)) ∧
    (open_ → only → carryReady s g = true → ∀ bs l, fillLine s (lowDie s) g ln = .ok bs →
      ownerWalk s (lowDie s) g.owner va = some l →
      let b := markWritten (storeLine s g l va bs) i ln
      getGen b i = g → goes (staged b)) ∧
    (∀ c a, open_ → only → carryReady s g = true → liveDies s ≠ [] → fillLine s (lowDie s) g ln = .fault c a →
      goes fails) ∧
    (∀ bs, open_ → only → carryReady s g = true → liveDies s ≠ [] → fillLine s (lowDie s) g ln = .ok bs →
      ownerWalk s (lowDie s) g.owner va = none → goes fails) ∧
    (ttCount s ≤ i ∨ g.state ≠ 3 ∨ bit g.flags 3 = true ∨ slotTorn s g.keyslot = true → goes s)

/-- Writes and reads of another device (R242): only an OPEN landing tensor that is the latest generation of its TID takes a
write; ARRIVE advances by its bytes, a write to a page whose leaf has WBLK set waits (R229); a duplicate of an applied
reduction is accepted without effect; a read returns bytes of the latest RELEASED generation, and everything else is refused.
-/
def Obligations.LandingTensors : Prop :=
  ∀ (src : BitVec 18) (tid : BitVec 48) (off : BitVec 46) (op : LandOp) (data : List Byte) (n : Nat) (s : State) (g : Gen),
    let latest := fun (ok : Gen → Prop) => g ∈ allGens s ∧ g.live = true ∧ g.tid = tid ∧ ok g ∧
      ∀ x ∈ allGens s, x.live = true → x.tid = tid → ok x → x.idx ≠ g.idx → x.ver < g.ver
    let any := fun (_ : Gen) => True
    let released := fun (x : Gen) => x.state = 5
    let va := g.vbase + off.toNat
    let landing := latest any ∧ g.state = 2 ∧ bit g.flags 0 = true
    let fits := fun (k : Nat) => off.toNat + k ≤ g.size ∧ 0 < k ∧ va % 64 + k ≤ 64
    let answers := fun (b : State) (refused : Bool) (bs : List Byte) =>
      { b with bilsol := { b.bilsol with replies := bs, refused := refused } }
    let arrives := fun (b : State) =>
      let b := modPart b g.owner fun x => { x with arrive := x.arrive + wd data.length }
      answers (notify b g.owner 4 g.idx tid g.ver data.length (getPart b g.owner).arrive) false []
    let write := fun (o : LandOp) (t : State) => exec (.landingWrite src tid off o data) s = .next t
    ((∀ x ∈ allGens s, x.live = true → x.tid ≠ tid) → write op (answers s true [])) ∧
    (latest any → g.state ≠ 2 ∨ bit g.flags 0 = false ∨ g.size < off.toNat + data.length → write op (answers s true [])) ∧
    (∀ s', landing → fits data.length → gWrite [] s (lowDie s) g.owner va data false true = .ok s' →
      write .write (arrives s')) ∧
    (landing → fits data.length → gWrite [] s (lowDie s) g.owner va data false true = .wait →
      write .write { s with lands := s.lands ++ [{ src := src, tid := tid, off := off.toNat, op := .write, data := data }] }) ∧
    (∀ minor signed qw core tag, landing → fits data.length →
      let o := LandOp.xred minor signed qw core tag
      let sig : XSig := { op := minor, signed := signed, qw := qw }
      let idem : Prop := minor.val ≠ 3 ∧ minor.val ≠ 8 ∧ minor.val ≠ 9
      (∀ s', idem → gRed [] s (lowDie s) g.owner va data sig true = .ok s' → write o (arrives s')) ∧
      (idem → gRed [] s (lowDie s) g.owner va data sig true = .wait → write o
        { s with lands := s.lands ++ [{ src := src, tid := tid, off := off.toNat, op := o, data := data }] }) ∧
      (∀ l, ¬ idem → ownerWalk s (lowDie s) g.owner va = some l →
        let v := l.readPa (lowDie s) va / 2 ^ 29
        let who := 1024 * (src.toNat + 1) + core
        let win := spGet [] s.vdedup v
        ((tagsOf win who).contains tag = true → write o (answers s false [])) ∧
        (∀ s', (tagsOf win who).contains tag = false → gRed [] s (lowDie s) g.owner va data sig true = .ok s' →
          write o (arrives { s' with vdedup := spSet s'.vdedup v (spSet win who (let l := tag :: tagsOf win who; if l.length ≤ 32 then l else l.dropLast)) })))) ∧
    (∀ line, latest released → off.toNat + n ≤ g.size → 0 < n → va % 64 + n ≤ 64 →
      g.keyslot = 0 ∨ (getKey s g.keyslot).exp = true →
      genLine s (lowDie s) g (off.toNat / 64) = some line → g.vbase % 64 = 0 →
      exec (.remoteReadRequest src tid off n) s = .next (answers s false ((line.drop (va % 64)).take n))) ∧
    ((∀ x ∈ allGens s, x.live = true → x.tid = tid → x.state ≠ 5) →
      exec (.remoteReadRequest src tid off n) s = .next (answers s true [])) ∧
    (latest released → g.size < off.toNat + n ∨ (g.keyslot ≠ 0 ∧ (getKey s g.keyslot).exp = false) →
      exec (.remoteReadRequest src tid off n) s = .next (answers s true []))

/-- The machine right after reset, where the spec states the value: string, die, package, trust and host registers, no task,
no record bound, no fault recorded. The spec gives a scratchpad no contents at power-on: that it is listed as empty, each byte
reading 0, is the model's choice (log entry 3). Of the other values that the model names itself (log entry 4) none is stated. -/
def Obligations.ResetState : Prop :=
  let s := State.reset
  (∀ n < 256, (getStr s n).strimb = 0 ∧ (getStr s n).filler = 0x1A8C) ∧
  (∀ d < 8, let x := getDie s d
    x.flipSlew = 1000 ∧ x.railIlim = 0x0025317C00B57700 ∧ x.freq = 1900 ∧ x.pending = false ∧ x.accThresh = 256 ∧
    x.nqCtl = 0 ∧ x.maintCtl = 0 ∧ x.evqCtl = 0 ∧ x.mcwdLimit = 100) ∧
  (∀ c < 1024, let x := getCore s c
    x.gtoCap = 64 ∧ x.spad = [] ∧ x.therm = 0 ∧ x.ctxBase = 0 ∧ x.ckptBase = 0) ∧
  (∀ p < 256, let x := getPart s p
    x.st = .idle ∧ x.hold = false ∧ x.troot = 0 ∧ x.savecnt = 0 ∧ x.ndrop = 0 ∧ x.wdog = 0x0400000000000000) ∧
  s.ttCtl = 0 ∧ s.gran.excluded = 0 ∧ s.gran.derated = 0 ∧ s.gran.chkMode = 0 ∧
  s.gran.auditWin = 16 ∧ s.gran.auditSpots = 4 ∧ s.gran.geodeCtl = 0x4000 ∧ s.gran.strikeCtl = 0x060302 ∧
  s.gran.frecHead = 0 ∧ s.gran.frecTail = 0 ∧ s.gran.frecLost = 0 ∧ s.gran.bootStat = 0xFF0000 ∧
  s.bilsol.devnum = 0 ∧ s.bilsol.tsync = 0x000000FF00000000

/-- A step runs the oldest action of the agenda; with an empty agenda the word at the chosen cursor is fetched, and step is
exec of the instruction that it decodes to, an illegal instruction where the decoder refuses it (R86), a fetch fault where
there is no word (R21); or the chosen event happens, or time passes. The order of actions is the model's (log entry 1). -/
def Obligations.StepRunsDecodedWord : Prop :=
  ∀ (s : State) (turn : Nat),
    (∀ i r, s.agenda = i :: r → isWord i = false → step s = exec i (tick { s with agenda := r })) ∧
    (∀ cur, s.agenda = [] → choose s = (turn, .word cur) →
      let b := atCursor (tick s) turn cur
      (∀ w i, fetchCursor b = some w → decode w = .ok i → step s = exec i b) ∧
      (∀ w why, fetchCursor b = some w → decode w = .error why → step s = execIllegalInstruction w b) ∧
      (fetchCursor b = none → step s = .next (fetchFault b))) ∧
    (∀ i, s.agenda = [] → choose s = (turn, .event i) → step s = exec i { tick s with turn := turn }) ∧
    (s.agenda = [] → choose s = (turn, .idle) → step s = .next { tick s with turn := turn })

/-- The words that the spec's own encoding examples and listings write out decode to the instructions they stand for, one or
more of every family that they show. -/
def Obligations.DecodeWords : Prop :=
  let w := fun (n : Fin 40) => Reg.w n
  let a := fun (n : Fin 40) => Src.reg (Reg.w n)
  decode 0x0040003E = .ok (.clause 2 0 (some 1) none false) ∧
  decode 0x06C92400 = .ok (.harith (some .rs) (some .sat) (some (a 9))) ∧
  decode 0x3010830F = .ok (.cvs (w 1) (a 2) (a 3) (.int .i8) .f32) ∧
  decode 0x1020C42A = .ok (.icmp 2 (a 3) (a 4) .i16 .and .lt) ∧
  decode 0x1C518750 = .ok (.div (w 5) (a 6) (a 7) .i32 .b) ∧
  decode 0x4C80C423 = .ok (.stx (a 8) (a 3) (a 4) 2 .b64) ∧
  decode 0x64010408 = .ok (.swr (a 4) .fstat) ∧
  decode 0x66D24009 = .ok (.kset 3 (a 9)) ∧
  decode 0x28414620 = .ok (.fma (w 4) (a 5) (a 6) .f32) ∧
  decode 0x30308001 = .ok (.cvt (w 3) (a 2) (.flt .f16) (.flt .f32)) ∧
  decode 0x544146E0 = .ok (.lshf (w 4) (a 5) (a 6) .n64) ∧
  decode 0x38414600 = .ok (.dotI8 (w 4) (a 5) (a 6)) ∧
  decode 0x50414668 = .ok (.aadd (w 4) (a 5) (a 6) .i64 1) ∧
  decode 0x0C303FDF = .ok (.movi (w 3) 0xFF .i64) ∧
  decode 0x5801C000 = .ok (.ljoin (a 7)) ∧
  decode 0x34410024 = .ok (.exp2 (w 4) (a 4) .f32 .a) ∧
  decode 0x6CB80004 = .ok (.mmaN8 (w 11) (a 32)) ∧
  decode 0x6AAB4601 = .ok (.xst (.k 0) (.k 3) (a 6)) ∧
  decode 0x186AFA01 = .ok (.sel (w 6) (.k 1) .z 0) ∧
  decode 0x64000004 = .ok .sync ∧
  decode 0x08107F60 = .ok (.add (w 1) (a 1) .h .i64) ∧
  decode 0x24414622 = .ok (.fmul (w 4) (a 5) (a 6) .f32) ∧
  decode 0x2C108302 = .ok (.fcmp 1 (a 2) (a 3) .f16 .set .lt) ∧
  decode 0x402E8003 = .ok (.ld (w 2) .z 0 0 .a .b64) ∧
  decode 0x40708082 = .ok (.ld (w 7) (a 2) 2 0 .a .n32) ∧
  decode 0x44408003 = .ok (.st (a 4) (a 2) 0 0 .b64) ∧
  decode 0x5C8FFFFA = .ok (.brAny 0 0xFFFFA) ∧
  decode 0x5E000005 = .ok (.jmp 5) ∧
  decode 0x5E800004 = .ok (.call 4) ∧
  decode 0x60098000 = .ok (.jr (a 38)) ∧
  decode 0x70AA8000 = .ok (.awit (w 10) (.k 0))

/-- Encoder and decoder agree (R68 to R86): the word of every well-formed instruction decodes to it, and every word that
decodes gives a well-formed instruction whose word it is, so no bit of an encoding is dropped. -/
def Obligations.EncodeDecodeRoundTrip : Prop :=
  (∀ (i : Instr) (w : BitVec 32), i.wellFormed = true → encode i = some w → decode w = .ok i) ∧
  ∀ (w : BitVec 32) (i : Instr), decode w = .ok i → i.wellFormed = true ∧ encode i = some w

/-- Vault memory keeps its canonical form in every step: addresses strictly rising, no zero byte listed, so equal memories are
equal data (log entry 3). -/
def Obligations.VaultStaysCanonical : Prop :=
  ∀ s t : State, step s = .next t → Memory.wf s.vault = true → Memory.wf t.vault = true

/-- Vault memory and every scratchpad are in canonical form at reset. What memory holds at reset is the model's (log entry 3).
-/
def Obligations.ResetMemoryCanonical : Prop :=
  Memory.wf State.reset.vault = true ∧ ∀ c, Memory.wf (getCore State.reset c).spad = true

/-- Package time (R470): every instruction and every event completes in every state, and none moves TIME back; every step
moves it forward. How far a step moves it is free (log entry 2). -/
def Obligations.TimeRises : Prop :=
  (∀ s t : State, step s = .next t → s.time < t.time) ∧
  ∀ (i : Instr) (s : State), ∃ t, exec i s = .next t ∧ s.time ≤ t.time

end Statements
end

