-- ==== Sys2Proof/Laws/Bits.lean ====
section
/-!
SUPPORT. Laws/Bits.lean: reading and writing data kept by number, the canonical form of memories, bytes and sub-elements.
-/
namespace Sys2Proof.Machine

section Sparse
variable {α : Type}

@[simp] theorem spGet_nil (d : α) (n : Nat) : spGet d [] n = d := rfl

theorem spGet_spSet (d : α) (m : Sparse α) (n k : Nat) (v : α) :
    spGet d (spSet m n v) k = if k = n then v else spGet d m k := by
  induction m with
  | nil => simp only [spSet, spGet, eq_comm]
  | cons x r ih =>
    obtain ⟨j, x⟩ := x
    rw [spSet]
    by_cases hk : k = n
    · subst hk
      split_ifs <;> simp_all [spGet]
      omega
    · rw [if_neg hk] at ih ⊢
      split_ifs with h1 h2
      · rw [spGet, if_neg (Ne.symm hk)]
      · subst h2; rw [spGet, spGet, if_neg (Ne.symm hk), if_neg (Ne.symm hk)]
      · rw [spGet, spGet, ih]

@[simp] theorem spGet_spSet_self (d : α) (m : Sparse α) (n : Nat) (v : α) : spGet d (spSet m n v) n = v := by
  simp [spGet_spSet]

theorem spGet_spSet_ne (d : α) (m : Sparse α) {n k : Nat} (v : α) (h : k ≠ n) :
    spGet d (spSet m n v) k = spGet d m k := by simp [spGet_spSet, h]

theorem spGet_spErase (d : α) (m : Sparse α) (n k : Nat) :
    spGet d (spErase m n) k = if k = n then d else spGet d m k := by
  induction m with
  | nil => simp [spErase]
  | cons x r ih =>
    obtain ⟨j, x⟩ := x
    rw [spErase]
    by_cases hk : k = n
    · subst hk
      split_ifs <;> simp_all [spGet]
    · rw [if_neg hk] at ih ⊢
      split_ifs with h1
      · subst h1; rw [spGet, if_neg (Ne.symm hk), ih]
      · rw [spGet, spGet, ih]

theorem spGet_spPut [DecidableEq α] (d : α) (m : Sparse α) (n k : Nat) (v : α) :
    spGet d (spPut d m n v) k = if k = n then v else spGet d m k := by
  unfold spPut
  split_ifs with h1 h2 h2 <;> simp_all [spGet_spErase, spGet_spSet]

theorem spFind_spSet (m : Sparse α) (n k : Nat) (v : α) :
    spFind (spSet m n v) k = if k = n then some v else spFind m k := by
  induction m with
  | nil => simp only [spSet, spFind, eq_comm]
  | cons x r ih =>
    obtain ⟨j, x⟩ := x
    rw [spSet]
    by_cases hk : k = n
    · subst hk
      split_ifs <;> simp_all [spFind]
      omega
    · rw [if_neg hk] at ih ⊢
      split_ifs with h1 h2
      · rw [spFind, if_neg (Ne.symm hk)]
      · subst h2; rw [spFind, spFind, if_neg (Ne.symm hk), if_neg (Ne.symm hk)]
      · rw [spFind, spFind, ih]

theorem spFind_spErase (m : Sparse α) (n k : Nat) :
    spFind (spErase m n) k = if k = n then none else spFind m k := by
  induction m with
  | nil => simp [spErase, spFind]
  | cons x r ih =>
    obtain ⟨j, x⟩ := x
    rw [spErase]
    by_cases hk : k = n
    · subst hk
      split_ifs <;> simp_all [spFind]
    · rw [if_neg hk] at ih ⊢
      split_ifs with h1
      · subst h1; rw [spFind, if_neg (Ne.symm hk), ih]
      · rw [spFind, spFind, ih]

variable [DecidableEq α]

theorem spWf_mono (d : α) {lo lo' : Nat} (m : Sparse α) (h : lo' ≤ lo) (hw : spWf d lo m = true) : spWf d lo' m = true := by
  cases m with
  | nil => rfl
  | cons x r => obtain ⟨k, v⟩ := x; simp_all [spWf]; omega

theorem spWf_spErase (d : α) (m : Sparse α) (n : Nat) : ∀ lo, spWf d lo m = true → spWf d lo (spErase m n) = true := by
  induction m with
  | nil => intro _ h; exact h
  | cons x r ih =>
    obtain ⟨k, v⟩ := x
    intro lo h
    simp only [spWf, Bool.and_eq_true, decide_eq_true_eq] at h
    obtain ⟨⟨h1, h2⟩, h3⟩ := h
    simp only [spErase]
    split_ifs with hk
    · exact spWf_mono d _ (by omega) (ih _ h3)
    · simp [spWf, h1, h2, ih _ h3]

theorem spWf_spSet (d : α) (m : Sparse α) (n : Nat) (v : α) (hv : v ≠ d) :
    ∀ lo, lo ≤ n → spWf d lo m = true → spWf d lo (spSet m n v) = true := by
  induction m with
  | nil => intro lo hl _; simp [spSet, spWf, hl, hv]
  | cons x r ih =>
    obtain ⟨k, y⟩ := x
    intro lo hl h
    simp only [spWf, Bool.and_eq_true, decide_eq_true_eq] at h
    obtain ⟨⟨h1, h2⟩, h3⟩ := h
    simp only [spSet]
    split_ifs with h4 h5
    · simp only [spWf, Bool.and_eq_true, decide_eq_true_eq]
      exact ⟨⟨hl, hv⟩, ⟨⟨by omega, h2⟩, h3⟩⟩
    · subst h5
      simp [spWf, hl, hv, h3]
    · simp only [spWf, Bool.and_eq_true, decide_eq_true_eq]
      exact ⟨⟨h1, h2⟩, ih _ (by omega) h3⟩

theorem spWf_spPut (d : α) (m : Sparse α) (n : Nat) (v : α) (h : spWf d 0 m = true) : spWf d 0 (spPut d m n v) = true := by
  unfold spPut
  split_ifs with hv
  · exact spWf_spErase d m n 0 h
  · exact spWf_spSet d m n v hv 0 (Nat.zero_le n) h

end Sparse

/-! ## Memories -/

@[simp] theorem memGet_nil (a : Nat) : memGet [] a = 0 := rfl

theorem memGet_memPut (m : Mem) (a k : Nat) (b : Byte) : memGet (memPut m a b) k = if k = a then b else memGet m k :=
  spGet_spPut 0 m a k b

theorem memPut_wf (m : Mem) (a : Nat) (b : Byte) (h : Memory.wf m = true) : Memory.wf (memPut m a b) = true :=
  spWf_spPut 0 m a b h

theorem memWrite_wf (bs : List Byte) : ∀ (m : Mem) (a : Nat), Memory.wf m = true → Memory.wf (memWrite m a bs) = true := by
  induction bs with
  | nil => intro m _ h; exact h
  | cons b r ih => intro m a h; exact ih _ _ (memPut_wf m a b h)

theorem memStore_wf (m : Mem) (a n v : Nat) (h : Memory.wf m = true) : Memory.wf (memStore m a n v) = true :=
  memWrite_wf _ m a h

/-- Reading a byte after a write of a list of bytes. -/
theorem memGet_memWrite (bs : List Byte) : ∀ (m : Mem) (a k : Nat),
    memGet (memWrite m a bs) k = if a ≤ k then (bs[k - a]?).getD (memGet m k) else memGet m k := by
  induction bs with
  | nil => intro m a k; simp [memWrite]
  | cons b r ih =>
    intro m a k
    simp only [memWrite, ih, memGet_memPut]
    by_cases h1 : a + 1 ≤ k
    · have : k - a = (k - (a + 1)) + 1 := by omega
      have h2 : a ≤ k := by omega
      have h3 : k ≠ a := by omega
      simp [h1, h2, h3, this]
    · by_cases h2 : k = a
      · subst h2; simp
      · have h3 : ¬ a ≤ k := by omega
        simp [h1, h2, h3]

/-- A byte outside a write reads as before. -/
theorem memGet_memWrite_out (bs : List Byte) (m : Mem) (a k : Nat) (h : k < a ∨ a + bs.length ≤ k) :
    memGet (memWrite m a bs) k = memGet m k := by
  rw [memGet_memWrite]
  split_ifs with h1
  · have : bs.length ≤ k - a := by omega
    simp [List.getElem?_eq_none this]
  · rfl

@[simp] theorem leBytes_length (n v : Nat) : (leBytes n v).length = n := by
  induction n generalizing v with
  | zero => rfl
  | succ n ih => simp [leBytes, ih]

/-- Bytes rise strictly from `lo`, below `hi`, none zero: the form of a listed piece of memory. -/
theorem spWf_append {α : Type} [DecidableEq α] (d : α) (l r : Sparse α) (hi : Nat) : ∀ lo, lo ≤ hi → spWf d lo l = true →
    (∀ x ∈ l, x.1 < hi) → spWf d hi r = true → spWf d lo (l ++ r) = true := by
  induction l with
  | nil => intro lo hlo _ _ hr; exact spWf_mono d r hlo hr
  | cons x t ih =>
    obtain ⟨k, v⟩ := x
    intro lo hlo hl hb hr
    simp only [spWf, Bool.and_eq_true, decide_eq_true_eq, List.cons_append] at hl ⊢
    have hk := hb (k, v) (by simp)
    refine ⟨hl.1, ih (k + 1) (by simpa using hk) hl.2 (fun y hy => hb y (by simp [hy])) hr⟩

theorem spWf_filter {α : Type} [DecidableEq α] (d : α) (p : Nat × α → Bool) (l : Sparse α) :
    ∀ lo, spWf d lo l = true → spWf d lo (l.filter p) = true := by
  induction l with
  | nil => intro _ h; exact h
  | cons x t ih =>
    obtain ⟨k, v⟩ := x
    intro lo h
    simp only [spWf, Bool.and_eq_true, decide_eq_true_eq] at h
    rw [List.filter_cons]
    split_ifs
    · simp [spWf, h.1, ih _ h.2]
    · exact spWf_mono d _ (by omega) (ih _ h.2)

theorem spWf_mem_ge {α : Type} [DecidableEq α] (d : α) (l : Sparse α) :
    ∀ lo, spWf d lo l = true → ∀ x ∈ l, lo ≤ x.1 := by
  induction l with
  | nil => intro _ _ x hx; cases hx
  | cons y t ih =>
    obtain ⟨k, v⟩ := y
    intro lo h x hx
    simp only [spWf, Bool.and_eq_true, decide_eq_true_eq] at h
    rcases List.mem_cons.mp hx with rfl | hx
    · exact h.1.1
    · have := ih _ h.2 x hx; omega

theorem spWf_shiftUp {α : Type} [DecidableEq α] (d : α) (b : Nat) (l : Sparse α) :
    ∀ lo, spWf d lo l = true → spWf d (b + lo) (l.map fun c => (b + c.1, c.2)) = true := by
  induction l with
  | nil => intro _ _; rfl
  | cons y t ih =>
    obtain ⟨k, v⟩ := y
    intro lo h
    simp only [spWf, Bool.and_eq_true, decide_eq_true_eq, List.map_cons] at h ⊢
    exact ⟨⟨by omega, h.1.2⟩, by simpa [Nat.add_assoc] using ih _ h.2⟩

theorem spWf_shiftDown {α : Type} [DecidableEq α] (d : α) (b : Nat) (l : Sparse α) :
    ∀ lo, b ≤ lo → spWf d lo l = true → spWf d (lo - b) (l.map fun c => (c.1 - b, c.2)) = true := by
  induction l with
  | nil => intro _ _ _; rfl
  | cons y t ih =>
    obtain ⟨k, v⟩ := y
    intro lo hb h
    simp only [spWf, Bool.and_eq_true, decide_eq_true_eq, List.map_cons] at h ⊢
    refine ⟨⟨by omega, h.1.2⟩, ?_⟩
    have := ih (k + 1) (by omega) h.2
    rwa [show k + 1 - b = k - b + 1 by omega] at this

/-- From a bound on every entry, the form holds from that bound. -/
theorem spWf_of_ge {α : Type} [DecidableEq α] (d : α) (b : Nat) (l : Sparse α) (lo : Nat) (h : spWf d lo l = true)
    (hb : ∀ x ∈ l, b ≤ x.1) : spWf d b l = true := by
  cases l with
  | nil => rfl
  | cons y t =>
    obtain ⟨k, v⟩ := y
    simp only [spWf, Bool.and_eq_true, decide_eq_true_eq] at h ⊢
    exact ⟨⟨hb (k, v) (by simp), h.1.2⟩, h.2⟩

theorem memSlice_wf (m : Mem) (lo n : Nat) (h : Memory.wf m = true) : Memory.wf (memSlice m lo n) = true := by
  have h1 := spWf_filter (0 : Byte) (fun c => decide (lo ≤ c.1) && decide (c.1 < lo + n)) m 0 h
  have h2 := spWf_of_ge (0 : Byte) lo _ 0 h1 (by intro x hx; simp at hx; omega)
  have h3 := spWf_shiftDown (0 : Byte) lo _ lo (Nat.le_refl _) h2
  rw [Nat.sub_self] at h3
  exact h3

/-- A memory blit of a canonical source keeps the canonical form. -/
theorem memBlit_wf (m : Mem) (lo n : Nat) (src : Mem) (h : Memory.wf m = true) (hs : Memory.wf src = true) :
    Memory.wf (memBlit m lo n src) = true := by
  have h1 := spWf_filter (0 : Byte) (fun c => decide (c.1 < lo)) m 0 h
  have h2 := spWf_shiftUp (0 : Byte) lo _ 0 (spWf_filter (0 : Byte) (fun c => decide (c.1 < n)) src 0 hs)
  have h3 := spWf_filter (0 : Byte) (fun c => decide (lo + n ≤ c.1)) m 0 h
  have h4 := spWf_of_ge (0 : Byte) (lo + n) _ 0 h3 (by intro x hx; simp at hx; omega)
  unfold memBlit Memory.wf
  rw [List.append_assoc]
  refine spWf_append (0 : Byte) _ _ lo 0 (Nat.zero_le _) h1 (by intro x hx; simp at hx; omega) ?_
  refine spWf_append (0 : Byte) _ _ (lo + n) lo (by omega) h2 ?_ h4
  intro x hx
  simp only [List.mem_map, List.mem_filter, decide_eq_true_eq] at hx
  obtain ⟨y, hy, rfl⟩ := hx
  simp only
  omega

theorem memClear_wf (m : Mem) (lo n : Nat) (h : Memory.wf m = true) : Memory.wf (memClear m lo n) = true :=
  memBlit_wf m lo n [] h rfl

theorem memLoad_wf (m : Mem) (lo n : Nat) (src : Mem) (h : Memory.wf m = true) : Memory.wf (memLoad m lo n src) = true := by
  unfold memLoad
  have h' := memClear_wf m lo n h
  revert h'
  generalize memClear m lo n = b
  induction src generalizing b with
  | nil => exact id
  | cons c r ih =>
    intro hb
    rw [List.foldl_cons]
    exact ih _ (by split; exacts [memPut_wf _ _ _ hb, hb])

theorem memOf_wf (bs : List Byte) : ∀ a, spWf (0 : Byte) a (memOf a bs) = true := by
  induction bs with
  | nil => intro _; rfl
  | cons b r ih =>
    intro a
    simp only [memOf]
    split_ifs with h
    · exact spWf_mono _ _ (by omega) (ih (a + 1))
    · simp only [spWf, Bool.and_eq_true, decide_eq_true_eq]
      exact ⟨⟨Nat.le_refl a, h⟩, ih (a + 1)⟩

/-! ## Sub-elements -/

theorem packFrom_lt (w : Nat) (f : Nat → Nat) : ∀ n j, packFrom w f n j < 2 ^ (w * n) := by
  intro n
  induction n with
  | zero => intro j; simp [packFrom]
  | succ n ih =>
    intro j
    have h1 := Nat.mod_lt (f j) (Nat.two_pow_pos w)
    have h2 := ih (j + 1)
    simp only [packFrom]
    have h3 : 2 ^ (w * (n + 1)) = 2 ^ w * 2 ^ (w * n) := by rw [← Nat.pow_add]; ring_nf
    rw [h3]
    nlinarith [Nat.two_pow_pos w]

theorem packFrom_sub (w : Nat) (f : Nat → Nat) : ∀ n j i, i < n →
    packFrom w f n j >>> (w * i) % 2 ^ w = f (j + i) % 2 ^ w := by
  intro n
  induction n with
  | zero => intro j i h; omega
  | succ n ih =>
    intro j i h
    simp only [packFrom]
    cases i with
    | zero => simp
    | succ i =>
      have h1 := Nat.mod_lt (f j) (Nat.two_pow_pos w)
      rw [Nat.mul_succ, Nat.add_comm (w * i) w, Nat.shiftRight_add]
      have : (f j % 2 ^ w + 2 ^ w * packFrom w f n (j + 1)) >>> w = packFrom w f n (j + 1) := by
        rw [Nat.shiftRight_eq_div_pow, Nat.add_mul_div_left _ _ (Nat.two_pow_pos w), Nat.div_eq_of_lt h1, Nat.zero_add]
      rw [this, ih (j + 1) i (by omega)]
      ring_nf

/-- A sub-element of a register made of `n` sub-elements. -/
theorem subBits_packLow (w n : Nat) (f : Nat → Nat) (j : Nat) (hn : w * n ≤ 64) (hj : j < n) :
    subBits (packLow w n f) w j = f j % 2 ^ w := by
  have h1 := packFrom_lt w f n 0
  have h2 : packFrom w f n 0 < 2 ^ 64 := lt_of_lt_of_le h1 (Nat.pow_le_pow_right (by norm_num) hn)
  simp only [subBits, packLow, wd, BitVec.toNat_ofNat, Nat.mod_eq_of_lt h2]
  rw [packFrom_sub w f n 0 j hj, Nat.zero_add]

/-- A sub-element of a register made of sub-elements. -/
theorem subBits_packSubs (w : Nat) (f : Nat → Nat) (j : Nat) (hj : j < 64 / w) :
    subBits (packSubs w f) w j = f j % 2 ^ w :=
  subBits_packLow w (64 / w) f j (Nat.mul_div_le 64 w) hj

theorem width_pos (t : IntTy) : 0 < t.width := by cases t <;> decide

theorem wrapNat_eq (w : Nat) (v : Int) : ((wrapNat w v : Nat) : Int) = v % 2 ^ w := by
  unfold wrapNat
  exact Int.toNat_of_nonneg (Int.emod_nonneg _ (by positivity))

theorem wrapNat_lt (w : Nat) (v : Int) : wrapNat w v < 2 ^ w := by
  have h := wrapNat_eq w v
  have h2 : v % 2 ^ w < 2 ^ w := Int.emod_lt_of_pos _ (by positivity)
  have : ((wrapNat w v : Nat) : Int) < ((2 ^ w : Nat) : Int) := by rw [h]; push_cast; exact h2
  exact_mod_cast this

/-- A sub-element of a register made of integers, modulo 2^w (R38). -/
theorem subBits_packInts (t : IntTy) (f : Nat → Int) (j : Nat) (hj : j < 64 / t.width) :
    (subBits (packInts t f) t.width j : Int) = f j % 2 ^ t.width := by
  unfold packInts
  rw [subBits_packSubs _ _ _ hj, Nat.mod_eq_of_lt (wrapNat_lt _ _), wrapNat_eq]

/-! ## Masks -/

theorem mem_bitList {w : Nat} (m : BitVec w) (i : Nat) : i ∈ bitList m ↔ m.getLsbD i = true := by
  unfold bitList
  simp only [List.mem_filter, List.mem_range]
  constructor
  · exact fun h => h.2
  · exact fun h => ⟨BitVec.lt_of_getLsbD h, h⟩

theorem bitList_nodup {w : Nat} (m : BitVec w) : (bitList m).Nodup := List.nodup_range.filter _

theorem bitList_sorted {w : Nat} (m : BitVec w) : (bitList m).Pairwise (· < ·) := List.pairwise_lt_range.filter _

end Sys2Proof.Machine
end

