-- ==== Sys2Proof/Laws/Word.lean ====
section
/-!
SUPPORT. Laws/Word.lean: reading a core, a group or a lane after a write of one; what issuing a word answers; the frames of
the words that write a register, a predicate or a lane field.
-/
namespace Sys2Proof.Machine

/-! ## Cores, groups, lanes -/

theorem getCore_setCore (s : State) (c k : Nat) (x : Core) : getCore (setCore s c x) k = if k = c then x else getCore s k :=
  spGet_spSet _ _ _ _ _

@[simp] theorem getCore_setCore_self (s : State) (c : Nat) (x : Core) : getCore (setCore s c x) c = x := by
  simp [getCore_setCore]

theorem getCore_modCore (s : State) (c k : Nat) (f : Core → Core) :
    getCore (modCore s c f) k = if k = c then f (getCore s c) else getCore s k := getCore_setCore _ _ _ _

@[simp] theorem getCore_modCore_self (s : State) (c : Nat) (f : Core → Core) :
    getCore (modCore s c f) c = f (getCore s c) := by simp [getCore_modCore]

@[simp] theorem getCore_scope (s : State) (c : Nat) (x : Option Scope) : getCore { s with scope := x } c = getCore s c := rfl

@[simp] theorem getGroup_scope (s : State) (c g : Nat) (x : Option Scope) :
    getGroup { s with scope := x } c g = getGroup s c g := rfl

theorem group_setGroup (c : Core) (g k : Nat) (x : Group) : (c.setGroup g x).group k = if k = g then x else c.group k :=
  spGet_spSet _ _ _ _ _

theorem getGroup_setGroup (s : State) (c g c' g' : Nat) (x : Group) :
    getGroup (setGroup s c g x) c' g' = if c' = c ∧ g' = g then x else getGroup s c' g' := by
  unfold getGroup setGroup
  rw [getCore_modCore]
  by_cases h : c' = c
  · subst h; simp [group_setGroup]
  · simp [h]

@[simp] theorem getGroup_setGroup_self (s : State) (c g : Nat) (x : Group) : getGroup (setGroup s c g x) c g = x := by
  simp [getGroup_setGroup]

@[simp] theorem getGroup_modGroup_self (s : State) (c g : Nat) (f : Group → Group) :
    getGroup (modGroup s c g f) c g = f (getGroup s c g) := getGroup_setGroup_self _ _ _ _

theorem lane_setLane (g : Group) (l k : Nat) (x : Lane) : (g.setLane l x).lane k = if k = l then x else g.lane k :=
  spGet_spSet _ _ _ _ _

theorem lane_modLane (g : Group) (l k : Nat) (f : Lane → Lane) :
    (g.modLane l f).lane k = if k = l then f (g.lane l) else g.lane k := lane_setLane _ _ _ _

/-- Changing a list of lanes, each once, changes those and no other. -/
theorem lane_foldl_modLane (f : Nat → Lane → Lane) (ls : List Nat) : ∀ (g : Group) (k : Nat), ls.Nodup →
    (ls.foldl (fun g l => g.modLane l (f l)) g).lane k = if k ∈ ls then f k (g.lane k) else g.lane k := by
  induction ls with
  | nil => intro g k _; simp
  | cons l r ih =>
    intro g k h
    rw [List.foldl_cons, ih _ _ (List.nodup_cons.mp h).2, lane_modLane]
    have := (List.nodup_cons.mp h).1
    by_cases hk : k = l
    · subst hk; simp [this]
    · simp [hk]

theorem modLanes_lane (g : Group) (m : LaneMask) (f : Lane → Lane) (k : Nat) :
    (g.modLanes m f).lane k = if bit m k then f (g.lane k) else g.lane k := by
  unfold Group.modLanes
  rw [lane_foldl_modLane (fun _ => f) _ _ _ (bitList_nodup m)]
  by_cases h : m.getLsbD k = true <;> simp [mem_bitList, bit, h]

/-- Changing lanes changes nothing else of the group. -/
theorem foldl_modLane_rest (f : Nat → Lane → Lane) (ls : List Nat) : ∀ g : Group,
    { ls.foldl (fun g l => g.modLane l (f l)) g with lanes := g.lanes } = g := by
  induction ls with
  | nil => intro g; rfl
  | cons l r ih =>
    intro g
    have := ih (g.modLane l (f l))
    rw [List.foldl_cons]
    generalize (r.foldl (fun g l => g.modLane l (f l)) (g.modLane l (f l))) = y at this ⊢
    simp only [Group.modLane, Group.setLane, Group.mk.injEq] at this ⊢
    cases g; cases y
    simp_all

theorem mapLanes_lane (e : WEnv) (s : State) (f : Nat → Lane → Lane) (l : Nat) :
    e.lane (e.mapLanes s f) l = if bit e.act l then f l (e.lane s l) else e.lane s l := by
  unfold WEnv.lane WEnv.mapLanes
  rw [getGroup_modGroup_self, lane_foldl_modLane f e.lanes _ _ (bitList_nodup e.act)]
  by_cases h : e.act.getLsbD l = true <;> simp [WEnv.lanes, mem_bitList, bit, h]

/-! ## What issuing a word answers -/

/-- A word that passes its checks takes effect and its clause goes on. -/
theorem runWord_issues {m : WMeta} {s : State} {k : Clause} (body : WEnv → State → WRes) (h : Issues m s k) :
    runWord m body s = .next (endWord (envOf s k) ((envOf s k).bits s) (body (envOf s k) (atEffect s k))) := by
  simp [runWord, h.here, h.sound, h.free, atEffect]

/-- A word that passes its checks and stalls does not issue: nothing changes. -/
theorem runWord_stalls {m : WMeta} {s : State} {k : Clause} (body : WEnv → State → WRes) (h : Stalls m s k) :
    runWord m body s = .next s := by
  simp only [runWord, h.here, h.sound, h.held, if_true]

/-- A word that fails a check makes every lane that issues it fault with the check's cause (R86). -/
theorem runWord_fails {m : WMeta} {s : State} {k : Clause} {cause : Byte} (body : WEnv → State → WRes)
    (h : atWord s = some k) (hc : wordCause m (envOf s k) s = some cause) :
    runWord m body s = .next (endWord (envOf s k) ((envOf s k).bits s)
      (passWord s (envOf s k), (envOf s k).trapAll cause 0 0)) := by
  simp only [runWord, h, hc]

@[simp] theorem takeFaults_nil (s : State) (p : Site) : takeFaults s p [] = s := rfl

theorem port_setPort (g : Group) (b : Bool) (k : Option Clause) : (g.setPort b k).port b = k := by cases b <;> rfl

theorem port_setPort_other (g : Group) (b : Bool) (k : Option Clause) : (g.setPort b k).port (!b) = g.port (!b) := by
  cases b <;> rfl

theorem active_setPort (g : Group) (b : Bool) (k : Option Clause) (x : Clause) : (g.setPort b k).active x = g.active x := by
  cases b <;> rfl

theorem lane_setPort (g : Group) (b : Bool) (k : Option Clause) (l : Nat) : (g.setPort b k).lane l = g.lane l := by
  cases b <;> rfl

/-- The end of a word leaves every lane as it is. -/
theorem lane_endWord (e : WEnv) (w : BitVec 32) (x : State) (l : Nat) : e.lane (endWord e w (x, [])) l = e.lane x l := by
  have h : e.lane (closeEmpty x e) l = e.lane x l := by
    unfold closeEmpty
    cases hp : (getGroup x e.core e.grp).port e.second with
    | none => simp [hp]
    | some k =>
      simp only [hp]
      split_ifs
      · simp only [WEnv.lane, getGroup_setGroup_self, lane_setPort]
      · rfl
  unfold endWord endAt
  simp only [takeFaults_nil]
  split_ifs
  · exact h
  · exact h

theorem setGroup_rest (s : State) (c g : Nat) (x : Group) : { setGroup s c g x with cores := s.cores } = s := rfl

theorem onlyGroup_refl (e : WEnv) (b : State) : OnlyGroup e b b :=
  ⟨rfl, fun _ _ => rfl, rfl, fun _ _ => rfl, fun _ _ => rfl, fun _ => rfl⟩

theorem onlyGroup_setGroup (e : WEnv) (b : State) (x : Group) : OnlyGroup e b (setGroup b e.core e.grp x) where
  rest := rfl
  cores c hc := by simp [setGroup, getCore_modCore, hc]
  core := by simp [setGroup, Core.setGroup]
  groups g hg := by simp [getGroup_setGroup, hg]
  spads c a := by
    simp only [setGroup, getCore_modCore]
    split_ifs with h
    · subst h; rfl
    · rfl
  vaults _ := rfl

theorem OnlyGroup.trans {e : WEnv} {a b c : State} (h : OnlyGroup e a b) (h' : OnlyGroup e b c) : OnlyGroup e a c where
  rest := by
    have h1 := h.rest
    have h2 := h'.rest
    rw [← h1, ← h2]
  cores k hk := (h'.cores k hk).trans (h.cores k hk)
  core := by
    have h1 := h.core
    have h2 := h'.core
    rw [← h1, ← h2]
  groups g hg := (h'.groups g hg).trans (h.groups g hg)
  spads c a := (h'.spads c a).trans (h.spads c a)
  vaults a := (h'.vaults a).trans (h.vaults a)

theorem onlyGroup_scope (e : WEnv) (b : State) (x : Option Scope) : OnlyGroup e b { b with scope := x } :=
  ⟨rfl, fun _ _ => rfl, rfl, fun _ _ => rfl, fun _ _ => rfl, fun _ => rfl⟩

theorem onlyGroup_closeEmpty (e : WEnv) (b : State) : OnlyGroup e b (closeEmpty b e) := by
  unfold closeEmpty
  cases hp : (getGroup b e.core e.grp).port e.second with
  | none => simpa [hp] using onlyGroup_refl e b
  | some k =>
    simp only [hp]
    split_ifs
    · exact onlyGroup_setGroup e b _
    · exact onlyGroup_refl e b

/-- The end of a word that raises no fault changes nothing outside the group. -/
theorem onlyGroup_endWord (e : WEnv) (w : BitVec 32) (x : State) : OnlyGroup e x (endWord e w (x, [])) := by
  unfold endWord endAt
  simp only [takeFaults_nil]
  split_ifs
  · exact (onlyGroup_closeEmpty e x).trans (onlyGroup_scope e _ none)
  · exact onlyGroup_closeEmpty e x

/-- The group after the end of a word that raises no fault: at most its own port's clause differs. -/
theorem getGroup_endWord (e : WEnv) (w : BitVec 32) (x : State) :
    ∃ p, getGroup (endWord e w (x, [])) e.core e.grp = (getGroup x e.core e.grp).setPort e.second p ∧
      (p = (getGroup x e.core e.grp).port e.second ∨
        ∃ k, (getGroup x e.core e.grp).port e.second = some k ∧ (getGroup x e.core e.grp).active k = 0) := by
  have self : ∀ g : Group, g = g.setPort e.second (g.port e.second) := by
    intro g; cases e.second <;> rfl
  have key : ∃ p, getGroup (closeEmpty x e) e.core e.grp = (getGroup x e.core e.grp).setPort e.second p ∧
      (p = (getGroup x e.core e.grp).port e.second ∨
        ∃ k, (getGroup x e.core e.grp).port e.second = some k ∧ (getGroup x e.core e.grp).active k = 0) := by
    unfold closeEmpty
    cases hp : (getGroup x e.core e.grp).port e.second with
    | none => exact ⟨none, by simp only [hp]; rw [← hp]; exact self _, Or.inl rfl⟩
    | some k =>
      simp only [hp]
      split_ifs with h
      · exact ⟨_, getGroup_setGroup_self _ _ _ _, Or.inr ⟨k, rfl, h⟩⟩
      · exact ⟨some k, by rw [← hp]; exact self _, Or.inl rfl⟩
  unfold endWord endAt
  simp only [takeFaults_nil]
  split_ifs
  · exact key
  · exact key

/-- A word that changes lanes of its own and raises no fault leaves everything else as it is. -/
theorem onlyLanes_mapLanes (e : WEnv) (w : BitVec 32) (b : State) (f : Nat → Lane → Lane) :
    OnlyLanes e b (endWord e w (e.mapLanes b f, [])) := by
  have h1 : OnlyGroup e b (e.mapLanes b f) := onlyGroup_setGroup e b _
  have hg : getGroup (e.mapLanes b f) e.core e.grp =
      e.lanes.foldl (fun g l => g.modLane l (f l)) (getGroup b e.core e.grp) := getGroup_modGroup_self _ _ _ _
  have hr := foldl_modLane_rest f e.lanes (getGroup b e.core e.grp)
  obtain ⟨p, hp, hq⟩ := getGroup_endWord e w (e.mapLanes b f)
  rw [hg] at hp hq
  generalize e.lanes.foldl (fun g l => g.modLane l (f l)) (getGroup b e.core e.grp) = y at hr hp hq
  refine { h1.trans (onlyGroup_endWord e w _) with group := ?_, other := ?_, own := ?_, lanes := ?_ }
  · rw [hp]
    rw [← hr]
    cases e.second <;> rfl
  · rw [hp, port_setPort_other, ← hr]
    cases e.second <;> rfl
  · rw [hp, port_setPort]
    have hport : y.port e.second = (getGroup b e.core e.grp).port e.second := by rw [← hr]; cases e.second <;> rfl
    rcases hq with hq | ⟨k, hk, ha⟩
    · exact Or.inl (hq.trans hport)
    · exact Or.inr ⟨k, hport ▸ hk, by rw [active_setPort]; exact ha⟩
  · intro l hl
    rw [lane_endWord, mapLanes_lane, if_neg (by simp [hl])]

theorem readReg_writeReg (x : Lane) (d r : Reg) (v : Word) : readReg (writeReg x d v) r = if r = d then v else readReg x r := by
  cases d with
  | w n =>
    cases r with
    | w k =>
      show spGet 0 (spPut 0 x.w n v) k = _
      rw [spGet_spPut]
      by_cases h : k = n
      · subst h; simp
      · have h1 : (k : Nat) ≠ n := fun h2 => h (Fin.ext h2)
        have h2 : Reg.w k ≠ Reg.w n := fun h2 => h (Reg.w.inj h2)
        rw [if_neg h1, if_neg h2]; rfl
    | t k => simp [readReg, writeReg]
  | t n =>
    cases r with
    | w k => simp only [readReg, writeReg]; split_ifs <;> simp_all
    | t k =>
      fin_cases n <;> fin_cases k <;> simp [readReg, writeReg]

/-- Writing a register leaves every other field of the lane. -/
theorem writeReg_fixed (x : Lane) (d : Reg) (v : Word) :
    { writeReg x d v with w := x.w, t0 := x.t0, t1 := x.t1 } = x := by
  cases d with
  | w n => rfl
  | t n => simp only [writeReg]; split_ifs <;> rfl

/-- A word that writes one register: the frame. -/
theorem onlyReg_writeAll (e : WEnv) (w : BitVec 32) (b : State) (d : Reg) (v : Nat → Word) :
    OnlyReg false d e b (endWord e w (e.writeAll b d v)) := by
  refine { onlyLanes_mapLanes e w b _ with fixed := ?_, regs := ?_ }
  · intro l
    unfold WEnv.writeAll
    rw [lane_endWord, mapLanes_lane]
    by_cases h : bit e.act l = true
    · simp only [if_pos h]
      cases d with
      | w n => rfl
      | t n => simp only [writeReg]; split_ifs <;> rfl
    · simp only [if_neg h]; rfl
  · intro l r hr
    unfold WEnv.writeAll
    rw [lane_endWord, mapLanes_lane]
    split_ifs
    · rw [readReg_writeReg, if_neg hr]
    · rfl

/-- A word that writes one register: the value. -/
theorem readReg_writeAll (e : WEnv) (w : BitVec 32) (b : State) (d : Reg) (v : Nat → Word) (l : Nat) (hl : bit e.act l = true) :
    readReg (e.lane (endWord e w (e.writeAll b d v)) l) d = v l := by
  unfold WEnv.writeAll
  rw [lane_endWord, mapLanes_lane, if_pos hl, readReg_writeReg, if_pos rfl]

theorem predOf_setPred (x : Lane) (p q : Fin 8) (v : Bool) : predOf (setPred x p v) q = if q = p then v else predOf x q := by
  have h : ∀ (y : BitVec 8) (p q : Fin 8) (v : Bool), bit (setFld y p p (b2n v)) q = if q = p then v else bit y q := by
    intro y p q v
    have hq := q.isLt
    have hp := p.isLt
    simp only [bit, setFld, BitVec.getLsbD_or, BitVec.getLsbD_and, BitVec.getLsbD_not, BitVec.getLsbD_ofNat, hq, decide_true,
      Bool.true_and, show (p : Nat) + 1 - p = 1 by omega, pow_one, Nat.testBit_shiftLeft]
    by_cases h : q = p
    · subst h; cases v <;> simp [b2n]
    · have h1 : (q : Nat) ≠ p := fun h2 => h (Fin.ext h2)
      by_cases h2 : (p : Nat) ≤ q
      · have h3 : (q : Nat) - p ≠ 0 := by omega
        have h4 : Nat.testBit 1 ((q : Nat) - p) = false := by
          obtain ⟨n, hn⟩ := Nat.exists_eq_succ_of_ne_zero h3
          rw [hn, Nat.testBit_succ]; simp
        rw [if_neg h]
        cases v <;> simp [b2n, h4]
      · simp [h, h2]
  exact h x.p p q v

/-- A word that writes one predicate: the frame. -/
theorem onlyPred_setPreds (e : WEnv) (w : BitVec 32) (b : State) (p : Fin 8) (v : Nat → Bool) :
    OnlyPred p e b (endWord e w (e.setPreds b p v)) := by
  refine { onlyLanes_mapLanes e w b _ with fixed := ?_, preds := ?_ }
  · intro l
    unfold WEnv.setPreds
    rw [lane_endWord, mapLanes_lane]
    split_ifs <;> rfl
  · intro l q hq
    unfold WEnv.setPreds
    rw [lane_endWord, mapLanes_lane]
    split_ifs
    · rw [predOf_setPred, if_neg hq]
    · rfl

/-- A word that writes one predicate: the value. -/
theorem predOf_setPreds (e : WEnv) (w : BitVec 32) (b : State) (p : Fin 8) (v : Nat → Bool) (l : Nat) (hl : bit e.act l = true) :
    predOf (e.lane (endWord e w (e.setPreds b p v)) l) p = v l := by
  unfold WEnv.setPreds
  rw [lane_endWord, mapLanes_lane, if_pos hl, predOf_setPred, if_pos rfl]

theorem readReg_fstat (x : Lane) (v : Word) (r : Reg) : readReg { x with fstat := v } r = readReg x r := by cases r <;> rfl

/-- A word that writes one register and raises FSTAT bits: the frame. -/
theorem onlyReg_writeWith (e : WEnv) (w : BitVec 32) (b : State) (d : Reg) (v : Nat → Word) (f : Nat → Nat) :
    OnlyReg true d e b (endWord e w (e.writeWith b d v f, [])) := by
  refine { onlyLanes_mapLanes e w b _ with fixed := ?_, regs := ?_ }
  · intro l
    unfold WEnv.writeWith
    rw [lane_endWord, mapLanes_lane]
    by_cases h : bit e.act l = true
    · simp only [if_pos h]
      cases d with
      | w n => rfl
      | t n => simp only [writeReg]; split_ifs <;> rfl
    · simp only [if_neg h]; rfl
  · intro l r hr
    unfold WEnv.writeWith
    rw [lane_endWord, mapLanes_lane]
    split_ifs
    · rw [readReg_fstat, readReg_writeReg, if_neg hr]
    · rfl

/-- A word that writes one register and raises FSTAT bits: the value. -/
theorem readReg_writeWith (e : WEnv) (w : BitVec 32) (b : State) (d : Reg) (v : Nat → Word) (f : Nat → Nat) (l : Nat)
    (hl : bit e.act l = true) : readReg (e.lane (endWord e w (e.writeWith b d v f, [])) l) d = v l := by
  unfold WEnv.writeWith
  rw [lane_endWord, mapLanes_lane, if_pos hl, readReg_fstat, readReg_writeReg, if_pos rfl]

/-- A word that writes one register and raises FSTAT bits: FSTAT. -/
theorem fstat_writeWith (e : WEnv) (w : BitVec 32) (b : State) (d : Reg) (v : Nat → Word) (f : Nat → Nat) (l : Nat)
    (hl : bit e.act l = true) :
    (e.lane (endWord e w (e.writeWith b d v f, [])) l).fstat = (e.lane b l).fstat ||| wd (f l) := by
  unfold WEnv.writeWith
  rw [lane_endWord, mapLanes_lane, if_pos hl]

theorem spSet_spSet {α : Type} (m : Sparse α) (n : Nat) (a b : α) : spSet (spSet m n a) n b = spSet m n b := by
  induction m with
  | nil => simp [spSet]
  | cons x r ih =>
    obtain ⟨k, y⟩ := x
    simp only [spSet]
    split_ifs with h1 h2
    · simp [spSet]
    · simp [spSet]
    · simp only [spSet, if_neg h1, if_neg h2, ih]

theorem modCore_modCore (s : State) (c : Nat) (f g : Core → Core) : modCore (modCore s c f) c g = modCore s c (g ∘ f) := by
  have h : getCore (modCore s c f) c = f (getCore s c) := getCore_modCore_self s c f
  unfold modCore at h ⊢
  rw [h]
  simp only [setCore, spSet_spSet, Function.comp]

theorem modGroup_eq (s : State) (c g : Nat) (f : Group → Group) :
    modGroup s c g f = modCore s c fun x => x.setGroup g (f (x.group g)) := rfl

/-- A log record and a change of the group's lanes can be made in either order. -/
theorem alogPostTo_mapLanes (e : WEnv) (s : State) (f : Nat → Lane → Lane) (q : Word) (r : ArithRec) :
    alogPostTo (e.mapLanes s f) e.core q r = e.mapLanes (alogPostTo s e.core q r) f := by
  unfold alogPostTo WEnv.mapLanes
  rw [modGroup_eq]
  have ht : getDie (modCore s e.core fun x => x.setGroup e.grp
      (e.lanes.foldl (fun g l => g.modLane l (f l)) (x.group e.grp))) (dieOf e.core) = getDie s (dieOf e.core) := rfl
  rw [ht]
  split_ifs
  · rfl
  · unfold alogAppend
    rw [modGroup_eq, modCore_modCore, modCore_modCore]
    rfl

/-- The queue that a word's records go to does not depend on the group's lanes. -/
theorem scoped_mapLanes (e : WEnv) (s : State) (f : Nat → Lane → Lane) :
    (e.scoped (e.mapLanes s f)).alogq = (e.scoped s).alogq := by
  unfold WEnv.scoped
  have h : (getCore (e.mapLanes s f) e.core).alogq = (getCore s e.core).alogq := by
    simp [WEnv.mapLanes, modGroup_eq, Core.setGroup]
  have h2 : (e.mapLanes s f).scope = s.scope := rfl
  rw [h2]
  cases e.second <;> cases s.scope <;> simp [scopeOf, h]

theorem foldl_post_mapLanes (e : WEnv) (f : Nat → Lane → Lane) (rs : List ArithRec) : ∀ s : State,
    rs.foldl e.post (e.mapLanes s f) = e.mapLanes (rs.foldl e.post s) f := by
  induction rs with
  | nil => intro _; rfl
  | cons r t ih =>
    intro s
    have h : e.post (e.mapLanes s f) r = e.mapLanes (e.post s r) f := by
      unfold WEnv.post
      rw [scoped_mapLanes, alogPostTo_mapLanes]
    rw [List.foldl_cons, List.foldl_cons, h, ih]

theorem foldl_post_writeWith (e : WEnv) (d : Reg) (v : Nat → Word) (f : Nat → Nat) (rs : List ArithRec) (s : State) :
    rs.foldl e.post (e.writeWith s d v f) = e.writeWith (rs.foldl e.post s) d v f := foldl_post_mapLanes e _ rs s

theorem lane_alogPostTo (e : WEnv) (s : State) (c : Nat) (q : Word) (r : ArithRec) (l : Nat) :
    e.lane (alogPostTo s c q r) l = e.lane s l := by
  have h : ∀ f : Core → Core, (∀ x, (f x).groups = x.groups) → getGroup (modCore s c f) e.core e.grp = getGroup s e.core e.grp := by
    intro f hf
    unfold getGroup
    rw [getCore_modCore]
    split_ifs with h
    · subst h; simp only [Core.group, hf]
    · rfl
  unfold alogPostTo alogAppend
  split_ifs
  · rfl
  · exact congrArg (fun g : Group => g.lane l) (h (fun x => { x with spad := qAppend x.spad (qwBase q) (qwDepth q) (qwEsz q) (arithBytes r (qwEsz q)), eng := x.eng.acquired }) (fun _ => rfl))

theorem lane_foldl_post (e : WEnv) (l : Nat) (rs : List ArithRec) : ∀ s : State,
    e.lane (rs.foldl e.post s) l = e.lane s l := by
  induction rs with
  | nil => intro _; rfl
  | cons r t ih => intro s; rw [List.foldl_cons, ih, WEnv.post, lane_alogPostTo]

theorem spGet_map {α : Type} (d : α) (f : Nat → α) (ls : List Nat) (l : Nat) (h : l ∈ ls) :
    spGet d (ls.map fun l => (l, f l)) l = f l := by
  induction ls with
  | nil => simp at h
  | cons x r ih =>
    simp only [List.map_cons, spGet]
    split_ifs with hx
    · rw [hx]
    · exact ih ((List.mem_cons.mp h).resolve_left (Ne.symm hx))

/-! ## From a meaning to its effect -/

/-- An effect, from what the meaning's body answers. -/
theorem effect_of {i : Instr} {m : WMeta} {p : WEnv → State → State → Prop} (body : WEnv → State → WRes)
    (hx : ∀ s, exec i s = runWord m body s) (h : ∀ e b w, p e b (endWord e w (body e b))) : Effect i m p := by
  intro s k hk
  exact ⟨_, (hx s).trans (runWord_issues body hk), h _ _ _⟩

/-- A word that writes one register in every lane that issues it. -/
theorem wordIs_of {i : Instr} {m : WMeta} {d : Reg} (v : WEnv → State → Nat → Word)
    (hx : ∀ s, exec i s = runWord m (fun e s => e.writeAll s d (v e s)) s) : WordIs i m d v :=
  effect_of _ hx fun e b w => ⟨onlyReg_writeAll e w b d _, fun l hl => readReg_writeAll e w b d _ l hl⟩

/-- A word that writes one register in every lane that issues it, by sub-elements. -/
theorem subsAre_of {i : Instr} {m : WMeta} {d : Reg} {w : Nat} {r : WEnv → State → Nat → Nat → Nat → Prop}
    (v : WEnv → State → Nat → Word) (hx : ∀ s, exec i s = runWord m (fun e s => e.writeAll s d (v e s)) s)
    (h : ∀ e b l j, j < 64 / w → r e b l j (subBits (v e b l) w j)) : SubsAre i m d w r :=
  effect_of _ hx fun e b w' => ⟨onlyReg_writeAll e w' b d _, fun l hl j hj => by
    rw [readReg_writeAll e w' b d _ l hl]; exact h e b l j hj⟩

/-- A word that writes one register from integers. -/
theorem intsAre_of {i : Instr} {m : WMeta} {d : Reg} {t : IntTy} (v : WEnv → State → Nat → Nat → Int)
    (hx : ∀ s, exec i s = runWord m (fun e s => e.writeAll s d fun l => packInts t (v e s l)) s) :
    IntsAre i m d t.width v :=
  subsAre_of (fun e s l => packInts t (v e s l)) hx fun _ _ _ _ hj => subBits_packInts t _ _ hj

/-- A word that writes one predicate in every lane that issues it. -/
theorem predIs_of {i : Instr} {m : WMeta} {p : Fin 8} (v : WEnv → State → Nat → Bool)
    (hx : ∀ s, exec i s = runWord m (fun e s => e.setPreds s p (v e s)) s) : PredIs i m p v :=
  effect_of _ hx fun e b w => ⟨onlyPred_setPreds e w b p _, fun l hl => predOf_setPreds e w b p _ l hl⟩

theorem maskOf_bit (w : Nat) (l : List Nat) (i : Nat) : (maskOf w l).getLsbD i = (decide (i < w) && l.contains i) := by
  unfold maskOf
  have : ∀ (l : List Nat) (m : BitVec w), (l.foldl (fun m i => m ||| BitVec.ofNat w (2 ^ i)) m).getLsbD i =
      (m.getLsbD i || (decide (i < w) && l.contains i)) := by
    intro l; induction l with
    | nil => intro m; simp
    | cons x r ih =>
      intro m
      rw [List.foldl_cons, ih, BitVec.getLsbD_or, BitVec.getLsbD_ofNat, Nat.testBit_two_pow]
      by_cases h1 : i < w <;> by_cases h2 : x = i <;> simp [h1, h2, Ne.symm]
  rw [this]; simp

/-- A rounding word. -/
theorem roundedIs_of {i : Instr} {m : WMeta} {d : Reg} {w n : Nat} (f : WEnv → State → Nat → Nat → FRes) (hn : w * n ≤ 64)
    (hx : ∀ s, exec i s = runWord m (fun e s => e.writeRounded s d w n (f e s)) s) : RoundedIs i m d w n f := by
  refine effect_of _ hx fun e b w' => ?_
  unfold WEnv.writeRounded
  simp only [foldl_post_writeWith]
  have hrec : e.trapRecs b (e.lanes.map fun l => (l, (List.range n).map (f e b l))) =
      ((if e.pol = some .trap then ([0x21, 0x22, 0x23] : List Byte) else []).filterMap fun k =>
      let names := maskOf 32 (e.lanes.filter fun l => (List.range n).any fun j => (f e b l j).causes.contains k)
      if names = 0 then none else some (e.logRec b k names)) := by
    have hl : ∀ k, lanesWith (e.lanes.map fun l => (l, (List.range n).map (f e b l))) k =
        maskOf 32 (e.lanes.filter fun l => (List.range n).any fun j => (f e b l j).causes.contains k) := by
      intro k
      unfold lanesWith
      rw [List.filter_map, List.map_map]
      congr 1
      simp only [Function.comp_def, List.any_map, List.map_id']
    unfold WEnv.trapRecs
    split_ifs
    · simp only [hl]
    · rfl
  rw [hrec]
  refine ⟨onlyReg_writeWith _ _ _ _ _ _, fun l hl => ?_⟩
  have hmem : l ∈ e.lanes := (mem_bitList _ _).mpr hl
  have hsp := spGet_map ([] : LaneRes) (fun l => (List.range n).map (f e b l)) e.lanes l hmem
  refine ⟨fun j hj => ?_, ?_⟩
  · rw [readReg_writeWith _ _ _ _ _ _ _ hl, hsp]
    unfold resWord
    simp only [List.length_map, List.length_range]
    split_ifs with hjn
    · rw [subBits_packLow _ _ _ _ hn hjn]
      simp [hjn]
    · unfold subBits packLow
      have h1 := packFrom_lt w (fun j => ((((List.range n).map (f e b l))[j]?).map FRes.bits).getD 0) n 0
      have h2 : w * n ≤ w * j := Nat.mul_le_mul_left w (by omega)
      have h3 : (2:Nat) ^ (w * n) ≤ 2 ^ (w * j) := Nat.pow_le_pow_right (by norm_num) h2
      have h4 : (2:Nat) ^ (w * n) ≤ 2 ^ 64 := Nat.pow_le_pow_right (by norm_num) hn
      simp only [wd, BitVec.toNat_ofNat, Nat.shiftRight_eq_div_pow]
      rw [Nat.mod_eq_of_lt (lt_of_lt_of_le h1 h4), Nat.div_eq_of_lt (lt_of_lt_of_le h1 h3), Nat.zero_mod]
  · rw [fstat_writeWith _ _ _ _ _ _ _ hl, hsp, lane_foldl_post]
    unfold resFstat
    rw [List.foldl_map]

end Sys2Proof.Machine
end

