-- ==== Sys2Proof/Laws/Long.lean ====
section
/-!
SUPPORT. Laws/Long.lean: issuing a long-latency instruction, flag selects, scratchpad stores.
-/
namespace Sys2Proof.Machine

/-- A word that checks its flag select has a flag there. -/
theorem Issues.flag {m : WMeta} {s : State} {k : Clause} {f : FlagSel} (h : Issues m s k) (hf : m.flag = some f) :
    ∃ n, (envOf s k).flag f = some n := by
  have h := h.sound
  unfold wordCause at h
  simp only [hf, Option.map_some, Option.some.injEq] at h
  cases hn : (envOf s k).flag f with
  | some n => exact ⟨n, rfl⟩
  | none =>
    exfalso
    rw [hn] at h
    simp only [Option.isNone_none, if_true] at h
    split_ifs at h

theorem issueLong_eq (s : State) (c g : Nat) (o : LongOp) : issueLong s c g o =
    modGroup s c g fun gr =>
      { gr with out := gr.out ++ [o], flags := spPut 0 gr.flags o.flag (spGet 0 gr.flags o.flag + 1) } := rfl

/-- A change of a group that is not in its lanes or ports, followed by the end of the word. -/
theorem frame_modGroup (e : WEnv) (w : BitVec 32) (b : State) (f : Group → Group) :
    OnlyGroup e b (endWord e w (modGroup b e.core e.grp f, [])) ∧
    ∃ p, getGroup (endWord e w (modGroup b e.core e.grp f, [])) e.core e.grp =
      (f (getGroup b e.core e.grp)).setPort e.second p := by
  refine ⟨(onlyGroup_setGroup e b _).trans (onlyGroup_endWord e w _), ?_⟩
  obtain ⟨p, hp, _⟩ := getGroup_endWord e w (modGroup b e.core e.grp f)
  exact ⟨p, by rw [hp, getGroup_modGroup_self]⟩

/-- Issuing a long-latency instruction makes it outstanding and changes nothing else. -/
theorem outstanding_issueLong (e : WEnv) (w : BitVec 32) (b : State) (o : LongOp) :
    Outstanding e b (endWord e w (issueLong b e.core e.grp o, [])) o := by
  rw [issueLong_eq]
  obtain ⟨h1, p, hp⟩ := frame_modGroup e w b
    (fun gr => { gr with out := gr.out ++ [o], flags := spPut 0 gr.flags o.flag (spGet 0 gr.flags o.flag + 1) })
  unfold Outstanding
  refine ⟨h1, fun l => ?_, ?_, ?_, ?_, ?_⟩
  · simp only [WEnv.lane, hp, lane_setPort]; rfl
  · rw [hp]; cases e.second <;> rfl
  · rw [hp]
    have : ∀ x : Group, (x.setPort e.second p).flags = x.flags := by intro x; cases e.second <;> rfl
    rw [this]; simp [spGet_spPut]
  · intro f hf
    rw [hp]
    have : ∀ x : Group, (x.setPort e.second p).flags = x.flags := by intro x; cases e.second <;> rfl
    rw [this]
    simp only [spGet_spPut]
    rw [if_neg (fun h => hf (Fin.ext h))]
  · rw [hp]; cases e.second <;> rfl

/-- An effect under a condition on the operands, from what the meaning's body answers. -/
theorem effectIf_of {i : Instr} {m : WMeta} {h : WEnv → State → Prop} {p : WEnv → State → State → Prop}
    (body : WEnv → State → WRes) (hx : ∀ s, exec i s = runWord m body s)
    (hp : ∀ s k, Issues m s k → h (envOf s k) (atEffect s k) → ∀ w, p (envOf s k) (atEffect s k)
      (endWord (envOf s k) w (body (envOf s k) (atEffect s k)))) : EffectIf i m h p := by
  intro s k hk hh
  exact ⟨_, (hx s).trans (runWord_issues body hk), hp s k hk hh _⟩

/-- An effect that rests on the checks passed. -/
theorem effect_of' {i : Instr} {m : WMeta} {p : WEnv → State → State → Prop}
    (body : WEnv → State → WRes) (hx : ∀ s, exec i s = runWord m body s)
    (hp : ∀ s k, Issues m s k → ∀ w, p (envOf s k) (atEffect s k)
      (endWord (envOf s k) w (body (envOf s k) (atEffect s k)))) : Effect i m p := by
  intro s k hk
  exact ⟨_, (hx s).trans (runWord_issues body hk), hp s k hk _⟩

theorem spFind_map {α : Type} (f : Nat → α) (ls : List Nat) (l : Nat) (h : l ∈ ls) :
    spFind (ls.map fun l => (l, f l)) l = some (f l) := by
  induction ls with
  | nil => simp at h
  | cons x r ih =>
    simp only [List.map_cons, spFind]
    split_ifs with hx
    · rw [hx]
    · exact ih ((List.mem_cons.mp h).resolve_left (Ne.symm hx))

theorem quiet_endWord (e : WEnv) (w : BitVec 32) (b : State) : Quiet e b (endWord e w (b, [])) := by
  obtain ⟨p, hp, hq⟩ := getGroup_endWord e w b
  refine ⟨{ onlyGroup_endWord e w b with group := ?_, other := ?_, own := ?_, lanes := fun l _ => lane_endWord e w b l },
    fun l => lane_endWord e w b l⟩
  · rw [hp]; cases e.second <;> rfl
  · rw [hp]; cases e.second <;> rfl
  · rw [hp, port_setPort]
    rcases hq with hq | ⟨k, hk, ha⟩
    · exact Or.inl hq
    · exact Or.inr ⟨k, hk, by rw [active_setPort]; exact ha⟩

/-- Only the core's own management registers differ. -/
theorem spad_endWord (e : WEnv) (w : BitVec 32) (b : State) :
    (getCore (endWord e w (b, [])) e.core).spad = (getCore b e.core).spad := by
  have h := (onlyGroup_endWord e w b).core
  rw [← h]

end Sys2Proof.Machine
end

