-- ==== Sys2Proof/Laws/Meta.lean ====
section
/-!
SUPPORT. Laws/Meta.lean: the requirements that Machine/Meta.lean names for a word are those that its meaning checks.
-/
namespace Sys2Proof.Machine

-- As in Tests/Slice0.lean: what follows waits for these theorems without holding threads.
set_option Elab.async false

/-- SWR runs with the requirements of its register. -/
theorem exec_swr (a : Src) (sel : SReg) : ∃ body, ∀ s, exec (.swr a sel) s = runWord (swrMeta a sel) body s := by
  cases sel <;> exact ⟨_, fun _ => by simp only [exec, execSwr, swrMeta, swrQueue]; rfl⟩

/-- A word that has requirements runs with them. -/
theorem exec_of_metaOf {i : Instr} {m : WMeta} (h : metaOf i = some m) :
    ∃ body, ∀ s, exec i s = runWord m body s := by
  cases i
  case swr a sel => cases h; exact exec_swr a sel
  all_goals first
    | (cases h; exact ⟨_, fun _ => by simp only [exec,
      binWord, unWord, accWord, divWord, predWord, fltBin, fltExact, fusedWord, sfuWord, atomWord, laneWord, intFold,
      faddFold, fmmFold, barWord, voteBranch, jumpWord, syncWord, postWord, opWord, postLow, execAdd, execSub, execMul,
      execMulh, execMin, execMax, execAnd, execOr, execXor, execAndn, execShl, execShr, execSar, execRol, execAdds,
      execSubs, execAvg, execSel, execTrunc, execPack, execBfx, execFmin, execFmax, execFcpys, execLshf, execLrot,
      execLbcst, execAbs, execNeg, execClz, execPopc, execBrev, execBswap, execAddi, execAndi, execOri, execXori,
      execShli, execShri, execSari, execMov, execExtw, execUnpk, execFabs, execFneg, execLscanAdd, execLscanMin,
      execLscanMax, execLscanAnd, execLscanOr, execLscanXor, execLscanFmin, execLscanFmax, execLredAdd, execLredMin,
      execLredMax, execLredAnd, execLredOr, execLredXor, execLredFmin, execLredFmax, execMovi, execPtow, execBallot,
      execLpopc, execIcmp, execFcmp, execIcmpi, execWtop, execLjoin, execResw, execKset, execPwrp, execPand, execPor,
      execPxor, execPnot, execVoteAny, execVoteAll, execNop, execBfi, execDotI8, execDotN8, execDotIn8, execDotI4,
      execDotN4, execDotI16, execDiv, execRem, execFadd, execFsub, execFmul, execCvs, execFma, execFms, execFnma,
      execFnms, execFdotF16, execCvt, execLscanFadd, execLredFadd, execSrq, execRcp, execRsq, execSqrt, execExp2,
      execLog2, execSinpi, execCospi, execFdiv, execLd, execLdx, execSt, execStx, execAadd, execAmin, execAmax,
      execAand, execAor, execAxor, execAxchg, execAcas, execBar, execBarv, execXfence, execTopen, execTseal, execXcnt,
      execMwait, execAwait, execBrDiv, execBrAny, execBrAll, execBrNone, execJmp, execTrap, execBrk, execCall, execJr,
      execCallr, execRet, execHalt, execSync, execSyncI, execSrd, execSegld, execXprom, execXqset, execXld, execXst,
      execXcpy, execXredAdd, execXredMin, execXredMax, execXredAnd, execXredOr, execXredXor, execXredMadd, execMldb,
      execMmaI4, execMmaN4, execMmaI8, execMmaN8, execMmaI16, execMmaN16, execMconvI4, execMconvN4, execMconvI8,
      execMconvN8, execMconvI16, execMconvN16, execMzero, execMdrain, execMstat, execAwit, execAemit, execAclose]; rfl⟩)
    | cases h

end Sys2Proof.Machine
end

