-- ==== Sys2Proof/Laws/State.lean ====
section
/-!
SUPPORT. Laws/State.lean: what each update of the state leaves as it was, field by field, and what a part of the package reads
as after a change of it; that the shared writes of memory keep its canonical form.
-/
namespace Sys2Proof.Machine

/-! ## Every field that an update does not name -/

@[simp] theorem setCore_strings (s : State) (c : Nat) (x : Core) : (setCore s c x).strings = s.strings := rfl
@[simp] theorem setCore_dies (s : State) (c : Nat) (x : Core) : (setCore s c x).dies = s.dies := rfl
@[simp] theorem setCore_parts (s : State) (c : Nat) (x : Core) : (setCore s c x).parts = s.parts := rfl
@[simp] theorem setCore_vault (s : State) (c : Nat) (x : Core) : (setCore s c x).vault = s.vault := rfl
@[simp] theorem setCore_dieScope (s : State) (c : Nat) (x : Core) : (setCore s c x).dieScope = s.dieScope := rfl
@[simp] theorem setCore_side (s : State) (c : Nat) (x : Core) : (setCore s c x).side = s.side := rfl
@[simp] theorem setCore_ttCtl (s : State) (c : Nat) (x : Core) : (setCore s c x).ttCtl = s.ttCtl := rfl
@[simp] theorem setCore_written (s : State) (c : Nat) (x : Core) : (setCore s c x).written = s.written := rfl
@[simp] theorem setCore_vdedup (s : State) (c : Nat) (x : Core) : (setCore s c x).vdedup = s.vdedup := rfl
@[simp] theorem setCore_lands (s : State) (c : Nat) (x : Core) : (setCore s c x).lands = s.lands := rfl
@[simp] theorem setCore_gran (s : State) (c : Nat) (x : Core) : (setCore s c x).gran = s.gran := rfl
@[simp] theorem setCore_spdm (s : State) (c : Nat) (x : Core) : (setCore s c x).spdm = s.spdm := rfl
@[simp] theorem setCore_host (s : State) (c : Nat) (x : Core) : (setCore s c x).host = s.host := rfl
@[simp] theorem setCore_bilsol (s : State) (c : Nat) (x : Core) : (setCore s c x).bilsol = s.bilsol := rfl
@[simp] theorem setCore_time (s : State) (c : Nat) (x : Core) : (setCore s c x).time = s.time := rfl
@[simp] theorem setCore_agenda (s : State) (c : Nat) (x : Core) : (setCore s c x).agenda = s.agenda := rfl
@[simp] theorem setCore_cur (s : State) (c : Nat) (x : Core) : (setCore s c x).cur = s.cur := rfl
@[simp] theorem setCore_scope (s : State) (c : Nat) (x : Core) : (setCore s c x).scope = s.scope := rfl
@[simp] theorem setCore_turn (s : State) (c : Nat) (x : Core) : (setCore s c x).turn = s.turn := rfl
@[simp] theorem setCore_ticks (s : State) (c : Nat) (x : Core) : (setCore s c x).ticks = s.ticks := rfl

@[simp] theorem modCore_strings (s : State) (c : Nat) (f : Core → Core) : (modCore s c f).strings = s.strings := rfl
@[simp] theorem modCore_dies (s : State) (c : Nat) (f : Core → Core) : (modCore s c f).dies = s.dies := rfl
@[simp] theorem modCore_parts (s : State) (c : Nat) (f : Core → Core) : (modCore s c f).parts = s.parts := rfl
@[simp] theorem modCore_vault (s : State) (c : Nat) (f : Core → Core) : (modCore s c f).vault = s.vault := rfl
@[simp] theorem modCore_dieScope (s : State) (c : Nat) (f : Core → Core) : (modCore s c f).dieScope = s.dieScope := rfl
@[simp] theorem modCore_side (s : State) (c : Nat) (f : Core → Core) : (modCore s c f).side = s.side := rfl
@[simp] theorem modCore_ttCtl (s : State) (c : Nat) (f : Core → Core) : (modCore s c f).ttCtl = s.ttCtl := rfl
@[simp] theorem modCore_written (s : State) (c : Nat) (f : Core → Core) : (modCore s c f).written = s.written := rfl
@[simp] theorem modCore_vdedup (s : State) (c : Nat) (f : Core → Core) : (modCore s c f).vdedup = s.vdedup := rfl
@[simp] theorem modCore_lands (s : State) (c : Nat) (f : Core → Core) : (modCore s c f).lands = s.lands := rfl
@[simp] theorem modCore_gran (s : State) (c : Nat) (f : Core → Core) : (modCore s c f).gran = s.gran := rfl
@[simp] theorem modCore_spdm (s : State) (c : Nat) (f : Core → Core) : (modCore s c f).spdm = s.spdm := rfl
@[simp] theorem modCore_host (s : State) (c : Nat) (f : Core → Core) : (modCore s c f).host = s.host := rfl
@[simp] theorem modCore_bilsol (s : State) (c : Nat) (f : Core → Core) : (modCore s c f).bilsol = s.bilsol := rfl
@[simp] theorem modCore_time (s : State) (c : Nat) (f : Core → Core) : (modCore s c f).time = s.time := rfl
@[simp] theorem modCore_agenda (s : State) (c : Nat) (f : Core → Core) : (modCore s c f).agenda = s.agenda := rfl
@[simp] theorem modCore_cur (s : State) (c : Nat) (f : Core → Core) : (modCore s c f).cur = s.cur := rfl
@[simp] theorem modCore_scope (s : State) (c : Nat) (f : Core → Core) : (modCore s c f).scope = s.scope := rfl
@[simp] theorem modCore_turn (s : State) (c : Nat) (f : Core → Core) : (modCore s c f).turn = s.turn := rfl
@[simp] theorem modCore_ticks (s : State) (c : Nat) (f : Core → Core) : (modCore s c f).ticks = s.ticks := rfl

@[simp] theorem setGroup_strings (s : State) (c g : Nat) (x : Group) : (setGroup s c g x).strings = s.strings := rfl
@[simp] theorem setGroup_dies (s : State) (c g : Nat) (x : Group) : (setGroup s c g x).dies = s.dies := rfl
@[simp] theorem setGroup_parts (s : State) (c g : Nat) (x : Group) : (setGroup s c g x).parts = s.parts := rfl
@[simp] theorem setGroup_vault (s : State) (c g : Nat) (x : Group) : (setGroup s c g x).vault = s.vault := rfl
@[simp] theorem setGroup_dieScope (s : State) (c g : Nat) (x : Group) : (setGroup s c g x).dieScope = s.dieScope := rfl
@[simp] theorem setGroup_side (s : State) (c g : Nat) (x : Group) : (setGroup s c g x).side = s.side := rfl
@[simp] theorem setGroup_ttCtl (s : State) (c g : Nat) (x : Group) : (setGroup s c g x).ttCtl = s.ttCtl := rfl
@[simp] theorem setGroup_written (s : State) (c g : Nat) (x : Group) : (setGroup s c g x).written = s.written := rfl
@[simp] theorem setGroup_vdedup (s : State) (c g : Nat) (x : Group) : (setGroup s c g x).vdedup = s.vdedup := rfl
@[simp] theorem setGroup_lands (s : State) (c g : Nat) (x : Group) : (setGroup s c g x).lands = s.lands := rfl
@[simp] theorem setGroup_gran (s : State) (c g : Nat) (x : Group) : (setGroup s c g x).gran = s.gran := rfl
@[simp] theorem setGroup_spdm (s : State) (c g : Nat) (x : Group) : (setGroup s c g x).spdm = s.spdm := rfl
@[simp] theorem setGroup_host (s : State) (c g : Nat) (x : Group) : (setGroup s c g x).host = s.host := rfl
@[simp] theorem setGroup_bilsol (s : State) (c g : Nat) (x : Group) : (setGroup s c g x).bilsol = s.bilsol := rfl
@[simp] theorem setGroup_time (s : State) (c g : Nat) (x : Group) : (setGroup s c g x).time = s.time := rfl
@[simp] theorem setGroup_agenda (s : State) (c g : Nat) (x : Group) : (setGroup s c g x).agenda = s.agenda := rfl
@[simp] theorem setGroup_cur (s : State) (c g : Nat) (x : Group) : (setGroup s c g x).cur = s.cur := rfl
@[simp] theorem setGroup_scope (s : State) (c g : Nat) (x : Group) : (setGroup s c g x).scope = s.scope := rfl
@[simp] theorem setGroup_turn (s : State) (c g : Nat) (x : Group) : (setGroup s c g x).turn = s.turn := rfl
@[simp] theorem setGroup_ticks (s : State) (c g : Nat) (x : Group) : (setGroup s c g x).ticks = s.ticks := rfl

@[simp] theorem modGroup_strings (s : State) (c g : Nat) (f : Group → Group) : (modGroup s c g f).strings = s.strings := rfl
@[simp] theorem modGroup_dies (s : State) (c g : Nat) (f : Group → Group) : (modGroup s c g f).dies = s.dies := rfl
@[simp] theorem modGroup_parts (s : State) (c g : Nat) (f : Group → Group) : (modGroup s c g f).parts = s.parts := rfl
@[simp] theorem modGroup_vault (s : State) (c g : Nat) (f : Group → Group) : (modGroup s c g f).vault = s.vault := rfl
@[simp] theorem modGroup_dieScope (s : State) (c g : Nat) (f : Group → Group) : (modGroup s c g f).dieScope = s.dieScope := rfl
@[simp] theorem modGroup_side (s : State) (c g : Nat) (f : Group → Group) : (modGroup s c g f).side = s.side := rfl
@[simp] theorem modGroup_ttCtl (s : State) (c g : Nat) (f : Group → Group) : (modGroup s c g f).ttCtl = s.ttCtl := rfl
@[simp] theorem modGroup_written (s : State) (c g : Nat) (f : Group → Group) : (modGroup s c g f).written = s.written := rfl
@[simp] theorem modGroup_vdedup (s : State) (c g : Nat) (f : Group → Group) : (modGroup s c g f).vdedup = s.vdedup := rfl
@[simp] theorem modGroup_lands (s : State) (c g : Nat) (f : Group → Group) : (modGroup s c g f).lands = s.lands := rfl
@[simp] theorem modGroup_gran (s : State) (c g : Nat) (f : Group → Group) : (modGroup s c g f).gran = s.gran := rfl
@[simp] theorem modGroup_spdm (s : State) (c g : Nat) (f : Group → Group) : (modGroup s c g f).spdm = s.spdm := rfl
@[simp] theorem modGroup_host (s : State) (c g : Nat) (f : Group → Group) : (modGroup s c g f).host = s.host := rfl
@[simp] theorem modGroup_bilsol (s : State) (c g : Nat) (f : Group → Group) : (modGroup s c g f).bilsol = s.bilsol := rfl
@[simp] theorem modGroup_time (s : State) (c g : Nat) (f : Group → Group) : (modGroup s c g f).time = s.time := rfl
@[simp] theorem modGroup_agenda (s : State) (c g : Nat) (f : Group → Group) : (modGroup s c g f).agenda = s.agenda := rfl
@[simp] theorem modGroup_cur (s : State) (c g : Nat) (f : Group → Group) : (modGroup s c g f).cur = s.cur := rfl
@[simp] theorem modGroup_scope (s : State) (c g : Nat) (f : Group → Group) : (modGroup s c g f).scope = s.scope := rfl
@[simp] theorem modGroup_turn (s : State) (c g : Nat) (f : Group → Group) : (modGroup s c g f).turn = s.turn := rfl
@[simp] theorem modGroup_ticks (s : State) (c g : Nat) (f : Group → Group) : (modGroup s c g f).ticks = s.ticks := rfl

@[simp] theorem modLanes_strings (s : State) (c g : Nat) (m : LaneMask) (f : Lane → Lane) : (modLanes s c g m f).strings = s.strings := rfl
@[simp] theorem modLanes_dies (s : State) (c g : Nat) (m : LaneMask) (f : Lane → Lane) : (modLanes s c g m f).dies = s.dies := rfl
@[simp] theorem modLanes_parts (s : State) (c g : Nat) (m : LaneMask) (f : Lane → Lane) : (modLanes s c g m f).parts = s.parts := rfl
@[simp] theorem modLanes_vault (s : State) (c g : Nat) (m : LaneMask) (f : Lane → Lane) : (modLanes s c g m f).vault = s.vault := rfl
@[simp] theorem modLanes_dieScope (s : State) (c g : Nat) (m : LaneMask) (f : Lane → Lane) : (modLanes s c g m f).dieScope = s.dieScope := rfl
@[simp] theorem modLanes_side (s : State) (c g : Nat) (m : LaneMask) (f : Lane → Lane) : (modLanes s c g m f).side = s.side := rfl
@[simp] theorem modLanes_ttCtl (s : State) (c g : Nat) (m : LaneMask) (f : Lane → Lane) : (modLanes s c g m f).ttCtl = s.ttCtl := rfl
@[simp] theorem modLanes_written (s : State) (c g : Nat) (m : LaneMask) (f : Lane → Lane) : (modLanes s c g m f).written = s.written := rfl
@[simp] theorem modLanes_vdedup (s : State) (c g : Nat) (m : LaneMask) (f : Lane → Lane) : (modLanes s c g m f).vdedup = s.vdedup := rfl
@[simp] theorem modLanes_lands (s : State) (c g : Nat) (m : LaneMask) (f : Lane → Lane) : (modLanes s c g m f).lands = s.lands := rfl
@[simp] theorem modLanes_gran (s : State) (c g : Nat) (m : LaneMask) (f : Lane → Lane) : (modLanes s c g m f).gran = s.gran := rfl
@[simp] theorem modLanes_spdm (s : State) (c g : Nat) (m : LaneMask) (f : Lane → Lane) : (modLanes s c g m f).spdm = s.spdm := rfl
@[simp] theorem modLanes_host (s : State) (c g : Nat) (m : LaneMask) (f : Lane → Lane) : (modLanes s c g m f).host = s.host := rfl
@[simp] theorem modLanes_bilsol (s : State) (c g : Nat) (m : LaneMask) (f : Lane → Lane) : (modLanes s c g m f).bilsol = s.bilsol := rfl
@[simp] theorem modLanes_time (s : State) (c g : Nat) (m : LaneMask) (f : Lane → Lane) : (modLanes s c g m f).time = s.time := rfl
@[simp] theorem modLanes_agenda (s : State) (c g : Nat) (m : LaneMask) (f : Lane → Lane) : (modLanes s c g m f).agenda = s.agenda := rfl
@[simp] theorem modLanes_cur (s : State) (c g : Nat) (m : LaneMask) (f : Lane → Lane) : (modLanes s c g m f).cur = s.cur := rfl
@[simp] theorem modLanes_scope (s : State) (c g : Nat) (m : LaneMask) (f : Lane → Lane) : (modLanes s c g m f).scope = s.scope := rfl
@[simp] theorem modLanes_turn (s : State) (c g : Nat) (m : LaneMask) (f : Lane → Lane) : (modLanes s c g m f).turn = s.turn := rfl
@[simp] theorem modLanes_ticks (s : State) (c g : Nat) (m : LaneMask) (f : Lane → Lane) : (modLanes s c g m f).ticks = s.ticks := rfl

@[simp] theorem modExch_strings (s : State) (c : Nat) (f : Exch → Exch) : (modExch s c f).strings = s.strings := rfl
@[simp] theorem modExch_dies (s : State) (c : Nat) (f : Exch → Exch) : (modExch s c f).dies = s.dies := rfl
@[simp] theorem modExch_parts (s : State) (c : Nat) (f : Exch → Exch) : (modExch s c f).parts = s.parts := rfl
@[simp] theorem modExch_vault (s : State) (c : Nat) (f : Exch → Exch) : (modExch s c f).vault = s.vault := rfl
@[simp] theorem modExch_dieScope (s : State) (c : Nat) (f : Exch → Exch) : (modExch s c f).dieScope = s.dieScope := rfl
@[simp] theorem modExch_side (s : State) (c : Nat) (f : Exch → Exch) : (modExch s c f).side = s.side := rfl
@[simp] theorem modExch_ttCtl (s : State) (c : Nat) (f : Exch → Exch) : (modExch s c f).ttCtl = s.ttCtl := rfl
@[simp] theorem modExch_written (s : State) (c : Nat) (f : Exch → Exch) : (modExch s c f).written = s.written := rfl
@[simp] theorem modExch_vdedup (s : State) (c : Nat) (f : Exch → Exch) : (modExch s c f).vdedup = s.vdedup := rfl
@[simp] theorem modExch_lands (s : State) (c : Nat) (f : Exch → Exch) : (modExch s c f).lands = s.lands := rfl
@[simp] theorem modExch_gran (s : State) (c : Nat) (f : Exch → Exch) : (modExch s c f).gran = s.gran := rfl
@[simp] theorem modExch_spdm (s : State) (c : Nat) (f : Exch → Exch) : (modExch s c f).spdm = s.spdm := rfl
@[simp] theorem modExch_host (s : State) (c : Nat) (f : Exch → Exch) : (modExch s c f).host = s.host := rfl
@[simp] theorem modExch_bilsol (s : State) (c : Nat) (f : Exch → Exch) : (modExch s c f).bilsol = s.bilsol := rfl
@[simp] theorem modExch_time (s : State) (c : Nat) (f : Exch → Exch) : (modExch s c f).time = s.time := rfl
@[simp] theorem modExch_agenda (s : State) (c : Nat) (f : Exch → Exch) : (modExch s c f).agenda = s.agenda := rfl
@[simp] theorem modExch_cur (s : State) (c : Nat) (f : Exch → Exch) : (modExch s c f).cur = s.cur := rfl
@[simp] theorem modExch_scope (s : State) (c : Nat) (f : Exch → Exch) : (modExch s c f).scope = s.scope := rfl
@[simp] theorem modExch_turn (s : State) (c : Nat) (f : Exch → Exch) : (modExch s c f).turn = s.turn := rfl
@[simp] theorem modExch_ticks (s : State) (c : Nat) (f : Exch → Exch) : (modExch s c f).ticks = s.ticks := rfl

@[simp] theorem modEng_strings (s : State) (c : Nat) (f : Engine → Engine) : (modEng s c f).strings = s.strings := rfl
@[simp] theorem modEng_dies (s : State) (c : Nat) (f : Engine → Engine) : (modEng s c f).dies = s.dies := rfl
@[simp] theorem modEng_parts (s : State) (c : Nat) (f : Engine → Engine) : (modEng s c f).parts = s.parts := rfl
@[simp] theorem modEng_vault (s : State) (c : Nat) (f : Engine → Engine) : (modEng s c f).vault = s.vault := rfl
@[simp] theorem modEng_dieScope (s : State) (c : Nat) (f : Engine → Engine) : (modEng s c f).dieScope = s.dieScope := rfl
@[simp] theorem modEng_side (s : State) (c : Nat) (f : Engine → Engine) : (modEng s c f).side = s.side := rfl
@[simp] theorem modEng_ttCtl (s : State) (c : Nat) (f : Engine → Engine) : (modEng s c f).ttCtl = s.ttCtl := rfl
@[simp] theorem modEng_written (s : State) (c : Nat) (f : Engine → Engine) : (modEng s c f).written = s.written := rfl
@[simp] theorem modEng_vdedup (s : State) (c : Nat) (f : Engine → Engine) : (modEng s c f).vdedup = s.vdedup := rfl
@[simp] theorem modEng_lands (s : State) (c : Nat) (f : Engine → Engine) : (modEng s c f).lands = s.lands := rfl
@[simp] theorem modEng_gran (s : State) (c : Nat) (f : Engine → Engine) : (modEng s c f).gran = s.gran := rfl
@[simp] theorem modEng_spdm (s : State) (c : Nat) (f : Engine → Engine) : (modEng s c f).spdm = s.spdm := rfl
@[simp] theorem modEng_host (s : State) (c : Nat) (f : Engine → Engine) : (modEng s c f).host = s.host := rfl
@[simp] theorem modEng_bilsol (s : State) (c : Nat) (f : Engine → Engine) : (modEng s c f).bilsol = s.bilsol := rfl
@[simp] theorem modEng_time (s : State) (c : Nat) (f : Engine → Engine) : (modEng s c f).time = s.time := rfl
@[simp] theorem modEng_agenda (s : State) (c : Nat) (f : Engine → Engine) : (modEng s c f).agenda = s.agenda := rfl
@[simp] theorem modEng_cur (s : State) (c : Nat) (f : Engine → Engine) : (modEng s c f).cur = s.cur := rfl
@[simp] theorem modEng_scope (s : State) (c : Nat) (f : Engine → Engine) : (modEng s c f).scope = s.scope := rfl
@[simp] theorem modEng_turn (s : State) (c : Nat) (f : Engine → Engine) : (modEng s c f).turn = s.turn := rfl
@[simp] theorem modEng_ticks (s : State) (c : Nat) (f : Engine → Engine) : (modEng s c f).ticks = s.ticks := rfl

@[simp] theorem modAsy_strings (s : State) (c : Nat) (f : Assay → Assay) : (modAsy s c f).strings = s.strings := rfl
@[simp] theorem modAsy_dies (s : State) (c : Nat) (f : Assay → Assay) : (modAsy s c f).dies = s.dies := rfl
@[simp] theorem modAsy_parts (s : State) (c : Nat) (f : Assay → Assay) : (modAsy s c f).parts = s.parts := rfl
@[simp] theorem modAsy_vault (s : State) (c : Nat) (f : Assay → Assay) : (modAsy s c f).vault = s.vault := rfl
@[simp] theorem modAsy_dieScope (s : State) (c : Nat) (f : Assay → Assay) : (modAsy s c f).dieScope = s.dieScope := rfl
@[simp] theorem modAsy_side (s : State) (c : Nat) (f : Assay → Assay) : (modAsy s c f).side = s.side := rfl
@[simp] theorem modAsy_ttCtl (s : State) (c : Nat) (f : Assay → Assay) : (modAsy s c f).ttCtl = s.ttCtl := rfl
@[simp] theorem modAsy_written (s : State) (c : Nat) (f : Assay → Assay) : (modAsy s c f).written = s.written := rfl
@[simp] theorem modAsy_vdedup (s : State) (c : Nat) (f : Assay → Assay) : (modAsy s c f).vdedup = s.vdedup := rfl
@[simp] theorem modAsy_lands (s : State) (c : Nat) (f : Assay → Assay) : (modAsy s c f).lands = s.lands := rfl
@[simp] theorem modAsy_gran (s : State) (c : Nat) (f : Assay → Assay) : (modAsy s c f).gran = s.gran := rfl
@[simp] theorem modAsy_spdm (s : State) (c : Nat) (f : Assay → Assay) : (modAsy s c f).spdm = s.spdm := rfl
@[simp] theorem modAsy_host (s : State) (c : Nat) (f : Assay → Assay) : (modAsy s c f).host = s.host := rfl
@[simp] theorem modAsy_bilsol (s : State) (c : Nat) (f : Assay → Assay) : (modAsy s c f).bilsol = s.bilsol := rfl
@[simp] theorem modAsy_time (s : State) (c : Nat) (f : Assay → Assay) : (modAsy s c f).time = s.time := rfl
@[simp] theorem modAsy_agenda (s : State) (c : Nat) (f : Assay → Assay) : (modAsy s c f).agenda = s.agenda := rfl
@[simp] theorem modAsy_cur (s : State) (c : Nat) (f : Assay → Assay) : (modAsy s c f).cur = s.cur := rfl
@[simp] theorem modAsy_scope (s : State) (c : Nat) (f : Assay → Assay) : (modAsy s c f).scope = s.scope := rfl
@[simp] theorem modAsy_turn (s : State) (c : Nat) (f : Assay → Assay) : (modAsy s c f).turn = s.turn := rfl
@[simp] theorem modAsy_ticks (s : State) (c : Nat) (f : Assay → Assay) : (modAsy s c f).ticks = s.ticks := rfl

@[simp] theorem spadWrite_strings (s : State) (c a : Nat) (bs : List Byte) : (spadWrite s c a bs).strings = s.strings := rfl
@[simp] theorem spadWrite_dies (s : State) (c a : Nat) (bs : List Byte) : (spadWrite s c a bs).dies = s.dies := rfl
@[simp] theorem spadWrite_parts (s : State) (c a : Nat) (bs : List Byte) : (spadWrite s c a bs).parts = s.parts := rfl
@[simp] theorem spadWrite_vault (s : State) (c a : Nat) (bs : List Byte) : (spadWrite s c a bs).vault = s.vault := rfl
@[simp] theorem spadWrite_dieScope (s : State) (c a : Nat) (bs : List Byte) : (spadWrite s c a bs).dieScope = s.dieScope := rfl
@[simp] theorem spadWrite_side (s : State) (c a : Nat) (bs : List Byte) : (spadWrite s c a bs).side = s.side := rfl
@[simp] theorem spadWrite_ttCtl (s : State) (c a : Nat) (bs : List Byte) : (spadWrite s c a bs).ttCtl = s.ttCtl := rfl
@[simp] theorem spadWrite_written (s : State) (c a : Nat) (bs : List Byte) : (spadWrite s c a bs).written = s.written := rfl
@[simp] theorem spadWrite_vdedup (s : State) (c a : Nat) (bs : List Byte) : (spadWrite s c a bs).vdedup = s.vdedup := rfl
@[simp] theorem spadWrite_lands (s : State) (c a : Nat) (bs : List Byte) : (spadWrite s c a bs).lands = s.lands := rfl
@[simp] theorem spadWrite_gran (s : State) (c a : Nat) (bs : List Byte) : (spadWrite s c a bs).gran = s.gran := rfl
@[simp] theorem spadWrite_spdm (s : State) (c a : Nat) (bs : List Byte) : (spadWrite s c a bs).spdm = s.spdm := rfl
@[simp] theorem spadWrite_host (s : State) (c a : Nat) (bs : List Byte) : (spadWrite s c a bs).host = s.host := rfl
@[simp] theorem spadWrite_bilsol (s : State) (c a : Nat) (bs : List Byte) : (spadWrite s c a bs).bilsol = s.bilsol := rfl
@[simp] theorem spadWrite_time (s : State) (c a : Nat) (bs : List Byte) : (spadWrite s c a bs).time = s.time := rfl
@[simp] theorem spadWrite_agenda (s : State) (c a : Nat) (bs : List Byte) : (spadWrite s c a bs).agenda = s.agenda := rfl
@[simp] theorem spadWrite_cur (s : State) (c a : Nat) (bs : List Byte) : (spadWrite s c a bs).cur = s.cur := rfl
@[simp] theorem spadWrite_scope (s : State) (c a : Nat) (bs : List Byte) : (spadWrite s c a bs).scope = s.scope := rfl
@[simp] theorem spadWrite_turn (s : State) (c a : Nat) (bs : List Byte) : (spadWrite s c a bs).turn = s.turn := rfl
@[simp] theorem spadWrite_ticks (s : State) (c a : Nat) (bs : List Byte) : (spadWrite s c a bs).ticks = s.ticks := rfl

@[simp] theorem modDie_cores (s : State) (d : Nat) (f : Die → Die) : (modDie s d f).cores = s.cores := rfl
@[simp] theorem modDie_strings (s : State) (d : Nat) (f : Die → Die) : (modDie s d f).strings = s.strings := rfl
@[simp] theorem modDie_parts (s : State) (d : Nat) (f : Die → Die) : (modDie s d f).parts = s.parts := rfl
@[simp] theorem modDie_vault (s : State) (d : Nat) (f : Die → Die) : (modDie s d f).vault = s.vault := rfl
@[simp] theorem modDie_dieScope (s : State) (d : Nat) (f : Die → Die) : (modDie s d f).dieScope = s.dieScope := rfl
@[simp] theorem modDie_side (s : State) (d : Nat) (f : Die → Die) : (modDie s d f).side = s.side := rfl
@[simp] theorem modDie_ttCtl (s : State) (d : Nat) (f : Die → Die) : (modDie s d f).ttCtl = s.ttCtl := rfl
@[simp] theorem modDie_written (s : State) (d : Nat) (f : Die → Die) : (modDie s d f).written = s.written := rfl
@[simp] theorem modDie_vdedup (s : State) (d : Nat) (f : Die → Die) : (modDie s d f).vdedup = s.vdedup := rfl
@[simp] theorem modDie_lands (s : State) (d : Nat) (f : Die → Die) : (modDie s d f).lands = s.lands := rfl
@[simp] theorem modDie_gran (s : State) (d : Nat) (f : Die → Die) : (modDie s d f).gran = s.gran := rfl
@[simp] theorem modDie_spdm (s : State) (d : Nat) (f : Die → Die) : (modDie s d f).spdm = s.spdm := rfl
@[simp] theorem modDie_host (s : State) (d : Nat) (f : Die → Die) : (modDie s d f).host = s.host := rfl
@[simp] theorem modDie_bilsol (s : State) (d : Nat) (f : Die → Die) : (modDie s d f).bilsol = s.bilsol := rfl
@[simp] theorem modDie_time (s : State) (d : Nat) (f : Die → Die) : (modDie s d f).time = s.time := rfl
@[simp] theorem modDie_agenda (s : State) (d : Nat) (f : Die → Die) : (modDie s d f).agenda = s.agenda := rfl
@[simp] theorem modDie_cur (s : State) (d : Nat) (f : Die → Die) : (modDie s d f).cur = s.cur := rfl
@[simp] theorem modDie_scope (s : State) (d : Nat) (f : Die → Die) : (modDie s d f).scope = s.scope := rfl
@[simp] theorem modDie_turn (s : State) (d : Nat) (f : Die → Die) : (modDie s d f).turn = s.turn := rfl
@[simp] theorem modDie_ticks (s : State) (d : Nat) (f : Die → Die) : (modDie s d f).ticks = s.ticks := rfl

@[simp] theorem modBind_cores (s : State) (d i : Nat) (f : Bind → Bind) : (modBind s d i f).cores = s.cores := rfl
@[simp] theorem modBind_strings (s : State) (d i : Nat) (f : Bind → Bind) : (modBind s d i f).strings = s.strings := rfl
@[simp] theorem modBind_parts (s : State) (d i : Nat) (f : Bind → Bind) : (modBind s d i f).parts = s.parts := rfl
@[simp] theorem modBind_vault (s : State) (d i : Nat) (f : Bind → Bind) : (modBind s d i f).vault = s.vault := rfl
@[simp] theorem modBind_dieScope (s : State) (d i : Nat) (f : Bind → Bind) : (modBind s d i f).dieScope = s.dieScope := rfl
@[simp] theorem modBind_side (s : State) (d i : Nat) (f : Bind → Bind) : (modBind s d i f).side = s.side := rfl
@[simp] theorem modBind_ttCtl (s : State) (d i : Nat) (f : Bind → Bind) : (modBind s d i f).ttCtl = s.ttCtl := rfl
@[simp] theorem modBind_written (s : State) (d i : Nat) (f : Bind → Bind) : (modBind s d i f).written = s.written := rfl
@[simp] theorem modBind_vdedup (s : State) (d i : Nat) (f : Bind → Bind) : (modBind s d i f).vdedup = s.vdedup := rfl
@[simp] theorem modBind_lands (s : State) (d i : Nat) (f : Bind → Bind) : (modBind s d i f).lands = s.lands := rfl
@[simp] theorem modBind_gran (s : State) (d i : Nat) (f : Bind → Bind) : (modBind s d i f).gran = s.gran := rfl
@[simp] theorem modBind_spdm (s : State) (d i : Nat) (f : Bind → Bind) : (modBind s d i f).spdm = s.spdm := rfl
@[simp] theorem modBind_host (s : State) (d i : Nat) (f : Bind → Bind) : (modBind s d i f).host = s.host := rfl
@[simp] theorem modBind_bilsol (s : State) (d i : Nat) (f : Bind → Bind) : (modBind s d i f).bilsol = s.bilsol := rfl
@[simp] theorem modBind_time (s : State) (d i : Nat) (f : Bind → Bind) : (modBind s d i f).time = s.time := rfl
@[simp] theorem modBind_agenda (s : State) (d i : Nat) (f : Bind → Bind) : (modBind s d i f).agenda = s.agenda := rfl
@[simp] theorem modBind_cur (s : State) (d i : Nat) (f : Bind → Bind) : (modBind s d i f).cur = s.cur := rfl
@[simp] theorem modBind_scope (s : State) (d i : Nat) (f : Bind → Bind) : (modBind s d i f).scope = s.scope := rfl
@[simp] theorem modBind_turn (s : State) (d i : Nat) (f : Bind → Bind) : (modBind s d i f).turn = s.turn := rfl
@[simp] theorem modBind_ticks (s : State) (d i : Nat) (f : Bind → Bind) : (modBind s d i f).ticks = s.ticks := rfl

@[simp] theorem modStr_cores (s : State) (n : Nat) (f : StringSt → StringSt) : (modStr s n f).cores = s.cores := rfl
@[simp] theorem modStr_dies (s : State) (n : Nat) (f : StringSt → StringSt) : (modStr s n f).dies = s.dies := rfl
@[simp] theorem modStr_parts (s : State) (n : Nat) (f : StringSt → StringSt) : (modStr s n f).parts = s.parts := rfl
@[simp] theorem modStr_vault (s : State) (n : Nat) (f : StringSt → StringSt) : (modStr s n f).vault = s.vault := rfl
@[simp] theorem modStr_dieScope (s : State) (n : Nat) (f : StringSt → StringSt) : (modStr s n f).dieScope = s.dieScope := rfl
@[simp] theorem modStr_side (s : State) (n : Nat) (f : StringSt → StringSt) : (modStr s n f).side = s.side := rfl
@[simp] theorem modStr_ttCtl (s : State) (n : Nat) (f : StringSt → StringSt) : (modStr s n f).ttCtl = s.ttCtl := rfl
@[simp] theorem modStr_written (s : State) (n : Nat) (f : StringSt → StringSt) : (modStr s n f).written = s.written := rfl
@[simp] theorem modStr_vdedup (s : State) (n : Nat) (f : StringSt → StringSt) : (modStr s n f).vdedup = s.vdedup := rfl
@[simp] theorem modStr_lands (s : State) (n : Nat) (f : StringSt → StringSt) : (modStr s n f).lands = s.lands := rfl
@[simp] theorem modStr_gran (s : State) (n : Nat) (f : StringSt → StringSt) : (modStr s n f).gran = s.gran := rfl
@[simp] theorem modStr_spdm (s : State) (n : Nat) (f : StringSt → StringSt) : (modStr s n f).spdm = s.spdm := rfl
@[simp] theorem modStr_host (s : State) (n : Nat) (f : StringSt → StringSt) : (modStr s n f).host = s.host := rfl
@[simp] theorem modStr_bilsol (s : State) (n : Nat) (f : StringSt → StringSt) : (modStr s n f).bilsol = s.bilsol := rfl
@[simp] theorem modStr_time (s : State) (n : Nat) (f : StringSt → StringSt) : (modStr s n f).time = s.time := rfl
@[simp] theorem modStr_agenda (s : State) (n : Nat) (f : StringSt → StringSt) : (modStr s n f).agenda = s.agenda := rfl
@[simp] theorem modStr_cur (s : State) (n : Nat) (f : StringSt → StringSt) : (modStr s n f).cur = s.cur := rfl
@[simp] theorem modStr_scope (s : State) (n : Nat) (f : StringSt → StringSt) : (modStr s n f).scope = s.scope := rfl
@[simp] theorem modStr_turn (s : State) (n : Nat) (f : StringSt → StringSt) : (modStr s n f).turn = s.turn := rfl
@[simp] theorem modStr_ticks (s : State) (n : Nat) (f : StringSt → StringSt) : (modStr s n f).ticks = s.ticks := rfl

@[simp] theorem modPart_cores (s : State) (p : Nat) (f : Part → Part) : (modPart s p f).cores = s.cores := rfl
@[simp] theorem modPart_strings (s : State) (p : Nat) (f : Part → Part) : (modPart s p f).strings = s.strings := rfl
@[simp] theorem modPart_dies (s : State) (p : Nat) (f : Part → Part) : (modPart s p f).dies = s.dies := rfl
@[simp] theorem modPart_vault (s : State) (p : Nat) (f : Part → Part) : (modPart s p f).vault = s.vault := rfl
@[simp] theorem modPart_dieScope (s : State) (p : Nat) (f : Part → Part) : (modPart s p f).dieScope = s.dieScope := rfl
@[simp] theorem modPart_side (s : State) (p : Nat) (f : Part → Part) : (modPart s p f).side = s.side := rfl
@[simp] theorem modPart_ttCtl (s : State) (p : Nat) (f : Part → Part) : (modPart s p f).ttCtl = s.ttCtl := rfl
@[simp] theorem modPart_written (s : State) (p : Nat) (f : Part → Part) : (modPart s p f).written = s.written := rfl
@[simp] theorem modPart_vdedup (s : State) (p : Nat) (f : Part → Part) : (modPart s p f).vdedup = s.vdedup := rfl
@[simp] theorem modPart_lands (s : State) (p : Nat) (f : Part → Part) : (modPart s p f).lands = s.lands := rfl
@[simp] theorem modPart_gran (s : State) (p : Nat) (f : Part → Part) : (modPart s p f).gran = s.gran := rfl
@[simp] theorem modPart_spdm (s : State) (p : Nat) (f : Part → Part) : (modPart s p f).spdm = s.spdm := rfl
@[simp] theorem modPart_host (s : State) (p : Nat) (f : Part → Part) : (modPart s p f).host = s.host := rfl
@[simp] theorem modPart_bilsol (s : State) (p : Nat) (f : Part → Part) : (modPart s p f).bilsol = s.bilsol := rfl
@[simp] theorem modPart_time (s : State) (p : Nat) (f : Part → Part) : (modPart s p f).time = s.time := rfl
@[simp] theorem modPart_agenda (s : State) (p : Nat) (f : Part → Part) : (modPart s p f).agenda = s.agenda := rfl
@[simp] theorem modPart_cur (s : State) (p : Nat) (f : Part → Part) : (modPart s p f).cur = s.cur := rfl
@[simp] theorem modPart_scope (s : State) (p : Nat) (f : Part → Part) : (modPart s p f).scope = s.scope := rfl
@[simp] theorem modPart_turn (s : State) (p : Nat) (f : Part → Part) : (modPart s p f).turn = s.turn := rfl
@[simp] theorem modPart_ticks (s : State) (p : Nat) (f : Part → Part) : (modPart s p f).ticks = s.ticks := rfl

@[simp] theorem modGran_cores (s : State) (f : Granite → Granite) : (modGran s f).cores = s.cores := rfl
@[simp] theorem modGran_strings (s : State) (f : Granite → Granite) : (modGran s f).strings = s.strings := rfl
@[simp] theorem modGran_dies (s : State) (f : Granite → Granite) : (modGran s f).dies = s.dies := rfl
@[simp] theorem modGran_parts (s : State) (f : Granite → Granite) : (modGran s f).parts = s.parts := rfl
@[simp] theorem modGran_vault (s : State) (f : Granite → Granite) : (modGran s f).vault = s.vault := rfl
@[simp] theorem modGran_dieScope (s : State) (f : Granite → Granite) : (modGran s f).dieScope = s.dieScope := rfl
@[simp] theorem modGran_side (s : State) (f : Granite → Granite) : (modGran s f).side = s.side := rfl
@[simp] theorem modGran_ttCtl (s : State) (f : Granite → Granite) : (modGran s f).ttCtl = s.ttCtl := rfl
@[simp] theorem modGran_written (s : State) (f : Granite → Granite) : (modGran s f).written = s.written := rfl
@[simp] theorem modGran_vdedup (s : State) (f : Granite → Granite) : (modGran s f).vdedup = s.vdedup := rfl
@[simp] theorem modGran_lands (s : State) (f : Granite → Granite) : (modGran s f).lands = s.lands := rfl
@[simp] theorem modGran_spdm (s : State) (f : Granite → Granite) : (modGran s f).spdm = s.spdm := rfl
@[simp] theorem modGran_host (s : State) (f : Granite → Granite) : (modGran s f).host = s.host := rfl
@[simp] theorem modGran_bilsol (s : State) (f : Granite → Granite) : (modGran s f).bilsol = s.bilsol := rfl
@[simp] theorem modGran_time (s : State) (f : Granite → Granite) : (modGran s f).time = s.time := rfl
@[simp] theorem modGran_agenda (s : State) (f : Granite → Granite) : (modGran s f).agenda = s.agenda := rfl
@[simp] theorem modGran_cur (s : State) (f : Granite → Granite) : (modGran s f).cur = s.cur := rfl
@[simp] theorem modGran_scope (s : State) (f : Granite → Granite) : (modGran s f).scope = s.scope := rfl
@[simp] theorem modGran_turn (s : State) (f : Granite → Granite) : (modGran s f).turn = s.turn := rfl
@[simp] theorem modGran_ticks (s : State) (f : Granite → Granite) : (modGran s f).ticks = s.ticks := rfl

@[simp] theorem modKey_cores (s : State) (n : Nat) (f : KeySlot → KeySlot) : (modKey s n f).cores = s.cores := rfl
@[simp] theorem modKey_strings (s : State) (n : Nat) (f : KeySlot → KeySlot) : (modKey s n f).strings = s.strings := rfl
@[simp] theorem modKey_dies (s : State) (n : Nat) (f : KeySlot → KeySlot) : (modKey s n f).dies = s.dies := rfl
@[simp] theorem modKey_parts (s : State) (n : Nat) (f : KeySlot → KeySlot) : (modKey s n f).parts = s.parts := rfl
@[simp] theorem modKey_vault (s : State) (n : Nat) (f : KeySlot → KeySlot) : (modKey s n f).vault = s.vault := rfl
@[simp] theorem modKey_dieScope (s : State) (n : Nat) (f : KeySlot → KeySlot) : (modKey s n f).dieScope = s.dieScope := rfl
@[simp] theorem modKey_side (s : State) (n : Nat) (f : KeySlot → KeySlot) : (modKey s n f).side = s.side := rfl
@[simp] theorem modKey_ttCtl (s : State) (n : Nat) (f : KeySlot → KeySlot) : (modKey s n f).ttCtl = s.ttCtl := rfl
@[simp] theorem modKey_written (s : State) (n : Nat) (f : KeySlot → KeySlot) : (modKey s n f).written = s.written := rfl
@[simp] theorem modKey_vdedup (s : State) (n : Nat) (f : KeySlot → KeySlot) : (modKey s n f).vdedup = s.vdedup := rfl
@[simp] theorem modKey_lands (s : State) (n : Nat) (f : KeySlot → KeySlot) : (modKey s n f).lands = s.lands := rfl
@[simp] theorem modKey_spdm (s : State) (n : Nat) (f : KeySlot → KeySlot) : (modKey s n f).spdm = s.spdm := rfl
@[simp] theorem modKey_host (s : State) (n : Nat) (f : KeySlot → KeySlot) : (modKey s n f).host = s.host := rfl
@[simp] theorem modKey_bilsol (s : State) (n : Nat) (f : KeySlot → KeySlot) : (modKey s n f).bilsol = s.bilsol := rfl
@[simp] theorem modKey_time (s : State) (n : Nat) (f : KeySlot → KeySlot) : (modKey s n f).time = s.time := rfl
@[simp] theorem modKey_agenda (s : State) (n : Nat) (f : KeySlot → KeySlot) : (modKey s n f).agenda = s.agenda := rfl
@[simp] theorem modKey_cur (s : State) (n : Nat) (f : KeySlot → KeySlot) : (modKey s n f).cur = s.cur := rfl
@[simp] theorem modKey_scope (s : State) (n : Nat) (f : KeySlot → KeySlot) : (modKey s n f).scope = s.scope := rfl
@[simp] theorem modKey_turn (s : State) (n : Nat) (f : KeySlot → KeySlot) : (modKey s n f).turn = s.turn := rfl
@[simp] theorem modKey_ticks (s : State) (n : Nat) (f : KeySlot → KeySlot) : (modKey s n f).ticks = s.ticks := rfl

@[simp] theorem vaultWrite_cores (s : State) (pa : Nat) (bs : List Byte) : (vaultWrite s pa bs).cores = s.cores := rfl
@[simp] theorem vaultWrite_strings (s : State) (pa : Nat) (bs : List Byte) : (vaultWrite s pa bs).strings = s.strings := rfl
@[simp] theorem vaultWrite_dies (s : State) (pa : Nat) (bs : List Byte) : (vaultWrite s pa bs).dies = s.dies := rfl
@[simp] theorem vaultWrite_parts (s : State) (pa : Nat) (bs : List Byte) : (vaultWrite s pa bs).parts = s.parts := rfl
@[simp] theorem vaultWrite_dieScope (s : State) (pa : Nat) (bs : List Byte) : (vaultWrite s pa bs).dieScope = s.dieScope := rfl
@[simp] theorem vaultWrite_side (s : State) (pa : Nat) (bs : List Byte) : (vaultWrite s pa bs).side = s.side := rfl
@[simp] theorem vaultWrite_ttCtl (s : State) (pa : Nat) (bs : List Byte) : (vaultWrite s pa bs).ttCtl = s.ttCtl := rfl
@[simp] theorem vaultWrite_written (s : State) (pa : Nat) (bs : List Byte) : (vaultWrite s pa bs).written = s.written := rfl
@[simp] theorem vaultWrite_vdedup (s : State) (pa : Nat) (bs : List Byte) : (vaultWrite s pa bs).vdedup = s.vdedup := rfl
@[simp] theorem vaultWrite_lands (s : State) (pa : Nat) (bs : List Byte) : (vaultWrite s pa bs).lands = s.lands := rfl
@[simp] theorem vaultWrite_gran (s : State) (pa : Nat) (bs : List Byte) : (vaultWrite s pa bs).gran = s.gran := rfl
@[simp] theorem vaultWrite_spdm (s : State) (pa : Nat) (bs : List Byte) : (vaultWrite s pa bs).spdm = s.spdm := rfl
@[simp] theorem vaultWrite_host (s : State) (pa : Nat) (bs : List Byte) : (vaultWrite s pa bs).host = s.host := rfl
@[simp] theorem vaultWrite_bilsol (s : State) (pa : Nat) (bs : List Byte) : (vaultWrite s pa bs).bilsol = s.bilsol := rfl
@[simp] theorem vaultWrite_time (s : State) (pa : Nat) (bs : List Byte) : (vaultWrite s pa bs).time = s.time := rfl
@[simp] theorem vaultWrite_agenda (s : State) (pa : Nat) (bs : List Byte) : (vaultWrite s pa bs).agenda = s.agenda := rfl
@[simp] theorem vaultWrite_cur (s : State) (pa : Nat) (bs : List Byte) : (vaultWrite s pa bs).cur = s.cur := rfl
@[simp] theorem vaultWrite_scope (s : State) (pa : Nat) (bs : List Byte) : (vaultWrite s pa bs).scope = s.scope := rfl
@[simp] theorem vaultWrite_turn (s : State) (pa : Nat) (bs : List Byte) : (vaultWrite s pa bs).turn = s.turn := rfl
@[simp] theorem vaultWrite_ticks (s : State) (pa : Nat) (bs : List Byte) : (vaultWrite s pa bs).ticks = s.ticks := rfl

@[simp] theorem scopedWrite_cores (s : State) (pa : Nat) (bs : List Byte) : (scopedWrite s pa bs).cores = s.cores := rfl
@[simp] theorem scopedWrite_strings (s : State) (pa : Nat) (bs : List Byte) : (scopedWrite s pa bs).strings = s.strings := rfl
@[simp] theorem scopedWrite_dies (s : State) (pa : Nat) (bs : List Byte) : (scopedWrite s pa bs).dies = s.dies := rfl
@[simp] theorem scopedWrite_parts (s : State) (pa : Nat) (bs : List Byte) : (scopedWrite s pa bs).parts = s.parts := rfl
@[simp] theorem scopedWrite_side (s : State) (pa : Nat) (bs : List Byte) : (scopedWrite s pa bs).side = s.side := rfl
@[simp] theorem scopedWrite_ttCtl (s : State) (pa : Nat) (bs : List Byte) : (scopedWrite s pa bs).ttCtl = s.ttCtl := rfl
@[simp] theorem scopedWrite_written (s : State) (pa : Nat) (bs : List Byte) : (scopedWrite s pa bs).written = s.written := rfl
@[simp] theorem scopedWrite_vdedup (s : State) (pa : Nat) (bs : List Byte) : (scopedWrite s pa bs).vdedup = s.vdedup := rfl
@[simp] theorem scopedWrite_lands (s : State) (pa : Nat) (bs : List Byte) : (scopedWrite s pa bs).lands = s.lands := rfl
@[simp] theorem scopedWrite_gran (s : State) (pa : Nat) (bs : List Byte) : (scopedWrite s pa bs).gran = s.gran := rfl
@[simp] theorem scopedWrite_spdm (s : State) (pa : Nat) (bs : List Byte) : (scopedWrite s pa bs).spdm = s.spdm := rfl
@[simp] theorem scopedWrite_host (s : State) (pa : Nat) (bs : List Byte) : (scopedWrite s pa bs).host = s.host := rfl
@[simp] theorem scopedWrite_bilsol (s : State) (pa : Nat) (bs : List Byte) : (scopedWrite s pa bs).bilsol = s.bilsol := rfl
@[simp] theorem scopedWrite_time (s : State) (pa : Nat) (bs : List Byte) : (scopedWrite s pa bs).time = s.time := rfl
@[simp] theorem scopedWrite_agenda (s : State) (pa : Nat) (bs : List Byte) : (scopedWrite s pa bs).agenda = s.agenda := rfl
@[simp] theorem scopedWrite_cur (s : State) (pa : Nat) (bs : List Byte) : (scopedWrite s pa bs).cur = s.cur := rfl
@[simp] theorem scopedWrite_scope (s : State) (pa : Nat) (bs : List Byte) : (scopedWrite s pa bs).scope = s.scope := rfl
@[simp] theorem scopedWrite_turn (s : State) (pa : Nat) (bs : List Byte) : (scopedWrite s pa bs).turn = s.turn := rfl
@[simp] theorem scopedWrite_ticks (s : State) (pa : Nat) (bs : List Byte) : (scopedWrite s pa bs).ticks = s.ticks := rfl

@[simp] theorem promote_cores (s : State) (d : Nat) : (promote s d).cores = s.cores := rfl
@[simp] theorem promote_strings (s : State) (d : Nat) : (promote s d).strings = s.strings := rfl
@[simp] theorem promote_dies (s : State) (d : Nat) : (promote s d).dies = s.dies := rfl
@[simp] theorem promote_parts (s : State) (d : Nat) : (promote s d).parts = s.parts := rfl
@[simp] theorem promote_vault (s : State) (d : Nat) : (promote s d).vault = s.vault := rfl
@[simp] theorem promote_side (s : State) (d : Nat) : (promote s d).side = s.side := rfl
@[simp] theorem promote_ttCtl (s : State) (d : Nat) : (promote s d).ttCtl = s.ttCtl := rfl
@[simp] theorem promote_written (s : State) (d : Nat) : (promote s d).written = s.written := rfl
@[simp] theorem promote_vdedup (s : State) (d : Nat) : (promote s d).vdedup = s.vdedup := rfl
@[simp] theorem promote_lands (s : State) (d : Nat) : (promote s d).lands = s.lands := rfl
@[simp] theorem promote_gran (s : State) (d : Nat) : (promote s d).gran = s.gran := rfl
@[simp] theorem promote_spdm (s : State) (d : Nat) : (promote s d).spdm = s.spdm := rfl
@[simp] theorem promote_host (s : State) (d : Nat) : (promote s d).host = s.host := rfl
@[simp] theorem promote_bilsol (s : State) (d : Nat) : (promote s d).bilsol = s.bilsol := rfl
@[simp] theorem promote_time (s : State) (d : Nat) : (promote s d).time = s.time := rfl
@[simp] theorem promote_agenda (s : State) (d : Nat) : (promote s d).agenda = s.agenda := rfl
@[simp] theorem promote_cur (s : State) (d : Nat) : (promote s d).cur = s.cur := rfl
@[simp] theorem promote_scope (s : State) (d : Nat) : (promote s d).scope = s.scope := rfl
@[simp] theorem promote_turn (s : State) (d : Nat) : (promote s d).turn = s.turn := rfl
@[simp] theorem promote_ticks (s : State) (d : Nat) : (promote s d).ticks = s.ticks := rfl

@[simp] theorem sealLines_cores (s : State) (x : Seal) : (sealLines s x).cores = s.cores := rfl
@[simp] theorem sealLines_strings (s : State) (x : Seal) : (sealLines s x).strings = s.strings := rfl
@[simp] theorem sealLines_dies (s : State) (x : Seal) : (sealLines s x).dies = s.dies := rfl
@[simp] theorem sealLines_parts (s : State) (x : Seal) : (sealLines s x).parts = s.parts := rfl
@[simp] theorem sealLines_vault (s : State) (x : Seal) : (sealLines s x).vault = s.vault := rfl
@[simp] theorem sealLines_dieScope (s : State) (x : Seal) : (sealLines s x).dieScope = s.dieScope := rfl
@[simp] theorem sealLines_ttCtl (s : State) (x : Seal) : (sealLines s x).ttCtl = s.ttCtl := rfl
@[simp] theorem sealLines_written (s : State) (x : Seal) : (sealLines s x).written = s.written := rfl
@[simp] theorem sealLines_vdedup (s : State) (x : Seal) : (sealLines s x).vdedup = s.vdedup := rfl
@[simp] theorem sealLines_lands (s : State) (x : Seal) : (sealLines s x).lands = s.lands := rfl
@[simp] theorem sealLines_gran (s : State) (x : Seal) : (sealLines s x).gran = s.gran := rfl
@[simp] theorem sealLines_spdm (s : State) (x : Seal) : (sealLines s x).spdm = s.spdm := rfl
@[simp] theorem sealLines_host (s : State) (x : Seal) : (sealLines s x).host = s.host := rfl
@[simp] theorem sealLines_bilsol (s : State) (x : Seal) : (sealLines s x).bilsol = s.bilsol := rfl
@[simp] theorem sealLines_time (s : State) (x : Seal) : (sealLines s x).time = s.time := rfl
@[simp] theorem sealLines_agenda (s : State) (x : Seal) : (sealLines s x).agenda = s.agenda := rfl
@[simp] theorem sealLines_cur (s : State) (x : Seal) : (sealLines s x).cur = s.cur := rfl
@[simp] theorem sealLines_scope (s : State) (x : Seal) : (sealLines s x).scope = s.scope := rfl
@[simp] theorem sealLines_turn (s : State) (x : Seal) : (sealLines s x).turn = s.turn := rfl
@[simp] theorem sealLines_ticks (s : State) (x : Seal) : (sealLines s x).ticks = s.ticks := rfl

@[simp] theorem unsealLines_cores (s : State) (lo n : Nat) : (unsealLines s lo n).cores = s.cores := rfl
@[simp] theorem unsealLines_strings (s : State) (lo n : Nat) : (unsealLines s lo n).strings = s.strings := rfl
@[simp] theorem unsealLines_dies (s : State) (lo n : Nat) : (unsealLines s lo n).dies = s.dies := rfl
@[simp] theorem unsealLines_parts (s : State) (lo n : Nat) : (unsealLines s lo n).parts = s.parts := rfl
@[simp] theorem unsealLines_vault (s : State) (lo n : Nat) : (unsealLines s lo n).vault = s.vault := rfl
@[simp] theorem unsealLines_dieScope (s : State) (lo n : Nat) : (unsealLines s lo n).dieScope = s.dieScope := rfl
@[simp] theorem unsealLines_ttCtl (s : State) (lo n : Nat) : (unsealLines s lo n).ttCtl = s.ttCtl := rfl
@[simp] theorem unsealLines_written (s : State) (lo n : Nat) : (unsealLines s lo n).written = s.written := rfl
@[simp] theorem unsealLines_vdedup (s : State) (lo n : Nat) : (unsealLines s lo n).vdedup = s.vdedup := rfl
@[simp] theorem unsealLines_lands (s : State) (lo n : Nat) : (unsealLines s lo n).lands = s.lands := rfl
@[simp] theorem unsealLines_gran (s : State) (lo n : Nat) : (unsealLines s lo n).gran = s.gran := rfl
@[simp] theorem unsealLines_spdm (s : State) (lo n : Nat) : (unsealLines s lo n).spdm = s.spdm := rfl
@[simp] theorem unsealLines_host (s : State) (lo n : Nat) : (unsealLines s lo n).host = s.host := rfl
@[simp] theorem unsealLines_bilsol (s : State) (lo n : Nat) : (unsealLines s lo n).bilsol = s.bilsol := rfl
@[simp] theorem unsealLines_time (s : State) (lo n : Nat) : (unsealLines s lo n).time = s.time := rfl
@[simp] theorem unsealLines_agenda (s : State) (lo n : Nat) : (unsealLines s lo n).agenda = s.agenda := rfl
@[simp] theorem unsealLines_cur (s : State) (lo n : Nat) : (unsealLines s lo n).cur = s.cur := rfl
@[simp] theorem unsealLines_scope (s : State) (lo n : Nat) : (unsealLines s lo n).scope = s.scope := rfl
@[simp] theorem unsealLines_turn (s : State) (lo n : Nat) : (unsealLines s lo n).turn = s.turn := rfl
@[simp] theorem unsealLines_ticks (s : State) (lo n : Nat) : (unsealLines s lo n).ticks = s.ticks := rfl

@[simp] theorem markWritten_cores (s : State) (i ln : Nat) : (markWritten s i ln).cores = s.cores := rfl
@[simp] theorem markWritten_strings (s : State) (i ln : Nat) : (markWritten s i ln).strings = s.strings := rfl
@[simp] theorem markWritten_dies (s : State) (i ln : Nat) : (markWritten s i ln).dies = s.dies := rfl
@[simp] theorem markWritten_parts (s : State) (i ln : Nat) : (markWritten s i ln).parts = s.parts := rfl
@[simp] theorem markWritten_vault (s : State) (i ln : Nat) : (markWritten s i ln).vault = s.vault := rfl
@[simp] theorem markWritten_dieScope (s : State) (i ln : Nat) : (markWritten s i ln).dieScope = s.dieScope := rfl
@[simp] theorem markWritten_side (s : State) (i ln : Nat) : (markWritten s i ln).side = s.side := rfl
@[simp] theorem markWritten_ttCtl (s : State) (i ln : Nat) : (markWritten s i ln).ttCtl = s.ttCtl := rfl
@[simp] theorem markWritten_vdedup (s : State) (i ln : Nat) : (markWritten s i ln).vdedup = s.vdedup := rfl
@[simp] theorem markWritten_lands (s : State) (i ln : Nat) : (markWritten s i ln).lands = s.lands := rfl
@[simp] theorem markWritten_gran (s : State) (i ln : Nat) : (markWritten s i ln).gran = s.gran := rfl
@[simp] theorem markWritten_spdm (s : State) (i ln : Nat) : (markWritten s i ln).spdm = s.spdm := rfl
@[simp] theorem markWritten_host (s : State) (i ln : Nat) : (markWritten s i ln).host = s.host := rfl
@[simp] theorem markWritten_bilsol (s : State) (i ln : Nat) : (markWritten s i ln).bilsol = s.bilsol := rfl
@[simp] theorem markWritten_time (s : State) (i ln : Nat) : (markWritten s i ln).time = s.time := rfl
@[simp] theorem markWritten_agenda (s : State) (i ln : Nat) : (markWritten s i ln).agenda = s.agenda := rfl
@[simp] theorem markWritten_cur (s : State) (i ln : Nat) : (markWritten s i ln).cur = s.cur := rfl
@[simp] theorem markWritten_scope (s : State) (i ln : Nat) : (markWritten s i ln).scope = s.scope := rfl
@[simp] theorem markWritten_turn (s : State) (i ln : Nat) : (markWritten s i ln).turn = s.turn := rfl
@[simp] theorem markWritten_ticks (s : State) (i ln : Nat) : (markWritten s i ln).ticks = s.ticks := rfl

@[simp] theorem replyTo_cores (s : State) (r : Bool) (bs : List Byte) : (replyTo s r bs).cores = s.cores := rfl
@[simp] theorem replyTo_strings (s : State) (r : Bool) (bs : List Byte) : (replyTo s r bs).strings = s.strings := rfl
@[simp] theorem replyTo_dies (s : State) (r : Bool) (bs : List Byte) : (replyTo s r bs).dies = s.dies := rfl
@[simp] theorem replyTo_parts (s : State) (r : Bool) (bs : List Byte) : (replyTo s r bs).parts = s.parts := rfl
@[simp] theorem replyTo_vault (s : State) (r : Bool) (bs : List Byte) : (replyTo s r bs).vault = s.vault := rfl
@[simp] theorem replyTo_dieScope (s : State) (r : Bool) (bs : List Byte) : (replyTo s r bs).dieScope = s.dieScope := rfl
@[simp] theorem replyTo_side (s : State) (r : Bool) (bs : List Byte) : (replyTo s r bs).side = s.side := rfl
@[simp] theorem replyTo_ttCtl (s : State) (r : Bool) (bs : List Byte) : (replyTo s r bs).ttCtl = s.ttCtl := rfl
@[simp] theorem replyTo_written (s : State) (r : Bool) (bs : List Byte) : (replyTo s r bs).written = s.written := rfl
@[simp] theorem replyTo_vdedup (s : State) (r : Bool) (bs : List Byte) : (replyTo s r bs).vdedup = s.vdedup := rfl
@[simp] theorem replyTo_lands (s : State) (r : Bool) (bs : List Byte) : (replyTo s r bs).lands = s.lands := rfl
@[simp] theorem replyTo_gran (s : State) (r : Bool) (bs : List Byte) : (replyTo s r bs).gran = s.gran := rfl
@[simp] theorem replyTo_spdm (s : State) (r : Bool) (bs : List Byte) : (replyTo s r bs).spdm = s.spdm := rfl
@[simp] theorem replyTo_host (s : State) (r : Bool) (bs : List Byte) : (replyTo s r bs).host = s.host := rfl
@[simp] theorem replyTo_time (s : State) (r : Bool) (bs : List Byte) : (replyTo s r bs).time = s.time := rfl
@[simp] theorem replyTo_agenda (s : State) (r : Bool) (bs : List Byte) : (replyTo s r bs).agenda = s.agenda := rfl
@[simp] theorem replyTo_cur (s : State) (r : Bool) (bs : List Byte) : (replyTo s r bs).cur = s.cur := rfl
@[simp] theorem replyTo_scope (s : State) (r : Bool) (bs : List Byte) : (replyTo s r bs).scope = s.scope := rfl
@[simp] theorem replyTo_turn (s : State) (r : Bool) (bs : List Byte) : (replyTo s r bs).turn = s.turn := rfl
@[simp] theorem replyTo_ticks (s : State) (r : Bool) (bs : List Byte) : (replyTo s r bs).ticks = s.ticks := rfl

@[simp] theorem tick_cores (s : State) : (tick s).cores = s.cores := rfl
@[simp] theorem tick_strings (s : State) : (tick s).strings = s.strings := rfl
@[simp] theorem tick_dies (s : State) : (tick s).dies = s.dies := rfl
@[simp] theorem tick_parts (s : State) : (tick s).parts = s.parts := rfl
@[simp] theorem tick_vault (s : State) : (tick s).vault = s.vault := rfl
@[simp] theorem tick_dieScope (s : State) : (tick s).dieScope = s.dieScope := rfl
@[simp] theorem tick_side (s : State) : (tick s).side = s.side := rfl
@[simp] theorem tick_ttCtl (s : State) : (tick s).ttCtl = s.ttCtl := rfl
@[simp] theorem tick_written (s : State) : (tick s).written = s.written := rfl
@[simp] theorem tick_vdedup (s : State) : (tick s).vdedup = s.vdedup := rfl
@[simp] theorem tick_lands (s : State) : (tick s).lands = s.lands := rfl
@[simp] theorem tick_gran (s : State) : (tick s).gran = s.gran := rfl
@[simp] theorem tick_spdm (s : State) : (tick s).spdm = s.spdm := rfl
@[simp] theorem tick_host (s : State) : (tick s).host = s.host := rfl
@[simp] theorem tick_bilsol (s : State) : (tick s).bilsol = s.bilsol := rfl
@[simp] theorem tick_agenda (s : State) : (tick s).agenda = s.agenda := rfl
@[simp] theorem tick_cur (s : State) : (tick s).cur = s.cur := rfl
@[simp] theorem tick_scope (s : State) : (tick s).scope = s.scope := rfl
@[simp] theorem tick_turn (s : State) : (tick s).turn = s.turn := rfl

/-! ## Every part that an update does not name -/

@[simp] theorem getDie_setCore (s : State) (c : Nat) (x : Core) (k : Nat) : getDie (setCore s c x) k = getDie s k := rfl
@[simp] theorem getStr_setCore (s : State) (c : Nat) (x : Core) (k : Nat) : getStr (setCore s c x) k = getStr s k := rfl
@[simp] theorem getPart_setCore (s : State) (c : Nat) (x : Core) (k : Nat) : getPart (setCore s c x) k = getPart s k := rfl
@[simp] theorem getKey_setCore (s : State) (c : Nat) (x : Core) (k : Nat) : getKey (setCore s c x) k = getKey s k := rfl

@[simp] theorem getDie_modCore (s : State) (c : Nat) (f : Core → Core) (k : Nat) : getDie (modCore s c f) k = getDie s k := rfl
@[simp] theorem getStr_modCore (s : State) (c : Nat) (f : Core → Core) (k : Nat) : getStr (modCore s c f) k = getStr s k := rfl
@[simp] theorem getPart_modCore (s : State) (c : Nat) (f : Core → Core) (k : Nat) : getPart (modCore s c f) k = getPart s k := rfl
@[simp] theorem getKey_modCore (s : State) (c : Nat) (f : Core → Core) (k : Nat) : getKey (modCore s c f) k = getKey s k := rfl

@[simp] theorem getDie_setGroup (s : State) (c g : Nat) (x : Group) (k : Nat) : getDie (setGroup s c g x) k = getDie s k := rfl
@[simp] theorem getStr_setGroup (s : State) (c g : Nat) (x : Group) (k : Nat) : getStr (setGroup s c g x) k = getStr s k := rfl
@[simp] theorem getPart_setGroup (s : State) (c g : Nat) (x : Group) (k : Nat) : getPart (setGroup s c g x) k = getPart s k := rfl
@[simp] theorem getKey_setGroup (s : State) (c g : Nat) (x : Group) (k : Nat) : getKey (setGroup s c g x) k = getKey s k := rfl

@[simp] theorem getDie_modGroup (s : State) (c g : Nat) (f : Group → Group) (k : Nat) : getDie (modGroup s c g f) k = getDie s k := rfl
@[simp] theorem getStr_modGroup (s : State) (c g : Nat) (f : Group → Group) (k : Nat) : getStr (modGroup s c g f) k = getStr s k := rfl
@[simp] theorem getPart_modGroup (s : State) (c g : Nat) (f : Group → Group) (k : Nat) : getPart (modGroup s c g f) k = getPart s k := rfl
@[simp] theorem getKey_modGroup (s : State) (c g : Nat) (f : Group → Group) (k : Nat) : getKey (modGroup s c g f) k = getKey s k := rfl

@[simp] theorem getDie_modLanes (s : State) (c g : Nat) (m : LaneMask) (f : Lane → Lane) (k : Nat) : getDie (modLanes s c g m f) k = getDie s k := rfl
@[simp] theorem getStr_modLanes (s : State) (c g : Nat) (m : LaneMask) (f : Lane → Lane) (k : Nat) : getStr (modLanes s c g m f) k = getStr s k := rfl
@[simp] theorem getPart_modLanes (s : State) (c g : Nat) (m : LaneMask) (f : Lane → Lane) (k : Nat) : getPart (modLanes s c g m f) k = getPart s k := rfl
@[simp] theorem getKey_modLanes (s : State) (c g : Nat) (m : LaneMask) (f : Lane → Lane) (k : Nat) : getKey (modLanes s c g m f) k = getKey s k := rfl

@[simp] theorem getDie_modExch (s : State) (c : Nat) (f : Exch → Exch) (k : Nat) : getDie (modExch s c f) k = getDie s k := rfl
@[simp] theorem getStr_modExch (s : State) (c : Nat) (f : Exch → Exch) (k : Nat) : getStr (modExch s c f) k = getStr s k := rfl
@[simp] theorem getPart_modExch (s : State) (c : Nat) (f : Exch → Exch) (k : Nat) : getPart (modExch s c f) k = getPart s k := rfl
@[simp] theorem getKey_modExch (s : State) (c : Nat) (f : Exch → Exch) (k : Nat) : getKey (modExch s c f) k = getKey s k := rfl

@[simp] theorem getDie_modEng (s : State) (c : Nat) (f : Engine → Engine) (k : Nat) : getDie (modEng s c f) k = getDie s k := rfl
@[simp] theorem getStr_modEng (s : State) (c : Nat) (f : Engine → Engine) (k : Nat) : getStr (modEng s c f) k = getStr s k := rfl
@[simp] theorem getPart_modEng (s : State) (c : Nat) (f : Engine → Engine) (k : Nat) : getPart (modEng s c f) k = getPart s k := rfl
@[simp] theorem getKey_modEng (s : State) (c : Nat) (f : Engine → Engine) (k : Nat) : getKey (modEng s c f) k = getKey s k := rfl

@[simp] theorem getDie_modAsy (s : State) (c : Nat) (f : Assay → Assay) (k : Nat) : getDie (modAsy s c f) k = getDie s k := rfl
@[simp] theorem getStr_modAsy (s : State) (c : Nat) (f : Assay → Assay) (k : Nat) : getStr (modAsy s c f) k = getStr s k := rfl
@[simp] theorem getPart_modAsy (s : State) (c : Nat) (f : Assay → Assay) (k : Nat) : getPart (modAsy s c f) k = getPart s k := rfl
@[simp] theorem getKey_modAsy (s : State) (c : Nat) (f : Assay → Assay) (k : Nat) : getKey (modAsy s c f) k = getKey s k := rfl

@[simp] theorem getDie_spadWrite (s : State) (c a : Nat) (bs : List Byte) (k : Nat) : getDie (spadWrite s c a bs) k = getDie s k := rfl
@[simp] theorem getStr_spadWrite (s : State) (c a : Nat) (bs : List Byte) (k : Nat) : getStr (spadWrite s c a bs) k = getStr s k := rfl
@[simp] theorem getPart_spadWrite (s : State) (c a : Nat) (bs : List Byte) (k : Nat) : getPart (spadWrite s c a bs) k = getPart s k := rfl
@[simp] theorem getKey_spadWrite (s : State) (c a : Nat) (bs : List Byte) (k : Nat) : getKey (spadWrite s c a bs) k = getKey s k := rfl

@[simp] theorem getCore_modDie (s : State) (d : Nat) (f : Die → Die) (k : Nat) : getCore (modDie s d f) k = getCore s k := rfl
@[simp] theorem getGroup_modDie (s : State) (d : Nat) (f : Die → Die) (k j : Nat) : getGroup (modDie s d f) k j = getGroup s k j := rfl
@[simp] theorem getStr_modDie (s : State) (d : Nat) (f : Die → Die) (k : Nat) : getStr (modDie s d f) k = getStr s k := rfl
@[simp] theorem getPart_modDie (s : State) (d : Nat) (f : Die → Die) (k : Nat) : getPart (modDie s d f) k = getPart s k := rfl
@[simp] theorem getKey_modDie (s : State) (d : Nat) (f : Die → Die) (k : Nat) : getKey (modDie s d f) k = getKey s k := rfl

@[simp] theorem getCore_modBind (s : State) (d i : Nat) (f : Bind → Bind) (k : Nat) : getCore (modBind s d i f) k = getCore s k := rfl
@[simp] theorem getGroup_modBind (s : State) (d i : Nat) (f : Bind → Bind) (k j : Nat) : getGroup (modBind s d i f) k j = getGroup s k j := rfl
@[simp] theorem getStr_modBind (s : State) (d i : Nat) (f : Bind → Bind) (k : Nat) : getStr (modBind s d i f) k = getStr s k := rfl
@[simp] theorem getPart_modBind (s : State) (d i : Nat) (f : Bind → Bind) (k : Nat) : getPart (modBind s d i f) k = getPart s k := rfl
@[simp] theorem getKey_modBind (s : State) (d i : Nat) (f : Bind → Bind) (k : Nat) : getKey (modBind s d i f) k = getKey s k := rfl

@[simp] theorem getCore_modStr (s : State) (n : Nat) (f : StringSt → StringSt) (k : Nat) : getCore (modStr s n f) k = getCore s k := rfl
@[simp] theorem getGroup_modStr (s : State) (n : Nat) (f : StringSt → StringSt) (k j : Nat) : getGroup (modStr s n f) k j = getGroup s k j := rfl
@[simp] theorem getDie_modStr (s : State) (n : Nat) (f : StringSt → StringSt) (k : Nat) : getDie (modStr s n f) k = getDie s k := rfl
@[simp] theorem getPart_modStr (s : State) (n : Nat) (f : StringSt → StringSt) (k : Nat) : getPart (modStr s n f) k = getPart s k := rfl
@[simp] theorem getKey_modStr (s : State) (n : Nat) (f : StringSt → StringSt) (k : Nat) : getKey (modStr s n f) k = getKey s k := rfl

@[simp] theorem getCore_modPart (s : State) (p : Nat) (f : Part → Part) (k : Nat) : getCore (modPart s p f) k = getCore s k := rfl
@[simp] theorem getGroup_modPart (s : State) (p : Nat) (f : Part → Part) (k j : Nat) : getGroup (modPart s p f) k j = getGroup s k j := rfl
@[simp] theorem getDie_modPart (s : State) (p : Nat) (f : Part → Part) (k : Nat) : getDie (modPart s p f) k = getDie s k := rfl
@[simp] theorem getStr_modPart (s : State) (p : Nat) (f : Part → Part) (k : Nat) : getStr (modPart s p f) k = getStr s k := rfl
@[simp] theorem getKey_modPart (s : State) (p : Nat) (f : Part → Part) (k : Nat) : getKey (modPart s p f) k = getKey s k := rfl

@[simp] theorem getCore_modGran (s : State) (f : Granite → Granite) (k : Nat) : getCore (modGran s f) k = getCore s k := rfl
@[simp] theorem getGroup_modGran (s : State) (f : Granite → Granite) (k j : Nat) : getGroup (modGran s f) k j = getGroup s k j := rfl
@[simp] theorem getDie_modGran (s : State) (f : Granite → Granite) (k : Nat) : getDie (modGran s f) k = getDie s k := rfl
@[simp] theorem getStr_modGran (s : State) (f : Granite → Granite) (k : Nat) : getStr (modGran s f) k = getStr s k := rfl
@[simp] theorem getPart_modGran (s : State) (f : Granite → Granite) (k : Nat) : getPart (modGran s f) k = getPart s k := rfl

@[simp] theorem getCore_modKey (s : State) (n : Nat) (f : KeySlot → KeySlot) (k : Nat) : getCore (modKey s n f) k = getCore s k := rfl
@[simp] theorem getGroup_modKey (s : State) (n : Nat) (f : KeySlot → KeySlot) (k j : Nat) : getGroup (modKey s n f) k j = getGroup s k j := rfl
@[simp] theorem getDie_modKey (s : State) (n : Nat) (f : KeySlot → KeySlot) (k : Nat) : getDie (modKey s n f) k = getDie s k := rfl
@[simp] theorem getStr_modKey (s : State) (n : Nat) (f : KeySlot → KeySlot) (k : Nat) : getStr (modKey s n f) k = getStr s k := rfl
@[simp] theorem getPart_modKey (s : State) (n : Nat) (f : KeySlot → KeySlot) (k : Nat) : getPart (modKey s n f) k = getPart s k := rfl

@[simp] theorem getCore_vaultWrite (s : State) (pa : Nat) (bs : List Byte) (k : Nat) : getCore (vaultWrite s pa bs) k = getCore s k := rfl
@[simp] theorem getGroup_vaultWrite (s : State) (pa : Nat) (bs : List Byte) (k j : Nat) : getGroup (vaultWrite s pa bs) k j = getGroup s k j := rfl
@[simp] theorem getDie_vaultWrite (s : State) (pa : Nat) (bs : List Byte) (k : Nat) : getDie (vaultWrite s pa bs) k = getDie s k := rfl
@[simp] theorem getStr_vaultWrite (s : State) (pa : Nat) (bs : List Byte) (k : Nat) : getStr (vaultWrite s pa bs) k = getStr s k := rfl
@[simp] theorem getPart_vaultWrite (s : State) (pa : Nat) (bs : List Byte) (k : Nat) : getPart (vaultWrite s pa bs) k = getPart s k := rfl
@[simp] theorem getKey_vaultWrite (s : State) (pa : Nat) (bs : List Byte) (k : Nat) : getKey (vaultWrite s pa bs) k = getKey s k := rfl

@[simp] theorem getCore_scopedWrite (s : State) (pa : Nat) (bs : List Byte) (k : Nat) : getCore (scopedWrite s pa bs) k = getCore s k := rfl
@[simp] theorem getGroup_scopedWrite (s : State) (pa : Nat) (bs : List Byte) (k j : Nat) : getGroup (scopedWrite s pa bs) k j = getGroup s k j := rfl
@[simp] theorem getDie_scopedWrite (s : State) (pa : Nat) (bs : List Byte) (k : Nat) : getDie (scopedWrite s pa bs) k = getDie s k := rfl
@[simp] theorem getStr_scopedWrite (s : State) (pa : Nat) (bs : List Byte) (k : Nat) : getStr (scopedWrite s pa bs) k = getStr s k := rfl
@[simp] theorem getPart_scopedWrite (s : State) (pa : Nat) (bs : List Byte) (k : Nat) : getPart (scopedWrite s pa bs) k = getPart s k := rfl
@[simp] theorem getKey_scopedWrite (s : State) (pa : Nat) (bs : List Byte) (k : Nat) : getKey (scopedWrite s pa bs) k = getKey s k := rfl

@[simp] theorem getCore_promote (s : State) (d : Nat) (k : Nat) : getCore (promote s d) k = getCore s k := rfl
@[simp] theorem getGroup_promote (s : State) (d : Nat) (k j : Nat) : getGroup (promote s d) k j = getGroup s k j := rfl
@[simp] theorem getDie_promote (s : State) (d : Nat) (k : Nat) : getDie (promote s d) k = getDie s k := rfl
@[simp] theorem getStr_promote (s : State) (d : Nat) (k : Nat) : getStr (promote s d) k = getStr s k := rfl
@[simp] theorem getPart_promote (s : State) (d : Nat) (k : Nat) : getPart (promote s d) k = getPart s k := rfl
@[simp] theorem getKey_promote (s : State) (d : Nat) (k : Nat) : getKey (promote s d) k = getKey s k := rfl

@[simp] theorem getCore_sealLines (s : State) (x : Seal) (k : Nat) : getCore (sealLines s x) k = getCore s k := rfl
@[simp] theorem getGroup_sealLines (s : State) (x : Seal) (k j : Nat) : getGroup (sealLines s x) k j = getGroup s k j := rfl
@[simp] theorem getDie_sealLines (s : State) (x : Seal) (k : Nat) : getDie (sealLines s x) k = getDie s k := rfl
@[simp] theorem getStr_sealLines (s : State) (x : Seal) (k : Nat) : getStr (sealLines s x) k = getStr s k := rfl
@[simp] theorem getPart_sealLines (s : State) (x : Seal) (k : Nat) : getPart (sealLines s x) k = getPart s k := rfl
@[simp] theorem getKey_sealLines (s : State) (x : Seal) (k : Nat) : getKey (sealLines s x) k = getKey s k := rfl

@[simp] theorem getCore_unsealLines (s : State) (lo n : Nat) (k : Nat) : getCore (unsealLines s lo n) k = getCore s k := rfl
@[simp] theorem getGroup_unsealLines (s : State) (lo n : Nat) (k j : Nat) : getGroup (unsealLines s lo n) k j = getGroup s k j := rfl
@[simp] theorem getDie_unsealLines (s : State) (lo n : Nat) (k : Nat) : getDie (unsealLines s lo n) k = getDie s k := rfl
@[simp] theorem getStr_unsealLines (s : State) (lo n : Nat) (k : Nat) : getStr (unsealLines s lo n) k = getStr s k := rfl
@[simp] theorem getPart_unsealLines (s : State) (lo n : Nat) (k : Nat) : getPart (unsealLines s lo n) k = getPart s k := rfl
@[simp] theorem getKey_unsealLines (s : State) (lo n : Nat) (k : Nat) : getKey (unsealLines s lo n) k = getKey s k := rfl

@[simp] theorem getCore_markWritten (s : State) (i ln : Nat) (k : Nat) : getCore (markWritten s i ln) k = getCore s k := rfl
@[simp] theorem getGroup_markWritten (s : State) (i ln : Nat) (k j : Nat) : getGroup (markWritten s i ln) k j = getGroup s k j := rfl
@[simp] theorem getDie_markWritten (s : State) (i ln : Nat) (k : Nat) : getDie (markWritten s i ln) k = getDie s k := rfl
@[simp] theorem getStr_markWritten (s : State) (i ln : Nat) (k : Nat) : getStr (markWritten s i ln) k = getStr s k := rfl
@[simp] theorem getPart_markWritten (s : State) (i ln : Nat) (k : Nat) : getPart (markWritten s i ln) k = getPart s k := rfl
@[simp] theorem getKey_markWritten (s : State) (i ln : Nat) (k : Nat) : getKey (markWritten s i ln) k = getKey s k := rfl

@[simp] theorem getCore_replyTo (s : State) (r : Bool) (bs : List Byte) (k : Nat) : getCore (replyTo s r bs) k = getCore s k := rfl
@[simp] theorem getGroup_replyTo (s : State) (r : Bool) (bs : List Byte) (k j : Nat) : getGroup (replyTo s r bs) k j = getGroup s k j := rfl
@[simp] theorem getDie_replyTo (s : State) (r : Bool) (bs : List Byte) (k : Nat) : getDie (replyTo s r bs) k = getDie s k := rfl
@[simp] theorem getStr_replyTo (s : State) (r : Bool) (bs : List Byte) (k : Nat) : getStr (replyTo s r bs) k = getStr s k := rfl
@[simp] theorem getPart_replyTo (s : State) (r : Bool) (bs : List Byte) (k : Nat) : getPart (replyTo s r bs) k = getPart s k := rfl
@[simp] theorem getKey_replyTo (s : State) (r : Bool) (bs : List Byte) (k : Nat) : getKey (replyTo s r bs) k = getKey s k := rfl

@[simp] theorem getCore_tick (s : State) (k : Nat) : getCore (tick s) k = getCore s k := rfl
@[simp] theorem getGroup_tick (s : State) (k j : Nat) : getGroup (tick s) k j = getGroup s k j := rfl
@[simp] theorem getDie_tick (s : State) (k : Nat) : getDie (tick s) k = getDie s k := rfl
@[simp] theorem getStr_tick (s : State) (k : Nat) : getStr (tick s) k = getStr s k := rfl
@[simp] theorem getPart_tick (s : State) (k : Nat) : getPart (tick s) k = getPart s k := rfl
@[simp] theorem getKey_tick (s : State) (k : Nat) : getKey (tick s) k = getKey s k := rfl

/-! ## The part that an update names -/

theorem getDie_modDie (s : State) (d k : Nat) (f : Die → Die) :
    getDie (modDie s d f) k = if k = d then f (getDie s d) else getDie s k := spGet_spSet _ _ _ _ _

@[simp] theorem getDie_modDie_self (s : State) (d : Nat) (f : Die → Die) : getDie (modDie s d f) d = f (getDie s d) := by
  simp [getDie_modDie]

theorem getStr_modStr (s : State) (n k : Nat) (f : StringSt → StringSt) :
    getStr (modStr s n f) k = if k = n then f (getStr s n) else getStr s k := spGet_spSet _ _ _ _ _

@[simp] theorem getStr_modStr_self (s : State) (n : Nat) (f : StringSt → StringSt) :
    getStr (modStr s n f) n = f (getStr s n) := by simp [getStr_modStr]

theorem getPart_modPart (s : State) (p k : Nat) (f : Part → Part) :
    getPart (modPart s p f) k = if k = p then f (getPart s p) else getPart s k := spGet_spSet _ _ _ _ _

@[simp] theorem getPart_modPart_self (s : State) (p : Nat) (f : Part → Part) :
    getPart (modPart s p f) p = f (getPart s p) := by simp [getPart_modPart]

theorem getKey_modKey (s : State) (n k : Nat) (f : KeySlot → KeySlot) :
    getKey (modKey s n f) k = if k = n then f (getKey s n) else getKey s k := spGet_spSet _ _ _ _ _

@[simp] theorem getKey_modKey_self (s : State) (n : Nat) (f : KeySlot → KeySlot) :
    getKey (modKey s n f) n = f (getKey s n) := by simp [getKey_modKey]

theorem getBind_modBind (s : State) (d i d' i' : Nat) (f : Bind → Bind) :
    getBind (modBind s d i f) d' i' = if d' = d ∧ i' = i then f (getBind s d i) else getBind s d' i' := by
  unfold getBind modBind
  rw [getDie_modDie]
  by_cases h : d' = d
  · subst h
    by_cases h' : i' = i
    · subst h'; simp [spGet_spPut]
    · simp [spGet_spPut, h']
  · simp [h]

@[simp] theorem getCore_spadWrite_part (s : State) (c a k : Nat) (bs : List Byte) :
    (getCore (spadWrite s c a bs) k).part = (getCore s k).part := by
  unfold spadWrite
  rw [getCore_modCore]
  by_cases h : k = c
  · subst h; simp
  · simp [h]

/-! ## Shared operations: everything that one may change -/

/-- An entry appended for the management core of a die changes that die and nothing else (R214). -/
theorem mcAppend_rest (s : State) (d : Nat) (ctl : Word) (esz : Nat) (e : List Byte) :
    { mcAppend s d ctl esz e with dies := s.dies } = s := by
  unfold mcAppend
  repeat' split
  all_goals rfl

/-- An event for the management core of a die changes that die and nothing else (R349). -/
theorem postEvent_rest (s : State) (d : Nat) (e : EventRec) : { postEvent s d e with dies := s.dies } = s :=
  mcAppend_rest _ _ _ _ _

/-- An event for the host changes the host's rings and nothing else (R466). -/
theorem postHost_rest (s : State) (e : EventRec) : { postHost s e with host := s.host } = s := by
  unfold postHost
  dsimp only
  split <;> rfl

@[simp] theorem postHost_cores (s : State) (e : EventRec) : (postHost s e).cores = s.cores := by
  have h := congrArg State.cores (postHost_rest s e); exact h
@[simp] theorem postHost_strings (s : State) (e : EventRec) : (postHost s e).strings = s.strings := by
  have h := congrArg State.strings (postHost_rest s e); exact h
@[simp] theorem postHost_dies (s : State) (e : EventRec) : (postHost s e).dies = s.dies := by
  have h := congrArg State.dies (postHost_rest s e); exact h
@[simp] theorem postHost_parts (s : State) (e : EventRec) : (postHost s e).parts = s.parts := by
  have h := congrArg State.parts (postHost_rest s e); exact h
@[simp] theorem postHost_vault (s : State) (e : EventRec) : (postHost s e).vault = s.vault := by
  have h := congrArg State.vault (postHost_rest s e); exact h
@[simp] theorem postHost_dieScope (s : State) (e : EventRec) : (postHost s e).dieScope = s.dieScope := by
  have h := congrArg State.dieScope (postHost_rest s e); exact h
@[simp] theorem postHost_side (s : State) (e : EventRec) : (postHost s e).side = s.side := by
  have h := congrArg State.side (postHost_rest s e); exact h
@[simp] theorem postHost_ttCtl (s : State) (e : EventRec) : (postHost s e).ttCtl = s.ttCtl := by
  have h := congrArg State.ttCtl (postHost_rest s e); exact h
@[simp] theorem postHost_written (s : State) (e : EventRec) : (postHost s e).written = s.written := by
  have h := congrArg State.written (postHost_rest s e); exact h
@[simp] theorem postHost_vdedup (s : State) (e : EventRec) : (postHost s e).vdedup = s.vdedup := by
  have h := congrArg State.vdedup (postHost_rest s e); exact h
@[simp] theorem postHost_lands (s : State) (e : EventRec) : (postHost s e).lands = s.lands := by
  have h := congrArg State.lands (postHost_rest s e); exact h
@[simp] theorem postHost_gran (s : State) (e : EventRec) : (postHost s e).gran = s.gran := by
  have h := congrArg State.gran (postHost_rest s e); exact h
@[simp] theorem postHost_spdm (s : State) (e : EventRec) : (postHost s e).spdm = s.spdm := by
  have h := congrArg State.spdm (postHost_rest s e); exact h
@[simp] theorem postHost_bilsol (s : State) (e : EventRec) : (postHost s e).bilsol = s.bilsol := by
  have h := congrArg State.bilsol (postHost_rest s e); exact h
@[simp] theorem postHost_time (s : State) (e : EventRec) : (postHost s e).time = s.time := by
  have h := congrArg State.time (postHost_rest s e); exact h
@[simp] theorem postHost_agenda (s : State) (e : EventRec) : (postHost s e).agenda = s.agenda := by
  have h := congrArg State.agenda (postHost_rest s e); exact h
@[simp] theorem postHost_cur (s : State) (e : EventRec) : (postHost s e).cur = s.cur := by
  have h := congrArg State.cur (postHost_rest s e); exact h
@[simp] theorem postHost_scope (s : State) (e : EventRec) : (postHost s e).scope = s.scope := by
  have h := congrArg State.scope (postHost_rest s e); exact h
@[simp] theorem postHost_turn (s : State) (e : EventRec) : (postHost s e).turn = s.turn := by
  have h := congrArg State.turn (postHost_rest s e); exact h
@[simp] theorem postHost_ticks (s : State) (e : EventRec) : (postHost s e).ticks = s.ticks := by
  have h := congrArg State.ticks (postHost_rest s e); exact h

@[simp] theorem postEvent_cores (s : State) (d : Nat) (e : EventRec) : (postEvent s d e).cores = s.cores := by
  have h := congrArg State.cores (postEvent_rest s d e); exact h
@[simp] theorem postEvent_strings (s : State) (d : Nat) (e : EventRec) : (postEvent s d e).strings = s.strings := by
  have h := congrArg State.strings (postEvent_rest s d e); exact h
@[simp] theorem postEvent_parts (s : State) (d : Nat) (e : EventRec) : (postEvent s d e).parts = s.parts := by
  have h := congrArg State.parts (postEvent_rest s d e); exact h
@[simp] theorem postEvent_vault (s : State) (d : Nat) (e : EventRec) : (postEvent s d e).vault = s.vault := by
  have h := congrArg State.vault (postEvent_rest s d e); exact h
@[simp] theorem postEvent_dieScope (s : State) (d : Nat) (e : EventRec) : (postEvent s d e).dieScope = s.dieScope := by
  have h := congrArg State.dieScope (postEvent_rest s d e); exact h
@[simp] theorem postEvent_side (s : State) (d : Nat) (e : EventRec) : (postEvent s d e).side = s.side := by
  have h := congrArg State.side (postEvent_rest s d e); exact h
@[simp] theorem postEvent_ttCtl (s : State) (d : Nat) (e : EventRec) : (postEvent s d e).ttCtl = s.ttCtl := by
  have h := congrArg State.ttCtl (postEvent_rest s d e); exact h
@[simp] theorem postEvent_written (s : State) (d : Nat) (e : EventRec) : (postEvent s d e).written = s.written := by
  have h := congrArg State.written (postEvent_rest s d e); exact h
@[simp] theorem postEvent_vdedup (s : State) (d : Nat) (e : EventRec) : (postEvent s d e).vdedup = s.vdedup := by
  have h := congrArg State.vdedup (postEvent_rest s d e); exact h
@[simp] theorem postEvent_lands (s : State) (d : Nat) (e : EventRec) : (postEvent s d e).lands = s.lands := by
  have h := congrArg State.lands (postEvent_rest s d e); exact h
@[simp] theorem postEvent_gran (s : State) (d : Nat) (e : EventRec) : (postEvent s d e).gran = s.gran := by
  have h := congrArg State.gran (postEvent_rest s d e); exact h
@[simp] theorem postEvent_spdm (s : State) (d : Nat) (e : EventRec) : (postEvent s d e).spdm = s.spdm := by
  have h := congrArg State.spdm (postEvent_rest s d e); exact h
@[simp] theorem postEvent_host (s : State) (d : Nat) (e : EventRec) : (postEvent s d e).host = s.host := by
  have h := congrArg State.host (postEvent_rest s d e); exact h
@[simp] theorem postEvent_bilsol (s : State) (d : Nat) (e : EventRec) : (postEvent s d e).bilsol = s.bilsol := by
  have h := congrArg State.bilsol (postEvent_rest s d e); exact h
@[simp] theorem postEvent_time (s : State) (d : Nat) (e : EventRec) : (postEvent s d e).time = s.time := by
  have h := congrArg State.time (postEvent_rest s d e); exact h
@[simp] theorem postEvent_agenda (s : State) (d : Nat) (e : EventRec) : (postEvent s d e).agenda = s.agenda := by
  have h := congrArg State.agenda (postEvent_rest s d e); exact h
@[simp] theorem postEvent_cur (s : State) (d : Nat) (e : EventRec) : (postEvent s d e).cur = s.cur := by
  have h := congrArg State.cur (postEvent_rest s d e); exact h
@[simp] theorem postEvent_scope (s : State) (d : Nat) (e : EventRec) : (postEvent s d e).scope = s.scope := by
  have h := congrArg State.scope (postEvent_rest s d e); exact h
@[simp] theorem postEvent_turn (s : State) (d : Nat) (e : EventRec) : (postEvent s d e).turn = s.turn := by
  have h := congrArg State.turn (postEvent_rest s d e); exact h
@[simp] theorem postEvent_ticks (s : State) (d : Nat) (e : EventRec) : (postEvent s d e).ticks = s.ticks := by
  have h := congrArg State.ticks (postEvent_rest s d e); exact h
/-- An entry of the package fault record changes the Granite die and the host's rings, and nothing else (R417, R466). -/
theorem addFrec_rest (s : State) (e : FrecEnt) : { addFrec s e with gran := s.gran, host := s.host } = s := by
  unfold addFrec
  dsimp only
  split
  · rfl
  · unfold postHost
    dsimp only
    split <;> rfl

/-! ## Memory keeps its canonical form -/

theorem vaultWrite_wf (s : State) (pa : Nat) (bs : List Byte) (h : Memory.wf s.vault = true) :
    Memory.wf (vaultWrite s pa bs).vault = true := memWrite_wf bs _ _ h

theorem scopedWrite_wf (s : State) (pa : Nat) (bs : List Byte) (h : Memory.wf s.vault = true) :
    Memory.wf (scopedWrite s pa bs).vault = true := memWrite_wf bs _ _ h

theorem spadWrite_wf (s : State) (c a k : Nat) (bs : List Byte) (h : ∀ c, Memory.wf (getCore s c).spad = true) :
    Memory.wf (getCore (spadWrite s c a bs) k).spad = true := by
  unfold spadWrite
  rw [getCore_modCore]
  by_cases hk : k = c
  · subst hk; simpa using memWrite_wf bs _ _ (h k)
  · simpa [hk] using h k

theorem qLost_wf (m : Mem) (b : Nat) (h : Memory.wf m = true) : Memory.wf (qLost m b) = true := memStore_wf _ _ _ _ h

theorem qAppend_wf (m : Mem) (b depth esz : Nat) (e : List Byte) (h : Memory.wf m = true) :
    Memory.wf (qAppend m b depth esz e) = true := by
  unfold qAppend
  repeat' split
  all_goals first
    | exact memStore_wf _ _ _ _ (memWrite_wf _ _ _ h)
    | exact memWrite_wf _ _ _ (memStore_wf _ _ _ _ h)
    | exact qLost_wf _ _ h
    | exact h

/-- The memories that State.reset holds are empty, and so in canonical form. -/
theorem wf_nil : Memory.wf [] = true := rfl

end Sys2Proof.Machine
end

