-- ==== Sys2Proof/Laws/Subs.lean ====
section
/-!
SUPPORT. Laws/Subs.lean: sub-elements of a register under bit operations, immediates placed in every sub-element, the bits of
shuffled patterns, and masks built from lists.
-/
namespace Sys2Proof.Machine

theorem width_cases (t : IntTy) : t.width = 8 ∨ t.width = 16 ∨ t.width = 32 ∨ t.width = 64 := by
  cases t <;> simp [IntTy.width]
theorem subBits_lt (x : Word) (w j : Nat) : subBits x w j < 2 ^ w := Nat.mod_lt _ (Nat.two_pow_pos w)
theorem intsAre_bits {i : Instr} {m : WMeta} {d : Reg} {w : Nat} (v : WEnv → State → Nat → Nat → Nat)
    (f : WEnv → State → Nat → Nat → Int) (hf : ∀ e s l j, j < 64 / w → ((v e s l j : Nat) : Int) % 2 ^ w = f e s l j % 2 ^ w)
    (hx : ∀ s, exec i s = runWord m (fun e s => e.writeAll s d fun l => packSubs w (v e s l)) s) :
    IntsAre i m d w f :=
  subsAre_of (fun e s l => packSubs w (v e s l)) hx fun e s l j hj => by
    rw [subBits_packSubs _ _ _ hj, ← hf _ _ _ _ hj]; push_cast; rfl

theorem subBits_testBit (x : Word) (w j i : Nat) : (subBits x w j).testBit i = (decide (i < w) && x.getLsbD (w * j + i)) := by
  unfold subBits
  rw [Nat.testBit_mod_two_pow, Nat.testBit_shiftRight]; rfl

theorem subBits_and (x y : Word) (w j : Nat) : subBits (x &&& y) w j = subBits x w j &&& subBits y w j := by
  apply Nat.eq_of_testBit_eq; intro i
  simp only [Nat.testBit_and, subBits_testBit, BitVec.getLsbD_and]
  by_cases h : i < w <;> simp [h]
theorem subBits_or (x y : Word) (w j : Nat) : subBits (x ||| y) w j = subBits x w j ||| subBits y w j := by
  apply Nat.eq_of_testBit_eq; intro i
  simp only [Nat.testBit_or, subBits_testBit, BitVec.getLsbD_or]
  by_cases h : i < w <;> simp [h]
theorem subBits_xor (x y : Word) (w j : Nat) : subBits (x ^^^ y) w j = subBits x w j ^^^ subBits y w j := by
  apply Nat.eq_of_testBit_eq; intro i
  simp only [Nat.testBit_xor, subBits_testBit, BitVec.getLsbD_xor]
  by_cases h : i < w <;> simp [h]

/-- An unsigned immediate in every sub-element (R85). -/
theorem subBits_immUnsigned (t : IntTy) (v : BitVec 8) (j : Nat) (hj : j < 64 / t.width) : subBits (immUnsigned t v) t.width j = v.toNat := by
  have := subBits_packInts t (fun _ => (v.toNat : Int)) j hj
  have h : v.toNat < 2 ^ t.width := lt_of_lt_of_le v.isLt (Nat.pow_le_pow_right (by norm_num) (by cases t <;> simp [IntTy.width]))
  have h2 : ((v.toNat : Int)) % 2 ^ t.width = v.toNat := by
    apply Int.emod_eq_of_lt (by positivity); exact_mod_cast h
  rw [h2] at this
  exact_mod_cast this

theorem sgn_range (w : Nat) (hw : 0 < w) (x : Int) (h1 : -(2 ^ (w-1) : Int) ≤ x) (h2 : x < 2 ^ (w-1)) : sgn w (wrapNat w x) = x := by
  have h3 : (2:Int) ^ w = 2 * 2 ^ (w - 1) := by rw [← pow_succ']; congr 1; omega
  have h3n : (2:Nat) ^ w = 2 * 2 ^ (w - 1) := by rw [← pow_succ']; congr 1; omega
  have hp : (0:Int) < 2 ^ (w-1) := by positivity
  have hx := wrapNat_eq w x
  have hl := wrapNat_lt w x
  unfold sgn
  simp only [Nat.mod_eq_of_lt hl]
  by_cases h0 : 0 ≤ x
  · have : x % 2 ^ w = x := Int.emod_eq_of_lt h0 (by omega)
    rw [this] at hx
    have hxn : ((wrapNat w x : Nat) : Int) < 2 ^ (w-1) := by omega
    have : ¬ 2 ^ w ≤ 2 * wrapNat w x := by
      have : wrapNat w x < 2 ^ (w-1) := by exact_mod_cast hxn
      omega
    rw [if_neg this, hx]
  · have : x % 2 ^ w = x + 2 ^ w := by
      have : x % 2^w = (x + 2^w) % 2^w := by simp
      rw [this]; exact Int.emod_eq_of_lt (by omega) (by omega)
    rw [this] at hx
    have : 2 ^ w ≤ 2 * wrapNat w x := by
      have : (2:Int) ^ w ≤ 2 * (wrapNat w x : Nat) := by omega
      exact_mod_cast this
    rw [if_pos this, hx]; ring

/-- A signed immediate in every sub-element, as a value (R85). -/
theorem subVal_immSigned (t : IntTy) (v : BitVec 8) (j : Nat) (hj : j < 64 / t.width) :
    subVal (immSigned t v) t j = if t.signed then v.toInt else v.toInt % 2 ^ t.width := by
  have h := subBits_packInts t (fun _ => v.toInt) j hj
  have hlo := BitVec.le_toInt v
  have hhi := BitVec.toInt_lt (x := v)
  have hn : subBits (immSigned t v) t.width j = wrapNat t.width v.toInt := by
    have := wrapNat_eq t.width v.toInt
    rw [← this] at h; exact_mod_cast h
  unfold subVal
  rw [hn]
  have hp : (2:Int)^(8-1) ≤ 2 ^ (t.width - 1) := by cases t <;> norm_num [IntTy.width]
  split_ifs with hs
  · exact sgn_range _ (width_pos t) _ (by omega) (by omega)
  · exact wrapNat_eq _ _

theorem revBits_lt : ∀ w ua, revBits w ua < 2 ^ w := by
  intro w; induction w with
  | zero => intro _; simp [revBits]
  | succ w ih =>
    intro ua
    have := ih (ua / 2)
    have h2 : ua % 2 < 2 := Nat.mod_lt _ (by norm_num)
    simp only [revBits, pow_succ]
    nlinarith [Nat.two_pow_pos w]

theorem revBits_testBit : ∀ w ua i, i < w → (revBits w ua).testBit (w - 1 - i) = ua.testBit i := by
  intro w; induction w with
  | zero => intro _ i h; omega
  | succ w ih =>
    intro ua i h
    have hlt := revBits_lt w (ua / 2)
    simp only [revBits]
    rw [Nat.mul_comm, Nat.testBit_two_pow_mul_add _ hlt]
    cases i with
    | zero => simp [Nat.testBit_zero]
    | succ i =>
      have h1 : w + 1 - 1 - (i + 1) < w := by omega
      rw [if_pos h1, show w + 1 - 1 - (i + 1) = w - 1 - i by omega, ih _ _ (by omega), Nat.testBit_succ]

theorem rolBits_testBit (w ua c i : Nat) (hw : 0 < w) (hu : ua < 2 ^ w) (hi : i < w) :
    (rolBits w ua c % 2 ^ w).testBit ((i + c) % w) = ua.testBit i := by
  have hc : c % w < w := Nat.mod_lt _ hw
  have e1 : (i + c) % w = (i + c % w) % w := by simp
  rw [e1]
  generalize hk : c % w = k at hc
  have hr : rolBits w ua c = ua * 2 ^ k % 2 ^ w + ua / 2 ^ (w - k) := by simp [rolBits, hk]
  have h1 : ua / 2 ^ (w - k) < 2 ^ k := by
    rw [Nat.div_lt_iff_lt_mul (Nat.two_pow_pos _), ← pow_add]
    rwa [show k + (w - k) = w by omega]
  have h2 : ua * 2 ^ k % 2 ^ w = 2 ^ k * (ua % 2 ^ (w - k)) := by
    rw [show (2:Nat) ^ w = 2 ^ (w - k) * 2 ^ k by rw [← pow_add]; congr 1; omega, Nat.mul_mod_mul_right, Nat.mul_comm]
  rw [Nat.testBit_mod_two_pow, hr, h2, Nat.testBit_two_pow_mul_add _ h1]
  by_cases hik : i + k < w
  · rw [Nat.mod_eq_of_lt hik, if_neg (by omega), Nat.testBit_mod_two_pow]
    simp only [hik, decide_true, Bool.true_and, Nat.add_sub_cancel, show i < w - k by omega]
  · have : (i + k) % w = i + k - w := by
      rw [Nat.mod_eq_sub_mod (by omega), Nat.mod_eq_of_lt (by omega)]
    rw [this, if_pos (by omega), Nat.testBit_div_two_pow]
    simp only [show i + k - w < w by omega, decide_true, Bool.true_and]
    congr 1; omega

theorem leNat_append (l r : List Byte) : leNat (l ++ r) = leNat l + 256 ^ l.length * leNat r := by
  induction l with
  | nil => simp [leNat]
  | cons b t ih => simp only [List.cons_append, leNat, ih, List.length_cons, pow_succ]; ring

theorem leNat_byte (l : List Byte) : ∀ i (h : i < l.length), leNat l / 256 ^ i % 256 = (l[i]).toNat := by
  induction l with
  | nil => intro i h; simp at h
  | cons b t ih =>
    intro i h
    have hb := b.isLt
    cases i with
    | zero => simp only [leNat, pow_zero, Nat.div_one, List.getElem_cons_zero]; omega
    | succ i =>
      simp only [leNat, List.getElem_cons_succ]
      rw [pow_succ', ← Nat.div_div_eq_div_mul, show (b.toNat + 256 * leNat t) / 256 = leNat t by omega]
      exact ih i (by simpa using h)

theorem leBytes_get : ∀ n v i (h : i < n), ((leBytes n v)[i]'(by simpa using h)).toNat = v / 256 ^ i % 256 := by
  intro n; induction n with
  | zero => intro v i h; omega
  | succ n ih =>
    intro v i h
    cases i with
    | zero => simp [leBytes]
    | succ i =>
      simp only [leBytes, List.getElem_cons_succ]
      rw [ih _ _ (by omega), pow_succ', Nat.div_div_eq_div_mul]

theorem swapBytes_byte (n ua i : Nat) (hi : i < n) : swapBytes n ua / 256 ^ (n - 1 - i) % 256 = ua / 256 ^ i % 256 := by
  unfold swapBytes
  rw [leNat_byte _ _ (by simp; omega), List.getElem_reverse]
  simp only [leBytes_length]
  rw [leBytes_get _ _ _ (by omega)]
  congr 3; omega

theorem leNat_lt (l : List Byte) : leNat l < 256 ^ l.length := by
  induction l with
  | nil => simp [leNat]
  | cons b t ih => simp only [leNat, List.length_cons, pow_succ]; have := b.isLt; omega

end Sys2Proof.Machine
end

