-- ==== Sys2Proof/Tests/Slice0.lean ====
section
/-!
SUPPORT. Tests/Slice0.lean: the model's own tests: ill-formed instructions that the checks refuse, words written out from the
spec's encodings, for every statement a state that meets its hypotheses clause by clause, and one-step tests whose results are
the spec's.
-/
namespace Sys2Proof.Tests
open Sys2Proof Sys2Proof.Machine

-- One theorem after the other: waiting side by side for the kernel, they would hold a thread's stack each.
set_option Elab.async false

/-! ## Small states -/

/-- Core 0, group 0, before the one word of a clause at offset 0 in a compute phase; 32 lanes, every register 0. -/
def ready : State := State.reset.withFetchWord 32 0x64000000

/-- Its clause. -/
def clause1 : Clause := placedClause placedSeg 1

/-- The same for a system task. -/
def sysReady : State := modPart ready 0 fun x => { x with launch := some { Launch.zero with system := true } }

/-- `ready` with its core changed. -/
def readyCore (f : Core → Core) : State := modCore ready 0 f

/-- `ready` with its group changed. -/
def readyGroup (f : Group → Group) : State := modGroup ready 0 0 f

/-- `ready` with lane 5 changed. -/
def readyLane (f : Lane → Lane) : State := readyGroup fun g => g.modLane 5 f

/-- The state after an instruction, `ready` where there is none. -/
def after (i : Instr) (s : State) : State :=
  match exec i s with
  | .next t => t
  | .fault _ => ready
  | .refused _ => ready

/-- Lane 5 of the group after an instruction. -/
def lane5 (i : Instr) (s : State) : Lane := (getGroup (after i s) 0 0).lane 5

/-- The three parts of `Issues` together. -/
theorem issues_of {m : WMeta} {s : State} {k : Clause}
    (h : atWord s = some k ∧ wordCause m (envOf s k) s = none ∧ stallOf m (envOf s k) s = false) : Issues m s k :=
  ⟨h.1, h.2.1, h.2.2⟩

/-- The three parts of `Stalls` together. -/
theorem stalls_of {m : WMeta} {s : State} {k : Clause}
    (h : atWord s = some k ∧ wordCause m (envOf s k) s = none ∧ stallOf m (envOf s k) s = true) : Stalls m s k :=
  ⟨h.1, h.2.1, h.2.2⟩

/-- A word that reads no `h`, is no privileged one and needs nothing of its own issues at `ready`. -/
theorem issues_ready (m : WMeta) (hp : m.priv = false) (hh : m.ops.contains .h = false)
    (hn : m.need (envOf ready clause1) ready = false) : Issues m ready clause1 := by
  have h1 : (envOf ready clause1).mode = none := by decide
  have h2 : (envOf ready clause1).ix = none := by decide
  have h3 : (envOf ready clause1).pol = none := by decide
  have h4 : ¬ (envOf ready clause1).idx < (envOf ready clause1).cl.len := by decide
  have h5 : ∀ f, ((envOf ready clause1).flag f).isNone = false := by intro f; cases f <;> decide
  have h6 : (partOf ready 0).st = .compute := by decide
  have h7 : ((getCore ready 0).group 0).synced = false := by decide
  have h8 : holdsBarrier (getCore ready 0) 0 = false := by decide
  have h9 : (envOf ready clause1).core = 0 := by decide
  have h10 : (envOf ready clause1).grp = 0 := by decide
  have h11 : ∀ rs a, (getGroup ready 0 0).pending rs a = false := fun rs a => rfl
  have h12 : ∀ f : Fin 12, (getGroup ready 0 0).flagFull f = false := by decide
  refine ⟨by decide, ?_, ?_⟩
  · simp only [wordCause, h1, h2, h3, h4, h9, h10, h6, h7, h8, hp, hh]
    cases hf : m.flag <;> cases hph : m.phase <;> simp [h5]
  · simp only [stallOf, h9, h10, h11, hn]
    cases m.flag.bind (envOf ready clause1).flag <;> simp [h12]

/-- A fact about the lanes of a mask holds when it holds of lanes 0 to 31. -/
theorem all_lanes {m : LaneMask} {p : Nat → Prop} (h : ∀ l < 32, bit m l = true → p l) : ∀ l, bit m l = true → p l := by
  intro l hl
  by_cases hlt : l < 32
  · exact h l hlt hl
  · simp [bit, BitVec.getLsbD_of_ge m l (by omega)] at hl

/-! ## Well-formedness: each check refuses a term -/

/-- R72: a clause holds 1 to 24 words. -/
theorem test_ill_formed_clause :
    (Instr.clause 0 0 none none false).wellFormed = false ∧ (Instr.clause 25 0 none none false).wellFormed = false ∧
    (Instr.clause 24 0 none none false).wellFormed = true := by decide

/-- R77: IXSRC names a register or z, neither lane nor h. -/
theorem test_ill_formed_index :
    (Instr.harith none none (some .lane)).wellFormed = false ∧ (Instr.harith none none (some .h)).wellFormed = false ∧
    (Instr.harith none none (some .z)).wellFormed = true := by decide

/-- R80: BSWAP takes no 8-bit type. -/
theorem test_ill_formed_bswap :
    (Instr.bswap (.w 1) .z .i8).wellFormed = false ∧ (Instr.bswap (.w 1) .z .n8).wellFormed = false := by decide

/-- R107: EXTW, TRUNC, PACK and UNPK take no 64-bit type. -/
theorem test_ill_formed_width :
    (Instr.extw (.w 1) .z .i64).wellFormed = false ∧ (Instr.trunc (.w 1) .z .z .n64).wellFormed = false ∧
    (Instr.pack (.w 1) .z .z .i64).wellFormed = false ∧ (Instr.unpk (.w 1) .z .n64).wellFormed = false := by decide

/-- R81: CVT converts neither between integer types nor a float type to itself. -/
theorem test_ill_formed_cvt :
    (Instr.cvt (.w 1) .z (.int .i8) (.int .i16)).wellFormed = false ∧
    (Instr.cvt (.w 1) .z (.flt .f32) (.flt .f32)).wellFormed = false := by decide

/-- R80: F64 is legal in the SFU only for RCP, SQRT and FDIV. -/
theorem test_ill_formed_sfu :
    (∀ i ∈ [Instr.rsq (.w 1) .z .f64 .a, .exp2 (.w 1) .z .f64 .a, .log2 (.w 1) .z .f64 .a, .sinpi (.w 1) .z .f64 .a,
      .cospi (.w 1) .z .f64 .a], i.wellFormed = false) ∧ (Instr.sqrt (.w 1) .z .f64 .a).wellFormed = true := by decide

/-! ## Decoding -/

set_option maxRecDepth 20000 in
/-- Words written out field by field from R68 to R85, one or more of every major of R79. -/
theorem test_decode_families :
    (decode 0b00000011000100000000001111110111).toOption = some (.clause 24 0x801 none (some 11) true) ∧
    (decode 0b00000100101010111100110111101111).toOption = some (.himm 0xABCDEF) ∧
    (decode 0b00001000000100001000001111100000).toOption = some (.add (.w 1) (.reg (.w 2)) (.reg (.w 3)) .n64) ∧
    (decode 0b00001010100111100111101010010100).toOption = some (.avg (.t 1) (.k 15) .z .n8) ∧
    (decode 0b00001110011111101110000000001110).toOption = some (.sari (.w 39) .lane 0x80 .i16) ∧
    (decode 0b00010000011100000011111111001101).toOption = some (.icmp 7 (.reg (.w 0)) .h .n32 .and .ge) ∧
    (decode 0b00010100001100010011111111010010).toOption = some (.icmpi 3 (.reg (.w 4)) 0xFF .i32 .lt) ∧
    (decode 0b00011000010100011000011110100111).toOption = some (.bfi (.w 5) (.reg (.w 6)) (.reg (.w 7)) .n16) ∧
    (decode 0b00011100010100011000011101110001).toOption = some (.rem (.w 5) (.reg (.w 6)) (.reg (.w 7)) .i64 .b) ∧
    (decode 0b00100000000100001000001100000001).toOption = some (.por 1 2 3) ∧
    (decode 0b00100000000000100100000000000101).toOption = some (.wtop (.reg (.w 9))) ∧
    (decode 0b00100100100000100100101001000111).toOption = some (.fcpys (.w 8) (.reg (.w 9)) (.reg (.w 10)) .f64) ∧
    (decode 0b00101000100000100100101000000011).toOption = some (.fnms (.w 8) (.reg (.w 9)) (.reg (.w 10)) .f16) ∧
    (decode 0b00101100011000100100101000110111).toOption = some (.fcmp 6 (.reg (.w 9)) (.reg (.w 10)) .f32 .or .ord) ∧
    (decode 0b00110000001100001000000001001011).toOption = some (.cvt (.w 3) (.reg (.w 2)) (.flt .f64) (.int .n16)) ∧
    (decode 0b00110000001100001000000111111000).toOption = some (.srq (.w 3) (.reg (.w 2)) (.reg (.w 1)) (.int .n64) .f32) ∧
    (decode 0b00110100110000110100111001010011).toOption = some (.fdiv (.w 12) (.reg (.w 13)) (.reg (.w 14)) .f64 .b) ∧
    (decode 0b00111000100000100100101000000101).toOption = some (.dotI16 (.w 8) (.reg (.w 9)) (.reg (.w 10))) ∧
    (decode 0b01000000010000010111111111101110).toOption = some (.ld (.w 4) (.reg (.w 5)) 0xFF 2 .b .i32) ∧
    (decode 0b01000111101000010100000001010010).toOption = some (.st .z (.reg (.w 5)) 1 1 .b32) ∧
    (decode 0b01001000010000010100011000000000).toOption = some (.ldx (.w 4) (.reg (.w 5)) (.reg (.w 6)) 0 .a .n8) ∧
    (decode 0b01001100010000010100011000110001).toOption = some (.stx (.reg (.w 4)) (.reg (.w 5)) (.reg (.w 6)) 3 .b16) ∧
    (decode 0b01010000010000010100011001010111).toOption = some (.acas (.w 4) (.reg (.w 5)) (.reg (.w 6)) .i32 2) ∧
    (decode 0b01010100010000010100000000001100).toOption = some (.lscanFmax (.w 4) (.reg (.w 5)) .f16) ∧
    (decode 0b01010100010000010100000000011100).toOption = some (.lpopc (.w 4) 5) ∧
    (decode 0b01011000111100001000000000000010).toOption = some (.barv 15 (.reg (.w 2))) ∧
    (decode 0b01011101110011111111111111111110).toOption = some (.brNone 4 0xFFFFE) ∧
    (decode 0b01100000000100001000000000000001).toOption = some (.callr (.w 1) (.reg (.w 2))) ∧
    (decode 0b01100100000000000001011010000001).toOption = some (.trap 0x5A) ∧
    (decode 0b01100100001000000000010101000111).toOption = some (.srd (.w 2) (.seg 1)) ∧
    (decode 0b01100100000000011100000011001010).toOption = some (.segld (.reg (.w 7)) 3) ∧
    (decode 0b01101000000100001000001111101000).toOption = some (.xredXor (.reg (.w 1)) (.reg (.w 2)) (.reg (.w 3)) false) ∧
    (decode 0b01101100000100001000000000001100).toOption = some (.mconvN16 (.w 1) (.reg (.w 2))) ∧
    (decode 0b01110000011100001000001100000001).toOption = some (.aemit 7 (.reg (.w 2)) (.reg (.w 3))) := by
  decide +kernel

set_option maxRecDepth 20000 in
/-- Words that R72 to R86 call illegal: clause of no word, clause of 25 words, flag 12, major 0x0F, major 0x1D, IALU minor 23, BSWAP.I8, operand code 60, k0 as destination, ABS with b, ICMP combine 3, predicate 8, EXTW.N64, IDIV member 2, F type 3, CVT F32 to F32, FCVT minor 26, RSQ.F64, DOT minor 7, LD size 7, ST size 4, LDX with bit 6, ATOM segment 3, LANE minor 3, BR kind 6, JMP with a predicate, JR minor 3, selector 0x19, KSET into w1, SEGLD 4, SYS minor 12, XRED.MADD.I64, MDRAIN type 4, WIT minor 4, HARITH index lane. -/
theorem test_decode_refuses :
    (decode 0b00000000000000000000000111111110).toBool = false ∧
    (decode 0b00000011001000000000000111111110).toBool = false ∧
    (decode 0b00000000001000000000000110011110).toBool = false ∧
    (decode 0b00111100000000000000000000000000).toBool = false ∧
    (decode 0b01110100000000000000000000000000).toBool = false ∧
    (decode 0b00001000000100001000001100010111).toBool = false ∧
    (decode 0b00001000000100001000000000010110).toBool = false ∧
    (decode 0b00001000000111110000001100000000).toBool = false ∧
    (decode 0b00001010101000001000001100000000).toBool = false ∧
    (decode 0b00001000000100001000001100000110).toBool = false ∧
    (decode 0b00010000000100001000001100011000).toBool = false ∧
    (decode 0b00010000100000001000001100000000).toBool = false ∧
    (decode 0b00011000000100001000000011100010).toBool = false ∧
    (decode 0b00011100000100001000001100000010).toBool = false ∧
    (decode 0b00100100000100001000001101100000).toBool = false ∧
    (decode 0b00110000000100001000000000100001).toBool = false ∧
    (decode 0b00110000000100001000001100011010).toBool = false ∧
    (decode 0b00110100000100001000000001000001).toBool = false ∧
    (decode 0b00111000000100001000001100000111).toBool = false ∧
    (decode 0b01000000000100001000000000000111).toBool = false ∧
    (decode 0b01000100000100001000000000000100).toBool = false ∧
    (decode 0b01001000000100001000000001000000).toBool = false ∧
    (decode 0b01010000000100001000001100011000).toBool = false ∧
    (decode 0b01010100000100001000001100000011).toBool = false ∧
    (decode 0b01011111000000000000000000000000).toBool = false ∧
    (decode 0b01011110000100000000000000000000).toBool = false ∧
    (decode 0b01100000000000001000000000000011).toBool = false ∧
    (decode 0b01100100001000000000011001000111).toBool = false ∧
    (decode 0b01100100000100001000000000001001).toBool = false ∧
    (decode 0b01100100000000011100000100001010).toBool = false ∧
    (decode 0b01100100000000000000000000001100).toBool = false ∧
    (decode 0b01101000000100001000001101101001).toBool = false ∧
    (decode 0b01101100000100001000000010001101).toBool = false ∧
    (decode 0b01110000000000000000000000000100).toBool = false ∧
    (decode 0b00000110000000011110110000000000).toBool = false := by
  decide

/-- Words of the spec's own listings beyond those of DecodeWords. -/
theorem test_decode_listings :
    (decode 0x181A8000).toOption = some (.mov (.w 1) (.k 0)) ∧ (decode 0x5E800004).toOption = some (.call 4) ∧
    (decode 0x1C3042E1).toOption = some (.rem (.w 3) (.reg (.w 1)) (.reg (.w 2)) .n64 .a) ∧ (decode 0x5C8FFFFA).toOption = some (.brAny 0 0xFFFFA) ∧
    (decode 0x60000002).toOption = some .ret ∧ (decode 0x64000003).toOption = some .halt := by
  decide +kernel

/-! ## One step, with the spec's results -/

/-- Word 32-bit results of lane 5 where w5, w6 and the rest hold values. -/
def with5 (l : List (Nat × Word)) : State := readyLane fun x => { x with w := l }

/-- A register of lane 5. -/
def w5 (i : Instr) (s : State) (n : Nat) : Word := spGet 0 (lane5 i s).w n

/-- The example of R39: ADD.I8 wraps, ADDS.I8 saturates. -/
theorem test_add_wraps :
    w5 (.add (.w 4) (.reg (.w 5)) (.reg (.w 5)) .i8) (with5 [(5, 0x01020304FFFEFD80)]) 4 = 0x02040608FEFCFA00 ∧
    w5 (.adds (.w 4) (.reg (.w 5)) (.reg (.w 5)) .i8) (with5 [(5, 0x01020304FFFEFD80)]) 4 = 0x02040608FEFCFA80 := by decide +kernel

/-- R104 gives a shift by w or more: SHL leaves 0, SAR the sign. -/
theorem test_shift_by_width :
    w5 (.shli (.w 4) (.reg (.w 5)) 9 .i8) (with5 [(5, 0x80FF)]) 4 = 0 ∧
    w5 (.sari (.w 4) (.reg (.w 5)) 9 .i8) (with5 [(5, 0x80FF)]) 4 = 0xFFFF := by decide +kernel

/-- The example of R129: the product 1 + 2^-11 + 2^-24 is not rounded before the sum. -/
theorem test_fma_exact :
    let s := with5 [(4, 0xBF800000), (5, 0x3F800800), (6, 0x3F800800)]
    w5 (.fma (.w 4) (.reg (.w 5)) (.reg (.w 6)) .f32) s 4 = 0x3A000400 ∧
    (lane5 (.fma (.w 4) (.reg (.w 5)) (.reg (.w 6)) .f32) s).fstat = 0 := by decide +kernel

/-- The example of R133: CVT.F16.F32 of 1.0 and 100,000 overflows to infinity, with OF and NX. -/
theorem test_cvt_overflow :
    let s := with5 [(2, 0x47C350003F800000)]
    w5 (.cvt (.w 3) (.reg (.w 2)) (.flt .f16) (.flt .f32)) s 3 = 0x7C003C00 := by decide +kernel

/-- The example of R164: DOT.I8, DOT.N8 and DOT.IN8. -/
theorem test_dot :
    let s := with5 [(4, 0x00000064FFFFFFFF), (5, 0x08070605FC03FE01), (6, 0x02020202FFFFFFFF)]
    w5 (.dotI8 (.w 4) (.reg (.w 5)) (.reg (.w 6))) s 4 = 0x0000009800000001 ∧
    w5 (.dotN8 (.w 4) (.reg (.w 5)) (.reg (.w 6))) s 4 = 0x000000980001FC01 ∧
    w5 (.dotIn8 (.w 4) (.reg (.w 5)) (.reg (.w 6))) s 4 = 0x00000098FFFFFE01 := by decide +kernel

set_option maxRecDepth 20000 in
/-- The example of R159: LROT.I32 by 1 in every lane; lane 5's high half gets lane 6's low half. -/
theorem test_lrot :
    let s := readyGroup fun g => { g.modLanes 0xFFFFFFFF fun x => { x with w := [(3, 1)] } with
      lanes := (g.modLanes 0xFFFFFFFF fun x => x).lanes.map fun e => (e.1, { e.2 with w := [(2, wd (e.1 * 2 ^ 32 + e.1 + 100)), (3, 1)] }) }
    w5 (.lrot (.w 4) (.reg (.w 2)) (.reg (.w 3)) .i32) s 4 = wd (106 * 2 ^ 32 + 5) := by decide +kernel

/-- The table of R109, N8 200 by 0 and I8 -7 by 2 among its rows, at completion. -/
theorem test_division :
    let done := fun (i : Instr) (a b : Word) =>
      let t := after i (modGroup (with5 [(6, a), (7, b)]) 0 0 fun g => { g with c0 := some { clause1 with mask := 0x20 } })
      spGet 0 (lane5 (.idivCompletion 0 0 0 0) t).w 5
    done (.div (.w 5) (.reg (.w 6)) (.reg (.w 7)) .i8 .b) 0x05C88007F9 0x0000FFFE02 = 0xFFFFFFFFFF80FDFD ∧
    done (.rem (.w 5) (.reg (.w 6)) (.reg (.w 7)) .i8 .b) 0x05C88007F9 0x0000FFFE02 = 0x05C80001FF := by decide +kernel

set_option maxRecDepth 20000 in
/-- The example of R168: the doubleword at 0x40 goes from 10 to 20, the lanes get 10, 11, 13 and 16. -/
theorem test_aadd :
    let s := readyCore fun c => { c with
      spad := memStore c.spad 0x40 8 10
      groups := spSet c.groups 0 { c.group 0 with
        seg := spSet (c.group 0).seg 1 0x0000000204000000, c0 := some { clause1 with mask := 0xF }
        lanes := (c.group 0).lanes.map fun e => (e.1, { e.2 with w := [(5, 0x40), (6, wd (e.1 + 1))] }) } }
    let t := after (.aadd (.w 4) (.reg (.w 5)) (.reg (.w 6)) .i64 1) s
    memRead (getCore t 0).spad 0x40 8 = 20 ∧
    (List.range 4).map (fun l => (spGet 0 ((getGroup t 0 0).lane l).w 4).toNat) = [10, 11, 13, 16] := by decide +kernel

set_option maxRecDepth 20000 in
/-- The example of R180: string 7 of die 2 with means of 2,700, 2,650, 2,300 and 2,700 mA. -/
theorem test_strimb :
    let s := modGran ready fun g => { g with present := 0x7FF }
    (getStr (after (.strimbUpdate 2 7 2700 2650 2300 2700) s) (32 * 2 + 7)).strimb = 0x0000FE70015E0032 := by decide +kernel

/-- R189: from 1,900 MHz a drop gives 1,425, from 575 the least, 475 MHz. -/
theorem test_thermal_drops : lowerFreq 1900 = 1425 ∧ lowerFreq 575 = 475 := by decide

/-- R83: a JMP by -1 from offset 4 goes to offset 0. -/
theorem test_jump :
    (lane5 (.jmp 0xFFFFF) ready).npc = some 0 := by decide +kernel

/-! ## Witnesses: instruction words

For each statement, states and operands that meet the hypotheses of its clauses. A statement whose only hypothesis is that the
word issues has `issues_ready` as its witness, at every operand but `h`. -/

/-- IaluResults, ComparesAndPredicates, FloatResults, ExactFloatsAndDots, ShufflesAndScans, FloatScanResults and the words of
MoveResults, LongLatencyIssue and BranchesAndJumps that need no more. -/
theorem holds_words (d : Reg) (r : Reg) (f : FlagSel) :
    Issues { ops := [.reg r, .lane], dst := [d] } ready clause1 ∧ Issues { ops := [.reg r], dst := [d] } ready clause1 ∧
    Issues { dst := [d] } ready clause1 ∧ Issues {} ready clause1 ∧ Issues { ctl := true } ready clause1 ∧
    Issues { ops := [.reg d, .reg r, .lane], dst := [d], accMode := true, accPol := true } ready clause1 ∧
    Issues { ops := [.reg r], dst := [d], flag := some f, accMode := true, accPol := true } ready clause1 ∧
    IntTy.wide .i32 = false := by
  refine ⟨?_, ?_, ?_, ?_, ?_, ?_, ?_, rfl⟩ <;> exact issues_ready _ rfl (by simp) rfl

/-- A rounding word after the hint of R90, which carries a mode, a policy and an index source. -/
theorem holds_hinted :
    let k := { clause1 with len := 2, nxt := 2, run := [.harith (some .rs) (some .trap) (some .lane)] }
    Issues { ops := [.reg (.w 1)], dst := [.w 2], accMode := true, accPol := true }
      (readyGroup fun g => { g with c0 := some k }) k := by
  exact issues_of (by decide)

/-- DivisionIssue: no lane has DZTRAP, though every divisor is zero; and no divisor is zero, though every lane has it. -/
theorem holds_division :
    let m : WMeta := { ops := [.lane, .lane], dst := [.w 1], flag := some .b }
    let s' := readyGroup fun g => g.modLanes 0xFFFFFFFF fun x => { x with fstat := 0x10000, w := [(2, 0x0101010101010101)] }
    let m' : WMeta := { ops := [.lane, .reg (.w 2)], dst := [.w 1], flag := some .a }
    Issues m ready clause1 ∧
    (∀ l, bit (envOf ready clause1).act l = true → bit ((envOf ready clause1).lane (atEffect ready clause1) l).fstat 16 = false) ∧
    Issues m' s' clause1 ∧
    (∀ l, bit (envOf s' clause1).act l = true →
      ((List.range 8).any fun j => decide (subVal ((envOf s' clause1).src (atEffect s' clause1) l (.reg (.w 2))) .i8 j = 0))
        = false) ∧
    (envOf ready clause1).act ≠ 0 ∧ (envOf s' clause1).act ≠ 0 := by
  refine ⟨issues_of (by decide), all_lanes (by decide), issues_of (by decide), all_lanes (by decide), by decide⟩

/-- A group whose SEG1 is read-write, 16 bytes from the start of the scratchpad. -/
def withSeg1 : State := readyGroup fun g => { g with seg := spSet g.seg 1 0x0000000200010000 }

/-- LoadIssue, StoreResults and AtomicResults: the last access that fits into SEG1, in every lane. -/
theorem holds_memory :
    let m : WMeta := { ops := [.z], dst := [.w 1], flag := some .a, phase := .restricted }
    let e := envOf withSeg1 clause1
    let b := atEffect withSeg1 clause1
    Issues m withSeg1 clause1 ∧ Issues { ops := [.lane, .z], phase := .restricted } withSeg1 clause1 ∧
    Issues { ops := [.k 1, .lane], dst := [.w 1], phase := .restricted } withSeg1 clause1 ∧
    (∀ l, bit e.act l = true → ((e.src b l .z) + wd (1 * 8)).toNat + 8 ≤ segLimit (e.segVal b 1) ∧
      8 ∣ ((e.src b l .z) + wd (1 * 8)).toNat) ∧
    e.act ≠ 0 ∧ segKind (e.segVal b 1) = 2 := by
  refine ⟨issues_of (by decide), issues_of (by decide), issues_of (by decide), all_lanes (by decide), by decide⟩

/-- A clause of two words whose header stands in the scratchpad, for all lanes but lanes 0 and 1. -/
def joinClause : Clause := { clause1 with hdr := 0, len := 2, mask := 0xFFFFFFFC }

/-- `ready` with that clause, and lane 0 held at its first word with a union. -/
def joining (union : LaneMask) : State :=
  let s := modCore ready 0 fun x => { x with spad := memStore x.spad 0 4 0x004001FE }
  modGroup s 0 0 fun g =>
    { g.modLane 0 (fun l => { l with cond := .held, pc := 4 }) with
      c0 := some joinClause, joins := [{ pos := 4, held := 1, union := union, hdr := 0, seg3 := clause1.seg3, stay := false }] }

set_option maxRecDepth 8000 in
/-- JoinHolds: a later arrival at a word where lane 0 is held. -/
theorem holds_late_joins :
    let c := joinClause
    let s := joining 0xFFFFFFFF
    let e := envOf s c
    let b := atEffect s c
    let g := getGroup b 0 0
    (atWord s = some c ∧ wordCause { ops := [.z] } e s = none ∧ stallOf { ops := [.z] } e s = false) ∧
    (∀ p ∈ g.lanes, p.2.fault = none) ∧ e.act = 0xFFFFFFFC ∧ e.idx < e.cl.len ∧ e.cl.len ≤ 24 ∧ g.lanectl = [] ∧
    spadRead b 0 (fld e.cl.seg3 15 0 * 16 + e.cl.hdr.toNat) 4 / 2 ^ 21 % 32 = e.cl.len ∧ e.pc = 4 ∧ (e.lane b 0).cond = .held ∧
    Lowest e 2 ∧ (e.src b 2 .z) = 0 := by
  refine ⟨by decide, by decide, by decide, by decide, by decide, by decide, by decide, by decide, by decide, ⟨by decide, by decide⟩, by decide⟩

set_option maxRecDepth 8000 in
/-- JoinHolds: its mask is complete with lane 0 held and the others arriving, or lacks lane 1. -/
theorem holds_late_masks :
    let lacks := fun (u : LaneMask) =>
      let g := getGroup (atEffect (joining u) joinClause) 0 0
      (u ||| 0) &&& ~~~((1 : LaneMask) ||| 0xFFFFFFFC) &&& ~~~(g.lanesWhere fun x => decide (x.cond = .halted) || decide (x.cond = .parked))
    lacks 0xFFFFFFFD = 0 ∧ lacks 0xFFFFFFFF = 2 := by
  decide

/-- RegisterJumps: no lane held at an LJOIN; targets that are, in turn, misaligned, beyond the code, and the last word. -/
theorem holds_jumps :
    let m : WMeta := { ops := [.lane], dst := [.w 1], ctl := true }
    let e := envOf ready clause1
    let cause := fun (v : Word) => if v.toNat % 4 ≠ 0 then some (0x04 : Byte) else if 2 ^ 20 ≤ v.toNat then some 0x03 else none
    Issues m ready clause1 ∧ NoJoins e (atEffect ready clause1) ∧
    (∀ l, bit e.act l = true → cause (e.src (atEffect ready clause1) l .z) = none) ∧
    cause 1 = some 4 ∧ cause 0x100000 = some 3 ∧ cause 0xFFFFC = none := by
  refine ⟨issues_of (by decide), by unfold NoJoins; decide, all_lanes (by decide), by decide⟩

/-- SystemWords, HaltAndSync and SpecialRegisters: a valid segment in a system task, a power declaration, a handler, queues, a
group without unreported faults, and one that has nothing outstanding. -/
theorem holds_system :
    let e := envOf sysReady clause1
    let b := atEffect sysReady clause1
    let n := 0x0001000200000000
    Issues { ops := [.z], priv := true, phase := .restricted } sysReady clause1 ∧ Lowest e 0 ∧
    Issues { phase := .sync } ready clause1 ∧ Issues { ctl := true, phase := .halt, need := drainNeed true } ready clause1 ∧
    Issues { ops := [.z], need := drainNeed false } ready clause1 ∧
    (∀ sel, Issues { dst := [.w 1], need := fstatNeed sel } ready clause1) ∧
    (∀ l, bit e.act l = true → (e.src b l (.reg (.w 1))) &&& 0xFFFFFFFFFFFEFFC0 = 0) ∧
    segsOk (fun j => if j = 2 then e.src b 0 .z else e.segVal b j) = true ∧
    (e.src b 0 .z).toNat < 2 ^ 48 ∧ (0xFFFFC : Word).toNat < 2 ^ 20 ∧ (0xFFFFC : Word).toNat % 4 = 0 ∧
    queueOk (e.codeSegs b) [(e.scoped b).xq, (e.scoped b).noteq] false (e.src b 0 .z) = true ∧
    queueOk [] [0, 0] true n = true ∧ qwDepth n = 2 ∧ queueBusy (getCore b e.core) (e.scoped b).xq = false ∧
    (getGroup ready 0 0).unreported = 0 := by
  refine ⟨issues_of (by decide), ⟨by decide, by decide⟩, issues_of (by decide), issues_of (by decide), issues_of (by decide),
    fun sel => issues_ready _ rfl (by simp) (by cases sel <;> rfl), all_lanes (by decide), by decide⟩

/-- A word of the second port in the cycle of a primary one: it reads the queue word of before that word (R148). -/
theorem test_scope_queue :
    let k := { clause1 with hdr := 0x100, mask := 0xFF }
    let s := readyCore fun x => { x with
      xq := 0x0001000300000100, groups := spSet x.groups 0 { x.group 0 with c1 := some k } }
    let t := (atEffect s clause1)
    let t := modCore { t with cur := { t.cur with second := true } } 0 fun x => { x with xq := 0 }
    spGet 0 ((getGroup (after (.srd (.w 1) .xq) t) 0 0).lane 5).w 1 = 0x0001000300000100 := by decide +kernel

/-- A core with an exchange queue of three entries at 0x1000, a gate value, and in lanes 5, 6 and 7 of w1 to w4 the operands of
three transfers: global, to another core under the gate, and to another device. -/
def withXq : State :=
  let regs := fun (l : List (Nat × Word)) (x : Lane) => { x with w := l }
  let s := modCore sysReady 0 fun x => { x with xq := 0x0001000300000100, exch := { x.exch with gate := some 7 } }
  modGroup s 0 0 fun g =>
    ((g.modLane 5 (regs [(1, 16), (2, 0xBFFF0), (3, 0x20)])).modLane 6
      (regs [(1, 0x6000000000000010), (2, 0xBFFF0), (3, 1), (4, 0xBFFF0)])).modLane 7
      (regs [(1, 0x8000000000000010), (2, 0xBFFF0), (3, 0xFFFFFFFFFFFF), (4, 0x3FFFFFFFFFF0)])

/-- SoftwareTraps: HFLT clear in every lane, set in one, set in all; policy PARK and HANDLE; room in the log and, for an event, in
the queue; an exchange word whose queue has room, and one whose queue has none. -/
theorem holds_traps :
    let hflt := fun (m : LaneMask) => readyGroup fun g => g.modLanes m fun x => { x with hflt := true }
    let handles := modDie (modPart ready 0 fun x => { x with launch := some { Launch.zero with handle := true } }) 0 fun x =>
      { x with evqCtl := 0x0000000100000000 }
    let lanes := fun (s : State) (v : Bool) =>
      maskOf 32 ((envOf s clause1).lanes.filter fun l => decide (((envOf s clause1).lane (atEffect s clause1) l).hflt = v))
    (∀ s ∈ [ready, hflt 0x20, hflt 0xFFFFFFFF, handles],
      let b := atEffect s clause1
      let e := envOf s clause1
      (atWord s = some clause1 ∧ wordCause { ctl := true } e s = none ∧ stallOf { ctl := true } e s = false) ∧
      (getGroup b e.core e.grp).joins = [] ∧ e.act ≠ 0 ∧ (getDie b (dieOf e.core)).transition = false ∧
      ((getCore b e.core).flog.tail - (getCore b e.core).flog.head).toNat < 15 ∧
      ((getGroup b e.core e.grp).lanes.map (·.1)).Nodup) ∧
    (lanes ready false ≠ 0 ∧ lanes ready true = 0) ∧ (lanes (hflt 0x20) false ≠ 0 ∧ lanes (hflt 0x20) true ≠ 0) ∧
    lanes (hflt 0xFFFFFFFF) false = 0 ∧ (launchOf ready 0).handle = false ∧ (launchOf handles 0).handle = true ∧
    (let die := getDie (atEffect handles clause1) 0
     qCount die.mcMem (fld die.evqCtl 31 0) (qwDepth die.evqCtl) < qwDepth die.evqCtl) ∧
    qCount (getCore withXq 0).spad (qwBase (getCore withXq 0).xq) (qwDepth (getCore withXq 0).xq) < qwDepth (getCore withXq 0).xq ∧
    qwDepth (getCore ready 0).xq = 0 := by
  decide +kernel

/-- ExchangePosting (XST): a queue that the three transfers fill, each at the end of its range. -/
theorem holds_posting :
    let m : WMeta := { ops := [.reg (.w 2), .reg (.w 3), .reg (.w 1), .reg (.w 4)], phase := .restricted }
    let e := envOf withXq clause1
    let s := atEffect withXq clause1
    let co := getCore s 0
    let lanes := e.lanes.filter fun l => decide ((e.src s l (.reg (.w 1))).toNat % 2 ^ 32 ≠ 0)
    Issues m withXq clause1 ∧ lanes = [5, 6, 7] ∧
    qCount co.spad (qwBase co.xq) (qwDepth co.xq) + lanes.length ≤ qwDepth co.xq ∧
    co.exch.xpend + sumOf (lanes.map fun l => (e.src s l (.reg (.w 1))).toNat % 2 ^ 32) < 2 ^ 32 ∧
    ∀ l ∈ lanes,
      let ctl := (e.src s l (.reg (.w 1))).toNat
      let x := (e.src s l (.reg (.w 2))).toNat
      let y := (e.src s l (.reg (.w 3))).toNat
      let y2 := (e.src s l (.reg (.w 4))).toNat
      ctl / 2 ^ 54 % 2 ^ 7 = 0 ∧ ctl / 2 ^ 32 % 2 ^ 16 = 0 ∧ ctl / 2 ^ 48 % 64 = 0 ∧
      (bit (e.src s l (.reg (.w 1))) 61 = true → co.exch.gate ≠ none) ∧ 16 ∣ ctl % 2 ^ 32 ∧ 16 ∣ x ∧
      x + ctl % 2 ^ 32 ≤ 0xC0000 ∧
      (ctl / 2 ^ 62 = 0 ∧ 16 ∣ y ∨ ctl / 2 ^ 62 = 1 ∧ 16 ∣ y2 ∧ y2 + ctl % 2 ^ 32 ≤ 0xC0000 ∨
        ctl / 2 ^ 62 = 2 ∧ y < 2 ^ 48 ∧ 16 ∣ y2 % 2 ^ 46) := by
  exact ⟨issues_of (by decide), by decide⟩

/-- ExchangeCommands: room in the queue, the greatest value each command takes, with one table entry for TOPEN. -/
theorem holds_commands :
    let s := { withXq with ttCtl := 0x0000001000000000 }
    let m : WMeta := { ops := [.z], priv := true, phase := .restricted }
    let e := envOf s clause1
    let b := atEffect s clause1
    Issues m s clause1 ∧ Issues { ops := [.z], phase := .restricted } s clause1 ∧ Lowest e 0 ∧
    qCount (getCore b 0).spad (qwBase (getCore b 0).xq) (qwDepth (getCore b 0).xq) < qwDepth (getCore b 0).xq ∧
    0x100FF < 2 ^ 17 ∧ 0x100FF / 2 ^ 8 % 2 ^ 8 = 0 ∧ (e.src b 0 .z).toNat < 2 ^ 20 ∧ (e.src b 0 .z).toNat < ttCount b ∧
    queueOk (e.codeSegs b) [(e.scoped b).alogq, (e.scoped b).noteq] true (e.src b 0 .z) = true := by
  exact ⟨issues_of (by decide), issues_of (by decide), ⟨by decide, by decide⟩, by decide⟩

/-- JoinHolds: LJOIN in a clause whose header stands in the scratchpad, with no lane held. -/
theorem holds_joins :
    let c := { clause1 with hdr := 0 }
    let s := modCore ready 0 fun x => { x with spad := memStore x.spad 0 4 0x002001FE }
    let e := envOf s c
    let b := atEffect s c
    let g := getGroup b 0 0
    Issues { ops := [.lane] } s c ∧ NoJoins e b ∧ (∀ p ∈ g.lanes, ∀ f, p.2.fault = some f → f.handler = false) ∧
    e.act ≠ 0 ∧ e.cl.len ≤ 24 ∧ g.lanectl = [] ∧
    spadRead b 0 (fld e.cl.seg3 15 0 * 16 + e.cl.hdr.toNat) 4 / 2 ^ 21 % 32 = e.cl.len := by
  refine ⟨issues_of (by decide), by unfold NoJoins; decide, fun p hp f hf => ?_, by decide⟩
  have h : ∀ p ∈ (getGroup (atEffect (modCore ready 0 fun x => { x with spad := memStore x.spad 0 4 0x002001FE })
    { clause1 with hdr := 0 }) 0 0).lanes, p.2.fault = none := by decide
  rw [h p hp] at hf
  cases hf

/-- BarrierArrival: a barrier that this group would open, and one whose round it would end. -/
theorem holds_barriers :
    let s := readyCore fun x => { x with ngroups := 2, bars := [(3, { count := 2, arrived := 2 })] }
    let e := envOf s clause1
    let x := getCore (atEffect s clause1) 0
    Issues { ops := [.lane], phase := .restricted } s clause1 ∧ Lowest e 0 ∧
    e.grp < 8 ∧ (spFind x.bars 3).map (·.count) = some 2 ∧ spFind x.bars 4 = none ∧ 2 ≤ x.ngroups := by
  exact ⟨issues_of (by decide), ⟨by decide, by decide⟩, by decide⟩

/-- An open context of kind 2. -/
def ctx2 : AssayCtx :=
  { num := 1, uid := 4, kind := 2, func := 0, opid := 9, refs := 0, phase := 0, ready := true, closing := false
    fixedr := false, incomplete := false, engerr := false, alpha := 0, beta := 0, nops := 0, items := [], x := 0, y := 0 }

/-- Three matrix operations of the past, room in both queues, an open context of kind 2, parameter blocks at the last places. -/
def engineReady : State :=
  let s := readyCore fun x => { x with
    spad := memStore (memStore x.spad 0xBFFD0 4 0x00000200) 0xBFFD4 4 9
    eng := { x.eng with issued := 3, queue := [] }, asy := { x.asy with ctxs := [ctx2], issued := 2, atl := 1 } }
  modGroup s 0 0 fun g => g.modLanes 0xFFFFFFFF fun x => { x with w := [(1, 0xBFFB0), (2, 0xBFFD0)] }

/-- MatrixIssue and TimelineWaits. -/
theorem holds_engine :
    let e := envOf engineReady clause1
    let b := atEffect engineReady clause1
    let eng := (getCore b 0).eng
    Issues { ops := [.reg (.w 1)], dst := [.w 3], phase := .restricted, need := matNeed (blockOk (.reg (.w 1)) 80) }
      engineReady clause1 ∧
    Issues { ops := [.reg (.w 1)], dst := [.w 3], phase := .restricted } engineReady clause1 ∧ Lowest e 0 ∧
    (e.src b 0 (.reg (.w 1))).toNat + 80 ≤ 0xC0000 ∧ 16 ∣ (e.src b 0 (.reg (.w 1))).toNat ∧
    (e.src b 0 .z).toNat ≤ eng.issued ∧ eng.mtl < 3 ∧ 3 ≤ eng.issued ∧ (e.src b 0 .z).toNat < 4 ∧
    2 ≤ (getCore b 0).asy.issued ∧ (getCore b 0).asy.atl < 2 := by
  exact ⟨issues_of (by decide), issues_of (by decide), ⟨by decide, by decide⟩, by decide⟩

/-- WitnessCommands: a parameter block for a free number, and the open context. -/
theorem holds_contexts :
    let e := envOf engineReady clause1
    let b := atEffect engineReady clause1
    let asy := (getCore b 0).asy
    let v := (e.src b 0 (.reg (.w 2))).toNat
    let f := fun (o n : Nat) => memRead (getCore b 0).spad (v + o) n
    Issues { ops := [.reg (.w 2)], dst := [.w 3], phase := .restricted, need := asyNeed (awitOk (.reg (.w 2))) }
      engineReady clause1 ∧
    Issues { ops := [.reg (.w 1), .z], phase := .restricted, need := asyNeed (aemitOk 1 .z) } engineReady clause1 ∧
    Issues { dst := [.w 3], phase := .restricted, need := asyNeed fun e s => ((getCore s e.core).asy.openCtx 1).isSome }
      engineReady clause1 ∧ Lowest e 0 ∧ NoJoins e b ∧
    v + 48 ≤ 0xC0000 ∧ 16 ∣ v ∧ f 0 1 < 8 ∧ f 1 1 = 2 ∧ f 2 1 = 0 ∧ f 3 1 = 0 ∧ f 0xE 2 = 0 ∧ f 0x1A 2 = 0 ∧ f 0x26 2 = 0 ∧
    f 0x2C 4 = 0 ∧ (∀ k ∈ asy.ctxs, k.num ≠ f 0 1) ∧ (asy.openCtx 1).map (·.kind) = some 2 := by
  exact ⟨issues_of (by decide), issues_of (by decide), issues_of (by decide), ⟨by decide, by decide⟩,
    by unfold NoJoins; decide, by decide⟩

/-- RefusedWords, words that stall: a group with a pending w1, 63 instructions under flag 3, and full queues. -/
theorem holds_stalls :
    let o : LongOp := { kind := .load, dst := .w 1, mask := 0xF, vals := [], fst := [], flag := 3, recs := [], drop := 0 }
    let k : Clause := { clause1 with fla := some 3 }
    let s := readyGroup fun g => { g with c0 := some k, out := [o], flags := [(3, 63)] }
    let g := getGroup s 0 0
    let act := (envOf s k).act
    let op : MatOp :=
      { num := 1, minor := 0, drain := .raw, block := 0, grp := 0, lane := 0, pc := 0, clause := 0, phase := 0, time := 0
        mode := .rne, pol := .inf, ebase := 0, ctxs := [], opened := [] }
    let s4 := modCore engineReady 0 fun x =>
      { x with eng := { x.eng with queue := List.replicate 4 op }, asy := { x.asy with queue := List.replicate 8 (.awit 4) } }
    Stalls { ops := [.reg (.w 1), .z], dst := [.w 2] } s k ∧
    Stalls { ops := [.z], dst := [.w 3], flag := some .a, phase := .restricted } s k ∧
    Stalls { ops := [.reg (.w 1)], dst := [.w 3], phase := .restricted, need := matNeed (blockOk (.reg (.w 1)) 80) } s4 clause1 ∧
    Stalls { dst := [.w 3], phase := .restricted, need := asyNeed fun e s => ((getCore s e.core).asy.openCtx 1).isSome } s4
      clause1 ∧
    Stalls { ctl := true, phase := .halt, need := drainNeed true } s k ∧
    (∃ o ∈ g.out, ∃ r ∈ [Reg.w 1, .w 2], o.pends r act = true) ∧ ¬ (∃ o ∈ g.out, ∃ r ∈ [Reg.w 3], o.pends r act = true) ∧
    63 ≤ spGet 0 g.flags 3 ∧ (∃ o ∈ g.out, o.mask &&& act ≠ 0) := by
  exact ⟨stalls_of (by decide), stalls_of (by decide), stalls_of (by decide), stalls_of (by decide), stalls_of (by decide),
    by decide⟩

/-- Core 0 at a clause header at offset 0, with a second entry at offset 8 for lanes 16 to 31. -/
def atHeaders : State :=
  let s := State.reset.withFetchWord 32 0x002001FE
  let s := modCore s 0 fun x => { x with spad := memStore (memStore (memStore x.spad 4 4 0x64000000) 8 4 0x002001FE) 12 4 0x64000000 }
  let s := modGroup s 0 0 fun g => g.modLanes 0xFFFF0000 fun x => { x with pc := 8 }
  { s with cur := { s.cur with entry := some (0, 0x0000FFFF) } }

/-- ClauseStarts: a header with clear flags, with a second clause above it whose words, like its own, may run in a pair. -/
theorem holds_clauses :
    let s := atHeaders
    let gr := getGroup s 0 0
    let k : Clause := { clause1 with fla := none, flb := none, mask := 0x0000FFFF }
    let t1 := { setGroup s 0 0 { gr.accept false k with lastIssue := s.time } with cur := { s.cur with entry := none } }
    let plain := fun (p : Offset) => pairable t1 0 (spGet 0 gr.seg 3) p
    issues s 0 = true ∧ gr.port s.cur.second = none ∧ s.cur.entry = some (0, 0x0000FFFF) ∧
    (∀ n < 12, bit (0xFFF : BitVec 12) n = true → spGet 0 gr.flags n = 0) ∧ (partOf s 0).quiet = false ∧
    s.cur.second = false ∧ gr.c1 = none ∧
    ((readyEntries t1 0 0).filter fun e => decide ((0 : Offset).toNat < e.1.toNat)) = [(8, 0xFFFF0000)] ∧
    fetchAt t1 0 (spGet 0 gr.seg 3) 8 = some 0x002001FE ∧ headerOk 0x002001FE = true ∧ plain 0 = true ∧ plain 8 = true ∧
    releasedReady t1 0 0 = [] := by
  decide

/-- HintRuns: a hint that its run accepts, and one in the last place. -/
theorem holds_hints :
    let hinted := { clause1 with len := 2 }
    let s := readyGroup fun g => { g with c0 := some hinted }
    NoJoins (envOf ready clause1) ready ∧ atWord s = some hinted ∧ hinted.run = [] ∧ hinted.nxt ≠ hinted.len ∧
    atWord ready = some clause1 ∧ clause1.nxt = clause1.len := by
  exact ⟨by unfold NoJoins; decide, by decide⟩

/-- RefusedWords: words with requirements, among them a privileged one, a SYNC and a HALT; a hint that the word does not accept, no kind-0 hint, a control word before the last place, no flag bound to
the select, a user task, a synced group, a group that holds a barrier. -/
theorem holds_refused :
    let at_ := fun (k : Clause) => readyGroup fun g => { g with c0 := some k }
    let hinted := { clause1 with run := [.harith (some .rz) none none] }
    let imm := { clause1 with run := [.himm 5] }
    let bare := { clause1 with len := 2, fla := none }
    let synced := modGroup (at_ imm) 0 0 fun g => { g with synced := true }
    let barred := readyCore fun x => { x with bars := [(0, { count := 2, arrived := 1 })] }
    let fits := fun (e : WEnv) => e.mode = none ∧ e.ix = none ∧ e.pol = none
    (metaOf (.segld .h 1)).map (·.priv) = some true ∧ (metaOf .sync).map (·.phase) = some .sync ∧
    (metaOf .halt).map (·.phase) = some .halt ∧ (metaOf (.mmaI4 (.w 3) (.reg (.w 1)))).isSome = true ∧
    (metaOf (.aclose (.w 3) 1)).isSome = true ∧ (metaOf (.srd (.w 3) .fstat)).isSome = true ∧
    NoJoins (envOf (at_ bare) bare) (at_ bare) ∧ atWord (at_ hinted) = some hinted ∧ (envOf (at_ hinted) hinted).mode = some .rz ∧
    atWord (at_ bare) = some bare ∧ (envOf (at_ bare) bare).himm = none ∧ (envOf (at_ bare) bare).idx < bare.len ∧
    (envOf (at_ bare) bare).flag .a = none ∧
    atWord (at_ imm) = some imm ∧ fits (envOf (at_ imm) imm) ∧ (envOf (at_ imm) imm).himm.isSome = true ∧
    (launchOf (at_ imm) 0).system = false ∧
    atWord synced = some imm ∧ fits (envOf synced imm) ∧ (getGroup synced 0 0).synced = true ∧
    atWord barred = some clause1 ∧ fits (envOf barred clause1) ∧ holdsBarrier (getCore barred 0) 0 = true ∧
    (envOf barred clause1).idx = clause1.len := by
  exact ⟨by decide, by decide, by decide, by decide, by decide, by decide, by unfold NoJoins; decide, by decide⟩

/-- A pair whose clauses have issued their last words, in a core of two groups of which the other is ready. -/
def pairDone : State :=
  let a := { clause1 with nxt := 2, mask := 0x0000FFFF }
  let b := { clause1 with nxt := 2, mask := 0xFFFF0000, hdr := 8 }
  let s := readyCore fun x => { x with ngroups := 2, groups := spSet x.groups 1 (x.group 0) }
  modGroup s 0 0 fun g => { g with c0 := some a, c1 := some b }

/-- A core whose selected group 0 has only parked lanes, one of them waiting for the handler, and whose group 1 is ready. -/
def parkedGroup : State :=
  let f : LaneFault := { cause := 8, access := 0, word := 4, addr := 1, clause := 0, fall := 8, handler := true }
  let s := readyCore fun x => { x with ngroups := 2, groups := spSet x.groups 1 (x.group 0) }
  modGroup s 0 0 fun g => { g.modLanes 0xFFFFFFFF (fun x => { x with cond := .parked, fault := some f }) with c0 := none }

/-- ClauseEnds and GroupEvents: a finished pair, with the selected group at the switch or not, the other group ready; no STAY; a
lane that waits for the handler. -/
theorem holds_ends :
    let s := pairDone
    let gr := getGroup s 0 0
    let t := parkedGroup
    ([gr.c0, gr.c1].filterMap id) ≠ [] ∧ (∀ k ∈ [gr.c0, gr.c1].filterMap id, k.len < k.nxt ∧ k.wait = .go) ∧
    (gr.c0.map (·.mask)) = some 0x0000FFFF ∧ (gr.c1.map (·.mask)) = some 0xFFFF0000 ∧ gr.lanectl = [] ∧
    (∀ p ∈ gr.lanes, p.2.fault = none) ∧ (getCore s 0).sel = 0 ∧ ¬ (getCore s 0).gtoCap ≤ (getCore s 0).cnt + 1 ∧
    (getCore s 0).gtoCap ≤ (getCore (modCore s 0 fun x => { x with cnt := 63 }) 0).cnt + 1 ∧ groupReady s 0 1 = true ∧
    groupReady t 0 0 = false ∧ (getGroup t 0 0).ended = false ∧ (getGroup t 0 0).stayLeft = none ∧ 1 < (getCore t 0).ngroups ∧ groupReady t 0 1 = true ∧
    (∀ g < (getCore t 0).ngroups, groupReady t 0 g = true → 1 ≤ g) ∧ (getGroup t 0 0).c0 = none ∧
    (getGroup t 0 0).c1 = none ∧ (getDie t 0).transition = false ∧
    ((getGroup t 0 0).lane 5).cond = .parked ∧ (((getGroup t 0 0).lane 5).fault.map (·.handler)) = some true := by
  decide

/-- Completions: a load, a division and a special function outstanding. -/
theorem holds_completions :
    let op : LongKind → LongOp := fun k => ⟨k, 0, .t 1, 0x20, 0x20, [(5, 9)], [], []⟩
    let s := readyGroup fun g => { g with out := [op .load, op .idiv, op .sfu], flags := [(0, 3)] }
    ∀ n < 3, ((getGroup s 0 0).out[n]?).map (·.kind) = [LongKind.load, .idiv, .sfu][n]? := by decide

/-! ## Witnesses: power, clock and temperature -/

/-- `ready` with die 0 changed. -/
def readyDie (f : Die → Die) : State := modDie ready 0 f

/-- A die whose limit is `lim` mA at 90 percent, with the four cores of string 0 at `cur` mA. -/
def loaded (lim cur : Nat) (f : StringSt → StringSt) : State :=
  let s := readyDie fun x => { x with railIlim := setFld x.railIlim 16 0 lim }
  let s := (List.range 4).foldl (fun s c => modCore s c fun x => { x with current := cur }) s
  modStr s 0 f

set_option maxRecDepth 8000 in
/-- PowerStates: one string at each row of the table of R184. -/
theorem holds_power :
    let two := fun (s : State) => (getStr s 0).hard = true ∨ (∃ j < 128, 105 * 16 ≤ fld (getCore s j).therm 31 16) ∨
      ((getDie s 0).transition = true ∧ (getDie s 0).hop = false) ∨
      4 * fld (getDie s 0).railIlim 16 0 < sumOf ((List.range 128).map fun c => (getCore s c).current)
    let soft := fun (s : State) => 4 * fld (getDie s 0).railIlim 16 0 * fld (getDie s 0).railIlim 23 17 <
      100 * sumOf ((List.range 128).map fun c => (getCore s c).current)
    let s0 := loaded 1000 1001 id
    let s1 := loaded 1000 901 id
    let s2 := loaded 1000 900 fun x => { x with pwr := 1, clearSince := some 7 }
    let s3 := loaded 1000 901 fun x => { x with pwr := 1, before := some 3604 }
    let s4 := loaded 1000 901 fun x => { x with pwr := 2, before := some 3605, clearSince := some 7 }
    let s5 := loaded 1000 900 fun x => { x with pwr := 2, clearSince := some 7 }
    ((getStr s0 0).pwr ≠ 2 ∧ two s0) ∧ ((getStr s1 0).pwr = 0 ∧ ¬ two s1 ∧ soft s1) ∧
    ((getStr s2 0).pwr = 1 ∧ ¬ two s2 ∧ ¬ soft s2 ∧ (getStr s2 0).clearSince = some 7) ∧
    ((getStr s3 0).pwr = 1 ∧ ¬ two s3 ∧ soft s3 ∧ (getStr s3 0).before = some 3604 ∧
      3604 ≤ sumOf ((List.range 4).map fun c => (getCore s3 c).current)) ∧
    ((getStr s4 0).pwr = 2 ∧ ¬ two s4 ∧ soft s4 ∧ (getStr s4 0).before = some 3605 ∧
      sumOf ((List.range 4).map fun c => (getCore s4 c).current) < 3605 ∧ (getStr s4 0).clearSince = some 7) ∧
    ((getStr s5 0).pwr = 2 ∧ ¬ two s5 ∧ ¬ soft s5 ∧ (getStr s5 0).clearSince = some 7) := by
  decide

set_option maxRecDepth 8000 in
/-- RailLimit and FrequencyEvents: a phase to lose; the least and greatest valid frequencies and three that are not; a pending one at a quiet
moment; a transition, a hop, and strings with and without droop. -/
theorem holds_clock :
    let valid := fun (f : Nat) => 475 ≤ f ∧ f ≤ 1900 ∧ f % 25 = 0
    let s := modPart (readyDie fun x => { x with pending := true }) 0 fun x => { x with st := .exchange, phase := 1 }
    let t := readyDie fun x => { x with transition := true, hop := true }
    let u := modStr ready 1 fun x => { x with droop := true }
    0 < (getDie ready 0).phases ∧ valid 475 ∧ valid 1900 ∧ ¬ valid 450 ∧ ¬ valid 1925 ∧ ¬ valid 480 ∧
    (getDie s 0).pending = true ∧ (getDie s 0).transition = false ∧ (getDie s 0).hopDroop = false ∧
    (∀ j < 128, (getCore s j).part = none ∨ bit (partOf s j).phase 0 = true) ∧
    (getDie t 0).transition = true ∧ (getDie t 0).hop = true ∧ ¬ ((getDie ready 0).transition = true) ∧
    (∃ k < 32, (getStr u k).droop = true) ∧ ∀ k < 32, (getStr ready k).droop = false := by
  decide

set_option maxRecDepth 8000 in
/-- TemperatureEvents: 95, 105 and 115 degrees to the sixteenth, a throttled die above 475 MHz that is still hot. -/
theorem holds_heat :
    let s := modCore (readyDie fun x => { x with throttled := true, freq := 500 }) 3 fun x => { x with therm := setFld x.therm 31 16 1680 }
    bit (getCore ready 0).therm 1 = false ∧ (getDie ready 0).throttled = false ∧ (getDie ready 0).tripped = false ∧
    95 * 16 ≤ (1520 : BitVec 16).toNat ∧ 105 * 16 ≤ (1680 : BitVec 16).toNat ∧ 115 * 16 ≤ (1840 : BitVec 16).toNat ∧
    (getDie s 0).throttled = true ∧ ¬ (∀ j < 128, fld (getCore s j).therm 31 16 < 105 * 16) ∧ 475 < (getDie s 0).freq := by
  decide

/-! ## Witnesses: tasks, launch and phases -/

/-- `ready` with every die released. -/
def booted : State := modGran ready fun g => { g with present := 0x7FF }

/-- `booted` with partition 0 changed. -/
def bootedPart (f : Part → Part) : State := modPart booted 0 f

/-- Die 0 with one bind record in slot 31. -/
def withBind (st : BindState) (mask : BitVec 16) (lim : Nat) : State :=
  modDie (bootedPart fun x => { x with launch := some { Launch.zero with peak := 10, energy := 20 } }) 0 fun x =>
    { x with binds := [(31, { Bind.zero with state := st, strings := 1, diemask := mask })]
             railIlim := setFld x.railIlim 16 0 lim }

/-- BindRecordWrites: a record in each state. -/
theorem holds_bind :
    let st := fun (s : State) => (getBind s 0 31).state
    bit (withBind .bound 1 8).gran.present 0 = true ∧ bindsBlocked (withBind .bound 1 8) = false ∧ st ready = .free ∧
    ∀ b ∈ [BindState.bound, .armed, .running, .scrub, .done, .refused], st (withBind b 1 8) = b := by
  decide

/-- Page tables in die 0: the first 2 MiB of partition 0's space at 2 MiB of vault memory, readable and writable; and the bytes
of a small launch record for string 1 at address 0. -/
def mapped : State :=
  let put := fun (m : Mem) (e : Nat × Nat × Nat) => memStore m e.1 e.2.1 e.2.2
  let s := modPart booted 1 fun x => { x with troot := 0x1001 }
  { s with vault := [(0x1000, 8, 0x2001), (0x2000, 8, 0x3001), (0x3000, 8, 0x20000F), (0x200000, 3, 0x010001), (0x200020, 1, 2),
      (0x200068, 8, 0x3C0000000), (0x200110, 4, 5), (0x200114, 2, 7)].foldl put s.vault }

/-- Die 0 with one record of partition 1 for that launch record: ARMED, or BOUND, with a DIEMASK, LIMIT_MA and, in the last
case, a scrub list of the partition that is not done. -/
def armed (k : Fin 6) : State :=
  let set := fun (st : BindState) (mask : BitVec 16) (lim : Nat) => modDie mapped 0 fun x =>
    { x with binds := [(0, { Bind.zero with state := st, part := 1, diemask := mask, strings := 2 })]
             railIlim := setFld x.railIlim 16 0 lim }
  match k with
  | 0 => set .armed 1 7
  | 1 => set .armed 0x100 7
  | 2 => set .bound 1 7
  | 3 => set .bound 1 6
  | 4 => set .bound 0x100 7
  | 5 => modPart (set .bound 1 7) 1 fun x => { x with scrub := { x.scrub with units := [.core 4 0], done := 0 } }

/-- The leaf that maps the first 2 MiB of partition 1. -/
def leaf0 : Leaf := { at_ := 0x3000, pte := 0x20000F, size := 2 ^ 21 }

/-- Die `d` reads the first 2 MiB of partition `p` from 2 MiB of vault memory, where nothing is sealed or still to be promoted. -/
abbrev Mapped (s : State) (d p : Nat) : Prop :=
  (getPart s p).troot = 0x1001 ∧ readPte s d 0x1000 = 0x2001 ∧ readPte s d 0x2000 = 0x3001 ∧ readPte s d 0x3000 = 0x20000F ∧
    s.side = [] ∧ s.dieScope = []

set_option maxRecDepth 20000 in
/-- Every address of the first 2 MiB is translated through that leaf. -/
theorem translate_mapped {s : State} {d p : Nat} (h : Mapped s d p) (va : Nat) (hv : va < 2 ^ 21) :
    translateVa s d p va false = .ok leaf0 := by
  obtain ⟨hr, e0, e1, e2, -, -⟩ := h
  have h0 : va / 2 ^ 39 % 512 * 8 = 0 := by omega
  have h1 : va / 2 ^ 30 % 512 * 8 = 0 := by omega
  have h2 : va / 2 ^ 21 % 512 * 8 = 0 := by omega
  have h3 : ¬ 2 ^ 48 ≤ va := by omega
  have a0 : fld (0x1001 : Word) 35 12 * 4096 + 0 = 0x1000 := by decide
  have a1 : fld (0x2001 : Word) 35 8 * 256 + 0 = 0x2000 := by decide
  have a2 : fld (0x3001 : Word) 35 8 * 256 + 0 = 0x3000 := by decide
  have p0 : pointerOk 0x2001 0 = true := by decide
  have p1 : pointerOk 0x3001 1 = true := by decide
  have p2 : bit (0x20000F : Word) 3 = true := by decide
  have p3 : leafOk 0x20000F (2 ^ 21) = true := by decide
  have p4 : bit (0x1001 : Word) 0 = true := by decide
  have w : walk s d p va = some leaf0 := by
    simp only [walk, walkRoot, h0, h1, h2, h3, hr, a0, e0, a1, e1, a2, e2, p0, p1, p2, p3, p4, not_true_eq_false, if_false, if_true]
    rfl
  simp only [translateVa, w]
  rfl

/-- Bytes of the first 2 MiB are read from 2 MiB of vault memory. -/
theorem readVa_mapped {s : State} {d p : Nat} (h : Mapped s d p) (n va : Nat) (hn : va + n ≤ 2 ^ 21) :
    readVa s d p va n = some (memBytes s.vault (0x200000 + va) n) := by
  induction n generalizing va with
  | zero => rfl
  | succ n ih =>
    have hv : leaf0.readPa d va = 0x200000 + va := by
      have h1 : leaf0.repl = false := by decide
      have h2 : leaf0.home = 0 := by decide
      have h3 : leaf0.loc va = 0x200000 + va := by
        have hs : leaf0.size = 2 ^ 21 := rfl
        have : va % leaf0.size = va := by rw [hs]; omega
        simp only [Leaf.loc, this]
        rw [show fld leaf0.pte 35 8 * 256 = 0x200000 from by decide]
      simp [Leaf.readPa, h1, h2, h3]
    rw [readVa, translate_mapped h va (by omega), ih (va + 1) (by omega), memBytes]
    have hb : byteAt s d p va leaf0 = memGet s.vault (leaf0.readPa d va) := by
      simp only [byteAt, h.2.2.2.2.1, seenByte, h.2.2.2.2.2]
      rfl
    simp only [hb, hv, Nat.add_assoc]

/-- The launch record that stands there. -/
def record : LrRaw :=
  { format := 1, groups := 1, trappol := 0, flags := 0, seed := 0, keyh := 0, start := 0, strmask := 2, imgVa := 0, imgLen := 0
    segw := [0, 0, 0, 0x3C0000000], alogq := 0, xq := 0, noteq := 0, entry := 0, handler := 0, k := List.replicate 16 0
    energy := 5, peak := 7, audit := 0, strag := 0, mapVa := 0, succ := [0, 0, 0, 0]
    rsv := 0 }

set_option maxRecDepth 20000 in
/-- It is what dispatch reads. -/
theorem record_at {s : State} {d p : Nat} (h : Mapped s d p) (hv : lrOf (memBytes s.vault 0x200000 512) = record) :
    readLr s d p 0 = some record := by
  have h0 : (0 : Word).toNat = 0 := rfl
  simp only [readLr, h0, readVa_mapped h 512 0 (by omega), Option.map_some, Option.some.injEq]
  exact hv

set_option maxRecDepth 20000 in
/-- And it stands in each state of `armed`. -/
theorem record_read (k : Fin 6) : readLr (armed k) 0 1 0 = some record :=
  record_at (by revert k; decide +kernel) (by revert k; decide +kernel)

set_option maxRecDepth 20000 in
/-- AdmissionTests: a record that fits exactly, one that does not, one whose DIEMASK names no Flint die, one whose partition a
scrub list holds. -/
theorem holds_admission :
    let b := fun (k : Fin 6) => getBind (armed k) 0 0
    let d := fun (k : Fin 6) => getDie (armed k) 0
    let strs := fun (k : Fin 6) => bitList (b k).strings
    let fits := fun (k : Fin 6) => 4 * (strs k).length * 7 ≤ 4 * fld (d k).railIlim 16 0 ∧
      4 * (strs k).length * min 5 (7 * 7) ≤ fld (d k).railIlim 63 32
    (∀ k, readLr (armed k) 0 (b k).part (b k).lrVa = some record) ∧ record.peak = 7 ∧ record.energy = 5 ∧
    ∀ k : Fin 6, 2 ≤ k.val → (d k).binds = [(0, b k)] ∧ (b k).state = .bound ∧
      (∀ j < 8, j ≠ 0 → (getDie (armed k) j).binds = []) ∧
      (k = 4 → 256 ≤ (b k).diemask.toNat) ∧ (k ≠ 4 → (b k).diemask.toNat = 2 ^ 0) ∧
      (scrubPending (armed k) (b k).part (strs k) = true ↔ k = 5) ∧ (fits k ↔ k ≠ 3) := by
  have hb : ∀ k, (getBind (armed k) 0 0).part = 1 ∧ (getBind (armed k) 0 0).lrVa = 0 := by decide
  refine ⟨fun k => ?_, rfl, rfl, by decide⟩
  rw [(hb k).1, (hb k).2]
  exact record_read k

/-- Two dies with the page tables of `mapped`: on die 0 a RUNNING record of partition 3, an ARMED one of partition 4, and one
BOUND record of partition 1, two of partitions 1 and 2, or one of two dies. -/
def crowd (k : Fin 3) (lim : Nat) : State :=
  let rec_ := fun (st : BindState) (p : Nat) (mask : BitVec 16) (strs : BitVec 32) =>
    { Bind.zero with state := st, part := p, diemask := mask, strings := strs }
  let base := [(0, rec_ .running 3 1 1), (1, rec_ .armed 4 1 2)]
  let roots := [1, 2, 4].foldl (fun s p => modPart s p fun x => { x with troot := 0x1001 }) mapped
  let copy := fun (m : Mem) (e : Nat × Nat) => memStore m (2 ^ 36 + e.1) 8 e.2
  let s := { roots with vault := [(0x1000, 0x2001), (0x2000, 0x3001), (0x3000, 0x20000F)].foldl copy roots.vault }
  let s := modPart s 3 fun x => { x with strings := [0], launch := some { Launch.zero with peak := 10, energy := 20 } }
  let s := modCore (modStr s 0 fun x => { x with part := some 3 }) 0 fun x => { x with part := some 3, peak := 9, energy := 4 }
  let put := fun (d : Nat) (bs : List (Nat × Bind)) (s : State) => modDie s d fun x =>
    { x with binds := bs, railIlim := setFld (setFld x.railIlim 16 0 lim) 63 32 1000 }
  match k with
  | 0 => put 0 (base ++ [(2, rec_ .bound 1 1 4)]) s
  | 1 => put 0 (base ++ [(2, rec_ .bound 1 1 4), (3, rec_ .bound 2 1 8)]) s
  | 2 => put 1 [(5, rec_ .bound 1 3 1)] (put 0 (base ++ [(2, rec_ .bound 1 3 4)]) s)

set_option maxRecDepth 20000 in
/-- Each record of `crowd` that does not run names that launch record. -/
theorem crowd_reads (k : Fin 3) (lim : Nat) (p : Nat) (hp : p = 1 ∨ p = 2 ∨ p = 4) (d : Nat) (hd : d < 2) :
    readLr (crowd k lim) d p 0 = some record := by
  have hv : (crowd k lim).vault = (crowd 0 0).vault ∧ (crowd k lim).side = [] ∧ (crowd k lim).dieScope = [] ∧
      ∀ q, getPart (crowd k lim) q = getPart (crowd 0 0) q := by
    match k with
    | 0 => exact ⟨rfl, rfl, rfl, fun _ => rfl⟩
    | 1 => exact ⟨rfl, rfl, rfl, fun _ => rfl⟩
    | 2 => exact ⟨rfl, rfl, rfl, fun _ => rfl⟩
  have hm : ∀ d < 2, ∀ q ∈ [1, 2, 4], Mapped (crowd 0 0) d q := by decide +kernel
  have ht := hm d hd p (by simpa using hp)
  refine record_at ?_ ?_
  · simp only [Mapped, readPte, hv]
    exact ⟨ht.1, ht.2.1, ht.2.2.1, ht.2.2.2.1, trivial, trivial⟩
  · rw [hv.1]
    decide +kernel

/-- The BOUND records of a die, the charge of a record where a launch record declares 7 mA and 5 nJ, and the charges of its ARMED
and RUNNING ones. -/
def boundOn (s : State) (d : Nat) : List (Nat × Nat × BitVec 16) :=
  ((getDie s d).binds.filter fun x => decide (x.2.state = .bound)).map fun x => (x.1, x.2.part, x.2.diemask)
def chargeOn (s : State) (d i : Nat) : Nat × Nat :=
  stringCharge s (getBind s d i) (if (getBind s d i).part = 3 then (10, 20) else (7, 5)) (bindStrs s d (getBind s d i))
def usedOn (s : State) (d : Nat) : List (Nat × Nat) :=
  ((getDie s d).binds.filter fun x => decide (x.2.state = .armed) || decide (x.2.state = .running)).map fun x => chargeOn s d x.1

set_option maxRecDepth 20000 in
/-- AdmissionTests: the records of `crowd` are listed as the premises ask. -/
theorem holds_crowd_lists :
    ∀ k : Fin 3, ∀ d : Fin 8, spWf Bind.zero 0 (getDie (crowd k 0) d).binds = true ∧
      (d.val ≠ 0 → d.val ≠ 1 ∨ k ≠ 2 → boundOn (crowd k 0) d = []) ∧
      ∀ x ∈ (getDie (crowd k 0) d).binds, x.2.state = .running ∨ (x.2.lrVa = 0 ∧ d.val < 2 ∧ x.2.part ∈ [1, 2, 4]) := by
  decide

set_option maxRecDepth 20000 in
/-- AdmissionTests: which of them are BOUND, none of them on a scrub list. -/
theorem holds_crowd :
    boundOn (crowd 0 0) 0 = [(2, 1, 1)] ∧ boundOn (crowd 1 0) 0 = [(2, 1, 1), (3, 2, 1)] ∧
    boundOn (crowd 2 0) 0 = [(2, 1, 3)] ∧ boundOn (crowd 2 0) 1 = [(5, 1, 3)] ∧
    ∀ k, ∀ e ∈ (getDie (crowd k 0) 0).binds, scrubPending (crowd k 0) e.2.part (bitList e.2.strings) = false := by
  decide

set_option maxRecDepth 20000 in
/-- AdmissionTests: of the BOUND records one fits exactly or does not; both of two, the first, or none; those of two dies. -/
theorem holds_crowd_fits :
    (∀ k, usedOn (crowd k 0) 0 = [(39, 64), (28, 20)] ∧ chargeOn (crowd k 0) 0 2 = (28, 20)) ∧
    chargeOn (crowd 1 0) 0 3 = (28, 20) ∧ usedOn (crowd 2 0) 1 = [] ∧ chargeOn (crowd 2 0) 1 5 = (28, 20) ∧
    (∀ k, ∀ lim ∈ [23, 24, 31], fld (getDie (crowd k lim) 0).railIlim 16 0 = lim ∧ fld (getDie (crowd k lim) 0).railIlim 63 32 = 1000) ∧
    39 + 28 + 28 ≤ 4 * 24 ∧ ¬ 39 + 28 + 28 ≤ 4 * 23 ∧ 39 + 28 + 28 + 28 ≤ 4 * 31 ∧ ¬ 39 + 28 + 28 + 28 ≤ 4 * 24 := by
  decide

set_option maxRecDepth 20000 in
/-- DispatchAndTimedStart: a record that fails each case of R203 and no earlier one, in the order of its table. -/
theorem holds_causes :
    let s := modPart (armed 0) 1 fun x => { x with troot := 0x1001 }
    let why := fun (f : LrRaw → LrRaw) => refusal s 0 1 true 1 (f record)
    refusal s 0 1 true 1 record = none ∧
    [why fun r => { r with format := 2, rsv := 1 }, why fun r => { r with audit := 0x400000, groups := 0 },
      why fun r => { r with peak := 2701, flags := 1 }, why fun r => { r with flags := 1, segw := [] },
      why fun r => { r with segw := [0, 0, 0, 0x3C0000001], entry := 0xC0000 },
      why fun r => { r with entry := 0xC0000, imgLen := 8 }, why fun r => { r with imgLen := 786448, strmask := 0 },
      why fun r => { r with strmask := 0, keyh := 1 }, why fun r => { r with keyh := 1, mapVa := 1 },
      why fun r => { r with mapVa := 1, xq := 0x100000000 }, why fun r => { r with xq := 0x100000000, trappol := 1 }] =
    (List.range 11).map fun k => some (k + 1) := by
  decide +kernel

set_option maxRecDepth 20000 in
/-- DispatchAndTimedStart: the later ones. -/
theorem holds_late_causes :
    let listed := modPart (armed 0) 1 fun x => { x with scrub := { x.scrub with units := [.core 4 0], done := 0 } }
    let rootless := modPart (armed 0) 1 fun x => { x with troot := 0 }
    refusal listed 0 1 false 1 record = some 0x0C ∧ refusal rootless 0 1 false 1 { record with trappol := 1 } = some 0x0D ∧
    refusal (armed 0) 0 1 false 1 { record with trappol := 1, audit := 0x1000000 } = some 0x0E ∧
    refusal (armed 0) 0 1 false 256 { record with audit := 0x1000000 } = some 0x0F ∧
    refusal (armed 0) 0 1 false 256 { record with audit := 0x100000 } = some 0x0F := by
  decide +kernel

set_option maxRecDepth 20000 in
/-- DispatchAndTimedStart: an armed record that R203 accepts, one that it refuses with cause 0x10, and a timed task that
waits. -/
theorem holds_dispatch :
    let s := armed 0
    let t := bootedPart fun x => { x with st := .idle, waitStart := true, strings := [3], lmap := [12, 13] }
    readLr s 0 1 (getBind s 0 0).lrVa = some record ∧ readLr (armed 1) 0 1 (getBind (armed 1) 0 0).lrVa = some record ∧
    refusal s 0 1 false (diesOf s [(0, 0)]) record = none ∧
    refusal (armed 1) 0 1 false (diesOf (armed 1) [(0, 0)]) record = some 0x10 ∧
    (bindsOf s 1 fun y => decide (y = .armed)) = [(0, 0)] ∧ (getPart s 1).st = .idle ∧ (getPart s 1).launch = none ∧
    mapOf s 0 1 record.mapVa record.strings = some [4, 5, 6, 7] ∧ [4, 5, 6, 7].Nodup ∧
    (∀ e < 8, ((getDie s e).binds.map (·.1)).Nodup) ∧
    (getPart t 0).waitStart = true ∧ (getPart t 0).st = .idle ∧ (getPart t 0).launch.isSome = true ∧
    (∃ n ∈ (getPart t 0).strings, n / 32 = 0) ∧ (getPart t 0).lmap.Nodup ∧ (getPart t 0).evicted = false ∧
    (getPart t 0).latches = [] := by
  exact ⟨record_read 0, record_read 1, by decide +kernel, by decide +kernel, by decide⟩

/-- `booted` with core 0 in a phase state and partition 0 in a state of its machine. -/
def inPhase (c : CorePhase) (p : PhState) : State :=
  modCore (bootedPart fun x => { x with st := p }) 0 fun x => { x with pst := c }

/-- Core 0 with every lane of its group halted. -/
def finished (p : PhState) : State :=
  modGroup (inPhase .synced p) 0 0 fun g => { g.modLanes 0xFFFFFFFF (fun x => { x with cond := .halted }) with c0 := none }

/-- What the flips ask of a partition of one core besides its state: a task, no hold, no failed audit, no world. -/
def Plain (s : State) : Prop :=
  let x := getPart s 0
  x.launch ≠ none ∧ x.holding = none ∧ x.evicted = false ∧ x.lmap = [0] ∧ x.failed = none ∧ worldSlot s 0 = 0 ∧
    ∀ d < 8, ((getDie s d).binds.map (·.1)).Nodup

set_option maxRecDepth 20000 in
/-- PhaseFlips: with every core SYNCED; in FLIP_X without an order, and held there; an order given in FLIP_X. -/
theorem holds_flipX :
    let x := fun (s : State) => getPart s 0
    let a := inPhase .synced .compute
    let b := inPhase .synced .flipX
    let held := modPart b 0 fun x => { x with hold := true }
    let late := modPart b 0 fun x => { x with mig := some (0, 1), migNow := false }
    Plain a ∧ Plain b ∧ Plain held ∧ Plain late ∧
    (x a).st = .compute ∧ (getCore a 0).pst = .synced ∧ 0 < (getCore a 0).ngroups ∧ (getCore a 0).groupDone 0 = false ∧
    (x b).st = .flipX ∧ (x b).mig = none ∧ (x b).hold = false ∧ (x held).st = .flipX ∧ (x held).hold = true ∧
    (x late).st = .flipX ∧ (x late).migNow = false ∧ (x late).mig ≠ none := by
  unfold Plain
  decide

/-- Partition 0 in FLIP_X with an order to move logical core `fr` to `target`, its die's limit `lim`. -/
def ordered (fr target lim : Nat) : State :=
  let s := inPhase .synced .flipX
  let s := modDie s 0 fun x =>
    { x with binds := [(31, { Bind.zero with state := .running, strings := 1, diemask := 1 })]
             railIlim := setFld x.railIlim 16 0 lim }
  let s := modPart s 0 fun x =>
    { x with mig := some (fr, target), migNow := true, launch := some { Launch.zero with peak := 10, energy := 20 }, strings := [0] }
  modStr s 0 fun x => { x with part := some 0 }

set_option maxRecDepth 20000 in
/-- PhaseFlips: an order to a vacant core of the partition's string and to one of an unbound string that fits or not, to a core in
use, from no core, behind assay commands, and behind a scrub. -/
theorem holds_orders :
    let ok := fun (s : State) (target : Nat) => (getCore s target).ballast = false ∧ bit (partDies s 0) (dieOf target) = true ∧
      (((getStr s (target / 4)).part = some 0 ∧ (getCore s target).part = none) ∨ stringFree s (target / 4) = true)
    let fits := fun (s : State) => fitsDie s (dieOf 4) (stringCharge s (runningBind 0) (10, 20) [1])
    let quiet := fun (s : State) => (getPart s 0).st = .flipX ∧ (getPart s 0).migNow = true ∧ migScrubbing (getPart s 0) = false ∧
      (getCore s 0).asy.queue = []
    let busy := modCore (ordered 0 1 8) 0 fun x => { x with asy := { x.asy with queue := [.awit 0] } }
    let scrubs := modPart (ordered 0 1 8) 0 fun x => { x with scrub := { x.scrub with units := [.core 0 0], done := 0, uses := [.migrate 0] } }
    (∀ s ∈ [ordered 0 1 8, ordered 0 4 40, ordered 0 4 8, ordered 0 0 8, ordered 1 1 8], Plain s ∧ quiet s) ∧
    (ok (ordered 0 1 8) 1 ∧ (getStr (ordered 0 1 8) 0).part ≠ none) ∧
    (ok (ordered 0 4 40) 4 ∧ (getStr (ordered 0 4 40) 1).part = none ∧ fits (ordered 0 4 40) = true) ∧
    (ok (ordered 0 4 8) 4 ∧ fits (ordered 0 4 8) = false) ∧ ¬ ok (ordered 0 0 8) 0 ∧
    (getPart (ordered 1 1 8) 0).mig = some (1, 1) ∧ (getPart (ordered 1 1 8) 0).lmap[1]? = none ∧
    (getPart (ordered 0 4 40) 0).lmap[0]? = some 0 ∧
    (getCore busy 0).asy.queue ≠ [] ∧ (getPart busy 0).migNow = true ∧ migScrubbing (getPart scrubs 0) = true := by
  unfold Plain
  decide

set_option maxRecDepth 20000 in
/-- PhaseFlips: with every core XDONE; in FLIP_C with a group that goes on, and with none. -/
theorem holds_flipC :
    let x := fun (s : State) => getPart s 0
    let c := inPhase .xdone .exchange
    let d := inPhase .xdone .flipC
    let q := finished .flipC
    let free := fun (s : State) => let k := ((x s).phase.toNat + 1) / 2
      auditWaits s 0 k = false ∧ votedIdem s 0 = false ∧ isCkpt s 0 k = false
    Plain c ∧ Plain d ∧ Plain q ∧ (x c).st = .exchange ∧ (getCore c 0).pst = .xdone ∧
    redBlocked c 0 = false ∧ badSeals c 0 = [] ∧ tensorPosts (redWriteback c 0) 0 13 = [] ∧
    (x d).st = .flipC ∧ free d ∧ (x q).st = .flipC ∧ free q ∧ (getCore q 0).eng.queue = [] ∧
    ∀ g < (getCore q 0).ngroups, (getCore q 0).groupDone g = true := by
  unfold Plain
  decide

set_option maxRecDepth 20000 in
/-- TaskEnds: every group finished, a last exchange that has ended, an aborted task. -/
theorem holds_ends_task :
    let x := fun (s : State) => getPart s 0
    let f := finished .compute
    let e := modPart (finished .final) 0 fun x => { x with finalDone := true }
    let h := inPhase .compute .aborting
    Plain f ∧ Plain e ∧ Plain h ∧ (x f).st = .compute ∧ (x f).hold = false ∧ (getCore f 0).pst = .synced ∧
    (∀ g < (getCore f 0).ngroups, (getCore f 0).groupDone g = true) ∧
    (x e).st = .final ∧ (x e).finalDone = true ∧ (getCore e 0).asy.queue = [] ∧ (x h).st = .aborting := by
  unfold Plain
  decide

/-- Two cores at the flip into superstep 5, with areas of 0x13 and 0x22 times 64 KiB, a record `audit` and the last superstep that
passed; with `vote`, the groups synced and voted idempotent. -/
def imaging (audit : Word) (pass : Nat) (vote : Bool) : State :=
  let s := inPhase .xdone .flipC
  let area := fun (n : Nat) (x : Core) => { x with ctxBase := wd (0x10000 * n * 0x20 + 1), ckptBase := wd (0x10000 * n * 0x100 + 1) }
  let s := modCore (modCore s 0 (area 1)) 1 fun x => area 2 { x with part := some 0, pst := .xdone, lcore := 1 }
  let s := modGroup s 0 0 fun g => { g with c0 := none, synced := vote, vote := vote }
  modPart s 0 fun x => { x with lmap := [0, 1], phase := 9, passSs := pass, launch := some { Launch.zero with audit := audit } }

set_option maxRecDepth 20000 in
/-- PhaseFlips: a flip that waits for the audits of superstep 3 and one for the last checkpoint; one with a clause in flight; a
checkpoint, a snapshot and neither, over two cores whose areas lie apart. -/
theorem holds_images :
    let every : Word := 0x205000000
    let k := fun (s : State) => ((getPart s 0).phase.toNat + 1) / 2
    let bases := fun (s : State) => allAreas (fun c => areaOf (getCore s c).ckptBase 0x216000) [0, 1]
    let clause := modGroup (imaging every 3 true) 0 0 fun g => { g with c0 := some clause1 }
    let again := modPart (imaging every 3 false) 0 fun x => { x with ckptSs := 4 }
    (∀ s ∈ [imaging every 2 false, imaging every 3 false, imaging 0x200000000 3 true, imaging 0x200000000 3 false, clause, again],
      (getPart s 0).launch ≠ none ∧ (getPart s 0).holding = none ∧ (getPart s 0).evicted = false ∧ (getPart s 0).failed = none ∧
      (getPart s 0).st = .flipC ∧ (getPart s 0).lmap = [0, 1] ∧ k s = 5 ∧ bases s = some [0x1000000, 0x2000000] ∧
      allAreas (ctxArea s) [0, 1] = some [0x200000, 0x400000] ∧ winOf s (((getPart s 0).launch.map Launch.audit).getD 0) = 2) ∧
    (getPart (imaging every 2 false) 0).passSs = 2 ∧ (getPart (imaging every 3 false) 0).passSs = 3 ∧
    isCkpt again 0 5 = true ∧ (getPart again 0).passSs < (getPart again 0).ckptSs ∧
    (votedIdem (imaging every 3 false) 0 = false ∧ isCkpt (imaging every 3 false) 0 5 = true) ∧
    (votedIdem (imaging 0x200000000 3 true) 0 = true ∧ isCkpt (imaging 0x200000000 3 true) 0 5 = false) ∧
    (votedIdem (imaging 0x200000000 3 false) 0 = false ∧ isCkpt (imaging 0x200000000 3 false) 0 5 = false) ∧
    (∀ s ∈ [imaging every 3 false, imaging 0x200000000 3 true], ∀ c ∈ [0, 1], ∀ g < (getCore s c).ngroups,
      (getGroup s c g).c0 = none ∧ (getGroup s c g).c1 = none ∧ (getGroup s c g).released = [] ∧ (getGroup s c g).out = []) ∧
    0 < (getCore clause 0).ngroups ∧ (getGroup clause 0 0).c0 ≠ none ∧ isCkpt clause 0 5 = true ∧ (getPart clause 0).passSs = 3 := by
  decide

/-- The task of a world whose slot is 1, at the end of FINAL or aborted; slot 2 is of its session, slot 3 of another. -/
def worldEnd (st : PhState) : State :=
  let s := modGran (modPart (finished st) 0 fun x =>
    { x with finalDone := true, launch := some { Launch.zero with keyh := 1 }, strings := [0] }) fun g =>
      { g with keys := [(1, { KeySlot.zero with state := .loaded, session := 7, bound := true }),
        (2, { KeySlot.zero with state := .loaded, session := 7 }), (3, { KeySlot.zero with state := .loaded, session := 8 })] }
  let s := modDie s 0 fun x => { x with binds := [(31, { Bind.zero with state := .running, strings := 1, diemask := 1 })] }
  modStr s 0 fun x => { x with part := some 0 }

set_option maxRecDepth 20000 in
/-- TaskEnds: a world that completes and one that is aborted: its slots, its string and its record; and HOLD as FINAL begins. -/
theorem holds_world_ends :
    let hold := modPart (finished .compute) 0 fun x => { x with hold := true }
    (∀ p ∈ [PhState.final, .aborting], let s := worldEnd p
      let x := getPart s 0
      x.st = p ∧ x.launch ≠ none ∧ x.evicted = false ∧ x.holding = none ∧ x.finalDone = true ∧ x.failed = none ∧ x.lmap = [0] ∧
      worldSlot s 0 = 1 ∧ x.tearing = 0 ∧ s.gran.present &&& 0x06FF ≠ 0 ∧ (s.gran.keys.map (·.1)).Nodup ∧ (getCore s 0).asy.queue = [] ∧
      x.strings = [0] ∧ (getStr s 0).part = some 0 ∧ (getBind s 0 31).state = .running ∧ (getKey s 1).session = (getKey s 2).session ∧
      (getKey s 2).state = .loaded ∧ (getKey s 2).bound = false ∧ (getKey s 3).session ≠ (getKey s 1).session ∧
      ∀ d < 8, ((getDie s d).binds.map (·.1)).Nodup) ∧
    (getPart hold 0).st = .compute ∧ (getPart hold 0).hold = true ∧ entryParked (after (.finalStart 0) hold) 0 12 = false := by
  decide

set_option maxRecDepth 20000 in
/-- PhaseControl: a partition about to be held, one that is held, one that is neither. -/
theorem holds_hold :
    let x := fun (s : State) => getPart s 0
    let s := modGroup (bootedPart fun x => { x with holding := some .exchange }) 0 0 fun g => { g with c0 := none }
    let h := bootedPart fun x => { x with st := .held }
    (x s).holding = some .exchange ∧ (x s).st ≠ .aborting ∧ (x s).failed = none ∧ (x s).evicted = false ∧
    (∀ c ∈ (x s).lmap, (getCore s c).asy.queue = [] ∧ ∀ g < (getCore s c).ngroups, (getGroup s c g).c0 = none ∧
      (getGroup s c g).c1 = none ∧ (getGroup s c g).released = [] ∧ (getGroup s c g).out = []) ∧
    (x h).holding = none ∧ (x h).st = .held ∧ (x h).busy = none ∧ (x h).evicted = false ∧
    (x booted).holding = none ∧ (x booted).st ≠ .held := by
  decide

set_option maxRecDepth 20000 in
/-- PhaseControl and AbortHoldsNothing: a partition whose straggler limit runs, one that no task runs, and idempotent supersteps
whose snapshots read back or not. -/
theorem holds_control :
    let x := fun (s : State) => getPart s 0
    let t := bootedPart fun x => { x with stragLimit := 1 }
    let sn : Snap := { seq := 1, bases := [], resw := [] }
    let d := bootedPart fun x => { x with idem := true, snap := some sn, lmap := [] }
    let bad := bootedPart fun x => { x with idem := true, snap := some sn }
    (x t).launch ≠ none ∧ (x t).stragLimit ≠ 0 ∧ (x t).stragPosted = false ∧ (x t).st = .compute ∧ (x booted).st ≠ .aborting ∧
    (getPart booted 1).launch = none ∧ (x booted).idem = false ∧
    (x d).idem = true ∧ (x d).st = .compute ∧ (x d).snap = some sn ∧ (x d).evicted = false ∧ snapReadable d 0 sn = true ∧
    snapReadable bad 0 sn = false ∧ (x bad).snap = some sn ∧ ∀ p < 256, (x t).st = .aborting → (getPart t p).holding = none := by
  decide

/-! ## Witnesses: maintenance and the exchange engine -/

/-- A maintenance request to `dst` from `src` of `len` bytes. -/
def request (dst src : Word) (len : BitVec 32) : MaintReq :=
  { home := 0, rsv := 0, len := len, dst := dst, src := src, tag := 9 }

/-- `mapped` with the leaf marked REPL and a maintenance queue of three slots. -/
def replicated : State :=
  modDie { mapped with vault := memStore mapped.vault 0x3000 1 0x1F } 0 fun x => { x with maintCtl := 0x0000000300000100 }

set_option maxRecDepth 20000 in
/-- MaintenanceRequests: whole 64 KiB runs in memory, one that is not; commits into the last line of a replicated page; a queue of
three slots and none; a request to complete. -/
theorem holds_maintenance :
    let s := replicated
    let r := request 0x17FF0000 0x10000 0x10000
    let c := request 0x3FFFC0 0 0
    let memory := fun (a n : Nat) => a % 65536 = 0 ∧ ∀ i < n / 65536, paOk (a + 65536 * i) = true
    (r.rsv = 0 ∧ r.home = 0 ∧ r.len.toNat % 65536 = 0 ∧ memory r.dst.toNat r.len.toNat ∧ memory r.src.toNat r.len.toNat) ∧
    ¬ memory (request 0x17FF0000 0 0x20000).dst.toNat 0x20000 ∧ qwDepth (getDie s 0).maintCtl = 3 ∧
    qwDepth (getDie ready 0).maintCtl = 0 ∧
    (s.lands = [] ∧ c.rsv = 0 ∧ c.len = 0 ∧ c.home.toNat < 8 ∧ c.dst.toNat % 64 = 0 ∧ c.dst.toNat < 2 ^ 36 ∧
      paOk c.dst.toNat = true ∧ c.src = 0) ∧
    inReplData s c.dst.toNat = true ∧ (∀ k < 64, inTable s (c.dst.toNat + k) = false) ∧
    (∀ n ∈ allNodes s, n.loc + 4096 ≤ 2 ^ 36 ∧ (c.dst.toNat + 64 ≤ n.loc ∨ n.loc + 4096 ≤ c.dst.toNat)) ∧
    (getDie (modDie s 0 fun x => { x with maintDue := [{ tag := 9, status := 0 }] }) 0).maintDue.length = 1 := by
  decide +kernel

/-- Partition 0 in its exchange phase over cores 0 and 1, its first 2 MiB mapped at 2 MiB of vault memory, with generation 0 over
the first 64 KiB, in a state, with some FLAGS, its first line sealed under slot 0; core 0 holds one queue entry. -/
def exchange (e : XEnt) (st flags : Nat) : State :=
  let g : Gen := { idx := 0, vbase := 0, size := 65536, tid := 7, ver := 1, state := st, keyslot := 0, owner := 0
                   flags := BitVec.ofNat 8 flags, prev := 0xFFFFFFFF, audn := 0, audset := 0, sealph := 0 }
  let s := modGran mapped fun x => { x with keys := [(0, { KeySlot.zero with state := .loaded, key := 3 })] }
  let s := modPart s 0 fun x => { x with st := .exchange, lmap := [0, 1], troot := 0x1001 }
  let s := modCore s 0 fun x =>
    { x with pst := .exchange, xq := 0x0001000200000100, spad := memWrite (memStore x.spad 0x1004 4 1) 0x1010 (xentBytes e) }
  let s := { s with ttCtl := 0x0000001000100000, vault := memWrite s.vault 0x100000 (genBytes g) }
  sealLines s { lo := 0x8000, count := 1, key := 3, tid := 7, ver := 1, line0 := 0, zero := false }

/-- An entry of 16 bytes between address 0x2000 of the scratchpad and a far place. -/
def entry (op far st : Nat) (fara : Word) : XEnt :=
  { op := op, ty := 7, ctl := BitVec.ofNat 8 far, qw := 0, origin := 5, state := BitVec.ofNat 8 st, tag := 6, len := 16
    spad := 0x2000, fara := fara, farb := 0x3000 }

/-- A seal posted at the end of an exchange, in one state of its generation, with HOLD or not. -/
def sealing (st : Nat) (p : PhState) (hold : Bool) : State :=
  let s := exchange (entry 13 0 0 0) st 0
  let s := modCore (modCore s 0 fun x => { x with pst := .xdone }) 1 fun x => { x with pst := .xdone }
  modPart s 0 fun x => { x with st := p, hold := hold }

set_option maxRecDepth 20000 in
/-- PhaseFlips and TaskEnds: one seal that passes, under HOLD and not; one whose generation is SEALED; each at the end of an exchange
phase and of FINAL's. -/
theorem holds_seals :
    (∀ p ∈ [PhState.exchange, .final], ∀ st ∈ [2, 3], ∀ h ∈ [true, false],
      let s := sealing st p h
      let x := getPart s 0
      x.st = p ∧ x.launch ≠ none ∧ x.holding = none ∧ x.evicted = false ∧ x.failed = none ∧ x.finalDone = false ∧ x.hold = h ∧
      x.lmap = [0, 1] ∧ (∀ c ∈ x.lmap, (getCore s c).pst = .xdone) ∧ redBlocked s 0 = false ∧ (badSeals s 0 = [] ↔ st = 2)) ∧
    let s := sealing 2 .exchange false
    let r := redWriteback s 0
    tensorPosts r 0 13 ≠ [] ∧ (∀ q ∈ tensorPosts r 0 13, q.1 = 0 ∧ (getEnt r q.2.1 q.2.2).parked = false) ∧ 0 < ttCount s ∧
    (getGen r 0).owner = 0 ∧ (getGen r 0).state = 2 ∧ liveDies s ≠ [] := by
  decide

set_option maxRecDepth 20000 in
/-- ExchangeStarts: an entry of each kind that may start; a TOPEN of a generation that this superstep has opened, and one that a
check refuses; a flip before which a TSEAL's check fails; an entry behind one that may start. -/
theorem holds_starts :
    let aud : GenAud := { idx := 0, part := 0, task := 0, ver := 1, openSs := 0, sealer := none, ops := []
                          fixedr := false }
    let may := fun (s : State) (pos : Nat) => startable s 0 pos = true ∧ (getEnt s 0 pos).gated = false
    let opened := modGran (exchange (entry 12 0 0 0) 2 0) fun g => { g with gens := [aud] }
    let refused := exchange (entry 12 0 0 0) 5 0
    let two := modCore (exchange (entry 3 1 0 1) 5 0) 0 fun x =>
      { x with spad := memWrite (memStore x.spad 0x1004 4 2) 0x1030 (xentBytes (entry 14 0 0 0)) }
    (∀ x ∈ [(14, 0), (10, 0), (11, 0), (3, 1), (1, 0), (0, 0), (2, 0)],
      let s := exchange (entry x.1 x.2 0 0) 5 0
      ((getEnt s 0 0).op, (getEnt s 0 0).far) = x ∧ may s 0 ∧ xqBefore (getCore s 0) 0 = []) ∧
    (may opened 0 ∧ (getEnt opened 0 0).op = 12 ∧ openedNow opened 0 0 = true) ∧
    (may refused 0 ∧ (getEnt refused 0 0).op = 12 ∧ openedNow refused 0 0 = false ∧ (openGen refused 0 0).isNone = true) ∧
    (let bad := [0, 1].foldl (fun s c => modCore s c fun x => { x with pst := .xdone }) (exchange (entry 13 0 0 0) 5 0)
      let x := getPart bad 0
      x.launch ≠ none ∧ x.holding = none ∧ x.evicted = false ∧ x.failed = none ∧ x.st = .exchange ∧
      (∀ c ∈ x.lmap, (getCore bad c).pst = .xdone) ∧ redBlocked bad 0 = false ∧ badSeals bad 0 ≠ []) ∧
    (may two 1 ∧ xqBefore (getCore two 0) 1 = [0] ∧ startable two 0 0 = true) ∧
    (pageOf [] 48 true = none ∧ (match translateVa (exchange (entry 1 0 0 48) 5 0) 0 0 48 true with
      | .ok l => decide (l = leaf0)
      | .error _ => false) = true ∧
      0 < leaf0.size ∧ 65536 ∣ leaf0.size ∧
      fld (readPte (exchange (entry 1 0 0 48) 5 0) 0 leaf0.at_) 63 52 + 1 < min 4095 (fld (getDie (exchange (entry 1 0 0 48) 5 0) 0).accThresh 11 0)) := by
  decide +kernel

set_option maxRecDepth 20000 in
/-- ExchangeCompletes: started entries whose transfer is done, each within one line. -/
theorem holds_completes :
    let run := fun (s : State) => exchanging (partOf s 0) = true ∧ inXq s 0 0 = true ∧ (getEnt s 0 0).started = true ∧
      (getEnt s 0 0).done = false ∧ (getEnt s 0 0).parked = false
    let walked := fun (s : State) => translateEnt s 0 0
    let pages := fun (s : State) => (xlatOf (walked s) 0 0).pages
    let fence := exchange (entry 10 0 1 0) 5 0
    let prom := exchange (entry 11 0 1 0) 5 0
    let far := exchange (entry 1 1 1 1) 5 0
    let load := exchange (entry 0 0 1 48) 5 0
    let store := exchange (entry 1 0 1 48) 2 0
    let red := modExch (exchange (entry 3 1 1 1) 5 0) 0 fun x => { x with applied := [0] }
    (run fence ∧ (getEnt fence 0 0).op = 10 ∧ fenceDone fence 0 0 = true) ∧
    (run prom ∧ (getEnt prom 0 0).op = 11 ∧ promReady prom 0 0 = true) ∧
    (run red ∧ (getEnt red 0 0).op = 3 ∧ (getEnt red 0 0).far ≠ 2 ∧ (getCore red 0).exch.applied.contains 0 = true) ∧
    (run far ∧ (getEnt far 0 0).far = 1 ∧ (getPart far 0).lmap[1]? = some 1 ∧ inQueueArea (getCore far 1) 0x3000 16 = false ∧
      conflicts far 0 0 0 0x2000 16 false none = false ∧ conflicts far 0 0 1 0x3000 16 true none = false) ∧
    (run load ∧ (getEnt load 0 0).far = 0 ∧ 48 % 64 + 16 ≤ 64 ∧ inQueueArea (getCore load 0) 0x2000 16 = false ∧
      conflicts load 0 0 0 0x2000 16 true none = false ∧ rangeCheck (pages load) (walked load) 0 0 48 16 false = .ok ∧
      (match gRead (pages load) (walked load) 0 0 48 16 with
        | .ok bs => bs.length
        | _ => 0) = 16) ∧
    (run store ∧ rangeCheck (pages store) (walked store) 0 0 48 16 true = .ok ∧
      (match gWrite (pages store) (addMark (walked store) 0 0 0 0x2000 16 false none []) 0 0 48 (sourceBytes store 0 0 0x2000 16) false false with
        | .ok _ => true
        | _ => false) = true) := by
  decide +kernel

/-- A generation of two lines in a state, with some FLAGS and a PREV. -/
def twoLines (st flags prev : Nat) : Gen :=
  { idx := 0, vbase := 0, size := 128, tid := 7, ver := 1, state := st, keyslot := 0, owner := 0
    flags := BitVec.ofNat 8 flags, prev := prev, audn := 0, audset := 0, sealph := 0 }

/-- It stands in the table, with some lines written; die 0 alone holds replicas. -/
def carry (g : Gen) (w : List Nat) : State := 
  { setGen (modGran (exchange (entry 1 0 1 0) 5 0) fun x => { x with present := 0x101 }) g with written := [(0, w)] }

/-- A core whose entry runs and of which no reduction has been applied. -/
def Runs (s : State) : Prop :=
  exchanging (partOf s 0) = true ∧ inXq s 0 0 = true ∧ (getEnt s 0 0).started = true ∧ (getEnt s 0 0).done = false ∧
    (getEnt s 0 0).parked = false ∧ (getCore s 0).exch.applied.contains 0 = false

set_option maxRecDepth 20000 in
/-- ExchangeFaults, the parking ones: a load into the queue's own area, a store of marked bytes, a copy beyond its generation;
third and fourth losses of a response. -/
theorem holds_faults :
    let own := exchange { entry 0 0 1 0 with spad := 0x1040 } 5 0
    let marked := modExch (exchange (entry 1 0 1 0) 5 0) 0 fun x =>
      { x with marks := [{ lo := 0x200F, len := 1, write := true, core := 1, pos := 0, xred := none, data := [], past := false }], resent := [(0, 2)] }
    let copy := exchange { entry 2 0 1 0 with farb := 65528 } 5 0
    let lost := modExch marked 0 fun x => { x with resent := [(0, 3)] }
    (Runs own ∧ (getEnt own 0 0).op = 0 ∧ inQueueArea (getCore own 0) 0x1040 16 = true) ∧
    (Runs marked ∧ conflicts marked 0 0 0 0x2000 16 false none = true ∧ waiting marked 0 0 = false ∧
      spGet 0 (getCore marked 0).exch.resent 0 = 2) ∧
    (waiting lost 0 0 = false ∧ spGet 0 (getCore lost 0).exch.resent 0 = 3) ∧
    (Runs copy ∧ (getEnt copy 0 0).op = 2 ∧
      rangeCheck (xlatOf (translateEnt copy 0 0) 0 0).pages (translateEnt copy 0 0) 0 0 65528 16 false = .fault 0x40 65528) := by
  unfold Runs
  decide +kernel

set_option maxRecDepth 20000 in
/-- ExchangeFaults, the others, and ReductionApplies: a tag already in the target's window; a parked entry; partitions in their
exchange phase or not; a reduction into another core. -/
theorem holds_reruns :
    let add := exchange (entry 3 1 1 1) 5 0
    let dup := modExch add 1 fun x => { x with dedup := [(2 ^ 32, [6])] }
    let parked := exchange (entry 1 1 5 1) 5 0
    (Runs dup ∧ (getEnt dup 0 0).op = 3 ∧ (appliedTags dup 0 (getEnt dup 0 0)).contains 6 = true) ∧
    ((getCore parked 0).part = some 0 ∧ (xqAll (getCore parked 0))[0]? = some 0 ∧ (getEnt parked 0 0).parked = true ∧
      (getEnt parked 0 0).far ≠ 0) ∧
    exchanging (getPart ready 0) = false ∧ exchanging (getPart parked 0) = true ∧ (getPart parked 0).lmap.Nodup ∧
    qCount (getCore parked 0).spad 0x1000 2 ≤ qwDepth (getCore parked 0).xq ∧
    (Runs add ∧ (getEnt add 0 0).len % 16 = 0 ∧ (getPart add 0).lmap[1]? = some 1 ∧
      inQueueArea (getCore add 1) 0x3000 16 = false ∧ conflicts add 0 0 0 0x2000 16 false none = false ∧
      conflicts add 0 0 1 0x3000 16 true (some (getEnt add 0 0).sig) = false ∧
      (appliedTags add 0 (getEnt add 0 0)).contains 6 = false) := by
  unfold Runs
  decide +kernel

set_option maxRecDepth 20000 in
/-- ReductionApplies: into the core's own scratchpad; into a line of an OPEN generation that is fresh, has an entry of the same
kind, one of another kind, or was written. -/
theorem holds_reductions :
    let own := exchange (entry 3 1 1 0) 5 0
    let glob := exchange (entry 3 0 1 48) 2 0
    let sig := (getEnt glob 0 0).sig
    let red := fun (k : XSig) => modDie glob 0 fun x =>
      { x with red := [{ idx := 0, line := 0, part := 0, landing := false, sig := k, data := 5 }] }
    let written := { glob with written := [(0, [0])] }
    let pages := fun (s : State) => (xlatOf (translateEnt s 0 0) 0 0).pages
    let m := fun (s : State) => addMark (translateEnt s 0 0) 0 0 0 0x2000 16 false (some sig) []
    let checked := fun (s : State) => match writeChecks (pages s) (m s) 0 0 48 with
      | .ok (l, g) => some (l.home, g.idx, (48 - g.vbase) / 64)
      | _ => none
    let found := fun (s : State) => (findRed (m s) 0 0).map fun x => decide (x.2.sig = sig)
    (Runs own ∧ (getPart own 0).lmap[0]? = some 0 ∧ inQueueArea (getCore own 0) 0x3000 16 = false ∧
      conflicts own 0 0 0 0x3000 16 true (some (getEnt own 0 0).sig) = false ∧
      conflicts own 0 0 0 0x2000 16 false (some (getEnt own 0 0).sig) = false ∧
      (appliedTags own 0 (getEnt own 0 0)).contains 6 = false) ∧
    (Runs glob ∧ Runs (red sig) ∧ Runs written) ∧
    (appliedTags glob 0 (getEnt glob 0 0)).contains 6 = false ∧ conflicts glob 0 0 0 0x2000 16 false (some sig) = false ∧
    rangeCheck (pages glob) (translateEnt glob 0 0) 0 0 48 16 true = .ok ∧ rangeCheck (pages (red sig)) (translateEnt (red sig) 0 0) 0 0 48 16 true = .ok ∧
    [checked glob, checked (red sig), checked (red { sig with op := 8 }), checked written] = List.replicate 4 (some (0, 0, 0)) ∧
    [found glob, found (red sig), found (red { sig with op := 8 }), found written] = [none, some true, some false, none] ∧
    (getPart glob 0).rlines = [] ∧ writtenOf glob 0 = [] ∧ writtenOf written 0 = [0] ∧ (getDie glob 0).red.length < 32768 ∧
    (match fillLine (m glob) 0 (getGen glob 0) 0 with
      | .ok bs => bs.length
      | _ => 0) = 64 := by
  unfold Runs
  decide +kernel

/-- An entry of 80 bytes from the last quarter of a line on, over two lines. -/
def longEntry (op : Nat) : XEnt := { entry op 0 1 48 with len := 80, farb := 160 }

set_option maxRecDepth 20000 in
/-- ExchangeProgress: a load and a store of two lines, whose pages are translated. -/
theorem holds_long_transfers :
    let pages := fun (s : State) => (xlatOf (translateEnt s 0 0) 0 0).pages
    let load := exchange (longEntry 0) 5 0
    let store := exchange (longEntry 1) 2 0
    let wide := fun (s : State) => modDie { s with side := [{ lo := 0x8000, count := 8, key := 3, tid := 7, ver := 1, line0 := 0, zero := false }] } 0 id
    let reads := fun (s : State) (va n : Nat) => match gRead (pages s) (translateEnt s 0 0) 0 0 va n with
      | .ok bs => bs.length
      | _ => 0
    let writes := fun (s : State) (b : State) (va n : Nat) => match gWrite (pages s) b 0 0 va (List.replicate n 1) false false with
      | .ok b => some b
      | _ => none
    (Runs load ∧ (48 + 80 - 1) / 64 + 1 - 48 / 64 = 2 ∧ inQueueArea (getCore load 0) 0x2000 80 = false ∧
      conflicts load 0 0 0 0x2000 80 true none = false ∧ rangeCheck (pages load) (translateEnt load 0 0) 0 0 48 80 false = .ok) ∧
    (reads (wide load) 48 16 = 16 ∧ reads (wide load) 64 64 = 64) ∧
    (Runs store ∧ conflicts store 0 0 0 0x2000 80 false none = false ∧ rangeCheck (pages store) (translateEnt store 0 0) 0 0 48 80 true = .ok) ∧
    (((writes store (translateEnt store 0 0) 48 16).bind fun b => writes store b 64 64).isSome = true) := by
  unfold Runs
  decide +kernel

set_option maxRecDepth 20000 in
/-- ExchangeProgress: a copy from a RELEASED generation into an OPEN one. -/
theorem holds_copies :
    let released : Gen := { idx := 1, vbase := 65536, size := 65536, tid := 8, ver := 1, state := 5, keyslot := 0, owner := 0
                            flags := 0, prev := 0xFFFFFFFF, audn := 0, audset := 0, sealph := 0 }
    let s := { exchange { entry 2 0 1 48 with len := 16, farb := 65536 } 2 0 with ttCtl := 0x2000100000 }
    let s := { setGen s released with side := [{ lo := 0x8400, count := 1, key := 3, tid := 8, ver := 1, line0 := 0, zero := false }] }
    let b := translateEnt s 0 0
    let pages := (xlatOf b 0 0).pages
    Runs s ∧ (getEnt s 0 0).op = 2 ∧ (48 + 16 - 1) / 64 + 1 - 48 / 64 = 1 ∧
    rangeCheck pages b 0 0 65536 16 false = .ok ∧ rangeCheck pages b 0 0 48 16 true = .ok ∧ linesOf 65536 16 = [(65536, 16)] ∧
    (match readRange pages b 0 0 [(65536, 16)] with
      | .ok bs => match gWrite pages (noteRead b 0 65536) 0 0 48 bs false false with
        | .ok _ => bs.length
        | _ => 0
      | _ => 0) = 16 := by
  unfold Runs
  decide +kernel

set_option maxRecDepth 20000 in
/-- ExchangeProgress and ExchangeFaults, FAR 2: a read of this device's own released bytes; a write to it with room in the hold or
none; one to an invalid collective, of a wrong kind, and to a device without a port. -/
theorem holds_off_package :
    let own := fun (e : XEnt) => let s := exchange { e with farb := 5 * 2 ^ 46 } 5 0
      { s with bilsol := { s.bilsol with devnum := 2 ^ 63 + 5 } }
    let load := own (entry 0 2 1 7)
    let store := own (entry 1 2 1 7)
    let full := modGran store fun g => { g with geodeCtl := 0 }
    let coll := fun (v : Bool) => modGran store fun g => { g with
      colls := [{ id := 3, tid := 7, members := [5], sessions := [], uses := [], valid := v, epoch := 0, changed := [] }] }
    let away := exchange { entry 1 2 1 7 with farb := 6 * 2 ^ 46 } 5 0
    (Runs load ∧ (getEnt load 0 0).far = 2 ∧ inQueueArea (getCore load 0) 0x2000 16 = false ∧ conflicts load 0 0 0 0x2000 16 true none = false ∧
      offCheck (translateEnt load 0 0) (getEnt load 0 0) = none ∧
      (remoteBytes (translateEnt load 0 0) (getEnt load 0 0)).map List.length = some 16) ∧
    (Runs store ∧ offCheck (translateEnt store 0 0) (getEnt store 0 0) = none ∧ conflicts store 0 0 0 0x2000 16 false none = false ∧
      store.gran.hold = [] ∧ 16 ≤ fld store.gran.geodeCtl 15 8 * 2 ^ 20) ∧
    (offCheck (translateEnt full 0 0) (getEnt full 0 0) = none ∧ fld full.gran.geodeCtl 15 8 * 2 ^ 20 < 16 ∧ full.gran.hold = []) ∧
    (∀ v, (collOf (coll v) 7).map (·.valid) = some v ∧ Runs (coll v) ∧ (getEnt (coll v) 0 0).op = 1) ∧
    (collOf away 7 = none ∧ linkUp away (fld (getEnt away 0 0).farb 63 46) = false ∧ Runs away) := by
  unfold Runs
  decide +kernel

/-! ## Witnesses: engines and audit -/

/-- Partition 0 computing on core 0 with a queue of one operation of a minor opcode whose parameter block stands at 0x4000. -/
def engine (minor : Nat) (block : List (Nat × Nat × Nat)) (f : Engine → Engine) : State :=
  let op : MatOp := { num := 3, minor := minor, drain := .raw, block := 0x4000, grp := 0, lane := 0, pc := 4, clause := 0, phase := 0
                      time := 0, mode := .rne, pol := .inf, ebase := 0, ctxs := [(1, 4)], opened := [(1, 4)] }
  readyCore fun x =>
    { x with spad := block.foldl (fun m e => memStore m (0x4000 + e.1) e.2.1 e.2.2) x.spad, eng := f { x.eng with queue := [op] } }

/-- The queued minor opcodes, with the core's phase state; the parameter block. -/
def queued (s : State) : List Nat × CorePhase := ((getCore s 0).eng.queue.map (·.minor), (getCore s 0).pst)
def blockOf (s : State) : PBlock := ((getCore s 0).eng.queue.head?.map fun _ => readBlock (engineView s 0) 0x4000).getD
  (readBlock [] 0)

/-- A block without errors; a block whose tile lies in the accumulator. -/
abbrev Clean (s : State) : Prop :=
  (blockOf s).format = 1 ∧ (blockOf s).flags = 0 ∧ (blockOf s).wctx = 0 ∧ (blockOf s).rsv = 0 ∧ bit (getCore s 0).eng.estat 7 = false
abbrev Tile (s : State) : Prop :=
  let b := blockOf s
  b.accn ≤ 2 ∧ 1 ≤ b.accrows ∧ b.accrows ≤ 64 ∧ b.accbase % 64 = 0 ∧ b.accbase + b.accrows * 64 * 2 ^ b.accn ≤ 16384

/-- EngineCompletions: an engine after an error, of a core that computes or drains, and a block of another format. -/
theorem holds_errors :
    let err := engine 1 [(0, 1, 1), (1, 1, 1), (2, 1, 1)] fun x => { x with estat := 0x80 }
    let bad := engine 1 [(0, 1, 2)] id
    (∃ g < (getCore err 0).ngroups, ((getCore err 0).group g).synced = false ∧ ((getCore err 0).group g).finished = false) ∧
    queued (modCore err 0 fun x => { x with pst := .draining }) = ([1], .draining) ∧
    (queued err = ([1], .compute) ∧ bit (getCore err 0).eng.estat 7 = true ∧ (blockOf err).flags % 2 = 1 ∧
      spFind [(1, 4)] (blockOf err).wctx = some 4) ∧
    (queued bad = ([1], .compute) ∧ (blockOf bad).format ≠ 1 ∧ (blockOf bad).flags % 2 = 0 ∧ bit (getCore bad 0).eng.estat 7 = false ∧
      ((getCore bad 0).flog.tail - (getCore bad 0).flog.head).toNat ≠ 16) := by
  decide

/-- EngineCompletions: MLDB into the last rows of the scratchpad. -/
theorem holds_mldb :
    let s := engine 0 [(0, 1, 1), (3, 1, 1), (4, 1, 5), (0xC, 4, 0xB8000), (0x10, 4, 128), (0x30, 8, 0xFFFFFFFFFFFFFFFF)] id
    let b := blockOf s
    queued s = ([0], .compute) ∧ Clean s ∧ b.accn = 0 ∧ b.accrows = 0 ∧ b.accbase = 0 ∧
    b.rscale = 0 ∧ b.cscale = 0 ∧ b.row0 = 0 ∧ b.rowmask = 0 ∧ b.slot = 1 ∧ b.btype = 5 ∧
    (∀ j < 256, bit b.colmask j = true → j < 1024 / tyWidth b.btype) ∧ b.addr % 16 = 0 ∧
    b.stride % 16 = 0 ∧ 128 ≤ b.stride ∧ b.addr + 255 * b.stride + 128 = 0xC0000 := by
  decide +kernel

/-- EngineCompletions: MZERO of the accumulator's last row. -/
theorem holds_mzero :
    let s := engine 14 [(0, 1, 1), (6, 1, 1), (8, 2, 16320)] id
    let b := blockOf s
    queued s = ([14], .compute) ∧ Clean s ∧ Tile s ∧ b.slot = 0 ∧ b.btype = 0 ∧ b.addr = 0 ∧ b.stride = 0 ∧ b.rscale = 0 ∧
    b.cscale = 0 ∧ b.row0 = 0 ∧ b.col0 = 0 ∧ b.rowmask = 0 ∧ b.colmask = 0 := by
  decide

/-- EngineCompletions: MMA.I16 of the scratchpad's last row. -/
theorem holds_mma :
    let s := engine 5 [(0, 1, 1), (6, 1, 1), (8, 2, 64), (0xC, 4, 0xBFE00), (0x10, 4, 512), (0x28, 8, 1)] fun x =>
      { x with slot0 := { x.slot0 with valid := true, ty := 4, colmask := 1 } }
    let b := blockOf s
    let slot := (getCore s 0).eng.slot0
    queued s = ([5], .compute) ∧ Clean s ∧ Tile s ∧ (∀ k < 256, bit (getCore s 0).eng.bad k = false) ∧
    (∀ i < 64, bit b.rowmask i = true → i < b.accrows) ∧ b.slot = 0 ∧ b.btype = 0 ∧ b.rscale = 0 ∧ b.cscale = 0 ∧ b.col0 = 0 ∧
    b.colmask = 0 ∧ 64 * 2 ^ b.accn = 1024 / tyWidth 4 ∧ slot.valid = true ∧ tyWidth slot.ty = tyWidth 4 ∧
    (∀ j < 256, bit slot.colmask j = true → j < 64) ∧ b.addr % 16 = 0 ∧ b.stride % 16 = 0 ∧ 32 * 16 ≤ b.stride ∧
    ∀ i < 64, bit b.rowmask i = true → b.addr + i * b.stride + 32 * 16 ≤ 0xC0000 := by
  decide +kernel

/-- EngineCompletions: MDRAIN.RAW of a full tile of one row into the last bytes of the scratchpad. -/
theorem holds_mdrain :
    let s := engine 13 [(0, 1, 1), (6, 1, 2), (8, 2, 64), (5, 1, 0), (0xC, 4, 0xBFC00), (0x10, 4, 512), (0x28, 8, 3)] id
    let b := blockOf s
    queued s = ([13], .compute) ∧ Clean s ∧ Tile s ∧ (∀ k < 256, bit (getCore s 0).eng.bad k = false) ∧ b.slot = 0 ∧ b.btype = 0 ∧
    b.rscale = 0 ∧ b.cscale = 0 ∧ (∀ j < 256, bit b.colmask j = true → j < 64) ∧ b.addr % 16 = 0 ∧
    b.stride % 16 = 0 ∧ 8 * 64 ≤ b.stride ∧ (∀ i < 64, bit b.rowmask i = true → i < b.accrows) ∧
    b.addr + 1 * b.stride + 8 * 63 + 8 = 0xC0000 := by
  decide +kernel

/-- EngineCompletions: MCONV.N8 with a shape record whose first output lies outside the image and whose second lies inside. -/
theorem holds_mconv :
    let s := engine 10 [(0, 1, 1), (5, 1, 1), (6, 1, 2), (8, 2, 0), (0xC, 4, 0x5000), (0x28, 8, 3), (0x1000, 4, 0xBFF00),
        (0x1004, 2, 256), (0x1006, 2, 1), (0x1008, 4, 256), (0x100C, 2, 1), (0x100E, 2, 2), (0x1014, 4, 0x01010101),
        (0x101B, 1, 1), (0x101E, 2, 7)] fun x =>
      { x with slot0 := { x.slot0 with valid := true, ty := 3, colmask := 1 } }
    let b := blockOf s
    let slot := (getCore s 0).eng.slot0
    let f := fun (at_ n : Nat) => memRead (getCore s 0).spad (b.addr + at_) n
    let l := fun (i : Nat) => f 0x10 2 * f 0xE 2 + f 0x12 2 + i
    let ix := fun (i : Nat) => ((l i % f 0xE 2 * f 0x15 1 + f 0x19 1 * f 0x17 1 : Nat) : Int) - f 0x1B 1
    queued s = ([10], .compute) ∧ Clean s ∧ Tile s ∧ (∀ k < 256, bit (getCore s 0).eng.bad k = false) ∧
    (∀ i < 64, bit b.rowmask i = true → i < b.accrows) ∧ b.slot = 0 ∧ b.btype = 0 ∧ b.rscale = 0 ∧ b.cscale = 0 ∧ b.col0 = 0 ∧
    b.colmask = 0 ∧ 64 * 2 ^ b.accn = 1024 / tyWidth 3 ∧ slot.valid = true ∧ tyWidth slot.ty = tyWidth 3 ∧
    (∀ j < 256, bit slot.colmask j = true → j < 128) ∧ b.addr % 16 = 0 ∧ b.stride = 0 ∧ b.addr + 32 ≤ 0xC0000 ∧
    f 0 4 % 16 = 0 ∧ f 4 2 % 16 = 0 ∧ f 8 4 % 16 = 0 ∧ f 6 2 ≠ 0 ∧ f 0xC 2 ≠ 0 ∧ f 0xE 2 ≠ 0 ∧ f 0x12 2 < f 0xE 2 ∧
    (∀ o ∈ [0x14, 0x15, 0x16, 0x17], 1 ≤ f o 1 ∧ f o 1 ≤ 15) ∧ f 0x1C 2 = 0 ∧ f 0x1E 2 < 2 ^ 8 ∧ ix 0 = -1 ∧ ix 1 = 0 ∧
    f 0 4 + 32 * 8 = 0xC0000 := by
  decide +kernel

/-- EngineCompletions: MDRAIN.I8 of one row with scales, under policy SAT. -/
theorem holds_drained :
    let s := engine 13 [(0, 1, 1), (6, 1, 1), (8, 2, 0), (5, 1, 0), (0xC, 4, 0xBFFC0), (0x10, 4, 64), (0x14, 4, 0x6000),
        (0x18, 4, 0x7000), (0x28, 8, 1), (0x2000, 4, 0x3F800000), (0x3000, 4, 0x3F800000)] id
    let s := modCore s 0 fun x => { x with eng := { x.eng with queue := x.eng.queue.map fun o => { o with drain := .i8, pol := .sat } } }
    let b := blockOf s
    queued s = ([13], .compute) ∧ Clean s ∧ Tile s ∧ (∀ k < 256, bit (getCore s 0).eng.bad k = false) ∧ b.slot = 0 ∧ b.btype = 0 ∧
    (getCore s 0).eng.queue.map (fun o => (o.drain, decide (o.pol = .trap))) = [(.i8, false)] ∧
    (∀ j < 256, bit b.colmask j = true → j < 64) ∧ b.addr % 16 = 0 ∧ b.stride % 16 = 0 ∧ 64 ≤ b.stride ∧
    (∀ i < 64, bit b.rowmask i = true → i < b.accrows) ∧ b.addr + 0 * b.stride + 64 = 0xC0000 ∧
    b.rscale % 16 = 0 ∧ b.cscale % 16 = 0 ∧ b.rscale + 4 * 64 ≤ 0xC0000 ∧ b.cscale + 4 * 256 ≤ 0xC0000 := by
  decide +kernel

/-- The first check of R300 that the queued operation fails, or 0. -/
def firstError (s : State) : Option Nat :=
  (getCore s 0).eng.queue.head?.map fun o => opCheck (engineView s 0) (getCore s 0).eng o (blockOf s)

/-- EngineCompletions: an operation that fails each check of R300 and no earlier one. -/
theorem holds_codes :
    let slot := fun (x : Engine) => { x with slot0 := { x.slot0 with valid := true, ty := 4, colmask := 1 } }
    let mma := [(0, 1, 1), (6, 1, 1), (8, 2, 64), (0xC, 4, 0xBFE00), (0x10, 4, 512), (0x28, 8, 1)]
    let conv := [(0, 1, 1), (6, 1, 1), (0xC, 4, 0x5000), (0x28, 8, 1), (0x1004, 2, 8)]
    [firstError (engine 1 [(0, 1, 2)] id), firstError (engine 14 [(0, 1, 1), (6, 1, 65)] id), firstError (engine 5 mma id),
      firstError (engine 5 (mma ++ [(0x28, 8, 2)]) slot), firstError (engine 5 (mma ++ [(0xC, 4, 0xBFE10)]) slot),
      firstError (engine 11 conv slot), firstError (engine 5 mma fun x => { slot x with bad := 2 }),
      firstError (engine 5 (mma ++ [(1, 1, 1), (2, 1, 2)]) slot)] = [1, 2, 3, 4, 5, 6, 7, 8].map some := by
  decide +kernel

/-- EngineCompletions: witnessed operations that pass them, with a context open since they issued. -/
theorem holds_witnessed :
    let slot := fun (x : Engine) => { x with slot0 := { x.slot0 with valid := true, ty := 4, colmask := 1 } }
    let wit := [(0, 1, 1), (1, 1, 1), (2, 1, 1)]
    let mma := engine 5 (wit ++ [(6, 1, 1), (8, 2, 64), (0xC, 4, 0xBFE00), (0x10, 4, 512), (0x28, 8, 1)]) slot
    [firstError (engine 0 (wit ++ [(4, 1, 5), (0xC, 4, 0xB8000), (0x10, 4, 128)]) id), firstError mma,
      firstError (engine 13 (wit ++ [(6, 1, 2), (8, 2, 64), (0xC, 4, 0xBFC00), (0x10, 4, 512), (0x28, 8, 3)]) id)] =
      [some 0, some 0, some 0] ∧
    (getCore mma 0).eng.slot0.brCtx = none ∧ ctx2.uid = 4 ∧ ctx2.x < 2 ^ 61 - 1 ∧ ctx2.y < 2 ^ 61 - 1 ∧
    (getCore mma 0).eng.queue.map (fun o => (spFind o.ctxs (blockOf mma).wctx, spFind o.opened (blockOf mma).wctx)) =
      [(some 4, some 4)] := by
  decide +kernel

/-- TimelineReturns and AssayCompletions: waits that are over and that are not; the four commands of the assay queue, and
an operation bound to the closing context. -/
theorem holds_timelines :
    let wait := fun (w : Wait) => readyGroup fun g => { g with c0 := some { clause1 with wait := w } }
    let m := wait (.mwait 2 1)
    let m' := modCore m 0 fun x => { x with eng := { x.eng with mtl := 2, firsterr := 2 } }
    let a := wait (.await 1)
    let a' := modCore a 0 fun x => { x with asy := { x.asy with atl := 1 } }
    let c := wait (.mstat true (.w 4))
    let c' := modCore c 0 fun x => { x with eng := (getCore (engine 1 [(0, 1, 1)] id) 0).eng }
    let q := fun (l : List AssayCmd) => readyCore fun x => { x with asy := { x.asy with ctxs := [ctx2], queue := l } }
    let bound := modCore (engine 1 [(1, 1, 1), (2, 1, 1)] id) 0 fun x => { x with asy := { x.asy with ctxs := [ctx2], queue := [.aclose 4] } }
    ((getGroup m 0 0).port false).map (·.wait) = some (.mwait 2 1) ∧ (getCore m 0).eng.mtl < 2 ∧ 2 ≤ (getCore m' 0).eng.mtl ∧
    ((getGroup a 0 0).port false).map (·.wait) = some (.await 1) ∧ (getCore a 0).asy.atl < 1 ∧ 1 ≤ (getCore a' 0).asy.atl ∧
    ((getGroup c 0 0).port false).map (·.wait) = some (.mstat true (.w 4)) ∧ (getGroup c 0 0).port true = none ∧
    (getCore c 0).eng.queue = [] ∧ (getCore c' 0).eng.queue ≠ [] ∧
    (getCore (q [.awit 4]) 0).asy.queue = [.awit 4] ∧ (getCore (q [.aemit 4 []]) 0).asy.queue = [.aemit 4 []] ∧
    (getCore (q [.aclose 4]) 0).asy.ctxs.find? (fun k => decide (k.uid = 4)) = some ctx2 ∧ (getCore (q [.aclose 4]) 0).eng.queue = [] ∧
    (getCore (q [.auto 4]) 0).asy.queue = [.auto 4] ∧ (getCore bound 0).asy.queue = [.aclose 4] ∧
    (getCore bound 0).eng.queue.map (fun o => spFind o.opened (readBlock (getCore bound 0).spad o.block).wctx) = [some 4] ∧
    (readBlock (getCore bound 0).spad 0x4000).flags % 2 = 1 := by
  decide +kernel

/-- A record of kind 2 of superstep 0 with three values. -/
def rec2 (v0 v1 v2 : Word) : WitRec :=
  { num := 0, kind := 2, incomplete := false, engerr := false, fixedr := false, die := 0, core := 0, ctx := 1, lcore := 0, part := 0
    opid := 9, nitems := 0, phase := 0, v0 := v0, v1 := v1, v2 := v2, v3 := 0, refs := 0, onGen := none, alpha := 2, beta := 3, task := 0, exec := 0 }

/-- `ready` with that record, partition 0 at a phase under an audit policy. -/
def recorded (v0 v1 v2 : Word) (phase : Word) (st : PhState) (audit : Word) : State :=
  let s := modGran ready fun g => { g with recs := [rec2 v0 v1 v2], nextRec := 1 }
  modPart s 0 fun x => { x with phase := phase, st := st, launch := some { Launch.zero with audit := audit } }

/-- A record of a package without generations, of the task that partition 0 runs with no failure, hold or operation pending. -/
def fresh (s : State) (r : WitRec) : Bool :=
  let x := getPart s 0
  decide ((s.gran.recs.find? fun z => decide (z.num = r.num)) = some r ∧ s.gran.gens = [] ∧ s.gran.diags = [] ∧
    x.launch ≠ none ∧ x.taskid = r.task ∧ x.phase ≠ r.phase ∧ x.failed = none ∧ x.st ≠ .aborting ∧ x.st ≠ .rollback ∧
    x.holding = none ∧ x.evicted = false ∧ x.busy = none)

/-- RecordTests: a record that passes, and one that fails, met before its superstep has ended, after it under ONFAIL 0 with
checkpoints, and after it under ONFAIL 1. -/
theorem holds_records :
    let fails := fun (r : WitRec) => decide (r.v0 ≠ 0) || decide (r.v1 ≠ r.v2)
    let audit := fun (s : State) => ((getPart s 0).launch.map Launch.audit).getD 0
    let soon := recorded 0 1 2 1 .exchange 0
    let back := recorded 5 1 1 2 .compute 0x1000000
    let stop := recorded 5 1 1 2 .compute 0x200000
    (fresh (recorded 0 1 1 1 .exchange 0) (rec2 0 1 1) ∧ fails (rec2 0 1 1) = false) ∧
    (fresh soon (rec2 0 1 2) ∧ fails (rec2 0 1 2) = true ∧ (getPart soon 0).phase.toNat = 1 ∧ (getPart soon 0).st = .exchange) ∧
    (fresh back (rec2 5 1 1) ∧ fails (rec2 5 1 1) = true ∧ bit (audit back) 21 = false ∧ fld (audit back) 31 24 ≠ 0 ∧
      (getPart back 0).failKeys.contains (9, 0) = false) ∧
    (fresh stop (rec2 5 1 1) ∧ bit (audit stop) 21 = true) := by
  decide +kernel

/-- Generation 0 in a state, its first line a descriptor of an operator with M = N = 1 and K = 0, and an audit policy that names it. -/
def described (opid st : Nat) : State :=
  let b := modGran (carry (twoLines st 0 0xFFFFFFFF) [0, 1]) fun x => { x with chkMode := 1 }
  let b := modPart b 0 fun x => { x with launch := some { Launch.zero with audit := 0x100000 } }
  let line := leBytes 4 opid ++ leBytes 4 0 ++ leBytes 4 1 ++ leBytes 4 1 ++ List.replicate 48 0
  match ownerWalk b (lowDie b) (getGen b 0).owner 0 with
  | some l => storeLine b (getGen b 0) l 0 line
  | none => b

/-- A record of a kind whose references all name that generation. -/
def recOf (kind : Nat) (opid : BitVec 32) (v0 v1 v2 : Word) : WitRec :=
  { rec2 v0 v1 v2 with kind := kind, opid := opid, refs := BitVec.ofNat 288 ((7 + 2 ^ 64) * (1 + 2 ^ 96 + 2 ^ 192)), onGen := some (0, 1) }

set_option maxRecDepth 20000 in
/-- RecordTests: MPROJ records without and with a descriptor, whose spot fails or passes, or whose table is not RELEASED; RESID, ELEM
records of each outcome. -/
theorem holds_verdicts :
    let d := described 9 5
    auditOf d 0 0 = 0x100000 ∧ (descrFor d 0x100000 9).map (fun x => (x.m * x.n, x.dtype)) = some (1, 0) ∧
    testRecord d (recOf 1 8 3 3 0) = .pass ∧ testRecord d (recOf 1 9 3 3 0) = .fail 4 0 0 9 ∧
    testRecord (described 0 5) (recOf 1 0 3 3 0) = .pass ∧ testRecord d (recOf 1 9 3 4 0) = .fail 1 0 0 0 ∧
    testRecord d (recOf 4 8 0 1 0) = .pass ∧ testRecord d (recOf 4 8 1 1 0) = .fail 8 0 0 0 ∧
    testRecord d (recOf 5 8 8 1 0) = .fail 11 0 0 0 ∧ testRecord d (recOf 5 8 16 0 0) = .pass ∧
    testRecord d (recOf 5 8 16 0 1) = .fail 9 0 0 0 ∧ testRecord d (recOf 5 8 1 1 18) = .fail 10 0 0x3F800000 9 := by
  decide +kernel

set_option maxRecDepth 20000 in
/-- RecordTests: a record of a generation that is SEALED, or READY again. -/
theorem holds_held_records :
    testRecord (described 9 3) (recOf 5 8 16 0 0) = .hold ∧ testRecord (described 9 1) (recOf 5 8 16 0 0) = .fail 10 0 0 0 := by
  decide +kernel

set_option maxRecDepth 20000 in
/-- HorizonMarks: the last mark of superstep 0, and one of two; a mark that comes too soon. -/
theorem holds_marks :
    let one := bootedPart fun x => { x with phase := 1 }
    let two := bootedPart fun x => { x with phase := 1, lmap := [0, 1] }
    (getCore one 0).part = some 0 ∧ (getPart one 0).launch ≠ none ∧ (getPart one 0).st ≠ .rollback ∧ 2 * 0 + 1 ≤ (getPart one 0).phase.toNat ∧
    (getPart one 0).lmap[(getCore one 0).lcore]? = some 0 ∧ (spGet [] (getPart one 0).sent 0).contains 0 = false ∧
    (getCore one 0).asy.ctxs = [] ∧ 0 = (getPart one 0).passSs ∧ (getPart one 0).lmap.length = 1 ∧ one.gran.recs = [] ∧
    (getPart one 0).failedSs.contains 0 = false ∧ (getPart one 0).phase.toNat < 2 * 1 + 1 ∧
    (spGet [] (getPart two 0).sent 1).contains (getPart two 0).passSs = false ∧ (getPart two 0).lmap.length = 2 := by
  decide +kernel

/-- A generation that partition 0 has sealed at PHASE 0, and its directory entry; the one held write of device 5, to which port 0
of die 0 leads. -/
def aud0 : GenAud :=
  { idx := 0, part := 0, task := 0, ver := 1, openSs := 0, sealer := some 0, ops := [{ task := 0, opid := 9, ss := 1, passed := true, failed := false }]
    fixedr := false }
def held0 : Outbound :=
  { die := 0, core := 0, part := 0, task := 0, ss := 0, dev := 5, tid := 7, off := 0, op := .write, data := [1], sent := [], push := none, seq := 0
    parked := none, port := none, sentAt := 0, tries := 0, image := [], side := [] }
def staged (b : GenAud) (n : Nat) : State :=
  let s := modGran (exchange (entry 1 0 1 0) 4 0) fun g => { g with gens := [b], hold := [held0] }
  let s := { s with bilsol := { s.bilsol with route := [(5, 1)], port := [(0, 3)] } }
  modPart s 0 fun x =>
    { x with ckpts := [{ ss := 1, num := 1, seq := 0, result := 0, resw := [], bases := [] }], passSs := n
             launch := some { Launch.zero with audit := 0x1000000 } }

set_option maxRecDepth 20000 in
/-- HorizonAndRelease: a STAGED generation that may be released and ones that may not; held writes that may leave and that may not;
one that has left, whose port has gone down, sent again twice and three times. Whether another device has acknowledged it is the
implementation's. -/
theorem holds_release :
    let good := staged aud0 1
    let open_ := staged { aud0 with ops := [{ task := 0, opid := 9, ss := 1, passed := false, failed := false }] } 0
    let early := staged aud0 0
    (good.gran.gens.find? fun b => decide (b.idx = 0)) = some aud0 ∧ (getGen good 0).state = 4 ∧ (getGen good 0).ver = 1 ∧
    bit (getGen good 0).flags 3 = false ∧ good.gran.recs = [] ∧ (∀ b ∈ good.gran.gens, releasedFirst good b aud0 = false) ∧
    (getPart good 0).launch ≠ none ∧ (getPart good 0).taskid = 0 ∧
    (∃ c ∈ (getPart good 0).ckpts, (((getGen good 0).sealph.toNat - 1) / 2) < c.ss ∧ c.ss ≤ (getPart good 0).passSs) ∧
    (∃ b ∈ open_.gran.gens, ∃ q ∈ b.ops, q.passed = false) ∧ early.gran.ended = [] ∧
    ¬ (∃ c ∈ (getPart early 0).ckpts, 0 < c.ss ∧ c.ss ≤ (getPart early 0).passSs) ∧ good.gran.hold = [held0] ∧
    slotTorn good (getGen good 0).keyslot = false ∧ good.gran.wire = [] ∧
    (∀ n ∈ [2, 3], let o := { held0 with tries := n }
      let b := modGran good fun g => { g with wire := [o] }
      b.gran.wire = [o] ∧ o.die = 0 ∧ o.parked = none ∧ o.port = none ∧ linkUp b o.dev.toNat = true) ∧
    good.gran.colls = [] ∧ ownDevice good 5 = false ∧ portsTo good 5 = [0] ∧ (getPart good 0).st ≠ .aborting ∧
    postedBefore held0 held0 = false ∧ copyMissing good held0 = false ∧ booted.gran.hold = [] ∧
    ((getPart early 0).launch.map fun l => fld l.audit 31 24) ≠ some 0 := by
  decide +kernel

set_option maxRecDepth 20000 in
/-- RollbackAndRetirement: a failure with a checkpoint to return to, the first or a later one, whose images read back or not; one
whose copies are not carried yet; a diagnostic rerun to compare under a slot; orders to retire a core, a string and a die, free
and bound. -/
theorem holds_rollback :
    let e := FrecEnt.blank ready 1 5 0 0
    let f : Failed := { ss := 1, ent := e, idx := none }
    let k := fun (n : Nat) => ({ ss := n, num := n, seq := 0, result := 0, resw := [], bases := [0x400000] } : Ckpt)
    let rolls := fun (n : Nat) (x : Part) => { x with st := .rollback, failed := some f, ckpts := [k n], passSs := 1 }
    let s := bootedPart (rolls 0)
    let later := bootedPart (rolls 1)
    let none_ := bootedPart fun x => { rolls 1 x with lmap := [] }
    let waits := modPart (modGran (setGen (carry (twoLines 3 0 1) [0]) { twoLines 3 0 0xFFFFFFFF with idx := 1, vbase := 128, ver := 0 })
      fun g => { g with gens := [{ aud0 with ops := [{ task := 0, opid := 0, ss := 1, passed := false, failed := true }] }] }) 0 (rolls 1)
    let r : Rerun := { ver := 1, kept := true, differ := 0, first := 0 }
    let d : Diag := { slot := 3, idx := 0, part := 0, task := 0, rerun := some r, frec := 0, tid := 7, ver := 2, keyslot := 0, ss := 0
                      lines := 1, image := [], ent := e, compared := false, refailed := true }
    let t := modGran (exchange (entry 1 0 1 0) 4 0) fun g => { g with diags := [d] }
    let u := modStr (modGran ready fun g => { g with orders := [.core 0 5, .string 1 2, .die 2] }) 1 fun x => { x with part := some 0 }
    (∀ b ∈ [(s, 0), (later, 1), (none_, 1), (waits, 1)], let x := getPart b.1 0
      x.st = .rollback ∧ x.failed = some f ∧ x.launch ≠ none ∧ x.ckpts = [k b.2] ∧ (k b.2).ss ≤ min f.ss x.passSs) ∧
    (∀ b ∈ [s, later, none_], copiesReady b 0 f = true) ∧ copiesReady waits 0 f = false ∧ (getPart ready 0).failed = none ∧
    loadImage (rollMove later 0 f) 0 0 (0x400000 + imgBytes * 1) imgBytes 0 = none ∧ (getPart none_ 0).lmap = [] ∧
    t.gran.diags = [d] ∧ d.compared = false ∧ rerunJudged t d = true ∧
    (t.gran.frecTail - t.gran.frecHead).toNat ≠ 256 ∧ d.ent.die < 8 ∧ d.ent.pcore / 128 = d.ent.die ∧ d.ent.str < 32 ∧
    ¬ ready.gran.orders.contains (.die 0) ∧ u.gran.orders.contains (.core 0 5) ∧ u.gran.orders.contains (.string 1 2) ∧
    u.gran.orders.contains (.die 2) ∧ (getStr u 1).part ≠ none ∧ (getStr u 34).part = none ∧
    ∀ i < 32, (getStr u (64 + i)).part = none := by
  decide +kernel

/-! ## Witnesses: contexts, boot, trust, host -/

/-- `booted` with partition 0 held, an operation under way, an area for core 0's context at 4 MiB that holds an image 0. -/
def held (op : Option CtxOp) (f : Part → Part) : State :=
  let s := modGran booted fun g => { g with keys := [(0, { KeySlot.zero with state := .loaded, key := 3 })] }
  let s := modPart s 0 fun x => f { x with st := .held, hold := true, busy := op }
  sealLines (modCore s 0 fun x => { x with ctxBase := 0x400001 })
    { lo := 0x10000, count := 17088, key := 3, tid := seqTid 0, ver := seqVer 0, line0 := 0, zero := false }

/-- The image of core 0 can be read whole. -/
theorem held_image (i c : Nat) (h : ([0] : List Nat)[i]? = some c) :
    loadImage (held (some .restore) id) 0 i (fld (getCore (held (some .restore) id) c).ctxBase 45 16 * 65536) imgBytes 0 ≠ none := by
  have hi : i = 0 := by
    cases i with
    | zero => rfl
    | succ n => simp at h
  subst hi
  simp at h; subst h
  have hb : fld (getCore (held (some .restore) id) 0).ctxBase 45 16 * 65536 = 0x400000 := by decide
  have hw : worldSlot (held (some .restore) id) 0 = 0 := by decide
  have hs : (held (some .restore) id).side =
      [{ lo := 0x10000, count := 17088, key := 3, tid := seqTid 0, ver := seqVer 0, line0 := 0, zero := false }] := by decide
  have hk : getKey (held (some .restore) id) 0 = { KeySlot.zero with state := .loaded, key := 3 } := by decide
  rw [hb]
  unfold loadImage
  have hall : ((List.range (imgBytes / 64)).all fun i =>
      lineReadable (held (some .restore) id) (worldSlot (held (some .restore) id) 0) (seqTid 0) (seqVer 0) (2 ^ 20 * 0 + i)
        (0x400000 / 64 + i)) = true := by
    rw [List.all_eq_true]
    intro j hj
    have hj : j < 17088 := by simpa [imgBytes] using hj
    simp only [lineReadable, findSeal, hs, hw, hk, List.find?, KeySlot.zero]
    simp [show 0x10000 + j < 0x10000 + 17088 by omega]
  rw [if_pos hall]
  simp

/-- The areas of some cores are VALID and whole. -/
def areas (s : State) (l : List Nat) : Bool :=
  l.all fun c => bit (getCore s c).ctxBase 0 && inOneVault (fld (getCore s c).ctxBase 45 16 * 65536) 0x130000

/-- Core 0 without an area. -/
def noArea (s : State) : State := modCore s 0 fun x => { x with ctxBase := 0 }

set_option maxRecDepth 20000 in
/-- ContextOperations, save and evict: operations starting; save with and without an area; evict unsaved and saved; MIGCTL. -/
theorem holds_save :
    let x := fun (s : State) => getPart s 0
    let save := held (some .save) id
    let evict := held (some .evict) id
    let saved := held (some .evict) fun y => { y with saved := true }
    ((x save).busy ≠ none ∧ (x ready).busy = none ∧ (x ready).st ≠ .held ∧ (x (held none id)).busy = none ∧
      (x (held none id)).st = .held) ∧
    ((x save).busy = some .save ∧ (x save).hold = true ∧ (x save).evicted = false ∧ (x save).lmap = [0] ∧ areas save [0] ∧
      ¬ areas (noArea save) [0] ∧ (x (noArea save)).lmap = [0]) ∧
    ((x evict).busy = some .evict ∧ (x evict).hold = true ∧ (x evict).evicted = false ∧ (x evict).saved = false ∧
      (x saved).busy = some .evict ∧ (x saved).saved = true ∧ worldSlot saved 0 = 0) ∧
    (x ready).mig = none ∧ (x (modPart ready 0 fun y => { y with mig := some (0, 1) })).mig ≠ none := by
  decide

set_option maxRecDepth 20000 in
/-- ContextOperations, restore: onto a bound string, without an area, without room and whole (with `held_image`). -/
theorem holds_restore :
    let x := fun (s : State) => getPart s 0
    let restore := held (some .restore) id
    let bound := modStr restore 0 fun x => { x with part := some 3 }
    let full := modDie (modPart restore 0 fun x => { x with launch := some { Launch.zero with peak := 1 } }) 0 fun x =>
      { x with railIlim := 0 }
    ((x bound).busy = some .restore ∧ (x bound).hold = true ∧ fld (x bound).ctxMap 47 0 = 0 ∧ 0 ∈ (x bound).lmap ∧
      (getStr bound (0 / 4)).part ≠ none) ∧
    (restoreMap restore 0 = some [0] ∧ areas restore [0] ∧ restoreFits restore 0 [0] = true ∧ (x restore).ctxSeq = 0) ∧
    (restoreMap (noArea restore) 0 = some [0] ∧ ¬ areas (noArea restore) [0]) ∧
    (restoreMap full 0 = some [0] ∧ areas full [0] ∧ restoreFits full 0 [0] = false) := by
  decide

/-- LaneControl: lanes that it acts on, at once and after the clause in flight. -/
theorem holds_lanes :
    let lanes := fun (k : Option Clause) => readyCore fun c => { c with pst := .xdone, groups := spSet c.groups 0 { c.group 0 with
      c0 := k, lanes := [(3, { (c.group 0).lane 3 with cond := .parked }), (5, { (c.group 0).lane 5 with cond := .runnable })] } }
    let g := getGroup (lanes none) 0 0
    (getGroup (lanes (some clause1)) 0 0).inFlight = true ∧ g.inFlight = false ∧ g.lanectl = [] ∧ g.joins = [] ∧
    (getCore (lanes none) 0).pst = .xdone ∧ (g.lanes.map (·.1)).Nodup ∧ (spFind g.lanes 5).map (·.cond) = some .runnable := by
  decide

/-- MeasuredBoot: whether an image is readable, verifies, and a die passes its self-test are the implementation's; its other
premises: not in recovery, in recovery without and with a whole pushed image. -/
theorem holds_boot :
    let rec_ := fun (p : Bool) => modGran ready fun g => { g with bootStat := 2, pushEnd := p }
    bit ready.gran.bootStat 1 = false ∧ (rec_ false).gran.pushEnd = false ∧ bit (rec_ true).gran.bootStat 1 = true ∧
    (rec_ true).gran.pushEnd = true := by
  decide

/-- A session on the mailbox. -/
def session (e : Bool) : Session := { id := 7, channel := 0, established := e, updates := 0 }

/-- `ready` with a responder that has negotiated, and some sessions. -/
def talks (n : Nat) (l : List Session) : State :=
  { ready with spdm := { ready.spdm with version := decide (1 ≤ n), caps := decide (2 ≤ n), algs := decide (3 ≤ n), sessions := l } }

/-- SpdmResponder: each stage of the negotiation, room for a session and none, a session absent, open and established. Whether a
message is accepted is the implementation's. -/
theorem holds_spdm :
    let mine := fun (s : State) (id : BitVec 32) => s.spdm.sessions.find? fun x => decide (x.id = id)
    let s := talks 3 [session true]
    let t := talks 3 [session false]
    (talks 0 []).spdm.version = false ∧ (talks 1 []).spdm.version = true ∧ (talks 1 []).spdm.caps = false ∧
    (talks 2 []).spdm.caps = true ∧ (talks 2 []).spdm.algs = false ∧ s.spdm.algs = true ∧
    (1 : Byte) &&& 15 ≠ 0 ∧ (0x10 : Byte) &&& 15 = 0 ∧ (1 : Byte) ≠ 0 ∧ (8 < (9 : Byte).toNat ∧ (9 : Byte) ≠ 0xFF) ∧
    s.spdm.sessions.length < 64 ∧ ¬ (talks 3 (List.replicate 64 (session true))).spdm.sessions.length < 64 ∧
    (¬ ∀ x ∈ (talks 3 [{ session true with channel := 3 }]).spdm.sessions, x.channel ≠ 3) ∧
    mine s 8 = none ∧ mine s 7 = some (session true) ∧ mine t 7 = some (session false) ∧ (session false).channel = 0 ∧
    (session true).channel ≠ 1 ∧
    ((mine t 7).any fun x => x.established && decide (x.channel = 0)) = false ∧
    ((mine s 7).any fun x => x.established && decide (x.channel = 0)) = true ∧
    (getKey s 5).state = .empty ∧ slotTearing s 5 = false ∧
    slotTearing (modPart s 0 fun x => { x with scrub := { x.scrub with uses := [.teardown [5]] } }) 5 = true ∧
    (getKey (modKey s 5 fun k => { k with state := .loaded }) 5).state ≠ .empty ∧ (getKey s 5).sealcnt ≠ 0xFFFF ∧
    (getKey (modKey s 5 fun k => { k with sealcnt := 0xFFFF }) 5).sealcnt = 0xFFFF := by
  decide

/-- KeysScrubsCollectives: no erasure, one confirmation of two, the last one; a scrub that has not begun, and one unit of two;
registrations of two members with a session for the pair, without, and with one that a changed member may not take up again; a held
write to the tensor, parked and not, and one to another. -/
theorem holds_scrub :
    let s := modPart ready 0 fun x => { x with tearing := 3, erasing := [(5, 3)] }
    let t := modPart ready 0 fun x => { x with tearing := 4, scrub := { x.scrub with units := [.bytes 64 64, .core 0 0] } }
    let changed := modGran ready fun g => { g with colls := [{ id := 3, tid := 7, members := [1, 5], sessions := [(0, 1, 7)], uses := []
                                                               valid := false, epoch := 0, changed := [(5, 7)] }] }
    (∀ e ∈ ready.parts, ∀ y ∈ e.2.erasing, y.1 ≠ 5) ∧ spFind s.parts 0 = some (getPart s 0) ∧ (getPart s 0).erasing = [(5, 3)] ∧
    (∀ e ∈ s.parts, e.1 ≠ 0 → ∀ y ∈ e.2.erasing, y.1 ≠ 5) ∧ (s.parts.map (·.1)).Nodup ∧
    (3 : BitVec 16) &&& ~~~(BitVec.ofNat 16 (2 ^ 1)) ≠ 0 ∧ (2 : BitVec 16) &&& ~~~(BitVec.ofNat 16 (2 ^ 1)) = 0 ∧
    (getPart s 0).tearing = 3 ∧ (getPart t 0).scrub.units[(getPart t 0).scrub.done]? = some (.bytes 64 64) ∧
    (getPart t 0).tearing = 4 ∧ (getPart t 0).scrub.done + 1 < (getPart t 0).scrub.units.length ∧
    (List.replicate 48 (0 : BitVec 18)).length ≤ 48 ∧ 48 < (List.replicate 49 (0 : BitVec 18)).length ∧
    sessionsOk (bannedOf ready 3 7) [1, 5] [(0, 1, 7)] = true ∧ sessionsOk (bannedOf ready 3 7) [1, 5] [] = false ∧
    sessionsOk (bannedOf changed 3 7) [1, 5] [(0, 1, 7)] = false ∧ sessionsOk (bannedOf changed 3 7) [1, 5] [(0, 1, 8)] = true ∧
    held0.tid = 7 ∧ held0.push = none ∧ held0.parked ≠ some 0x48 ∧ ({ held0 with parked := some 0x48 } : Outbound).parked = some 0x48 ∧
    held0.tid ≠ 8 ∧ ready.gran.wire = [] ∧ ready.gran.hold = [] := by
  decide

/-- A mailbox command. -/
def cmd (rsv : BitVec 32) (a0 a1 a2 : Word) : HostCmd :=
  { die := 0, tag := 0, rsv := rsv, a0 := a0, a1 := a1, a2 := a2, data := 0 }

/-- `booted` with the boot done, recovery or not, and a host window of 64 KiB at 4 MiB. -/
def hosted (boot : Word) : State :=
  modDie (modGran booted fun g => { g with bootStat := boot }) 0 fun x => { x with hostwin := 0x400001 }

set_option maxRecDepth 20000 in
/-- HostCommands: before and after boot; reserved and right commands; lengths, classes and registers in and out of range, on a die
with and without power; a write in the window, before it, and over a generation; time set ahead and not; a push. -/
theorem holds_host :
    let s := hosted 1
    let windowed := fun (pa n : Nat) => 0x400000 ≤ pa ∧ pa + n ≤ 0x410000 ∧ inOneVault pa n = true
    let gen := modDie (exchange (entry 1 0 1 0) 4 0) 0 fun x => { x with hostwin := 0x200010 }
    bit s.gran.bootStat 0 = true ∧ bit (hosted 0).gran.bootStat 0 = false ∧ bit s.gran.bootStat 1 = false ∧
    bit (hosted 2).gran.bootStat 1 = true ∧ (hosted 2).gran.pushEnd = false ∧
    (cmd 1 0 0 0).rsv ≠ 0 ∧ 10 < (11 : Byte).toNat ∧
    (1 ≤ (cmd 0 0 32 0).a1.toNat ∧ (cmd 0 0 32 0).a1.toNat ≤ 32 ∧ ¬ 1 ≤ (cmd 0 0 0 0).a1.toNat ∧ ¬ (cmd 0 0 33 0).a1.toNat ≤ 32) ∧
    fld (cmd 0 0x0A00000000000000 8 0).a0 63 56 = 10 ∧
    (regTable[0]?.map fun e => (e.2.2.1, e.2.2.2.2)) = some (4, true) ∧
    (regTable.any fun e => decide (e.1 = .peerrx) && decide (e.2.2.1 = 32)) = true ∧
    fld (cmd 0 0x0300000000000004 4 0).a0 31 0 = 4 * 1 ∧ fld (cmd 0 0x0300000000000004 4 0).a0 63 56 = 3 ∧
    powered s 0 = true ∧ powered ready 0 = false ∧ regPowered s .gtoCap 0 = true ∧ regPowered ready .gtoCap 0 = false ∧
    paOk 0x40FFE0 = true ∧ paOk (2 ^ 45) = false ∧ bit s.gran.present 0 = true ∧ bit ready.gran.present 0 = false ∧
    (fld (cmd 0 0x090000000040FFE0 32 0).a0 63 56 = 9 ∧ fld (cmd 0 0x090000000040FFE0 32 0).a0 45 0 = 0x40FFE0 ∧
      fld (getDie s 0).hostwin 45 16 * 65536 = 0x400000 ∧ fld (getDie s 0).hostwin 15 0 * 65536 = 0x10000 ∧
      windowed 0x40FFE0 32 ∧ inSomeGen (takeCmd s 4 (cmd 0 0x090000000040FFE0 32 0)) 0x40FFE0 32 = false ∧
      ¬ windowed 0x40FFE1 32) ∧
    inSomeGen (takeCmd gen 4 (cmd 0 0x0900000000200000 1 0)) 0x200000 1 = true ∧
    (bit s.bilsol.tsync 63 = false ∧ s.time < (cmd 0 100 0 0).a0.toNat ∧ (cmd 0 0 0 0).a0.toNat ≤ s.time) ∧
    (cmd 0 0 8 1).a2.toNat < 2 := by
  decide +kernel

/-- `hosted` with core 0 of die 0 in a world's partition, and a queue at 0x100 of its scratchpad. -/
def guarded : State :=
  modPart (modCore (hosted 1) 0 fun x => { x with part := some 0, xq := 0x100000010 }) 0 fun x =>
    { x with launch := some { Launch.zero with keyh := 1 } }

/-- The places of a live image that R441 hides in a world, with the queue word of core 0 of `guarded`. -/
def hidesAt (q : Word) (o : Nat) : Bool :=
  (decide (0x1000 ≤ o) && decide (o < 0x3000) && decide ((o - 0x1000) % 0x400 < 0x80)) ||
    (decide (0x3000 ≤ o) && decide (o < 0x1B000) && (decide ((o - 0x3000) % 384 < 0x150) || decide ((o - 0x3000) % 384 = 0x15C))) ||
    (decide (0x1B000 ≤ o) && decide (o < 0xDB000) &&
      (decide (qwDepth q = 0) || decide (o - 0x1B000 < qwBase q) || decide (qwBase q + 8 ≤ o - 0x1B000))) || decide (0xDB000 ≤ o)

set_option maxRecDepth 20000 in
/-- HostCommands, READ: addresses of each class at the ends of their ranges, on dies with and without power, in a world's core and
outside; lines of vault memory in the open, of slot 0, and of a world. -/
theorem holds_reads :
    let s := hosted 1
    let a := fun (cls die unit off : Nat) => (cmd 0 (wd (cls * 2 ^ 56 + die * 2 ^ 48 + unit * 2 ^ 32 + off)) 32 0).a0
    (∀ x ∈ [(1, 7, 127, 0x10AFE0), (2, 7, 1023, 480), (4, 7, 127, 5088), (5, 0, 0, 0), (6, 0, 0, 32736), (7, 0, 0, 1472), (1, 8, 0, 0),
        (4, 0, 128, 0), (2, 0, 1024, 0), (6, 1, 0, 0), (1, 0, 0, 0x10AFE1), (2, 0, 0, 481)],
      fld (a x.1 x.2.1 x.2.2.1 x.2.2.2) 63 56 = x.1 ∧ fld (a x.1 x.2.1 x.2.2.1 x.2.2.2) 55 48 = x.2.1 ∧
      fld (a x.1 x.2.1 x.2.2.1 x.2.2.2) 47 32 = x.2.2.1 ∧ fld (a x.1 x.2.1 x.2.2.1 x.2.2.2) 31 0 = x.2.2.2) ∧
    (0x10AFE0 + 32 = 0x10B000 ∧ 480 + 32 = 512 ∧ 5088 + 32 = 16 * 320 ∧ 32736 + 32 = 128 * 256 ∧ 1472 + 32 = 32 * regTable.length) ∧
    (bit s.gran.present 0 = true ∧ (getDie s 0).tripped = false ∧ bit ready.gran.present 0 = false ∧ coreOfWorld s 0 = false ∧
      0 < ttCount (exchange (entry 1 0 1 0) 4 0)) ∧
    (coreOfWorld guarded 0 = true ∧ bit guarded.gran.present 0 = true ∧ (getDie guarded 0).tripped = false ∧
      (getCore guarded 0).alogq = 0 ∧ (getCore guarded 0).noteq = 0 ∧ qwBase (getCore guarded 0).xq = 0x100) ∧
    ([0x107F, 0x1080, 0x314F, 0x3150, 0x315C, 0x1B0FF, 0x1B100, 0x1B107, 0x1B108, 0xDB000].map (hidesAt (getCore guarded 0).xq) =
      [true, false, true, false, true, true, false, false, true, true]) := by
  decide +kernel

set_option maxRecDepth 20000 in
/-- HostCommands, READ of class 9: a line without a seal, one of slot 0, one of a world, and an address that names no memory. -/
theorem holds_vault_reads :
    let run := fun (lo : Nat) (k : BitVec 256) => ({ lo := lo, count := 1, key := k, tid := 7, ver := 1, line0 := 0, zero := false } : Seal)
    let s := modKey (modKey (hosted 1) 0 fun k => { k with state := .loaded, key := 4 }) 1 fun k => { k with state := .loaded, key := 5 }
    let s := { s with side := [run 1 4, run 2 5] }
    (∀ k < 32, paOk (160 + k) = true ∧ bit s.gran.present ((160 + k) / 2 ^ 36) = true ∧ onScrubList s (160 + k) 1 = false) ∧
    findSeal s.side (32 / 64) = none ∧ s.dieScope = [] ∧ findSeal s.side (64 / 64) = some (run 1 4) ∧
    ((getKey s 0).key = 4 ∧ (getKey s 0).state = .loaded) ∧ findSeal s.side (191 / 64) = some (run 2 5) ∧
    ((s.gran.keys.find? fun e => decide (e.2.state = .loaded) && decide (e.2.key = 5)).map fun e => (e.1, releasedLine s e.1 (run 2 5))) =
      some (1, false) ∧
    paOk 0x18000000 = false ∧ bit ready.gran.present 0 = false := by
  decide +kernel

/-- For HostTasks: while a partition number is unused SUBMIT has one to take. -/
theorem submits {s : State} {n : Nat} (hn : n < 256) (h : partUnused s n = true) (d : Nat) (va : Word) :
    ∃ p < 256, submitPart s d va = some p := by
  unfold submitPart
  split
  next p hp => exact ⟨p, List.mem_range.mp (List.mem_of_find?_eq_some hp), rfl⟩
  next =>
    cases hf : (List.range 256).find? (partUnused s) with
    | some p => exact ⟨p, List.mem_range.mp (List.mem_of_find?_eq_some hf), rfl⟩
    | none => simp_all

set_option maxRecDepth 20000 in
/-- HostTasks: SUBMIT on no die, on dies without power, and on one with a free record and a partition; RESULT out of range, of no
generation, and of bytes of a released one; RESET of a task, of none, of the package. -/
theorem holds_tasks :
    let c := fun (a0 a1 a2 : Word) => cmd 0 a0 a1 a2
    let s := mapped
    let g := exchange (entry 1 0 1 0) 5 0
    (256 ≤ (c 0 256 0).a1.toNat ∧ (c 0 0x80 0).a1 ≠ 0 ∧ (c 0 0x80 0).a1.toNat < 256) ∧
    powered ready 7 = false ∧ powered s 0 = true ∧ (freeRecord s 0).isSome = true ∧ bindsBlocked s = false ∧
    (∀ d < 8, bit (c 0 1 0).a1 d = true → d = 0) ∧
    partUnused (takeCmd s 5 (c 0 1 0)) 1 = true ∧
    (32 < (c 0 0 33).a2.toNat ∧ 2 ^ 48 ≤ (c 0x1000000000000 0 1).a0.toNat ∧ 1 ≤ (c 7 0 16).a2.toNat ∧ (c 7 0 16).a2.toNat ≤ 32) ∧
    latestGen (takeCmd ready 6 (c 7 0 16)) 7 (fun g => decide (g.state = 5)) = none ∧
    (latestGen (takeCmd g 6 (c 7 0 16)) 7 fun g => decide (g.state = 5)) = some (getGen g 0) ∧
    (releasedBytes (takeCmd g 6 (c 7 0 16)) (getGen g 0) 0 16).isSome = true ∧ (getGen g 0).keyslot = 0 ∧
    (getGen g 0).size < (c 7 65536 16).a1.toNat + 16 ∧ (getKey g 0).exp = false ∧
    (256 < (c 257 0 0).a0.toNat ∧ (getPart ready 1).launch = none ∧ (getPart ready 0).launch ≠ none ∧
      (getPart ready 0).st ≠ .aborting ∧ (getPart (modPart ready 0 fun x => { x with st := .aborting }) 0).st = .aborting) := by
  decide +kernel

/-- For HostTasks and Watchdogs: `ready` holds no world and erases no key. -/
theorem ready_plain : (∀ p, worldSlot ready p = 0) ∧ ∀ p, (getPart ready p).erasing = [] := by
  have h : ready.parts = [(0, getPart ready 0)] := by decide
  have hz : ∀ p, p ≠ 0 → getPart ready p = Part.zero := by
    intro p hp
    simp only [getPart] at h ⊢
    rw [h]
    simp only [spGet]
    rw [if_neg (Ne.symm hp)]
  constructor
  · intro p
    by_cases hp : p = 0
    · subst hp; decide
    · simp only [worldSlot, hz p hp]; decide
  · intro p
    by_cases hp : p = 0
    · subst hp; decide
    · simp only [hz p hp]; decide

/-- Watchdogs: a task with a limit and each ACTION, and none; a kick and none; a die present and absent. -/
theorem holds_watchdogs :
    let s := fun (w : Word) => bootedPart fun x => { x with wdog := w, launch := some Launch.zero }
    (∀ a < 4, let x := getPart (s (wd (a * 2 ^ 58 + 5))) 0
      x.launch ≠ none ∧ fld x.wdog 31 0 ≠ 0 ∧ x.wdogDone = false ∧ fld x.wdog 59 58 = a ∧ x.st ≠ .aborting) ∧
    fld (getPart (s 0) 0).wdog 31 0 = 0 ∧ bit (0x8000000000000000 : Word) 63 = true ∧ bit (1 : Word) 63 = false ∧
    bit ready.gran.present 0 = false ∧ bit booted.gran.present 0 = true ∧ (booted.parts.map (·.1)).Nodup := by
  decide

/-- BilsolPorts: DEVNUM unset and set; a port that changes, among them one that was up, and one that may not; steps of time by more and by less; a PEERRX entry
that is not VALID, one that is and takes a push at each end of its range, one set VALID out of range. -/
theorem holds_bilsol :
    let s := ready
    let dev := { s with bilsol := { s.bilsol with devnum := 0x8000000000000001 } }
    let on := modGran dev fun g => { g with present := 0x200 }
    let sec := { on with spdm := { dev.spdm with sessions := [{ session true with channel := 3 }] } }
    let rx := { s with bilsol := { s.bilsol with peerrx := [(4, 0x8000000000000040, 0x500000001, 0)] } }
    let opens := fun (b : State) (i dst n : Nat) => let f := spGet (0, 0, 0) b.bilsol.peerrx i
      bit f.1 63 = true ∧ fld f.2.1 49 32 = 5 ∧ fld f.1 29 0 * 65536 ≤ dst ∧
        dst + 64 * n ≤ fld f.1 29 0 * 65536 + fld f.2.1 31 0 * 65536
    bit s.bilsol.devnum 63 = false ∧ fld (0x3FFFF : Word) 62 18 = 0 ∧ fld (0x40000 : Word) 62 18 ≠ 0 ∧
    bit dev.bilsol.devnum 63 = true ∧ fld (spGet 0 s.bilsol.port 2) 1 0 = 0 ∧ fld (spGet 0 (staged aud0 1).bilsol.port 0) 1 0 = 3 ∧
    (∃ x ∈ sec.spdm.sessions, x.channel = 2 + 1 ∧ x.established = true) ∧
    ¬ (∃ x ∈ on.spdm.sessions, x.channel = 2 + 1 ∧ x.established = true) ∧
    bit on.gran.present (9 + 2 / 8) = true ∧ bit on.bilsol.devnum 63 = true ∧ bit dev.gran.present (9 + 2 / 8) = false ∧
    1000000 < (1000001 : BitVec 32).toInt ∧ (1000000 : BitVec 32).toInt ≤ 1000000 ∧ (∀ q ∈ s.parts, q.2.waitStart = false) ∧
    (∀ d ∈ s.dies, ∀ b ∈ d.2.binds, b.2.state ≠ .armed) ∧
    (∃ q ∈ (modPart s 0 fun x => { x with waitStart := true }).parts, q.2.waitStart = true) ∧
    bit (spGet (0, 0, 0) s.bilsol.peerrx 4).1 63 = false ∧ peerRangeOk s 0 0 = false ∧
    peerRangeOk rx 64 1 = true ∧ bit (spGet (0, 0, 0) rx.bilsol.peerrx 4).1 63 = true ∧ peerRangeOk rx 64 0 = false ∧
    opens rx 4 0x400000 1024 ∧ opens rx 4 0x40FFC0 1 ∧ ¬ opens rx 4 0x40FFC0 2 ∧ (∀ i < 4, ¬ opens rx i 0x400000 1) ∧
    (∀ i < 16, ¬ opens rx i 0x3FFFC0 1) ∧ (0x400020 : BitVec 46).toNat % 64 ≠ 0 := by
  decide

set_option maxRecDepth 20000 in
/-- RegisterWrites: with every die released each register's first instance is there; without, a die register is not. -/
theorem holds_registers :
    (∀ e ∈ regTable, regThere booted e.1 0 = true) ∧ regThere ready .ttCtl 0 = true ∧ regThere ready .flipSlew 0 = false ∧
    regThere booted .flipSlew 8 = false ∧ ready.gran.diags = [] := by
  decide

set_option maxRecDepth 20000 in
/-- RegisterWrites: PEERRX entry 4 VALID with a LEN that its range may take and one that it may not, management memory and
EV_HEAD, LANECTL of the last group, and a word with each OP of CTX_CTL, XFCTL and LANECTL. -/
theorem holds_register_events :
    let rx := { ready with bilsol := { ready.bilsol with peerrx := [(4, 0x8000000000000040, 0x500000001, 0)] } }
    (∀ i < 3, regThere rx .peerrx (16 + i) = true) ∧ bit (spGet (0, 0, 0) rx.bilsol.peerrx 4).1 63 = true ∧
    (let b := fld (spGet (0, 0, 0) rx.bilsol.peerrx 4).1 29 0
     peerRangeOk rx b 1 = true ∧ peerRangeOk rx b 0 = false) ∧
    regThere booted .mcMem (2 ^ 32 + 8) = true ∧ regThere booted .evHead 0 = true ∧ regThere booted .lanectl 8191 = true ∧
    8 * (128 * 7 + 127) + 7 = 8191 ∧ fld (2 : Word) 1 0 = 2 ∧ fld (0x80000000000 : Word) 43 42 = 2 ∧
    fld (0x200000000000000 : Word) 57 56 = 2 ∧ fld (0x200000000000000 : Word) 33 32 = 0 ∧
    fld (0x300000000 : Word) 33 32 = 3 ∧ bit (0x47 : Word) 6 = true := by
  decide

/-- A SEALED generation that has no carry failure, under a slot that no teardown erases. -/
def carries (b : State) : Bool :=
  decide (0 < ttCount b) && decide ((getGen b 0).state = 3) && !bit (getGen b 0).flags 3 &&
    !slotTorn b (getGen b 0).keyslot && decide ((getGen b 0).size = 128)

/-- Filling line 1 leaves the entry as it was. -/
def fills (b : State) : Bool :=
  match fillLine b (lowDie b) (getGen b 0) 1, ownerWalk b (lowDie b) (getGen b 0).owner 64 with
  | .ok bs, some l => decide (getGen (markWritten (storeLine b (getGen b 0) l 64 bs) 0 1) 0 = getGen b 0)
  | _, _ => false

set_option maxRecDepth 20000 in
/-- CarryForward: a SEALED generation of two lines with both written. -/
theorem holds_carry_all :
    carries (carry (twoLines 3 0 0xFFFFFFFF) [0, 1]) = true ∧
      ∀ k < 2, (writtenOf (carry (twoLines 3 0 0xFFFFFFFF) [0, 1]) 0).contains k = true := by
  decide +kernel

set_option maxRecDepth 20000 in
/-- CarryForward: with the last one missing while PREV, SEALED, has not yet written it. -/
theorem holds_carry_waits :
    let s := setGen (carry (twoLines 3 0 1) [0]) { twoLines 3 0 0xFFFFFFFF with idx := 1, vbase := 128, ver := 0 }
    carries s = true ∧ carryReady s (getGen s 0) = false := by
  decide +kernel

set_option maxRecDepth 20000 in
/-- CarryForward: with the last one missing, to fill with zeros. -/
theorem holds_carry_last :
    carries (carry (twoLines 3 0 0xFFFFFFFF) [0]) = true ∧
      carryReady (carry (twoLines 3 0 0xFFFFFFFF) [0]) (getGen (carry (twoLines 3 0 0xFFFFFFFF) [0]) 0) = true ∧ fills (carry (twoLines 3 0 0xFFFFFFFF) [0]) = true ∧
      ∀ k < 2, (writtenOf (carry (twoLines 3 0 0xFFFFFFFF) [0]) 0).contains k = decide (k ≠ 1) := by
  decide +kernel

set_option maxRecDepth 20000 in
/-- CarryForward: with the last one missing, to fill from a PREV that cannot be read. -/
theorem holds_carry_fail :
    carries (carry (twoLines 3 0 1) [0]) = true ∧
      carryReady (carry (twoLines 3 0 1) [0]) (getGen (carry (twoLines 3 0 1) [0]) 0) = true ∧ liveDies (carry (twoLines 3 0 1) [0]) ≠ [] ∧
      (match fillLine (carry (twoLines 3 0 1) [0]) (lowDie (carry (twoLines 3 0 1) [0])) (getGen (carry (twoLines 3 0 1) [0]) 0) 1 with
        | .fault _ _ => true
        | _ => false) = true ∧
      ∀ k < 2, (writtenOf (carry (twoLines 3 0 1) [0]) 0).contains k = decide (k ≠ 1) := by
  decide +kernel

set_option maxRecDepth 20000 in
/-- CarryForward: with the last one missing, to fill with zeros, in a page that is not mapped. -/
theorem holds_carry_unmapped :
    let s := carry { twoLines 3 0 0xFFFFFFFF with vbase := 2 ^ 21 } [0]
    carries s = true ∧ carryReady s (getGen s 0) = true ∧ liveDies s ≠ [] ∧
      (match fillLine s (lowDie s) (getGen s 0) 1 with
        | .ok _ => true
        | _ => false) = true ∧
      ownerWalk s (lowDie s) (getGen s 0).owner (2 ^ 21 + 64) = none ∧ ∀ k < 2, (writtenOf s 0).contains k = decide (k ≠ 1) := by
  decide +kernel

set_option maxRecDepth 20000 in
/-- CarryForward: a generation in another state, one failed before, one under a slot that a teardown erases. -/
theorem holds_carry_void :
    let torn := modPart (carry (twoLines 3 0 1) []) 0 fun x => { x with tearing := 3, scrub := { x.scrub with uses := [.teardown [0]] } }
    (getGen (carry (twoLines 4 0 1) []) 0).state ≠ 3 ∧ bit (getGen (carry (twoLines 3 8 1) []) 0).flags 3 = true ∧
    slotTorn torn (getGen torn 0).keyslot = true := by
  decide +kernel

set_option maxRecDepth 20000 in
/-- LandingTensors: an OPEN landing generation that takes a write of its last bytes, one whose page
has WBLK set, a reduction and a duplicate of one; one that is
no landing tensor, one too short; a RELEASED one with bytes to read; none of a tensor id. -/
theorem holds_landing :
    let s := exchange (entry 1 0 1 0) 2 1
    let r := exchange (entry 1 0 1 0) 5 0
    let blocked := { s with vault := memStore s.vault 0x3000 1 0x2F }
    let g := fun (b : State) => getGen b 0
    let latest := fun (b : State) => ttCount b = 1 ∧ allGens b = [g b] ∧ (g b).live = true ∧ (g b).tid = 7
    let sig := fun (op : Nat) => ({ op := op, signed := false, qw := 0 } : XSig)
    let done := fun (x : XR State) => match x with
      | .ok _ => true
      | .fault _ _ | .wait => false
    let waits := fun (x : XR State) => match x with
      | .wait => true
      | .fault _ _ | .ok _ => false
    let dup := { s with vdedup := [(0, [(1024 * (5 + 1) + 3, [6])])] }
    (latest s ∧ (g s).state = 2 ∧ bit (g s).flags 0 = true ∧ 65520 + 16 ≤ (g s).size ∧ ((g s).vbase + 65520) % 64 + 16 ≤ 64) ∧
    done (gWrite [] s (lowDie s) (g s).owner 65520 (List.replicate 16 1) false true) = true ∧
    latest blocked ∧ (g blocked).state = 2 ∧ bit (g blocked).flags 0 = true ∧
    waits (gWrite [] blocked (lowDie blocked) (g blocked).owner 65520 (List.replicate 16 1) false true) = true ∧
    waits (gRed [] blocked (lowDie blocked) (g blocked).owner 0 (List.replicate 16 1) (sig 4) true) = true ∧
    done (gRed [] s (lowDie s) (g s).owner 0 (List.replicate 16 1) (sig 4) true) = true ∧
    done (gRed [] s (lowDie s) (g s).owner 0 (List.replicate 16 1) (sig 3) true) = true ∧
    (ownerWalk s (lowDie s) 0 0 = some leaf0 ∧
      (tagsOf (spGet [] s.vdedup (leaf0.readPa (lowDie s) 0 / 2 ^ 29)) (1024 * (5 + 1) + 3)).contains 6 = false) ∧
    (ownerWalk dup (lowDie dup) 0 0 = some leaf0 ∧
      (tagsOf (spGet [] dup.vdedup (leaf0.readPa (lowDie dup) 0 / 2 ^ 29)) (1024 * (5 + 1) + 3)).contains 6 = true) ∧
    (g s).size < 65528 + 16 ∧ bit (g (exchange (entry 1 0 1 0) 2 0)).flags 0 = false ∧
    (∀ x ∈ allGens s, x.live = true → x.tid ≠ 8) ∧
    (latest r ∧ (g r).state = 5 ∧ (g r).keyslot = 0 ∧ (genLine r (lowDie r) (g r) 0).isSome = true ∧ (g r).vbase % 64 = 0) ∧
    (∀ x ∈ allGens s, x.live = true → x.tid = 7 → x.state ≠ 5) := by
  decide +kernel

/-- StepRunsDecodedWord: an agenda of an event; a chosen word that decodes and one that does not; a chosen event; nothing to do. -/
theorem holds_step :
    isWord .deviceReset = false ∧ ready.agenda = [] ∧
    (match choose ready with
      | (_, .word _) => true
      | _ => false) = true ∧
    (match choose ready with
      | (t, .word cur) => decide (fetchCursor (atCursor (tick ready) t cur) = some 0x64000000)
      | _ => false) = true := by
  decide

/-- EncodeDecodeRoundTrip: a well-formed instruction with its word. -/
theorem holds_encode :
    (Instr.add (.w 39) (.reg (.w 1)) (.reg (.w 2)) .n32).wellFormed = true ∧
    (encode (Instr.add (.w 39) (.reg (.w 1)) (.reg (.w 2)) .n32)).isSome = true := by
  decide

end Sys2Proof.Tests
end

section
/-!
SUPPORT. Bit fields: what `fld` reads of a masked word, of a word with a field replaced, and of a part of a word.
-/
namespace Sys2Proof.Machine

theorem fld_lt {w : Nat} (x : BitVec w) (hi lo : Nat) : fld x hi lo < 2 ^ (hi + 1 - lo) := Nat.mod_lt _ (Nat.two_pow_pos _)

theorem testBit_fld {w : Nat} (x : BitVec w) (hi lo k : Nat) :
    (fld x hi lo).testBit k = (decide (k < hi + 1 - lo) && x.getLsbD (lo + k)) := by
  rw [fld, Nat.testBit_mod_two_pow, Nat.testBit_shiftRight]; rfl

theorem fld_and {w : Nat} (x y : BitVec w) (hi lo : Nat) : fld (x &&& y) hi lo = fld x hi lo &&& fld y hi lo := by
  apply Nat.eq_of_testBit_eq; intro k
  simp only [Nat.testBit_and, testBit_fld, BitVec.getLsbD_and]
  by_cases h : k < hi + 1 - lo <;> simp [h]

/-- A mask that covers a field keeps it. -/
theorem fld_and_keep {w : Nat} (x m : BitVec w) {hi lo : Nat} (h : fld m hi lo = 2 ^ (hi + 1 - lo) - 1) :
    fld (x &&& m) hi lo = fld x hi lo := by
  rw [fld_and, h, Nat.and_two_pow_sub_one_eq_mod, Nat.mod_eq_of_lt (fld_lt x hi lo)]

/-- A mask with no bit in a field clears it. -/
theorem fld_and_clear {w : Nat} (x m : BitVec w) {hi lo : Nat} (h : fld m hi lo = 0) : fld (x &&& m) hi lo = 0 := by
  rw [fld_and, h, Nat.and_zero]

theorem getLsbD_setFld {w : Nat} (x : BitVec w) (hi lo v k : Nat) (hk : k < w) :
    (setFld x hi lo v).getLsbD k = if lo ≤ k ∧ k ≤ hi then v.testBit (k - lo) else x.getLsbD k := by
  simp only [setFld, BitVec.getLsbD_or, BitVec.getLsbD_and, BitVec.getLsbD_not, BitVec.getLsbD_ofNat, hk, decide_true,
    Bool.true_and, Nat.testBit_shiftLeft, Nat.testBit_two_pow_sub_one, Nat.testBit_mod_two_pow]
  by_cases h1 : lo ≤ k
  · by_cases h2 : k ≤ hi
    · simp [h1, h2, show k - lo < hi + 1 - lo by omega]
    · simp [h1, h2, show ¬ k - lo < hi + 1 - lo by omega]
  · simp [h1]

theorem fld_setFld_self {w : Nat} (x : BitVec w) {hi lo : Nat} (v : Nat) (hw : hi < w) :
    fld (setFld x hi lo v) hi lo = v % 2 ^ (hi + 1 - lo) := by
  apply Nat.eq_of_testBit_eq; intro k
  rw [testBit_fld, Nat.testBit_mod_two_pow]
  by_cases h : k < hi + 1 - lo
  · rw [getLsbD_setFld _ _ _ _ _ (by omega), if_pos (by omega), Nat.add_sub_cancel_left]
  · simp [h]

/-- A field outside the one replaced reads as before. -/
theorem fld_setFld_other {w : Nat} (x : BitVec w) {hi lo hi' lo' : Nat} (v : Nat) (hw : hi' < w) (h : hi' < lo ∨ hi < lo') :
    fld (setFld x hi lo v) hi' lo' = fld x hi' lo' := by
  apply Nat.eq_of_testBit_eq; intro k
  rw [testBit_fld, testBit_fld]
  by_cases hk : k < hi' + 1 - lo'
  · rw [getLsbD_setFld _ _ _ _ _ (by omega), if_neg (by omega)]
  · simp [hk]

theorem toNat_extractLsb'_eq_fld {w : Nat} (x : BitVec w) (lo n : Nat) (hn : 0 < n) :
    (x.extractLsb' lo n).toNat = fld x (lo + n - 1) lo := by
  rw [BitVec.extractLsb'_toNat, fld, show lo + n - 1 + 1 - lo = n by omega]

theorem ofNat_fld {w : Nat} (x : BitVec w) (lo n : Nat) (hn : 0 < n) :
    BitVec.ofNat n (fld x (lo + n - 1) lo) = x.extractLsb' lo n := by
  rw [← toNat_extractLsb'_eq_fld x lo n hn, BitVec.ofNat_toNat, BitVec.setWidth_eq]

theorem toNat_setWidth_eq_fld {w : Nat} (x : BitVec w) (n : Nat) (hn : 0 < n) : (x.setWidth n).toNat = fld x (n - 1) 0 := by
  rw [BitVec.toNat_setWidth, fld, Nat.shiftRight_zero, show n - 1 + 1 - 0 = n by omega]

theorem ofNat_fld_zero {w : Nat} (x : BitVec w) (n : Nat) (hn : 0 < n) : BitVec.ofNat n (fld x (n - 1) 0) = x.setWidth n := by
  rw [← toNat_setWidth_eq_fld x n hn, BitVec.ofNat_toNat, BitVec.setWidth_eq]

theorem fld_bit {w : Nat} (x : BitVec w) (k : Nat) : fld x k k = b2n (bit x k) := by
  apply Nat.eq_of_testBit_eq; intro j
  rw [testBit_fld, Nat.add_sub_cancel_left]
  cases j with
  | zero => cases h : x.getLsbD k <;> simp [b2n, bit, h]
  | succ j => cases h : x.getLsbD k <;> simp [b2n, bit, h, Nat.testBit_succ]

/-- A field may be read from a field that holds it. -/
theorem fld_mod {w : Nat} (x : BitVec w) {hi hi' lo : Nat} (h : hi' ≤ hi) :
    fld x hi lo % 2 ^ (hi' + 1 - lo) = fld x hi' lo :=
  Nat.mod_mod_of_dvd _ (pow_dvd_pow 2 (by omega))

/-! ## Little-endian bytes -/

theorem leNat_leBytes (n v : Nat) : leNat (leBytes n v) = v % 256 ^ n := by
  induction n generalizing v with
  | zero => simp [leBytes, leNat, Nat.mod_one]
  | succ n ih => rw [leBytes, leNat, ih, BitVec.toNat_ofNat, pow_succ' 256 n, Nat.mod_mul]

theorem memBytes_memWrite (bs : List Byte) (m : Mem) (a : Nat) : memBytes (memWrite m a bs) a bs.length = bs := by
  induction bs generalizing m a with
  | nil => rfl
  | cons b r ih =>
    rw [List.length_cons, memBytes, memWrite, ih, memGet_memWrite_out _ _ _ _ (.inl (Nat.lt_succ_self a)), memGet_memPut,
      if_pos rfl]

/-- A value stored at an address is what a read of its bytes returns (R9). -/
theorem memRead_memStore (m : Mem) (a n v : Nat) : memRead (memStore m a n v) a n = v % 256 ^ n := by
  have h := memBytes_memWrite (leBytes n v) m a
  rw [leBytes_length] at h
  rw [memRead, memStore, h, leNat_leBytes]

/-- A byte outside a store reads as before. -/
theorem memGet_memStore_out (m : Mem) (a n v k : Nat) (h : k < a ∨ a + n ≤ k) : memGet (memStore m a n v) k = memGet m k :=
  memGet_memWrite_out _ m a k (by rwa [leBytes_length])

end Sys2Proof.Machine
end

section
/-!
SUPPORT. Register writes (R9): when a write is taken, and for each register whose rule is more than a mask, what it stores.
-/
namespace Sys2Proof.Machine

/-! ## Where a write goes -/

theorem exec_registerWrite (r : MReg) (n : Nat) (v : Word) (s : State) :
    exec (.registerWrite r n v) s = if regThere s r n then .next (writeMReg s r n v) else .next s := rfl

/-- A register that is there takes the write. -/
theorem exec_registerWrite_there {r : MReg} {n : Nat} {s : State} (v : Word) (h : regThere s r n = true) :
    exec (.registerWrite r n v) s = .next (writeMReg s r n v) := by
  rw [exec_registerWrite, if_pos h]

theorem exec_registerWrite_of_eq {r : MReg} {n : Nat} {v : Word} {s t : State} (ht : writeMReg s r n v = t)
    (h : regThere s r n = true) : exec (.registerWrite r n v) s = .next t := by
  rw [exec_registerWrite_there v h, ht]

/-- A register that is absent, or on a die held in reset, takes none. -/
theorem exec_registerWrite_absent {r : MReg} {n : Nat} {s : State} (v : Word) (h : regThere s r n = false) :
    exec (.registerWrite r n v) s = .next s := by
  rw [exec_registerWrite, h]; rfl

/-- A write that the register's rule ignores changes nothing, whether the register is there or not. -/
theorem exec_registerWrite_ignored {r : MReg} {n : Nat} {v : Word} {s : State} (h : writeMReg s r n v = s) :
    exec (.registerWrite r n v) s = .next s := by
  rw [exec_registerWrite, h, ite_self]

theorem writeMReg_readOnly {r : MReg} (n : Nat) (v : Word) (s : State)
    (h : r ∈ [MReg.strimb, .pkgDies, .audStat, .strikes, .bootStat, .meas, .keystat, .scrubProg, .bport, .timesync, .pwrLive]) :
    writeMReg s r n v = s := by
  simp only [List.mem_cons, List.not_mem_nil, or_false] at h
  rcases h with rfl | rfl | rfl | rfl | rfl | rfl | rfl | rfl | rfl | rfl | rfl <;> rfl

theorem lt_regCount_of_regThere {s : State} {r : MReg} {n : Nat} (h : regThere s r n = true) : n < regCount r := by
  rw [regThere, Bool.and_eq_true, decide_eq_true_iff] at h
  exact h.1

/-- The number of a register that is there, taken as a number below the register's count, is that number. -/
theorem val_ofNat_of_regThere {s : State} {r : MReg} {n k : Nat} [NeZero k] (hk : regCount r = k) (h : regThere s r n = true) :
    (Fin.ofNat k n).val = n :=
  Nat.mod_eq_of_lt (hk ▸ lt_regCount_of_regThere h)

/-- A register numbered as its event is: the write does to number `n` what the event does to that number. -/
theorem exec_registerWrite_numbered {r : MReg} {n k : Nat} {v : Word} {s : State} [NeZero k] (f : Nat → State)
    (hk : regCount r = k) (hf : writeMReg s r n v = f n) (h : regThere s r n = true) :
    exec (.registerWrite r n v) s = .next (f (Fin.ofNat k n)) := by
  rw [exec_registerWrite_there v h, hf, val_ofNat_of_regThere hk h]

/-! ## Registers of a core, a string or a die -/

theorem modDie_modDie (s : State) (d : Nat) (f g : Die → Die) : modDie (modDie s d f) d g = modDie s d (g ∘ f) := by
  simp only [modDie, getDie, spGet_spSet_self, spSet_spSet, Function.comp]

theorem fillerOf_eq (v : Word) : fillerOf v = wd ((if bit v 12 then 4096 else 0) + min 2700 (v.toNat % 4096)) := by
  rw [fillerOf, fld_bit, b2n, ite_mul, one_mul, zero_mul]; rfl

theorem writeMReg_fillerLevel (s : State) (n : Nat) (v : Word) : writeMReg s .fillerLevel n v = modStr s n fun x =>
    { x with filler := wd ((if bit v 12 then 4096 else 0) + min 2700 (v.toNat % 4096)) } := by
  rw [writeMReg, fillerOf_eq]

theorem writeFlogCtl_eq (s : State) (c : Nat) (v : Word) : writeFlogCtl s c v = modCore s c fun x =>
    { x with flog := { x.flog with head := v.setWidth 8, lost := if bit v 32 then 0 else x.flog.lost } } := by
  rw [writeFlogCtl, ← ofNat_fld_zero v 8 (by decide)]

theorem writeMcwd_eq (s : State) (d : Nat) (v : Word) : writeMcwd s d v = modDie s d fun x =>
    { x with mcwdLimit := v.toNat % 2 ^ 32, mcwdAt := if bit v 63 then s.time else x.mcwdAt } := by
  rw [writeMcwd, kickMcwd]
  cases bit v 63 with
  | false => rfl
  | true => rw [if_pos rfl, modDie_modDie]; rfl

/-! ## Registers of the Granite die -/

theorem freeDiags_of_nil {s : State} (h : s.gran.diags = []) : freeDiags s = s := by
  have hf : freeDiags s = modGran s fun g => { g with diags := s.gran.diags } := by simp [freeDiags, h]
  exact hf

theorem writeFrecCtl_of_nil {s : State} (v : Word) (h : s.gran.diags = []) : writeFrecCtl s v = modGran s fun g =>
    { g with frecHead := v.setWidth 9, frecLost := if bit v 32 then 0 else g.frecLost } := by
  rw [writeFrecCtl, freeDiags_of_nil (by exact h), ← ofNat_fld_zero v 9 (by decide)]

/-- The mask of GEODE_CTL covers the fields beside OUTQ, and the fields that it leaves out are reserved (R418). -/
theorem fld_geodeOf_other (old v : Word) {hi lo : Nat} (hhi : hi < 64) (h : hi < 8 ∨ 15 < lo) :
    fld (geodeOf old v) hi lo = fld (v &&& 0x00003FFFFC0000FF) hi lo :=
  fld_setFld_other _ _ hhi h

theorem fld_geodeOf_outq (old v : Word) :
    fld (geodeOf old v) 15 8 = if fld v 15 8 = 0 then fld old 15 8 else fld v 15 8 := by
  rw [geodeOf, fld_setFld_self _ _ (by decide)]
  split_ifs
  · exact Nat.mod_eq_of_lt (fld_lt old 15 8)
  · exact Nat.mod_eq_of_lt (fld_lt v 15 8)

theorem geodeOf_fields (old v : Word) :
    fld (geodeOf old v) 63 46 = 0 ∧ fld (geodeOf old v) 45 26 = fld v 45 26 ∧ fld (geodeOf old v) 25 16 = 0 ∧
      fld (geodeOf old v) 7 0 = fld v 7 0 ∧
      fld (geodeOf old v) 15 8 = if fld v 15 8 = 0 then fld old 15 8 else fld v 15 8 := by
  refine ⟨?_, ?_, ?_, ?_, fld_geodeOf_outq old v⟩
  · rw [fld_geodeOf_other old v (by decide) (by decide)]; exact fld_and_clear _ _ (by decide)
  · rw [fld_geodeOf_other old v (by decide) (by decide)]; exact fld_and_keep _ _ (by decide)
  · rw [fld_geodeOf_other old v (by decide) (by decide)]; exact fld_and_clear _ _ (by decide)
  · rw [fld_geodeOf_other old v (by decide) (by decide)]; exact fld_and_keep _ _ (by decide)

/-! ## Registers whose write is an event -/

@[simp] theorem after_next (s t : State) : after s (.next t) = t := rfl

theorem writeDvfs_eq (s : State) (d : Fin 8) (v : Word) :
    .next (writeDvfs s d v) = if bit v 14 then execDvfsForce d v s else execDvfsFreqWrite d v s := by
  simp only [writeDvfs, execDvfsForce, execDvfsFreqWrite]
  split_ifs <;> rw [after_next]

theorem after_migctlGo (p : Fin 256) (v : Word) (s : State) : .next (after s (execMigctlGo p v s)) = execMigctlGo p v s := by
  rw [execMigctlGo]
  split_ifs <;> rfl

/-- The state after a step of a PH_CTL write that the written word may ask for. -/
theorem ite_after_eq {on : Prop} [Decidable on] {o : Out} {s t : State} (h : if on then o = .next t else t = s) :
    (if on then after s o else s) = t := by
  split_ifs at h ⊢
  · rw [h]; rfl
  · exact h.symm

/-- A PH_CTL write (R200) is the steps that its bits ask for, one after another (log entry 20). -/
theorem writePhCtl_eq {s a b c : State} {p : Fin 256} {v : Word}
    (hstrag : if bit v 6 = true then execPhCtlStragClear p s = .next a else a = s)
    (hhold : execPhCtlHold p (bit v 0) a = .next b)
    (hdiscard : if bit v 2 = true then execPhCtlDiscard p b = .next c else c = b) :
    .next (writePhCtl s p v) = if bit v 1 then execPhCtlAbort p c else .next c := by
  have hb : after a (execPhCtlHold p (bit v 0) a) = b := by rw [hhold]; rfl
  simp only [writePhCtl, ite_after_eq hstrag, hb, ite_after_eq hdiscard]
  cases bit v 1 <;> rfl

/-- An OP of CTX_CTL that the table does not name does nothing (R367). -/
theorem writeCtxCtl_zero {s : State} {v : Word} (p : Nat) (h : fld v 1 0 = 0) : writeCtxCtl s p v = s := by
  simp only [writeCtxCtl, h]

theorem writeCtxCtl_save {s : State} {v : Word} (p : Nat) (h : fld v 1 0 = 1) : writeCtxCtl s p v = ctxStart s p .save := by
  simp only [writeCtxCtl, h]

theorem writeCtxCtl_evict {s : State} {v : Word} (p : Nat) (h : fld v 1 0 = 2) :
    writeCtxCtl s p v = ctxStart s p .evict := by
  simp only [writeCtxCtl, h]

theorem writeCtxCtl_restore {s : State} {v : Word} (p : Nat) (h : fld v 1 0 = 3) :
    writeCtxCtl s p v = ctxStart s p .restore := by
  simp only [writeCtxCtl, h]

theorem writeXfctl_replay {s : State} {v : Word} (p : Fin 256) (h : fld v 43 42 = 1) :
    .next (writeXfctl s p v) = execXfctlReplay p (v.extractLsb' 32 10) (v.setWidth 16) s := by
  rw [writeXfctl, if_pos h, execXfctlReplay, toNat_extractLsb'_eq_fld v 32 10 (by decide),
    toNat_setWidth_eq_fld v 16 (by decide)]

theorem writeXfctl_abandon {s : State} {v : Word} (p : Fin 256) (h : fld v 43 42 = 2) :
    .next (writeXfctl s p v) = execXfctlAbandon p s := by
  rw [writeXfctl, if_neg (by omega), if_pos h, execXfctlAbandon]
  split_ifs <;> rfl

/-- An OP of XFCTL that the table does not name does nothing (R351). -/
theorem writeXfctl_ignored {s : State} {v : Word} (p : Fin 256) (h : fld v 43 42 = 0 ∨ fld v 43 42 = 3) :
    writeXfctl s p v = s := by
  rw [writeXfctl, if_neg (by omega), if_neg (by omega)]

/-- The number of a group's LANECTL names its core and the group. -/
theorem lanectl_number {n : Nat} {d : Fin 8} {c : Fin 128} {g : Fin 8} (hn : n = 8 * (128 * d.val + c.val) + g.val) :
    n / 8 = coreNum d c ∧ n % 8 = g.val := by
  have hg := g.isLt
  simp only [coreNum]
  omega

/-- Bits 33:32 clear make the PC of a resume a multiple of 4, so the event takes it (R345). -/
theorem writeLanectl_resume {s : State} {n : Nat} {v : Word} {d : Fin 8} {c : Fin 128} {g : Fin 8}
    (hn : n = 8 * (128 * d.val + c.val) + g.val) (hop : fld v 57 56 = 1) (hpc : fld v 33 32 = 0) :
    .next (writeLanectl s n v) = execLanectlResume d c g (v.extractLsb' 32 20) (v.setWidth 32) s := by
  obtain ⟨hcore, hgrp⟩ := lanectl_number hn
  have haligned : (v.extractLsb' 32 20).toNat % 4 = 0 := by
    rw [toNat_extractLsb'_eq_fld v 32 20 (by decide), ← hpc]
    exact fld_mod v (hi := 51) (hi' := 33) (by decide)
  rw [writeLanectl, if_pos ⟨hop, hpc⟩, execLanectlResume, if_pos haligned, hcore, hgrp,
    ← ofNat_fld v 32 20 (by decide), ← ofNat_fld_zero v 32 (by decide)]

theorem writeLanectl_kill {s : State} {n : Nat} {v : Word} {d : Fin 8} {c : Fin 128} {g : Fin 8}
    (hn : n = 8 * (128 * d.val + c.val) + g.val) (hop : fld v 57 56 = 2) (hpc : fld v 33 32 = 0) :
    .next (writeLanectl s n v) = execLanectlKill d c g (v.setWidth 32) s := by
  obtain ⟨hcore, hgrp⟩ := lanectl_number hn
  rw [writeLanectl, if_neg (by omega), if_pos ⟨hop, hpc⟩, execLanectlKill, hcore, hgrp, ← ofNat_fld_zero v 32 (by decide)]

/-- An OP of LANECTL that the table does not name, or a PC that is no multiple of 4, does nothing (R345). -/
theorem writeLanectl_ignored {s : State} {v : Word} (n : Nat) (h : fld v 57 56 = 0 ∨ fld v 57 56 = 3 ∨ fld v 33 32 ≠ 0) :
    writeLanectl s n v = s := by
  rw [writeLanectl, if_neg (by omega), if_neg (by omega)]

/-! ## The Bilsol half, management memory and EV_HEAD -/

theorem writeMReg_peerrx_base {s : State} {n : Nat} (v : Word) (h : n % 4 = 0) :
    writeMReg s .peerrx n v = writePeerrx s (n / 4) 0 v :=
  if_pos h

theorem writeMReg_peerrx_lenSrc {s : State} {n : Nat} (v : Word) (h : n % 4 = 1) :
    writeMReg s .peerrx n v = setPeerrx s (n / 4) (spGet (0, 0, 0) s.bilsol.peerrx (n / 4)).1 (peerLenSrc v) := by
  rw [writeMReg, if_neg (by omega), if_pos h]

theorem writeMReg_peerrx_ignored {s : State} {n : Nat} (v : Word) (h : 2 ≤ n % 4) : writeMReg s .peerrx n v = s := by
  rw [writeMReg, if_neg (by omega), if_neg (by omega)]

/-- A write to BASE is the event on the entry that holds it. -/
theorem exec_registerWrite_peerrx_base {s : State} {n : Nat} (v : Word) (hn : n % 4 = 0) (h : regThere s .peerrx n = true) :
    exec (.registerWrite .peerrx n v) s = exec (.peerrxWrite (Fin.ofNat 16 (n / 4)) 0 v) s := by
  have hlt : n < 64 := lt_regCount_of_regThere h
  have hentry : (Fin.ofNat 16 (n / 4)).val = n / 4 := Nat.mod_eq_of_lt (by omega)
  rw [exec_registerWrite_of_eq (writeMReg_peerrx_base v hn) h]
  exact congrArg (fun e => Host.Outcome.next (writePeerrx s e 0 v)) hentry.symm

/-- A write to LEN and SRC of a PEERRX entry: a VALID entry whose range would break the placement rules keeps its words (R471). -/
theorem setPeerrx_lenSrc (s : State) (e : Nat) (b v : Word) : .next (setPeerrx s e b (peerLenSrc v)) =
    if bit b 63 = true ∧ peerRangeOk s (fld b 29 0) (fld v 31 0) = false then (.next s : Out)
    else .next { s with bilsol := { s.bilsol with
      peerrx := spSet s.bilsol.peerrx e (b, v &&& 0x0003FFFFFFFFFFFF, (spGet (0, 0, 0) s.bilsol.peerrx e).2.2) } } := by
  have hlen : fld (v &&& 0x0003FFFFFFFFFFFF) 31 0 = fld v 31 0 := fld_and_keep _ _ (by decide)
  simp only [setPeerrx, peerLenSrc, hlen, Bool.not_eq_true]
  exact apply_ite Host.Outcome.next _ _ _

theorem putByte16_both (x : BitVec 16) (v : Nat) :
    putByte16 (putByte16 x 0 (BitVec.ofNat 8 v)) 1 (BitVec.ofNat 8 (v / 256)) = BitVec.ofNat 16 v := by
  apply BitVec.eq_of_toNat_eq
  simp only [putByte16, BitVec.toNat_ofNat, if_true, one_ne_zero, if_false]
  omega

/-- The two bytes of EV_HEAD in the host window (R459). -/
theorem windowWrite_evHead (h : HostFn) (v : Nat) :
    windowWrite h 0x10E (leBytes 2 v) = { h with evHead := BitVec.ofNat 16 v } := by
  rw [← putByte16_both h.evHead v]; rfl

theorem writeMReg_evHead (s : State) (n : Nat) (v : Word) :
    writeMReg s .evHead n v = { s with host := { s.host with evHead := v.setWidth 16 } } :=
  congrArg (fun h => { s with host := h }) (windowWrite_evHead s.host v.toNat)

/-- Management memory reads back what was written, and its other bytes stand (R226, R231). -/
theorem mcMem_store (m : Mem) (a : Nat) (v : Word) : memRead (memStore m a 8 v.toNat) a 8 = v.toNat ∧
    ∀ k, k < a ∨ a + 8 ≤ k → memGet (memStore m a 8 v.toNat) k = memGet m k :=
  ⟨(memRead_memStore m a 8 _).trans (Nat.mod_eq_of_lt v.isLt), memGet_memStore_out m a 8 _⟩

end Sys2Proof.Machine
end

section
/-!
PROOF. Writes to the management registers (R9).
-/
namespace Sys2Proof.Machine

/-- Settles O51: `writes` where a register stores the written word, masked or clamped, as `writeMReg` puts it; `stores` where a
lemma above says what the register's rule comes to; `ignores` where nothing is stored. -/
theorem registerWrites : Obligations.RegisterWrites := by
  unfold Obligations.RegisterWrites
  intro n v s there w same ofPart does rx putRx core die gran part low
  have writes : ∀ {r}, there r → exec (w r) s = .next (writeMReg s r n v) := exec_registerWrite_there v
  have stores : ∀ {r t}, writeMReg s r n v = t → there r → exec (w r) s = .next t := exec_registerWrite_of_eq
  have ignores : ∀ {r}, writeMReg s r n v = s → exec (w r) s = .next s := exec_registerWrite_ignored
  refine ⟨fun r => exec_registerWrite_absent v, fun r hr => ignores (writeMReg_readOnly n v s hr), writes,
    stores (writeMReg_fillerLevel s n v), writes, writes, writes, writes, writes, writes, stores (writeFlogCtl_eq s n v),
    writes, writes, writes, writes, writes, writes, writes, writes, ?frecCtl, ?geodeCtl, writes, writes,
    stores (writeMcwd_eq s n v), writes, ?route, ?railIlim, ?dvfsCtl, ?stragLimit, ?troot, ?migctl, ?wdog, writes, ?phCtl,
    ?ctxNone, ?ctxSave, ?ctxEvict, ?ctxRestore, ?xfReplay, ?xfAbandon, ?xfNone, ?lanectl, ?laneNone, ?peerBase, ?peerLenSrc,
    ?peerNone, ?mcMem, stores (writeMReg_evHead s n v)⟩
  case frecCtl => exact fun h hd => stores (writeFrecCtl_of_nil v hd) h
  case geodeCtl => exact fun h => ⟨_, writes h, geodeOf_fields _ v⟩
  case route => exact fun h => ⟨_, writes h, rfl, rfl, fun k => spGet_spPut 0 s.bilsol.route n k _⟩
  case railIlim => exact exec_registerWrite_numbered (writeRail s · v) rfl rfl
  case dvfsCtl =>
    intro h
    rw [writes h, apply_ite (exec · s)]
    exact writeDvfs_eq s _ v
  case stragLimit => exact exec_registerWrite_numbered (writeStrag s · v) rfl rfl
  case troot => exact exec_registerWrite_numbered (writeTroot s · v) rfl rfl
  case migctl => exact fun h => (writes h).trans (after_migctlGo _ v s)
  case wdog => exact exec_registerWrite_numbered (writeWdog s · v) rfl rfl
  case phCtl => exact fun a b c h ha hb hc => (writes h).trans (writePhCtl_eq ha hb hc)
  case ctxNone => exact fun hop => ignores (writeCtxCtl_zero n hop)
  case ctxSave => exact fun hop => exec_registerWrite_numbered (ctxStart s · .save) rfl (writeCtxCtl_save n hop)
  case ctxEvict => exact fun hop => exec_registerWrite_numbered (ctxStart s · .evict) rfl (writeCtxCtl_evict n hop)
  case ctxRestore => exact fun hop => exec_registerWrite_numbered (ctxStart s · .restore) rfl (writeCtxCtl_restore n hop)
  case xfReplay => exact fun hop h => (writes h).trans (writeXfctl_replay _ hop)
  case xfAbandon => exact fun hop h => (writes h).trans (writeXfctl_abandon _ hop)
  case xfNone => exact fun hop => ignores (writeXfctl_ignored _ hop)
  case lanectl =>
    exact fun d c g hn => ⟨fun hop hpc h => (writes h).trans (writeLanectl_resume hn hop hpc),
      fun hop hpc h => (writes h).trans (writeLanectl_kill hn hop hpc)⟩
  case laneNone => exact fun hop => ignores (writeLanectl_ignored n hop)
  case peerBase => exact exec_registerWrite_peerrx_base v
  case peerLenSrc =>
    exact fun h hn => (stores (writeMReg_peerrx_lenSrc v hn) h).trans (setPeerrx_lenSrc s _ _ v)
  case peerNone => exact fun hn => ignores (writeMReg_peerrx_ignored v hn)
  case mcMem => exact fun h => ⟨_, writes h, mcMem_store _ _ v⟩

end Sys2Proof.Machine
end

section
/-!
PROOF. What a step runs (R21, R86, R148).
-/
namespace Sys2Proof.Machine

/-- Refutes O55: a step that issues no word ends the cycle under way (R148), so it runs an agenda event with the group-scope
view gone; `exec` of that event alone keeps a view that stands. Here STAY_HOLD_EXPIRE, which touches no view, is due from a state
that holds one. -/
theorem not_stepRunsDecodedWord : ¬ Obligations.StepRunsDecodedWord := by
  unfold Obligations.StepRunsDecodedWord
  intro h
  let view : Scope := { k := [], seg := [], trapvec := 0, alogq := 0, xq := 0, noteq := 0 }
  let s : State := { State.reset with agenda := [.stayHoldExpire 0 0 0], scope := some view }
  have hstep := (h s 0).1 (.stayHoldExpire 0 0 0) [] rfl rfl
  have hruns : step s = .next (modGroup (endCycle (tick { s with agenda := [] })) 0 0 fun g => { g with stayLeft := none }) := rfl
  have hexec : exec (.stayHoldExpire 0 0 0) (tick { s with agenda := [] }) =
      .next (modGroup (tick { s with agenda := [] }) 0 0 fun g => { g with stayLeft := none }) := rfl
  rw [hruns, hexec, Host.Outcome.next.injEq] at hstep
  have hscope : (none : Option Scope) = some view := congrArg State.scope hstep
  cases hscope

end Sys2Proof.Machine
end

section
/-!
SUPPORT. The elected lane (R101), the frames of words that write one register of their core or group, and the masks of SRD and SWR.
-/
namespace Sys2Proof.Machine

/-! ## The elected lane -/

theorem le_of_bitList_eq_cons {w : Nat} {m : BitVec w} {q k : Nat} {r : List Nat} (h : bitList m = q :: r)
    (hk : bit m k = true) : q ≤ k := by
  have hs := bitList_sorted m
  have hm : k ∈ bitList m := (mem_bitList m k).mpr hk
  rw [h] at hs hm
  rcases List.mem_cons.mp hm with rfl | hr
  · exact le_rfl
  · exact le_of_lt (List.rel_of_pairwise_cons hs hr)

/-- The lowest lane that issues is the elected one (R101). -/
theorem Lowest.low_eq {e : WEnv} {q : Nat} (h : Lowest e q) : e.low = q := by
  obtain ⟨hq, hlow⟩ := h
  have hmem : q ∈ bitList e.act := (mem_bitList _ _).mpr hq
  rw [WEnv.low, lowLane]
  cases hl : bitList e.act with
  | nil => rw [hl] at hmem; cases hmem
  | cons x r =>
    have hx : bit e.act x = true := (mem_bitList _ _).mp (hl ▸ List.mem_cons_self ..)
    have hle : x ≤ q := le_of_bitList_eq_cons hl hq
    by_contra hne
    rw [List.headD_cons] at hne
    rw [hlow x (by omega)] at hx
    cases hx

/-! ## Words that write one register of their core or group -/

/-- A word that changes its core, and no lane: `f` copies from the later core what `g` writes, which is no group. -/
theorem allowing_modCore (e : WEnv) (w : BitVec 32) (b : State) (f : Core → Core → Core) (g : Core → Core)
    (hf : ∀ x y, { y with groups := (g x).groups } = g x → f x y = g x) :
    Allowing f Quiet e b (endWord e w (modCore b e.core g, [])) := by
  have hcore := (onlyGroup_endWord e w (modCore b e.core g)).core
  rw [getCore_modCore_self] at hcore
  have hb : modCore b e.core (fun x => f x (getCore (endWord e w (modCore b e.core g, [])) e.core)) = modCore b e.core g := by
    rw [modCore, hf _ _ hcore]; rfl
  rw [Allowing, hb]
  exact quiet_endWord e w _

/-- What a word that changes its core leaves in a field `p` that the groups are no part of. -/
theorem field_modCore_endWord {α : Type} (p : Core → α) (hp : ∀ x gs, p { x with groups := gs } = p x) (e : WEnv) (w : BitVec 32)
    (b : State) (g : Core → Core) :
    p (getCore (endWord e w (modCore b e.core g, [])) e.core) = p (g (getCore b e.core)) := by
  have hcore := (onlyGroup_endWord e w (modCore b e.core g)).core
  rw [getCore_modCore_self] at hcore
  exact (hp _ _).symm.trans (congrArg p hcore)

/-- A word that changes its group, and no lane: `f` copies from the later group what `g` writes, which is no port. -/
theorem allowingGroup_modGroup (e : WEnv) (w : BitVec 32) (b : State) (f : Group → Group → Group) (g : Group → Group)
    (hf : ∀ x second p, f x ((g x).setPort second p) = g x) :
    AllowingGroup f Quiet e b (endWord e w (modGroup b e.core e.grp g, [])) := by
  obtain ⟨p, hp, -⟩ := getGroup_endWord e w (modGroup b e.core e.grp g)
  rw [getGroup_modGroup_self] at hp
  have hb : modGroup b e.core e.grp (fun x => f x (getGroup (endWord e w (modGroup b e.core e.grp g, [])) e.core e.grp)) =
      modGroup b e.core e.grp g := by
    rw [modGroup, hp, hf]; rfl
  rw [AllowingGroup, hb]
  exact quiet_endWord e w _

/-! ## SRD -/

/-- The reserved bits of a queue control word read zero (R214). -/
theorem queueShown_eq (q : Word) : queueShown q = q &&& 0x0003FFFF0000FFFF := by
  have hmask : ∀ i < 64, (0x0003FFFF0000FFFF : Word).getLsbD i = (decide (i < 16) || (decide (32 ≤ i) && decide (i < 50))) := by
    decide
  apply BitVec.eq_of_getLsbD_eq
  intro i hi
  rw [queueShown, getLsbD_setFld _ _ _ _ _ hi, getLsbD_setFld _ _ _ _ _ hi, BitVec.getLsbD_and, hmask i hi]
  simp only [Nat.zero_testBit]
  split_ifs <;> simp <;> omega

/-- No instruction but a load is outstanding in the lanes of a mask. -/
theorem busyLanes_false_iff (g : Group) (m : LaneMask) :
    g.busyLanes false m = false ↔ ∀ o ∈ g.out, o.kind = .load ∨ o.mask &&& m = 0 := by
  simp only [Group.busyLanes, List.any_eq_false, Bool.false_or, Bool.and_eq_true, decide_eq_true_eq, not_and, not_not, or_iff_not_imp_left]

/-- The group once a word has issued: its clause has moved on, and it is the group's last issued word (R148, R150). -/
theorem getGroup_passWord (s : State) (e : WEnv) :
    getGroup (passWord s e) e.core e.grp =
      { (getGroup s e.core e.grp).setPort e.second (some { e.cl with nxt := e.idx + 1, run := [], wait := .go }) with
        lastIssue := s.time } := by
  unfold passWord
  cases e.second <;> exact getGroup_setGroup_self _ _ _ _

theorem out_atEffect (s : State) (k : Clause) :
    (getGroup (atEffect s k) (envOf s k).core (envOf s k).grp).out = (getGroup s s.cur.core s.cur.grp).out := by
  rw [atEffect, getGroup_passWord]
  cases (envOf s k).second <;> rfl

/-- A word that does not stall needs nothing of its own. -/
theorem Issues.need_eq_false {m : WMeta} {s : State} {k : Clause} (h : Issues m s k) : m.need (envOf s k) s = false := by
  have hfree := h.free
  simp only [stallOf, Bool.or_eq_false_iff] at hfree
  exact hfree.2

/-! ## SWR -/

theorem fstatBad_eq_false {v : Word} (h : v &&& 0xFFFFFFFFFFFEFFC0 = 0) : fstatBad v = false := by
  rw [fstatBad, h]; rfl

/-- A write of FSTAT, bit by bit (R34, R118). -/
theorem getLsbD_writeFstat (old v : Word) (n : Nat) (hn : n < 64) :
    (writeFstat old v).getLsbD n =
      if n < 6 then old.getLsbD n && !v.getLsbD n else if n = 16 then v.getLsbD 16 else old.getLsbD n := by
  have hmask : ∀ i < 64, (0x3F : Word).getLsbD i = decide (i < 6) := by decide
  rw [writeFstat, getLsbD_setFld _ _ _ _ _ hn]
  by_cases h16 : n = 16
  · subst h16
    rw [if_pos (by omega), if_neg (by omega), if_pos rfl, Nat.sub_self, testBit_fld]; rfl
  · rw [if_neg (by omega), BitVec.getLsbD_and, BitVec.getLsbD_not, BitVec.getLsbD_and, hmask n hn]
    by_cases h6 : n < 6 <;> simp [h6, h16, hn]

/-- A value below 2^20 and a multiple of 4 is one that TRAPVEC takes. -/
theorem trapvec_fields {v : Word} (h20 : v.toNat < 2 ^ 20) (h4 : v.toNat % 4 = 0) : fld v 63 20 = 0 ∧ fld v 1 0 = 0 := by
  constructor
  · rw [fld, Nat.shiftRight_eq_div_pow, Nat.div_eq_of_lt h20, Nat.zero_mod]
  · rw [fld, Nat.shiftRight_zero]; exact h4

/-- A SWR to a queue control word whose value passes the checks (R118, R215): the elected lane's value is written. -/
theorem effectIf_swrQueue {i : Instr} {a : Src} {esz1 : Bool} {others : Scope → List Word} {bad : Scope → Core → Bool}
    {put : Core → Word → Core} (hx : ∀ s, exec i s = swrQueue a esz1 others bad put s)
    (f : Core → Core → Core) (hf : ∀ x y v, { y with groups := (put x v).groups } = put x v → f x y = put x v)
    (p : Core → Word) (hp : ∀ x gs, p { x with groups := gs } = p x) (hput : ∀ x v, p (put x v) = v) :
    EffectIf i { ops := [a], priv := true, phase := .restricted }
      (fun e b => ∃ q, Lowest e q ∧ bad (e.scoped b) (getCore b e.core) = false ∧
        queueOk (e.codeSegs b) (others (e.scoped b)) esz1 (e.src b q a) = true)
      (fun e b t => Allowing f Quiet e b t ∧ ∀ q, Lowest e q → p (getCore t e.core) = e.src b q a) := by
  unfold swrQueue at hx
  refine effectIf_of _ hx fun s k _ ⟨q, hq, hbad, hok⟩ w => ?_
  simp only [hq.low_eq, hbad, hok, Bool.false_eq_true, not_true_eq_false, or_self, if_false]
  refine ⟨allowing_modCore _ w _ f _ fun x y => hf x y _, fun q' hq' => ?_⟩
  rw [field_modCore_endWord p hp, hput, ← hq'.low_eq, hq.low_eq]

end Sys2Proof.Machine
end

section
/-!
PROOF. SRD and SWR (R32, R34, R118, R215).
-/
namespace Sys2Proof.Machine

theorem exec_srd (d : Reg) (sel : SReg) (s : State) : exec (.srd d sel) s = execSrd d sel s := rfl

theorem effect_srd (d : Reg) (sel : SReg) :
    Effect (.srd d sel) { dst := [d], need := fstatNeed sel } fun e b t =>
      (sel = .fstat → ∀ o ∈ (getGroup b e.core e.grp).out, o.kind = .load ∨ o.mask &&& e.act = 0) ∧
      OnlyReg false d e b t ∧ ∀ l, bit e.act l = true → readReg (e.lane t l) d = sregVal e b l sel := by
  refine effect_of' _ (exec_srd d sel) fun s k hk w => ⟨?_, onlyReg_writeAll _ w _ d _, fun l hl => readReg_writeAll _ w _ d _ l hl⟩
  rintro rfl
  rw [out_atEffect]
  exact (busyLanes_false_iff _ _).mp hk.need_eq_false

/-- The lanes that a SWR of FSTAT writes, and those whose value it refuses (R34). -/
theorem exec_swr_fstat (a : Src) (s : State) : exec (.swr a .fstat) s =
    runWord { ops := [a], need := drainNeed false } (fun e s =>
      (e.mapLanes s fun l x => if fstatBad (e.src s l a) then x else { x with fstat := writeFstat x.fstat (e.src s l a) },
       (e.lanes.filter fun l => fstatBad (e.src s l a)).map fun l => { lane := l, cause := 0x01, access := 0, addr := 0 })) s := rfl

theorem exec_swr_trapvec (a : Src) (s : State) : exec (.swr a .trapvec) s =
    runWord { ops := [a] } (fun e s =>
      if fld (e.src s e.low a) 63 20 ≠ 0 ∨ fld (e.src s e.low a) 1 0 ≠ 0 then (s, e.trapAll 0x01 0 0)
      else (modGroup s e.core e.grp fun g => { g with trapvec := e.src s e.low a }, [])) s := rfl

theorem exec_swr_alogq (a : Src) (s : State) : exec (.swr a .alogq) s =
    swrQueue a false (fun q => [q.xq, q.noteq]) (fun _ _ => false) (fun x v => { x with alogq := v }) s := rfl

theorem exec_swr_xq (a : Src) (s : State) : exec (.swr a .xq) s =
    swrQueue a true (fun q => [q.alogq, q.noteq]) (fun q co => queueBusy co q.xq) (fun x v => { x with xq := v }) s := rfl

theorem exec_swr_noteq (a : Src) (s : State) : exec (.swr a .noteq) s =
    swrQueue a true (fun q => [q.alogq, q.xq]) (fun _ _ => false) (fun x v => { x with noteq := v }) s := rfl

/-- Settles O14: a SRD writes its register with what `sregVal` reads; a SWR that passes its checks writes one field. -/
theorem specialRegisters : Obligations.SpecialRegisters := by
  unfold Obligations.SpecialRegisters
  intro d a sel shown
  refine ⟨?srd, ?fstat, ?trapvec, ?alogq, ?xq, ?noteq⟩
  case srd =>
    intro s k hk
    obtain ⟨t, hexec, hout, honly, hval⟩ := effect_srd d sel s k hk
    refine ⟨t, hexec, hout, honly, fun l hl => (hval l hl).trans ?_⟩
    cases sel with
    | alogq => rw [sregVal, queueShown_eq, WEnv.scoped]; cases (envOf s k).second <;> cases (atEffect s k).scope <;> rfl
    | xq => rw [sregVal, queueShown_eq, WEnv.scoped]; cases (envOf s k).second <;> cases (atEffect s k).scope <;> rfl
    | noteq => rw [sregVal, queueShown_eq, WEnv.scoped]; cases (envOf s k).second <;> cases (atEffect s k).scope <;> rfl
    | trapvec => rw [sregVal, WEnv.scoped]; cases (envOf s k).second <;> cases (atEffect s k).scope <;> rfl
    | _ => rfl
  case fstat =>
    refine effectIf_of _ (exec_swr_fstat a) fun s k hk hok w => ?_
    have hlanes : ((envOf s k).lanes.filter fun l => fstatBad ((envOf s k).src (atEffect s k) l a)) = [] :=
      List.filter_eq_nil_iff.mpr fun l hl => by rw [fstatBad_eq_false (hok l ((mem_bitList _ _).mp hl))]; exact Bool.false_ne_true
    simp only [hlanes, List.map_nil]
    refine ⟨onlyLanes_mapLanes _ w _ _, fun l hl => ⟨_, ?_, fun n hn => getLsbD_writeFstat _ _ n hn⟩⟩
    rw [lane_endWord, mapLanes_lane, if_pos hl, fstatBad_eq_false (hok l hl)]
    rfl
  case trapvec =>
    refine effectIf_of _ (exec_swr_trapvec a) fun s k _ ⟨q, hq, h20, h4⟩ w => ?_
    obtain ⟨hhi, hlo⟩ := trapvec_fields h20 h4
    rw [hq.low_eq, if_neg (by simp only [hhi, hlo, ne_eq, not_true_eq_false, or_self, not_false_eq_true])]
    refine ⟨allowingGroup_modGroup _ w _ _ _ fun x second p => by cases second <;> rfl, fun q' hq' => ?_⟩
    obtain ⟨p, hp, -⟩ := getGroup_endWord (envOf s k) w
      (modGroup (atEffect s k) (envOf s k).core (envOf s k).grp fun g => { g with trapvec := (envOf s k).src (atEffect s k) q a })
    rw [hp, getGroup_modGroup_self, ← hq'.low_eq, hq.low_eq]
    cases (envOf s k).second <;> rfl
  case alogq =>
    have h := effectIf_swrQueue (exec_swr_alogq a) (fun x y => { x with alogq := y.alogq })
      (fun x y v h => by rw [show y.alogq = v from congrArg Core.alogq h]) Core.alogq (fun _ _ => rfl) (fun _ _ => rfl)
    exact fun s k hk ⟨q, hq, hok⟩ => h s k hk ⟨q, hq, rfl, hok⟩
  case xq =>
    exact effectIf_swrQueue (exec_swr_xq a) (fun x y => { x with xq := y.xq })
      (fun x y v h => by rw [show y.xq = v from congrArg Core.xq h]) Core.xq (fun _ _ => rfl) (fun _ _ => rfl)
  case noteq =>
    have h := effectIf_swrQueue (exec_swr_noteq a) (fun x y => { x with noteq := y.noteq })
      (fun x y v h => by rw [show y.noteq = v from congrArg Core.noteq h]) Core.noteq (fun _ _ => rfl) (fun _ _ => rfl)
    exact fun s k hk ⟨q, hq, hok⟩ => h s k hk ⟨q, hq, rfl, hok⟩

end Sys2Proof.Machine
end

section
/-!
PROOF. The completion of long-latency instructions (R15, R25, R126).
-/
namespace Sys2Proof.Machine

theorem onlyIn_setGroup (s : State) (c g : Nat) (x : Group) : OnlyIn c g s (setGroup s c g x) where
  rest := rfl
  cores k hk := by rw [setGroup, getCore_modCore, if_neg hk]
  core := by rw [setGroup, getCore_modCore_self]; rfl
  groups k hk := by rw [getGroup_setGroup, if_neg (fun h => hk h.2)]

theorem dropAt_eq_eraseIdx {α : Type} (l : List α) : ∀ i, dropAt l i = l.eraseIdx i := by
  induction l with
  | nil => intro i; rfl
  | cons x r ih =>
    intro i
    cases i with
    | zero => rfl
    | succ i => rw [dropAt, ih, List.eraseIdx_cons_succ]

/-- What the completion of an instruction delivers to one of its lanes (R15, R25). -/
def LongOp.deliver (o : LongOp) (l : Nat) (x : Lane) : Lane :=
  let x := { x with fstat := x.fstat ||| spGet 0 o.fst l }
  match o.dst, spFind o.vals l with
  | .t n, some v => if bit o.drop l then x else writeReg x (.t n) v
  | r, some v => writeReg x r v
  | _, none => x

/-- The group once the instruction at a place in its list has completed. -/
def Group.completed (gr : Group) (i : Nat) (o : LongOp) : Group :=
  { (bitList o.mask).foldl (fun g l => g.modLane l (o.deliver l)) gr with
    out := dropAt gr.out i, flags := spPut 0 gr.flags o.flag (spGet 0 gr.flags o.flag - 1) }

theorem completeOp_eq {s : State} {c g i : Nat} {o : LongOp} (h : (getGroup s c g).out[i]? = some o) :
    completeOp s c g i =
      o.recs.foldl (fun s r => alogPost s c r) (setGroup s c g ((getGroup s c g).completed i o)) := by
  have hrest := foldl_modLane_rest o.deliver (bitList o.mask) (getGroup s c g)
  have hout := congrArg Group.out hrest
  have hflags := congrArg Group.flags hrest
  rw [Group.completed, ← hout, ← hflags]
  simp only [completeOp, h]
  rfl

theorem completed_rest (gr : Group) (i : Nat) (o : LongOp) :
    { gr.completed i o with lanes := gr.lanes, out := gr.out, flags := gr.flags } = gr := by
  have hrest := foldl_modLane_rest o.deliver (bitList o.mask) gr
  unfold Group.completed
  generalize (bitList o.mask).foldl (fun g l => g.modLane l (o.deliver l)) gr = y at hrest ⊢
  rw [← hrest]

theorem completed_lane (gr : Group) (i : Nat) (o : LongOp) (l : Nat) :
    (gr.completed i o).lane l = if bit o.mask l then o.deliver l (gr.lane l) else gr.lane l := by
  have h := lane_foldl_modLane o.deliver (bitList o.mask) gr l (bitList_nodup o.mask)
  simp only [mem_bitList] at h
  exact h

theorem completes_of_kind {kind : LongKind} {s : State} {c g n : Nat} {o : LongOp} (h : (getGroup s c g).out[n]? = some o)
    (hk : o.kind = kind) : completeKind kind s c g n =
      o.recs.foldl (fun s r => alogPost s c r) (setGroup s c g ((getGroup s c g).completed n o)) := by
  simp only [completeKind, h, if_pos hk]
  exact completeOp_eq h

/-- Settles O24: each of the three events is `completeKind` of its kind, whose group is `Group.completed`. -/
theorem completions : Obligations.Completions := by
  unfold Obligations.Completions
  intro die core grp n s o c gr hn completes
  have key : ∀ i, exec i s = .next (o.recs.foldl (fun s r => alogPost s c r) (setGroup s c grp (gr.completed n o))) →
      completes i := by
    intro i hi
    refine ⟨_, hi, onlyIn_setGroup _ _ _ _, ?_⟩
    rw [getGroup_setGroup_self]
    refine ⟨completed_rest gr n o, ?_, fun f => ?_, fun l _ => ?_⟩
    · rw [Group.completed, dropAt_eq_eraseIdx, List.eraseIdx_eq_take_drop_succ]
    · rw [Group.completed, spGet_spPut]
      by_cases hf : f = o.flag
      · rw [hf, if_pos rfl, if_pos rfl]
      · rw [if_neg hf, if_neg (fun h => hf (Fin.ext h)), Nat.sub_zero]
    · rw [completed_lane, LongOp.deliver]
      cases o.dst <;> cases spFind o.vals l <;> rfl
  refine ⟨fun h => key _ ?_, fun h => key _ ?_, fun h => key _ ?_⟩ <;>
    exact congrArg Host.Outcome.next (completes_of_kind hn h)

end Sys2Proof.Machine
end

section
/-!
SUPPORT. Rounding over the reals (R45, R47, R49, R52): what `roundAt` selects of a magnitude of which `m` units of 2^e are known, and that
`roundFlt` rounds it as `RoundsTo` says.
-/
namespace Sys2Proof.Machine

/-! ## Bits of a magnitude -/

theorem bitLen_le_iff {n k : Nat} : bitLen n ≤ k ↔ n < 2 ^ k := by
  unfold bitLen
  split_ifs with h
  · simp [h]
  · rw [Nat.succ_le_iff, Nat.log2_lt h]

theorem two_pow_le_of_bitLen {n k : Nat} (h : k < bitLen n) : 2 ^ k ≤ n :=
  Nat.not_lt.mp fun hn => absurd (bitLen_le_iff.mpr hn) (by omega)

theorem lt_two_pow_bitLen (n : Nat) : n < 2 ^ bitLen n := bitLen_le_iff.mp le_rfl

theorem bitLen_pos {n : Nat} (h : n ≠ 0) : 0 < bitLen n := by
  unfold bitLen
  rw [if_neg h]
  exact Nat.succ_pos _

/-! ## One rounding -/

/-- `x` is `m` units of 2^e and less than one more, which `more` says there is something of. -/
structure Known (x : ℝ) (m : Nat) (e : Int) (more : Bool) : Prop where
  le : m * (2 : ℝ) ^ e ≤ x
  lt : x < (m + 1) * (2 : ℝ) ^ e
  more_iff : more = true ↔ x ≠ m * (2 : ℝ) ^ e

/-- Number `k` is what rounding `x` to a multiple of 2^q selects, and `exact` says that nothing is discarded (R45, R49). -/
def RoundsAt (c : Ctl) (neg : Bool) (x : ℝ) (q : Int) (k : Nat) (exact : Bool) : Prop :=
  ∃ lo : Nat, lo * (2 : ℝ) ^ q ≤ x ∧ x < (lo + 1) * (2 : ℝ) ^ q ∧ Selects c neg lo (x / 2 ^ q - lo) k ∧
    (exact = true ↔ x = lo * (2 : ℝ) ^ q)

theorem selects_zero (c : Ctl) (neg : Bool) (lo : Nat) : Selects c neg lo 0 lo :=
  ⟨fun h => absurd rfl h.1, fun _ => rfl⟩

theorem zpow_split (q e : Int) (h : e ≤ q) : (2 : ℝ) ^ q = 2 ^ (q - e).toNat * 2 ^ e := by
  rw [← zpow_natCast, ← zpow_add₀ two_ne_zero, Int.toNat_of_nonneg (by omega)]
  congr 1
  omega

/-- Below the last place of what is known, nothing is discarded. -/
theorem roundsAt_of_le {c : Ctl} {neg : Bool} {x : ℝ} {m : Nat} {e q : Int} (h : Known x m e false) (hq : q ≤ e) :
    RoundsAt c neg x q (roundAt c neg m e q false).1 (roundAt c neg m e q false).2 := by
  have hx : x = m * (2 : ℝ) ^ e := by
    by_contra hne
    exact absurd (h.more_iff.mpr hne) Bool.false_ne_true
  have hpos : (0 : ℝ) < 2 ^ q := by positivity
  have hxq : x = ((m * 2 ^ (e - q).toNat : Nat) : ℝ) * 2 ^ q := by
    rw [hx, zpow_split e q hq]; push_cast; ring
  rw [roundAt, if_pos hq]
  refine ⟨m * 2 ^ (e - q).toNat, hxq.ge, ?_, ?_, by simpa using hxq⟩
  · rw [add_one_mul, ← hxq]; linarith
  · rw [hxq, mul_div_cancel_right₀ _ hpos.ne', sub_self]
    exact selects_zero _ _ _

/-- Whether rounding goes away from zero where part of a unit is discarded: `rem` units of 2^-sh of it, and more where `more` says so. -/
def roundsAway (c : Ctl) (neg : Bool) (lo rem sh : Nat) (more : Bool) : Bool :=
  match c.mode with
  | .rne => decide (2 ^ sh < 2 * rem) || (decide (2 * rem = 2 ^ sh) && (more || decide (lo % 2 = 1)))
  | .rz => false
  | .ru => !neg
  | .rd => neg
  | .rs => decide (65536 ≤ (rem * 65536) >>> sh + c.rand)

theorem roundAt_of_lt {c : Ctl} {neg : Bool} {m : Nat} {e q : Int} {more : Bool} (h : e < q) :
    roundAt c neg m e q more =
      if m % 2 ^ (q - e).toNat = 0 ∧ ¬ more then (m >>> (q - e).toNat, true)
      else (m >>> (q - e).toNat + b2n (roundsAway c neg (m >>> (q - e).toNat) (m % 2 ^ (q - e).toNat) (q - e).toNat more), false) := by
  rw [roundAt, if_neg (by omega)]
  rfl

theorem add_b2n_of_iff {lo : Nat} {D : ℝ} {P : Prop} {b : Bool} (hD : D ≠ 0) (h : b = true ↔ P) :
    ((D ≠ 0 ∧ P) → lo + b2n b = lo + 1) ∧ (¬ (D ≠ 0 ∧ P) → lo + b2n b = lo) := by
  cases b <;> simp_all [b2n]

/-- Half a unit, seen through its known part (R49). -/
theorem nearest_iff {lo rem H : Nat} {d D : ℝ} {more : Bool} (hH : 0 < H) (hD : D = (rem + d) / (2 * H : ℝ)) (h0 : 0 ≤ d) (h1 : d < 1)
    (hd : more = true ↔ d ≠ 0) :
    (2 * H < 2 * rem ∨ 2 * rem = 2 * H ∧ (more = true ∨ lo % 2 = 1)) ↔ (1 < 2 * D ∨ 2 * D = 1 ∧ lo % 2 = 1) := by
  have hHr : (0 : ℝ) < H := by exact_mod_cast hH
  have h2D : 2 * D = (rem + d) / H := by rw [hD]; field_simp
  rw [h2D, lt_div_iff₀ hHr, div_eq_iff hHr.ne', one_mul]
  rcases Nat.lt_trichotomy rem H with hlt | rfl | hgt
  · have : (rem : ℝ) + 1 ≤ H := by exact_mod_cast hlt
    constructor
    · rintro (h | ⟨h, -⟩) <;> omega
    · rintro (h | ⟨h, -⟩) <;> linarith
  · rcases eq_or_lt_of_le h0 with hz | hp
    · have hm : ¬ more = true := fun h => hd.mp h hz.symm
      simp [← hz, hm]
    · simp [hd.mpr hp.ne', hp]
  · have : (H : ℝ) + 1 ≤ rem := by exact_mod_cast hgt
    exact ⟨fun _ => .inl (by linarith), fun _ => .inl (by omega)⟩

/-- The sixteen bits that stochastic rounding adds to, seen through the known part (R49). -/
theorem floor_sixteenBits {rem sh : Nat} {d : ℝ} (h0 : 0 ≤ d) (h1 : d < 1) (hsh : d ≠ 0 → 16 ≤ sh) :
    ⌊(rem + d) / (2 : ℝ) ^ sh * 65536⌋ = (((rem * 65536) >>> sh : Nat) : ℤ) := by
  have hpos : (0 : ℝ) < 2 ^ sh := by positivity
  rw [Nat.shiftRight_eq_div_pow, Int.floor_eq_iff, div_mul_eq_mul_div, le_div_iff₀ hpos, div_lt_iff₀ hpos]
  set z := rem * 65536 / 2 ^ sh with hz
  have hlo : z * 2 ^ sh ≤ rem * 65536 := Nat.div_mul_le_self _ _
  have hhi : rem * 65536 < (z + 1) * 2 ^ sh := Nat.lt_mul_of_div_lt (Nat.lt_succ_self _) (Nat.two_pow_pos sh)
  have hloR : (z : ℝ) * 2 ^ sh ≤ rem * 65536 := by exact_mod_cast hlo
  have hhiR : (rem : ℝ) * 65536 < (z + 1) * 2 ^ sh := by exact_mod_cast hhi
  refine ⟨by push_cast; nlinarith, ?_⟩
  push_cast
  by_cases hd : d = 0
  · rw [hd, add_zero]; exact hhiR
  · obtain ⟨j, rfl⟩ := Nat.exists_eq_add_of_le (hsh hd)
    have hlt : rem < (z + 1) * 2 ^ j := by
      rw [pow_add] at hhi
      nlinarith
    have hltR : (rem : ℝ) + 1 ≤ (z + 1) * 2 ^ j := by exact_mod_cast hlt
    rw [pow_add]
    nlinarith

/-- What rounding selects of `lo` units and a part `D` of the next one that is not zero (R49). -/
theorem selects_roundsAway {c : Ctl} {neg : Bool} {lo rem sh : Nat} {d D : ℝ} {more : Bool} (hD : D = (rem + d) / (2 : ℝ) ^ sh)
    (hD0 : D ≠ 0) (h0 : 0 ≤ d) (h1 : d < 1) (hd : more = true ↔ d ≠ 0) (hsh1 : 1 ≤ sh) (hsh : more = true → 16 ≤ sh) :
    Selects c neg lo D (lo + b2n (roundsAway c neg lo rem sh more)) := by
  obtain ⟨mode, pol, rand⟩ := c
  unfold Selects roundsAway
  cases mode with
  | rne =>
    obtain ⟨j, rfl⟩ := Nat.exists_eq_add_of_le hsh1
    refine add_b2n_of_iff hD0 ?_
    have hkey := nearest_iff (lo := lo) (rem := rem) (D := D) (Nat.two_pow_pos j) (by rw [hD, pow_add]; push_cast; ring_nf) h0 h1 hd
    rw [pow_add, pow_one, ← hkey]
    simp
  | rz => exact add_b2n_of_iff hD0 (by simp)
  | ru => exact add_b2n_of_iff hD0 (by simp)
  | rd => exact add_b2n_of_iff hD0 (by simp)
  | rs =>
    refine add_b2n_of_iff hD0 ?_
    rw [hD, floor_sixteenBits h0 h1 fun h => hsh (hd.mpr h), decide_eq_true_iff]
    exact_mod_cast Iff.rfl

/-- Above the last place of what is known, the units and the part of one that rounding looks at. -/
theorem roundsAt_of_lt {c : Ctl} {neg : Bool} {x : ℝ} {m : Nat} {e q : Int} {more : Bool} (h : Known x m e more) (hq : e < q)
    (hmore : more = true → e + 16 ≤ q) :
    RoundsAt c neg x q (roundAt c neg m e q more).1 (roundAt c neg m e q more).2 := by
  rw [roundAt_of_lt hq]
  set sh := (q - e).toNat with hsh
  have hpe : (0 : ℝ) < 2 ^ e := by positivity
  have hpow : (2 : ℝ) ^ q = 2 ^ sh * 2 ^ e := zpow_split q e hq.le
  have hM : (0 : ℝ) < 2 ^ sh := by positivity
  -- the magnitude in units of 2^e: the known ones and a part of the next
  obtain ⟨d, hd⟩ : ∃ d, x = (m + d) * 2 ^ e := ⟨x / 2 ^ e - m, by field_simp; ring⟩
  have h0 : 0 ≤ d := by have := h.le; rw [hd] at this; nlinarith
  have h1 : d < 1 := by have := h.lt; rw [hd] at this; nlinarith
  have hmd : more = true ↔ d ≠ 0 := by
    rw [h.more_iff, hd, Ne, Ne, mul_left_inj' hpe.ne', add_eq_left]
  have hdiv : (m : ℝ) = (m >>> sh : Nat) * 2 ^ sh + (m % 2 ^ sh : Nat) := by
    rw [Nat.shiftRight_eq_div_pow]; exact_mod_cast (Nat.div_add_mod' m (2 ^ sh)).symm
  have hrem : ((m % 2 ^ sh : Nat) : ℝ) + 1 ≤ 2 ^ sh := by exact_mod_cast Nat.mod_lt m (Nat.two_pow_pos sh)
  have hrem0 : (0 : ℝ) ≤ (m % 2 ^ sh : Nat) := Nat.cast_nonneg _
  generalize m >>> sh = lo at hdiv ⊢
  generalize m % 2 ^ sh = rem at hdiv hrem hrem0 ⊢
  have hxq : x = (lo + (rem + d) / 2 ^ sh) * 2 ^ q := by rw [hd, hdiv, hpow]; field_simp; ring
  have hD : x / 2 ^ q - lo = (rem + d) / 2 ^ sh := by
    rw [hxq, mul_div_cancel_right₀ _ (by positivity)]; ring
  have hD0 : 0 ≤ (rem + d) / 2 ^ sh := by positivity
  have hD1 : (rem + d) / 2 ^ sh < 1 := by rw [div_lt_one hM]; linarith
  have hzero : (rem + d) / 2 ^ sh = 0 ↔ rem = 0 ∧ ¬ more := by
    rw [div_eq_zero_iff, or_iff_left hM.ne', hmd, not_not]
    constructor
    · intro hz
      have : (rem : ℝ) = 0 := by linarith
      exact ⟨by exact_mod_cast this, by linarith⟩
    · rintro ⟨hr, hz⟩; simp [hr, hz]
  have hq0 : (0 : ℝ) < 2 ^ q := by positivity
  have hexact : x = lo * 2 ^ q ↔ (rem + d) / 2 ^ sh = 0 := by
    rw [hxq, mul_left_inj' hq0.ne', add_eq_left]
  refine ⟨lo, by rw [hxq]; nlinarith, by rw [hxq]; nlinarith, ?_, ?_⟩
  · rw [hD]
    split_ifs with hz
    · rw [hzero.mpr hz]; exact selects_zero c neg lo
    · exact selects_roundsAway rfl (fun h => hz (hzero.mp h)) h0 h1 hmd (by omega) fun hm => by have := hmore hm; omega
  · rw [hexact, hzero]
    split_ifs with hz
    · exact iff_of_true rfl hz
    · exact iff_of_false (by simp) hz

/-- What `roundAt` selects, where what is not known lies at least sixteen places below the last one kept. -/
theorem roundsAt_roundAt {c : Ctl} {neg : Bool} {x : ℝ} {m : Nat} {e q : Int} {more : Bool} (h : Known x m e more)
    (hmore : more = true → e + 16 ≤ q) :
    RoundsAt c neg x q (roundAt c neg m e q more).1 (roundAt c neg m e q more).2 := by
  rcases lt_or_ge e q with hq | hq
  · exact roundsAt_of_lt h hq hmore
  · cases more with
    | false => exact roundsAt_of_le h hq
    | true => have := hmore rfl; omega

/-! ## Rounding to a float type -/

theorem frac_pos (t : FltTy) : 0 < t.frac := by cases t <;> decide

theorem Selects.eq_or {c : Ctl} {neg : Bool} {lo k : Nat} {D : ℝ} (h : Selects c neg lo D k) : k = lo + 1 ∨ k = lo :=
  (em _).imp h.1 h.2

/-- Rounding looks at the number below only for whether it is even (R49). -/
theorem Selects.shift {c : Ctl} {neg : Bool} {lo k : Nat} {D : ℝ} (h : Selects c neg lo D k) {off : Nat} (hoff : off % 2 = 0) :
    Selects c neg (off + lo) D (off + k) := by
  have hpar : (off + lo) % 2 = lo % 2 := by omega
  unfold Selects at h ⊢
  rw [hpar]
  exact ⟨fun ha => by rw [h.1 ha]; rfl, fun ha => by rw [h.2 ha]⟩

theorem Selects.unique {c : Ctl} {neg : Bool} {lo k k' : Nat} {D : ℝ} (h : Selects c neg lo D k) (h' : Selects c neg lo D k') :
    k = k' :=
  (em _).elim (fun ha => (h.1 ha).trans (h'.1 ha).symm) fun ha => (h.2 ha).trans (h'.2 ha).symm

/-- The magnitudes with one exponent stand one unit of their last place apart (R41, R45). -/
theorem magnitude_eq {t : FltTy} {j lo : Nat} (hlo : j = 0 ∨ 2 ^ t.frac ≤ lo) (hhi : lo ≤ 2 ^ (t.frac + 1)) :
    magnitude t (j * 2 ^ t.frac + lo) = lo * 2 ^ (t.emin + j) := by
  have hP : 0 < 2 ^ t.frac := Nat.two_pow_pos _
  rw [pow_succ] at hhi
  unfold magnitude
  generalize hPd : 2 ^ t.frac = P at *
  rcases lt_or_ge lo P with hlt | hge
  · obtain rfl : j = 0 := hlo.resolve_right (by omega)
    simp [hlt]
  · have hnot : ¬ j * P + lo < P := by nlinarith
    rw [if_neg hnot]
    rcases Nat.lt_or_eq_of_le hhi with hlt | rfl
    · obtain ⟨r, rfl⟩ := Nat.exists_eq_add_of_le hge
      have hr : r < P := by omega
      have hsum : j * P + (P + r) = r + P * (j + 1) := by ring
      rw [hsum, Nat.add_mul_mod_self_left, Nat.mod_eq_of_lt hr, Nat.add_mul_div_left _ _ hP, Nat.div_eq_of_lt hr]
      congr 2
      push_cast; ring
    · have hsum : j * P + P * 2 = 0 + P * (j + 2) := by ring
      rw [hsum, Nat.add_mul_mod_self_left, Nat.zero_mod, Nat.add_mul_div_left _ _ hP, Nat.zero_div]
      push_cast
      rw [show t.emin - 1 + (0 + (j + 2)) = t.emin + j + 1 by ring, zpow_add₀ two_ne_zero]
      ring

/-- The leading place of what is known gives the exponent of `x` (R47). -/
theorem Known.binade {x : ℝ} {m : Nat} {e : Int} {more : Bool} (h : Known x m e more) (hm : m ≠ 0) (f : Nat) :
    2 ^ f * (2 : ℝ) ^ ((bitLen m : Int) + e - 1 - f) ≤ x ∧ x < 2 ^ (f + 1) * (2 : ℝ) ^ ((bitLen m : Int) + e - 1 - f) := by
  obtain ⟨n, hn⟩ := Nat.exists_eq_add_of_lt (bitLen_pos hm)
  rw [zero_add] at hn
  have hpe : (0 : ℝ) < 2 ^ e := by positivity
  have hlo : ((2 : ℝ) ^ n) ≤ m := by exact_mod_cast two_pow_le_of_bitLen (show n < bitLen m by omega)
  have hhi : (m : ℝ) + 1 ≤ 2 ^ (n + 1) := by
    have := lt_two_pow_bitLen m
    rw [hn] at this
    exact_mod_cast this
  have hpow : ∀ i : Nat, (2 : ℝ) ^ (f + i) * 2 ^ ((bitLen m : Int) + e - 1 - f) = 2 ^ (n + i) * 2 ^ e := by
    intro i
    rw [← zpow_natCast, ← zpow_natCast, ← zpow_add₀ two_ne_zero, ← zpow_add₀ two_ne_zero, hn]
    congr 1
    push_cast
    ring
  have h0 := hpow 0
  rw [add_zero, add_zero] at h0
  rw [h0, hpow 1]
  constructor
  · nlinarith [h.le]
  · nlinarith [h.lt]

/-- The exponent of `x` to a number of places is unique. -/
theorem binade_unique {x : ℝ} {f : Nat} {z z' : Int} (h : 2 ^ f * (2 : ℝ) ^ z ≤ x ∧ x < 2 ^ (f + 1) * (2 : ℝ) ^ z)
    (h' : 2 ^ f * (2 : ℝ) ^ z' ≤ x ∧ x < 2 ^ (f + 1) * (2 : ℝ) ^ z') : z = z' := by
  have key : ∀ a b : Int, 2 ^ f * (2 : ℝ) ^ a ≤ x → x < 2 ^ (f + 1) * (2 : ℝ) ^ b → a ≤ b := by
    intro a b ha hb
    have hlt : (2 : ℝ) ^ a < 2 ^ (b + 1) := by
      have hf : (0 : ℝ) < 2 ^ f := by positivity
      rw [zpow_add_one₀ two_ne_zero]
      rw [pow_succ] at hb
      nlinarith
    have := (zpow_lt_zpow_iff_right₀ one_lt_two).mp hlt
    omega
  exact le_antisymm (key _ _ h.1 h'.2) (key _ _ h'.1 h.2)

/-- Tininess is that of the number rounded with an exponent range that has no lower limit (R47). -/
theorem tiny_iff {t : FltTy} {c : Ctl} {neg : Bool} {x : ℝ} {z : Int} {u : Nat} {exact : Bool}
    (hz : 2 ^ t.frac * (2 : ℝ) ^ z ≤ x ∧ x < 2 ^ (t.frac + 1) * (2 : ℝ) ^ z) (h : RoundsAt c neg x z u exact) :
    Tiny t c neg x ↔ (bitLen u : Int) + z ≤ 1 - (t.bias : Int) := by
  obtain ⟨lo, hle, hlt, hsel, -⟩ := h
  have hpz : (0 : ℝ) < 2 ^ z := by positivity
  have hlo : 2 ^ t.frac ≤ lo := by
    have : (2 : ℝ) ^ t.frac < lo + 1 := by nlinarith [hz.1]
    exact Nat.lt_succ_iff.mp (by exact_mod_cast this)
  have hu : u ≠ 0 := by
    have := Nat.two_pow_pos t.frac
    rcases hsel.eq_or with h | h <;> omega
  have hbits : (u : ℝ) * 2 ^ z < 2 ^ (1 - (t.bias : Int)) ↔ (bitLen u : Int) + z ≤ 1 - (t.bias : Int) := by
    rw [← lt_div_iff₀ hpz, ← zpow_sub₀ two_ne_zero]
    rcases le_or_gt (1 - (t.bias : Int) - z) 0 with hneg | hpos
    · have h1 : (2 : ℝ) ^ (1 - (t.bias : Int) - z) ≤ 1 := zpow_le_one_of_nonpos₀ one_le_two hneg
      have h2 : (1 : ℝ) ≤ u := by exact_mod_cast Nat.one_le_iff_ne_zero.mpr hu
      have h3 := bitLen_pos hu
      exact iff_of_false (by linarith) (by omega)
    · obtain ⟨n, hn⟩ := Int.eq_ofNat_of_zero_le hpos.le
      rw [hn, zpow_natCast]
      have hiff : (u : ℝ) < 2 ^ n ↔ bitLen u ≤ n := by rw [bitLen_le_iff]; exact_mod_cast Iff.rfl
      rw [hiff]
      omega
  rw [← hbits]
  constructor
  · rintro ⟨z', lo', k', hz1, hz2, hl1, hl2, hsel', hk⟩
    obtain rfl := binade_unique hz ⟨hz1, hz2⟩
    have hlo' : lo' = lo := by
      rw [le_div_iff₀ hpz] at hl1
      rw [div_lt_iff₀ hpz] at hl2
      have h1 : (lo' : ℝ) < lo + 1 := by nlinarith
      have h2 : (lo : ℝ) < lo' + 1 := by nlinarith
      have h1 : lo' < lo + 1 := by exact_mod_cast h1
      have h2 : lo < lo' + 1 := by exact_mod_cast h2
      omega
    subst hlo'
    rwa [hsel.unique hsel']
  · intro hk
    exact ⟨z, lo, u, hz.1, hz.2, (le_div_iff₀ hpz).mpr hle, (div_lt_iff₀ hpz).mpr hlt, hsel, hk⟩

theorem overflows_overflowFlt (t : FltTy) (c : Ctl) (neg : Bool) :
    Overflows t c neg (overflowFlt t c neg) ∧ (overflowFlt t c neg).causes = [0x23] ∧ (overflowFlt t c neg).dz = false := by
  refine ⟨⟨rfl, rfl, rfl, rfl, ?_⟩, rfl, rfl⟩
  obtain ⟨mode, pol, rand⟩ := c
  unfold overflowFlt
  cases pol <;> cases mode <;> cases neg <;> simp [FltTy.sign, FRes.exact]

/-- `roundFlt` rounds a magnitude of which enough is known (R45, R47, R49, R52, R54). -/
theorem roundsTo_roundFlt {t : FltTy} {c : Ctl} {neg : Bool} {x : ℝ} {m : Nat} {e : Int} {more : Bool} (h : Known x m e more)
    (hm : m ≠ 0) (hbits : more = true → t.frac + 17 ≤ bitLen m) : RoundsTo t c neg x (roundFlt t c neg m e more) := by
  have hfree := h.binade hm t.frac
  rw [roundFlt, if_neg (fun hz => hm hz.1)]
  simp only
  set free := (bitLen m : Int) + e - 1 - t.frac with hfreedef
  have hu := roundsAt_roundAt (c := c) (neg := neg) (q := free) h fun hmo => by have := hbits hmo; omega
  have htiny := tiny_iff hfree hu
  generalize roundAt c neg m e free more = u at hu htiny ⊢
  have hr := roundsAt_roundAt (c := c) (neg := neg) (q := max free t.emin) h fun hmo => by have := hbits hmo; omega
  generalize roundAt c neg m e (max free t.emin) more = r at hr ⊢
  obtain ⟨lo, hle, hlt, hsel, hexact⟩ := hr
  obtain ⟨j, hj⟩ : ∃ j : Nat, max free t.emin = t.emin + j :=
    ⟨(max free t.emin - t.emin).toNat, by rw [Int.toNat_of_nonneg (by omega)]; ring⟩
  have hjn : (max free t.emin - t.emin).toNat = j := by omega
  rw [hjn]
  have hq : (2 : ℝ) ^ free ≤ 2 ^ max free t.emin := zpow_le_zpow_right₀ one_le_two (le_max_left _ _)
  have hpq : (0 : ℝ) < 2 ^ max free t.emin := by positivity
  have hlo : lo + 1 ≤ 2 ^ (t.frac + 1) := by
    have : (lo : ℝ) < 2 ^ (t.frac + 1) := by
      have hp : (0 : ℝ) < 2 ^ (t.frac + 1) := by positivity
      nlinarith [hfree.2]
    exact_mod_cast this
  have hnorm : j = 0 ∨ 2 ^ t.frac ≤ lo := by
    refine or_iff_not_imp_left.mpr fun hj0 => ?_
    have hqf : max free t.emin = free := by omega
    rw [hqf] at hlt hpq
    have : (2 : ℝ) ^ t.frac < lo + 1 := by nlinarith [hfree.1]
    exact Nat.lt_succ_iff.mp (by exact_mod_cast this)
  have hmag : (magnitude t (j * 2 ^ t.frac + lo) : ℝ) = lo * 2 ^ max free t.emin := by
    rw [magnitude_eq hnorm (by omega), hj]; push_cast; ring
  have hmag1 : (magnitude t (j * 2 ^ t.frac + lo + 1) : ℝ) = (lo + 1) * 2 ^ max free t.emin := by
    rw [add_assoc, magnitude_eq (hnorm.imp_right fun h => h.trans (Nat.le_succ lo)) hlo, hj]; push_cast; ring
  have hpart : (x - magnitude t (j * 2 ^ t.frac + lo)) /
      (magnitude t (j * 2 ^ t.frac + lo + 1) - magnitude t (j * 2 ^ t.frac + lo)) = x / 2 ^ max free t.emin - lo := by
    rw [hmag, hmag1]; field_simp; ring
  have heven : j * 2 ^ t.frac % 2 = 0 := by
    obtain ⟨n, hn⟩ := Nat.exists_eq_add_of_lt (frac_pos t)
    rw [hn, zero_add, pow_succ, ← mul_assoc, Nat.mul_mod_left]
  refine ⟨j * 2 ^ t.frac + lo, j * 2 ^ t.frac + r.1, hmag.trans_le hle, hlt.trans_eq hmag1.symm, ?_, ?_, ?_⟩
  · rw [hpart]; exact hsel.shift heven
  · split_ifs <;> rfl
  · split_ifs with hinf
    · exact ⟨(overflows_overflowFlt t c neg).1, rfl⟩
    · have hnx : (!r.2) = true ↔ x ≠ lo * 2 ^ max free t.emin := by
        rw [Ne, ← hexact, Bool.not_eq_true_eq_eq_false, Bool.not_eq_true]
      rw [hmag, htiny]
      refine ⟨rfl, rfl, rfl, rfl, hnx, ?_⟩
      rw [Bool.and_eq_true, decide_eq_true_iff, hnx, and_comm]

/-! ## Quotients and roots -/

/-- A magnitude `y` x 2^e whose whole units are `m`. -/
theorem known_of_units {y : ℝ} {m : Nat} (e : Int) {more : Bool} (hle : m ≤ y) (hlt : y < m + 1) (hmore : more = true ↔ y ≠ m) :
    Known (y * 2 ^ e) m e more := by
  have hp : (0 : ℝ) < 2 ^ e := by positivity
  refine ⟨by nlinarith, by nlinarith, ?_⟩
  rw [hmore, Ne, Ne, mul_left_inj' hp.ne']

/-- `roundFlt` rounds a magnitude of which 96 bits or more are known. -/
theorem roundsTo_of_units {t : FltTy} {c : Ctl} {neg : Bool} {x y : ℝ} {m : Nat} {e : Int} {more : Bool} (hx : x = y * 2 ^ e)
    (hle : m ≤ y) (hlt : y < m + 1) (hmore : more = true ↔ y ≠ m) (hbits : 2 ^ 96 ≤ m) :
    RoundsTo t c neg x (roundFlt t c neg m e more) := by
  rw [hx]
  refine roundsTo_roundFlt (known_of_units e hle hlt hmore) (by omega) fun _ => ?_
  have hlen : 96 < bitLen m := by
    by_contra hn
    have := bitLen_le_iff.mp (not_lt.mp hn)
    omega
  have hfrac : t.frac ≤ 52 := by cases t <;> decide
  omega

/-- A quotient of magnitudes, rounded (R59). -/
theorem roundsTo_quot (t : FltTy) (c : Ctl) (neg : Bool) {ma mb : Nat} (ea eb : Int) (ha : ma ≠ 0) (hb : mb ≠ 0) :
    RoundsTo t c neg (ma * 2 ^ ea / (mb * 2 ^ eb)) (roundOf t c neg (quot ma ea mb eb)) := by
  unfold roundOf quot
  simp only
  have hbr : (0 : ℝ) < mb := by exact_mod_cast Nat.pos_of_ne_zero hb
  have hpos : 0 < mb := Nat.pos_of_ne_zero hb
  refine roundsTo_of_units (y := ((ma * 2 ^ (96 + bitLen mb) : Nat) : ℝ) / mb) ?_ Nat.cast_div_le ?_ ?_ ?_
  · rw [zpow_sub₀ two_ne_zero, zpow_sub₀ two_ne_zero]
    push_cast
    rw [show ((96 : Int) + (bitLen mb : Int)) = ((96 + bitLen mb : Nat) : Int) by push_cast; rfl, zpow_natCast]
    field_simp
  · rw [div_lt_iff₀ hbr]
    exact_mod_cast Nat.lt_mul_of_div_lt (Nat.lt_succ_self _) hpos
  · rw [decide_eq_true_iff, Ne, Ne, not_iff_not, div_eq_iff hbr.ne']
    rw [← Nat.dvd_iff_mod_eq_zero]
    constructor
    · intro h; exact_mod_cast (Nat.div_mul_cancel h).symm
    · intro h
      have : ma * 2 ^ (96 + bitLen mb) = ma * 2 ^ (96 + bitLen mb) / mb * mb := by exact_mod_cast h
      exact Dvd.intro_left _ this.symm
  · rw [Nat.le_div_iff_mul_le hpos, pow_add]
    have h1 := lt_two_pow_bitLen mb
    have h2 := Nat.pos_of_ne_zero ha
    nlinarith [Nat.two_pow_pos 96]

theorem isqrtFrom_eq_sqrt (n : Nat) : ∀ i r, r * r ≤ n → n < (r + 2 ^ (i + 1)) * (r + 2 ^ (i + 1)) →
    isqrtFrom n i r = Nat.sqrt n := by
  intro i
  induction i with
  | zero =>
    intro r hle hlt
    rw [isqrtFrom]
    split_ifs with h
    · exact (Nat.eq_sqrt.mpr ⟨h, by simpa [add_assoc] using hlt⟩)
    · exact (Nat.eq_sqrt.mpr ⟨hle, by omega⟩)
  | succ i ih =>
    intro r hle hlt
    rw [isqrtFrom]
    have hdouble : 2 ^ (i + 1 + 1) = 2 ^ (i + 1) + 2 ^ (i + 1) := by rw [pow_succ]; ring
    split_ifs with h
    · exact ih _ h (by rwa [add_assoc, ← hdouble])
    · exact ih _ hle (by omega)

/-- The root that is found bit by bit is the integer square root. -/
theorem isqrt_eq_sqrt (n : Nat) : isqrt n = Nat.sqrt n := by
  refine isqrtFrom_eq_sqrt n _ 0 (Nat.zero_le _) ?_
  rw [zero_add, ← pow_add]
  exact (lt_two_pow_bitLen n).trans_le (Nat.pow_le_pow_right two_pos (by omega))

/-- A magnitude with an even exponent, as its roots are taken. -/
theorem evenExponent (m : Nat) (e : Int) : ∃ (n : Nat) (z : Int), (if e % 2 = 0 then m else 2 * m) = n ∧
    (if e % 2 = 0 then e else e - 1) = 2 * z ∧ (m ≠ 0 → n ≠ 0) ∧ (m : ℝ) * 2 ^ e = n * 2 ^ (2 * z) := by
  rcases Int.emod_two_eq_zero_or_one e with h | h
  · refine ⟨m, e / 2, if_pos h, by rw [if_pos h]; omega, id, ?_⟩
    rw [show 2 * (e / 2) = e by omega]
  · have hne : ¬ e % 2 = 0 := by omega
    refine ⟨2 * m, (e - 1) / 2, if_neg hne, by rw [if_neg hne]; omega, by omega, ?_⟩
    rw [show 2 * ((e - 1) / 2) = e - 1 by omega, zpow_sub_one₀ two_ne_zero]
    push_cast
    ring

theorem sqrt_zpow_even (z : Int) : √((2 : ℝ) ^ (2 * z)) = 2 ^ z := by
  rw [mul_comm, zpow_mul, zpow_two, Real.sqrt_mul_self (by positivity)]

theorem sqrt_mul_zpow_even (y : ℝ) (z : Int) : √(y * 2 ^ (2 * z)) = √y * 2 ^ z := by
  rw [Real.sqrt_mul' y (by positivity), sqrt_zpow_even]

/-- A square root, rounded (R59). -/
theorem roundsTo_rootOf (t : FltTy) (c : Ctl) {m : Nat} (e : Int) (hm : m ≠ 0) :
    RoundsTo t c false (√(m * 2 ^ e)) (roundOf t c false (rootOf m e)) := by
  obtain ⟨n, z, hn, hz, hn0, hval⟩ := evenExponent m e
  unfold roundOf rootOf
  simp only [hn, hz, isqrt_eq_sqrt]
  rw [hval, sqrt_mul_zpow_even]
  refine roundsTo_of_units (y := √((n * 2 ^ 192 : Nat) : ℝ)) ?_ Real.nat_sqrt_le_real_sqrt Real.real_sqrt_lt_nat_sqrt_succ ?_ ?_
  · have h192 : √((2 : ℝ) ^ 192) = 2 ^ 96 := by
      rw [show (2 : ℝ) ^ 192 = (2 ^ 96) * 2 ^ 96 by norm_num, Real.sqrt_mul_self (by positivity)]
    rw [Int.mul_ediv_cancel_left _ two_ne_zero, zpow_sub₀ two_ne_zero, Nat.cast_mul, Nat.cast_pow, Nat.cast_ofNat,
      Real.sqrt_mul' _ (by positivity), h192, show (96 : Int) = (96 : Nat) from rfl, zpow_natCast]
    field_simp
  · rw [decide_eq_true_iff, Ne, Ne, not_iff_not, Real.sqrt_eq_iff_mul_self_eq (Nat.cast_nonneg _) (Nat.cast_nonneg _), eq_comm]
    exact_mod_cast Iff.rfl
  · rw [Nat.le_sqrt, ← pow_add]
    have := Nat.pos_of_ne_zero (hn0 hm)
    omega

/-- A reciprocal square root, rounded (R59). -/
theorem roundsTo_recipRootOf (t : FltTy) (c : Ctl) {m : Nat} (e : Int) (hm : m ≠ 0) :
    RoundsTo t c false (1 / √(m * 2 ^ e)) (roundOf t c false (recipRootOf m e)) := by
  obtain ⟨n, z, hn, hz, hn0, hval⟩ := evenExponent m e
  have hpos : 0 < n := Nat.pos_of_ne_zero (hn0 hm)
  have hposR : (0 : ℝ) < n := by exact_mod_cast hpos
  unfold roundOf recipRootOf
  simp only [hn, hz, isqrt_eq_sqrt]
  rw [hval, sqrt_mul_zpow_even]
  set k := 96 + bitLen n with hk
  set N := 2 ^ (2 * k) / n with hN
  have hNle : (N : ℝ) ≤ 2 ^ (2 * k) / n := by exact_mod_cast (Nat.cast_div_le : ((2 ^ (2 * k) / n : Nat) : ℝ) ≤ _)
  have hNlt : (2 : ℝ) ^ (2 * k) / n < N + 1 := by
    rw [div_lt_iff₀ hposR]
    exact_mod_cast Nat.lt_mul_of_div_lt (Nat.lt_succ_self N) hpos
  refine roundsTo_of_units (y := √((2 : ℝ) ^ (2 * k) / n)) ?_ ?_ ?_ ?_ ?_
  · rw [Int.mul_ediv_cancel_left _ two_ne_zero, zpow_sub₀ two_ne_zero, zpow_neg, Real.sqrt_div' _ hposR.le,
      mul_comm 2 k, pow_mul, Real.sqrt_sq (by positivity), zpow_natCast]
    field_simp
  · exact Real.nat_sqrt_le_real_sqrt.trans (Real.sqrt_le_sqrt hNle)
  · rw [Real.sqrt_lt' (by positivity)]
    have : N + 1 ≤ (Nat.sqrt N + 1) ^ 2 := Nat.lt_succ_sqrt' N
    have hR : (N : ℝ) + 1 ≤ (Nat.sqrt N + 1) ^ 2 := by exact_mod_cast this
    linarith
  · rw [decide_eq_true_iff, Ne, Ne, not_iff_not, Real.sqrt_eq_iff_mul_self_eq (by positivity) (Nat.cast_nonneg _),
      div_eq_iff hposR.ne', eq_comm]
    exact_mod_cast Iff.rfl
  · rw [Nat.le_sqrt, hN, Nat.le_div_iff_mul_le hpos, hk, mul_add, pow_add, ← pow_add]
    have h1 := lt_two_pow_bitLen n
    have h2 : 2 ^ (2 * bitLen n) = 2 ^ bitLen n * 2 ^ bitLen n := by rw [← pow_add]; congr 1; ring
    rw [h2]
    exact Nat.mul_le_mul_left _ (h1.le.trans (Nat.le_mul_self _))

end Sys2Proof.Machine
end

section
/-!
SUPPORT. The special functions of finite values (R57 to R60, R136), over the reals.
-/
namespace Sys2Proof.Machine

/-! ## Finite values -/

theorem magnitude_eq_zero_iff {m : Nat} {e : Int} : (m : ℝ) * 2 ^ e = 0 ↔ m = 0 := by
  have : (2 : ℝ) ^ e ≠ 0 := by positivity
  simp [this]

theorem FVal.Is.abs_eq {n : Bool} {m : Nat} {e : Int} {a : ℝ} (h : (FVal.num n m e).Is a) : |a| = m * 2 ^ e := by
  obtain ⟨n', m', e', hv, rfl⟩ := h
  cases hv
  have : (0 : ℝ) ≤ m * 2 ^ e := by positivity
  cases n <;> simp [abs_of_nonneg this]

theorem FVal.Is.eq_abs {n : Bool} {m : Nat} {e : Int} {a : ℝ} (h : (FVal.num n m e).Is a) : a = if n then -|a| else |a| := by
  rw [h.abs_eq]
  obtain ⟨n', m', e', hv, rfl⟩ := h
  cases hv
  cases n <;> simp

theorem FVal.Is.eq_zero_iff {n : Bool} {m : Nat} {e : Int} {a : ℝ} (h : (FVal.num n m e).Is a) : a = 0 ↔ m = 0 := by
  rw [← abs_eq_zero, h.abs_eq, magnitude_eq_zero_iff]

theorem FVal.Is.sign_of_pos {n : Bool} {m : Nat} {e : Int} {a : ℝ} (h : (FVal.num n m e).Is a) (ha : 0 < a) : n = false := by
  cases n with
  | false => rfl
  | true => have := h.eq_abs; have := abs_nonneg a; simp only [if_true] at *; linarith

theorem FVal.Is.sign_of_neg {n : Bool} {m : Nat} {e : Int} {a : ℝ} (h : (FVal.num n m e).Is a) (ha : a < 0) : n = true := by
  cases n with
  | true => rfl
  | false => have := h.eq_abs; have := abs_nonneg a; simp only [Bool.false_eq_true, if_false] at *; linarith

/-! ## Exact results -/

theorem roundFlt_zero (t : FltTy) (c : Ctl) (neg : Bool) (e : Int) : roundFlt t c neg 0 e false = FRes.exact (t.sign neg) := rfl

theorem roundFlt_one (t : FltTy) (c : Ctl) (neg : Bool) :
    roundFlt t c neg 1 0 false = FRes.exact (t.sign neg + t.bias * 2 ^ t.frac) := by
  have hbias : 1 ≤ t.bias := by cases t <;> decide
  have hP : 0 < 2 ^ t.frac := Nat.two_pow_pos _
  have hmax : max (1 + 0 - 1 - (t.frac : Int)) t.emin = -(t.frac : Int) := by unfold FltTy.emin; omega
  have hround : roundAt c neg 1 0 (-(t.frac : Int)) false = (2 ^ t.frac, true) := by
    rw [roundAt, if_pos (by omega)]
    simp
  have hoff : (-(t.frac : Int) - t.emin).toNat * 2 ^ t.frac + 2 ^ t.frac = t.bias * 2 ^ t.frac := by
    rw [← Nat.succ_mul]
    congr 1
    unfold FltTy.emin
    omega
  have hfin : ¬ t.inf ≤ t.bias * 2 ^ t.frac := by
    unfold FltTy.inf FltTy.top
    nlinarith
  rw [roundFlt, if_neg (by omega)]
  simp only [show bitLen 1 = 1 from rfl, Nat.cast_one, hmax, hround, hoff, if_neg hfin, Bool.not_true, Bool.and_false]
  rfl

theorem bitLen_two_pow (k : Nat) : bitLen (2 ^ k) = k + 1 := by
  rw [bitLen, if_neg (by positivity), Nat.log2_two_pow]

/-- A magnitude of 1 is recognised as a power of two. -/
theorem powerOf_one {m : Nat} {e : Int} (h : (m : ℝ) * 2 ^ e = 1) : powerOf m e = some 0 := by
  have hm : (m : ℝ) = 2 ^ (-e) := by rw [zpow_neg]; exact eq_inv_of_mul_eq_one_left h
  have he : 0 ≤ -e := by
    by_contra hn
    have h1 : (2 : ℝ) ^ (-e) < 1 := zpow_lt_one_of_neg₀ one_lt_two (by omega)
    have h0 : (0 : ℝ) < 2 ^ (-e) := by positivity
    rw [← hm] at h0 h1
    have h0 : 0 < m := by exact_mod_cast h0
    have h1 : m < 1 := by exact_mod_cast h1
    omega
  obtain ⟨k, hk⟩ := Int.eq_ofNat_of_zero_le he
  have hm : m = 2 ^ k := by
    rw [hk, zpow_natCast] at hm
    exact_mod_cast hm
  rw [powerOf, hm, bitLen_two_pow, Nat.add_sub_cancel, if_pos rfl]
  congr 1
  push_cast
  omega

/-- The circle at a whole number `h` of half turns of pi x / 2: only `h` modulo 4 counts (R59, R60). -/
theorem circle_of_halves {m h : Nat} {e : Int} (sine n : Bool) (hh : (m : ℝ) * 2 ^ e * 2 = h) :
    circle sine n m e = circle sine n (h % 4) (-1) := by
  have hx : ∀ {m h : Nat} {e : Int}, (m : ℝ) * 2 ^ e * 2 = h →
      2 * (if 0 ≤ e then m * 2 ^ e.toNat else m) = h * 2 ^ (-e).toNat := by
    intro m h e hh
    rcases le_or_gt 0 e with he | he
    · rw [if_pos he, show (-e).toNat = 0 by omega, pow_zero, mul_one]
      rw [← Int.toNat_of_nonneg he, zpow_natCast] at hh
      have : m * 2 ^ e.toNat * 2 = h := by exact_mod_cast hh
      omega
    · rw [if_neg (by omega)]
      have hk : (2 : ℝ) ^ e * 2 ^ (-e).toNat = 1 := by
        rw [← zpow_natCast, ← zpow_add₀ two_ne_zero, Int.toNat_of_nonneg (by omega), add_neg_cancel, zpow_zero]
      have : 2 * (m : ℝ) = h * 2 ^ (-e).toNat := by rw [← hh]; linear_combination (-2 * (m : ℝ)) * hk
      exact_mod_cast this
  have hturn : ∀ {x h k : Nat}, 2 * x = h * 2 ^ k → 2 * (x % 2 ^ (k + 1)) / 2 ^ k = h % 4 ∧ 2 * (x % 2 ^ (k + 1)) % 2 ^ k = 0 := by
    intro x h k hxk
    have : 2 * (x % 2 ^ (k + 1)) = h % 4 * 2 ^ k := by
      rw [← Nat.mul_mod_mul_left, hxk, show 2 * 2 ^ (k + 1) = 4 * 2 ^ k by ring, Nat.mul_mod_mul_right]
    rw [this]
    exact ⟨Nat.mul_div_cancel _ (Nat.two_pow_pos k), Nat.mul_mod_left _ _⟩
  have h4 : ((h % 4 : Nat) : ℝ) * 2 ^ (-1 : Int) * 2 = (h % 4 : Nat) := by rw [zpow_neg_one]; field_simp
  obtain ⟨hq, hf⟩ := hturn (hx hh)
  obtain ⟨hq', hf'⟩ := hturn (hx h4)
  unfold circle
  simp only [hq, hf, hq', hf', if_true, Nat.mod_mod]

/-! ## sin(pi x) and cos(pi x) on the axes -/

theorem sinpi_of_halves {t : FltTy} {c : Ctl} {n : Bool} {m h : Nat} {e : Int} (hh : (m : ℝ) * 2 ^ e * 2 = h) :
    sfuOne .sinpi t c (.num n m e) =
      if h % 2 = 0 then FRes.exact (t.sign n) else FRes.exact (t.sign (if h % 4 = 1 then n else !n) + t.bias * 2 ^ t.frac) := by
  have h4 : h % 4 < 4 := Nat.mod_lt _ (by decide)
  have hpar : h % 2 = h % 4 % 2 := by omega
  rw [sfuOne, circle_of_halves true n hh, hpar]
  generalize h % 4 = q at h4 ⊢
  interval_cases q
  · exact roundFlt_zero t c n 0
  · exact roundFlt_one t c n
  · exact roundFlt_zero t c n 0
  · exact roundFlt_one t c !n

theorem cospi_of_halves {t : FltTy} {c : Ctl} {n : Bool} {m h : Nat} {e : Int} (hh : (m : ℝ) * 2 ^ e * 2 = h) :
    sfuOne .cospi t c (.num n m e) =
      if h % 2 = 1 then FRes.exact 0 else FRes.exact (t.sign (decide (h % 4 = 2)) + t.bias * 2 ^ t.frac) := by
  have h4 : h % 4 < 4 := Nat.mod_lt _ (by decide)
  have hpar : h % 2 = h % 4 % 2 := by omega
  rw [sfuOne, circle_of_halves false n hh, hpar]
  generalize h % 4 = q at h4 ⊢
  interval_cases q
  · exact roundFlt_one t c false
  · exact roundFlt_zero t c false 0
  · exact roundFlt_one t c true
  · exact roundFlt_zero t c false 0

/-- Twice a value that is a whole number of halves. -/
theorem FVal.Is.halves {n : Bool} {m : Nat} {e : Int} {a : ℝ} (h : (FVal.num n m e).Is a) {j : ℤ} (hj : 2 * a = j) :
    (m : ℝ) * 2 ^ e * 2 = j.natAbs ∧ (j ≠ 0 → n = decide (j < 0)) := by
  refine ⟨?_, fun hj0 => ?_⟩
  · rw [← h.abs_eq, Nat.cast_natAbs, Int.cast_abs, ← hj, abs_mul, abs_two, mul_comm]
  · rcases lt_or_gt_of_ne hj0 with hneg | hpos
    · have : (j : ℝ) < 0 := by exact_mod_cast hneg
      rw [decide_eq_true hneg, h.sign_of_neg (by linarith)]
    · have : (0 : ℝ) < j := by exact_mod_cast hpos
      rw [decide_eq_false (by omega), h.sign_of_pos (by linarith)]

theorem sinpi_cospi_of_int {t : FltTy} {c : Ctl} {n : Bool} {m : Nat} {e : Int} {a : ℝ} (h : (FVal.num n m e).Is a)
    {k : ℤ} (ha : a = k) :
    sfuOne .sinpi t c (.num n m e) = FRes.exact (t.sign n) ∧
      sfuOne .cospi t c (.num n m e) =
        if k % 2 = 0 then FRes.exact (t.bias * 2 ^ t.frac) else FRes.exact (t.sign true + t.bias * 2 ^ t.frac) := by
  obtain ⟨hh, -⟩ := h.halves (j := 2 * k) (by rw [ha]; push_cast; ring)
  rw [sinpi_of_halves hh, cospi_of_halves hh, if_pos (by omega), if_neg (by omega)]
  refine ⟨rfl, ?_⟩
  split_ifs with hk
  · rw [decide_eq_false (by omega)]; simp [FltTy.sign]
  · rw [decide_eq_true (by omega)]

theorem sinpi_cospi_of_half {t : FltTy} {c : Ctl} {n : Bool} {m : Nat} {e : Int} {a : ℝ} (h : (FVal.num n m e).Is a) {k : ℤ}
    (ha : a = k + 1 / 2) :
    sfuOne .cospi t c (.num n m e) = FRes.exact 0 ∧
      sfuOne .sinpi t c (.num n m e) =
        if k % 2 = 0 then FRes.exact (t.bias * 2 ^ t.frac) else FRes.exact (t.sign true + t.bias * 2 ^ t.frac) := by
  obtain ⟨hh, hn⟩ := h.halves (j := 2 * k + 1) (by rw [ha]; push_cast; ring)
  rw [sinpi_of_halves hh, cospi_of_halves hh, if_pos (by omega), if_neg (by omega), hn (by omega)]
  refine ⟨rfl, ?_⟩
  have hsign : (if (2 * k + 1).natAbs % 4 = 1 then decide (2 * k + 1 < 0) else !decide (2 * k + 1 < 0)) = decide (k % 2 ≠ 0) := by
    by_cases hneg : 2 * k + 1 < 0 <;> by_cases hk : k % 2 = 0 <;> simp [hneg, hk] <;> omega
  rw [hsign]
  split_ifs with hk <;> simp [hk, FltTy.sign]

/-! ## Rounded results -/

theorem sfu_rcp_rounds {t : FltTy} {c : Ctl} {n : Bool} {m : Nat} {e : Int} {a : ℝ} (h : (FVal.num n m e).Is a) (ha : a ≠ 0) :
    RoundsTo t c n (1 / |a|) (sfuOne .rcp t c (.num n m e)) := by
  have hm : m ≠ 0 := fun hm => ha (h.eq_zero_iff.mpr hm)
  have hr := roundsTo_quot t c n 0 e one_ne_zero hm
  rw [zpow_zero, mul_one, Nat.cast_one, ← h.abs_eq] at hr
  simpa only [sfuOne, if_neg hm] using hr

theorem sfu_sqrt_rounds {t : FltTy} {c : Ctl} {n : Bool} {m : Nat} {e : Int} {a : ℝ} (h : (FVal.num n m e).Is a) (ha : 0 < a) :
    RoundsTo t c false (√a) (sfuOne .sqrt t c (.num n m e)) := by
  have hm : m ≠ 0 := fun hm => ha.ne' (h.eq_zero_iff.mpr hm)
  have hr := roundsTo_rootOf t c e hm
  rw [← h.abs_eq, abs_of_pos ha] at hr
  simpa only [sfuOne, if_neg hm, h.sign_of_pos ha, Bool.false_eq_true, if_false] using hr

theorem sfu_rsq_rounds {t : FltTy} {c : Ctl} {n : Bool} {m : Nat} {e : Int} {a : ℝ} (h : (FVal.num n m e).Is a) (ha : 0 < a) :
    RoundsTo t c false (1 / √a) (sfuOne .rsq t c (.num n m e)) := by
  have hm : m ≠ 0 := fun hm => ha.ne' (h.eq_zero_iff.mpr hm)
  have hr := roundsTo_recipRootOf t c e hm
  rw [← h.abs_eq, abs_of_pos ha] at hr
  simpa only [sfuOne, if_neg hm, h.sign_of_pos ha, Bool.false_eq_true, if_false] using hr

theorem divFlt_rounds {t : FltTy} {c : Ctl} {n n' : Bool} {m m' : Nat} {e e' : Int} {a b : ℝ} (h : (FVal.num n m e).Is a)
    (h' : (FVal.num n' m' e').Is b) (ha : a ≠ 0) (hb : b ≠ 0) :
    RoundsTo t c (n != n') (|a| / |b|) (divFlt t c (.num n m e) (.num n' m' e')) := by
  have hm : m ≠ 0 := fun hm => ha (h.eq_zero_iff.mpr hm)
  have hm' : m' ≠ 0 := fun hm => hb (h'.eq_zero_iff.mpr hm)
  have hr := roundsTo_quot t c (n != n') e e' hm hm'
  rw [← h.abs_eq, ← h'.abs_eq] at hr
  simpa only [divFlt, if_neg hm, if_neg hm'] using hr

/-! ## Zeros and negative values -/

theorem sfu_of_zero (t : FltTy) (c : Ctl) (n : Bool) (e : Int) :
    sfuOne .exp2 t c (.num n 0 e) = FRes.exact (t.bias * 2 ^ t.frac) := by
  have h := roundFlt_one t c false
  rw [show t.sign false = 0 from rfl, zero_add] at h
  cases n <;> simpa [sfuOne] using h

theorem sfu_of_neg {t : FltTy} {c : Ctl} {n : Bool} {m : Nat} {e : Int} {a : ℝ} (h : (FVal.num n m e).Is a) (ha : a < 0) :
    sfuOne .sqrt t c (.num n m e) = FRes.invalid t.nan ∧ sfuOne .rsq t c (.num n m e) = FRes.invalid t.nan ∧
      sfuOne .log2 t c (.num n m e) = FRes.invalid t.nan := by
  have hm : m ≠ 0 := fun hm => ha.ne (h.eq_zero_iff.mpr hm)
  simp only [sfuOne, if_neg hm, h.sign_of_neg ha, if_true, and_self]

theorem log2_of_one {t : FltTy} {c : Ctl} {n : Bool} {m : Nat} {e : Int} {a : ℝ} (h : (FVal.num n m e).Is a) (ha : a = 1) :
    sfuOne .log2 t c (.num n m e) = FRes.exact 0 := by
  have hpos : 0 < a := by rw [ha]; exact one_pos
  have hm : m ≠ 0 := fun hm => hpos.ne' (h.eq_zero_iff.mpr hm)
  have hpow := powerOf_one (m := m) (e := e) (by rw [← h.abs_eq, ha, abs_one])
  simp only [sfuOne, if_neg hm, h.sign_of_pos hpos, Bool.false_eq_true, if_false, hpow]
  exact roundFlt_zero t c false 0

end Sys2Proof.Machine
end

section
/-!
PROOF. What SFU and division words leave outstanding at issue (R25, R109, R127, R136).
-/
namespace Sys2Proof.Machine

/-- The records that a word's rounded elements make under TRAP (R126). -/
theorem trapRecs_map (e : WEnv) (b : State) (n : Nat) (g : Nat → Nat → FRes) :
    e.trapRecs b (e.lanes.map fun l => (l, (List.range n).map (g l))) =
      (if e.pol = some .trap then ([0x21, 0x22, 0x23] : List Byte) else []).filterMap fun k =>
        let names := maskOf 32 (e.lanes.filter fun l => (List.range n).any fun j => (g l j).causes.contains k)
        if names = 0 then none else some (e.logRec b k names) := by
  have hnames : ∀ k, lanesWith (e.lanes.map fun l => (l, (List.range n).map (g l))) k =
      maskOf 32 (e.lanes.filter fun l => (List.range n).any fun j => (g l j).causes.contains k) := by
    intro k
    rw [lanesWith, List.filter_map, List.map_map]
    simp only [Function.comp_def, List.any_map, List.map_id']
  unfold WEnv.trapRecs
  split_ifs
  · simp only [hnames]
  · rfl

/-- A long-latency word that rounds: what it leaves outstanding (R25, R127, R136). -/
theorem effect_issueRounded {i : Instr} {ops : List Src} {d : Reg} {f : FlagSel} {w n : Nat}
    (g : WEnv → State → Nat → Nat → FRes) (hn : w * n ≤ 64)
    (hx : ∀ s, exec i s = runWord { ops := ops, dst := [d], flag := some f, accMode := true, accPol := true }
      (fun e s => e.issueRounded s d f w n (g e s)) s) :
    Effect i { ops := ops, dst := [d], flag := some f, accMode := true, accPol := true } fun e s t' =>
      ∃ o, Outstanding e s t' o ∧ o.kind = .sfu ∧ e.flag f = some o.flag ∧ o.dst = d ∧ o.mask = e.act ∧ o.drop = 0 ∧
        (∀ l, bit e.act l = true → ∃ v, spFind o.vals l = some v ∧
          (∀ j, j < n → subBits v w j = (g e s l j).bits % 2 ^ w) ∧
          spGet 0 o.fst l = wd ((List.range n).foldl (fun x j => x ||| (g e s l j).fstat) 0)) ∧
        o.recs = (if e.pol = some .trap then ([0x21, 0x22, 0x23] : List Byte) else []).filterMap fun k =>
          let names := maskOf 32 (e.lanes.filter fun l => (List.range n).any fun j => (g e s l j).causes.contains k)
          if names = 0 then none else some (e.logRec s k names) := by
  refine effect_of' _ hx fun s k hk w' => ?_
  obtain ⟨fl, hfl⟩ := hk.flag rfl
  refine ⟨_, outstanding_issueLong _ w' _ _, rfl, ?_, rfl, rfl, rfl, fun l hl => ?_, trapRecs_map _ _ n _⟩
  · rw [hfl]; rfl
  · have hmem : l ∈ (envOf s k).lanes := (mem_bitList _ _).mpr hl
    simp only [List.map_map, Function.comp_def]
    refine ⟨_, spFind_map _ _ _ hmem, fun j hj => ?_, ?_⟩
    · rw [resWord, List.length_map, List.length_range, subBits_packLow _ _ _ _ hn hj]
      simp [hj]
    · rw [spGet_map _ _ _ _ hmem, resFstat, List.foldl_map]

theorem width_mul_count (t : FltTy) : t.width * (64 / t.width) ≤ 64 := Nat.mul_div_le 64 t.width

/-! ## Division -/

theorem bit_maskOf_filter (m : LaneMask) (p : Nat → Bool) (l : Nat) :
    bit (maskOf 32 ((bitList m).filter p)) l = (bit m l && p l) := by
  rw [bit, maskOf_bit, Bool.eq_iff_iff]
  simp only [Bool.and_eq_true, decide_eq_true_eq, List.contains_iff_mem, List.mem_filter, mem_bitList, bit]
  exact ⟨fun h => h.2, fun h => ⟨BitVec.lt_of_getLsbD h.1, h⟩⟩

theorem bitList_maskOf_filter (m : LaneMask) (p : Nat → Bool) :
    bitList (maskOf 32 ((bitList m).filter p)) = (bitList m).filter p := by
  have h := fun l => bit_maskOf_filter m p l
  unfold bit at h
  rw [bitList]
  simp only [h]
  rw [bitList, List.filter_filter]
  simp only [Bool.and_comm]

/-- A mask of lanes among those that issue lies within them. -/
theorem maskOf_filter_and (m : LaneMask) (p : Nat → Bool) :
    maskOf 32 ((bitList m).filter p) &&& m = maskOf 32 ((bitList m).filter p) := by
  apply BitVec.eq_of_getLsbD_eq
  intro i _
  have h := bit_maskOf_filter m p i
  unfold bit at h
  rw [BitVec.getLsbD_and, h]
  cases m.getLsbD i <;> simp

theorem maskOf_filter_eq_zero (m : LaneMask) (p : Nat → Bool) : maskOf 32 ((bitList m).filter p) = 0 ↔ (bitList m).any p = false := by
  rw [List.any_eq_false]
  constructor
  · intro h l hl hp
    have hbit := bit_maskOf_filter m p l
    rw [h, hp, Bool.and_true] at hbit
    have hm := (mem_bitList m l).mp hl
    rw [← bit, ← hbit] at hm
    simp [bit] at hm
  · intro h
    rw [List.filter_eq_nil_iff.mpr h]; rfl

/-- One record that names the lanes that pass a test, where there are any. -/
theorem list_of_maskOf_filter {α : Type} (m : LaneMask) (p : Nat → Bool) (f : LaneMask → α) :
    (if maskOf 32 ((bitList m).filter p) = 0 then [] else [f (maskOf 32 ((bitList m).filter p))]) =
      if (bitList m).any p then [f (maskOf 32 ((bitList m).filter p))] else [] := by
  by_cases hany : (bitList m).any p = true
  · rw [if_pos hany, if_neg]
    rw [maskOf_filter_eq_zero, hany]
    exact Bool.noConfusion
  · rw [if_neg hany, if_pos ((maskOf_filter_eq_zero m p).mpr (Bool.eq_false_of_not_eq_true hany))]

theorem spGet_map_const {α : Type} (d v : α) (ls : List Nat) (l : Nat) :
    spGet d (ls.map fun l => (l, v)) l = if l ∈ ls then v else d := by
  induction ls with
  | nil => rfl
  | cons x r ih =>
    rw [List.map_cons, spGet, ih]
    by_cases hx : x = l
    · rw [if_pos hx, if_pos (hx ▸ List.mem_cons_self ..)]
    · simp only [if_neg hx, List.mem_cons, Ne.symm hx, false_or]

theorem subBits_eq_zero_iff (t : IntTy) (x : Word) (j : Nat) : subBits x t.width j = 0 ↔ subVal x t j = 0 := by
  have hlt := subBits_lt x t.width j
  unfold subVal
  split_ifs
  · unfold sgn
    rw [Nat.mod_eq_of_lt hlt]
    have hpow : ((2 ^ t.width : Nat) : Int) = 2 ^ t.width := by push_cast; rfl
    simp only
    split_ifs <;> omega
  · exact_mod_cast Iff.rfl

/-- Some sub-element of a divisor is zero (R109). -/
theorem zeroDivisor_eq (t : IntTy) (x : Word) :
    zeroDivisor t x = (List.range (64 / t.width)).any fun j => decide (subVal x t j = 0) := by
  unfold zeroDivisor
  simp only [subBits_eq_zero_iff]

/-- A division word in lanes none of which a zero divisor stops: what it leaves outstanding (R25, R109). -/
theorem effectIf_divWord {i : Instr} {d : Reg} {a b : Src} {t : IntTy} {f : FlagSel} (v : Int → Int → Int)
    (hx : ∀ s, exec i s = divWord d a b t f v s) :
    let y := fun (e : WEnv) (s : State) (l j : Nat) => subVal (e.src s l b) t j
    let zero := fun (e : WEnv) (s : State) (l : Nat) => (List.range (64 / t.width)).any fun j => decide (y e s l j = 0)
    EffectIf i { ops := [a, b], dst := [d], flag := some f }
      (fun e s => e.act ≠ 0 ∧ ∀ l, bit e.act l = true → zero e s l = true → bit (e.lane s l).fstat 16 = false)
      fun e s t' => ∃ o, Outstanding e s t' o ∧ o.kind = .idiv ∧ e.flag f = some o.flag ∧ o.dst = d ∧ o.mask = e.act ∧
        o.drop = 0 ∧
        (∀ l, bit e.act l = true → ∃ r, spFind o.vals l = some r ∧
          (∀ j, j < 64 / t.width → (subBits r t.width j : Int) = v (subVal (e.src s l a) t j) (y e s l j) % 2 ^ t.width) ∧
          spGet 0 o.fst l = if zero e s l then 0x20 else 0) ∧
        o.recs = if e.lanes.any (zero e s) then [e.logRec s 0x20 (maskOf 32 (e.lanes.filter (zero e s)))] else [] := by
  intro y zero
  unfold divWord at hx
  refine effectIf_of _ hx fun s k hk ⟨hact, hdz⟩ w => ?_
  obtain ⟨fl, hfl⟩ := hk.flag rfl
  have hzero : (fun l => zeroDivisor t ((envOf s k).src (atEffect s k) l b)) = zero (envOf s k) (atEffect s k) :=
    funext fun l => zeroDivisor_eq t _
  have hbad : ((envOf s k).lanes.filter fun l => bit (maskOf 32 ((envOf s k).lanes.filter (zero (envOf s k) (atEffect s k)))) l &&
      dzTrap ((envOf s k).lane (atEffect s k) l)) = [] := by
    refine List.filter_eq_nil_iff.mpr fun l hl hb => ?_
    rw [WEnv.lanes, bit_maskOf_filter, Bool.and_eq_true, Bool.and_eq_true, dzTrap] at hb
    rw [hdz l hb.1.1 hb.1.2] at hb
    exact Bool.false_ne_true hb.2
  have hgo : (envOf s k).act &&& ~~~(maskOf 32 [] : LaneMask) = (envOf s k).act := by
    rw [show ~~~(maskOf 32 [] : LaneMask) = BitVec.allOnes 32 from rfl, BitVec.and_allOnes]
  have hlogged : maskOf 32 ((envOf s k).lanes.filter (zero (envOf s k) (atEffect s k))) &&& (envOf s k).act =
      maskOf 32 ((envOf s k).lanes.filter (zero (envOf s k) (atEffect s k))) := maskOf_filter_and _ _
  have hnone : (bitList (maskOf 32 [] : LaneMask)).map (fun l => ({ lane := l, cause := 0x07, access := 0, addr := 0 } : Trap)) = [] := rfl
  simp only [hzero, hbad, hgo, hlogged, if_neg hact, hnone]
  refine ⟨_, outstanding_issueLong _ w _ _, rfl, ?_, rfl, rfl, rfl, fun l hl => ?_, ?_⟩
  · rw [hfl]; rfl
  · have hmem : l ∈ (envOf s k).lanes := (mem_bitList _ _).mpr hl
    refine ⟨_, spFind_map _ _ _ hmem, fun j hj => subBits_packInts t _ j hj, ?_⟩
    simp only [spGet_map_const, WEnv.lanes, bitList_maskOf_filter, List.mem_filter, mem_bitList]
    rw [show (envOf s k).act.getLsbD l = true from hl]
    simp only [true_and]
  · exact list_of_maskOf_filter _ _ _

/-- Settles O6: the SFU words leave their rounded elements outstanding, whose values over the reals are those of the lemmas above, and the
division words their quotients and remainders. -/
theorem longLatencyIssue : Obligations.LongLatencyIssue := by
  unfold Obligations.LongLatencyIssue
  refine ⟨?sfu, ?values, ?division⟩
  case sfu =>
    intro d a b t f w n x y issues
    have hn := width_mul_count t
    exact ⟨effect_issueRounded _ hn fun _ => rfl, effect_issueRounded _ hn fun _ => rfl, effect_issueRounded _ hn fun _ => rfl,
      effect_issueRounded _ hn fun _ => rfl, effect_issueRounded _ hn fun _ => rfl, effect_issueRounded _ hn fun _ => rfl,
      effect_issueRounded _ hn fun _ => rfl, effect_issueRounded _ hn fun _ => rfl⟩
  case values =>
    intro t c x y i a b hx hy one invalid divZero f
    obtain ⟨n, m, e, rfl, -⟩ := id hx
    obtain ⟨n', m', e', rfl, -⟩ := id hy
    refine ⟨sfu_rcp_rounds hx, sfu_sqrt_rounds hx, sfu_rsq_rounds hx, divFlt_rounds hx hy, ?zero, fun ha => ?negative, log2_of_one hx,
      fun k => ⟨fun ha _ => sinpi_cospi_of_int hx ha, fun ha => sinpi_cospi_of_half hx ha⟩, rfl, rfl, rfl, rfl, rfl, rfl, rfl,
      fun _ => rfl, rfl, rfl, fun ha hb => ?overZero, fun ha hb => ?zeroOverZero, fun ha hb => ?zeroOver, fun _ => rfl, rfl, rfl⟩
    case zero =>
      intro ha
      obtain rfl := hx.eq_zero_iff.mp ha
      obtain ⟨hsin, hcos⟩ := sinpi_cospi_of_int (t := t) (c := c) hx (k := 0) (by rw [ha, Int.cast_zero])
      exact ⟨rfl, rfl, rfl, rfl, sfu_of_zero t c n e, hsin, hcos⟩
    case negative =>
      obtain ⟨hsqrt, hrsq, hlog⟩ := sfu_of_neg (t := t) (c := c) hx ha
      exact ⟨hsqrt, hrsq, hlog⟩
    case overZero =>
      obtain rfl := hy.eq_zero_iff.mp hb
      have hm : m ≠ 0 := fun hm => ha (hx.eq_zero_iff.mpr hm)
      simp only [divFlt, if_true, if_neg hm]
      rfl
    case zeroOverZero =>
      obtain rfl := hx.eq_zero_iff.mp ha
      obtain rfl := hy.eq_zero_iff.mp hb
      rfl
    case zeroOver =>
      obtain rfl := hx.eq_zero_iff.mp ha
      have hm' : m' ≠ 0 := fun hm => hb (hy.eq_zero_iff.mpr hm)
      simp only [divFlt, if_true, if_neg hm']
      rfl
  case division =>
    intro d a b t f w x y zero issues
    exact ⟨effectIf_divWord divVal fun _ => rfl, effectIf_divWord remVal fun _ => rfl⟩

end Sys2Proof.Machine
end

section
/-!
SUPPORT. Precise faults of a word's lanes (R337, R338): what `takeFaults` leaves of the group, lane by lane.
-/
namespace Sys2Proof.Machine

theorem getGroup_modCore_of_groups {f : Core → Core} (hf : ∀ x, (f x).groups = x.groups) (s : State) (c k g : Nat) :
    getGroup (modCore s c f) k g = getGroup s k g := by
  rw [getGroup, getGroup, getCore_modCore, Core.group, Core.group]
  split_ifs with h
  · rw [hf, h]
  · rfl

theorem getGroup_of_cores {s t : State} (h : t.cores = s.cores) (k g : Nat) : getGroup t k g = getGroup s k g := by
  rw [getGroup, getGroup, getCore, getCore, h]

theorem postFaultEvent_cores (s : State) (c d : Nat) (e : EventRec) : (postFaultEvent s c d e).cores = s.cores := by
  unfold postFaultEvent
  split_ifs
  · rfl
  · exact postEvent_cores s d e

theorem getGroup_flogAppend (s : State) (c : Nat) (r : FlogRec) (k g : Nat) : getGroup (flogAppend s c r) k g = getGroup s k g := by
  have hmod : ∀ fl, getGroup (modCore s c fun x => { x with flog := fl }) k g = getGroup s k g := fun _ =>
    getGroup_modCore_of_groups (by intro _; rfl) s c k g
  unfold flogAppend
  simp only
  by_cases hfull : ((getCore s c).flog.tail - (getCore s c).flog.head).toNat = 16
  · rw [if_pos hfull]
    by_cases h0 : (getCore s c).flog.lost = 0
    · rw [if_pos h0, getGroup_of_cores (postEvent_cores _ _ _), hmod]
    · rw [if_neg h0, hmod]
  · rw [if_neg hfull, hmod]

theorem getGroup_flogPost (s : State) (c : Nat) (r : FlogRec) (k g : Nat) : getGroup (flogPost s c r) k g = getGroup s k g := by
  unfold flogPost
  split_ifs
  · rfl
  · exact getGroup_flogAppend s c r k g

/-- The records and the event of one cause change no group (R339, R342). -/
theorem getGroup_faultCause (handle : Bool) (hflt : LaneMask) (p : Site) (ts : List Trap) (cause : Byte) (s : State) (k g : Nat) :
    getGroup (faultCause handle hflt p ts cause s) k g = getGroup s k g := by
  have hrec : ∀ (s : State) (l : List Trap) (r : FlogRec),
      getGroup (if l.isEmpty then s else flogPost s p.core r) k g = getGroup s k g := by
    intro s l r
    split_ifs
    · rfl
    · exact getGroup_flogPost s p.core r k g
  have hpost : ∀ (P : Prop) [Decidable P] (s : State) (e : EventRec),
      getGroup (if P then postFaultEvent s p.core (dieOf p.core) e else s) k g = getGroup s k g := by
    intro P _ s e
    split_ifs
    · exact getGroup_of_cores (postFaultEvent_cores _ _ _ _) k g
    · rfl
  unfold faultCause
  simp only
  rw [hpost, hrec, hrec, hrec]

theorem getGroup_foldl_faultCause (handle : Bool) (hflt : LaneMask) (p : Site) (ts : List Trap) (k g : Nat) (causes : List Nat) :
    ∀ s : State, getGroup (causes.foldl (fun s n => faultCause handle hflt p ts (BitVec.ofNat 8 n) s) s) k g = getGroup s k g := by
  induction causes with
  | nil => intro _; rfl
  | cons n r ih => intro s; rw [List.foldl_cons, ih, getGroup_faultCause]

/-- Without a held set there is none to release. -/
theorem lane_releaseJoins {s : State} {c g : Nat} (h : (getGroup s c g).joins = []) (l : Nat) :
    (getGroup (releaseJoins s c g) c g).lane l = (getGroup s c g).lane l := by
  unfold releaseJoins
  rw [getGroup_setGroup_self, h]
  rfl

theorem lane_reportIfStuck (s : State) (c g : Nat) (was : Bool) (l : Nat) :
    (getGroup (reportIfStuck s c g was) c g).lane l = (getGroup s c g).lane l := by
  unfold reportIfStuck postParked
  split_ifs
  · rw [getGroup_of_cores (postFaultEvent_cores _ _ _ _), getGroup_modGroup_self]; rfl
  · rfl

theorem lane_closeEmpty (s : State) (e : WEnv) (l : Nat) : e.lane (closeEmpty s e) l = e.lane s l := by
  unfold closeEmpty
  simp only
  split
  · split_ifs
    · rw [WEnv.lane, getGroup_setGroup_self, lane_setPort]; rfl
    · rfl
  · rfl

/-- Every lane that faults parks at the word, and no other lane changes (R337, R338): one trap for each lane of a list. -/
theorem lane_takeFaults {s : State} {p : Site} (f : Nat → Trap) (hf : ∀ l, (f l).lane = l) {ls : List Nat} (hls : ls.Nodup)
    (hj : (getGroup s p.core p.grp).joins = []) (l : Nat) :
    (getGroup (takeFaults s p (ls.map f)) p.core p.grp).lane l =
      if l ∈ ls then parkLane (launchOf s p.core).handle p (f l) ((getGroup s p.core p.grp).lane l)
      else (getGroup s p.core p.grp).lane l := by
  cases hnil : ls with
  | nil => simp [takeFaults]
  | cons x r =>
    rw [← hnil, takeFaults, if_neg (by simp [hnil])]
    have hfold := lane_foldl_modLane (fun l => parkLane (launchOf s p.core).handle p (f l)) ls (getGroup s p.core p.grp) l hls
    have hrest := foldl_modLane_rest (fun l => parkLane (launchOf s p.core).handle p (f l)) ls (getGroup s p.core p.grp)
    simp only [List.foldl_map, hf]
    rw [lane_reportIfStuck, lane_releaseJoins]
    · rw [getGroup_foldl_faultCause, getGroup_setGroup_self]
      exact hfold
    · rw [getGroup_foldl_faultCause, getGroup_setGroup_self]
      exact (congrArg Group.joins hrest).trans hj

/-- A word whose lanes all fault with one cause parks them, and changes no other lane (R86, R337, R338). -/
theorem parks_trapAll {e : WEnv} {b : State} (w : BitVec 32) (cause : Byte) (access : Nat) (addr : Word) (h : NoJoins e b) :
    Parks (fun _ => some (cause, access, addr)) e b (endWord e w (b, e.trapAll cause access addr)) := by
  intro l
  have hend : e.lane (endWord e w (b, e.trapAll cause access addr)) l =
      e.lane (takeFaults b (e.site w) (e.trapAll cause access addr)) l := by
    unfold endWord endAt
    simp only
    split_ifs <;> exact lane_closeEmpty _ e l
  have hpark := lane_takeFaults (s := b) (p := e.site w) (fun l => { lane := l, cause := cause, access := access, addr := addr })
    (fun _ => rfl) (bitList_nodup e.act) h l
  rw [hend]
  refine hpark.trans ?_
  by_cases hl : bit e.act l = true
  · rw [if_pos ((mem_bitList _ _).mpr hl), if_pos hl]; rfl
  · rw [if_neg (fun hm => hl ((mem_bitList _ _).mp hm)), if_neg hl]; rfl

end Sys2Proof.Machine
end

section
/-!
PROOF. Clause headers and hint words (R15, R22, R145 to R148).
-/
namespace Sys2Proof.Machine

/-! ## Hint words -/

theorem sameKind_himm (p : BitVec 24) (j : Instr) : sameKind (.himm p) j = true ↔ ∃ v, j = .himm v where
  mp h := by
    cases j with
    | himm v => exact ⟨v, rfl⟩
    | _ => cases h
  mpr := by rintro ⟨v, rfl⟩; rfl

theorem sameKind_hsched (stay solo : Bool) (j : Instr) : sameKind (.hsched stay solo) j = true ↔ ∃ a b, j = .hsched a b where
  mp h := by
    cases j with
    | hsched a b => exact ⟨a, b, rfl⟩
    | _ => cases h
  mpr := by rintro ⟨a, b, rfl⟩; rfl

theorem sameKind_harith (mode : Option Round) (pol : Option Policy) (ix : Option Src) (j : Instr) :
    sameKind (.harith mode pol ix) j = true ↔ ∃ a b c, j = .harith a b c where
  mp h := by
    cases j with
    | harith a b c => exact ⟨a, b, c, rfl⟩
    | _ => cases h
  mpr := by rintro ⟨a, b, c, rfl⟩; rfl

/-- The second port's own word ends the cycle (R147, R148). -/
theorem nextScope_second (s : State) (c g : Nat) : nextScope s c g true = none := rfl

theorem nextScope_primary (s : State) (c g : Nat) {k : Clause} (h : (getGroup s c g).c1 = some k) :
    nextScope s c g false = if issuable s c g true k then some (scopeOf s c g) else none := by
  simp only [nextScope, h]

theorem nextScope_alone (s : State) (c g : Nat) (h : (getGroup s c g).c1 = none) : nextScope s c g false = none := by
  simp only [nextScope, h]

/-- A hint that its run accepts joins it (R74). -/
theorem runHint_joins {i : Instr} {s : State} {k : Clause} (h : atWord s = some k) (hrun : ∀ j ∈ k.run, ¬ sameKind i j = true)
    (hlen : k.nxt ≠ k.len) :
    runHint i s = .next (modGroup { s with scope := nextScope s s.cur.core s.cur.grp s.cur.second } s.cur.core s.cur.grp fun g =>
      { g.setPort s.cur.second (some { k with nxt := k.nxt + 1, run := k.run ++ [i] }) with lastIssue := s.time }) := by
  have hno : ¬ (k.run.any (sameKind i) = true ∨ k.nxt = k.len) := by
    rintro (hany | heq)
    · obtain ⟨j, hj, hsame⟩ := List.any_eq_true.mp hany
      exact hrun j hj hsame
    · exact hlen heq
  simp only [runHint, h, if_neg hno]
  rfl

/-- A hint that its run refuses is an illegal instruction in every lane that issues it (R74, R86). -/
theorem runHint_refused {i : Instr} {s : State} {k : Clause} (h : atWord s = some k) (hj : NoJoins (envOf s k) s)
    (hrun : (∃ j ∈ k.run, sameKind i j = true) ∨ k.nxt = k.len) :
    ∃ t, runHint i s = .next t ∧ Parks (fun _ => some (0x01, 0, 0)) (envOf s k) (passWord s (envOf s k)) t := by
  have hyes : k.run.any (sameKind i) = true ∨ k.nxt = k.len := hrun.imp_left List.any_eq_true.mpr
  have hj' : NoJoins (envOf s k) (passWord s (envOf s k)) := by
    rw [NoJoins, getGroup_passWord]
    cases (envOf s k).second <;> exact hj
  refine ⟨_, ?_, parks_trapAll ((envOf s k).bits s) 0x01 0 0 hj'⟩
  simp only [runHint, h, if_pos hyes, faultWord]

/-! ## Clause headers -/

theorem Group.accept_rest (g : Group) (second : Bool) (k : Clause) :
    { g.accept second k with c0 := g.c0, c1 := g.c1, lanes := g.lanes, out := g.out, stayLeft := g.stayLeft } = g := by
  have h := foldl_modLane_rest (fun _ l => { l with t0 := 0, t1 := 0, npc := none }) (bitList k.mask) g
  unfold Group.accept Group.modLanes
  generalize (bitList k.mask).foldl _ g = y at h ⊢
  rw [← h]
  cases second <;> rfl

theorem Group.accept_out (g : Group) (second : Bool) (k : Clause) :
    (g.accept second k).out = g.out.map fun o => { o with drop := o.drop ||| (o.mask &&& k.mask) } := by
  have h := congrArg Group.out (foldl_modLane_rest (fun _ l => { l with t0 := 0, t1 := 0, npc := none }) (bitList k.mask) g)
  exact congrArg (List.map fun o : LongOp => { o with drop := o.drop ||| (o.mask &&& k.mask) }) h

theorem Group.accept_port (g : Group) (second : Bool) (k : Clause) : (g.accept second k).port second = some k := by
  cases second <;> rfl

theorem Group.accept_port_other (g : Group) (second : Bool) (k : Clause) :
    (g.accept second k).port (!second) = g.port (!second) := by
  have h := foldl_modLane_rest (fun _ l => { l with t0 := 0, t1 := 0, npc := none }) (bitList k.mask) g
  cases second
  · exact (congrArg Group.c1 h :)
  · exact (congrArg Group.c0 h :)

/-- The entry's lanes read zero in their temporaries, and have no next PC (R15, R22). -/
theorem Group.accept_lane (g : Group) (second : Bool) (k : Clause) (l : Nat) :
    (g.accept second k).lane l = if bit k.mask l then { g.lane l with t0 := 0, t1 := 0, npc := none } else g.lane l :=
  (lane_setPort (g.modLanes k.mask fun l => { l with t0 := 0, t1 := 0, npc := none }) second (some k) l).trans
    (modLanes_lane g k.mask _ l)

/-- Which clauses may run in a pair (R146). -/
theorem pairable_iff (s : State) (c : Nat) (seg3 : Word) (pc : Offset) :
    pairable s c seg3 pc = true ↔ (∀ w ∈ clauseWords s c seg3 pc, refusingWord w = false) ∧
      hintTarget 0 (clauseWords s c seg3 pc) = false := by
  simp [pairable]

theorem Group.waitOk_iff (g : Group) (wait : BitVec 12) :
    g.waitOk wait = true ↔ ∀ n, bit wait n = true → spGet 0 g.flags n = 0 := by
  simp only [Group.waitOk, List.all_eq_true, mem_bitList, decide_eq_true_eq]
  rfl

/-- The state once the header at the cursor is accepted, before a second clause starts beside it. -/
def opened (s : State) (k : Clause) : State :=
  { setGroup s s.cur.core s.cur.grp { (getGroup s s.cur.core s.cur.grp).accept s.cur.second k with lastIssue := s.time } with
    cur := { s.cur with entry := none } }

theorem getGroup_opened (s : State) (k : Clause) :
    getGroup (opened s k) s.cur.core s.cur.grp =
      { (getGroup s s.cur.core s.cur.grp).accept s.cur.second k with lastIssue := s.time } :=
  getGroup_setGroup_self s _ _ _

/-- A header position whose flags are clear (R22, R145). -/
theorem exec_clause_opened {s : State} {len : Nat} {wait : BitVec 12} {fla flb : Option (Fin 12)} {yld : Bool} {pc : Offset}
    {m : LaneMask} {k : Clause} (hi : issues s s.cur.core = true)
    (hp : (getGroup s s.cur.core s.cur.grp).port s.cur.second = none) (he : s.cur.entry = some (pc, m))
    (hw : (getGroup s s.cur.core s.cur.grp).waitOk wait = true) (hq : (partOf s s.cur.core).quiet = false)
    (hk : k = { hdr := pc, len := len, fla := fla, flb := flb, yld := yld, nxt := 1, mask := m, run := []
                seg3 := spGet 0 (getGroup s s.cur.core s.cur.grp).seg 3
                stay := hintTarget 1 (clauseWords s s.cur.core (spGet 0 (getGroup s s.cur.core s.cur.grp).seg 3) pc), wait := .go }) :
    exec (.clause len wait fla flb yld) s =
      .next (if s.cur.second then opened s k else startSecond (opened s k) s.cur.core s.cur.grp pc) := by
  have hword : atWord s = none := by
    change (match (getGroup s s.cur.core s.cur.grp).port s.cur.second with
      | some k => if issues s s.cur.core ∧ k.wait = .go ∧ k.hasWord then some k else none
      | none => none) = none
    rw [hp]
  have hhead : atHeader s = some (pc, m) := by rw [atHeader, if_pos hp, he]
  have hno : ¬ (¬ (getGroup s s.cur.core s.cur.grp).waitOk wait = true ∨ (partOf s s.cur.core).quiet = true) := by
    rw [hw, hq]; simp
  change execClause len wait fla flb yld s = _
  simp only [execClause, hword, hi, if_true, startClause, hhead, if_neg hno]
  rw [hk]
  rfl

theorem startSecond_none {t : State} {c g : Nat} {pc : Offset}
    (h : (readyEntries t c g).filter (fun e => decide (pc.toNat < e.1.toNat)) = []) : startSecond t c g pc = t := by
  simp only [startSecond, h]

/-- A second clause starts beside the primary one, or does not (R146). -/
theorem startSecond_cons {t : State} {c g : Nat} {pc : Offset} {e : Offset × LaneMask} {r : List (Offset × LaneMask)} {w : BitVec 32}
    (h : (readyEntries t c g).filter (fun e => decide (pc.toNat < e.1.toNat)) = e :: r)
    (hw : fetchAt t c (spGet 0 (getGroup t c g).seg 3) e.1 = some w) (hok : headerOk w = true) (hc1 : (getGroup t c g).c1 = none) :
    startSecond t c g pc =
      if pairable t c (spGet 0 (getGroup t c g).seg 3) pc = true ∧ pairable t c (spGet 0 (getGroup t c g).seg 3) e.1 = true ∧
          ¬ ∃ k ∈ releasedReady t c g, pc.toNat < (k.wordAt k.nxt).toNat ∧ (k.wordAt k.nxt).toNat < e.1.toNat then
        setGroup t c g ((getGroup t c g).accept true (clauseOf t c w e.1 e.2 (spGet 0 (getGroup t c g).seg 3)))
      else t := by
  have hany : ((releasedReady t c g).any fun k => decide (pc.toNat < k.at_.toNat) && decide (k.at_.toNat < e.1.toNat)) = true ↔
      ∃ k ∈ releasedReady t c g, pc.toNat < (k.wordAt k.nxt).toNat ∧ (k.wordAt k.nxt).toNat < e.1.toNat := by
    simp only [List.any_eq_true, Bool.and_eq_true, decide_eq_true_eq]
    exact Iff.rfl
  simp only [startSecond, h, hw, hok, hc1, hany, true_and]
  by_cases hb : ∃ k ∈ releasedReady t c g, pc.toNat < (k.wordAt k.nxt).toNat ∧ (k.wordAt k.nxt).toNat < e.1.toNat
  · rw [if_pos hb, if_neg (fun hx => hx.2.2 hb)]
  · rw [if_neg hb]
    simp only [hb, not_false_eq_true, and_true]

/-- From `b` to `t` clause `k` opens in a group (R15, R22), where `pc` is the entry that the port at the cursor has accepted. -/
def Opens (second : Bool) (pc : Offset) (c g : Nat) (k : Clause) (b t : State) : Prop :=
  let x := getGroup b c g
  let y := getGroup t c g
  OnlyIn c g b t ∧ y.port second = (if k.hdr = pc then some k else x.port second) ∧
  { y with c0 := x.c0, c1 := x.c1, lanes := x.lanes, out := x.out, lastIssue := x.lastIssue, stayLeft := x.stayLeft } = x ∧
  y.stayLeft = none ∧
  y.out = (x.out.map fun o => { o with drop := o.drop ||| (o.mask &&& k.mask) }) ∧
  ∀ l < 32, y.lane l = if bit k.mask l then { x.lane l with t0 := 0, t1 := 0, npc := none } else x.lane l

/-- A group that accepts a clause opens it; on the port at the cursor it is the one whose header stands at `pc`. -/
theorem opens_accept {second own : Bool} {pc : Offset} {k : Clause} (h : own = second ∧ k.hdr = pc ∨ own = (!second) ∧ k.hdr ≠ pc)
    (b : State) (c g time : Nat) :
    Opens second pc c g k b (setGroup b c g { (getGroup b c g).accept own k with lastIssue := time }) := by
  have hport : ((getGroup b c g).accept own k).port second = if k.hdr = pc then some k else (getGroup b c g).port second := by
    obtain ⟨rfl, hpc⟩ | ⟨rfl, hpc⟩ := h
    · rw [if_pos hpc, Group.accept_port]
    · rw [if_neg hpc]
      have := Group.accept_port_other (getGroup b c g) (!second) k
      rwa [Bool.not_not] at this
  have hrest := Group.accept_rest (getGroup b c g) own k
  simp only [Opens, getGroup_setGroup_self]
  refine ⟨onlyIn_setGroup _ _ _ _, ?_, ?_, rfl, Group.accept_out _ own k, fun l _ => Group.accept_lane _ own k l⟩
  · rw [← hport]; cases second <;> rfl
  · generalize (getGroup b c g).accept own k = y at hrest ⊢
    rw [← hrest]

/-- Settles O21: a header at a clear position is `opened`, with `startSecond` beside it; a hint joins its run or is refused. -/
theorem clausesAndHints : Obligations.ClausesAndHints := by
  unfold Obligations.ClausesAndHints
  refine ⟨?_, ?_⟩
  · intro len wait fla flb yld s pc m c g gr hi hp he hw hq opens k
    have hexec := exec_clause_opened (k := k) hi hp he ((Group.waitOk_iff gr wait).mpr hw) hq rfl
    have hgroup := getGroup_opened s k
    have hc1 : s.cur.second = false → gr.c1 = none → (getGroup (opened s k) c g).c1 = none := by
      intro hsec hgr
      rw [hgroup, hsec]
      exact (Group.accept_port_other gr false k).trans hgr
    have hseg : (getGroup (opened s k) c g).seg = gr.seg := by
      rw [hgroup]
      exact (congrArg Group.seg (Group.accept_rest gr s.cur.second k) :)
    refine ⟨opened s k, opens_accept (.inl ⟨rfl, rfl⟩) _ _ _ _, ?_, ?_, ?_, ?_⟩
    · rw [hgroup]
    · rw [hgroup, ← Group.accept_port_other gr s.cur.second k]
      cases s.cur.second <;> rfl
    · rintro (hsec | habove)
      · rw [hexec, if_pos hsec]
      · rw [hexec, startSecond_none habove, ite_self]
    · intro e r h hsec hgr habove hfetch hok between
      have hbe : pc.toNat < e.1.toNat := by
        have hmem := List.mem_filter.mp (habove.symm ▸ List.mem_cons_self : e ∈ _)
        exact of_decide_eq_true hmem.2
      have hsecond := startSecond_cons habove (hseg ▸ hfetch) hok (hc1 hsec hgr)
      rw [hsec] at hexec
      simp only [pairable_iff, hseg] at hsecond
      split_ifs with hplain
      · refine ⟨_, hexec.trans (congrArg _ (hsecond.trans (if_pos hplain))), ?_, ?_, ?_⟩
        · rw [getGroup_setGroup_self]
          have hlast := congrArg Group.lastIssue (Group.accept_rest (getGroup (opened s k) c g) true
            (clauseOf (opened s k) c h e.1 e.2 (spGet 0 gr.seg 3)))
          exact hlast.trans (by rw [hgroup])
        · have hne : e.1 ≠ pc := fun hh => absurd hbe (hh ▸ lt_irrefl _)
          exact opens_accept (second := s.cur.second) (own := true) (.inr ⟨by rw [hsec]; rfl, hne⟩) (opened s k) c g _
        · rw [getGroup_setGroup_self]
          rfl
      · exact hexec.trans (congrArg _ (hsecond.trans (if_neg hplain)))
  · intro p stay solo mode pol ix s k h joins
    have key : ∀ (i : Instr) (same : Instr → Prop), exec i s = runHint i s →
        (∀ j, sameKind i j = true ↔ same j) → joins i same := by
      intro i same hx hsame
      refine ⟨fun hno hlen => ?_, fun hj hrun => ?_⟩
      · rw [hx, runHint_joins h (fun j hj hs => hno j hj ((hsame j).mp hs)) hlen]
        congr
        cases s.cur.second
        · cases hc : (getGroup s s.cur.core s.cur.grp).c1 with
          | none => rw [nextScope_alone _ _ _ hc]; rfl
          | some l => rw [nextScope_primary _ _ _ hc]; rfl
        · exact nextScope_second _ _ _
      · rw [hx]
        exact runHint_refused h hj (hrun.imp_left fun ⟨j, hj, hs⟩ => ⟨j, hj, (hsame j).mpr hs⟩)
    exact ⟨key _ _ rfl (sameKind_himm p), key _ _ rfl (sameKind_hsched stay solo), key _ _ rfl (sameKind_harith mode pol ix)⟩

end Sys2Proof.Machine
end

section
/-!
SUPPORT. Readiness of groups (R150): what `groupReady` and `waitFails` look at is neither which group a core has selected, nor
how many clauses it counts, nor a STAY hold.
-/
namespace Sys2Proof.Machine

/-- From `s` to `t` nothing differs but selections, clause counts and STAY holds. -/
structure SameReady (s t : State) : Prop where
  rest : { t with cores := s.cores } = s
  core : ∀ c, { getCore t c with groups := (getCore s c).groups, sel := (getCore s c).sel, cnt := (getCore s c).cnt } = getCore s c
  group : ∀ c g, { getGroup t c g with stayLeft := (getGroup s c g).stayLeft } = getGroup s c g
  clearing : ∀ c, (getCore t c).clearing = (getCore s c).clearing

namespace SameReady

variable {s t : State}

theorem scope (h : SameReady s t) : t.scope = s.scope := (congrArg State.scope h.rest :)

theorem partOf (h : SameReady s t) (c : Nat) : Machine.partOf t c = Machine.partOf s c := by
  have hpart : (getCore t c).part = (getCore s c).part := (congrArg Core.part (h.core c) :)
  have hparts : t.parts = s.parts := (congrArg State.parts h.rest :)
  rw [Machine.partOf, Machine.partOf, getPart, getPart, hpart, hparts]

theorem launchOf (h : SameReady s t) (c : Nat) : Machine.launchOf t c = Machine.launchOf s c := by
  rw [Machine.launchOf, h.partOf]; rfl

theorem spad (h : SameReady s t) (c : Nat) : (getCore t c).spad = (getCore s c).spad := (congrArg Core.spad (h.core c) :)

theorem bars (h : SameReady s t) (c : Nat) : (getCore t c).bars = (getCore s c).bars := (congrArg Core.bars (h.core c) :)

theorem eng (h : SameReady s t) (c : Nat) : (getCore t c).eng = (getCore s c).eng := (congrArg Core.eng (h.core c) :)

theorem asy (h : SameReady s t) (c : Nat) : (getCore t c).asy = (getCore s c).asy := (congrArg Core.asy (h.core c) :)

theorem lanes (h : SameReady s t) (c g : Nat) : (getGroup t c g).lanes = (getGroup s c g).lanes :=
  (congrArg Group.lanes (h.group c g) :)

theorem out (h : SameReady s t) (c g : Nat) : (getGroup t c g).out = (getGroup s c g).out := (congrArg Group.out (h.group c g) :)

theorem flags (h : SameReady s t) (c g : Nat) : (getGroup t c g).flags = (getGroup s c g).flags :=
  (congrArg Group.flags (h.group c g) :)

theorem seg (h : SameReady s t) (c g : Nat) : (getGroup t c g).seg = (getGroup s c g).seg := (congrArg Group.seg (h.group c g) :)

theorem k (h : SameReady s t) (c g : Nat) : (getGroup t c g).k = (getGroup s c g).k := (congrArg Group.k (h.group c g) :)

theorem c0 (h : SameReady s t) (c g : Nat) : (getGroup t c g).c0 = (getGroup s c g).c0 := (congrArg Group.c0 (h.group c g) :)

theorem c1 (h : SameReady s t) (c g : Nat) : (getGroup t c g).c1 = (getGroup s c g).c1 := (congrArg Group.c1 (h.group c g) :)

theorem released (h : SameReady s t) (c g : Nat) : (getGroup t c g).released = (getGroup s c g).released :=
  (congrArg Group.released (h.group c g) :)

theorem lastIssue (h : SameReady s t) (c g : Nat) : (getGroup t c g).lastIssue = (getGroup s c g).lastIssue :=
  (congrArg Group.lastIssue (h.group c g) :)

theorem synced (h : SameReady s t) (c g : Nat) : ((getCore t c).group g).synced = ((getCore s c).group g).synced :=
  (congrArg Group.synced (h.group c g) :)

/-! ## The words a clause could issue -/

theorem fetchAt (h : SameReady s t) (c : Nat) (seg3 : Word) (pc : Offset) : Machine.fetchAt t c seg3 pc = Machine.fetchAt s c seg3 pc := by
  simp only [Machine.fetchAt, spadRead, h.spad]

theorem clauseWords (h : SameReady s t) (c : Nat) (seg3 : Word) (pc : Offset) :
    Machine.clauseWords t c seg3 pc = Machine.clauseWords s c seg3 pc := by
  simp only [Machine.clauseWords, h.fetchAt]

theorem envAt (h : SameReady s t) (c g : Nat) (second : Bool) (k : Clause) :
    Machine.envAt t c g second k = Machine.envAt s c g second k := by
  simp only [Machine.envAt, Group.active, Group.lanesWhere, h.lanes]

theorem src (h : SameReady s t) (e : WEnv) (l : Nat) (a : Src) : e.src t l a = e.src s l a := by
  cases a with
  | reg r => rw [WEnv.src, WEnv.src, WEnv.lane, WEnv.lane, Group.lane, Group.lane, h.lanes]
  | k n => simp only [WEnv.src, WEnv.kVal, h.scope, h.k]
  | _ => rfl

theorem wordCause (h : SameReady s t) (m : WMeta) (e : WEnv) : Machine.wordCause m e t = Machine.wordCause m e s := by
  unfold Machine.wordCause holdsBarrier
  dsimp only
  rw [h.launchOf, h.partOf, h.synced, h.bars]

/-! ## What a word itself needs -/

theorem drainNeed (h : SameReady s t) (loads : Bool) (e : WEnv) : Machine.drainNeed loads e t = Machine.drainNeed loads e s := by
  simp only [Machine.drainNeed, Group.busyLanes, h.out]

theorem blockOk (h : SameReady s t) (a : Src) (n : Nat) (e : WEnv) : Machine.blockOk a n e t = Machine.blockOk a n e s := by
  simp only [Machine.blockOk, h.src]

theorem matNeed (h : SameReady s t) {ok : WEnv → State → Bool} (hok : ∀ e, ok e t = ok e s) (e : WEnv) :
    Machine.matNeed ok e t = Machine.matNeed ok e s := by
  simp only [Machine.matNeed, hok, Core.matFree, h.eng, h.clearing]

theorem asyNeed (h : SameReady s t) {ok : WEnv → State → Bool} (hok : ∀ e, ok e t = ok e s) (e : WEnv) :
    Machine.asyNeed ok e t = Machine.asyNeed ok e s := by
  simp only [Machine.asyNeed, hok, Core.asyFree, h.asy]

theorem awitOk (h : SameReady s t) (a : Src) (e : WEnv) : Machine.awitOk a e t = Machine.awitOk a e s := by
  simp only [Machine.awitOk, h.blockOk, openBad, h.asy, h.spad, h.src]

theorem aemitOk (h : SameReady s t) (c : Fin 8) (b : Src) (e : WEnv) : Machine.aemitOk c b e t = Machine.aemitOk c b e s := by
  simp only [Machine.aemitOk, h.asy, h.src]

theorem openOk (h : SameReady s t) (c : Fin 8) (e : WEnv) :
    ((getCore t e.core).asy.openCtx c).isSome = ((getCore s e.core).asy.openCtx c).isSome := by
  rw [h.asy]

theorem swrNeed (h : SameReady s t) (a : Src) (sel : SReg) (e : WEnv) : (swrMeta a sel).need e t = (swrMeta a sel).need e s := by
  cases sel with
  | fstat => exact h.drainNeed false e
  | _ => rfl

theorem fstatNeed (h : SameReady s t) (sel : SReg) (e : WEnv) : Machine.fstatNeed sel e t = Machine.fstatNeed sel e s := by
  cases sel with
  | fstat => exact h.drainNeed false e
  | _ => rfl

theorem need (h : SameReady s t) {i : Instr} {m : WMeta} (hm : metaOf i = some m) (e : WEnv) : m.need e t = m.need e s := by
  cases i with
  | halt => cases hm; exact h.drainNeed true e
  | srd d sel => cases hm; exact h.fstatNeed sel e
  | swr a sel => cases hm; exact h.swrNeed a sel e
  | awit d a => cases hm; exact h.asyNeed (h.awitOk a) e
  | aemit c a b => cases hm; exact h.asyNeed (h.aemitOk c b) e
  | aclose d c => cases hm; exact h.asyNeed (ok := fun e s => ((getCore s e.core).asy.openCtx c).isSome) (h.openOk c) e
  | mldb d a | mmaI4 d a | mmaN4 d a | mmaI8 d a | mmaN8 d a | mmaI16 d a | mmaN16 d a | mconvI4 d a | mconvN4 d a
  | mconvI8 d a | mconvN8 d a | mconvI16 d a | mconvN16 d a | mzero d a | mdrain d a t =>
    cases hm; exact h.matNeed (h.blockOk a 80) e
  | _ => cases hm <;> rfl

/-! ## Readiness -/

theorem stallOf (h : SameReady s t) {i : Instr} {m : WMeta} (hm : metaOf i = some m) (e : WEnv) :
    Machine.stallOf m e t = Machine.stallOf m e s := by
  have hfull : (getGroup t e.core e.grp).flagFull = (getGroup s e.core e.grp).flagFull := by
    funext f
    rw [Group.flagFull, Group.flagFull, h.flags]
  simp only [Machine.stallOf, h.need hm, Group.pending, h.out, hfull]

theorem stalls (h : SameReady s t) (c g : Nat) (second : Bool) (k : Clause) :
    Machine.stalls t c g second k = Machine.stalls s c g second k := by
  have hfetch := h.fetchAt c k.seg3 (k.wordAt k.nxt)
  simp only [Machine.stalls, hfetch, h.envAt, h.wordCause]
  cases hw : (Machine.fetchAt s c k.seg3 (k.wordAt k.nxt)).bind fun w => (decode w).toOption.bind metaOf with
  | none => rfl
  | some m =>
    obtain ⟨w, -, hi⟩ := Option.bind_eq_some_iff.mp hw
    obtain ⟨i, -, hm⟩ := Option.bind_eq_some_iff.mp hi
    simp only [h.stallOf hm]

theorem issuable (h : SameReady s t) (c g : Nat) (second : Bool) (k : Clause) :
    Machine.issuable t c g second k = Machine.issuable s c g second k := by
  rw [Machine.issuable, h.stalls]; rfl

theorem frontier (h : SameReady s t) (c g : Nat) : (getGroup t c g).frontier = (getGroup s c g).frontier := by
  simp only [Group.frontier, Group.flying, h.lanes, h.c0, h.c1, h.released]

theorem waitOk (h : SameReady s t) (c g : Nat) (wait : BitVec 12) :
    (getGroup t c g).waitOk wait = (getGroup s c g).waitOk wait := by
  simp only [Group.waitOk, h.flags]

theorem entryReady (h : SameReady s t) (c g : Nat) : Machine.entryReady t c g = Machine.entryReady s c g := by
  funext e
  have hmark : (getGroup t c g).lanesWhere (fun l => l.mark) = (getGroup s c g).lanesWhere fun l => l.mark := by
    rw [Group.lanesWhere, Group.lanesWhere, h.lanes]
  unfold Machine.entryReady
  dsimp only
  rw [h.seg, h.fetchAt, h.clauseWords, hmark]
  simp only [h.waitOk]

theorem readyEntries (h : SameReady s t) (c g : Nat) : Machine.readyEntries t c g = Machine.readyEntries s c g := by
  simp only [Machine.readyEntries, h.partOf, h.frontier, h.entryReady]

theorem releasedReady (h : SameReady s t) (c g : Nat) : Machine.releasedReady t c g = Machine.releasedReady s c g := by
  have hissue : Machine.issuable t c g false = Machine.issuable s c g false := funext (h.issuable c g false)
  rw [Machine.releasedReady, Machine.releasedReady, h.released, hissue]

theorem groupReady (h : SameReady s t) (c g : Nat) : Machine.groupReady t c g = Machine.groupReady s c g := by
  simp only [Machine.groupReady, h.c0, h.c1, h.releasedReady, h.readyEntries, h.issuable]

theorem waitFails (h : SameReady s t) (c g : Nat) : Machine.waitFails t c g = Machine.waitFails s c g := by
  simp only [Machine.waitFails, h.frontier, h.fetchAt, h.seg, h.waitOk]

end SameReady

end Sys2Proof.Machine
end

section
/-!
PROOF. Clause ends, group selection, the STAY hold and handler entry (R22, R142, R150, R152, R343).
-/
namespace Sys2Proof.Machine

/-! ## The oldest ready group -/

/-- The groups of a core that are ready and pass a test, in ascending number. -/
def readyGroups (s : State) (c : Nat) (other : Nat → Bool) : List Nat :=
  (List.range (getCore s c).ngroups).filter fun g => other g && groupReady s c g

theorem mem_readyGroups {s : State} {c : Nat} {other : Nat → Bool} {g : Nat} :
    g ∈ readyGroups s c other ↔ g < (getCore s c).ngroups ∧ other g = true ∧ groupReady s c g = true := by
  simp [readyGroups]

theorem readyGroups_sorted (s : State) (c : Nat) (other : Nat → Bool) : (readyGroups s c other).Pairwise (· < ·) :=
  List.pairwise_lt_range.filter _

theorem oldestReady_eq_argmin (s : State) (c : Nat) (other : Nat → Bool) :
    oldestReady s c other = (readyGroups s c other).argmin fun g => (getGroup s c g).lastIssue := by
  unfold oldestReady List.argmin readyGroups
  congr 1
  funext acc g
  cases acc <;> rfl

/-- In a rising list, what stands no later is no greater. -/
theorem le_of_idxOf_le {l : List Nat} (hl : l.Pairwise (· < ·)) {a b : Nat} (ha : a ∈ l) (hb : b ∈ l)
    (h : l.idxOf a ≤ l.idxOf b) : a ≤ b := by
  have hla := List.idxOf_lt_length_of_mem ha
  have hlb := List.idxOf_lt_length_of_mem hb
  rcases h.lt_or_eq with hlt | heq
  · have := List.pairwise_iff_getElem.mp hl _ _ hla hlb hlt
    rw [List.getElem_idxOf, List.getElem_idxOf] at this
    exact this.le
  · exact (List.idxOf_inj ha |>.mp heq).le

/-- The oldest ready group: none where none is ready, and otherwise the one issued from longest ago, of two the lower (R150). -/
theorem oldestReady_spec {s : State} {c b : Nat} {other : Nat → Bool} (h : oldestReady s c other = some b) :
    (b < (getCore s c).ngroups ∧ other b = true ∧ groupReady s c b = true) ∧
    ∀ g < (getCore s c).ngroups, other g = true → groupReady s c g = true →
      (getGroup s c b).lastIssue < (getGroup s c g).lastIssue ∨
        (getGroup s c b).lastIssue = (getGroup s c g).lastIssue ∧ b ≤ g := by
  rw [oldestReady_eq_argmin, List.argmin_eq_some_iff] at h
  obtain ⟨hb, hmin, hidx⟩ := h
  refine ⟨mem_readyGroups.mp hb, fun g hg ho hr => ?_⟩
  have hmem : g ∈ readyGroups s c other := mem_readyGroups.mpr ⟨hg, ho, hr⟩
  rcases (hmin g hmem).lt_or_eq with hlt | heq
  · exact .inl hlt
  · exact .inr ⟨heq, le_of_idxOf_le (readyGroups_sorted s c other) hb hmem (hidx g hmem heq.ge)⟩

theorem oldestReady_eq_none {s : State} {c : Nat} {other : Nat → Bool} :
    oldestReady s c other = none ↔ ∀ g < (getCore s c).ngroups, other g = true → groupReady s c g = false := by
  rw [oldestReady_eq_argmin, List.argmin_eq_none, List.eq_nil_iff_forall_not_mem]
  simp only [mem_readyGroups, not_and, Bool.not_eq_true]

/-! ## Selections, clause counts and STAY holds leave readiness alone -/

theorem SameReady.trans {s t u : State} (h : SameReady s t) (h' : SameReady t u) : SameReady s u where
  rest := (congrArg (fun z : State => { z with cores := s.cores }) h'.rest).trans h.rest
  core c := (congrArg (fun z : Core => { z with groups := (getCore s c).groups, sel := (getCore s c).sel
                                                cnt := (getCore s c).cnt }) (h'.core c)).trans (h.core c)
  group c g := (congrArg (fun z : Group => { z with stayLeft := (getGroup s c g).stayLeft }) (h'.group c g)).trans (h.group c g)
  clearing c := (h'.clearing c).trans (h.clearing c)

theorem SameReady.refl (s : State) : SameReady s s := ⟨rfl, fun _ => rfl, fun _ _ => rfl, fun _ => rfl⟩

/-- Another group is selected and the clauses counted (R150). -/
def selectGroup (s : State) (c sel cnt : Nat) : State := modCore s c fun x => { x with sel := sel, cnt := cnt }

theorem getGroup_selectGroup (s : State) (c sel cnt k g : Nat) : getGroup (selectGroup s c sel cnt) k g = getGroup s k g := by
  rw [selectGroup, getGroup, getCore_modCore]
  split_ifs with h
  · subst h; rfl
  · rfl

theorem sameReady_selectGroup (s : State) (c sel cnt : Nat) : SameReady s (selectGroup s c sel cnt) where
  rest := rfl
  core k := by
    rw [selectGroup, getCore_modCore]
    split_ifs with h
    · subst h; rfl
    · rfl
  group k g := by rw [getGroup_selectGroup]
  clearing k := by
    rw [selectGroup, getCore_modCore]
    split_ifs with h
    · subst h; rfl
    · rfl

theorem any_spSet_congr {α : Type} {p : Nat × α → Bool} {n : Nat} {a b : α} (h : p (n, a) = p (n, b)) (m : Sparse α) :
    (spSet m n a).any p = (spSet m n b).any p := by
  induction m with
  | nil => simp [spSet, h]
  | cons x r ih =>
    obtain ⟨k, y⟩ := x
    simp only [spSet]
    split_ifs <;> simp only [List.any_cons, h, ih]

/-- The STAY hold of a group begins (R152). -/
def holdStay (s : State) (c g : Nat) : State := modGroup s c g fun x => { x with stayLeft := some 8 }

theorem sameReady_holdStay {s : State} {c g : Nat} {m : Sparse Group} {x : Group} (h : (getCore s c).groups = spSet m g x) :
    SameReady s (holdStay s c g) where
  rest := rfl
  core k := by
    rw [holdStay, modGroup_eq, getCore_modCore]
    split_ifs with hk
    · subst hk; rfl
    · rfl
  group k n := by
    rw [holdStay, modGroup, getGroup_setGroup]
    split_ifs with hk
    · rw [hk.1, hk.2]
    · rfl
  clearing k := by
    rw [holdStay, modGroup_eq, getCore_modCore]
    split_ifs with hk
    · have hx : (getCore s c).group g = x := by rw [Core.group, h, spGet_spSet_self]
      rw [hk, Core.clearing, Core.clearing, Core.setGroup, h, spSet_spSet, hx]
      refine any_spSet_congr (a := { x with stayLeft := some 8 }) (b := x) ?_ m
      rfl
    · rfl

/-! ## The end of a pair -/

/-- A lane at the end of its clause (R142): while it is runnable it takes its next PC. -/
def Clause.passes (k : Clause) (x : Lane) : Lane :=
  if x.cond = .runnable then { x with pc := x.npc.getD k.fall, npc := none } else x

/-- The clauses of a group in flight. -/
def Group.pair (gr : Group) : List Clause := [gr.c0, gr.c1].filterMap id

/-- The group once its clauses have ended (R142). -/
def Group.afterPair (gr : Group) : Group :=
  { gr.pair.foldl (fun g k => g.modLanes k.mask k.passes) gr with c0 := none, c1 := none }

theorem Group.modLanes_rest (g : Group) (m : LaneMask) (f : Lane → Lane) : { g.modLanes m f with lanes := g.lanes } = g :=
  foldl_modLane_rest (fun _ => f) (bitList m) g

theorem Group.afterPair_rest (gr : Group) : { gr.afterPair with lanes := gr.lanes, c0 := gr.c0, c1 := gr.c1 } = gr := by
  have hfold : ∀ (l : List Clause) (g : Group), { l.foldl (fun g k => g.modLanes k.mask k.passes) g with lanes := g.lanes } = g := by
    intro l
    induction l with
    | nil => intro g; rfl
    | cons k r ih =>
      intro g
      exact (congrArg (fun z : Group => { z with lanes := g.lanes }) (ih (g.modLanes k.mask k.passes))).trans
        (g.modLanes_rest k.mask k.passes)
  have h := hfold gr.pair gr
  unfold Group.afterPair
  generalize gr.pair.foldl _ gr = y at h ⊢
  rw [← h]

/-- Each lane ends the one clause of the pair that it belongs to (R142). -/
theorem Group.afterPair_lane {gr : Group} (h : ∀ a b, gr.c0 = some a → gr.c1 = some b → a.mask &&& b.mask = 0) (l : Nat) :
    gr.afterPair.lane l = match gr.pair.find? fun k => bit k.mask l with
      | some k => k.passes (gr.lane l)
      | none => gr.lane l := by
  have hlane : gr.afterPair.lane l = (gr.pair.foldl (fun g k => g.modLanes k.mask k.passes) gr).lane l := rfl
  rw [hlane]
  unfold Group.pair
  cases h0 : gr.c0 with
  | none =>
    cases h1 : gr.c1 with
    | none => rfl
    | some b =>
      simp only [List.filterMap, id_eq, List.foldl, modLanes_lane, List.find?_cons]
      cases bit b.mask l <;> rfl
  | some a =>
    cases h1 : gr.c1 with
    | none =>
      simp only [List.filterMap, id_eq, List.foldl, modLanes_lane, List.find?_cons]
      cases bit a.mask l <;> rfl
    | some b =>
      have hdis : bit a.mask l = true → bit b.mask l = true → False := by
        intro ha hb
        have := congrArg (fun m : LaneMask => m.getLsbD l) (h a b h0 h1)
        simp [bit] at ha hb this
        exact absurd hb (by simp [this ha])
      simp only [List.filterMap, id_eq, List.foldl, modLanes_lane, List.find?_cons]
      cases ha : bit a.mask l <;> cases hb : bit b.mask l
      · rfl
      · rfl
      · rfl
      · exact (hdis ha hb).elim

/-! ## Handler entry at the end of a pair -/

/-- No lane of the group waits to enter the handler (R343). -/
def Group.NoneEnters (g : Group) : Prop := ∀ p ∈ g.lanes, ∀ f, p.2.fault = some f → f.handler = false

theorem mem_of_mem_spSet {α : Type} {m : Sparse α} {n : Nat} {v : α} {p : Nat × α} (h : p ∈ spSet m n v) :
    p = (n, v) ∨ p ∈ m := by
  induction m with
  | nil => exact .inl (List.mem_singleton.mp h)
  | cons x r ih =>
    obtain ⟨k, y⟩ := x
    simp only [spSet] at h
    split_ifs at h
    · exact List.mem_cons.mp h
    · exact (List.mem_cons.mp h).imp_right (List.mem_cons_of_mem _)
    · rcases List.mem_cons.mp h with heq | hr
      · exact .inr (heq ▸ List.mem_cons_self)
      · exact (ih hr).imp_right (List.mem_cons_of_mem _)

theorem spGet_mem_or_default {α : Type} (d : α) (m : Sparse α) (n : Nat) : (n, spGet d m n) ∈ m ∨ spGet d m n = d := by
  induction m with
  | nil => exact .inr rfl
  | cons x r ih =>
    obtain ⟨k, y⟩ := x
    simp only [spGet]
    split_ifs with h
    · exact .inl (h ▸ List.mem_cons_self)
    · exact ih.imp_left (List.mem_cons_of_mem _)

theorem Group.NoneEnters.lane {g : Group} (h : g.NoneEnters) (l : Nat) : ∀ f, (g.lane l).fault = some f → f.handler = false := by
  intro f hf
  rcases spGet_mem_or_default Lane.zero g.lanes l with hmem | hzero
  · exact h _ hmem f hf
  · rw [Group.lane, hzero] at hf
    cases hf

theorem Group.NoneEnters.modLanes {g : Group} (h : g.NoneEnters) (m : LaneMask) {f : Lane → Lane} (hf : ∀ x, (f x).fault = x.fault) :
    (g.modLanes m f).NoneEnters := by
  have hfold : ∀ (ls : List Nat) (g : Group), g.NoneEnters → (ls.foldl (fun g l => g.modLane l f) g).NoneEnters := by
    intro ls
    induction ls with
    | nil => exact fun _ h => h
    | cons l r ih =>
      intro g h
      refine ih _ fun p hp x hx => ?_
      rcases mem_of_mem_spSet hp with rfl | hold
      · exact h.lane l x ((hf _).symm.trans hx)
      · exact h p hold x hx
  exact hfold (bitList m) g h

theorem Clause.passes_fault (k : Clause) (x : Lane) : (k.passes x).fault = x.fault := by
  unfold Clause.passes
  split_ifs <;> rfl

theorem Group.NoneEnters.afterPair {g : Group} (h : g.NoneEnters) : g.afterPair.NoneEnters := by
  have hfold : ∀ (l : List Clause) (g : Group), g.NoneEnters → (l.foldl (fun g k => g.modLanes k.mask k.passes) g).NoneEnters := by
    intro l
    induction l with
    | nil => exact fun _ h => h
    | cons k r ih => exact fun g h => ih _ (h.modLanes k.mask k.passes_fault)
  exact hfold g.pair g h

theorem handlerLane_eq_self {x : Lane} (h : ∀ f, x.fault = some f → f.handler = false) (v : Word) : handlerLane v x = x := by
  unfold handlerLane
  cases hf : x.fault with
  | none => rfl
  | some f => simp [h f hf]

theorem setGroup_setGroup (s : State) (c g : Nat) (x y : Group) : setGroup (setGroup s c g x) c g y = setGroup s c g y := by
  rw [setGroup, setGroup, modCore_modCore]
  simp only [Function.comp_def, Core.setGroup, spSet_spSet]
  rfl

/-- Where no lane waits for the handler its entry changes nothing (R343). -/
theorem enterHandlers_setGroup {x : Group} (h : x.NoneEnters) (s : State) (c g : Nat) :
    enterHandlers (setGroup s c g x) c g = setGroup s c g x := by
  have hmap : x.lanes.map (fun e => (e.1, handlerLane x.trapvec e.2)) = x.lanes := by
    conv_rhs => rw [← List.map_id x.lanes]
    refine List.map_congr_left fun e he => ?_
    rw [handlerLane_eq_self (h e he)]
    rfl
  unfold enterHandlers
  simp only [getGroup_setGroup_self]
  split_ifs
  · rfl
  · rw [hmap, setGroup_setGroup]

/-- What the end of a pair is, where nothing waits for it but the lanes' next PCs (R142). -/
theorem endClauses_eq {s : State} {c g : Nat} (he : (getGroup s c g).ended = true) (hc : (getGroup s c g).lanectl = [])
    (hn : (getGroup s c g).NoneEnters) : endClauses s c g = afterClause (setGroup s c g (getGroup s c g).afterPair) c g
      ((getGroup s c g).pair.any fun k => k.yld) ((getGroup s c g).pair.any fun k => k.stay) := by
  have hctl : (getGroup s c g).afterPair.lanectl = [] := (congrArg Group.lanectl (getGroup s c g).afterPair_rest :).trans hc
  have happly : applyLaneCtl (setGroup s c g (getGroup s c g).afterPair) c g = setGroup s c g (getGroup s c g).afterPair := by
    simp [applyLaneCtl, hctl]
  rw [← enterHandlers_setGroup hn.afterPair]
  conv_rhs => rw [← happly]
  unfold endClauses
  simp only [he, not_true_eq_false, if_false]
  rfl

/-! ## What follows the end of a pair -/

/-- The group that the core has selected after a pair of its selected group (R150). -/
def nextSel (s : State) (c g : Nat) (switch : Bool) : Nat :=
  if switch then (oldestReady s c fun x => decide (x ≠ g)).getD g else g

theorem afterClause_other {s : State} {c g : Nat} (h : (getCore s c).sel ≠ g) (yld stay : Bool) : afterClause s c g yld stay = s := by
  simp only [afterClause, if_pos h]

/-- After a pair of the selected group (R150, R152). -/
def selected (s : State) (c g : Nat) (switch : Bool) : State :=
  selectGroup s c (nextSel s c g switch) (if switch then 0 else (getCore s c).cnt + 1)

theorem afterClause_own {s : State} {c g : Nat} (h : (getCore s c).sel = g) (yld stay : Bool) {switch : Bool}
    (hs : switch = (yld || decide ((getCore s c).gtoCap ≤ (getCore s c).cnt + 1))) : afterClause s c g yld stay =
      if nextSel s c g switch = g ∧ stay = true ∧ groupReady (selected s c g switch) c g = false ∧
          waitFails (selected s c g switch) c g = true then
        holdStay (selected s c g switch) c g
      else selected s c g switch := by
  subst hs
  simp only [afterClause, h, ne_eq, not_true_eq_false, if_false, Bool.not_eq_true]
  rfl

theorem getCore_holdStay_ne (s : State) {c k : Nat} (g : Nat) (h : k ≠ c) : getCore (holdStay s c g) k = getCore s k := by
  rw [holdStay, modGroup_eq, getCore_modCore, if_neg h]

theorem getGroup_holdStay_ne (s : State) (c : Nat) {g k : Nat} (h : k ≠ g) : getGroup (holdStay s c g) c k = getGroup s c k := by
  rw [holdStay, modGroup, getGroup_setGroup, if_neg (fun hk => h hk.2)]

theorem getCore_selectGroup_self (s : State) (c sel cnt : Nat) :
    getCore (selectGroup s c sel cnt) c = { getCore s c with sel := sel, cnt := cnt } := getCore_modCore_self s c _

/-- What follows the end of a pair leaves everything but the core's selection and count, and the group's STAY hold. -/
theorem afterClause_frame {s : State} {c g : Nat} {m : Sparse Group} {x : Group} (hm : (getCore s c).groups = spSet m g x)
    (yld stay : Bool) : SameReady s (afterClause s c g yld stay) ∧
      (∀ k, k ≠ c → getCore (afterClause s c g yld stay) k = getCore s k) ∧
      ∀ k, k ≠ g → getGroup (afterClause s c g yld stay) c k = getGroup s c k := by
  by_cases h : (getCore s c).sel = g
  · rw [afterClause_own h yld stay rfl]
    set switch := yld || decide ((getCore s c).gtoCap ≤ (getCore s c).cnt + 1)
    have hsel : SameReady s (selected s c g switch) := sameReady_selectGroup s c _ _
    have hcores : ∀ k, k ≠ c → getCore (selected s c g switch) k = getCore s k := fun k hk => by
      rw [selected, selectGroup, getCore_modCore, if_neg hk]
    have hgroups : ∀ k, getGroup (selected s c g switch) c k = getGroup s c k := fun k => getGroup_selectGroup s c _ _ c k
    have hm' : (getCore (selected s c g switch) c).groups = spSet m g x := by
      rw [selected, getCore_selectGroup_self]
      exact hm
    split_ifs
    · exact ⟨hsel.trans (sameReady_holdStay hm'), fun k hk => (getCore_holdStay_ne _ g hk).trans (hcores k hk),
        fun k hk => (getGroup_holdStay_ne _ c hk).trans (hgroups k)⟩
    · exact ⟨hsel, hcores, fun k _ => hgroups k⟩
  · rw [afterClause_other h]
    exact ⟨SameReady.refl s, fun _ _ => rfl, fun _ _ => rfl⟩

/-- Which group is selected after a pair of the selected group, the count, and the STAY hold (R150, R152). -/
theorem afterClause_sel {s : State} {c g : Nat} {m : Sparse Group} {x : Group} (hm : (getCore s c).groups = spSet m g x)
    (h : (getCore s c).sel = g) (yld stay : Bool) {switch : Bool}
    (hs : switch = (yld || decide ((getCore s c).gtoCap ≤ (getCore s c).cnt + 1))) :
    (getCore (afterClause s c g yld stay) c).sel = nextSel s c g switch ∧
    (getCore (afterClause s c g yld stay) c).cnt = (if switch then 0 else (getCore s c).cnt + 1) ∧
    (getGroup (afterClause s c g yld stay) c g).stayLeft =
      if nextSel s c g switch = g ∧ stay = true ∧ groupReady (afterClause s c g yld stay) c g = false ∧
          waitFails (afterClause s c g yld stay) c g = true then some 8
      else (getGroup s c g).stayLeft := by
  have hready := (afterClause_frame hm yld stay).1
  rw [hready.groupReady, hready.waitFails, afterClause_own h yld stay hs]
  have hsel : SameReady s (selected s c g switch) := sameReady_selectGroup s c _ _
  rw [hsel.groupReady, hsel.waitFails]
  have hcore : (getCore (selected s c g switch) c).sel = nextSel s c g switch ∧
      (getCore (selected s c g switch) c).cnt = (if switch then 0 else (getCore s c).cnt + 1) := by
    rw [selected, getCore_selectGroup_self]
    exact ⟨rfl, rfl⟩
  obtain ⟨hcsel, hccnt⟩ := hcore
  rw [← hccnt]
  split_ifs with hstay
  · have hhold : ∀ u, (getCore (holdStay u c g) c).sel = (getCore u c).sel ∧ (getCore (holdStay u c g) c).cnt = (getCore u c).cnt := by
      intro u
      rw [holdStay, modGroup_eq, getCore_modCore_self]
      exact ⟨rfl, rfl⟩
    refine ⟨(hhold _).1.trans hcsel, (hhold _).2, ?_⟩
    rw [holdStay, getGroup_modGroup_self]
  · exact ⟨hcsel, rfl, by rw [selected, getGroup_selectGroup]⟩

/-- The group selected at a switch: the oldest other ready group, and where there is none the one that ended (R150). -/
theorem nextSel_switch {s t : State} {c g : Nat} (h : SameReady s t) :
    ((∀ k < (getCore s c).ngroups, k ≠ g → groupReady t c k = false) → nextSel s c g true = g) ∧
    ∀ k < (getCore s c).ngroups, k ≠ g → groupReady t c k = true →
      nextSel s c g true ≠ g ∧ groupReady t c (nextSel s c g true) = true ∧
        ((getGroup t c (nextSel s c g true)).lastIssue < (getGroup t c k).lastIssue ∨
          (getGroup t c (nextSel s c g true)).lastIssue = (getGroup t c k).lastIssue ∧ nextSel s c g true ≤ k) := by
  simp only [h.groupReady, h.lastIssue, nextSel, if_true]
  cases ho : oldestReady s c fun x => decide (x ≠ g) with
  | none =>
    have hnone := oldestReady_eq_none.mp ho
    refine ⟨fun _ => rfl, fun k hk hne hr => ?_⟩
    rw [hnone k hk (decide_eq_true hne)] at hr
    cases hr
  | some b =>
    obtain ⟨⟨hb, hne, hr⟩, hmin⟩ := oldestReady_spec ho
    have hbg : b ≠ g := of_decide_eq_true hne
    refine ⟨fun hall => ?_, fun k hk hkg hrk => ⟨hbg, hr, hmin k hk (decide_eq_true hkg) hrk⟩⟩
    rw [hall b hb hbg] at hr
    cases hr

/-! ## Handler entry -/

/-- A change of every value listed is one of every value read, where it fixes what an unlisted number reads as. -/
theorem spGet_map_snd {α : Type} {f : α → α} {d : α} (hd : f d = d) (m : Sparse α) (n : Nat) :
    spGet d (m.map fun e => (e.1, f e.2)) n = f (spGet d m n) := by
  induction m with
  | nil => exact hd.symm
  | cons x r ih =>
    simp only [List.map_cons, spGet, ih]
    split_ifs <;> rfl

/-- What the entry into the handler makes of each lane of a group (R343). -/
theorem enterHandlers_lane {s : State} {c g : Nat} (h : ¬ ((getGroup s c g).inFlight = true ∨ (getDie s (dieOf c)).transition = true))
    (l : Nat) : (getGroup (enterHandlers s c g) c g).lane l = handlerLane (getGroup s c g).trapvec ((getGroup s c g).lane l) := by
  rw [enterHandlers]
  simp only [if_neg h, getGroup_setGroup_self, Group.lane]
  exact spGet_map_snd rfl _ l

/-- The entry into the handler, register by register (R343). -/
theorem handlerLane_enters {x : Lane} {f : LaneFault} (hf : x.fault = some f) (h : x.cond = .parked ∧ f.handler = true) (v : Word) :
    { handlerLane v x with w := x.w } =
      { x with cond := .runnable, pc := v.setWidth 20, hflt := true, fault := some { f with handler := false } } ∧
    readReg (handlerLane v x) (.w 36) = f.addr ∧
    readReg (handlerLane v x) (.w 37) =
      wd (f.access * 2 ^ 48 + f.cause.toNat * 2 ^ 40 + f.word.toNat * 2 ^ 20 + f.clause.toNat) ∧
    readReg (handlerLane v x) (.w 38) = wd f.fall.toNat ∧
    ∀ n : Fin 40, n.val < 36 ∨ n.val = 39 → readReg (handlerLane v x) (.w n) = readReg x (.w n) := by
  have hx : handlerLane v x =
      { x with cond := .runnable, pc := v.setWidth 20, hflt := true, fault := some { f with handler := false }
               w := spPut 0 (spPut 0 (spPut 0 x.w 36 f.addr) 37
                 (wd (f.access * 2 ^ 48 + f.cause.toNat * 2 ^ 40 + f.word.toNat * 2 ^ 20 + f.clause.toNat)))
                 38 (wd f.fall.toNat) } := by
    simp only [handlerLane, hf, if_pos h]
  rw [hx]
  refine ⟨rfl, ?_, ?_, ?_, fun n hn => ?_⟩
  all_goals simp only [readReg, spGet_spPut]
  · rfl
  · rfl
  · rfl
  · rw [if_neg (by omega), if_neg (by omega), if_neg (by omega)]

theorem handlerLane_stays {x : Lane} {f : LaneFault} (hf : x.fault = some f) (h : ¬ (x.cond = .parked ∧ f.handler = true))
    (v : Word) : handlerLane v x = x := by
  simp only [handlerLane, hf, if_neg h]

theorem handlerLane_none {x : Lane} (hf : x.fault = none) (v : Word) : handlerLane v x = x := by
  simp only [handlerLane, hf]

theorem dieOf_coreNum (die : Fin 8) (core : Fin 128) : dieOf (coreNum die core) = die.val := by
  have := core.isLt
  unfold dieOf coreNum
  omega

theorem Group.ended_of {gr : Group} (h : gr.pair ≠ []) (hover : ∀ k ∈ gr.pair, k.len < k.nxt ∧ k.wait = .go) : gr.ended = true := by
  have hfly : gr.inFlight = true := by
    rw [Group.inFlight]
    cases h0 : gr.c0 with
    | some k => rfl
    | none =>
      cases h1 : gr.c1 with
      | some k => rfl
      | none => exact absurd (by rw [Group.pair, h0, h1]; rfl) h
  have hall : gr.pair.all Clause.over = true := by
    refine List.all_eq_true.mpr fun k hk => ?_
    obtain ⟨hlen, hwait⟩ := hover k hk
    simp [Clause.over, Clause.hasWord, hwait, hlen]
  exact (Bool.and_eq_true _ _).mpr ⟨hfly, hall⟩

/-- A core whose selected group cannot go on selects the ready group that is least by age, then by number (R150). -/
theorem selectsOldest {s : State} {die : Fin 8} {core : Fin 128} {g : Nat}
    (hready : groupReady s (coreNum die core) (getCore s (coreNum die core)).sel = false)
    (hended : (getGroup s (coreNum die core) (getCore s (coreNum die core)).sel).ended = false)
    (hstay : (getGroup s (coreNum die core) (getCore s (coreNum die core)).sel).stayLeft = none)
    (hlt : g < (getCore s (coreNum die core)).ngroups) (hr : groupReady s (coreNum die core) g = true)
    (hmin : ∀ k < (getCore s (coreNum die core)).ngroups, groupReady s (coreNum die core) k = true →
      (getGroup s (coreNum die core) g).lastIssue < (getGroup s (coreNum die core) k).lastIssue ∨
        (getGroup s (coreNum die core) g).lastIssue = (getGroup s (coreNum die core) k).lastIssue ∧ g ≤ k) :
    execGroupSelect die core s =
      .next (setCore s (coreNum die core) { getCore s (coreNum die core) with sel := g, cnt := 0 }) := by
  have hno : ¬ (groupReady s (coreNum die core) (getCore s (coreNum die core)).sel = true ∨
      ((getCore s (coreNum die core)).group (getCore s (coreNum die core)).sel).ended = true ∨
      ((getCore s (coreNum die core)).group (getCore s (coreNum die core)).sel).stayLeft.isSome = true) := by
    rw [getGroup] at hended hstay
    rw [hready, hended, hstay]
    simp
  have hold : oldestReady s (coreNum die core) (fun _ => true) = some g := by
    cases ho : oldestReady s (coreNum die core) fun _ => true with
    | none =>
      have := oldestReady_eq_none.mp ho g hlt rfl
      rw [hr] at this
      cases this
    | some b =>
      obtain ⟨⟨hb, -, hrb⟩, hbmin⟩ := oldestReady_spec ho
      have h1 := hmin b hb hrb
      have h2 := hbmin g hlt rfl hr
      have heq : b = g := by omega
      rw [heq]
  simp only [execGroupSelect, if_neg hno, hold]

/-! ## The obligation -/

/-- Settles O23: the end of a pair is `Group.afterPair`, then `afterClause`; a selection is the group that is least by age, then by
number; handler entry is `handlerLane` in every lane. -/
theorem clauseEndsAndSelection : Obligations.ClauseEndsAndSelection := by
  unfold Obligations.ClauseEndsAndSelection
  refine ⟨?_, ?_⟩
  · intro die core grp s c gr co flying hfly hover hdis hctl hfault
    have hended : gr.ended = true := Group.ended_of hfly hover
    have hend : exec (.clauseEnd die core grp) s = .next (endClauses s c grp) := rfl
    rw [endClauses_eq hended hctl hfault] at hend
    set yld := gr.pair.any fun k => k.yld with hyld
    set stay := gr.pair.any fun k => k.stay with hstay
    set s1 := setGroup s c grp gr.afterPair with hs1
    have hm : (getCore s1 c).groups = spSet co.groups grp gr.afterPair := by
      rw [hs1, setGroup, getCore_modCore_self]; rfl
    have hgroup1 : getGroup s1 c grp = gr.afterPair := getGroup_setGroup_self s c grp _
    have hcore1 : { getCore s1 c with groups := co.groups } = co := by
      rw [hs1, setGroup, getCore_modCore_self]; rfl
    obtain ⟨hready, hcores, hgroups⟩ := afterClause_frame hm yld stay
    have hsame : gr.afterPair.stayLeft = gr.stayLeft := (congrArg Group.stayLeft gr.afterPair_rest :)
    have hswitch : (yld || decide ((getCore s1 c).gtoCap ≤ (getCore s1 c).cnt + 1)) = true ↔
        (∃ k ∈ flying, k.yld = true) ∨ co.gtoCap ≤ co.cnt + 1 := by
      have hcap : (getCore s1 c).gtoCap = co.gtoCap := (congrArg Core.gtoCap hcore1 :)
      have hcnt : (getCore s1 c).cnt = co.cnt := (congrArg Core.cnt hcore1 :)
      rw [hcap, hcnt, Bool.or_eq_true, hyld, List.any_eq_true, decide_eq_true_eq]
      rfl
    have hsel1 : (getCore s1 c).sel = co.sel := (congrArg Core.sel hcore1 :)
    have hcnt1 : (getCore s1 c).cnt = co.cnt := (congrArg Core.cnt hcore1 :)
    have hng1 : (getCore s1 c).ngroups = co.ngroups := (congrArg Core.ngroups hcore1 :)
    refine ⟨_, hend, ?_, ?_, ?_, ?_, ?_, ?_, ?_, ?_, ?_, ?_, ?_, ?_⟩
    · exact (congrArg (fun z : State => { z with cores := s.cores }) hready.rest :)
    · intro k hk
      rw [hcores k hk, hs1, setGroup, getCore_modCore, if_neg hk]
    · intro k hk
      rw [hgroups k hk, hs1, getGroup_setGroup, if_neg (fun h => hk h.2)]
    · exact (congrArg (fun z : Core => { z with groups := co.groups, sel := co.sel, cnt := co.cnt }) (hready.core c) :).trans
        (congrArg (fun z : Core => { z with sel := co.sel, cnt := co.cnt }) hcore1 :)
    · have hgroup := hready.group c grp
      rw [hgroup1] at hgroup
      exact (congrArg (fun z : Group => { z with lanes := gr.lanes, c0 := gr.c0, c1 := gr.c1, stayLeft := gr.stayLeft }) hgroup :).trans
        (congrArg (fun z : Group => { z with stayLeft := gr.stayLeft }) gr.afterPair_rest :)
    · rw [hready.c0, hgroup1]; rfl
    · rw [hready.c1, hgroup1]; rfl
    · intro l _
      rw [Group.lane, hready.lanes, hgroup1]
      refine (Group.afterPair_lane hdis l).trans ?_
      change (match flying.find? fun k => bit k.mask l with
        | some k => k.passes (gr.lane l)
        | none => gr.lane l) = _
      cases flying.find? fun k => bit k.mask l <;> rfl
    · intro hne
      rw [afterClause_other (hsel1 ▸ hne), hsel1, hcnt1, hgroup1]
      exact ⟨rfl, rfl, hsame⟩
    · intro heq
      obtain ⟨hsel, -, hleft⟩ := afterClause_sel hm (hsel1.trans heq) yld stay rfl
      have hany : stay = true ↔ ∃ k ∈ flying, k.stay = true := List.any_eq_true
      rw [hleft, hgroup1, hsame, hsel]
      exact if_congr (and_congr_right fun _ => and_congr_left' hany) rfl rfl
    · intro heq hno
      obtain ⟨hsel, hcnt, -⟩ := afterClause_sel hm (hsel1.trans heq) yld stay rfl
      rw [hsel, hcnt, if_neg (fun h => hno (hswitch.mp h)), nextSel, if_neg (fun h => hno (hswitch.mp h)), hcnt1]
      exact ⟨rfl, rfl⟩
    · intro heq hyes
      obtain ⟨hsel, hcnt, -⟩ := afterClause_sel hm (hsel1.trans heq) yld stay rfl
      obtain ⟨hnone, hsome⟩ := nextSel_switch (g := grp) hready
      rw [hswitch.mpr hyes] at hsel hcnt
      rw [hsel, hcnt]
      rw [hng1] at hnone hsome
      exact ⟨rfl, hnone, hsome⟩
  · intro die core grp s c co gr
    refine ⟨fun hnr hne hns hlt hr hmin => ?_, rfl, fun h0 h1 htr => ?_⟩
    · exact (selectsOldest hnr hne hns hlt hr hmin)
    · have hno : ¬ ((getGroup s c grp).inFlight = true ∨ (getDie s (dieOf c)).transition = true) := by
        have hdie : dieOf c = die.val := dieOf_coreNum die core
        have hfly : gr.inFlight = false := by rw [Group.inFlight, h0, h1]; rfl
        rintro (h | h)
        · exact absurd h (by rw [hfly]; exact Bool.false_ne_true)
        · exact absurd h (by rw [hdie, htr]; exact Bool.false_ne_true)
      have hx : enterHandlers s c grp =
          setGroup s c grp { gr with lanes := gr.lanes.map fun e => (e.1, handlerLane gr.trapvec e.2) } := by
        rw [enterHandlers]
        exact if_neg hno
      refine ⟨_, rfl, ?_, ?_, fun l => ?_⟩
      · exact hx ▸ onlyIn_setGroup s c grp _
      · change { getGroup (enterHandlers s c grp) c grp with lanes := gr.lanes } = gr
        rw [hx, getGroup_setGroup_self]
      · have hlane := enterHandlers_lane hno l
        change match (gr.lane l).fault with
          | some f => _
          | none => _
        cases hf : (gr.lane l).fault with
        | none => exact hlane.trans (handlerLane_none hf _)
        | some f =>
          by_cases hp : (gr.lane l).cond = .parked ∧ f.handler = true
          · refine (if_pos hp).mpr ?_
            have henter := handlerLane_enters hf hp gr.trapvec
            rw [← hlane] at henter
            exact henter
          · exact (if_neg hp).mpr (hlane.trans (handlerLane_stays hf hp _))

end Sys2Proof.Machine
end

section
/-!
SUPPORT. The refusals of dispatch (R203): each case as the condition on the launch record that the specification states.
-/
namespace Sys2Proof.Machine

/-! ## Fields and masks of reserved bits -/

/-- A field is 0 where its bits are. -/
theorem fld_eq_zero_iff {w : Nat} (x : BitVec w) (hi lo : Nat) :
    fld x hi lo = 0 ↔ ∀ i < hi + 1 - lo, x.getLsbD (lo + i) = false := by
  constructor
  · intro h i hi'
    have := congrArg (fun n : Nat => n.testBit i) h
    simpa [testBit_fld, hi'] using this
  · intro h
    apply Nat.eq_of_testBit_eq
    intro i
    rw [testBit_fld, Nat.zero_testBit]
    by_cases hi' : i < hi + 1 - lo
    · simp [h i hi']
    · simp [hi']

/-- No bit of a mask is set. -/
theorem and_eq_zero_iff {w : Nat} (x m : BitVec w) : x &&& m = 0 ↔ ∀ i < w, m.getLsbD i = true → x.getLsbD i = false := by
  constructor
  · intro h i hi hm
    have := congrArg (fun y : BitVec w => y.getLsbD i) h
    simpa [hm] using this
  · intro h
    apply BitVec.eq_of_getLsbD_eq
    intro i hi
    cases hm : m.getLsbD i
    · simp [hm]
    · simp [hm, h i hi hm]

/-- A value stands below 2^n where the field above is 0. -/
theorem fld_top_eq_zero_iff {w : Nat} (x : BitVec w) (n : Nat) (hn : n < w) : fld x (w - 1) n = 0 ↔ x.toNat < 2 ^ n := by
  have hlt : x.toNat / 2 ^ n < 2 ^ (w - n) := by
    rw [Nat.div_lt_iff_lt_mul (Nat.two_pow_pos n), ← Nat.pow_add, Nat.sub_add_cancel hn.le]
    exact x.isLt
  rw [fld, Nat.shiftRight_eq_div_pow, show w - 1 + 1 - n = w - n by omega, Nat.mod_eq_of_lt hlt,
    Nat.div_eq_zero_iff_lt (Nat.two_pow_pos n)]

/-- The reserved bits of ENTRY. -/
theorem entry_reserved_iff (x : BitVec 32) : x &&& 0xFFF00003 = 0 ↔ x.toNat < 2 ^ 20 ∧ x.toNat % 4 = 0 := by
  have hmask : ∀ i < 32, (0xFFF00003 : BitVec 32).getLsbD i = (decide (i < 2) || decide (20 ≤ i)) := by decide
  have hlow : x.toNat % 4 = 0 ↔ fld x 1 0 = 0 := Iff.rfl
  rw [hlow, ← fld_top_eq_zero_iff x 20 (by omega), fld_eq_zero_iff, fld_eq_zero_iff, and_eq_zero_iff]
  constructor
  · intro h
    exact ⟨fun i hi => h _ (by omega) (by rw [hmask _ (by omega)]; simp), fun i hi => h _ (by omega) (by
      rw [hmask _ (by omega)]; simp; omega)⟩
  · rintro ⟨hhigh, hlow⟩ i hi hm
    rw [hmask i hi, Bool.or_eq_true, decide_eq_true_eq, decide_eq_true_eq] at hm
    rcases hm with h2 | h20
    · simpa using hlow i (by omega)
    · simpa [Nat.add_sub_cancel' h20] using hhigh (i - 20) (by omega)

/-- The reserved bits of HANDLER, whose bit 31 says that one is there. -/
theorem handler_reserved_iff (x : BitVec 32) : x &&& 0x7FF00003 = 0 ↔ x.toNat % 2 ^ 31 < 2 ^ 20 ∧ x.toNat % 4 = 0 := by
  have hmask : ∀ i < 32, (0x7FF00003 : BitVec 32).getLsbD i = (decide (i < 2) || decide (20 ≤ i) && decide (i < 31)) := by decide
  have hlow : x.toNat % 4 = 0 ↔ fld x 1 0 = 0 := Iff.rfl
  have hhigh : x.toNat % 2 ^ 31 < 2 ^ 20 ↔ fld x 30 20 = 0 := by
    rw [fld, Nat.shiftRight_eq_div_pow]
    omega
  rw [hlow, hhigh, fld_eq_zero_iff, fld_eq_zero_iff, and_eq_zero_iff]
  constructor
  · intro h
    exact ⟨fun i hi => h _ (by omega) (by rw [hmask _ (by omega)]; simp; omega), fun i hi => h _ (by omega) (by
      rw [hmask _ (by omega)]; simp; omega)⟩
  · rintro ⟨hhigh, hlow⟩ i hi hm
    rw [hmask i hi, Bool.or_eq_true, Bool.and_eq_true, decide_eq_true_eq, decide_eq_true_eq, decide_eq_true_eq] at hm
    rcases hm with h2 | ⟨h20, h31⟩
    · simpa using hlow i (by omega)
    · simpa [Nat.add_sub_cancel' h20] using hhigh (i - 20) (by omega)

theorem reserved_eq_false_iff (r : LrRaw) : r.reserved = false ↔
    r.rsv = 0 ∧ r.trappol.toNat < 4 ∧ r.flags.toNat < 4 ∧ r.entry.toNat < 2 ^ 20 ∧ r.entry.toNat % 4 = 0 ∧
      r.handler.toNat % 2 ^ 31 < 2 ^ 20 ∧ r.handler.toNat % 4 = 0 ∧ r.audit.toNat < 2 ^ 48 ∧ fld r.audit 23 22 = 0 ∧
      r.strag.toNat < 2 ^ 40 ∧ ∀ x ∈ r.succ, x.toNat < 2 ^ 48 := by
  have h8 : ∀ x : BitVec 8, fld x 7 2 = 0 ↔ x.toNat < 4 := fun x => fld_top_eq_zero_iff x 2 (by omega)
  have h48 : ∀ x : Word, fld x 63 48 = 0 ↔ x.toNat < 2 ^ 48 := fun x => fld_top_eq_zero_iff x 48 (by omega)
  have h40 : ∀ x : Word, fld x 63 40 = 0 ↔ x.toNat < 2 ^ 40 := fun x => fld_top_eq_zero_iff x 40 (by omega)
  simp only [LrRaw.reserved, Bool.or_eq_false_iff, decide_eq_false_iff_not, not_not, List.any_eq_false, h8, h48, h40,
    entry_reserved_iff, handler_reserved_iff, ne_eq, decide_eq_true_eq, and_assoc]

/-! ## Segments and queues (R17, R18, R215) -/

/-- Two runs of numbers share one: `m` numbers from `a`, and `n` from `e`. -/
def Shares (a m e n : Nat) : Prop := ∃ x, a ≤ x ∧ x < a + m ∧ e ≤ x ∧ x < e + n

theorem shares_iff (a m e n : Nat) : Shares a m e n ↔ 0 < m ∧ 0 < n ∧ a < e + n ∧ e < a + m := by
  constructor
  · rintro ⟨x, h1, h2, h3, h4⟩
    omega
  · rintro ⟨h1, h2, h3, h4⟩
    exact ⟨max a e, by omega, by omega, by omega, by omega⟩

theorem meets_iff_shares (a m e n : Nat) (hn : 0 < n) : 0 < m ∧ meets a m e n = true ↔ Shares a m e n := by
  rw [meets, Bool.and_eq_true, decide_eq_true_eq, decide_eq_true_eq, shares_iff]
  omega

theorem segsOk_iff (seg : Nat → Word) : segsOk seg = true ↔
    (∀ n < 4, fld (seg n) 63 34 = 0 ∧ fld (seg n) 15 0 < 49152 ∧ fld (seg n) 15 0 + fld (seg n) 31 16 ≤ 49152 ∧
      if n = 3 then fld (seg n) 33 32 = 0 ∨ fld (seg n) 33 32 = 3 else fld (seg n) 33 32 < 3) ∧
    ∀ n < 3, ¬ Shares (fld (seg n) 15 0) (fld (seg n) 31 16) (fld (seg 3) 15 0) (fld (seg 3) 31 16) := by
  have hkind : ∀ x : Word, fld x 33 32 ≠ 3 ↔ fld x 33 32 < 3 := fun x => by
    have : fld x 33 32 < 4 := fld_lt x 33 32
    omega
  have hend : ∀ x : Word, segBase x + segLimit x ≤ spadEnd ↔ fld x 15 0 + fld x 31 16 ≤ 49152 := fun x => by
    unfold segBase segLimit spadEnd
    omega
  have hmeet : ∀ x y : Word, 0 < segLimit x ∧ 0 < segLimit y ∧ meets (segBase x) (segLimit x) (segBase y) (segLimit y) = true ↔
      Shares (fld x 15 0) (fld x 31 16) (fld y 15 0) (fld y 31 16) := fun x y => by
    unfold segBase segLimit meets
    rw [shares_iff, Bool.and_eq_true, decide_eq_true_eq, decide_eq_true_eq]
    omega
  have hlast : ∀ n : Nat, (if n = 3 then decide (segKind (seg n) = 0) || decide (segKind (seg n) = 3) else
      decide (segKind (seg n) ≠ 3)) = true ↔
        if n = 3 then fld (seg n) 33 32 = 0 ∨ fld (seg n) 33 32 = 3 else fld (seg n) 33 32 < 3 := fun n => by
    unfold segKind
    split_ifs
    · rw [Bool.or_eq_true, decide_eq_true_eq, decide_eq_true_eq]
    · rw [decide_eq_true_eq, hkind]
  simp only [segsOk, Bool.and_eq_true, List.all_eq_true, List.mem_range, decide_eq_true_eq, Bool.not_eq_true', hlast, hend,
    and_assoc, Nat.le_iff_lt_add_one, ← Bool.not_eq_true, hmeet]

/-- The bytes of a queue: its header, then its entries (R214). -/
def queueArea (q : Word) : Nat × Nat := (16 * fld q 15 0, 16 + fld q 47 32 * (16 * 2 ^ fld q 49 48))

theorem qwBase_eq (q : Word) : qwBase q = (queueArea q).1 := Nat.mul_comm _ _

theorem qwEnd_eq (q : Word) : qwEnd q = (queueArea q).1 + (queueArea q).2 := by
  rw [qwEnd, qwBase_eq, qwDepth, qwEsz, Nat.shiftLeft_eq, Nat.add_assoc]
  rfl

/-- A queue control word that a dispatch takes, beside the code segment and other queues (R215). -/
def QueueTaken (seg3 q : Word) (others : List Word) : Prop :=
  qwDepth q ≠ 0 → fld q 63 50 = 0 ∧ fld q 31 16 = 0 ∧ fld q 49 48 ≠ 3 ∧ (others ≠ [] → fld q 49 48 = 1) ∧
    (queueArea q).1 + (queueArea q).2 ≤ 0xC0000 ∧
    ¬ Shares (16 * fld seg3 15 0) (16 * fld seg3 31 16) (queueArea q).1 (queueArea q).2 ∧
    ∀ o ∈ others, qwDepth o ≠ 0 → ¬ Shares (queueArea o).1 (queueArea o).2 (queueArea q).1 (queueArea q).2

theorem queueOk_iff (seg3 q : Word) (others : List Word) (esz1 : Bool) (he : esz1 = true ↔ others ≠ []) :
    queueOk [seg3] others esz1 q = true ↔ QueueTaken seg3 q others := by
  have hpos : ∀ q : Word, 0 < (queueArea q).2 := fun q => Nat.lt_of_lt_of_le (by omega) (Nat.le_add_right 16 _)
  have hlen : ∀ q : Word, qwEnd q - qwBase q = (queueArea q).2 := fun q => by rw [qwEnd_eq, qwBase_eq, Nat.add_sub_cancel_left]
  have hend : qwEnd q ≤ spadEnd ↔ (queueArea q).1 + (queueArea q).2 ≤ 0xC0000 := by rw [qwEnd_eq]; rfl
  have hseg : 0 < segLimit seg3 ∧ meets (segBase seg3) (segLimit seg3) (qwBase q) (qwEnd q - qwBase q) = true ↔
      Shares (16 * fld seg3 15 0) (16 * fld seg3 31 16) (queueArea q).1 (queueArea q).2 := by
    rw [hlen, qwBase_eq, meets_iff_shares _ _ _ _ (hpos q), segLimit, segBase, Nat.mul_comm, Nat.mul_comm (fld seg3 31 16)]
  have hother : ∀ o : Word, meets (qwBase o) (qwEnd o - qwBase o) (qwBase q) (qwEnd q - qwBase q) = true ↔
      Shares (queueArea o).1 (queueArea o).2 (queueArea q).1 (queueArea q).2 := fun o => by
    rw [hlen, hlen, qwBase_eq, qwBase_eq, ← meets_iff_shares _ _ _ _ (hpos q)]
    exact (and_iff_right (hpos o)).symm
  have hesz : (!esz1 || decide (fld q 49 48 = 1)) = true ↔ (others ≠ [] → fld q 49 48 = 1) := by
    rw [← he]
    cases esz1 <;> simp
  rw [queueOk, Bool.or_eq_true, decide_eq_true_eq, QueueTaken, or_iff_not_imp_left]
  simp only [Bool.and_eq_true, hesz, decide_eq_true_eq, List.all_cons, List.all_nil, and_true, List.all_eq_true,
    Bool.or_eq_true, Bool.not_eq_true', Bool.eq_false_iff, ne_eq, hseg, hother, hend, and_assoc, or_iff_not_imp_left]

theorem queuesOk_iff (r : LrRaw) : queuesOk r = true ↔
    QueueTaken (r.segw.getD 3 0) r.alogq [] ∧ QueueTaken (r.segw.getD 3 0) r.xq [r.alogq] ∧
      QueueTaken (r.segw.getD 3 0) r.noteq [r.alogq, r.xq] := by
  rw [queuesOk, Bool.and_eq_true, Bool.and_eq_true, queueOk_iff _ _ _ _ (by simp), queueOk_iff _ _ _ _ (by simp),
    queueOk_iff _ _ _ _ (by simp), and_assoc]

/-! ## Strings, keys, the map and the audit policy (R203, R204, R409, R437) -/

theorem stringTaken_eq_false_iff (s : State) (p n : Nat) :
    stringTaken s p n = false ↔ stringUsable s n = true ∧ ((getStr s n).part = none ∨ (getStr s n).part = some p) := by
  cases h : (getStr s n).part <;> simp [stringTaken, h]

/-- A launch record that names no string that is taken, and at least one. -/
theorem strings_taken_iff (s : State) (p : Nat) (r : LrRaw) : ¬ (r.strings.isEmpty = true ∨ r.strings.any (stringTaken s p) = true) ↔
    r.strmask ≠ 0 ∧ ∀ n ∈ r.strings, stringUsable s n = true ∧ ((getStr s n).part = none ∨ (getStr s n).part = some p) := by
  have hempty : r.strings.isEmpty = true ↔ r.strmask = 0 := by
    rw [List.isEmpty_iff, LrRaw.strings, List.eq_nil_iff_forall_not_mem]
    constructor
    · intro h
      apply BitVec.eq_of_getLsbD_eq
      intro i _
      have := h i
      rw [mem_bitList] at this
      simpa using this
    · intro h i hi
      rw [h, mem_bitList] at hi
      simp at hi
  rw [not_or, hempty, Bool.not_eq_true, List.any_eq_false]
  simp only [Bool.not_eq_true, stringTaken_eq_false_iff]

theorem keySealed_iff (s : State) (h : Word) : keySealed s h = true ↔
    fld h 63 48 = 0 ∧ fld h 31 6 = 0 ∧ fld h 5 0 ≠ 0 ∧ (getKey s (fld h 5 0)).state = .loaded ∧
      (getKey s (fld h 5 0)).exp = false ∧
      (getKey s (fld h 5 0)).bound = false ∧ fld h 47 32 = (getKey s (fld h 5 0)).sealcnt.toNat := by
  simp only [keySealed, Bool.and_eq_true, decide_eq_true_eq, Bool.not_eq_true', and_assoc]

theorem eraseDups_length_le (n : Nat) : ∀ l : List Nat, l.length ≤ n → l.eraseDups.length ≤ l.length := by
  induction n with
  | zero => intro l h; rw [List.length_eq_zero_iff.mp (Nat.le_zero.mp h)]; exact le_rfl
  | succ n ih =>
    intro l h
    cases l with
    | nil => exact le_rfl
    | cons a as =>
      have hf : (as.filter fun b => !b == a).length ≤ as.length := List.length_filter_le _ _
      rw [List.length_cons] at h
      rw [List.eraseDups_cons, List.length_cons, List.length_cons]
      exact Nat.succ_le_succ ((ih _ (by omega)).trans hf)

/-- Erasing the repeats of a list shortens it where there are any. -/
theorem eraseDups_length_iff (l : List Nat) : l.eraseDups.length = l.length ↔ l.Nodup := by
  induction l with
  | nil => simp
  | cons a as ih =>
    have hf : (as.filter fun b => !b == a).length ≤ as.length := List.length_filter_le _ _
    have hle := eraseDups_length_le _ (as.filter fun b => !b == a) le_rfl
    rw [List.eraseDups_cons, List.length_cons, List.length_cons, List.nodup_cons, ← ih]
    by_cases ha : a ∈ as
    · have hlt : (as.filter fun b => !b == a).length < as.length :=
        List.length_filter_lt_length_iff_exists.mpr ⟨a, ha, by simp⟩
      exact ⟨fun h => by omega, fun h => absurd ha h.1⟩
    · have hid : (as.filter fun b => !b == a) = as := List.filter_eq_self.mpr fun b hb => by
        simpa using fun h : b = a => ha (h ▸ hb)
      rw [hid]
      exact ⟨fun h => ⟨ha, Nat.succ.inj h⟩, fun h => congrArg Nat.succ h.2⟩

/-- The cores of a launch record's strings (R204). -/
theorem coresOf_eq (s : State) (strs : List Nat) : coresOf s strs =
    (strs.flatMap fun n => [4 * n, 4 * n + 1, 4 * n + 2, 4 * n + 3]).filter fun c => (getCore s c).ballast = false := by
  refine List.filter_congr fun c _ => ?_
  cases (getCore s c).ballast <;> rfl

/-- The map of R204: the default one, or the table where it names each core of the strings once. -/
theorem mapOf_eq (s : State) (d p : Nat) (va : Word) (strs : List Nat) : mapOf s d p va strs =
    if va = 0 then some (coresOf s strs)
    else if va.toNat % 2 = 1 then none
    else (readVa s d p va.toNat (2 * (coresOf s strs).length)).bind fun bs =>
      let m := (List.range (coresOf s strs).length).map fun k => leNat ((bs.drop (2 * k)).take 2)
      if (∀ c ∈ m, c ∈ coresOf s strs) ∧ m.Nodup then some m else none := by
  unfold mapOf
  by_cases h0 : va = 0
  · rw [if_pos h0, if_pos h0]
  rw [if_neg h0, if_neg h0]
  by_cases h1 : va.toNat % 2 = 1
  · rw [if_pos h1, if_pos (by omega)]
  rw [if_neg h1, if_neg (by omega)]
  cases readVa s d p va.toNat (2 * (coresOf s strs).length) with
  | none => rfl
  | some bs =>
    refine if_congr (and_congr ?_ (eraseDups_length_iff _)) rfl rfl
    simp only [List.all_eq_true, List.contains_iff_mem]

theorem auditBad_eq_false_iff (s : State) (a : Word) (cores : List Nat) : auditBad s a cores = false ↔
    (bit a 20 = true → fld a 19 0 < ttCount s ∧ (getGen s (fld a 19 0)).state = 5) ∧
      (fld a 31 24 ≠ 0 → ∀ c ∈ cores, bit (getCore s c).ckptBase 0 = true) := by
  rw [auditBad, Bool.or_eq_false_iff]
  refine and_congr ?_ ?_
  · cases bit a 20 <;> simp
  · by_cases h : fld a 31 24 = 0 <;> simp [h]

/-! ## The first case that applies -/

/-- The first number of `n` from `k` on that passes a test. -/
def firstOf (test : Nat → Bool) : Nat → Nat → Option Nat
  | 0, _ => none
  | n + 1, k => if test k then some k else firstOf test n (k + 1)

theorem firstOf_eq_some {test : Nat → Bool} {m : Nat} (hm : test m = true) (n : Nat) : ∀ k, k ≤ m → m < k + n →
    (∀ j < m, test j = false) → firstOf test n k = some m := by
  induction n with
  | zero => intro k hk hlt; omega
  | succ n ih =>
    intro k hk hlt hfirst
    rw [firstOf]
    rcases hk.eq_or_lt with rfl | hkm
    · rw [if_pos hm]
    · rw [hfirst k hkm, if_neg Bool.false_ne_true, ih (k + 1) hkm (by omega) hfirst]

theorem firstOf_eq_none {test : Nat → Bool} (h : ∀ j, test j = false) (n : Nat) : ∀ k, firstOf test n k = none := by
  induction n with
  | zero => intro _; rfl
  | succ n ih => intro k; rw [firstOf, h, if_neg Bool.false_ne_true, ih]

/-- The cases of R203 by their numbers. -/
def refuses (s : State) (d p : Nat) (host : Bool) (diemask : BitVec 16) (r : LrRaw) : Nat → Bool
  | 1 => decide (r.format ≠ 1)
  | 2 => r.reserved
  | 3 => decide (r.groups < 1 ∨ 8 < r.groups ∨ r.energy < 1 ∨ r.peak < 1 ∨ 2700 < r.peak)
  | 4 => decide (bit r.flags 0 = true ∧ host = true)
  | 5 => !segsOk fun n => r.segw.getD n 0
  | 6 => decide (segLimit (r.segw.getD 3 0) ≤ r.entry.toNat ∨
      bit r.handler 31 = true ∧ segLimit (r.segw.getD 3 0) ≤ r.handler.toNat % 2 ^ 20)
  | 7 => decide (786432 < r.imgLen ∨ r.imgLen % 16 ≠ 0)
  | 8 => decide (r.strings.isEmpty = true ∨ r.strings.any (stringTaken s p) = true)
  | 9 => decide (r.keyh ≠ 0 ∧ ¬ keySealed s r.keyh = true)
  | 10 => (mapOf s d p r.mapVa r.strings).isNone
  | 11 => !queuesOk r
  | 12 => scrubPending s p r.strings
  | 13 => !bit (getPart s p).troot 0
  | 14 => decide (bit r.trappol 0 = true ∧ ¬ bit r.handler 31 = true)
  | 15 => auditBad s r.audit ((mapOf s d p r.mapVa r.strings).getD [])
  | 16 => decide (diemask.toNat ≥ 256)
  | _ => false

theorem refusal_eq_firstOf (s : State) (d p : Nat) (host : Bool) (diemask : BitVec 16) (r : LrRaw) :
    refusal s d p host diemask r = firstOf (refuses s d p host diemask r) 16 1 := by
  simp only [refusal, firstOf, refuses, decide_eq_true_eq, Bool.not_eq_true', Bool.not_eq_true]

theorem keyh_taken_iff (s : State) (h : Word) :
    decide (h ≠ 0 ∧ ¬ keySealed s h = true) = false ↔ (h ≠ 0 → keySealed s h = true) := by
  rw [decide_eq_false_iff_not, not_and, not_not]

theorem handler_taken_iff (a b : Bool) : decide (a = true ∧ ¬ b = true) = false ↔ (a = true → b = true) := by
  rw [decide_eq_false_iff_not, not_and, not_not]

theorem audit_taken_iff (s : State) (a : Word) (map : Option (List Nat)) : auditBad s a (map.getD []) = false ↔
    (bit a 20 = true → fld a 19 0 < ttCount s ∧ (getGen s (fld a 19 0)).state = 5) ∧
      (fld a 31 24 ≠ 0 → ∀ m, map = some m → ∀ c ∈ m, bit (getCore s c).ckptBase 0 = true) := by
  rw [auditBad_eq_false_iff]
  cases map <;> simp

end Sys2Proof.Machine
end

section
/-!
SUPPORT. The bind records of a partition (R209, R210): what changing them all leaves, and what it makes of each.
-/
namespace Sys2Proof.Machine

/-! ## Frames -/

/-- Changing bind records changes nothing but the dies. -/
theorem foldl_modBind_rest (f : Bind → Bind) (l : List (Nat × Nat)) : ∀ s : State,
    { l.foldl (fun s x => modBind s x.1 x.2 f) s with dies := s.dies } = s := by
  induction l with
  | nil => intro s; rfl
  | cons x r ih =>
    intro s
    exact (congrArg (fun z : State => { z with dies := s.dies }) (ih (modBind s x.1 x.2 f)) :)

theorem modBinds_rest (s : State) (p : Nat) (ok : BindState → Bool) (f : Bind → Bind) :
    { modBinds s p ok f with dies := s.dies } = s := foldl_modBind_rest f _ s

theorem getDie_of_dies {s t : State} (h : t.dies = s.dies) (d : Nat) : getDie t d = getDie s d := by rw [getDie, getDie, h]

theorem getBind_of_dies {s t : State} (h : t.dies = s.dies) (d i : Nat) : getBind t d i = getBind s d i := by
  rw [getBind, getBind, getDie_of_dies h]

theorem bindsOf_of_dies {s t : State} (h : t.dies = s.dies) (p : Nat) (ok : BindState → Bool) : bindsOf t p ok = bindsOf s p ok := by
  unfold bindsOf
  simp only [getDie_of_dies h]

theorem foldl_modBind_dies (f : Bind → Bind) (l : List (Nat × Nat)) : ∀ s t : State, t.dies = s.dies →
    (l.foldl (fun s x => modBind s x.1 x.2 f) t).dies = (l.foldl (fun s x => modBind s x.1 x.2 f) s).dies := by
  induction l with
  | nil => exact fun _ _ h => h
  | cons x r ih =>
    intro s t h
    refine ih _ _ ?_
    change (modBind t x.1 x.2 f).dies = (modBind s x.1 x.2 f).dies
    rw [modBind, modBind, modDie, modDie, getDie_of_dies h, h]

/-- What becomes of the bind records depends on the dies alone. -/
theorem modBinds_dies {s t : State} (h : t.dies = s.dies) (p : Nat) (ok : BindState → Bool) (f : Bind → Bind) :
    (modBinds t p ok f).dies = (modBinds s p ok f).dies := by
  rw [modBinds, modBinds, bindsOf_of_dies h]
  exact foldl_modBind_dies f _ s t h

/-! ## Each record -/

/-- A change that made twice is made once, of a list of records. -/
theorem getBind_foldl_modBind {f : Bind → Bind} (hf : ∀ b, f (f b) = f b) (d i : Nat) (l : List (Nat × Nat)) : ∀ s : State,
    getBind (l.foldl (fun s x => modBind s x.1 x.2 f) s) d i = if (d, i) ∈ l then f (getBind s d i) else getBind s d i := by
  induction l with
  | nil => intro s; simp
  | cons x r ih =>
    intro s
    rw [List.foldl_cons, ih, getBind_modBind]
    by_cases hx : d = x.1 ∧ i = x.2
    · obtain ⟨rfl, rfl⟩ := hx
      simp [hf]
    · have hne : (d, i) ≠ x := fun h => hx ⟨congrArg Prod.fst h, congrArg Prod.snd h⟩
      simp [hx, hne]

theorem getBind_modBinds {f : Bind → Bind} (hf : ∀ b, f (f b) = f b) (s : State) (p : Nat) (ok : BindState → Bool) (d i : Nat) :
    getBind (modBinds s p ok f) d i = if (d, i) ∈ bindsOf s p ok then f (getBind s d i) else getBind s d i :=
  getBind_foldl_modBind hf d i _ s

theorem mem_bindsOf {s : State} {p : Nat} {ok : BindState → Bool} {d i : Nat} :
    (d, i) ∈ bindsOf s p ok ↔ d < 8 ∧ ∃ b, (i, b) ∈ (getDie s d).binds ∧ b.part = p ∧ ok b.state = true := by
  simp only [bindsOf, List.mem_flatMap, List.mem_range, List.mem_map, List.mem_filter, Bool.and_eq_true, decide_eq_true_eq,
    Prod.mk.injEq]
  constructor
  · rintro ⟨d', hd, e, ⟨he, hp, ho⟩, rfl, rfl⟩
    exact ⟨hd, e.2, he, hp, ho⟩
  · rintro ⟨hd, b, hb, hp, ho⟩
    exact ⟨d, hd, (i, b), ⟨hb, hp, ho⟩, rfl, rfl⟩

/-- Of numbers listed once each, what is listed is what is read. -/
theorem spGet_of_mem {α : Type} (d : α) {m : Sparse α} {n : Nat} {v : α} (hn : (m.map (·.1)).Nodup) (h : (n, v) ∈ m) :
    spGet d m n = v := by
  induction m with
  | nil => cases h
  | cons x r ih =>
    obtain ⟨k, y⟩ := x
    rw [List.map_cons, List.nodup_cons] at hn
    rcases List.mem_cons.mp h with heq | hr
    · obtain ⟨rfl, rfl⟩ := Prod.mk.inj heq
      simp [spGet]
    · have hk : k ≠ n := fun hk => hn.1 (hk ▸ List.mem_map_of_mem (f := (·.1)) hr)
      rw [spGet, if_neg hk, ih hn.2 hr]

/-- A record of a partition is as it reads, where no die lists a slot twice. -/
theorem getBind_of_mem_bindsOf {s : State} {p : Nat} {ok : BindState → Bool} {d i : Nat}
    (hn : ∀ e < 8, ((getDie s e).binds.map (·.1)).Nodup) (h : (d, i) ∈ bindsOf s p ok) :
    d < 8 ∧ (getBind s d i).part = p ∧ ok (getBind s d i).state = true := by
  obtain ⟨hd, b, hb, hp, ho⟩ := mem_bindsOf.mp h
  rw [getBind, spGet_of_mem Bind.zero (hn d hd) hb]
  exact ⟨hd, hp, ho⟩

/-- A dispatched record that a timed start takes (R210, R212). -/
def Bind.launch (b : Bind) : Bind := { b with launched := true }

/-- Its start (R212). -/
def Bind.start (b : Bind) : Bind := if b.launched then { b with state := .running, launched := false } else b

theorem Bind.start_start (b : Bind) : b.start.start = b.start := by
  unfold Bind.start
  split_ifs <;> rfl

/-- The armed records of a dispatched task (R210, R212). -/
theorem getBind_launch {s : State} {p d i : Nat} (hn : ∀ e < 8, ((getDie s e).binds.map (·.1)).Nodup)
    (h : (d, i) ∈ bindsOf s p fun y => decide (y = .armed)) :
    (getBind (modBinds s p (fun y => decide (y = .armed)) Bind.launch) d i).state = .armed ∧
    (getBind (modBinds s p (fun y => decide (y = .armed)) Bind.launch) d i).launched = true ∧
    (d, i) ∈ bindsOf (modBinds s p (fun y => decide (y = .armed)) Bind.launch) p fun y => decide (y = .armed) := by
  obtain ⟨hd, hp, harmed⟩ := getBind_of_mem_bindsOf hn h
  have hget := getBind_modBinds (f := Bind.launch) (fun _ => rfl) s p (fun y => decide (y = .armed)) d i
  rw [if_pos h] at hget
  have hstate : (getBind s d i).launch.state = .armed := of_decide_eq_true harmed
  refine ⟨by rw [hget, hstate], by rw [hget]; rfl, mem_bindsOf.mpr ⟨hd, (getBind s d i).launch, ?_, hp, harmed⟩⟩
  rw [← hget]
  refine (spGet_mem_or_default _ _ _).resolve_right fun hz => ?_
  have hlaunched := congrArg Bind.launched (hget.symm.trans hz)
  cases hlaunched

/-- The running records of a task that has started (R210, R212). -/
theorem getBind_start {s : State} {p d i : Nat} (h : (d, i) ∈ bindsOf s p fun y => decide (y = .armed))
    (hl : (getBind s d i).launched = true) :
    (getBind (modBinds s p (fun y => decide (y = .armed)) Bind.start) d i).state = .running ∧
    (getBind (modBinds s p (fun y => decide (y = .armed)) Bind.start) d i).launched = false := by
  rw [getBind_modBinds Bind.start_start, if_pos h, Bind.start, if_pos hl]
  exact ⟨rfl, rfl⟩

end Sys2Proof.Machine
end

section
/-!
SUPPORT. Setting up the cores of a task, and latching the power states at its start (R31, R185, R205).
-/
namespace Sys2Proof.Machine

/-! ## The power latches (R185) -/

/-- PWRSTATE latched on the core of logical number `n`. -/
def latchStep (p k : Nat) (s : State) (n : Nat) : State :=
  let c := ((partCores s p)[n]?).getD 0
  let kept := spGet [] (getPart s p).latches k
  let v := (spFind kept n).getD (getStr s (strOf c)).pwr
  let s := modCore s c fun x => { x with pwrLatch := v }
  modPart s p fun x => { x with latches := spSet x.latches k (spSet (spGet [] x.latches k) n v) }

theorem latchPower_eq_foldl (s : State) (p k : Nat) :
    latchPower s p k = (List.range (partCores s p).length).foldl (latchStep p k) s := rfl

/-- The state once the first `n` logical cores are latched, where no latch was kept. -/
structure Latched (s : State) (p k n : Nat) (t : State) : Prop where
  rest : { t with cores := s.cores, parts := s.parts } = s
  part : { getPart t p with latches := (getPart s p).latches } = getPart s p
  kept : ∀ m, n ≤ m → spFind (spGet [] (getPart t p).latches k) m = none
  cores : ∀ c, getCore t c =
    if c ∈ (partCores s p).take n then { getCore s c with pwrLatch := (getStr s (strOf c)).pwr } else getCore s c

theorem Latched.step {s t : State} {p k n : Nat} (h : Latched s p k n t) (hn : n < (partCores s p).length) :
    Latched s p k (n + 1) (latchStep p k t n) := by
  have hcores : partCores t p = partCores s p := by
    have he : (getPart t p).evicted = (getPart s p).evicted := (congrArg Part.evicted h.part :)
    have hm : (getPart t p).lmap = (getPart s p).lmap := (congrArg Part.lmap h.part :)
    rw [partCores, partCores, he, hm]
  have hstr : ∀ m, getStr t m = getStr s m := fun m => by
    have : t.strings = s.strings := (congrArg State.strings h.rest :)
    rw [getStr, getStr, this]
  have hstep : latchStep p k t n = modPart (modCore t (partCores s p)[n] fun x =>
      { x with pwrLatch := (getStr s (strOf (partCores s p)[n])).pwr }) p fun x =>
        { x with latches := spSet x.latches k (spSet (spGet [] x.latches k) n (getStr s (strOf (partCores s p)[n])).pwr) } := by
    simp only [latchStep, hcores, List.getElem?_eq_getElem hn, Option.getD_some, h.kept n le_rfl, Option.getD_none, hstr]
  rw [hstep]
  refine ⟨h.rest, ?_, fun m hm => ?_, fun c => ?_⟩
  · rw [getPart_modPart_self]
    exact h.part
  · rw [getPart_modPart_self]
    simp only [spGet_spSet_self, spFind_spSet]
    rw [if_neg (by omega)]
    exact h.kept m (by omega)
  · have hmem : c ∈ (partCores s p).take (n + 1) ↔ c ∈ (partCores s p).take n ∨ c = (partCores s p)[n] := by
      rw [List.take_succ_eq_append_getElem hn, List.mem_append, List.mem_singleton]
    rw [getCore_modPart, getCore_modCore, h.cores, h.cores]
    by_cases hc : c = (partCores s p)[n]
    · rw [if_pos hc, if_pos (hmem.mpr (.inr hc)), ← hc]
      split_ifs <;> rfl
    · rw [if_neg hc]
      exact if_congr (hmem.trans (or_iff_left hc)).symm rfl rfl

theorem latched_foldl {s : State} {p k : Nat} (hk : spGet [] (getPart s p).latches k = []) (n : Nat)
    (hn : n ≤ (partCores s p).length) : Latched s p k n ((List.range n).foldl (latchStep p k) s) := by
  induction n with
  | zero => exact ⟨rfl, rfl, fun m _ => by rw [List.range_zero, List.foldl_nil, hk]; rfl, fun c => by simp⟩
  | succ n ih =>
    rw [List.range_succ, List.foldl_append, List.foldl_cons, List.foldl_nil]
    exact (ih (by omega)).step hn

/-- PWRSTATE latched on every core of a partition where no latch of the superstep was kept (R185). -/
theorem latched_latchPower {s : State} {p k : Nat} (hk : spGet [] (getPart s p).latches k = []) :
    Latched s p k (partCores s p).length (latchPower s p k) := latched_foldl hk _ le_rfl

/-! ## The start (R190, R205, R210, R212) -/

/-- The start of a partition's dispatched records and cores, where no latch of superstep 0 was kept. -/
structure Started (s : State) (p : Nat) (t : State) : Prop where
  rest : { t with cores := s.cores, parts := s.parts, dies := s.dies } = s
  dies : t.dies = (modBinds s p (fun y => decide (y = .armed)) Bind.start).dies
  part : { getPart t p with latches := (getPart s p).latches } =
    { getPart s p with st := .compute, waitStart := false, stragAt := s.time, stragPosted := false }
  cores : ∀ c, getCore t c = if c ∈ (getPart s p).lmap then { getCore s c with pwrLatch := (getStr s (strOf c)).pwr } else getCore s c

theorem started_startBinds {s : State} {p : Nat} (he : (getPart s p).evicted = false) (hk : (getPart s p).latches = []) :
    Started s p (startBinds s p) := by
  have hbinds := modBinds_rest s p (fun y => decide (y = .armed)) Bind.start
  have hstart : startBinds s p = modPart (latchPower (modBinds s p (fun y => decide (y = .armed)) Bind.start) p 0) p fun x =>
      { x with st := .compute, waitStart := false, stragAt := (latchPower (modBinds s p (fun y => decide (y = .armed)) Bind.start) p 0).time
               stragPosted := false } := rfl
  set b := modBinds s p (fun y => decide (y = .armed)) Bind.start
  have hpart : getPart b p = getPart s p := (congrArg (fun z : State => getPart z p) hbinds :)
  have hcore : ∀ c, getCore b c = getCore s c := fun c => (congrArg (fun z : State => getCore z c) hbinds :)
  have hstr : ∀ n, getStr b n = getStr s n := fun n => (congrArg (fun z : State => getStr z n) hbinds :)
  have hcores : partCores b p = (getPart s p).lmap := by rw [partCores, hpart, if_neg (by rw [he]; exact Bool.false_ne_true)]
  have hlatch := latched_latchPower (s := b) (p := p) (k := 0) (by rw [hpart, hk]; rfl)
  set u := latchPower b p 0
  have htime : u.time = s.time := (congrArg State.time hlatch.rest :).trans (congrArg State.time hbinds :)
  rw [hstart]
  refine ⟨?_, (congrArg State.dies hlatch.rest :), ?_, fun c => ?_⟩
  · exact (congrArg (fun z : State => { z with dies := s.dies, cores := s.cores, parts := s.parts }) hlatch.rest :).trans
      (congrArg (fun z : State => { z with cores := s.cores, parts := s.parts }) hbinds :)
  · rw [getPart_modPart_self, htime]
    have hlatches := hlatch.part
    rw [hpart] at hlatches
    exact congrArg (fun z : Part => { z with st := .compute, waitStart := false, stragAt := s.time, stragPosted := false }) hlatches
  · rw [getCore_modPart, hlatch.cores, hcores, hcore, hstr, List.take_of_length_le le_rfl]

end Sys2Proof.Machine
end

section
/-!
SUPPORT. What dispatch of an accepted record does (R29, R31, R139, R205).
-/
namespace Sys2Proof.Machine

/-! ## A core at the start of a task (R29, R31, R139) -/

theorem spGet_foldl_spPut {d : Word} (f : Nat → Word) (n : Nat) : ∀ k < n,
    spGet d ((List.range n).foldl (fun m i => spPut d m i (f i)) []) k = f k := by
  induction n with
  | zero => intro k hk; omega
  | succ n ih =>
    intro k hk
    rw [List.range_succ, List.foldl_append, List.foldl_cons, List.foldl_nil, spGet_spPut]
    split_ifs with h
    · rw [h]
    · exact ih k (by omega)

theorem startCore_group (p n : Nat) (l : Launch) (img : Mem) (co : Core) {g : Nat} (hg : g < l.groups) :
    (startCore p n l img co).group g = startGroup l :=
  spGet_map Group.zero (fun _ => startGroup l) (List.range l.groups) g (List.mem_range.mpr hg)

theorem startGroup_k (l : Launch) (n : Fin 16) : spGet 0 (startGroup l).k n = l.k.getD n 0 :=
  spGet_foldl_spPut (fun i => l.k.getD i 0) 16 n n.isLt

theorem startGroup_seg (l : Launch) (n : Fin 4) : spGet 0 (startGroup l).seg n = l.segw.getD n 0 :=
  spGet_foldl_spPut (fun i => l.segw.getD i 0) 4 n n.isLt

theorem startGroup_lane (l : Launch) {j : Nat} (hj : j < 32) : (startGroup l).lane j = startLane l :=
  spGet_map Lane.zero (fun _ => startLane l) (List.range 32) j (List.mem_range.mpr hj)

/-! ## Setting up every core of a map (R205) -/

/-- The state once the first `n` cores of a map are set up. -/
structure SetUp (s : State) (p : Nat) (map : List Nat) (l : Launch) (img : Mem) (n : Nat) (t : State) : Prop where
  rest : { t with cores := s.cores } = s
  cores : ∀ c, getCore t c = if map.idxOf c < n then startCore p (map.idxOf c) l img (getCore s c) else getCore s c

theorem setUp_foldl (s : State) (p : Nat) {map : List Nat} (hmap : map.Nodup) (l : Launch) (img : Mem) (n : Nat) (hn : n ≤ map.length) :
    SetUp s p map l img n ((List.range n).foldl (fun s n => modCore s (map.getD n 0) (startCore p n l img)) s) := by
  induction n with
  | zero => exact ⟨rfl, fun c => by simp⟩
  | succ n ih =>
    have hlt : n < map.length := hn
    obtain ⟨hrest, hcores⟩ := ih hlt.le
    have hget : map.getD n 0 = map[n] := by simp [hlt]
    have hidx : map.idxOf map[n] = n := hmap.idxOf_getElem n hlt
    rw [List.range_succ, List.foldl_append, List.foldl_cons, List.foldl_nil, hget]
    refine ⟨hrest, fun c => ?_⟩
    rw [getCore_modCore]
    by_cases hc : c = map[n]
    · rw [if_pos hc, hc, hcores, hidx, if_neg (lt_irrefl n), if_pos (Nat.lt_succ_self n)]
    · have hne : map.idxOf c ≠ n := by
        rintro h
        have hlt' : map.idxOf c < map.length := h ▸ hlt
        have := List.getElem_idxOf hlt'
        exact hc (by rw [← this]; simp only [h])
      rw [if_neg hc, hcores]
      exact if_congr (by omega) rfl rfl

theorem setUp_setupCores {s : State} {p : Nat} {map : List Nat} (hmap : map.Nodup) (hm : (getPart s p).lmap = map) {l : Launch}
    (hl : (getPart s p).launch = some l) :
    SetUp (clearTags s p) p map l (imageOf s (homeDie (getPart s p)) p l) map.length (setupCores s p) := by
  have h := setUp_foldl (clearTags s p) p hmap l (imageOf s (homeDie (getPart s p)) p l) map.length le_rfl
  unfold setupCores
  simp only [hm, hl, Option.getD_some]
  exact h

/-! ## An accepted record (R203 to R205) -/

theorem foldl_modStr_rest (f : StringSt → StringSt) (l : List Nat) : ∀ s : State,
    { l.foldl (fun s n => modStr s n f) s with strings := s.strings } = s := by
  induction l with
  | nil => intro s; rfl
  | cons n r ih =>
    intro s
    exact (congrArg (fun z : State => { z with strings := s.strings }) (ih (modStr s n f)) :)

theorem getStr_foldl_modStr {f : StringSt → StringSt} (hf : ∀ x, f (f x) = f x) (n : Nat) (l : List Nat) : ∀ s : State,
    getStr (l.foldl (fun s n => modStr s n f) s) n = if n ∈ l then f (getStr s n) else getStr s n := by
  induction l with
  | nil => intro s; simp
  | cons m r ih =>
    intro s
    rw [List.foldl_cons, ih, getStr_modStr]
    by_cases hm : n = m
    · subst hm
      simp [hf]
    · simp [hm]

/-- The key of a launch record is bound, and measured with the record (R205, R431, R437). -/
def bindKey (s : State) (d p : Nat) (va : Word) (r : LrRaw) : State :=
  if r.keyh = 0 then s
  else extendMeas (modKey s (fld r.keyh 5 0) fun k => { k with bound := true }) 6 (shake512 ((readVa s d p va.toNat 256).getD []))

theorem bindKey_rest (s : State) (d p : Nat) (va : Word) (r : LrRaw) : { bindKey s d p va r with gran := s.gran } = s := by
  unfold bindKey
  split_ifs <;> rfl

theorem bindKey_taskCtr (s : State) (d p : Nat) (va : Word) (r : LrRaw) : (bindKey s d p va r).gran.taskCtr = s.gran.taskCtr := by
  unfold bindKey
  split_ifs <;> rfl

/-- The partition, the task counter and the strings of an accepted record. -/
def taken (s : State) (d p : Nat) (va : Word) (r : LrRaw) : State :=
  r.strings.foldl (fun s n => modStr s n fun x => { x with part := some p })
    (modGran (modPart s p fun x => freshPart x s.gran.taskCtr r.strings ((mapOf s d p r.mapVa r.strings).getD []) (r.keep va)
      ((r.keep va).timed && decide ((r.keep va).start.toNat < s.time)) s.time) fun g => { g with taskCtr := g.taskCtr + 1 })

/-- The state in which the cores of an accepted record are set up. -/
def prepared (s : State) (d p : Nat) (va : Word) (r : LrRaw) : State := bindKey (taken s d p va r) d p va r

/-- An accepted record whose cores are set up, and its bind records marked as dispatched. -/
def dispatched (s : State) (d p : Nat) (va : Word) (r : LrRaw) : State :=
  modBinds (setupCores (prepared s d p va r) p) p (fun y => decide (y = .armed)) Bind.launch

theorem launchTask_eq (s : State) (d p : Nat) (va : Word) (r : LrRaw) : launchTask s d p va r =
    if (r.keep va).timed then dispatched s d p va r else startBinds (dispatched s d p va r) p := rfl

/-- What an accepted record leaves before its cores are set up. -/
structure Prepared (s : State) (d p : Nat) (va : Word) (r : LrRaw) (t : State) : Prop where
  cores : t.cores = s.cores
  dies : t.dies = s.dies
  time : t.time = s.time
  taskCtr : t.gran.taskCtr = s.gran.taskCtr + 1
  part : getPart t p = freshPart (getPart s p) s.gran.taskCtr r.strings ((mapOf s d p r.mapVa r.strings).getD []) (r.keep va)
    ((r.keep va).timed && decide ((r.keep va).start.toNat < s.time)) s.time
  strings : ∀ n, getStr t n = if n ∈ r.strings then { getStr s n with part := some p } else getStr s n

theorem prepared_spec (s : State) (d p : Nat) (va : Word) (r : LrRaw) : Prepared s d p va r (prepared s d p va r) := by
  have hkey := bindKey_rest (taken s d p va r) d p va r
  have htaken := foldl_modStr_rest (fun x => { x with part := some p }) r.strings
    (modGran (modPart s p fun x => freshPart x s.gran.taskCtr r.strings ((mapOf s d p r.mapVa r.strings).getD []) (r.keep va)
      ((r.keep va).timed && decide ((r.keep va).start.toNat < s.time)) s.time) fun g => { g with taskCtr := g.taskCtr + 1 })
  constructor
  · exact (congrArg State.cores hkey :).trans (congrArg State.cores htaken :)
  · exact (congrArg State.dies hkey :).trans (congrArg State.dies htaken :)
  · exact (congrArg State.time hkey :).trans (congrArg State.time htaken :)
  · exact (bindKey_taskCtr ..).trans (congrArg (fun z : State => z.gran.taskCtr) htaken :)
  · refine (congrArg (fun z : State => getPart z p) hkey :).trans ((congrArg (fun z : State => getPart z p) htaken :).trans ?_)
    rw [getPart_modGran, getPart_modPart_self]
  · intro n
    exact (congrArg (fun z : State => getStr z n) hkey :).trans
      (getStr_foldl_modStr (f := fun x => { x with part := some p }) (fun _ => rfl) n r.strings _)

/-- What an accepted record leaves whose task does not start yet. -/
structure Dispatched (s : State) (d p : Nat) (va : Word) (r : LrRaw) (map : List Nat) (t : State) : Prop where
  dies : t.dies = (modBinds s p (fun y => decide (y = .armed)) Bind.launch).dies
  time : t.time = s.time
  taskCtr : t.gran.taskCtr = s.gran.taskCtr + 1
  part : getPart t p = freshPart (getPart s p) s.gran.taskCtr r.strings map (r.keep va)
    ((r.keep va).timed && decide ((r.keep va).start.toNat < s.time)) s.time
  strings : ∀ n, getStr t n = if n ∈ r.strings then { getStr s n with part := some p } else getStr s n
  cores : ∃ img, ∀ c, getCore t c =
    if map.idxOf c < map.length then startCore p (map.idxOf c) (r.keep va) img (getCore s c) else getCore s c

theorem dispatched_spec {s : State} {d p : Nat} {va : Word} {r : LrRaw} {map : List Nat}
    (hmap : mapOf s d p r.mapVa r.strings = some map) (hn : map.Nodup) : Dispatched s d p va r map (dispatched s d p va r) := by
  obtain ⟨hcores, hdies, htime, htask, hpart, hstrings⟩ := prepared_spec s d p va r
  unfold dispatched
  generalize prepared s d p va r = u at hcores hdies htime htask hpart hstrings ⊢
  rw [hmap, Option.getD_some] at hpart
  have hset := setUp_setupCores hn (s := u) (p := p) (by rw [hpart]; rfl) (l := r.keep va) (by rw [hpart]; rfl)
  have hcore : ∀ c, getCore (clearTags u p) c = getCore s c := fun c => by
    change getCore u c = _
    rw [getCore, getCore, hcores]
  obtain ⟨hrest, hsetup⟩ := hset
  generalize setupCores u p = v at hrest hsetup ⊢
  have hvdies : v.dies = u.dies := (congrArg State.dies hrest :)
  have hbinds := modBinds_rest v p (fun y => decide (y = .armed)) Bind.launch
  refine ⟨modBinds_dies (hvdies.trans hdies) p _ _, ?_, ?_, ?_, fun n => ?_, ?_⟩
  · exact (congrArg State.time hbinds :).trans ((congrArg State.time hrest :).trans htime)
  · exact (congrArg (fun z : State => z.gran.taskCtr) hbinds :).trans ((congrArg (fun z : State => z.gran.taskCtr) hrest :).trans htask)
  · exact (congrArg (fun z : State => getPart z p) hbinds :).trans ((congrArg (fun z : State => getPart z p) hrest :).trans hpart)
  · exact (congrArg (fun z : State => getStr z n) hbinds :).trans ((congrArg (fun z : State => getStr z n) hrest :).trans (hstrings n))
  · refine ⟨imageOf u (homeDie (getPart u p)) p (r.keep va), fun c => ?_⟩
    exact (congrArg (fun z : State => getCore z c) hbinds :).trans (by rw [hsetup, hcore])

end Sys2Proof.Machine
end

section
/-!
PROOF. Dispatch, its refusals, and timed starts (R203 to R205, R210, R212).
-/
namespace Sys2Proof.Machine

/-! ## A task that starts at once or waits for START -/
/-- What dispatch of an accepted record does, whether its task starts at once or waits for START. -/
structure Launches (s : State) (p : Nat) (va : Word) (r : LrRaw) (map : List Nat) (t : State) : Prop where
  part : { getPart t p with latches := [], st := .idle, waitStart := (r.keep va).timed, stragAt := 0, stragPosted := false } =
    freshPart (getPart s p) s.gran.taskCtr r.strings map (r.keep va) ((r.keep va).timed && decide ((r.keep va).start.toNat < s.time)) s.time
  taskCtr : t.gran.taskCtr = s.gran.taskCtr + 1
  strings : ∀ n, getStr t n = if n ∈ r.strings then { getStr s n with part := some p } else getStr s n
  outside : ∀ c, c ∉ map → getCore t c = getCore s c
  inside : ∃ img, ∀ n c, map[n]? = some c →
    { getCore t c with pwrLatch := (getCore s c).pwrLatch } = startCore p n (r.keep va) img (getCore s c)
  waits : (r.keep va).timed = true → (getPart t p).st = .idle ∧ (getPart t p).waitStart = true
  runs : (r.keep va).timed = false → ((getPart t p).st = .compute ∧ (getPart t p).stragAt = s.time) ∧
    ∀ c ∈ map, (getCore t c).pwrLatch = (getStr s (strOf c)).pwr
  binds : (∀ e < 8, ((getDie s e).binds.map (·.1)).Nodup) → ∀ e ∈ bindsOf s p (fun y => decide (y = .armed)),
    (getBind t e.1 e.2).state = (if (r.keep va).timed then .armed else .running) ∧
      (getBind t e.1 e.2).launched = (r.keep va).timed

theorem launches_launchTask {s : State} {d p : Nat} {va : Word} {r : LrRaw} {map : List Nat}
    (hmap : mapOf s d p r.mapVa r.strings = some map) (hnodup : map.Nodup) : Launches s p va r map (launchTask s d p va r) := by
  obtain ⟨hdies, htime, htask, hpart, hstrings, img, hcores⟩ := dispatched_spec (va := va) hmap hnodup
  have harmed : (∀ e < 8, ((getDie s e).binds.map (·.1)).Nodup) → ∀ e ∈ bindsOf s p (fun y => decide (y = .armed)),
      (getBind (dispatched s d p va r) e.1 e.2).state = .armed ∧ (getBind (dispatched s d p va r) e.1 e.2).launched = true ∧
        (e.1, e.2) ∈ bindsOf (dispatched s d p va r) p fun y => decide (y = .armed) := by
    intro hn e he
    rw [getBind_of_dies hdies, bindsOf_of_dies hdies]
    exact getBind_launch hn he
  rw [launchTask_eq]
  generalize dispatched s d p va r = u at hdies htime htask hpart hstrings hcores harmed ⊢
  have hout : ∀ c, c ∉ map → getCore u c = getCore s c := fun c hc => by
    rw [hcores, if_neg (fun h => hc (List.idxOf_lt_length_iff.mp h))]
  have hin : ∀ n c, map[n]? = some c → getCore u c = startCore p n (r.keep va) img (getCore s c) := fun n c hc => by
    obtain ⟨hlt, hget⟩ := List.getElem?_eq_some_iff.mp hc
    have hidx : map.idxOf c = n := hget ▸ hnodup.idxOf_getElem n hlt
    rw [hcores, hidx, if_pos hlt]
  cases htimed : (r.keep va).timed with
  | true =>
    rw [if_pos rfl]
    refine ⟨?_, htask, hstrings, hout, ⟨img, fun n c hc => ?_⟩, fun _ => ?_, fun h => ?_, fun hn e he => ?_⟩
    · rw [hpart]; rfl
    · rw [hin n c hc]; rfl
    · rw [hpart]
      exact ⟨rfl, htimed⟩
    · rw [htimed] at h; cases h
    · obtain ⟨hstate, hlaunched, -⟩ := harmed hn e he
      rw [htimed, if_pos rfl]
      exact ⟨hstate, hlaunched⟩
  | false =>
    rw [if_neg Bool.false_ne_true]
    have hstart := started_startBinds (s := u) (p := p) (by rw [hpart]; rfl) (by rw [hpart]; rfl)
    have hlmap : (getPart u p).lmap = map := by rw [hpart]; rfl
    have hpwr : ∀ n, (getStr u n).pwr = (getStr s n).pwr := fun n => by
      rw [hstrings]
      split_ifs <;> rfl
    generalize startBinds u p = t at hstart ⊢
    refine ⟨?_, ?_, fun n => ?_, fun c hc => ?_, ⟨img, fun n c hc => ?_⟩, fun h => ?_,
      fun _ => ⟨⟨?_, ?_⟩, fun c hc => ?_⟩, fun hn e he => ?_⟩
    · have hp := hstart.part
      rw [hpart] at hp
      exact (congrArg (fun z : Part => { z with
        latches := [], st := .idle, waitStart := (r.keep va).timed, stragAt := 0, stragPosted := false }) hp :)
    · exact (congrArg (fun z : State => z.gran.taskCtr) hstart.rest :).trans htask
    · exact (congrArg (fun z : State => getStr z n) hstart.rest :).trans (hstrings n)
    · rw [hstart.cores, hlmap, if_neg hc, hout c hc]
    · rw [hstart.cores, hlmap, if_pos (List.mem_of_getElem? hc), hin n c hc]
      rfl
    · rw [htimed] at h; cases h
    · exact (congrArg Part.st hstart.part :)
    · exact (congrArg Part.stragAt hstart.part :).trans htime
    · rw [hstart.cores, hlmap, if_pos hc]
      exact hpwr _
    · obtain ⟨-, hlaunched, hmem⟩ := harmed hn e he
      rw [htimed, if_neg Bool.false_ne_true, getBind_of_dies hstart.dies]
      exact getBind_start hmem hlaunched

/-! ## Refused and accepted records -/

theorem refuses_range {s : State} {d p : Nat} {host : Bool} {diemask : BitVec 16} {r : LrRaw} {k : Nat}
    (h : refuses s d p host diemask r k = true) : 1 ≤ k ∧ k < 1 + 16 := by
  match k with
  | 0 | n + 17 => cases h
  | 1 | 2 | 3 | 4 | 5 | 6 | 7 | 8 | 9 | 10 | 11 | 12 | 13 | 14 | 15 | 16 => exact ⟨by omega, by omega⟩

section
variable {s : State} {part : Fin 256} {d i : Nat} {rest : List (Nat × Nat)} {r : LrRaw}

/-- A record that fails a case of R203 is refused, with its partition's other records (R203, R209). -/
theorem execDispatch_refused (hrecs : (bindsOf s part fun y => decide (y = .armed)) = (d, i) :: rest)
    (hfree : (getPart s part).st = .idle ∧ (getPart s part).launch = none) (hlr : readLr s d part (getBind s d i).lrVa = some r)
    {cause : Nat} (h : refusal s d part (getBind s d i).host (diesOf s ((d, i) :: rest)) r = some cause) :
    execDispatch part s = .next (((d, i) :: rest).foldl (fun s x => refuseBind s x.1 x.2 cause) s) := by
  have hfree' : partFree (getPart s part) = true := by rw [partFree, hfree.1, hfree.2]; rfl
  simp only [execDispatch, hrecs, hfree', not_true_eq_false, if_false, hlr, h]

/-- A record that fails none starts its task (R203, R205). -/
theorem execDispatch_accepted (hrecs : (bindsOf s part fun y => decide (y = .armed)) = (d, i) :: rest)
    (hfree : (getPart s part).st = .idle ∧ (getPart s part).launch = none) (hlr : readLr s d part (getBind s d i).lrVa = some r)
    (h : refusal s d part (getBind s d i).host (diesOf s ((d, i) :: rest)) r = none) :
    execDispatch part s = .next (launchTask s d part (getBind s d i).lrVa r) := by
  have hfree' : partFree (getPart s part) = true := by rw [partFree, hfree.1, hfree.2]; rfl
  simp only [execDispatch, hrecs, hfree', not_true_eq_false, if_false, hlr, h]

end

/-- The registers of a core set up for a task, whatever power state it latches (R31, R205). -/
theorem startCore_registers {p n : Nat} {l : Launch} {img : Mem} {co z : Core}
    (h : { z with pwrLatch := co.pwrLatch } = startCore p n l img co) :
    z.part = some p ∧ z.lcore = n ∧ z.ngroups = l.groups ∧ z.pst = .compute ∧ z.exch = Exch.zero ∧
      z.eng = Engine.zero ∧ z.asy = Assay.zero ∧ z.alogq = l.alogq ∧ z.xq = l.xq ∧ z.noteq = l.noteq ∧ z.bars = [] ∧
      z.flog = co.flog ∧ z.energy = l.energy ∧ z.peak = l.peak :=
  ⟨(congrArg Core.part h :), (congrArg Core.lcore h :), (congrArg Core.ngroups h :), (congrArg Core.pst h :),
    (congrArg Core.exch h :), (congrArg Core.eng h :), (congrArg Core.asy h :), (congrArg Core.alogq h :), (congrArg Core.xq h :),
    (congrArg Core.noteq h :), (congrArg Core.bars h :), (congrArg Core.flog h :), (congrArg Core.energy h :), (congrArg Core.peak h :)⟩

/-- The groups of a core set up for a task (R29, R139). -/
theorem startCore_groups {p n : Nat} {l : Launch} {img : Mem} {co z : Core}
    (h : { z with pwrLatch := co.pwrLatch } = startCore p n l img co)
    {g : Nat} (hg : g < l.groups) : (∀ n : Fin 16, spGet 0 (z.group g).k n = l.k.getD n 0) ∧
      (∀ n : Fin 4, spGet 0 (z.group g).seg n = l.segw.getD n 0) ∧
      (z.group g).trapvec = l.handler.setWidth 64 ∧ (z.group g).flags = [] ∧ (z.group g).c0 = none ∧ (z.group g).c1 = none ∧
      ∀ j < 32, (z.group g).lane j = { Lane.zero with pc := l.entry, fstat := if l.dztrap then 0x10000 else 0 } := by
  have hgroup : z.group g = startGroup l := (congrArg (fun c : Core => c.group g) h :).trans (startCore_group p n l img co hg)
  rw [hgroup]
  exact ⟨startGroup_k l, startGroup_seg l, rfl, rfl, rfl, rfl, fun j hj => startGroup_lane l hj⟩

/-- Settles O29: `refusal` is the first case of R203 that applies, each as the specification states it; an accepted record does what
`Launches` says; a timed start is `startBinds` at the later of the time and START. -/
theorem dispatchAndTimedStart : Obligations.DispatchAndTimedStart := by
  unfold Obligations.DispatchAndTimedStart
  refine ⟨?_, ?_⟩
  · intro part s d i rest r b x hrecs hst hl hlr why seg share area queue pool map key ok
    have hmap : mapOf s d part r.mapVa r.strings = map := by
      rw [mapOf_eq, coresOf_eq]
    have hok : ∀ k, ok k ↔ refuses s d part b.host (diesOf s ((d, i) :: rest)) r k = false := by
      intro k
      match k with
      | 1 => exact ((decide_eq_false_iff_not).trans not_not).symm
      | 2 => exact (reserved_eq_false_iff r).symm
      | 3 =>
        refine Iff.trans ?_ decide_eq_false_iff_not.symm
        change (1 ≤ r.groups ∧ r.groups ≤ 8 ∧ 1 ≤ r.energy ∧ 1 ≤ r.peak ∧ r.peak ≤ 2700) ↔ _
        omega
      | 4 => exact decide_eq_false_iff_not.symm
      | 5 => exact ((iff_of_eq (Bool.not_eq_false' _)).trans (segsOk_iff seg)).symm
      | 6 =>
        refine Iff.trans ?_ decide_eq_false_iff_not.symm
        rw [segLimit, Nat.mul_comm, not_or, not_le, not_and, not_le]
        exact Iff.rfl
      | 7 =>
        refine Iff.trans ?_ decide_eq_false_iff_not.symm
        change (r.imgLen ≤ 786432 ∧ r.imgLen % 16 = 0) ↔ _
        omega
      | 8 => exact (decide_eq_false_iff_not.trans (strings_taken_iff s part r)).symm
      | 9 => exact ((keyh_taken_iff s r.keyh).trans (imp_congr_right fun _ => keySealed_iff s r.keyh)).symm
      | 10 =>
        refine Iff.trans ?_ Option.isNone_eq_false_iff.symm
        rw [hmap]
        exact Option.ne_none_iff_isSome
      | 11 => exact ((iff_of_eq (Bool.not_eq_false' _)).trans (queuesOk_iff r)).symm
      | 12 => exact Iff.rfl
      | 13 => exact (iff_of_eq (Bool.not_eq_false' _)).symm
      | 14 => exact (handler_taken_iff _ _).symm
      | 15 =>
        refine Iff.trans ?_ (audit_taken_iff s r.audit (mapOf s d part r.mapVa r.strings)).symm
        rw [hmap]
        exact Iff.rfl
      | 16 => exact not_le.symm.trans decide_eq_false_iff_not.symm
      | 0 | k + 17 => exact ⟨fun _ => rfl, fun _ => trivial⟩
    have hfirst : ∀ k, (∀ j < k, ok j) → ¬ ok k → why = some k := by
      intro k hlt hk
      have htest : refuses s d part b.host (diesOf s ((d, i) :: rest)) r k = true := by
        rw [hok] at hk
        exact Bool.eq_true_of_not_eq_false hk
      refine (refusal_eq_firstOf ..).trans (firstOf_eq_some htest 16 1 ?_ ?_ fun j hj => (hok j).mp (hlt j hj))
      · exact (refuses_range htest).1
      · exact (refuses_range htest).2
    have hnone : (∀ k, ok k) → why = none := fun h =>
      (refusal_eq_firstOf ..).trans (firstOf_eq_none (fun j => (hok j).mp (h j)) 16 1)
    have hexec := fun hwhy : why = none => execDispatch_accepted hrecs ⟨hst, hl⟩ hlr hwhy
    refine ⟨hfirst, hnone, fun cause hwhy => execDispatch_refused hrecs ⟨hst, hl⟩ hlr hwhy, fun hwhy m hm hnodup => ?_⟩
    replace hexec := hexec hwhy
    have ht := launches_launchTask (va := b.lrVa) hm hnodup
    generalize launchTask s d part b.lrVa r = t at ht hexec
    obtain ⟨img, hinside⟩ := ht.inside
    refine ⟨t, hexec, ?_⟩
    intro y l
    refine ⟨(congrArg Part.launch ht.part :), (congrArg Part.lmap ht.part :), (congrArg Part.strings ht.part :),
      (congrArg Part.phase ht.part :), (congrArg Part.taskid ht.part :), ht.taskCtr, (congrArg Part.stragLimit ht.part :),
      (congrArg Part.wdogAt ht.part :), (congrArg Part.wdogDone ht.part :), fun n hn => ?_, fun h => ?_, fun h => ?_, fun hn e he => ?_,
      ht.outside, fun n c hc => ?_⟩
    · rw [ht.strings, if_pos hn]
    · exact (ht.runs h).1
    · refine ⟨(ht.waits h).1, (ht.waits h).2, (congrArg Part.late ht.part :).trans ?_⟩
      change (l.timed && decide (l.start.toNat < s.time)) = _
      rw [h, Bool.true_and]
    · exact ht.binds hn e (hrecs ▸ he)
    · obtain ⟨hp, hlcore, hng, hpst, hexch, heng, hasy, halogq, hxq, hnoteq, hbars, hflog, henergy, hpeak⟩ :=
        startCore_registers (hinside n c hc)
      exact ⟨hp, hlcore, hng, hpst, hexch, heng, hasy, halogq, hxq, hnoteq, hbars, hflog, henergy, hpeak,
        fun h => (ht.runs h).2 c (List.mem_of_getElem? hc), fun g hg => startCore_groups (hinside n c hc) hg⟩
  · intro part die s l x hwait hst hl hstr hnodup hev hlatch
    have hstart := started_startBinds (s := { s with time := max s.time l.start.toNat }) (p := part) hev hlatch
    refine ⟨startBinds { s with time := max s.time l.start.toNat } part, ?_, ?_, ?_, ?_, ?_, ?_, ?_, ?_, ?_, ?_, ?_⟩
    · have hany : x.strings.any (fun n => decide (n / 32 = die.val)) = true := by
        obtain ⟨n, hn, hd⟩ := hstr
        exact List.any_eq_true.mpr ⟨n, hn, decide_eq_true hd⟩
      change execTimedStart part die s = _
      rw [execTimedStart]
      simp only [x] at hwait hst hany hl
      simp only [hwait, hst, hany, hl, Option.getD_some, and_self, if_true]
    · exact (congrArg State.time hstart.rest :)
    · exact (congrArg Part.st hstart.part :)
    · exact (congrArg Part.waitStart hstart.part :)
    · exact (congrArg Part.phase hstart.part :)
    · exact (congrArg Part.stragAt hstart.part :).trans (congrArg State.time hstart.rest :).symm
    · exact (congrArg Part.wdogAt hstart.part :)
    · rw [hstart.dies]
      exact modBinds_dies (s := s) (t := { s with time := max s.time l.start.toNat }) rfl part _ Bind.start
    · exact (congrArg State.vault hstart.rest :)
    · exact (congrArg State.strings hstart.rest :)
    · exact hstart.cores

end Sys2Proof.Machine
end

section
/-!
SUPPORT. The value of a pattern (R40 to R43), and exact sums and products (R44, R61, R128, R130, R165), over the reals.
-/
namespace Sys2Proof.Machine

/-! ## Patterns -/

/-- The patterns without their sign are those of every exponent field and every fraction (R40). -/
theorem two_pow_width_pred (t : FltTy) : 2 ^ (t.width - 1) = 2 ^ t.frac * (t.top + 1) := by cases t <;> rfl

theorem fltSign_eq_mul (t : FltTy) (n : Bool) : t.sign n = 2 ^ (t.width - 1) * b2n n := by cases n <;> simp [FltTy.sign, b2n]

/-- The value of a pattern, from its sign, its exponent field and its fraction (R40). -/
theorem fval_sign_add (t : FltTy) (n : Bool) {k : Nat} (hk : k < 2 ^ (t.width - 1)) :
    fval t (t.sign n + k) =
      if k / 2 ^ t.frac = t.top then (if k % 2 ^ t.frac = 0 then .inf n else .nan)
      else if k / 2 ^ t.frac = 0 then .num n (k % 2 ^ t.frac) t.emin
      else .num n (k % 2 ^ t.frac + 2 ^ t.frac) (t.emin + (((k / 2 ^ t.frac : Nat) : Int) - 1)) := by
  have hP : 0 < 2 ^ t.frac := Nat.two_pow_pos _
  have hneg : decide ((t.sign n + k) / 2 ^ (t.width - 1) % 2 = 1) = n := by
    rw [fltSign_eq_mul, Nat.mul_add_div (Nat.two_pow_pos _), Nat.div_eq_of_lt hk]
    cases n <;> rfl
  have hlow : t.sign n + k = 2 ^ t.frac * ((t.top + 1) * b2n n) + k := by rw [fltSign_eq_mul, two_pow_width_pred, mul_assoc]
  have hdiv : (t.sign n + k) / 2 ^ t.frac % (t.top + 1) = k / 2 ^ t.frac := by
    rw [hlow, Nat.mul_add_div hP, Nat.mul_add_mod, Nat.mod_eq_of_lt]
    exact Nat.div_lt_of_lt_mul (two_pow_width_pred t ▸ hk)
  have hmod : (t.sign n + k) % 2 ^ t.frac = k % 2 ^ t.frac := by rw [hlow, Nat.mul_add_mod]
  rw [fval, hneg, hdiv, hmod]

theorem FVal.is_num_iff {n : Bool} {m : Nat} {e : Int} {x : ℝ} :
    (FVal.num n m e).Is x ↔ x = (if n then -1 else 1) * (m * 2 ^ e) := by
  constructor
  · rintro ⟨n', m', e', hv, rfl⟩
    cases hv
    rfl
  · rintro rfl
    exact ⟨n, m, e, rfl, rfl⟩

/-- A pattern below that of infinity stands for its magnitude with its sign (R40, R41). -/
theorem fval_of_lt_inf {t : FltTy} (n : Bool) {k : Nat} (h : k < t.inf) :
    (fval t (t.sign n + k)).Is ((if n then -1 else 1) * magnitude t k) ∧ (fval t (t.sign n + k)).neg = n := by
  have hP : 0 < 2 ^ t.frac := Nat.two_pow_pos _
  have hex : k / 2 ^ t.frac < t.top := (Nat.div_lt_iff_lt_mul hP).mpr h
  have hk : k < 2 ^ (t.width - 1) := by
    have : t.inf = t.top * 2 ^ t.frac := rfl
    rw [two_pow_width_pred]
    nlinarith
  rw [fval_sign_add t n hk, if_neg hex.ne]
  by_cases hsub : k / 2 ^ t.frac = 0
  · have hlt : k < 2 ^ t.frac := by simpa [hP.ne'] using Nat.div_eq_zero_iff.mp hsub
    rw [if_pos hsub, FVal.is_num_iff, Nat.mod_eq_of_lt hlt, magnitude, if_pos hlt]
    exact ⟨by push_cast; rfl, rfl⟩
  · have hge : ¬ k < 2 ^ t.frac := fun hlt => hsub (Nat.div_eq_of_lt hlt)
    rw [if_neg hsub, FVal.is_num_iff, magnitude, if_neg hge, add_comm (2 ^ t.frac) (k % 2 ^ t.frac),
      show t.emin + (((k / 2 ^ t.frac : Nat) : Int) - 1) = t.emin - 1 + ((k / 2 ^ t.frac : Nat) : Int) by ring]
    exact ⟨by push_cast; rfl, rfl⟩

/-- The patterns from that of infinity on (R42, R43). -/
theorem fval_of_inf_le {t : FltTy} (n : Bool) {k : Nat} (hk : k < 2 ^ (t.width - 1)) (h : t.inf ≤ k) :
    fval t (t.sign n + k) = if k = t.inf then .inf n else .nan := by
  have hP : 0 < 2 ^ t.frac := Nat.two_pow_pos _
  rw [two_pow_width_pred] at hk
  have hex : k / 2 ^ t.frac = t.top := by
    refine Nat.div_eq_of_lt_le h ?_
    rwa [mul_comm]
  rw [fval_sign_add t n (two_pow_width_pred t ▸ hk), if_pos hex]
  have hsplit := Nat.div_add_mod k (2 ^ t.frac)
  rw [hex, mul_comm] at hsplit
  have hzero : k % 2 ^ t.frac = 0 ↔ k = t.inf := by
    unfold FltTy.inf
    omega
  simp only [hzero]

/-! ## Sums and products -/

theorem scaledInt_mul_zpow {n : Bool} {m : Nat} {e q : Int} {a : ℝ} (h : (FVal.num n m e).Is a) (hq : q ≤ e) :
    (scaledInt n m e q : ℝ) * 2 ^ q = a := by
  rw [FVal.is_num_iff.mp h, zpow_split e q hq, scaledInt]
  cases n
  · simp only [Bool.false_eq_true, if_false]; push_cast; ring
  · simp only [if_true]; push_cast; ring

/-- An exact sum as a value: its sign is its own, or that given where it is zero. -/
theorem signedSum_spec {v q : Int} {s : Bool} {x : ℝ} (hx : (v : ℝ) * 2 ^ q = x) :
    (if v = 0 then FVal.num s 0 q else .num (decide (v < 0)) v.natAbs q).Is x ∧
      (x = 0 → (if v = 0 then FVal.num s 0 q else .num (decide (v < 0)) v.natAbs q).neg = s) := by
  have hp : (2 : ℝ) ^ q ≠ 0 := by positivity
  split_ifs with hv
  · refine ⟨FVal.is_num_iff.mpr ?_, fun _ => rfl⟩
    rw [← hx, hv]; simp
  · refine ⟨FVal.is_num_iff.mpr ?_, fun h => absurd h ?_⟩
    · rw [← hx, ← mul_assoc, Nat.cast_natAbs]
      congr 1
      rcases lt_or_ge v 0 with hneg | hpos
      · simp [hneg, abs_of_neg hneg]
      · simp [not_lt.mpr hpos, abs_of_nonneg hpos]
    · rw [← hx]
      exact mul_ne_zero (by exact_mod_cast hv) hp

theorem addVal_spec (r : Round) {v w : FVal} {a b : ℝ} (hv : v.Is a) (hw : w.Is b) :
    ∃ x, addVal r v w = some x ∧ x.Is (a + b) ∧
      (a + b = 0 → x.neg = if a = 0 ∧ b = 0 ∧ v.neg = w.neg then v.neg else decide (r = .rd)) := by
  obtain ⟨na, ma, ea, rfl, -⟩ := id hv
  obtain ⟨nb, mb, eb, rfl, -⟩ := id hw
  have hsum : ((scaledInt na ma ea (min ea eb) + scaledInt nb mb eb (min ea eb) : Int) : ℝ) * 2 ^ min ea eb = a + b := by
    push_cast
    rw [add_mul, scaledInt_mul_zpow hv (min_le_left _ _), scaledInt_mul_zpow hw (min_le_right _ _)]
  refine ⟨_, rfl, ?_⟩
  simp only [hv.eq_zero_iff, hw.eq_zero_iff]
  exact signedSum_spec hsum

theorem mulVal_spec {v w : FVal} {a b : ℝ} (hv : v.Is a) (hw : w.Is b) :
    ∃ x, mulVal v w = some x ∧ x.Is (a * b) ∧ x.neg = (v.neg != w.neg) := by
  obtain ⟨na, ma, ea, rfl, rfl⟩ := hv
  obtain ⟨nb, mb, eb, rfl, rfl⟩ := hw
  refine ⟨_, rfl, FVal.is_num_iff.mpr ?_, rfl⟩
  rw [zpow_add₀ two_ne_zero]
  cases na <;> cases nb <;> simp <;> ring

theorem fmaVal_spec (r : Round) {v w u : FVal} {a b c : ℝ} (hv : v.Is a) (hw : w.Is b) (hu : u.Is c) :
    ∃ x, fmaVal r v w u = some x ∧ x.Is (a * b + c) ∧ (a * b + c = 0 → x.neg =
      if a * b = 0 ∧ c = 0 ∧ (v.neg != w.neg) = u.neg then u.neg else decide (r = .rd)) := by
  obtain ⟨p, hp, hpis, hpneg⟩ := mulVal_spec hv hw
  obtain ⟨x, hx, hxis, hxneg⟩ := addVal_spec r hpis hu
  refine ⟨x, by rw [fmaVal, hp]; exact hx, hxis, fun h => ?_⟩
  rw [hxneg h, hpneg]
  exact if_ctx_congr Iff.rfl (fun h => h.2.2) fun _ => rfl

theorem FVal.Is.isZero_eq {v : FVal} {a : ℝ} (h : v.Is a) : v.isZero = true ↔ a = 0 := by
  obtain ⟨n, m, e, rfl, -⟩ := id h
  rw [h.eq_zero_iff, FVal.isZero, decide_eq_true_iff]

/-- A sum of three values, with the zero rule of R165. -/
theorem sumThree_spec (r : Round) {p q c : FVal} {x y z : ℝ} (hp : p.Is x) (hq : q.Is y) (hc : c.Is z) :
    (sumThree r p q c).Is (x + y + z) ∧ (x + y + z = 0 → (sumThree r p q c).neg =
      if x = 0 ∧ y = 0 ∧ z = 0 ∧ p.neg = c.neg ∧ q.neg = c.neg then c.neg else decide (r = .rd)) := by
  have hcond : (p.isZero && q.isZero && c.isZero && decide (p.neg = q.neg) && decide (q.neg = c.neg)) = true ↔
      x = 0 ∧ y = 0 ∧ z = 0 ∧ p.neg = c.neg ∧ q.neg = c.neg := by
    simp only [Bool.and_eq_true, decide_eq_true_iff, hp.isZero_eq, hq.isZero_eq, hc.isZero_eq]
    grind
  by_cases hz : x = 0 ∧ y = 0 ∧ z = 0 ∧ p.neg = c.neg ∧ q.neg = c.neg
  · unfold sumThree
    rw [if_pos (hcond.mpr hz), if_pos hz]
    obtain ⟨rfl, rfl, rfl, hpc, -⟩ := hz
    exact ⟨FVal.is_num_iff.mpr (by simp), fun _ => hpc⟩
  · unfold sumThree
    rw [if_neg (hcond.not.mpr hz), if_neg hz]
    obtain ⟨np, mp, ep, rfl, -⟩ := id hp
    obtain ⟨nq, mq, eq, rfl, -⟩ := id hq
    obtain ⟨nc, mc, ec, rfl, -⟩ := id hc
    refine signedSum_spec ?_
    push_cast
    rw [add_mul, add_mul, scaledInt_mul_zpow hp (min_le_left _ _),
      scaledInt_mul_zpow hq ((min_le_right _ _).trans (min_le_left _ _)),
      scaledInt_mul_zpow hc ((min_le_right _ _).trans (min_le_right _ _))]

theorem fdotVal_spec (r : Round) {v w u y z : FVal} {a b c d e : ℝ} (hv : v.Is a) (hw : w.Is b) (hu : u.Is c) (hy : y.Is d)
    (hz : z.Is e) :
    ∃ x, fdotVal r v w u y z = some x ∧ x.Is (a * b + c * d + e) ∧ (a * b + c * d + e = 0 → x.neg =
      if a * b = 0 ∧ c * d = 0 ∧ e = 0 ∧ (v.neg != w.neg) = z.neg ∧ (u.neg != y.neg) = z.neg then z.neg else decide (r = .rd)) := by
  obtain ⟨p, hp, hpis, hpneg⟩ := mulVal_spec hv hw
  obtain ⟨q, hq, hqis, hqneg⟩ := mulVal_spec hu hy
  obtain ⟨hsum, hneg⟩ := sumThree_spec r hpis hqis hz
  refine ⟨sumThree r p q z, ?_, hsum, by rw [← hpneg, ← hqneg]; exact hneg⟩
  obtain ⟨np, mp, ep, rfl, -⟩ := id hpis
  obtain ⟨nq, mq, eq, rfl, -⟩ := id hqis
  obtain ⟨nz, mz, ez, rfl, -⟩ := id hz
  rw [fdotVal, hp, hq]
  rfl

end Sys2Proof.Machine
end

section
/-!
SUPPORT. Rounding to an integer type (R45, R49, R52, R55), a quotient by a scale (R56, R135), and the random word (R48).
-/
namespace Sys2Proof.Machine

/-! ## Rounding to an integer type -/

theorem exists_selects (c : Ctl) (neg : Bool) (lo : Nat) (D : ℝ) : ∃ k, Selects c neg lo D k ∧ lo ≤ k := by
  unfold Selects
  simp only
  generalize (D ≠ 0 ∧ _) = away
  by_cases h : away
  · exact ⟨lo + 1, ⟨fun _ => rfl, fun hn => absurd h hn⟩, Nat.le_succ lo⟩
  · exact ⟨lo, ⟨fun ha => absurd ha h, fun _ => rfl⟩, le_rfl⟩

/-- No integer type holds 2^64. -/
theorem outOfRange_of_two_pow_le (t : IntTy) (neg : Bool) {k : Nat} (h : 2 ^ 64 ≤ k) :
    (if neg then -(k : ℤ) else k) < intMin t.width t.signed ∨ intMax t.width t.signed < if neg then -(k : ℤ) else k := by
  have hmin : -(2 ^ 63) ≤ intMin t.width t.signed := by cases t <;> decide
  have hmax : intMax t.width t.signed < 2 ^ 64 := by cases t <;> decide
  cases neg
  · right; simp only [Bool.false_eq_true, if_false]; omega
  · left; simp only [if_true]; omega

theorem overflowsInt_overflowInt (t : IntTy) (c : Ctl) (neg : Bool) : OverflowsInt t c neg (overflowInt t.width t.signed c neg) := by
  refine ⟨rfl, rfl, rfl, rfl, ?_⟩
  obtain ⟨mode, pol, rand⟩ := c
  cases pol
  case nan => simp [overflowInt, FRes.exact, indefinite]
  all_goals exact wrapNat_eq _ _

/-- An integer result that rounding has selected (R45, R49, R52). -/
theorem roundsToInt_of_roundsAt {t : IntTy} {c : Ctl} {neg : Bool} {x : ℝ} {m : Nat} {e : Int} {more : Bool}
    (h : RoundsAt c neg x 0 (roundAt c neg m e 0 more).1 (roundAt c neg m e 0 more).2) :
    RoundsToInt t c neg x (roundInt t.width t.signed c neg m e more) := by
  unfold roundInt
  generalize roundAt c neg m e 0 more = r at h ⊢
  obtain ⟨lo, hle, hlt, hsel, hexact⟩ := h
  rw [zpow_zero, mul_one] at hle hlt hexact
  rw [zpow_zero, div_one] at hsel
  refine ⟨lo, r.1, hle, hlt, hsel, by simp only; split_ifs <;> rfl, ?_⟩
  simp only
  generalize (if neg then -(r.1 : ℤ) else r.1) = v
  by_cases hout : v < intMin t.width t.signed ∨ intMax t.width t.signed < v
  · rw [if_pos hout, if_pos hout]
    exact ⟨overflowsInt_overflowInt t c neg, rfl⟩
  · rw [if_neg hout, if_neg hout]
    refine ⟨wrapNat_eq _ _, rfl, rfl, rfl, rfl, ?_⟩
    change (!r.2) = true ↔ x ≠ lo
    rw [Ne, ← hexact, Bool.not_eq_true_eq_eq_false, Bool.not_eq_true]

/-- A magnitude of 2^64 or more overflows every integer type, whatever lies below the last place that is known. -/
theorem roundsToInt_of_two_pow_le {t : IntTy} {c : Ctl} {neg : Bool} {x : ℝ} {m : Nat} {e : Int} {more : Bool} (hx : 2 ^ 64 ≤ x)
    (hr : 2 ^ 64 ≤ (roundAt c neg m e 0 more).1) : RoundsToInt t c neg x (roundInt t.width t.signed c neg m e more) := by
  have hfloor : 2 ^ 64 ≤ ⌊x⌋₊ := Nat.le_floor (by exact_mod_cast hx)
  obtain ⟨k, hsel, hk⟩ := exists_selects c neg ⌊x⌋₊ (x - ⌊x⌋₊)
  unfold roundInt
  simp only
  rw [if_pos (outOfRange_of_two_pow_le t neg hr)]
  refine ⟨⌊x⌋₊, k, Nat.floor_le (le_trans (by positivity) hx), Nat.lt_floor_add_one x, hsel, rfl, ?_⟩
  simp only
  rw [if_pos (outOfRange_of_two_pow_le t neg (hfloor.trans hk))]
  exact ⟨overflowsInt_overflowInt t c neg, rfl⟩

/-- What `roundAt` leaves of a number with its last place known no more than sixteen places below the one kept. -/
theorem two_pow_le_roundAt {c : Ctl} {neg : Bool} {m : Nat} {e : Int} {more : Bool} (hm : 2 ^ 96 ≤ m) (he : -16 ≤ e) :
    2 ^ 64 ≤ (roundAt c neg m e 0 more).1 := by
  rcases le_or_gt 0 e with h | h
  · rw [roundAt, if_pos h]
    have := Nat.le_mul_of_pos_right m (Nat.two_pow_pos (e - 0).toNat)
    exact le_trans (by norm_num) (hm.trans this)
  · have hlo : 2 ^ 64 ≤ m >>> (0 - e).toNat := by
      rw [Nat.shiftRight_eq_div_pow, Nat.le_div_iff_mul_le (Nat.two_pow_pos _)]
      calc 2 ^ 64 * 2 ^ (0 - e).toNat ≤ 2 ^ 64 * 2 ^ 16 := Nat.mul_le_mul_left _ (Nat.pow_le_pow_right two_pos (by omega))
        _ ≤ 2 ^ 96 := by norm_num
        _ ≤ m := hm
    rw [roundAt_of_lt h]
    split_ifs
    · exact hlo
    · exact hlo.trans (Nat.le_add_right _ _)

/-- `roundInt` rounds a magnitude of which all or 96 bits or more are known. -/
theorem roundsToInt_roundInt {t : IntTy} {c : Ctl} {neg : Bool} {x : ℝ} {m : Nat} {e : Int} {more : Bool} (h : Known x m e more)
    (hbits : more = true → 2 ^ 96 ≤ m) : RoundsToInt t c neg x (roundInt t.width t.signed c neg m e more) := by
  by_cases hsmall : more = true → e + 16 ≤ 0
  · exact roundsToInt_of_roundsAt (roundsAt_roundAt h hsmall)
  · obtain ⟨hmore, he⟩ := Classical.not_imp.mp hsmall
    have hm := hbits hmore
    refine roundsToInt_of_two_pow_le ?_ (two_pow_le_roundAt hm (by omega))
    have hmR : (2 : ℝ) ^ 96 ≤ m := by exact_mod_cast hm
    have he16 : (2 : ℝ) ^ (-16 : ℤ) ≤ 2 ^ e := zpow_le_zpow_right₀ one_le_two (by omega)
    calc (2 : ℝ) ^ 64 ≤ 2 ^ 96 * (2 : ℝ) ^ (-16 : ℤ) := by norm_num
      _ ≤ (m : ℝ) * 2 ^ e := mul_le_mul hmR he16 (by positivity) (by positivity)
      _ ≤ x := h.le

/-! ## Exact values rounded -/

/-- A magnitude all of which is known. -/
theorem known_exact (m : Nat) (e : Int) : Known (m * 2 ^ e) m e false := by
  have hp : (0 : ℝ) < 2 ^ e := by positivity
  exact ⟨le_rfl, by linarith, by simp⟩

theorem roundsTo_rndExact (t : FltTy) (c : Ctl) (n : Bool) {m : Nat} (e : Int) (hm : m ≠ 0) :
    RoundsTo t c n (m * 2 ^ e) (rndExact t c (some (.num n m e))) :=
  roundsTo_roundFlt (known_exact m e) hm fun h => absurd h Bool.false_ne_true

theorem roundsToInt_rndInt (t : IntTy) (c : Ctl) (n : Bool) (m : Nat) (e : Int) :
    RoundsToInt t c n (m * 2 ^ e) (rndInt t.width t.signed c (.num n m e)) :=
  roundsToInt_roundInt (known_exact m e) fun h => absurd h Bool.false_ne_true

/-! ## Quotients by a scale -/

/-- What `quot` finds of a quotient: 96 bits or more. -/
theorem known_quot {ma mb : Nat} (ea eb : Int) (ha : ma ≠ 0) (hb : mb ≠ 0) :
    Known (ma * 2 ^ ea / (mb * 2 ^ eb)) (quot ma ea mb eb).1 (quot ma ea mb eb).2.1 (quot ma ea mb eb).2.2 ∧
      2 ^ 96 ≤ (quot ma ea mb eb).1 := by
  unfold quot
  simp only
  have hbr : (mb : ℝ) ≠ 0 := by exact_mod_cast hb
  have hval : (ma * 2 ^ ea / (mb * 2 ^ eb) : ℝ) =
      ((ma * 2 ^ (96 + bitLen mb) : Nat) : ℝ) / mb * 2 ^ (ea - eb - ((96 + bitLen mb : Nat) : ℤ)) := by
    rw [zpow_sub₀ two_ne_zero, zpow_sub₀ two_ne_zero, zpow_natCast]
    push_cast
    field_simp
  have hbig : 2 ^ 96 * mb ≤ ma * 2 ^ (96 + bitLen mb) := by
    rw [pow_add]
    calc 2 ^ 96 * mb ≤ 2 ^ 96 * 2 ^ bitLen mb := Nat.mul_le_mul_left _ (lt_two_pow_bitLen mb).le
      _ ≤ ma * (2 ^ 96 * 2 ^ bitLen mb) := Nat.le_mul_of_pos_left _ (Nat.pos_of_ne_zero ha)
  generalize ma * 2 ^ (96 + bitLen mb) = n at hval hbig ⊢
  have hfloor : ⌊(n : ℝ) / mb⌋₊ = n / mb := Nat.floor_div_eq_div n mb
  refine ⟨?_, (Nat.le_div_iff_mul_le (Nat.pos_of_ne_zero hb)).mpr hbig⟩
  rw [hval, ← hfloor]
  refine known_of_units _ (Nat.floor_le (by positivity)) (Nat.lt_floor_add_one _) ?_
  rw [hfloor, decide_eq_true_iff, Ne, Ne, not_iff_not, div_eq_iff hbr, ← Nat.dvd_iff_mod_eq_zero, Nat.dvd_iff_div_mul_eq, eq_comm]
  exact_mod_cast Iff.rfl

theorem cvs_rounds {t : FltTy} {v : IntTy} {c : Ctl} {n n' : Bool} {m m' : Nat} {e e' : Int} {a b : ℝ}
    (hx : (FVal.num n m e).Is a) (hy : (FVal.num n' m' e').Is b) (ha : a ≠ 0) (hb : b ≠ 0) :
    RoundsTo t c (n != n') (|a| / |b|) (cvsFlt t c (.num n m e) (.num n' m' e')) ∧
      RoundsToInt v c (n != n') (|a| / |b|) (cvsInt v.width v.signed c (.num n m e) (.num n' m' e')) := by
  have hm : m ≠ 0 := fun hm => ha (hx.eq_zero_iff.mpr hm)
  have hm' : m' ≠ 0 := fun hm => hb (hy.eq_zero_iff.mpr hm)
  have hflt := roundsTo_quot t c (n != n') e e' hm hm'
  obtain ⟨hknown, hbits⟩ := known_quot e e' hm hm'
  have hint := roundsToInt_roundInt (t := v) (c := c) (neg := n != n') hknown fun _ => hbits
  rw [← hx.abs_eq, ← hy.abs_eq] at hflt hint
  simp only [cvsFlt, cvsInt, scaleBy, if_neg hm, if_neg hm']
  exact ⟨hflt, hint⟩

theorem cvs_of_zero {t : FltTy} {v : IntTy} {c : Ctl} {n n' : Bool} {m' : Nat} {e e' : Int} (hm' : m' ≠ 0) :
    cvsFlt t c (.num n 0 e) (.num n' m' e') = FRes.exact (t.sign (n != n')) ∧
      cvsInt v.width v.signed c (.num n 0 e) (.num n' m' e') = FRes.exact 0 := by
  simp only [cvsFlt, cvsInt, scaleBy, if_neg hm', if_true, and_self]

theorem cvs_over_zero {t : FltTy} {v : IntTy} {c : Ctl} {n n' : Bool} {m : Nat} {e e' : Int} (hm : m ≠ 0) :
    cvsFlt t c (.num n m e) (.num n' 0 e') = (overflowFlt t c (n != n')).divZero ∧
      cvsInt v.width v.signed c (.num n m e) (.num n' 0 e') = (overflowInt v.width v.signed c (n != n')).divZero := by
  simp only [cvsFlt, cvsInt, scaleBy, if_neg hm, if_true, and_self]

/-! ## The random word (R48) -/

/-- A number folded onto itself, `n` places lower (R48). -/
def foldDown (x n : Nat) : Nat := x ^^^ (x / 2 ^ n)

theorem toNat_xor_shiftRight (x : Word) (n : Nat) : (x ^^^ (x >>> n)).toNat = foldDown x.toNat n := by
  rw [BitVec.toNat_xor, BitVec.toNat_ushiftRight, Nat.shiftRight_eq_div_pow, foldDown]

theorem toNat_mul_ofNat (x : Word) (k : Nat) : (x * BitVec.ofNat 64 k).toNat = x.toNat * k % 2 ^ 64 := by
  rw [BitVec.toNat_mul, BitVec.toNat_ofNat, Nat.mul_mod_mod]

theorem mix_toNat (x : Word) : (mix x).toNat =
    foldDown (foldDown (foldDown x.toNat 32 * 0xA3B195C4E72D1F0B % 2 ^ 64) 29 * 0x8E5C2B7FD14936A5 % 2 ^ 64) 32 := by
  rw [← toNat_xor_shiftRight, ← toNat_mul_ofNat, ← toNat_xor_shiftRight, ← toNat_mul_ofNat, ← toNat_xor_shiftRight]
  rfl

theorem rand16_eq (seed idx : Word) :
    rand16 seed idx = foldDown (foldDown (foldDown ((seed.toNat + idx.toNat * 0x9E3779B97F4A7C15 % 2 ^ 64) % 2 ^ 64) 32 *
      0xA3B195C4E72D1F0B % 2 ^ 64) 29 * 0x8E5C2B7FD14936A5 % 2 ^ 64) 32 / 2 ^ 48 := by
  rw [← toNat_mul_ofNat idx, ← BitVec.toNat_add, ← mix_toNat, rand16, fld, Nat.shiftRight_eq_div_pow,
    Nat.mod_eq_of_lt (Nat.div_lt_of_lt_mul (BitVec.isLt _))]
  rfl

end Sys2Proof.Machine
end

section
/-!
PROOF. The rounding float words (R50, R128, R130, R132 to R134, R165).
-/
namespace Sys2Proof.Machine

theorem numWidth_mul_count (t : NumTy) (n : Nat) : numWidth t * min n (64 / numWidth t) ≤ 64 :=
  (Nat.mul_le_mul_left _ (min_le_right _ _)).trans (Nat.mul_div_le 64 _)

/-- Settles O4: the words are `writeRounded` of their elements, whose values over the reals are those of the lemmas above. -/
theorem floatResults : Obligations.FloatResults := by
  unfold Obligations.FloatResults
  refine ⟨?words, ?patterns, ?sums, ?specials, ?rounding, ?scaling, ?random⟩
  case words =>
    intro d a b t dst src u m1 m2 m3 n x y z rnd rm half
    have hn := width_mul_count t
    have hdst := numWidth_mul_count dst
    refine ⟨roundedIs_of _ hn fun _ => rfl, roundedIs_of _ hn fun _ => rfl, roundedIs_of _ hn fun _ => rfl,
      roundedIs_of _ hn fun _ => rfl, roundedIs_of _ hn fun _ => rfl, roundedIs_of _ hn fun _ => rfl,
      roundedIs_of _ hn fun _ => rfl, roundedIs_of _ (hdst _) fun _ => rfl, roundedIs_of _ (hdst _) fun _ => ?_,
      roundedIs_of _ (hdst _) fun _ => rfl, roundedIs_of _ (by decide) fun _ => rfl⟩
    cases dst <;> rfl
  case patterns =>
    intro t n k hk v
    refine ⟨fval_of_lt_inf n, fun h => ?_, fun h => ?_⟩
    · exact (fval_of_inf_le n hk h.ge).trans (if_pos h)
    · exact (fval_of_inf_le n hk h.le).trans (if_neg h.ne')
  case sums =>
    intro r v w u y z a b c d e hv hw hu hy hz
    exact ⟨addVal_spec r hv hw, mulVal_spec hv hw, fmaVal_spec r hv hw hu, fdotVal_spec r hv hw hu hy hz⟩
  case specials =>
    intro r v i j a hv
    obtain ⟨n, m, e, rfl, -⟩ := id hv
    have hzero : ∀ i : Bool, (if a = 0 then none else some (FVal.inf (i != n))) = if m = 0 then none else some (FVal.inf (i != n)) := by
      intro i
      simp only [hv.eq_zero_iff]
    refine ⟨rfl, rfl, rfl, rfl, rfl, rfl, rfl, rfl, rfl, rfl, rfl, (hzero i).symm, (hzero i).symm, rfl, fun x y z => ?_⟩
    unfold fmaVal
    cases mulVal x y <;> rfl
  case rounding =>
    intro t v c n m e
    refine ⟨fun hm => ⟨roundsTo_rndExact t c n e hm.ne', rfl⟩, roundsToInt_rndInt v c n m e, ?_, ?_, ?_, rfl, rfl,
      overflowsInt_overflowInt v c n, rfl, rfl⟩
    all_goals
      simp only [List.forall_mem_cons, List.not_mem_nil, false_implies, implies_true, and_true]
      exact ⟨rfl, rfl⟩
  case scaling =>
    intro t v c x y i j a b hx hy toInt nanInt nanFlt s
    obtain ⟨n, m, e, rfl, -⟩ := id hx
    obtain ⟨n', m', e', rfl, -⟩ := id hy
    refine ⟨fun ha hb => cvs_rounds hx hy ha hb, fun ha hb => ?zeroOver, fun ha hb => ?overZero, fun ha hb => ?zeroOverZero, rfl, rfl, rfl,
      overflowsInt_overflowInt v c _, rfl, rfl, rfl, rfl, fun z => ⟨rfl, ?_, rfl, ?_⟩⟩
    case zeroOver =>
      obtain rfl := hx.eq_zero_iff.mp ha
      exact cvs_of_zero (hy.eq_zero_iff.not.mp hb)
    case overZero =>
      obtain rfl := hy.eq_zero_iff.mp hb
      obtain ⟨hflt, hint⟩ := cvs_over_zero (t := t) (v := v) (c := c) (n := n) (n' := n') (e := e) (e' := e') (hx.eq_zero_iff.not.mp ha)
      obtain ⟨hover, hcauses, -⟩ := overflows_overflowFlt t c (n != n')
      refine ⟨hflt ▸ hover, hflt ▸ rfl, hflt ▸ congrArg (0x22 :: ·) hcauses, ?_, ?_, ?_⟩
      all_goals simp only [toInt, hint]
      · exact overflowsInt_overflowInt v c _
      · rfl
      · rfl
    case zeroOverZero =>
      obtain rfl := hx.eq_zero_iff.mp ha
      obtain rfl := hy.eq_zero_iff.mp hb
      exact ⟨rfl, rfl⟩
    · cases z <;> rfl
    · cases z <;> rfl
  case random =>
    intro seed idx mul fold
    exact rand16_eq seed idx

end Sys2Proof.Machine
end

section
/-!
SUPPORT. Scans and reductions over the lanes (R62, R160, R161): both run sweeps over the values of the lanes; the values that these leave, and
the union of what their rounded steps raise.
-/
namespace Sys2Proof.Machine

/-! ## Sweeps -/

/-- One sweep of a scan or reduction: of the first `count` lanes, those from `low` on are written from the values of two lanes; the others keep
theirs. -/
structure Sweep where
  count : Nat
  low : Nat
  left : Nat → Nat
  right : Nat → Nat

/-- The sweep of a scan at a distance (R160). -/
def Sweep.scan (d : Nat) : Sweep := { count := 32, low := d, left := fun i => i - d, right := fun i => i }

/-- The sweep of a reduction at a distance (R62). -/
def Sweep.red (d : Nat) : Sweep := { count := d, low := 0, left := fun i => i, right := fun i => i + d }

/-- The sweep's results of rounded steps `f`. -/
def Sweep.next (w : Sweep) (f : Nat → Nat → Nat → FRes) (v : Nat → Nat) (i : Nat) : Nat :=
  if w.low ≤ i then (f i (v (w.left i)) (v (w.right i))).bits else v i

/-- The sweep's steps. -/
def Sweep.steps (w : Sweep) (f : Nat → Nat → Nat → FRes) (v : Nat → Nat) : List FRes :=
  ((List.range w.count).filter fun i => decide (w.low ≤ i)).map fun i => f i (v (w.left i)) (v (w.right i))

/-- The sweep as the model runs it, over elements that carry what their last step raised. -/
def Sweep.run (w : Sweep) (op : Nat → Step1 → Step1 → Step1) (v : List Step1) : List Step1 :=
  (List.range w.count).map fun i =>
    if w.low ≤ i then op i ((v[w.left i]?).getD ⟨0, 0, []⟩) ((v[w.right i]?).getD ⟨0, 0, []⟩) else (v[i]?).getD ⟨0, 0, []⟩

/-- The values after one sweep after the other. -/
def sweepVals (f : Nat → Nat → Nat → FRes) : List Sweep → (Nat → Nat) → Nat → Nat
  | [], v => v
  | w :: r, v => sweepVals f r (w.next f v)

/-- The steps of one sweep after the other. -/
def sweepSteps (f : Nat → Nat → Nat → FRes) : List Sweep → (Nat → Nat) → List FRes
  | [], _ => []
  | w :: r, v => w.steps f v ++ sweepSteps f r (w.next f v)

/-- What the elements of a list raise, besides what was raised before. -/
def raiseAll (v : List Step1) (acc : Nat × List Byte) : Nat × List Byte := v.foldl (fun a x => (a.1 ||| x.fst, a.2 ++ x.causes)) acc

/-- What the elements after each sweep raise. -/
def sweepRaised (op : Nat → Step1 → Step1 → Step1) : List Sweep → List Step1 → Nat × List Byte → Nat × List Byte
  | [], _, acc => acc
  | w :: r, v, acc => sweepRaised op r (w.run op v) (raiseAll (w.run op v) acc)

/-- Every sweep reads lanes that the sweep before it left, of which the first finds `n`. -/
def sweepsFit : Nat → List Sweep → Bool
  | _, [] => true
  | n, w :: r => ((List.range w.count).all fun i => if w.low ≤ i then decide (w.left i < n ∧ w.right i < n) else decide (i < n)) &&
      sweepsFit w.count r

theorem scanFrom_eq_foldl (op : Nat → Step1 → Step1 → Step1) (ds : List Nat) : ∀ v : List Step1,
    scanFrom op ds v = (ds.map Sweep.scan).foldl (fun v w => w.run op v) v := by
  induction ds with
  | nil => intro v; rfl
  | cons d r ih => intro v; exact ih _

theorem reduceFrom_eq_foldl (op : Nat → Step1 → Step1 → Step1) (ds : List Nat) : ∀ v : List Step1,
    reduceFrom op ds v = (ds.map Sweep.red).foldl (fun v w => w.run op v) v := by
  induction ds with
  | nil => intro v; rfl
  | cons d r ih => intro v; exact ih _

theorem raisedScan_eq (op : Nat → Step1 → Step1 → Step1) (ds : List Nat) : ∀ (v : List Step1) (acc : Nat × List Byte),
    raisedScan op ds v acc = sweepRaised op (ds.map Sweep.scan) v acc := by
  induction ds with
  | nil => intro v acc; rfl
  | cons d r ih => intro v acc; exact ih _ _

theorem raisedRed_eq (op : Nat → Step1 → Step1 → Step1) (ds : List Nat) : ∀ (v : List Step1) (acc : Nat × List Byte),
    raisedRed op ds v acc = sweepRaised op (ds.map Sweep.red) v acc := by
  induction ds with
  | nil => intro v acc; rfl
  | cons d r ih => intro v acc; exact ih _ _

theorem steps_red (d : Nat) (f : Nat → Nat → Nat → FRes) (v : Nat → Nat) :
    (Sweep.red d).steps f v = (List.range d).map fun i => f i (v i) (v (i + d)) := by
  simp [Sweep.steps, Sweep.red]

/-! ## What the elements hold -/

/-- An element with a rounded step's result and what it raised. -/
def FRes.step (r : FRes) : Step1 := ⟨r.bits, r.fstat, r.causes⟩

/-- What an element carries was raised by one of the results, or it carries nothing. -/
def RaisedBy (rs : List FRes) (x : Step1) : Prop := (x.fst = 0 ∧ x.causes = []) ∨ ∃ r ∈ rs, x.fst = r.fstat ∧ x.causes = r.causes

/-- The first `n` elements have the values `v`, and what any carries was raised by one of the results. -/
structure Holds (l : List Step1) (n : Nat) (v : Nat → Nat) (rs : List FRes) : Prop where
  vals : ∀ i < n, ((l[i]?).getD ⟨0, 0, []⟩).v = v i
  raised : ∀ x ∈ l, RaisedBy rs x

theorem RaisedBy.mono {rs rs' : List FRes} {x : Step1} (h : RaisedBy rs x) (hrs : rs ⊆ rs') : RaisedBy rs' x :=
  h.imp_right fun ⟨r, hr, hx⟩ => ⟨r, hrs hr, hx⟩

theorem Holds.raisedBy_get {l : List Step1} {n : Nat} {v : Nat → Nat} {rs : List FRes} (h : Holds l n v rs) (i : Nat) :
    RaisedBy rs ((l[i]?).getD ⟨0, 0, []⟩) := by
  cases hi : l[i]? with
  | none => exact .inl ⟨rfl, rfl⟩
  | some x => exact h.raised x (List.mem_of_getElem? hi)

theorem get_map_range (f : Nat → Step1) {n i : Nat} (h : i < n) : ((((List.range n).map f)[i]?).getD ⟨0, 0, []⟩) = f i := by
  simp [h]

section Rounded
variable {op : Nat → Step1 → Step1 → Step1} {f : Nat → Nat → Nat → FRes} (hop : ∀ i x y, op i x y = (f i x.v y.v).step)
include hop

/-- One sweep leaves its results, which raised what its elements carry. -/
theorem Holds.run {l : List Step1} {n : Nat} {v : Nat → Nat} {rs : List FRes} (h : Holds l n v rs) (w : Sweep)
    (hfit : ∀ i < w.count, if w.low ≤ i then w.left i < n ∧ w.right i < n else i < n) :
    Holds (w.run op l) w.count (w.next f v) (rs ++ w.steps f v) where
  vals i hi := by
    have hfit := hfit i hi
    rw [Sweep.run, get_map_range _ hi, Sweep.next]
    split_ifs at hfit ⊢ with hlow
    · rw [hop, h.vals _ hfit.1, h.vals _ hfit.2]; rfl
    · exact h.vals i hfit
  raised x hx := by
    obtain ⟨i, hi, rfl⟩ := List.mem_map.mp hx
    have hi := List.mem_range.mp hi
    have hfit := hfit i hi
    split_ifs at hfit ⊢ with hlow
    · rw [hop, h.vals _ hfit.1, h.vals _ hfit.2]
      refine .inr ⟨_, List.mem_append_right _ (List.mem_map.mpr ⟨i, ?_, rfl⟩), rfl, rfl⟩
      exact List.mem_filter.mpr ⟨List.mem_range.mpr hi, decide_eq_true hlow⟩
    · exact (h.raisedBy_get i).mono (List.subset_append_left _ _)

/-- Every step of a sweep leaves an element that carries what it raised. -/
theorem mem_run_of_mem_steps {l : List Step1} {n : Nat} {v : Nat → Nat} {rs : List FRes} (h : Holds l n v rs) (w : Sweep)
    (hfit : ∀ i < w.count, if w.low ≤ i then w.left i < n ∧ w.right i < n else i < n) {r : FRes} (hr : r ∈ w.steps f v) :
    r.step ∈ w.run op l := by
  obtain ⟨i, hi, rfl⟩ := List.mem_map.mp hr
  obtain ⟨hi, hlow⟩ := List.mem_filter.mp hi
  have hlow := of_decide_eq_true hlow
  have hfit := hfit i (List.mem_range.mp hi)
  rw [if_pos hlow] at hfit
  refine List.mem_map.mpr ⟨i, hi, ?_⟩
  rw [if_pos hlow, hop, h.vals _ hfit.1, h.vals _ hfit.2]

end Rounded

/-! ## What the steps raise -/

/-- The bits and the causes are those that the results raise. -/
structure Raised (acc : Nat × List Byte) (rs : List FRes) : Prop where
  bits : ∀ n, acc.1.testBit n = rs.any fun r => r.fstat.testBit n
  causes : ∀ k, acc.2.contains k = rs.any fun r => r.causes.contains k

theorem testBit_foldl_or {α : Type} (g : α → Nat) (l : List α) (n : Nat) : ∀ a : Nat,
    (l.foldl (fun x r => x ||| g r) a).testBit n = (a.testBit n || l.any fun r => (g r).testBit n) := by
  induction l with
  | nil => intro a; simp
  | cons x r ih => intro a; rw [List.foldl_cons, ih, Nat.testBit_or, List.any_cons, Bool.or_assoc]

theorem raised_nil : Raised (0, []) [] := ⟨fun n => Nat.zero_testBit n, fun _ => rfl⟩

theorem Raised.fst_eq {acc : Nat × List Byte} {rs : List FRes} (h : Raised acc rs) : acc.1 = rs.foldl (fun x r => x ||| r.fstat) 0 := by
  apply Nat.eq_of_testBit_eq
  intro n
  rw [h.bits, testBit_foldl_or, Nat.zero_testBit, Bool.false_or]

theorem raiseAll_eq (l : List Step1) : ∀ acc : Nat × List Byte,
    (∀ n, (raiseAll l acc).1.testBit n = (acc.1.testBit n || l.any fun x => x.fst.testBit n)) ∧
      ∀ k, (raiseAll l acc).2.contains k = (acc.2.contains k || l.any fun x => x.causes.contains k) := by
  unfold raiseAll
  induction l with
  | nil => intro acc; simp
  | cons x r ih =>
    intro acc
    obtain ⟨hbits, hcauses⟩ := ih (acc.1 ||| x.fst, acc.2 ++ x.causes)
    refine ⟨fun n => ?_, fun k => ?_⟩
    · rw [List.foldl_cons, hbits, Nat.testBit_or, List.any_cons, Bool.or_assoc]
    · rw [List.foldl_cons, hcauses, List.any_cons, List.contains_append, Bool.or_assoc]

/-- A property of what is raised, of the elements after a sweep: they carry what the results of before or the sweep's steps raised, and all that
the steps raised. -/
theorem any_elements_eq {l : List Step1} {rs new : List FRes} (hl : ∀ x ∈ l, RaisedBy (rs ++ new) x) (hnew : ∀ r ∈ new, r.step ∈ l)
    (p : Nat → List Byte → Bool) (hp : p 0 [] = false) :
    ((rs.any fun r => p r.fstat r.causes) || l.any fun x => p x.fst x.causes) = (rs ++ new).any fun r => p r.fstat r.causes := by
  rw [List.any_append, Bool.eq_iff_iff]
  simp only [Bool.or_eq_true, List.any_eq_true]
  constructor
  · rintro (h | ⟨x, hx, hpx⟩)
    · exact .inl h
    · rcases hl x hx with ⟨hf, hc⟩ | ⟨r, hr, hf, hc⟩
      · rw [hf, hc, hp] at hpx
        exact absurd hpx Bool.false_ne_true
      · rw [hf, hc] at hpx
        exact (List.mem_append.mp hr).imp (fun h => ⟨r, h, hpx⟩) fun h => ⟨r, h, hpx⟩
  · rintro (h | ⟨r, hr, hpr⟩)
    · exact .inl h
    · exact .inr ⟨r.step, hnew r hr, hpr⟩

theorem Raised.raiseAll {acc : Nat × List Byte} {l : List Step1} {rs new : List FRes} (h : Raised acc rs)
    (hl : ∀ x ∈ l, RaisedBy (rs ++ new) x) (hnew : ∀ r ∈ new, r.step ∈ l) : Raised (Machine.raiseAll l acc) (rs ++ new) where
  bits n := by
    rw [(raiseAll_eq l acc).1, h.bits]
    exact any_elements_eq hl hnew (fun a _ => a.testBit n) (Nat.zero_testBit n)
  causes k := by
    rw [(raiseAll_eq l acc).2, h.causes]
    exact any_elements_eq hl hnew (fun _ c => c.contains k) rfl

/-- The sweeps of rounded steps: the values that they leave, and what they raise. -/
theorem sweeps_spec {op : Nat → Step1 → Step1 → Step1} {f : Nat → Nat → Nat → FRes} (hop : ∀ i x y, op i x y = (f i x.v y.v).step)
    (ws : List Sweep) : ∀ {l : List Step1} {n : Nat} {v : Nat → Nat} {rs : List FRes} {acc : Nat × List Byte}, Holds l n v rs →
      Raised acc rs → sweepsFit n ws = true →
      (∀ i < ws.foldl (fun _ w => w.count) n,
        ((((ws.foldl (fun l w => w.run op l) l)[i]?).getD ⟨0, 0, []⟩).v = sweepVals f ws v i)) ∧
      Raised (sweepRaised op ws l acc) (rs ++ sweepSteps f ws v) := by
  induction ws with
  | nil =>
    intro l n v rs acc hl hacc _
    exact ⟨hl.vals, by rw [sweepSteps, List.append_nil]; exact hacc⟩
  | cons w r ih =>
    intro l n v rs acc hl hacc hfit
    obtain ⟨hw, hr⟩ := Bool.and_eq_true_iff.mp hfit
    have hfit : ∀ i < w.count, if w.low ≤ i then w.left i < n ∧ w.right i < n else i < n := by
      intro i hi
      have h := List.all_eq_true.mp hw i (List.mem_range.mpr hi)
      split_ifs at h ⊢ <;> exact of_decide_eq_true h
    have hrun := hl.run hop w hfit
    have hraised := hacc.raiseAll hrun.raised fun _ hr => mem_run_of_mem_steps hop hl w hfit hr
    rw [sweepSteps, ← List.append_assoc]
    exact ih hrun hraised hr

end Sys2Proof.Machine
end

section
/-!
PROOF. Float sums over the lanes (R43, R62, R126, R160, R161).
-/
namespace Sys2Proof.Machine

/-- A rounded step of a float sum over the lanes that writes lane `i` (R160). -/
def WEnv.sumStep (e : WEnv) (s : State) (t : FltTy) (j i x y : Nat) : FRes :=
  let base := match e.ix with
    | some r => if bit e.act i then e.src s i r else wd (8 * i)
    | none => wd (8 * i)
  rndExact t (e.ctlAt s (base + wd j)) (addVal (e.mode.getD .rne) (fval t x) (fval t y))

/-- The lanes' values of a sub-element, -0 for a lane that takes no part (R160). -/
def WEnv.sumStart (e : WEnv) (s : State) (a : Src) (w j i : Nat) : Nat := if bit e.act i then subBits (e.src s i a) w j else 2 ^ (w - 1)

/-- The sweeps of a scan or of a reduction (R62, R160). -/
def laneSweeps (scan : Bool) : List Sweep := if scan then [1, 2, 4, 8, 16].map Sweep.scan else [16, 8, 4, 2, 1].map Sweep.red

theorem faddOnly_eq (e : WEnv) (s : State) (t : FltTy) (j i : Nat) (x y : Step1) :
    faddOnly e s t j i x y = (e.sumStep s t j i x.v y.v).step := by
  have hbase : (if bit e.act i then e.ebase s i else wd (8 * i)) =
      match e.ix with
      | some r => if bit e.act i then e.src s i r else wd (8 * i)
      | none => wd (8 * i) := by
    unfold WEnv.ebase
    cases e.ix
    · exact ite_self _
    · rfl
  simp only [faddOnly, faddStep, hbase, Nat.or_self, Nat.zero_or, List.nil_append]
  rfl

theorem holds_lanes32 (e : WEnv) (s : State) (a : Src) (w j : Nat) (rs : List FRes) :
    Holds (lanes32 e s a w j (2 ^ (w - 1))) 32 (e.sumStart s a w j) rs where
  vals i hi := by rw [lanes32, get_map_range _ hi]; rfl
  raised x hx := by
    obtain ⟨i, -, rfl⟩ := List.mem_map.mp hx
    exact .inl ⟨rfl, rfl⟩

/-- The results of one sub-element: a lane's own, or one for all lanes. -/
theorem fold32_v (scan : Bool) (e : WEnv) (s : State) (t : FltTy) (a : Src) (j : Nat) {l : Nat} (hl : l < 32) :
    (((fold32 scan (faddOnly e s t j) (lanes32 e s a t.width j (2 ^ (t.width - 1))))[l]?).getD ⟨0, 0, []⟩).v =
      sweepVals (e.sumStep s t j) (laneSweeps scan) (e.sumStart s a t.width j) (if scan then l else 0) := by
  obtain ⟨hvals, -⟩ := sweeps_spec (faddOnly_eq e s t j) (laneSweeps scan) (holds_lanes32 e s a t.width j [])
    raised_nil (by cases scan <;> decide)
  cases scan with
  | true =>
    rw [fold32, if_pos rfl, scanFrom_eq_foldl]
    exact hvals l hl
  | false =>
    rw [fold32, if_neg Bool.false_ne_true, List.getElem?_replicate, if_pos hl, reduceFrom_eq_foldl, List.headD_eq_head?_getD,
      List.head?_eq_getElem?]
    exact hvals 0 Nat.one_pos

/-- What the steps of every sub-element raise. -/
theorem raised_steps (scan : Bool) (e : WEnv) (s : State) (t : FltTy) (a : Src) (js : List Nat) :
    ∀ {acc : Nat × List Byte} {rs : List FRes}, Raised acc rs →
      Raised (js.foldl (fun acc j =>
        let v := lanes32 e s a t.width j (2 ^ (t.width - 1))
        if scan then raisedScan (faddOnly e s t j) [1, 2, 4, 8, 16] v acc
        else raisedRed (faddOnly e s t j) [16, 8, 4, 2, 1] v acc) acc)
        (rs ++ js.flatMap fun j => sweepSteps (e.sumStep s t j) (laneSweeps scan) (e.sumStart s a t.width j)) := by
  induction js with
  | nil => intro acc rs h; rw [List.flatMap_nil, List.append_nil]; exact h
  | cons j r ih =>
    intro acc rs h
    obtain ⟨-, hj⟩ := sweeps_spec (faddOnly_eq e s t j) (laneSweeps scan) (holds_lanes32 e s a t.width j rs) h (by cases scan <;> decide)
    rw [List.flatMap_cons, ← List.append_assoc]
    refine ih ?_
    cases scan
    · change Raised (raisedRed _ _ _ _) _
      rw [raisedRed_eq]
      exact hj
    · change Raised (raisedScan _ _ _ _) _
      rw [raisedScan_eq]
      exact hj

/-- A float sum over the lanes: its results, the FSTAT bits and the records (R126, R160, R161). -/
theorem effect_faddFold {i : Instr} (scan : Bool) {d : Reg} {a : Src} {t : FltTy} (hx : ∀ s, exec i s = faddFold scan d a t s) :
    Effect i { ops := [a], dst := [d], accMode := true, accPol := true } fun e s t' =>
      let rs := (List.range (64 / t.width)).flatMap fun j => sweepSteps (e.sumStep s t j) (laneSweeps scan) (e.sumStart s a t.width j)
      let logged := if e.pol = some .trap then
        ([0x21, 0x22, 0x23] : List Byte).filter fun k => rs.any fun r => r.causes.contains k else []
      OnlyReg true d e (logged.foldl (fun s' k => e.post s' (e.logRec s k e.act)) s) t' ∧
      ∀ l, bit e.act l = true →
        (∀ j, j < 64 / t.width → subBits (readReg (e.lane t' l) d) t.width j =
          FltTy.deliver t (sweepVals (e.sumStep s t j) (laneSweeps scan) (e.sumStart s a t.width j) (if scan then l else 0)) % 2 ^ t.width) ∧
        (e.lane t' l).fstat = (e.lane s l).fstat ||| wd (rs.foldl (fun x r => x ||| r.fstat) 0) := by
  unfold faddFold at hx
  refine effect_of _ hx fun e b w => ?_
  simp only [foldl_post_writeWith]
  have hraised := raised_steps scan e b t a (List.range (64 / t.width)) raised_nil
  rw [List.nil_append] at hraised
  generalize (List.range (64 / t.width)).foldl _ ((0, []) : Nat × List Byte) = raised at hraised ⊢
  generalize (List.range (64 / t.width)).flatMap _ = rs at hraised ⊢
  have hlog : (if e.pol = some .trap then
        (([0x21, 0x22, 0x23] : List Byte).filter fun k => raised.2.contains k).map fun k => e.logRec b k e.act else []) =
      (if e.pol = some .trap then ([0x21, 0x22, 0x23] : List Byte).filter fun k => rs.any fun r => r.causes.contains k else []).map
        fun k => e.logRec b k e.act := by
    simp only [hraised.causes]
    split_ifs <;> rfl
  rw [hlog, List.foldl_map, ← hraised.fst_eq]
  refine ⟨onlyReg_writeWith _ _ _ _ _ _, fun l hl => ⟨fun j hj => ?_, ?_⟩⟩
  · have hl32 : l < 32 := BitVec.lt_of_getLsbD hl
    rw [readReg_writeWith _ _ _ _ _ _ _ hl, subBits_packSubs _ _ _ hj, ← fold32_v scan e b t a j hl32]
    simp [hj]
  · rw [fstat_writeWith _ _ _ _ _ _ _ hl, ← List.foldl_map (f := fun k => e.logRec b k e.act), lane_foldl_post]

/-- Settles O10: both words are the sweeps of `sumStep`, whose values and steps are those that the statement writes out. -/
theorem floatScanResults : Obligations.FloatScanResults := by
  unfold Obligations.FloatScanResults
  intro d a t
  refine ⟨effect_faddFold true fun _ => rfl, ?_⟩
  have h := effect_faddFold (i := .lredFadd d a t) false (d := d) (a := a) (t := t) fun _ => rfl
  simp only [laneSweeps, sweepSteps, List.map_cons, List.map_nil, Bool.false_eq_true, if_false, steps_red] at h
  exact h

end Sys2Proof.Machine
end

section
/-!
SUPPORT. Codes and fields of a word (R69 to R84): each partial decoder of a code is the inverse of the code, and a word is of a format
exactly when its fields are the given ones.
-/
namespace Sys2Proof

/-! ## Codes -/

@[simp] theorem Reg.code_lt (r : Reg) : r.code < 64 := by
  cases r <;> simp only [Reg.code] <;> omega

@[simp] theorem Src.code_lt (x : Src) : x.code < 64 := by
  cases x with
  | reg r => exact r.code_lt
  | k n => simp only [Src.code]; omega
  | z | lane | h => decide

@[simp] theorem IntTy.code_lt (t : IntTy) : t.code < 8 := by cases t <;> decide
@[simp] theorem FltTy.code_lt (t : FltTy) : t.code < 8 := by cases t <;> decide
@[simp] theorem NumTy.code_lt (t : NumTy) : t.code < 8 := by cases t <;> simp [NumTy.code]
@[simp] theorem DrainTy.code_lt (t : DrainTy) : t.code < 8 := by cases t <;> decide
@[simp] theorem ICond.code_lt (c : ICond) : c.code < 8 := by cases c <;> decide
@[simp] theorem FCond.code_lt (c : FCond) : c.code < 8 := by cases c <;> decide
@[simp] theorem Comb.code_lt (c : Comb) : c.code < 4 := by cases c <;> decide
@[simp] theorem FlagSel.code_lt (f : FlagSel) : f.code < 2 := by cases f <;> decide
@[simp] theorem LdSize.code_lt (z : LdSize) : z.code < 8 := by cases z <;> decide
@[simp] theorem StSize.code_lt (z : StSize) : z.code < 8 := by cases z <;> decide

/-- A predicate, context or barrier number fits a field of six bits. -/
@[simp] theorem fin8_lt (p : Fin 8) : (p : Nat) < 64 := by omega
@[simp] theorem fin16_lt (n : Fin 16) : (n : Nat) < 64 := by omega

/-- A partial decoder answers `x` exactly for the code of `x`, when it does so for that code and for no other. -/
theorem eq_ok_iff_of_inverse {α : Type} {f : Nat → Except DecErr α} {code : α → Nat} {n : Nat} {x : α}
    (hcode : f n = .ok x → n = code x) (hof : f (code x) = .ok x) : f n = .ok x ↔ n = code x :=
  ⟨hcode, fun h => h ▸ hof⟩

theorem srcOf_eq_ok {n : Nat} {x : Src} : srcOf n = .ok x ↔ n = x.code := by
  refine ⟨fun h => ?_, ?_⟩
  · unfold srcOf at h
    split_ifs at h <;> cases h <;> simp only [Src.code, Reg.code] <;> omega
  · rintro rfl
    rcases x with (⟨n, hn⟩ | ⟨n, hn⟩) | ⟨n, hn⟩ | - | - | -
    · simp [srcOf, Src.code, Reg.code, hn]
    · simp [srcOf, Src.code, Reg.code, hn]
    · have h : ¬ 42 + n - 40 < 2 := by omega
      simp [srcOf, Src.code, hn, h]; omega
    all_goals rfl

theorem dstOf_eq_ok {n : Nat} {d : Reg} : dstOf n = .ok d ↔ n = d.code := by
  refine ⟨fun h => ?_, ?_⟩
  · unfold dstOf at h
    split_ifs at h <;> cases h
    · rfl
    · simp only [Reg.code]; omega
  · rintro rfl
    rcases d with ⟨n, hn⟩ | ⟨n, hn⟩ <;> simp [dstOf, Reg.code, hn]

theorem predOfCode_eq_ok {n : Nat} {p : Fin 8} : predOfCode n = .ok p ↔ n = p := by
  unfold predOfCode
  split_ifs with h
  · simp [Fin.ext_iff]
  · simp only [false_iff]; omega

theorem fltTyOf_eq_ok {n : Nat} {t : FltTy} : fltTyOf n = .ok t ↔ n = t.code :=
  eq_ok_iff_of_inverse (fun h => by unfold fltTyOf at h; split at h <;> cases h <;> rfl) (by cases t <;> rfl)

theorem roundOf_eq_ok {n : Nat} {r : Round} : roundOf n = .ok r ↔ n = r.code :=
  eq_ok_iff_of_inverse (fun h => by unfold roundOf at h; split at h <;> cases h <;> rfl) (by cases r <;> rfl)

theorem icondOf_eq_ok {n : Nat} {c : ICond} : icondOf n = .ok c ↔ n = c.code :=
  eq_ok_iff_of_inverse (fun h => by unfold icondOf at h; split at h <;> cases h <;> rfl) (by cases c <;> rfl)

theorem combOf_eq_ok {n : Nat} {c : Comb} : combOf n = .ok c ↔ n = c.code :=
  eq_ok_iff_of_inverse (fun h => by unfold combOf at h; split at h <;> cases h <;> rfl) (by cases c <;> rfl)

theorem ldSizeOf_eq_ok {n : Nat} {z : LdSize} : ldSizeOf n = .ok z ↔ n = z.code :=
  eq_ok_iff_of_inverse (fun h => by unfold ldSizeOf at h; split at h <;> cases h <;> rfl) (by cases z <;> rfl)

theorem stSizeOf_eq_ok {n : Nat} {z : StSize} : stSizeOf n = .ok z ↔ n = z.code :=
  eq_ok_iff_of_inverse (fun h => by unfold stSizeOf at h; split at h <;> cases h <;> rfl) (by cases z <;> rfl)

theorem drainOf_eq_ok {n : Nat} {t : DrainTy} : drainOf n = .ok t ↔ n = t.code :=
  eq_ok_iff_of_inverse (fun h => by unfold drainOf at h; split at h <;> cases h <;> rfl) (by cases t <;> rfl)

theorem sregOf_eq_ok {n : Nat} {x : SReg} : sregOf n = .ok x ↔ n = x.code := by
  refine ⟨fun h => ?_, ?_⟩
  · unfold sregOf at h
    split at h <;> cases h <;> rfl
  · rintro rfl
    cases x with
    | seg n => fin_cases n <;> rfl
    | _ => rfl

theorem flagOf_eq_ok {n : Nat} {f : Option (Fin 12)} : flagOf n = .ok f ↔ n = flagCode f := by
  refine ⟨fun h => ?_, ?_⟩
  · unfold flagOf at h
    split_ifs at h <;> cases h
    · rfl
    · assumption
  · rintro rfl
    cases f with
    | none => rfl
    | some n => simp [flagOf, flagCode]

theorem intTyOf_eq {n : Nat} {t : IntTy} (hn : n < 8) : intTyOf n = t ↔ n = t.code := by
  constructor
  · rintro rfl; decide +revert
  · rintro rfl; cases t <;> rfl

theorem fcondOf_eq {n : Nat} {c : FCond} (hn : n < 8) : fcondOf n = c ↔ n = c.code := by
  constructor
  · rintro rfl; decide +revert
  · rintro rfl; cases c <;> rfl

theorem policyOf_eq {n : Nat} {p : Policy} (hn : n < 4) : policyOf n = p ↔ n = p.code := by
  constructor
  · rintro rfl; decide +revert
  · rintro rfl; cases p <;> rfl

theorem selOf_eq {n : Nat} {f : FlagSel} (hn : n < 2) : selOf n = f ↔ n = f.code := by
  constructor
  · rintro rfl; decide +revert
  · rintro rfl; cases f <;> rfl

/-! ## Fields -/

theorem bitsOf_lt (w : BitVec 32) (hi lo : Nat) : bitsOf w hi lo < 2 ^ (hi + 1 - lo) := Nat.mod_lt _ (by positivity)

/-- A field is its lower part and, above it, its higher part. -/
theorem bitsOf_split (w : BitVec 32) {hi mid lo : Nat} (hl : lo ≤ mid) (hh : mid ≤ hi) :
    bitsOf w hi lo = bitsOf w mid lo + 2 ^ (mid + 1 - lo) * bitsOf w hi (mid + 1) := by
  have hpow : 2 ^ (hi + 1 - lo) = 2 ^ (mid + 1 - lo) * 2 ^ (hi + 1 - (mid + 1)) := by
    rw [← pow_add]; congr 1; omega
  have hlo : 2 ^ (mid + 1) = 2 ^ lo * 2 ^ (mid + 1 - lo) := by
    rw [← pow_add]; congr 1; omega
  rw [bitsOf, bitsOf, bitsOf, hpow, hlo, ← Nat.div_div_eq_div_mul, Nat.mod_mul]

/-- A field whose lower and higher part are given. -/
theorem bitsOf_eq_add_iff (w : BitVec 32) {hi : Nat} (mid : Nat) {lo k c : Nat} (hl : lo ≤ mid) (hh : mid ≤ hi)
    (hk : k < 2 ^ (mid + 1 - lo)) :
    bitsOf w hi lo = k + 2 ^ (mid + 1 - lo) * c ↔ bitsOf w hi (mid + 1) = c ∧ bitsOf w mid lo = k := by
  have hlow := bitsOf_lt w mid lo
  rw [bitsOf_split w hl hh]
  refine ⟨fun h => ?_, fun ⟨hc, hk⟩ => by rw [hc, hk]⟩
  have hmod := congrArg (· % 2 ^ (mid + 1 - lo)) h
  have hdiv := congrArg (· / 2 ^ (mid + 1 - lo)) h
  simp only [Nat.add_mul_mod_self_left, Nat.mod_eq_of_lt hlow, Nat.mod_eq_of_lt hk] at hmod
  simp only [Nat.add_mul_div_left _ _ (Nat.two_pow_pos _), Nat.div_eq_of_lt hlow, Nat.div_eq_of_lt hk, Nat.zero_add] at hdiv
  exact ⟨hdiv, hmod⟩

theorem bitsOf_eq_zero_iff (w : BitVec 32) {hi : Nat} (mid : Nat) {lo : Nat} (hl : lo ≤ mid) (hh : mid ≤ hi) :
    bitsOf w hi lo = 0 ↔ bitsOf w hi (mid + 1) = 0 ∧ bitsOf w mid lo = 0 :=
  bitsOf_eq_add_iff w mid hl hh (Nat.two_pow_pos _) (c := 0)

/-- A word is an R-format word (R69) exactly when its six fields are the given ones. -/
theorem eq_encR_iff {w : BitVec 32} {M d a b t m : Nat} (hM : M < 64) (hd : d < 64) (ha : a < 64)
    (hb : b < 64) (ht : t < 8) (hm : m < 32) :
    w = encR M d a b t m ↔ bitsOf w 31 26 = M ∧ bitsOf w 25 20 = d ∧ bitsOf w 19 14 = a ∧ bitsOf w 13 8 = b ∧
      bitsOf w 7 5 = t ∧ bitsOf w 4 0 = m := by
  have hw := w.isLt
  simp only [← BitVec.toNat_inj, bitsOf, encR, BitVec.toNat_ofNat]
  omega

/-- The same of an I-format word, whose last two fields are imm8 and the minor. -/
theorem eq_encI_iff {w : BitVec 32} {M d a m : Nat} {i : BitVec 8} (hM : M < 64) (hd : d < 64)
    (ha : a < 64) (hm : m < 64) :
    w = encI M d a i m ↔ bitsOf w 31 26 = M ∧ bitsOf w 25 20 = d ∧ bitsOf w 19 14 = a ∧ fieldI w = i ∧ bitsOf w 5 0 = m := by
  have hw := w.isLt
  have hi := i.isLt
  simp only [← BitVec.toNat_inj, bitsOf, encI, fieldI, BitVec.toNat_ofNat]
  omega

theorem eq_encB_iff {w : BitVec 32} {k : Nat} {p : Fin 8} {disp : BitVec 20} (hk : k < 8) :
    w = encB k p disp ↔
      bitsOf w 31 26 = 0x17 ∧ bitsOf w 25 23 = k ∧ Fin.ofNat 8 (bitsOf w 22 20) = p ∧ BitVec.ofNat 20 (bitsOf w 19 0) = disp := by
  have hw := w.isLt
  have hi := disp.isLt
  have hp := p.isLt
  simp only [← BitVec.toNat_inj, Fin.ext_iff, Fin.ofNat, bitsOf, encB, BitVec.toNat_ofNat]
  omega

variable {w : BitVec 32}

@[simp] theorem fieldD_eq_ok {d : Reg} : fieldD w = .ok d ↔ bitsOf w 25 20 = d.code := dstOf_eq_ok
@[simp] theorem fieldV_eq_ok {v : Src} : fieldV w = .ok v ↔ bitsOf w 25 20 = v.code := srcOf_eq_ok
@[simp] theorem fieldA_eq_ok {a : Src} : fieldA w = .ok a ↔ bitsOf w 19 14 = a.code := srcOf_eq_ok
@[simp] theorem fieldB_eq_ok {b : Src} : fieldB w = .ok b ↔ bitsOf w 13 8 = b.code := srcOf_eq_ok
@[simp] theorem fieldF_eq_ok {t : FltTy} : fieldF w = .ok t ↔ bitsOf w 7 5 = t.code := fltTyOf_eq_ok
theorem fieldT_eq {t : IntTy} : fieldT w = t ↔ bitsOf w 7 5 = t.code := intTyOf_eq (bitsOf_lt w 7 5)

@[simp] theorem zero_eq_ok {hi lo : Nat} {u : Unit} : zero w hi lo = .ok u ↔ bitsOf w hi lo = 0 := by
  unfold zero
  split_ifs with h <;> simp [h]

@[simp] theorem bind_eq_ok {ε α β : Type} {x : Except ε α} {f : α → Except ε β} {b : β} :
    (x >>= f) = .ok b ↔ ∃ a, x = .ok a ∧ f a = .ok b := by
  cases x <;> simp [bind, Except.bind]

end Sys2Proof
end

section
/-!
SUPPORT. The shapes of R-format words (R69, R80): what each shape reads, and the words from which it reads it.
-/
namespace Sys2Proof

section Shapes
variable {w : BitVec 32} {i : Instr} {M m : Nat}

theorem bitsOf_25_5_eq_zero : bitsOf w 25 5 = 0 ↔ bitsOf w 25 20 = 0 ∧ bitsOf w 19 5 = 0 := bitsOf_eq_zero_iff w 19 (by decide) (by decide)
theorem bitsOf_19_5_eq_zero : bitsOf w 19 5 = 0 ↔ bitsOf w 19 14 = 0 ∧ bitsOf w 13 5 = 0 := bitsOf_eq_zero_iff w 13 (by decide) (by decide)
theorem bitsOf_13_5_eq_zero : bitsOf w 13 5 = 0 ↔ bitsOf w 13 8 = 0 ∧ bitsOf w 7 5 = 0 := bitsOf_eq_zero_iff w 7 (by decide) (by decide)

variable (hM : bitsOf w 31 26 = M) (hm : bitsOf w 4 0 = m)
include hM hm

/-- `eq_encR_iff` of a word whose major and minor are known. -/
theorem eq_encR_iff_of_minor {d a b t : Nat} (hd : d < 64) (ha : a < 64) (hb : b < 64) (ht : t < 8) :
    w = encR M d a b t m ↔ bitsOf w 25 20 = d ∧ bitsOf w 19 14 = a ∧ bitsOf w 13 8 = b ∧ bitsOf w 7 5 = t := by
  rw [eq_encR_iff (hM ▸ bitsOf_lt w 31 26) hd ha hb ht (hm ▸ bitsOf_lt w 4 0)]
  tauto

/-! Each shape reads its fields, which by `eq_encR_iff_of_minor` are those of one R-format word: the shape answers exactly for that word. -/

theorem shInt3_eq_ok {f : Reg → Src → Src → IntTy → Instr} :
    shInt3 f w = .ok i ↔ ∃ d a b t, w = encR M d.code a.code b.code t.code m ∧ f d a b t = i := by
  simp [shInt3, ← fieldT_eq, eq_encR_iff_of_minor hM hm, and_assoc]

theorem shInt2_eq_ok {f : Reg → Src → IntTy → Instr} :
    shInt2 f w = .ok i ↔ ∃ d a t, w = encR M d.code a.code 0 t.code m ∧ f d a t = i := by
  simp [shInt2, ← fieldT_eq, eq_encR_iff_of_minor hM hm, and_assoc]

theorem shBswap_eq_ok {f : Reg → Src → IntTy → Instr} :
    shBswap f w = .ok i ↔ ∃ d a t, t.byte = false ∧ w = encR M d.code a.code 0 t.code m ∧ f d a t = i := by
  unfold shBswap
  split_ifs with h <;> simp [shInt2_eq_ok hM hm, eq_encR_iff_of_minor hM hm, ← fieldT_eq, and_assoc, h]

theorem shNarrow3_eq_ok {f : Reg → Src → Src → IntTy → Instr} :
    shNarrow3 f w = .ok i ↔ ∃ d a b t, t.wide = false ∧ w = encR M d.code a.code b.code t.code m ∧ f d a b t = i := by
  unfold shNarrow3
  split_ifs with h <;> simp [shInt3_eq_ok hM hm, eq_encR_iff_of_minor hM hm, ← fieldT_eq, and_assoc, h]

theorem shNarrow2_eq_ok {f : Reg → Src → IntTy → Instr} :
    shNarrow2 f w = .ok i ↔ ∃ d a t, t.wide = false ∧ w = encR M d.code a.code 0 t.code m ∧ f d a t = i := by
  unfold shNarrow2
  split_ifs with h <;> simp [shInt2_eq_ok hM hm, eq_encR_iff_of_minor hM hm, ← fieldT_eq, and_assoc, h]

theorem shFlt3_eq_ok {f : Reg → Src → Src → FltTy → Instr} :
    shFlt3 f w = .ok i ↔ ∃ t d a b, w = encR M d.code a.code b.code t.code m ∧ f d a b t = i := by
  simp [shFlt3, eq_encR_iff_of_minor hM hm, and_assoc, and_left_comm]

theorem shFlt2_eq_ok {f : Reg → Src → FltTy → Instr} :
    shFlt2 f w = .ok i ↔ ∃ t d a, w = encR M d.code a.code 0 t.code m ∧ f d a t = i := by
  simp [shFlt2, eq_encR_iff_of_minor hM hm, and_assoc, and_left_comm]

theorem shFlt2Narrow_eq_ok {f : Reg → Src → FltTy → Instr} :
    shFlt2Narrow f w = .ok i ↔ ∃ t d a, t ≠ .f64 ∧ w = encR M d.code a.code 0 t.code m ∧ f d a t = i := by
  unfold shFlt2Narrow
  have hf64 (t : FltTy) : 2 = t.code ↔ t = .f64 := by cases t <;> decide
  split_ifs with h
  · simp [eq_encR_iff_of_minor hM hm, h, hf64]
  · rw [shFlt2_eq_ok hM hm]
    refine exists_congr fun t => ?_
    by_cases ht : t = .f64
    · have hcode : bitsOf w 7 5 ≠ t.code := by rw [ht]; exact h
      simp [eq_encR_iff_of_minor hM hm, hcode]
    · simp [ht]

theorem shReg3_eq_ok {f : Reg → Src → Src → Instr} :
    shReg3 f w = .ok i ↔ ∃ d a b, w = encR M d.code a.code b.code 0 m ∧ f d a b = i := by
  simp [shReg3, eq_encR_iff_of_minor hM hm, and_assoc]

theorem shReg2_eq_ok {f : Reg → Src → Instr} :
    shReg2 f w = .ok i ↔ ∃ d a, w = encR M d.code a.code 0 0 m ∧ f d a = i := by
  simp [shReg2, eq_encR_iff_of_minor hM hm, and_assoc, bitsOf_13_5_eq_zero]

theorem shSrc3_eq_ok {f : Src → Src → Src → Instr} :
    shSrc3 f w = .ok i ↔ ∃ d a b, w = encR M d.code a.code b.code 0 m ∧ f d a b = i := by
  simp [shSrc3, eq_encR_iff_of_minor hM hm, and_assoc]

theorem shXred_eq_ok {f : Src → Src → Src → Bool → Instr} :
    shXred f w = .ok i ↔ ∃ d a b signed, w = encR M d.code a.code b.code (if signed then 3 else 7) m ∧ f d a b signed = i := by
  by_cases h3 : bitsOf w 7 5 = 3
  · simp [shXred, eq_encR_iff_of_minor hM hm, and_assoc, h3]
  by_cases h7 : bitsOf w 7 5 = 7 <;> simp [shXred, eq_encR_iff_of_minor hM hm, and_assoc, h3, h7]

theorem shMadd_eq_ok {f : Src → Src → Src → Instr} :
    shMadd f w = .ok i ↔ ∃ d a b, w = encR M d.code a.code b.code 7 m ∧ f d a b = i := by
  by_cases h7 : bitsOf w 7 5 = 7 <;> simp [shMadd, eq_encR_iff_of_minor hM hm, and_assoc, h7]

theorem shAOnly_eq_ok {f : Src → Instr} : shAOnly f w = .ok i ↔ ∃ a, w = encR M 0 a.code 0 0 m ∧ f a = i := by
  simp [shAOnly, eq_encR_iff_of_minor hM hm, and_left_comm, and_assoc, bitsOf_13_5_eq_zero]

theorem shDOnly_eq_ok {f : Reg → Instr} : shDOnly f w = .ok i ↔ ∃ d, w = encR M d.code 0 0 0 m ∧ f d = i := by
  simp [shDOnly, eq_encR_iff_of_minor hM hm, and_assoc, bitsOf_19_5_eq_zero, bitsOf_13_5_eq_zero]

theorem shNone_eq_ok {j : Instr} : shNone j w = .ok i ↔ w = encR M 0 0 0 0 m ∧ j = i := by
  simp [shNone, eq_encR_iff_of_minor hM hm, and_assoc, bitsOf_25_5_eq_zero, bitsOf_19_5_eq_zero, bitsOf_13_5_eq_zero]

theorem shPred3_eq_ok {f : Fin 8 → Fin 8 → Fin 8 → Instr} :
    shPred3 f w = .ok i ↔ ∃ d a b : Fin 8, w = encR M d a b 0 m ∧ f d a b = i := by
  simp [shPred3, eq_encR_iff_of_minor hM hm, and_assoc, predOfCode_eq_ok]

theorem shPred2_eq_ok {f : Fin 8 → Fin 8 → Instr} :
    shPred2 f w = .ok i ↔ ∃ d a : Fin 8, w = encR M d a 0 0 m ∧ f d a = i := by
  simp [shPred2, eq_encR_iff_of_minor hM hm, and_assoc, predOfCode_eq_ok, bitsOf_13_5_eq_zero]

theorem shSel_eq_ok {f : Reg → Src → Src → Fin 8 → Instr} :
    shSel f w = .ok i ↔ ∃ d a b p, w = encR M d.code a.code b.code (p : Fin 8) m ∧ f d a b p = i := by
  simp [shSel, eq_encR_iff_of_minor hM hm, and_assoc, predOfCode_eq_ok]

/-- BALLOT and LPOPC, and ACLOSE, whose context number stands in the same field. -/
theorem shBallot_eq_ok {f : Reg → Fin 8 → Instr} :
    shBallot f w = .ok i ↔ ∃ d a, w = encR M d.code (a : Fin 8) 0 0 m ∧ f d a = i := by
  simp [shBallot, eq_encR_iff_of_minor hM hm, and_assoc, predOfCode_eq_ok, bitsOf_13_5_eq_zero]

theorem shAclose_eq_ok {f : Reg → Fin 8 → Instr} :
    shAclose f w = .ok i ↔ ∃ d c, w = encR M d.code (c : Fin 8) 0 0 m ∧ f d c = i := shBallot_eq_ok hM hm

theorem shBar_eq_ok {f : Fin 16 → Src → Instr} :
    shBar f w = .ok i ↔ ∃ a n, w = encR M (n : Fin 16) a.code 0 0 m ∧ f n a = i := by
  unfold shBar
  split_ifs with h
  · have hn (n : Fin 16) : bitsOf w 25 20 = n ↔ ⟨bitsOf w 25 20, h⟩ = n := (Fin.ext_iff (a := ⟨_, h⟩)).symm
    simp [eq_encR_iff_of_minor hM hm, and_assoc, bitsOf_13_5_eq_zero, hn]
  · have hn (n : Fin 16) : bitsOf w 25 20 ≠ n := fun hn => h (hn ▸ n.isLt)
    simp [eq_encR_iff_of_minor hM hm, hn]

theorem shDrain_eq_ok {f : Reg → Src → DrainTy → Instr} :
    shDrain f w = .ok i ↔ ∃ t d a, w = encR M d.code a.code 0 t.code m ∧ f d a t = i := by
  simp [shDrain, eq_encR_iff_of_minor hM hm, drainOf_eq_ok, and_assoc, and_left_comm]

theorem shMwait_eq_ok {f : Fin 8 → Src → Instr} :
    shMwait f w = .ok i ↔ ∃ p a, w = encR M (p : Fin 8) a.code 0 0 m ∧ f p a = i := by
  simp [shMwait, eq_encR_iff_of_minor hM hm, and_assoc, predOfCode_eq_ok, bitsOf_13_5_eq_zero]

theorem shEmit_eq_ok {f : Fin 8 → Src → Src → Instr} :
    shEmit f w = .ok i ↔ ∃ c a b, w = encR M (c : Fin 8) a.code b.code 0 m ∧ f c a b = i := by
  simp [shEmit, eq_encR_iff_of_minor hM hm, and_assoc, predOfCode_eq_ok]

end Shapes
end Sys2Proof
end

section
/-!
SUPPORT. Words of the other formats, and R-format words whose minor holds more than a member's number (R69, R72 to R85, R109, R131, R136).
-/
namespace Sys2Proof

variable {w : BitVec 32} {i : Instr} {M m : Nat}

/-! ## Minors of more than one part -/

theorem bitsOf_4_0_eq_add_8 {k c : Nat} (hk : k < 8) : bitsOf w 4 0 = k + 8 * c ↔ bitsOf w 4 3 = c ∧ bitsOf w 2 0 = k :=
  bitsOf_eq_add_iff w 2 (by decide) (by decide) hk

theorem bitsOf_4_0_eq_add_16 {k c : Nat} (hk : k < 16) : bitsOf w 4 0 = k + 16 * c ↔ bitsOf w 4 4 = c ∧ bitsOf w 3 0 = k :=
  bitsOf_eq_add_iff w 3 (by decide) (by decide) hk

theorem bitsOf_5_0_eq_add_8 {k c : Nat} (hk : k < 8) : bitsOf w 5 0 = k + 8 * c ↔ bitsOf w 5 3 = c ∧ bitsOf w 2 0 = k :=
  bitsOf_eq_add_iff w 2 (by decide) (by decide) hk

/-- The minor of an M-format word: size, flag select and segment (R82). -/
theorem bitsOf_5_0_eq_add_8_16 {z f g : Nat} (hz : z < 8) (hf : f < 2) :
    bitsOf w 5 0 = z + 8 * f + 16 * g ↔ bitsOf w 5 4 = g ∧ bitsOf w 3 3 = f ∧ bitsOf w 2 0 = z := by
  have hhigh := bitsOf_eq_add_iff w (hi := 5) 3 (lo := 0) (k := z + 8 * f) (c := g) (by decide) (by decide) (by norm_num; omega)
  have hlow := bitsOf_eq_add_iff w (hi := 3) 2 (lo := 0) (k := z) (c := f) (by decide) (by decide) (by norm_num; omega)
  norm_num at hhigh hlow
  rw [hhigh, hlow]

section Major
variable (hM : bitsOf w 31 26 = M)
include hM

theorem eq_encR_iff_of_major {d a b t : Nat} (hd : d < 64) (ha : a < 64) (hb : b < 64) (ht : t < 8) (hm : m < 32) :
    w = encR M d a b t m ↔
      bitsOf w 25 20 = d ∧ bitsOf w 19 14 = a ∧ bitsOf w 13 8 = b ∧ bitsOf w 7 5 = t ∧ bitsOf w 4 0 = m := by
  rw [eq_encR_iff (hM ▸ bitsOf_lt w 31 26) hd ha hb ht hm]
  tauto

theorem eq_encI_iff_of_major {d a : Nat} {v : BitVec 8} (hd : d < 64) (ha : a < 64) (hm : m < 64) :
    w = encI M d a v m ↔ bitsOf w 25 20 = d ∧ bitsOf w 19 14 = a ∧ fieldI w = v ∧ bitsOf w 5 0 = m := by
  rw [eq_encI_iff (hM ▸ bitsOf_lt w 31 26) hd ha hm]
  tauto

end Major

/-! ## Compares -/

theorem decIcmp_eq_ok (hM : bitsOf w 31 26 = 0x04) : decIcmp w = .ok i ↔ ∃ p a b c k t,
    w = encR 0x04 (p : Fin 8) a.code b.code t.code (k.code + 8 * c.code) ∧ .icmp p a b t c k = i := by
  have hm (k : ICond) (c : Comb) : k.code + 8 * c.code < 32 := by have := k.code_lt; have := c.code_lt; omega
  simp [decIcmp, predOfCode_eq_ok, combOf_eq_ok, icondOf_eq_ok, eq_encR_iff_of_major hM, hm, bitsOf_4_0_eq_add_8, ← fieldT_eq, and_assoc]

theorem decIcmpi_eq_ok (hM : bitsOf w 31 26 = 0x05) : decIcmpi w = .ok i ↔ ∃ p a v t k,
    w = encI 0x05 (p : Fin 8) a.code v (k.code + 8 * t.code) ∧ .icmpi p a v t k = i := by
  have hm (k : ICond) (t : IntTy) : k.code + 8 * t.code < 64 := by have := k.code_lt; have := t.code_lt; omega
  have ht (t : IntTy) : bitsOf w 5 3 = t.code ↔ intTyOf (bitsOf w 5 3) = t := (intTyOf_eq (bitsOf_lt w 5 3)).symm
  simp [decIcmpi, predOfCode_eq_ok, icondOf_eq_ok, eq_encI_iff_of_major hM, hm, bitsOf_5_0_eq_add_8, ht, and_assoc]

theorem decFcmp_eq_ok (hM : bitsOf w 31 26 = 0x0B) : decFcmp w = .ok i ↔ ∃ t p a b c k,
    w = encR 0x0B (p : Fin 8) a.code b.code t.code (k.code + 8 * c.code) ∧ .fcmp p a b t c k = i := by
  have hm (k : FCond) (c : Comb) : k.code + 8 * c.code < 32 := by have := k.code_lt; have := c.code_lt; omega
  have hk (k : FCond) : bitsOf w 2 0 = k.code ↔ fcondOf (bitsOf w 2 0) = k := (fcondOf_eq (bitsOf_lt w 2 0)).symm
  simp [decFcmp, predOfCode_eq_ok, combOf_eq_ok, eq_encR_iff_of_major hM, hm, bitsOf_4_0_eq_add_8, hk, and_assoc]
  grind

/-! ## Loads and stores -/

theorem fieldS_eq {g : Fin 4} : fieldS w = g ↔ bitsOf w 5 4 = g := by
  have := bitsOf_lt w 5 4
  simp only [fieldS, Fin.ofNat, Fin.ext_iff]
  omega

theorem selOf_bit_eq {f : FlagSel} (n : Nat) : selOf (bitsOf w n n) = f ↔ bitsOf w n n = f.code :=
  selOf_eq ((bitsOf_lt w n n).trans_eq (by simp))

theorem minor_ld_lt (z : LdSize) (f : FlagSel) (g : Fin 4) : z.code + 8 * f.code + 16 * g < 64 := by
  have := z.code_lt
  have := f.code_lt
  omega

theorem minor_st_lt (z : StSize) (g : Fin 4) : z.code + 16 * g < 64 := by
  have := z.code_lt
  omega

theorem decLd_eq_ok (hM : bitsOf w 31 26 = 0x10) : decLd w = .ok i ↔ ∃ d b v g f z,
    w = encI 0x10 d.code b.code v (z.code + 8 * f.code + 16 * (g : Fin 4)) ∧ .ld d b v g f z = i := by
  have h0 (z : LdSize) (f : FlagSel) (g : Fin 4) := bitsOf_5_0_eq_add_8_16 (w := w) (g := g) z.code_lt f.code_lt
  simp [decLd, ldSizeOf_eq_ok, eq_encI_iff_of_major hM, minor_ld_lt, h0, ← fieldS_eq, ← selOf_bit_eq, and_assoc]

theorem decSt_eq_ok (hM : bitsOf w 31 26 = 0x11) : decSt w = .ok i ↔ ∃ v b x g z,
    w = encI 0x11 v.code b.code x (z.code + 16 * (g : Fin 4)) ∧ .st v b x g z = i := by
  have h0 (z : StSize) (g : Fin 4) := bitsOf_5_0_eq_add_8_16 (w := w) (f := 0) (g := g) z.code_lt (by decide)
  simp only [Nat.mul_zero, Nat.add_zero] at h0
  simp [decSt, stSizeOf_eq_ok, eq_encI_iff_of_major hM, minor_st_lt, h0, ← fieldS_eq, and_assoc, and_left_comm]

/-- An indexed word of the M format: bits 7:6 are reserved, and the segment stands in bits 5:4 (R69, R82). -/
theorem eq_encR_indexed_iff {d a b : Nat} (hM : M < 64) (hd : d < 64) (ha : a < 64) (hb : b < 64) (hm : m < 64) :
    w = encR M d a b 0 m ↔ bitsOf w 31 26 = M ∧ bitsOf w 25 20 = d ∧ bitsOf w 19 14 = a ∧ bitsOf w 13 8 = b ∧ bitsOf w 7 6 = 0 ∧
      bitsOf w 5 0 = m := by
  have hw := w.isLt
  simp only [← BitVec.toNat_inj, bitsOf, encR, BitVec.toNat_ofNat]
  omega

theorem decLdx_eq_ok (hM : bitsOf w 31 26 = 0x12) : decLdx w = .ok i ↔ ∃ d b x g f z,
    w = encR 0x12 d.code b.code x.code 0 (z.code + 8 * f.code + 16 * (g : Fin 4)) ∧ .ldx d b x g f z = i := by
  have h0 (z : LdSize) (f : FlagSel) (g : Fin 4) := bitsOf_5_0_eq_add_8_16 (w := w) (g := g) z.code_lt f.code_lt
  simp [decLdx, ldSizeOf_eq_ok, eq_encR_indexed_iff, hM, minor_ld_lt, h0, ← fieldS_eq, ← selOf_bit_eq, and_assoc]

theorem decStx_eq_ok (hM : bitsOf w 31 26 = 0x13) : decStx w = .ok i ↔ ∃ v b x g z,
    w = encR 0x13 v.code b.code x.code 0 (z.code + 16 * (g : Fin 4)) ∧ .stx v b x g z = i := by
  have h0 (z : StSize) (g : Fin 4) := bitsOf_5_0_eq_add_8_16 (w := w) (f := 0) (g := g) z.code_lt (by decide)
  simp only [Nat.mul_zero, Nat.add_zero] at h0
  simp [decStx, stSizeOf_eq_ok, eq_encR_indexed_iff, hM, minor_st_lt, h0, ← fieldS_eq, and_assoc, and_left_comm]

/-! ## Conversions -/

theorem decCvt_eq_ok (hM : bitsOf w 31 26 = M) (hm : bitsOf w 4 0 = m) {dst src : NumTy} (ht : bitsOf w 7 5 = dst.code) :
    decCvt dst src w = .ok i ↔
      ∃ d a, cvtPair dst src = true ∧ w = encR M d.code a.code 0 dst.code m ∧ .cvt d a dst src = i := by
  cases hp : cvtPair dst src <;> simp [decCvt, hp, eq_encR_iff_of_minor hM hm, ht, and_assoc]

/-! ## System words -/

theorem fieldI_eq_ofNat {n : Nat} (hn : n < 256) : fieldI w = BitVec.ofNat 8 n ↔ bitsOf w 13 6 = n := by
  have := bitsOf_lt w 13 6
  rw [fieldI, ← BitVec.toNat_inj, BitVec.toNat_ofNat, BitVec.toNat_ofNat]
  omega

theorem SReg.code_lt (x : SReg) : x.code < 256 := by
  cases x with
  | seg n => simp only [SReg.code]; omega
  | _ => decide

section Sys
theorem bitsOf_25_6_eq_zero : bitsOf w 25 6 = 0 ↔ bitsOf w 25 14 = 0 ∧ bitsOf w 13 6 = 0 := bitsOf_eq_zero_iff w 13 (by decide) (by decide)
theorem bitsOf_25_14_eq_zero : bitsOf w 25 14 = 0 ↔ bitsOf w 25 20 = 0 ∧ bitsOf w 19 14 = 0 := bitsOf_eq_zero_iff w 19 (by decide) (by decide)

variable (hM : bitsOf w 31 26 = M) (hm : bitsOf w 5 0 = m)
include hM hm

theorem eq_encI_iff_of_minor {d a : Nat} {v : BitVec 8} (hd : d < 64) (ha : a < 64) :
    w = encI M d a v m ↔ bitsOf w 25 20 = d ∧ bitsOf w 19 14 = a ∧ fieldI w = v := by
  rw [eq_encI_iff_of_major hM hd ha (hm ▸ bitsOf_lt w 5 0)]
  tauto

theorem eq_encI_ofNat_iff {d a n : Nat} (hd : d < 64) (ha : a < 64) (hn : n < 256) :
    w = encI M d a (BitVec.ofNat 8 n) m ↔ bitsOf w 25 20 = d ∧ bitsOf w 19 14 = a ∧ bitsOf w 13 6 = n := by
  rw [eq_encI_iff_of_minor hM hm hd ha, fieldI_eq_ofNat hn]

theorem shSysA_eq_ok {f : Src → Instr} : shSysA f w = .ok i ↔ ∃ a, w = encI M 0 a.code 0 m ∧ f a = i := by
  simp [shSysA, and_assoc, and_left_comm, eq_encI_ofNat_iff hM hm (n := 0)]

theorem shSysCode_eq_ok {f : BitVec 8 → Instr} : shSysCode f w = .ok i ↔ ∃ c, w = encI M 0 0 c m ∧ f c = i := by
  simp [shSysCode, bitsOf_25_14_eq_zero, and_assoc, eq_encI_iff_of_minor hM hm]

theorem shSysNone_eq_ok {j : Instr} : shSysNone j w = .ok i ↔ w = encI M 0 0 0 m ∧ j = i := by
  simp [shSysNone, bitsOf_25_6_eq_zero, bitsOf_25_14_eq_zero, and_assoc, eq_encI_ofNat_iff hM hm (n := 0)]

theorem decSrd_eq_ok : decSrd w = .ok i ↔ ∃ d x, w = encI M d.code 0 (BitVec.ofNat 8 x.code) m ∧ .srd d x = i := by
  simp [decSrd, sregOf_eq_ok, eq_encI_ofNat_iff hM hm, SReg.code_lt, and_assoc]

theorem decSwr_eq_ok : decSwr w = .ok i ↔ ∃ a x, w = encI M 0 a.code (BitVec.ofNat 8 x.code) m ∧ .swr a x = i := by
  simp [decSwr, sregOf_eq_ok, eq_encI_ofNat_iff hM hm, SReg.code_lt, and_assoc, and_left_comm]
  grind

theorem decKset_eq_ok : decKset w = .ok i ↔ ∃ a k, w = encI M (42 + (k : Fin 16)) a.code 0 m ∧ .kset k a = i := by
  have hlt (k : Fin 16) : 42 + (k : Nat) < 64 := by omega
  unfold decKset
  split_ifs with h
  · have hk (k : Fin 16) : bitsOf w 25 20 = 42 + k ↔ ⟨bitsOf w 25 20 - 42, h.2⟩ = k := by rw [Fin.ext_iff]; dsimp only; omega
    simp [eq_encI_ofNat_iff hM hm (n := 0), hlt, hk, and_assoc]
  · have hk (k : Fin 16) : bitsOf w 25 20 ≠ 42 + k := by omega
    simp [eq_encI_ofNat_iff hM hm (n := 0), hlt, hk]

theorem decSegld_eq_ok : decSegld w = .ok i ↔ ∃ a n, w = encI M 0 a.code (BitVec.ofNat 8 (n : Fin 4)) m ∧ .segld a n = i := by
  have hlt (n : Fin 4) : (n : Nat) < 256 := by omega
  unfold decSegld
  split_ifs with h
  · have hn (n : Fin 4) : bitsOf w 13 6 = n ↔ ⟨bitsOf w 13 6, h⟩ = n := (Fin.ext_iff (a := ⟨_, h⟩)).symm
    simp [eq_encI_ofNat_iff hM hm, hlt, hn, and_assoc, and_left_comm]
  · have hn (n : Fin 4) : bitsOf w 13 6 ≠ n := fun hn => h (hn ▸ n.isLt)
    simp [eq_encI_ofNat_iff hM hm, hlt, hn]

end Sys

/-! ## Clause headers and hints -/

theorem flagCode_lt (f : Option (Fin 12)) : flagCode f < 16 := by
  cases f <;> simp only [flagCode] <;> omega

/-- The five fields of a clause header (R72). -/
theorem eq_clause_iff {len fa fb : Nat} {wait : BitVec 12} {yld : Bool} (hlen : len ≤ 24) (ha : fa < 16) (hb : fb < 16) :
    w = BitVec.ofNat 32 (len * 2 ^ 21 + wait.toNat * 2 ^ 9 + fa * 2 ^ 5 + fb * 2 + yld.toNat) ↔
      bitsOf w 31 26 = 0 ∧ bitsOf w 25 21 = len ∧ BitVec.ofNat 12 (bitsOf w 20 9) = wait ∧ bitsOf w 8 5 = fa ∧ bitsOf w 4 1 = fb ∧
        (bitsOf w 0 0 == 1) = yld := by
  have hw := w.isLt
  have hwait := wait.isLt
  cases yld <;> simp only [← BitVec.toNat_inj, bitsOf, BitVec.toNat_ofNat, beq_iff_eq, beq_eq_false_iff_ne, ne_eq, Bool.toNat_true,
    Bool.toNat_false] <;> omega

theorem decClause_eq_ok (hM : bitsOf w 31 26 = 0x00) : decClause w = .ok i ↔ ∃ len wait fla flb yld,
    (1 ≤ len ∧ len ≤ 24) ∧ w = BitVec.ofNat 32 (len * 2 ^ 21 + BitVec.toNat wait * 2 ^ 9 + flagCode fla * 2 ^ 5 + flagCode flb * 2 +
      Bool.toNat yld) ∧ .clause len wait fla flb yld = i := by
  simp only [decClause, bind_eq_ok, flagOf_eq_ok]
  constructor
  · rintro ⟨fla, ha, flb, hb, h⟩
    split_ifs at h with hlen
    cases h
    exact ⟨_, _, fla, flb, _, hlen, (eq_clause_iff hlen.2 (flagCode_lt _) (flagCode_lt _)).mpr ⟨hM, rfl, rfl, ha, hb, rfl⟩, rfl⟩
  · rintro ⟨len, wait, fla, flb, yld, hlen, hw, rfl⟩
    obtain ⟨-, rfl, rfl, ha, hb, rfl⟩ := (eq_clause_iff hlen.2 (flagCode_lt _) (flagCode_lt _)).mp hw
    exact ⟨fla, ha, flb, hb, if_pos hlen⟩

theorem eq_himm_iff {p : BitVec 24} : w = BitVec.ofNat 32 (0x04000000 + p.toNat) ↔
    bitsOf w 31 26 = 0x01 ∧ bitsOf w 25 24 = 0 ∧ BitVec.ofNat 24 (bitsOf w 23 0) = p := by
  have hw := w.isLt
  have hp := p.isLt
  simp only [← BitVec.toNat_inj, bitsOf, BitVec.toNat_ofNat]
  omega

theorem eq_hsched_iff {stay solo : Bool} : w = BitVec.ofNat 32 (0x05000000 + stay.toNat * 2 + solo.toNat) ↔
    bitsOf w 31 26 = 0x01 ∧ bitsOf w 25 24 = 1 ∧ bitsOf w 23 2 = 0 ∧ (bitsOf w 1 1 == 1) = stay ∧ (bitsOf w 0 0 == 1) = solo := by
  have hw := w.isLt
  cases stay <;> cases solo <;> simp only [← BitVec.toNat_inj, bitsOf, BitVec.toNat_ofNat, beq_iff_eq, beq_eq_false_iff_ne, ne_eq,
    Bool.toNat_true, Bool.toNat_false] <;> omega

/-- A field behind a valid bit, the two read as one number (R77); `ok` holds of the values that the field may name. -/
theorem optOf_eq_ok {α : Type} {f : Nat → Except DecErr α} {code : α → Nat} {ok : α → Bool} {mid lo : Nat} {x : Option α}
    (hf : ∀ y, f (bitsOf w mid lo) = .ok y ↔ ok y = true ∧ bitsOf w mid lo = code y) (hcode : ∀ y, code y < 2 ^ (mid + 1 - lo))
    (hl : lo ≤ mid) : optOf (bitsOf w (mid + 1) (mid + 1)) (bitsOf w mid lo) f = .ok x ↔
      x.all ok = true ∧ bitsOf w (mid + 1) lo = optCode code x (mid + 1 - lo) := by
  have hvalid := bitsOf_lt w (mid + 1) (mid + 1)
  rw [Nat.add_sub_cancel_left] at hvalid
  have hfield {k c : Nat} (hk : k < 2 ^ (mid + 1 - lo)) := bitsOf_eq_add_iff w (c := c) mid hl mid.le_succ hk
  cases x with
  | none =>
    have h0 := hfield (c := 0) (Nat.two_pow_pos _)
    simp only [Nat.mul_zero, Nat.add_zero] at h0
    simp only [optCode, h0, Option.all_none, true_and, optOf]
    split_ifs with hv hn
    · simp [hv, hn]
    · simp [hn]
    · cases f (bitsOf w mid lo) <;> simp [hv]
  | some y =>
    have h1 := hfield (c := 1) (hcode y)
    rw [Nat.mul_one, Nat.add_comm] at h1
    simp only [optCode, h1, Option.all_some, optOf]
    split_ifs with hv hn
    · simp [hv]
    · simp [hv]
    · have hv1 : bitsOf w (mid + 1) (mid + 1) = 1 := by omega
      rw [hv1, eq_self, true_and, ← hf y]
      cases f (bitsOf w mid lo) <;> simp

theorem optCode_lt {α : Type} {code : α → Nat} {k : Nat} (hcode : ∀ y, code y < 2 ^ k) (x : Option α) : optCode code x k < 2 ^ (k + 1) := by
  cases x with
  | none => exact Nat.two_pow_pos _
  | some y => rw [optCode, pow_succ]; have := hcode y; omega

theorem ixCode_eq (x : Option Src) : ixCode x = optCode Src.code x 6 := by cases x <;> rfl

theorem ixOf_eq_ok {n : Nat} {x : Src} : ixOf n = .ok x ↔ x.index = true ∧ n = x.code := by
  rw [← srcOf_eq_ok, ixOf]
  cases srcOf n with
  | error e => simp
  | ok y => by_cases hy : y.index = true <;> grind

theorem eq_harith_iff {o p x : Nat} (ho : o < 16) (hp : p < 8) (hx : x < 128) :
    w = BitVec.ofNat 32 (0x06000000 + o * 2 ^ 20 + p * 2 ^ 17 + x * 2 ^ 10) ↔
      bitsOf w 31 26 = 0x01 ∧ bitsOf w 25 24 = 2 ∧ bitsOf w 23 20 = o ∧ bitsOf w 19 17 = p ∧ bitsOf w 16 10 = x ∧ bitsOf w 9 0 = 0 := by
  have hw := w.isLt
  simp only [← BitVec.toNat_inj, bitsOf, BitVec.toNat_ofNat]
  omega

theorem Round.code_lt (r : Round) : r.code < 8 := by cases r <;> decide
theorem Policy.code_lt (p : Policy) : p.code < 4 := by cases p <;> decide

/-- A kind-2 hint (R77). -/
theorem decHint_arith_eq_ok (hM : bitsOf w 31 26 = 0x01) (hk : bitsOf w 25 24 = 2) :
    decHint w = .ok i ↔ ∃ mode pol ix, Option.all Src.index ix = true ∧
      w = BitVec.ofNat 32 (0x06000000 + optCode Round.code mode 3 * 2 ^ 20 + optCode Policy.code pol 2 * 2 ^ 17 + ixCode ix * 2 ^ 10) ∧
      .harith mode pol ix = i := by
  have hmode (x) : optOf (bitsOf w 23 23) (bitsOf w 22 20) roundOf = .ok x ↔ bitsOf w 23 20 = optCode Round.code x 3 :=
    (optOf_eq_ok (ok := fun _ => true) (fun y => by simp [roundOf_eq_ok]) Round.code_lt (by decide)).trans (by simp)
  have hpol (x) : optOf (bitsOf w 19 19) (bitsOf w 18 17) (fun n => .ok (policyOf n)) = .ok x ↔
      bitsOf w 19 17 = optCode Policy.code x 2 :=
    (optOf_eq_ok (ok := fun _ => true) (fun y => by simp [policyOf_eq (bitsOf_lt w 18 17)]) Policy.code_lt (by decide)).trans (by simp)
  have hix (x) : optOf (bitsOf w 16 16) (bitsOf w 15 10) ixOf = .ok x ↔ _ :=
    optOf_eq_ok (fun y => ixOf_eq_ok) Src.code_lt (by decide)
  have hw (mode pol ix) := eq_harith_iff (w := w) (optCode_lt (k := 3) Round.code_lt mode)
    (optCode_lt (k := 2) Policy.code_lt pol)
    (optCode_lt (k := 6) Src.code_lt ix)
  simp only [ixCode_eq, hw, hM, hk, true_and]
  simp only [decHint, hk, bind_eq_ok, hmode, hpol, hix]
  by_cases h0 : bitsOf w 9 0 = 0
  · simp only [h0, if_true, and_true]
    grind
  · simp [h0]

end Sys2Proof
end

section
/-!
SUPPORT. What the decoder answers is well formed and encodes to the word decoded (R68 to R86).
-/
namespace Sys2Proof

/-- The instruction is well formed and this is its word. -/
def Encodes (i : Instr) (w : BitVec 32) : Prop := i.wellFormed = true ∧ encode i = some w

variable {w : BitVec 32} {i : Instr}

theorem encodes_of_decIalu (hM : bitsOf w 31 26 = 0x02) (h : decIalu w = .ok i) : Encodes i w := by
  unfold decIalu at h
  split at h
  case h_24 => cases h
  case h_23 hm =>
    obtain ⟨d, a, t, ht, rfl, rfl⟩ := (shBswap_eq_ok hM hm).mp h
    exact ⟨congrArg not ht, rfl⟩
  case h_7 hm | h_8 hm | h_17 hm | h_18 hm | h_22 hm =>
    obtain ⟨d, a, t, rfl, rfl⟩ := (shInt2_eq_ok hM hm).mp h
    exact ⟨rfl, rfl⟩
  all_goals
    rename_i hm
    obtain ⟨d, a, b, t, rfl, rfl⟩ := (shInt3_eq_ok hM hm).mp h
    exact ⟨rfl, rfl⟩

theorem encodes_of_decMove (hM : bitsOf w 31 26 = 0x06) (h : decMove w = .ok i) : Encodes i w := by
  unfold decMove at h
  split at h
  case h_1 hm =>
    obtain ⟨d, a, rfl, rfl⟩ := (shReg2_eq_ok hM hm).mp h
    exact ⟨rfl, rfl⟩
  case h_2 hm =>
    obtain ⟨d, a, b, p, rfl, rfl⟩ := (shSel_eq_ok hM hm).mp h
    exact ⟨rfl, rfl⟩
  case h_3 hm | h_6 hm =>
    obtain ⟨d, a, t, ht, rfl, rfl⟩ := (shNarrow2_eq_ok hM hm).mp h
    exact ⟨congrArg not ht, rfl⟩
  case h_4 hm | h_5 hm =>
    obtain ⟨d, a, b, t, ht, rfl, rfl⟩ := (shNarrow3_eq_ok hM hm).mp h
    exact ⟨congrArg not ht, rfl⟩
  case h_7 hm | h_8 hm =>
    obtain ⟨d, a, b, t, rfl, rfl⟩ := (shInt3_eq_ok hM hm).mp h
    exact ⟨rfl, rfl⟩
  case h_9 => cases h

theorem encodes_of_decPred (hM : bitsOf w 31 26 = 0x08) (h : decPred w = .ok i) : Encodes i w := by
  unfold decPred at h
  split at h
  case h_1 hm | h_2 hm | h_3 hm =>
    obtain ⟨d, a, b, rfl, rfl⟩ := (shPred3_eq_ok hM hm).mp h
    exact ⟨rfl, rfl⟩
  case h_4 hm =>
    obtain ⟨d, a, rfl, rfl⟩ := (shPred2_eq_ok hM hm).mp h
    exact ⟨rfl, rfl⟩
  case h_5 hm =>
    obtain ⟨d, rfl, rfl⟩ := (shDOnly_eq_ok hM hm).mp h
    exact ⟨rfl, rfl⟩
  case h_6 hm =>
    obtain ⟨a, rfl, rfl⟩ := (shAOnly_eq_ok hM hm).mp h
    exact ⟨rfl, rfl⟩
  case h_7 => cases h

theorem encodes_of_decFalu (hM : bitsOf w 31 26 = 0x09) (h : decFalu w = .ok i) : Encodes i w := by
  unfold decFalu at h
  split at h
  case h_9 => cases h
  case h_6 hm | h_7 hm =>
    obtain ⟨t, d, a, rfl, rfl⟩ := (shFlt2_eq_ok hM hm).mp h
    exact ⟨rfl, rfl⟩
  all_goals
    rename_i hm
    obtain ⟨t, d, a, b, rfl, rfl⟩ := (shFlt3_eq_ok hM hm).mp h
    exact ⟨rfl, rfl⟩

theorem encodes_of_decFfma (hM : bitsOf w 31 26 = 0x0A) (h : decFfma w = .ok i) : Encodes i w := by
  unfold decFfma at h
  split at h
  case h_5 => cases h
  all_goals
    rename_i hm
    obtain ⟨t, d, a, b, rfl, rfl⟩ := (shFlt3_eq_ok hM hm).mp h
    exact ⟨rfl, rfl⟩

theorem encodes_of_decDot (hM : bitsOf w 31 26 = 0x0E) (h : decDot w = .ok i) : Encodes i w := by
  unfold decDot at h
  split at h
  case h_8 => cases h
  all_goals
    rename_i hm
    obtain ⟨d, a, b, rfl, rfl⟩ := (shReg3_eq_ok hM hm).mp h
    exact ⟨rfl, rfl⟩

theorem encodes_of_decLane (hM : bitsOf w 31 26 = 0x15) (h : decLane w = .ok i) : Encodes i w := by
  unfold decLane at h
  split at h
  case h_26 => cases h
  case h_1 hm | h_2 hm | h_3 hm =>
    obtain ⟨d, a, b, t, rfl, rfl⟩ := (shInt3_eq_ok hM hm).mp h
    exact ⟨rfl, rfl⟩
  case h_10 hm | h_11 hm | h_12 hm | h_19 hm | h_20 hm | h_21 hm =>
    obtain ⟨t, d, a, rfl, rfl⟩ := (shFlt2_eq_ok hM hm).mp h
    exact ⟨rfl, rfl⟩
  case h_22 hm | h_23 hm =>
    obtain ⟨d, a, rfl, rfl⟩ := (shPred2_eq_ok hM hm).mp h
    exact ⟨rfl, rfl⟩
  case h_24 hm | h_25 hm =>
    obtain ⟨d, a, rfl, rfl⟩ := (shBallot_eq_ok hM hm).mp h
    exact ⟨rfl, rfl⟩
  all_goals
    rename_i hm
    obtain ⟨d, a, t, rfl, rfl⟩ := (shInt2_eq_ok hM hm).mp h
    exact ⟨rfl, rfl⟩

theorem encodes_of_decConv (hM : bitsOf w 31 26 = 0x16) (h : decConv w = .ok i) : Encodes i w := by
  unfold decConv at h
  split at h
  case h_1 hm =>
    obtain ⟨a, rfl, rfl⟩ := (shAOnly_eq_ok hM hm).mp h
    exact ⟨rfl, rfl⟩
  case h_2 hm | h_3 hm =>
    obtain ⟨a, n, rfl, rfl⟩ := (shBar_eq_ok hM hm).mp h
    exact ⟨rfl, rfl⟩
  case h_4 => cases h

theorem encodes_of_decJr (hM : bitsOf w 31 26 = 0x18) (h : decJr w = .ok i) : Encodes i w := by
  unfold decJr at h
  split at h
  case h_1 hm =>
    obtain ⟨a, rfl, rfl⟩ := (shAOnly_eq_ok hM hm).mp h
    exact ⟨rfl, rfl⟩
  case h_2 hm =>
    obtain ⟨d, a, rfl, rfl⟩ := (shReg2_eq_ok hM hm).mp h
    exact ⟨rfl, rfl⟩
  case h_3 hm =>
    obtain ⟨rfl, rfl⟩ := (shNone_eq_ok hM hm).mp h
    exact ⟨rfl, rfl⟩
  case h_4 => cases h

theorem encodes_of_decXch (hM : bitsOf w 31 26 = 0x1A) (h : decXch w = .ok i) : Encodes i w := by
  unfold decXch at h
  split at h
  case h_17 => cases h
  case h_1 hm | h_2 hm | h_3 hm =>
    obtain ⟨d, a, b, rfl, rfl⟩ := (shSrc3_eq_ok hM hm).mp h
    exact ⟨rfl, rfl⟩
  case h_4 hm | h_5 hm | h_6 hm | h_7 hm | h_8 hm | h_9 hm =>
    obtain ⟨d, a, b, signed, rfl, rfl⟩ := (shXred_eq_ok hM hm).mp h
    exact ⟨rfl, rfl⟩
  case h_10 hm =>
    obtain ⟨d, a, b, rfl, rfl⟩ := (shMadd_eq_ok hM hm).mp h
    exact ⟨rfl, rfl⟩
  all_goals
    rename_i hm
    obtain ⟨a, rfl, rfl⟩ := (shAOnly_eq_ok hM hm).mp h
    exact ⟨rfl, rfl⟩

theorem encodes_of_decMat (hM : bitsOf w 31 26 = 0x1B) (h : decMat w = .ok i) : Encodes i w := by
  unfold decMat at h
  split at h
  case h_18 => cases h
  case h_14 hm =>
    obtain ⟨t, d, a, rfl, rfl⟩ := (shDrain_eq_ok hM hm).mp h
    exact ⟨rfl, rfl⟩
  case h_16 hm =>
    obtain ⟨p, a, rfl, rfl⟩ := (shMwait_eq_ok hM hm).mp h
    exact ⟨rfl, rfl⟩
  all_goals
    rename_i hm
    obtain ⟨d, a, rfl, rfl⟩ := (shReg2_eq_ok hM hm).mp h
    exact ⟨rfl, rfl⟩

theorem encodes_of_decWit (hM : bitsOf w 31 26 = 0x1C) (h : decWit w = .ok i) : Encodes i w := by
  unfold decWit at h
  split at h
  case h_1 hm =>
    obtain ⟨d, a, rfl, rfl⟩ := (shReg2_eq_ok hM hm).mp h
    exact ⟨rfl, rfl⟩
  case h_2 hm =>
    obtain ⟨c, a, b, rfl, rfl⟩ := (shEmit_eq_ok hM hm).mp h
    exact ⟨rfl, rfl⟩
  case h_3 hm =>
    obtain ⟨d, c, rfl, rfl⟩ := (shAclose_eq_ok hM hm).mp h
    exact ⟨rfl, rfl⟩
  case h_4 hm =>
    obtain ⟨a, rfl, rfl⟩ := (shAOnly_eq_ok hM hm).mp h
    exact ⟨rfl, rfl⟩
  case h_5 => cases h

theorem encodes_of_decIalui (hM : bitsOf w 31 26 = 0x03) (h : decIalui w = .ok i) : Encodes i w := by
  have ht : bitsOf w 5 3 = (intTyOf (bitsOf w 5 3)).code := (intTyOf_eq (bitsOf_lt w 5 3)).mp rfl
  have word {k d a : Nat} (hd : d < 64) (ha : a < 64) (hk : k < 8) (h20 : bitsOf w 2 0 = k) (h25 : bitsOf w 25 20 = d)
      (h19 : bitsOf w 19 14 = a) : w = encI 0x03 d a (fieldI w) (k + 8 * (intTyOf (bitsOf w 5 3)).code) := by
    have hlt := (intTyOf (bitsOf w 5 3)).code_lt
    rw [eq_encI_iff_of_major hM hd ha (by omega), bitsOf_5_0_eq_add_8 hk]
    exact ⟨h25, h19, rfl, ht, h20⟩
  simp only [decIalui, bind_eq_ok, fieldD_eq_ok] at h
  obtain ⟨d, hd, h⟩ := h
  split at h
  case isTrue h7 =>
    simp only [bind_eq_ok, zero_eq_ok] at h
    obtain ⟨-, ha, ⟨⟩⟩ := h
    exact ⟨rfl, congrArg some (word (by simp) (by simp) (by simp) h7 hd ha).symm⟩
  case isFalse h7 =>
    simp only [bind_eq_ok, fieldA_eq_ok] at h
    obtain ⟨a, ha, h⟩ := h
    have hlt := bitsOf_lt w 2 0
    split at h <;> cases h
    case h_7 =>
      simp only [imp_false] at *
      have h6 : bitsOf w 2 0 = 6 := by omega
      exact ⟨rfl, congrArg some (word (by simp) (by simp) (by simp) h6 hd ha).symm⟩
    all_goals exact ⟨rfl, congrArg some (word (by simp) (by simp) (by simp) ‹_› hd ha).symm⟩

theorem encodes_of_decIdiv (hM : bitsOf w 31 26 = 0x07) (h : decIdiv w = .ok i) : Encodes i w := by
  have hf : bitsOf w 4 4 = (selOf (bitsOf w 4 4)).code := (selOf_bit_eq 4).mp rfl
  unfold decIdiv at h
  split at h
  case h_3 => cases h
  all_goals
    rename_i hk
    obtain ⟨d, a, b, t, hw, rfl⟩ := (shInt3_eq_ok hM ((bitsOf_4_0_eq_add_16 (by decide)).mpr ⟨hf, hk⟩)).mp h
    exact ⟨rfl, congrArg some hw.symm⟩

theorem encodes_of_decSfu (hM : bitsOf w 31 26 = 0x0D) (h : decSfu w = .ok i) : Encodes i w := by
  have hf : bitsOf w 4 4 = (selOf (bitsOf w 4 4)).code := (selOf_bit_eq 4).mp rfl
  unfold decSfu at h
  split at h
  case h_9 => cases h
  case h_1 hk | h_3 hk =>
    obtain ⟨t, d, a, hw, rfl⟩ := (shFlt2_eq_ok hM ((bitsOf_4_0_eq_add_16 (by decide)).mpr ⟨hf, hk⟩)).mp h
    exact ⟨rfl, congrArg some hw.symm⟩
  case h_4 hk =>
    obtain ⟨t, d, a, b, hw, rfl⟩ := (shFlt3_eq_ok hM ((bitsOf_4_0_eq_add_16 (by decide)).mpr ⟨hf, hk⟩)).mp h
    exact ⟨rfl, congrArg some hw.symm⟩
  all_goals
    rename_i hk
    obtain ⟨t, d, a, ht, hw, rfl⟩ := (shFlt2Narrow_eq_ok hM ((bitsOf_4_0_eq_add_16 (by decide)).mpr ⟨hf, hk⟩)).mp h
    exact ⟨decide_eq_true ht, congrArg some hw.symm⟩

theorem encodes_of_decAtom (hM : bitsOf w 31 26 = 0x14) (h : decAtom w = .ok i) : Encodes i w := by
  unfold decAtom at h
  split at h
  case isFalse => cases h
  case isTrue hg =>
    have hlt := bitsOf_lt w 2 0
    split at h
    case h_8 =>
      simp only [imp_false] at *
      have hk : bitsOf w 2 0 = 7 := by omega
      obtain ⟨d, a, b, t, hw, rfl⟩ := (shInt3_eq_ok hM ((bitsOf_4_0_eq_add_8 (by decide)).mpr ⟨rfl, hk⟩)).mp h
      exact ⟨rfl, congrArg some hw.symm⟩
    all_goals
      rename_i hk
      obtain ⟨d, a, b, t, hw, rfl⟩ := (shInt3_eq_ok hM ((bitsOf_4_0_eq_add_8 (by decide)).mpr ⟨rfl, hk⟩)).mp h
      exact ⟨rfl, congrArg some hw.symm⟩

theorem FltTy.lt_three (t : FltTy) : t.code < 3 := by cases t <;> decide

theorem encodes_of_decFcvt (hM : bitsOf w 31 26 = 0x0C) (h : decFcvt w = .ok i) : Encodes i w := by
  have hT : bitsOf w 7 5 = (fieldT w).code := fieldT_eq.mp rfl
  have hI {n : Nat} (hn : n < 8) : n = (intTyOf n).code := (intTyOf_eq hn).mp rfl
  unfold decFcvt at h
  extract_lets m at h
  split_ifs at h with h3 h6 h14 h17 h20 h23 h26
  · simp only [bind_eq_ok, fltTyOf_eq_ok, fieldF_eq_ok] at h
    obtain ⟨s, hs, t, ht, h⟩ := h
    obtain ⟨d, a, hp, hw, rfl⟩ := (decCvt_eq_ok (dst := .flt t) hM hs ht).mp h
    exact ⟨hp, congrArg some hw.symm⟩
  · simp only [bind_eq_ok, fltTyOf_eq_ok] at h
    obtain ⟨s, hs, h⟩ := h
    obtain ⟨d, a, hp, hw, rfl⟩ := (decCvt_eq_ok (m := 3 + s.code) (dst := .int (fieldT w)) hM (by omega) hT).mp h
    exact ⟨hp, congrArg some hw.symm⟩
  · simp only [bind_eq_ok, fieldF_eq_ok] at h
    obtain ⟨t, ht, h⟩ := h
    have hs : bitsOf w 4 0 = 6 + (intTyOf (bitsOf w 4 0 - 6)).code := by rw [← hI (by omega)]; omega
    obtain ⟨d, a, hp, hw, rfl⟩ := (decCvt_eq_ok (dst := .flt t) hM hs ht).mp h
    exact ⟨hp, congrArg some hw.symm⟩
  · simp only [bind_eq_ok, fltTyOf_eq_ok] at h
    obtain ⟨s, hs, h⟩ := h
    obtain ⟨d, a, b, t, hw, rfl⟩ := (shInt3_eq_ok (m := 14 + s.code) hM (by omega)).mp h
    exact ⟨rfl, congrArg some hw.symm⟩
  · simp only [bind_eq_ok, fltTyOf_eq_ok] at h
    obtain ⟨s, hs, h⟩ := h
    obtain ⟨t, d, a, b, hw, rfl⟩ := (shFlt3_eq_ok (m := 17 + s.code) hM (by omega)).mp h
    exact ⟨rfl, congrArg some hw.symm⟩
  · simp only [bind_eq_ok, fltTyOf_eq_ok] at h
    obtain ⟨s, hs, h⟩ := h
    obtain ⟨t, d, a, b, hw, rfl⟩ := (shFlt3_eq_ok (m := 20 + s.code) hM (by omega)).mp h
    exact ⟨rfl, congrArg some hw.symm⟩
  · simp only [bind_eq_ok, fltTyOf_eq_ok] at h
    obtain ⟨s, hs, h⟩ := h
    obtain ⟨d, a, b, t, hw, rfl⟩ := (shInt3_eq_ok (m := 23 + s.code) hM (by omega)).mp h
    exact ⟨rfl, congrArg some hw.symm⟩

theorem encodes_of_decBr (hM : bitsOf w 31 26 = 0x17) (h : decBr w = .ok i) : Encodes i w := by
  have word {k : Nat} (hk : k < 8) (h25 : bitsOf w 25 23 = k) :
      w = encB k (Fin.ofNat 8 (bitsOf w 22 20)) (BitVec.ofNat 20 (bitsOf w 19 0)) := (eq_encB_iff hk).mpr ⟨hM, h25, rfl, rfl⟩
  unfold decBr at h
  split at h
  case h_5 hk | h_6 hk =>
    split_ifs at h with h0
    cases h
    refine ⟨rfl, congrArg some ?_⟩
    have hw := word (by decide) hk
    rw [h0] at hw
    exact hw.symm
  case h_7 => cases h
  all_goals
    rename_i hk
    cases h
    exact ⟨rfl, congrArg some (word (by decide) hk).symm⟩

theorem encodes_of_decSys (hM : bitsOf w 31 26 = 0x19) (h : decSys w = .ok i) : Encodes i w := by
  unfold decSys at h
  split at h
  case h_1 hm | h_4 hm | h_5 hm | h_6 hm =>
    obtain ⟨rfl, rfl⟩ := (shSysNone_eq_ok hM hm).mp h
    exact ⟨rfl, rfl⟩
  case h_2 hm | h_3 hm =>
    obtain ⟨c, rfl, rfl⟩ := (shSysCode_eq_ok hM hm).mp h
    exact ⟨rfl, rfl⟩
  case h_7 hm | h_12 hm =>
    obtain ⟨a, rfl, rfl⟩ := (shSysA_eq_ok hM hm).mp h
    exact ⟨rfl, rfl⟩
  case h_8 hm =>
    obtain ⟨d, x, rfl, rfl⟩ := (decSrd_eq_ok hM hm).mp h
    exact ⟨rfl, rfl⟩
  case h_9 hm =>
    obtain ⟨a, x, rfl, rfl⟩ := (decSwr_eq_ok hM hm).mp h
    exact ⟨rfl, rfl⟩
  case h_10 hm =>
    obtain ⟨a, n, rfl, rfl⟩ := (decKset_eq_ok hM hm).mp h
    exact ⟨rfl, rfl⟩
  case h_11 hm =>
    obtain ⟨a, n, rfl, rfl⟩ := (decSegld_eq_ok hM hm).mp h
    exact ⟨rfl, rfl⟩
  case h_13 => cases h


theorem encodes_of_decClause (hM : bitsOf w 31 26 = 0x00) (h : decClause w = .ok i) : Encodes i w := by
  obtain ⟨len, wait, fla, flb, yld, hlen, hw, rfl⟩ := (decClause_eq_ok hM).mp h
  exact ⟨by simp [Instr.wellFormed, hlen], congrArg some hw.symm⟩

theorem encodes_of_decHint (hM : bitsOf w 31 26 = 0x01) (h : decHint w = .ok i) : Encodes i w := by
  have hdec := h
  unfold decHint at h
  split at h
  case h_1 hk =>
    cases h
    exact ⟨rfl, congrArg some (eq_himm_iff.mpr ⟨hM, hk, rfl⟩).symm⟩
  case h_2 hk =>
    split_ifs at h with h0
    cases h
    exact ⟨rfl, congrArg some (eq_hsched_iff.mpr ⟨hM, hk, h0, rfl, rfl⟩).symm⟩
  case h_3 hk =>
    obtain ⟨mode, pol, ix, hix, hw, rfl⟩ := (decHint_arith_eq_ok hM hk).mp hdec
    exact ⟨hix, congrArg some hw.symm⟩
  case h_4 => cases h

/-- What the decoder answers is well formed, and encodes to the word decoded. -/
theorem encodes_of_decode (h : decode w = .ok i) : Encodes i w := by
  unfold decode at h
  split at h <;> rename_i hM
  case h_1 => exact encodes_of_decClause hM h
  case h_2 => exact encodes_of_decHint hM h
  case h_3 => exact encodes_of_decIalu hM h
  case h_4 => exact encodes_of_decIalui hM h
  case h_5 =>
    obtain ⟨p, a, b, c, k, t, rfl, rfl⟩ := (decIcmp_eq_ok hM).mp h
    exact ⟨rfl, rfl⟩
  case h_6 =>
    obtain ⟨p, a, v, t, k, rfl, rfl⟩ := (decIcmpi_eq_ok hM).mp h
    exact ⟨rfl, rfl⟩
  case h_7 => exact encodes_of_decMove hM h
  case h_8 => exact encodes_of_decIdiv hM h
  case h_9 => exact encodes_of_decPred hM h
  case h_10 => exact encodes_of_decFalu hM h
  case h_11 => exact encodes_of_decFfma hM h
  case h_12 =>
    obtain ⟨t, p, a, b, c, k, rfl, rfl⟩ := (decFcmp_eq_ok hM).mp h
    exact ⟨rfl, rfl⟩
  case h_13 => exact encodes_of_decFcvt hM h
  case h_14 => exact encodes_of_decSfu hM h
  case h_15 => exact encodes_of_decDot hM h
  case h_16 =>
    obtain ⟨d, b, v, g, f, z, rfl, rfl⟩ := (decLd_eq_ok hM).mp h
    exact ⟨rfl, rfl⟩
  case h_17 =>
    obtain ⟨v, b, x, g, z, rfl, rfl⟩ := (decSt_eq_ok hM).mp h
    exact ⟨rfl, rfl⟩
  case h_18 =>
    obtain ⟨d, b, x, g, f, z, rfl, rfl⟩ := (decLdx_eq_ok hM).mp h
    exact ⟨rfl, rfl⟩
  case h_19 =>
    obtain ⟨v, b, x, g, z, rfl, rfl⟩ := (decStx_eq_ok hM).mp h
    exact ⟨rfl, rfl⟩
  case h_20 => exact encodes_of_decAtom hM h
  case h_21 => exact encodes_of_decLane hM h
  case h_22 => exact encodes_of_decConv hM h
  case h_23 => exact encodes_of_decBr hM h
  case h_24 => exact encodes_of_decJr hM h
  case h_25 => exact encodes_of_decSys hM h
  case h_26 => exact encodes_of_decXch hM h
  case h_27 => exact encodes_of_decMat hM h
  case h_28 => exact encodes_of_decWit hM h
  case h_29 => cases h

end Sys2Proof
end

section
/-!
PROOF. Encoder and decoder agree (R68 to R86).
-/
namespace Sys2Proof

variable {w : BitVec 32} {i : Instr}

/-- An R-format word and its major and minor. -/
theorem encR_parts {M d a b t m : Nat} (h : some (encR M d a b t m) = some w) (hM : M < 64 := by simp) (hd : d < 64 := by simp)
    (ha : a < 64 := by simp) (hb : b < 64 := by simp) (ht : t < 8 := by simp) (hm : m < 32 := by simp) :
    w = encR M d a b t m ∧ bitsOf w 31 26 = M ∧ bitsOf w 4 0 = m := by
  have hw := (Option.some.inj h).symm
  obtain ⟨hM, -, -, -, -, hm⟩ := (eq_encR_iff hM hd ha hb ht hm).mp hw
  exact ⟨hw, hM, hm⟩

theorem encI_parts {M d a m : Nat} {v : BitVec 8} (h : some (encI M d a v m) = some w) (hM : M < 64 := by simp)
    (hd : d < 64 := by simp) (ha : a < 64 := by simp) (hm : m < 64 := by simp) :
    w = encI M d a v m ∧ bitsOf w 31 26 = M ∧ bitsOf w 5 0 = m := by
  have hw := (Option.some.inj h).symm
  obtain ⟨hM, -, -, -, hm⟩ := (eq_encI_iff hM hd ha hm).mp hw
  exact ⟨hw, hM, hm⟩

/-! ## FCVT: a member's minors, one for each source type (R81) -/

theorem decFcvt_cvt {dst src : NumTy} (hm : bitsOf w 4 0 = cvtMinor dst src) (ht : bitsOf w 7 5 = dst.code)
    (hp : cvtPair dst src = true) : decFcvt w = decCvt dst src w := by
  cases dst with
  | flt u =>
    have hF : fieldF w = .ok u := fieldF_eq_ok.mpr ht
    rcases src with v | v <;> cases v <;>
      simp [decFcvt, hm, cvtMinor, NumTy.isInt, FltTy.code, IntTy.code, fltTyOf, intTyOf, hF, bind, Except.bind]
  | int u =>
    have hT : fieldT w = u := fieldT_eq.mpr ht
    rcases src with v | v
    · cases hp
    · cases v <;> simp [decFcvt, hm, cvtMinor, NumTy.isInt, FltTy.code, fltTyOf, hT, bind, Except.bind]

theorem decFcvt_cvs_int {s : FltTy} (hm : bitsOf w 4 0 = 14 + s.code) :
    decFcvt w = shInt3 (fun d a b t => .cvs d a b (.int t) s) w := by
  cases s <;> simp [decFcvt, hm, FltTy.code, fltTyOf, bind, Except.bind]

theorem decFcvt_cvs_flt {s : FltTy} (hm : bitsOf w 4 0 = 17 + s.code) :
    decFcvt w = shFlt3 (fun d a b t => .cvs d a b (.flt t) s) w := by
  cases s <;> simp [decFcvt, hm, FltTy.code, fltTyOf, bind, Except.bind]

theorem decFcvt_srq_flt {s : FltTy} (hm : bitsOf w 4 0 = 20 + s.code) :
    decFcvt w = shFlt3 (fun d a b t => .srq d a b (.flt t) s) w := by
  cases s <;> simp [decFcvt, hm, FltTy.code, fltTyOf, bind, Except.bind]

theorem decFcvt_srq_int {s : FltTy} (hm : bitsOf w 4 0 = 23 + s.code) :
    decFcvt w = shInt3 (fun d a b t => .srq d a b (.int t) s) w := by
  cases s <;> simp [decFcvt, hm, FltTy.code, fltTyOf, bind, Except.bind]

theorem cvtMinor_lt (dst src : NumTy) : cvtMinor dst src < 32 := by
  unfold cvtMinor
  split
  · split_ifs <;> have := FltTy.code_lt ‹_› <;> omega
  · have := IntTy.code_lt ‹_›; omega

theorem decode_cvt {d : Reg} {a : Src} {dst src : NumTy} (hp : cvtPair dst src = true) (h : encode (.cvt d a dst src) = some w) :
    decode w = .ok (.cvt d a dst src) := by
  have hw := (Option.some.inj h).symm
  obtain ⟨hM, -, -, -, ht, hm⟩ := (eq_encR_iff (by simp) (by simp) (by simp) (by simp) dst.code_lt (cvtMinor_lt dst src)).mp hw
  unfold decode
  rw [hM]
  exact (decFcvt_cvt hm ht hp).trans ((decCvt_eq_ok hM hm ht).mpr ⟨_, _, hp, hw, rfl⟩)

theorem decode_cvs {d : Reg} {a b : Src} {dst : NumTy} {s : FltTy} (h : encode (.cvs d a b dst s) = some w) :
    decode w = .ok (.cvs d a b dst s) := by
  have hs := s.lt_three
  cases dst with
  | int t =>
    obtain ⟨hw, hM, hm⟩ := encR_parts (m := 14 + s.code) h (hm := by omega)
    unfold decode
    rw [hM]
    exact (decFcvt_cvs_int hm).trans ((shInt3_eq_ok hM hm).mpr ⟨_, _, _, _, hw, rfl⟩)
  | flt t =>
    obtain ⟨hw, hM, hm⟩ := encR_parts (m := 17 + s.code) h (hm := by omega)
    unfold decode
    rw [hM]
    exact (decFcvt_cvs_flt hm).trans ((shFlt3_eq_ok hM hm).mpr ⟨_, _, _, _, hw, rfl⟩)

theorem decode_srq {d : Reg} {a b : Src} {dst : NumTy} {s : FltTy} (h : encode (.srq d a b dst s) = some w) :
    decode w = .ok (.srq d a b dst s) := by
  have hs := s.lt_three
  cases dst with
  | int t =>
    obtain ⟨hw, hM, hm⟩ := encR_parts (m := 23 + s.code) h (hm := by omega)
    unfold decode
    rw [hM]
    exact (decFcvt_srq_int hm).trans ((shInt3_eq_ok hM hm).mpr ⟨_, _, _, _, hw, rfl⟩)
  | flt t =>
    obtain ⟨hw, hM, hm⟩ := encR_parts (m := 20 + s.code) h (hm := by omega)
    unfold decode
    rw [hM]
    exact (decFcvt_srq_flt hm).trans ((shFlt3_eq_ok hM hm).mpr ⟨_, _, _, _, hw, rfl⟩)

/-- The word of a well-formed instruction decodes to it. -/
theorem decode_of_encodes (h : Encodes i w) : decode w = .ok i := by
  obtain ⟨hwf, h⟩ := h
  cases i
  -- R-format words whose minor is the member's number
  case add | sub | mul | mulh | min | max | and | or | xor | andn | shl | shr | sar | rol | adds | subs | avg | bfx | bfi
      | lshf | lrot | lbcst =>
    obtain ⟨hw, hM, hm⟩ := encR_parts h
    unfold decode decIalu decMove decLane
    rw [hM, hm]
    exact (shInt3_eq_ok hM hm).mpr ⟨_, _, _, _, hw, rfl⟩
  case abs | neg | clz | popc | brev | lscanAdd | lscanMin | lscanMax | lscanAnd | lscanOr | lscanXor | lredAdd | lredMin
      | lredMax | lredAnd | lredOr | lredXor =>
    obtain ⟨hw, hM, hm⟩ := encR_parts h
    unfold decode decIalu decLane
    rw [hM, hm]
    exact (shInt2_eq_ok hM hm).mpr ⟨_, _, _, hw, rfl⟩
  case bswap =>
    obtain ⟨hw, hM, hm⟩ := encR_parts h
    unfold decode decIalu
    rw [hM, hm]
    exact (shBswap_eq_ok hM hm).mpr ⟨_, _, _, Bool.not_eq_true' _ ▸ hwf, hw, rfl⟩
  case extw | unpk =>
    obtain ⟨hw, hM, hm⟩ := encR_parts h
    unfold decode decMove
    rw [hM, hm]
    exact (shNarrow2_eq_ok hM hm).mpr ⟨_, _, _, Bool.not_eq_true' _ ▸ hwf, hw, rfl⟩
  case trunc | pack =>
    obtain ⟨hw, hM, hm⟩ := encR_parts h
    unfold decode decMove
    rw [hM, hm]
    exact (shNarrow3_eq_ok hM hm).mpr ⟨_, _, _, _, Bool.not_eq_true' _ ▸ hwf, hw, rfl⟩
  case fadd | fsub | fmul | fmin | fmax | fcpys | fma | fms | fnma | fnms =>
    obtain ⟨hw, hM, hm⟩ := encR_parts h
    unfold decode decFalu decFfma
    rw [hM, hm]
    exact (shFlt3_eq_ok hM hm).mpr ⟨_, _, _, _, hw, rfl⟩
  case fabs | fneg | lscanFadd | lscanFmin | lscanFmax | lredFadd | lredFmin | lredFmax =>
    obtain ⟨hw, hM, hm⟩ := encR_parts h
    unfold decode decFalu decLane
    rw [hM, hm]
    exact (shFlt2_eq_ok hM hm).mpr ⟨_, _, _, hw, rfl⟩
  case dotI8 | dotN8 | dotIn8 | dotI4 | dotN4 | dotI16 | fdotF16 =>
    obtain ⟨hw, hM, hm⟩ := encR_parts h
    unfold decode decDot
    rw [hM, hm]
    exact (shReg3_eq_ok hM hm).mpr ⟨_, _, _, hw, rfl⟩
  case mov | callr | mldb | mmaI4 | mmaN4 | mmaI8 | mmaN8 | mmaI16 | mmaN16 | mconvI4 | mconvN4 | mconvI8 | mconvN8 | mconvI16
      | mconvN16 | mzero | mstat | awit =>
    obtain ⟨hw, hM, hm⟩ := encR_parts h
    unfold decode decMove decJr decMat decWit
    rw [hM, hm]
    exact (shReg2_eq_ok hM hm).mpr ⟨_, _, hw, rfl⟩
  case wtop | ljoin | jr | xfence | xprom | topen | tseal | xcnt | xqset | await =>
    obtain ⟨hw, hM, hm⟩ := encR_parts h
    unfold decode decPred decConv decJr decXch decWit
    rw [hM, hm]
    exact (shAOnly_eq_ok hM hm).mpr ⟨_, hw, rfl⟩
  case ptow =>
    obtain ⟨hw, hM, hm⟩ := encR_parts h
    unfold decode decPred
    rw [hM, hm]
    exact (shDOnly_eq_ok hM hm).mpr ⟨_, hw, rfl⟩
  case ret =>
    obtain ⟨hw, hM, hm⟩ := encR_parts h
    unfold decode decJr
    rw [hM, hm]
    exact (shNone_eq_ok hM hm).mpr ⟨hw, rfl⟩
  case sel =>
    obtain ⟨hw, hM, hm⟩ := encR_parts h (ht := Fin.isLt _)
    unfold decode decMove
    rw [hM, hm]
    exact (shSel_eq_ok hM hm).mpr ⟨_, _, _, _, hw, rfl⟩
  case pand | por | pxor =>
    obtain ⟨hw, hM, hm⟩ := encR_parts h
    unfold decode decPred
    rw [hM, hm]
    exact (shPred3_eq_ok hM hm).mpr ⟨_, _, _, hw, rfl⟩
  case pnot | voteAny | voteAll =>
    obtain ⟨hw, hM, hm⟩ := encR_parts h
    unfold decode decPred decLane
    rw [hM, hm]
    exact (shPred2_eq_ok hM hm).mpr ⟨_, _, hw, rfl⟩
  case ballot | lpopc | aclose =>
    obtain ⟨hw, hM, hm⟩ := encR_parts h
    unfold decode decLane decWit
    rw [hM, hm]
    exact (shBallot_eq_ok hM hm).mpr ⟨_, _, hw, rfl⟩
  case bar | barv =>
    obtain ⟨hw, hM, hm⟩ := encR_parts h
    unfold decode decConv
    rw [hM, hm]
    exact (shBar_eq_ok hM hm).mpr ⟨_, _, hw, rfl⟩
  case xld | xst | xcpy =>
    obtain ⟨hw, hM, hm⟩ := encR_parts h
    unfold decode decXch
    rw [hM, hm]
    exact (shSrc3_eq_ok hM hm).mpr ⟨_, _, _, hw, rfl⟩
  case xredAdd | xredMin | xredMax | xredAnd | xredOr | xredXor =>
    obtain ⟨hw, hM, hm⟩ := encR_parts h (ht := by split_ifs <;> decide)
    unfold decode decXch
    rw [hM, hm]
    exact (shXred_eq_ok hM hm).mpr ⟨_, _, _, _, hw, rfl⟩
  case xredMadd =>
    obtain ⟨hw, hM, hm⟩ := encR_parts h
    unfold decode decXch
    rw [hM, hm]
    exact (shMadd_eq_ok hM hm).mpr ⟨_, _, _, hw, rfl⟩
  case mdrain =>
    obtain ⟨hw, hM, hm⟩ := encR_parts h
    unfold decode decMat
    rw [hM, hm]
    exact (shDrain_eq_ok hM hm).mpr ⟨_, _, _, hw, rfl⟩
  case mwait =>
    obtain ⟨hw, hM, hm⟩ := encR_parts h
    unfold decode decMat
    rw [hM, hm]
    exact (shMwait_eq_ok hM hm).mpr ⟨_, _, hw, rfl⟩
  case aemit =>
    obtain ⟨hw, hM, hm⟩ := encR_parts h
    unfold decode decWit
    rw [hM, hm]
    exact (shEmit_eq_ok hM hm).mpr ⟨_, _, _, hw, rfl⟩
  -- R-format words whose minor has a second part
  case icmp p a b t c k =>
    obtain ⟨hw, hM, -⟩ := encR_parts h (hm := by have := k.code_lt; have := c.code_lt; omega)
    unfold decode
    rw [hM]
    exact (decIcmp_eq_ok hM).mpr ⟨_, _, _, _, _, _, hw, rfl⟩
  case fcmp p a b t c k =>
    obtain ⟨hw, hM, -⟩ := encR_parts h (hm := by have := k.code_lt; have := c.code_lt; omega)
    unfold decode
    rw [hM]
    exact (decFcmp_eq_ok hM).mpr ⟨_, _, _, _, _, _, hw, rfl⟩
  case div d a b t f | rem d a b t f =>
    obtain ⟨hw, hM, hm⟩ := encR_parts h (hm := by have := f.code_lt; omega)
    obtain ⟨hf, hk⟩ := (bitsOf_4_0_eq_add_16 (by decide)).mp hm
    unfold decode decIdiv
    rw [hM, hk, (selOf_bit_eq 4).mpr hf]
    exact (shInt3_eq_ok hM hm).mpr ⟨_, _, _, _, hw, rfl⟩
  case rcp d a t f | sqrt d a t f =>
    obtain ⟨hw, hM, hm⟩ := encR_parts h (hm := by have := f.code_lt; omega)
    obtain ⟨hf, hk⟩ := (bitsOf_4_0_eq_add_16 (by decide)).mp hm
    unfold decode decSfu
    rw [hM, hk, (selOf_bit_eq 4).mpr hf]
    exact (shFlt2_eq_ok hM hm).mpr ⟨_, _, _, hw, rfl⟩
  case fdiv d a b t f =>
    obtain ⟨hw, hM, hm⟩ := encR_parts h (hm := by have := f.code_lt; omega)
    obtain ⟨hf, hk⟩ := (bitsOf_4_0_eq_add_16 (by decide)).mp hm
    unfold decode decSfu
    rw [hM, hk, (selOf_bit_eq 4).mpr hf]
    exact (shFlt3_eq_ok hM hm).mpr ⟨_, _, _, _, hw, rfl⟩
  case rsq d a t f | exp2 d a t f | log2 d a t f | sinpi d a t f | cospi d a t f =>
    obtain ⟨hw, hM, hm⟩ := encR_parts h (hm := by have := f.code_lt; omega)
    obtain ⟨hf, hk⟩ := (bitsOf_4_0_eq_add_16 (by decide)).mp hm
    unfold decode decSfu
    rw [hM, hk, (selOf_bit_eq 4).mpr hf]
    exact (shFlt2Narrow_eq_ok hM hm).mpr ⟨_, _, _, of_decide_eq_true hwf, hw, rfl⟩
  case aadd d a b t g | amin d a b t g | amax d a b t g | aand d a b t g | aor d a b t g | axor d a b t g | axchg d a b t g
      | acas d a b t g =>
    obtain ⟨hw, hM, hm⟩ := encR_parts h (hm := by omega)
    obtain ⟨hg, hk⟩ := (bitsOf_4_0_eq_add_8 (by decide)).mp hm
    unfold decode
    rw [hM]
    simp only [decAtom, hg, hk, g.isLt, dif_pos]
    exact (shInt3_eq_ok hM hm).mpr ⟨_, _, _, _, hw, rfl⟩
  case cvt d a dst src => exact decode_cvt hwf h
  case cvs d a b dst src => exact decode_cvs h
  case srq d a b dst src => exact decode_srq h
  -- I-format, M-format and B-format words
  case addi d a v t | andi d a v t | ori d a v t | xori d a v t | shli d a v t | shri d a v t | sari d a v t | movi d v t =>
    obtain ⟨hM, hd, ha, hv, hm⟩ := (eq_encI_iff (by simp) (by simp) (by simp) (by have := t.code_lt; omega)).mp (Option.some.inj h).symm
    obtain ⟨ht, hk⟩ := (bitsOf_5_0_eq_add_8 (by decide)).mp hm
    unfold decode
    rw [hM]
    simp [decIalui, hd, ha, hk, hv, (intTyOf_eq (bitsOf_lt w 5 3)).mpr ht]
  case icmpi p a v t k =>
    obtain ⟨hw, hM, -⟩ := encI_parts h (hm := by have := k.code_lt; have := t.code_lt; omega)
    unfold decode
    rw [hM]
    exact (decIcmpi_eq_ok hM).mpr ⟨_, _, _, _, _, hw, rfl⟩
  case ld d b v g f z =>
    obtain ⟨hw, hM, -⟩ := encI_parts h (hm := minor_ld_lt z f g)
    unfold decode
    rw [hM]
    exact (decLd_eq_ok hM).mpr ⟨_, _, _, _, _, _, hw, rfl⟩
  case st v b x g z =>
    obtain ⟨hw, hM, -⟩ := encI_parts h (hm := minor_st_lt z g)
    unfold decode
    rw [hM]
    exact (decSt_eq_ok hM).mpr ⟨_, _, _, _, _, hw, rfl⟩
  case ldx d b x g f z =>
    have hw := (Option.some.inj h).symm
    obtain ⟨hM, -⟩ := (eq_encR_indexed_iff (by simp) (by simp) (by simp) (by simp) (minor_ld_lt z f g)).mp hw
    unfold decode
    rw [hM]
    exact (decLdx_eq_ok hM).mpr ⟨_, _, _, _, _, _, hw, rfl⟩
  case stx v b x g z =>
    have hw := (Option.some.inj h).symm
    obtain ⟨hM, -⟩ := (eq_encR_indexed_iff (by simp) (by simp) (by simp) (by simp) (minor_st_lt z g)).mp hw
    unfold decode
    rw [hM]
    exact (decStx_eq_ok hM).mpr ⟨_, _, _, _, _, hw, rfl⟩
  case brDiv | brAny | brAll | brNone =>
    obtain ⟨hM, hk, hp, hd⟩ := (eq_encB_iff (by decide)).mp (Option.some.inj h).symm
    unfold decode decBr
    rw [hM, hk, hp, hd]
    rfl
  case jmp | call =>
    obtain ⟨hM, hk, hp, hd⟩ := (eq_encB_iff (by decide)).mp (Option.some.inj h).symm
    have h0 : bitsOf w 22 20 = 0 := by
      have := bitsOf_lt w 22 20
      simp only [Fin.ofNat, Fin.ext_iff, Fin.coe_ofNat_eq_mod] at hp
      omega
    unfold decode decBr
    rw [hM, hk, hd]
    exact if_pos h0
  case nop | halt | sync | syncI =>
    obtain ⟨hw, hM, hm⟩ := encI_parts h
    unfold decode decSys
    rw [hM, hm]
    exact (shSysNone_eq_ok hM hm).mpr ⟨hw, rfl⟩
  case trap | brk =>
    obtain ⟨hw, hM, hm⟩ := encI_parts h
    unfold decode decSys
    rw [hM, hm]
    exact (shSysCode_eq_ok hM hm).mpr ⟨_, hw, rfl⟩
  case resw | pwrp =>
    obtain ⟨hw, hM, hm⟩ := encI_parts h
    unfold decode decSys
    rw [hM, hm]
    exact (shSysA_eq_ok hM hm).mpr ⟨_, hw, rfl⟩
  case srd =>
    obtain ⟨hw, hM, hm⟩ := encI_parts h
    unfold decode decSys
    rw [hM, hm]
    exact (decSrd_eq_ok hM hm).mpr ⟨_, _, hw, rfl⟩
  case swr =>
    obtain ⟨hw, hM, hm⟩ := encI_parts h
    unfold decode decSys
    rw [hM, hm]
    exact (decSwr_eq_ok hM hm).mpr ⟨_, _, hw, rfl⟩
  case kset =>
    obtain ⟨hw, hM, hm⟩ := encI_parts h (hd := by omega)
    unfold decode decSys
    rw [hM, hm]
    exact (decKset_eq_ok hM hm).mpr ⟨_, _, hw, rfl⟩
  case segld =>
    obtain ⟨hw, hM, hm⟩ := encI_parts h
    unfold decode decSys
    rw [hM, hm]
    exact (decSegld_eq_ok hM hm).mpr ⟨_, _, hw, rfl⟩
  -- clause headers and hints
  case clause len wait fla flb yld =>
    have hlen : 1 ≤ len ∧ len ≤ 24 := by simpa [Instr.wellFormed] using hwf
    have hw := (Option.some.inj h).symm
    obtain ⟨hM, -⟩ := (eq_clause_iff hlen.2 (flagCode_lt _) (flagCode_lt _)).mp hw
    unfold decode
    rw [hM]
    exact (decClause_eq_ok hM).mpr ⟨_, _, _, _, _, hlen, hw, rfl⟩
  case himm =>
    obtain ⟨hM, hk, hp⟩ := eq_himm_iff.mp (Option.some.inj h).symm
    unfold decode decHint
    rw [hM, hk, hp]
    rfl
  case hsched =>
    obtain ⟨hM, hk, h0, hstay, hsolo⟩ := eq_hsched_iff.mp (Option.some.inj h).symm
    unfold decode decHint
    rw [hM, hk, hstay, hsolo]
    exact if_pos h0
  case harith mode pol ix =>
    have hw := (Option.some.inj h).symm
    obtain ⟨hM, hk, -⟩ := (eq_harith_iff (optCode_lt (k := 3) Round.code_lt mode) (optCode_lt (k := 2) Policy.code_lt pol)
      (optCode_lt (k := 6) Src.code_lt ix)).mp (ixCode_eq ix ▸ hw)
    unfold decode
    rw [hM]
    exact (decHint_arith_eq_ok hM hk).mpr ⟨_, _, _, hwf, hw, rfl⟩
  all_goals cases h

/-- Settles O57: each shape of the decoder answers exactly for the words that the encoder builds of that shape. -/
theorem encodeDecodeRoundTrip : Obligations.EncodeDecodeRoundTrip := by
  unfold Obligations.EncodeDecodeRoundTrip
  exact ⟨fun i w hwf h => decode_of_encodes ⟨hwf, h⟩, fun w i h => encodes_of_decode h⟩

end Sys2Proof
end

section
/-!
SUPPORT. Words of which some lanes fault and the others take the word's effect (R86, R337, R338).
-/
namespace Sys2Proof.Machine

/-- The faults of the lanes that a word gives a cause: each with one access kind and an address of its own. -/
theorem filterMap_trap (ls : List Nat) (c : Nat → Option Byte) (access : Nat) (addr : Nat → Word) :
    (ls.filterMap fun l => (c l).map fun k => { lane := l, cause := k, access := access, addr := addr l : Trap }) =
      (ls.filter fun l => (c l).isSome).map fun l => { lane := l, cause := (c l).getD 0, access := access, addr := addr l } := by
  induction ls with
  | nil => rfl
  | cons l r ih => cases h : c l <;> simp [h, ih]

/-- After its faults are taken, the end of a word leaves every lane as it is. -/
theorem lane_endWord_takeFaults (e : WEnv) (w : BitVec 32) (r : WRes) (l : Nat) :
    e.lane (endWord e w r) l = e.lane (takeFaults r.1 (e.site w) r.2) l := by
  unfold endWord endAt
  simp only
  split_ifs <;> exact lane_closeEmpty _ e l

theorem joins_mapLanes (e : WEnv) (b : State) (f : Nat → Lane → Lane) :
    (getGroup (e.mapLanes b f) e.core e.grp).joins = (getGroup b e.core e.grp).joins := by
  rw [WEnv.mapLanes, getGroup_modGroup_self]
  have hrest := congrArg Group.joins (foldl_modLane_rest f e.lanes (getGroup b e.core e.grp))
  exact hrest

theorem launchOf_mapLanes (e : WEnv) (b : State) (f : Nat → Lane → Lane) : launchOf (e.mapLanes b f) e.core = launchOf b e.core := by
  have hpart : (getCore (e.mapLanes b f) e.core).part = (getCore b e.core).part := by
    rw [WEnv.mapLanes, modGroup_eq, getCore_modCore_self]
    rfl
  rw [launchOf, launchOf, partOf, partOf, hpart]
  rfl

/-- The lanes that a word gives a cause park at it, and the others that issue it take its effect. -/
theorem lane_endWord_faults {e : WEnv} {b : State} (h : NoJoins e b) (w : BitVec 32) (f : Nat → Lane → Lane) (c : Nat → Option Byte)
    (access : Nat) (addr : Nat → Word) (l : Nat) :
    e.lane (endWord e w (e.mapLanes b f,
        e.lanes.filterMap fun l => (c l).map fun k => { lane := l, cause := k, access := access, addr := addr l })) l =
      if bit e.act l then
        match c l with
        | some k => parkedAt e (launchOf b e.core).handle k access (addr l) (f l (e.lane b l))
        | none => f l (e.lane b l)
      else e.lane b l := by
  have hpark := lane_takeFaults (p := e.site w) (fun l => { lane := l, cause := (c l).getD 0, access := access, addr := addr l })
    (fun _ => rfl) ((bitList_nodup e.act).filter fun l => (c l).isSome) ((joins_mapLanes e b f).trans h) l
  have hmem : l ∈ (bitList e.act).filter (fun l => (c l).isSome) ↔ bit e.act l = true ∧ (c l).isSome = true := by
    rw [List.mem_filter, mem_bitList, bit]
  rw [filterMap_trap, lane_endWord_takeFaults]
  refine hpark.trans ?_
  change (if _ then parkLane (launchOf (e.mapLanes b f) e.core).handle _ _ (e.lane (e.mapLanes b f) l) else e.lane (e.mapLanes b f) l) = _
  rw [launchOf_mapLanes, mapLanes_lane]
  by_cases hl : bit e.act l = true
  · cases hc : c l with
    | none => simp [hmem, hl, hc]
    | some k => simp [hmem, hl, hc]; rfl
  · simp [hmem, hl]

end Sys2Proof.Machine
end
section
/-!
PROOF. Control transfers (R83, R114 to R116, R343).
-/
namespace Sys2Proof.Machine

/-! ## Branches -/

/-- A word that changes lanes of its own, and raises no fault. -/
theorem effect_mapLanes {i : Instr} {m : WMeta} (f : WEnv → State → Nat → Lane → Lane)
    (hx : ∀ s, exec i s = runWord m (fun e b => (e.mapLanes b (f e b), [])) s) :
    Effect i m fun e b t => OnlyLanes e b t ∧ ∀ l, bit e.act l = true → e.lane t l = f e b l (e.lane b l) :=
  effect_of _ hx fun e b w => ⟨onlyLanes_mapLanes e w b _, fun l hl => by rw [lane_endWord, mapLanes_lane, if_pos hl]⟩

/-- A branch on one decision for every lane that issues it (R114). -/
theorem effect_voteBranch {i : Instr} {p : Fin 8} {disp : BitVec 20} {f : List Bool → Bool} (hx : ∀ s, exec i s = voteBranch p disp f s)
    {vote : WEnv → State → Prop} [∀ e b, Decidable (vote e b)]
    (hvote : ∀ e b, f (e.lanes.map fun l => predOf (e.lane b l) p) = true ↔ vote e b) :
    Effect i { ctl := true } fun e b t => OnlyLanes e b t ∧ ∀ l, bit e.act l = true →
      e.lane t l = { e.lane b l with npc := if vote e b then some (e.target disp) else none } := by
  simp only [← hvote]
  exact effect_mapLanes (fun e b _ x =>
    { x with npc := if f (e.lanes.map fun l => predOf (e.lane b l) p) then some (e.target disp) else none }) hx

/-! ## Register jumps -/

/-- Why a target is refused (R116). -/
def jumpCause (v : Word) : Option Byte := if v.toNat % 4 ≠ 0 then some 0x04 else if 2 ^ 20 ≤ v.toNat then some 0x03 else none

theorem jumpWord_eq (a : Src) (dst : List Reg) (f : WEnv → Lane → Offset → Lane) :
    jumpWord a dst f = runWord { ops := [a], dst := dst, ctl := true } fun e b =>
      (e.mapLanes b fun l x => if (jumpCause (e.src b l a)).isSome then x else f e x ((e.src b l a).setWidth 20),
        e.lanes.filterMap fun l => (jumpCause (e.src b l a)).map fun k =>
          { lane := l, cause := k, access := 3, addr := e.src b l a }) := rfl

/-- A lane with a good target takes what `f` makes of it; another faults at the word with access kind fetch. -/
theorem effectIf_jumpWord {i : Instr} (a : Src) (dst : List Reg) (f : WEnv → Lane → Offset → Lane)
    (hx : ∀ s, exec i s = jumpWord a dst f s) :
    EffectIf i { ops := [a], dst := dst, ctl := true } NoJoins fun e b t => ∀ l, e.lane t l =
      if bit e.act l then
        match jumpCause (e.src b l a) with
        | some c => parkedAt e (launchOf b e.core).handle c 3 (e.src b l a) (e.lane b l)
        | none => f e (e.lane b l) ((e.src b l a).setWidth 20)
      else e.lane b l := by
  rw [jumpWord_eq] at hx
  refine effectIf_of _ hx fun s k _ hj w l => ?_
  rw [lane_endWord_faults hj]
  cases jumpCause ((envOf s k).src (atEffect s k) l a) <;> rfl

/-- Where every target is good, only lanes that issue the word differ. -/
theorem onlyLanes_jumpWord {i : Instr} (a : Src) (dst : List Reg) (f : WEnv → Lane → Offset → Lane)
    (hx : ∀ s, exec i s = jumpWord a dst f s) :
    EffectIf i { ops := [a], dst := dst, ctl := true }
      (fun e b => ∀ l, bit e.act l = true → jumpCause (e.src b l a) = none) OnlyLanes := by
  rw [jumpWord_eq] at hx
  refine effectIf_of _ hx fun s k _ hgood w => ?_
  rw [List.filterMap_eq_nil_iff.mpr fun l hl => by rw [hgood l ((mem_bitList _ _).mp hl)]; rfl]
  exact onlyLanes_mapLanes _ _ _ _

/-- Settles O11: a branch is its change of the lanes' next PC, and a register jump is `jumpWord`, whose lanes park where the target is
refused. -/
theorem branchesAndJumps : Obligations.BranchesAndJumps := by
  unfold Obligations.BranchesAndJumps
  refine ⟨fun p disp => ?_, fun d a => ?_⟩
  · have brDiv := effect_mapLanes (i := .brDiv p disp)
      (fun e b l x => { x with npc := if predOf (e.lane b l) p = true then some (e.target disp) else none }) fun _ => rfl
    have brAny := effect_voteBranch (i := .brAny p disp) (p := p) (disp := disp) (f := fun l => l.any id) (fun _ => rfl)
      (vote := fun e b => (e.lanes.any fun k => predOf (e.lane b k) p) = true) fun e b => by rw [List.any_map]; rfl
    have brAll := effect_voteBranch (i := .brAll p disp) (p := p) (disp := disp) (f := fun l => l.all id) (fun _ => rfl)
      (vote := fun e b => (e.lanes.all fun k => predOf (e.lane b k) p) = true) fun e b => by rw [List.all_map]; rfl
    have brNone := effect_voteBranch (i := .brNone p disp) (p := p) (disp := disp) (f := fun l => !l.any id) (fun _ => rfl)
      (vote := fun e b => (e.lanes.any fun k => predOf (e.lane b k) p) = false) fun e b => by
        rw [Bool.not_eq_true', List.any_map]; rfl
    have jmp := effect_mapLanes (i := .jmp disp) (fun e _ _ x => { x with npc := some (e.target disp) }) fun _ => rfl
    have call := effect_mapLanes (i := .call disp)
      (fun e _ _ x => { writeReg x (.w 39) (wd e.cl.fall.toNat) with npc := some (e.target disp) }) fun _ => rfl
    exact ⟨brDiv, brAny, brAll, brNone, jmp, call⟩
  · have jump {i : Instr} {src : Src} {dst : List Reg} {f : WEnv → Lane → Offset → Lane} (hx : ∀ s, exec i s = jumpWord src dst f s) :=
      And.intro (effectIf_jumpWord src dst f hx) (onlyLanes_jumpWord src dst f hx)
    obtain ⟨jr, jrFrame⟩ := jump (i := .jr a) (src := a) (dst := []) (f := fun _ x t => handlerReturn x t) fun _ => rfl
    obtain ⟨callr, callrFrame⟩ := jump (i := .callr d a) (src := a) (dst := [d])
      (f := fun e x t => { writeReg x d (wd e.cl.fall.toNat) with npc := some t }) fun _ => rfl
    obtain ⟨ret, retFrame⟩ := jump (i := .ret) (src := .reg (.w 39)) (dst := []) (f := fun _ x t => { x with npc := some t }) fun _ => rfl
    exact ⟨jr, jrFrame, callr, callrFrame, ret, retFrame⟩

end Sys2Proof.Machine
end

section
/-!
SUPPORT. The checks of a word (R74, R86, R194, R196), its stalls (R25, R27), and what the words' own needs are (R30, R109, R127, R313, R320).
-/
namespace Sys2Proof.Machine

/-! ## Checks -/

/-- The encoding checks of a word that decodes (R74, R86). -/
def EncodingOk (m : WMeta) (e : WEnv) : Prop :=
  (e.mode = none ∧ e.ix = none ∨ m.accMode = true) ∧ (e.pol = none ∨ m.accPol = true) ∧
    (Src.h ∉ m.ops ∨ e.himm.isSome = true) ∧ (m.ctl = true → e.cl.len ≤ e.idx) ∧
    ∀ f, m.flag = some f → (e.flag f).isSome = true

/-- The phase rules that a word fails (R194, R196). -/
def PhaseBad (m : WMeta) (e : WEnv) (s : State) : Prop :=
  let out := (partOf s e.core).st ≠ .compute ∨ (getGroup s e.core e.grp).synced = true
  let barrier := holdsBarrier (getCore s e.core) e.grp = true
  match m.phase with
  | .any => False
  | .restricted => out
  | .sync => out ∨ barrier
  | .halt => barrier

/-- The first four tests of a word, in their order. -/
theorem encodingOk_iff (m : WMeta) (e : WEnv) : EncodingOk m e ↔
    ¬ ((e.mode.isSome ∧ ¬ m.accMode) ∨ (e.ix.isSome ∧ ¬ m.accMode) ∨ (e.pol.isSome ∧ ¬ m.accPol)) ∧
    ¬ (m.ops.contains .h ∧ e.himm = none) ∧ ¬ (m.ctl ∧ e.idx < e.cl.len) ∧
    ¬ (m.flag.map fun f => (e.flag f).isNone) = some true := by
  have hhint : (e.mode = none ∧ e.ix = none ∨ m.accMode = true) ∧ (e.pol = none ∨ m.accPol = true) ↔
      ¬ ((e.mode.isSome ∧ ¬ m.accMode) ∨ (e.ix.isSome ∧ ¬ m.accMode) ∨ (e.pol.isSome ∧ ¬ m.accPol)) := by
    simp only [Option.isSome_iff_ne_none]
    tauto
  have himm : (Src.h ∉ m.ops ∨ e.himm.isSome = true) ↔ ¬ (m.ops.contains .h ∧ e.himm = none) := by
    simp only [List.contains_iff_mem, Option.isSome_iff_ne_none]
    tauto
  have hctl : (m.ctl = true → e.cl.len ≤ e.idx) ↔ ¬ (m.ctl ∧ e.idx < e.cl.len) := by
    rw [not_and, not_lt]
  have hflag : (∀ f, m.flag = some f → (e.flag f).isSome = true) ↔ ¬ (m.flag.map fun f => (e.flag f).isNone) = some true := by
    cases m.flag with
    | none => simp
    | some f => cases hf : e.flag f <;> simp [hf]
  unfold EncodingOk
  rw [← hhint, ← himm, ← hctl, ← hflag, and_assoc]

theorem wordCause_encoding {m : WMeta} {e : WEnv} {s : State} (h : ¬ EncodingOk m e) : wordCause m e s = some 0x01 := by
  rw [encodingOk_iff] at h
  unfold wordCause
  simp only
  split_ifs with h1 h2 h3 h4
  · rfl
  · rfl
  · rfl
  · rfl
  all_goals exact absurd ⟨h1, h2, h3, h4⟩ h

section
variable {m : WMeta} {e : WEnv} {s : State} (h : EncodingOk m e)
include h

theorem wordCause_privilege (hp : m.priv = true) (hs : ¬ (launchOf s e.core).system = true) : wordCause m e s = some 0x02 := by
  obtain ⟨hhint, himm, hctl, hflag⟩ := (encodingOk_iff m e).mp h
  unfold wordCause
  simp only [if_neg hhint, if_neg himm, if_neg hctl, if_neg hflag, if_pos (And.intro hp hs)]

/-- A word that passes the checks of encoding and privilege fails only the phase rules. -/
theorem wordCause_phase (hp : m.priv = true → (launchOf s e.core).system = true) [Decidable (PhaseBad m e s)] :
    wordCause m e s = if PhaseBad m e s then some 0x05 else none := by
  obtain ⟨hhint, himm, hctl, hflag⟩ := (encodingOk_iff m e).mp h
  have hpriv : ¬ (m.priv = true ∧ ¬ (launchOf s e.core).system = true) := fun ⟨h1, h2⟩ => h2 (hp h1)
  unfold wordCause
  simp only [if_neg hhint, if_neg himm, if_neg hctl, if_neg hflag, if_neg hpriv]
  obtain ⟨phase, hphase⟩ : ∃ p, m.phase = p := ⟨_, rfl⟩
  cases phase <;> simp [PhaseBad, hphase, getGroup]

end

/-! ## Stalls -/

theorem pending_iff (g : Group) (rs : List Reg) (m : LaneMask) : g.pending rs m = true ↔ ∃ o ∈ g.out, ∃ r ∈ rs, o.pends r m = true := by
  simp only [Group.pending, List.any_eq_true]

/-- What holds a word that passes its checks (R25, R27). -/
theorem stallOf_iff (m : WMeta) (e : WEnv) (s : State) : stallOf m e s = true ↔
    (∃ o ∈ (getGroup s e.core e.grp).out, ∃ r ∈ srcRegs (m.ops ++ e.ix.toList) ++ m.dst, o.pends r e.act = true) ∨
      (∃ f n, m.flag = some f ∧ e.flag f = some n ∧ 63 ≤ spGet 0 (getGroup s e.core e.grp).flags n) ∨ m.need e s = true := by
  have hfull : ((m.flag.bind e.flag).map (getGroup s e.core e.grp).flagFull).getD false = true ↔
      ∃ f n, m.flag = some f ∧ e.flag f = some n ∧ 63 ≤ spGet 0 (getGroup s e.core e.grp).flags n := by
    cases m.flag with
    | none => simp
    | some f => cases hf : e.flag f <;> simp [hf, Group.flagFull]
  rw [stallOf, Bool.or_eq_true, Bool.or_eq_true, pending_iff, hfull, or_assoc]

/-! ## What the words' own needs are -/

theorem drainNeed_iff (loads : Bool) (e : WEnv) (s : State) : drainNeed loads e s = true ↔
    ∃ o ∈ (getGroup s e.core e.grp).out, (loads = true ∨ o.kind ≠ .load) ∧ o.mask &&& e.act ≠ 0 := by
  simp only [drainNeed, Group.busyLanes, List.any_eq_true, Bool.and_eq_true, Bool.or_eq_true, decide_eq_true_eq]

/-- A parameter block of 80 bytes lies in the scratchpad at a multiple of 16 (R314). -/
theorem blockOk_iff {e : WEnv} {q : Nat} (h : Lowest e q) (a : Src) (s : State) :
    blockOk a 80 e s = true ↔ (e.src s q a).toNat + 80 ≤ 0xC0000 ∧ 16 ∣ (e.src s q a).toNat := by
  have hdvd : 16 ∣ (e.src s q a).toNat ↔ (e.src s q a).toNat % 16 = 0 := Nat.dvd_iff_mod_eq_zero ..
  rw [blockOk, h.low_eq, hdvd, blockFault, spadEnd]
  split_ifs with hseg halign
  · simp only [Option.isNone_some, Bool.false_eq_true, false_iff]; omega
  · simp only [Option.isNone_some, Bool.false_eq_true, false_iff]; omega
  · simp only [Option.isNone_none, true_iff]; omega

/-- A clearing MSTAT waits on one of the core's ports (R320). -/
theorem clearing_iff (co : Core) : co.clearing = true ↔
    ∃ g ∈ co.groups, ∃ x r w, (g.2.c0 = some x ∨ g.2.c1 = some x) ∧ x.wait = .mstat w r := by
  simp only [Core.clearing, List.any_eq_true]
  constructor
  · rintro ⟨g, hg, k, hk, hwait⟩
    cases k with
    | none => cases hwait
    | some x =>
      cases hw : x.wait with
      | mstat w r =>
        refine ⟨g, hg, x, r, w, ?_, hw⟩
        simpa only [List.mem_cons, List.not_mem_nil, or_false, eq_comm] using hk
      | _ => rw [Option.map_some, hw] at hwait; cases hwait
  · rintro ⟨g, hg, x, r, w, hx, hw⟩
    refine ⟨g, hg, some x, ?_, by rw [Option.map_some, hw]⟩
    simpa only [List.mem_cons, List.not_mem_nil, or_false, eq_comm] using hx

theorem not_matFree_iff (co : Core) : (!co.matFree) = true ↔ 4 ≤ co.eng.queue.length ∨ co.clearing = true := by
  cases hc : co.clearing <;> simp [Core.matFree, hc]

theorem not_asyFree_iff (co : Core) : (!co.asyFree) = true ↔ 8 ≤ (co.asy.queue.filter AssayCmd.numbered).length := by
  simp [Core.asyFree]

end Sys2Proof.Machine
end
section
/-!
PROOF. Words that fail a check or stall (R74, R86).
-/
namespace Sys2Proof.Machine

theorem NoJoins.passWord {s : State} {e : WEnv} (h : NoJoins e s) : NoJoins e (passWord s e) := by
  rw [NoJoins, getGroup_passWord]
  cases e.second <;> exact h

/-- The words that only the system may issue (R22, R118, R119). -/
theorem priv_iff {i : Instr} {m : WMeta} (h : metaOf i = some m) : m.priv = true ↔ match (generalizing := false) i with
    | .segld _ _ | .xqset _ | .xprom _ | .swr _ .alogq | .swr _ .xq | .swr _ .noteq => True
    | _ => False := by
  cases i
  case segld | xqset | xprom => cases h; exact ⟨fun _ => trivial, fun _ => rfl⟩
  case swr a q =>
    cases h
    cases q
    case alogq | xq | noteq => exact ⟨fun _ => trivial, fun _ => rfl⟩
    all_goals exact ⟨nofun, False.elim⟩
  all_goals cases h
  all_goals exact ⟨nofun, False.elim⟩

/-- The control words (R22, R86). -/
theorem ctl_iff {i : Instr} {m : WMeta} (h : metaOf i = some m) : m.ctl = true ↔ match (generalizing := false) i with
    | .brDiv _ _ | .brAny _ _ | .brAll _ _ | .brNone _ _ | .jmp _ | .trap _ | .brk _ | .call _ | .jr _ | .callr _ _ | .ret
    | .halt => True
    | _ => False := by
  cases i
  case brDiv | brAny | brAll | brNone | jmp | trap | brk | call | jr | callr | ret | halt =>
    cases h; exact ⟨fun _ => trivial, fun _ => rfl⟩
  case swr a q => cases h; cases q <;> exact ⟨nofun, False.elim⟩
  all_goals cases h
  all_goals exact ⟨nofun, False.elim⟩

/-- Settles O22: every word that has requirements is `runWord` of them, whose first failing check is `wordCause` and whose stalls are
those of `stallOf`. -/
theorem refusedWords : Obligations.RefusedWords := by
  unfold Obligations.RefusedWords
  refine ⟨fun i m s k hm hk => ?_, fun i m hm => ⟨priv_iff hm, ctl_iff hm⟩, fun w s k hk hj => ?_, fun d a c s k m => ?_⟩
  · obtain ⟨body, hbody⟩ := exec_of_metaOf hm
    have parks {cause : Byte} (hc : wordCause m (envOf s k) s = some cause) (hj : NoJoins (envOf s k) s) :
        ∃ t, exec i s = .next t ∧ Parks (fun _ => some (cause, 0, 0)) (envOf s k) (passWord s (envOf s k)) t :=
      ⟨_, (hbody s).trans (runWord_fails body hk hc), parks_trapAll _ cause 0 0 hj.passWord⟩
    have hsources : ((m.ops ++ (envOf s k).ix.toList).filterMap fun x => match x with
        | .reg r => some r
        | .k _ | .z | .lane | .h => none) = srcRegs (m.ops ++ (envOf s k).ix.toList) :=
      congrArg (List.filterMap · _) (funext fun x => by cases x <;> rfl)
    have held (hc : wordCause m (envOf s k) s = none) (hs : stallOf m (envOf s k) s = true) : exec i s = .next s :=
      (hbody s).trans (runWord_stalls body ⟨hk, hc, hs⟩)
    classical
    refine ⟨fun c hc => parks hc, fun h => parks (wordCause_encoding h), fun h hp hs => parks (wordCause_privilege h hp hs),
      fun h hp hphase => parks ((wordCause_phase h hp).trans (if_pos hphase)), fun h hp hphase hstall => ?_⟩
    refine held ((wordCause_phase h hp).trans (if_neg hphase)) ((stallOf_iff _ _ _).mpr ?_)
    rw [← hsources]
    exact hstall
  · exact ⟨_, by simp only [exec, execIllegalInstruction, faultWord, hk], parks_trapAll w 0x01 0 0 hj.passWord⟩
  · refine ⟨fun hm => ?_, fun hm => ?_, fun hm q hq => ?_, fun hm => ?_⟩ <;> cases hm
    · simpa only [true_or, true_and] using drainNeed_iff true (envOf s k) s
    · have hneed := drainNeed_iff false (envOf s k) s
      simp only [Bool.false_eq_true, false_or] at hneed
      exact hneed
    · change (blockOk a 80 (envOf s k) s && !(getCore s (envOf s k).core).matFree) = true ↔ _
      rw [Bool.and_eq_true, blockOk_iff hq, not_matFree_iff, clearing_iff, and_assoc]
    · change (_ && !(getCore s (envOf s k).core).asyFree) = true ↔ _
      rw [Bool.and_eq_true, not_asyFree_iff]
      exact Iff.rfl

end Sys2Proof.Machine
end

section
/-!
SUPPORT. The order of float patterns (R129): magnitudes rise with their patterns, so the comparison of two values that puts -0 below +0 is the
order of their patterns.
-/
namespace Sys2Proof.Machine

/-! ## Magnitudes -/

/-- Every magnitude is a number of units of one exponent's last place, and so is the next one. -/
theorem exists_units (t : FltTy) (k : Nat) : ∃ j lo, k = j * 2 ^ t.frac + lo ∧ (j = 0 ∨ 2 ^ t.frac ≤ lo) ∧ lo < 2 ^ (t.frac + 1) := by
  have hP : 0 < 2 ^ t.frac := Nat.two_pow_pos _
  rw [pow_succ]
  rcases lt_or_ge k (2 ^ t.frac) with hlt | hge
  · exact ⟨0, k, by omega, .inl rfl, by omega⟩
  · have hk := Nat.div_add_mod' (k - 2 ^ t.frac) (2 ^ t.frac)
    have hmod := Nat.mod_lt (k - 2 ^ t.frac) hP
    exact ⟨(k - 2 ^ t.frac) / 2 ^ t.frac, 2 ^ t.frac + (k - 2 ^ t.frac) % 2 ^ t.frac, by omega, .inr (by omega), by omega⟩

theorem magnitude_strictMono (t : FltTy) : StrictMono (magnitude t) := by
  refine strictMono_nat_of_lt_succ fun k => ?_
  obtain ⟨j, lo, rfl, hlo, hhi⟩ := exists_units t k
  rw [magnitude_eq hlo hhi.le, add_assoc, magnitude_eq (hlo.imp_right fun h => h.trans (Nat.le_succ lo)) hhi]
  exact mul_lt_mul_of_pos_right (by exact_mod_cast Nat.lt_succ_self lo) (by positivity)

theorem magnitude_nonneg (t : FltTy) (k : Nat) : 0 ≤ magnitude t k := by
  unfold magnitude
  split_ifs <;> positivity

/-! ## Patterns by their sign and magnitude -/

/-- A pattern is a sign and a magnitude's number. -/
theorem exists_sign_add {t : FltTy} {x : Nat} (hx : x < 2 ^ t.width) : ∃ n k, k < 2 ^ (t.width - 1) ∧ x = t.sign n + k := by
  have hw : 2 ^ t.width = 2 * 2 ^ (t.width - 1) := by cases t <;> rfl
  rcases lt_or_ge x (2 ^ (t.width - 1)) with hlt | hge
  · exact ⟨false, x, hlt, (Nat.zero_add x).symm⟩
  · exact ⟨true, x - 2 ^ (t.width - 1), by omega, (Nat.add_sub_cancel' hge).symm⟩

theorem sign_add_mod (t : FltTy) (n : Bool) {k : Nat} (hk : k < 2 ^ (t.width - 1)) : (t.sign n + k) % 2 ^ (t.width - 1) = k := by
  rw [fltSign_eq_mul, Nat.mul_add_mod, Nat.mod_eq_of_lt hk]

theorem nanPattern_sign_add (t : FltTy) (n : Bool) {k : Nat} (hk : k < 2 ^ (t.width - 1)) :
    nanPattern t (t.sign n + k) = decide (t.inf < k) := by
  rw [nanPattern, sign_add_mod t n hk]

theorem patternOrder_sign_add (t : FltTy) (n : Bool) {k : Nat} (hk : k < 2 ^ (t.width - 1)) :
    patternOrder t (t.sign n + k) = if n then -(k : Int) - 1 else k := by
  have hneg : (t.sign n + k) / 2 ^ (t.width - 1) % 2 = b2n n := by
    rw [fltSign_eq_mul, Nat.mul_add_div (Nat.two_pow_pos _), Nat.div_eq_of_lt hk]
    cases n <;> rfl
  rw [patternOrder, sign_add_mod t n hk, hneg]
  cases n <;> rfl

/-- The patterns that are NaN (R43). -/
theorem isNan_fval {t : FltTy} {x : Nat} (hx : x < 2 ^ t.width) : (fval t x).isNan = nanPattern t x := by
  obtain ⟨n, k, hk, rfl⟩ := exists_sign_add hx
  rw [nanPattern_sign_add t n hk]
  rcases lt_or_ge k t.inf with hlt | hge
  · obtain ⟨⟨n', m, e, hv, -⟩, -⟩ := fval_of_lt_inf n hlt
    rw [hv, decide_eq_false (by omega)]; rfl
  · rw [fval_of_inf_le n hk hge]
    split_ifs with h
    · rw [decide_eq_false (by omega)]; rfl
    · rw [decide_eq_true (by omega)]; rfl

theorem fltInf_lt (t : FltTy) : t.inf < 2 ^ (t.width - 1) := by cases t <;> decide

/-! ## The order of values -/

/-- Finite values: the lower one, or the negative one of two zeros. -/
theorem ltMin_iff_of_is {x y : FVal} {a b : ℝ} (hx : x.Is a) (hy : y.Is b) :
    ltMin x y = true ↔ a < b ∨ a = b ∧ x.neg = true ∧ y.neg = false := by
  obtain ⟨na, ma, ea, rfl, -⟩ := id hx
  obtain ⟨nb, mb, eb, rfl, -⟩ := id hy
  have hp : (0 : ℝ) < 2 ^ min ea eb := by positivity
  have hlt : scaledInt na ma ea (min ea eb) < scaledInt nb mb eb (min ea eb) ↔ a < b := by
    rw [← scaledInt_mul_zpow hx (min_le_left ea eb), ← scaledInt_mul_zpow hy (min_le_right ea eb), mul_lt_mul_iff_left₀ hp, Int.cast_lt]
  have heq : scaledInt na ma ea (min ea eb) = scaledInt nb mb eb (min ea eb) ↔ a = b := by
    rw [← scaledInt_mul_zpow hx (min_le_left ea eb), ← scaledInt_mul_zpow hy (min_le_right ea eb), mul_left_inj' hp.ne', Int.cast_inj]
  rw [← hlt, ← heq]
  simp only [ltMin, cmpVal]
  generalize scaledInt na ma ea (min ea eb) = u
  generalize scaledInt nb mb eb (min ea eb) = v
  rcases lt_trichotomy u v with h | rfl | h
  · simp [compare_lt_iff_lt.mpr h, h]
  · simp [FVal.neg]
  · simp [compare_gt_iff_gt.mpr h, h.le, h.ne']

/-- The comparison of two finite values is the order of their patterns. -/
theorem ltMin_fval_of_lt_inf {t : FltTy} (n n' : Bool) {k k' : Nat} (hk : k < t.inf) (hk' : k' < t.inf) :
    ltMin (fval t (t.sign n + k)) (fval t (t.sign n' + k')) = true ↔
      (if n then -(k : Int) - 1 else k) < if n' then -(k' : Int) - 1 else k' := by
  obtain ⟨hx, hxn⟩ := fval_of_lt_inf n hk
  obtain ⟨hy, hyn⟩ := fval_of_lt_inf n' hk'
  have h0 : (0 : ℝ) ≤ magnitude t k := by exact_mod_cast magnitude_nonneg t k
  have h0' : (0 : ℝ) ≤ magnitude t k' := by exact_mod_cast magnitude_nonneg t k'
  have hmono : ∀ i j, (magnitude t i : ℝ) < magnitude t j ↔ i < j := by
    intro i j; exact_mod_cast (magnitude_strictMono t).lt_iff_lt
  rw [ltMin_iff_of_is hx hy, hxn, hyn]
  cases n with
  | false =>
    cases n' with
    | false => simpa using hmono k k'
    | true => exact iff_of_false (by simp; linarith) (by simp; omega)
  | true =>
    cases n' with
    | false =>
      simp only [if_true, Bool.false_eq_true, if_false, and_true, ← le_iff_lt_or_eq]
      exact iff_of_true (by linarith) (by omega)
    | true => simpa using hmono k' k

/-- The comparison of two values that are not NaN is the order of their patterns (R129). -/
theorem ltMin_fval {t : FltTy} (n n' : Bool) {k k' : Nat} (hk : k ≤ t.inf) (hk' : k' ≤ t.inf) :
    ltMin (fval t (t.sign n + k)) (fval t (t.sign n' + k')) = true ↔
      (if n then -(k : Int) - 1 else k) < if n' then -(k' : Int) - 1 else k' := by
  have hinf := fun n => (fval_of_inf_le n (fltInf_lt t) le_rfl).trans (if_pos rfl)
  rcases Nat.lt_or_eq_of_le hk with hlt | rfl <;> rcases Nat.lt_or_eq_of_le hk' with hlt' | rfl
  · exact ltMin_fval_of_lt_inf n n' hlt hlt'
  · obtain ⟨⟨s, m, e, hv, -⟩, -⟩ := fval_of_lt_inf n hlt
    rw [hv, hinf]
    cases n' <;> cases n <;> simp [ltMin, cmpVal] <;> omega
  · obtain ⟨⟨s, m, e, hv, -⟩, -⟩ := fval_of_lt_inf n' hlt'
    rw [hv, hinf]
    cases n <;> cases n' <;> simp [ltMin, cmpVal] <;> omega
  · rw [hinf, hinf]
    cases n <;> cases n' <;> simp [ltMin, cmpVal, FVal.neg]
    omega

/-- Of two patterns that are not NaN, the first is the lower one by its value, or is the other, where it is not above it in the order. -/
theorem ltMin_or_eq_iff {t : FltTy} {x y : Nat} (hx : x < 2 ^ t.width) (hy : y < 2 ^ t.width) (hnx : nanPattern t x = false)
    (hny : nanPattern t y = false) : ltMin (fval t x) (fval t y) = true ∨ x = y ↔ patternOrder t x ≤ patternOrder t y := by
  obtain ⟨n, k, hk, rfl⟩ := exists_sign_add hx
  obtain ⟨n', k', hk', rfl⟩ := exists_sign_add hy
  rw [nanPattern_sign_add _ _ hk, decide_eq_false_iff_not, not_lt] at hnx
  rw [nanPattern_sign_add _ _ hk', decide_eq_false_iff_not, not_lt] at hny
  rw [patternOrder_sign_add _ _ hk, patternOrder_sign_add _ _ hk', ltMin_fval n n' hnx hny, FltTy.sign, FltTy.sign]
  cases n <;> cases n' <;> simp only [if_true, Bool.false_eq_true, if_false] <;> omega

/-- What the comparison of two values selects, the order of their patterns selects, where equal patterns leave no choice. -/
theorem ite_ltMin {t : FltTy} {x y u v : Nat} (hx : x < 2 ^ t.width) (hy : y < 2 ^ t.width) (huv : x = y → u = v) :
    (if (fval t x).isNan || (fval t y).isNan then t.nan else if ltMin (fval t x) (fval t y) then u else v) =
      if nanPattern t x || nanPattern t y then t.nan else if patternOrder t x ≤ patternOrder t y then u else v := by
  rw [isNan_fval hx, isNan_fval hy]
  refine ite_congr rfl (fun _ => rfl) fun hnan => ?_
  simp only [Bool.or_eq_true, not_or, Bool.not_eq_true] at hnan
  simp only [← ltMin_or_eq_iff hx hy hnan.1 hnan.2]
  by_cases heq : x = y
  · simp only [huv heq, ite_self]
  · simp only [heq, or_false]

theorem fminBits_eq {t : FltTy} {x y : Nat} (hx : x < 2 ^ t.width) (hy : y < 2 ^ t.width) : fminBits t x y =
    if nanPattern t x || nanPattern t y then t.nan else if patternOrder t x ≤ patternOrder t y then x else y :=
  ite_ltMin hx hy id

theorem fmaxBits_eq {t : FltTy} {x y : Nat} (hx : x < 2 ^ t.width) (hy : y < 2 ^ t.width) : fmaxBits t x y =
    if nanPattern t x || nanPattern t y then t.nan else if patternOrder t x ≤ patternOrder t y then y else x :=
  ite_ltMin hx hy Eq.symm

end Sys2Proof.Machine
end

section
/-!
PROOF. The exact float words (R129) and the integer DOT words (R164).
-/
namespace Sys2Proof.Machine

/-! ## The sign bit of a pattern -/

theorem testBit_clearTop (x : Nat) {w i : Nat} (hi : i < w) :
    (x % 2 ^ (w - 1) % 2 ^ w).testBit i = if i = w - 1 then false else x.testBit i := by
  rw [Nat.testBit_mod_two_pow, Nat.testBit_mod_two_pow]
  split_ifs with h
  · simp [h]
  · simp [hi, show i < w - 1 by omega]

theorem testBit_flipTop (x : Nat) {w i : Nat} (hi : i < w) :
    ((x + 2 ^ (w - 1)) % 2 ^ w).testBit i = if i = w - 1 then !x.testBit i else x.testBit i := by
  rw [Nat.testBit_mod_two_pow, Nat.add_comm]
  split_ifs with h
  · rw [h, Nat.testBit_two_pow_add_eq]; simp; omega
  · rw [Nat.testBit_two_pow_add_gt (by omega)]; simp [hi]

theorem testBit_copyTop (x y : Nat) {w i : Nat} (hi : i < w) :
    ((x % 2 ^ (w - 1) + y / 2 ^ (w - 1) * 2 ^ (w - 1)) % 2 ^ w).testBit i = if i = w - 1 then y.testBit i else x.testBit i := by
  rw [Nat.testBit_mod_two_pow, Nat.add_comm, Nat.mul_comm,
    Nat.testBit_two_pow_mul_add _ (Nat.mod_lt x (Nat.two_pow_pos _)), Nat.testBit_mod_two_pow, Nat.testBit_div_two_pow]
  split_ifs with h1 h2 h2
  · omega
  · simp [hi, h1]
  · rw [h2, Nat.sub_self, Nat.zero_add, decide_eq_true (by omega), Bool.true_and]
  · omega

/-! ## Words that write a register of sub-elements -/

/-- A word that writes one register in every lane that issues it, from the sub-elements that the register is to have. -/
theorem subsAre_packSubs {i : Instr} {m : WMeta} {d : Reg} {w : Nat} {r : WEnv → State → Nat → Nat → Nat → Prop}
    (v : WEnv → State → Nat → Nat → Nat)
    (hx : ∀ s, exec i s = runWord m (fun e s => e.writeAll s d fun l => packSubs w (v e s l)) s)
    (h : ∀ e s l, bit e.act l = true → ∀ j < 64 / w, r e s l j (v e s l j % 2 ^ w)) : SubsAre i m d w r :=
  effect_of _ hx fun e b w' => ⟨onlyReg_writeAll e w' b d _, fun l hl j hj => by
    rw [readReg_writeAll e w' b d _ l hl, subBits_packSubs w _ j hj]; exact h e b l hl j hj⟩

/-! ## Sums of products -/

theorem dotSum_eq (w : Nat) (sa sb : Bool) (a b : Word) (lo n : Nat) :
    dotSum w sa sb a b lo n = ∑ i ∈ Finset.range n, packedVal w sa a (lo + i) * packedVal w sb b (lo + i) := by
  unfold dotSum
  induction n with
  | zero => rfl
  | succ n ih => rw [List.range_succ, List.foldl_append, ih, Finset.sum_range_succ]; rfl

/-- A DOT word on two halves (R164): in each, the prior value plus the exact sum of the products of its elements. -/
theorem intsAre_dotHalves {i : Instr} {d : Reg} {a b : Src} (w n : Nat) (sa sb : Bool) (hn : 32 / w = n) (hw : w * n = 32)
    (hx : ∀ s, exec i s = accWord d a b (dotHalves w sa sb) s) :
    IntsAre i { ops := [.reg d, a, b], dst := [d] } d 32 fun e s l k =>
      (subBits (readReg (e.lane s l) d) (w * n) k : Int) +
        ∑ j ∈ Finset.range n, packedVal w sa (e.src s l a) (n * k + j) * packedVal w sb (e.src s l b) (n * k + j) := by
  refine intsAre_bits (fun e s l k => wrapNat 32 (subBits (readReg (e.lane s l) d) 32 k +
    dotSum w sa sb (e.src s l a) (e.src s l b) (k * n) n)) _ (fun e s l k _ => ?_) fun s => ?_
  · rw [wrapNat_eq, Int.emod_emod, dotSum_eq, hw, Nat.mul_comm k n]
  · rw [hx, ← hn]; rfl

/-- The DOT word on one 64-bit sum (R164). -/
theorem intsAre_dotI16 (d : Reg) (a b : Src) :
    IntsAre (.dotI16 d a b) { ops := [.reg d, a, b], dst := [d] } d 64 fun e s l k =>
      (subBits (readReg (e.lane s l) d) (16 * 4) k : Int) +
        ∑ j ∈ Finset.range 4, packedVal 16 true (e.src s l a) (4 * k + j) * packedVal 16 true (e.src s l b) (4 * k + j) := by
  have hword : ∀ x : Word, subBits x 64 0 = x.toNat := fun x => Nat.mod_eq_of_lt x.isLt
  refine subsAre_of (fun e s l => BitVec.ofInt 64 (((readReg (e.lane s l) d).toNat : Int) +
    dotSum 16 true true (e.src s l a) (e.src s l b) 0 4)) (fun _ => rfl) fun e s l k hk => ?_
  obtain rfl : k = 0 := by omega
  change _ = ((subBits (readReg (e.lane s l) d) 64 0 : Int) + _) % 2 ^ 64
  rw [hword, hword, BitVec.toNat_ofInt, dotSum_eq, Int.toNat_of_nonneg (Int.emod_nonneg _ (by decide))]
  rfl

/-- Settles O5: each word writes sub-elements whose bits or integers are those of the lemmas above, and the minimum and the maximum follow
the order of the patterns. -/
theorem exactFloatsAndDots : Obligations.ExactFloatsAndDots := by
  unfold Obligations.ExactFloatsAndDots
  refine ⟨?floats, ?dots, fun t x y hx hy => ⟨fminBits_eq hx hy, fmaxBits_eq hx hy⟩⟩
  case floats =>
    intro d a b t m2 m1 w x y
    refine ⟨subsAre_packSubs (fun e s l j => fminBits t (x e s l j) (y e s l j)) (fun _ => rfl) fun _ _ _ _ _ _ => rfl,
      subsAre_packSubs (fun e s l j => fmaxBits t (x e s l j) (y e s l j)) (fun _ => rfl) fun _ _ _ _ _ _ => rfl,
      subsAre_packSubs (fun e s l j => x e s l j % 2 ^ (w - 1)) (fun _ => rfl) fun _ _ _ _ _ _ _ hi => testBit_clearTop _ hi,
      subsAre_packSubs (fun e s l j => x e s l j + 2 ^ (w - 1)) (fun _ => rfl) fun _ _ _ _ _ _ _ hi => testBit_flipTop _ hi,
      subsAre_packSubs (fun e s l j => x e s l j % 2 ^ (w - 1) + y e s l j / 2 ^ (w - 1) * 2 ^ (w - 1)) (fun _ => rfl)
        fun _ _ _ _ _ _ _ hi => testBit_copyTop _ _ hi⟩
  case dots =>
    intro d a b m3 u i sum
    exact ⟨intsAre_dotHalves 8 4 true true rfl rfl fun _ => rfl, intsAre_dotHalves 8 4 false false rfl rfl fun _ => rfl,
      intsAre_dotHalves 8 4 true false rfl rfl fun _ => rfl, intsAre_dotHalves 4 8 true true rfl rfl fun _ => rfl,
      intsAre_dotHalves 4 8 false false rfl rfl fun _ => rfl, intsAre_dotI16 d a b⟩

end Sys2Proof.Machine
end

section
/-!
SUPPORT. Scans and reductions of exact steps over the lanes (R43, R62, R160): their sweeps stay within the width of a sub-element.
-/
namespace Sys2Proof.Machine

/-- A step that is exact raises nothing. -/
def exactStep (op : Nat → Nat → Nat) (_i x y : Nat) : FRes := FRes.exact (op x y)

/-- The lanes' values of a sub-element, an identity for a lane that takes no part (R160). -/
def WEnv.foldStart (e : WEnv) (s : State) (a : Src) (w ident j i : Nat) : Nat := if bit e.act i then subBits (e.src s i a) w j else ident

/-- What makes a scan or reduction of sub-elements of `w` bits by `op` one by `op'`, delivered through `out`: on patterns of `w` bits, which the
identity is, the two agree and give such patterns. -/
structure FoldsAs (w ident : Nat) (op op' : Nat → Nat → Nat) (out : Nat → Nat) : Prop where
  ident_lt : ident < 2 ^ w
  op_eq : ∀ x y, x < 2 ^ w → y < 2 ^ w → op x y = op' x y
  op_lt : ∀ x y, x < 2 ^ w → y < 2 ^ w → op' x y < 2 ^ w
  out_lt : ∀ x, x < 2 ^ w → out x < 2 ^ w

/-- The word writes in each sub-element of `w` bits what a scan or a reduction by `op` leaves, delivered through `out`. -/
def IsFold (i : Instr) (scan : Bool) (d : Reg) (a : Src) (w ident : Nat) (op : Nat → Nat → Nat) (out : Nat → Nat) : Prop :=
  ∀ s, exec i s = runWord { ops := [a], dst := [d] } (fun e s =>
    let rows := (List.range (64 / w)).map fun j => fold32 scan (fun _ x y => ⟨op x.v y.v, 0, []⟩) (lanes32 e s a w j ident)
    e.writeAll s d fun l => packSubs w fun j => out ((((rows[j]?).getD [])[l]?).getD ⟨0, 0, []⟩).v) s

/-- Sweeps whose steps keep a bound keep it. -/
theorem sweepVals_lt {f : Nat → Nat → Nat → FRes} {B : Nat} (hf : ∀ i x y, x < B → y < B → (f i x y).bits < B) (ws : List Sweep) :
    ∀ {v : Nat → Nat}, (∀ i, v i < B) → ∀ i, sweepVals f ws v i < B := by
  induction ws with
  | nil => intro v hv; exact hv
  | cons w r ih =>
    intro v hv
    refine ih fun i => ?_
    rw [Sweep.next]
    split_ifs
    · exact hf _ _ _ (hv _) (hv _)
    · exact hv i

/-- Steps that agree below a bound that they keep leave the same values. -/
theorem sweepVals_congr {f g : Nat → Nat → Nat → FRes} {B : Nat} (hfg : ∀ i x y, x < B → y < B → (f i x y).bits = (g i x y).bits)
    (hg : ∀ i x y, x < B → y < B → (g i x y).bits < B) (ws : List Sweep) :
    ∀ {v : Nat → Nat}, (∀ i, v i < B) → sweepVals f ws v = sweepVals g ws v := by
  induction ws with
  | nil => intro v _; rfl
  | cons w r ih =>
    intro v hv
    have hnext : w.next f v = w.next g v := by
      funext i
      simp only [Sweep.next, hfg _ _ _ (hv _) (hv _)]
    rw [sweepVals, sweepVals, hnext]
    exact ih fun i => sweepVals_lt hg [w] hv i

theorem foldStart_lt {w ident : Nat} (h : ident < 2 ^ w) (e : WEnv) (s : State) (a : Src) (j i : Nat) : e.foldStart s a w ident j i < 2 ^ w := by
  unfold WEnv.foldStart
  split_ifs
  · exact subBits_lt _ _ _
  · exact h

theorem holds_foldStart (e : WEnv) (s : State) (a : Src) (w ident j : Nat) : Holds (lanes32 e s a w j ident) 32 (e.foldStart s a w ident j) [] where
  vals i hi := by rw [lanes32, get_map_range _ hi]; rfl
  raised x hx := by
    obtain ⟨i, -, rfl⟩ := List.mem_map.mp hx
    exact .inl ⟨rfl, rfl⟩

/-- The results of one sub-element of exact steps: a lane's own, or one for all lanes. -/
theorem fold32_exact (scan : Bool) (op : Nat → Nat → Nat) {l : List Step1} {v : Nat → Nat} (h : Holds l 32 v []) {i : Nat} (hi : i < 32) :
    (((fold32 scan (fun _ x y => ⟨op x.v y.v, 0, []⟩) l)[i]?).getD ⟨0, 0, []⟩).v =
      sweepVals (exactStep op) (laneSweeps scan) v (if scan then i else 0) := by
  obtain ⟨hvals, -⟩ := sweeps_spec (op := fun _ x y => ⟨op x.v y.v, 0, []⟩) (f := exactStep op) (fun _ _ _ => rfl) (laneSweeps scan) h
    raised_nil (by cases scan <;> decide)
  cases scan with
  | true =>
    rw [fold32, if_pos rfl, scanFrom_eq_foldl]
    exact hvals i hi
  | false =>
    rw [fold32, if_neg Bool.false_ne_true, List.getElem?_replicate, if_pos hi, reduceFrom_eq_foldl, List.headD_eq_head?_getD,
      List.head?_eq_getElem?]
    exact hvals 0 Nat.one_pos

/-- A scan or reduction of exact steps writes in each sub-element what its sweeps leave. -/
theorem subsAre_fold {i : Instr} (scan : Bool) {d : Reg} {a : Src} {w ident : Nat} {op op' : Nat → Nat → Nat} {out : Nat → Nat}
    (h : FoldsAs w ident op op' out) (hx : IsFold i scan d a w ident op out) :
    SubsAre i { ops := [a], dst := [d] } d w fun e s l j n =>
      n = out (sweepVals (exactStep op') (laneSweeps scan) (e.foldStart s a w ident j) (if scan then l else 0)) := by
  refine subsAre_packSubs _ hx fun e s l hl j hj => ?_
  have hstart := foldStart_lt h.ident_lt e s a j
  have hrow : (((List.range (64 / w)).map fun j =>
      fold32 scan (fun _ x y => ⟨op x.v y.v, 0, []⟩) (lanes32 e s a w j ident))[j]?).getD [] =
        fold32 scan (fun _ x y => ⟨op x.v y.v, 0, []⟩) (lanes32 e s a w j ident) := by simp [hj]
  rw [hrow, fold32_exact scan op (holds_foldStart e s a w ident j) (BitVec.lt_of_getLsbD hl),
    sweepVals_congr (g := exactStep op') (fun _ => h.op_eq) (fun _ => h.op_lt) (laneSweeps scan) hstart]
  exact Nat.mod_eq_of_lt (h.out_lt _ (sweepVals_lt (fun _ => h.op_lt) _ hstart _))

end Sys2Proof.Machine
end

section
/-!
PROOF. Shuffles, ballots, and the exact scans and reductions over the lanes (R43, R62, R155, R159, R160, R162).
-/
namespace Sys2Proof.Machine

/-! ## Shuffles and ballots -/

theorem laneSub_lt (e : WEnv) (s : State) (a : Src) (w l j : Nat) : laneSub e s a w l j < 2 ^ w := by
  unfold laneSub
  split_ifs
  · exact subBits_lt _ _ _
  · exact Nat.two_pow_pos w

/-- A word that some lane issues has an elected lane. -/
theorem lowest_low {e : WEnv} {l : Nat} (h : bit e.act l = true) : Lowest e e.low := by
  have hmem : l ∈ bitList e.act := (mem_bitList _ _).mpr h
  cases hl : bitList e.act with
  | nil => rw [hl] at hmem; cases hmem
  | cons q r =>
    have hq : e.low = q := by rw [WEnv.low, lowLane, hl, List.headD_cons]
    rw [hq]
    refine ⟨(mem_bitList _ _).mp (hl ▸ List.mem_cons_self), fun k hk => Bool.eq_false_iff.mpr fun hbit => ?_⟩
    exact absurd (le_of_bitList_eq_cons hl hbit) (Nat.not_le.mpr hk)

/-- The bits of a list of rising numbers are those of the sum of their powers of two. -/
theorem setWidth_maskOf {w : Nat} (n : Nat) {l : List Nat} (hl : l.Pairwise (· < ·)) (hw : ∀ i ∈ l, i < w) :
    (maskOf w l).setWidth n = BitVec.ofNat n (l.map (2 ^ ·)).sum := by
  apply BitVec.eq_of_getLsbD_eq
  intro i hi
  have hbit : (l.map (2 ^ ·)).sum.testBit i = l.contains i := by
    rw [Bool.eq_iff_iff, ← Nat.mem_bitIndices, Nat.bitIndices_sum_map_two_pow hl.sortedLT, List.contains_iff_mem]
  rw [BitVec.getLsbD_setWidth, maskOf_bit, BitVec.getLsbD_ofNat, hbit, Bool.eq_iff_iff]
  simp only [hi, decide_true, Bool.true_and, Bool.and_eq_true, decide_eq_true_eq, List.contains_iff_mem, and_iff_right_iff_imp]
  exact hw i

theorem length_bitList_maskOf {w : Nat} {l : List Nat} (hl : l.Nodup) (hw : ∀ i ∈ l, i < w) : (bitList (maskOf w l)).length = l.length := by
  refine ((List.perm_ext_iff_of_nodup (bitList_nodup _) hl).mpr fun i => ?_).length_eq
  rw [mem_bitList, maskOf_bit, Bool.and_eq_true, decide_eq_true_iff, List.contains_iff_mem, and_iff_right_iff_imp]
  exact hw i

/-- The lanes of a ballot rise, and are lanes of a group. -/
theorem ballot_sorted (e : WEnv) (s : State) (p : Fin 8) : (e.lanes.filter fun k => predOf (e.lane s k) p).Pairwise (· < ·) :=
  (bitList_sorted e.act).filter _

theorem lt_of_mem_ballot {e : WEnv} {s : State} {p : Fin 8} {i : Nat} (h : i ∈ e.lanes.filter fun k => predOf (e.lane s k) p) : i < 32 :=
  BitVec.lt_of_getLsbD ((mem_bitList e.act i).mp (List.mem_of_mem_filter h))

theorem setWidth_ballotMask (e : WEnv) (s : State) (p : Fin 8) :
    (ballotMask e s p).setWidth 64 = BitVec.ofNat 64 ((e.lanes.filter fun k => predOf (e.lane s k) p).map (2 ^ ·)).sum :=
  setWidth_maskOf 64 (ballot_sorted e s p) fun _ => lt_of_mem_ballot

theorem length_ballotMask (e : WEnv) (s : State) (p : Fin 8) :
    (bitList (ballotMask e s p)).length = (e.lanes.filter fun k => predOf (e.lane s k) p).length :=
  length_bitList_maskOf ((ballot_sorted e s p).imp Nat.ne_of_lt) fun _ => lt_of_mem_ballot

/-! ## The operations of scans and reductions -/

theorem minIdent_eq (t : IntTy) : minIdent t = if t.signed then 2 ^ (t.width - 1) - 1 else 2 ^ t.width - 1 := by cases t <;> rfl

theorem maxIdent_eq (t : IntTy) : maxIdent t = if t.signed then 2 ^ (t.width - 1) else 0 := by cases t <;> rfl

theorem ite_lt_of_lt {p : Prop} [Decidable p] {x y B : Nat} (hx : x < B) (hy : y < B) : (if p then x else y) < B := by
  split_ifs
  · exact hx
  · exact hy

/-- An operation that keeps the patterns of `w` bits, delivered as it is. -/
theorem foldsAs_self {w ident : Nat} {op : Nat → Nat → Nat} (hi : ident < 2 ^ w) (hop : ∀ x y, x < 2 ^ w → y < 2 ^ w → op x y < 2 ^ w) :
    FoldsAs w ident op op id where
  ident_lt := hi
  op_eq _ _ _ _ := rfl
  op_lt := hop
  out_lt _ h := h

theorem foldsAs_add (t : IntTy) : FoldsAs t.width 0 (addPat t) (addPat t) id :=
  foldsAs_self (Nat.two_pow_pos _) fun _ _ _ _ => Nat.mod_lt _ (Nat.two_pow_pos _)

theorem foldsAs_min (t : IntTy) : FoldsAs t.width (minIdent t) (minPat t) (minPat t) id :=
  foldsAs_self (wrapNat_lt _ _) fun _ _ hx hy => ite_lt_of_lt hx hy

theorem foldsAs_max (t : IntTy) : FoldsAs t.width (maxIdent t) (maxPat t) (maxPat t) id :=
  foldsAs_self (wrapNat_lt _ _) fun _ _ hx hy => ite_lt_of_lt hy hx

theorem foldsAs_and (t : IntTy) : FoldsAs t.width (onesIdent t) (fun x y => x &&& y) (fun x y => x &&& y) id :=
  foldsAs_self (Nat.sub_one_lt (Nat.two_pow_pos _).ne') fun _ _ _ hy => Nat.and_lt_two_pow _ hy

theorem foldsAs_or (t : IntTy) : FoldsAs t.width 0 (fun x y => x ||| y) (fun x y => x ||| y) id :=
  foldsAs_self (Nat.two_pow_pos _) fun _ _ hx hy => Nat.or_lt_two_pow hx hy

theorem foldsAs_xor (t : IntTy) : FoldsAs t.width 0 (fun x y => x ^^^ y) (fun x y => x ^^^ y) id :=
  foldsAs_self (Nat.two_pow_pos _) fun _ _ hx hy => Nat.xor_lt_two_pow hx hy

theorem fltNan_lt (t : FltTy) : t.nan < 2 ^ t.width := by cases t <;> decide

/-- An operation on float patterns, whose NaN is delivered as the canonical one (R43). -/
theorem foldsAs_deliver {t : FltTy} {ident : Nat} {op : Nat → Nat → Nat} (hi : ident < 2 ^ t.width)
    (hop : ∀ x y, x < 2 ^ t.width → y < 2 ^ t.width → op x y < 2 ^ t.width) :
    FoldsAs t.width ident op (fun x y => op x y % 2 ^ t.width) (FltTy.deliver t) where
  ident_lt := hi
  op_eq x y hx hy := (Nat.mod_eq_of_lt (hop x y hx hy)).symm
  op_lt _ _ _ _ := Nat.mod_lt _ (Nat.two_pow_pos _)
  out_lt _ hx := ite_lt_of_lt (fltNan_lt t) hx

theorem foldsAs_fmin (t : FltTy) :
    FoldsAs t.width t.inf (fminBits t) (fun x y => fminBits t x y % 2 ^ t.width) (FltTy.deliver t) :=
  foldsAs_deliver (by cases t <;> decide) fun _ _ hx hy => ite_lt_of_lt (fltNan_lt t) (ite_lt_of_lt hx hy)

theorem foldsAs_fmax (t : FltTy) :
    FoldsAs t.width (t.sign true + t.inf) (fmaxBits t) (fun x y => fmaxBits t x y % 2 ^ t.width) (FltTy.deliver t) :=
  foldsAs_deliver (by cases t <;> decide) fun _ _ hx hy => ite_lt_of_lt (fltNan_lt t) (ite_lt_of_lt hy hx)

/-- Settles O9: shuffles and ballots write what the lemmas above say of their lanes and masks; scans and reductions are the sweeps of their
exact steps. -/
theorem shufflesAndScans : Obligations.ShufflesAndScans := by
  unfold Obligations.ShufflesAndScans
  refine ⟨?shuffles, ?folds⟩
  case shuffles =>
    intro d a b t p m2 w m from'
    refine ⟨?shuffle, ?rotate, ?broadcast, ?ballot, ?count⟩
    case shuffle =>
      exact subsAre_packSubs (fun e s i j => laneSub e s a w (subBits (e.src s i b) w j % 32) (subBits (e.src s i b) w j / 32 % m))
        (fun _ => rfl) fun e s _ _ _ _ => Nat.mod_eq_of_lt (laneSub_lt e s a _ _ _)
    case rotate =>
      exact subsAre_packSubs (fun e s i j =>
          let at' := (i * m + j + (e.src s i b).toNat % (32 * m)) % (32 * m)
          laneSub e s a w (at' / m) (at' % m))
        (fun _ => rfl) fun e s _ _ _ _ => Nat.mod_eq_of_lt (laneSub_lt e s a _ _ _)
    case broadcast =>
      refine subsAre_packSubs (fun e s _ _ => laneSub e s a w ((e.src s e.low b).toNat % 32) ((e.src s e.low b).toNat / 32 % m))
        (fun _ => rfl) fun e s i hi _ _ => ?_
      obtain ⟨hact, hlow⟩ := lowest_low hi
      exact ⟨e.low, hact, hlow, Nat.mod_eq_of_lt (laneSub_lt e s a _ _ _)⟩
    case ballot =>
      have h : WordIs (.ballot d p) { dst := [d] } d fun e s _ => (ballotMask e s p).setWidth 64 := wordIs_of _ fun _ => rfl
      simp only [setWidth_ballotMask] at h
      exact h
    case count =>
      have h : WordIs (.lpopc d p) { dst := [d] } d fun e s _ => wd (bitList (ballotMask e s p)).length := wordIs_of _ fun _ => rfl
      simp only [length_ballotMask] at h
      exact h
  case folds =>
    intro d a t u m1 scan red canon all w val
    have folds {sc rd : Instr} {w ident : Nat} {op op' : Nat → Nat → Nat} {out : Nat → Nat} (h : FoldsAs w ident op op' out)
        (hsc : IsFold sc true d a w ident op out) (hrd : IsFold rd false d a w ident op out) : all sc rd w ident op' out :=
      ⟨subsAre_fold true h hsc, subsAre_fold false h hrd⟩
    rw [← minIdent_eq, ← maxIdent_eq]
    exact ⟨folds (foldsAs_add t) (fun _ => rfl) fun _ => rfl, folds (foldsAs_min t) (fun _ => rfl) fun _ => rfl,
      folds (foldsAs_max t) (fun _ => rfl) fun _ => rfl, folds (foldsAs_and t) (fun _ => rfl) fun _ => rfl,
      folds (foldsAs_or t) (fun _ => rfl) fun _ => rfl, folds (foldsAs_xor t) (fun _ => rfl) fun _ => rfl,
      folds (foldsAs_fmin u) (fun _ => rfl) fun _ => rfl, folds (foldsAs_fmax u) (fun _ => rfl) fun _ => rfl⟩

end Sys2Proof.Machine
end

section
/-!
SUPPORT. Scratchpad atomics (R166 to R168): the lanes act one after another on the core, each on the memory that the lanes below it left.
-/
namespace Sys2Proof.Machine

/-! ## The lanes of an atomic, one after another -/

/-- The memory after lane `l`'s atomic: `g` gives what replaces the word that it reads. -/
def atomMem (addr : Nat → Nat) (g : Nat → Word → Word) (m : Mem) (l : Nat) : Mem :=
  memStore m (addr l) 8 (g l (wd (memRead m (addr l) 8))).toNat

/-- The word that lane `l` reads, after those of the lanes `ls` that are below it. -/
def atomOld (addr : Nat → Nat) (g : Nat → Word → Word) (ls : List Nat) (m : Mem) (l : Nat) : Word :=
  wd (memRead ((ls.filter fun k => decide (k < l)).foldl (atomMem addr g) m) (addr l) 8)

/-- The core after lane `l`'s atomic: its memory, the marks of races on it, and the lane's register. -/
def atomCore (addr : Nat → Nat) (g : Nat → Word → Word) (d : Reg) (grp : Nat) (x : Core) (l : Nat) : Core :=
  { x with
    spad := atomMem addr g x.spad l
    eng := x.eng.overwritten x.spad (addr l) 8
    groups := spSet x.groups grp ((x.group grp).modLane l fun y => writeReg y d (wd (memRead x.spad (addr l) 8))) }

theorem segCheck_ok {x off : Word} {n : Nat} (hkind : segKind x = 2) (hlimit : off.toNat + n ≤ segLimit x) (halign : n ∣ off.toNat) :
    segCheck x off n true = .ok (segBase x + off.toNat) := by
  rw [segCheck, if_neg (by simp [hkind]), if_neg (by omega), if_neg (by simpa using Nat.mod_eq_zero_of_dvd halign)]

/-- One lane's read, store and register are one change of its core. -/
theorem laneWrite_modLane_eq (s : State) (c grp l : Nat) (d : Reg) (addr : Nat → Nat) (g : Nat → Word → Word) :
    modGroup (laneWrite s c (addr l) (leBytes 8 (g l (wd (spadRead s c (addr l) 8))).toNat)) c grp
        (fun gr => gr.modLane l fun x => writeReg x d (wd (spadRead s c (addr l) 8))) =
      modCore s c fun x => atomCore addr g d grp x l := by
  rw [modGroup_eq, laneWrite, modCore_modCore, leBytes_length]
  unfold modCore
  exact congrArg (setCore s c) rfl

/-- Where every lane's access passes, an atomic is its lanes' changes of the core, and no lane faults. -/
theorem atomBody_eq {d : Reg} {a b : Src} {seg : Fin 3} (f : Word → Word → Word → Word) {e : WEnv} {s : State}
    (hkind : segKind (e.segVal s seg) = 2)
    (hok : ∀ l, bit e.act l = true → (e.src s l a).toNat + 8 ≤ segLimit (e.segVal s seg) ∧ 8 ∣ (e.src s l a).toNat) :
    atomBody d a b seg f e s = (e.lanes.foldl (fun s' l => modCore s' e.core fun x =>
      atomCore (fun l => segBase (e.segVal s seg) + (e.src s l a).toNat) (fun l old => f old (e.src s l b) (e.src s l (.reg d))) d e.grp x l)
        s, []) := by
  have hlanes : ∀ l ∈ e.lanes, segCheck (e.segVal s seg) (e.src s l a) 8 true = .ok (segBase (e.segVal s seg) + (e.src s l a).toNat) :=
    fun l hl => segCheck_ok hkind (hok l ((mem_bitList _ _).mp hl)).1 (hok l ((mem_bitList _ _).mp hl)).2
  refine List.foldl_rel (r := fun (x : WRes) s' => x = (s', [])) rfl fun l hl x s' hx => ?_
  subst hx
  simp only [hlanes l hl, ← laneWrite_modLane_eq]

/-- Changes of one core, one after another, are one change of it. -/
theorem foldl_modCore {α : Type} (c : Nat) (F : Core → α → Core) (s : State) (l : List α) (h : l ≠ []) :
    l.foldl (fun s k => modCore s c fun x => F x k) s = modCore s c fun x => l.foldl F x := by
  induction l using List.reverseRecOn with
  | nil => exact absurd rfl h
  | append_singleton l k ih =>
    rcases eq_or_ne l [] with rfl | hl
    · rfl
    · simp only [List.foldl_append, ih hl, List.foldl_cons, List.foldl_nil, modCore_modCore]; rfl

/-! ## What the lanes leave of the core -/

section
variable (addr : Nat → Nat) (g : Nat → Word → Word) (d : Reg) (grp : Nat)

/-- Besides the group, only the memory and the marks of races on it differ. -/
theorem foldl_atomCore_rest (ls : List Nat) : ∀ x : Core,
    { raceMarks x (ls.foldl (atomCore addr g d grp) x) with
      spad := (ls.foldl (atomCore addr g d grp) x).spad, groups := (ls.foldl (atomCore addr g d grp) x).groups } =
      ls.foldl (atomCore addr g d grp) x := by
  induction ls with
  | nil => intro x; rfl
  | cons l r ih => intro x; exact ih (atomCore addr g d grp x l)

theorem foldl_atomCore_spad (ls : List Nat) : ∀ x : Core, (ls.foldl (atomCore addr g d grp) x).spad = ls.foldl (atomMem addr g) x.spad := by
  induction ls with
  | nil => intro x; rfl
  | cons l r ih => intro x; exact ih (atomCore addr g d grp x l)

/-- Of rising numbers, those below one of them are those before it. -/
theorem filter_lt_of_pairwise {l : Nat} {pre post : List Nat} (h : (pre ++ l :: post).Pairwise (· < ·)) :
    (pre ++ l :: post).filter (fun k => decide (k < l)) = pre := by
  obtain ⟨-, hpost, hpre⟩ := List.pairwise_append.mp h
  rw [List.filter_append, List.filter_eq_self.mpr fun k hk => decide_eq_true (hpre k hk l List.mem_cons_self),
    List.filter_eq_nil_iff.mpr, List.append_nil]
  intro k hk
  rcases List.mem_cons.mp hk with rfl | hk
  · simp
  · simpa using (List.rel_of_pairwise_cons hpost hk).le

/-- A lane finds the memory that the lanes before it left. -/
theorem atomOld_append {l : Nat} {pre post : List Nat} (h : (pre ++ l :: post).Pairwise (· < ·)) (m : Mem) :
    atomOld addr g (pre ++ l :: post) m l = wd (memRead (pre.foldl (atomMem addr g) m) (addr l) 8) := by
  rw [atomOld, filter_lt_of_pairwise h]

/-- The first of rising lanes store, one after another, what replaces the words that they read. -/
theorem foldl_memStore_eq {ls : List Nat} (hs : ls.Pairwise (· < ·)) (m : Mem) (pre : List Nat) : ∀ post, ls = pre ++ post →
    pre.foldl (fun m' k => memStore m' (addr k) 8 (g k (atomOld addr g ls m k)).toNat) m = pre.foldl (atomMem addr g) m := by
  induction pre using List.reverseRecOn with
  | nil => intro post _; rw [List.foldl_nil, List.foldl_nil]
  | append_singleton pre l ih =>
    intro post h
    rw [List.append_assoc, List.singleton_append] at h
    rw [List.foldl_append, List.foldl_append, ih _ h]
    subst h
    rw [List.foldl_cons, atomOld_append addr g hs, List.foldl_cons, List.foldl_nil, List.foldl_nil, atomMem]

/-- The word that a lane reads, of the memory that the lanes below it stored to. -/
theorem atomOld_eq {ls : List Nat} (hs : ls.Pairwise (· < ·)) (m : Mem) {l : Nat} (hl : l ∈ ls) :
    atomOld addr g ls m l = wd (memRead ((ls.filter fun k => decide (k < l)).foldl
      (fun m' k => memStore m' (addr k) 8 (g k (atomOld addr g ls m k)).toNat) m) (addr l) 8) := by
  obtain ⟨pre, post, rfl⟩ := List.append_of_mem hl
  rw [filter_lt_of_pairwise hs, foldl_memStore_eq addr g hs m pre (l :: post) rfl, atomOld_append addr g hs]

/-- The first of rising lanes have the words that they read. -/
theorem group_foldl_atomCore {ls : List Nat} (hs : ls.Pairwise (· < ·)) (x : Core) (pre : List Nat) : ∀ post, ls = pre ++ post →
    (pre.foldl (atomCore addr g d grp) x).group grp =
      pre.foldl (fun gr l => gr.modLane l fun y => writeReg y d (atomOld addr g ls x.spad l)) (x.group grp) := by
  induction pre using List.reverseRecOn with
  | nil => intro post _; rfl
  | append_singleton pre l ih =>
    intro post h
    rw [List.append_assoc, List.singleton_append] at h
    rw [List.foldl_append, List.foldl_append, ← ih _ h]
    subst h
    rw [List.foldl_cons, List.foldl_cons, atomOld_append addr g hs, ← foldl_atomCore_spad addr g d grp]
    exact spGet_spSet_self _ _ _ _

theorem groups_foldl_atomCore (x : Core) (ls : List Nat) (h : ls ≠ []) : (ls.foldl (atomCore addr g d grp) x).groups =
    spSet x.groups grp ((ls.foldl (atomCore addr g d grp) x).group grp) := by
  induction ls using List.reverseRecOn with
  | nil => exact absurd rfl h
  | append_singleton pre l ih =>
    rw [List.foldl_append]
    generalize hy : pre.foldl (atomCore addr g d grp) x = y at ih ⊢
    have hself : (atomCore addr g d grp y l).groups = spSet y.groups grp ((atomCore addr g d grp y l).group grp) :=
      congrArg (spSet y.groups grp) (spGet_spSet_self _ _ _ _).symm
    rcases eq_or_ne pre [] with rfl | hpre
    · rw [List.foldl_nil] at hy
      subst hy
      exact hself
    · refine hself.trans ?_
      rw [ih hpre, spSet_spSet]
      rfl

end

/-! ## The frame of an atomic -/

/-- A change of a core that leaves it as it is. -/
theorem OnlyReg.modCore_self {fst : Bool} {d : Reg} {e : WEnv} {b t : State} {c : Nat} {f : Core → Core} (h : OnlyReg fst d e b t)
    (hf : f (getCore b c) = getCore b c) : OnlyReg fst d e (modCore b c f) t := by
  have hcores : ∀ k, getCore (modCore b c f) k = getCore b k := by
    intro k
    rw [getCore_modCore]
    split_ifs with hk
    · rw [hf, hk]
    · rfl
  have hgroup : ∀ k g, getGroup (modCore b c f) k g = getGroup b k g := fun k g => congrArg (Core.group · g) (hcores k)
  have hlane : ∀ l, e.lane (modCore b c f) l = e.lane b l := fun l => congrArg (Group.lane · l) (hgroup _ _)
  exact {
    rest := congrArg (fun x : State => { x with cores := (modCore b c f).cores }) h.rest
    cores := by simpa only [hcores] using h.cores
    core := by simpa only [hcores] using h.core
    groups := by simpa only [hgroup] using h.groups
    spads := by simpa only [hcores] using h.spads
    vaults := h.vaults
    group := by simpa only [hgroup] using h.group
    other := by simpa only [hgroup] using h.other
    own := by simpa only [hgroup] using h.own
    lanes := by simpa only [hlane] using h.lanes
    fixed := by simpa only [hlane] using h.fixed
    regs := by simpa only [hlane] using h.regs }

/-- A word that changes no lane changes no register of one. -/
theorem Quiet.onlyReg {e : WEnv} {b t : State} (h : Quiet e b t) (d : Reg) : OnlyReg false d e b t where
  toOnlyLanes := h.1
  fixed l := by rw [h.2 l]; rfl
  regs l r _ := by rw [h.2 l]

/-- The core after the atomics of a word's lanes. -/
def WEnv.atomCores (e : WEnv) (s : State) (addr : Nat → Nat) (g : Nat → Word → Word) (d : Reg) : Core :=
  e.lanes.foldl (atomCore addr g d e.grp) (getCore s e.core)

/-- The atomics of a word's lanes write memory and its marks, and one register of each lane. -/
theorem foldl_atomCore_eq_mapLanes (e : WEnv) (s : State) (addr : Nat → Nat) (g : Nat → Word → Word) (d : Reg) (h : e.lanes ≠ []) :
    e.lanes.foldl (fun s' l => modCore s' e.core fun x => atomCore addr g d e.grp x l) s =
      e.mapLanes (modCore s e.core fun x => { raceMarks x (e.atomCores s addr g d) with spad := (e.atomCores s addr g d).spad })
        fun l y => writeReg y d (atomOld addr g e.lanes (getCore s e.core).spad l) := by
  have hrest := foldl_atomCore_rest addr g d e.grp e.lanes (getCore s e.core)
  have hgroups := groups_foldl_atomCore addr g d e.grp (getCore s e.core) e.lanes h
  rw [group_foldl_atomCore addr g d e.grp (bitList_sorted e.act) (getCore s e.core) e.lanes [] (List.append_nil _).symm] at hgroups
  rw [foldl_modCore _ _ _ _ h, WEnv.mapLanes, modGroup_eq, modCore_modCore]
  unfold modCore
  refine congrArg (setCore s e.core) (hrest.symm.trans ?_)
  rw [hgroups]
  rfl

/-- The frame of an atomic, and what its lanes receive. -/
theorem atom_effect (e : WEnv) (w : BitVec 32) (s : State) (addr : Nat → Nat) (g : Nat → Word → Word) (d : Reg) :
    let t := endWord e w (e.lanes.foldl (fun s' l => modCore s' e.core fun x => atomCore addr g d e.grp x l) s, [])
    OnlyReg false d e
        (modCore s e.core fun x => { raceMarks x (e.atomCores s addr g d) with spad := (e.atomCores s addr g d).spad }) t ∧
      ∀ l, bit e.act l = true → readReg (e.lane t l) d = atomOld addr g e.lanes (getCore s e.core).spad l := by
  intro t
  rcases eq_or_ne e.lanes [] with h | h
  · have hcore : e.atomCores s addr g d = getCore s e.core := by rw [WEnv.atomCores, h]; rfl
    have ht : t = endWord e w (s, []) := by simp only [t, h]; rfl
    refine ⟨?_, fun l hl => absurd ((mem_bitList e.act l).mpr hl) (List.eq_nil_iff_forall_not_mem.mp h l)⟩
    rw [ht, hcore]
    exact ((quiet_endWord e w s).onlyReg d).modCore_self rfl
  · have ht := foldl_atomCore_eq_mapLanes e s addr g d h
    simp only [t, ht]
    exact ⟨onlyReg_writeAll e w _ d _, fun l hl => readReg_writeAll e w _ d _ l hl⟩

/-- The frame of an atomic, with the memory and the marks as the later state has them. -/
theorem withSpad_of {r : WEnv → State → State → Prop} {e : WEnv} {b t : State} {y : Core}
    (hg : OnlyGroup e (modCore b e.core fun x => { raceMarks x y with spad := y.spad }) t)
    (h : r e (modCore b e.core fun x => { raceMarks x y with spad := y.spad }) t) :
    WithSpad r e b t ∧ (getCore t e.core).spad = y.spad := by
  have hcore := hg.core
  rw [getCore_modCore_self] at hcore
  have hspad : (getCore t e.core).spad = y.spad := (congrArg Core.spad hcore :)
  have hraced : (getCore t e.core).eng.raced = y.eng.raced := (congrArg (fun x => x.eng.raced) hcore :)
  have hunseen : (getCore t e.core).eng.unseen = y.eng.unseen := (congrArg (fun x => x.eng.unseen) hcore :)
  refine ⟨?_, hspad⟩
  unfold WithSpad raceMarks
  rw [hspad, hraced, hunseen]
  exact h

end Sys2Proof.Machine
end

section
/-!
PROOF. The scratchpad atomics (R166 to R168).
-/
namespace Sys2Proof.Machine

theorem memBytes_length (m : Mem) (n : Nat) : ∀ a, (memBytes m a n).length = n := by
  induction n with
  | zero => intro a; rfl
  | succ n ih => intro a; rw [memBytes, List.length_cons, ih]

/-- Eight bytes of memory make a word. -/
theorem toNat_wd_memRead (m : Mem) (a : Nat) : (wd (memRead m a 8)).toNat = memRead m a 8 := by
  have h := leNat_lt (memBytes m a 8)
  rw [memBytes_length] at h
  exact Nat.mod_eq_of_lt h

/-- An atomic where every lane's access passes: `f` gives the new word from the old one, operand b and the prior d. -/
theorem effectIf_atom {i : Instr} {d : Reg} {a b : Src} {seg : Fin 3} {reads : List Src} (f : Word → Word → Word → Word)
    {r : Word → Word → Word → Word → Prop} (hx : ∀ s, exec i s = atomWord d a b seg reads f s)
    (hr : ∀ old y p, r old y p (f old y p)) :
    EffectIf i { ops := [a, b] ++ reads, dst := [d], phase := .restricted }
      (fun e s => segKind (e.segVal s seg) = 2 ∧
        ∀ l, bit e.act l = true → (e.src s l a).toNat + 8 ≤ segLimit (e.segVal s seg) ∧ 8 ∣ (e.src s l a).toNat)
      fun e s t =>
        let addr := fun l => segBase (e.segVal s seg) + (e.src s l a).toNat
        WithSpad (OnlyReg false d) e s t ∧
        ∃ new : Nat → Word,
          let before := fun l => (e.lanes.filter fun k => decide (k < l)).foldl
            (fun m k => memStore m (addr k) 8 (new k).toNat) (getCore s e.core).spad
          (∀ l, bit e.act l = true → (readReg (e.lane t l) d).toNat = memRead (before l) (addr l) 8 ∧
            r (readReg (e.lane t l) d) (e.src s l b) (readReg (e.lane s l) d) (new l)) ∧
          (getCore t e.core).spad =
            e.lanes.foldl (fun m k => memStore m (addr k) 8 (new k).toNat) (getCore s e.core).spad := by
  refine effectIf_of (atomBody d a b seg f) hx fun s k _ ⟨hkind, hok⟩ w => ?_
  rw [atomBody_eq f hkind hok]
  generalize envOf s k = e
  generalize atEffect s k = s
  intro addr
  let g := fun (l : Nat) (old : Word) => f old (e.src s l b) (e.src s l (.reg d))
  obtain ⟨hframe, hold⟩ := atom_effect e w s addr g d
  obtain ⟨hwith, hspad⟩ := withSpad_of hframe.toOnlyGroup hframe
  have hsorted : e.lanes.Pairwise (· < ·) := bitList_sorted e.act
  refine ⟨hwith, fun l => g l (atomOld addr g e.lanes (getCore s e.core).spad l), fun l hl => ?_, ?_⟩
  · rw [hold l hl]
    refine ⟨?_, hr _ _ _⟩
    rw [atomOld_eq addr g hsorted _ ((mem_bitList e.act l).mpr hl), toNat_wd_memRead]
  · rw [hspad, WEnv.atomCores, foldl_atomCore_spad]
    exact (foldl_memStore_eq addr g hsorted _ e.lanes [] (List.append_nil _).symm).symm

/-- A new word by the values of its sub-elements. -/
theorem subBits_atomVals (t : IntTy) (f : Int → Int → Int) (x y p : Word) (j : Nat) (hj : j < 64 / t.width) :
    (subBits (atomVals t f x y p) t.width j : Int) = f (subVal x t j) (subVal y t j) % 2 ^ t.width :=
  subBits_packInts t _ j hj

/-- Settles O8: each atomic is its lanes' changes of the core, one after another, by its own operation. -/
theorem atomicResults : Obligations.AtomicResults := by
  unfold Obligations.AtomicResults
  intro d a b t seg w acts ints
  refine ⟨?add, ?min, ?max, ?and_, ?or_, ?xor_, ?swap, ?cas⟩
  case add => exact effectIf_atom _ (fun _ => rfl) (subBits_atomVals t fun x y => x + y)
  case min =>
    refine effectIf_atom _ (fun _ => rfl) fun old y p j hj => (subBits_atomVals t (fun x y => if x ≤ y then x else y) old y p j hj).trans ?_
    rw [← min_def]
  case max =>
    refine effectIf_atom _ (fun _ => rfl) fun old y p j hj => (subBits_atomVals t (fun x y => if x ≤ y then y else x) old y p j hj).trans ?_
    rw [← max_def]
  case and_ => exact effectIf_atom (r := fun old y _ new => new = old &&& y) (fun old y _ => old &&& y) (fun _ => rfl) fun _ _ _ => rfl
  case or_ => exact effectIf_atom (r := fun old y _ new => new = old ||| y) (fun old y _ => old ||| y) (fun _ => rfl) fun _ _ _ => rfl
  case xor_ => exact effectIf_atom (r := fun old y _ new => new = old ^^^ y) (fun old y _ => old ^^^ y) (fun _ => rfl) fun _ _ _ => rfl
  case swap => exact effectIf_atom (r := fun _ y _ new => new = y) (fun _ y _ => y) (fun _ => rfl) fun _ _ _ => rfl
  case cas =>
    refine effectIf_atom (r := fun old y p new => ∀ j, j < 64 / w → subBits new w j = if subBits old w j = subBits p w j then subBits y w j
      else subBits old w j) (fun old y p => packSubs w fun j => if subBits old w j = subBits p w j then subBits y w j
      else subBits old w j) (fun _ => rfl) fun old y p j hj => ?_
    rw [subBits_packSubs _ _ _ hj, Nat.mod_eq_of_lt]
    split_ifs
    · exact subBits_lt y w j
    · exact subBits_lt old w j

end Sys2Proof.Machine
end

section
/-!
SUPPORT. Power states (R184): what a change of currents, temperatures or clocks does to the strings of a die.
-/
namespace Sys2Proof.Machine

/-! ## Sums and maxima of lists -/

theorem le_maxOf_iff {l : List Nat} {n : Nat} (hn : 0 < n) : n ≤ maxOf l ↔ ∃ x ∈ l, n ≤ x := by
  have key : ∀ (l : List Nat) (a : Nat), n ≤ l.foldl max a ↔ n ≤ a ∨ ∃ x ∈ l, n ≤ x := by
    intro l
    induction l with
    | nil => simp
    | cons x r ih => intro a; simp [ih, or_assoc]
  rw [maxOf, key]
  simp [show ¬ n ≤ 0 by omega]

theorem sumOf_eq_sum (l : List Nat) : sumOf l = l.sum := List.sum_eq_foldl.symm

/-! ## What the power states depend on -/

/-- Of the strings, the causes of power state 2 look only at the hard response of the string itself (R184). -/
theorem cause2_congr {s t : State} {n : Nat} (hc : t.cores = s.cores) (hd : t.dies = s.dies)
    (hh : (getStr t n).hard = (getStr s n).hard) : cause2 t n = cause2 s n := by
  unfold cause2 hottest limitOver railCurrent4 strCurrent4 getCore getDie
  rw [hc, hd, hh]

theorem le_hottest_iff (s : State) (d : Nat) {t : Nat} (ht : 0 < t) :
    t ≤ hottest s d ↔ ∃ j < 128, t ≤ fld (getCore s (128 * d + j)).therm 31 16 := by
  rw [hottest, le_maxOf_iff ht]
  simp [tempOf]

theorem hottest_lt_iff (s : State) (d : Nat) {t : Nat} (ht : 0 < t) :
    hottest s d < t ↔ ∀ j < 128, fld (getCore s (128 * d + j)).therm 31 16 < t := by
  rw [← not_le, le_hottest_iff s d ht]
  push Not
  rfl

/-! ## The causes of state 2 taken up -/

/-- One string of a die takes state 2 where a cause asks for it, and notes since when its way down has been open. -/
def refreshStr (s : State) (n : Nat) : State :=
  let s := if (getStr s n).pwr ≠ 2 ∧ cause2 s n then modStr s n fun x => { x with pwr := 2, clearSince := none } else s
  let since := if powerQuiet s n then some ((getStr s n).clearSince.getD s.time) else none
  if since = (getStr s n).clearSince then s else modStr s n fun x => { x with clearSince := since }

theorem refreshPower_eq_foldl (s : State) (d : Nat) :
    refreshPower s d = ((List.range 32).map fun i => 32 * d + i).foldl refreshStr s := by
  rw [List.foldl_map]
  rfl

/-- The strings alone differ, and of each only what a refresh of those in `l` may change: a state 2 taken up, and since when the way
down has been open. -/
structure Refreshed (l : List Nat) (b t : State) : Prop where
  rest : ∃ v, t = { b with strings := v }
  strings : ∀ n, ∃ v, getStr t n =
    { getStr b n with pwr := if n ∈ l ∧ cause2 b n = true then 2 else (getStr b n).pwr, clearSince := v }

theorem refreshed_of_pwr {s t : State} {n : Nat} (hrest : ∃ v, t = { s with strings := v })
    (hother : ∀ k, k ≠ n → getStr t k = getStr s k)
    (hself : ∃ v, getStr t n = { getStr s n with pwr := if cause2 s n = true then 2 else (getStr s n).pwr, clearSince := v }) :
    Refreshed [n] s t := by
  refine ⟨hrest, fun k => ?_⟩
  by_cases hk : k = n
  · subst hk; simpa using hself
  · exact ⟨(getStr s k).clearSince, by simp [hk, hother k hk]⟩

theorem refreshed_refreshStr (s : State) (n : Nat) : Refreshed [n] s (refreshStr s n) := by
  have hother : ∀ k, k ≠ n → getStr (refreshStr s n) k = getStr s k := fun k hk => by
    unfold refreshStr
    dsimp only
    split_ifs <;> simp [getStr_modStr, hk]
  refine refreshed_of_pwr ?_ hother ?_
  · unfold refreshStr
    dsimp only
    split_ifs <;> exact ⟨_, rfl⟩
  · have hpwr : (getStr s n).pwr = 2 ∨ ¬ cause2 s n = true →
        (if cause2 s n = true then 2 else (getStr s n).pwr) = (getStr s n).pwr := by
      rintro (h | h) <;> simp [h]
    unfold refreshStr
    dsimp only
    by_cases hc : (getStr s n).pwr ≠ 2 ∧ cause2 s n = true
    · rw [if_pos hc, if_pos hc.2]
      split_ifs <;> simp
    · rw [if_neg hc, hpwr (by tauto)]
      split_ifs
      exacts [⟨_, rfl⟩, ⟨_, getStr_modStr_self _ _ _⟩, ⟨_, rfl⟩, ⟨_, getStr_modStr_self _ _ _⟩]

theorem Refreshed.cause2 {l : List Nat} {b t : State} (h : Refreshed l b t) (n : Nat) : cause2 t n = cause2 b n := by
  obtain ⟨⟨v, hrest⟩, hstr⟩ := h
  obtain ⟨w, hn⟩ := hstr n
  exact cause2_congr (by rw [hrest]) (by rw [hrest]) (by rw [hn])

theorem Refreshed.trans {l m : List Nat} {a b c : State} (h : Refreshed l a b) (h' : Refreshed m b c) : Refreshed (l ++ m) a c := by
  obtain ⟨⟨v, hrest⟩, hstr⟩ := id h
  obtain ⟨⟨v', hrest'⟩, hstr'⟩ := id h'
  refine ⟨⟨v', by rw [hrest', hrest]⟩, fun n => ?_⟩
  obtain ⟨w, hn⟩ := hstr n
  obtain ⟨w', hn'⟩ := hstr' n
  refine ⟨w', ?_⟩
  rw [hn', h.cause2, hn]
  by_cases hc : Machine.cause2 a n = true <;> by_cases hl : n ∈ l <;> by_cases hm : n ∈ m <;> simp [hc, hl, hm]

theorem refreshed_foldl (l : List Nat) : ∀ s : State, Refreshed l s (l.foldl refreshStr s) := by
  induction l with
  | nil => exact fun s => ⟨⟨_, rfl⟩, fun n => ⟨(getStr s n).clearSince, by simp⟩⟩
  | cons x r ih => exact fun s => (refreshed_refreshStr s x).trans (ih _)

/-- The strings of a die, by number. -/
theorem mem_dieStrings {d n : Nat} : n ∈ (List.range 32).map (fun i => 32 * d + i) ↔ n / 32 = d := by
  simp only [List.mem_map, List.mem_range]
  constructor
  · rintro ⟨i, hi, rfl⟩; omega
  · exact fun h => ⟨n - 32 * d, by omega, by omega⟩

theorem refreshPower_rest (s : State) (d : Nat) : ∃ v, refreshPower s d = { s with strings := v } := by
  rw [refreshPower_eq_foldl]
  exact (refreshed_foldl _ s).rest

theorem cause2_refreshPower (s : State) (d n : Nat) : cause2 (refreshPower s d) n = cause2 s n := by
  rw [refreshPower_eq_foldl]
  exact (refreshed_foldl _ s).cause2 n

/-- A string once the strings of a die are refreshed (R184). -/
theorem getStr_refreshPower (s : State) (d n : Nat) : ∃ v, getStr (refreshPower s d) n =
    { getStr s n with pwr := if n / 32 = d ∧ cause2 s n = true then 2 else (getStr s n).pwr, clearSince := v } := by
  obtain ⟨v, hv⟩ := (refreshed_foldl ((List.range 32).map fun i => 32 * d + i) s).strings n
  rw [← refreshPower_eq_foldl] at hv
  refine ⟨v, hv.trans ?_⟩
  by_cases hn : n / 32 = d
  · simp [hn, mem_dieStrings.mpr hn]
  · simp only [hn, mt mem_dieStrings.mp hn, false_and, if_false]

/-- A refresh of a die's strings leaves what the statements allow of it (R184). -/
theorem samePower_refreshPower (s : State) (d : Nat) : SamePower d s (refreshPower s d) := by
  obtain ⟨v, hrest⟩ := refreshPower_rest s d
  refine ⟨by rw [hrest], fun n => ?_⟩
  obtain ⟨w, hn⟩ := getStr_refreshPower s d n
  rw [hn]

end Sys2Proof.Machine
end

section
/-!
SUPPORT. Cores changed one after another, and the filler of vacant and ballast cores (R178, R183, R373).
-/
namespace Sys2Proof.Machine

/-! ## Cores changed one after another -/

theorem foldl_modCore_rest (f : Nat → Core → Core) (l : List Nat) : ∀ s : State,
    ∃ v, l.foldl (fun s c => modCore s c (f c)) s = { s with cores := v } := by
  induction l with
  | nil => exact fun s => ⟨_, rfl⟩
  | cons x r ih =>
    intro s
    obtain ⟨v, hv⟩ := ih (modCore s x (f x))
    exact ⟨v, hv⟩

theorem getCore_foldl_modCore {f : Nat → Core → Core} (hf : ∀ c x, f c (f c x) = f c x) (l : List Nat) : ∀ (s : State) (c : Nat),
    getCore (l.foldl (fun s c => modCore s c (f c)) s) c = if c ∈ l then f c (getCore s c) else getCore s c := by
  induction l with
  | nil => simp
  | cons x r ih =>
    intro s c
    rw [List.foldl_cons, ih, getCore_modCore]
    by_cases hx : c = x <;> by_cases hr : c ∈ r <;> simp [hx, hr, hf]

/-! ## The filler of one string -/

/-- A core that no logical core runs on, or a ballast core. -/
def Core.vacant (co : Core) : Bool := co.part.isNone || co.ballast

/-- A core of a string once its filler follows its string-mates. -/
def tracked (s : State) (n c : Nat) : Core :=
  match trackedCurrent s c with
  | some i =>
    if ((getCore s c).part.isNone ∧ (getStr s n).part.isSome) ∨ (getCore s c).ballast then { getCore s c with current := i }
    else getCore s c
  | none => getCore s c

/-- Its filler is the only thing of a core that changes, and only where it is vacant. -/
theorem tracked_eq (s : State) (n c : Nat) :
    ∃ i, tracked s n c = { getCore s c with current := i } ∧ ((getCore s c).vacant = false → i = (getCore s c).current) := by
  unfold tracked
  split
  next i _ =>
    split_ifs with h
    · refine ⟨i, rfl, fun hv => ?_⟩
      rcases h with h | h <;> simp_all [Core.vacant]
    · exact ⟨_, rfl, fun _ => rfl⟩
  next => exact ⟨_, rfl, fun _ => rfl⟩

/-- What a filler follows are the currents of cores that are not vacant. -/
theorem trackedCurrent_congr {s t : State} (hstr : t.strings = s.strings)
    (h : ∀ k, ∃ i, getCore t k = { getCore s k with current := i } ∧ ((getCore s k).vacant = false → i = (getCore s k).current))
    (c : Nat) : trackedCurrent t c = trackedCurrent s c := by
  have hmates : (strCores (strOf c)).filter (fun k => decide (k ≠ c) && (getCore t k).part.isSome && !(getCore t k).ballast) =
      (strCores (strOf c)).filter fun k => decide (k ≠ c) && (getCore s k).part.isSome && !(getCore s k).ballast :=
    List.filter_congr fun k _ => by
      obtain ⟨i, hi, _⟩ := h k
      rw [hi]
  have hcur : ((strCores (strOf c)).filter fun k => decide (k ≠ c) && (getCore s k).part.isSome && !(getCore s k).ballast).map
        (fun k => (getCore t k).current) =
      ((strCores (strOf c)).filter fun k => decide (k ≠ c) && (getCore s k).part.isSome && !(getCore s k).ballast).map
        fun k => (getCore s k).current :=
    List.map_congr_left fun k hk => by
      obtain ⟨i, hi, hv⟩ := h k
      rw [hi]
      refine hv ?_
      have hk := (List.mem_filter.mp hk).2
      simp only [Bool.and_eq_true, Bool.not_eq_true', decide_eq_true_eq] at hk
      simp [Core.vacant, hk.2, hk.1.2]
  unfold trackedCurrent
  simp only [hmates, hcur, getStr, hstr]

/-- One core of a string follows its string-mates (R178, R183). -/
def trackCore (n : Nat) (s : State) (c : Nat) : State :=
  match trackedCurrent s c with
  | some i =>
    if ((getCore s c).part.isNone ∧ (getStr s n).part.isSome) ∨ (getCore s c).ballast then
      modCore s c fun x => { x with current := i }
    else s
  | none => s

theorem trackStr_eq_foldl (s : State) (n : Nat) : trackStr s n = (strCores n).foldl (trackCore n) s := rfl

theorem trackCore_rest (s : State) (n c : Nat) : ∃ v, trackCore n s c = { s with cores := v } := by
  unfold trackCore
  split
  · split_ifs <;> exact ⟨_, rfl⟩
  · exact ⟨_, rfl⟩

theorem getCore_trackCore (s : State) (n c k : Nat) :
    getCore (trackCore n s c) k = if k = c then tracked s n c else getCore s k := by
  by_cases hk : k = c
  · subst hk
    rw [if_pos rfl]
    unfold trackCore tracked
    split
    · split_ifs <;> simp
    · rfl
  · rw [if_neg hk]
    unfold trackCore
    split
    · split_ifs <;> simp [getCore_modCore, hk]
    · rfl

theorem tracked_trackCore (s : State) (n : Nat) {c k : Nat} (h : k ≠ c) : tracked (trackCore n s c) n k = tracked s n k := by
  obtain ⟨v, hv⟩ := trackCore_rest s n c
  have hcur : trackedCurrent (trackCore n s c) k = trackedCurrent s k := by
    refine trackedCurrent_congr (by rw [hv]) (fun j => ?_) k
    rw [getCore_trackCore]
    split_ifs with hj
    · subst hj; exact tracked_eq s n j
    · exact ⟨_, rfl, fun _ => rfl⟩
  have hstr : getStr (trackCore n s c) n = getStr s n := by rw [hv]; rfl
  unfold tracked
  rw [hcur, hstr, getCore_trackCore, if_neg h]

theorem getCore_foldl_trackCore (n : Nat) (l : List Nat) : ∀ (s : State) (k : Nat), l.Nodup →
    getCore (l.foldl (trackCore n) s) k = if k ∈ l then tracked s n k else getCore s k := by
  induction l with
  | nil => simp
  | cons x r ih =>
    intro s k hl
    obtain ⟨hx, hr⟩ := List.nodup_cons.mp hl
    rw [List.foldl_cons, ih _ _ hr, getCore_trackCore]
    by_cases hk : k = x
    · subst hk; simp [hx]
    · simp [hk, tracked_trackCore s n hk]

theorem mem_strCores {n c : Nat} : c ∈ strCores n ↔ c / 4 = n := by
  simp only [strCores, List.mem_cons, List.not_mem_nil, or_false]
  omega

theorem strCores_nodup (n : Nat) : (strCores n).Nodup := by simp [strCores]

theorem getCore_trackStr (s : State) (n c : Nat) :
    getCore (trackStr s n) c = if c / 4 = n then tracked s n c else getCore s c := by
  rw [trackStr_eq_foldl, getCore_foldl_trackCore n _ s c (strCores_nodup n)]
  simp only [mem_strCores]

theorem foldl_trackCore_rest (n : Nat) (l : List Nat) : ∀ s : State, ∃ v, l.foldl (trackCore n) s = { s with cores := v } := by
  induction l with
  | nil => exact fun s => ⟨_, rfl⟩
  | cons x r ih =>
    intro s
    obtain ⟨v, hv⟩ := ih (trackCore n s x)
    obtain ⟨w, hw⟩ := trackCore_rest s n x
    exact ⟨v, by rw [List.foldl_cons, hv, hw]⟩

theorem trackStr_rest (s : State) (n : Nat) : ∃ v, trackStr s n = { s with cores := v } := foldl_trackCore_rest n _ s

end Sys2Proof.Machine
end

section
/-!
PROOF. String balance and power states (R176, R177, R183, R184, R373).
-/
namespace Sys2Proof.Machine

/-! ## String balance -/

/-- The four cores of a string take the currents measured. -/
def measured (s : State) (n : Nat) (read : Nat → Nat) : State :=
  (List.range 4).foldl (fun s k => modCore s (4 * n + k) fun co => { co with current := read k }) s

theorem measured_eq (s : State) (n : Nat) (read : Nat → Nat) :
    measured s n read = (strCores n).foldl (fun s c => modCore s c fun co => { co with current := read (c % 4) }) s := by
  simp [measured, strCores, List.range_succ, Nat.add_mod]

theorem getCore_measured (s : State) (n : Nat) (read : Nat → Nat) (c : Nat) :
    getCore (measured s n read) c = if c / 4 = n then { getCore s c with current := read (c % 4) } else getCore s c := by
  rw [measured_eq, getCore_foldl_modCore (f := fun c co => { co with current := read (c % 4) }) fun _ _ => rfl]
  simp only [mem_strCores]

theorem measured_rest (s : State) (n : Nat) (read : Nat → Nat) : ∃ v, measured s n read = { s with cores := v } := by
  rw [measured_eq]
  exact foldl_modCore_rest (fun c co => { co with current := read (c % 4) }) _ s

/-- The string-mates of core `k` of a string that run (R183). -/
def mates (s : State) (n k : Nat) : List Nat :=
  (List.range 4).filter fun j => decide (j ≠ k) && (getCore s (4 * n + j)).part.isSome && !(getCore s (4 * n + j)).ballast

/-- The filler of core `k` of a string follows its string-mates (R178, R183, R373). -/
def follows (s : State) (n k : Nat) : Bool :=
  !(mates s n k).isEmpty && (((getCore s (4 * n + k)).part.isNone && (getStr s n).part.isSome) || (getCore s (4 * n + k)).ballast)

/-- The current of core `k` of a string whose cores draw `read`, but for the fillers (R178, R183, R373). -/
def balanced (s : State) (n : Nat) (read : Nat → Nat) (k : Nat) : Nat :=
  if follows s n k then min (sumOf ((mates s n k).map read) / (mates s n k).length) (fld (getStr s n).filler 11 0) else read k

theorem strOf_core {n k : Nat} (hk : k < 4) : strOf (4 * n + k) = n := by unfold strOf; omega

theorem getCore_measured_core (s : State) (n : Nat) (read : Nat → Nat) {k : Nat} (hk : k < 4) :
    getCore (measured s n read) (4 * n + k) = { getCore s (4 * n + k) with current := read k } := by
  rw [getCore_measured, if_pos (by omega), show (4 * n + k) % 4 = k by omega]

theorem strCores_eq_map (n : Nat) : strCores n = (List.range 4).map (4 * n + ·) := rfl

theorem trackedCurrent_measured (s : State) (n : Nat) (read : Nat → Nat) {k : Nat} (hk : k < 4) :
    trackedCurrent (measured s n read) (4 * n + k) =
      if (mates s n k).isEmpty then none
      else some (min (sumOf ((mates s n k).map read) / (mates s n k).length) (fld (getStr s n).filler 11 0)) := by
  have hmates : (strCores n).filter (fun c => decide (c ≠ 4 * n + k) && (getCore (measured s n read) c).part.isSome &&
      !(getCore (measured s n read) c).ballast) = (mates s n k).map (4 * n + ·) := by
    rw [strCores_eq_map, List.filter_map, mates]
    congr 1
    refine List.filter_congr fun j hj => ?_
    rw [Function.comp_apply, getCore_measured_core s n read (List.mem_range.mp hj)]
    simp
  have hread : ((mates s n k).map (4 * n + ·)).map (fun c => (getCore (measured s n read) c).current) = (mates s n k).map read := by
    rw [List.map_map]
    refine List.map_congr_left fun j hj => ?_
    rw [Function.comp_apply, getCore_measured_core s n read (List.mem_range.mp (List.mem_filter.mp hj).1)]
  obtain ⟨v, hv⟩ := measured_rest s n read
  have hstr : getStr (measured s n read) n = getStr s n := by rw [hv]; rfl
  unfold trackedCurrent
  simp only [strOf_core hk, hmates, hread, hstr, List.isEmpty_map, List.length_map]

theorem tracked_measured (s : State) (n : Nat) (read : Nat → Nat) {k : Nat} (hk : k < 4) :
    tracked (measured s n read) n (4 * n + k) = { getCore s (4 * n + k) with current := balanced s n read k } := by
  obtain ⟨v, hv⟩ := measured_rest s n read
  have hstr : getStr (measured s n read) n = getStr s n := by rw [hv]; rfl
  unfold tracked
  rw [trackedCurrent_measured s n read hk, getCore_measured_core s n read hk, hstr, balanced, follows]
  by_cases he : (mates s n k).isEmpty = true
  · simp [he]
  · simp only [he, Bool.false_eq_true, if_false, Bool.not_false, Bool.true_and, Bool.or_eq_true, Bool.and_eq_true]
    split_ifs <;> rfl

/-- The cores of a string once it is measured, its fillers following (R176, R183). -/
theorem getCore_trackStr_measured (s : State) (n : Nat) (read : Nat → Nat) (c : Nat) :
    getCore (trackStr (measured s n read) n) c =
      if c / 4 = n then { getCore s c with current := balanced s n read (c % 4) } else getCore s c := by
  rw [getCore_trackStr]
  split_ifs with h
  · have hc : c = 4 * n + c % 4 := by omega
    rw [hc, tracked_measured s n read (by omega), Nat.mul_add_mod, Nat.mod_mod]
  · rw [getCore_measured, if_neg h]

/-! ## The cores named -/

theorem mem_lighterCores {n c : Nat} {m0 m1 m2 : Int} : c ∈ lighterCores n [m0, m1, m2] ↔
    ∃ k < 3, (250 < [m0, m1, m2].getD k 0 ∧ c = 4 * n + k + 1) ∨ ([m0, m1, m2].getD k 0 < -250 ∧ c = 4 * n + k) := by
  simp only [lighterCores, List.mem_filterMap, List.mem_range, List.length_cons, List.length_nil]
  refine exists_congr fun k => and_congr_right fun _ => ?_
  generalize [m0, m1, m2].getD k 0 = m
  split_ifs <;> simp <;> omega

/-! ## STRIMB -/

theorem append_eq_wd (a b c : BitVec 16) :
    (0 : BitVec 16) ++ c ++ b ++ a = wd (a.toNat * 2 ^ (16 * 0) + b.toNat * 2 ^ (16 * 1) + c.toNat * 2 ^ (16 * 2)) := by
  apply BitVec.eq_of_toNat_eq
  have ha := a.isLt
  have hb := b.isLt
  have hc := c.isLt
  simp only [wd, BitVec.toNat_append, BitVec.toNat_ofNat]
  rw [← Nat.shiftLeft_add_eq_or_of_lt ha, ← Nat.shiftLeft_add_eq_or_of_lt hb, ← Nat.shiftLeft_add_eq_or_of_lt hc]
  simp only [Nat.shiftLeft_eq]
  simp
  omega

/-! ## The update of a string (R176, R177) -/

/-- The differences of the currents of neighbours. -/
def midsOf (i : Nat → Nat) : List Int := [(i 0 : Int) - i 1, (i 1 : Int) - i 2, (i 2 : Int) - i 3]

theorem midsOf_congr {i j : Nat → Nat} (h : ∀ k < 4, i k = j k) : midsOf i = midsOf j := by
  unfold midsOf
  rw [h 0 (by omega), h 1 (by omega), h 2 (by omega), h 3 (by omega)]

/-- What an update makes of string `n`, the currents of its cores being `i`. -/
def imbalanced (i : Nat → Nat) (x : StringSt) : StringSt :=
  let imb := maxOf ((midsOf i).map Int.natAbs)
  let f := fun (k : Nat) => (BitVec.ofInt 16 ((midsOf i).getD k 0)).toNat * 2 ^ (16 * k)
  { x with strimb := wd (f 0 + f 1 + f 2), hard := decide (400 < imb) || (x.hard && decide (250 < imb))
           pwr := if 400 < imb then 2 else x.pwr }

/-- The lighter cores of a string are named. -/
def nameLighter (s : State) (n : Nat) (i : Nat → Nat) : State :=
  (lighterCores n (midsOf i)).foldl (fun s c => modCore s c fun co => { co with named := true }) s

/-- A string once it is measured, its fillers following. -/
def settledStr (s : State) (n : Nat) (read : Nat → Nat) : State := trackStr (measured s n read) n

theorem settledStr_rest (s : State) (n : Nat) (read : Nat → Nat) : ∃ v, settledStr s n read = { s with cores := v } := by
  obtain ⟨v, hv⟩ := measured_rest s n read
  obtain ⟨w, hw⟩ := trackStr_rest (measured s n read) n
  exact ⟨w, by rw [settledStr, hw, hv]⟩

theorem execStrimbUpdate_eq (die : Fin 8) (str : Fin 32) (i0 i1 i2 i3 : BitVec 16) (s : State) :
    let n := 32 * die.val + str.val
    let read := fun (k : Nat) => [i0.toNat, i1.toNat, i2.toNat, i3.toNat].getD k 0
    execStrimbUpdate die str i0 i1 i2 i3 s =
      .next (refreshPower (modStr (nameLighter (settledStr s n read) n (balanced s n read)) n (imbalanced (balanced s n read))) die) := by
  intro n read
  have hcur : midsOf (fun k => (getCore (settledStr s n read) (4 * n + k)).current) = midsOf (balanced s n read) :=
    midsOf_congr fun k hk => by
      rw [settledStr, getCore_trackStr_measured, if_pos (by omega), show (4 * n + k) % 4 = k by omega]
  unfold nameLighter imbalanced
  rw [← hcur]
  rfl

theorem getCore_nameLighter (s : State) (n : Nat) (read : Nat → Nat) (c : Nat) :
    getCore (nameLighter (settledStr s n read) n (balanced s n read)) c =
      if c / 4 = n then
        { getCore s c with
          current := balanced s n read (c % 4)
          named := (getCore s c).named || decide (c ∈ lighterCores n (midsOf (balanced s n read))) }
      else getCore s c := by
  rw [nameLighter, getCore_foldl_modCore (f := fun _ co => { co with named := true }) (fun _ _ => rfl), settledStr,
    getCore_trackStr_measured]
  by_cases hc : c / 4 = n
  · rw [if_pos hc, if_pos hc]
    split_ifs with hl <;> simp [hl]
  · have hl : c ∉ lighterCores n (midsOf (balanced s n read)) := by
      rw [midsOf, mem_lighterCores]
      rintro ⟨k, hk, ⟨-, h⟩ | ⟨-, h⟩⟩ <;> omega
    rw [if_neg hl, if_neg hc, if_neg hc]

theorem maxOf_midsOf (i : Nat → Nat) : maxOf ((midsOf i).map Int.natAbs) =
    max ((i 0 : Int) - i 1).natAbs (max ((i 1 : Int) - i 2).natAbs ((i 2 : Int) - i 3).natAbs) := by
  simp only [midsOf, maxOf, List.map_cons, List.map_nil, List.foldl_cons, List.foldl_nil]
  omega

/-- The cores named are the lighter ones at the nodes that exceed 250 mA (R177). -/
theorem mem_lighterCores_midsOf {n c : Nat} (i : Nat → Nat) (hc : c / 4 = n) : c ∈ lighterCores n (midsOf i) ↔
    (c % 4 < 3 ∧ 250 < ((i (c % 4) : Int) - i (c % 4 + 1)).natAbs ∧ i (c % 4) < i (c % 4 + 1)) ∨
    (1 ≤ c % 4 ∧ c % 4 - 1 < 3 ∧ 250 < ((i (c % 4 - 1) : Int) - i (c % 4 - 1 + 1)).natAbs ∧ i (c % 4 - 1 + 1) < i (c % 4 - 1)) := by
  have hmid : ∀ k < 3, (midsOf i).getD k 0 = (i k : Int) - i (k + 1) := by
    intro k hk
    interval_cases k <;> rfl
  rw [midsOf, mem_lighterCores, ← midsOf]
  constructor
  · rintro ⟨k, hk, ⟨h, rfl⟩ | ⟨h, rfl⟩⟩
    · rw [hmid k hk] at h
      rw [show (4 * n + k + 1) % 4 = k + 1 by omega]
      exact .inr ⟨by omega, by omega, by rw [Nat.add_sub_cancel]; omega, by rw [Nat.add_sub_cancel]; omega⟩
    · rw [hmid k hk] at h
      rw [show (4 * n + k) % 4 = k by omega]
      exact .inl ⟨hk, by omega, by omega⟩
  · rintro (⟨hk, h, h'⟩ | ⟨h1, hk, h, h'⟩)
    · exact ⟨c % 4, hk, .inr ⟨by rw [hmid _ hk]; omega, by omega⟩⟩
    · exact ⟨c % 4 - 1, hk, .inl ⟨by rw [hmid _ hk]; omega, by omega⟩⟩

theorem strimb_midsOf (i : Nat → Nat) (x : StringSt) : (imbalanced i x).strimb =
    BitVec.ofInt 16 0 ++ BitVec.ofInt 16 ((i 2 : Int) - i 3) ++ BitVec.ofInt 16 ((i 1 : Int) - i 2) ++
      BitVec.ofInt 16 ((i 0 : Int) - i 1) :=
  (append_eq_wd _ _ _).symm

/-- The strings after the update: the own one, and those of the die that a cause takes to state 2 (R177, R184). -/
theorem getStr_refreshPower_imbalanced {s u : State} {d n : Nat} {i : Nat → Nat} (hn : n / 32 = d)
    (hu : ∀ m, getStr u m = if m = n then imbalanced i (getStr s n) else getStr s m) (m : Nat) :
    let imb := max ((i 0 : Int) - i 1).natAbs (max ((i 1 : Int) - i 2).natAbs ((i 2 : Int) - i 3).natAbs)
    { getStr (refreshPower u d) m with clearSince := (getStr s m).clearSince } =
      if m = n then
        { getStr s n with
          strimb := BitVec.ofInt 16 0 ++ BitVec.ofInt 16 ((i 2 : Int) - i 3) ++ BitVec.ofInt 16 ((i 1 : Int) - i 2) ++
            BitVec.ofInt 16 ((i 0 : Int) - i 1)
          hard := decide (400 < imb) || ((getStr s n).hard && decide (250 < imb))
          pwr := if 400 < imb ∨ cause2 (refreshPower u d) n = true then 2 else (getStr s n).pwr }
      else { getStr s m with pwr := if m / 32 = d ∧ cause2 (refreshPower u d) m = true then 2 else (getStr s m).pwr } := by
  intro imb
  obtain ⟨v, hv⟩ := getStr_refreshPower u d m
  rw [cause2_refreshPower, cause2_refreshPower, hv, hu]
  by_cases hm : m = n
  · subst hm
    have himb : maxOf ((midsOf i).map Int.natAbs) = imb := maxOf_midsOf i
    rw [if_pos rfl, if_pos rfl, ← strimb_midsOf i (getStr s m)]
    simp only [imbalanced, himb, hn, true_and]
    by_cases h2 : cause2 u m = true <;> simp [h2]
  · rw [if_neg hm, if_neg hm]

/-! ## Power states (R184) -/

theorem execPowerStateChange_of_due {die : Fin 8} {str : Fin 32} {s : State} {v t : Nat}
    (h : powerDue s (32 * die.val + str.val) = some (v, t)) :
    execPowerStateChange die str s = .next (refreshPower (modStr { s with time := max s.time t } (32 * die.val + str.val) fun x =>
      { x with pwr := v, clearSince := none
               entered := if v = 1 then max s.time t else x.entered
               before := if v = 1 then some (strCurrent4 s (32 * die.val + str.val)) else if v = 0 then none else x.before }) die) := by
  simp only [execPowerStateChange, h]
  rfl

/-- Since when the way down of a string has been open is left out of the comparison. -/
theorem SamePower.of_clearSince {d n : Nat} {s t : State} {f : StringSt → StringSt} {v : Option Nat}
    (h : SamePower d (modStr s n fun y => { f y with clearSince := v }) t) : SamePower d (modStr s n f) t := by
  have hget : ∀ k, ∃ w, getStr (modStr s n fun y => { f y with clearSince := v }) k = { getStr (modStr s n f) k with clearSince := w } := by
    intro k
    simp only [getStr_modStr]
    split_ifs
    exacts [⟨v, rfl⟩, ⟨_, rfl⟩]
  have hcause : ∀ k, cause2 (modStr s n fun y => { f y with clearSince := v }) k = cause2 (modStr s n f) k := fun k => by
    obtain ⟨w, hw⟩ := hget k
    exact cause2_congr rfl rfl (by rw [hw])
  refine ⟨?_, fun k => ?_⟩
  · have hr := congrArg (fun z : State => { z with strings := (modStr s n f).strings }) h.rest
    exact hr
  · obtain ⟨w, hw⟩ := hget k
    have hk := h.strings k
    rw [hcause, hw] at hk
    exact (congrArg (fun z : StringSt => { z with clearSince := (getStr (modStr s n f) k).clearSince }) hk :)

/-- Settles O25: an update names and drives the cores as `balanced` and `midsOf` give their currents; a power state changes as `powerDue`
says, whose rows are those of the table. -/
theorem stringPower : Obligations.StringPower := by
  unfold Obligations.StringPower
  refine ⟨?balance, ?states⟩
  case balance =>
    intro die str i0 i1 i2 i3 s n read core mates follows i mid imbalance lighter heavier
    have hi : ∀ k, i k = (balanced s n read k : Nat) := by
      intro k
      have hf : follows k ↔ Machine.follows s n k = true := by
        simp only [Machine.follows, Bool.and_eq_true, Bool.or_eq_true, Bool.not_eq_true', List.isEmpty_eq_false_iff,
          Option.isNone_iff_eq_none]
        rfl
      by_cases h : follows k
      · rw [balanced, if_pos (hf.mp h)]; exact if_pos h
      · rw [balanced, if_neg (hf.not.mp h)]; exact if_neg h
    generalize hb : balanced s n read = b at hi
    have hexec := execStrimbUpdate_eq die str i0 i1 i2 i3 s
    change execStrimbUpdate die str i0 i1 i2 i3 s = .next (refreshPower (modStr (nameLighter (settledStr s n read) n
      (balanced s n read)) n (imbalanced (balanced s n read))) die) at hexec
    rw [hb] at hexec
    obtain ⟨u, hu⟩ : ∃ u, u = modStr (nameLighter (settledStr s n read) n b) n (imbalanced b) := ⟨_, rfl⟩
    rw [← hu] at hexec
    obtain ⟨cs, hcs⟩ : ∃ v, u = modStr { s with cores := v } n (imbalanced b) := by
      obtain ⟨v, hv⟩ := settledStr_rest s n read
      obtain ⟨w, hw⟩ := foldl_modCore_rest (fun _ co => { co with named := true }) (lighterCores n (midsOf b)) (settledStr s n read)
      exact ⟨w, by rw [hu, nameLighter, hw, hv]⟩
    obtain ⟨sv, hrest⟩ := refreshPower_rest u die
    refine ⟨_, hexec, by rw [hrest, hcs]; rfl, fun c => ?_, fun m => ?_⟩
    · have hcore : getCore (refreshPower u die) c = getCore (nameLighter (settledStr s n read) n b) c := by rw [hrest, hu]; rfl
      have hname := getCore_nameLighter s n read c
      rw [hb] at hname
      rw [hcore, hname]
      by_cases hc : c / 4 = n
      · rw [if_pos hc, if_pos hc]
        have hnamed : (decide (heavier (c % 4)) || decide (1 ≤ c % 4 ∧ lighter (c % 4 - 1))) = decide (c ∈ lighterCores n (midsOf b)) := by
          rw [← Bool.decide_or, decide_eq_decide, mem_lighterCores_midsOf b hc]
          simp only [heavier, lighter, mid, hi]
          omega
        rw [Bool.or_assoc, hnamed, hi, Int.toNat_natCast]
      · rw [if_neg hc, if_neg hc]
    · have hm := getStr_refreshPower_imbalanced (s := s) (u := u) (d := die) (n := n) (i := b) (by simp only [n]; omega)
        (fun m => by rw [hcs, getStr_modStr]; rfl) m
      simp only [← hi] at hm
      exact hm
  case states => 
    intro die str s n x current rail limit soft hot drop two stuck becomes
    have hn : n / 32 = die.val := by simp only [n]; omega
    have hsoft : softOver s die.val = true ↔ soft := by
      simp only [softOver, decide_eq_true_eq]
      rfl
    have htwo : cause2 s n = true ↔ two := by
      simp only [cause2, hn, Bool.or_eq_true, decide_eq_true_eq, Bool.and_eq_true, Bool.not_eq_true', or_assoc,
        le_hottest_iff s die.val (t := Machine.hot) (by decide), limitOver]
      rfl
    have hstuck : notLower s n = true ↔ stuck := by
      simp only [notLower, hn, Bool.and_eq_true, hsoft, stuck]
      refine and_congr_right fun _ => ?_
      change (match x.before with
        | some b => decide (b ≤ current)
        | none => false) = true ↔ _
      cases x.before <;> simp
    have hbecomes : ∀ v time, powerDue s n = some (v, time) → becomes v time := fun v time h =>
      ⟨_, execPowerStateChange_of_due h, (samePower_refreshPower _ _).of_clearSince⟩
    have hdue : ¬ two → powerDue s n = if x.pwr = 0 then (if soft then some (1, s.time) else none)
        else if x.pwr = 1 then
          (if stuck then some (2, x.entered + 10000) else x.clearSince.map fun t => (0, t + 10000))
        else x.clearSince.map fun t => (if soft then 1 else 0, t + 10000) := fun h2 => by
      rw [powerDue, if_neg (fun h => h2 (htwo.mp h.2)), hn]
      simp only [hsoft, hstuck]
      rfl
    refine ⟨fun hp h2 => ?_, fun hp h2 hs => ?_, fun hp h2 hs t0 h0 => ?_, fun hp h2 hst => ?_, fun hp h2 hst hs t0 h0 => ?_,
      fun hp h2 hs t0 h0 => ?_⟩ <;> apply hbecomes
    · rw [powerDue, if_pos ⟨hp, htwo.mpr h2⟩]
    · rw [hdue h2, if_pos hp, if_pos hs]
    · rw [hdue h2, hp, if_neg (by decide), if_pos rfl, if_neg (fun h => hs h.1), h0]; rfl
    · rw [hdue h2, hp, if_neg (by decide), if_pos rfl, if_pos hst]
    · rw [hdue h2, hp, if_neg (by decide), if_neg (by decide), if_pos hs, h0]; rfl
    · rw [hdue h2, hp, if_neg (by decide), if_neg (by decide), if_neg hs, h0]; rfl

end Sys2Proof.Machine
end

section
/-!
PROOF. The rail limit and frequency events (R186 to R188, R356, R357, R368).
-/
namespace Sys2Proof.Machine

/-- LIMIT_MA, SOFT_PCT and the fields beside them after a write (R186, R187). -/
def railOf (x : Die) (v : Word) : Word :=
  let soft := if 50 ≤ fld v 23 17 ∧ fld v 23 17 ≤ 100 then fld v 23 17 else softPct x
  setFld (setFld (setFld x.railIlim 63 32 (fld v 63 32)) 23 17 soft) 16 0 (min (fld v 16 0) (12000 * x.phases))

theorem railOf_fields (x : Die) (v : Word) :
    fld (railOf x v) 63 32 = fld v 63 32 ∧ fld (railOf x v) 31 24 = fld x.railIlim 31 24 ∧
    fld (railOf x v) 23 17 = (if 50 ≤ fld v 23 17 ∧ fld v 23 17 ≤ 100 then fld v 23 17 else fld x.railIlim 23 17) ∧
    fld (railOf x v) 16 0 = min (fld v 16 0) (12000 * x.phases) := by
  unfold railOf softPct
  refine ⟨?_, ?_, ?_, ?_⟩
  · rw [fld_setFld_other _ _ (by decide) (by decide), fld_setFld_other _ _ (by decide) (by decide), fld_setFld_self _ _ (by decide),
      Nat.mod_eq_of_lt (fld_lt v 63 32)]
  · rw [fld_setFld_other _ _ (by decide) (by decide), fld_setFld_other _ _ (by decide) (by decide),
      fld_setFld_other _ _ (by decide) (by decide)]
  · rw [fld_setFld_other _ _ (by decide) (by decide), fld_setFld_self _ _ (by decide), Nat.mod_eq_of_lt]
    split_ifs
    · exact fld_lt v 23 17
    · exact fld_lt x.railIlim 23 17
  · rw [fld_setFld_self _ _ (by decide), Nat.mod_eq_of_lt (lt_of_le_of_lt (min_le_left _ _) (fld_lt v 16 0))]

theorem freqOk_iff (f : Nat) : freqOk f = true ↔ 475 ≤ f ∧ f ≤ 1900 ∧ f % 25 = 0 := by
  simp [freqOk, and_assoc]

theorem dieQuiet_iff (s : State) (d : Nat) : dieQuiet s d = true ↔ ∀ j < 128,
    (getCore s (128 * d + j)).part = none ∨ (partOf s (128 * d + j)).waitStart = true ∨
      bit (partOf s (128 * d + j)).phase 0 = true := by
  simp [dieQuiet, or_assoc]

/-! ## Changes of the clock (R188, R356) -/

/-- FREQ_MHZ, once it is written, as an emergency drop: a value outside the steps leaves the old one (R188). -/
theorem beginChange_writeFreq {v : Word} {n : Nat} {valid : Prop} [Decidable valid] (hn : fld v 11 0 = n)
    (hv : freqOk n = true ↔ valid) (s : State) (d : Nat) (hop : Bool) : beginChange (writeFreq s d v) d hop =
    modDie s d fun y =>
      let g := if valid then n else y.freq
      { y with freq := g, target := g, pending := hop, transition := true, hop := hop, hopDroop := false } := by
  unfold beginChange writeFreq
  rw [hn]
  by_cases h : valid
  · simp only [if_pos h, if_pos (hv.mpr h)]
    rw [modDie_modDie]
    rfl
  · simp only [if_neg h, if_neg (hv.not.mpr h)]

theorem modDie_congr {s : State} {d : Nat} {f g : Die → Die} (h : f (getDie s d) = g (getDie s d)) : modDie s d f = modDie s d g := by
  rw [modDie, modDie, h]

/-- The clock of a die once it is stable: the frequency that the change was for is in force (R188, R356). -/
def Die.inForce (y : Die) : Die := { y with mhz := y.target, pending := y.pending && decide (y.freq ≠ y.target) }

/-- Settles O26: each event is the change that the statement names, then a refresh of the die's strings; a stable clock delivers by
`deliverOne` and enters handlers by `lateHandlers`. -/
theorem railAndFrequency : Obligations.RailAndFrequency := by
  unfold Obligations.RailAndFrequency
  refine ⟨?rail, ?freq⟩
  case rail =>
    intro die v s x field
    refine ⟨fun hp => ?_, ⟨_, rfl, railOf x v, samePower_refreshPower _ _, railOf_fields x v⟩⟩
    exact ⟨_, if_neg (Nat.pos_iff_ne_zero.mp hp), samePower_refreshPower _ _⟩
  case freq =>
    intro die str v s x f valid deliver handlers droopy clear
    have hf : fld v 11 0 = f := by simp [fld, f]
    have hdeliver : ∀ l t, l.foldl deliverOne t = deliver l t := fun l t => by
      refine congrArg (fun g => l.foldl g t) (funext fun s => funext fun d => ?_)
      cases d <;> rfl
    have hstable : ∀ t : State, (getDie t die).delayed = x.delayed → stable t die =
        handlers (deliver x.delayed (modDie t die fun y => { y with transition := false, hop := false, delayed := [] })) :=
      fun t ht => by
        rw [← hdeliver, ← ht]
        rfl
    have hvalid : freqOk f = true ↔ valid := freqOk_iff f
    refine ⟨fun h => ?_, fun h => ?_, ?_, fun hp ht hd hq => ?_, fun ht => ?_, ⟨fun h => ?_, fun h => ?_⟩, fun h => ?_, fun h => ?_⟩
    · change Host.Outcome.next (writeFreq s die v) = _
      rw [writeFreq, hf, if_pos (hvalid.mpr h)]
    · change Host.Outcome.next (writeFreq s die v) = _
      rw [writeFreq, hf, if_neg (hvalid.not.mpr h)]
    · refine ⟨_, rfl, ?_⟩
      rw [← beginChange_writeFreq hf hvalid s die false]
      exact samePower_refreshPower _ _
    · change execDvfsApply die s = _
      rw [execDvfsApply, if_pos ⟨hp, Bool.not_eq_true _ ▸ ht, Bool.not_eq_true _ ▸ hd, (dieQuiet_iff s die).mpr hq⟩]
      refine congrArg Host.Outcome.next (modDie_congr ?_)
      rw [show (getDie s die).hopDroop = false from hd]
    · change ∃ t, execClockStable die s = _ ∧ _
      have h := hstable (modDie s die Die.inForce) (by rw [getDie_modDie_self]; rfl)
      rw [modDie_modDie] at h
      refine ⟨refreshPower (stable (modDie s die Die.inForce) die) die, if_pos ht, ?_⟩
      rw [h]
      exact samePower_refreshPower _ _
    · refine ⟨_, ?_, rfl⟩
      rw [← hstable droopy rfl]
      exact if_pos h
    · exact if_neg h
    · exact if_pos (by simpa using h)
    · exact if_neg (by simpa using h)

end Sys2Proof.Machine
end

section
/-!
PROOF. Temperature events (R184, R189, R357, R389).
-/
namespace Sys2Proof.Machine

/-! ## Strings replaced: what never looks at them -/

theorem postEvent_of_strings (s : State) (v : Sparse StringSt) (d : Nat) (e : EventRec) :
    postEvent { s with strings := v } d e = { postEvent s d e with strings := v } := rfl

theorem postHost_of_strings (s : State) (v : Sparse StringSt) (e : EventRec) :
    postHost { s with strings := v } e = { postHost s e with strings := v } := by
  unfold postHost
  dsimp only
  split_ifs <;> rfl

theorem addFrec_of_strings (s : State) (v : Sparse StringSt) (e : FrecEnt) :
    addFrec { s with strings := v } e = { addFrec s e with strings := v } := by
  unfold addFrec postHost
  dsimp only [modGran]
  split_ifs <;> rfl

theorem dieAlarm_of_strings (s : State) (v : Sparse StringSt) (d : Nat) (e : EventRec) :
    dieAlarm { s with strings := v } d e = { dieAlarm s d e with strings := v } :=
  postHost_of_strings (postEvent s d e) v { e with kind := 2 }

theorem abortPart_of_strings (s : State) (v : Sparse StringSt) (p : Nat) :
    abortPart { s with strings := v } p = { abortPart s p with strings := v } := by
  unfold abortPart getPart modPart
  dsimp only
  split_ifs <;> rfl

theorem foldl_abortPart_of_strings (l : List Nat) (v : Sparse StringSt) : ∀ s : State,
    l.foldl abortPart { s with strings := v } = { l.foldl abortPart s with strings := v } := by
  induction l with
  | nil => exact fun _ => rfl
  | cons p r ih =>
    intro s
    rw [List.foldl_cons, abortPart_of_strings, ih]
    rfl

theorem dropFreq_of_strings (s : State) (v : Sparse StringSt) (d : Nat) :
    dropFreq { s with strings := v } d = { dropFreq s d with strings := v } := by
  unfold dropFreq getDie
  dsimp only
  split_ifs <;> rfl

/-! ## A sensor reading (R189, R389) -/

/-- THERM.TEMP of a core takes a reading. -/
def reading (s : State) (n : Nat) (temp : BitVec 16) : State :=
  modCore s n fun y => { y with therm := setFld y.therm 31 16 temp.toNat }

/-- Where the reading crosses 95 degrees upwards, MIGREQ is set and the die's management core hears of it. -/
def crossing (s : State) (d n : Nat) (temp : BitVec 16) : State :=
  if fld (getCore s n).therm 31 16 < 95 * 16 ∧ 95 * 16 ≤ temp.toNat then
    postEvent (modCore (reading s n temp) n fun y => { y with therm := setFld y.therm 1 1 1 }) d
      (coreEvent (reading s n temp) n 9 0 (wd temp.toNat))
  else reading s n temp

theorem tempOf_reading (s : State) (n : Nat) (temp : BitVec 16) : tempOf (getCore (reading s n temp) n) = temp.toNat := by
  rw [tempOf, reading, getCore_modCore_self, fld_setFld_self _ _ (by decide)]
  exact Nat.mod_eq_of_lt temp.isLt

/-- The event of a core's temperature does not look at MIGREQ. -/
theorem heatEvent_migreq (s : State) (n kind : Nat) (temp : BitVec 16) :
    heatEvent (modCore (reading s n temp) n fun y => { y with therm := setFld y.therm 1 1 1 }) n kind =
      coreEvent (reading s n temp) n kind 0 (wd temp.toNat) := by
  have htemp : tempOf (getCore (modCore (reading s n temp) n fun y => { y with therm := setFld y.therm 1 1 1 }) n) = temp.toNat := by
    rw [← tempOf_reading s n temp, tempOf, getCore_modCore_self, fld_setFld_other _ _ (by decide) (by decide)]
    rfl
  rw [heatEvent, htemp]
  simp only [coreEvent, partOf, getCore_modCore_self]
  rfl

theorem getCore_crossing (s : State) (d n c : Nat) (temp : BitVec 16) :
    tempOf (getCore (crossing s d n temp) c) = tempOf (getCore (reading s n temp) c) := by
  unfold crossing
  split_ifs
  · rw [show ∀ b e, getCore (postEvent b d e) c = getCore b c from fun _ _ => rfl, getCore_modCore]
    split_ifs with h
    · subst h
      rw [tempOf, fld_setFld_other _ _ (by decide) (by decide)]
      rfl
    · rfl
  · rfl

theorem hottest_crossing (s : State) (d n e : Nat) (temp : BitVec 16) :
    hottest (crossing s d n temp) e = hottest (reading s n temp) e := by
  unfold hottest
  simp only [getCore_crossing]

theorem setTemp_eq (s : State) (d c : Nat) (temp : BitVec 16) :
    setTemp s d c temp = refreshPower
      (if hottest (reading s (128 * d + c) temp) d < hot then
        modDie (crossing s d (128 * d + c) temp) d fun x => { x with throttled := false }
       else crossing s d (128 * d + c) temp) d := by
  rw [← hottest_crossing s d (128 * d + c) d temp]
  unfold crossing
  rw [← heatEvent_migreq]
  rfl

/-- A reading at or above 105 degrees leaves the die hot (R189). -/
theorem hot_le_hottest_reading (s : State) (die : Fin 8) (core : Fin 128) {temp : BitVec 16} (h : hot ≤ temp.toNat) :
    hot ≤ hottest (reading s (128 * die.val + core.val) temp) die := by
  refine (le_hottest_iff _ _ (by decide)).mpr ⟨core, core.isLt, ?_⟩
  have htemp := tempOf_reading s (128 * die.val + core.val) temp
  rw [tempOf] at htemp
  rwa [htemp]

theorem setTemp_of_hot (s : State) (die : Fin 8) (core : Fin 128) {temp : BitVec 16} (h : hot ≤ temp.toNat) :
    setTemp s die core temp = refreshPower (crossing s die (128 * die.val + core.val) temp) die := by
  rw [setTemp_eq, if_neg (not_lt.mpr (hot_le_hottest_reading s die core h))]

theorem strings_crossing (s : State) (d n : Nat) (temp : BitVec 16) : (crossing s d n temp).strings = s.strings := by
  unfold crossing
  split_ifs <;> rfl

theorem parts_crossing (s : State) (d n : Nat) (temp : BitVec 16) : (crossing s d n temp).parts = s.parts := by
  unfold crossing
  split_ifs <;> rfl

/-- On a hot die every string is in power state 2 (R184). -/
theorem getStr_setTemp_of_hot (s : State) (die : Fin 8) (core : Fin 128) {temp : BitVec 16} (h : hot ≤ temp.toNat) (n : Nat) :
    ∃ v, getStr (setTemp s die core temp) n =
      { getStr s n with pwr := if n / 32 = die.val then 2 else (getStr s n).pwr, clearSince := v } := by
  rw [setTemp_of_hot s die core h]
  obtain ⟨v, hv⟩ := getStr_refreshPower (crossing s die (128 * die.val + core.val) temp) die n
  have hstr : getStr (crossing s die (128 * die.val + core.val) temp) n = getStr s n := by
    rw [getStr, strings_crossing]; rfl
  have hcause : n / 32 = die.val → cause2 (crossing s die (128 * die.val + core.val) temp) n = true := by
    intro hn
    have hhot := hot_le_hottest_reading s die core h
    rw [← hottest_crossing s die] at hhot
    simp [cause2, hn, hhot]
  refine ⟨v, hv.trans ?_⟩
  rw [hstr]
  simp only [and_iff_left_of_imp hcause]

/-! ## The emergency drop (R189) -/

theorem lowerFreq_eq (f : Nat) : lowerFreq f = max 475 (f * 3 / 4 - f * 3 / 4 % 25) := by
  unfold lowerFreq
  omega

theorem slowest_iff (x : Die) :
    x.slowest = true ↔ if x.transition = true then x.hop = false ∧ x.target ≤ 475 else x.mhz ≤ 475 := by
  unfold Die.slowest
  split_ifs <;> simp

theorem dropFreq_eq (s : State) (d : Nat) {slow : Prop} [Decidable slow] (h : (getDie s d).slowest = true ↔ slow) :
    dropFreq s d = if slow then modDie s d fun y => { y with dropAt := s.time } else modDie s d fun y =>
      { y with freq := max 475 (min y.freq y.mhz * 3 / 4 - min y.freq y.mhz * 3 / 4 % 25)
               target := max 475 (min y.freq y.mhz * 3 / 4 - min y.freq y.mhz * 3 / 4 % 25)
               dropAt := s.time, transition := true, hop := false, hopDroop := false, pending := false } := by
  rw [dropFreq, beginChange, modDie_modDie]
  simp only [h]
  split_ifs
  · rfl
  · refine modDie_congr ?_
    simp only [Function.comp, lowerFreq_eq]

/-! ## Every string in state 2 -/

/-- Every string of a die changed alike. -/
def modDieStrs (s : State) (d : Nat) (f : StringSt → StringSt) : State :=
  (List.range 32).foldl (fun s k => modStr s (32 * d + k) f) s

theorem modDieStrs_eq (s : State) (d : Nat) (f : StringSt → StringSt) :
    modDieStrs s d f = ((List.range 32).map fun i => 32 * d + i).foldl (fun s n => modStr s n f) s := by
  rw [List.foldl_map]
  rfl

theorem exists_foldl_modStr (f : StringSt → StringSt) (l : List Nat) : ∀ s : State,
    ∃ v, l.foldl (fun s n => modStr s n f) s = { s with strings := v } := by
  induction l with
  | nil => exact fun s => ⟨_, rfl⟩
  | cons n r ih =>
    intro s
    obtain ⟨v, hv⟩ := ih (modStr s n f)
    exact ⟨v, hv⟩

theorem modDieStrs_rest (s : State) (d : Nat) (f : StringSt → StringSt) : ∃ v, modDieStrs s d f = { s with strings := v } := by
  rw [modDieStrs_eq]
  exact exists_foldl_modStr f _ s

theorem getStr_modDieStrs (s : State) (d : Nat) {f : StringSt → StringSt} (hf : ∀ x, f (f x) = f x) (n : Nat) :
    getStr (modDieStrs s d f) n = if n / 32 = d then f (getStr s n) else getStr s n := by
  rw [modDieStrs_eq, getStr_foldl_modStr hf]
  simp only [mem_dieStrings]

theorem allHard_rest (s : State) (d : Nat) : ∃ v, allHard s d = { s with strings := v } := by
  obtain ⟨v, hv⟩ := refreshPower_rest (modDieStrs s d fun x => { x with pwr := 2, clearSince := none }) d
  obtain ⟨w, hw⟩ := modDieStrs_rest s d fun x => { x with pwr := 2, clearSince := none }
  rw [hw] at hv
  exact ⟨v, (congrArg (refreshPower · d) hw).trans hv⟩

theorem getStr_allHard (s : State) (d n : Nat) : ∃ v, getStr (allHard s d) n =
    { getStr s n with pwr := if n / 32 = d then 2 else (getStr s n).pwr, clearSince := v } := by
  obtain ⟨v, hv⟩ := getStr_refreshPower (modDieStrs s d fun x => { x with pwr := 2, clearSince := none }) d n
  rw [getStr_modDieStrs s d (f := fun x => { x with pwr := 2, clearSince := none }) fun _ => rfl] at hv
  refine ⟨v, hv.trans ?_⟩
  by_cases hn : n / 32 = d <;> simp [hn]

theorem getStr_hardStrings (s : State) (d n : Nat) : getStr (modDieStrs s d fun y => { y with pwr := 2 }) n =
    { getStr s n with pwr := if n / 32 = d then 2 else (getStr s n).pwr } := by
  rw [getStr_modDieStrs s d (f := fun y => { y with pwr := 2 }) fun _ => rfl]
  split_ifs <;> rfl

/-- Two states whose strings are those of a third, but that all of die `d` are in state 2. -/
theorem SamePower.of_hard {d : Nat} {s b t : State} (hrest : { t with strings := b.strings } = b)
    (hb : ∀ n, ∃ v, getStr b n = { getStr s n with pwr := if n / 32 = d then 2 else (getStr s n).pwr, clearSince := v })
    (ht : ∀ n, ∃ v, getStr t n = { getStr s n with pwr := if n / 32 = d then 2 else (getStr s n).pwr, clearSince := v }) :
    SamePower d b t := by
  refine ⟨hrest, fun n => ?_⟩
  obtain ⟨v, hv⟩ := hb n
  obtain ⟨w, hw⟩ := ht n
  rw [hw, hv]
  by_cases hn : n / 32 = d <;> simp [hn]

/-! ## The rail cut -/

theorem unpowered_unpowered (x : Core) : unpowered (unpowered x) = unpowered x := rfl

/-- Every core of a die loses its rail. -/
def darkDie (s : State) (d : Nat) : State := (List.range 128).foldl (fun s i => modCore s (128 * d + i) unpowered) s

theorem darkDie_eq (s : State) (d : Nat) :
    darkDie s d = ((List.range 128).map fun i => 128 * d + i).foldl (fun s c => modCore s c unpowered) s := by
  rw [List.foldl_map]
  rfl

theorem darkDie_rest (s : State) (d : Nat) : ∃ v, darkDie s d = { s with cores := v } := by
  rw [darkDie_eq]
  exact foldl_modCore_rest (fun _ => unpowered) _ s

theorem mem_dieCores {d n : Nat} : n ∈ (List.range 128).map (fun i => 128 * d + i) ↔ n / 128 = d := by
  simp only [List.mem_map, List.mem_range]
  constructor
  · rintro ⟨i, hi, rfl⟩; omega
  · exact fun h => ⟨n - 128 * d, by omega, by omega⟩

theorem getCore_darkDie (s : State) (d k : Nat) :
    getCore (darkDie s d) k = if k / 128 = d then unpowered (getCore s k) else getCore s k := by
  rw [darkDie_eq, getCore_foldl_modCore (f := fun _ => unpowered) (fun _ => unpowered_unpowered)]
  simp only [mem_dieCores]

/-! ## The clauses -/

theorem samePower_setTemp (s : State) (die : Fin 8) (core : Fin 128) (temp : BitVec 16) :
    SamePower die (if hottest (reading s (128 * die.val + core.val) temp) die < hot then
        modDie (crossing s die (128 * die.val + core.val) temp) die fun x => { x with throttled := false }
      else crossing s die (128 * die.val + core.val) temp) (setTemp s die core temp) := by
  rw [setTemp_eq]
  exact samePower_refreshPower _ _

theorem dropFreq_rest (s : State) (d : Nat) : ∃ v, dropFreq s d = { s with dies := v } := by
  unfold dropFreq
  split_ifs <;> exact ⟨_, rfl⟩

theorem time_crossing (s : State) (d n : Nat) (temp : BitVec 16) : (crossing s d n temp).time = s.time := by
  unfold crossing
  split_ifs <;> rfl

theorem getDie_postEvent (s : State) (d e : Nat) (r : EventRec) : ∃ v, getDie (postEvent s d r) e = { getDie s e with mcMem := v } := by
  rw [postEvent, mcAppend, getDie_modDie]
  by_cases h : e = d
  · subst h
    rw [if_pos rfl]
    exact ⟨_, rfl⟩
  · rw [if_neg h]
    exact ⟨(getDie s e).mcMem, rfl⟩

theorem getDie_crossing (s : State) (d n e : Nat) (temp : BitVec 16) :
    ∃ v, getDie (crossing s d n temp) e = { getDie s e with mcMem := v } := by
  unfold crossing
  split_ifs
  · exact getDie_postEvent _ _ _ _
  · exact ⟨(getDie s e).mcMem, rfl⟩

theorem getDie_setTemp_of_hot (s : State) (die : Fin 8) (core : Fin 128) {temp : BitVec 16} (h : hot ≤ temp.toNat) (e : Nat) :
    ∃ v, getDie (setTemp s die core temp) e = { getDie s e with mcMem := v } := by
  rw [setTemp_of_hot s die core h]
  obtain ⟨v, hv⟩ := refreshPower_rest (crossing s die (128 * die.val + core.val) temp) die
  rw [hv]
  exact getDie_crossing s die _ e temp

/-- The state of a die that throttles, before it tells of it (R189). -/
def throttling (s : State) (d : Nat) : State := allHard (dropFreq (modDie s d fun x => { x with throttled := true }) d) d

theorem execThermalThrottle_eq {s : State} {die : Fin 8} {core : Fin 128} {temp : BitVec 16} (h : hot ≤ temp.toNat)
    (hthr : (getDie s die).throttled = false) : execThermalThrottle die core temp s =
      .next (dieAlarm (throttling (setTemp s die core temp) die) die (dieEvent (throttling (setTemp s die core temp) die) die 7
        (wd (hottest (throttling (setTemp s die core temp) die) die)))) := by
  obtain ⟨v, hv⟩ := getDie_setTemp_of_hot s die core h die
  have hnot : ¬ (temp.toNat < hot ∨ (getDie (setTemp s die core temp) die).throttled = true) := by
    rw [hv, hthr]
    simpa using h
  rw [execThermalThrottle]
  dsimp only
  rw [if_neg hnot]
  rfl

theorem throttling_setTemp_rest (s : State) (die : Fin 8) (core : Fin 128) {temp : BitVec 16} (h : hot ≤ temp.toNat) :
    ∃ v, throttling (setTemp s die core temp) die = { dropFreq (modDie (crossing s die (128 * die.val + core.val) temp) die
      fun x => { x with throttled := true }) die with strings := v } := by
  obtain ⟨v, hv⟩ := refreshPower_rest (crossing s die (128 * die.val + core.val) temp) die
  rw [setTemp_of_hot s die core h, hv, throttling]
  generalize crossing s die (128 * die.val + core.val) temp = x
  have hdrop := dropFreq_of_strings (modDie x die fun y => { y with throttled := true }) v die
  obtain ⟨w, hw⟩ := allHard_rest (dropFreq (modDie { x with strings := v } die fun y => { y with throttled := true }) die) die
  exact ⟨w, hw.trans (congrArg (fun z : State => { z with strings := w }) hdrop)⟩

theorem getStr_throttling_setTemp (s : State) (die : Fin 8) (core : Fin 128) {temp : BitVec 16} (h : hot ≤ temp.toNat) (n : Nat) :
    ∃ v, getStr (throttling (setTemp s die core temp) die) n =
      { getStr s n with pwr := if n / 32 = die.val then 2 else (getStr s n).pwr, clearSince := v } := by
  obtain ⟨v, hv⟩ := getStr_setTemp_of_hot s die core h n
  generalize setTemp s die core temp = b at hv ⊢
  obtain ⟨w, hw⟩ := getStr_allHard (dropFreq (modDie b die fun x => { x with throttled := true }) die) die n
  obtain ⟨u, hu⟩ := dropFreq_rest (modDie b die fun x => { x with throttled := true }) die
  have hdrop : getStr (dropFreq (modDie b die fun x => { x with throttled := true }) die) n = getStr b n := by rw [hu]; rfl
  refine ⟨w, hw.trans ?_⟩
  rw [hdrop, hv]
  by_cases hn : n / 32 = die.val <;> simp [hn]

theorem hottest_throttling_setTemp (s : State) (die : Fin 8) (core : Fin 128) {temp : BitVec 16} (h : hot ≤ temp.toNat) :
    hottest (throttling (setTemp s die core temp) die) die = hottest (reading s (128 * die.val + core.val) temp) die := by
  obtain ⟨v, hv⟩ := throttling_setTemp_rest s die core h
  obtain ⟨w, hw⟩ := dropFreq_rest (modDie (crossing s die (128 * die.val + core.val) temp) die fun x => { x with throttled := true }) die
  rw [hv, hw]
  exact hottest_crossing s die _ die temp

theorem time_throttling_setTemp (s : State) (die : Fin 8) (core : Fin 128) {temp : BitVec 16} (h : hot ≤ temp.toNat) :
    (throttling (setTemp s die core temp) die).time = s.time := by
  obtain ⟨v, hv⟩ := throttling_setTemp_rest s die core h
  obtain ⟨w, hw⟩ := dropFreq_rest (modDie (crossing s die (128 * die.val + core.val) temp) die fun x => { x with throttled := true }) die
  rw [hv, hw]
  exact time_crossing s die _ temp

theorem strings_dieAlarm (s : State) (d : Nat) (e : EventRec) : (dieAlarm s d e).strings = s.strings :=
  (postHost_strings _ _).trans (postEvent_strings _ _ _)

/-- What a throttling die does (R189): the drop, every string in state 2, and the event of its hottest core. -/
theorem samePower_throttle {s : State} {die : Fin 8} {core : Fin 128} {temp : BitVec 16} (h : hot ≤ temp.toNat)
    (hthr : (getDie s die).throttled = false) : ∃ t, execThermalThrottle die core temp s = .next t ∧
      SamePower die (dieAlarm (modDieStrs (dropFreq
          (modDie (crossing s die (128 * die.val + core.val) temp) die fun y => { y with throttled := true }) die) die
            fun y => { y with pwr := 2 }) die
        (dieEvent s die 7 (wd (hottest (reading s (128 * die.val + core.val) temp) die)))) t := by
  refine ⟨_, execThermalThrottle_eq h hthr, ?_⟩
  have hev : ∀ arg, dieEvent (throttling (setTemp s die core temp) die) die 7 arg = dieEvent s die 7 arg := fun arg => by
    rw [dieEvent, dieEvent, time_throttling_setTemp s die core h]
  rw [hottest_throttling_setTemp s die core h, hev]
  obtain ⟨v, hv⟩ := throttling_setTemp_rest s die core h
  have hstr := getStr_throttling_setTemp s die core h
  generalize throttling (setTemp s die core temp) die = b at hv hstr ⊢
  obtain ⟨u, hu⟩ := dropFreq_rest (modDie (crossing s die (128 * die.val + core.val) temp) die fun y => { y with throttled := true }) die
  have hdrop : ∀ n, getStr (dropFreq (modDie (crossing s die (128 * die.val + core.val) temp) die
      fun y => { y with throttled := true }) die) n = getStr s n := fun n => by
    rw [hu]
    change getStr (crossing s die (128 * die.val + core.val) temp) n = getStr s n
    rw [getStr, strings_crossing]
    rfl
  generalize dropFreq (modDie (crossing s die (128 * die.val + core.val) temp) die fun y => { y with throttled := true }) die = x
    at hv hdrop ⊢
  obtain ⟨w, hw⟩ := modDieStrs_rest x die fun y => { y with pwr := 2 }
  refine SamePower.of_hard (s := s) ?_ (fun n => ?_) fun n => ?_
  · rw [strings_dieAlarm, hv, hw, dieAlarm_of_strings x v, dieAlarm_of_strings x w]
  · have hn := getStr_hardStrings x die n
    rw [hdrop n] at hn
    exact ⟨(getStr s n).clearSince, by rw [getStr, strings_dieAlarm]; exact hn⟩
  · obtain ⟨c, hc⟩ := hstr n
    exact ⟨c, by rw [getStr, strings_dieAlarm]; exact hc⟩

/-! ### A tripped die (R189, R357) -/

theorem alarmFrec_of_strings (s : State) (v : Sparse StringSt) (n d : Nat) (arg : Word) :
    alarmFrec { s with strings := v } n d arg = { alarmFrec s n d arg with strings := v } :=
  addFrec_of_strings s v _

/-- What a trip tells, and the partitions `l` that it aborts, before the die's cores go dark. -/
def tripping (s : State) (d : Nat) (e : EventRec) (l : List Nat) : State :=
  l.foldl abortPart (modDie (alarmFrec (dieAlarm s d e) 1 d e.arg) d fun x => { x with tripped := true, delayed := [] })

theorem tripping_of_strings (s : State) (v : Sparse StringSt) (d : Nat) (e : EventRec) (l : List Nat) :
    tripping { s with strings := v } d e l = { tripping s d e l with strings := v } := by
  rw [tripping, dieAlarm_of_strings, alarmFrec_of_strings]
  exact foldl_abortPart_of_strings l v (modDie (alarmFrec (dieAlarm s d e) 1 d e.arg) d
    fun x => { x with tripped := true, delayed := [] })

theorem execThermalTrip_eq {s : State} {die : Fin 8} {core : Fin 128} {temp : BitVec 16} (h : tripTemp ≤ temp.toNat)
    (htrip : (getDie s die).tripped = false) : execThermalTrip die core temp s =
      .next (refreshPower (darkDie (tripping (setTemp s die core temp) die (heatEvent (setTemp s die core temp) (coreNum die core) 8)
        (((setTemp s die core temp).parts.filter fun q => !(stringsOn (setTemp s die core temp) q.1 die).isEmpty).map (·.1))) die)
          die) := by
  obtain ⟨v, hv⟩ := getDie_setTemp_of_hot s die core (le_trans (by decide) h) die
  have hnot : ¬ (temp.toNat < tripTemp ∨ (getDie (setTemp s die core temp) die).tripped = true) := by
    rw [hv, htrip]
    simpa using h
  rw [execThermalTrip]
  dsimp only
  rw [if_neg hnot]
  rfl

theorem heatEvent_of_strings (s : State) (v : Sparse StringSt) (c kind : Nat) :
    heatEvent { s with strings := v } c kind = heatEvent s c kind := rfl

theorem heatEvent_setTemp_of_hot (s : State) (die : Fin 8) (core : Fin 128) {temp : BitVec 16} (h : hot ≤ temp.toNat) (kind : Nat) :
    heatEvent (setTemp s die core temp) (128 * die.val + core.val) kind =
      coreEvent (reading s (128 * die.val + core.val) temp) (128 * die.val + core.val) kind 0 (wd temp.toNat) := by
  rw [setTemp_of_hot s die core h]
  obtain ⟨v, hv⟩ := refreshPower_rest (crossing s die (128 * die.val + core.val) temp) die
  rw [hv, heatEvent_of_strings, crossing]
  split_ifs
  · exact heatEvent_migreq s _ kind temp
  · rw [heatEvent, tempOf_reading]

/-- The partitions with a string on a die. -/
theorem stringsOn_isEmpty (s : State) (p d : Nat) : (!(stringsOn s p d).isEmpty) =
    (getPart s p).strings.any fun n => decide (n / 32 = d ∧ (getStr s n).part = some p) := by
  rw [Bool.eq_iff_iff, stringsOn, boundStrings, List.filter_filter]
  simp [List.filter_eq_nil_iff]

theorem parts_setTemp_of_hot (s : State) (die : Fin 8) (core : Fin 128) {temp : BitVec 16} (h : hot ≤ temp.toNat) :
    (setTemp s die core temp).parts = s.parts := by
  rw [setTemp_of_hot s die core h]
  obtain ⟨v, hv⟩ := refreshPower_rest (crossing s die (128 * die.val + core.val) temp) die
  rw [hv]
  exact parts_crossing s die _ temp

theorem trippedParts_eq (s : State) (die : Fin 8) (core : Fin 128) {temp : BitVec 16} (h : hot ≤ temp.toNat) :
    ((setTemp s die core temp).parts.filter fun q => !(stringsOn (setTemp s die core temp) q.1 die).isEmpty) =
      s.parts.filter fun q => (getPart s q.1).strings.any fun n => decide (n / 32 = die.val ∧ (getStr s n).part = some q.1) := by
  have hpart : ∀ n, (getStr (setTemp s die core temp) n).part = (getStr s n).part := fun n => by
    obtain ⟨v, hv⟩ := getStr_setTemp_of_hot s die core h n
    rw [hv]
  rw [parts_setTemp_of_hot s die core h]
  refine List.filter_congr fun q _ => ?_
  rw [stringsOn_isEmpty, getPart, parts_setTemp_of_hot s die core h]
  simp only [hpart]
  rfl

/-- What a tripped die does (R189, R357). -/
theorem thermalTrip_of_due {s : State} {die : Fin 8} {core : Fin 128} {temp : BitVec 16} (h : tripTemp ≤ temp.toNat)
    (htrip : (getDie s die).tripped = false) {b : State} (hb : b = tripping (crossing s die (128 * die.val + core.val) temp) die
      (coreEvent (reading s (128 * die.val + core.val) temp) (128 * die.val + core.val) 8 0 (wd temp.toNat))
      ((s.parts.filter fun q => (getPart s q.1).strings.any fun n =>
        decide (n / 32 = die.val ∧ (getStr s n).part = some q.1)).map (·.1))) :
    ∃ t, execThermalTrip die core temp s = .next t ∧ { t with cores := b.cores, strings := b.strings } = b ∧
      (∀ n, ∃ v, getStr t n =
        { getStr s n with pwr := if n / 32 = die.val then 2 else (getStr s n).pwr, clearSince := v }) ∧
      ∀ k, getCore t k = if k / 128 = die.val then unpowered (getCore b k) else getCore b k := by
  have hhot : hot ≤ temp.toNat := le_trans (by decide) h
  refine ⟨_, execThermalTrip_eq h htrip, ?_⟩
  rw [trippedParts_eq s die core hhot, coreNum, heatEvent_setTemp_of_hot s die core hhot]
  generalize coreEvent (reading s (128 * die.val + core.val) temp) (128 * die.val + core.val) 8 0 (wd temp.toNat) = e at hb ⊢
  generalize (s.parts.filter fun q => (getPart s q.1).strings.any fun n =>
        decide (n / 32 = die.val ∧ (getStr s n).part = some q.1)).map (·.1) = l at hb ⊢
  have hstr := getStr_setTemp_of_hot s die core hhot
  obtain ⟨v, hv⟩ := refreshPower_rest (crossing s die (128 * die.val + core.val) temp) die
  rw [← setTemp_of_hot s die core hhot] at hv
  generalize setTemp s die core temp = x at hv hstr ⊢
  have htr : tripping x die e l = { b with strings := v } := by rw [hv, tripping_of_strings, hb]
  obtain ⟨c, hc⟩ := darkDie_rest { b with strings := v } die
  obtain ⟨w, hw⟩ := refreshPower_rest (darkDie { b with strings := v } die) die
  have hdark : ∀ n, getStr (darkDie { b with strings := v } die) n = getStr x n := fun n => by rw [hc, hv]; rfl
  rw [htr]
  refine ⟨?_, fun n => ?_, fun k => ?_⟩
  · generalize darkDie { b with strings := v } die = y at hc hw
    subst hc
    exact congrArg (fun z : State => { z with cores := b.cores, strings := b.strings }) hw
  · obtain ⟨u, hu⟩ := getStr_refreshPower (darkDie { b with strings := v } die) die n
    obtain ⟨u', hu'⟩ := hstr n
    refine ⟨u, hu.trans ?_⟩
    rw [hdark, hu']
    by_cases hn : n / 32 = die.val <;> simp [hn]
  · have hk := getCore_darkDie { b with strings := v } die k
    generalize darkDie { b with strings := v } die = y at hk hw
    rw [hw]
    exact hk

theorem samePower_reading_cool {s : State} {die : Fin 8} {core : Fin 128} {temp : BitVec 16}
    (hcool : ∀ j < 128, fld (getCore (reading s (128 * die.val + core.val) temp) (128 * die.val + j)).therm 31 16 < 105 * 16) :
    SamePower die (modDie (crossing s die (128 * die.val + core.val) temp) die fun y => { y with throttled := false })
      (setTemp s die core temp) := by
  have h := samePower_setTemp s die core temp
  rwa [if_pos ((hottest_lt_iff _ _ (t := hot) (by decide)).mpr hcool)] at h

theorem samePower_reading_hot {s : State} {die : Fin 8} {core : Fin 128} {temp : BitVec 16}
    (hcool : ¬ ∀ j < 128, fld (getCore (reading s (128 * die.val + core.val) temp) (128 * die.val + j)).therm 31 16 < 105 * 16) :
    SamePower die (crossing s die (128 * die.val + core.val) temp) (setTemp s die core temp) := by
  have h := samePower_setTemp s die core temp
  rwa [if_neg (mt (hottest_lt_iff _ _ (t := hot) (by decide)).mp hcool)] at h

theorem exists_hottest {s : State} {d : Nat} (h : hot ≤ hottest s d) :
    ∃ j < 128, fld (getCore s (128 * d + j)).therm 31 16 = hottest s d := by
  obtain ⟨j, hj, hle⟩ := (le_hottest_iff s d (lt_of_lt_of_le (by decide) h)).mp le_rfl
  refine ⟨j, hj, le_antisymm ?_ hle⟩
  by_contra hgt
  exact absurd ((le_hottest_iff s d (Nat.lt_of_le_of_lt (Nat.zero_le _) (not_le.mp hgt))).mpr ⟨j, hj, le_rfl⟩) hgt

theorem le_hottest (s : State) (d : Nat) {j : Nat} (hj : j < 128) : fld (getCore s (128 * d + j)).therm 31 16 ≤ hottest s d := by
  by_contra hgt
  exact hgt ((le_hottest_iff s d (Nat.lt_of_le_of_lt (Nat.zero_le _) (not_le.mp hgt))).mpr ⟨j, hj, le_rfl⟩)

/-- Settles O27: a reading changes the die as `crossing` says; what a hot die does besides changes no more of its strings than their
power states, so the two orders in which strings and the rest change agree. -/
theorem temperatureEvents : Obligations.TemperatureEvents := by
  unfold Obligations.TemperatureEvents
  intro die core temp s
  dsimp only
  refine ⟨⟨_, rfl, fun hcool => samePower_reading_cool hcool, fun hcool => samePower_reading_hot hcool⟩,
    fun htemp hthr => ?_, fun hthr hcool hslow => ?_, fun htemp htrip => ?_⟩
  · obtain ⟨t, hexec, ht⟩ := samePower_throttle htemp hthr
    rw [dropFreq_eq _ _ (slowest_iff _)] at ht
    exact ⟨t, hexec, _, exists_hottest (hot_le_hottest_reading s die core htemp), fun j hj => le_hottest _ _ hj, ht⟩
  · have hdue : (getDie s die).throttled = true ∧ hot ≤ hottest s die ∧ ¬ (getDie s die).slowest = true :=
      ⟨hthr, not_lt.mp (mt (hottest_lt_iff s die (by decide)).mp hcool), mt (slowest_iff _).mp hslow⟩
    refine ⟨_, if_pos hdue, ?_⟩
    rw [← dropFreq_eq _ _ (slowest_iff _)]
    exact samePower_refreshPower _ _
  · obtain ⟨t, hexec, hrest, hstr, hcore⟩ := thermalTrip_of_due htemp htrip rfl
    refine ⟨t, hexec, hrest, fun n => ?_, fun k hk => ?_, fun k hk => ?_⟩
    · obtain ⟨v, hv⟩ := hstr n
      rw [hv]
    · exact (hcore k).trans (if_neg hk)
    · rw [(hcore k).trans (if_pos hk)]
      exact ⟨rfl, rfl, rfl, rfl, rfl⟩

end Sys2Proof.Machine
end

section
/-!
SUPPORT. What a core's outstanding work changes as it completes, and what the ramp and the tests of the phase states leave (R191, R297,
R373).
-/
namespace Sys2Proof.Machine

/-! ## Partitions changed twice -/

theorem modPart_modPart (s : State) (p : Nat) (f g : Part → Part) : modPart (modPart s p f) p g = modPart s p (g ∘ f) := by
  have h := getPart_modPart_self s p f
  unfold modPart at h ⊢
  rw [h]
  simp only [spSet_spSet, Function.comp]

theorem modPart_congr {s : State} {p : Nat} {f g : Part → Part} (h : f (getPart s p) = g (getPart s p)) :
    modPart s p f = modPart s p g := by rw [modPart, modPart, h]

theorem getPart_congr {s t : State} (h : t.parts = s.parts) (p : Nat) : getPart t p = getPart s p := by
  rw [getPart, h]; rfl

theorem partCores_of_lmap {s : State} {p : Nat} (h : (getPart s p).evicted = false) : partCores s p = (getPart s p).lmap := by
  rw [partCores, h]; rfl

/-! ## Partitions, and the declarations that a superstep has made -/

/-- What a superstep keeps on a core until its end: exchange marks, and the declarations that wait (R120, R190). -/
structure Declared where
  exch : Exch
  energyNext : Option Nat
  peakNext : Option Nat

def Core.declared (x : Core) : Declared := { exch := x.exch, energyNext := x.energyNext, peakNext := x.peakNext }

/-- The partitions, and of each core what its superstep has declared, stay. -/
structure KeepsPhase (s t : State) : Prop where
  parts : t.parts = s.parts
  declared : ∀ k, (getCore t k).declared = (getCore s k).declared

theorem KeepsPhase.refl (s : State) : KeepsPhase s s := ⟨rfl, fun _ => rfl⟩

theorem KeepsPhase.trans {a b c : State} (h : KeepsPhase a b) (h' : KeepsPhase b c) : KeepsPhase a c :=
  ⟨h'.parts.trans h.parts, fun k => (h'.declared k).trans (h.declared k)⟩

theorem KeepsPhase.foldl {α : Type} {f : State → α → State} (h : ∀ s a, KeepsPhase s (f s a)) (l : List α) :
    ∀ s, KeepsPhase s (l.foldl f s) := by
  induction l with
  | nil => exact KeepsPhase.refl
  | cons a r ih => exact fun s => (h s a).trans (ih _)

theorem keepsPhase_modCore {f : Core → Core} (s : State) (c : Nat) (h : ∀ x, (f x).declared = x.declared) :
    KeepsPhase s (modCore s c f) := by
  refine ⟨rfl, fun k => ?_⟩
  rw [getCore_modCore]
  split_ifs with hk
  · rw [h, hk]
  · rfl

theorem keepsPhase_setGroup (s : State) (c g : Nat) (x : Group) : KeepsPhase s (setGroup s c g x) :=
  keepsPhase_modCore s c fun _ => rfl

theorem keepsPhase_modEng (s : State) (c : Nat) (f : Engine → Engine) : KeepsPhase s (modEng s c f) :=
  keepsPhase_modCore s c fun _ => rfl

theorem keepsPhase_modAsy (s : State) (c : Nat) (f : Assay → Assay) : KeepsPhase s (modAsy s c f) :=
  keepsPhase_modCore s c fun _ => rfl

theorem keepsPhase_modDie (s : State) (d : Nat) (f : Die → Die) : KeepsPhase s (modDie s d f) := ⟨rfl, fun _ => rfl⟩

theorem keepsPhase_postEvent (s : State) (d : Nat) (e : EventRec) : KeepsPhase s (postEvent s d e) := ⟨rfl, fun _ => rfl⟩

theorem keepsPhase_alogPost (s : State) (c : Nat) (r : ArithRec) : KeepsPhase s (alogPost s c r) := by
  unfold alogPost alogPostTo
  split_ifs
  · exact keepsPhase_modDie _ _ _
  · exact keepsPhase_modCore s c fun _ => rfl

theorem keepsPhase_flogAppend (s : State) (c : Nat) (r : FlogRec) : KeepsPhase s (flogAppend s c r) := by
  unfold flogAppend
  have hlog : ∀ f : Flog, KeepsPhase s (modCore s c fun x => { x with flog := f }) := fun f => keepsPhase_modCore s c fun _ => rfl
  by_cases hfull : ((getCore s c).flog.tail - (getCore s c).flog.head).toNat = 16
  · rw [if_pos hfull]
    by_cases hlost : (getCore s c).flog.lost = 0
    · rw [if_pos hlost]
      exact (hlog _).trans (keepsPhase_postEvent _ _ _)
    · rw [if_neg hlost]
      exact hlog _
  · rw [if_neg hfull]
    exact hlog _

theorem keepsPhase_completeOp (s : State) (c g i : Nat) : KeepsPhase s (completeOp s c g i) := by
  cases h : (getGroup s c g).out[i]? with
  | none => rw [completeOp, h]; exact KeepsPhase.refl s
  | some o =>
    rw [completeOp_eq h]
    exact (keepsPhase_setGroup s c g _).trans (KeepsPhase.foldl (fun s r => keepsPhase_alogPost s c r) _ _)

theorem keepsPhase_completeAll (s : State) (c g : Nat) : KeepsPhase s (completeAll s c g) :=
  KeepsPhase.foldl (fun s _ => keepsPhase_completeOp s c g 0) _ s

/-! ## The phase state of a core (R191) -/

/-- A test of a core's phase state changes that state and nothing else. -/
theorem retest_eq (s : State) (c : Nat) : retest s c = s ∨ ∃ v, retest s c = setCore s c { getCore s c with pst := v } := by
  unfold retest
  dsimp only
  split
  · split_ifs
    exacts [.inr ⟨_, rfl⟩, .inr ⟨_, rfl⟩, .inl rfl]
  · split_ifs
    exacts [.inr ⟨_, rfl⟩, .inl rfl]
  · split_ifs
    exacts [.inr ⟨_, rfl⟩, .inl rfl]
  · exact .inl rfl

theorem retest_rest (s : State) (c : Nat) : ∃ v, retest s c = { s with cores := v } := by
  obtain h | ⟨v, h⟩ := retest_eq s c
  · exact ⟨s.cores, h⟩
  · exact ⟨_, h⟩

theorem keepsPhase_retest (s : State) (c : Nat) : KeepsPhase s (retest s c) := by
  obtain h | ⟨v, h⟩ := retest_eq s c
  · rw [h]; exact KeepsPhase.refl s
  · rw [h]
    exact keepsPhase_modCore (f := fun x => { x with pst := v }) s c fun _ => rfl

theorem foldl_retest_rest (l : List Nat) : ∀ s : State, ∃ v, l.foldl retest s = { s with cores := v } := by
  induction l with
  | nil => exact fun s => ⟨s.cores, rfl⟩
  | cons c r ih =>
    intro s
    obtain ⟨v, hv⟩ := retest_rest s c
    obtain ⟨w, hw⟩ := ih (retest s c)
    exact ⟨w, by rw [List.foldl_cons, hw, hv]⟩

theorem testCores_rest (s : State) (p : Nat) : ∃ v, testCores s p = { s with cores := v } := foldl_retest_rest _ s

theorem keepsPhase_testCores (s : State) (p : Nat) : KeepsPhase s (testCores s p) := KeepsPhase.foldl keepsPhase_retest _ s

/-! ## The oldest operation of a matrix engine (R297) -/

theorem keepsPhase_failOp (s : State) (c : Nat) (o : MatOp) : KeepsPhase s (failOp s c o) := keepsPhase_modEng s c _

theorem keepsPhase_engineError (s : State) (c : Nat) (o : MatOp) (b : PBlock) (code : Nat) :
    KeepsPhase s (engineError s c o b code) :=
  (keepsPhase_modEng s c _).trans ((keepsPhase_flogAppend _ c _).trans
    ((keepsPhase_modEng _ c _).trans (keepsPhase_failOp _ c o)))

theorem keepsPhase_bindOp (s : State) (c : Nat) (o : MatOp) (b : PBlock) (err : Bool) : KeepsPhase s (bindOp s c o b err) := by
  unfold bindOp
  split
  · exact keepsPhase_modAsy s c _
  · exact KeepsPhase.refl s

theorem declared_foldl_drainWrite (t : Nat) (l : List (Nat × List Byte)) : ∀ x : Core,
    (l.foldl (drainWrite t) x).declared = x.declared := by
  induction l with
  | nil => exact fun _ => rfl
  | cons w r ih => exact fun x => ih _

theorem keepsPhase_drainWrites (s : State) (c : Nat) (l : List (Nat × List Byte)) (est : Nat) :
    KeepsPhase s (modCore s c fun x =>
      { l.foldl (drainWrite s.ticks) x with eng := { (l.foldl (drainWrite s.ticks) x).eng with
          estat := (l.foldl (drainWrite s.ticks) x).eng.estat ||| wd est } }) :=
  keepsPhase_modCore s c fun x => declared_foldl_drainWrite s.ticks l x

theorem keepsPhase_performOp (s : State) (c : Nat) (o : MatOp) (b : PBlock) (m : Mem) : KeepsPhase s (performOp s c o b m) := by
  have heng : ∀ e : Engine, KeepsPhase s (modCore s c fun x => { x with eng := e }) := fun e => keepsPhase_modEng s c fun _ => e
  unfold performOp
  dsimp only
  generalize (if b.wit = true then spFind o.ctxs b.wctx else none).bind (getCore s c).asy.ctx = ctx
  by_cases hload : o.minor = 0
  · rw [if_pos hload]
    exact keepsPhase_modEng s c _
  rw [if_neg hload]
  by_cases hdrain : o.minor = 13
  · rw [if_pos hdrain]
    have hlog : ∀ (t : State) (l : List Byte), KeepsPhase s t → KeepsPhase s (([0x21, 0x22, 0x23] : List Byte).foldl
        (fun s k => if l.contains k then alogPost s c (drainRec o k) else s) t) := fun t l ht =>
      ht.trans (KeepsPhase.foldl (fun s k => by split_ifs; exacts [keepsPhase_alogPost s c _, KeepsPhase.refl s]) _ t)
    cases ctx with
    | none =>
      dsimp only
      split_ifs
      · exact hlog _ _ (keepsPhase_drainWrites s c _ _)
      · exact keepsPhase_drainWrites s c _ _
    | some k =>
      dsimp only
      split_ifs
      · exact hlog _ _ (KeepsPhase.trans (keepsPhase_drainWrites s c _ _) (keepsPhase_modAsy _ c _))
      · exact KeepsPhase.trans (keepsPhase_drainWrites s c _ _) (keepsPhase_modAsy _ c _)
  rw [if_neg hdrain]
  by_cases hzero : o.minor = 14
  · rw [if_pos hzero]
    exact keepsPhase_modEng s c _
  rw [if_neg hzero]
  cases ctx with
  | none => exact heng _
  | some k => exact (heng _).trans (keepsPhase_modAsy _ c _)

theorem keepsPhase_completeMat (s : State) (c : Nat) : KeepsPhase s (completeMat s c) := by
  unfold completeMat
  split
  · exact KeepsPhase.refl s
  · dsimp only
    refine KeepsPhase.trans ?_ (keepsPhase_retest _ c)
    refine KeepsPhase.trans ?_ (keepsPhase_modEng _ c _)
    split_ifs
    · exact KeepsPhase.trans (keepsPhase_modEng s c _) ((keepsPhase_failOp _ c _).trans (keepsPhase_bindOp _ c _ _ _))
    · exact KeepsPhase.trans (keepsPhase_modEng s c _) ((keepsPhase_engineError _ c _ _ _).trans (keepsPhase_bindOp _ c _ _ _))
    · exact KeepsPhase.trans (keepsPhase_modEng s c _) ((keepsPhase_performOp _ c _ _ _).trans (keepsPhase_bindOp _ c _ _ _))

/-! ## The ramp (R182, R372, R373) -/

/-- The cores change their currents and nothing else. -/
structure KeepsCores (s t : State) : Prop where
  rest : ∃ v, t = { s with cores := v }
  core : ∀ k, ∃ i, getCore t k = { getCore s k with current := i }

theorem keepsCores_of_current {f : Core → Core} (hf : ∀ x, ∃ i, f x = { x with current := i }) (s : State) (c : Nat) :
    KeepsCores s (modCore s c f) := by
  refine ⟨⟨_, rfl⟩, fun k => ?_⟩
  rw [getCore_modCore]
  split_ifs with hk
  · subst hk; exact hf _
  · exact ⟨(getCore s k).current, rfl⟩

theorem KeepsCores.trans {a b c : State} (h : KeepsCores a b) (h' : KeepsCores b c) : KeepsCores a c := by
  obtain ⟨⟨v, hv⟩, hcore⟩ := h
  obtain ⟨⟨w, hw⟩, hcore'⟩ := h'
  refine ⟨⟨w, by rw [hw, hv]⟩, fun k => ?_⟩
  obtain ⟨i, hi⟩ := hcore k
  obtain ⟨j, hj⟩ := hcore' k
  exact ⟨j, by rw [hj, hi]⟩

theorem KeepsCores.foldl {α : Type} {f : State → α → State} (h : ∀ s a, KeepsCores s (f s a)) (l : List α) :
    ∀ s, KeepsCores s (l.foldl f s) := by
  induction l with
  | nil => exact fun s => ⟨⟨s.cores, rfl⟩, fun k => ⟨(getCore s k).current, rfl⟩⟩
  | cons a r ih => exact fun s => (h s a).trans (ih _)

theorem keepsCores_trackStr (s : State) (n : Nat) : KeepsCores s (trackStr s n) := by
  refine ⟨trackStr_rest s n, fun k => ?_⟩
  rw [getCore_trackStr]
  split_ifs
  · obtain ⟨i, hi, -⟩ := tracked_eq s n k
    exact ⟨i, hi⟩
  · exact ⟨(getCore s k).current, rfl⟩

theorem keepsCores_foldl_current (peak : Nat) (l : List Nat) (s : State) :
    KeepsCores s (l.foldl (fun s c => modCore s c fun co => { co with current := max co.current peak }) s) :=
  KeepsCores.foldl (fun s c => keepsCores_of_current (fun _ => ⟨_, rfl⟩) s c) l s

/-- The currents once the ramp of a partition is over, before the power states answer them. -/
def rampCurrents (s : State) (p : Nat) : State :=
  (boundStrings s p).foldl trackStr ((partCores s p).foldl (fun x c =>
    modCore x c fun co => { co with current := max co.current ((getPart s p).launch.getD Launch.zero).peak }) s)

theorem keepsCores_rampCurrents (s : State) (p : Nat) : KeepsCores s (rampCurrents s p) := by
  unfold rampCurrents
  exact KeepsCores.trans (keepsCores_foldl_current _ (partCores s p) s) (KeepsCores.foldl keepsCores_trackStr _ _)

/-- The dies of a partition's strings, each once. -/
def ownDies (s : State) (p : Nat) : List Nat := ((boundStrings s p).map (· / 32)).eraseDups

/-- How long the ramp of a partition takes: as long as that of its slowest core. -/
def rampTime (s : State) (p : Nat) : Nat :=
  maxOf ((partCores s p).map fun c =>
    let slope := fld (getDie s (dieOf c)).flipSlew 15 0
    if slope = 0 then 0
    else ((((getPart s p).launch.getD Launch.zero).peak - (getCore s c).current) * 1000 + slope - 1) / slope)

/-- The ramp: the currents, its time, and the power states' answer. -/
theorem rampUp_eq (s : State) (p : Nat) : rampUp s p =
    (ownDies s p).foldl refreshPower { rampCurrents s p with time := s.time + rampTime s p } := by
  obtain ⟨⟨v, hv⟩, -⟩ := keepsCores_foldl_current ((getPart s p).launch.getD Launch.zero).peak (partCores s p) s
  unfold rampUp rampCurrents ownDies
  dsimp only
  rw [hv]
  rfl

theorem foldl_refreshPower_rest (l : List Nat) : ∀ s : State, ∃ v, l.foldl refreshPower s = { s with strings := v } := by
  induction l with
  | nil => exact fun s => ⟨s.strings, rfl⟩
  | cons d r ih =>
    intro s
    obtain ⟨v, hv⟩ := refreshPower_rest s d
    obtain ⟨w, hw⟩ := ih (refreshPower s d)
    exact ⟨w, by rw [List.foldl_cons, hw, hv]⟩

theorem keepsPhase_rampUp (s : State) (p : Nat) : KeepsPhase s (rampUp s p) := by
  obtain ⟨v, hv⟩ := foldl_refreshPower_rest (ownDies s p) { rampCurrents s p with time := s.time + rampTime s p }
  obtain ⟨⟨w, hw⟩, hcore⟩ := keepsCores_rampCurrents s p
  rw [rampUp_eq, hv]
  refine ⟨by rw [hw], fun k => ?_⟩
  obtain ⟨i, hi⟩ := hcore k
  exact (congrArg Core.declared hi :)

end Sys2Proof.Machine
end

section
/-!
PROOF. HELD, stragglers, aborts and discards (R192, R199 to R201, R359, R372).
-/
namespace Sys2Proof.Machine

/-! ## Cores whose superstep begins again (R372) -/

/-- A core without exchange marks and without a declaration that waits. -/
def Core.undeclared (x : Core) : Prop := x.exch.marks = [] ∧ x.energyNext = none ∧ x.peakNext = none

theorem Core.undeclared_congr {x y : Core} (h : y.declared = x.declared) (hx : x.undeclared) : y.undeclared := by
  obtain ⟨he, hn, hp⟩ := Declared.mk.inj h
  obtain ⟨hm, hn', hp'⟩ := hx
  exact ⟨by rw [he, hm], hn.trans hn', hp.trans hp'⟩

theorem KeepsPhase.undeclared {s t : State} (h : KeepsPhase s t) {k : Nat} (hk : (getCore s k).undeclared) :
    (getCore t k).undeclared := Core.undeclared_congr (h.declared k) hk

theorem keepsPhase_withStays (s : State) (c : Nat) : KeepsPhase s (withStays s c) := keepsPhase_modCore s c fun _ => rfl

/-- A core once its long-latency instructions and its running matrix operation are complete (R372). -/
def drainedOut (s : State) (c : Nat) : State :=
  let t := completeMat s (coreNum (Fin.ofNat 8 (c / 128)) (Fin.ofNat 128 c))
  (List.range (getCore t c).ngroups).foldl (fun s g => completeAll s c g) t

theorem keepsPhase_drainedOut (s : State) (c : Nat) : KeepsPhase s (drainedOut s c) :=
  (keepsPhase_completeMat s _).trans (KeepsPhase.foldl (fun s g => keepsPhase_completeAll s c g) _ _)

theorem discardCore_eq (p : Nat) (sn : Snap) (s : State) (i : Nat) : ∃ f : Core → Core, (∀ x, (f x).undeclared) ∧
    discardCore p sn s i = withStays (modCore (drainedOut s ((partCores s p).getD i 0)) ((partCores s p).getD i 0) f)
      ((partCores s p).getD i 0) :=
  ⟨_, fun _ => ⟨rfl, rfl, rfl⟩, rfl⟩

theorem parts_discardCore (p : Nat) (sn : Snap) (s : State) (i : Nat) : (discardCore p sn s i).parts = s.parts := by
  obtain ⟨f, -, hf⟩ := discardCore_eq p sn s i
  rw [hf, (keepsPhase_withStays _ _).parts]
  exact (keepsPhase_drainedOut s _).parts

theorem undeclared_discardCore (p : Nat) (sn : Snap) (s : State) (i k : Nat)
    (h : (getCore s k).undeclared ∨ k = (partCores s p).getD i 0) : (getCore (discardCore p sn s i) k).undeclared := by
  obtain ⟨f, hfx, hf⟩ := discardCore_eq p sn s i
  rw [hf]
  refine (keepsPhase_withStays _ _).undeclared ?_
  rw [getCore_modCore]
  by_cases hk : k = (partCores s p).getD i 0
  · rw [if_pos hk]
    exact hfx _
  · rw [if_neg hk]
    exact (keepsPhase_drainedOut s _).undeclared (h.resolve_right hk)

theorem foldl_discardCore (p : Nat) (sn : Snap) (l : List Nat) : ∀ s : State,
    (l.foldl (discardCore p sn) s).parts = s.parts ∧
    ∀ k, ((getCore s k).undeclared ∨ ∃ i ∈ l, k = (partCores s p).getD i 0) →
      (getCore (l.foldl (discardCore p sn) s) k).undeclared := by
  induction l with
  | nil => exact fun s => ⟨rfl, fun k h => h.elim id (by simp)⟩
  | cons i r ih =>
    intro s
    obtain ⟨hparts, hcores⟩ := ih (discardCore p sn s i)
    refine ⟨hparts.trans (parts_discardCore p sn s i), fun k hk => hcores k ?_⟩
    have hp : partCores (discardCore p sn s i) p = partCores s p := by
      unfold partCores getPart
      rw [parts_discardCore]
    rw [hp]
    obtain h | ⟨j, hj, hk⟩ := hk
    · exact .inl (undeclared_discardCore p sn s i k (.inl h))
    · obtain rfl | hj := List.mem_cons.mp hj
      · exact .inl (undeclared_discardCore p sn s j k (.inr hk))
      · exact .inr ⟨j, hj, hk⟩

/-- What a partition takes back as its superstep starts again at a time. -/
def Part.rewind (sn : Snap) (time : Nat) (x : Part) : Part :=
  { x with resw := sn.resw, migLate := false, stragAt := time, stragPosted := false }

/-- A partition's superstep starts again on cores that have been put back (R372). -/
def rewound (s : State) (p : Nat) (sn : Snap) : State := testCores (modPart s p (Part.rewind sn s.time)) p

/-- The state of a partition whose superstep starts again, before HOLD is looked at (R372). -/
def discarded (s : State) (p : Nat) (sn : Snap) : State :=
  rewound (rampUp ((List.range (partCores s p).length).foldl (discardCore p sn) s) p) p sn

theorem getPart_rewound (s : State) (p : Nat) (sn : Snap) :
    getPart (rewound s p sn) p = (getPart s p).rewind sn (rewound s p sn).time := by
  obtain ⟨v, hv⟩ := testCores_rest (modPart s p (Part.rewind sn s.time)) p
  rw [rewound, hv]
  exact getPart_modPart_self s p (Part.rewind sn s.time)

theorem getPart_discarded (s : State) (p : Nat) (sn : Snap) :
    getPart (discarded s p sn) p = (getPart s p).rewind sn (discarded s p sn).time := by
  have hparts := (keepsPhase_rampUp ((List.range (partCores s p).length).foldl (discardCore p sn) s) p).parts
  rw [(foldl_discardCore p sn _ s).1] at hparts
  have h := getPart_rewound (rampUp ((List.range (partCores s p).length).foldl (discardCore p sn) s) p) p sn
  rw [getPart_congr hparts] at h
  exact h

theorem undeclared_rewound {s : State} {p : Nat} {sn : Snap} {c : Nat} (h : (getCore s c).undeclared) :
    (getCore (rewound s p sn) c).undeclared :=
  (keepsPhase_testCores (modPart s p (Part.rewind sn s.time)) p).undeclared h

theorem undeclared_discarded {s : State} {p : Nat} {sn : Snap} {c : Nat} (hc : c ∈ partCores s p) :
    (getCore (discarded s p sn) c).undeclared := by
  refine undeclared_rewound ((keepsPhase_rampUp _ p).undeclared ((foldl_discardCore p sn _ s).2 c (.inr ?_)))
  obtain ⟨i, hi, rfl⟩ := List.mem_iff_getElem.mp hc
  exact ⟨i, List.mem_range.mpr hi, (List.getD_eq_getElem _ _ hi).symm⟩

theorem execPhCtlDiscard_none {part : Fin 256} {s : State} (h : (getPart s part).snap = none) :
    execPhCtlDiscard part s = .next s := by
  simp only [execPhCtlDiscard, h]

theorem execPhCtlDiscard_some {part : Fin 256} {s : State} {sn : Snap} (hsn : (getPart s part).snap = some sn) :
    execPhCtlDiscard part s =
      if (getPart s part).st ≠ .compute ∨ ¬ (getPart s part).idem = true ∨ ¬ snapReadable s part sn = true then .next s
      else .next (if (getPart (discarded s part sn) part).hold = true then toHold (discarded s part sn) part .compute
        else discarded s part sn) := by
  simp only [execPhCtlDiscard, hsn]
  rfl

/-! ## HELD (R359) -/

/-- No clause of the core is in flight, none is held back, and no long-latency instruction is outstanding. -/
theorem Core.settled_iff (x : Core) : x.settled = true ↔ ∀ g < x.ngroups,
    (x.group g).c0 = none ∧ (x.group g).c1 = none ∧ (x.group g).released = [] ∧ (x.group g).out = [] := by
  simp [Core.settled, Group.inFlight, and_assoc]

theorem settleFailure_of_none {s : State} {p : Nat} (h : (getPart s p).failed = none) : settleFailure s p = s := by
  simp only [settleFailure, failDue, h]

/-! ## The straggler timer (R201) -/

theorem stragRuns_iff (x : Part) : stragRuns x = true ↔ x.launch ≠ none ∧ x.stragLimit ≠ 0 ∧ x.stragPosted = false ∧
    (x.st = .compute ∨ x.st = .flipX ∨ x.st = .exchange ∨ x.st = .flipC ∨ x.st = .final) := by
  simp [stragRuns, Option.isSome_iff_ne_none, and_assoc, or_assoc]

theorem stragLimit_kept (v : Word) : v &&& 0xFFFFFFFFFF = BitVec.ofNat 64 (v.toNat % 2 ^ 40) := by
  refine BitVec.eq_of_toNat_eq ?_
  rw [BitVec.toNat_and, show (0xFFFFFFFFFF : BitVec 64).toNat = 2 ^ 40 - 1 from rfl, Nat.and_two_pow_sub_one_eq_mod]
  simp only [BitVec.toNat_ofNat]
  omega

theorem execPhCtlHold_of_holding {part : Fin 256} {s : State} {r : PhState} (hr : (getPart s part).holding = some r) :
    execPhCtlHold part false s = .next (modPart s part fun y => { y with hold := false, st := r, holding := none }) := by
  simp only [execPhCtlHold, getPart_modPart_self, hr, modPart_modPart, Bool.false_eq_true, if_false]
  rfl

theorem execPhCtlHold_of_held {part : Fin 256} {s : State} (hr : (getPart s part).holding = none)
    (h : (getPart s part).st = .held ∧ (getPart s part).busy = none ∧ (getPart s part).evicted = false) :
    execPhCtlHold part false s = .next (modPart s part fun y =>
      { y with hold := false, st := (getPart s part).resume, stragAt := s.time - y.stragAt }) := by
  obtain ⟨hst, hbusy, hev⟩ := h
  simp only [execPhCtlHold, getPart_modPart_self, hr, Bool.false_eq_true, if_false, resumeHeld, modPart_modPart]
  refine congrArg Host.Outcome.next ((if_pos ⟨hst, by simp, by simp [hbusy], by simp [hev]⟩).trans (modPart_congr ?_))
  simp [Function.comp, hr]

theorem execPhCtlHold_of_running {part : Fin 256} {s : State} (hr : (getPart s part).holding = none)
    (hst : (getPart s part).st ≠ .held) :
    execPhCtlHold part false s = .next (modPart s part fun y => { y with hold := false }) := by
  simp only [execPhCtlHold, getPart_modPart_self, hr, Bool.false_eq_true, if_false, resumeHeld]
  exact congrArg Host.Outcome.next (if_neg fun h => hst h.1)

/-- A discarded superstep, with HOLD looked at (R372). -/
theorem discarded_clause {s : State} {p : Nat} {sn : Snap} (hst : (getPart s p).st = .compute) (hev : (getPart s p).evicted = false) :
    let t := if (getPart (discarded s p sn) p).hold = true then toHold (discarded s p sn) p .compute else discarded s p sn
    (getPart t p).phase = (getPart s p).phase ∧ (getPart t p).stragAt = t.time ∧ (getPart t p).stragPosted = false ∧
      (getPart t p).resw = sn.resw ∧ (getPart t p).st = .compute ∧
      (getPart t p).holding = (if (getPart s p).hold = true then some .compute else (getPart s p).holding) ∧
      ∀ c ∈ (getPart s p).lmap, (getCore t c).undeclared := by
  have hx := getPart_discarded s p sn
  have hcore : ∀ c ∈ (getPart s p).lmap, (getCore (discarded s p sn) c).undeclared := fun c hc =>
    undeclared_discarded (by rwa [partCores_of_lmap hev])
  generalize discarded s p sn = t at hx hcore ⊢
  by_cases hhold : (getPart s p).hold = true
  · have hpart : getPart (toHold t p .compute) p =
        { (getPart s p).rewind sn t.time with holding := some .compute } := by
      rw [toHold, getPart_modPart_self, hx, if_neg (by simp [Part.rewind, hst])]
    dsimp only
    rw [hx, if_pos (by exact hhold), hpart, if_pos hhold]
    exact ⟨rfl, rfl, rfl, rfl, hst, rfl, hcore⟩
  · dsimp only
    rw [hx, if_neg (by exact hhold), hx, if_neg hhold]
    exact ⟨rfl, rfl, rfl, rfl, hst, rfl, hcore⟩

/-- Settles O32: each event is its equation, and a discard leaves every core of the partition without a declaration. -/
theorem phaseControl : Obligations.PhaseControl := by
  unfold Obligations.PhaseControl
  refine ⟨fun part s => ⟨fun r hr hst hfail hev hset => ?_, rfl, fun r hr hst => ?_, fun hr hst hbusy hev => ?_, fun hr hst => ?_⟩,
    fun part v s => ⟨fun hl hlim hpost hst => ?_, ⟨_, rfl, rfl, fun p hp => ?_, ?_⟩, rfl, fun hl hst => ?_, fun hl => ?_, fun h => ?_,
      fun sn hidem hst hsn hev => ⟨fun hread => ?_, fun hread => ?_⟩⟩⟩
  · have hall : ((partCores s part).all fun c => (getCore s c).settled && (getCore s c).asy.queue.isEmpty) = true := by
      rw [partCores_of_lmap hev, List.all_eq_true]
      intro c hc
      obtain ⟨hq, hg⟩ := hset c hc
      rw [Bool.and_eq_true, Core.settled_iff, List.isEmpty_iff]
      exact ⟨hg, hq⟩
    change execHeldEntry part s = _
    unfold execHeldEntry
    simp only [hr]
    rw [if_pos hall, settleFailure_of_none]
    · rfl
    · rw [getPart_modPart_self]; exact hfail
  · exact execPhCtlHold_of_holding hr
  · exact execPhCtlHold_of_held hr ⟨hst, hbusy, hev⟩
  · exact execPhCtlHold_of_running hr hst
  · have hruns : stragRuns (getPart s part) = true := (stragRuns_iff _).mpr ⟨hl, hlim, hpost, hst⟩
    exact ⟨_, stragEvent { s with time := max s.time ((getPart s part).stragAt + (getPart s part).stragLimit.toNat) } part,
      if_pos hruns, rfl, rfl, rfl, rfl, rfl⟩
  · exact (getPart_modPart _ _ _ _).trans (if_neg hp)
  · rw [writeStrag, getPart_modPart_self, stragLimit_kept]
  · exact congrArg Host.Outcome.next (if_neg (by simpa [Option.isNone_iff_eq_none] using ⟨hl, hst⟩))
  · exact congrArg Host.Outcome.next (if_pos (.inl (by rw [hl]; rfl)))
  · change execPhCtlDiscard part s = _
    cases hsn : (getPart s part).snap with
    | none => exact execPhCtlDiscard_none hsn
    | some sn =>
      rw [execPhCtlDiscard_some hsn]
      obtain h | h | h := h
      · exact if_pos (.inr (.inl (by simp [h])))
      · exact if_pos (.inl h)
      · exact absurd (hsn.symm.trans h) (by simp)
  · exact (execPhCtlDiscard_some hsn).trans (if_pos (.inr (.inr (by simp [hread]))))
  · refine ⟨_, (execPhCtlDiscard_some hsn).trans (if_neg (by simp [hst, hidem, hread])), ?_⟩
    exact discarded_clause hst hev

end Sys2Proof.Machine
end

section
/-!
SUPPORT. Admission (R211): what the records of a die are charged, and when a BOUND record is admitted.
-/
namespace Sys2Proof.Machine

/-! ## Sums of pairs -/

theorem foldl_add_pair {α : Type} (f : α → Nat × Nat) (l : List α) : ∀ a : Nat × Nat,
    l.foldl (fun acc x => (acc.1 + (f x).1, acc.2 + (f x).2)) a = (a.1 + (l.map fun x => (f x).1).sum, a.2 + (l.map fun x => (f x).2).sum) := by
  induction l with
  | nil => exact fun a => rfl
  | cons x r ih =>
    intro a
    rw [List.foldl_cons, ih, List.map_cons, List.sum_cons, List.map_cons, List.sum_cons, Nat.add_assoc, Nat.add_assoc]

/-! ## Charges -/

/-- The charge of a record's strings on a die, by its declaration. -/
def charged (s : State) (d : Nat) (b : Bind) : Nat × Nat := stringCharge s b (bindDecl s d b) (bindStrs s d b)

theorem stringCharge_eq (s : State) (b : Bind) (decl : Nat × Nat) (strs : List Nat) : stringCharge s b decl strs =
    (((strs.flatMap strCores).map fun c => (coreCharge s b c decl.1 decl.2).1).sum,
      ((strs.flatMap strCores).map fun c =>
        min (coreCharge s b c decl.1 decl.2).2 (7 * (coreCharge s b c decl.1 decl.2).1)).sum) := by
  have h := foldl_add_pair (fun c => ((coreCharge s b c decl.1 decl.2).1,
    min (coreCharge s b c decl.1 decl.2).2 (7 * (coreCharge s b c decl.1 decl.2).1))) (strs.flatMap strCores) (0, 0)
  rw [Nat.zero_add, Nat.zero_add] at h
  exact h

/-- The records of a die that are charged already. -/
def holders (s : State) (d : Nat) : Sparse Bind :=
  (getDie s d).binds.filter fun e => decide (e.2.state = .armed) || decide (e.2.state = .running)

theorem dieCharge_eq (s : State) (d : Nat) : dieCharge s d =
    (((holders s d).map fun e => (charged s d e.2).1).sum, ((holders s d).map fun e => (charged s d e.2).2).sum) := by
  have h := foldl_add_pair (fun e : Nat × Bind => charged s d e.2) (holders s d) (0, 0)
  rw [Nat.zero_add, Nat.zero_add] at h
  exact h

theorem fitsDie_iff (s : State) (d : Nat) (c : Nat × Nat) : fitsDie s d c = true ↔
    ((holders s d).map fun e => (charged s d e.2).1).sum + c.1 ≤ 4 * fld (getDie s d).railIlim 16 0 ∧
      ((holders s d).map fun e => (charged s d e.2).2).sum + c.2 ≤ fld (getDie s d).railIlim 63 32 := by
  rw [fitsDie, dieCharge_eq, Bool.and_eq_true, decide_eq_true_eq, decide_eq_true_eq]

/-! ## Dies replaced: what charges never look at -/

theorem readVa_of_dies (s : State) (v : Sparse Die) (d p : Nat) (n : Nat) : ∀ va,
    readVa { s with dies := v } d p va n = readVa s d p va n := by
  induction n with
  | zero => exact fun _ => rfl
  | succ n ih =>
    intro va
    simp only [readVa, ih]
    rfl

theorem readLr_of_dies (s : State) (v : Sparse Die) (d p : Nat) (va : Word) :
    readLr { s with dies := v } d p va = readLr s d p va := by
  rw [readLr, readLr, readVa_of_dies]

theorem bindDecl_of_dies (s : State) (v : Sparse Die) (d : Nat) (b : Bind) :
    bindDecl { s with dies := v } d b = bindDecl s d b := by
  rw [bindDecl, bindDecl, readLr_of_dies]
  rfl

theorem charged_of_dies (s : State) (v : Sparse Die) (d : Nat) (b : Bind) : charged { s with dies := v } d b = charged s d b := by
  rw [charged, charged, bindDecl_of_dies]
  rfl

/-- A BOUND record is charged as it will be once it is ARMED. -/
theorem charged_armed {s : State} {d : Nat} {b : Bind} (h : b.state = .bound) :
    charged s d { b with state := .armed } = charged s d b := by
  have hne : ∀ x, coreCharge s { b with state := .armed } x = coreCharge s b x := fun x => by
    funext p e
    simp [coreCharge, h]
  have hdecl : bindDecl s d { b with state := .armed } = bindDecl s d b := by simp [bindDecl, h]
  have hstrs : bindStrs s d { b with state := .armed } = bindStrs s d b := by simp [bindStrs, h]
  rw [charged, charged, hdecl, hstrs, stringCharge_eq, stringCharge_eq]
  simp only [hne]

/-! ## One BOUND record -/

def Bind.arm (b : Bind) : Bind := { b with state := .armed }

theorem mem_bitList_two_pow (d : Fin 8) (k : Nat) : k ∈ bitList (BitVec.ofNat 16 (2 ^ d.val)) ↔ k = d.val := by
  have key : ∀ d : Fin 8, bitList (BitVec.ofNat 16 (2 ^ d.val)) = [d.val] := by decide
  rw [key d, List.mem_singleton]

theorem mem_bitList_two_pow_add {d e : Fin 8} (h : e ≠ d) (k : Nat) :
    k ∈ bitList (BitVec.ofNat 16 (2 ^ d.val + 2 ^ e.val)) ↔ k = d.val ∨ k = e.val := by
  have key : ∀ d e : Fin 8, e ≠ d → bitList (BitVec.ofNat 16 (2 ^ d.val + 2 ^ e.val)) = [min d.val e.val, max d.val e.val] := by decide
  rw [key d e h, List.mem_pair]
  omega

theorem admitBind_of_bound {s : State} {d i : Nat} {b : Bind} (hb : getBind s d i = b) (hst : b.state = .bound)
    (hc : admitCause s d b = none) : admitBind d s i =
      (let recs := bindsOf s b.part fun x => decide (x = .bound)
       if ((bitList (diesOf s recs ||| BitVec.ofNat 16 (2 ^ d))).all fun e => recs.any fun x => decide (x.1 = e)) = true ∧
         bindsFit s recs = true then
         recs.foldl (fun s x => modBind s x.1 x.2 Bind.arm) s
       else s) := by
  unfold admitBind
  simp only [hb, hst, hc]
  rfl

theorem admitBind_of_cause {s : State} {d i w : Nat} {b : Bind} (hb : getBind s d i = b) (hst : b.state = .bound)
    (hc : admitCause s d b = some w) : admitBind d s i = refuseBind s d i w := by
  unfold admitBind
  simp only [hb, hst, hc]
  rfl

theorem admitBind_of_not_bound {s : State} {d i : Nat} (h : (getBind s d i).state ≠ .bound) : admitBind d s i = s := if_pos h

theorem admitCause_none_iff {s : State} {d : Nat} {b : Bind} : admitCause s d b = none ↔
    b.diemask.toNat < 256 ∧ scrubPending s b.part ((bitList b.strings).map fun n => 32 * d + n) = false := by
  unfold admitCause
  split_ifs with h h' <;> simp_all

theorem bindsFit_single (s : State) (d i : Nat) : bindsFit s [(d, i)] = fitsDie s d (charged s d (getBind s d i)) := by
  simp [bindsFit, charged, List.eraseDups_cons]

theorem bindsFit_pair (s : State) {d e i j : Nat} (h : d ≠ e) : bindsFit s [(d, i), (e, j)] =
    (fitsDie s d (charged s d (getBind s d i)) && fitsDie s e (charged s e (getBind s e j))) := by
  simp [bindsFit, charged, List.eraseDups_cons, h, Ne.symm h]

theorem diesOf_single (s : State) (d i : Nat) : diesOf s [(d, i)] = (getBind s d i).diemask := BitVec.zero_or

theorem diesOf_pair (s : State) (d i e j : Nat) :
    diesOf s [(d, i), (e, j)] = (getBind s d i).diemask ||| (getBind s e j).diemask :=
  congrArg (· ||| (getBind s e j).diemask) (diesOf_single s d i)

/-- A BOUND record that names its own die alone (R211). -/
theorem admitBind_single {s : State} {d : Fin 8} {i : Nat} {b : Bind} (hb : getBind s d i = b) (hst : b.state = .bound)
    (hmask : b.diemask.toNat = 2 ^ d.val) (hscrub : scrubPending s b.part ((bitList b.strings).map fun n => 32 * d.val + n) = false)
    (hrecs : (bindsOf s b.part fun x => decide (x = .bound)) = [(d.val, i)]) :
    admitBind d s i = if fitsDie s d (charged s d b) = true then modBind s d i Bind.arm else s := by
  have hmask' : b.diemask = BitVec.ofNat 16 (2 ^ d.val) := by rw [← hmask, BitVec.ofNat_toNat, BitVec.setWidth_eq]
  have hlt : 2 ^ d.val < 256 := Nat.pow_lt_pow_right (m := d.val) (n := 8) (by decide) d.isLt
  rw [admitBind_of_bound hb hst (admitCause_none_iff.mpr ⟨hmask ▸ hlt, hscrub⟩)]
  have hwant : ((bitList (diesOf s [(d.val, i)] ||| BitVec.ofNat 16 (2 ^ d.val))).all fun e =>
      [(d.val, i)].any fun x => decide (x.1 = e)) = true := by
    rw [List.all_eq_true]
    intro e he
    rw [diesOf_single, hb, hmask', BitVec.or_self, mem_bitList_two_pow] at he
    simp [he]
  dsimp only
  rw [hrecs, hwant, bindsFit_single, hb]
  simp only [true_and, List.foldl_cons, List.foldl_nil]

/-- A BOUND record that names its own die and another (R211). -/
theorem admitBind_pair {s : State} {d e : Fin 8} {i j : Nat} {b c : Bind} {recs : List (Nat × Nat)} (hne : e ≠ d)
    (hb : getBind s d i = b) (hc : getBind s e j = c) (hst : b.state = .bound)
    (hmask : b.diemask.toNat = 2 ^ d.val + 2 ^ e.val) (hmask' : c.diemask = b.diemask)
    (hscrub : scrubPending s b.part ((bitList b.strings).map fun n => 32 * d.val + n) = false)
    (hrecs : (bindsOf s b.part fun x => decide (x = .bound)) = recs)
    (hpair : recs = [(d.val, i), (e.val, j)] ∨ recs = [(e.val, j), (d.val, i)]) :
    admitBind d s i = if fitsDie s d (charged s d b) = true ∧ fitsDie s e (charged s e c) = true then
      recs.foldl (fun s x => modBind s x.1 x.2 Bind.arm) s else s := by
  have hmask'' : b.diemask = BitVec.ofNat 16 (2 ^ d.val + 2 ^ e.val) := by rw [← hmask, BitVec.ofNat_toNat, BitVec.setWidth_eq]
  have hlt : 2 ^ d.val + 2 ^ e.val < 256 := by
    have key : ∀ d e : Fin 8, e ≠ d → 2 ^ d.val + 2 ^ e.val < 256 := by decide
    exact key d e hne
  have hval : d.val ≠ e.val := fun h => hne (Fin.ext h.symm)
  have hor : BitVec.ofNat 16 (2 ^ d.val + 2 ^ e.val) ||| BitVec.ofNat 16 (2 ^ d.val) = BitVec.ofNat 16 (2 ^ d.val + 2 ^ e.val) := by
    have key : ∀ d e : Fin 8, e ≠ d →
        BitVec.ofNat 16 (2 ^ d.val + 2 ^ e.val) ||| BitVec.ofNat 16 (2 ^ d.val) = BitVec.ofNat 16 (2 ^ d.val + 2 ^ e.val) := by decide
    exact key d e hne
  rw [admitBind_of_bound hb hst (admitCause_none_iff.mpr ⟨hmask ▸ hlt, hscrub⟩)]
  have hdies : diesOf s recs = BitVec.ofNat 16 (2 ^ d.val + 2 ^ e.val) := by
    obtain rfl | rfl := hpair <;> rw [diesOf_pair, hb, hc, hmask', hmask'', BitVec.or_self]
  have hfit : bindsFit s recs = (fitsDie s d (charged s d b) && fitsDie s e (charged s e c)) := by
    obtain rfl | rfl := hpair
    · rw [bindsFit_pair s hval, hb, hc]
    · rw [bindsFit_pair s hval.symm, hb, hc, Bool.and_comm]
  have hwant : ((bitList (diesOf s recs ||| BitVec.ofNat 16 (2 ^ d.val))).all fun k => recs.any fun x => decide (x.1 = k)) = true := by
    rw [hdies, hor, List.all_eq_true]
    intro k hk
    rw [mem_bitList_two_pow_add hne] at hk
    obtain rfl | rfl := hpair <;> obtain rfl | rfl := hk <;> simp
  simp only [hrecs, hwant, hfit, Bool.and_eq_true, true_and]

/-! ## The BOUND records of a die, one after another -/

/-- Admission makes no record BOUND. -/
theorem admitBind_not_bound {s : State} {d i : Nat} (h : (getBind s d i).state ≠ .bound) (e k : Nat) :
    (getBind (admitBind e s k) d i).state ≠ .bound := by
  have hmod : ∀ f : Bind → Bind, (f (getBind s e k)).state ≠ .bound → (getBind (modBind s e k f) d i).state ≠ .bound := by
    intro f hf
    rw [getBind_modBind]
    by_cases hx : d = e ∧ i = k
    · obtain ⟨rfl, rfl⟩ := hx
      rwa [if_pos ⟨rfl, rfl⟩]
    · rwa [if_neg hx]
  by_cases hst : (getBind s e k).state = .bound
  · cases hc : admitCause s e (getBind s e k) with
    | some w =>
      rw [admitBind_of_cause rfl hst hc, refuseBind]
      have hdies : (postHost (modBind s e k fun b => { b with state := .refused, status := BitVec.ofNat 32 (w * 256 + 2) })
          (hostEvent s 1 (getBind s e k).part ((BitVec.ofNat 32 (w * 256 + 2)).setWidth 64))).dies =
          (modBind s e k fun b => { b with state := .refused, status := BitVec.ofNat 32 (w * 256 + 2) }).dies := postHost_dies _ _
      rw [getBind_of_dies hdies]
      exact hmod _ nofun
    | none =>
      rw [admitBind_of_bound rfl hst hc]
      dsimp only
      split_ifs
      · rw [getBind_foldl_modBind (f := Bind.arm) fun _ => rfl]
        split_ifs
        · exact nofun
        · exact h
      · exact h
  · rwa [admitBind_of_not_bound hst]

theorem foldl_admitBind_filter (d : Nat) (s : State) (l : List Nat) : ∀ t : State,
    (∀ k, (getBind s d k).state ≠ .bound → (getBind t d k).state ≠ .bound) →
    l.foldl (admitBind d) t = (l.filter fun k => decide ((getBind s d k).state = .bound)).foldl (admitBind d) t := by
  induction l with
  | nil => exact fun _ _ => rfl
  | cons k r ih =>
    intro t ht
    rw [List.foldl_cons]
    by_cases hk : (getBind s d k).state = .bound
    · rw [List.filter_cons_of_pos (by simpa using hk), List.foldl_cons]
      exact ih _ fun i hi => admitBind_not_bound (ht i hi) d k
    · rw [List.filter_cons_of_neg (by simpa using hk), admitBind_of_not_bound (ht k hk)]
      exact ih t ht

/-- The BOUND records of a die. -/
def boundRecs (s : State) (d : Nat) : Sparse Bind := (getDie s d).binds.filter fun x => decide (x.2.state = .bound)

theorem execAdmissionInterval_eq {s : State} {die : Fin 8} (hn : ((getDie s die).binds.map (·.1)).Nodup) :
    execAdmissionInterval die s = .next (((boundRecs s die).map (·.1)).foldl (admitBind die) s) := by
  have hget : ∀ e ∈ (getDie s die).binds, decide ((getBind s die e.1).state = .bound) = decide (e.2.state = .bound) := by
    intro e he
    rw [getBind, spGet_of_mem Bind.zero hn he]
  rw [execAdmissionInterval, foldl_admitBind_filter die s _ s fun _ h => h, List.filter_map, boundRecs]
  simp only [Function.comp_def]
  rw [List.filter_congr hget]

/-! ## The records of a partition among the BOUND ones -/

theorem filter_boundRecs (s : State) (p d : Nat) :
    ((getDie s d).binds.filter fun e => decide (e.2.part = p) && decide (e.2.state = .bound)) =
      (boundRecs s d).filter fun e => decide (e.2.part = p) := by
  rw [boundRecs, List.filter_filter]

theorem bindsOf_bound (s : State) (p : Nat) : (bindsOf s p fun x => decide (x = .bound)) =
    (List.range 8).flatMap fun d => ((boundRecs s d).filter fun e => decide (e.2.part = p)).map fun e => (d, e.1) := by
  simp only [bindsOf, filter_boundRecs]

theorem flatMap_range_single {α : Type} (d : Fin 8) (x : α) : ((List.range 8).flatMap fun k => if k = d.val then [x] else []) = [x] := by
  fin_cases d <;> rfl

theorem flatMap_range_pair {α : Type} {d e : Fin 8} (h : e ≠ d) (x y : α) :
    ((List.range 8).flatMap fun k => if k = d.val then [x] else if k = e.val then [y] else []) = [x, y] ∨
    ((List.range 8).flatMap fun k => if k = d.val then [x] else if k = e.val then [y] else []) = [y, x] := by
  have key : ∀ d e : Fin 8, e ≠ d →
      ((List.range 8).flatMap fun k => if k = d.val then [true] else if k = e.val then [false] else []) = [true, false] ∨
      ((List.range 8).flatMap fun k => if k = d.val then [true] else if k = e.val then [false] else []) = [false, true] := by
    decide
  have hmap : ((List.range 8).flatMap fun k => if k = d.val then [x] else if k = e.val then [y] else []) =
      ((List.range 8).flatMap fun k => if k = d.val then [true] else if k = e.val then [false] else []).map (bif · then x else y) := by
    rw [List.map_flatMap]
    refine List.flatMap_congr fun k _ => ?_
    split_ifs <;> rfl
  rw [hmap]
  obtain h | h := key d e h <;> simp [h]

/-- One die alone holds a BOUND record of a partition. -/
theorem bindsOf_bound_single {s : State} {d : Fin 8} {i p : Nat} {b : Bind}
    (hd : ((boundRecs s d).filter fun e => decide (e.2.part = p)) = [(i, b)])
    (hk : ∀ k < 8, k ≠ d.val → ∀ x ∈ boundRecs s k, x.2.part ≠ p) :
    (bindsOf s p fun x => decide (x = .bound)) = [(d.val, i)] := by
  rw [bindsOf_bound, ← flatMap_range_single d (d.val, i)]
  refine List.flatMap_congr fun k hlt => ?_
  by_cases h : k = d.val
  · rw [if_pos h, h, hd]; rfl
  · rw [if_neg h, List.filter_eq_nil_iff.mpr, List.map_nil]
    exact fun x hx => by simpa using hk k (List.mem_range.mp hlt) h x hx

/-- Two dies alone hold BOUND records of a partition. -/
theorem bindsOf_bound_pair {s : State} {d e : Fin 8} {i j p : Nat} {b c : Bind} (hne : e ≠ d)
    (hd : ((boundRecs s d).filter fun e => decide (e.2.part = p)) = [(i, b)])
    (he : ((boundRecs s e).filter fun e => decide (e.2.part = p)) = [(j, c)])
    (hk : ∀ k < 8, k ≠ d.val → k ≠ e.val → ∀ x ∈ boundRecs s k, x.2.part ≠ p) :
    (bindsOf s p fun x => decide (x = .bound)) = [(d.val, i), (e.val, j)] ∨
    (bindsOf s p fun x => decide (x = .bound)) = [(e.val, j), (d.val, i)] := by
  have hval : e.val ≠ d.val := fun h => hne (Fin.ext h)
  have h : (bindsOf s p fun x => decide (x = .bound)) = (List.range 8).flatMap fun k =>
      if k = d.val then [(d.val, i)] else if k = e.val then [(e.val, j)] else [] := by
    rw [bindsOf_bound]
    refine List.flatMap_congr fun k hlt => ?_
    by_cases h : k = d.val
    · rw [if_pos h, h, hd]; rfl
    · by_cases h' : k = e.val
      · rw [if_neg h, if_pos h', h', he]; rfl
      · rw [if_neg h, if_neg h', List.filter_eq_nil_iff.mpr, List.map_nil]
        exact fun x hx => by simpa using hk k (List.mem_range.mp hlt) h h' x hx
  rw [h]
  exact flatMap_range_pair hne _ _

/-! ## A record ARMED among the others -/

/-- A list of records with the one in slot `i` ARMED. -/
def armAt (i : Nat) (e : Nat × Bind) : Nat × Bind := if e.1 = i then (e.1, e.2.arm) else e

theorem armAt_of_ne {i : Nat} {e : Nat × Bind} (h : e.1 ≠ i) : armAt i e = e := if_neg h

theorem map_armAt_of_forall {i : Nat} {l : Sparse Bind} (h : ∀ e ∈ l, e.1 ≠ i) : l.map (armAt i) = l := by
  conv_rhs => rw [← List.map_id l]
  exact List.map_congr_left fun e he => armAt_of_ne (h e he)

theorem spSet_arm {l : Sparse Bind} {i : Nat} {b : Bind} : ∀ lo, spWf Bind.zero lo l = true → (i, b) ∈ l →
    spSet l i b.arm = l.map (armAt i) := by
  induction l with
  | nil => exact fun _ _ h => absurd h List.not_mem_nil
  | cons x r ih =>
    obtain ⟨k, v⟩ := x
    intro lo hw hm
    rw [spWf, Bool.and_eq_true, Bool.and_eq_true] at hw
    obtain ⟨-, hr⟩ := hw
    obtain h | h := List.mem_cons.mp hm
    · obtain ⟨rfl, rfl⟩ := Prod.mk.inj h
      have hne : ∀ e ∈ r, e.1 ≠ i := fun e he => by
        have := spWf_mem_ge Bind.zero r _ hr e he
        omega
      rw [spSet, if_neg (lt_irrefl i), if_pos rfl, List.map_cons, map_armAt_of_forall hne, armAt, if_pos rfl]
    · have hk : k < i := by
        have := spWf_mem_ge Bind.zero r _ hr _ h
        omega
      rw [spSet, if_neg (by omega), if_neg (by omega), ih _ hr h, List.map_cons, armAt_of_ne (by exact hk.ne)]

theorem keys_nodup {l : Sparse Bind} : ∀ lo, spWf Bind.zero lo l = true → (l.map (·.1)).Nodup := by
  induction l with
  | nil => exact fun _ _ => List.nodup_nil
  | cons x r ih =>
    intro lo hw
    rw [spWf, Bool.and_eq_true, Bool.and_eq_true] at hw
    obtain ⟨-, hr⟩ := hw
    rw [List.map_cons, List.nodup_cons]
    refine ⟨fun h => ?_, ih _ hr⟩
    obtain ⟨e, he, heq⟩ := List.mem_map.mp h
    have := spWf_mem_ge Bind.zero r _ hr e he
    omega

/-- The records of a die once the one in slot `i` is ARMED. -/
theorem binds_arm {s : State} {d i : Nat} {b : Bind} (hw : spWf Bind.zero 0 (getDie s d).binds = true)
    (hm : (i, b) ∈ (getDie s d).binds) : (getDie (modBind s d i Bind.arm) d).binds = (getDie s d).binds.map (armAt i) := by
  have hget : spGet Bind.zero (getDie s d).binds i = b := spGet_of_mem _ (keys_nodup 0 hw) hm
  have hne : b.arm ≠ Bind.zero := fun h => by cases (congrArg Bind.state h :)
  rw [modBind, getDie_modDie_self, hget, spPut, if_neg hne]
  exact spSet_arm 0 hw hm

theorem modBind_rest (s : State) (d i : Nat) (f : Bind → Bind) : ∃ v, modBind s d i f = { s with dies := v } := ⟨_, rfl⟩

theorem charged_modBind (s : State) (d i : Nat) (f : Bind → Bind) (k : Nat) (b : Bind) :
    charged (modBind s d i f) k b = charged s k b := charged_of_dies s _ k b

/-- What the ARMED and RUNNING records are charged, once a BOUND record joins them. -/
theorem sum_armed {l : Sparse Bind} {i : Nat} {b : Bind} (hn : (l.map (·.1)).Nodup) (hm : (i, b) ∈ l) (hb : b.state = .bound)
    {f : Bind → Nat} (hf : f b.arm = f b) :
    (((l.map (armAt i)).filter fun e => decide (e.2.state = .armed) || decide (e.2.state = .running)).map fun e => f e.2).sum =
      ((l.filter fun e => decide (e.2.state = .armed) || decide (e.2.state = .running)).map fun e => f e.2).sum + f b := by
  induction l with
  | nil => exact absurd hm List.not_mem_nil
  | cons x r ih =>
    rw [List.map_cons, List.nodup_cons] at hn
    obtain ⟨hx, hr⟩ := hn
    obtain h | h := List.mem_cons.mp hm
    · subst h
      have hne : ∀ e ∈ r, e.1 ≠ i := fun e he h => hx (List.mem_map.mpr ⟨e, he, h⟩)
      rw [List.map_cons, map_armAt_of_forall hne, armAt, if_pos rfl, List.filter_cons_of_pos (by simp [Bind.arm]),
        List.filter_cons_of_neg (by simp [hb]), List.map_cons, List.sum_cons, hf, Nat.add_comm]
    · have hne : x.1 ≠ i := fun h' => hx (List.mem_map.mpr ⟨(i, b), h, h'.symm⟩)
      rw [List.map_cons, armAt_of_ne hne]
      by_cases hq : (decide (x.2.state = .armed) || decide (x.2.state = .running)) = true
      · rw [List.filter_cons_of_pos (by exact hq), List.filter_cons_of_pos (by exact hq), List.map_cons, List.map_cons, List.sum_cons, List.sum_cons,
          ih hr h, Nat.add_assoc]
      · rw [List.filter_cons_of_neg (by exact hq), List.filter_cons_of_neg (by exact hq), ih hr h]

theorem boundRecs_arm {s : State} {d i : Nat} {b : Bind} (hw : spWf Bind.zero 0 (getDie s d).binds = true)
    (hm : (i, b) ∈ (getDie s d).binds) :
    boundRecs (modBind s d i Bind.arm) d = (boundRecs s d).filter fun e => decide (e.1 ≠ i) := by
  rw [boundRecs, binds_arm hw hm, List.filter_map, boundRecs, List.filter_filter]
  have hq : ∀ e : Nat × Bind, ((fun x : Nat × Bind => decide (x.2.state = .bound)) ∘ armAt i) e =
      (decide (e.1 ≠ i) && decide (e.2.state = .bound)) := by
    intro e
    by_cases he : e.1 = i
    · simp [armAt, he, Bind.arm]
    · simp [armAt, he]
  rw [List.filter_congr fun e _ => hq e]
  refine map_armAt_of_forall fun e he => ?_
  simp only [List.mem_filter, Bool.and_eq_true, decide_eq_true_eq] at he
  exact he.2.1

theorem boundRecs_modBind_ne (s : State) {d k : Nat} (i : Nat) (f : Bind → Bind) (h : k ≠ d) :
    boundRecs (modBind s d i f) k = boundRecs s k := by
  rw [boundRecs, modBind, getDie_modDie, if_neg h]
  rfl

theorem getDie_modBind_railIlim (s : State) (d i : Nat) (f : Bind → Bind) (k : Nat) :
    (getDie (modBind s d i f) k).railIlim = (getDie s k).railIlim := by
  rw [modBind, getDie_modDie]
  split_ifs with h
  · rw [h]
  · rfl

/-- A further charge on a die, once a BOUND record is ARMED, is a charge beside that record's. -/
theorem fitsDie_arm {s : State} {d i : Nat} {b : Bind} (hw : spWf Bind.zero 0 (getDie s d).binds = true)
    (hm : (i, b) ∈ (getDie s d).binds) (hb : b.state = .bound) (c : Nat × Nat) :
    fitsDie (modBind s d i Bind.arm) d c = fitsDie s d ((charged s d b).1 + c.1, (charged s d b).2 + c.2) := by
  have harm : charged s d b.arm = charged s d b := charged_armed hb
  have h1 := sum_armed (keys_nodup 0 hw) hm hb (f := fun x => (charged s d x).1) (congrArg Prod.fst harm)
  have h2 := sum_armed (keys_nodup 0 hw) hm hb (f := fun x => (charged s d x).2) (congrArg Prod.snd harm)
  rw [Bool.eq_iff_iff, fitsDie_iff, fitsDie_iff]
  simp only [holders, binds_arm hw hm, charged_modBind, getDie_modBind_railIlim]
  rw [h1, h2, Nat.add_assoc, Nat.add_assoc]

theorem scrubPending_modBind (s : State) (d i : Nat) (f : Bind → Bind) (p : Nat) (strs : List Nat) :
    scrubPending (modBind s d i f) p strs = scrubPending s p strs := rfl

end Sys2Proof.Machine
end

section
/-!
PROOF. Bind record writes and admission (R209 to R211).
-/
namespace Sys2Proof.Machine

/-! ## Writes to a record (R209, R210) -/

theorem modBind_congr {s : State} {d i : Nat} {f g : Bind → Bind} (h : f (getBind s d i) = g (getBind s d i)) :
    modBind s d i f = modBind s d i g := by
  have h' : f (spGet Bind.zero (getDie s d).binds i) = g (spGet Bind.zero (getDie s d).binds i) := h
  rw [modBind, modBind]
  exact modDie_congr (by rw [h'])

theorem writeBind_of_held {s : State} {d i : Nat} {r : BindWrite} {host : Bool}
    (h : (getBind s d i).state = .armed ∨ (getBind s d i).state = .running ∨ (getBind s d i).state = .scrub) :
    writeBind s d i r host = s := if_pos (by tauto)

theorem writeBind_of_open {s : State} {d i : Nat} {r : BindWrite} {host : Bool}
    (h : ¬ ((getBind s d i).state = .armed ∨ (getBind s d i).state = .running ∨ (getBind s d i).state = .scrub))
    (hp : bit s.gran.present d = true) (hbl : bindsBlocked s = false) : writeBind s d i r host =
      if r.state = 1 ∧ ((getBind s d i).state = .free ∨ (getBind s d i).state = .bound) then
        modBind s d i fun b =>
          { b with lrVa := r.lrVa, strings := r.strings, part := r.part, diemask := r.diemask, state := .bound, host := host }
      else if r.state = 0 then
        modBind s d i fun b =>
          { b with lrVa := r.lrVa, strings := r.strings, part := r.part, diemask := r.diemask, state := .free }
      else s := if_neg (by simp only [hp, hbl]; tauto)

theorem bindRecordWrite_clause (die : Fin 8) (slot : Fin 32) (r : BindWrite) (s : State) :
    let b := getBind s die slot
    let stored := fun (state : BindState) (host : Bool) => modBind s die slot fun b =>
      { b with lrVa := r.lrVa, strings := r.strings, part := r.part, state := state, diemask := r.diemask, host := host }
    bit s.gran.present die = true → bindsBlocked s = false →
    (b.state = .armed ∨ b.state = .running ∨ b.state = .scrub → exec (.bindRecordWrite die slot r) s = .next s) ∧
    (b.state = .free ∨ b.state = .bound → r.state = 1 →
      exec (.bindRecordWrite die slot r) s = .next (stored .bound false)) ∧
    (b.state = .free ∨ b.state = .bound ∨ b.state = .done ∨ b.state = .refused → r.state = 0 →
      exec (.bindRecordWrite die slot r) s = .next (stored .free b.host)) ∧
    (r.state ≠ 0 → r.state ≠ 1 → exec (.bindRecordWrite die slot r) s = .next s) := by
  intro b stored hp hbl
  have hexec : exec (.bindRecordWrite die slot r) s = .next (writeBind s die slot r false) := rfl
  rw [hexec]
  refine ⟨fun h => ?_, fun h hr => ?_, fun h hr => ?_, fun h0 h1 => ?_⟩
  · rw [writeBind_of_held h]
  · rw [writeBind_of_open (by obtain h | h := h <;> simp [b, h]) hp hbl, if_pos ⟨hr, h⟩]
  · rw [writeBind_of_open (by obtain h | h | h | h := h <;> simp [b, h]) hp hbl, if_neg (by simp [hr]), if_pos hr]
    exact congrArg Host.Outcome.next (modBind_congr rfl)
  · by_cases h : b.state = .armed ∨ b.state = .running ∨ b.state = .scrub
    · rw [writeBind_of_held h]
    · rw [writeBind_of_open h hp hbl, if_neg (fun h => h1 h.1), if_neg h0]

/-! ## What the statement charges -/

/-- The charge of a record's strings by a declaration, each core of a running task at its own (R211). -/
def chargeBy (s : State) (d : Nat) (x : Bind) (decl : Nat × Nat) : Nat × Nat :=
  let strs :=
    if x.state = .running then
      (getPart s x.part).strings.filter fun n => decide ((getStr s n).part = some x.part) && decide (n / 32 = d)
    else (bitList x.strings).map fun n => 32 * d + n
  let cs := strs.flatMap strCores
  let own := fun (k : Nat) => x.state = .running ∧ (getCore s k).part = some x.part ∧ (getCore s k).ballast = false
  let peak := fun (k : Nat) => if own k then (getCore s k).peak else decl.1
  ((cs.map peak).sum, (cs.map fun k => min (if own k then (getCore s k).energy else decl.2) (7 * peak k)).sum)

theorem bindStrs_eq (s : State) (d : Nat) (x : Bind) : bindStrs s d x = if x.state = .running then
      (getPart s x.part).strings.filter fun n => decide ((getStr s n).part = some x.part) && decide (n / 32 = d)
    else (bitList x.strings).map fun n => 32 * d + n := by
  unfold bindStrs boundStrings
  split_ifs
  · rw [List.filter_filter]
    exact List.filter_congr fun n _ => Bool.and_comm _ _
  · rfl

theorem charged_eq_chargeBy (s : State) (d : Nat) (x : Bind) : charged s d x = chargeBy s d x (bindDecl s d x) := by
  have hcore : ∀ k, coreCharge s x k (bindDecl s d x).1 (bindDecl s d x).2 =
      (if x.state = .running ∧ (getCore s k).part = some x.part ∧ (getCore s k).ballast = false then (getCore s k).peak
        else (bindDecl s d x).1,
       if x.state = .running ∧ (getCore s k).part = some x.part ∧ (getCore s k).ballast = false then (getCore s k).energy
        else (bindDecl s d x).2) := by
    intro k
    unfold coreCharge
    simp only [Bool.not_eq_true]
    split_ifs <;> rfl
  rw [charged, stringCharge_eq, bindStrs_eq]
  simp only [hcore, chargeBy]

theorem bindDecl_of_running {s : State} {d : Nat} {x : Bind} {l : Launch} (h : x.state = .running)
    (hl : (getPart s x.part).launch = some l) : bindDecl s d x = (l.peak, l.energy) := by
  simp only [bindDecl, if_pos h, hl]

theorem bindDecl_of_record {s : State} {d : Nat} {x : Bind} {r : LrRaw} (h : x.state ≠ .running)
    (hr : readLr s d x.part x.lrVa = some r) : bindDecl s d x = (r.peak, r.energy) := by
  simp only [bindDecl, if_neg h, hr]
  rfl

theorem length_flatMap_strCores (l : List Nat) : (l.flatMap strCores).length = 4 * l.length := by
  induction l with
  | nil => rfl
  | cons n r ih =>
    rw [List.flatMap_cons, List.length_append, ih, List.length_cons]
    simp only [strCores, List.length_cons, List.length_nil]
    omega

/-- A record of no running task is charged its declaration for each core. -/
theorem chargeBy_of_record (s : State) (d : Nat) {x : Bind} (h : x.state ≠ .running) (decl : Nat × Nat) : chargeBy s d x decl =
    (4 * ((bitList x.strings).map fun n => 32 * d + n).length * decl.1,
      4 * ((bitList x.strings).map fun n => 32 * d + n).length * min decl.2 (7 * decl.1)) := by
  unfold chargeBy
  simp only [h, if_false, false_and, List.map_const', List.sum_replicate, length_flatMap_strCores, smul_eq_mul]

/-- The declarations of a die's records are those that the charges take. -/
theorem charged_of_decl {s : State} {d : Nat} {x : Bind} {decl : Nat × Nat}
    (h : if x.state = .running then ∃ l, (getPart s x.part).launch = some l ∧ decl = (l.peak, l.energy)
      else x.state = .armed ∨ x.state = .bound → ∃ r, readLr s d x.part x.lrVa = some r ∧ decl = (r.peak, r.energy))
    (hst : x.state = .running ∨ x.state = .armed ∨ x.state = .bound) : charged s d x = chargeBy s d x decl := by
  rw [charged_eq_chargeBy]
  by_cases hr : x.state = .running
  · rw [if_pos hr] at h
    obtain ⟨l, hl, rfl⟩ := h
    rw [bindDecl_of_running hr hl]
  · rw [if_neg hr] at h
    obtain ⟨r, hl, rfl⟩ := h (hst.resolve_left hr)
    rw [bindDecl_of_record hr hl]

theorem fits_iff {s : State} {d : Nat} {used : Nat × Bind → Nat × Nat} (new : List (Nat × Nat))
    (h : ∀ x ∈ (getDie s d).binds, x.2.state = .armed ∨ x.2.state = .running → charged s d x.2 = used x) :
    (((((getDie s d).binds.filter fun x => x.2.state = .armed ∨ x.2.state = .running).map used ++ new).map (·.1)).sum ≤
        4 * fld (getDie s d).railIlim 16 0 ∧
      ((((getDie s d).binds.filter fun x => x.2.state = .armed ∨ x.2.state = .running).map used ++ new).map (·.2)).sum ≤
        fld (getDie s d).railIlim 63 32) ↔ fitsDie s d ((new.map (·.1)).sum, (new.map (·.2)).sum) = true := by
  have hfilter : ((getDie s d).binds.filter fun x => decide (x.2.state = .armed ∨ x.2.state = .running)) = holders s d :=
    List.filter_congr fun x _ => by simp
  have hused : (holders s d).map used = (holders s d).map fun x => charged s d x.2 := by
    refine List.map_congr_left fun x hx => (h x (List.mem_of_mem_filter hx) ?_).symm
    simpa using (List.mem_filter.mp hx).2
  rw [fitsDie_iff, hfilter, hused]
  simp only [List.map_append, List.map_map, List.sum_append, Function.comp_def]

/-! ## A die with one record -/

theorem modBind_singleton {s : State} {d i : Nat} {b : Bind} (hd : (getDie s d).binds = [(i, b)]) {f : Bind → Bind}
    (hf : f b ≠ Bind.zero) : modBind s d i f = modDie s d fun y => { y with binds := [(i, f b)] } := by
  refine modDie_congr ?_
  rw [hd]
  simp [spGet, spPut, spSet, hf]

theorem admission_one_clause (die : Fin 8) (i : Nat) (b : Bind) (r : LrRaw) (s : State) :
    let d := getDie s die
    d.binds = [(i, b)] → b.state = .bound → (∀ k < 8, k ≠ die.val → (getDie s k).binds = []) →
    readLr s die b.part b.lrVa = some r →
    let strs := (bitList b.strings).map fun n => 32 * die.val + n
    let fits := 4 * strs.length * r.peak ≤ 4 * fld d.railIlim 16 0 ∧
      4 * strs.length * min r.energy (7 * r.peak) ≤ fld d.railIlim 63 32
    let becomes := fun (x : Bind) => modDie s die fun y => { y with binds := [(i, x)] }
    let refused := fun (w : Nat) => postHost (becomes { b with state := .refused, status := BitVec.ofNat 32 w })
      (hostEvent s 1 b.part (wd w))
    (256 ≤ b.diemask.toNat → exec (.admissionInterval die) s = .next (refused 0x1002)) ∧
    (b.diemask.toNat < 256 → scrubPending s b.part strs = true →
      exec (.admissionInterval die) s = .next (refused 0x0C02)) ∧
    (b.diemask.toNat = 2 ^ die.val → scrubPending s b.part strs = false →
      (fits → exec (.admissionInterval die) s = .next (becomes { b with state := .armed })) ∧
      (¬ fits → exec (.admissionInterval die) s = .next s)) := by
  intro d hd hst hk hr strs fits becomes refused
  have hget : getBind s die i = b := by
    rw [getBind, show (getDie s die).binds = [(i, b)] from hd]
    exact if_pos rfl
  have hbound : boundRecs s die = [(i, b)] := by
    rw [boundRecs, show (getDie s die).binds = [(i, b)] from hd]
    simp [hst]
  have hexec : exec (.admissionInterval die) s = .next (admitBind die s i) := by
    refine (execAdmissionInterval_eq ?_).trans ?_
    · rw [show (getDie s die).binds = [(i, b)] from hd]; simp
    · rw [hbound]; rfl
  have hrefuse : ∀ w : Nat, ∀ c, BitVec.ofNat 32 (c * 256 + 2) = BitVec.ofNat 32 w →
      (BitVec.ofNat 32 (c * 256 + 2)).setWidth 64 = wd w → refuseBind s die i c = refused w := by
    intro w c h32 h64
    rw [refuseBind, h64, h32, hget, modBind_singleton hd]
    intro h
    cases (congrArg Bind.state h :)
  rw [hexec]
  refine ⟨fun hmask => ?_, fun hmask hscrub => ?_, fun hmask hscrub => ?_⟩
  · rw [admitBind_of_cause hget hst (if_pos hmask), hrefuse 0x1002 _ rfl rfl]
  · rw [admitBind_of_cause hget hst ((if_neg (not_le.mpr hmask)).trans (if_pos hscrub)), hrefuse 0x0C02 _ rfl rfl]
  · have hrecs : (bindsOf s b.part fun x => decide (x = .bound)) = [(die.val, i)] := by
      refine bindsOf_bound_single (b := b) (by rw [hbound]; simp) fun k hlt hne x hx => ?_
      rw [boundRecs, hk k hlt hne] at hx
      exact absurd hx List.not_mem_nil
    have hfits : fitsDie s die (charged s die b) = true ↔ fits := by
      rw [fitsDie_iff, holders, show (getDie s die).binds = [(i, b)] from hd, charged_eq_chargeBy,
        bindDecl_of_record (by rw [hst]; decide) hr, chargeBy_of_record _ _ (by rw [hst]; decide)]
      simp [hst, fits, strs, d]
    rw [admitBind_single hget hst hmask hscrub hrecs]
    refine ⟨fun h => ?_, fun h => ?_⟩
    · rw [if_pos (hfits.mpr h), modBind_singleton hd]
      · rfl
      · intro h
        cases (congrArg Bind.state h :)
    · rw [if_neg (mt hfits.mp h)]

/-! ## A die with several records -/

theorem mem_of_boundRecs {s : State} {d i : Nat} {b : Bind} (h : (i, b) ∈ boundRecs s d) :
    (i, b) ∈ (getDie s d).binds ∧ b.state = .bound := by
  rw [boundRecs, List.mem_filter, decide_eq_true_eq] at h
  exact h

theorem getBind_of_boundRecs {s : State} {d i : Nat} {b : Bind} (hw : spWf Bind.zero 0 (getDie s d).binds = true)
    (h : (i, b) ∈ boundRecs s d) : getBind s d i = b :=
  spGet_of_mem Bind.zero (keys_nodup 0 hw) (mem_of_boundRecs h).1

/-- Of two BOUND records of a die, the second is tested beside the first where that one was admitted (R211). -/
theorem admit_second {s : State} {die : Fin 8} {i j : Nat} {b c : Bind} (hw : spWf Bind.zero 0 (getDie s die).binds = true)
    (hbound : boundRecs s die = [(i, b), (j, c)]) (hmask : c.diemask.toNat = 2 ^ die.val)
    (hscrub : scrubPending s c.part ((bitList c.strings).map fun n => 32 * die.val + n) = false) (hpart : b.part ≠ c.part)
    (hk : ∀ d < 8, d ≠ die.val → ∀ x ∈ boundRecs s d, x.2.part ≠ c.part) :
    admitBind die (modBind s die i Bind.arm) j =
      if fitsDie s die ((charged s die b).1 + (charged s die c).1, (charged s die b).2 + (charged s die c).2) = true then
        modBind (modBind s die i Bind.arm) die j Bind.arm
      else modBind s die i Bind.arm := by
  have hb := mem_of_boundRecs (s := s) (d := die) (i := i) (b := b) (by rw [hbound]; simp)
  have hc := mem_of_boundRecs (s := s) (d := die) (i := j) (b := c) (by rw [hbound]; simp)
  have hij : j ≠ i := by
    rintro rfl
    exact hpart (congrArg Bind.part ((spGet_of_mem Bind.zero (keys_nodup 0 hw) hb.1).symm.trans
      (spGet_of_mem Bind.zero (keys_nodup 0 hw) hc.1)))
  have hget : getBind (modBind s die i Bind.arm) die j = c := by
    rw [getBind_modBind, if_neg fun h => hij h.2]
    exact spGet_of_mem Bind.zero (keys_nodup 0 hw) hc.1
  have hbound' : boundRecs (modBind s die i Bind.arm) die = [(j, c)] := by
    rw [boundRecs_arm hw hb.1, hbound]
    simp [hij]
  have hrecs := bindsOf_bound_single (s := modBind s die i Bind.arm) (d := die) (p := c.part) (i := j) (b := c)
    (by rw [hbound']; simp) fun k hlt hne x hx => hk k hlt hne x (by rwa [boundRecs_modBind_ne s i _ hne] at hx)
  rw [admitBind_single hget hc.2 hmask hscrub hrecs, charged_modBind, fitsDie_arm hw hb.1 hb.2]

/-- Two records ARMED together, in either order. -/
theorem armed_pair {s : State} {d e : Fin 8} {i j : Nat} {recs : List (Nat × Nat)} (hne : e ≠ d)
    (h : recs = [(d.val, i), (e.val, j)] ∨ recs = [(e.val, j), (d.val, i)]) :
    let t := recs.foldl (fun s x => modBind s x.1 x.2 Bind.arm) s
    (∀ k, k ≠ d.val → k ≠ e.val → getDie t k = getDie s k) ∧ { t with dies := s.dies } = s ∧
      getDie t d = getDie (modBind s d i Bind.arm) d ∧ getDie t e = getDie (modBind s e j Bind.arm) e := by
  have hval : d.val ≠ e.val := fun h => hne (Fin.ext h.symm)
  obtain rfl | rfl := h
  · refine ⟨fun k hd he => ?_, rfl, ?_, ?_⟩ <;>
      simp [modBind, getDie_modDie, hval.symm, *]
  · refine ⟨fun k hd he => ?_, rfl, ?_, ?_⟩ <;>
      simp [modBind, getDie_modDie, hval.symm, *]

theorem admission_many_clause (die other : Fin 8) (i j : Nat) (b c : Bind) (decl : Nat → Bind → Nat × Nat) (s : State) :
    let listed := fun (d : Nat) => (getDie s d).binds
    let strsOn := fun (d : Nat) (x : Bind) =>
      if x.state = .running then
        (getPart s x.part).strings.filter fun n => decide ((getStr s n).part = some x.part) && decide (n / 32 = d)
      else (bitList x.strings).map fun n => 32 * d + n
    let charge := fun (d : Nat) (x : Bind) =>
      let cs := (strsOn d x).flatMap strCores
      let own := fun (k : Nat) => x.state = .running ∧ (getCore s k).part = some x.part ∧ (getCore s k).ballast = false
      let peak := fun (k : Nat) => if own k then (getCore s k).peak else (decl d x).1
      ((cs.map peak).sum, (cs.map fun k => min (if own k then (getCore s k).energy else (decl d x).2) (7 * peak k)).sum)
    let used := fun (d : Nat) => ((listed d).filter fun x => x.2.state = .armed ∨ x.2.state = .running).map fun x => charge d x.2
    let fits := fun (d : Nat) (new : List (Nat × Nat)) =>
      ((used d ++ new).map (·.1)).sum ≤ 4 * fld (getDie s d).railIlim 16 0 ∧
      ((used d ++ new).map (·.2)).sum ≤ fld (getDie s d).railIlim 63 32
    let bound := fun (d : Nat) => (listed d).filter fun x => x.2.state = .bound
    let arm := fun (d i : Nat) (t : State) => modBind t d i fun x => { x with state := .armed }
    let ready := fun (d : Nat) (x : Bind) => scrubPending s x.part ((bitList x.strings).map fun n => 32 * d + n) = false
    (∀ d < 8, spWf Bind.zero 0 (listed d) = true ∧ ∀ x ∈ listed d,
      if x.2.state = .running then ∃ l, (getPart s x.2.part).launch = some l ∧ decl d x.2 = (l.peak, l.energy)
      else x.2.state = .armed ∨ x.2.state = .bound →
        ∃ r, readLr s d x.2.part x.2.lrVa = some r ∧ decl d x.2 = (r.peak, r.energy)) →
    (bound die = [(i, b)] → b.diemask.toNat = 2 ^ die.val → ready die b →
      (∀ d < 8, d ≠ die.val → ∀ x ∈ bound d, x.2.part ≠ b.part) →
      exec (.admissionInterval die) s = .next (if fits die [charge die b] then arm die i s else s)) ∧
    (bound die = [(i, b), (j, c)] → b.diemask.toNat = 2 ^ die.val → c.diemask.toNat = 2 ^ die.val → ready die b → ready die c →
      b.part ≠ c.part → (∀ d < 8, d ≠ die.val → ∀ x ∈ bound d, x.2.part ≠ b.part ∧ x.2.part ≠ c.part) →
      exec (.admissionInterval die) s = .next
        (if fits die [charge die b] then
           if fits die [charge die b, charge die c] then arm die j (arm die i s) else arm die i s
         else if fits die [charge die c] then arm die j s else s)) ∧
    (other ≠ die → bound die = [(i, b)] → bound other = [(j, c)] → c.part = b.part →
      b.diemask.toNat = 2 ^ die.val + 2 ^ other.val → c.diemask = b.diemask → ready die b →
      (∀ d < 8, d ≠ die.val → d ≠ other.val → ∀ x ∈ bound d, x.2.part ≠ b.part) →
      ∃ t, exec (.admissionInterval die) s = .next t ∧
        (¬ (fits die [charge die b] ∧ fits other [charge other c]) → t = s) ∧
        (fits die [charge die b] ∧ fits other [charge other c] →
          (∀ d, d ≠ die.val → d ≠ other.val → getDie t d = getDie s d) ∧ { t with dies := s.dies } = s ∧
          getDie t die = getDie (arm die i s) die ∧ getDie t other = getDie (arm other j s) other)) := by
  intro listed strsOn charge used fits bound arm ready hall
  have hcharge : ∀ d < 8, ∀ x ∈ (getDie s d).binds, x.2.state = .running ∨ x.2.state = .armed ∨ x.2.state = .bound →
      charged s d x.2 = charge d x.2 := fun d hd x hx hst => charged_of_decl ((hall d hd).2 x hx) hst
  have hfits : ∀ d < 8, ∀ new, fits d new ↔ fitsDie s d ((new.map (·.1)).sum, (new.map (·.2)).sum) = true :=
    fun d hd new => fits_iff (used := fun x => charge d x.2) new fun x hx hst => hcharge d hd x hx (by tauto)
  have hbound : ∀ d i b, (i, b) ∈ bound d → d < 8 → charged s d b = charge d b ∧ getBind s d i = b ∧ b.state = .bound := by
    intro d i b h hd
    obtain ⟨hm, hst⟩ := mem_of_boundRecs (s := s) (d := d) h
    exact ⟨hcharge d hd (i, b) hm (.inr (.inr hst)), spGet_of_mem Bind.zero (keys_nodup 0 (hall d hd).1) hm, hst⟩
  have hexec : exec (.admissionInterval die) s = .next (((boundRecs s die).map (·.1)).foldl (admitBind die) s) :=
    execAdmissionInterval_eq (keys_nodup 0 (hall die die.isLt).1)
  rw [hexec]
  refine ⟨fun hb hmask hready hk => ?_, fun hb hmask hmask' hready hready' hpart hk => ?_,
    fun hne hb hc hpart hmask hmask' hready hk => ?_⟩
  · obtain ⟨hch, hget, hst⟩ := hbound die i b (by rw [hb]; simp) die.isLt
    have hrecs := bindsOf_bound_single (s := s) (d := die) (p := b.part) (i := i) (b := b)
      (by rw [show boundRecs s die = [(i, b)] from hb]; simp) hk
    have hone := hfits die die.isLt [charge die b]
    rw [show boundRecs s die = [(i, b)] from hb, List.map_singleton, List.foldl_cons, List.foldl_nil,
      admitBind_single hget hst hmask hready hrecs, hch]
    exact congrArg Host.Outcome.next (if_congr hone.symm rfl rfl)
  · obtain ⟨hchb, hgetb, hstb⟩ := hbound die i b (by rw [hb]; simp) die.isLt
    obtain ⟨hchc, hgetc, hstc⟩ := hbound die j c (by rw [hb]; simp) die.isLt
    have hrecs : boundRecs s die = [(i, b), (j, c)] := hb
    have hrecsb := bindsOf_bound_single (s := s) (d := die) (p := b.part) (i := i) (b := b)
      (by rw [hrecs]; simp [Ne.symm hpart]) fun d hd hne x hx => (hk d hd hne x hx).1
    have hrecsc := bindsOf_bound_single (s := s) (d := die) (p := c.part) (i := j) (b := c)
      (by rw [hrecs]; simp [hpart]) fun d hd hne x hx => (hk d hd hne x hx).2
    have hsecond := admit_second (hall die die.isLt).1 hrecs hmask' hready' hpart fun d hd hne x hx => (hk d hd hne x hx).2
    rw [hchb, hchc] at hsecond
    rw [hrecs, List.map_cons, List.map_singleton, List.foldl_cons, List.foldl_cons, List.foldl_nil,
      admitBind_single hgetb hstb hmask hready hrecsb, hchb]
    refine congrArg Host.Outcome.next ?_
    by_cases h : fitsDie s die (charge die b) = true
    · rw [if_pos h, if_pos ((hfits die die.isLt [charge die b]).mpr h), hsecond]
      exact if_congr (hfits die die.isLt [charge die b, charge die c]).symm rfl rfl
    · rw [if_neg h, if_neg (mt (hfits die die.isLt [charge die b]).mp h),
        admitBind_single hgetc hstc hmask' hready' hrecsc, hchc]
      exact if_congr (hfits die die.isLt [charge die c]).symm rfl rfl
  · obtain ⟨hchb, hgetb, hstb⟩ := hbound die i b (by rw [hb]; simp) die.isLt
    obtain ⟨hchc, hgetc, -⟩ := hbound other j c (by rw [hc]; simp) other.isLt
    have hpair := bindsOf_bound_pair (s := s) (p := b.part) (i := i) (j := j) (b := b) (c := c) hne (by rw [show boundRecs s die = [(i, b)] from hb]; simp)
      (by rw [show boundRecs s other = [(j, c)] from hc]; simp [hpart]) hk
    have hadmit := admitBind_pair hne hgetb hgetc hstb hmask hmask' hready rfl hpair
    have hfit : (fits die [charge die b] ∧ fits other [charge other c]) ↔
        fitsDie s die (charged s die b) = true ∧ fitsDie s other (charged s other c) = true := by
      rw [hchb, hchc]
      exact and_congr (hfits die die.isLt [charge die b]) (hfits other other.isLt [charge other c])
    rw [show boundRecs s die = [(i, b)] from hb, List.map_singleton, List.foldl_cons, List.foldl_nil, hadmit]
    refine ⟨_, rfl, fun h => if_neg (mt hfit.mpr h), fun h => ?_⟩
    rw [if_pos (hfit.mp h)]
    exact armed_pair hne hpair

/-- Settles O28: a write goes by the record's state; the interval tests the BOUND records of the die one after another, each against
what `fitsDie` leaves beside the records that stand. -/
theorem bindAndAdmission : Obligations.BindAndAdmission :=
  ⟨bindRecordWrite_clause, admission_one_clause, admission_many_clause⟩

end Sys2Proof.Machine
end

section
/-!
SUPPORT. The end of a task (R206, R207, R210, R442, R453): what `finishTask` and the teardown of a world leave, and what they change.
-/
namespace Sys2Proof.Machine

/-! ## The steps of an end -/

/-- The result word of a task, once it is settled (R207). -/
def resultWord (x : Part) : Word := ((x.resw.head?).map (·.2)).getD x.result

/-- What becomes of a partition whose task is over (R206). -/
def Part.over (status : Nat) (x : Part) : Part :=
  { x with st := .idle, launch := none, lmap := [], strings := [], status := status, holding := none, quiesce := false
           waitStart := false, failed := none, rolling := false, audWait := false, idem := false, snap := none, mig := none, migNow := false, migLate := false
           busy := none, saved := false, evicted := false, finalDone := false, wlines := [], rlines := [] }

/-- A core whose task is over: its queued work is dropped and it holds no logical core. -/
def Core.over (x : Core) : Core := { x.stop with part := none }

/-- A bind record of a task that is over (R210). -/
def Bind.over (world : Bool) (status : Nat) (word : Word) (b : Bind) : Bind :=
  { b with state := if world then .scrub else .done, launched := false, status := BitVec.ofNat 32 status, result := word }

/-- What the Granite die keeps of a task that is over: its entry, and, where it failed, none of its held writes. -/
def Granite.over (x : Part) (p status : Nat) (g : Granite) : Granite :=
  let fine := decide (status ≠ 1) && x.failed.isNone
  { g with ended := g.ended ++ [{ task := x.taskid, part := p, audit := (x.launch.getD Launch.zero).audit, fine := fine }]
           hold := if fine then g.hold else g.hold.filter fun o => decide (o.task ≠ x.taskid) }

/-- The state as a task ends, before its bind records: result, cores and the Granite die. -/
def coresOver (s : State) (p status : Nat) : State :=
  modGran ((partCores s p).foldl (fun t c => modCore t c Core.over) (settleResult s p)) (Granite.over (getPart s p) p status)

/-- The state as a task with these bind records ends, before a world's teardown. -/
def recsOver (s : State) (p status : Nat) (recs : List (Nat × Nat)) : State :=
  recs.foldl (fun t y => modBind t y.1 y.2 (Bind.over (isWorld s p) status (resultWord (getPart s p)))) (coresOver s p status)

/-- The same state once the teardown of a world has begun. -/
def tearOver (s : State) (p status : Nat) (recs : List (Nat × Nat)) : State :=
  let u := recsOver s p status recs
  if isWorld s p = true then teardown u p (boundStrings s p) (namedStrings u recs) else u

/-- The end of a task with these bind records, but for what the host hears. -/
def partOver (s : State) (p status : Nat) (recs : List (Nat × Nat)) : State :=
  modPart (unbindStrings (tearOver s p status recs) (boundStrings s p)) p (Part.over status)

theorem getPart_settleResult (s : State) (p q : Nat) : getPart (settleResult s p) q =
    if q = p then { getPart s p with result := resultWord (getPart s p), resw := [] } else getPart s q :=
  getPart_modPart s p q _

theorem foldl_modCore_over (l : List Nat) (s : State) : ∃ v, l.foldl (fun t c => modCore t c Core.over) s = { s with cores := v } :=
  foldl_modCore_rest (fun _ => Core.over) l s

theorem taskBinds_of_dies {s t : State} (h : t.dies = s.dies) (p : Nat) : taskBinds t p = taskBinds s p := by
  unfold taskBinds
  simp only [bindsOf_of_dies h, getBind_of_dies h]

theorem namedStrings_of_dies {s t : State} (h : t.dies = s.dies) (l : List (Nat × Nat)) : namedStrings t l = namedStrings s l := by
  unfold namedStrings
  simp only [getBind_of_dies h]

theorem isWorld_settleResult (s : State) (p : Nat) : isWorld (settleResult s p) p = isWorld s p := by
  rw [isWorld, isWorld, worldSlot, worldSlot, getPart_settleResult, if_pos rfl]

theorem partCores_settleResult (s : State) (p : Nat) : partCores (settleResult s p) p = partCores s p := by
  rw [partCores, partCores, getPart_settleResult, if_pos rfl]

theorem boundStrings_settleResult (s : State) (p : Nat) : boundStrings (settleResult s p) p = boundStrings s p := by
  rw [boundStrings, boundStrings, getPart_settleResult, if_pos rfl]
  rfl

theorem dies_coresOver (s : State) (p status : Nat) : (coresOver s p status).dies = s.dies := by
  obtain ⟨v, hv⟩ := foldl_modCore_over (partCores s p) (settleResult s p)
  rw [coresOver, hv]
  rfl

theorem finishTask_eq (s : State) (p status : Nat) : finishTask s p status =
    if isWorld s p = true then partOver s p status (taskBinds s p)
    else (taskBinds s p).foldl (fun t y => doneEvent t y.1 y.2) (partOver s p status (taskBinds s p)) := by
  have h : finishTask s p status = if isWorld s p = true then partOver s p status (taskBinds (coresOver s p status) p)
      else (taskBinds (coresOver s p status) p).foldl (fun t y => doneEvent t y.1 y.2)
        (partOver s p status (taskBinds (coresOver s p status) p)) := by
    unfold finishTask
    dsimp only
    rw [isWorld_settleResult, partCores_settleResult, boundStrings_settleResult, getPart_settleResult, if_pos rfl]
    rfl
  rw [h, taskBinds_of_dies (dies_coresOver s p status)]

/-! ## The teardown of a world (R442, R453) -/

/-- What a teardown changes: of one partition the translation root, the scrub list and where the teardown stands; of the dies anything
but their bind records; the key slots. -/
structure Torn (p : Nat) (s t : State) : Prop where
  rest : ∃ parts dies keys, t = { s with parts := parts, dies := dies, gran := { s.gran with keys := keys } }
  other : ∀ q, q ≠ p → getPart t q = getPart s q
  part : ∃ troot scrub tearing erasing,
    getPart t p = { getPart s p with troot := troot, scrub := scrub, tearing := tearing, erasing := erasing }
  binds : ∀ d, (getDie t d).binds = (getDie s d).binds

theorem Torn.refl (p : Nat) (s : State) : Torn p s s :=
  ⟨⟨s.parts, s.dies, s.gran.keys, rfl⟩, fun _ _ => rfl,
    ⟨(getPart s p).troot, (getPart s p).scrub, (getPart s p).tearing, (getPart s p).erasing, rfl⟩, fun _ => rfl⟩

theorem Torn.trans {p : Nat} {a b c : State} (h : Torn p a b) (h' : Torn p b c) : Torn p a c := by
  obtain ⟨⟨x, y, z, hrest⟩, hother, ⟨t1, s1, e1, r1, hpart⟩, hbinds⟩ := h
  obtain ⟨⟨x', y', z', hrest'⟩, hother', ⟨t2, s2, e2, r2, hpart'⟩, hbinds'⟩ := h'
  refine ⟨⟨x', y', z', by rw [hrest', hrest]⟩, fun q hq => (hother' q hq).trans (hother q hq), ⟨t2, s2, e2, r2, ?_⟩,
    fun d => (hbinds' d).trans (hbinds d)⟩
  rw [hpart', hpart]

theorem Torn.foldl {α : Type} {p : Nat} {f : State → α → State} (h : ∀ s a, Torn p s (f s a)) (l : List α) :
    ∀ s, Torn p s (l.foldl f s) := by
  induction l with
  | nil => exact Torn.refl p
  | cons a r ih => exact fun s => (h s a).trans (ih _)

theorem torn_modPart {p : Nat} {f : Part → Part} (s : State)
    (hf : ∀ x, ∃ troot scrub tearing erasing, f x = { x with troot := troot, scrub := scrub, tearing := tearing, erasing := erasing }) :
    Torn p s (modPart s p f) := by
  refine ⟨⟨_, s.dies, s.gran.keys, rfl⟩, fun q hq => (getPart_modPart s p q f).trans (if_neg hq), ?_, fun _ => rfl⟩
  rw [getPart_modPart_self]
  exact hf _

theorem torn_modDie {p : Nat} {f : Die → Die} (s : State) (d : Nat) (hf : ∀ x, (f x).binds = x.binds) : Torn p s (modDie s d f) := by
  refine ⟨⟨s.parts, _, s.gran.keys, rfl⟩, fun _ _ => rfl, (Torn.refl p s).part, fun e => ?_⟩
  rw [getDie_modDie]
  split_ifs with h
  · rw [hf, h]
  · rfl

theorem torn_modKey {p : Nat} (s : State) (n : Nat) (f : KeySlot → KeySlot) : Torn p s (modKey s n f) :=
  ⟨⟨s.parts, s.dies, _, rfl⟩, fun _ _ => rfl, (Torn.refl p s).part, fun _ => rfl⟩

theorem torn_dropReds (p : Nat) (s : State) (i : Nat) : Torn p s (dropReds s i) := by
  unfold dropReds
  refine Torn.foldl (fun s d => ?_) _ s
  exact torn_modDie s d fun _ => rfl

theorem torn_freeMap (p : Nat) (s : State) (i : Nat) : Torn p s (freeMap s i) := by
  unfold freeMap
  refine Torn.foldl (fun s d => ?_) _ s
  exact torn_modDie s d fun _ => rfl

theorem torn_addScrub (s : State) (p : Nat) (units : List ScrubUnit) (strs : List Nat) (use : ScrubUse) :
    Torn p s (addScrub s p units strs use) :=
  torn_modPart s fun x => ⟨x.troot, _, x.tearing, x.erasing, rfl⟩

theorem torn_writeTroot (s : State) (p : Nat) (v : Word) : Torn p s (writeTroot s p v) :=
  torn_modPart s fun x => ⟨_, x.scrub, x.tearing, x.erasing, rfl⟩

/-- Where a teardown stands once its keys are being erased (R442). -/
def Part.tear (slots : List Nat) (dies : BitVec 16) (x : Part) : Part :=
  if dies = 0 then beginScrub x else { x with tearing := 3, erasing := slots.map fun n => (n, dies) }

/-- A teardown up to its key slots: the scrub list, the tensor table's slots and lines, and the translation root (R442). -/
def tearMaps (s : State) (p : Nat) (strs named : List Nat) : State :=
  let slots := zeroSlots s (worldSlot s p)
  let mine := (allGens s).filter fun g => g.live && slots.contains g.keyslot
  let t := mine.foldl (fun s g => dropReds (freeMap s g.idx) g.idx)
    (addScrub s p (worldUnits s p slots strs) (named ++ strs.filter fun n => !named.contains n) (.teardown slots))
  writeTroot t p ((getPart t p).troot &&& 0xFFFFFFFFFFFFFFFE)

theorem teardown_of_zero {s : State} {p : Nat} (strs named : List Nat) (h : (getPart s p).tearing = 0) :
    teardown s p strs named =
      (let u := (zeroSlots s (worldSlot s p)).foldl zeroise (tearMaps s p strs named)
       modPart u p (Part.tear (zeroSlots s (worldSlot s p)) (keyDies u))) := if_neg (not_not.mpr h)

theorem torn_tearMaps (s : State) (p : Nat) (strs named : List Nat) : Torn p s (tearMaps s p strs named) :=
  (torn_addScrub s p _ _ _).trans ((Torn.foldl (fun s _ => (torn_freeMap p s _).trans (torn_dropReds p _ _)) _ _).trans
    (torn_writeTroot _ p _))

theorem torn_zeroise (p : Nat) (l : List Nat) (s : State) : Torn p s (l.foldl zeroise s) :=
  Torn.foldl (fun s n => torn_modKey s n _) l s

theorem torn_teardown (s : State) (p : Nat) (strs named : List Nat) : Torn p s (teardown s p strs named) := by
  by_cases h : (getPart s p).tearing = 0
  · rw [teardown_of_zero strs named h]
    refine (torn_tearMaps s p strs named).trans ((torn_zeroise p _ _).trans (torn_modPart _ fun x => ?_))
    unfold Part.tear beginScrub
    split_ifs
    · exact ⟨x.troot, _, _, _, rfl⟩
    · exact ⟨x.troot, x.scrub, _, _, rfl⟩
  · have hs : teardown s p strs named = s := if_pos h
    rw [hs]
    exact Torn.refl p s

/-! ## What the end of a task leaves -/

theorem unbindStrings_rest (s : State) (l : List Nat) : ∃ v, unbindStrings s l = { s with strings := v } :=
  exists_foldl_modStr _ l s

theorem getStr_unbindStrings (s : State) (l : List Nat) (n : Nat) :
    getStr (unbindStrings s l) n = if n ∈ l then { getStr s n with part := none } else getStr s n :=
  getStr_foldl_modStr (f := fun x => { x with part := none }) (fun _ => rfl) n l s

theorem exists_foldl_modBind (f : Bind → Bind) (l : List (Nat × Nat)) : ∀ s : State,
    ∃ v, l.foldl (fun t y => modBind t y.1 y.2 f) s = { s with dies := v } := by
  induction l with
  | nil => exact fun s => ⟨s.dies, rfl⟩
  | cons y r ih =>
    intro s
    obtain ⟨v, hv⟩ := ih (modBind s y.1 y.2 f)
    exact ⟨v, hv⟩

/-- The state up to the bind records: every part of it is as `settleResult`, the cores, `Granite.over` and the records leave it. -/
theorem recsOver_rest (s : State) (p status : Nat) (recs : List (Nat × Nat)) : ∃ cores dies, recsOver s p status recs =
    { settleResult s p with cores := cores, dies := dies, gran := Granite.over (getPart s p) p status s.gran } := by
  obtain ⟨c, hc⟩ := foldl_modCore_over (partCores s p) (settleResult s p)
  obtain ⟨d, hd⟩ := exists_foldl_modBind (Bind.over (isWorld s p) status (resultWord (getPart s p))) recs (coresOver s p status)
  refine ⟨c, d, ?_⟩
  rw [recsOver, hd, coresOver, hc]
  rfl

/-- The host's event ring and its interrupt have moved, and nothing else of its function. -/
def EvsOnly (a b : HostFn) : Prop := ∃ evs evTail msix1, b = { a with evs := evs, evTail := evTail, msix1 := msix1 }

theorem EvsOnly.refl (a : HostFn) : EvsOnly a a := ⟨a.evs, a.evTail, a.msix1, rfl⟩

theorem EvsOnly.trans {a b c : HostFn} (h : EvsOnly a b) (h' : EvsOnly b c) : EvsOnly a c := by
  obtain ⟨x, y, z, rfl⟩ := h
  obtain ⟨x', y', z', rfl⟩ := h'
  exact ⟨x', y', z', rfl⟩

theorem EvsOnly.rsTail {a b : HostFn} (h : EvsOnly a b) : b.rsTail = a.rsTail := by
  obtain ⟨x, y, z, rfl⟩ := h
  rfl

theorem postHost_evsOnly (s : State) (e : EventRec) : ∃ h, EvsOnly s.host h ∧ postHost s e = { s with host := h } := by
  unfold postHost
  dsimp only
  split_ifs
  · exact ⟨s.host, EvsOnly.refl _, rfl⟩
  · exact ⟨_, ⟨_, _, _, rfl⟩, rfl⟩

theorem foldl_doneEvent_rest (l : List (Nat × Nat)) : ∀ s : State,
    ∃ h, EvsOnly s.host h ∧ l.foldl (fun t y => doneEvent t y.1 y.2) s = { s with host := h } := by
  induction l with
  | nil => exact fun s => ⟨s.host, EvsOnly.refl _, rfl⟩
  | cons y r ih =>
    intro s
    obtain ⟨h, hh, hs⟩ := postHost_evsOnly s (hostEvent s 1 (getBind s y.1 y.2).part ((getBind s y.1 y.2).status.setWidth 64))
    obtain ⟨h', hh', hs'⟩ := ih (doneEvent s y.1 y.2)
    have hdone : doneEvent s y.1 y.2 = { s with host := h } := hs
    refine ⟨h', ?_, ?_⟩
    · rw [hdone] at hh'
      exact hh.trans hh'
    · rw [List.foldl_cons, hs', hdone]

/-- A teardown, or none. -/
theorem torn_tearOver (s : State) (p status : Nat) (recs : List (Nat × Nat)) :
    Torn p (recsOver s p status recs) (tearOver s p status recs) := by
  unfold tearOver
  dsimp only
  split_ifs
  · exact torn_teardown _ p _ _
  · exact Torn.refl p _

/-- The end of a task changes cores, strings, dies, partitions, the key slots of the Granite die and its lists of ended tasks and of held
writes, and the host's event ring. -/
structure TaskEnded (s t : State) : Prop where
  rest : ∃ cores strings dies parts gran host,
    t = { s with cores := cores, strings := strings, dies := dies, parts := parts, gran := gran, host := host }
  gran : { t.gran with ended := s.gran.ended, hold := s.gran.hold, keys := s.gran.keys } = s.gran
  host : EvsOnly s.host t.host

theorem taskEnded_partOver (s : State) (p status : Nat) (recs : List (Nat × Nat)) : TaskEnded s (partOver s p status recs) ∧
    (partOver s p status recs).host = s.host := by
  obtain ⟨c, d, hu⟩ := recsOver_rest s p status recs
  obtain ⟨a, e, k, hv⟩ := (torn_tearOver s p status recs).rest
  obtain ⟨st, hw⟩ := unbindStrings_rest (tearOver s p status recs) (boundStrings s p)
  have ht : ∃ parts, partOver s p status recs = { s with
      cores := c, strings := st, dies := e, parts := parts, gran := { Granite.over (getPart s p) p status s.gran with keys := k } } := by
    rw [partOver, hw, hv, hu]
    exact ⟨_, rfl⟩
  obtain ⟨parts, ht⟩ := ht
  rw [ht]
  exact ⟨⟨⟨_, _, _, _, _, _, rfl⟩, rfl, EvsOnly.refl _⟩, rfl⟩

theorem taskEnded_finishTask (s : State) (p status : Nat) : TaskEnded s (finishTask s p status) := by
  obtain ⟨⟨⟨c, st, d, a, g, h, hrest⟩, hgran, hhost⟩, -⟩ := taskEnded_partOver s p status (taskBinds s p)
  obtain ⟨h', hh', hd⟩ := foldl_doneEvent_rest (taskBinds s p) (partOver s p status (taskBinds s p))
  rw [finishTask_eq]
  split_ifs
  · exact ⟨⟨c, st, d, a, g, h, hrest⟩, hgran, hhost⟩
  · rw [hd]
    refine ⟨⟨c, st, d, a, g, h', ?_⟩, hgran, ?_⟩
    · rw [hrest]
    · exact hhost.trans hh'

/-! ## What it changes -/

/-- The end as the host hears of it: every part of the state but the host's function is as `partOver` leaves it. -/
theorem finishTask_host (s : State) (p status : Nat) :
    ∃ h, finishTask s p status = { partOver s p status (taskBinds s p) with host := h } := by
  rw [finishTask_eq]
  split_ifs
  · exact ⟨_, rfl⟩
  · obtain ⟨h, -, hd⟩ := foldl_doneEvent_rest (taskBinds s p) (partOver s p status (taskBinds s p))
    exact ⟨h, hd⟩

theorem cores_finishTask (s : State) (p status : Nat) : (finishTask s p status).cores =
    ((partCores s p).foldl (fun t c => modCore t c Core.over) s).cores := by
  obtain ⟨h, hh⟩ := finishTask_host s p status
  obtain ⟨a, e, k, hv⟩ := (torn_tearOver s p status (taskBinds s p)).rest
  obtain ⟨st, hw⟩ := unbindStrings_rest (tearOver s p status (taskBinds s p)) (boundStrings s p)
  obtain ⟨d, hd⟩ := exists_foldl_modBind (Bind.over (isWorld s p) status (resultWord (getPart s p))) (taskBinds s p) (coresOver s p status)
  have hcores : ∀ (l : List Nat) (t u : State), t.cores = u.cores →
      (l.foldl (fun t c => modCore t c Core.over) t).cores = (l.foldl (fun t c => modCore t c Core.over) u).cores := by
    intro l
    induction l with
    | nil => exact fun _ _ h => h
    | cons c r ih => exact fun t u h => ih _ _ (by simp only [modCore, getCore, setCore, h])
  rw [hh, partOver, hw, hv, recsOver, hd, coresOver]
  exact hcores _ _ _ rfl

theorem getCore_finishTask (s : State) (p status c : Nat) : getCore (finishTask s p status) c =
    if c ∈ partCores s p then (getCore s c).over else getCore s c := by
  have hidem : ∀ x : Core, x.over.over = x.over := fun x => by
    simp [Core.over, Core.stop, Function.comp_def]
  rw [getCore, cores_finishTask, ← getCore, getCore_foldl_modCore fun _ => hidem]

theorem getBind_finishTask (s : State) (p status d i : Nat) : getBind (finishTask s p status) d i =
    if (d, i) ∈ taskBinds s p then Bind.over (isWorld s p) status (resultWord (getPart s p)) (getBind s d i) else getBind s d i := by
  obtain ⟨h, hh⟩ := finishTask_host s p status
  have hbinds := (torn_tearOver s p status (taskBinds s p)).binds d
  obtain ⟨st, hw⟩ := unbindStrings_rest (tearOver s p status (taskBinds s p)) (boundStrings s p)
  have hget : getBind (recsOver s p status (taskBinds s p)) d i = if (d, i) ∈ taskBinds s p then
      Bind.over (isWorld s p) status (resultWord (getPart s p)) (getBind (coresOver s p status) d i)
    else getBind (coresOver s p status) d i :=
    getBind_foldl_modBind (f := Bind.over (isWorld s p) status (resultWord (getPart s p))) (fun _ => rfl) d i _ _
  rw [getBind_of_dies (dies_coresOver s p status)] at hget
  rw [← hget, hh, partOver]
  dsimp only
  rw [hw]
  exact congrArg (spGet Bind.zero · i) hbinds

theorem getStr_finishTask (s : State) (p status n : Nat) : getStr (finishTask s p status) n =
    if n ∈ boundStrings s p then { getStr s n with part := none } else getStr s n := by
  obtain ⟨h, hh⟩ := finishTask_host s p status
  obtain ⟨a, e, k, hv⟩ := (torn_tearOver s p status (taskBinds s p)).rest
  obtain ⟨c, d, hu⟩ := recsOver_rest s p status (taskBinds s p)
  have hstr : getStr (tearOver s p status (taskBinds s p)) n = getStr s n := by
    rw [hv, hu]
    rfl
  have hun := getStr_unbindStrings (tearOver s p status (taskBinds s p)) (boundStrings s p) n
  rw [hstr] at hun
  rw [hh, ← hun]
  rfl

/-- The partition of a task that is over, with the scrub list and the teardown of a world (R206, R207, R442). -/
theorem getPart_finishTask (s : State) (p status : Nat) : ∃ troot scrub tearing erasing, getPart (finishTask s p status) p =
    Part.over status { getPart s p with
      result := resultWord (getPart s p), resw := [], troot := troot, scrub := scrub, tearing := tearing, erasing := erasing } := by
  obtain ⟨h, hh⟩ := finishTask_host s p status
  obtain ⟨tr, sc, te, er, hpart⟩ := (torn_tearOver s p status (taskBinds s p)).part
  obtain ⟨c, d, hu⟩ := recsOver_rest s p status (taskBinds s p)
  obtain ⟨st, hw⟩ := unbindStrings_rest (tearOver s p status (taskBinds s p)) (boundStrings s p)
  have hset : getPart (recsOver s p status (taskBinds s p)) p =
      { getPart s p with result := resultWord (getPart s p), resw := [] } := by
    rw [hu]
    exact (getPart_settleResult s p p).trans (if_pos rfl)
  have hover : getPart (partOver s p status (taskBinds s p)) p = Part.over status (getPart (tearOver s p status (taskBinds s p)) p) := by
    rw [partOver, getPart_modPart_self, hw]
    rfl
  rw [hset] at hpart
  rw [hpart] at hover
  refine ⟨tr, sc, te, er, ?_⟩
  rw [hh]
  exact hover

theorem getPart_finishTask_ne (s : State) {p q : Nat} (status : Nat) (hq : q ≠ p) : getPart (finishTask s p status) q = getPart s q := by
  obtain ⟨h, hh⟩ := finishTask_host s p status
  have hother := (torn_tearOver s p status (taskBinds s p)).other q hq
  obtain ⟨c, d, hu⟩ := recsOver_rest s p status (taskBinds s p)
  obtain ⟨st, hw⟩ := unbindStrings_rest (tearOver s p status (taskBinds s p)) (boundStrings s p)
  have hset : getPart (recsOver s p status (taskBinds s p)) q = getPart s q := by
    rw [hu]
    exact (getPart_settleResult s p q).trans (if_neg hq)
  have hover : getPart (partOver s p status (taskBinds s p)) q = getPart (tearOver s p status (taskBinds s p)) q := by
    rw [partOver, getPart_modPart, if_neg hq, hw]
    rfl
  rw [hh]
  exact hover.trans (hother.trans hset)

end Sys2Proof.Machine
end

section
/-!
SUPPORT. The mailbox of the host and the resets (R242, R460, R465): what a command changes before it is carried out, the bytes of its
response, how long the bytes of a released generation are, and what a package reset leaves.
-/
namespace Sys2Proof.Machine

/-! ## A command is posted and answered (R460) -/

theorem windowPut_slot (h : HostFn) {o : Nat} (ho : 0x1000 ≤ o) (b : Byte) : ∃ cmds, windowPut h o b = { h with cmds := cmds } := by
  unfold windowPut
  rw [if_neg (by omega), if_neg (by omega)]
  split_ifs
  · exact ⟨_, rfl⟩
  · exact ⟨h.cmds, rfl⟩

theorem windowWrite_slot (bs : List Byte) : ∀ (h : HostFn) (o : Nat), 0x1000 ≤ o → ∃ cmds, windowWrite h o bs = { h with cmds := cmds } := by
  induction bs with
  | nil => exact fun h o _ => ⟨h.cmds, rfl⟩
  | cons b r ih =>
    intro h o ho
    obtain ⟨v, hv⟩ := windowPut_slot h ho b
    obtain ⟨w, hw⟩ := ih { h with cmds := v } (o + 1) (by omega)
    exact ⟨w, by rw [windowWrite, hv, hw]⟩

theorem windowWrite_mbTail (h : HostFn) (v : Nat) : ∃ tail, windowWrite h 0x100 (leBytes 2 v) = { h with mbTail := tail } := ⟨_, rfl⟩

/-- Posting a command changes its slot and the two pointers of the command queue. -/
theorem takeCmd_rest (s : State) (op : Byte) (c : HostCmd) : ∃ cmds mbTail mbHead,
    takeCmd s op c = { s with host := { s.host with cmds := cmds, mbTail := mbTail, mbHead := mbHead } } := by
  obtain ⟨v, hv⟩ := windowWrite_slot (cmdBytes op c) s.host (0x1000 + 64 * (s.host.mbTail.toNat % 64)) (by omega)
  obtain ⟨w, hw⟩ := windowWrite_mbTail { s.host with cmds := v } (s.host.mbTail + 1).toNat
  refine ⟨v, w, w, ?_⟩
  unfold takeCmd
  dsimp only
  rw [hv, hw]

/-- A command with no reserved field set, in a package that is released, is carried out and answered. -/
theorem runCmd_booted {s : State} {c : HostCmd} (hr : c.rsv = 0) (hb : bit s.gran.bootStat 0 = true) (op : Byte)
    (f : State → State × Reply) : runCmd op c booted f s = .next (answerCmd op c (f (takeCmd s op c))) := by
  obtain ⟨a, b, d, ht⟩ := takeCmd_rest s op c
  have hready : booted (takeCmd s op c) = true := by
    rw [ht]
    exact hb
  unfold runCmd
  dsimp only
  rw [if_neg (not_not.mpr hready), if_neg (not_not.mpr hr)]

/-! ## The bytes of a response (R460) -/

theorem memBytes_memWrite_part (m : Mem) (a : Nat) (bs : List Byte) (n : Nat) : ∀ k, k + n ≤ bs.length →
    memBytes (memWrite m a bs) (a + k) n = (bs.drop k).take n := by
  induction n with
  | zero => exact fun k _ => by simp [memBytes]
  | succ n ih =>
    intro k hk
    have hlt : k < bs.length := by omega
    have hget : memGet (memWrite m a bs) (a + k) = bs[k] := by
      rw [memGet_memWrite, if_pos (Nat.le_add_right a k), Nat.add_sub_cancel_left, List.getElem?_eq_getElem hlt, Option.getD_some]
    rw [memBytes, hget, Nat.add_assoc, ih (k + 1) (by omega), List.drop_eq_getElem_cons hlt, List.take_succ_cons]

theorem respBytes_length (s : State) (op : Byte) (c : HostCmd) {r : Reply} (hr : r.data.length ≤ 32) : (respBytes s op c r).length = 64 := by
  simp [respBytes]
  omega

theorem memBytes_answerCmd (op : Byte) (c : HostCmd) (x : State × Reply) (hr : x.2.data.length ≤ 32) {k n : Nat} (hk : k + n ≤ 64) :
    memBytes (answerCmd op c x).host.resps (64 * (x.1.host.rsTail.toNat % 64) + k) n = ((respBytes x.1 op c x.2).drop k).take n := by
  unfold answerCmd
  dsimp only
  exact memBytes_memWrite_part _ _ _ n k (by rw [respBytes_length x.1 op c hr]; exact hk)

theorem answerCmd_status (op : Byte) (c : HostCmd) (x : State × Reply) (hr : x.2.status < 256) :
    (memGet (answerCmd op c x).host.resps (64 * (x.1.host.rsTail.toNat % 64) + 1)).toNat = x.2.status := by
  have hget : memGet (answerCmd op c x).host.resps (64 * (x.1.host.rsTail.toNat % 64) + 1) = BitVec.ofNat 8 x.2.status := by
    unfold answerCmd
    dsimp only
    rw [memGet_memWrite, if_pos (Nat.le_add_right _ 1), Nat.add_sub_cancel_left]
    rfl
  rw [hget, BitVec.toNat_ofNat]
  exact Nat.mod_eq_of_lt hr

theorem answerCmd_len (op : Byte) (c : HostCmd) (x : State × Reply) (hr : x.2.data.length ≤ 32) :
    memRead (answerCmd op c x).host.resps (64 * (x.1.host.rsTail.toNat % 64) + 4) 4 = x.2.data.length := by
  rw [memRead, memBytes_answerCmd op c x hr (by omega)]
  exact (leNat_leBytes 4 x.2.data.length).trans (Nat.mod_eq_of_lt (by omega))

theorem answerCmd_value (op : Byte) (c : HostCmd) (x : State × Reply) {v : Word} (hr : x.2.data.length ≤ 32) (hv : x.2.value = some v) :
    memRead (answerCmd op c x).host.resps (64 * (x.1.host.rsTail.toNat % 64) + 8) 8 = v.toNat := by
  rw [memRead, memBytes_answerCmd op c x hr (by omega), respBytes, hv]
  exact (leNat_leBytes 8 v.toNat).trans (Nat.mod_eq_of_lt v.isLt)

theorem answerCmd_data (op : Byte) (c : HostCmd) (x : State × Reply) (hr : x.2.data.length ≤ 32) :
    memBytes (answerCmd op c x).host.resps (64 * (x.1.host.rsTail.toNat % 64) + 32) x.2.data.length = x.2.data := by
  rw [memBytes_answerCmd op c x hr (by omega), respBytes, List.drop_append_of_le_length (by simp), List.drop_eq_nil_of_le (by simp),
    List.nil_append, List.take_take, min_eq_left hr, List.take_left']
  rfl

/-! ## The bytes of a released generation (R242) -/

/-- The bytes so far with those of one more line of a generation. -/
def joinLine (s : State) (g : Gen) (acc : Option (List Byte)) (x : Nat × Nat) : Option (List Byte) :=
  match acc, genLine s (lowDie s) g ((x.1 - g.vbase) / 64) with
  | some bs, some l => some (bs ++ (l.drop (x.1 % 64)).take x.2)
  | _, _ => none

theorem joinLine_none {s : State} {g : Gen} {x : Nat × Nat} (h : genLine s (lowDie s) g ((x.1 - g.vbase) / 64) = none)
    (acc : List Byte) : joinLine s g (some acc) x = none := by
  unfold joinLine
  rw [h]

theorem joinLine_some {s : State} {g : Gen} {x : Nat × Nat} {l : List Byte}
    (h : genLine s (lowDie s) g ((x.1 - g.vbase) / 64) = some l) (acc : List Byte) :
    joinLine s g (some acc) x = some (acc ++ (l.drop (x.1 % 64)).take x.2) := by
  unfold joinLine
  rw [h]

theorem genLine_length {s : State} {d : Nat} {g : Gen} {ln : Nat} {l : List Byte} (h : genLine s d g ln = some l) : l.length = 64 := by
  unfold genLine at h
  dsimp only at h
  split at h
  · cases h
  next w hw =>
    split_ifs at h
    rw [← Option.some.inj h]
    exact memBytes_length _ 64 _

theorem foldl_joinLine_none (s : State) (g : Gen) (l : List (Nat × Nat)) : l.foldl (joinLine s g) none = none := by
  induction l with
  | nil => rfl
  | cons x r ih => exact ih

theorem foldl_joinLine_length (s : State) (g : Gen) (l : List (Nat × Nat)) (hl : ∀ x ∈ l, x.2 ≤ 64 - x.1 % 64) : ∀ acc bs,
    l.foldl (joinLine s g) (some acc) = some bs → bs.length = acc.length + (l.map (·.2)).sum := by
  induction l with
  | nil =>
    intro acc bs h
    rw [← Option.some.inj h]
    simp
  | cons x r ih =>
    intro acc bs h
    rw [List.foldl_cons] at h
    cases hg : genLine s (lowDie s) g ((x.1 - g.vbase) / 64) with
    | none =>
      rw [joinLine_none hg, foldl_joinLine_none] at h
      cases h
    | some line =>
      rw [joinLine_some hg] at h
      have hlen := ih (fun y hy => hl y (List.mem_cons_of_mem x hy)) _ _ h
      have hx := hl x List.mem_cons_self
      rw [hlen, List.length_append, List.length_take, List.length_drop, genLine_length hg, List.map_cons, List.sum_cons, min_eq_left hx]
      exact Nat.add_assoc _ _ _

theorem pieces_fit (fuel : Nat) : ∀ va len x, x ∈ pieces fuel va len → x.2 ≤ 64 - x.1 % 64 := by
  induction fuel with
  | zero => exact fun _ _ _ h => nomatch h
  | succ fuel ih =>
    intro va len x hx
    rw [pieces] at hx
    split_ifs at hx
    · cases hx
    · rcases List.mem_cons.mp hx with rfl | hx
      · exact Nat.min_le_right _ _
      · exact ih _ _ x hx

theorem pieces_zero (fuel va : Nat) : pieces fuel va 0 = [] := by
  cases fuel <;> rfl

theorem pieces_sum (fuel : Nat) : ∀ va len, va % 64 + len ≤ 64 * fuel → ((pieces fuel va len).map (·.2)).sum = len := by
  induction fuel with
  | zero =>
    intro va len h
    have hlen : len = 0 := by omega
    rw [hlen]
    rfl
  | succ fuel ih =>
    intro va len h
    rw [pieces]
    split_ifs with hlen
    · exact hlen.symm
    · dsimp only
      rw [List.map_cons, List.sum_cons]
      by_cases hfit : len ≤ 64 - va % 64
      · rw [min_eq_left hfit, Nat.sub_self, pieces_zero]
        rfl
      · rw [min_eq_right (by omega), ih _ _ (by omega)]
        omega

theorem releasedBytes_length {s : State} {g : Gen} {off n : Nat} {bs : List Byte} (h : releasedBytes s g off n = some bs) :
    bs.length = n := by
  unfold releasedBytes at h
  split_ifs at h
  have hlen := foldl_joinLine_length s g (linesOf (g.vbase + off) n) (pieces_fit _ _ _) [] bs h
  rw [hlen, linesOf, pieces_sum _ _ _ (by omega)]
  exact Nat.zero_add n

theorem releasedBytes_open {s : State} {g : Gen} {off n : Nat} {bs : List Byte} (h : releasedBytes s g off n = some bs) :
    ¬ g.size < off + n ∧ (g.keyslot = 0 ∨ (getKey s g.keyslot).exp = true) := by
  unfold releasedBytes at h
  split_ifs at h with hc
  exact ⟨fun hs => hc (.inl hs), not_not.mp fun hk => hc (.inr hk)⟩

/-! ## A package reset (R465) -/

theorem TaskEnded.refl (s : State) : TaskEnded s s :=
  ⟨⟨s.cores, s.strings, s.dies, s.parts, s.gran, s.host, rfl⟩, rfl, EvsOnly.refl _⟩

theorem TaskEnded.trans {a b c : State} (h : TaskEnded a b) (h' : TaskEnded b c) : TaskEnded a c := by
  obtain ⟨⟨c1, s1, d1, p1, g1, h1, hrest⟩, hgran, hhost⟩ := h
  obtain ⟨⟨c2, s2, d2, p2, g2, h2, hrest'⟩, hgran', hhost'⟩ := h'
  refine ⟨⟨c2, s2, d2, p2, g2, h2, by rw [hrest', hrest]⟩, ?_, hhost.trans hhost'⟩
  rw [← hgran, ← hgran']

/-- A reset ends the task of a partition, where it has one, with STATUS 1. -/
def endTask (s : State) (p : Nat) : State := if (getPart s p).launch.isSome then finishTask s p 1 else s

theorem taskEnded_endTasks (l : List Nat) : ∀ s, TaskEnded s (l.foldl endTask s) := by
  induction l with
  | nil => exact TaskEnded.refl
  | cons p r ih =>
    intro s
    refine TaskEnded.trans ?_ (ih (endTask s p))
    unfold endTask
    split_ifs
    · exact taskEnded_finishTask s p 1
    · exact TaskEnded.refl s

theorem foldl_modKey_rest (f : KeySlot → KeySlot) (l : List (Nat × BitVec 16)) : ∀ s : State,
    ∃ k, l.foldl (fun t x => modKey t x.1 f) s = { s with gran := { s.gran with keys := k } } := by
  induction l with
  | nil => exact fun s => ⟨s.gran.keys, rfl⟩
  | cons x r ih =>
    intro s
    obtain ⟨k, hk⟩ := ih (modKey s x.1 f)
    exact ⟨k, hk⟩

theorem foldl_finishErase_rest (l : List Nat) : ∀ s : State,
    ∃ k, l.foldl finishErase s = { s with gran := { s.gran with keys := k } } := by
  induction l with
  | nil => exact fun s => ⟨s.gran.keys, rfl⟩
  | cons p r ih =>
    intro s
    obtain ⟨k, hk⟩ := foldl_modKey_rest KeySlot.erased (getPart s p).erasing s
    obtain ⟨k', hk'⟩ := ih { s with gran := { s.gran with keys := k } }
    refine ⟨k', ?_⟩
    rw [List.foldl_cons, finishErase, hk, hk']

theorem rsTail_resetPackage (b : State) : (resetPackage b).host.rsTail = b.host.rsTail := by
  obtain ⟨k, hk⟩ := foldl_finishErase_rest (b.parts.map (·.1)) ((b.parts.map (·.1)).foldl endTask b)
  have hhost : (resetPackage b).host = ((b.parts.map (·.1)).foldl finishErase ((b.parts.map (·.1)).foldl endTask b)).host := rfl
  rw [hhost, hk]
  exact (taskEnded_endTasks _ b).host.rsTail

/-- What the end of tasks that are no worlds leaves besides: key slots, ballast, watchdogs, and that no partition becomes a world. -/
structure EndedPlain (s t : State) : Prop where
  ended : TaskEnded s t
  keys : t.gran.keys = s.gran.keys
  ballast : ∀ c, (getCore t c).ballast = (getCore s c).ballast
  wdog : ∀ p, (getPart t p).wdog = (getPart s p).wdog
  erasing : ∀ p, (getPart t p).erasing = (getPart s p).erasing
  worlds : ∀ p, worldSlot s p = 0 → worldSlot t p = 0

theorem EndedPlain.refl (s : State) : EndedPlain s s :=
  ⟨TaskEnded.refl s, rfl, fun _ => rfl, fun _ => rfl, fun _ => rfl, fun _ h => h⟩

theorem EndedPlain.trans {a b c : State} (h : EndedPlain a b) (h' : EndedPlain b c) : EndedPlain a c where
  ended := h.ended.trans h'.ended
  keys := h'.keys.trans h.keys
  ballast i := (h'.ballast i).trans (h.ballast i)
  wdog p := (h'.wdog p).trans (h.wdog p)
  erasing p := (h'.erasing p).trans (h.erasing p)
  worlds p hp := h'.worlds p (h.worlds p hp)

theorem finishTask_plain {s : State} {p : Nat} (h : worldSlot s p = 0) (status : Nat) : ∃ cores strings dies host, finishTask s p status =
    { modPart (settleResult s p) p (Part.over status) with
      cores := cores, strings := strings, dies := dies, gran := Granite.over (getPart s p) p status s.gran, host := host } := by
  have hworld : isWorld s p = false := decide_eq_false (not_not.mpr h)
  obtain ⟨host, hh⟩ := finishTask_host s p status
  obtain ⟨c, d, hu⟩ := recsOver_rest s p status (taskBinds s p)
  obtain ⟨st, hw⟩ := unbindStrings_rest (recsOver s p status (taskBinds s p)) (boundStrings s p)
  have htear : tearOver s p status (taskBinds s p) = recsOver s p status (taskBinds s p) := by
    rw [tearOver, hworld]
    exact if_neg Bool.false_ne_true
  refine ⟨c, st, d, host, ?_⟩
  rw [hh, partOver, htear, hw, hu]
  rfl

theorem endedPlain_endTask {s : State} {p : Nat} (h : worldSlot s p = 0) : EndedPlain s (endTask s p) := by
  unfold endTask
  split_ifs
  · obtain ⟨c, st, d, ho, ht⟩ := finishTask_plain h 1
    have hpart : ∀ q, getPart (finishTask s p 1) q =
        if q = p then Part.over 1 { getPart s p with result := resultWord (getPart s p), resw := [] } else getPart s q := by
      intro q
      have hq : getPart (finishTask s p 1) q = getPart (modPart (settleResult s p) p (Part.over 1)) q := by rw [ht]; rfl
      rw [hq, getPart_modPart, getPart_settleResult, getPart_settleResult, if_pos rfl]
      split_ifs <;> rfl
    refine ⟨taskEnded_finishTask s p 1, by rw [ht]; rfl, fun i => ?_, fun q => ?_, fun q => ?_, fun q hq => ?_⟩
    · rw [getCore_finishTask]
      split_ifs <;> rfl
    · rw [hpart]
      split_ifs with hqp
      · rw [hqp]; rfl
      · rfl
    · rw [hpart]
      split_ifs with hqp
      · rw [hqp]; rfl
      · rfl
    · rw [worldSlot, hpart]
      split_ifs
      · rfl
      · exact hq
  · exact EndedPlain.refl s

theorem endedPlain_endTasks (l : List Nat) : ∀ s, (∀ p, worldSlot s p = 0) → EndedPlain s (l.foldl endTask s) := by
  induction l with
  | nil => exact fun s _ => EndedPlain.refl s
  | cons p r ih =>
    intro s h
    have hp := endedPlain_endTask (h p)
    exact hp.trans (ih _ fun q => hp.worlds q (h q))

theorem foldl_finishErase_none (l : List Nat) : ∀ s : State, (∀ p, (getPart s p).erasing = []) → l.foldl finishErase s = s := by
  induction l with
  | nil => exact fun s _ => rfl
  | cons p r ih =>
    intro s h
    have hp : finishErase s p = s := by rw [finishErase, h p]; rfl
    rw [List.foldl_cons, hp]
    exact ih s h

/-- What a package reset makes of the state once its tasks have ended and its keys are erased (R465). -/
def State.rested (u : State) : State :=
  { u with
    cores := u.cores.map fun e => (e.1, resetCore e.2), strings := u.strings.map fun e => (e.1, resetString e.2)
    dies := resetDies u, parts := u.parts.map fun e => (e.1, resetPart e.2), vdedup := []
    lands := [], gran := { u.gran with derated := 0 }, bilsol := resetBilsol u.bilsol, scope := none }

theorem resetPackage_eq (s : State) :
    resetPackage s = ((s.parts.map (·.1)).foldl finishErase ((s.parts.map (·.1)).foldl endTask s)).rested := rfl

/-- Where no partition runs a world and no key is being erased, a package reset ends the tasks and resets what they ran on. -/
theorem resetPackage_plain {s : State} (hw : ∀ p, worldSlot s p = 0) (he : ∀ p, (getPart s p).erasing = []) :
    ∃ u, EndedPlain s u ∧ resetPackage s = u.rested := by
  have hplain := endedPlain_endTasks (s.parts.map (·.1)) s hw
  refine ⟨_, hplain, ?_⟩
  rw [resetPackage_eq, foldl_finishErase_none _ _ fun p => by rw [hplain.erasing p, he p]]

theorem resetPart_fields (x : Part) :
    (resetPart x).launch = none ∧ (resetPart x).st = .idle ∧ (resetPart x).phase = 0 ∧ (resetPart x).wdog = x.wdog := by
  unfold resetPart scrubOnly
  split_ifs <;> exact ⟨rfl, rfl, rfl, rfl⟩

theorem getBind_resetDies (s t : State) (h : t.dies = resetDies s) (d i : Nat) : getBind t d i = Bind.zero := by
  have hdie : (getDie t d).binds = [] := by
    rw [getDie, h]
    rcases spGet_mem_or_default Die.zero (resetDies s) d with hm | hz
    · obtain ⟨e, -, he⟩ := List.mem_map.mp hm
      rw [← (Prod.mk.inj he).2]
      rfl
    · rw [hz]
      rfl
  rw [getBind, hdie]
  rfl

end Sys2Proof.Machine
end

section
/-!
PROOF. O48: SUBMIT, RESULT, RESET and function-level reset (R209, R461, R465).
-/
namespace Sys2Proof.Machine

/-! ## What the parts of a command read of the host's function -/

theorem status_answerCmd {s : State} {op : Byte} {c : HostCmd} {x : State × Reply} (ht : x.1.host.rsTail = s.host.rsTail)
    (hn : x.2.status < 256) :
    (memGet (answerCmd op c x).host.resps (64 * (s.host.rsTail.toNat % 64) + 1)).toNat = x.2.status := by
  rw [← ht]
  exact answerCmd_status op c x hn

/-- A command that is refused, or that changes nothing, answers with its status and leaves the rest of the state. -/
theorem runCmd_same {s u : State} {op : Byte} {c : HostCmd} {f : State → State × Reply} {r : Reply} (hr : c.rsv = 0)
    (hb : bit s.gran.bootStat 0 = true) (hf : f (takeCmd s op c) = (u, r)) (hu : ∃ h, u = { s with host := h } ∧ h.rsTail = s.host.rsTail)
    (hn : r.status < 256) :
    runCmd op c booted f s = .next (answerCmd op c (u, r)) ∧ { answerCmd op c (u, r) with host := s.host } = s ∧
      (memGet (answerCmd op c (u, r)).host.resps (64 * (s.host.rsTail.toNat % 64) + 1)).toNat = r.status := by
  obtain ⟨h, rfl, ht⟩ := hu
  exact ⟨by rw [runCmd_booted hr hb, hf], rfl, status_answerCmd ht hn⟩

theorem takeCmd_host (s : State) (op : Byte) (c : HostCmd) : ∃ h, takeCmd s op c = { s with host := h } ∧ h.rsTail = s.host.rsTail := by
  obtain ⟨a, b, d, ht⟩ := takeCmd_rest s op c
  exact ⟨_, ht, rfl⟩

/-- An instruction answers a command with a status and changes nothing but the host's function. -/
def Answers (s : State) (i : Instr) (n : Nat) : Prop :=
  ∃ t, exec i s = .next t ∧ { t with host := s.host } = s ∧
    (memGet t.host.resps (64 * (s.host.rsTail.toNat % 64) + 1)).toNat = n

/-! ## SUBMIT (R209, R461) -/

theorem answers_submit {s : State} {c : HostCmd} {n : Nat} (hr : c.rsv = 0) (hb : bit s.gran.bootStat 0 = true) (hn : n < 256)
    (h : submit (takeCmd s 5 c) c.a0 c.a1 = (takeCmd s 5 c, .only n)) : Answers s (.hostSubmit c) n :=
  ⟨_, runCmd_same (f := fun s => submit s c.a0 c.a1) hr hb h (takeCmd_host s 5 c) hn⟩

/-- What SUBMIT writes to a die's record for these strings. -/
def submitted (va mask : Word) (strs : List Nat) (p d : Nat) : BindWrite :=
  { lrVa := va, strings := maskOf 32 ((strs.filter fun n => decide (n / 32 = d)).map (· % 32)), part := Fin.ofNat 256 p, state := 1
    diemask := mask.setWidth 16 }

/-- SUBMIT's write on one die. -/
def submitOne (va mask : Word) (strs : List Nat) (p : Nat) (s : State) (d : Nat) : State :=
  writeBind s d ((freeRecord s d).getD 0) (submitted va mask strs p d) true

/-- A FREE record with SUBMIT's write. -/
def Bind.submit (r : BindWrite) (b : Bind) : Bind :=
  { b with lrVa := r.lrVa, strings := r.strings, part := r.part, diemask := r.diemask, state := .bound, host := true }

theorem freeRecord_free {s : State} {d i : Nat} (h : freeRecord s d = some i) : (getBind s d i).state = .free :=
  of_decide_eq_true (List.find?_some (p := fun i => decide ((getBind s d i).state = .free)) h)

theorem submitOne_eq {s : State} {d i : Nat} (va mask : Word) (strs : List Nat) (p : Nat) (hf : freeRecord s d = some i)
    (hp : bit s.gran.present d = true) (hb : bindsBlocked s = false) :
    submitOne va mask strs p s d = modBind s d i (Bind.submit (submitted va mask strs p d)) := by
  have hfree := freeRecord_free hf
  have hopen : ¬ ((getBind s d i).state = .armed ∨ (getBind s d i).state = .running ∨ (getBind s d i).state = .scrub) := by
    rw [hfree]
    decide
  rw [submitOne, hf, Option.getD_some, writeBind_of_open hopen hp hb, if_pos ⟨rfl, .inl hfree⟩]
  rfl

theorem freeRecord_congr {s t : State} {d : Nat} (h : getDie t d = getDie s d) : freeRecord t d = freeRecord s d := by
  unfold freeRecord getBind
  rw [h]

/-- SUBMIT over dies that are all different, each released with a FREE record: each die's lowest FREE record is bound. -/
theorem foldl_submitOne (va mask : Word) (strs : List Nat) (p : Nat) (l : List Nat) (hl : l.Nodup) : ∀ s : State,
    (∀ d ∈ l, bit s.gran.present d = true ∧ (freeRecord s d).isSome = true) → bindsBlocked s = false →
    (∃ v, l.foldl (submitOne va mask strs p) s = { s with dies := v }) ∧
    (∀ d, d ∉ l → getDie (l.foldl (submitOne va mask strs p) s) d = getDie s d) ∧
    ∀ d ∈ l, ∀ i, freeRecord s d = some i → ∀ k, getBind (l.foldl (submitOne va mask strs p) s) d k =
      if k = i then Bind.submit (submitted va mask strs p d) (getBind s d i) else getBind s d k := by
  induction l with
  | nil => exact fun s _ _ => ⟨⟨s.dies, rfl⟩, fun _ _ => rfl, fun _ h => nomatch h⟩
  | cons e r ih =>
    intro s hs hb
    obtain ⟨he, hr⟩ := List.nodup_cons.mp hl
    obtain ⟨hpe, hfe⟩ := hs e List.mem_cons_self
    obtain ⟨j, hj⟩ := Option.isSome_iff_exists.mp hfe
    have hstep := submitOne_eq va mask strs p hj hpe hb
    generalize hu : modBind s e j (Bind.submit (submitted va mask strs p e)) = u at hstep
    have hrest : ∃ v, u = { s with dies := v } := ⟨_, hu.symm⟩
    have hother : ∀ d, d ≠ e → getDie u d = getDie s d := fun d hd => by
      rw [← hu]
      exact (getDie_modDie s e d _).trans (if_neg hd)
    have hget : ∀ d k, getBind u d k = if d = e ∧ k = j then Bind.submit (submitted va mask strs p e) (getBind s e j) else getBind s d k :=
      fun d k => by rw [← hu, getBind_modBind]
    obtain ⟨v, hv⟩ := hrest
    obtain ⟨⟨w, hw⟩, hout, hin⟩ := ih hr u (fun d hd => by
      rw [freeRecord_congr (hother d fun h => he (h ▸ hd)), hv]
      exact hs d (List.mem_cons_of_mem e hd)) (by rw [hv]; exact hb)
    rw [List.foldl_cons, hstep]
    refine ⟨⟨w, by rw [hw, hv]⟩, fun d hd => ?_, fun d hd i hi k => ?_⟩
    · rw [List.mem_cons, not_or] at hd
      rw [hout d hd.2, hother d hd.1]
    · rcases List.mem_cons.mp hd with rfl | hd
      · have hij : i = j := Option.some.inj (hi.symm.trans hj)
        have hdie := hout d he
        rw [getBind, hdie, ← getBind, hget, hij]
        simp only [true_and]
      · have hne : d ≠ e := fun h => he (h ▸ hd)
        have hfree : freeRecord u d = some i := by rw [freeRecord_congr (hother d hne), hi]
        have hsame : ∀ k, getBind u d k = getBind s d k := fun k => (hget d k).trans (if_neg fun h => hne h.1)
        rw [hin d hd i hfree k, hsame, hsame]

theorem mem_submitDies {mask : Word} {d : Nat} : d ∈ bitList (mask.setWidth 8) ↔ d < 8 ∧ bit mask d = true := by
  rw [mem_bitList]
  simp [bit]

/-- SUBMIT with a partition number and a FREE record on every die that it names. -/
theorem submit_binds {s : State} {va mask : Word} {p : Nat} (hz : mask ≠ 0) (hm : mask.toNat < 256)
    (hd : ∀ d < 8, bit mask d = true → powered s d = true ∧ (freeRecord s d).isSome = true) (hb : bindsBlocked s = false)
    (hp : submitPart s ((bitList (mask.setWidth 8)).headD 0) va = some p) :
    ∃ strs, submit s va mask =
      ((bitList (mask.setWidth 8)).foldl (submitOne va mask strs p) s, { status := 0, value := some (wd p), data := [] }) := by
  have hdies : ∀ d ∈ bitList (mask.setWidth 8), powered s d = true ∧ (freeRecord s d).isSome = true := fun d h =>
    hd d (mem_submitDies.mp h).1 (mem_submitDies.mp h).2
  have hpow : ((bitList (mask.setWidth 8)).any fun d => !powered s d) = false :=
    List.any_eq_false.mpr fun d h => by simp [(hdies d h).1]
  have hrec : ((bitList (mask.setWidth 8)).any fun d => (freeRecord s d).isNone) = false :=
    List.any_eq_false.mpr fun d h => by simp [Option.isSome_iff_ne_none.mp (hdies d h).2]
  have hmask : ¬ (mask.toNat = 0 ∨ 256 ≤ mask.toNat) := fun h => h.elim (fun h => hz (BitVec.eq_of_toNat_eq h)) (by omega)
  refine ⟨((readLr s ((bitList (mask.setWidth 8)).headD 0) p va).map LrRaw.strings).getD [], ?_⟩
  unfold submit
  dsimp only
  rw [if_neg hmask, hpow, if_neg Bool.false_ne_true, hp]
  dsimp only
  rw [hb, hrec, if_neg (by decide)]
  rfl

theorem submit_unnamed {mask : Word} (h : mask = 0 ∨ 256 ≤ mask.toNat) (s : State) (va : Word) : submit s va mask = (s, .only 2) :=
  if_pos (h.imp (fun h => by rw [h]; rfl) id)

theorem submit_unpowered {s : State} {mask : Word} {d : Nat} (hz : mask ≠ 0) (hm : mask.toNat < 256) (hd : d < 8)
    (hn : bit mask d = true) (hp : powered s d = false) (va : Word) : submit s va mask = (s, .only 5) := by
  have hany : ((bitList (mask.setWidth 8)).any fun d => !powered s d) = true :=
    List.any_eq_true.mpr ⟨d, mem_submitDies.mpr ⟨hd, hn⟩, by simpa using hp⟩
  have hmask : ¬ (mask.toNat = 0 ∨ 256 ≤ mask.toNat) := fun h => h.elim (fun h => hz (BitVec.eq_of_toNat_eq h)) (by omega)
  unfold submit
  dsimp only
  rw [if_neg hmask, if_pos hany]

/-! ## RESULT (R461) -/

/-- What RESULT replies. -/
def resultOf (c : HostCmd) (s : State) : Reply :=
  if ¬ lenOk c.a2 ∨ 2 ^ 48 ≤ c.a0.toNat then .only 2 else resultReply s (c.a0.setWidth 48) c.a1.toNat c.a2.toNat

theorem answers_result {s : State} {c : HostCmd} {n : Nat} (hr : c.rsv = 0) (hb : bit s.gran.bootStat 0 = true) (hn : n < 256)
    (h : resultOf c (takeCmd s 6 c) = .only n) : Answers s (.hostResult c) n :=
  ⟨_, runCmd_same (f := fun s => (s, resultOf c s)) hr hb (congrArg (Prod.mk _) h) (takeCmd_host s 6 c) hn⟩

theorem lenOk_iff (v : Word) : lenOk v = true ↔ 1 ≤ v.toNat ∧ v.toNat ≤ 32 := by
  simp [lenOk]

theorem resultOf_eq {c : HostCmd} (h1 : 1 ≤ c.a2.toNat) (h32 : c.a2.toNat ≤ 32) (h48 : c.a0.toNat < 2 ^ 48) (s : State) :
    resultOf c s = resultReply s (c.a0.setWidth 48) c.a1.toNat c.a2.toNat := by
  exact if_neg fun h => h.elim (fun h => h ((lenOk_iff _).mpr ⟨h1, h32⟩)) (by omega)

theorem resultReply_refused {s : State} {tid : BitVec 48} {g : Gen} (hg : latestGen s tid (fun g => decide (g.state = 5)) = some g)
    (hk : ¬ (g.keyslot = 0 ∨ (getKey s g.keyslot).exp = true)) (off n : Nat) : resultReply s tid off n = .only 3 := by
  unfold resultReply
  rw [hg]
  exact if_pos hk

theorem resultReply_past {s : State} {tid : BitVec 48} {g : Gen} {off n : Nat}
    (hg : latestGen s tid (fun g => decide (g.state = 5)) = some g) (hk : g.keyslot = 0 ∨ (getKey s g.keyslot).exp = true)
    (hs : g.size < off + n) : resultReply s tid off n = .only 2 := by
  unfold resultReply
  rw [hg]
  exact (if_neg (not_not.mpr hk)).trans (if_pos hs)

theorem resultReply_bytes {s : State} {tid : BitVec 48} {g : Gen} {off n : Nat} {bs : List Byte}
    (hg : latestGen s tid (fun g => decide (g.state = 5)) = some g) (hbs : releasedBytes s g off n = some bs) :
    resultReply s tid off n = { status := 0, value := none, data := bs } := by
  obtain ⟨hs, hk⟩ := releasedBytes_open hbs
  unfold resultReply
  rw [hg]
  refine (if_neg (not_not.mpr hk)).trans ((if_neg hs).trans ?_)
  rw [hbs]

/-! ## RESET (R465) -/

theorem answers_reset {s : State} {c : HostCmd} {i : Instr} {n : Nat} (hi : i = .hostResetPartition c ∨ i = .hostResetPackage c)
    (hr : c.rsv = 0) (hb : bit s.gran.bootStat 0 = true) (hn : n < 256)
    (h : hostReset c (takeCmd s 7 c) = (takeCmd s 7 c, .only n)) : Answers s i n := by
  have hrun := runCmd_same hr hb h (takeCmd_host s 7 c) hn
  rcases hi with rfl | rfl
  · exact ⟨_, hrun⟩
  · exact ⟨_, hrun⟩

/-- A partition whose task is being aborted (R192). -/
def Part.aborting (y : Part) : Part := { y with st := .aborting, waitStart := false, holding := none }

theorem resetPartition_of_over {s : State} {p : Nat} (h : (getPart s p).launch = none ∨ (getPart s p).st = .aborting) :
    resetPartition s p = s := if_pos (h.imp_left Option.isNone_iff_eq_none.mpr)

theorem resetPartition_of_launch {s : State} {p : Nat} (h : ¬ ((getPart s p).launch = none ∨ (getPart s p).st = .aborting)) :
    resetPartition s p = modPart s p Part.aborting := if_neg fun hn => h (hn.imp_left Option.isNone_iff_eq_none.mp)

theorem exec_reset {s : State} {c : HostCmd} {i : Instr} (hi : i = .hostResetPartition c ∨ i = .hostResetPackage c)
    (hr : c.rsv = 0) (hb : bit s.gran.bootStat 0 = true) : exec i s = .next (answerCmd 7 c (hostReset c (takeCmd s 7 c))) := by
  rcases hi with rfl | rfl
  · exact runCmd_booted hr hb 7 _
  · exact runCmd_booted hr hb 7 _

/-! ## The obligation -/

/-- The package reset of the state as the host's function has moved on. -/
theorem rested_fields {s u : State} (h : EndedPlain s u) :
    (∀ k, (getCore u.rested k).part = none ∧ (getCore u.rested k).spad = [] ∧ (getCore u.rested k).ballast = (getCore s k).ballast) ∧
    (∀ p, (getPart u.rested p).launch = none ∧ (getPart u.rested p).st = .idle ∧ (getPart u.rested p).phase = 0 ∧
      (getPart u.rested p).wdog = (getPart s p).wdog) ∧
    (∀ d i, getBind u.rested d i = Bind.zero) ∧ u.rested.vault = s.vault ∧ u.rested.gran.keys = s.gran.keys ∧
    u.rested.gran.meas = s.gran.meas ∧ u.rested.gran.strikes = s.gran.strikes ∧ u.rested.gran.frec = s.gran.frec ∧
    u.rested.gran.frecTail = s.gran.frecTail ∧ u.rested.bilsol.devnum = s.bilsol.devnum ∧ u.rested.host.rsTail = s.host.rsTail ∧
    u.rested.spdm = s.spdm := by
  have hcore : ∀ k, getCore u.rested k = resetCore (getCore u k) := fun k => spGet_map_snd rfl u.cores k
  have hpart : ∀ p, getPart u.rested p = resetPart (getPart u p) := fun p => spGet_map_snd rfl u.parts p
  have hgran := h.ended.gran
  obtain ⟨cores, strings, dies, parts, gran, host, hu⟩ := h.ended.rest
  refine ⟨fun k => ?_, fun p => ?_, getBind_resetDies u _ rfl, ?_, h.keys, congrArg (·.meas) hgran, congrArg (·.strikes) hgran,
    congrArg (·.frec) hgran, congrArg (·.frecTail) hgran, ?_, h.ended.host.rsTail, ?_⟩
  · rw [hcore]
    exact ⟨rfl, rfl, h.ballast k⟩
  · obtain ⟨hl, hst, hph, hwd⟩ := resetPart_fields (getPart u p)
    rw [hpart]
    exact ⟨hl, hst, hph, hwd.trans (h.wdog p)⟩
  · exact (congrArg (fun t : State => t.vault) hu :)
  · exact (congrArg (fun t : State => t.bilsol.devnum) hu :)
  · exact (congrArg (fun t : State => t.spdm) hu :)

/-- Settles O48: a command that is refused changes only the host's function; SUBMIT by `foldl_submitOne`; RESULT by the length of what
`releasedBytes` gives; a package reset by what the ends of its tasks leave. -/
theorem hostTasks : Obligations.HostTasks := by
  intro c s at_ status same five six latest named refuses x hr hb
  obtain ⟨h5, htake5, htail5⟩ := takeCmd_host s 5 c
  obtain ⟨h6, htake6, htail6⟩ := takeCmd_host s 6 c
  obtain ⟨h7, htake7, htail7⟩ := takeCmd_host s 7 c
  refine ⟨fun hm => answers_submit hr hb (by decide) (submit_unnamed hm _ _), fun hz hm => ⟨?_, ?_⟩, fun hbad => ?_,
    fun h1 h32 h48 => ⟨fun hg => ?_, fun g hg hk => ?_, fun g hg hk hs => ?_, fun g bs hg hbs => ?_⟩,
    fun i hi => ⟨fun h => ?_, fun hlt hx => ?_, fun hlt hl hst => ?_, fun h => ?_⟩, rfl, fun b hbs hw he => ?_⟩
  · rintro ⟨d, hd, hn, hpow⟩
    exact answers_submit hr hb (by decide) (submit_unpowered hz hm hd hn (by rw [htake5]; exact hpow) _)
  · intro hd hblock p hp hp256
    have hd5 : ∀ d < 8, bit c.a1 d = true → powered five d = true ∧ (freeRecord five d).isSome = true := by
      rw [show five = _ from htake5]
      exact hd
    have hb5 : bindsBlocked five = false := by
      rw [show five = _ from htake5]
      exact hblock
    obtain ⟨strs, hsub⟩ := submit_binds hz hm hd5 hb5 hp
    obtain ⟨⟨v, hv⟩, hout, hin⟩ := foldl_submitOne c.a0 c.a1 strs p (bitList (c.a1.setWidth 8)) (bitList_nodup _) five
      (fun d h => (hd5 d (mem_submitDies.mp h).1 (mem_submitDies.mp h).2).imp_left fun h => (Bool.and_eq_true_iff.mp h).1) hb5
    generalize hu : (bitList (c.a1.setWidth 8)).foldl (submitOne c.a0 c.a1 strs p) five = u at hsub hv hout hin
    have hexec : exec (.hostSubmit c) s = .next (answerCmd 5 c (u, { status := 0, value := some (wd p), data := [] })) :=
      (runCmd_booted hr hb 5 fun s => submit s c.a0 c.a1).trans (by rw [show takeCmd s 5 c = five from rfl, hsub])
    have htail : u.host.rsTail = s.host.rsTail := by
      rw [hv, show five = _ from htake5]
      exact htail5
    have hval := answerCmd_value 5 c (u, { status := 0, value := some (wd p), data := [] }) (v := wd p) (by simp) rfl
    have hst := answerCmd_status 5 c (u, { status := 0, value := some (wd p), data := [] }) (by simp)
    rw [htail] at hval hst
    refine ⟨_, hexec, hst, hval.trans (Nat.mod_eq_of_lt (by omega)), ?_, fun d hd8 hn => ?_, fun d hd8 hn i hi => ?_⟩
    · rw [hv, show five = _ from htake5]
      rfl
    · refine (hout d fun h => hn (mem_submitDies.mp h).2).trans ?_
      rw [show five = _ from htake5]
      rfl
    · have hfree5 : freeRecord five d = some i := by rw [show five = _ from htake5]; exact hi
      have hget := hin d (mem_submitDies.mpr ⟨hd8, hn⟩) i hfree5
      refine ⟨fun k hk => (hget k).trans ((if_neg hk).trans (by rw [show five = _ from htake5]; rfl)), ?_⟩
      have hbind := (hget i).trans (if_pos rfl)
      generalize hB : getBind u d i = B at hbind
      have hB' : getBind (answerCmd 5 c (u, { status := 0, value := some (wd p), data := [] })) d i = B := hB
      rw [hB', hbind]
      exact ⟨rfl, rfl, rfl, Nat.mod_eq_of_lt hp256, rfl⟩
  · refine answers_result hr hb (by decide) (if_pos ?_)
    rw [lenOk_iff]
    omega
  · refine answers_result hr hb (by decide) ((resultOf_eq h1 h32 h48 _).trans ?_)
    unfold resultReply
    rw [show latestGen (takeCmd s 6 c) _ _ = none from hg]
  · have hk6 : ¬ (g.keyslot = 0 ∨ (getKey (takeCmd s 6 c) g.keyslot).exp = true) := by
      rw [htake6]
      exact fun h => h.elim hk.1 fun h => Bool.false_ne_true (hk.2.symm.trans h)
    exact answers_result hr hb (by decide) ((resultOf_eq h1 h32 h48 _).trans (resultReply_refused hg hk6 _ _))
  · have hk6 : g.keyslot = 0 ∨ (getKey (takeCmd s 6 c) g.keyslot).exp = true := by
      rw [htake6]
      exact hk
    exact answers_result hr hb (by decide) ((resultOf_eq h1 h32 h48 _).trans (resultReply_past hg hk6 hs))
  · have hreply := (resultOf_eq h1 h32 h48 _).trans (resultReply_bytes hg hbs)
    have hlen := releasedBytes_length hbs
    obtain ⟨hexec, hsame, hst⟩ := runCmd_same (f := fun s => (s, resultOf c s)) hr hb (congrArg (Prod.mk _) hreply)
      (takeCmd_host s 6 c) (by simp)
    have hn := answerCmd_len 6 c (takeCmd s 6 c, { status := 0, value := none, data := bs }) (hlen.le.trans h32)
    have hdata := answerCmd_data 6 c (takeCmd s 6 c, { status := 0, value := none, data := bs }) (hlen.le.trans h32)
    rw [htake6] at hn hdata
    dsimp only at hn hdata
    rw [htail6] at hn hdata
    rw [hlen] at hn hdata
    refine ⟨_, hexec, hsame, hst, ?_, ?_⟩
    · rw [htake6]
      exact hn
    · rw [htake6]
      exact hdata
  · refine answers_reset hi hr hb (by decide) ?_
    rw [hostReset, if_neg (by omega), if_neg (by omega)]
  · refine answers_reset hi hr hb (by decide) ?_
    rw [hostReset, if_neg (by omega), if_pos hlt, resetPartition_of_over]
    rw [htake7]
    exact hx
  · have hreset : hostReset c (takeCmd s 7 c) = (modPart (takeCmd s 7 c) c.a0.toNat Part.aborting, .only 0) := by
      rw [hostReset, if_neg (by omega), if_pos hlt, resetPartition_of_launch]
      rw [htake7]
      exact not_or.mpr ⟨hl, hst⟩
    refine ⟨_, (exec_reset hi hr hb).trans (congrArg (fun x => Host.Outcome.next (answerCmd 7 c x)) hreset), ?_, ?_⟩
    · exact status_answerCmd (x := (modPart (takeCmd s 7 c) c.a0.toNat Part.aborting, .only 0)) (by rw [htake7]; exact htail7)
        (by simp [Reply.only])
    · rw [htake7]
      rfl
  · have hreset : hostReset c (takeCmd s 7 c) = (resetPackage (takeCmd s 7 c), .only 0) := if_pos (by rw [h]; rfl)
    exact ⟨_, (exec_reset hi hr hb).trans (congrArg (fun x => Host.Outcome.next (answerCmd 7 c x)) hreset),
      status_answerCmd (x := (resetPackage (takeCmd s 7 c), .only 0)) (by rw [rsTail_resetPackage, htake7]; exact htail7)
        (by simp [Reply.only]), rfl⟩
  · obtain ⟨h, rfl⟩ : ∃ h, b = { s with host := h } := by
      rcases hbs with rfl | rfl
      · exact ⟨b.host, rfl⟩
      · exact ⟨h7, htake7⟩
    obtain ⟨u, hu, hreset⟩ := resetPackage_plain (s := { s with host := h }) hw he
    intro t
    rw [show t = u.rested from hreset]
    exact rested_fields hu

end Sys2Proof.Machine
end

section
/-!
SUPPORT. The boundary between two phases (R191, R234, R239, R255, R280, R305): what the opens and seals of posted entries, the
write-back of the reduction stores, the close of contexts still open and the start of an exchange phase change, and what they leave.
-/
namespace Sys2Proof.Machine

/-! ## Opens and seals (R234, R280) -/

/-- What opens and seals change: cores, dies, vault memory, what the Granite die keeps of generations, and of a partition its count of
dropped notifications and whether its save is good. -/
structure Tensored (s t : State) : Prop where
  rest : ∃ cores dies parts vault written gran,
    t = { s with cores := cores, dies := dies, parts := parts, vault := vault, written := written, gran := gran }
  part : ∀ q, ∃ ndrop saved, getPart t q = { getPart s q with ndrop := ndrop, saved := saved }

theorem tensored_of_parts {s t : State} (h : ∃ cores dies vault written gran,
    t = { s with cores := cores, dies := dies, vault := vault, written := written, gran := gran }) : Tensored s t := by
  obtain ⟨c, d, v, w, g, rfl⟩ := h
  exact ⟨⟨c, d, s.parts, v, w, g, rfl⟩, fun q => ⟨(getPart s q).ndrop, (getPart s q).saved, rfl⟩⟩

theorem Tensored.refl (s : State) : Tensored s s := tensored_of_parts ⟨s.cores, s.dies, s.vault, s.written, s.gran, rfl⟩

theorem Tensored.trans {a b c : State} (h : Tensored a b) (h' : Tensored b c) : Tensored a c := by
  obtain ⟨⟨c1, d1, p1, v1, w1, g1, hrest⟩, hpart⟩ := h
  obtain ⟨⟨c2, d2, p2, v2, w2, g2, hrest'⟩, hpart'⟩ := h'
  refine ⟨⟨c2, d2, p2, v2, w2, g2, by rw [hrest', hrest]⟩, fun q => ?_⟩
  obtain ⟨n, b, hq⟩ := hpart q
  obtain ⟨n', b', hq'⟩ := hpart' q
  exact ⟨n', b', by rw [hq', hq]⟩

theorem Tensored.foldl {α : Type} {f : State → α → State} (h : ∀ s a, Tensored s (f s a)) (l : List α) :
    ∀ s, Tensored s (l.foldl f s) := by
  induction l with
  | nil => exact Tensored.refl
  | cons a r ih => exact fun s => (h s a).trans (ih _)

theorem tensored_modCore (s : State) (c : Nat) (f : Core → Core) : Tensored s (modCore s c f) :=
  tensored_of_parts ⟨_, s.dies, s.vault, s.written, s.gran, rfl⟩

theorem tensored_modDie (s : State) (d : Nat) (f : Die → Die) : Tensored s (modDie s d f) :=
  tensored_of_parts ⟨s.cores, _, s.vault, s.written, s.gran, rfl⟩

theorem tensored_modPart (s : State) (p : Nat) (f : Part → Part)
    (hf : ∀ x, ∃ ndrop saved, f x = { x with ndrop := ndrop, saved := saved }) : Tensored s (modPart s p f) := by
  refine ⟨⟨s.cores, s.dies, _, s.vault, s.written, s.gran, rfl⟩, fun q => ?_⟩
  rw [getPart_modPart]
  split_ifs with h
  · rw [h]
    exact hf _
  · exact (Tensored.refl s).part q

theorem tensored_postEvent (s : State) (d : Nat) (e : EventRec) : Tensored s (postEvent s d e) :=
  tensored_of_parts ⟨s.cores, _, s.vault, s.written, s.gran, rfl⟩

theorem tensored_setEntState (s : State) (c pos : Nat) (v : BitVec 8) : Tensored s (setEntState s c pos v) :=
  tensored_of_parts ⟨_, s.dies, s.vault, s.written, s.gran, rfl⟩

theorem tensored_modExch (s : State) (c : Nat) (f : Exch → Exch) : Tensored s (modExch s c f) := tensored_modCore s c _

theorem tensored_parkEnt (s : State) (c pos : Nat) (cause : Byte) (addr : Word) : Tensored s (parkEnt s c pos cause addr) := by
  unfold parkEnt
  dsimp only
  refine Tensored.trans ?_ (tensored_postEvent _ _ _)
  have h := tensored_setEntState s c pos ((getEnt s c pos).state ||| 4)
  split_ifs
  · exact h.trans ((tensored_modExch _ c _).trans (tensored_modCore _ c _))
  · exact h.trans (tensored_modExch _ c _)

theorem tensored_notify (s : State) (p kind idx : Nat) (tid : BitVec 48) (ver len : Nat) (value : Word) :
    Tensored s (notify s p kind idx tid ver len value) := by
  unfold notify
  dsimp only
  split_ifs
  · exact tensored_modPart s p _ fun x => ⟨_, x.saved, rfl⟩
  · refine Tensored.trans ?_ (tensored_modPart _ p _ fun x => ⟨x.ndrop, _, rfl⟩)
    refine Tensored.foldl (fun s c => ?_) _ s
    exact tensored_modCore s c _

theorem replWrite_rest (s : State) (loc : Nat) (bs : List Byte) : ∃ v, replWrite s loc bs = { s with vault := v } := by
  suffices h : ∀ (l : List Nat) (s : State),
      ∃ v, l.foldl (fun s d => vaultWrite s (d * 2 ^ 36 + loc % 2 ^ 36) bs) s = { s with vault := v } from h _ s
  intro l
  induction l with
  | nil => exact fun s => ⟨s.vault, rfl⟩
  | cons d r ih =>
    intro s
    obtain ⟨v, hv⟩ := ih (vaultWrite s (d * 2 ^ 36 + loc % 2 ^ 36) bs)
    exact ⟨v, hv⟩

theorem tensored_setGen (s : State) (g : Gen) : Tensored s (setGen s g) := by
  obtain ⟨v, hv⟩ := replWrite_rest s (ttAddr s g.idx) (genBytes g)
  exact tensored_of_parts ⟨s.cores, s.dies, v, s.written, s.gran, hv⟩

theorem Tensored.written {s t : State} (h : Tensored s t) (w : Sparse (List Nat)) (f : Granite → Granite) :
    Tensored s (modGran { t with written := w } f) :=
  h.trans (tensored_of_parts ⟨t.cores, t.dies, t.vault, w, f t.gran, rfl⟩)

theorem tensored_openGen {s t : State} {p i : Nat} (h : openGen s p i = some t) : Tensored s t := by
  unfold openGen at h
  dsimp only at h
  split at h
  · rw [← Option.some.inj h]
    exact Tensored.refl s
  · split at h
    · cases h
    · split at h
      · cases h
      · split at h
        · cases h
        · split at h
          · cases h
          · rw [← Option.some.inj h]
            refine (Tensored.trans ?_ (tensored_setGen _ _)).written _ _
            refine Tensored.foldl (fun s x => ?_) _ s
            exact tensored_modDie s _ _

theorem tensored_sealGen {s t : State} {p i : Nat} (h : sealGen s p i = some t) : Tensored s t := by
  unfold sealGen at h
  dsimp only at h
  split_ifs at h
  · rw [← Option.some.inj h]
    exact Tensored.refl s
  · rw [← Option.some.inj h]
    refine Tensored.trans ?_ (tensored_notify _ _ _ _ _ _ _ _)
    refine Tensored.trans ?_ (tensored_setGen _ _)
    exact tensored_of_parts ⟨_, _, _, _, _, rfl⟩

theorem tensored_tensorEffect {f : State → Nat → Nat → Option State} (hf : ∀ {s t p i}, f s p i = some t → Tensored s t) (p : Nat)
    (posts : List (Nat × Nat × Nat)) (s : State) (i : Nat) : Tensored s (tensorEffect f p posts s i) := by
  unfold tensorEffect
  dsimp only
  split
  next t ht =>
    refine (hf ht).trans (Tensored.foldl (fun s x => ?_) _ t)
    exact tensored_setEntState s _ _ _
  next =>
    refine Tensored.foldl (fun s x => ?_) _ s
    exact tensored_parkEnt s _ _ _ _

theorem tensored_tensorPhase (s : State) (p op : Nat) : Tensored s (tensorPhase s p op) := by
  unfold tensorPhase
  dsimp only
  refine Tensored.foldl (fun s i => ?_) _ s
  split_ifs
  · exact tensored_tensorEffect tensored_openGen p _ s i
  · exact tensored_tensorEffect tensored_sealGen p _ s i

theorem tensorPhase_of_nil {s : State} {p op : Nat} (h : tensorPosts s p op = []) : tensorPhase s p op = s := by
  unfold tensorPhase
  rw [h]
  rfl

/-! ## The reduction stores (R239) -/

/-- A change of dies, of vault memory and of its seals. -/
def Stored (s t : State) : Prop := ∃ dies vault side, t = { s with dies := dies, vault := vault, side := side }

theorem Stored.refl (s : State) : Stored s s := ⟨s.dies, s.vault, s.side, rfl⟩

theorem Stored.trans {a b c : State} (h : Stored a b) (h' : Stored b c) : Stored a c := by
  obtain ⟨d, v, x, rfl⟩ := h
  obtain ⟨d', v', x', rfl⟩ := h'
  exact ⟨d', v', x', rfl⟩

theorem Stored.foldl {α : Type} {f : State → α → State} (h : ∀ s a, Stored s (f s a)) (l : List α) : ∀ s, Stored s (l.foldl f s) := by
  induction l with
  | nil => exact Stored.refl
  | cons a r ih => exact fun s => (h s a).trans (ih _)

theorem stored_storeLine (s : State) (g : Gen) (l : Leaf) (va : Nat) (bs : List Byte) : Stored s (storeLine s g l va bs) := by
  unfold storeLine
  refine Stored.foldl (fun s pa => ?_) _ s
  exact ⟨s.dies, _, _, rfl⟩

theorem stored_redWriteback (s : State) (p : Nat) : Stored s (redWriteback s p) := by
  unfold redWriteback
  refine Stored.foldl (fun s d => ?_) _ s
  refine Stored.trans (Stored.foldl (fun s e => ?_) _ s) ⟨_, _, _, rfl⟩
  dsimp only
  split
  · exact stored_storeLine s _ _ _ _
  · exact Stored.refl s

/-! ## The start of an exchange phase (R191, R255) -/

/-- A core as its exchange phase begins. -/
def Core.enterExchange (co : Core) : Core := { co with pst := .exchange, named := false, exch := { co.exch with start := co.spad } }

/-- A core that is in its exchange phase, or past it, with the scratchpad that its transfers read. -/
def Core.exchanging (co : Core) : Prop := (co.pst = .exchange ∨ co.pst = .xdone) ∧ co.named = false ∧ co.exch.start = co.spad

/-- One core begins its exchange phase. -/
def enterExchange (s : State) (c : Nat) : State := retest (modCore s c Core.enterExchange) c

theorem enterExchange_rest (s : State) (c : Nat) : ∃ v, enterExchange s c = { s with cores := v } := by
  obtain ⟨v, hv⟩ := retest_rest (modCore s c Core.enterExchange) c
  exact ⟨v, hv⟩

theorem getCore_enterExchange (s : State) (c k : Nat) : ∃ v, (v = .exchange ∨ v = .xdone) ∧
    getCore (enterExchange s c) k = if k = c then { (getCore s c).enterExchange with pst := v } else getCore s k := by
  have hcore : getCore (modCore s c Core.enterExchange) c = (getCore s c).enterExchange := by rw [getCore_modCore, if_pos rfl]
  have hget : ∀ x : Core, getCore (setCore (modCore s c Core.enterExchange) c x) k = if k = c then x else getCore s k := fun x => by
    rw [getCore_setCore, getCore_modCore]
    split_ifs <;> rfl
  unfold enterExchange retest
  rw [hcore]
  dsimp only [Core.enterExchange]
  by_cases h : coreDone (modCore s c Core.enterExchange) c = true
  · exact ⟨.xdone, .inr rfl, (congrArg (getCore · k) (if_pos h)).trans (hget _)⟩
  · exact ⟨.exchange, .inl rfl, (congrArg (getCore · k) (if_neg h)).trans (getCore_modCore s c k Core.enterExchange)⟩

theorem beginExchange_eq (s : State) (p : Nat) : beginExchange s p = (partCores s p).foldl enterExchange s := rfl

theorem foldl_enterExchange_rest (l : List Nat) : ∀ s : State, ∃ v, l.foldl enterExchange s = { s with cores := v } := by
  induction l with
  | nil => exact fun s => ⟨s.cores, rfl⟩
  | cons c r ih =>
    intro s
    obtain ⟨v, hv⟩ := enterExchange_rest s c
    obtain ⟨w, hw⟩ := ih (enterExchange s c)
    exact ⟨w, by rw [List.foldl_cons, hw, hv]⟩

theorem foldl_enterExchange_exchanging (l : List Nat) : ∀ (s : State) (k : Nat),
    k ∈ l ∨ (getCore s k).exchanging → (getCore (l.foldl enterExchange s) k).exchanging := by
  induction l with
  | nil => exact fun s k h => h.resolve_left (List.not_mem_nil)
  | cons c r ih =>
    intro s k h
    refine ih (enterExchange s c) k ?_
    obtain ⟨v, hv, hget⟩ := getCore_enterExchange s c k
    rw [hget]
    split_ifs with hk
    · exact .inr ⟨hv, rfl, rfl⟩
    · exact h.imp_left fun h => (List.mem_cons.mp h).resolve_left hk

/-! ## Contexts still open (R305) -/

/-- The assay unit of a core whose open contexts are closed by the hardware. -/
def Assay.closeAll (a : Assay) : Assay :=
  { a with queue := a.queue ++ (a.ctxs.filter fun k => !k.closing).map fun k => .auto k.uid
           ctxs := a.ctxs.map fun k => if k.closing then k else { k with closing := true, incomplete := true } }

theorem Assay.closing_closeAll {a : Assay} {k : AssayCtx} (h : k ∈ a.closeAll.ctxs) : k.closing = true := by
  obtain ⟨x, -, rfl⟩ := List.mem_map.mp h
  split_ifs with hx
  · exact hx
  · rfl

theorem Assay.closeAll_closeAll (a : Assay) : a.closeAll.closeAll = a.closeAll := by
  have hopen : (a.closeAll.ctxs.filter fun k => !k.closing) = [] := by
    refine List.filter_eq_nil_iff.mpr fun k hk => ?_
    rw [Assay.closing_closeAll hk]
    decide
  have hkeep : (a.closeAll.ctxs.map fun k => if k.closing then k else { k with closing := true, incomplete := true }) = a.closeAll.ctxs := by
    refine (List.map_congr_left fun k hk => if_pos (Assay.closing_closeAll hk)).trans (List.map_id _)
  generalize a.closeAll = b at hopen hkeep
  rw [Assay.closeAll, hopen, hkeep, List.map_nil, List.append_nil]

theorem autoClose_eq (s : State) (c : Nat) : autoClose s c = modCore s c fun x => { x with asy := x.asy.closeAll } := rfl

theorem foldl_autoClose_rest (l : List Nat) (s : State) : ∃ v, l.foldl autoClose s = { s with cores := v } :=
  foldl_modCore_rest (fun _ x => { x with asy := x.asy.closeAll }) l s

theorem getCore_foldl_autoClose (l : List Nat) (s : State) (c : Nat) : getCore (l.foldl autoClose s) c =
    if c ∈ l then { getCore s c with asy := (getCore s c).asy.closeAll } else getCore s c :=
  getCore_foldl_modCore (f := fun _ x => { x with asy := x.asy.closeAll }) (fun _ x => by rw [Assay.closeAll_closeAll]) l s c

/-! ## The tests of a flip (R191) -/

theorem allCores_iff {s : State} {p : Nat} (he : (getPart s p).evicted = false) (f : Core → Bool) :
    allCores s p f = true ↔ (getPart s p).lmap ≠ [] ∧ ∀ c ∈ (getPart s p).lmap, f (getCore s c) = true := by
  rw [allCores, partCores_of_lmap he, Bool.and_eq_true, List.all_eq_true]
  simp

theorem Core.finished_iff (x : Core) : x.finished = true ↔ ∀ g < x.ngroups, x.groupDone g = true := by
  simp [Core.finished]

theorem getPart_advancePhase (s : State) (p : Nat) : getPart (advancePhase s p) p = { getPart s p with
    phase := (getPart s p).phase + 1, stragAt := s.time, stragPosted := false, wdogAt := s.time, wdogDone := false } := by
  unfold advancePhase restartTimers
  rw [getPart_modPart_self, getPart_modPart_self]
  rfl

/-! ## From a compute phase to an exchange phase (R190, R207, R280) -/

/-- The opens of the boundary take effect, the result word is settled, the counter advances and the exchange phase begins. -/
def crossBoundary (s : State) (p : Nat) : State := beginExchange (advancePhase (settleResult (tensorPhase s p 12) p) p) p

theorem getPart_crossBoundary (s : State) (p : Nat) : ∃ ndrop saved, getPart (crossBoundary s p) p =
    { getPart s p with
      ndrop := ndrop, saved := saved, result := resultWord (getPart s p), resw := [], phase := (getPart s p).phase + 1
      stragAt := s.time, stragPosted := false, wdogAt := s.time, wdogDone := false } := by
  have htensor := tensored_tensorPhase s p 12
  unfold crossBoundary
  generalize tensorPhase s p 12 = u at htensor
  obtain ⟨co, d, pa, vt, w, g, hrest⟩ := htensor.rest
  obtain ⟨n, b, hpart⟩ := htensor.part p
  obtain ⟨e, hbegin⟩ := foldl_enterExchange_rest (partCores (advancePhase (settleResult u p) p) p) (advancePhase (settleResult u p) p)
  have htime : (settleResult u p).time = s.time := by
    have h : u.time = s.time := by rw [hrest]
    exact h
  have hadvance := getPart_advancePhase (settleResult u p) p
  rw [htime, getPart_settleResult, if_pos rfl, hpart] at hadvance
  refine ⟨n, b, ?_⟩
  rw [beginExchange_eq, hbegin]
  exact hadvance

theorem exchanging_crossBoundary {s : State} {p c : Nat} (he : (getPart s p).evicted = false) (hc : c ∈ (getPart s p).lmap) :
    (getCore (crossBoundary s p) c).exchanging := by
  obtain ⟨n, b, hpart⟩ := (tensored_tensorPhase s p 12).part p
  unfold crossBoundary
  generalize tensorPhase s p 12 = u at hpart
  refine foldl_enterExchange_exchanging _ _ c (.inl ?_)
  have hadvance : getPart (advancePhase (settleResult u p) p) p = _ := getPart_advancePhase (settleResult u p) p
  rw [getPart_settleResult, if_pos rfl, hpart] at hadvance
  rw [partCores_of_lmap] <;> rw [hadvance]
  · exact hc
  · exact he

end Sys2Proof.Machine
end

section
/-!
PROOF. O31: FINAL, completion and abort of a task, and of a world (R192, R206, R207, R210, R442, R453).
-/
namespace Sys2Proof.Machine

/-! ## Listed entries of a sparse map -/

theorem spGet_of_spFind {α : Type} (d : α) {m : Sparse α} {n : Nat} {v : α} (h : spFind m n = some v) : spGet d m n = v := by
  induction m with
  | nil => cases h
  | cons x r ih =>
    obtain ⟨k, y⟩ := x
    rw [spFind] at h
    rw [spGet]
    split_ifs at h ⊢
    · exact Option.some.inj h
    · exact ih h

theorem spFind_of_spGet {α : Type} {d : α} {m : Sparse α} {n : Nat} (h : spGet d m n ≠ d) : spFind m n = some (spGet d m n) := by
  induction m with
  | nil => exact absurd rfl h
  | cons x r ih =>
    obtain ⟨k, y⟩ := x
    rw [spGet] at h ⊢
    rw [spFind]
    split_ifs at h ⊢
    · rfl
    · exact ih h

theorem mem_of_spFind {α : Type} {m : Sparse α} {n : Nat} {v : α} (h : spFind m n = some v) : (n, v) ∈ m := by
  induction m with
  | nil => cases h
  | cons x r ih =>
    obtain ⟨k, y⟩ := x
    rw [spFind] at h
    split_ifs at h with hk
    · rw [hk, Option.some.inj h]
      exact List.mem_cons_self
    · exact List.mem_cons_of_mem _ (ih h)

theorem mem_insertSorted {n k : Nat} {l : List Nat} : k ∈ insertSorted n l ↔ k = n ∨ k ∈ l := by
  induction l with
  | nil => simp [insertSorted]
  | cons x r ih =>
    rw [insertSorted]
    split_ifs with h1 h2
    · exact List.mem_cons
    · subst h2
      simp
    · rw [List.mem_cons, ih, List.mem_cons]
      tauto

theorem mem_foldl_insertSorted {k : Nat} (l : List Nat) : ∀ acc : List Nat,
    k ∈ l.foldl (fun l n => insertSorted n l) acc ↔ k ∈ acc ∨ k ∈ l := by
  induction l with
  | nil => simp
  | cons x r ih =>
    intro acc
    rw [List.foldl_cons, ih, mem_insertSorted, List.mem_cons]
    tauto

/-! ## The records of a task that ends (R210) -/

theorem mem_taskBinds {s : State} {p d i : Nat} {b : Bind} (hd : d < 8) (hb : spFind (getDie s d).binds i = some b) (hp : b.part = p)
    (hr : b.state = .running) : (d, i) ∈ taskBinds s p := by
  have hget : getBind s d i = b := spGet_of_spFind Bind.zero hb
  refine List.mem_filter.mpr ⟨mem_bindsOf.mpr ⟨hd, b, mem_of_spFind hb, hp, by rw [hr]; rfl⟩, ?_⟩
  rw [hget, hr]
  rfl

/-- A running record of a task that ends. -/
theorem record_finishTask {s : State} {p d i : Nat} {b : Bind} (status : Nat) (hd : d < 8)
    (hb : spFind (getDie s d).binds i = some b) (hp : b.part = p) (hr : b.state = .running) :
    spFind (getDie (finishTask s p status) d).binds i =
      some (Bind.over (isWorld s p) status (resultWord (getPart s p)) b) := by
  have hget := (getBind_finishTask s p status d i).trans (if_pos (mem_taskBinds hd hb hp hr))
  rw [show getBind s d i = b from spGet_of_spFind Bind.zero hb] at hget
  rw [← hget]
  refine spFind_of_spGet fun h => ?_
  have hz : Bind.over (isWorld s p) status (resultWord (getPart s p)) b = Bind.zero := hget.symm.trans h
  have hfree := congrArg Bind.state hz
  unfold Bind.over at hfree
  dsimp only at hfree
  split_ifs at hfree <;> cases hfree

/-! ## The teardown of a world (R442, R443) -/

/-- What becomes of a key slot that a teardown zeroises. -/
def KeySlot.torn (dies : BitVec 16) (k : KeySlot) : KeySlot :=
  if dies = 0 then k.erased else { k with state := .zeroising, bound := false }

theorem KeySlot.torn_torn (dies : BitVec 16) (k : KeySlot) : (k.torn dies).torn dies = k.torn dies := by
  unfold KeySlot.torn
  split_ifs <;> rfl

theorem getKey_foldl_zeroise (l : List Nat) (n : Nat) : ∀ s : State, getKey (l.foldl zeroise s) n =
    if n ∈ l then (getKey s n).torn (keyDies s) else getKey s n := by
  induction l with
  | nil => simp
  | cons m r ih =>
    intro s
    have hdies : keyDies (zeroise s m) = keyDies s := rfl
    have hkey : getKey (zeroise s m) n = if n = m then (getKey s m).torn (keyDies s) else getKey s n := getKey_modKey s m n _
    rw [List.foldl_cons, ih, hdies, hkey]
    simp only [List.mem_cons]
    by_cases hm : n = m
    · rw [hm]
      simp [KeySlot.torn_torn]
    · simp [hm]

theorem foldl_dropMap_rest (l : List Gen) (s : State) :
    ∃ dies, l.foldl (fun s g => dropReds (freeMap s g.idx) g.idx) s = { s with dies := dies } := by
  have hdie : ∀ (f : Die → Die) (ds : List Nat) (s : State), ∃ v, ds.foldl (fun s d => modDie s d f) s = { s with dies := v } := by
    intro f ds
    induction ds with
    | nil => exact fun s => ⟨s.dies, rfl⟩
    | cons d r ih =>
      intro s
      obtain ⟨v, hv⟩ := ih (modDie s d f)
      exact ⟨v, hv⟩
  induction l generalizing s with
  | nil => exact ⟨s.dies, rfl⟩
  | cons g r ih =>
    obtain ⟨v, hv⟩ := hdie (fun x => { x with map := x.map.filter fun m => decide (m.idx ≠ g.idx) }) (List.range 8) s
    obtain ⟨w, hw⟩ := hdie (fun x => { x with red := x.red.filter fun e => decide (e.idx ≠ g.idx) }) (List.range 8) (freeMap s g.idx)
    obtain ⟨u, hu⟩ := ih (dropReds (freeMap s g.idx) g.idx)
    have hfree : freeMap s g.idx = { s with dies := v } := hv
    have hdrop : dropReds (freeMap s g.idx) g.idx = { freeMap s g.idx with dies := w } := hw
    exact ⟨u, by rw [List.foldl_cons, hu, hdrop, hfree]⟩

theorem bit_clearValid (v : Word) : bit ((v &&& 0xFFFFFFFFFFFFFFFE) &&& 0x0000000FFFFFF001) 0 = false := by
  simp [bit]

/-- The teardown's first steps clear TROOT.VALID and put strings on the scrub list; the key slots stand as before. -/
theorem tearMaps_fields (s : State) (p : Nat) (strs named : List Nat) : (tearMaps s p strs named).gran = s.gran ∧
    bit (getPart (tearMaps s p strs named) p).troot 0 = false ∧
    ∀ n ∈ strs, n ∈ (getPart (tearMaps s p strs named) p).scrub.strings := by
  generalize hadd : addScrub s p (worldUnits s p (zeroSlots s (worldSlot s p)) strs) (named ++ strs.filter fun n => !named.contains n)
    (.teardown (zeroSlots s (worldSlot s p))) = a
  have hgran : a.gran = s.gran := by rw [← hadd]; rfl
  have hstr : ∀ n ∈ strs, n ∈ (getPart a p).scrub.strings := by
    intro n hn
    rw [← hadd, addScrub, getPart_modPart_self, mem_foldl_insertSorted, List.mem_append, List.mem_filter]
    by_cases hm : n ∈ named
    · exact .inr (.inl hm)
    · exact .inr (.inr ⟨hn, by simpa using hm⟩)
  obtain ⟨v, hv⟩ := foldl_dropMap_rest ((allGens s).filter fun g => g.live && (zeroSlots s (worldSlot s p)).contains g.keyslot) a
  have htear : tearMaps s p strs named = writeTroot { a with dies := v } p ((getPart { a with dies := v } p).troot &&& 0xFFFFFFFFFFFFFFFE) := by
    rw [tearMaps, hadd, hv]
  have hpart : getPart (tearMaps s p strs named) p = { getPart a p with
      troot := ((getPart a p).troot &&& 0xFFFFFFFFFFFFFFFE) &&& 0x0000000FFFFFF001 } := by
    rw [htear, writeTroot, getPart_modPart_self]
    rfl
  rw [hpart]
  refine ⟨?_, bit_clearValid _, hstr⟩
  rw [htear]
  exact hgran

/-- A teardown that begins (R442). -/
theorem teardown_fields {s : State} {p : Nat} (strs named : List Nat) (h : (getPart s p).tearing = 0) :
    let t := teardown s p strs named
    let slots := zeroSlots s (worldSlot s p)
    bit (getPart t p).troot 0 = false ∧ (∀ n ∈ strs, n ∈ (getPart t p).scrub.strings) ∧
    (keyDies s ≠ 0 → (getPart t p).tearing = 3 ∧ (getPart t p).erasing = slots.map fun n => (n, keyDies s)) ∧
    ∀ n, getKey t n = if n ∈ slots then (getKey s n).torn (keyDies s) else getKey s n := by
  obtain ⟨hgran, htroot, hstr⟩ := tearMaps_fields s p strs named
  have hdies : keyDies (tearMaps s p strs named) = keyDies s := by rw [keyDies, hgran]; rfl
  have hkey : ∀ n, getKey (tearMaps s p strs named) n = getKey s n := fun n => by rw [getKey, hgran]; rfl
  intro t slots
  have ht : t = modPart (slots.foldl zeroise (tearMaps s p strs named)) p
      (Part.tear slots (keyDies (slots.foldl zeroise (tearMaps s p strs named)))) := teardown_of_zero strs named h
  have hfold : ∀ n, getKey (slots.foldl zeroise (tearMaps s p strs named)) n =
      if n ∈ slots then (getKey s n).torn (keyDies s) else getKey s n := fun n => by
    rw [getKey_foldl_zeroise, hdies, hkey]
  have hrest : ∀ (l : List Nat) (u : State), getPart (l.foldl zeroise u) p = getPart u p ∧ keyDies (l.foldl zeroise u) = keyDies u := by
    intro l
    induction l with
    | nil => exact fun u => ⟨rfl, rfl⟩
    | cons n r ih => exact fun u => ih (zeroise u n)
  obtain ⟨hp, hk⟩ := hrest slots (tearMaps s p strs named)
  have hpart : getPart t p = Part.tear slots (keyDies s) (getPart (tearMaps s p strs named) p) := by
    rw [ht, getPart_modPart_self, hp, hk, hdies]
  rw [hpart]
  refine ⟨?_, fun n hn => ?_, fun hz => ?_, fun n => ?_⟩
  · unfold Part.tear beginScrub
    split_ifs <;> exact htroot
  · unfold Part.tear beginScrub
    split_ifs <;> exact hstr n hn
  · rw [Part.tear, if_neg hz]
    exact ⟨rfl, rfl⟩
  · rw [ht]
    exact hfold n

/-! ## The end of a task, and of a world -/

theorem finishTask_tearOver (s : State) (p status : Nat) :
    getPart (finishTask s p status) p = Part.over status (getPart (tearOver s p status (taskBinds s p)) p) ∧
    (finishTask s p status).gran = (tearOver s p status (taskBinds s p)).gran := by
  obtain ⟨h, hh⟩ := finishTask_host s p status
  obtain ⟨st, hw⟩ := unbindStrings_rest (tearOver s p status (taskBinds s p)) (boundStrings s p)
  have hpart : partOver s p status (taskBinds s p) =
      modPart { tearOver s p status (taskBinds s p) with strings := st } p (Part.over status) := by rw [partOver, hw]
  refine ⟨?_, ?_⟩
  · rw [hh, hpart]
    exact getPart_modPart_self _ p _
  · rw [hh, hpart]
    rfl

/-- The partition, vault memory and cores of a task that is over. -/
theorem finishTask_ended {s : State} {p : Nat} (he : (getPart s p).evicted = false) (status : Nat) :
    let t := finishTask s p status
    let y := getPart t p
    (y.st = .idle ∧ y.launch = none ∧ y.lmap = [] ∧ y.strings = [] ∧ y.status = status ∧ y.result = resultWord (getPart s p)) ∧
    t.vault = s.vault ∧
    ∀ c ∈ (getPart s p).lmap, (getCore t c).part = none ∧ (getCore t c).spad = (getCore s c).spad ∧ (getCore t c).flog = (getCore s c).flog := by
  intro t y
  obtain ⟨tr, sc, te, er, hy⟩ := getPart_finishTask s p status
  obtain ⟨co, st, di, pa, g, ho, ht⟩ := (taskEnded_finishTask s p status).rest
  refine ⟨?_, ?_, fun c hc => ?_⟩
  · rw [show y = _ from hy]
    exact ⟨rfl, rfl, rfl, rfl, rfl, rfl⟩
  · exact (congrArg (fun u : State => u.vault) ht :)
  · have hcore : getCore t c = (getCore s c).over :=
      (getCore_finishTask s p status c).trans (if_pos (by rw [partCores_of_lmap he]; exact hc))
    rw [hcore]
    exact ⟨rfl, rfl, rfl⟩

theorem mem_zeroSlots {s : State} {w n : Nat} {k : KeySlot} (hn : (s.gran.keys.map (·.1)).Nodup) (hk : spFind s.gran.keys n = some k) :
    n ∈ zeroSlots s w ↔
      n = w ∨ (n ≠ 0 ∧ k.state = .loaded ∧ k.exp = false ∧ k.bound = false ∧ k.session = (getKey s w).session) := by
  have hval : ∀ v, (n, v) ∈ s.gran.keys → v = k := fun v hv =>
    (spGet_of_mem KeySlot.zero hn hv).symm.trans (spGet_of_spFind KeySlot.zero hk)
  unfold zeroSlots
  simp only [List.mem_map, List.mem_filter, Bool.or_eq_true, Bool.and_eq_true, decide_eq_true_eq, Bool.not_eq_true', Prod.exists,
    exists_and_right, exists_eq_right]
  constructor
  · rintro ⟨v, hv, h⟩
    rw [hval v hv] at h
    tauto
  · intro h
    exact ⟨k, mem_of_spFind hk, by tauto⟩

/-- A world's task that ends while no teardown of it is under way: what its teardown leaves. -/
theorem finishTask_world {s : State} {p : Nat} (hw : worldSlot s p ≠ 0) (ht : (getPart s p).tearing = 0) (status : Nat) :
    let t := finishTask s p status
    let y := getPart t p
    let slots := zeroSlots s (worldSlot s p)
    bit y.troot 0 = false ∧ (∀ n ∈ boundStrings s p, n ∈ y.scrub.strings) ∧
    (keyDies s ≠ 0 → y.tearing = 3 ∧ y.erasing = slots.map fun n => (n, keyDies s)) ∧
    ∀ n, getKey t n = if n ∈ slots then (getKey s n).torn (keyDies s) else getKey s n := by
  intro t y slots
  obtain ⟨hpart, hgran⟩ := finishTask_tearOver s p status
  obtain ⟨c, d, hu⟩ := recsOver_rest s p status (taskBinds s p)
  have htear : tearOver s p status (taskBinds s p) = teardown (recsOver s p status (taskBinds s p)) p (boundStrings s p)
      (namedStrings (recsOver s p status (taskBinds s p)) (taskBinds s p)) := if_pos (decide_eq_true hw)
  generalize recsOver s p status (taskBinds s p) = u at hu htear
  have hup : getPart u p = { getPart s p with result := resultWord (getPart s p), resw := [] } := by
    rw [hu]
    exact (getPart_settleResult s p p).trans (if_pos rfl)
  have hslot : worldSlot u p = worldSlot s p := by rw [worldSlot, hup]; rfl
  have hkey : ∀ n, getKey u n = getKey s n := fun n => by rw [hu]; rfl
  have hdies : keyDies u = keyDies s := by rw [hu]; rfl
  have hslots : zeroSlots u (worldSlot u p) = slots := by
    rw [hslot, zeroSlots, hkey, hu]
    rfl
  obtain ⟨h1, h2, h3, h4⟩ := teardown_fields (boundStrings s p) (namedStrings u (taskBinds s p)) (by rw [hup]; exact ht : (getPart u p).tearing = 0)
  rw [← htear] at h1 h2 h3 h4
  rw [hslots, hdies] at h3 h4
  rw [show y = _ from hpart]
  refine ⟨h1, h2, h3, fun n => ?_⟩
  have hn := h4 n
  rw [hkey] at hn
  rw [← hn, getKey, getKey, show t.gran = _ from hgran]

/-! ## FINAL (R192, R451) -/

/-- The start of FINAL, up to HOLD. -/
def enterFinal (s : State) (p : Nat) : State :=
  modPart (crossBoundary ((partCores s p).foldl autoClose s) p) p fun x => { x with st := .final, finalDone := false }

theorem getPart_enterFinal (s : State) (p : Nat) : ∃ ndrop saved, getPart (enterFinal s p) p =
    { getPart s p with
      ndrop := ndrop, saved := saved, result := resultWord (getPart s p), resw := [], phase := (getPart s p).phase + 1
      stragAt := s.time, stragPosted := false, wdogAt := s.time, wdogDone := false, st := .final, finalDone := false } := by
  obtain ⟨v, hclose⟩ := foldl_autoClose_rest (partCores s p) s
  obtain ⟨n, b, hcross⟩ := getPart_crossBoundary ((partCores s p).foldl autoClose s) p
  refine ⟨n, b, ?_⟩
  rw [enterFinal, getPart_modPart_self, hcross, hclose]
  rfl

theorem exchanging_enterFinal {s : State} {p c : Nat} (he : (getPart s p).evicted = false) (hc : c ∈ (getPart s p).lmap) :
    (getCore (enterFinal s p) c).exchanging := by
  obtain ⟨v, hclose⟩ := foldl_autoClose_rest (partCores s p) s
  have hpart : getPart ((partCores s p).foldl autoClose s) p = getPart s p := by rw [hclose]; rfl
  rw [enterFinal, getCore_modPart]
  exact exchanging_crossBoundary (by rw [hpart]; exact he) (by rw [hpart]; exact hc)

theorem execFinalStart_eq {s : State} {part : Fin 256} (hst : (getPart s part).st = .compute) (hh : (getPart s part).holding = none)
    (hl : (getPart s part).launch ≠ none) (hs : allCores s part (fun co => decide (co.pst = .synced)) = true)
    (hf : allCores s part Core.finished = true) : exec (.finalStart part) s = .next
      (if (getPart (enterFinal s part) part).hold = true ∧ ¬ entryParked (enterFinal s part) part 12 = true then
        toHold (enterFinal s part) part .final else enterFinal s part) :=
  if_pos ⟨hst, by rw [hh]; rfl, Option.isSome_iff_ne_none.mpr hl, hs, hf⟩

theorem entryParked_of_part {s t : State} {p : Nat} (op : Nat) (hc : t.cores = s.cores) (he : (getPart t p).evicted = (getPart s p).evicted)
    (hl : (getPart t p).lmap = (getPart s p).lmap) : entryParked t p op = entryParked s p op := by
  have hcore : ∀ c, getCore t c = getCore s c := fun c => by rw [getCore, hc]; rfl
  have hent : ∀ c q, getEnt t c q = getEnt s c q := fun c q => by rw [getEnt, hcore]; rfl
  unfold entryParked partCores
  rw [he, hl]
  simp only [hcore, hent]

theorem execTaskComplete_aborting {s : State} {part : Fin 256} (hl : (getPart s part).launch ≠ none)
    (hst : (getPart s part).st = .aborting) : exec (.taskComplete part) s = .next (finishTask s part 1) := by
  change execTaskComplete part s = _
  have hsome := Option.isSome_iff_ne_none.mpr hl
  unfold execTaskComplete
  dsimp only
  by_cases h : (getPart s part).launch.isNone = true ∨ (getPart s part).holding.isSome = true
  · rw [if_pos h, if_pos ⟨hsome, hst⟩]
  · rw [if_neg h, if_pos hst]

/-- What TASK_COMPLETE does to a task in FINAL that is not about to be held. -/
theorem execTaskComplete_final {s : State} {part : Fin 256} (hl : (getPart s part).launch ≠ none) (hh : (getPart s part).holding = none)
    (hst : (getPart s part).st = .final) (hd : (getPart s part).finalDone = true) (hf : (getPart s part).failed = none)
    (hq : allCores s part (fun co => co.asy.queue.isEmpty) = true) :
    exec (.taskComplete part) s = .next (finishTask s part (if (getPart s part).late then 3 else 0)) := by
  change execTaskComplete part s = _
  unfold execTaskComplete
  dsimp only
  rw [if_neg (by rw [hh, Option.isNone_iff_eq_none]; simpa using hl), if_neg (by rw [hst]; decide), if_neg (not_not.mpr hst),
    if_neg (by rw [hd]; decide), if_neg (by rw [hf]; decide), if_pos hq]

/-- What TASK_COMPLETE does once every core is XDONE, by how the exchange phase ends. -/
theorem execTaskComplete_seals {s u : State} {part : Fin 256} {good : Bool} (hl : (getPart s part).launch ≠ none)
    (hh : (getPart s part).holding = none) (hst : (getPart s part).st = .final) (hd : (getPart s part).finalDone = false)
    (hx : allCores s part (fun co => decide (co.pst = .xdone)) = true) (hr : redBlocked s part = false)
    (he : endExchange s part = (u, good)) : exec (.taskComplete part) s = .next
      (if good = true then
        (if (getPart s part).hold = true ∧ (getPart s part).failed.isNone = true then
          toHold (settleFailure (modPart u part fun x => { x with finalDone := true }) part) part .final
        else settleFailure (modPart u part fun x => { x with finalDone := true }) part)
      else u) := by
  change execTaskComplete part s = _
  unfold execTaskComplete
  dsimp only
  rw [if_neg (by rw [hh, Option.isNone_iff_eq_none]; simpa using hl), if_neg (by rw [hst]; decide), if_neg (not_not.mpr hst),
    if_pos (by rw [hd]; decide), if_neg (by rw [hx, hr]; decide), he]
  cases good <;> rfl

theorem endExchange_bad {s : State} {p : Nat} (h : badSeals s p ≠ []) : endExchange s p = (parkSeals s p, false) := if_neg h

theorem endExchange_good {s : State} {p : Nat} (h : badSeals s p = []) :
    endExchange s p = (tensorPhase (redWriteback s p) p 13, true) := if_pos h

theorem getPart_toHold {s : State} {p : Nat} (h : (getPart s p).st ≠ .aborting) (r : PhState) :
    getPart (toHold s p r) p = { getPart s p with holding := some r } := by
  rw [toHold, getPart_modPart_self, if_neg h]

/-! ## The obligation -/

/-- Settles O31: FINAL by what the boundary leaves, completion and abort by what `finishTask` leaves, and a world's by its teardown. -/
theorem taskEnds : Obligations.TaskEnds := by
  intro part s x cores word ends world session zeroised tears hl he hnodup
  have hends : ∀ status, exec (.taskComplete part) s = .next (finishTask s part status) → world = 0 → ends status := by
    intro status hexec hw
    obtain ⟨⟨h1, h2, h3, h4, h5, h6⟩, hv, hc⟩ := finishTask_ended he status
    have hworld : isWorld s part = false := decide_eq_false (not_not.mpr hw)
    refine ⟨_, hexec, h1, h2, h3, h4, h5, h6, hv, hc, fun n hn hp => ?_, fun d hd i b hb hp hr => ?_⟩
    · have hmem : n ∈ boundStrings s part := List.mem_filter.mpr ⟨hn, decide_eq_true hp⟩
      rw [getStr_finishTask, if_pos hmem]
    · refine ⟨_, record_finishTask status hd hb hp hr, ?_, rfl, rfl⟩
      rw [hworld]
      rfl
  have htears : ∀ status, exec (.taskComplete part) s = .next (finishTask s part status) → world ≠ 0 → tears status := by
    intro status hexec hw
    obtain ⟨⟨h1, h2, h3, h4, h5, h6⟩, hv, hc⟩ := finishTask_ended he status
    have hworld : isWorld s part = true := decide_eq_true hw
    refine ⟨_, hexec, h1, h2, h3, h4, h5, h6, hv, fun c h => ⟨(hc c h).1, (hc c h).2.1⟩, fun d hd i b hb hp hr => ?_, fun ht => ?_⟩
    · refine ⟨_, record_finishTask status hd hb hp hr, ?_, rfl, rfl⟩
      rw [hworld]
      rfl
    · obtain ⟨htroot, hstr, hdies, hkey⟩ := finishTask_world hw ht status
      refine ⟨htroot, fun n hn hp => hstr n (List.mem_filter.mpr ⟨hn, decide_eq_true hp⟩), fun hk hz => ?_⟩
      have hz' : keyDies s ≠ 0 := hz
      obtain ⟨htear, herase⟩ := hdies hz'
      refine ⟨htear, fun n k hn => ⟨fun hzero => ?_, fun hzero => ?_⟩⟩
      · have hmem := (mem_zeroSlots (w := world) hk hn).mpr hzero
        refine ⟨?_, ?_⟩
        · rw [hkey, if_pos hmem, KeySlot.torn, if_neg hz', show getKey s n = k from spGet_of_spFind KeySlot.zero hn]
        · rw [herase]
          exact List.mem_map.mpr ⟨n, hmem, rfl⟩
      · rw [hkey, if_neg fun h => hzero ((mem_zeroSlots hk hn).mp h)]
        exact spGet_of_spFind KeySlot.zero hn
  refine ⟨fun hst hh hne hall => ?_, fun hst hh hd hf hne hall hred => ⟨fun hbad => ?_, fun hbad hposts => ?_⟩,
    fun hst hh hd hf hne hq => ?_, fun hst => ?_⟩
  · have hsync : allCores s part (fun co => decide (co.pst = .synced)) = true :=
      (allCores_iff he _).mpr ⟨hne, fun c hc => decide_eq_true (hall c hc).1⟩
    have hfin : allCores s part Core.finished = true :=
      (allCores_iff he _).mpr ⟨hne, fun c hc => (Core.finished_iff _).mpr (hall c hc).2⟩
    obtain ⟨n, b, hpart⟩ := getPart_enterFinal s part
    have hcores := fun c (hc : c ∈ cores) => (exchanging_enterFinal he hc).1
    have hexec := execFinalStart_eq hst hh hl hsync hfin
    generalize enterFinal s part = e at hpart hcores hexec
    have hst' : (getPart e part).st ≠ .aborting := by
      rw [hpart]
      exact fun h => nomatch h
    have hparked : entryParked (toHold e part .final) part 12 = entryParked e part 12 :=
      entryParked_of_part 12 rfl (by rw [getPart_toHold hst']) (by rw [getPart_toHold hst'])
    refine ⟨_, hexec, ?_⟩
    by_cases hc : (getPart e part).hold = true ∧ ¬ entryParked e part 12 = true
    · rw [if_pos hc, hparked]
      have hhold : x.hold = true := by
        have h := hc.1
        rw [hpart] at h
        exact h
      intro y
      rw [show y = _ from getPart_toHold hst' .final, hpart]
      exact ⟨rfl, rfl, rfl, rfl, rfl, rfl, fun h => absurd (h.symm.trans hhold) (by decide), fun _ _ => rfl, hcores⟩
    · rw [if_neg hc]
      intro y
      rw [show y = _ from hpart]
      refine ⟨rfl, rfl, rfl, rfl, rfl, rfl, fun _ => hh, fun hhold hp => absurd ⟨?_, by rw [hp]; decide⟩ hc, hcores⟩
      rw [hpart]
      exact hhold
  · have hx : allCores s part (fun co => decide (co.pst = .xdone)) = true :=
      (allCores_iff he _).mpr ⟨hne, fun c hc => decide_eq_true (hall c hc)⟩
    exact execTaskComplete_seals hl hh hst hd hx hred (endExchange_bad hbad)
  · have hx : allCores s part (fun co => decide (co.pst = .xdone)) = true :=
      (allCores_iff he _).mpr ⟨hne, fun c hc => decide_eq_true (hall c hc)⟩
    rw [execTaskComplete_seals hl hh hst hd hx hred (endExchange_good hbad), tensorPhase_of_nil hposts, if_pos rfl]
    have hr : getPart (redWriteback s part) part = x := by
      obtain ⟨d, v, g, hr⟩ := stored_redWriteback s part
      rw [hr]
      rfl
    generalize redWriteback s part = r at hr
    have hsettle : settleFailure (modPart r part fun y => { y with finalDone := true }) part =
        modPart r part fun y => { y with finalDone := true } :=
      settleFailure_of_none (by rw [getPart_modPart_self, hr]; exact hf)
    rw [hsettle]
    by_cases hhold : x.hold = true
    · rw [if_pos ⟨hhold, by rw [hf]; rfl⟩, toHold, modPart_modPart]
      refine congrArg _ (modPart_congr ?_)
      rw [Function.comp_apply, hr, if_neg (by rw [hst]; decide), if_pos hhold]
    · rw [if_neg fun h => hhold h.1]
      refine congrArg _ (modPart_congr ?_)
      rw [hr, if_neg hhold, ← hh]
  · have hqueue : allCores s part (fun co => co.asy.queue.isEmpty) = true :=
      (allCores_iff he _).mpr ⟨hne, fun c hc => by rw [hq c hc]; rfl⟩
    have hexec := execTaskComplete_final hl hh hst hd hf hqueue
    exact ⟨hends _ hexec, htears _ hexec⟩
  · have hexec := execTaskComplete_aborting hl hst
    exact ⟨hends _ hexec, htears _ hexec⟩

end Sys2Proof.Machine
end

section
/-!
SUPPORT. Images in vault memory (R365, R371, R410): what a write of the images of a partition's cores leaves at each of them.
-/
namespace Sys2Proof.Machine

/-! ## Bytes of a memory that is cleared and loaded -/

theorem spGet_filter_key {α : Type} (d : α) (q : Nat → Bool) (m : Sparse α) (k : Nat) :
    spGet d (m.filter fun e => q e.1) k = if q k = true then spGet d m k else d := by
  induction m with
  | nil => simp [spGet]
  | cons x r ih =>
    obtain ⟨j, v⟩ := x
    rw [List.filter_cons]
    by_cases hj : j = k
    · subst hj
      split_ifs with hq
      · rw [spGet, spGet, if_pos rfl, if_pos rfl]
      · rw [ih, if_neg hq]
    · have hrest : spGet d ((j, v) :: r) k = spGet d r k := if_neg hj
      rw [hrest, ← ih]
      split_ifs with hq
      · exact if_neg hj
      · rfl

theorem spGet_append_left {α : Type} (d : α) {a : Sparse α} (b : Sparse α) {k : Nat} (h : ∀ e ∈ a, e.1 ≠ k) :
    spGet d (a ++ b) k = spGet d b k := by
  induction a with
  | nil => rfl
  | cons x r ih =>
    obtain ⟨j, v⟩ := x
    exact (if_neg (h _ List.mem_cons_self)).trans (ih fun e he => h e (List.mem_cons_of_mem _ he))

theorem spGet_append_right {α : Type} (d : α) (a : Sparse α) {b : Sparse α} {k : Nat} (h : ∀ e ∈ b, e.1 ≠ k) :
    spGet d (a ++ b) k = spGet d a k := by
  induction a with
  | nil =>
    have hb := spGet_append_left d [] h
    rw [List.append_nil] at hb
    exact hb
  | cons x r ih =>
    obtain ⟨j, v⟩ := x
    rw [List.cons_append, spGet, spGet, ih]

theorem memGet_memClear (m : Mem) (lo n k : Nat) :
    memGet (memClear m lo n) k = if lo ≤ k ∧ k < lo + n then 0 else memGet m k := by
  have hclear : memClear m lo n = (m.filter fun c => decide (c.1 < lo)) ++ m.filter fun c => decide (lo + n ≤ c.1) := by
    simp [memClear, memBlit]
  rw [memGet, hclear]
  by_cases hlo : k < lo
  · rw [spGet_append_right _ _ fun e he => by simp at he; omega, spGet_filter_key 0 (fun j => decide (j < lo)),
      if_pos (decide_eq_true hlo), if_neg (by omega)]
    rfl
  · rw [spGet_append_left _ _ fun e he => by simp at he; omega, spGet_filter_key 0 (fun j => decide (lo + n ≤ j))]
    by_cases hn : k < lo + n
    · rw [if_neg (by simpa using hn), if_pos ⟨by omega, hn⟩]
    · rw [if_pos (by simpa using hn), if_neg (by omega)]
      rfl

/-- The bytes of a list put at their offsets from `lo`, up to `n`. -/
def memFill (lo n : Nat) (src : Mem) (m : Mem) : Mem := src.foldl (fun m c => if c.1 < n then memPut m (lo + c.1) c.2 else m) m

theorem memGet_memFill_out {lo n k : Nat} (h : k < lo ∨ lo + n ≤ k) (src : Mem) : ∀ m, memGet (memFill lo n src m) k = memGet m k := by
  induction src with
  | nil => exact fun _ => rfl
  | cons c r ih =>
    intro m
    refine (ih _).trans ?_
    dsimp only
    split_ifs with hc
    · exact (memGet_memPut m _ k _).trans (if_neg (by omega))
    · rfl

theorem memGet_memFill_congr (lo n k : Nat) (src : Mem) : ∀ m m', memGet m k = memGet m' k →
    memGet (memFill lo n src m) k = memGet (memFill lo n src m') k := by
  induction src with
  | nil => exact fun _ _ h => h
  | cons c r ih =>
    intro m m' h
    refine ih _ _ ?_
    dsimp only
    split_ifs with hc
    · rw [memGet_memPut, memGet_memPut, h]
    · exact h

theorem memGet_memLoad_out (m : Mem) {lo n k : Nat} (h : k < lo ∨ lo + n ≤ k) (src : Mem) : memGet (memLoad m lo n src) k = memGet m k :=
  (memGet_memFill_out h src _).trans ((memGet_memClear m lo n k).trans (if_neg (by omega)))

theorem memGet_memLoad_in (m : Mem) {lo n k : Nat} (h : lo ≤ k ∧ k < lo + n) (src : Mem) :
    memGet (memLoad m lo n src) k = memGet (memLoad [] lo n src) k :=
  memGet_memFill_congr lo n k src _ _ (by rw [memGet_memClear, memGet_memClear, if_pos h, if_pos h])

/-! ## Seals of lines that are cut out (R241) -/

theorem findSeal_cons (x : Seal) (l : List Seal) (line : Nat) :
    findSeal (x :: l) line = if x.lo ≤ line ∧ line < x.lo + x.count then some x else findSeal l line := by
  unfold findSeal
  rw [List.find?_cons]
  by_cases h : x.lo ≤ line ∧ line < x.lo + x.count
  · rw [if_pos h]
    simp [h]
  · rw [if_neg h]
    have hf : (decide (x.lo ≤ line) && decide (line < x.lo + x.count)) = false := by simpa using h
    rw [hf]

/-- What the key and the counter blocks of two seals have in common. -/
def Seal.same (x y : Seal) : Prop := x.key = y.key ∧ x.tid = y.tid ∧ x.ver = y.ver

theorem findSeal_append (a b : List Seal) (line : Nat) : findSeal (a ++ b) line = (findSeal a line).or (findSeal b line) :=
  List.find?_append

/-- What a cut of lines leaves of one run below them, and above them. -/
def Seal.below (lo : Nat) (x : Seal) : List Seal :=
  if x.lo < lo ∧ 0 < x.count then [{ x with count := min x.count (lo - x.lo) }] else []

def Seal.above (hi : Nat) (x : Seal) : List Seal :=
  if hi < x.lo + x.count then
    [{ x with lo := max x.lo hi, count := x.lo + x.count - max x.lo hi, line0 := x.line0 + (max x.lo hi - x.lo) }]
  else []

theorem sealCut_cons (lo n : Nat) (x : Seal) (r : List Seal) :
    sealCut lo n (x :: r) = x.below lo ++ (x.above (lo + n) ++ sealCut lo n r) := List.append_assoc _ _ _

theorem Seal.findSeal_below (lo line : Nat) (x : Seal) : findSeal (x.below lo) line =
    if (x.lo ≤ line ∧ line < x.lo + x.count) ∧ line < lo then some { x with count := min x.count (lo - x.lo) } else none := by
  unfold Seal.below
  split_ifs with h1 h2 h2
  · rw [findSeal_cons, if_pos ⟨h2.1.1, by dsimp only; omega⟩]
  · rw [findSeal_cons, if_neg fun h => h2 (by dsimp only at h; omega)]
    rfl
  · omega
  · rfl

theorem Seal.findSeal_above (hi line : Nat) (x : Seal) : findSeal (x.above hi) line =
    if (x.lo ≤ line ∧ line < x.lo + x.count) ∧ hi ≤ line then
      some { x with lo := max x.lo hi, count := x.lo + x.count - max x.lo hi, line0 := x.line0 + (max x.lo hi - x.lo) }
    else none := by
  unfold Seal.above
  split_ifs with h1 h2 h2
  · rw [findSeal_cons, if_pos (by dsimp only; omega)]
  · rw [findSeal_cons, if_neg fun h => h2 (by dsimp only at h; omega)]
    rfl
  · omega
  · rfl

/-- A line outside the lines that are cut out keeps its seal's key and number. -/
theorem findSeal_sealCut {lo n line : Nat} (h : line < lo ∨ lo + n ≤ line) (l : List Seal) :
    ∀ z, findSeal l line = some z → ∃ y, findSeal (sealCut lo n l) line = some y ∧ y.same z := by
  induction l with
  | nil => exact fun _ hz => nomatch hz
  | cons x r ih =>
    intro z hz
    rw [findSeal_cons] at hz
    rw [sealCut_cons, findSeal_append, findSeal_append, Seal.findSeal_below, Seal.findSeal_above]
    by_cases hx : x.lo ≤ line ∧ line < x.lo + x.count
    · rw [if_pos hx] at hz
      obtain rfl := Option.some.inj hz
      rcases h with h | h
      · rw [if_pos ⟨hx, h⟩]
        exact ⟨_, rfl, rfl, rfl, rfl⟩
      · rw [if_neg (by omega), if_pos ⟨hx, h⟩]
        exact ⟨_, rfl, rfl, rfl, rfl⟩
    · rw [if_neg hx] at hz
      rw [if_neg fun h => hx h.1, if_neg fun h => hx h.1]
      exact ih z hz

/-! ## One image (R365) -/

/-- The image of `n` bytes at `pa` is written and sealed under a key and a number. -/
def ImageAt (t : State) (key : BitVec 256) (seq pa n : Nat) (img : Mem) : Prop := ∀ o < n,
  memGet t.vault (pa + o) = memGet (memLoad [] pa n img) (pa + o) ∧
    ∃ z, findSeal t.side ((pa + o) / 64) = some z ∧ z.key = key ∧ z.tid = seqTid seq ∧ z.ver = seqVer seq

theorem imageAt_writeImage (s : State) (p lcore : Nat) {pa n : Nat} (hpa : 64 ∣ pa) (hn : 64 ∣ n) (seq : Nat) (img : Mem) :
    ImageAt (writeImage s p lcore pa n seq img) (getKey s (worldSlot s p)).key seq pa n img := by
  intro o ho
  refine ⟨memGet_memLoad_in s.vault (by omega) img, ?_⟩
  refine ⟨_, (findSeal_cons _ _ _).trans (if_pos ?_), rfl, rfl, rfl⟩
  dsimp only
  omega

theorem ImageAt.writeImage {s : State} {key : BitVec 256} {seq pa n : Nat} {img : Mem} (h : ImageAt s key seq pa n img) (p lcore : Nat) {pa' n' : Nat}
    (hpa' : 64 ∣ pa') (hn' : 64 ∣ n') (hpa : 64 ∣ pa) (hn : 64 ∣ n) (hd : pa + n ≤ pa' ∨ pa' + n' ≤ pa) (seq' : Nat) (img' : Mem) :
    ImageAt (writeImage s p lcore pa' n' seq' img') key seq pa n img := by
  intro o ho
  obtain ⟨hget, z, hz, hkey, htid, hver⟩ := h o ho
  obtain ⟨y, hy, hykey, hytid, hyver⟩ := findSeal_sealCut (lo := pa' / 64) (n := n' / 64) (line := (pa + o) / 64) (by omega) s.side z hz
  refine ⟨(memGet_memLoad_out s.vault (by omega) img').trans hget, y, ?_, hykey.trans hkey, hytid.trans htid, hyver.trans hver⟩
  refine (findSeal_cons _ _ _).trans ((if_neg ?_).trans hy)
  dsimp only
  omega

theorem writeImage_rest (s : State) (p lcore pa n seq : Nat) (img : Mem) : ∃ vault side,
    writeImage s p lcore pa n seq img = { s with vault := vault, side := side } := ⟨_, _, rfl⟩

/-! ## The images of a partition -/

/-- One image after another at listed addresses. -/
def imageStep (p : Nat) (at_ : Nat → Nat) (n seq : Nat) (img : Nat → Mem) (s : State) (i : Nat) : State :=
  writeImage s p i (at_ i) n seq (img i)

theorem foldl_imageStep {p n seq : Nat} {at_ : Nat → Nat} {img : Nat → Mem} {s : State} (hn : 64 ∣ n) (m : Nat)
    (ha : ∀ i < m, 64 ∣ at_ i) (hd : ∀ i < m, ∀ j < m, i ≠ j → at_ i + n ≤ at_ j ∨ at_ j + n ≤ at_ i) :
    (∃ vault side, (List.range m).foldl (imageStep p at_ n seq img) s = { s with vault := vault, side := side }) ∧
    ∀ i < m, ImageAt ((List.range m).foldl (imageStep p at_ n seq img) s) (getKey s (worldSlot s p)).key seq (at_ i) n (img i) := by
  induction m with
  | zero => exact ⟨⟨s.vault, s.side, rfl⟩, fun _ h => absurd h (Nat.not_lt_zero _)⟩
  | succ m ih =>
    obtain ⟨⟨v, x, hrest⟩, himg⟩ := ih (fun i hi => ha i (by omega)) (fun i hi j hj => hd i (by omega) j (by omega))
    rw [List.range_succ, List.foldl_append, List.foldl_cons, List.foldl_nil]
    generalize (List.range m).foldl (imageStep p at_ n seq img) s = t at hrest himg
    have hkey : getKey t (worldSlot t p) = getKey s (worldSlot s p) := by rw [hrest]; rfl
    refine ⟨?_, fun i hi => ?_⟩
    · obtain ⟨v', x', h⟩ := writeImage_rest t p m (at_ m) n seq (img m)
      exact ⟨v', x', by rw [imageStep, h, hrest]⟩
    · rcases Nat.lt_succ_iff_lt_or_eq.mp hi with hlt | rfl
      · exact (himg i hlt).writeImage p m (ha m (by omega)) hn (ha i hi) hn (hd i hi m (by omega) (by omega)) seq (img m)
      · rw [← hkey]
        exact imageAt_writeImage t p i (ha i (by omega)) hn seq (img i)

theorem writeImages_eq {s : State} {p : Nat} (bases : List Nat) (off n seq : Nat) {img : State → Nat → Mem}
    (himg : ∀ t c, t.cores = s.cores → t.parts = s.parts → img t c = img s c) : writeImages s p bases off n seq img =
    (List.range (partCores s p).length).foldl
      (imageStep p (fun i => bases.getD i 0 + off) n seq fun i => img s ((partCores s p).getD i 0)) s := by
  have hstep : ∀ (l : List Nat) (t : State), t.cores = s.cores → t.parts = s.parts →
      l.foldl (fun t i => writeImage t p i (bases.getD i 0 + off) n seq (img t ((partCores t p).getD i 0))) t =
        l.foldl (imageStep p (fun i => bases.getD i 0 + off) n seq fun i => img s ((partCores s p).getD i 0)) t := by
    intro l
    induction l with
    | nil => exact fun _ _ _ => rfl
    | cons i r ih =>
      intro t hc hp
      have hcores : partCores t p = partCores s p := by rw [partCores, partCores, getPart_congr hp]
      rw [List.foldl_cons, List.foldl_cons, imageStep, hcores, himg t _ hc hp]
      exact ih _ hc hp
  exact hstep _ s rfl rfl

theorem getD_of_lt {l : List Nat} {i : Nat} (h : i < l.length) : l.getD i 0 = l[i] := by
  rw [List.getD_eq_getElem?_getD, List.getElem?_eq_getElem h, Option.getD_some]

theorem allAreas_some {f : Nat → Option Nat} (l : List Nat) : ∀ {bases : List Nat}, allAreas f l = some bases →
    bases.length = l.length ∧ ∀ i < l.length, f (l.getD i 0) = some (bases.getD i 0) := by
  induction l with
  | nil =>
    intro bases h
    rw [← Option.some.inj h]
    exact ⟨rfl, fun _ h => absurd h (Nat.not_lt_zero _)⟩
  | cons c r ih =>
    intro bases h
    rw [allAreas] at h
    split at h
    next a m ha hm =>
      obtain ⟨hlen, hget⟩ := ih hm
      rw [← Option.some.inj h]
      refine ⟨congrArg (· + 1) hlen, fun i hi => ?_⟩
      cases i with
      | zero => exact ha
      | succ i => exact hget i (Nat.lt_of_succ_lt_succ hi)
    next => cases h

theorem allAreas_congr {f g : Nat → Option Nat} (l : List Nat) (h : ∀ c ∈ l, f c = g c) : allAreas f l = allAreas g l := by
  induction l with
  | nil => rfl
  | cons c r ih =>
    rw [allAreas, allAreas, h c List.mem_cons_self, ih fun k hk => h k (List.mem_cons_of_mem c hk)]

theorem dvd_of_areaOf {reg : Word} {len pa : Nat} (h : areaOf reg len = some pa) : 65536 ∣ pa := by
  unfold areaOf at h
  dsimp only at h
  split_ifs at h
  rw [← Option.some.inj h]
  exact Nat.dvd_mul_left _ _

theorem recordsImage_congr {s t : State} (hc : t.cores = s.cores) (hp : t.parts = s.parts) (c savecnt seq : Nat) :
    recordsImage t c savecnt seq = recordsImage s c savecnt seq := by
  have hcore : ∀ k, getCore t k = getCore s k := fun k => by rw [getCore, hc]; rfl
  have hphase : partOf t c = partOf s c := by rw [partOf, partOf, hcore, getPart_congr hp]
  unfold recordsImage coreRecord
  rw [hcore, hphase]

theorem contextImage_congr {s t : State} (hc : t.cores = s.cores) (hp : t.parts = s.parts) (c savecnt seq : Nat) :
    contextImage t c savecnt seq = contextImage s c savecnt seq := by
  have hcore : ∀ k, getCore t k = getCore s k := fun k => by rw [getCore, hc]; rfl
  unfold contextImage
  rw [recordsImage_congr hc hp, hcore]

/-- The images of a partition at aligned areas that lie apart: nothing but vault memory and its seals changes, and each stands at its
place. -/
theorem writeImages_holds {s : State} {p : Nat} {bases : List Nat} {off n seq len : Nat} {img : State → Nat → Mem}
    (himg : ∀ t c, t.cores = s.cores → t.parts = s.parts → img t c = img s c) (hlen : bases.length = (partCores s p).length)
    (hbase : ∀ i < bases.length, 65536 ∣ bases.getD i 0) (hoff : 64 ∣ off) (hn : 64 ∣ n) (hfit : off + n ≤ len)
    (hapart : ∀ i < bases.length, ∀ j < bases.length, i ≠ j → bases.getD i 0 + len ≤ bases.getD j 0 ∨ bases.getD j 0 + len ≤ bases.getD i 0) :
    (∃ vault side, writeImages s p bases off n seq img = { s with vault := vault, side := side }) ∧
    ∀ i < (partCores s p).length, ImageAt (writeImages s p bases off n seq img) (getKey s (worldSlot s p)).key seq (bases.getD i 0 + off) n
      (img s ((partCores s p).getD i 0)) := by
  rw [writeImages_eq bases off n seq himg]
  refine foldl_imageStep hn _ (fun i hi => ?_) (fun i hi j hj hij => ?_)
  · have h := hbase i (by omega)
    omega
  · have h := hapart i (by omega) j (by omega) hij
    omega

end Sys2Proof.Machine
end

section
/-!
SUPPORT. The start of a compute phase (R182, R185, R190, R193): its cores, its currents, the power states' answer and the latches.
-/
namespace Sys2Proof.Machine

/-! ## Cores changed one after another, each once -/

theorem getCore_foldl_modCore_nodup {f : Core → Core} (l : List Nat) : ∀ s : State, l.Nodup → ∀ c,
    getCore (l.foldl (fun s c => modCore s c f) s) c = if c ∈ l then f (getCore s c) else getCore s c := by
  induction l with
  | nil => exact fun _ _ _ => rfl
  | cons x r ih =>
    intro s hl c
    obtain ⟨hx, hr⟩ := List.nodup_cons.mp hl
    rw [List.foldl_cons, ih _ hr c, getCore_modCore]
    by_cases hc : c = x
    · rw [if_neg (hc ▸ hx), if_pos hc, if_pos (hc ▸ List.mem_cons_self), hc]
    · simp only [List.mem_cons, hc, false_or, if_false]

theorem foldl_modCore_keeps {β : Type} {f : Core → Core} {π : Core → β} (hf : ∀ x, π (f x) = π x) (l : List Nat) :
    ∀ (s : State) (c : Nat), π (getCore (l.foldl (fun s c => modCore s c f) s) c) = π (getCore s c) := by
  induction l with
  | nil => exact fun _ _ => rfl
  | cons x r ih =>
    intro s c
    rw [List.foldl_cons, ih, getCore_modCore]
    split_ifs with hc
    · rw [hf, hc]
    · rfl

/-! ## The latches, whatever was kept (R185) -/

/-- What latching PWRSTATE changes: the partition's latches and the latch of each of its cores. -/
structure LatchOnly (p : Nat) (s t : State) : Prop where
  rest : ∃ cores parts, t = { s with cores := cores, parts := parts }
  part : ∃ l, getPart t p = { getPart s p with latches := l }
  core : ∀ c, ∃ v, getCore t c = { getCore s c with pwrLatch := v }
  other : ∀ c, c ∉ partCores s p → getCore t c = getCore s c

theorem LatchOnly.refl (p : Nat) (s : State) : LatchOnly p s s :=
  ⟨⟨s.cores, s.parts, rfl⟩, ⟨(getPart s p).latches, rfl⟩, fun c => ⟨(getCore s c).pwrLatch, rfl⟩, fun _ _ => rfl⟩

theorem LatchOnly.partCores {p : Nat} {s t : State} (h : LatchOnly p s t) : partCores t p = Machine.partCores s p := by
  obtain ⟨l, hpart⟩ := h.part
  rw [Machine.partCores, hpart]
  rfl

theorem LatchOnly.trans {p : Nat} {a b c : State} (h : LatchOnly p a b) (h' : LatchOnly p b c) : LatchOnly p a c := by
  have hcores := h.partCores
  obtain ⟨⟨v, w, hrest⟩, ⟨l, hpart⟩, hcore, hother⟩ := h
  obtain ⟨⟨v', w', hrest'⟩, ⟨l', hpart'⟩, hcore', hother'⟩ := h'
  refine ⟨⟨v', w', by rw [hrest', hrest]⟩, ⟨l', by rw [hpart', hpart]⟩, fun k => ?_, fun k hk => ?_⟩
  · obtain ⟨i, hi⟩ := hcore k
    obtain ⟨j, hj⟩ := hcore' k
    exact ⟨j, by rw [hj, hi]⟩
  · rw [hother' k (by rw [hcores]; exact hk), hother k hk]

theorem latchOnly_latchStep {p n : Nat} {s : State} (hn : n < (partCores s p).length) (k : Nat) : LatchOnly p s (latchStep p k s n) := by
  have hmem : ((partCores s p)[n]?).getD 0 ∈ partCores s p := by
    rw [List.getElem?_eq_getElem hn]
    exact List.getElem_mem hn
  unfold latchStep
  dsimp only
  refine ⟨⟨_, _, rfl⟩, ⟨_, getPart_modPart_self _ p _⟩, fun c => ?_, fun c hc => ?_⟩
  · rw [getCore_modPart, getCore_modCore]
    split_ifs with hc
    · exact ⟨_, by rw [hc]⟩
    · exact ⟨(getCore s c).pwrLatch, rfl⟩
  · rw [getCore_modPart, getCore_modCore, if_neg fun h : c = _ => hc (h.symm ▸ hmem)]

theorem latchOnly_latchPower (s : State) (p k : Nat) : LatchOnly p s (latchPower s p k) := by
  have hfold : ∀ (l : List Nat) (s : State), (∀ n ∈ l, n < (partCores s p).length) → LatchOnly p s (l.foldl (latchStep p k) s) := by
    intro l
    induction l with
    | nil => exact fun s _ => LatchOnly.refl p s
    | cons n r ih =>
      intro s hl
      have hstep := latchOnly_latchStep (hl n List.mem_cons_self) k
      exact hstep.trans (ih _ fun m hm => by rw [hstep.partCores]; exact hl m (List.mem_cons_of_mem n hm))
  rw [latchPower_eq_foldl]
  exact hfold _ s fun n hn => List.mem_range.mp hn

/-! ## The currents of the ramp (R182, R372) -/

theorem modCores_rest (s : State) (p : Nat) (f : Core → Core) : ∃ v, modCores s p f = { s with cores := v } :=
  foldl_modCore_rest (fun _ => f) _ s

theorem foldl_trackStr_current {c : Nat} (l : List Nat) : ∀ s : State, (getCore s c).vacant = false →
    getCore (l.foldl trackStr s) c = getCore s c := by
  induction l with
  | nil => exact fun _ _ => rfl
  | cons n r ih =>
    intro s hc
    have hstep : getCore (trackStr s n) c = getCore s c := by
      rw [getCore_trackStr]
      split_ifs
      · obtain ⟨i, hi, hcur⟩ := tracked_eq s n c
        rw [hi, hcur hc]
      · rfl
    rw [List.foldl_cons, ih _ (by rw [hstep]; exact hc), hstep]

/-- A core that runs a logical core of the partition draws at least the declared peak once the ramp is over (R182). -/
theorem getCore_rampCurrents {s : State} {p c : Nat} (hc : c ∈ partCores s p) (hv : (getCore s c).vacant = false) :
    getCore (rampCurrents s p) c =
      { getCore s c with current := max (getCore s c).current ((getPart s p).launch.getD Launch.zero).peak } := by
  have hcore := getCore_foldl_modCore (f := fun _ co => { co with current := max co.current ((getPart s p).launch.getD Launch.zero).peak })
    (fun _ x => by simp) (partCores s p) s c
  rw [if_pos hc] at hcore
  unfold rampCurrents
  rw [foldl_trackStr_current _ _ (by rw [hcore]; exact hv), hcore]

/-! ## The power states' answer (R184) -/

/-- The causes of state 2 look at temperatures and currents of the cores, at the dies and at the string's hard response. -/
theorem cause2_of_currents {s t : State} {n : Nat}
    (hc : ∀ c, (getCore t c).therm = (getCore s c).therm ∧ (getCore t c).current = (getCore s c).current) (hd : t.dies = s.dies)
    (hh : (getStr t n).hard = (getStr s n).hard) : cause2 t n = cause2 s n := by
  have htherm : ∀ c, (getCore t c).therm = (getCore s c).therm := fun c => (hc c).1
  have hcur : ∀ c, (getCore t c).current = (getCore s c).current := fun c => (hc c).2
  have hdie : ∀ d, getDie t d = getDie s d := fun d => by rw [getDie, hd]; rfl
  unfold cause2 hottest tempOf limitOver railCurrent4 strCurrent4
  simp only [htherm, hcur, hdie, hh]

theorem refreshed_foldl_refreshPower (l : List Nat) : ∀ s : State,
    Refreshed (l.flatMap fun d => (List.range 32).map fun i => 32 * d + i) s (l.foldl refreshPower s) := by
  induction l with
  | nil =>
    intro s
    rw [List.flatMap_nil, List.foldl_nil]
    exact (refreshed_foldl [] s : Refreshed [] s s)
  | cons d r ih =>
    intro s
    have hd : Refreshed ((List.range 32).map fun i => 32 * d + i) s (refreshPower s d) := by
      rw [refreshPower_eq_foldl]
      exact refreshed_foldl _ s
    rw [List.flatMap_cons, List.foldl_cons]
    exact hd.trans (ih _)

theorem mem_ownDies {s : State} {p n : Nat} : n ∈ ((ownDies s p).flatMap fun d => (List.range 32).map fun i => 32 * d + i) ↔
    ∃ m ∈ boundStrings s p, m / 32 = n / 32 := by
  rw [List.mem_flatMap]
  constructor
  · rintro ⟨d, hd, hn⟩
    obtain ⟨m, hm, rfl⟩ := List.mem_map.mp (List.mem_eraseDups.mp hd)
    exact ⟨m, hm, (mem_dieStrings.mp hn).symm⟩
  · rintro ⟨m, hm, hn⟩
    exact ⟨_, List.mem_eraseDups.mpr (List.mem_map.mpr ⟨m, hm, rfl⟩), mem_dieStrings.mpr hn.symm⟩

/-! ## What the start of a compute phase leaves (R193) -/

/-- What of a core the start of a compute phase cannot change. -/
structure CoreFixed where
  part : Option Nat
  ctxBase : Word
  ckptBase : Word
  therm : Word
  ballast : Bool

def Core.fixed (x : Core) : CoreFixed :=
  { part := x.part, ctxBase := x.ctxBase, ckptBase := x.ckptBase, therm := x.therm, ballast := x.ballast }

/-- The partition, the cores' places and the rest of the state as a compute phase is made ready. -/
structure Readied (s : State) (p : Nat) (t : State) : Prop where
  rest : ∃ cores strings parts time, s.time ≤ time ∧ t = { s with cores := cores, strings := strings, parts := parts, time := time }
  part : ∃ l, getPart t p = { getPart s p with latches := l }
  core : ∀ c, (getCore t c).fixed = (getCore s c).fixed

theorem readied_readyCompute (s : State) (p k : Nat) : Readied s p (readyCompute s p k) := by
  obtain ⟨v, hm⟩ := modCores_rest s p Core.beginCompute
  have hcore : ∀ c, (getCore (modCores s p Core.beginCompute) c).fixed = (getCore s c).fixed :=
    foldl_modCore_keeps (f := Core.beginCompute) (π := Core.fixed) (fun _ => rfl) (partCores s p) s
  unfold readyCompute
  generalize modCores s p Core.beginCompute = m at hm hcore
  obtain ⟨⟨w, hramp⟩, hcur⟩ := keepsCores_rampCurrents m p
  obtain ⟨x, hx⟩ := foldl_refreshPower_rest (ownDies m p) { rampCurrents m p with time := m.time + rampTime m p }
  have hr : rampUp m p = { s with cores := w, strings := x, time := s.time + rampTime m p } := by
    rw [rampUp_eq, hx, hramp, hm]
  have hrcore : ∀ c, (getCore (rampUp m p) c).fixed = (getCore s c).fixed := fun c => by
    obtain ⟨i, hi⟩ := hcur c
    have h : getCore (rampUp m p) c = getCore (rampCurrents m p) c := by rw [rampUp_eq, hx]; rfl
    rw [h, hi, ← hcore c]
    rfl
  generalize rampUp m p = r at hr hrcore
  obtain ⟨⟨y, z, hl⟩, ⟨l, hpart⟩, hlatch, -⟩ := latchOnly_latchPower r p k
  refine ⟨⟨y, x, z, s.time + rampTime m p, Nat.le_add_right _ _, by rw [hl, hr]⟩, ⟨l, by rw [hpart, hr]; rfl⟩, fun c => ?_⟩
  obtain ⟨i, hi⟩ := hlatch c
  rw [hi, ← hrcore c]
  rfl

/-- One core of a partition as its compute phase is made ready: as it begins, but for its current and its latch. -/
theorem getCore_readyCompute {s : State} {p k c : Nat} (he : (getPart s p).evicted = false) (hn : (getPart s p).lmap.Nodup)
    (hc : c ∈ (getPart s p).lmap) :
    ∃ i v, getCore (readyCompute s p k) c = { (getCore s c).beginCompute with current := i, pwrLatch := v } := by
  obtain ⟨v, hm⟩ := modCores_rest s p Core.beginCompute
  have hcores := partCores_of_lmap he
  have hcore : getCore (modCores s p Core.beginCompute) c = (getCore s c).beginCompute := by
    rw [modCores, hcores]
    exact (getCore_foldl_modCore_nodup _ s hn c).trans (if_pos hc)
  unfold readyCompute
  generalize modCores s p Core.beginCompute = m at hm hcore
  obtain ⟨-, hcur⟩ := keepsCores_rampCurrents m p
  obtain ⟨i, hi⟩ := hcur c
  obtain ⟨x, hx⟩ := foldl_refreshPower_rest (ownDies m p) { rampCurrents m p with time := m.time + rampTime m p }
  have h : getCore (rampUp m p) c = getCore (rampCurrents m p) c := by rw [rampUp_eq, hx]; rfl
  generalize rampUp m p = r at h
  obtain ⟨-, -, hlatch, -⟩ := latchOnly_latchPower r p k
  obtain ⟨w, hw⟩ := hlatch c
  exact ⟨i, w, by rw [hw, h, hi, hcore]⟩

/-- A core that is none of the partition's changes its current at most. -/
theorem getCore_readyCompute_other {s : State} {p c : Nat} (he : (getPart s p).evicted = false) (hc : c ∉ (getPart s p).lmap) (k : Nat) :
    ∃ i, getCore (readyCompute s p k) c = { getCore s c with current := i } := by
  obtain ⟨v, hm⟩ := modCores_rest s p Core.beginCompute
  have hcores := partCores_of_lmap he
  have hcore : getCore (modCores s p Core.beginCompute) c = getCore s c := by
    have hother : ∀ (l : List Nat) (s : State), c ∉ l → getCore (l.foldl (fun s c => modCore s c Core.beginCompute) s) c = getCore s c := by
      intro l
      induction l with
      | nil => exact fun _ _ => rfl
      | cons x r ih =>
        intro s hl
        rw [List.mem_cons, not_or] at hl
        rw [List.foldl_cons, ih _ hl.2, getCore_modCore, if_neg hl.1]
    rw [modCores, hcores]
    exact hother _ s hc
  have hpart : getPart (modCores s p Core.beginCompute) p = getPart s p := by rw [hm]; rfl
  unfold readyCompute
  generalize modCores s p Core.beginCompute = m at hcore hpart
  obtain ⟨-, hcur⟩ := keepsCores_rampCurrents m p
  obtain ⟨i, hi⟩ := hcur c
  obtain ⟨x, hx⟩ := foldl_refreshPower_rest (ownDies m p) { rampCurrents m p with time := m.time + rampTime m p }
  have h : getCore (rampUp m p) c = getCore (rampCurrents m p) c := by rw [rampUp_eq, hx]; rfl
  have hpart' : getPart (rampUp m p) p = getPart s p := (getPart_congr (keepsPhase_rampUp m p).parts p).trans hpart
  generalize rampUp m p = r at h hpart'
  refine ⟨i, ?_⟩
  rw [(latchOnly_latchPower r p k).other c (by rw [partCores, hpart', ← partCores, hcores]; exact hc), h, hi, hcore]

/-- The current of a core that runs a logical core of the partition, once its compute phase is made ready (R182). -/
theorem current_readyCompute {s : State} {p k c : Nat} (he : (getPart s p).evicted = false) (hn : (getPart s p).lmap.Nodup)
    (hc : c ∈ (getPart s p).lmap) (hv : (getCore s c).vacant = false) :
    (getCore (readyCompute s p k) c).current =
      max (getCore s c).current ((getPart s p).launch.getD Launch.zero).peak := by
  obtain ⟨v, hm⟩ := modCores_rest s p Core.beginCompute
  have hcores := partCores_of_lmap he
  have hcore : getCore (modCores s p Core.beginCompute) c = (getCore s c).beginCompute := by
    rw [modCores, hcores]
    exact (getCore_foldl_modCore_nodup _ s hn c).trans (if_pos hc)
  have hmem : c ∈ partCores (modCores s p Core.beginCompute) p := by
    rw [hm]
    rw [← hcores] at hc
    exact hc
  have hpart : getPart (modCores s p Core.beginCompute) p = getPart s p := by rw [hm]; rfl
  unfold readyCompute
  generalize modCores s p Core.beginCompute = m at hcore hmem hpart
  have hcur := getCore_rampCurrents hmem (by rw [hcore]; exact hv)
  rw [hcore, hpart] at hcur
  obtain ⟨x, hx⟩ := foldl_refreshPower_rest (ownDies m p) { rampCurrents m p with time := m.time + rampTime m p }
  have h : getCore (rampUp m p) c = getCore (rampCurrents m p) c := by rw [rampUp_eq, hx]; rfl
  rw [hcur] at h
  generalize rampUp m p = r at h
  obtain ⟨-, -, hlatch, -⟩ := latchOnly_latchPower r p k
  obtain ⟨w, hw⟩ := hlatch c
  rw [hw, h]
  rfl

/-- The latch of a core where no latch was kept for the superstep (R185). -/
theorem pwrLatch_readyCompute {s : State} {p k c : Nat} (he : (getPart s p).evicted = false)
    (hc : c ∈ (getPart s p).lmap) (hk : (getPart s p).latches = []) :
    (getCore (readyCompute s p k) c).pwrLatch = (getStr (readyCompute s p k) (c / 4)).pwr := by
  obtain ⟨v, hm⟩ := modCores_rest s p Core.beginCompute
  unfold readyCompute
  generalize modCores s p Core.beginCompute = m at hm
  have hrest := (keepsPhase_rampUp m p).parts
  have hpart : getPart (rampUp m p) p = getPart s p := by
    rw [getPart_congr hrest, hm]
    rfl
  generalize rampUp m p = r at hpart
  have hlatch := latched_latchPower (s := r) (p := p) (k := k) (by rw [hpart, hk]; rfl)
  have hcore := hlatch.cores c
  have hmem : c ∈ (partCores r p).take (partCores r p).length := by
    rw [List.take_length, partCores, hpart, ← partCores, partCores_of_lmap he]
    exact hc
  have hstr : getStr (latchPower r p k) (c / 4) = getStr r (c / 4) := by
    rw [getStr, (congrArg State.strings hlatch.rest : _ = r.strings)]
    rfl
  rw [hcore, if_pos hmem, hstr]
  rfl

/-- The strings as a compute phase is made ready: state 2 where a cause asks for it on a die of the partition's strings (R184). -/
theorem getStr_readyCompute (s : State) (p k n : Nat) : ∃ v, getStr (readyCompute s p k) n = { getStr s n with
    pwr := if cause2 (readyCompute s p k) n = true ∧ (∃ m ∈ boundStrings s p, m / 32 = n / 32) then 2 else (getStr s n).pwr
    clearSince := v } := by
  obtain ⟨v, hm⟩ := modCores_rest s p Core.beginCompute
  unfold readyCompute
  generalize modCores s p Core.beginCompute = m at hm
  have hbound : boundStrings m p = boundStrings s p := by rw [hm]; rfl
  have hstr : getStr m n = getStr s n := by rw [hm]; rfl
  obtain ⟨⟨w, hramp⟩, -⟩ := keepsCores_rampCurrents m p
  have hfresh := refreshed_foldl_refreshPower (ownDies m p) { rampCurrents m p with time := m.time + rampTime m p }
  have hcause := hfresh.cause2 n
  obtain ⟨x, hx⟩ := hfresh.strings n
  rw [← rampUp_eq] at hcause hx
  have hsame : getStr { rampCurrents m p with time := m.time + rampTime m p } n = getStr s n := by
    rw [← hstr, hramp]
    rfl
  have hmem := mem_ownDies (s := m) (p := p) (n := n)
  rw [hbound] at hmem
  rw [← hcause, hsame] at hx
  simp only [hmem] at hx
  generalize rampUp m p = r at hx
  have hlatch := latchOnly_latchPower r p k
  generalize latchPower r p k = t at hlatch
  have hstr' : getStr t n = getStr r n := by
    obtain ⟨y, z, hl⟩ := hlatch.rest
    rw [hl]
    rfl
  have hcause' : cause2 t n = cause2 r n := by
    refine cause2_of_currents (fun c => ?_) ?_ (by rw [hstr'])
    · obtain ⟨i, hi⟩ := hlatch.core c
      rw [hi]
      exact ⟨rfl, rfl⟩
    · obtain ⟨y, z, hl⟩ := hlatch.rest
      rw [hl]
  refine ⟨x, ?_⟩
  have hiff : (cause2 t n = true ∧ ∃ m ∈ boundStrings s p, m / 32 = n / 32) ↔
      (∃ m ∈ boundStrings s p, m / 32 = n / 32) ∧ cause2 r n = true := by rw [hcause', and_comm]
  rw [hstr', hx]
  simp only [hiff]

/-! ## The cores' reports (R191) -/

/-- A core in its compute phase, tested again. -/
def Core.testCompute (co : Core) : Core :=
  if ((List.range co.ngroups).all fun g => (co.group g).synced || co.groupDone g) = true then
    { co with pst := if co.eng.queue.isEmpty then .synced else .draining }
  else co

theorem getCore_retest_compute {s : State} {c : Nat} (h : (getCore s c).pst = .compute) (k : Nat) :
    getCore (retest s c) k = if k = c then (getCore s c).testCompute else getCore s k := by
  unfold retest
  dsimp only
  rw [h]
  dsimp only
  unfold Core.testCompute
  by_cases hall : ((List.range (getCore s c).ngroups).all fun g => ((getCore s c).group g).synced || (getCore s c).groupDone g) = true
  · rw [if_pos hall, if_pos hall, getCore_setCore]
  · rw [if_neg hall, if_neg hall]
    split_ifs with hk
    · rw [hk]
    · rfl

theorem getCore_foldl_retest (l : List Nat) : ∀ s : State, l.Nodup → (∀ c ∈ l, (getCore s c).pst = .compute) → ∀ k,
    getCore (l.foldl retest s) k = if k ∈ l then (getCore s k).testCompute else getCore s k := by
  induction l with
  | nil => exact fun _ _ _ _ => rfl
  | cons x r ih =>
    intro s hl hp k
    obtain ⟨hx, hr⟩ := List.nodup_cons.mp hl
    have hstep := getCore_retest_compute (hp x List.mem_cons_self)
    have hne : ∀ c ∈ r, c ≠ x := fun c hc h => hx (h ▸ hc)
    rw [List.foldl_cons, ih _ hr (fun c hc => by rw [hstep, if_neg (hne c hc)]; exact hp c (List.mem_cons_of_mem x hc)), hstep]
    by_cases hk : k = x
    · rw [if_neg (hk ▸ hx), if_pos hk, if_pos (hk ▸ List.mem_cons_self), hk]
    · simp only [List.mem_cons, hk, false_or, if_false]

theorem Core.testCompute_eq (co : Core) : ∃ v, co.testCompute = { co with pst := v } := by
  unfold Core.testCompute
  split_ifs
  · exact ⟨_, rfl⟩
  · exact ⟨_, rfl⟩
  · exact ⟨co.pst, rfl⟩

/-- What a core reports as its compute phase begins, none of its groups having synced (R191). -/
theorem Core.testCompute_pst {co : Core} (hs : ∀ g, (co.group g).synced = false) (hp : co.pst = .compute) :
    ((∃ g < co.ngroups, co.groupDone g = false) → co.testCompute.pst = .compute) ∧
    ((∀ g < co.ngroups, co.groupDone g = true) → co.eng.queue = [] → co.testCompute.pst = .synced) := by
  have hall : ((List.range co.ngroups).all fun g => (co.group g).synced || co.groupDone g) = true ↔
      ∀ g < co.ngroups, co.groupDone g = true := by simp [hs]
  refine ⟨fun ⟨g, hg, hd⟩ => ?_, fun hd hq => ?_⟩
  · rw [Core.testCompute, if_neg fun h => Bool.false_ne_true (hd.symm.trans (hall.mp h g hg))]
    exact hp
  · rw [Core.testCompute, if_pos (hall.mpr hd), hq]
    rfl

theorem Core.group_beginCompute (co : Core) (g : Nat) : co.beginCompute.group g = (co.group g).beginCompute :=
  spGet_map_snd rfl co.groups g

theorem Group.lane_beginCompute (g : Group) (l : Nat) : g.beginCompute.lane l = { g.lane l with mark := false } :=
  spGet_map_snd (f := fun x : Lane => { x with mark := false }) rfl g.lanes l

end Sys2Proof.Machine
end

section
/-!
SUPPORT. A seal that takes effect, and the flip to compute (R190, R193, R234, R280, R371, R410, R411).
-/
namespace Sys2Proof.Machine

/-! ## Bytes outside a write -/

theorem memBytes_memWrite_out (m : Mem) (a : Nat) (bs : List Byte) (n : Nat) : ∀ b, b + n ≤ a ∨ a + bs.length ≤ b →
    memBytes (memWrite m a bs) b n = memBytes m b n := by
  induction n with
  | zero => exact fun _ _ => rfl
  | succ n ih =>
    intro b h
    rw [memBytes, memBytes, ih (b + 1) (by omega), memGet_memWrite_out bs m a b (by omega)]

/-! ## An entry of the tensor table (R227, R232) -/

/-- The bytes of a replica once every replica is written. -/
theorem memBytes_foldl_vaultWrite {d loc : Nat} {bs : List Byte} (hfit : loc % 2 ^ 36 + bs.length ≤ 2 ^ 36) (l : List Nat) : ∀ s : State,
    d ∈ l ∨ memBytes s.vault (d * 2 ^ 36 + loc % 2 ^ 36) bs.length = bs →
    memBytes (l.foldl (fun s e => vaultWrite s (e * 2 ^ 36 + loc % 2 ^ 36) bs) s).vault (d * 2 ^ 36 + loc % 2 ^ 36) bs.length = bs := by
  induction l with
  | nil => exact fun s h => h.resolve_left List.not_mem_nil
  | cons e r ih =>
    intro s h
    refine ih _ ?_
    by_cases he : d = e
    · subst he
      exact .inr (memBytes_memWrite bs s.vault _)
    · refine h.imp (fun h => (List.mem_cons.mp h).resolve_left he) fun h => ?_
      exact (memBytes_memWrite_out s.vault _ bs bs.length _ (by omega)).trans h

theorem genBytes_length (g : Gen) : (genBytes g).length = 64 := by simp [genBytes]

theorem lowDie_mem {s : State} (h : liveDies s ≠ []) : lowDie s ∈ liveDies s := by
  unfold lowDie
  cases hl : liveDies s with
  | nil => exact absurd hl h
  | cons d r => exact List.mem_cons_self

/-- An entry reads as its bytes were committed. -/
theorem getGen_setGen {s : State} {g : Gen} (h : liveDies s ≠ []) : getGen (setGen s g) g.idx = genOf g.idx (genBytes g) := by
  have hfit : ttAddr s g.idx % 2 ^ 36 + (genBytes g).length ≤ 2 ^ 36 := by
    rw [genBytes_length, ttAddr]
    omega
  have hread := memBytes_foldl_vaultWrite hfit (liveDies s) s (.inl (lowDie_mem h))
  rw [genBytes_length] at hread
  obtain ⟨v, hv⟩ := replWrite_rest s (ttAddr s g.idx) (genBytes g)
  have haddr : lowDie (setGen s g) * 2 ^ 36 + ttAddr (setGen s g) g.idx % 2 ^ 36 = lowDie s * 2 ^ 36 + ttAddr s g.idx % 2 ^ 36 := by
    rw [setGen, hv]
    rfl
  rw [getGen, haddr]
  exact congrArg (genOf g.idx) hread

theorem genOf_genBytes_state (i : Nat) (g : Gen) : (genOf i (genBytes g)).state = g.state % 256 := by
  have hsplit : genBytes g = (leBytes 8 g.vbase ++ leBytes 8 g.size ++ leBytes 6 g.tid.toNat ++ [0, 0] ++ leBytes 4 g.ver) ++
      (leBytes 1 g.state ++ (leBytes 1 g.keyslot ++ leBytes 1 g.owner ++ leBytes 1 g.flags.toNat ++ leBytes 4 g.prev ++
        leBytes 4 g.audn ++ leBytes 8 g.audset ++ leBytes 8 g.sealph.toNat ++ leBytes 8 0)) := by
    simp only [genBytes, List.append_assoc]
  rw [genOf]
  dsimp only
  rw [hsplit, List.drop_left' (by simp), List.take_left' (by simp), leNat_leBytes]
  rfl

theorem genOf_genBytes_sealph (i : Nat) (g : Gen) : (genOf i (genBytes g)).sealph = g.sealph := by
  have h : (genOf i (genBytes g)).sealph = wd (leNat (leBytes 8 g.sealph.toNat)) := rfl
  have hlt : g.sealph.toNat < 256 ^ 8 := g.sealph.isLt
  rw [h, leNat_leBytes, Nat.mod_eq_of_lt hlt]
  exact BitVec.ofNat_toNat 64 g.sealph

/-! ## One seal (R280) -/

/-- Cores alone may differ, and of each only its scratchpad and what stands in its queues besides. -/
theorem getGen_congr {s t : State} (hv : t.vault = s.vault) (hc : t.ttCtl = s.ttCtl) (hg : liveDies t = liveDies s) (i : Nat) :
    getGen t i = getGen s i := by
  rw [getGen, getGen, lowDie, lowDie, hg, vaultBytes, vaultBytes, hv, ttAddr, ttAddr, hc]

theorem notify_vault (s : State) (p kind idx : Nat) (tid : BitVec 48) (ver len : Nat) (value : Word) :
    (notify s p kind idx tid ver len value).vault = s.vault ∧ (notify s p kind idx tid ver len value).gran = s.gran := by
  unfold notify
  dsimp only
  split_ifs
  · exact ⟨rfl, rfl⟩
  · obtain ⟨v, hv⟩ := foldl_modCore_rest (fun _ x =>
      { x with spad := qAppend x.spad (qwBase x.noteq) (qwDepth x.noteq) 32
                 (leBytes 1 kind ++ [0, 0, 0] ++ leBytes 4 idx ++ leBytes 6 tid.toNat ++ [0, 0] ++ leBytes 4 ver ++ leBytes 4 len ++
                   leBytes 8 value.toNat), eng := x.eng.acquired }) (getPart s p).lmap s
    rw [hv]
    exact ⟨rfl, rfl⟩

/-- The entry of a generation sealed in a phase. -/
def Gen.sealed (ph : Word) (g : Gen) : Gen := { g with state := 3, sealph := ph }

/-- The Granite die has noted the task that seals a generation. -/
def noteSealer (s : State) (p i : Nat) : State :=
  modGran s fun gr => { gr with gens := gr.gens.map fun a => if a.idx = i then { a with sealer := some (getPart s p).taskid } else a }

theorem sealGen_of_open {s : State} {p i : Nat} (ho : (getGen s i).owner = p) (hs : (getGen s i).state = 2) :
    sealGen s p i = some (notify (setGen (noteSealer s p i) ((getGen s i).sealed (getPart s p).phase)) p 1 i (getGen s i).tid
      (getGen s i).ver 0 (getPart s p).phase) := by
  have hno : ¬ ((getGen s i).owner = p ∧ (getGen s i).landing = true ∧ 3 ≤ (getGen s i).state ∧ (getGen s i).state ≤ 5 ∧
      (getPart s p).phase.toNat < (getPart s p).rerunTo.toNat) := by
    rw [hs]
    omega
  have hyes : ¬ ((getGen s i).owner ≠ p ∨ (getGen s i).state ≠ 2) := by
    rw [ho, hs]
    simp
  exact (if_neg hno).trans (if_neg hyes)

/-- An OPEN generation of a partition that is sealed stands in SEALED with the phase in SEALPH. -/
theorem getGen_sealGen {s t : State} {p i : Nat} (ho : (getGen s i).owner = p) (hs : (getGen s i).state = 2) (hl : liveDies s ≠ [])
    (ht : sealGen s p i = some t) : (getGen t i).state = 3 ∧ (getGen t i).sealph = (getPart s p).phase := by
  obtain rfl := Option.some.inj ((sealGen_of_open ho hs).symm.trans ht)
  generalize hg : (getGen s i).sealed (getPart s p).phase = g
  have hidx : g.idx = i := by rw [← hg]; rfl
  have hlive : liveDies (noteSealer s p i) ≠ [] := hl
  generalize noteSealer s p i = u at hlive
  obtain ⟨hvault, hgran⟩ := notify_vault (setGen u g) p 1 i (getGen s i).tid (getGen s i).ver 0 (getPart s p).phase
  obtain ⟨co, di, pa, v, w, gr, hrest⟩ := (tensored_notify (setGen u g) p 1 i (getGen s i).tid (getGen s i).ver 0 (getPart s p).phase).rest
  have hget := getGen_congr hvault (by rw [hrest]) (by rw [liveDies, hgran]; rfl) i
  have hread := getGen_setGen (g := g) hlive
  rw [hidx] at hread
  rw [hget, hread, genOf_genBytes_state, genOf_genBytes_sealph, ← hg]
  exact ⟨rfl, rfl⟩

/-! ## Entries marked DONE (R272) -/

theorem state_getEnt (s : State) (c pos : Nat) :
    (getEnt s c pos).state = memGet (getCore s c).spad (xqAddr (getCore s c) pos + 5) := by
  have h : (getEnt s c pos).state = BitVec.ofNat 8 (leNat [memGet (getCore s c).spad (xqAddr (getCore s c) pos + 5)]) := rfl
  rw [h]
  simp [leNat]

/-- An entry's state is set to STARTED and DONE. -/
def markDone (s : State) (x : Nat × Nat × Nat) : State := setEntState s x.2.1 x.2.2 ((getEnt s x.2.1 x.2.2).state ||| 3)

theorem state_setEntState (s : State) (c pos : Nat) (v : BitVec 8) (c' pos' : Nat) :
    (getEnt (setEntState s c pos v) c' pos').state =
      if c' = c ∧ xqAddr (getCore s c) pos' = xqAddr (getCore s c) pos then v else (getEnt s c' pos').state := by
  rw [state_getEnt, state_getEnt, setEntState, spadWrite, getCore_modCore]
  by_cases hc : c' = c
  · subst hc
    rw [if_pos rfl]
    have haddr : ∀ q, xqAddr { getCore s c' with spad := memWrite (getCore s c').spad (xqAddr (getCore s c') pos + 5) [v] } q =
        xqAddr (getCore s c') q := fun _ => rfl
    rw [haddr]
    dsimp only [memWrite]
    rw [memGet_memPut]
    simp only [Nat.add_right_cancel_iff, true_and]
  · simp only [hc, false_and, if_false]

theorem done_markDone (s : State) (x : Nat × Nat × Nat) {c pos : Nat} (h : (c, pos) = x.2 ∨ (getEnt s c pos).done = true) :
    (getEnt (markDone s x) c pos).done = true := by
  have hbit : ∀ v : BitVec 8, bit (v ||| 3) 1 = true := fun v => by simp [bit]
  unfold markDone XEnt.done
  rw [state_setEntState]
  split_ifs with hs
  · exact hbit _
  · rcases h with h | h
    · obtain ⟨rfl, rfl⟩ := Prod.mk.inj h
      exact absurd ⟨rfl, rfl⟩ hs
    · exact h

theorem done_foldl_markDone (l : List (Nat × Nat × Nat)) : ∀ (s : State) {c pos : Nat},
    (∃ x ∈ l, (c, pos) = x.2) ∨ (getEnt s c pos).done = true → (getEnt (l.foldl markDone s) c pos).done = true := by
  induction l with
  | nil => exact fun s c pos h => h.resolve_left fun ⟨_, h, _⟩ => nomatch h
  | cons x r ih =>
    intro s c pos h
    refine ih _ ?_
    rcases h with ⟨y, hy, hxy⟩ | h
    · rcases List.mem_cons.mp hy with rfl | hy
      · exact .inr (done_markDone s y (.inl hxy))
      · exact .inl ⟨y, hy, hxy⟩
    · exact .inr (done_markDone s x (.inr h))

theorem foldl_markDone_rest (l : List (Nat × Nat × Nat)) : ∀ s : State, ∃ v, l.foldl markDone s = { s with cores := v } := by
  induction l with
  | nil => exact fun s => ⟨s.cores, rfl⟩
  | cons x r ih =>
    intro s
    obtain ⟨v, hv⟩ := ih (markDone s x)
    exact ⟨v, hv⟩

theorem foldl_insertSorted_same {i : Nat} (l : List (Nat × Nat × Nat)) (h : ∀ x ∈ l, x.1 = i) (hl : l ≠ []) :
    l.foldl (fun l x => insertSorted x.1 l) [] = [i] := by
  have hkeep : ∀ l : List (Nat × Nat × Nat), (∀ x ∈ l, x.1 = i) → l.foldl (fun l x => insertSorted x.1 l) [i] = [i] := by
    intro l
    induction l with
    | nil => exact fun _ => rfl
    | cons x r ih =>
      intro h
      have hx : insertSorted x.1 [i] = [i] := by
        rw [h x List.mem_cons_self, insertSorted, if_neg (Nat.lt_irrefl i), if_pos rfl]
      rw [List.foldl_cons, hx]
      exact ih fun y hy => h y (List.mem_cons_of_mem x hy)
  cases l with
  | nil => exact absurd rfl hl
  | cons x r =>
    rw [List.foldl_cons, h x List.mem_cons_self]
    exact hkeep r fun y hy => h y (List.mem_cons_of_mem x hy)

/-- The posted TSEALs of one OPEN generation: it is sealed, and every one of them is DONE (R280). -/
theorem tensorPhase_seal {s : State} {p i : Nat} (hne : tensorPosts s p 13 ≠ []) (hi : ∀ q ∈ tensorPosts s p 13, q.1 = i)
    (hpark : ∀ q ∈ tensorPosts s p 13, (getEnt s q.2.1 q.2.2).parked = false) (ho : (getGen s i).owner = p)
    (hs : (getGen s i).state = 2) (hl : liveDies s ≠ []) :
    (getGen (tensorPhase s p 13) i).state = 3 ∧ (getGen (tensorPhase s p 13) i).sealph = (getPart s p).phase ∧
    ∀ q ∈ tensorPosts s p 13, (getEnt (tensorPhase s p 13) q.2.1 q.2.2).done = true := by
  have hseal := sealGen_of_open ho hs
  generalize hu : notify (setGen (noteSealer s p i) ((getGen s i).sealed (getPart s p).phase)) p 1 i (getGen s i).tid
    (getGen s i).ver 0 (getPart s p).phase = u at hseal
  have hposts : ((tensorPosts s p 13).filter fun x => !(getEnt s x.2.1 x.2.2).parked) = tensorPosts s p 13 :=
    List.filter_eq_self.mpr fun x hx => by rw [hpark x hx]; rfl
  have hmine : ((tensorPosts s p 13).filter fun x => decide (x.1 = i)) = tensorPosts s p 13 :=
    List.filter_eq_self.mpr fun x hx => decide_eq_true (hi x hx)
  have hphase : tensorPhase s p 13 = (tensorPosts s p 13).foldl markDone u := by
    unfold tensorPhase
    dsimp only
    rw [hposts, foldl_insertSorted_same _ hi hne, List.foldl_cons, List.foldl_nil, if_neg (by decide), tensorEffect, hseal, hmine]
    rfl
  obtain ⟨h3, hph⟩ := getGen_sealGen ho hs hl hseal
  obtain ⟨v, hv⟩ := foldl_markDone_rest (tensorPosts s p 13) u
  have hget : getGen (tensorPhase s p 13) i = getGen u i := by
    rw [hphase, hv]
    rfl
  refine ⟨by rw [hget]; exact h3, by rw [hget]; exact hph, fun q hq => ?_⟩
  rw [hphase]
  exact done_foldl_markDone _ u (.inl ⟨q, hq, rfl⟩)

/-! ## The flip to compute (R190, R193) -/

theorem beginCompute_rest (s : State) (p : Nat) : ∃ cores parts, beginCompute s p = { s with cores := cores, parts := parts } := by
  obtain ⟨v, hv⟩ := testCores_rest (modPart (advancePhase s p) p fun x =>
    { x with st := .compute, wlines := [], rlines := [], quiesce := false, audWait := false }) p
  exact ⟨v, _, hv⟩

theorem getPart_beginCompute (s : State) (p : Nat) : getPart (beginCompute s p) p = { getPart s p with
    phase := (getPart s p).phase + 1, stragAt := s.time, stragPosted := false, wdogAt := s.time, wdogDone := false
    st := .compute, wlines := [], rlines := [], quiesce := false, audWait := false } := by
  obtain ⟨v, hv⟩ := testCores_rest (modPart (advancePhase s p) p fun x =>
    { x with st := .compute, wlines := [], rlines := [], quiesce := false, audWait := false }) p
  have h : getPart (beginCompute s p) p = getPart (modPart (advancePhase s p) p fun x =>
      { x with st := .compute, wlines := [], rlines := [], quiesce := false, audWait := false }) p :=
    (congrArg (getPart · p) hv :)
  rw [h, getPart_modPart_self, getPart_advancePhase]

theorem getCore_beginCompute {s : State} {p : Nat} (he : (getPart s p).evicted = false) (hn : (getPart s p).lmap.Nodup)
    (hp : ∀ c ∈ (getPart s p).lmap, (getCore s c).pst = .compute) (k : Nat) :
    getCore (beginCompute s p) k = if k ∈ (getPart s p).lmap then (getCore s k).testCompute else getCore s k := by
  have hpart : getPart (modPart (advancePhase s p) p fun x =>
      { x with st := .compute, wlines := [], rlines := [], quiesce := false, audWait := false }) p = _ := getPart_modPart_self _ p _
  rw [getPart_advancePhase] at hpart
  have hcores : partCores (modPart (advancePhase s p) p fun x =>
      { x with st := .compute, wlines := [], rlines := [], quiesce := false, audWait := false }) p = (getPart s p).lmap := by
    rw [partCores, hpart]
    exact if_neg (by rw [he]; exact Bool.false_ne_true)
  unfold beginCompute testCores
  rw [hcores]
  exact getCore_foldl_retest _ (modPart (advancePhase s p) p _) hn hp k

theorem pushCkpt_rest (s : State) (p k seq num : Nat) (bases : List Nat) :
    ∃ h, pushCkpt s p k seq num bases = { s with gran := { s.gran with hold := h } } := by
  unfold pushCkpt
  dsimp only
  split_ifs
  · exact ⟨_, rfl⟩
  · exact ⟨s.gran.hold, rfl⟩

end Sys2Proof.Machine
end

section
/-!
SUPPORT. The two phase flips and a migration (R190 to R193, R280, R371, R374, R375, R410, R411): what each comes to, case by case.
-/
namespace Sys2Proof.Machine

/-! ## The flip to exchange (R192, R280) -/

theorem execFlipX_compute {s : State} {part : Fin 256} (hl : (getPart s part).launch ≠ none) (hh : (getPart s part).holding = none)
    (hst : (getPart s part).st = .compute) (hs : allCores s part (fun co => decide (co.pst = .synced)) = true)
    (hf : ¬ allCores s part Core.finished = true) : exec (.flipX part) s =
      .next (modPart ((partCores s part).foldl autoClose s) part fun x =>
        { x with st := .flipX, migNow := x.mig.isSome && !x.migLate, migLate := false }) := by
  change execFlipX part s = _
  unfold execFlipX
  dsimp only
  rw [if_neg (by rw [hh, Option.isNone_iff_eq_none]; simpa using hl), if_pos hst, if_pos ⟨hs, hf⟩]

/-- FLIP_X with no order that is due: the opens and the advance. -/
theorem execFlipX_open {s : State} {part : Fin 256} (hl : (getPart s part).launch ≠ none) (hh : (getPart s part).holding = none)
    (hst : (getPart s part).st = .flipX) (hm : (getPart s part).migNow = false ∨ (getPart s part).mig = none) :
    exec (.flipX part) s = .next (openAndAdvance s part) := by
  have hnone : (if (getPart s part).migNow = true then (getPart s part).mig else none) = none := by
    rcases hm with h | h
    · rw [h]; rfl
    · rw [h, ite_self]
  change execFlipX part s = _
  unfold execFlipX
  dsimp only
  rw [if_neg (by rw [hh, Option.isNone_iff_eq_none]; simpa using hl), if_neg (by rw [hst]; decide), if_neg (not_not.mpr hst), hnone]

/-- FLIP_X with an order that is due, whose source is busy or not. -/
theorem execFlipX_order {s : State} {part : Fin 256} {fr dst : Nat} {busy : Bool} (hl : (getPart s part).launch ≠ none)
    (hh : (getPart s part).holding = none) (hst : (getPart s part).st = .flipX) (hn : (getPart s part).migNow = true)
    (hm : (getPart s part).mig = some (fr, dst))
    (hb : ((partCores s part)[fr]? = none ∧ busy = false) ∨
      ∃ c, (partCores s part)[fr]? = some c ∧ busy = !(getCore s c).asy.queue.isEmpty) :
    exec (.flipX part) s = if (busy || migScrubbing (getPart s part)) = true then .next s else .next (migrate s part fr dst) := by
  change execFlipX part s = _
  unfold execFlipX
  dsimp only
  rw [if_neg (by rw [hh, Option.isNone_iff_eq_none]; simpa using hl), if_neg (by rw [hst]; decide), if_neg (not_not.mpr hst), if_pos hn,
    hm]
  dsimp only
  rcases hb with ⟨hc, rfl⟩ | ⟨c, hc, rfl⟩
  · rw [hc]
  · rw [hc]

/-- Strings that have no core left leave the partition (R373). -/
theorem dropVacant_rest (s : State) (p : Nat) : ∃ (strings : Sparse StringSt) (l : Part → List Nat),
    dropVacant s p = modPart { s with strings := strings } p fun x => { x with strings := l x } := by
  unfold dropVacant
  dsimp only
  generalize ((boundStrings s p).filter fun n => (strCores n).all fun c => decide ((getCore s c).part ≠ some p) &&
    !(getPart s p).scrub.units.any fun u => match u with
      | .core k _ => decide (k = c) && !(getPart s p).scrub.complete
      | .bytes _ _ => false) = gone
  obtain ⟨v, hv⟩ := unbindStrings_rest s gone
  exact ⟨v, fun x => x.strings.filter fun n => !gone.contains n, by rw [hv]⟩

/-- The partition once the opens have taken effect and the counter has advanced. -/
theorem getPart_crossBoundary_dropVacant (s : State) (p : Nat) : ∃ ndrop saved strings, getPart (crossBoundary (dropVacant s p) p) p =
    { getPart s p with
      ndrop := ndrop, saved := saved, strings := strings, result := resultWord (getPart s p), resw := []
      phase := (getPart s p).phase + 1, stragAt := s.time, stragPosted := false, wdogAt := s.time, wdogDone := false } := by
  obtain ⟨v, l, hdrop⟩ := dropVacant_rest s p
  have hpart : getPart (dropVacant s p) p = { getPart s p with strings := l (getPart s p) } := by
    rw [hdrop, getPart_modPart_self]
    rfl
  have htime : (dropVacant s p).time = s.time := by rw [hdrop]; rfl
  obtain ⟨n, b, hcross⟩ := getPart_crossBoundary (dropVacant s p) p
  exact ⟨n, b, l (getPart s p), by rw [hcross, htime, hpart]; rfl⟩

theorem exchanging_crossBoundary_dropVacant {s : State} {p c : Nat} (he : (getPart s p).evicted = false) (hc : c ∈ (getPart s p).lmap) :
    (getCore (crossBoundary (dropVacant s p) p) c).exchanging := by
  obtain ⟨v, l, hdrop⟩ := dropVacant_rest s p
  have hpart : getPart (dropVacant s p) p = { getPart s p with strings := l (getPart s p) } := by
    rw [hdrop, getPart_modPart_self]
    rfl
  exact exchanging_crossBoundary (by rw [hpart]; exact he) (by rw [hpart]; exact hc)

theorem openAndAdvance_eq (s : State) (p : Nat) : openAndAdvance s p =
    if (getPart (crossBoundary (dropVacant s p) p) p).hold = true ∧ ¬ entryParked (crossBoundary (dropVacant s p) p) p 12 = true then
      toHold (crossBoundary (dropVacant s p) p) p .exchange
    else modPart (crossBoundary (dropVacant s p) p) p fun x => { x with st := .exchange } := rfl

/-! ## A migration (R374, R375) -/

/-- A target takes a core of a partition (R374). -/
theorem migEligible_iff (s : State) (p c : Nat) : migEligible s p c = true ↔
    (getCore s c).ballast = false ∧ bit (partDies s p) (dieOf c) = true ∧
      (((getStr s (c / 4)).part = some p ∧ (getCore s c).part = none) ∨ stringFree s (c / 4) = true) := by
  unfold migEligible
  simp only [Bool.and_eq_true, Bool.or_eq_true, Bool.not_eq_true', decide_eq_true_eq, Option.isNone_iff_eq_none, and_assoc]
  rfl

/-- A string becomes the partition's. -/
def joinString (s : State) (p n : Nat) : State :=
  modPart (modStr s n fun x => { x with part := some p }) p fun x => { x with strings := insertSorted n x.strings }

/-- The string of a target becomes the partition's where it was unbound (R374). -/
def bindString (s : State) (p n : Nat) : State :=
  if (getStr s n).part.isNone = true then addBindString (joinString s p n) p n else s

theorem addBindString_rest (s : State) (p n : Nat) : ∃ dies, addBindString s p n = { s with dies := dies } := by
  unfold addBindString
  generalize (bindsOf s p fun x => decide (x = .running)) = l
  induction l generalizing s with
  | nil => exact ⟨s.dies, rfl⟩
  | cons x r ih =>
    rw [List.foldl_cons]
    split_ifs
    · obtain ⟨v, hv⟩ := ih (modBind s x.1 x.2 fun b => { b with strings := b.strings ||| BitVec.ofNat 32 (2 ^ (n % 32)) })
      exact ⟨v, hv⟩
    · exact ih s

theorem bindString_rest (s : State) (p n : Nat) : ∃ strings dies parts,
    bindString s p n = { s with strings := strings, dies := dies, parts := parts } := by
  unfold bindString
  split_ifs
  · obtain ⟨v, hv⟩ := addBindString_rest (joinString s p n) p n
    exact ⟨_, v, _, hv⟩
  · exact ⟨s.strings, s.dies, s.parts, rfl⟩

theorem getPart_bindString (s : State) (p n : Nat) : getPart (bindString s p n) p = { getPart s p with
    strings := if (getStr s n).part.isNone = true then insertSorted n (getPart s p).strings else (getPart s p).strings } := by
  unfold bindString
  split_ifs
  · obtain ⟨v, hv⟩ := addBindString_rest (joinString s p n) p n
    have hjoin : getPart (joinString s p n) p = { getPart s p with strings := insertSorted n (getPart s p).strings } :=
      getPart_modPart_self _ p _
    rw [← hjoin]
    exact getPart_congr (by rw [hv]) p
  · rfl

theorem getStr_bindString {s : State} {n : Nat} (h : (getStr s n).part = none) (p : Nat) : (getStr (bindString s p n) n).part = some p := by
  obtain ⟨v, hv⟩ := addBindString_rest (joinString s p n) p n
  have hjoin : getStr (joinString s p n) n = { getStr s n with part := some p } := by
    rw [joinString, getStr_modPart, getStr_modStr_self]
  have hstr : getStr (bindString s p n) n = getStr (joinString s p n) n := by
    unfold bindString
    rw [if_pos (by rw [h]; rfl), hv]
    rfl
  rw [hstr, hjoin]

/-- The state of a core moves to a target, and its own place is vacant (R374, R375). -/
def moveTo (s : State) (p fr src dst : Nat) : State :=
  modCore (bindString (modPart (modCore s dst (moveCore (getCore s src))) p fun x => { x with lmap := setAt x.lmap fr dst }) p (strOf dst))
    src clearCore

/-- A migration of a core of a task that is no world, to a target that takes it. -/
theorem migrate_taken {s : State} {p fr src dst : Nat} (hc : (partCores s p)[fr]? = some src) (he : migEligible s p dst = true)
    (hf : ¬ ((getStr s (strOf dst)).part.isNone = true ∧ ¬ fitsDie s (dieOf dst) (stringCharge s (runningBind p)
      (((getPart s p).launch.getD Launch.zero).peak, ((getPart s p).launch.getD Launch.zero).energy) [strOf dst]) = true))
    (hw : worldSlot s p = 0) : migrate s p fr dst = migEnd (moveTo s p fr src dst) p 0 := by
  have hworld : isWorld (bindString (modPart (modCore s dst (moveCore (getCore s src))) p
      fun x => { x with lmap := setAt x.lmap fr dst }) p (strOf dst)) p = false := by
    rw [isWorld, worldSlot, getPart_bindString, getPart_modPart_self]
    exact decide_eq_false (not_not.mpr hw)
  unfold migrate
  rw [hc]
  dsimp only
  rw [if_neg (not_not.mpr he), if_neg hf]
  refine (if_neg ?_).trans rfl
  exact fun h => Bool.false_ne_true (hworld.symm.trans h)

theorem getCore_moveTo (s : State) (p fr : Nat) {src dst : Nat} (hne : src ≠ dst) (k : Nat) : getCore (moveTo s p fr src dst) k =
    if k = src then clearCore (getCore s src) else if k = dst then moveCore (getCore s src) (getCore s dst) else getCore s k := by
  obtain ⟨st, di, pa, hrest⟩ := bindString_rest (modPart (modCore s dst (moveCore (getCore s src))) p
    fun x => { x with lmap := setAt x.lmap fr dst }) p (strOf dst)
  have hget : ∀ c, getCore (bindString (modPart (modCore s dst (moveCore (getCore s src))) p
      fun x => { x with lmap := setAt x.lmap fr dst }) p (strOf dst)) c =
        if c = dst then moveCore (getCore s src) (getCore s dst) else getCore s c := fun c => by
    rw [hrest, ← getCore_modCore]
    rfl
  rw [moveTo, getCore_modCore, hget, hget, if_neg hne]

theorem getPart_moveTo (s : State) (p fr src dst : Nat) : getPart (moveTo s p fr src dst) p = { getPart s p with
    lmap := setAt (getPart s p).lmap fr dst
    strings := if (getStr s (strOf dst)).part.isNone = true then insertSorted (strOf dst) (getPart s p).strings
      else (getPart s p).strings } := by
  have h := getPart_bindString (modPart (modCore s dst (moveCore (getCore s src))) p fun x => { x with lmap := setAt x.lmap fr dst }) p
    (strOf dst)
  rw [getPart_modPart_self] at h
  exact h

theorem vault_moveTo (s : State) (p fr src dst : Nat) : (moveTo s p fr src dst).vault = s.vault := by
  obtain ⟨st, di, pa, hrest⟩ := bindString_rest (modPart (modCore s dst (moveCore (getCore s src))) p
    fun x => { x with lmap := setAt x.lmap fr dst }) p (strOf dst)
  rw [moveTo, hrest]
  rfl

theorem getStr_moveTo {s : State} {dst : Nat} (h : (getStr s (strOf dst)).part = none) (p fr src : Nat) :
    (getStr (moveTo s p fr src dst) (strOf dst)).part = some p :=
  getStr_bindString (s := modPart (modCore s dst (moveCore (getCore s src))) p fun x => { x with lmap := setAt x.lmap fr dst }) h p

theorem migrate_none {s : State} {p fr : Nat} (hc : (partCores s p)[fr]? = none) (dst : Nat) : migrate s p fr dst = migEnd s p 4 := by
  unfold migrate
  rw [hc]

theorem migrate_ineligible {s : State} {p fr src dst : Nat} (hc : (partCores s p)[fr]? = some src)
    (he : ¬ migEligible s p dst = true) : migrate s p fr dst = migEnd s p 2 := by
  unfold migrate
  rw [hc]
  exact if_pos he

theorem migrate_refused {s : State} {p fr src dst : Nat} (hc : (partCores s p)[fr]? = some src) (he : migEligible s p dst = true)
    (hf : (getStr s (strOf dst)).part.isNone = true ∧ ¬ fitsDie s (dieOf dst) (stringCharge s (runningBind p)
      (((getPart s p).launch.getD Launch.zero).peak, ((getPart s p).launch.getD Launch.zero).energy) [strOf dst]) = true) :
    migrate s p fr dst = migEnd s p 3 := by
  unfold migrate
  rw [hc]
  exact (if_neg (not_not.mpr he)).trans (if_pos hf)

/-! ## The end of an exchange phase (R192, R239, R280) -/

/-- What FLIP_C does once every core is XDONE, by how the exchange phase ends. -/
theorem execFlipC_exchange {s u : State} {part : Fin 256} {good : Bool} (hl : (getPart s part).launch ≠ none)
    (hh : (getPart s part).holding = none) (hst : (getPart s part).st = .exchange)
    (hx : allCores s part (fun co => decide (co.pst = .xdone)) = true) (hr : redBlocked s part = false)
    (he : endExchange s part = (u, good)) : exec (.flipC part) s =
      if good = true then
        (if (getPart s part).hold = true ∧ (getPart s part).failed.isNone = true then .next (toHold u part .flipC)
        else .next (settleFailure (modPart u part fun x => { x with st := .flipC }) part))
      else .next u := by
  change execFlipC part s = _
  unfold execFlipC
  dsimp only
  rw [if_neg (by rw [hh, Option.isNone_iff_eq_none]; simpa using hl), if_pos hst, if_neg (by rw [hx, hr]; decide), he]
  cases good <;> rfl

/-- With no failed audit, and no TSEAL whose check fails, the partition goes to FLIP_C, or towards HELD. -/
theorem execFlipC_good {s : State} {part : Fin 256} (hl : (getPart s part).launch ≠ none) (hh : (getPart s part).holding = none)
    (hf : (getPart s part).failed = none) (hst : (getPart s part).st = .exchange)
    (hx : allCores s part (fun co => decide (co.pst = .xdone)) = true) (hr : redBlocked s part = false) (hb : badSeals s part = []) :
    exec (.flipC part) s = .next (modPart (tensorPhase (redWriteback s part) part 13) part fun y =>
      if (getPart s part).hold = true then { y with holding := some .flipC } else { y with st := .flipC }) := by
  have hback : getPart (redWriteback s part) part = getPart s part := by
    obtain ⟨d, v, g, hr⟩ := stored_redWriteback s part
    rw [hr]
    rfl
  obtain ⟨n, b, hpart⟩ := (tensored_tensorPhase (redWriteback s part) part 13).part part
  rw [hback] at hpart
  rw [execFlipC_exchange hl hh hst hx hr (endExchange_good hb), if_pos rfl]
  generalize tensorPhase (redWriteback s part) part 13 = u at hpart
  by_cases hhold : (getPart s part).hold = true
  · rw [if_pos ⟨hhold, by rw [hf]; rfl⟩]
    refine congrArg _ (modPart_congr ?_)
    rw [if_pos hhold, if_neg]
    rw [hpart, hst]
    exact fun h => nomatch h
  · rw [if_neg fun h => hhold h.1, settleFailure_of_none]
    · refine congrArg _ (modPart_congr ?_)
      rw [if_neg hhold]
    · rw [getPart_modPart_self, hpart]
      exact hf

/-! ## The flip to compute (R371, R410, R411) -/

theorem execFlipC_flipC {s : State} {part : Fin 256} (hl : (getPart s part).launch ≠ none) (hh : (getPart s part).holding = none)
    (hf : (getPart s part).failed = none) (hst : (getPart s part).st = .flipC) :
    exec (.flipC part) s = .next (flipToCompute s part (((getPart s part).phase.toNat + 1) / 2)) := by
  change execFlipC part s = _
  unfold execFlipC
  dsimp only
  rw [if_neg (by rw [hh, Option.isNone_iff_eq_none]; simpa using hl), if_neg (by rw [hst]; decide), if_pos hst,
    if_neg (by rw [hf]; decide)]

/-- The state that a compute phase starts from, but for images, in a superstep voted idempotent or not. -/
def readyFlip (s : State) (p k : Nat) (idem : Bool) : State :=
  readyCompute (modPart s p fun y => { y with idem := idem, snap := none }) p k

theorem flipToCompute_waits {s : State} {p k : Nat} (h : auditWaits s p k = true) :
    flipToCompute s p k = modPart s p fun x => { x with audWait := true } := if_pos h

theorem flipToCompute_unsettled {s : State} {p k : Nat} (h : auditWaits s p k = false)
    (hi : (votedIdem s p && (allAreas (ctxArea s) (partCores s p)).isSome) = true ∨ isCkpt s p k = true)
    (hs : allCores s p Core.settled = false) :
    flipToCompute s p k = modPart s p fun x => { x with quiesce := true, audWait := false } :=
  (if_neg (by rw [h]; exact Bool.false_ne_true)).trans (if_pos ⟨hi, by rw [hs]; exact Bool.false_ne_true⟩)

theorem flipToCompute_begins {s : State} {p k : Nat} {idem ck : Bool} (h : auditWaits s p k = false)
    (hi : (votedIdem s p && (allAreas (ctxArea s) (partCores s p)).isSome) = idem) (hc : isCkpt s p k = ck)
    (hs : idem = true ∨ ck = true → allCores s p Core.settled = true) : flipToCompute s p k =
      beginCompute (if ck = true then
        takeCkpt (if idem = true then takeSnapshot (readyFlip s p k idem) p else readyFlip s p k idem) p k
      else if idem = true then takeSnapshot (readyFlip s p k idem) p else readyFlip s p k idem) p := by
  subst hi hc
  exact (if_neg (by rw [h]; exact Bool.false_ne_true)).trans (if_neg fun hn => hn.2 (hs hn.1))

theorem auditWaits_iff (s : State) (p k : Nat) : auditWaits s p k = true ↔
    (isCkpt s p k = true ∧ (getPart s p).passSs < (getPart s p).ckptSs) ∨
      (winOf s (((getPart s p).launch.map Launch.audit).getD 0) < k ∧
        (getPart s p).passSs < k - winOf s (((getPart s p).launch.map Launch.audit).getD 0)) := by
  simp [auditWaits]

/-- What the readied state keeps of a partition, its cores' areas and its key. -/
theorem readied_readyFlip (s : State) (p k : Nat) (idem : Bool) :
    Readied (modPart s p fun y => { y with idem := idem, snap := none }) p (readyFlip s p k idem) := readied_readyCompute _ p k

theorem getPart_readyFlip (s : State) (p k : Nat) (idem : Bool) : ∃ l,
    getPart (readyFlip s p k idem) p = { getPart s p with idem := idem, snap := none, latches := l } := by
  obtain ⟨l, hl⟩ := (readied_readyFlip s p k idem).part
  rw [getPart_modPart_self] at hl
  exact ⟨l, hl⟩

end Sys2Proof.Machine
end

section
/-!
SUPPORT. The images of a flip, and a compute phase that begins (R182, R184, R185, R193, R365, R371, R410): what each leaves of the state,
core by core and string by string.
-/
namespace Sys2Proof.Machine

/-! ## The images of a flip (R365, R371, R410) -/

/-- A partition that keeps one more checkpoint, number `n`, and the latches from the older one onwards (R412). -/
def Part.keepCkpt (k n seq : Nat) (bases : List Nat) (x : Part) : Part :=
  let l := x.ckpts ++ [{ ss := k, num := n, seq := seq, result := x.result, resw := x.resw, bases := bases }]
  let l := l.drop (l.length - 2)
  { x with ckpts := l, nckpt := n + 1, ckptSs := k
           latches := x.latches.filter fun e => decide (((l.head?).map Ckpt.ss).getD 0 ≤ e.1) }

/-- The images of a checkpoint, written under the next number. -/
def ckptImages (s : State) (p : Nat) (bases : List Nat) : State :=
  writeImages (takeSeq s).2 p bases (imgBytes * ((getPart s p).nckpt % 2)) imgBytes (s.gran.imgSeq + 1) fun t c =>
    contextImage t c (getPart t p).savecnt.toNat (s.gran.imgSeq + 1)

/-- The images of a restart snapshot, written under the next number. -/
def snapImages (s : State) (p : Nat) (bases : List Nat) : State :=
  writeImages (takeSeq s).2 p bases imgBytes snapBytes (s.gran.imgSeq + 1) fun t c =>
    recordsImage t c (getPart t p).savecnt.toNat (s.gran.imgSeq + 1)

/-- The bases of a partition's areas lie apart, each `len` bytes long. -/
def Apart (bases : List Nat) (len : Nat) : Prop := ∀ i < bases.length, ∀ j < bases.length, i ≠ j →
  bases.getD i 0 + len ≤ bases.getD j 0 ∨ bases.getD j 0 + len ≤ bases.getD i 0

theorem areas_aligned {f : Nat → Word} {len : Nat} {l bases : List Nat} (h : allAreas (fun c => areaOf (f c) len) l = some bases) :
    bases.length = l.length ∧ ∀ i < bases.length, 65536 ∣ bases.getD i 0 := by
  obtain ⟨hlen, hget⟩ := allAreas_some l h
  exact ⟨hlen, fun i hi => dvd_of_areaOf (hget i (by omega))⟩

theorem ckptImages_holds {s : State} {p : Nat} {bases : List Nat} (he : (getPart s p).evicted = false)
    (ha : allAreas (fun c => areaOf (getCore s c).ckptBase 0x216000) (getPart s p).lmap = some bases) (hd : Apart bases 0x216000) :
    (∃ vault side, ckptImages s p bases = { (takeSeq s).2 with vault := vault, side := side }) ∧
    ∀ i < (getPart s p).lmap.length, ImageAt (ckptImages s p bases) (getKey s (worldSlot s p)).key (s.gran.imgSeq + 1)
      (bases.getD i 0 + imgBytes * ((getPart s p).nckpt % 2)) imgBytes
      (contextImage s ((getPart s p).lmap.getD i 0) (getPart s p).savecnt.toNat (s.gran.imgSeq + 1)) := by
  have hcores : partCores (takeSeq s).2 p = (getPart s p).lmap := partCores_of_lmap he
  obtain ⟨hlen, hbase⟩ := areas_aligned ha
  have himg := writeImages_holds (s := (takeSeq s).2) (p := p) (seq := s.gran.imgSeq + 1)
    (img := fun t c => contextImage t c (getPart t p).savecnt.toNat (s.gran.imgSeq + 1))
    (off := imgBytes * ((getPart s p).nckpt % 2)) (n := imgBytes) (fun t c hc hp => by rw [contextImage_congr hc hp, getPart_congr hp])
    (by rw [hlen, hcores]) hbase (Dvd.dvd.mul_right (by decide) _) (by decide) (by simp only [imgBytes]; omega) hd
  rw [hcores] at himg
  exact himg

theorem snapImages_holds {s : State} {p : Nat} {bases : List Nat} (he : (getPart s p).evicted = false)
    (ha : allAreas (ctxArea s) (getPart s p).lmap = some bases) (hd : Apart bases 0x130000) :
    (∃ vault side, snapImages s p bases = { (takeSeq s).2 with vault := vault, side := side }) ∧
    ∀ i < (getPart s p).lmap.length, ImageAt (snapImages s p bases) (getKey s (worldSlot s p)).key (s.gran.imgSeq + 1)
      (bases.getD i 0 + imgBytes) snapBytes
      (recordsImage s ((getPart s p).lmap.getD i 0) (getPart s p).savecnt.toNat (s.gran.imgSeq + 1)) := by
  have hcores : partCores (takeSeq s).2 p = (getPart s p).lmap := partCores_of_lmap he
  obtain ⟨hlen, hbase⟩ := areas_aligned ha
  have himg := writeImages_holds (s := (takeSeq s).2) (p := p) (seq := s.gran.imgSeq + 1)
    (img := fun t c => recordsImage t c (getPart t p).savecnt.toNat (s.gran.imgSeq + 1))
    (off := imgBytes) (n := snapBytes) (fun t c hc hp => by rw [recordsImage_congr hc hp, getPart_congr hp])
    (by rw [hlen, hcores]) hbase (by decide) (by decide) (by decide) hd
  rw [hcores] at himg
  exact himg

/-- A checkpoint whose areas may all be used: its images, its record and its number. -/
theorem takeCkpt_holds {s : State} {p k : Nat} {bases : List Nat} (he : (getPart s p).evicted = false)
    (ha : allAreas (fun c => areaOf (getCore s c).ckptBase 0x216000) (getPart s p).lmap = some bases) (hd : Apart bases 0x216000) :
    getPart (takeCkpt s p k) p = Part.keepCkpt k (getPart s p).nckpt (s.gran.imgSeq + 1) bases (getPart s p) ∧
    (takeCkpt s p k).gran.imgSeq = s.gran.imgSeq + 1 ∧
    ∀ i < (getPart s p).lmap.length, ImageAt (takeCkpt s p k) (getKey s (worldSlot s p)).key (s.gran.imgSeq + 1)
      (bases.getD i 0 + imgBytes * ((getPart s p).nckpt % 2)) imgBytes
      (contextImage s ((getPart s p).lmap.getD i 0) (getPart s p).savecnt.toNat (s.gran.imgSeq + 1)) := by
  obtain ⟨⟨v, x, hrest⟩, himg⟩ := ckptImages_holds he ha hd
  have hpart : getPart (ckptImages s p bases) p = getPart s p := by rw [hrest]; rfl
  have hgran : (ckptImages s p bases).gran.imgSeq = s.gran.imgSeq + 1 := by rw [hrest]; rfl
  have hckpt : takeCkpt s p k = pushCkpt (modPart (ckptImages s p bases) p
      (Part.keepCkpt k (getPart s p).nckpt (s.gran.imgSeq + 1) bases)) p k (s.gran.imgSeq + 1) (getPart s p).nckpt bases := by
    unfold takeCkpt
    rw [partCores_of_lmap he, ha]
    rfl
  obtain ⟨h, hpush⟩ := pushCkpt_rest (modPart (ckptImages s p bases) p
    (Part.keepCkpt k (getPart s p).nckpt (s.gran.imgSeq + 1) bases)) p k (s.gran.imgSeq + 1) (getPart s p).nckpt bases
  rw [hckpt, hpush]
  refine ⟨?_, hgran, himg⟩
  have hkeep := getPart_modPart_self (ckptImages s p bases) p (Part.keepCkpt k (getPart s p).nckpt (s.gran.imgSeq + 1) bases)
  rw [hpart] at hkeep
  exact hkeep

/-- A snapshot whose areas may all be used. -/
theorem takeSnapshot_holds {s : State} {p : Nat} {bases : List Nat} (he : (getPart s p).evicted = false)
    (ha : allAreas (ctxArea s) (getPart s p).lmap = some bases) (hd : Apart bases 0x130000) :
    getPart (takeSnapshot s p) p = { getPart s p with
      snap := some { seq := s.gran.imgSeq + 1, resw := (getPart s p).resw, bases := bases } } ∧
    (takeSnapshot s p).gran.imgSeq = s.gran.imgSeq + 1 ∧
    ∀ i < (getPart s p).lmap.length, ImageAt (takeSnapshot s p) (getKey s (worldSlot s p)).key (s.gran.imgSeq + 1)
      (bases.getD i 0 + imgBytes) snapBytes
      (recordsImage s ((getPart s p).lmap.getD i 0) (getPart s p).savecnt.toNat (s.gran.imgSeq + 1)) := by
  obtain ⟨⟨v, x, hrest⟩, himg⟩ := snapImages_holds he ha hd
  have hpart : getPart (snapImages s p bases) p = getPart s p := by rw [hrest]; rfl
  have hgran : (snapImages s p bases).gran.imgSeq = s.gran.imgSeq + 1 := by rw [hrest]; rfl
  have hsnap : takeSnapshot s p = modPart (snapImages s p bases) p fun x =>
      { x with snap := some { seq := s.gran.imgSeq + 1, resw := x.resw, bases := bases } } := by
    unfold takeSnapshot
    rw [partCores_of_lmap he, ha]
    rfl
  rw [hsnap]
  refine ⟨?_, hgran, himg⟩
  rw [getPart_modPart_self, hpart]

/-! ## The start of a compute phase (R182, R185, R193) -/

/-- One core as its compute phase is made ready. -/
theorem getCore_readyFlip {s : State} {p k c : Nat} (he : (getPart s p).evicted = false) (hn : (getPart s p).lmap.Nodup)
    (hc : c ∈ (getPart s p).lmap) (idem : Bool) :
    ∃ i v, getCore (readyFlip s p k idem) c = { (getCore s c).beginCompute with current := i, pwrLatch := v } :=
  getCore_readyCompute (s := modPart s p fun y => { y with idem := idem, snap := none }) (by rw [getPart_modPart_self]; exact he)
    (by rw [getPart_modPart_self]; exact hn) (by rw [getPart_modPart_self]; exact hc)

/-- Once the phase has begun, each core of the partition has been tested, and no other. -/
theorem getCore_flip {s : State} {p : Nat} (he : (getPart s p).evicted = false) (hn : (getPart s p).lmap.Nodup) (k : Nat) (idem : Bool)
    (c : Nat) : getCore (beginCompute (readyFlip s p k idem) p) c =
      if c ∈ (getPart s p).lmap then (getCore (readyFlip s p k idem) c).testCompute else getCore (readyFlip s p k idem) c := by
  obtain ⟨l, hpart⟩ := getPart_readyFlip s p k idem
  have hlmap : (getPart (readyFlip s p k idem) p).lmap = (getPart s p).lmap := by rw [hpart]
  rw [getCore_beginCompute (by rw [hpart]; exact he) (by rw [hlmap]; exact hn), hlmap]
  intro d hd
  rw [hlmap] at hd
  obtain ⟨i, v, hiv⟩ := getCore_readyFlip (k := k) he hn hd idem
  rw [hiv]
  rfl

/-- What a compute phase that is made ready keeps of the state. -/
theorem readyFlip_keeps (s : State) (p k : Nat) (idem : Bool) : (readyFlip s p k idem).gran = s.gran ∧
    (readyFlip s p k idem).vault = s.vault ∧ s.time ≤ (readyFlip s p k idem).time ∧
    worldSlot (readyFlip s p k idem) p = worldSlot s p ∧
    ∀ c, (getCore (readyFlip s p k idem) c).ckptBase = (getCore s c).ckptBase ∧
      (getCore (readyFlip s p k idem) c).ctxBase = (getCore s c).ctxBase := by
  obtain ⟨l, hpart⟩ := getPart_readyFlip s p k idem
  obtain ⟨⟨co, st, pa, tm, htime, hrest⟩, -, hfixed⟩ := readied_readyFlip s p k idem
  generalize readyFlip s p k idem = u at hpart hrest hfixed
  refine ⟨by rw [hrest]; rfl, by rw [hrest]; rfl, by rw [hrest]; exact htime, by rw [worldSlot, hpart]; rfl, fun c => ?_⟩
  exact ⟨congrArg CoreFixed.ckptBase (hfixed c), congrArg CoreFixed.ctxBase (hfixed c)⟩

theorem Core.testCompute_pst_only (w : Core) (p : Prop) [Decidable p] : ∃ v, (if p then w.testCompute else w) = { w with pst := v } := by
  split_ifs
  · exact w.testCompute_eq
  · exact ⟨w.pst, rfl⟩

theorem getCore_flip_pst {s : State} {p : Nat} (he : (getPart s p).evicted = false) (hn : (getPart s p).lmap.Nodup) (k : Nat) (idem : Bool)
    (c : Nat) : ∃ v, getCore (beginCompute (readyFlip s p k idem) p) c = { getCore (readyFlip s p k idem) c with pst := v } := by
  obtain ⟨v, hv⟩ := (getCore (readyFlip s p k idem) c).testCompute_pst_only (c ∈ (getPart s p).lmap)
  exact ⟨v, (getCore_flip he hn k idem c).trans hv⟩

/-- What a core begins its compute phase with, but for its current and its latch (R193). -/
theorem Core.flip_fields {b w z : Core} {i v : Nat} (hw : w = { b.beginCompute with current := i, pwrLatch := v })
    (hz : z = w.testCompute) :
    ((∃ g < z.ngroups, z.groupDone g = false) → z.pst = .compute) ∧
    ((∀ g < z.ngroups, z.groupDone g = true) → z.eng.queue = [] → z.pst = .synced) ∧
    (z.named = false ∧ z.exch.gate = none ∧ z.exch.marks = [] ∧ z.exch.start = [] ∧ z.peak = b.peakNext.getD b.peak ∧
      z.energy = b.energyNext.getD b.energy) ∧
    ∀ g l, (z.group g).synced = false ∧ ((z.group g).lane l).mark = false ∧
      { (z.group g).lane l with mark := ((b.group g).lane l).mark } = (b.group g).lane l := by
  have hgroup : ∀ g, w.group g = (b.group g).beginCompute := fun g => by
    rw [hw]
    exact Core.group_beginCompute b g
  obtain ⟨hcompute, hsynced⟩ := Core.testCompute_pst (co := w) (fun g => by rw [hgroup]; rfl) (by rw [hw]; rfl)
  obtain ⟨st, hst⟩ := Core.testCompute_eq w
  have hsame : z = { w with pst := st } := hz.trans hst
  have hpst : z.pst = w.testCompute.pst := congrArg Core.pst hz
  have hdone : ∀ g, z.groupDone g = w.groupDone g := fun g => by rw [hsame]; rfl
  have hnum : z.ngroups = w.ngroups := by rw [hsame]
  have hlane : ∀ g, z.group g = (b.group g).beginCompute := fun g => by
    rw [← hgroup g, hsame]
    rfl
  refine ⟨fun ⟨g, hg, hd⟩ => ?_, fun hd hq => ?_, ?_, fun g l => ?_⟩
  · rw [hpst]
    exact hcompute ⟨g, hnum ▸ hg, hdone g ▸ hd⟩
  · rw [hpst]
    exact hsynced (fun g hg => hdone g ▸ hd g (hnum ▸ hg)) (by rw [hsame] at hq; exact hq)
  · rw [hsame, hw]
    exact ⟨rfl, rfl, rfl, rfl, rfl, rfl⟩
  · rw [hlane, Group.lane_beginCompute]
    exact ⟨rfl, rfl, rfl⟩

/-- The current of a core that runs a logical core, as its compute phase is made ready (R182). -/
theorem current_readyFlip {s : State} {p k c : Nat} (he : (getPart s p).evicted = false) (hn : (getPart s p).lmap.Nodup)
    (hc : c ∈ (getPart s p).lmap) (hb : (getCore s c).ballast = false) (hp : (getCore s c).part ≠ none) {l : Launch}
    (hl : (getPart s p).launch = some l) (idem : Bool) : (getCore (readyFlip s p k idem) c).current = max (getCore s c).current l.peak := by
  have hv : (getCore s c).vacant = false := by
    rw [Core.vacant, hb, Bool.or_false]
    exact Bool.eq_false_iff.mpr fun h => hp (Option.isNone_iff_eq_none.mp h)
  have hpart : getPart (modPart s p fun y => { y with idem := idem, snap := none }) p = { getPart s p with idem := idem, snap := none } :=
    getPart_modPart_self s p _
  have hcur := current_readyCompute (s := modPart s p fun y => { y with idem := idem, snap := none }) (p := p) (k := k) (c := c)
    (by rw [hpart]; exact he) (by rw [hpart]; exact hn) (by rw [hpart]; exact hc) hv
  rw [hpart, show ({ getPart s p with idem := idem, snap := none } : Part).launch = some l from hl] at hcur
  exact hcur

/-- The latch of a core where no latch was kept (R185). -/
theorem pwrLatch_readyFlip {s : State} {p k c : Nat} (he : (getPart s p).evicted = false)
    (hc : c ∈ (getPart s p).lmap) (hk : (getPart s p).latches = []) (idem : Bool) :
    (getCore (readyFlip s p k idem) c).pwrLatch = (getStr (readyFlip s p k idem) (c / 4)).pwr := by
  have hpart : getPart (modPart s p fun y => { y with idem := idem, snap := none }) p = { getPart s p with idem := idem, snap := none } :=
    getPart_modPart_self s p _
  exact pwrLatch_readyCompute (by rw [hpart]; exact he) (by rw [hpart]; exact hc) (by rw [hpart]; exact hk)

/-- A core that is none of the partition's. -/
theorem other_readyFlip {s : State} {p c : Nat} (he : (getPart s p).evicted = false) (hc : c ∉ (getPart s p).lmap) (k : Nat)
    (idem : Bool) : ∃ i, getCore (readyFlip s p k idem) c = { getCore s c with current := i } := by
  have hpart : getPart (modPart s p fun y => { y with idem := idem, snap := none }) p = { getPart s p with idem := idem, snap := none } :=
    getPart_modPart_self s p _
  exact getCore_readyCompute_other (s := modPart s p fun y => { y with idem := idem, snap := none }) (by rw [hpart]; exact he)
    (by rw [hpart]; exact hc) k

/-- The strings, as a compute phase is made ready (R184). -/
theorem strings_readyFlip (s : State) (p k : Nat) (idem : Bool) (n : Nat) : ∃ v, getStr (readyFlip s p k idem) n = { getStr s n with
    pwr := if cause2 (readyFlip s p k idem) n = true ∧ (∃ m ∈ boundStrings s p, m / 32 = n / 32) then 2 else (getStr s n).pwr
    clearSince := v } := by
  have hbound : boundStrings (modPart s p fun y => { y with idem := idem, snap := none }) p = boundStrings s p := by
    rw [boundStrings, getPart_modPart_self]
    rfl
  have h := getStr_readyCompute (modPart s p fun y => { y with idem := idem, snap := none }) p k n
  rw [hbound] at h
  exact h

/-- A state that differs from one made ready by the phase states of cores, and by its partitions. -/
theorem cause2_of_pst {u t : State} (hrest : ∃ cores parts, t = { u with cores := cores, parts := parts })
    (hcore : ∀ c, ∃ v, getCore t c = { getCore u c with pst := v }) (n : Nat) : cause2 t n = cause2 u n := by
  obtain ⟨co, pa, ht⟩ := hrest
  refine cause2_of_currents (fun c => ?_) (by rw [ht]) (by rw [ht]; rfl)
  obtain ⟨v, hv⟩ := hcore c
  rw [hv]
  exact ⟨rfl, rfl⟩

end Sys2Proof.Machine
end

section
/-!
PROOF. O30: the two phase flips, with migrations, seals, audits and images (R182, R190 to R193, R201, R207, R239, R280, R371, R374, R375,
R410, R411).
-/
namespace Sys2Proof.Machine

/-- Settles O30: each flip by the case that its state asks for; the cores, strings and images by what the phase that begins leaves. -/
theorem phaseFlips : Obligations.PhaseFlips := by
  refine ⟨?_, ?_⟩
  · intro part s x cores hl hh he hne
    refine ⟨fun hst hsync hlive => ?_, fun hst hm => ?_, fun fr dst hst hn hm => ?_⟩
    · have hs : allCores s part (fun co => decide (co.pst = .synced)) = true :=
        (allCores_iff he _).mpr ⟨hne, fun c hc => decide_eq_true (hsync c hc)⟩
      have hf : ¬ allCores s part Core.finished = true := fun h => by
        obtain ⟨c, hc, g, hg, hd⟩ := hlive
        have hfin := (Core.finished_iff _).mp (((allCores_iff he _).mp h).2 c hc) g hg
        exact Bool.false_ne_true (hd.symm.trans hfin)
      obtain ⟨v, hclose⟩ := foldl_autoClose_rest (partCores s part) s
      have hcore := getCore_foldl_autoClose (partCores s part) s
      refine ⟨_, execFlipX_compute hl hh hst hs hf, ?_, ?_, fun c hc => ?_⟩
      · rw [getPart_modPart_self, hclose]
        rfl
      · rw [hclose]
        rfl
      · have hmem : c ∈ partCores s part := by rw [partCores_of_lmap he]; exact hc
        rw [getCore_modPart, hcore, if_pos hmem]
        exact ⟨rfl, fun k hk => Assay.closing_closeAll hk⟩
    · obtain ⟨n, b, st, hpart⟩ := getPart_crossBoundary_dropVacant s part
      have hcores := fun c (hc : c ∈ cores) => exchanging_crossBoundary_dropVacant he hc
      have hexec := execFlipX_open hl hh hst hm
      rw [openAndAdvance_eq] at hexec
      generalize crossBoundary (dropVacant s part) part = e at hpart hcores hexec
      have hst' : (getPart e part).st ≠ .aborting := by
        rw [hpart]
        exact fun h => nomatch hst.symm.trans h
      have hparked : entryParked (toHold e part .exchange) part 12 = entryParked e part 12 :=
        entryParked_of_part 12 rfl (by rw [getPart_toHold hst']) (by rw [getPart_toHold hst'])
      have hcores' : ∀ c ∈ cores, ((getCore e c).pst = .exchange ∨ (getCore e c).pst = .xdone) ∧ (getCore e c).named = false ∧
          (cores.Nodup → (getCore e c).exch.start = (getCore e c).spad) := fun c hc =>
        ⟨(hcores c hc).1, (hcores c hc).2.1, fun _ => (hcores c hc).2.2⟩
      refine ⟨_, hexec, ?_⟩
      by_cases hc : (getPart e part).hold = true ∧ ¬ entryParked e part 12 = true
      · rw [if_pos hc, hparked]
        have hhold : x.hold = true := by
          have h := hc.1
          rw [hpart] at h
          exact h
        intro y
        rw [show y = _ from getPart_toHold hst' .exchange, hpart]
        exact ⟨rfl, rfl, rfl, rfl, rfl, rfl, rfl, rfl, fun h => absurd (h.symm.trans hhold) (by decide), fun _ _ => ⟨hst, rfl⟩, hcores'⟩
      · rw [if_neg hc]
        have hparked' : entryParked (modPart e part fun x => { x with st := .exchange }) part 12 = entryParked e part 12 :=
          entryParked_of_part 12 rfl (by rw [getPart_modPart_self]) (by rw [getPart_modPart_self])
        intro y
        rw [hparked', show y = _ from getPart_modPart_self e part _, hpart]
        refine ⟨rfl, rfl, rfl, rfl, rfl, rfl, rfl, rfl, fun _ => ⟨rfl, hh⟩, fun hhold hp => absurd ⟨?_, by rw [hp]; decide⟩ hc, hcores'⟩
        rw [hpart]
        exact hhold
    · have hcores : partCores s part = cores := partCores_of_lmap he
      intro ends
      refine ⟨fun hwait => ?_, fun hscrub hnone => ?_, fun c hscrub hsome hq => ?_⟩
      · cases hget : cores[fr]? with
        | none =>
          refine (execFlipX_order hl hh hst hn hm (.inl ⟨by rw [hcores, hget], rfl⟩)).trans (if_pos ?_)
          rcases hwait with h | ⟨c, hc, -⟩
          · exact h
          · exact nomatch hget.symm.trans hc
        | some c =>
          refine (execFlipX_order hl hh hst hn hm (.inr ⟨c, by rw [hcores, hget], rfl⟩)).trans (if_pos ?_)
          rcases hwait with h | ⟨d, hd, hq⟩
          · rw [h, Bool.or_true]
          · obtain rfl := Option.some.inj (hget.symm.trans hd)
            simp [hq]
      · refine (execFlipX_order hl hh hst hn hm (.inl ⟨by rw [hcores, hnone], rfl⟩)).trans ?_
        rw [hscrub, Bool.or_false, if_neg Bool.false_ne_true, migrate_none (by rw [hcores, hnone])]
        rfl
      · intro b str eligible l fits
        have hsrc : (partCores s part)[fr]? = some c := by rw [hcores, hsome]
        have horder := execFlipX_order hl hh hst hn hm (.inr ⟨c, hsrc, rfl⟩)
        rw [hq, hscrub, if_neg (by decide)] at horder
        refine ⟨fun hel => ?_, fun hel hstr hfit => ?_, fun hel hfit hw hcd => ?_⟩
        · rw [migrate_ineligible hsrc fun h => hel ((migEligible_iff s part dst).mp h)] at horder
          exact horder
        · have hno : (getStr s (strOf dst)).part.isNone = true ∧ ¬ fits = true :=
            ⟨Option.isNone_iff_eq_none.mpr hstr, by rw [hfit]; exact Bool.false_ne_true⟩
          rw [migrate_refused hsrc ((migEligible_iff s part dst).mpr hel) hno] at horder
          exact horder
        · have hyes : ¬ ((getStr s (strOf dst)).part.isNone = true ∧ ¬ fits = true) := fun h =>
            h.2 (hfit (Option.isNone_iff_eq_none.mp h.1))
          rw [migrate_taken hsrc ((migEligible_iff s part dst).mpr hel) hyes hw] at horder
          have hcore := getCore_moveTo s part fr hcd
          have hpart := getPart_moveTo s part fr c dst
          have hvault := vault_moveTo s part fr c dst
          have hstr := fun h => getStr_moveTo (s := s) (dst := dst) h part fr c
          generalize moveTo s part fr c dst = u at horder hcore hpart hvault hstr
          have hend : getPart (migEnd u part 0) part =
              { getPart u part with mig := none, migNow := false, migLate := false, migStatus := 0 } := getPart_modPart_self u part _
          refine ⟨_, horder, ?_⟩
          intro y
          rw [show y = _ from hend, hpart]
          refine ⟨⟨hst, rfl, rfl, rfl, rfl⟩, fun h => ⟨hstr h, ?_⟩, hvault, ?_, ?_, ?_, ?_, fun k hkc hkd => ?_⟩
          · dsimp only
            rw [if_pos (Option.isNone_iff_eq_none.mpr h : (getStr s (strOf dst)).part.isNone = true), mem_insertSorted]
            exact .inl rfl
          · exact (hcore dst).trans ((if_neg hcd.symm).trans (if_pos rfl))
          · exact congrArg Core.part ((hcore c).trans (if_pos rfl))
          · exact congrArg Core.groups ((hcore c).trans (if_pos rfl))
          · exact congrArg Core.spad ((hcore c).trans (if_pos rfl))
          · exact (hcore k).trans ((if_neg hkc).trans (if_neg hkd))
  · intro part s x cores hl hh he hne hf
    refine ⟨fun hst hall hred => ?_, fun hst => ?_⟩
    · have hx : allCores s part (fun co => decide (co.pst = .xdone)) = true :=
        (allCores_iff he _).mpr ⟨hne, fun c hc => decide_eq_true (hall c hc)⟩
      have hback : getPart (redWriteback s part) part = x := by
        obtain ⟨d, v, g, hr⟩ := stored_redWriteback s part
        rw [hr]
        rfl
      have hlive : liveDies (redWriteback s part) = liveDies s := by
        obtain ⟨d, v, g, hr⟩ := stored_redWriteback s part
        rw [hr]
        rfl
      intro r
      refine ⟨fun hbad => ?_, fun hbad hposts => ?_, fun i hbad hposts hi hlt hpark ho hs2 hl8 => ?_⟩
      · exact execFlipC_exchange hl hh hst hx hred (endExchange_bad hbad)
      · have hexec := execFlipC_good hl hh hf hst hx hred hbad
        rw [tensorPhase_of_nil hposts] at hexec
        exact hexec
      · have hexec := execFlipC_good hl hh hf hst hx hred hbad
        obtain ⟨n, b, hpart⟩ := (tensored_tensorPhase r part 13).part part
        obtain ⟨h3, hph, hdone⟩ := tensorPhase_seal hposts hi hpark ho hs2 (by rw [hlive]; exact hl8)
        rw [show getPart r part = x from hback] at hpart hph
        generalize tensorPhase (redWriteback s part) part 13 = u at hexec hpart h3 hph hdone
        refine ⟨_, hexec, h3, hph, hdone, ?_⟩
        rw [getPart_modPart_self, hpart]
        split_ifs with hhold
        · exact ⟨rfl, fun h => absurd (h.symm.trans hhold) (by decide), fun _ => rfl⟩
        · exact ⟨rfl, fun _ => rfl, fun h => absurd h hhold⟩
    · have hexec := execFlipC_flipC hl hh hf hst
      have hcores : partCores s part = cores := partCores_of_lmap he
      intro k w waits snaps settled begins seq holds apart
      have hbegins : begins = readyFlip s part k := rfl
      clear_value begins
      subst hbegins
      have hwaits : auditWaits s part k = true ↔ waits := auditWaits_iff s part k
      have hsnaps : (votedIdem s part && (allAreas (ctxArea s) (partCores s part)).isSome) = true ↔ snaps := by
        rw [Bool.and_eq_true, hcores, Option.isSome_iff_ne_none]
      have hsettled : allCores s part Core.settled = true ↔ settled := by
        rw [allCores_iff he]
        simp only [Core.settled_iff]
        exact ⟨fun h => h.2, fun h => ⟨hne, h⟩⟩
      refine ⟨fun hwt => ?_, fun hwt himg hns => ?_, fun bases hwt hns hck hse hap hareas => ?_,
        fun bases hwt hv hck hse hap hareas => ?_, fun hwt hns hck hnd => ?_⟩
      · rw [flipToCompute_waits (hwaits.mpr hwt)] at hexec
        exact hexec
      · rw [flipToCompute_unsettled (Bool.eq_false_iff.mpr fun h => hwt (hwaits.mp h)) (himg.imp_left hsnaps.mpr)
          (Bool.eq_false_iff.mpr fun h => hns (hsettled.mp h))] at hexec
        exact hexec
      all_goals
        have hno : auditWaits s part k = false := Bool.eq_false_iff.mpr fun h => hwt (hwaits.mp h)
      · have hidem : (votedIdem s part && (allAreas (ctxArea s) (partCores s part)).isSome) = false :=
          Bool.eq_false_iff.mpr fun h => hns (hsnaps.mp h)
        rw [flipToCompute_begins hno hidem hck fun _ => hsettled.mpr hse, if_pos rfl, if_neg Bool.false_ne_true] at hexec
        obtain ⟨l, hpart⟩ := getPart_readyFlip s part k false
        obtain ⟨hgran, -, -, hslot, hbase⟩ := readyFlip_keeps s part k false
        generalize readyFlip s part k false = u at hexec hpart hgran hslot hbase
        have hareas' : allAreas (fun c => areaOf (getCore u c).ckptBase 0x216000) (getPart u part).lmap = some bases := by
          rw [← hareas, hpart]
          exact allAreas_congr _ fun c _ => by rw [(hbase c).1]
        obtain ⟨hckpt, hseq, himg⟩ := takeCkpt_holds (k := k) (by rw [hpart]; exact he) hareas' hap
        rw [hpart] at hckpt himg
        rw [hgran] at hckpt hseq himg
        rw [hslot, getKey, hgran, ← getKey] at himg
        obtain ⟨co, pa, hrest⟩ := beginCompute_rest (takeCkpt u part k) part
        have hbegin := getPart_beginCompute (takeCkpt u part k) part
        refine ⟨_, hexec, ?_⟩
        intro y
        rw [show y = _ from hbegin, hckpt, hrest]
        exact ⟨rfl, rfl, rfl, rfl, rfl, hseq, rfl, himg⟩
      · have hidem : (votedIdem s part && (allAreas (ctxArea s) (partCores s part)).isSome) = true :=
          hsnaps.mpr ⟨hv, by rw [hareas]; exact Option.some_ne_none bases⟩
        rw [flipToCompute_begins hno hidem hck fun _ => hsettled.mpr hse, if_neg Bool.false_ne_true, if_pos rfl] at hexec
        obtain ⟨l, hpart⟩ := getPart_readyFlip s part k true
        obtain ⟨hgran, -, -, hslot, hbase⟩ := readyFlip_keeps s part k true
        generalize readyFlip s part k true = u at hexec hpart hgran hslot hbase
        have hareas' : allAreas (ctxArea u) (getPart u part).lmap = some bases := by
          rw [← hareas, hpart]
          exact allAreas_congr _ fun c _ => by rw [ctxArea, ctxArea, (hbase c).2]
        obtain ⟨hsnap, hseq, himg⟩ := takeSnapshot_holds (by rw [hpart]; exact he) hareas' hap
        rw [hpart] at hsnap himg
        rw [hgran] at hsnap hseq himg
        rw [hslot, getKey, hgran, ← getKey] at himg
        obtain ⟨co, pa, hrest⟩ := beginCompute_rest (takeSnapshot u part) part
        have hbegin := getPart_beginCompute (takeSnapshot u part) part
        refine ⟨_, hexec, ?_⟩
        intro y
        rw [show y = _ from hbegin, hsnap, hrest]
        exact ⟨rfl, rfl, rfl, hseq, rfl, rfl, himg⟩
      · have hidem : (votedIdem s part && (allAreas (ctxArea s) (partCores s part)).isSome) = false :=
          Bool.eq_false_iff.mpr fun h => hns (hsnaps.mp h)
        rw [flipToCompute_begins hno hidem hck (fun h => absurd h (by decide)), if_neg Bool.false_ne_true,
          if_neg Bool.false_ne_true] at hexec
        obtain ⟨l, hpart⟩ := getPart_readyFlip s part k false
        obtain ⟨-, hvault, htime, -, -⟩ := readyFlip_keeps s part k false
        obtain ⟨co, pa, hrest⟩ := beginCompute_rest (readyFlip s part k false) part
        have hbegin := getPart_beginCompute (readyFlip s part k false) part
        have hpst := getCore_flip_pst he hnd k false
        have hflip := getCore_flip he hnd k false
        have hready := fun c (hc : c ∈ cores) => getCore_readyFlip (k := k) he hnd hc false
        have hcur := fun c (hc : c ∈ cores) hb hp l hl => current_readyFlip (k := k) he hnd hc hb hp (l := l) hl false
        have hlatch := fun c (hc : c ∈ cores) hk => pwrLatch_readyFlip (k := k) he hc hk false
        have hother := fun c (hc : c ∉ cores) => other_readyFlip he hc k false
        have hstr := strings_readyFlip s part k false
        generalize readyFlip s part k false = u at hexec hpart hvault htime hrest hbegin hpst hflip hready hcur hlatch hother hstr
        have hcause := cause2_of_pst ⟨co, pa, hrest⟩ hpst
        rw [hpart] at hbegin
        generalize beginCompute u part = t at hexec hrest hbegin hpst hflip hcause
        have hstrt : ∀ n, getStr t n = getStr u n := fun n => by rw [hrest]; rfl
        have htimet : t.time = u.time := by rw [hrest]
        refine ⟨t, hexec, ?_⟩
        intro y
        rw [show y = _ from hbegin]
        refine ⟨rfl, rfl, htimet.symm, rfl, rfl, rfl, ?_, by rw [htimet]; exact htime, fun n => ?_, fun c hc => ?_, fun c hc => ?_⟩
        · rw [hrest]
          exact hvault
        · obtain ⟨v, hv⟩ := hstr n
          rw [hstrt, hv]
          simp only [hcause]
        · obtain ⟨i, hi⟩ := hother c hc
          rw [hflip, if_neg hc, hi]
        · intro b z
          obtain ⟨i, v, hiv⟩ := hready c hc
          obtain ⟨h1, h2, ⟨h3, h4, h5, h6, h7, h8⟩, h9⟩ := Core.flip_fields hiv ((hflip c).trans (if_pos hc))
          obtain ⟨st, hst⟩ := hpst c
          refine ⟨h1, h2, h3, h4, h5, h6, h7, h8, fun hb hp l hl => ?_, fun hk => ?_, h9⟩
          · rw [show z = _ from hst]
            exact hcur c hc hb hp l hl
          · rw [show z = _ from hst, hstrt]
            exact hlatch c hc hk

end Sys2Proof.Machine
end

section
/-!
SUPPORT. The state of each partition and the state in which it is about to be held (R192): the view of both, and what the model's
operations on memory, the tensor table, exchange entries and page tables leave of it.
-/
namespace Sys2Proof.Machine

/-! ## What R192 speaks of -/

/-- The state of each partition, with the state in which it is about to be held. -/
def holdView (ps : Sparse Part) (p : Nat) : PhState × Option PhState := ((spGet Part.zero ps p).st, (spGet Part.zero ps p).holding)

/-- A change of a partition that leaves both. -/
def Part.SameHold (x y : Part) : Prop := y.st = x.st ∧ y.holding = x.holding

/-- A change of the state that leaves both, in every partition. -/
def SameHold (s t : State) : Prop := holdView t.parts = holdView s.parts

/-- An outcome that leaves both, in every partition. -/
def KeepsHold (s : State) (o : Out) : Prop := ∀ t, o = .next t → SameHold s t

@[simp] theorem Part.sameHold_iff (x y : Part) : x.SameHold y ↔ y.st = x.st ∧ y.holding = x.holding := Iff.rfl

@[simp] theorem sameHold_iff (s t : State) : SameHold s t ↔ holdView t.parts = holdView s.parts := Iff.rfl

@[simp] theorem keepsHold_next (s t : State) : KeepsHold s (.next t) ↔ holdView t.parts = holdView s.parts :=
  ⟨fun h => h t rfl, fun h u hu => by cases hu; exact h⟩

@[simp] theorem holdView_modPart (s : State) (p : Nat) {f : Part → Part} (h : ∀ x : Part, x.SameHold (f x)) :
    holdView (modPart s p f).parts = holdView s.parts := by
  obtain ⟨hst, hholding⟩ := h (getPart s p)
  funext q
  unfold holdView modPart
  dsimp only
  by_cases h : q = p
  · subst h
    rw [spGet_spSet_self, hst, hholding]
    rfl
  · rw [spGet_spSet_ne _ _ _ h]

@[simp] theorem holdView_ite (c : Prop) [Decidable c] (s t : State) :
    holdView (if c then s else t).parts = if c then holdView s.parts else holdView t.parts := by
  split <;> rfl

@[simp] theorem holdView_ite_fst {α : Type} (c : Prop) [Decidable c] (x y : State × α) :
    holdView (if c then x else y).1.parts = if c then holdView x.1.parts else holdView y.1.parts := by
  split <;> rfl

@[simp] theorem holdView_foldl {α : Type} {f : State → α → State} (h : ∀ s x, SameHold s (f s x)) (l : List α) (s : State) :
    holdView (l.foldl f s).parts = holdView s.parts := by
  induction l generalizing s with
  | nil => rfl
  | cons x l ih => exact (ih _).trans (h s x)

@[simp] theorem holdView_foldl_fst {α β : Type} {f : State × β → α → State × β} (h : ∀ s x, SameHold s.1 (f s x).1) (l : List α)
    (s : State × β) : holdView (l.foldl f s).1.parts = holdView s.1.parts := by
  induction l generalizing s with
  | nil => rfl
  | cons x l ih => exact (ih _).trans (h s x)

theorem holdView_after {s : State} {o : Out} (h : KeepsHold s o) : holdView (after s o).parts = holdView s.parts := by
  cases o with
  | next t => exact h t rfl
  | fault f => rfl
  | refused r => rfl

/-! ## The frames of the lemmas above, read this way -/

theorem Tensored.holdView {s t : State} (h : Tensored s t) : holdView t.parts = holdView s.parts := by
  funext q
  obtain ⟨n, b, hq⟩ := h.part q
  show ((getPart t q).st, (getPart t q).holding) = ((getPart s q).st, (getPart s q).holding)
  rw [hq]

theorem Stored.holdView {s t : State} (h : Stored s t) : holdView t.parts = holdView s.parts := by
  obtain ⟨d, v, x, rfl⟩ := h
  rfl

theorem KeepsPhase.holdView {s t : State} (h : KeepsPhase s t) : holdView t.parts = holdView s.parts := by
  rw [h.parts]

/-! ## Records, events and faults -/

@[simp] theorem holdView_laneWrite (s : State) (c a : Nat) (bs : List Byte) :
    holdView (laneWrite s c a bs).parts = holdView s.parts := rfl

@[simp] theorem holdView_postFaultEvent (s : State) (c d : Nat) (e : EventRec) :
    holdView (postFaultEvent s c d e).parts = holdView s.parts := by simp [postFaultEvent]

@[simp] theorem holdView_postNote (s : State) (d kind part acc : Nat) (va : Word) :
    holdView (postNote s d kind part acc va).parts = holdView s.parts := rfl

@[simp] theorem holdView_addFrec (s : State) (e : FrecEnt) :
    holdView (addFrec s e).parts = holdView s.parts := by simp [addFrec]

@[simp] theorem holdView_flogAppend (s : State) (c : Nat) (r : FlogRec) :
    holdView (flogAppend s c r).parts = holdView s.parts := by simp [flogAppend]

@[simp] theorem holdView_flogPost (s : State) (c : Nat) (r : FlogRec) :
    holdView (flogPost s c r).parts = holdView s.parts := by simp [flogPost]

@[simp] theorem holdView_alogAppend (s : State) (c : Nat) (q : Word) (r : ArithRec) :
    holdView (alogAppend s c q r).parts = holdView s.parts := rfl

@[simp] theorem holdView_alogPostTo (s : State) (c : Nat) (q : Word) (r : ArithRec) :
    holdView (alogPostTo s c q r).parts = holdView s.parts := by simp [alogPostTo]

@[simp] theorem holdView_notify (s : State) (p kind idx : Nat) (tid : BitVec 48) (ver len : Nat) (value : Word) :
    holdView (notify s p kind idx tid ver len value).parts = holdView s.parts := by simp [notify]

@[simp] theorem holdView_faultCause (handle : Bool) (hflt : LaneMask) (at_ : Site) (ts : List Trap) (cause : Byte) (s : State) :
    holdView (faultCause handle hflt at_ ts cause s).parts = holdView s.parts := by simp [faultCause]

@[simp] theorem holdView_postParked (s : State) (c g : Nat) (m : LaneMask) :
    holdView (postParked s c g m).parts = holdView s.parts := by simp [postParked]

@[simp] theorem holdView_reportIfStuck (s : State) (c g : Nat) (was : Bool) :
    holdView (reportIfStuck s c g was).parts = holdView s.parts := by simp [reportIfStuck]

@[simp] theorem holdView_releaseJoins (s : State) (c g : Nat) : holdView (releaseJoins s c g).parts = holdView s.parts := rfl

@[simp] theorem holdView_takeFaults (s : State) (at_ : Site) (ts : List Trap) :
    holdView (takeFaults s at_ ts).parts = holdView s.parts := by simp [takeFaults]

@[simp] theorem holdView_enterHandlers (s : State) (c g : Nat) :
    holdView (enterHandlers s c g).parts = holdView s.parts := by simp [enterHandlers]

/-! ## Vault memory and translation -/

@[simp] theorem holdView_replWrite (s : State) (loc : Nat) (bs : List Byte) :
    holdView (replWrite s loc bs).parts = holdView s.parts := by simp [replWrite]

@[simp] theorem holdView_countAcc (s : State) (d p va : Nat) (l : Leaf) :
    holdView (countAcc s d p va l).parts = holdView s.parts := by simp [countAcc]

@[simp] theorem holdView_walkPage (d p : Nat) (acc : State × Xlat) (x : Nat × Bool) :
    holdView (walkPage d p acc x).1.parts = holdView acc.1.parts := by
  unfold walkPage
  split
  · rfl
  · split
    · rfl
    · simp

@[simp] theorem holdView_setGen (s : State) (g : Gen) : holdView (setGen s g).parts = holdView s.parts := by simp [setGen]

@[simp] theorem holdView_storeLine (s : State) (g : Gen) (l : Leaf) (va : Nat) (bs : List Byte) :
    holdView (storeLine s g l va bs).parts = holdView s.parts := by simp [storeLine]

@[simp] theorem holdView_setRed (s : State) (d idx ln : Nat) (v : List Byte) :
    holdView (setRed s d idx ln v).parts = holdView s.parts := rfl

@[simp] theorem holdView_noteWritten (s : State) (p idx ln : Nat) (landing : Bool) :
    holdView (noteWritten s p idx ln landing).parts = holdView s.parts := by
  unfold noteWritten
  split_ifs
  · rfl
  · refine holdView_modPart s p fun x => ?_
    split_ifs <;> exact ⟨rfl, rfl⟩

@[simp] theorem holdView_noteRead (s : State) (p va : Nat) : holdView (noteRead s p va).parts = holdView s.parts := by
  unfold noteRead
  split
  · rfl
  · simp

theorem holdView_gWrite {t : List XPage} {s : State} {d p va : Nat} {bs : List Byte} {replay landing : Bool} {u : State}
    (h : gWrite t s d p va bs replay landing = .ok u) :
    holdView u.parts = holdView s.parts := by
  unfold gWrite at h
  dsimp only at h
  split at h
  · cases h
  · cases h
  · split at h
    · split at h
      · cases h
        rfl
      · cases h
    · split at h
      · cases h
      · cases h
      · cases h
        simp

theorem holdView_gRed {t : List XPage} {s : State} {d p va : Nat} {bs : List Byte} {sig : XSig} {landing : Bool} {u : State}
    (h : gRed t s d p va bs sig landing = .ok u) :
    holdView u.parts = holdView s.parts := by
  unfold gRed at h
  dsimp only at h
  split at h
  · cases h
  · cases h
  · split at h
    · split at h
      · cases h
      · split at h
        · cases h
        · cases h
          simp
    · split at h
      · cases h
      · split at h
        · cases h
        · split at h
          · cases h
          · cases h
          · cases h
            simp

@[simp] theorem holdView_redWriteback (s : State) (p : Nat) : holdView (redWriteback s p).parts = holdView s.parts :=
  (stored_redWriteback s p).holdView

/-! ## Line writes, reductions and maintenance -/

theorem holdView_leafCommit {s : State} {n : Node} {loc : Nat} {old new : Word} {f : State → State}
    (h : leafCommit s n loc old new = some f) (t : State) :
    holdView (f t).parts = holdView t.parts := by
  unfold leafCommit at h
  simp only [Option.ite_none_left_eq_some, Option.some.injEq] at h
  obtain ⟨-, -, rfl⟩ := h
  dsimp only
  split_ifs <;> simp

@[simp] theorem holdView_commitPte (s : State) (loc : Nat) (new : Word) :
    holdView (commitPte s loc new).parts = holdView s.parts := by simp [commitPte]

theorem holdView_commit8 {s : State} {loc : Nat} {v : Word} {u : State} (h : commit8 s loc v = some u) :
    holdView u.parts = holdView s.parts := by
  unfold commit8 at h
  split at h
  · split_ifs at h
    · rw [← Option.some.inj h]
      simp
    · split at h
      · cases h
      next hf =>
        rw [← Option.some.inj h]
        exact (holdView_leafCommit hf _).trans (by simp)
  · rw [← Option.some.inj h]
    simp

theorem holdView_commitAll (ws : List (Nat × Word)) {s t : State} (h : commitAll ws s = some t) :
    holdView t.parts = holdView s.parts := by
  induction ws generalizing s with
  | nil =>
    rw [commitAll] at h
    rw [Option.some.inj h]
  | cons w r ih =>
    rw [commitAll] at h
    split at h
    · cases h
    next hu => exact (ih h).trans (holdView_commit8 hu)

theorem holdView_micaCommit {s : State} {ws : List (Nat × Word)} {u : State} (h : micaCommit s ws = some u) :
    holdView u.parts = holdView s.parts := by
  unfold micaCommit at h
  split at h
  · cases h
  next hu =>
    dsimp only at h
    split_ifs at h
    rw [← Option.some.inj h]
    refine (holdView_foldl (fun s i => ?_) _ _).trans (holdView_commitAll _ hu)
    split_ifs <;> rfl

theorem holdView_maintTake {s : State} {d n : Nat} {slots : List (List Byte)} {u : State} (h : maintTake s d n slots = some u) :
    holdView u.parts = holdView s.parts := by
  unfold maintTake at h
  dsimp only at h
  split_ifs at h
  rw [← Option.some.inj h]
  rfl

@[simp] theorem holdView_maintDone (s : State) (d : Nat) (r : MaintReq) (status : Nat) :
    holdView (maintDone s d r status).parts = holdView s.parts := rfl

@[simp] theorem holdView_copyLines (s : State) (dst src len : Nat) :
    holdView (copyLines s dst src len).parts = holdView s.parts := rfl

@[simp] theorem holdView_zeroLines (s : State) (pa len : Nat) : holdView (zeroLines s pa len).parts = holdView s.parts := rfl

@[simp] theorem keepsHold_execPumiceCopy (die : Fin 8) (r : MaintReq) (s : State) : KeepsHold s (execPumiceCopy die r s) := by
  unfold execPumiceCopy
  split
  · simp
  next hu =>
    have h := holdView_maintTake hu
    split_ifs <;> simp [h]

@[simp] theorem keepsHold_execPumiceZero (die : Fin 8) (r : MaintReq) (s : State) : KeepsHold s (execPumiceZero die r s) := by
  unfold execPumiceZero
  split
  · simp
  next hu =>
    have h := holdView_maintTake hu
    split_ifs <;> simp [h]

@[simp] theorem keepsHold_execMaintComplete (die : Fin 8) (s : State) : KeepsHold s (execMaintComplete die s) := by
  unfold execMaintComplete
  split <;> simp

@[simp] theorem holdView_writeTroot (s : State) (p : Nat) (v : Word) :
    holdView (writeTroot s p v).parts = holdView s.parts := by simp [writeTroot]

@[simp] theorem keepsHold_execTrootWrite (part : Fin 256) (v : Word) (s : State) :
    KeepsHold s (execTrootWrite part v s) := by simp [execTrootWrite]

@[simp] theorem holdView_carryLine (i : Nat) (s : State) (ln : Nat) :
    holdView (carryLine i s ln).parts = holdView s.parts := by
  unfold carryLine
  dsimp only
  split
  · rfl
  · split
    · simp
    · rfl
    · simp

@[simp] theorem holdView_freeMap (s : State) (i : Nat) : holdView (freeMap s i).parts = holdView s.parts := rfl

@[simp] theorem holdView_writePieces (t : List XPage) (d p : Nat) (replay landing : Bool) (ps : List (Nat × Nat))
    (bs : List Byte) (s : State) :
    holdView (writePieces t d p replay landing ps bs s).1.parts = holdView s.parts := by
  induction ps generalizing bs s with
  | nil => rfl
  | cons y r ih =>
    rw [writePieces]
    split
    next u hu => exact (ih _ _).trans (holdView_gWrite hu)
    · rfl
    · rfl

@[simp] theorem holdView_redLines (t : List XPage) (d p : Nat) (sig : XSig) (landing : Bool) (ps : List (Nat × Nat))
    (bs : List Byte) (s : State) :
    holdView (redLines t d p sig landing ps bs s).1.parts = holdView s.parts := by
  induction ps generalizing bs s with
  | nil => rfl
  | cons y r ih =>
    rw [redLines]
    split
    next u hu => exact (ih _ _).trans (holdView_gRed hu)
    · rfl
    · rfl

@[simp] theorem holdView_redPieces (t : List XPage) (d p : Nat) (sig : XSig) (landing : Bool) (ps : List (Nat × Nat))
    (bs : List Byte) (s : State) :
    holdView (redPieces t d p sig landing ps bs s).1.parts = holdView s.parts := by
  have h := holdView_redLines t d p sig landing ps bs s
  unfold redPieces
  split
  next hu =>
    rw [hu] at h
    exact h
  next hu =>
    rw [hu] at h
    dsimp only
    split_ifs
    · rfl
    · exact h

@[simp] theorem holdView_arrival (s : State) (g : Gen) (n : Nat) :
    holdView (arrival s g n).parts = holdView s.parts := by simp [arrival]

@[simp] theorem holdView_landTry (s : State) (src : BitVec 18) (tid : BitVec 48) (off : Nat) (op : LandOp) (data : List Byte) :
    holdView (landTry s src tid off op data).1.parts = holdView s.parts := by
  unfold landTry
  dsimp only
  split
  · rfl
  next g _ =>
    split_ifs
    · rfl
    · split
      · have h := holdView_writePieces [] (lowDie s) g.owner false true (linesOf (g.vbase + off) data.length) data s
        split
        next hu => exact (holdView_arrival _ _ _).trans (by rw [← h, hu])
        next hu => rw [← h, hu]
        · rfl
      next minor signed qw core tag =>
        have h := holdView_redPieces [] (lowDie s) g.owner ⟨minor, signed, qw⟩ true (linesOf (g.vbase + off) data.length) data s
        split
        · rfl
        · split
          next hu =>
            refine (holdView_arrival _ _ _).trans ?_
            rw [← h, hu, holdView_ite, ite_self]
          next hu => rw [← h, hu]
          · rfl

@[simp] theorem holdView_landWrite (s : State) (src : BitVec 18) (tid : BitVec 48) (off : Nat) (op : LandOp) (data : List Byte) :
    holdView (landWrite s src tid off op data).parts = holdView s.parts := by
  have h := holdView_landTry s src tid off op data
  unfold landWrite
  split
  next hu =>
    rw [hu] at h
    simpa using h
  next hu =>
    rw [hu] at h
    simpa using h
  · rfl

@[simp] theorem keepsHold_execLandingWrite (src : BitVec 18) (tid : BitVec 48) (off : BitVec 46) (op : LandOp)
    (data : List Byte) (s : State) :
    KeepsHold s (execLandingWrite src tid off op data s) := by simp [execLandingWrite]

@[simp] theorem keepsHold_execRemoteReadRequest (_src : BitVec 18) (tid : BitVec 48) (off : BitVec 46) (len : Nat) (s : State) :
    KeepsHold s (execRemoteReadRequest _src tid off len s) := by
  unfold execRemoteReadRequest
  split <;> simp

/-! ## Exchange entries -/

@[simp] theorem holdView_setEntState (s : State) (c pos : Nat) (st : BitVec 8) :
    holdView (setEntState s c pos st).parts = holdView s.parts := rfl

@[simp] theorem holdView_translateEnt (s : State) (c pos : Nat) :
    holdView (translateEnt s c pos).parts = holdView s.parts := by simp [translateEnt]

@[simp] theorem holdView_addMark (s : State) (c pos t lo len : Nat) (write : Bool) (sig : Option XSig) (data : List Byte) :
    holdView (addMark s c pos t lo len write sig data).parts = holdView s.parts := by simp [addMark]

theorem holdView_stopped {s0 s : State} (cause : Byte) (addr : Word) (h : holdView s.parts = holdView s0.parts) :
    holdView (stopped s0 s cause addr).1.parts = holdView s0.parts := by
  unfold stopped
  dsimp only
  split_ifs
  · rfl
  · exact h

@[simp] theorem holdView_loadPieces (t : List XPage) (c p pos : Nat) (ps : List (Nat × Nat)) (a : Nat) (s : State) :
    holdView (loadPieces t c p pos ps a s).1.parts = holdView s.parts := by
  induction ps generalizing a s with
  | nil => rfl
  | cons y r ih =>
    rw [loadPieces]
    split
    · exact (ih _ _).trans (by simp)
    · rfl
    · rfl

@[simp] theorem holdView_copyPieces (t : List XPage) (d p : Nat) (replay : Bool) (ps : List (Nat × Nat)) (a : Nat) (s : State) :
    holdView (copyPieces t d p replay ps a s).1.parts = holdView s.parts := by
  induction ps generalizing a s with
  | nil => rfl
  | cons y r ih =>
    rw [copyPieces]
    split
    · rfl
    · rfl
    · split
      next u hu => exact (ih _ _).trans ((holdView_gWrite hu).trans (by simp))
      · rfl
      · rfl

@[simp] theorem holdView_takePort (s : State) (c dev : Nat) : holdView (takePort s c dev).parts = holdView s.parts := by
  unfold takePort
  split <;> rfl

@[simp] theorem holdView_holdWrite (s : State) (c pos : Nat) (e : XEnt) (bs : List Byte) :
    holdView (holdWrite s c pos e bs).1.parts = holdView s.parts := by simp [holdWrite]

@[simp] theorem holdView_runXfer (s : State) (c pos : Nat) (e : XEnt) :
    holdView (runXfer s c pos e).1.parts = holdView s.parts := by
  unfold runXfer
  dsimp only
  split
  · split_ifs
    · rfl
    · rfl
    · split
      · rfl
      · split
        · rfl
        · simp
    · split
      · have h := holdView_loadPieces (xlatOf s c pos).pages c ((getCore s c).part.getD 256) pos (linesOf e.fara.toNat e.len) e.spad s
        split
        next hu =>
          rw [hu] at h
          exact holdView_stopped _ _ h
        · exact h
      · rfl
  · split_ifs
    · rfl
    · split
      · have h := (holdView_writePieces (xlatOf s c pos).pages (dieOf c) ((getCore s c).part.getD 256) e.replay false
          (linesOf e.fara.toNat e.len) (sourceBytes s c pos e.spad e.len) (addMark s c pos c e.spad e.len false none [])).trans
          (holdView_addMark _ _ _ _ _ _ _ _ _)
        split
        all_goals next hu =>
          rw [hu] at h
          exact h
      · rfl
    · split
      · rfl
      · split_ifs
        · rfl
        · rfl
        · simp
    · split
      · rfl
      · simp
  · split
    · have h := holdView_copyPieces (xlatOf s c pos).pages (dieOf c) ((getCore s c).part.getD 256) e.replay
        (linesOf e.fara.toNat e.len) e.farb.toNat s
      split
      next hu =>
        rw [hu] at h
        exact holdView_stopped _ _ h
      · exact h
    · rfl
    · rfl
  · split_ifs
    · rfl
    · split
      · rfl
      · simp

@[simp] theorem holdView_runXred (s : State) (c pos : Nat) (e : XEnt) :
    holdView (runXred s c pos e).1.parts = holdView s.parts := by
  have hmark := holdView_addMark s c pos c e.spad e.len false (some e.sig) []
  unfold runXred
  dsimp only
  split
  · rfl
  · split
    · split
      · rfl
      · split_ifs <;> simp
    · split
      · have h := (holdView_redPieces (xlatOf s c pos).pages (dieOf c) ((getCore s c).part.getD 256) e.sig false
          (linesOf e.fara.toNat e.len) (sourceBytes s c pos e.spad e.len) (addMark s c pos c e.spad e.len false (some e.sig) [])).trans
          hmark
        split
        next hu =>
          rw [hu] at h
          exact holdView_stopped _ _ h
        next hu =>
          rw [hu] at h
          exact h
        next hu =>
          rw [hu] at h
          simpa using h
      · rfl

@[simp] theorem holdView_retest (s : State) (c : Nat) : holdView (retest s c).parts = holdView s.parts :=
  (keepsPhase_retest s c).holdView

@[simp] theorem holdView_finishEnt (s : State) (c pos : Nat) (e : XEnt) :
    holdView (finishEnt s c pos e).parts = holdView s.parts := by simp [finishEnt]

@[simp] theorem holdView_parkEnt (s : State) (c pos : Nat) (cause : Byte) (addr : Word) :
    holdView (parkEnt s c pos cause addr).parts = holdView s.parts := by simp [parkEnt]

theorem holdView_openGen {s : State} {p i : Nat} {u : State} (h : openGen s p i = some u) :
    holdView u.parts = holdView s.parts :=
  (tensored_openGen h).holdView

theorem holdView_tensorEffect {f : State → Nat → Nat → Option State} (hf : ∀ {s t p i}, f s p i = some t → Tensored s t)
    (p : Nat) (posts : List (Nat × Nat × Nat)) (s : State) (i : Nat) :
    holdView (tensorEffect f p posts s i).parts = holdView s.parts :=
  (tensored_tensorEffect hf p posts s i).holdView

@[simp] theorem holdView_tensorPhase (s : State) (p op : Nat) : holdView (tensorPhase s p op).parts = holdView s.parts :=
  (tensored_tensorPhase s p op).holdView

@[simp] theorem holdView_parkSeals (s : State) (p : Nat) : holdView (parkSeals s p).parts = holdView s.parts := by
  unfold parkSeals
  refine holdView_foldl (fun s i => ?_) _ s
  exact holdView_tensorEffect tensored_sealGen p _ s i

@[simp] theorem holdView_startEnt (s : State) (c pos : Nat) (e : XEnt) :
    holdView (startEnt s c pos e).parts = holdView s.parts := by simp [startEnt]

@[simp] theorem keepsHold_execExchangeEntryStart (die : Fin 8) (core : Fin 128) (pos : Nat) (s : State) :
    KeepsHold s (execExchangeEntryStart die core pos s) := by
  unfold execExchangeEntryStart
  dsimp only
  split_ifs
  · simp
  · simp
  · split
    next u hu => simpa using holdView_openGen hu
    · simp
  · simp
  · simp

@[simp] theorem holdView_carryOut (s : State) (c pos : Nat) : holdView (carryOut s c pos).parts = holdView s.parts := by
  have h := holdView_runXfer (translateEnt s c pos) c pos (getEnt (translateEnt s c pos) c pos)
  unfold carryOut
  dsimp only
  split
  next hu =>
    rw [hu] at h
    simpa using h
  · simp

@[simp] theorem keepsHold_execExchangeTransferDone (die : Fin 8) (core : Fin 128) (pos : Nat) (s : State) :
    KeepsHold s (execExchangeTransferDone die core pos s) := by
  unfold execExchangeTransferDone
  dsimp only
  split
  · simp
  · split
    · split <;> simp
    · split
      · simp
      · split
        · split <;> simp
        · simp

@[simp] theorem holdView_parkFaulted (s : State) (c pos : Nat) : holdView (parkFaulted s c pos).parts = holdView s.parts := by
  unfold parkFaulted
  dsimp only
  split
  next hu =>
    have h := congrArg (fun x => holdView x.1.parts) hu
    simp at h
    simpa using h.symm
  · simp

@[simp] theorem keepsHold_execExchangeFaultPark (die : Fin 8) (core : Fin 128) (pos : Nat) (s : State) :
    KeepsHold s (execExchangeFaultPark die core pos s) := by
  unfold execExchangeFaultPark
  dsimp only
  split <;> simp

@[simp] theorem holdView_applyXred (s : State) (c pos : Nat) : holdView (applyXred s c pos).parts = holdView s.parts := by
  have h := holdView_runXred (translateEnt s c pos) c pos (getEnt (translateEnt s c pos) c pos)
  unfold applyXred
  dsimp only
  split
  next hu =>
    rw [hu] at h
    simpa using h
  · simp

@[simp] theorem keepsHold_execXredRequestApply (die : Fin 8) (core : Fin 128) (pos : Nat) (s : State) :
    KeepsHold s (execXredRequestApply die core pos s) := by
  unfold execXredRequestApply
  dsimp only
  split
  · simp
  · split <;> simp

@[simp] theorem keepsHold_execResponseTimeout (die : Fin 8) (core : Fin 128) (pos : Nat) (s : State) :
    KeepsHold s (execResponseTimeout die core pos s) := by
  unfold execResponseTimeout
  dsimp only
  split
  · simp
  · split <;> simp

@[simp] theorem holdView_wake (old s : State) : holdView (wake old s).parts = holdView s.parts := by simp [wake]

@[simp] theorem keepsHold_execAppliedResponseLost (die : Fin 8) (core : Fin 128) (pos : Nat) (s : State) :
    KeepsHold s (execAppliedResponseLost die core pos s) := by
  unfold execAppliedResponseLost
  dsimp only
  split <;> simp

@[simp] theorem keepsHold_execXpromComplete (die : Fin 8) (core : Fin 128) (pos : Nat) (s : State) :
    KeepsHold s (execXpromComplete die core pos s) := by
  unfold execXpromComplete
  dsimp only
  split <;> simp

@[simp] theorem holdView_replayEnt (s : State) (p c idx : Nat) : holdView (replayEnt s p c idx).parts = holdView s.parts := by
  unfold replayEnt
  split
  · rfl
  · dsimp only
    split_ifs
    · rfl
    · simp
    · split
      next hu => simpa using holdView_openGen hu
      · simp
    · simp
    · simp

@[simp] theorem keepsHold_execXfctlReplay (part : Fin 256) (pcore : BitVec 10) (index : BitVec 16) (s : State) :
    KeepsHold s (execXfctlReplay part pcore index s) := by simp [execXfctlReplay]

@[simp] theorem holdView_abandon (s : State) (p : Nat) : holdView (abandon s p).parts = holdView s.parts := by simp [abandon]

@[simp] theorem keepsHold_execXfctlAbandon (part : Fin 256) (s : State) : KeepsHold s (execXfctlAbandon part s) := by
  unfold execXfctlAbandon
  split <;> simp

/-! ## Commits -/

@[simp] theorem holdView_drainEnt (s : State) (x : Nat × Nat) :
    holdView (drainEnt s x).parts = holdView s.parts := by simp [drainEnt]

@[simp] theorem holdView_drainWrites (s : State) (locs : List Nat) :
    holdView (drainWrites s locs).parts = holdView s.parts := by simp [drainWrites]

@[simp] theorem holdView_dropStale (old s : State) : holdView (dropStale old s).parts = holdView s.parts := by simp [dropStale]

@[simp] theorem holdView_moveTag (old s : State) (x : Nat × Nat) :
    holdView (moveTag old s x).parts = holdView s.parts := by simp [moveTag]

@[simp] theorem holdView_joinWindows (s : State) (v w : Nat) :
    holdView (joinWindows s v w).parts = holdView s.parts := by simp [joinWindows]

@[simp] theorem holdView_afterCommit (old : State) (ws : List (Nat × Word)) (s : State) :
    holdView (afterCommit old ws s).parts = holdView s.parts := by simp [afterCommit]

@[simp] theorem holdView_retryLands (s : State) : holdView (retryLands s).parts = holdView s.parts := by simp [retryLands]

theorem holdView_commitReq {s : State} {d : Nat} {r : MaintReq} {ws : List (Nat × Word)} {u : State}
    (h : commitReq s d r ws = some u) :
    holdView u.parts = holdView s.parts := by
  unfold commitReq at h
  dsimp only at h
  split at h
  · rw [← Option.some.inj h]
    simp
  next hu =>
    split_ifs at h
    rw [← Option.some.inj h]
    have hm := holdView_micaCommit hu
    simpa using hm

@[simp] theorem keepsHold_execMaintCommit8 (die : Fin 8) (r : MaintReq) (s : State) :
    KeepsHold s (execMaintCommit8 die r s) := by
  unfold execMaintCommit8
  split
  · simp
  next t hu =>
    have h := holdView_maintTake hu
    rw [keepsHold_next]
    split_ifs
    · simpa using h
    · cases hc : commitReq t die r _ with
      | none => rfl
      | some u => exact (holdView_commitReq hc).trans h

@[simp] theorem keepsHold_execMaintCommitLine (die : Fin 8) (r : MaintReq) (line : BitVec 512) (s : State) :
    KeepsHold s (execMaintCommitLine die r line s) := by
  unfold execMaintCommitLine
  dsimp only
  split
  · simp
  next t hu =>
    have h := holdView_maintTake hu
    rw [keepsHold_next]
    split_ifs
    · simpa using h
    · cases hc : commitReq t die r _ with
      | none => rfl
      | some u => exact (holdView_commitReq hc).trans h

end Sys2Proof.Machine
end

section
/-!
SUPPORT. No instruction word changes a partition's state, nor the state in which it is about to be held.
-/
namespace Sys2Proof.Machine

/-! ## Operands -/

@[simp] theorem holdView_WEnv_post (e : WEnv) (s : State) (r : ArithRec) :
    holdView (WEnv.post e s r).parts = holdView s.parts := by simp [WEnv.post]

@[simp] theorem holdView_WEnv_mapLanes (e : WEnv) (s : State) (f : Nat → Lane → Lane) :
    holdView (WEnv.mapLanes e s f).parts = holdView s.parts := rfl

@[simp] theorem holdView_WEnv_writeAll (e : WEnv) (s : State) (d : Reg) (v : Nat → Word) :
    holdView (WEnv.writeAll e s d v).1.parts = holdView s.parts := rfl

@[simp] theorem holdView_completeOp (s : State) (c g i : Nat) : holdView (completeOp s c g i).parts = holdView s.parts :=
  (keepsPhase_completeOp s c g i).holdView

@[simp] theorem holdView_issueLong (s : State) (c g : Nat) (o : LongOp) :
    holdView (issueLong s c g o).parts = holdView s.parts := rfl

/-! ## Long-latency and matrix operations -/

@[simp] theorem holdView_completeMat (s : State) (c : Nat) : holdView (completeMat s c).parts = holdView s.parts :=
  (keepsPhase_completeMat s c).holdView

@[simp] theorem keepsHold_execMatrixOpComplete (die : Fin 8) (core : Fin 128) (s : State) :
    KeepsHold s (execMatrixOpComplete die core s) := by simp [execMatrixOpComplete]

@[simp] theorem holdView_resumePort (s : State) (c g : Nat) (second : Bool) :
    holdView (resumePort s c g second).parts = holdView s.parts := rfl

@[simp] theorem holdView_mwaitReturn (s : State) (c g : Nat) (second : Bool) :
    holdView (mwaitReturn s c g second).parts = holdView s.parts := by
  unfold mwaitReturn
  dsimp only
  split
  · split
    · simp
    · rfl
  · rfl

@[simp] theorem holdView_mstatFinish (s : State) (c g : Nat) (second : Bool) :
    holdView (mstatFinish s c g second).parts = holdView s.parts := by
  unfold mstatFinish
  dsimp only
  split
  · split
    · simp
    · rfl
  · rfl

@[simp] theorem holdView_awaitReturn (s : State) (c g : Nat) (second : Bool) :
    holdView (awaitReturn s c g second).parts = holdView s.parts := by
  unfold awaitReturn
  split
  · split
    · simp
    · rfl
  · rfl

@[simp] theorem keepsHold_execAuditValuesArrive (die : Fin 8) (core : Fin 128) (s : State) :
    KeepsHold s (execAuditValuesArrive die core s) := by
  unfold execAuditValuesArrive
  dsimp only
  split <;> simp

@[simp] theorem keepsHold_execAssayFoldComplete (die : Fin 8) (core : Fin 128) (s : State) :
    KeepsHold s (execAssayFoldComplete die core s) := by
  unfold execAssayFoldComplete
  dsimp only
  split <;> simp

@[simp] theorem holdView_sendRecord (s : State) (c uid : Nat) : holdView (sendRecord s c uid).parts = holdView s.parts := by
  unfold sendRecord
  split <;> rfl

@[simp] theorem keepsHold_execWitnessRecordAccept (die : Fin 8) (core : Fin 128) (s : State) :
    KeepsHold s (execWitnessRecordAccept die core s) := by
  unfold execWitnessRecordAccept
  dsimp only
  split
  · split <;> simp
  · split <;> simp
  · simp

@[simp] theorem holdView_autoClose (s : State) (c : Nat) : holdView (autoClose s c).parts = holdView s.parts := rfl

/-! ## The issue of words -/

@[simp] theorem holdView_headerFault (s : State) (cause : Byte) (word : BitVec 32) (addr : Word) :
    holdView (headerFault s cause word addr).parts = holdView s.parts := by
  unfold headerFault
  split
  · rfl
  · simp

@[simp] theorem holdView_startSecond (s : State) (c g : Nat) (pc : Offset) :
    holdView (startSecond s c g pc).parts = holdView s.parts := by
  unfold startSecond
  split
  · rfl
  · split
    · rfl
    · dsimp only
      split
      · rfl
      · simp

@[simp] theorem holdView_startClause (s : State) (h : Clause) (wait : BitVec 12) :
    holdView (startClause s h wait).parts = holdView s.parts := by
  unfold startClause
  split
  · rfl
  · simp

@[simp] theorem holdView_applyLaneCtl (s : State) (c g : Nat) :
    holdView (applyLaneCtl s c g).parts = holdView s.parts := by simp [applyLaneCtl]

@[simp] theorem holdView_afterClause (s : State) (c g : Nat) (yld stay : Bool) :
    holdView (afterClause s c g yld stay).parts = holdView s.parts := by simp [afterClause]

@[simp] theorem holdView_endClauses (s : State) (c g : Nat) :
    holdView (endClauses s c g).parts = holdView s.parts := by simp [endClauses]

@[simp] theorem keepsHold_execClauseEnd (die : Fin 8) (core : Fin 128) (grp : Fin 8) (s : State) :
    KeepsHold s (execClauseEnd die core grp s) := by simp [execClauseEnd]

@[simp] theorem holdView_endWoken (s : State) (c : Nat) (gs : List Nat) :
    holdView (endWoken s c gs).parts = holdView s.parts := by simp [endWoken]

@[simp] theorem keepsHold_execGroupSelect (die : Fin 8) (core : Fin 128) (s : State) :
    KeepsHold s (execGroupSelect die core s) := by
  unfold execGroupSelect
  dsimp only
  split
  · simp
  · split <;> simp

@[simp] theorem keepsHold_execStayHoldExpire (die : Fin 8) (core : Fin 128) (grp : Fin 8) (s : State) :
    KeepsHold s (execStayHoldExpire die core grp s) := by simp [execStayHoldExpire]

@[simp] theorem holdView_completeKind (k : LongKind) (s : State) (c g i : Nat) :
    holdView (completeKind k s c g i).parts = holdView s.parts := by
  unfold completeKind
  split
  · simp
  · rfl

@[simp] theorem keepsHold_execLoadCompletion (die : Fin 8) (core : Fin 128) (grp : Fin 8) (op : Nat) (s : State) :
    KeepsHold s (execLoadCompletion die core grp op s) := by simp [execLoadCompletion]

@[simp] theorem keepsHold_execIdivCompletion (die : Fin 8) (core : Fin 128) (grp : Fin 8) (op : Nat) (s : State) :
    KeepsHold s (execIdivCompletion die core grp op s) := by simp [execIdivCompletion]

@[simp] theorem keepsHold_execSfuCompletion (die : Fin 8) (core : Fin 128) (grp : Fin 8) (op : Nat) (s : State) :
    KeepsHold s (execSfuCompletion die core grp op s) := by simp [execSfuCompletion]

@[simp] theorem keepsHold_execHandlerEntry (die : Fin 8) (core : Fin 128) (grp : Fin 8) (s : State) :
    KeepsHold s (execHandlerEntry die core grp s) := by simp [execHandlerEntry]

@[simp] theorem holdView_passWord (s : State) (e : WEnv) :
    holdView (passWord s e).parts = holdView s.parts := by simp [passWord]

@[simp] theorem holdView_closeEmpty (s : State) (e : WEnv) : holdView (closeEmpty s e).parts = holdView s.parts := by
  unfold closeEmpty
  dsimp only
  split
  · simp
  · rfl

@[simp] theorem holdView_endAt (e : WEnv) (a : Site) (r : WRes) :
    holdView (endAt e a r).parts = holdView r.1.parts := by simp [endAt]

@[simp] theorem holdView_endWord (e : WEnv) (w : BitVec 32) (r : WRes) :
    holdView (endWord e w r).parts = holdView r.1.parts := by simp [endWord]

@[simp] theorem keepsHold_runWord (m : WMeta) (body : WEnv → State → WRes) (s : State) (hb : ∀ e s, SameHold s (body e s).1) :
    KeepsHold s (runWord m body s) := by
  unfold runWord
  split
  · dsimp only
    split
    · simp
    · split_ifs
      · simp
      · exact (keepsHold_next _ _).mpr ((holdView_endWord _ _ _).trans ((hb _ _).trans (holdView_passWord _ _)))
  · split_ifs <;> simp

@[simp] theorem holdView_faultWord (s : State) (cause : Byte) (word : BitVec 32) (access : Nat) (addr : Word) :
    holdView (faultWord s cause word access addr).parts = holdView s.parts := by
  unfold faultWord
  split <;> simp

@[simp] theorem keepsHold_execClause (len : Nat) (wait : BitVec 12) (fla flb : Option (Fin 12)) (yld : Bool) (s : State) :
    KeepsHold s (execClause len wait fla flb yld s) := by
  unfold execClause
  split
  · simp
  · split <;> simp

@[simp] theorem holdView_fetchFault (s : State) : holdView (fetchFault s).parts = holdView s.parts := by
  unfold fetchFault
  split
  · simp
  · split
    · simp
    · rfl

@[simp] theorem keepsHold_execIllegalInstruction (w : BitVec 32) (s : State) :
    KeepsHold s (execIllegalInstruction w s) := by simp [execIllegalInstruction]

@[simp] theorem holdView_resumeReleased (s : State) (c g : Nat) (k : Clause) :
    holdView (resumeReleased s c g k).parts = holdView s.parts := rfl

@[simp] theorem keepsHold_runHint (i : Instr) (s : State) : KeepsHold s (runHint i s) := by
  unfold runHint
  split
  · split <;> simp
  · simp

/-! ## Flags and clauses -/

@[simp] theorem holdView_WEnv_setPreds (e : WEnv) (s : State) (p : Fin 8) (v : Nat → Bool) :
    holdView (WEnv.setPreds e s p v).1.parts = holdView s.parts := rfl

@[simp] theorem holdView_WEnv_writeWith (e : WEnv) (s : State) (d : Reg) (v : Nat → Word) (fst : Nat → Nat) :
    holdView (WEnv.writeWith e s d v fst).parts = holdView s.parts := rfl

@[simp] theorem holdView_WEnv_writeRounded (e : WEnv) (s : State) (d : Reg) (w n : Nat) (f : Nat → Nat → FRes) :
    holdView (WEnv.writeRounded e s d w n f).1.parts = holdView s.parts := by simp [WEnv.writeRounded]

@[simp] theorem holdView_WEnv_issueRounded (e : WEnv) (s : State) (d : Reg) (f : FlagSel) (w n : Nat) (g : Nat → Nat → FRes) :
    holdView (WEnv.issueRounded e s d f w n g).1.parts = holdView s.parts := rfl

@[simp] theorem keepsHold_binWord (d : Reg) (a b : Src) (v : Word → Word → Word) (s : State) :
    KeepsHold s (binWord d a b v s) :=
  keepsHold_runWord _ _ s fun _ _ => by simp

@[simp] theorem keepsHold_unWord (d : Reg) (a : Src) (v : Word → Word) (s : State) : KeepsHold s (unWord d a v s) :=
  keepsHold_runWord _ _ s fun _ _ => by simp

@[simp] theorem keepsHold_accWord (d : Reg) (a b : Src) (v : Word → Word → Word → Word) (s : State) :
    KeepsHold s (accWord d a b v s) :=
  keepsHold_runWord _ _ s fun _ _ => by simp

/-! ## System words -/

@[simp] theorem keepsHold_execNop (s : State) : KeepsHold s (execNop s) :=
  keepsHold_runWord _ _ s fun _ _ => by simp

@[simp] theorem keepsHold_execTrap (code : BitVec 8) (s : State) : KeepsHold s (execTrap code s) :=
  keepsHold_runWord _ _ s fun _ _ => by simp

@[simp] theorem keepsHold_execBrk (code : BitVec 8) (s : State) : KeepsHold s (execBrk code s) :=
  keepsHold_runWord _ _ s fun _ _ => by simp

@[simp] theorem keepsHold_execHalt (s : State) : KeepsHold s (execHalt s) :=
  keepsHold_runWord _ _ s fun _ _ => by simp

@[simp] theorem keepsHold_syncWord (vote : Bool) (s : State) : KeepsHold s (syncWord vote s) := by simp [syncWord]

@[simp] theorem keepsHold_execResw (a : Src) (s : State) : KeepsHold s (execResw a s) :=
  keepsHold_runWord _ _ s fun _ _ => by simp

@[simp] theorem keepsHold_execSrd (d : Reg) (sel : SReg) (s : State) : KeepsHold s (execSrd d sel s) :=
  keepsHold_runWord _ _ s fun _ _ => by simp

@[simp] theorem keepsHold_execSwr (a : Src) (sel : SReg) (s : State) : KeepsHold s (execSwr a sel s) := by
  unfold execSwr
  split
  all_goals exact keepsHold_runWord _ _ s fun _ _ => by simp

@[simp] theorem keepsHold_execKset (k : Fin 16) (a : Src) (s : State) : KeepsHold s (execKset k a s) :=
  keepsHold_runWord _ _ s fun _ _ => rfl

@[simp] theorem keepsHold_execSegld (a : Src) (n : Fin 4) (s : State) : KeepsHold s (execSegld a n s) :=
  keepsHold_runWord _ _ s fun _ _ => by simp

@[simp] theorem keepsHold_execPwrp (a : Src) (s : State) : KeepsHold s (execPwrp a s) :=
  keepsHold_runWord _ _ s fun _ _ => by simp

/-! ## Matrix and assay words -/

@[simp] theorem keepsHold_opWord (d : Reg) (a : Src) (minor : Nat) (dt : DrainTy) (s : State) :
    KeepsHold s (opWord d a minor dt s) := by
  refine keepsHold_runWord _ _ s fun e s => ?_
  dsimp only
  split <;> simp

@[simp] theorem holdView_WEnv_waitFor (e : WEnv) (s : State) (w : Wait) :
    holdView (WEnv.waitFor e s w).parts = holdView s.parts := rfl

@[simp] theorem keepsHold_execMwait (p : Fin 8) (a : Src) (s : State) : KeepsHold s (execMwait p a s) :=
  keepsHold_runWord _ _ s fun _ _ => by simp

@[simp] theorem keepsHold_execMstat (d : Reg) (a : Src) (s : State) : KeepsHold s (execMstat d a s) :=
  keepsHold_runWord _ _ s fun _ _ => by simp

@[simp] theorem keepsHold_execAwait (a : Src) (s : State) : KeepsHold s (execAwait a s) :=
  keepsHold_runWord _ _ s fun _ _ => by simp

@[simp] theorem keepsHold_execMwaitReturn (die : Fin 8) (core : Fin 128) (grp : Fin 8) (second : Bool) (s : State) :
    KeepsHold s (execMwaitReturn die core grp second s) := by simp [execMwaitReturn]

@[simp] theorem keepsHold_execMstatClearComplete (die : Fin 8) (core : Fin 128) (grp : Fin 8) (s : State) :
    KeepsHold s (execMstatClearComplete die core grp s) := by simp [execMstatClearComplete]

@[simp] theorem keepsHold_execAwaitReturn (die : Fin 8) (core : Fin 128) (grp : Fin 8) (second : Bool) (s : State) :
    KeepsHold s (execAwaitReturn die core grp second s) := by simp [execAwaitReturn]

@[simp] theorem keepsHold_execAwit (d : Reg) (a : Src) (s : State) : KeepsHold s (execAwit d a s) := by
  refine keepsHold_runWord _ _ s fun e s => ?_
  dsimp only
  split
  · rfl
  · split_ifs <;> simp

@[simp] theorem keepsHold_execAemit (c : Fin 8) (a b : Src) (s : State) : KeepsHold s (execAemit c a b s) := by
  refine keepsHold_runWord _ _ s fun e s => ?_
  dsimp only
  split
  · rfl
  · split_ifs <;> simp

@[simp] theorem keepsHold_execAclose (d : Reg) (c : Fin 8) (s : State) : KeepsHold s (execAclose d c s) := by
  refine keepsHold_runWord _ _ s fun e s => ?_
  dsimp only
  split <;> simp

/-! ## Power words -/

@[simp] theorem holdView_refreshPower (s : State) (d : Nat) :
    holdView (refreshPower s d).parts = holdView s.parts := by simp [refreshPower]

/-! ## Exchange words -/

@[simp] theorem holdView_postEntry (s : State) (c : Nat) (e : XEnt) :
    holdView (postEntry s c e).parts = holdView s.parts := rfl

@[simp] theorem keepsHold_postWord (op ty : Nat) (near far b : Src) (s : State) :
    KeepsHold s (postWord op ty near far b s) := by
  refine keepsHold_runWord _ _ s fun e s => ?_
  refine holdView_foldl_fst (fun acc l => ?_) _ _
  rw [sameHold_iff]
  dsimp only
  split_ifs
  · rfl
  · split <;> simp

@[simp] theorem keepsHold_postLow (a : Src) (priv : Bool) (ok : State → Word → Bool) (ent : Word → XEnt)
    (after : Word → Exch → Exch) (s : State) :
    KeepsHold s (postLow a priv ok ent after s) := by simp [postLow]

@[simp] theorem keepsHold_execXqset (a : Src) (s : State) : KeepsHold s (execXqset a s) :=
  keepsHold_runWord _ _ s fun _ _ => by simp

/-! ## Branches -/

@[simp] theorem holdView_WEnv_go (e : WEnv) (s : State) (f : Nat → Option Offset) :
    holdView (WEnv.go e s f).1.parts = holdView s.parts := rfl

@[simp] theorem keepsHold_voteBranch (p : Fin 8) (disp : BitVec 20) (f : List Bool → Bool) (s : State) :
    KeepsHold s (voteBranch p disp f s) :=
  keepsHold_runWord _ _ s fun _ _ => by simp

@[simp] theorem keepsHold_execBrDiv (p : Fin 8) (disp : BitVec 20) (s : State) : KeepsHold s (execBrDiv p disp s) :=
  keepsHold_runWord _ _ s fun _ _ => by simp

@[simp] theorem keepsHold_execJmp (disp : BitVec 20) (s : State) : KeepsHold s (execJmp disp s) :=
  keepsHold_runWord _ _ s fun _ _ => by simp

@[simp] theorem keepsHold_execCall (disp : BitVec 20) (s : State) : KeepsHold s (execCall disp s) :=
  keepsHold_runWord _ _ s fun _ _ => by simp

@[simp] theorem keepsHold_jumpWord (a : Src) (dst : List Reg) (f : WEnv → Lane → Offset → Lane) (s : State) :
    KeepsHold s (jumpWord a dst f s) :=
  keepsHold_runWord _ _ s fun _ _ => by simp

/-! ## Floating-point words -/

@[simp] theorem keepsHold_fltBin (d : Reg) (a b : Src) (t : FltTy) (f : Round → FVal → FVal → Exact) (s : State) :
    KeepsHold s (fltBin d a b t f s) := by simp [fltBin]

@[simp] theorem keepsHold_fltExact (d : Reg) (a b : Src) (t : FltTy) (f : Nat → Nat → Nat) (s : State) :
    KeepsHold s (fltExact d a b t f s) := by simp [fltExact]

@[simp] theorem keepsHold_fusedWord (d : Reg) (a b : Src) (t : FltTy) (np nc : Bool) (s : State) :
    KeepsHold s (fusedWord d a b t np nc s) := by simp [fusedWord]

@[simp] theorem keepsHold_execFcmp (p : Fin 8) (a b : Src) (t : FltTy) (c : Comb) (k : FCond) (s : State) :
    KeepsHold s (execFcmp p a b t c k s) :=
  keepsHold_runWord _ _ s fun _ _ => by simp

@[simp] theorem keepsHold_execCvt (d : Reg) (a : Src) (dst src : NumTy) (s : State) : KeepsHold s (execCvt d a dst src s) :=
  keepsHold_runWord _ _ s fun _ _ => by simp

@[simp] theorem keepsHold_execCvs (d : Reg) (a b : Src) (dst : NumTy) (src : FltTy) (s : State) :
    KeepsHold s (execCvs d a b dst src s) :=
  keepsHold_runWord _ _ s fun _ _ => by simp

@[simp] theorem keepsHold_execSrq (d : Reg) (a b : Src) (dst : NumTy) (src : FltTy) (s : State) :
    KeepsHold s (execSrq d a b dst src s) :=
  keepsHold_runWord _ _ s fun _ _ => by simp

@[simp] theorem keepsHold_sfuWord (op : SfuOp) (d : Reg) (a : Src) (t : FltTy) (f : FlagSel) (s : State) :
    KeepsHold s (sfuWord op d a t f s) :=
  keepsHold_runWord _ _ s fun _ _ => by simp

@[simp] theorem keepsHold_execFdiv (d : Reg) (a b : Src) (t : FltTy) (f : FlagSel) (s : State) :
    KeepsHold s (execFdiv d a b t f s) :=
  keepsHold_runWord _ _ s fun _ _ => by simp

/-! ## Cross-lane words -/

@[simp] theorem keepsHold_laneWord (d : Reg) (ops : List Src) (w : Nat) (f : WEnv → State → Nat → Nat → Nat) (s : State) :
    KeepsHold s (laneWord d ops w f s) :=
  keepsHold_runWord _ _ s fun _ _ => by simp

@[simp] theorem keepsHold_intFold (scan : Bool) (d : Reg) (a : Src) (t : IntTy) (ident : Nat) (op : Nat → Nat → Nat) (s : State) :
    KeepsHold s (intFold scan d a t ident op s) :=
  keepsHold_runWord _ _ s fun _ _ => by simp

@[simp] theorem keepsHold_faddFold (scan : Bool) (d : Reg) (a : Src) (t : FltTy) (s : State) :
    KeepsHold s (faddFold scan d a t s) := by simp [faddFold]

@[simp] theorem keepsHold_fmmFold (scan : Bool) (d : Reg) (a : Src) (t : FltTy) (ident : Nat) (op : Nat → Nat → Nat) (s : State) :
    KeepsHold s (fmmFold scan d a t ident op s) :=
  keepsHold_runWord _ _ s fun _ _ => by simp

@[simp] theorem keepsHold_execVoteAny (d a : Fin 8) (s : State) : KeepsHold s (execVoteAny d a s) :=
  keepsHold_runWord _ _ s fun _ _ => by simp

@[simp] theorem keepsHold_execVoteAll (d a : Fin 8) (s : State) : KeepsHold s (execVoteAll d a s) :=
  keepsHold_runWord _ _ s fun _ _ => by simp

@[simp] theorem keepsHold_execBallot (d : Reg) (a : Fin 8) (s : State) : KeepsHold s (execBallot d a s) :=
  keepsHold_runWord _ _ s fun _ _ => by simp

@[simp] theorem keepsHold_execLpopc (d : Reg) (a : Fin 8) (s : State) : KeepsHold s (execLpopc d a s) :=
  keepsHold_runWord _ _ s fun _ _ => by simp

@[simp] theorem keepsHold_execLjoin (a : Src) (s : State) : KeepsHold s (execLjoin a s) :=
  keepsHold_runWord _ _ s fun _ _ => by simp

@[simp] theorem holdView_wakeBarrier (s : State) (c g : Nat) (n : Fin 16) :
    holdView (wakeBarrier s c g n).parts = holdView s.parts := by simp [wakeBarrier]

@[simp] theorem keepsHold_barWord (block : Bool) (n : Fin 16) (a : Src) (s : State) : KeepsHold s (barWord block n a s) := by
  refine keepsHold_runWord _ _ s fun e s => ?_
  dsimp only
  split <;> simp

/-! ## Dot products -/

@[simp] theorem keepsHold_execFdotF16 (d : Reg) (a b : Src) (s : State) : KeepsHold s (execFdotF16 d a b s) :=
  keepsHold_runWord _ _ s fun _ _ => by simp

/-! ## Integer words -/

@[simp] theorem keepsHold_execMovi (d : Reg) (i : BitVec 8) (t : IntTy) (s : State) : KeepsHold s (execMovi d i t s) :=
  keepsHold_runWord _ _ s fun _ _ => by simp

@[simp] theorem keepsHold_execIcmp (p : Fin 8) (a b : Src) (t : IntTy) (c : Comb) (k : ICond) (s : State) :
    KeepsHold s (execIcmp p a b t c k s) :=
  keepsHold_runWord _ _ s fun _ _ => by simp

@[simp] theorem keepsHold_execIcmpi (p : Fin 8) (a : Src) (i : BitVec 8) (t : IntTy) (k : ICond) (s : State) :
    KeepsHold s (execIcmpi p a i t k s) :=
  keepsHold_runWord _ _ s fun _ _ => by simp

/-! ## Loads, stores and atomics -/

@[simp] theorem holdView_loadBody (d : Reg) (seg : Fin 4) (f : FlagSel) (z : LdSize) (off : WEnv → State → Nat → Word)
    (e : WEnv) (s : State) :
    holdView (loadBody d seg f z off e s).1.parts = holdView s.parts := by simp [loadBody]

@[simp] theorem holdView_storeBody (v : Src) (seg : Fin 4) (z : StSize) (off : WEnv → State → Nat → Word) (e : WEnv) (s : State) :
    holdView (storeBody v seg z off e s).1.parts = holdView s.parts := by
  refine holdView_foldl_fst (fun acc l => ?_) _ _
  rw [sameHold_iff]
  split <;> simp

@[simp] theorem keepsHold_execLd (d : Reg) (base : Src) (i : BitVec 8) (seg : Fin 4) (f : FlagSel) (z : LdSize) (s : State) :
    KeepsHold s (execLd d base i seg f z s) :=
  keepsHold_runWord _ _ s fun _ _ => by simp

@[simp] theorem keepsHold_execLdx (d : Reg) (base x : Src) (seg : Fin 4) (f : FlagSel) (z : LdSize) (s : State) :
    KeepsHold s (execLdx d base x seg f z s) :=
  keepsHold_runWord _ _ s fun _ _ => by simp

@[simp] theorem keepsHold_execSt (v base : Src) (i : BitVec 8) (seg : Fin 4) (z : StSize) (s : State) :
    KeepsHold s (execSt v base i seg z s) :=
  keepsHold_runWord _ _ s fun _ _ => by simp

@[simp] theorem keepsHold_execStx (v base x : Src) (seg : Fin 4) (z : StSize) (s : State) :
    KeepsHold s (execStx v base x seg z s) :=
  keepsHold_runWord _ _ s fun _ _ => by simp

@[simp] theorem holdView_atomBody (d : Reg) (a b : Src) (seg : Fin 3) (f : Word → Word → Word → Word) (e : WEnv) (s : State) :
    holdView (atomBody d a b seg f e s).1.parts = holdView s.parts := by
  refine holdView_foldl_fst (fun acc l => ?_) _ _
  rw [sameHold_iff]
  dsimp only
  split <;> simp

@[simp] theorem keepsHold_atomWord (d : Reg) (a b : Src) (seg : Fin 3) (reads : List Src) (f : Word → Word → Word → Word)
    (s : State) :
    KeepsHold s (atomWord d a b seg reads f s) := by simp [atomWord]

/-! ## Moves and predicates -/

@[simp] theorem keepsHold_execSel (d : Reg) (a b : Src) (p : Fin 8) (s : State) : KeepsHold s (execSel d a b p s) :=
  keepsHold_runWord _ _ s fun _ _ => by simp

@[simp] theorem keepsHold_execPack (d : Reg) (a b : Src) (t : IntTy) (s : State) : KeepsHold s (execPack d a b t s) :=
  keepsHold_runWord _ _ s fun _ _ => by simp

@[simp] theorem keepsHold_divWord (d : Reg) (a b : Src) (t : IntTy) (f : FlagSel) (v : Int → Int → Int) (s : State) :
    KeepsHold s (divWord d a b t f v s) := by simp [divWord]

@[simp] theorem keepsHold_predWord (d a b : Fin 8) (v : Bool → Bool → Bool) (s : State) : KeepsHold s (predWord d a b v s) :=
  keepsHold_runWord _ _ s fun _ _ => by simp

@[simp] theorem keepsHold_execPtow (d : Reg) (s : State) : KeepsHold s (execPtow d s) :=
  keepsHold_runWord _ _ s fun _ _ => by simp

@[simp] theorem keepsHold_execWtop (a : Src) (s : State) : KeepsHold s (execWtop a s) :=
  keepsHold_runWord _ _ s fun _ _ => by simp

end Sys2Proof.Machine
end

section
/-!
SUPPORT. What binding, contexts, witness records and scrub lists leave of the state of each partition (R192).
-/
namespace Sys2Proof.Machine

/-! ## Dispatch and binding -/

@[simp] theorem holdView_modCores (s : State) (p : Nat) (f : Core → Core) :
    holdView (modCores s p f).parts = holdView s.parts := by simp [modCores]

@[simp] theorem holdView_testCores (s : State) (p : Nat) : holdView (testCores s p).parts = holdView s.parts :=
  (keepsPhase_testCores s p).holdView

@[simp] theorem holdView_restartTimers (s : State) (p : Nat) :
    holdView (restartTimers s p).parts = holdView s.parts := by simp [restartTimers]

@[simp] theorem holdView_advancePhase (s : State) (p : Nat) :
    holdView (advancePhase s p).parts = holdView s.parts := by simp [advancePhase]

@[simp] theorem holdView_latchPower (s : State) (p k : Nat) : holdView (latchPower s p k).parts = holdView s.parts := by
  unfold latchPower
  simp

@[simp] theorem holdView_trackStr (s : State) (n : Nat) : holdView (trackStr s n).parts = holdView s.parts := by
  unfold trackStr
  refine holdView_foldl (fun s c => ?_) _ s
  rw [sameHold_iff]
  split
  · simp
  · rfl

@[simp] theorem holdView_rampUp (s : State) (p : Nat) : holdView (rampUp s p).parts = holdView s.parts :=
  (keepsPhase_rampUp s p).holdView

@[simp] theorem holdView_clearTags (s : State) (p : Nat) : holdView (clearTags s p).parts = holdView s.parts := rfl

@[simp] theorem holdView_setupCores (s : State) (p : Nat) :
    holdView (setupCores s p).parts = holdView s.parts := by simp [setupCores]

@[simp] theorem holdView_modBinds (s : State) (p : Nat) (ok : BindState → Bool) (f : Bind → Bind) :
    holdView (modBinds s p ok f).parts = holdView s.parts := by simp [modBinds]

@[simp] theorem holdView_refuseBind (s : State) (d i cause : Nat) :
    holdView (refuseBind s d i cause).parts = holdView s.parts := by simp [refuseBind]

@[simp] theorem holdView_writeBind (s : State) (d i : Nat) (r : BindWrite) (host : Bool) :
    holdView (writeBind s d i r host).parts = holdView s.parts := by simp [writeBind]

@[simp] theorem keepsHold_execBindRecordWrite (die : Fin 8) (slot : Fin 32) (r : BindWrite) (s : State) :
    KeepsHold s (execBindRecordWrite die slot r s) := by simp [execBindRecordWrite]

@[simp] theorem holdView_admitBind (d : Nat) (s : State) (i : Nat) : holdView (admitBind d s i).parts = holdView s.parts := by
  unfold admitBind
  dsimp only
  split
  · rfl
  · split <;> simp

@[simp] theorem keepsHold_execAdmissionInterval (die : Fin 8) (s : State) :
    KeepsHold s (execAdmissionInterval die s) := by simp [execAdmissionInterval]

@[simp] theorem holdView_extendMeas (s : State) (n : Nat) (digest : BitVec 512) :
    holdView (extendMeas s n digest).parts = holdView s.parts := rfl

/-! ## Contexts, migration and lane control -/

@[simp] theorem holdView_withStays (s : State) (c : Nat) : holdView (withStays s c).parts = holdView s.parts :=
  (keepsPhase_withStays s c).holdView

@[simp] theorem holdView_takeSeq (s : State) : holdView (takeSeq s).2.parts = holdView s.parts := rfl

@[simp] theorem holdView_writeImage (s : State) (p lcore pa n seq : Nat) (m : Mem) :
    holdView (writeImage s p lcore pa n seq m).parts = holdView s.parts := rfl

@[simp] theorem holdView_writeImages (s : State) (p : Nat) (bases : List Nat) (off n seq : Nat) (img : State → Nat → Mem) :
    holdView (writeImages s p bases off n seq img).parts = holdView s.parts := by simp [writeImages]

@[simp] theorem holdView_addScrub (s : State) (p : Nat) (units : List ScrubUnit) (strs : List Nat) (use : ScrubUse) :
    holdView (addScrub s p units strs use).parts = holdView s.parts := by simp [addScrub]

@[simp] theorem holdView_ctxEnd (s : State) (p status : Nat) :
    holdView (ctxEnd s p status).parts = holdView s.parts := by simp [ctxEnd]

@[simp] theorem holdView_ctxStart (s : State) (p : Nat) (op : CtxOp) :
    holdView (ctxStart s p op).parts = holdView s.parts := by simp [ctxStart]

@[simp] theorem keepsHold_execCtxSave (part : Fin 256) (s : State) : KeepsHold s (execCtxSave part s) := by simp [execCtxSave]

@[simp] theorem keepsHold_execCtxEvict (part : Fin 256) (s : State) :
    KeepsHold s (execCtxEvict part s) := by simp [execCtxEvict]

@[simp] theorem keepsHold_execCtxRestore (part : Fin 256) (s : State) :
    KeepsHold s (execCtxRestore part s) := by simp [execCtxRestore]

@[simp] theorem holdView_ctxSave (s : State) (p : Nat) : holdView (ctxSave s p).parts = holdView s.parts := by
  unfold ctxSave
  dsimp only
  split <;> simp

@[simp] theorem holdView_staleSave (s : State) (c : Nat) : holdView (staleSave s c).parts = holdView s.parts := by
  unfold staleSave
  split
  · simp
  · rfl

@[simp] theorem holdView_unbindStrings (s : State) (strs : List Nat) :
    holdView (unbindStrings s strs).parts = holdView s.parts := by simp [unbindStrings]

@[simp] theorem holdView_ctxEvict (s : State) (p : Nat) :
    holdView (ctxEvict s p).parts = holdView s.parts := by simp [ctxEvict]

@[simp] theorem holdView_raiseSeq (s : State) (seq : Nat) : holdView (raiseSeq s seq).parts = holdView s.parts := rfl

@[simp] theorem holdView_ctxRestore (s : State) (p : Nat) : holdView (ctxRestore s p).parts = holdView s.parts := by
  unfold ctxRestore
  split
  · simp
  · split
    · simp
    · dsimp only
      split
      · simp
      · split <;> simp

@[simp] theorem holdView_takeSnapshot (s : State) (p : Nat) : holdView (takeSnapshot s p).parts = holdView s.parts := by
  unfold takeSnapshot
  split <;> simp

@[simp] theorem holdView_discardCore (p : Nat) (sn : Snap) (s : State) (i : Nat) :
    holdView (discardCore p sn s i).parts = holdView s.parts :=
  congrArg holdView (parts_discardCore p sn s i)

@[simp] theorem keepsHold_execMigctlGo (part : Fin 256) (v : Word) (s : State) : KeepsHold s (execMigctlGo part v s) := by
  unfold execMigctlGo
  split <;> simp

@[simp] theorem holdView_migEnd (s : State) (p status : Nat) :
    holdView (migEnd s p status).parts = holdView s.parts := by simp [migEnd]

@[simp] theorem holdView_addBindString (s : State) (p n : Nat) :
    holdView (addBindString s p n).parts = holdView s.parts := by simp [addBindString]

@[simp] theorem holdView_migrate (s : State) (p fr dst : Nat) : holdView (migrate s p fr dst).parts = holdView s.parts := by
  unfold migrate
  split
  · simp
  · dsimp only
    split_ifs <;> simp

@[simp] theorem holdView_dropVacant (s : State) (p : Nat) :
    holdView (dropVacant s p).parts = holdView s.parts := by simp [dropVacant]

@[simp] theorem holdView_laneControl (s : State) (c g : Nat) (w : LaneCtl) :
    holdView (laneControl s c g w).parts = holdView s.parts := by simp [laneControl]

@[simp] theorem keepsHold_execLanectlResume (die : Fin 8) (core : Fin 128) (grp : Fin 8) (pc : Offset) (mask : LaneMask)
    (s : State) :
    KeepsHold s (execLanectlResume die core grp pc mask s) := by
  unfold execLanectlResume
  split <;> simp

@[simp] theorem keepsHold_execLanectlKill (die : Fin 8) (core : Fin 128) (grp : Fin 8) (mask : LaneMask) (s : State) :
    KeepsHold s (execLanectlKill die core grp mask s) := by simp [execLanectlKill]

/-! ## Witness records, audits and rollbacks -/

@[simp] theorem holdView_recordFailed_modAud' (s : State) (r : WitRec) :
    holdView (recordFailed.modAud' s r).parts = holdView s.parts := rfl

@[simp] theorem holdView_modAud (s : State) (i : Nat) (f : GenAud → GenAud) :
    holdView (modAud s i f).parts = holdView s.parts := rfl

@[simp] theorem holdView_joinAudit (s : State) (r : WitRec) : holdView (joinAudit s r).parts = holdView s.parts := by
  unfold joinAudit
  split
  · rfl
  · simp

@[simp] theorem holdView_holdGens (s : State) (task : Word) (opid : BitVec 32) (ss : Nat) :
    holdView (holdGens s task opid ss).parts = holdView s.parts := by simp [holdGens]

@[simp] theorem holdView_advancePass (fuel p : Nat) (s : State) : holdView (advancePass fuel p s).parts = holdView s.parts := by
  induction fuel generalizing s with
  | zero => rfl
  | succ n ih =>
    rw [advancePass]
    split
    · exact (ih _).trans (holdView_modPart _ _ fun _ => ⟨rfl, rfl⟩)
    · rfl

@[simp] theorem holdView_updatePass (s : State) (p : Nat) :
    holdView (updatePass s p).parts = holdView s.parts := by simp [updatePass]

@[simp] theorem keepsHold_execHorizonMark (die : Fin 8) (core : Fin 128) (k : Nat) (s : State) :
    KeepsHold s (execHorizonMark die core k s) := by
  unfold execHorizonMark
  dsimp only
  split
  · simp
  · split <;> simp

@[simp] theorem keepsHold_execGenerationRelease (idx : Nat) (s : State) : KeepsHold s (execGenerationRelease idx s) := by
  unfold execGenerationRelease
  split
  · simp
  · dsimp only
    split <;> simp

@[simp] theorem holdView_parkItem (s : State) (cause : Byte) (o : Outbound) :
    holdView (parkItem s cause o).parts = holdView s.parts := rfl

@[simp] theorem holdView_sendOut (s : State) (o : Outbound) : holdView (sendOut s o).parts = holdView s.parts := by
  unfold sendOut
  dsimp only
  have h : holdView (if o.push.isSome = true then s
      else modPart s o.part fun x => { x with left := x.left || decide (x.taskid = o.task) }).parts = holdView s.parts := by simp
  generalize (if o.push.isSome = true then s
      else modPart s o.part fun x => { x with left := x.left || decide (x.taskid = o.task) }) = t at h
  split
  · split
    next hu =>
      have hl := holdView_landTry t o.dev o.tid o.off o.op (outgoing t o)
      rw [hu] at hl
      simpa using hl.trans h
    next hu =>
      have hl := holdView_landTry t o.dev o.tid o.off o.op (outgoing t o)
      rw [hu] at hl
      exact hl.trans h
  · simpa using h

@[simp] theorem holdView_parkPush (s : State) (i : Nat) (o : Outbound) :
    holdView (parkPush s i o).parts = holdView s.parts := rfl

@[simp] theorem holdView_resend (s : State) (i : Nat) (o : Outbound) :
    holdView (resend s i o).parts = holdView s.parts := by simp [resend]

@[simp] theorem keepsHold_execOutboundRelease (die : Fin 8) (s : State) : KeepsHold s (execOutboundRelease die s) := by
  unfold execOutboundRelease
  split
  · simp
  · dsimp only
    split
    · simp
    · split <;> simp

@[simp] theorem holdView_freeDiags (s : State) : holdView (freeDiags s).parts = holdView s.parts := rfl

@[simp] theorem holdView_copyGen (s : State) (g : Gen) (base bytes : Nat) :
    holdView (copyGen s g base bytes).parts = holdView s.parts := by
  unfold copyGen
  refine holdView_foldl (fun s x => ?_) _ s
  dsimp only
  split
  · simp
  · rfl

@[simp] theorem holdView_carryForward (s : State) (i : Nat) :
    holdView (carryForward s i).parts = holdView s.parts := by simp [carryForward]

@[simp] theorem keepsHold_execCarryForwardComplete (idx : Nat) (s : State) :
    KeepsHold s (execCarryForwardComplete idx s) := by
  unfold execCarryForwardComplete
  dsimp only
  split <;> simp

@[simp] theorem holdView_keepDiag (p : Nat) (f : Failed) (frec : Option Nat) (s : State) (a : GenAud) :
    holdView (keepDiag p f frec s a).parts = holdView s.parts := by
  unfold keepDiag
  split
  · dsimp only
    split <;> split <;> simp
  · simp

@[simp] theorem holdView_rebind (s : State) (p : Nat) (strs : List Nat) :
    holdView (rebind s p strs).parts = holdView s.parts := by
  unfold rebind
  dsimp only
  refine (holdView_foldl (fun s d => ?_) _ _).trans (by simp)
  split_ifs
  · rfl
  · split <;> simp

@[simp] theorem holdView_moveStrings (s : State) (p : Nat) (m : List (Nat × Nat)) :
    holdView (moveStrings s p m).parts = holdView s.parts := by simp [moveStrings]

@[simp] theorem holdView_rollVoid (s : State) (p c : Nat) : holdView (rollVoid s p c).parts = holdView s.parts := by
  unfold rollVoid
  dsimp only
  simp only [modGran_parts]
  refine (holdView_foldl (fun s r => ?_) _ _).trans (by simp)
  split <;> simp

@[simp] theorem holdView_rollHold (s : State) (p c : Nat) : holdView (rollHold s p c).parts = holdView s.parts := rfl

theorem holdView_rollRestore {s : State} {p : Nat} {k : Ckpt} {u : State} (h : rollRestore s p k = some u) :
    holdView u.parts = holdView s.parts := by
  unfold rollRestore at h
  dsimp only at h
  split at h
  · cases h
  · rw [← Option.some.inj h]
    simp

@[simp] theorem holdView_strike (e : FrecEnt) (lim act : Nat) (s : State) (u : RetUnit) :
    holdView (strike e lim act s u).parts = holdView s.parts := by simp [strike]

@[simp] theorem holdView_strikeAll (s : State) (e : FrecEnt) :
    holdView (strikeAll s e).parts = holdView s.parts := by simp [strikeAll]

@[simp] theorem keepsHold_execRerunCompare (slot : Nat) (s : State) : KeepsHold s (execRerunCompare slot s) := by
  unfold execRerunCompare
  split <;> simp

@[simp] theorem keepsHold_execRetirementEffect (unit : RetUnit) (s : State) : KeepsHold s (execRetirementEffect unit s) := by
  unfold execRetirementEffect
  split
  · simp
  · split <;> simp

/-! ## Phases and scrub lists -/

@[simp] theorem holdView_settleResult (s : State) (p : Nat) :
    holdView (settleResult s p).parts = holdView s.parts := by simp [settleResult]

@[simp] theorem holdView_beginExchange (s : State) (p : Nat) :
    holdView (beginExchange s p).parts = holdView s.parts := by simp [beginExchange]

@[simp] theorem holdView_endExchange (s : State) (p : Nat) :
    holdView (endExchange s p).1.parts = holdView s.parts := by simp [endExchange]

@[simp] theorem holdView_pushCkpt (s : State) (p k seq num : Nat) (bases : List Nat) :
    holdView (pushCkpt s p k seq num bases).parts = holdView s.parts := by simp [pushCkpt]

@[simp] theorem holdView_takeCkpt (s : State) (p k : Nat) : holdView (takeCkpt s p k).parts = holdView s.parts := by
  unfold takeCkpt
  split
  · rfl
  · simp

@[simp] theorem holdView_readyCompute (s : State) (p k : Nat) :
    holdView (readyCompute s p k).parts = holdView s.parts := by simp [readyCompute]

@[simp] theorem keepsHold_execPhCtlStragClear (part : Fin 256) (s : State) :
    KeepsHold s (execPhCtlStragClear part s) := by simp [execPhCtlStragClear]

@[simp] theorem holdView_writeStrag (s : State) (p : Nat) (v : Word) :
    holdView (writeStrag s p v).parts = holdView s.parts := by simp [writeStrag]

@[simp] theorem keepsHold_execStragLimitWrite (part : Fin 256) (v : Word) (s : State) :
    KeepsHold s (execStragLimitWrite part v s) := by simp [execStragLimitWrite]

@[simp] theorem keepsHold_execStragglerTimeout (part : Fin 256) (s : State) : KeepsHold s (execStragglerTimeout part s) := by
  unfold execStragglerTimeout
  dsimp only
  split <;> simp

@[simp] theorem holdView_zeroise (s : State) (n : Nat) : holdView (zeroise s n).parts = holdView s.parts := rfl

@[simp] theorem holdView_dropReds (s : State) (i : Nat) : holdView (dropReds s i).parts = holdView s.parts := rfl

@[simp] theorem keepsHold_execKeyEraseConfirm (slot : Fin 64) (die : Fin 16) (s : State) :
    KeepsHold s (execKeyEraseConfirm slot die s) := by
  unfold execKeyEraseConfirm
  dsimp only
  split
  · simp
  · simp
    split_ifs <;> simp [beginScrub]

@[simp] theorem holdView_scrubUnit (s : State) (u : ScrubUnit) : holdView (scrubUnit s u).parts = holdView s.parts := by
  unfold scrubUnit
  split <;> rfl

@[simp] theorem holdView_doneEvent (s : State) (d i : Nat) :
    holdView (doneEvent s d i).parts = holdView s.parts := by simp [doneEvent]

@[simp] theorem holdView_endUse (p : Nat) (strs : List Nat) (s : State) (u : ScrubUse) :
    holdView (endUse p strs s u).parts = holdView s.parts := by
  unfold endUse
  split <;> simp

@[simp] theorem holdView_endScrub (s : State) (p : Nat) :
    holdView (endScrub s p).parts = holdView s.parts := by simp [endScrub]

@[simp] theorem keepsHold_execScrubUnitDone (part : Fin 256) (s : State) : KeepsHold s (execScrubUnitDone part s) := by
  unfold execScrubUnitDone
  dsimp only
  split
  · simp
  · split
    · simp
    · split
      · split <;> simp
      · simp

end Sys2Proof.Machine
end

section
/-!
SUPPORT. What power, boot, registers, host commands and Bilsol ports leave of the state of each partition (R192).
-/
namespace Sys2Proof.Machine

/-! ## Strings, frequency and temperature -/

@[simp] theorem keepsHold_execPowerStateChange (die : Fin 8) (str : Fin 32) (s : State) :
    KeepsHold s (execPowerStateChange die str s) := by
  unfold execPowerStateChange
  dsimp only
  split <;> simp

@[simp] theorem keepsHold_execStrimbUpdate (die : Fin 8) (str : Fin 32) (i0 i1 i2 i3 : BitVec 16) (s : State) :
    KeepsHold s (execStrimbUpdate die str i0 i1 i2 i3 s) := by simp [execStrimbUpdate]

@[simp] theorem holdView_tellHost (s : State) (e : EventRec) :
    holdView (tellHost s e).parts = holdView s.parts := by simp [tellHost]

@[simp] theorem holdView_dieAlarm (s : State) (d : Nat) (e : EventRec) :
    holdView (dieAlarm s d e).parts = holdView s.parts := by simp [dieAlarm]

@[simp] theorem holdView_alarmFrec (s : State) (verdict d : Nat) (arg : Word) :
    holdView (alarmFrec s verdict d arg).parts = holdView s.parts := by simp [alarmFrec]

@[simp] theorem keepsHold_execRegulatorPhaseLost (die : Fin 8) (s : State) : KeepsHold s (execRegulatorPhaseLost die s) := by
  unfold execRegulatorPhaseLost
  dsimp only
  split <;> simp

@[simp] theorem holdView_writeRail (s : State) (d : Nat) (v : Word) :
    holdView (writeRail s d v).parts = holdView s.parts := by simp [writeRail]

@[simp] theorem keepsHold_execRailIlimWrite (die : Fin 8) (v : Word) (s : State) :
    KeepsHold s (execRailIlimWrite die v s) := by simp [execRailIlimWrite]

@[simp] theorem holdView_writeFreq (s : State) (d : Nat) (v : Word) :
    holdView (writeFreq s d v).parts = holdView s.parts := by simp [writeFreq]

@[simp] theorem keepsHold_execDvfsFreqWrite (die : Fin 8) (v : Word) (s : State) :
    KeepsHold s (execDvfsFreqWrite die v s) := by simp [execDvfsFreqWrite]

@[simp] theorem holdView_beginChange (s : State) (d : Nat) (hop : Bool) :
    holdView (beginChange s d hop).parts = holdView s.parts := rfl

@[simp] theorem keepsHold_execDvfsForce (die : Fin 8) (v : Word) (s : State) :
    KeepsHold s (execDvfsForce die v s) := by simp [execDvfsForce]

@[simp] theorem keepsHold_execDvfsApply (die : Fin 8) (s : State) : KeepsHold s (execDvfsApply die s) := by
  unfold execDvfsApply
  dsimp only
  split <;> simp

@[simp] theorem holdView_lateArith (s : State) (c : Nat) (r : ArithRec) :
    holdView (lateArith s c r).parts = holdView s.parts := by simp [lateArith]

@[simp] theorem holdView_deliverOne (s : State) (d : Delayed) : holdView (deliverOne s d).parts = holdView s.parts := by
  unfold deliverOne
  split
  · simp
  · simp
  · rfl

@[simp] theorem holdView_lateHandlers (c : Nat) (s : State) (g : Nat) :
    holdView (lateHandlers c s g).parts = holdView s.parts := by simp [lateHandlers]

@[simp] theorem holdView_stable (s : State) (d : Nat) : holdView (stable s d).parts = holdView s.parts := by simp [stable]

@[simp] theorem keepsHold_execClockStable (die : Fin 8) (s : State) : KeepsHold s (execClockStable die s) := by
  unfold execClockStable
  dsimp only
  split <;> simp

@[simp] theorem keepsHold_execDroopDetect (die : Fin 8) (str : Fin 32) (s : State) :
    KeepsHold s (execDroopDetect die str s) := by
  unfold execDroopDetect
  dsimp only
  split <;> simp

@[simp] theorem keepsHold_execDroopClear (die : Fin 8) (str : Fin 32) (s : State) :
    KeepsHold s (execDroopClear die str s) := by
  unfold execDroopClear
  dsimp only
  split <;> simp

@[simp] theorem holdView_setTemp (s : State) (d c : Nat) (temp : BitVec 16) :
    holdView (setTemp s d c temp).parts = holdView s.parts := by simp [setTemp]

@[simp] theorem keepsHold_execThermMigreq (die : Fin 8) (core : Fin 128) (temp : BitVec 16) (s : State) :
    KeepsHold s (execThermMigreq die core temp s) := by simp [execThermMigreq]

@[simp] theorem holdView_dropFreq (s : State) (d : Nat) :
    holdView (dropFreq s d).parts = holdView s.parts := by simp [dropFreq]

@[simp] theorem holdView_allHard (s : State) (d : Nat) : holdView (allHard s d).parts = holdView s.parts := by simp [allHard]

@[simp] theorem keepsHold_execThermalThrottle (die : Fin 8) (core : Fin 128) (temp : BitVec 16) (s : State) :
    KeepsHold s (execThermalThrottle die core temp s) := by
  unfold execThermalThrottle
  dsimp only
  split <;> simp

@[simp] theorem keepsHold_execThrottleRepeat (die : Fin 8) (s : State) : KeepsHold s (execThrottleRepeat die s) := by
  unfold execThrottleRepeat
  dsimp only
  split <;> simp

/-! ## Boot, keys and SPDM -/

@[simp] theorem holdView_bootFail (s : State) (cause die : Nat) :
    holdView (bootFail s cause die).parts = holdView s.parts := by simp [bootFail]

@[simp] theorem holdView_toRecovery (s : State) (cause : Nat) : holdView (toRecovery s cause).parts = holdView s.parts := rfl

@[simp] theorem holdView_releaseDie (digest : Option (BitVec 512)) (s : State) (d : Nat) :
    holdView (releaseDie digest s d).parts = holdView s.parts := by
  unfold releaseDie
  split
  · split <;> split <;> rfl
  · simp

@[simp] theorem holdView_bootShale (s : State) (img : List Byte) :
    holdView (bootShale s img).parts = holdView s.parts := by simp [bootShale]

@[simp] theorem holdView_bootFlint (s : State) (img : List Byte) :
    holdView (bootFlint s img).parts = holdView s.parts := by simp [bootFlint]

@[simp] theorem holdView_boot (s : State) (pushed : Byte) : holdView (boot s pushed).parts = holdView s.parts := by simp [boot]

@[simp] theorem holdView_freeTable (s : State) : holdView (freeTable s).parts = holdView s.parts := by simp [freeTable]

@[simp] theorem holdView_spdmReply (s : State) (code p1 p2 : Byte) (payload : List Byte) :
    holdView (spdmReply s code p1 p2 payload).parts = holdView s.parts := rfl

@[simp] theorem holdView_spdmError (s : State) (e : Byte) : holdView (spdmError s e).parts = holdView s.parts := rfl

@[simp] theorem holdView_modSession (s : State) (id : BitVec 32) (f : Session → Session) :
    holdView (modSession s id f).parts = holdView s.parts := rfl

@[simp] theorem keepsHold_negotiated (s t : State) (h : SameHold s t) : KeepsHold s (negotiated s t) := by
  unfold negotiated
  split_ifs
  · simpa using h
  · simp

@[simp] theorem keepsHold_execGetVersion (_m : SpdmMsg) (s : State) :
    KeepsHold s (execGetVersion _m s) := by simp [execGetVersion]

@[simp] theorem keepsHold_execGetCapabilities (m : SpdmMsg) (s : State) : KeepsHold s (execGetCapabilities m s) := by
  unfold execGetCapabilities
  split <;> simp

@[simp] theorem keepsHold_execNegotiateAlgorithms (m : SpdmMsg) (s : State) : KeepsHold s (execNegotiateAlgorithms m s) := by
  unfold execNegotiateAlgorithms
  split <;> simp

@[simp] theorem keepsHold_execGetDigests (m : SpdmMsg) (s : State) :
    KeepsHold s (execGetDigests m s) := by simp [execGetDigests]

@[simp] theorem keepsHold_execGetCertificate (m : SpdmMsg) (s : State) :
    KeepsHold s (execGetCertificate m s) := by simp [execGetCertificate]

@[simp] theorem keepsHold_execSpdmChallenge (m : SpdmMsg) (s : State) :
    KeepsHold s (execSpdmChallenge m s) := by simp [execSpdmChallenge]

@[simp] theorem keepsHold_execGetMeasurements (m : SpdmMsg) (s : State) :
    KeepsHold s (execGetMeasurements m s) := by simp [execGetMeasurements]

@[simp] theorem keepsHold_execKeyExchange (m : SpdmMsg) (s : State) :
    KeepsHold s (execKeyExchange m s) := by simp [execKeyExchange]

@[simp] theorem keepsHold_execSpdmFinish (m : SpdmMsg) (s : State) : KeepsHold s (execSpdmFinish m s) := by
  unfold execSpdmFinish
  split
  · simp
  · split
    · simp
    · split <;> simp

@[simp] theorem keepsHold_withinSession (s : State) (m : SpdmMsg) (t : State) (h : SameHold s t) :
    KeepsHold s (withinSession s m t) := by
  unfold withinSession
  split_ifs
  · simpa using h
  · simp

@[simp] theorem keepsHold_execSpdmHeartbeat (m : SpdmMsg) (s : State) :
    KeepsHold s (execSpdmHeartbeat m s) := by simp [execSpdmHeartbeat]

@[simp] theorem keepsHold_execKeyUpdate (m : SpdmMsg) (s : State) : KeepsHold s (execKeyUpdate m s) := by simp [execKeyUpdate]

@[simp] theorem keepsHold_execEndSession (m : SpdmMsg) (s : State) :
    KeepsHold s (execEndSession m s) := by simp [execEndSession]

@[simp] theorem keepsHold_execSpdmUnsupportedRequest (_m : SpdmMsg) (s : State) :
    KeepsHold s (execSpdmUnsupportedRequest _m s) := by simp [execSpdmUnsupportedRequest]

@[simp] theorem keepsHold_execVendorDefinedRequest (m : SpdmMsg) (slot : Fin 64) (exp : Bool) (s : State) :
    KeepsHold s (execVendorDefinedRequest m slot exp s) := by simp [execVendorDefinedRequest]

@[simp] theorem keepsHold_respond (k : Nat) (m : SpdmMsg) (slot : Fin 64) (exp : Bool) (s : State) :
    KeepsHold s (respond k m slot exp s) := by
  unfold respond
  split <;> simp

@[simp] theorem holdView_callBack (s : State) (tid : BitVec 48) : holdView (callBack s tid).parts = holdView s.parts := rfl

@[simp] theorem holdView_parkHeld (s : State) (tid : BitVec 48) (cause : Option Byte) :
    holdView (parkHeld s tid cause).parts = holdView s.parts := by
  unfold parkHeld
  split
  · simp
  · rfl

@[simp] theorem keepsHold_execCollectiveRegister (id : Nat) (tid : BitVec 48) (members : List (BitVec 18))
    (sessions : List (Nat × Nat × Nat)) (s : State) :
    KeepsHold s (execCollectiveRegister id tid members sessions s) := by
  unfold execCollectiveRegister
  dsimp only
  split <;> simp

@[simp] theorem keepsHold_execCollectiveMemberChanged (id : Nat) (member : BitVec 18) (s : State) :
    KeepsHold s (execCollectiveMemberChanged id member s) := by simp [execCollectiveMemberChanged]

/-! ## Registers -/

@[simp] theorem holdView_writeDvfs (s : State) (d : Fin 8) (v : Word) :
    holdView (writeDvfs s d v).parts = holdView s.parts := by
  unfold writeDvfs
  refine holdView_after ?_
  split_ifs
  · exact keepsHold_execDvfsForce d v s
  · exact keepsHold_execDvfsFreqWrite d v s

@[simp] theorem holdView_writeFlogCtl (s : State) (c : Nat) (v : Word) :
    holdView (writeFlogCtl s c v).parts = holdView s.parts := rfl

@[simp] theorem holdView_writeLanectl (s : State) (i : Nat) (v : Word) :
    holdView (writeLanectl s i v).parts = holdView s.parts := by simp [writeLanectl]

@[simp] theorem holdView_writeXfctl (s : State) (p : Fin 256) (v : Word) :
    holdView (writeXfctl s p v).parts = holdView s.parts := by
  unfold writeXfctl
  split_ifs
  · simp
  · exact holdView_after (keepsHold_execXfctlAbandon p s)
  · rfl

@[simp] theorem holdView_writeCtxCtl (s : State) (p : Nat) (v : Word) :
    holdView (writeCtxCtl s p v).parts = holdView s.parts := by
  unfold writeCtxCtl
  split
  · simp
  · simp
  · simp
  · rfl

@[simp] theorem holdView_writeFrecCtl (s : State) (v : Word) : holdView (writeFrecCtl s v).parts = holdView s.parts := rfl

@[simp] theorem holdView_writeWdog (s : State) (p : Nat) (v : Word) :
    holdView (writeWdog s p v).parts = holdView s.parts := by simp [writeWdog]

@[simp] theorem holdView_kickMcwd (s : State) (d : Nat) (v : Word) :
    holdView (kickMcwd s d v).parts = holdView s.parts := by simp [kickMcwd]

@[simp] theorem holdView_writeMcwd (s : State) (d : Nat) (v : Word) :
    holdView (writeMcwd s d v).parts = holdView s.parts := by simp [writeMcwd]

@[simp] theorem holdView_writeDevnum (s : State) (v : Word) :
    holdView (writeDevnum s v).parts = holdView s.parts := by simp [writeDevnum]

@[simp] theorem holdView_setPeerrx (s : State) (e : Nat) (b l : Word) :
    holdView (setPeerrx s e b l).parts = holdView s.parts := by simp [setPeerrx]

@[simp] theorem holdView_writePeerrx (s : State) (e field : Nat) (v : Word) :
    holdView (writePeerrx s e field v).parts = holdView s.parts := by
  unfold writePeerrx
  split <;> simp

/-! ## Host commands -/

@[simp] theorem holdView_takeCmd (s : State) (op : Byte) (c : HostCmd) : holdView (takeCmd s op c).parts = holdView s.parts := rfl

@[simp] theorem holdView_answerCmd (op : Byte) (c : HostCmd) (x : State × Reply) :
    holdView (answerCmd op c x).parts = holdView x.1.parts := rfl

@[simp] theorem keepsHold_runCmd (op : Byte) (c : HostCmd) (ready : State → Bool) (f : State → State × Reply) (s : State)
    (hf : ∀ s, SameHold s (f s).1) :
    KeepsHold s (runCmd op c ready f s) := by
  unfold runCmd
  rw [keepsHold_next, holdView_answerCmd, holdView_ite_fst, holdView_ite_fst, (sameHold_iff _ _).mp (hf _), holdView_takeCmd,
    ite_self, ite_self]

@[simp] theorem keepsHold_execHostIdent (c : HostCmd) (s : State) : KeepsHold s (execHostIdent c s) := by simp [execHostIdent]

@[simp] theorem keepsHold_execHostStatus (c : HostCmd) (s : State) :
    KeepsHold s (execHostStatus c s) := by simp [execHostStatus]

@[simp] theorem keepsHold_execHostRead (c : HostCmd) (s : State) : KeepsHold s (execHostRead c s) := by simp [execHostRead]

@[simp] theorem holdView_writeClass9 (s : State) (pa : Nat) (bs : List Byte) :
    holdView (writeClass9 s pa bs).1.parts = holdView s.parts := by simp [writeClass9]

@[simp] theorem holdView_submit (s : State) (va mask : Word) : holdView (submit s va mask).1.parts = holdView s.parts := by
  unfold submit
  split
  · rfl
  · dsimp only
    split
    · rfl
    · split
      · rfl
      · simp

@[simp] theorem keepsHold_execHostSubmit (c : HostCmd) (s : State) :
    KeepsHold s (execHostSubmit c s) := by simp [execHostSubmit]

@[simp] theorem keepsHold_execHostResult (c : HostCmd) (s : State) :
    KeepsHold s (execHostResult c s) := by simp [execHostResult]

@[simp] theorem holdView_joinFragment (s : State) (bs : List Byte) :
    holdView (joinFragment s bs).parts = holdView s.parts := by
  unfold joinFragment
  dsimp only
  split
  · rfl
  · exact holdView_after (keepsHold_respond _ _ _ _ _)

@[simp] theorem holdView_carrySpdm (s : State) (bs : List Byte) :
    holdView (carrySpdm s bs).1.parts = holdView s.parts := by simp [carrySpdm]

@[simp] theorem keepsHold_execHostSpdm (c : HostCmd) (s : State) : KeepsHold s (execHostSpdm c s) := by simp [execHostSpdm]

@[simp] theorem keepsHold_execHostPush (c : HostCmd) (s : State) : KeepsHold s (execHostPush c s) := by simp [execHostPush]

@[simp] theorem keepsHold_execHostTimeset (c : HostCmd) (s : State) :
    KeepsHold s (execHostTimeset c s) := by simp [execHostTimeset]

@[simp] theorem keepsHold_execHostUnknownOp (op : Byte) (c : HostCmd) (s : State) :
    KeepsHold s (execHostUnknownOp op c s) := by
  unfold execHostUnknownOp
  split <;> simp

@[simp] theorem keepsHold_execWdogWrite (part : Fin 256) (v : Word) (s : State) :
    KeepsHold s (execWdogWrite part v s) := by simp [execWdogWrite]

@[simp] theorem keepsHold_execMcwdKick (die : Fin 8) (v : Word) (s : State) :
    KeepsHold s (execMcwdKick die v s) := by simp [execMcwdKick]

/-! ## Bilsol ports and peers -/

@[simp] theorem keepsHold_execDevnumWrite (v : Word) (s : State) :
    KeepsHold s (execDevnumWrite v s) := by simp [execDevnumWrite]

@[simp] theorem holdView_setPortReg (s : State) (n : Nat) (v : Word) :
    holdView (setPortReg s n v).parts = holdView s.parts := rfl

@[simp] theorem holdView_portDown (s : State) (port : Nat) : holdView (portDown s port).parts = holdView s.parts := rfl

@[simp] theorem keepsHold_execBilsolPortStateChange (port : Fin 16) (st : Fin 4) (peer : BitVec 18) (s : State) :
    KeepsHold s (execBilsolPortStateChange port st peer s) := by
  unfold execBilsolPortStateChange
  split <;> simp

@[simp] theorem keepsHold_execFrameTagFailure (port : Fin 16) (s : State) :
    KeepsHold s (execFrameTagFailure port s) := by simp [execFrameTagFailure]

@[simp] theorem keepsHold_execPtpSync (port : Fin 16) (offset : BitVec 32) (s : State) :
    KeepsHold s (execPtpSync port offset s) := by
  unfold execPtpSync
  split
  · dsimp only
    split <;> simp
  · dsimp only
    split <;> simp

@[simp] theorem holdView_storePush (dst lcore : Nat) (seq : Word) (i : Nat) (l : List PushLine) (s : State) :
    holdView (storePush dst lcore seq i l s).parts = holdView s.parts := by
  induction l generalizing i s with
  | nil => rfl
  | cons l r ih => exact (ih _ _).trans rfl

@[simp] theorem keepsHold_execPeerPushReceive (src : BitVec 18) (dst : BitVec 46) (seq : Word) (lcore : BitVec 10)
    (lines : List PushLine) (s : State) :
    KeepsHold s (execPeerPushReceive src dst seq lcore lines s) := by
  unfold execPeerPushReceive
  split <;> simp

@[simp] theorem keepsHold_execPeerrxWrite (entry : Fin 16) (field : Fin 3) (v : Word) (s : State) :
    KeepsHold s (execPeerrxWrite entry field v s) := by simp [execPeerrxWrite]

end Sys2Proof.Machine
end

section
/-!
SUPPORT. The events that order a partition into another phase state, or towards HELD, keep the rule of R192: one that aborts is not about
to be held.
-/
namespace Sys2Proof.Machine

/-! ## The rule of R192 -/

/-- A partition that aborts is not about to be held. -/
def NoHeldAbort (x : PhState × Option PhState) : Prop := x.1 = .aborting → x.2 = none

/-- A change of the state that keeps the rule in every partition in which it holds. -/
structure Calm (s t : State) : Prop where
  part : ∀ p, NoHeldAbort (holdView s.parts p) → NoHeldAbort (holdView t.parts p)

/-- An outcome that keeps it. -/
def KeepsCalm (s : State) (o : Out) : Prop := ∀ t, o = .next t → Calm s t

theorem Calm.refl (s : State) : Calm s s := ⟨fun _ h => h⟩

theorem Calm.trans {s t u : State} (h : Calm s t) (h' : Calm t u) : Calm s u := ⟨fun p hp => h'.part p (h.part p hp)⟩

theorem Calm.next {s t : State} (h : Calm s t) : KeepsCalm s (.next t) := fun u hu => by
  cases hu
  exact h

theorem calm_of_eq {s t : State} (h : holdView t.parts = holdView s.parts) : Calm s t :=
  ⟨fun p hp => by rw [h]; exact hp⟩

theorem KeepsHold.calm {s : State} {o : Out} (h : KeepsHold s o) : KeepsCalm s o := fun t ht => calm_of_eq (h t ht)

theorem noHeldAbort_of_st {s : State} {p : Nat} (h : (getPart s p).st ≠ .aborting) : NoHeldAbort (holdView s.parts p) :=
  fun ha => absurd ha h

theorem calm_foldl {α : Type} {f : State → α → State} (h : ∀ s x, Calm s (f s x)) (l : List α) (s : State) :
    Calm s (l.foldl f s) := by
  induction l generalizing s with
  | nil => exact Calm.refl s
  | cons x l ih => exact (h s x).trans (ih _)

theorem calm_ite {c : Prop} [Decidable c] {s t u : State} (ht : Calm s t) (hu : Calm s u) : Calm s (if c then t else u) := by
  split_ifs
  · exact ht
  · exact hu

theorem calm_ite_fst {α : Type} {c : Prop} [Decidable c] {s : State} {x y : State × α} (hx : Calm s x.1) (hy : Calm s y.1) :
    Calm s (if c then x else y).1 := by
  split_ifs
  · exact hx
  · exact hy

theorem keepsCalm_ite {c : Prop} [Decidable c] {s : State} {x y : Out} (hx : KeepsCalm s x) (hy : KeepsCalm s y) :
    KeepsCalm s (if c then x else y) := by
  split_ifs
  · exact hx
  · exact hy

theorem calm_after {s : State} {o : Out} (h : KeepsCalm s o) : Calm s (after s o) := by
  cases o with
  | next t => exact h t rfl
  | fault f => exact Calm.refl s
  | refused r => exact Calm.refl s

theorem calm_modPart (s : State) (p : Nat) (f : Part → Part)
    (h : NoHeldAbort ((getPart s p).st, (getPart s p).holding) → NoHeldAbort ((f (getPart s p)).st, (f (getPart s p)).holding)) :
    Calm s (modPart s p f) := by
  constructor
  intro q
  unfold holdView modPart
  dsimp only
  by_cases hq : q = p
  · subst hq
    rw [spGet_spSet_self]
    exact h
  · rw [spGet_spSet_ne _ _ _ hq]
    exact id

/-- An order into a state other than ABORTING keeps the rule, whatever it does to HELD. -/
theorem calm_modPart_st {f : Part → Part} (v : PhState) (s : State) (p : Nat) (hst : ∀ x, (f x).st = v) (hv : v ≠ .aborting) :
    Calm s (modPart s p f) :=
  calm_modPart s p f fun _ ha => absurd ((hst _).symm.trans ha) hv

theorem calm_modCore (s : State) (c : Nat) (f : Core → Core) : Calm s (modCore s c f) := calm_of_eq rfl

theorem calm_modGran (s : State) (f : Granite → Granite) : Calm s (modGran s f) := calm_of_eq rfl

theorem calm_postHost (s : State) (e : EventRec) : Calm s (postHost s e) :=
  calm_of_eq (congrArg holdView (postHost_parts s e))

theorem keepsCalm_runCmd (op : Byte) (c : HostCmd) (ready : State → Bool) {f : State → State × Reply} (s : State)
    (hf : ∀ s, Calm s (f s).1) : KeepsCalm s (runCmd op c ready f s) := by
  have htake := calm_of_eq (holdView_takeCmd s op c)
  unfold runCmd
  refine Calm.next (Calm.trans ?_ (calm_of_eq (holdView_answerCmd op c _)))
  split_ifs
  · exact htake
  · exact htake.trans (hf _)
  · exact htake

theorem scrubOnly_st (keep : Bool) (x : Part) : (scrubOnly keep x).st = .idle := by
  unfold scrubOnly
  split_ifs <;> rfl

/-! ## Aborts, starts and holds -/

/-- An abort drops the state in which the partition was about to be held. -/
theorem calm_abortPart (s : State) (p : Nat) : Calm s (abortPart s p) := by
  unfold abortPart
  dsimp only
  split_ifs
  · exact Calm.refl s
  · exact calm_modPart s p _ fun _ _ => rfl

theorem calm_beginTask (s : State) (p : Nat) : Calm s (beginTask s p) := by
  unfold beginTask
  refine Calm.trans (calm_of_eq (holdView_latchPower s p 0)) ?_
  exact calm_modPart_st .compute _ p (fun _ => rfl) (by decide)

theorem calm_startBinds (s : State) (p : Nat) : Calm s (startBinds s p) :=
  (calm_of_eq (by simp)).trans (calm_beginTask _ p)

theorem calm_launchTask (s : State) (d p : Nat) (va : Word) (r : LrRaw) : Calm s (launchTask s d p va r) := by
  unfold launchTask
  dsimp only
  have hfresh := calm_modPart_st (f := fun x => freshPart x s.gran.taskCtr r.strings ((mapOf s d p r.mapVa r.strings).getD []) (r.keep va)
    ((r.keep va).timed && decide ((r.keep va).start.toNat < s.time)) s.time) .idle s p (fun _ => rfl) (by decide)
  split_ifs
  · exact hfresh.trans (calm_of_eq (by simp))
  · exact hfresh.trans (calm_of_eq (by simp))
  · exact (hfresh.trans (calm_of_eq (by simp))).trans (calm_startBinds _ p)
  · exact (hfresh.trans (calm_of_eq (by simp))).trans (calm_startBinds _ p)

theorem keepsCalm_execDispatch (part : Fin 256) (s : State) : KeepsCalm s (execDispatch part s) := by
  unfold execDispatch
  dsimp only
  split
  · exact (Calm.refl s).next
  · split
    · exact (Calm.refl s).next
    · split
      · exact (calm_of_eq (by simp)).next
      · split
        · exact (calm_of_eq (by simp)).next
        · exact (calm_launchTask _ _ _ _ _).next

theorem keepsCalm_execTimedStart (part : Fin 256) (die : Fin 8) (s : State) : KeepsCalm s (execTimedStart part die s) := by
  unfold execTimedStart
  dsimp only
  split
  · refine (Calm.trans ?_ (calm_startBinds _ _)).next
    exact calm_of_eq rfl
  · exact (Calm.refl s).next

/-- `toHold` leaves a partition that aborts as it is. -/
theorem calm_toHold (s : State) (p : Nat) (r : PhState) : Calm s (toHold s p r) := by
  refine calm_modPart s p _ fun h => ?_
  split_ifs with ha
  · exact h
  · exact fun hst => absurd hst ha

theorem calm_resumeHeld (s : State) (p : Nat) : Calm s (resumeHeld s p) := by
  unfold resumeHeld
  dsimp only
  split_ifs
  · exact calm_modPart s p _ fun _ _ => rfl
  · exact Calm.refl s

theorem keepsCalm_execCtxOpComplete (part : Fin 256) (s : State) : KeepsCalm s (execCtxOpComplete part s) := by
  unfold execCtxOpComplete
  split
  · exact (Calm.refl s).next
  all_goals exact ((calm_of_eq (by simp)).trans (calm_resumeHeld _ _)).next

theorem keepsCalm_execPhCtlDiscard (part : Fin 256) (s : State) : KeepsCalm s (execPhCtlDiscard part s) := by
  unfold execPhCtlDiscard
  dsimp only
  split
  · exact KeepsHold.calm (by simp)
  · split_ifs
    · exact KeepsHold.calm (by simp)
    · exact ((calm_of_eq (by simp)).trans (calm_toHold _ _ _)).next
    · exact KeepsHold.calm (by simp)

/-! ## Failed audits and rollbacks -/

theorem calm_answerFailure (s : State) (p : Nat) (f : Failed) : Calm s (answerFailure s p f) := by
  unfold answerFailure
  dsimp only
  split_ifs
  · exact Calm.trans ((calm_of_eq (by simp)).trans (calm_abortPart _ p)) (calm_modPart _ p _ fun h => h)
  · exact (calm_of_eq (by simp)).trans (calm_modPart _ p _ fun _ _ => rfl)

theorem calm_settleFailure (s : State) (p : Nat) : Calm s (settleFailure s p) := by
  unfold settleFailure
  split
  · exact calm_answerFailure s p _
  · exact Calm.refl s

theorem calm_recordFailed (s : State) (r : WitRec) (e : FrecEnt) : Calm s (recordFailed s r e) := by
  unfold recordFailed
  dsimp only
  split
  · exact calm_of_eq (by simp)
  · split
    · split <;> exact calm_of_eq (by simp)
    · split
      · exact (calm_of_eq (by simp)).trans (calm_settleFailure _ _)
      · split
        · exact calm_of_eq (by simp)
        · split
          · exact Calm.trans ((calm_of_eq (by simp)).trans (calm_settleFailure _ _)) (calm_of_eq (holdView_addFrec _ _))
          · exact calm_of_eq (by simp)

theorem keepsCalm_execWitnessRecordTest (num : Nat) (s : State) : KeepsCalm s (execWitnessRecordTest num s) := by
  unfold execWitnessRecordTest
  dsimp only
  split
  · exact (Calm.refl s).next
  · split_ifs
    · exact (Calm.refl s).next
    · split
      · exact (calm_of_eq (by simp)).next
      · refine (calm_of_eq ?_).next
        split <;> simp
      · refine (Calm.trans (calm_of_eq ?_) (calm_recordFailed _ _ _)).next
        split <;> simp

theorem calm_rollGens (s : State) (p c : Nat) : Calm s (rollGens s p c) := by
  unfold rollGens
  exact (calm_of_eq (by simp)).trans (calm_modPart _ p _ fun _ _ => rfl)

theorem calm_rollResume (s : State) (p : Nat) (f : Failed) (k : Ckpt) : Calm s (rollResume s p f k) := by
  unfold rollResume
  dsimp only
  refine Calm.trans (Calm.trans ?_ (calm_modPart _ p _ fun _ => ?_)) (calm_of_eq (holdView_testCores _ p))
  · exact calm_of_eq (by simp)
  · split_ifs <;> exact fun h => nomatch h

theorem calm_rollMove (s : State) (p : Nat) (f : Failed) : Calm s (rollMove s p f) := by
  unfold rollMove
  dsimp only
  refine Calm.trans (Calm.trans ?_ (calm_modGran _ _)) (calm_of_eq (holdView_moveStrings _ _ _))
  split
  · exact Calm.trans ((calm_of_eq (by simp)).trans (calm_rollGens _ p _)) (calm_modGran _ _)
  · exact (calm_of_eq (by simp)).trans (calm_rollGens _ p _)

theorem calm_rollBack (s : State) (p : Nat) (f : Failed) : Calm s (rollBack s p f) := by
  unfold rollBack
  dsimp only
  split_ifs
  · exact (calm_rollMove s p f).trans ((calm_of_eq (by simp)).trans (calm_rollResume _ p f _))
  · split
    next hu => exact (calm_rollMove s p f).trans ((calm_of_eq (holdView_rollRestore hu)).trans (calm_rollResume _ p f _))
    · exact Calm.trans ((calm_rollMove s p f).trans (calm_abortPart _ p)) (calm_modPart _ p _ fun h => h)

theorem keepsCalm_execRollback (part : Fin 256) (s : State) : KeepsCalm s (execRollback part s) := by
  unfold execRollback
  dsimp only
  split
  · exact (Calm.refl s).next
  · split_ifs
    · exact (calm_rollBack s part _).next
    · exact (Calm.refl s).next
    · exact (calm_settleFailure s part).next

/-! ## Flips, HELD and the end of a task -/

theorem calm_openAndAdvance (s : State) (p : Nat) : Calm s (openAndAdvance s p) := by
  unfold openAndAdvance
  dsimp only
  split_ifs
  · exact (calm_of_eq (by simp)).trans (calm_toHold _ _ _)
  · exact (calm_of_eq (by simp)).trans (calm_modPart_st .exchange _ _ (fun _ => rfl) (by decide))

theorem keepsCalm_execFlipX (part : Fin 256) (s : State) : KeepsCalm s (execFlipX part s) := by
  unfold execFlipX
  dsimp only
  split
  · exact (Calm.refl s).next
  · split
    · split
      · refine (Calm.trans ?_ (calm_modPart_st .flipX _ _ (fun _ => rfl) (by decide))).next
        exact calm_of_eq (by simp)
      · exact (Calm.refl s).next
    · split
      · exact (Calm.refl s).next
      · split
        · exact keepsCalm_ite (Calm.refl s).next (calm_of_eq (holdView_migrate s _ _ _)).next
        · exact (calm_openAndAdvance s _).next

theorem calm_beginCompute (s : State) (p : Nat) : Calm s (beginCompute s p) :=
  Calm.trans ((calm_of_eq (holdView_advancePhase s p)).trans (calm_modPart_st .compute _ p (fun _ => rfl) (by decide)))
    (calm_of_eq (holdView_testCores _ p))

theorem calm_flipToCompute (s : State) (p k : Nat) : Calm s (flipToCompute s p k) := by
  unfold flipToCompute
  dsimp only
  split_ifs
  · exact calm_of_eq (by simp)
  · exact calm_of_eq (by simp)
  all_goals exact (calm_of_eq (by simp)).trans (calm_beginCompute _ p)

theorem keepsCalm_execFlipC (part : Fin 256) (s : State) : KeepsCalm s (execFlipC part s) := by
  have hend := holdView_endExchange s part.val
  unfold execFlipC
  dsimp only
  split
  · exact (Calm.refl s).next
  · split
    · split
      · exact (Calm.refl s).next
      · split
        next hu =>
          rw [hu] at hend
          exact (calm_of_eq hend).next
        next hu =>
          rw [hu] at hend
          split
          · exact ((calm_of_eq hend).trans (calm_toHold _ _ _)).next
          · exact (((calm_of_eq hend).trans (calm_modPart_st .flipC _ _ (fun _ => rfl) (by decide))).trans (calm_settleFailure _ _)).next
    · split
      · split
        · exact (calm_settleFailure s _).next
        · exact (calm_flipToCompute s _ _).next
      · exact (Calm.refl s).next

theorem keepsCalm_execHeldEntry (part : Fin 256) (s : State) : KeepsCalm s (execHeldEntry part s) := by
  unfold execHeldEntry
  split
  · exact (Calm.refl s).next
  · split_ifs
    · exact ((calm_modPart _ _ _ fun _ _ => rfl).trans (calm_settleFailure _ _)).next
    · exact (Calm.refl s).next

theorem keepsCalm_execPhCtlHold (part : Fin 256) (hold : Bool) (s : State) : KeepsCalm s (execPhCtlHold part hold s) := by
  have hset : Calm s (modPart s part fun x => { x with hold := hold }) := calm_of_eq (by simp)
  unfold execPhCtlHold
  dsimp only
  split_ifs
  · exact hset.next
  · split
    · exact (hset.trans (calm_modPart _ _ _ fun _ _ => rfl)).next
    · exact (hset.trans (calm_resumeHeld _ _)).next

theorem keepsCalm_execPhCtlAbort (part : Fin 256) (s : State) : KeepsCalm s (execPhCtlAbort part s) :=
  (calm_abortPart s part).next

theorem calm_finishTask (s : State) (p status : Nat) : Calm s (finishTask s p status) := by
  constructor
  intro q hq
  by_cases h : q = p
  · obtain ⟨_, _, _, _, hpart⟩ := getPart_finishTask s p status
    subst h
    exact noHeldAbort_of_st (by rw [hpart]; exact fun h => nomatch h)
  · have hpart := getPart_finishTask_ne s status h
    show NoHeldAbort ((getPart (finishTask s p status) q).st, (getPart (finishTask s p status) q).holding)
    rw [hpart]
    exact hq

theorem keepsCalm_execFinalStart (part : Fin 256) (s : State) : KeepsCalm s (execFinalStart part s) := by
  unfold execFinalStart
  dsimp only
  split
  · refine Calm.next (calm_ite (Calm.trans ?_ (calm_toHold _ _ _)) ?_)
    all_goals
      refine Calm.trans ?_ (calm_modPart_st .final _ _ (fun _ => rfl) (by decide))
      exact calm_of_eq (by simp)
  · exact (Calm.refl s).next

theorem keepsCalm_execTaskComplete (part : Fin 256) (s : State) : KeepsCalm s (execTaskComplete part s) := by
  have hend := holdView_endExchange s part.val
  unfold execTaskComplete
  dsimp only
  split
  · split
    · exact (calm_finishTask s _ _).next
    · exact (Calm.refl s).next
  · split
    · exact (calm_finishTask s _ _).next
    · split
      · exact (Calm.refl s).next
      · split
        · split
          · exact (Calm.refl s).next
          · split
            next hu =>
              rw [hu] at hend
              exact (calm_of_eq hend).next
            next hu =>
              rw [hu] at hend
              have hs := ((calm_of_eq hend).trans (calm_modPart _ part.val (fun x => { x with finalDone := true }) fun h => h)).trans
                (calm_settleFailure _ part.val)
              split
              · exact (hs.trans (calm_toHold _ _ _)).next
              · exact hs.next
        · split
          · exact (calm_settleFailure s _).next
          · split
            · exact (calm_finishTask s _ _).next
            · exact (Calm.refl s).next

/-! ## Trips, resets and the host -/

theorem keepsCalm_execThermalTrip (die : Fin 8) (core : Fin 128) (temp : BitVec 16) (s : State) :
    KeepsCalm s (execThermalTrip die core temp s) := by
  unfold execThermalTrip
  dsimp only
  split
  · exact (calm_of_eq (by simp)).next
  · refine (Calm.trans ?_ (calm_of_eq (holdView_refreshPower _ _))).next
    refine Calm.trans ?_ (calm_foldl (fun s i => calm_modCore s _ _) _ _)
    refine Calm.trans ?_ (calm_foldl (fun s p => calm_abortPart s p) _ _)
    exact calm_of_eq (by simp)

theorem calm_afterReset (s : State) : Calm s (afterReset s) := by
  constructor
  intro q _
  refine noHeldAbort_of_st ?_
  have hpart (ps : Sparse Part) : spGet Part.zero (ps.map fun e => (e.1, scrubOnly false e.2)) q = scrubOnly false (spGet Part.zero ps q) :=
    spGet_map_snd rfl ps q
  unfold afterReset getPart
  dsimp only
  rw [hpart, scrubOnly_st]
  exact fun h => nomatch h

theorem calm_resetAndBoot (s : State) (pushed : Byte) : Calm s (resetAndBoot s pushed) :=
  (calm_of_eq (holdView_freeTable s)).trans ((calm_afterReset _).trans (calm_of_eq (by simp [resetAndBoot])))

theorem keepsCalm_execDeviceReset (s : State) : KeepsCalm s (execDeviceReset s) :=
  (calm_resetAndBoot s 0).next

theorem keepsCalm_execRecoveryVerificationResult (s : State) : KeepsCalm s (execRecoveryVerificationResult s) := by
  unfold execRecoveryVerificationResult
  dsimp only
  split_ifs
  · split
    · exact (Calm.trans ((calm_of_eq (by simp)).trans (calm_resetAndBoot _ _)) (calm_postHost _ _)).next
    · exact KeepsHold.calm (by simp)
  · exact (Calm.refl s).next

theorem calm_resetPackage (s : State) : Calm s (resetPackage s) := by
  constructor
  intro q _
  refine noHeldAbort_of_st ?_
  have hpart (ps : Sparse Part) : spGet Part.zero (ps.map fun e => (e.1, resetPart e.2)) q = resetPart (spGet Part.zero ps q) :=
    spGet_map_snd rfl ps q
  unfold resetPackage getPart
  dsimp only
  rw [hpart, resetPart, scrubOnly_st]
  exact fun h => nomatch h

theorem keepsCalm_execPcieFunctionLevelReset (s : State) : KeepsCalm s (execPcieFunctionLevelReset s) :=
  (calm_resetPackage s).next

theorem calm_writePhCtl (s : State) (p : Fin 256) (v : Word) : Calm s (writePhCtl s p v) := by
  unfold writePhCtl
  dsimp only
  refine Calm.trans ?_ (calm_ite (calm_after (keepsCalm_execPhCtlAbort p _)) (Calm.refl _))
  refine Calm.trans ?_ (calm_ite (calm_after (keepsCalm_execPhCtlDiscard p _)) (Calm.refl _))
  refine Calm.trans ?_ (calm_after (keepsCalm_execPhCtlHold p _ _))
  exact calm_ite (calm_of_eq (holdView_after (keepsHold_execPhCtlStragClear p s))) (Calm.refl s)

theorem calm_writeMReg (s : State) (r : MReg) (i : Nat) (v : Word) : Calm s (writeMReg s r i v) := by
  cases r with
  | phCtl => exact calm_writePhCtl s _ v
  | migctl => exact calm_of_eq (holdView_after (keepsHold_execMigctlGo _ v s))
  | _ => exact calm_of_eq (by simp [writeMReg])

theorem keepsCalm_execRegisterWrite (r : MReg) (inst : Nat) (v : Word) (s : State) :
    KeepsCalm s (execRegisterWrite r inst v s) := by
  unfold execRegisterWrite
  split_ifs
  · exact (calm_writeMReg s r inst v).next
  · exact (Calm.refl s).next

theorem calm_writeClass3 (s : State) (a : Word) (bs : List Byte) : Calm s (writeClass3 s a bs).1 := by
  unfold writeClass3
  dsimp only
  split
  · exact Calm.refl s
  · refine calm_ite_fst (Calm.refl s) (calm_ite_fst (Calm.refl s) (calm_ite_fst ?_ ?_))
    · split_ifs <;> dsimp only
      · exact calm_of_eq (holdView_setPeerrx _ _ _ _)
      · exact calm_writeMReg s _ _ _
      · exact calm_of_eq (holdView_writePeerrx _ _ _ _)
      · exact calm_of_eq (holdView_writePeerrx _ _ _ _)
      · exact Calm.refl s
    · exact calm_ite_fst (Calm.refl s) (calm_writeMReg s _ _ _)

theorem keepsCalm_execHostWrite (c : HostCmd) (s : State) : KeepsCalm s (execHostWrite c s) := by
  refine keepsCalm_runCmd _ _ _ s fun s => ?_
  dsimp only
  split_ifs
  · exact calm_writeClass3 s _ _
  · exact calm_of_eq (by simp)
  · exact Calm.refl s
  · exact Calm.refl s

theorem calm_hostReset (c : HostCmd) (s : State) : Calm s (hostReset c s).1 := by
  unfold hostReset
  split_ifs
  · exact calm_resetPackage s
  · exact calm_abortPart s _
  · exact Calm.refl s

theorem keepsCalm_execHostResetPartition (c : HostCmd) (s : State) : KeepsCalm s (execHostResetPartition c s) :=
  keepsCalm_runCmd _ _ _ s (calm_hostReset c)

theorem keepsCalm_execHostResetPackage (c : HostCmd) (s : State) : KeepsCalm s (execHostResetPackage c s) :=
  keepsCalm_runCmd _ _ _ s (calm_hostReset c)

theorem keepsCalm_execWdogExpire (part : Fin 256) (s : State) : KeepsCalm s (execWdogExpire part s) := by
  have hset : ∀ t : Nat, Calm s (postHost (modPart { s with time := t } part fun x =>
      { x with wdog := setFld x.wdog 63 63 1, wdogDone := true }) (hostEvent s 4 part 0)) := fun t => calm_of_eq (by simp)
  unfold execWdogExpire
  dsimp only
  split_ifs
  · refine Calm.next ?_
    split
    · exact calm_of_eq (by simp)
    · exact (calm_of_eq (by simp)).trans (calm_abortPart _ _)
    · exact (calm_of_eq (by simp)).trans (calm_abortPart _ _)
    · exact (calm_of_eq (by simp)).trans (calm_resetPackage _)
  · exact (Calm.refl s).next

theorem keepsCalm_execMcwdExpire (die : Fin 8) (s : State) : KeepsCalm s (execMcwdExpire die s) := by
  unfold execMcwdExpire
  dsimp only
  split_ifs
  · refine (Calm.trans (Calm.trans ?_ (calm_foldl (fun s p => calm_abortPart s p) _ _)) (calm_postHost _ _)).next
    exact calm_of_eq rfl
  · exact (Calm.refl s).next

end Sys2Proof.Machine
end

section
/-!
PROOF. No step leaves a task both aborting and about to be held (R192): the dispatch of an instruction, a step, and the statement.
-/
namespace Sys2Proof.Machine

/-- The events that order a phase state come first, then the words, family by family, then the other events. -/
theorem keepsCalm_exec (i : Instr) (s : State) : KeepsCalm s (exec i s) := by
  cases i with
  | thermalTrip die core temp => exact keepsCalm_execThermalTrip die core temp s
  | dispatch part => exact keepsCalm_execDispatch part s
  | timedStart part die => exact keepsCalm_execTimedStart part die s
  | flipX part => exact keepsCalm_execFlipX part s
  | flipC part => exact keepsCalm_execFlipC part s
  | finalStart part => exact keepsCalm_execFinalStart part s
  | taskComplete part => exact keepsCalm_execTaskComplete part s
  | heldEntry part => exact keepsCalm_execHeldEntry part s
  | phCtlHold part hold => exact keepsCalm_execPhCtlHold part hold s
  | phCtlDiscard part => exact keepsCalm_execPhCtlDiscard part s
  | phCtlAbort part => exact keepsCalm_execPhCtlAbort part s
  | witnessRecordTest num => exact keepsCalm_execWitnessRecordTest num s
  | rollback part => exact keepsCalm_execRollback part s
  | ctxOpComplete part => exact keepsCalm_execCtxOpComplete part s
  | deviceReset => exact keepsCalm_execDeviceReset s
  | hostWrite c => exact keepsCalm_execHostWrite c s
  | hostResetPartition c => exact keepsCalm_execHostResetPartition c s
  | hostResetPackage c => exact keepsCalm_execHostResetPackage c s
  | pcieFunctionLevelReset => exact keepsCalm_execPcieFunctionLevelReset s
  | wdogExpire part => exact keepsCalm_execWdogExpire part s
  | mcwdExpire die => exact keepsCalm_execMcwdExpire die s
  | registerWrite r inst v => exact keepsCalm_execRegisterWrite r inst v s
  | recoveryVerificationResult => exact keepsCalm_execRecoveryVerificationResult s
  | himm | hsched | harith =>
    dsimp only [exec]
    exact (keepsHold_runHint _ s).calm
  | add | sub | mul | mulh | min | max | and | or | xor | andn | shl | shr | sar | rol | adds | subs | avg | trunc | bfx =>
    dsimp only [exec]
    exact (keepsHold_binWord _ _ _ _ s).calm
  | abs | neg | clz | popc | brev | bswap | addi | andi | ori | xori | shli | shri | sari | mov | extw | unpk | fabs | fneg =>
    dsimp only [exec]
    exact (keepsHold_unWord _ _ _ s).calm
  | bfi | dotI8 | dotN8 | dotIn8 | dotI4 | dotN4 | dotI16 =>
    dsimp only [exec]
    exact (keepsHold_accWord _ _ _ _ s).calm
  | div | rem =>
    dsimp only [exec]
    exact (keepsHold_divWord _ _ _ _ _ _ s).calm
  | pand | por | pxor | pnot =>
    dsimp only [exec]
    exact (keepsHold_predWord _ _ _ _ s).calm
  | fadd | fsub | fmul =>
    dsimp only [exec]
    exact (keepsHold_fltBin _ _ _ _ _ s).calm
  | fmin | fmax | fcpys =>
    dsimp only [exec]
    exact (keepsHold_fltExact _ _ _ _ _ s).calm
  | fma | fms | fnma | fnms =>
    dsimp only [exec]
    exact (keepsHold_fusedWord _ _ _ _ _ _ s).calm
  | rcp | rsq | sqrt | exp2 | log2 | sinpi | cospi =>
    dsimp only [exec]
    exact (keepsHold_sfuWord _ _ _ _ _ s).calm
  | aadd | amin | amax | aand | aor | axor | axchg | acas =>
    dsimp only [exec]
    exact (keepsHold_atomWord _ _ _ _ _ _ s).calm
  | lshf | lrot | lbcst =>
    dsimp only [exec]
    exact (keepsHold_laneWord _ _ _ _ s).calm
  | lscanAdd | lscanMin | lscanMax | lscanAnd | lscanOr | lscanXor | lredAdd | lredMin | lredMax | lredAnd | lredOr
  | lredXor =>
    dsimp only [exec]
    exact (keepsHold_intFold _ _ _ _ _ _ s).calm
  | lscanFadd | lredFadd =>
    dsimp only [exec]
    exact (keepsHold_faddFold _ _ _ _ s).calm
  | lscanFmin | lscanFmax | lredFmin | lredFmax =>
    dsimp only [exec]
    exact (keepsHold_fmmFold _ _ _ _ _ _ s).calm
  | bar | barv =>
    dsimp only [exec]
    exact (keepsHold_barWord _ _ _ s).calm
  | brAny | brAll | brNone =>
    dsimp only [exec]
    exact (keepsHold_voteBranch _ _ _ s).calm
  | jr | callr | ret =>
    dsimp only [exec]
    exact (keepsHold_jumpWord _ _ _ s).calm
  | sync | syncI =>
    dsimp only [exec]
    exact (keepsHold_syncWord _ s).calm
  | xld | xst | xcpy | xredAdd | xredMin | xredMax | xredAnd | xredOr | xredXor | xredMadd =>
    dsimp only [exec]
    exact (keepsHold_postWord _ _ _ _ _ s).calm
  | xfence | xprom | topen | tseal | xcnt =>
    dsimp only [exec]
    exact (keepsHold_postLow _ _ _ _ _ s).calm
  | mldb | mmaI4 | mmaN4 | mmaI8 | mmaN8 | mmaI16 | mmaN16 | mconvI4 | mconvN4 | mconvI8 | mconvN8 | mconvI16 | mconvN16
  | mdrain | mzero =>
    dsimp only [exec]
    exact (keepsHold_opWord _ _ _ _ s).calm
  | clause len wait fla flb yld => exact (keepsHold_execClause len wait fla flb yld s).calm
  | movi d im t => exact (keepsHold_execMovi d im t s).calm
  | icmp p a b t c k => exact (keepsHold_execIcmp p a b t c k s).calm
  | icmpi p a im t k => exact (keepsHold_execIcmpi p a im t k s).calm
  | sel d a b p => exact (keepsHold_execSel d a b p s).calm
  | pack d a b t => exact (keepsHold_execPack d a b t s).calm
  | ptow d => exact (keepsHold_execPtow d s).calm
  | wtop a => exact (keepsHold_execWtop a s).calm
  | fcmp p a b t c k => exact (keepsHold_execFcmp p a b t c k s).calm
  | cvt d a dst src => exact (keepsHold_execCvt d a dst src s).calm
  | cvs d a b dst src => exact (keepsHold_execCvs d a b dst src s).calm
  | srq d a b dst src => exact (keepsHold_execSrq d a b dst src s).calm
  | fdiv d a b t f => exact (keepsHold_execFdiv d a b t f s).calm
  | fdotF16 d a b => exact (keepsHold_execFdotF16 d a b s).calm
  | ld d base im seg f z => exact (keepsHold_execLd d base im seg f z s).calm
  | st v base im seg z => exact (keepsHold_execSt v base im seg z s).calm
  | ldx d base x seg f z => exact (keepsHold_execLdx d base x seg f z s).calm
  | stx v base x seg z => exact (keepsHold_execStx v base x seg z s).calm
  | voteAny d a => exact (keepsHold_execVoteAny d a s).calm
  | voteAll d a => exact (keepsHold_execVoteAll d a s).calm
  | ballot d a => exact (keepsHold_execBallot d a s).calm
  | lpopc d a => exact (keepsHold_execLpopc d a s).calm
  | ljoin a => exact (keepsHold_execLjoin a s).calm
  | brDiv p disp => exact (keepsHold_execBrDiv p disp s).calm
  | jmp disp => exact (keepsHold_execJmp disp s).calm
  | call disp => exact (keepsHold_execCall disp s).calm
  | nop => exact (keepsHold_execNop s).calm
  | trap code => exact (keepsHold_execTrap code s).calm
  | brk code => exact (keepsHold_execBrk code s).calm
  | halt => exact (keepsHold_execHalt s).calm
  | resw a => exact (keepsHold_execResw a s).calm
  | srd d sel => exact (keepsHold_execSrd d sel s).calm
  | swr a sel => exact (keepsHold_execSwr a sel s).calm
  | kset k a => exact (keepsHold_execKset k a s).calm
  | segld a n => exact (keepsHold_execSegld a n s).calm
  | pwrp a => exact (keepsHold_execPwrp a s).calm
  | xqset a => exact (keepsHold_execXqset a s).calm
  | mwait p a => exact (keepsHold_execMwait p a s).calm
  | mstat d a => exact (keepsHold_execMstat d a s).calm
  | awit d a => exact (keepsHold_execAwit d a s).calm
  | aemit c a b => exact (keepsHold_execAemit c a b s).calm
  | aclose d c => exact (keepsHold_execAclose d c s).calm
  | await a => exact (keepsHold_execAwait a s).calm
  | clauseEnd die core grp => exact (keepsHold_execClauseEnd die core grp s).calm
  | groupSelect die core => exact (keepsHold_execGroupSelect die core s).calm
  | stayHoldExpire die core grp => exact (keepsHold_execStayHoldExpire die core grp s).calm
  | loadCompletion die core grp op => exact (keepsHold_execLoadCompletion die core grp op s).calm
  | idivCompletion die core grp op => exact (keepsHold_execIdivCompletion die core grp op s).calm
  | sfuCompletion die core grp op => exact (keepsHold_execSfuCompletion die core grp op s).calm
  | handlerEntry die core grp => exact (keepsHold_execHandlerEntry die core grp s).calm
  | strimbUpdate die str i0 i1 i2 i3 => exact (keepsHold_execStrimbUpdate die str i0 i1 i2 i3 s).calm
  | powerStateChange die str => exact (keepsHold_execPowerStateChange die str s).calm
  | regulatorPhaseLost die => exact (keepsHold_execRegulatorPhaseLost die s).calm
  | railIlimWrite die v => exact (keepsHold_execRailIlimWrite die v s).calm
  | dvfsFreqWrite die v => exact (keepsHold_execDvfsFreqWrite die v s).calm
  | dvfsForce die v => exact (keepsHold_execDvfsForce die v s).calm
  | dvfsApply die => exact (keepsHold_execDvfsApply die s).calm
  | clockStable die => exact (keepsHold_execClockStable die s).calm
  | droopDetect die str => exact (keepsHold_execDroopDetect die str s).calm
  | droopClear die str => exact (keepsHold_execDroopClear die str s).calm
  | thermMigreq die core temp => exact (keepsHold_execThermMigreq die core temp s).calm
  | thermalThrottle die core temp => exact (keepsHold_execThermalThrottle die core temp s).calm
  | throttleRepeat die => exact (keepsHold_execThrottleRepeat die s).calm
  | bindRecordWrite die slot r => exact (keepsHold_execBindRecordWrite die slot r s).calm
  | admissionInterval die => exact (keepsHold_execAdmissionInterval die s).calm
  | stragglerTimeout part => exact (keepsHold_execStragglerTimeout part s).calm
  | stragLimitWrite part v => exact (keepsHold_execStragLimitWrite part v s).calm
  | phCtlStragClear part => exact (keepsHold_execPhCtlStragClear part s).calm
  | maintCommit8 die r => exact (keepsHold_execMaintCommit8 die r s).calm
  | maintCommitLine die r line => exact (keepsHold_execMaintCommitLine die r line s).calm
  | pumiceCopy die r => exact (keepsHold_execPumiceCopy die r s).calm
  | pumiceZero die r => exact (keepsHold_execPumiceZero die r s).calm
  | maintComplete die => exact (keepsHold_execMaintComplete die s).calm
  | trootWrite part v => exact (keepsHold_execTrootWrite part v s).calm
  | carryForwardComplete idx => exact (keepsHold_execCarryForwardComplete idx s).calm
  | landingWrite src tid off op data => exact (keepsHold_execLandingWrite src tid off op data s).calm
  | remoteReadRequest src tid off len => exact (keepsHold_execRemoteReadRequest src tid off len s).calm
  | exchangeEntryStart die core pos => exact (keepsHold_execExchangeEntryStart die core pos s).calm
  | exchangeTransferDone die core pos => exact (keepsHold_execExchangeTransferDone die core pos s).calm
  | exchangeFaultPark die core pos => exact (keepsHold_execExchangeFaultPark die core pos s).calm
  | xredRequestApply die core pos => exact (keepsHold_execXredRequestApply die core pos s).calm
  | responseTimeout die core pos => exact (keepsHold_execResponseTimeout die core pos s).calm
  | appliedResponseLost die core pos => exact (keepsHold_execAppliedResponseLost die core pos s).calm
  | xpromComplete die core pos => exact (keepsHold_execXpromComplete die core pos s).calm
  | xfctlReplay part pcore index => exact (keepsHold_execXfctlReplay part pcore index s).calm
  | xfctlAbandon part => exact (keepsHold_execXfctlAbandon part s).calm
  | matrixOpComplete die core => exact (keepsHold_execMatrixOpComplete die core s).calm
  | mwaitReturn die core grp second => exact (keepsHold_execMwaitReturn die core grp second s).calm
  | mstatClearComplete die core grp => exact (keepsHold_execMstatClearComplete die core grp s).calm
  | awaitReturn die core grp second => exact (keepsHold_execAwaitReturn die core grp second s).calm
  | auditValuesArrive die core => exact (keepsHold_execAuditValuesArrive die core s).calm
  | assayFoldComplete die core => exact (keepsHold_execAssayFoldComplete die core s).calm
  | witnessRecordAccept die core => exact (keepsHold_execWitnessRecordAccept die core s).calm
  | horizonMark die core k => exact (keepsHold_execHorizonMark die core k s).calm
  | generationRelease idx => exact (keepsHold_execGenerationRelease idx s).calm
  | outboundRelease die => exact (keepsHold_execOutboundRelease die s).calm
  | rerunCompare slot => exact (keepsHold_execRerunCompare slot s).calm
  | retirementEffect unit => exact (keepsHold_execRetirementEffect unit s).calm
  | ctxSave part => exact (keepsHold_execCtxSave part s).calm
  | ctxEvict part => exact (keepsHold_execCtxEvict part s).calm
  | ctxRestore part => exact (keepsHold_execCtxRestore part s).calm
  | migctlGo part v => exact (keepsHold_execMigctlGo part v s).calm
  | lanectlResume die core grp pc mask => exact (keepsHold_execLanectlResume die core grp pc mask s).calm
  | lanectlKill die core grp mask => exact (keepsHold_execLanectlKill die core grp mask s).calm
  | getVersion m => exact (keepsHold_execGetVersion m s).calm
  | getCapabilities m => exact (keepsHold_execGetCapabilities m s).calm
  | negotiateAlgorithms m => exact (keepsHold_execNegotiateAlgorithms m s).calm
  | getDigests m => exact (keepsHold_execGetDigests m s).calm
  | getCertificate m => exact (keepsHold_execGetCertificate m s).calm
  | spdmChallenge m => exact (keepsHold_execSpdmChallenge m s).calm
  | getMeasurements m => exact (keepsHold_execGetMeasurements m s).calm
  | keyExchange m => exact (keepsHold_execKeyExchange m s).calm
  | spdmFinish m => exact (keepsHold_execSpdmFinish m s).calm
  | spdmHeartbeat m => exact (keepsHold_execSpdmHeartbeat m s).calm
  | keyUpdate m => exact (keepsHold_execKeyUpdate m s).calm
  | endSession m => exact (keepsHold_execEndSession m s).calm
  | vendorDefinedRequest m slot exp => exact (keepsHold_execVendorDefinedRequest m slot exp s).calm
  | spdmUnsupportedRequest m => exact (keepsHold_execSpdmUnsupportedRequest m s).calm
  | keyEraseConfirm slot die => exact (keepsHold_execKeyEraseConfirm slot die s).calm
  | scrubUnitDone part => exact (keepsHold_execScrubUnitDone part s).calm
  | collectiveRegister id tid members sessions => exact (keepsHold_execCollectiveRegister id tid members sessions s).calm
  | collectiveMemberChanged id member => exact (keepsHold_execCollectiveMemberChanged id member s).calm
  | hostIdent c => exact (keepsHold_execHostIdent c s).calm
  | hostStatus c => exact (keepsHold_execHostStatus c s).calm
  | hostRead c => exact (keepsHold_execHostRead c s).calm
  | hostSubmit c => exact (keepsHold_execHostSubmit c s).calm
  | hostResult c => exact (keepsHold_execHostResult c s).calm
  | hostSpdm c => exact (keepsHold_execHostSpdm c s).calm
  | hostPush c => exact (keepsHold_execHostPush c s).calm
  | hostTimeset c => exact (keepsHold_execHostTimeset c s).calm
  | wdogWrite part v => exact (keepsHold_execWdogWrite part v s).calm
  | mcwdKick die v => exact (keepsHold_execMcwdKick die v s).calm
  | devnumWrite v => exact (keepsHold_execDevnumWrite v s).calm
  | bilsolPortStateChange port st peer => exact (keepsHold_execBilsolPortStateChange port st peer s).calm
  | ptpSync port offset => exact (keepsHold_execPtpSync port offset s).calm
  | peerPushReceive src dst seq lcore lines => exact (keepsHold_execPeerPushReceive src dst seq lcore lines s).calm
  | peerrxWrite entry field v => exact (keepsHold_execPeerrxWrite entry field v s).calm
  | illegalInstruction w => exact (keepsHold_execIllegalInstruction w s).calm
  | hostUnknownOp op c => exact (keepsHold_execHostUnknownOp op c s).calm
  | frameTagFailure port => exact (keepsHold_execFrameTagFailure port s).calm

theorem holdView_atCursor (s : State) (turn : Nat) (cur : Cursor) : holdView (atCursor s turn cur).parts = holdView s.parts := by
  unfold atCursor
  dsimp only
  split
  · split
    · exact holdView_resumeReleased _ _ _ _
    · rfl
  · rfl

theorem keepsCalm_runCursor (s : State) : KeepsCalm s (runCursor s) := by
  unfold runCursor
  split
  · exact KeepsHold.calm (by simp)
  · split
    · exact keepsCalm_exec _ s
    · exact KeepsHold.calm (by simp)

/-- A step first moves the clock, the agenda, the turn and the cursor, none of which is part of a partition. -/
theorem calm_step {s t : State} (h : step s = .next t) : Calm s t := by
  unfold step at h
  split at h
  · split at h
    · cases h
    · refine Calm.trans ?_ (keepsCalm_exec _ _ t h)
      exact calm_of_eq rfl
  · split at h
    · refine Calm.trans ?_ (keepsCalm_runCursor _ t h)
      exact calm_of_eq (holdView_atCursor (tick s) _ _)
    · refine Calm.trans ?_ (keepsCalm_exec _ _ t h)
      exact calm_of_eq rfl
    · cases h
      exact calm_of_eq rfl

/-- Settles O33: no step makes a partition abort while it is about to be held, as none does so in any one partition. -/
theorem abortHoldsNothing : Obligations.AbortHoldsNothing := by
  unfold Obligations.AbortHoldsNothing
  exact fun s t hstep h p hp => (calm_step hstep).part p (h p hp)

end Sys2Proof.Machine
end
